-- ==== Sys2Proof/Word.lean ====
section
/-! DEFINITION. The machine words of the Zeluno instruction set and the map type the state is made of
(R3, R4, R15). -/

namespace Sys2Proof

/-- A byte of memory (R4). -/
abbrev Byte := BitVec 8

/-- A 64-bit word: a register cursor, an address, a control register (R151). -/
abbrev Word := BitVec 64

/-- A 96-bit instruction word (R36). -/
abbrev IWord := BitVec 96

/-- A finite map from numbers: a list of pairs with rising keys. What an unlisted key reads as is said by
the reader. -/
abbrev Sparse (α : Type) := List (Nat × α)

end Sys2Proof
end

