-- ==== Sys2Proof/Config.lean ====
section
/-! DEFINITION. What the spec leaves to the part or to the outside world: opaque constants. Nothing can be
proved about their values, so a claim that holds, holds for every one of them. Each is named in the assumption
log. -/

namespace Sys2Proof

/-- The word a read of device memory-mapped I/O returns (R269); applied to the machine's counter `fresh`. -/
opaque Config.mmioRead : Nat → Word
/-- A value the spec does not state; applied to the machine's counter `fresh`. -/
opaque Config.freeWord : Nat → Word
/-- Which way an unresolved branch is taken for the loads issued past it (R102); applied to the machine's counter
`fresh`. -/
opaque Config.guess : Nat → Bool
/-- SHAKE256 with 64 bytes of output (R452, R455, R457). -/
opaque Config.shake256 : List Byte → List Byte
/-- The encapsulation key of the ML-KEM-1024 pair of a draw of the random source (R446). -/
opaque Config.kemPublic : Nat → List Byte
/-- Decapsulation of a ciphertext under the pair of a draw, with implicit rejection (R452). -/
opaque Config.kemOpen : Nat → List Byte → BitVec 256
/-- The public key of a certificate slot and generation (R456). -/
opaque Config.slhPublic : Nat → BitVec 32 → List Byte
/-- A signature of a certificate slot and generation (R456, R457). -/
opaque Config.slhSign : Nat → BitVec 32 → List Byte → List Byte
/-- The device secret (R452). -/
opaque Config.deviceSecret : List Byte
/-- The firmware image in boot flash (R477). -/
opaque Config.firmware : List Byte
/-- Whether the image passes the checks of R477 step 4. -/
opaque Config.firmwareGood : Bool
/-- The address at which the boot ROM enters the custodian (R477 step 5). -/
opaque Config.custodianEntry : Word
/-- Whether a request or reply in flight is lost as the fabric routes around a lost or quarantined die (R295): applied to
the number of the event and that of the message. -/
opaque Config.routeLoses : Nat → Nat → Bool
/-- Which tile of a base die's cache a miss replaces; a number that names none stands for no replacement (R317): applied
to the machine's counter `fresh`. -/
opaque Config.tileVictim : Nat → Nat
/-- The two dies a link joins (R284). -/
opaque Config.linkEnds : Nat → Nat × Nat

/-- Clock of a host core in MHz before the power manager has set one (R152, R470). -/
opaque Config.hostMhz : Nat

end Sys2Proof
end

