-- ==== Sys2Proof/Machine/Shapes.lean ====
section
/-! DEFINITION. The operand classes, type codes and operand shapes of the instructions, before any of them
has a meaning: what the spec's encoding tables name (R41, R43, R50, R54, R56, and the tables of each engine
chapter). -/

namespace Sys2Proof

/-- The three kinds of core that run code (R18). -/
inductive CoreKind where
  | compute | service | host
deriving DecidableEq, Repr

/-- The guard field (R50): the negation bit and the predicate number. -/
structure Guard where
  neg : Bool
  p : BitVec 4
deriving DecidableEq, Repr

/-- What every instruction carries besides its operands: the guard (R50) and the hints H[7:1] (R54). -/
structure Hdr where
  guard : Guard
  hints : BitVec 7
deriving DecidableEq, Repr

/-- A scalar source (R43): a general register, a queue, a mesh port or a local mailbox. -/
inductive Src where
  | g (i : BitVec 6)
  | q (i : BitVec 3)
  | n (i : BitVec 2)
  | m (i : BitVec 5)
deriving DecidableEq, Repr

/-- A scalar destination (R43): a general register, a queue, a mesh port, or a mailbox `xm` of the core that
general register `k` names (R40). -/
inductive Dst where
  | g (i : BitVec 6)
  | q (i : BitVec 3)
  | n (i : BitVec 2)
  | xm (m : BitVec 5) (k : BitVec 6)
deriving DecidableEq, Repr

/-- A vector register or a predicate, where an entry allows both (R363, R364). -/
inductive VecPred where
  | vec (i : BitVec 5)
  | pred (i : BitVec 4)
deriving DecidableEq, Repr

/-- The integer type codes 0x00 to 0x07 (R56). -/
inductive IntTy where
  | i8 | i16 | i32 | i64 | n8 | n16 | n32 | n64
deriving DecidableEq, Repr

/-- The scalar floating-point type codes 0x08 to 0x0A (R193). -/
inductive FpTy where
  | f32 | bf16 | f16
deriving DecidableEq, Repr

/-- The format codes of FCVT (R197). -/
inductive CvtTy where
  | f32 | bf16 | f16 | e4m3 | e5m2 | i32 | i64 | n64
deriving DecidableEq, Repr

/-- The format codes of VCVT (R365). -/
inductive VcvtTy where
  | f32 | bf16 | f16 | e4m3 | e5m2 | i32 | i16 | i8
deriving DecidableEq, Repr

/-- The vector types (R351). -/
inductive VTy where
  | i8 | i16 | i32 | n8 | n16 | n32 | f32 | bf16 | f16 | e4m3 | e5m2
deriving DecidableEq, Repr

/-- The integer conditions of CMP and BRC (R174). -/
inductive Cond where
  | eq | ne | lt | le | gt | ge
deriving DecidableEq, Repr

/-- The conditions of FCMP and VCMP (R198, R363). -/
inductive FCond where
  | eq | lt | le | un
deriving DecidableEq, Repr

/-- The scopes (R107). -/
inductive Scope where
  | ctx | core | clu | die | part | sys
deriving DecidableEq, Repr

/-- The fence kinds (R202). -/
inductive FenceKind where
  | acq | rel | full
deriving DecidableEq, Repr

/-- The types of AMO and AMOR (R296). -/
inductive AmoTy where
  | i32 | i64 | n32 | n64 | f32
deriving DecidableEq, Repr

/-- The operations of AMO and AMOR (R296). -/
inductive AmoOp where
  | add | and | or | xor | min | max | swap | cas | fadd
deriving DecidableEq, Repr

/-- Phaser roles (R304). -/
inductive Role where
  | sig | wait | both
deriving DecidableEq, Repr

/-- Bank modes (R216). -/
inductive BankMode where
  | cache | scratch | fifo
deriving DecidableEq, Repr

/-- Page sizes of TLBINV `.page` (R223). -/
inductive PageSize where
  | k4 | k64 | m2 | g1
deriving DecidableEq, Repr

/-- The fields CGET reads (R184). -/
inductive CapField where
  | addr | base | len | perm | seal | key | tag | bnd
deriving DecidableEq, Repr

/-- The readings of JRD that change nothing (R213). -/
inductive JrdSel where
  | addr | data | stat
deriving DecidableEq, Repr

/-- Where PREF asks for the line (R207). -/
inductive PrefLvl where
  | l1 | l2 | l2x
deriving DecidableEq, Repr

/-- Types of SRED (R331). -/
inductive SredTy where
  | i32 | i64 | n32 | n64 | f32 | bf16 | f16
deriving DecidableEq, Repr

/-- Operations of SRED (R333). -/
inductive SredOp where
  | add | min | max | and | or | xor
deriving DecidableEq, Repr

/-- The variants of COPY and COPYR (R349). -/
inductive Dims where
  | d1 | d2 | d3
deriving DecidableEq, Repr

/-- MMA formats (R384). -/
inductive MmaTy where
  | i8 | bf16 | f16 | e4m3 | e5m2 | mx8 | mx6 | mx4
deriving DecidableEq, Repr

/-- MLD modes (R388). -/
inductive MldMode where
  | rows | t8 | t16 | scale
deriving DecidableEq, Repr

/-- Destination types of ACCST and ACCMOV (R385, R398). -/
inductive AccTy where
  | i8 | i16 | i32 | f32 | bf16 | f16 | e4m3 | e5m2
deriving DecidableEq, Repr

/-! Codes: each enumeration has its number in the encoding, the list of its values, and the reader. -/

def IntTy.code : IntTy → BitVec 6
  | .i8 => 0 | .i16 => 1 | .i32 => 2 | .i64 => 3 | .n8 => 4 | .n16 => 5 | .n32 => 6 | .n64 => 7
def IntTy.all : List IntTy := [.i8, .i16, .i32, .i64, .n8, .n16, .n32, .n64]
def IntTy.ofCode (c : BitVec 6) : Option IntTy := IntTy.all.find? fun t => t.code == c

def FpTy.code : FpTy → BitVec 6
  | .f32 => 8 | .bf16 => 9 | .f16 => 10
def FpTy.all : List FpTy := [.f32, .bf16, .f16]
def FpTy.ofCode (c : BitVec 6) : Option FpTy := FpTy.all.find? fun t => t.code == c

def CvtTy.code : CvtTy → BitVec 3
  | .f32 => 0 | .bf16 => 1 | .f16 => 2 | .e4m3 => 3 | .e5m2 => 4 | .i32 => 5 | .i64 => 6 | .n64 => 7
def CvtTy.ofCode (c : BitVec 3) : CvtTy :=
  match c.toNat with
  | 0 => .f32 | 1 => .bf16 | 2 => .f16 | 3 => .e4m3 | 4 => .e5m2 | 5 => .i32 | 6 => .i64 | _ => .n64

def VcvtTy.code : VcvtTy → BitVec 3
  | .f32 => 0 | .bf16 => 1 | .f16 => 2 | .e4m3 => 3 | .e5m2 => 4 | .i32 => 5 | .i16 => 6 | .i8 => 7
def VcvtTy.ofCode (c : BitVec 3) : VcvtTy :=
  match c.toNat with
  | 0 => .f32 | 1 => .bf16 | 2 => .f16 | 3 => .e4m3 | 4 => .e5m2 | 5 => .i32 | 6 => .i16 | _ => .i8

def VTy.code : VTy → BitVec 5
  | .i8 => 0 | .i16 => 1 | .i32 => 2 | .n8 => 4 | .n16 => 5 | .n32 => 6
  | .f32 => 8 | .bf16 => 9 | .f16 => 10 | .e4m3 => 11 | .e5m2 => 12
def VTy.all : List VTy := [.i8, .i16, .i32, .n8, .n16, .n32, .f32, .bf16, .f16, .e4m3, .e5m2]
def VTy.ofCode (c : BitVec 5) : Option VTy := VTy.all.find? fun t => t.code == c

def Cond.code : Cond → BitVec 3
  | .eq => 0 | .ne => 1 | .lt => 2 | .le => 3 | .gt => 4 | .ge => 5
def Cond.all : List Cond := [.eq, .ne, .lt, .le, .gt, .ge]
def Cond.ofCode (c : BitVec 3) : Option Cond := Cond.all.find? fun t => t.code == c

def FCond.code : FCond → BitVec 2
  | .eq => 0 | .lt => 1 | .le => 2 | .un => 3
def FCond.ofCode (c : BitVec 2) : FCond :=
  match c.toNat with
  | 0 => .eq | 1 => .lt | 2 => .le | _ => .un

def Scope.code : Scope → BitVec 3
  | .ctx => 0 | .core => 1 | .clu => 2 | .die => 3 | .part => 4 | .sys => 5
def Scope.all : List Scope := [.ctx, .core, .clu, .die, .part, .sys]
def Scope.ofCode (c : BitVec 3) : Option Scope := Scope.all.find? fun t => t.code == c

def FenceKind.code : FenceKind → BitVec 3
  | .acq => 0 | .rel => 1 | .full => 2
def FenceKind.all : List FenceKind := [.acq, .rel, .full]
def FenceKind.ofCode (c : BitVec 3) : Option FenceKind := FenceKind.all.find? fun t => t.code == c

def AmoTy.code : AmoTy → BitVec 6
  | .i32 => 2 | .i64 => 3 | .n32 => 6 | .n64 => 7 | .f32 => 8
def AmoTy.all : List AmoTy := [.i32, .i64, .n32, .n64, .f32]
def AmoTy.ofCode (c : BitVec 6) : Option AmoTy := AmoTy.all.find? fun t => t.code == c

def AmoOp.code : AmoOp → BitVec 4
  | .add => 0 | .and => 1 | .or => 2 | .xor => 3 | .min => 4 | .max => 5 | .swap => 6 | .cas => 7 | .fadd => 8
def AmoOp.all : List AmoOp := [.add, .and, .or, .xor, .min, .max, .swap, .cas, .fadd]
def AmoOp.ofCode (c : BitVec 4) : Option AmoOp := AmoOp.all.find? fun t => t.code == c

def Role.code : Role → BitVec 2
  | .sig => 1 | .wait => 2 | .both => 3
def Role.all : List Role := [.sig, .wait, .both]
def Role.ofCode (c : BitVec 2) : Option Role := Role.all.find? fun t => t.code == c

def BankMode.code : BankMode → BitVec 6
  | .cache => 0 | .scratch => 1 | .fifo => 2
def BankMode.all : List BankMode := [.cache, .scratch, .fifo]
def BankMode.ofCode (c : BitVec 6) : Option BankMode := BankMode.all.find? fun t => t.code == c

def PageSize.code : PageSize → BitVec 2
  | .k4 => 0 | .k64 => 1 | .m2 => 2 | .g1 => 3
def PageSize.ofCode (c : BitVec 2) : PageSize :=
  match c.toNat with
  | 0 => .k4 | 1 => .k64 | 2 => .m2 | _ => .g1

def CapField.code : CapField → BitVec 6
  | .addr => 0 | .base => 1 | .len => 2 | .perm => 3 | .seal => 4 | .key => 5 | .tag => 6 | .bnd => 7
def CapField.all : List CapField := [.addr, .base, .len, .perm, .seal, .key, .tag, .bnd]
def CapField.ofCode (c : BitVec 6) : Option CapField := CapField.all.find? fun t => t.code == c

def JrdSel.code : JrdSel → BitVec 6
  | .addr => 0 | .data => 1 | .stat => 2
def PrefLvl.code : PrefLvl → BitVec 6
  | .l1 => 0 | .l2 => 1 | .l2x => 2
def PrefLvl.all : List PrefLvl := [.l1, .l2, .l2x]
def PrefLvl.ofCode (c : BitVec 6) : Option PrefLvl := PrefLvl.all.find? fun t => t.code == c

def SredTy.code : SredTy → BitVec 6
  | .i32 => 2 | .i64 => 3 | .n32 => 6 | .n64 => 7 | .f32 => 8 | .bf16 => 9 | .f16 => 10
def SredTy.all : List SredTy := [.i32, .i64, .n32, .n64, .f32, .bf16, .f16]
def SredTy.ofCode (c : BitVec 6) : Option SredTy := SredTy.all.find? fun t => t.code == c

def SredOp.code : SredOp → BitVec 4
  | .add => 0 | .min => 1 | .max => 2 | .and => 3 | .or => 4 | .xor => 5
def SredOp.all : List SredOp := [.add, .min, .max, .and, .or, .xor]
def SredOp.ofCode (c : BitVec 4) : Option SredOp := SredOp.all.find? fun t => t.code == c

def Dims.code : Dims → BitVec 6
  | .d1 => 0 | .d2 => 1 | .d3 => 2
def Dims.all : List Dims := [.d1, .d2, .d3]
def Dims.ofCode (c : BitVec 6) : Option Dims := Dims.all.find? fun t => t.code == c

def MmaTy.code : MmaTy → BitVec 6
  | .i8 => 0 | .bf16 => 9 | .f16 => 10 | .e4m3 => 11 | .e5m2 => 12 | .mx8 => 13 | .mx6 => 14 | .mx4 => 15
def MmaTy.all : List MmaTy := [.i8, .bf16, .f16, .e4m3, .e5m2, .mx8, .mx6, .mx4]
def MmaTy.ofCode (c : BitVec 6) : Option MmaTy := MmaTy.all.find? fun t => t.code == c

def MldMode.code : MldMode → BitVec 2
  | .rows => 0 | .t8 => 1 | .t16 => 2 | .scale => 3
def MldMode.ofCode (c : BitVec 2) : MldMode :=
  match c.toNat with
  | 0 => .rows | 1 => .t8 | 2 => .t16 | _ => .scale

def AccTy.code : AccTy → BitVec 5
  | .i8 => 0 | .i16 => 1 | .i32 => 2 | .f32 => 8 | .bf16 => 9 | .f16 => 10 | .e4m3 => 11 | .e5m2 => 12
def AccTy.all : List AccTy := [.i8, .i16, .i32, .f32, .bf16, .f16, .e4m3, .e5m2]
def AccTy.ofCode (c : BitVec 5) : Option AccTy := AccTy.all.find? fun t => t.code == c

/-- Width of an integer type in bits (R163). -/
def IntTy.width : IntTy → Nat
  | .i8 | .n8 => 8 | .i16 | .n16 => 16 | .i32 | .n32 => 32 | .i64 | .n64 => 64
/-- Whether an integer type is signed (R163). -/
def IntTy.signed : IntTy → Bool
  | .i8 | .i16 | .i32 | .i64 => true | _ => false
/-- Bytes an integer type moves (R203). -/
def IntTy.bytes (t : IntTy) : Nat := t.width / 8

/-- Whether a vector type is an integer type (R357). -/
def VTy.isInt : VTy → Bool
  | .i8 | .i16 | .i32 | .n8 | .n16 | .n32 => true | _ => false
/-- Whether a vector type is one of the signed integer types. -/
def VTy.isSigned : VTy → Bool
  | .i8 | .i16 | .i32 => true | _ => false
/-- Whether a vector type is an 8-bit floating-point type. -/
def VTy.isF8 : VTy → Bool
  | .e4m3 | .e5m2 => true | _ => false
/-- Width of a vector element (R351). -/
def VTy.width : VTy → Nat
  | .i8 | .n8 | .e4m3 | .e5m2 => 8 | .i16 | .n16 | .bf16 | .f16 => 16 | .i32 | .n32 | .f32 => 32

/-- The class value of a scalar source (R41). -/
def Src.code : Src → BitVec 8
  | .g i => 0#2 ++ i
  | .q i => 0b01110#5 ++ i
  | .n i => 0b011110#6 ++ i
  | .m i => 0b100#3 ++ i

/-- The class value of a scalar destination (R41). -/
def Dst.code : Dst → BitVec 8
  | .g i => 0#2 ++ i
  | .q i => 0b01110#5 ++ i
  | .n i => 0b011110#6 ++ i
  | .xm m _ => 0b110#3 ++ m

/-- The register X[42:35] names for a remote mailbox destination; 0x00 for any other (R40). -/
def Dst.xcode : Dst → BitVec 8
  | .xm _ k => 0#2 ++ k
  | _ => 0

def VecPred.code : VecPred → BitVec 8
  | .vec i => 0b010#3 ++ i
  | .pred i => 0b0110#4 ++ i

/-- Who performs a write to a control register of a window: the level, and the partition, virtual function
and world the access carries (R429). -/
structure Writer where
  custodian : Bool
  part : BitVec 8
  vf : BitVec 4
  world : Bool
deriving DecidableEq, Repr

/-! Operand shapes. Each constructor of `Instr` has one of these, so that a family's meanings share them. -/

/-- ADD, SUB, MUL (R168). -/
structure Alu3 where
  h : Hdr
  ty : IntTy
  d : Dst
  a : Src
  b : Src
  c : Src
  imm : BitVec 35
deriving DecidableEq, Repr

/-- The other two-operand integer instructions (R168). -/
structure Alu2 where
  h : Hdr
  ty : IntTy
  d : Dst
  a : Src
  b : Src
  imm : BitVec 35
deriving DecidableEq, Repr

/-- CLZ, POPC (R168). -/
structure Alu1 where
  h : Hdr
  ty : IntTy
  d : Dst
  a : Src
deriving DecidableEq, Repr

/-- CMP (R174). -/
structure CmpOps where
  h : Hdr
  cond : Cond
  ty : IntTy
  p : BitVec 4
  a : Src
  b : Src
  imm : BitVec 35
deriving DecidableEq, Repr

/-- SEL (R175). -/
structure SelOps where
  h : Hdr
  ty : IntTy
  d : Dst
  a : Src
  b : Src
  c : BitVec 4
  imm : BitVec 35
deriving DecidableEq, Repr

/-- MOVI (R176). -/
structure MoviOps where
  h : Hdr
  d : Dst
  imm : BitVec 43
deriving DecidableEq, Repr

/-- MOVHI (R176). -/
structure MovhiOps where
  h : Hdr
  d : Dst
  a : Src
  imm : BitVec 21
deriving DecidableEq, Repr

/-- CSETP, CADD, CKEY (R177). -/
structure CapImm where
  h : Hdr
  d : BitVec 6
  a : BitVec 6
  b : Src
  imm : BitVec 35
deriving DecidableEq, Repr

/-- CSETB (R179). -/
structure CsetbOps where
  h : Hdr
  exact : Bool
  d : BitVec 6
  a : BitVec 6
  b : Src
  imm : BitVec 35
deriving DecidableEq, Repr

/-- CSEAL, CUNSEAL (R183), and three general registers elsewhere. -/
structure CapAuth where
  h : Hdr
  d : BitVec 6
  a : BitVec 6
  b : BitVec 6
deriving DecidableEq, Repr

/-- CGET (R184). -/
structure CgetOps where
  h : Hdr
  field : CapField
  d : Dst
  a : BitVec 6
deriving DecidableEq, Repr

/-- CTEST (R185): `.sub` names B, `.tag` does not. -/
structure CtestOps where
  h : Hdr
  p : BitVec 4
  a : BitVec 6
  sub : Option (BitVec 6)
deriving DecidableEq, Repr

/-- An instruction with no operand. -/
structure NoOps where
  h : Hdr
deriving DecidableEq, Repr

/-- A 43-bit immediate alone: BR, TRAPI, BRK. -/
structure ImmOps where
  h : Hdr
  imm : BitVec 43
deriving DecidableEq, Repr

/-- BRC (R186). -/
structure BrcOps where
  h : Hdr
  cond : Cond
  ty : IntTy
  a : Src
  b : Src
  disp : BitVec 35
deriving DecidableEq, Repr

/-- CALL (R186). -/
structure CallOps where
  h : Hdr
  d : BitVec 6
  disp : BitVec 43
deriving DecidableEq, Repr

/-- One general register: RET, ERET, LAUNCH, MSAVE. -/
structure OneG where
  h : Hdr
  a : BitVec 6
deriving DecidableEq, Repr

/-- JMPI (R186). -/
structure JmpiOps where
  h : Hdr
  d : BitVec 6
  a : BitVec 6
deriving DecidableEq, Repr

/-- LOOP (R186). -/
structure LoopOps where
  h : Hdr
  d : BitVec 6
  a : BitVec 6
  disp : BitVec 35
deriving DecidableEq, Repr

/-- One scalar source: END, DONE, PHLEAVE. -/
structure OneSrc where
  h : Hdr
  a : Src
deriving DecidableEq, Repr

/-- FADD, FSUB, FMUL, FDIV (R193). -/
structure Fp2 where
  h : Hdr
  ty : FpTy
  d : Dst
  a : Src
  b : Src
deriving DecidableEq, Repr

/-- FFMA (R193). -/
structure Fp3 where
  h : Hdr
  ty : FpTy
  d : Dst
  a : Src
  b : Src
  c : Src
deriving DecidableEq, Repr

/-- FSQRT (R193). -/
structure Fp1 where
  h : Hdr
  ty : FpTy
  d : Dst
  a : Src
deriving DecidableEq, Repr

/-- FCVT (R197). -/
structure FcvtOps where
  h : Hdr
  dst : CvtTy
  src : CvtTy
  d : Dst
  a : Src
deriving DecidableEq, Repr

/-- FCMP (R198). -/
structure FcmpOps where
  h : Hdr
  cond : FCond
  ty : FpTy
  p : BitVec 4
  a : Src
  b : Src
deriving DecidableEq, Repr

/-- LD (R202). -/
structure LdOps where
  h : Hdr
  ty : IntTy
  d : Dst
  a : BitVec 6
  off : BitVec 43
deriving DecidableEq, Repr

/-- ST, PST (R202, R208). -/
structure StOps where
  h : Hdr
  ty : IntTy
  a : BitVec 6
  b : Src
  off : BitVec 43
deriving DecidableEq, Repr

/-- LDC, STC: two general registers and an offset (R202). -/
structure CapMem where
  h : Hdr
  r : BitVec 6
  a : BitVec 6
  off : BitVec 43
deriving DecidableEq, Repr

/-- LDTG (R202). -/
structure LdtgOps where
  h : Hdr
  d : Dst
  a : BitVec 6
  off : BitVec 43
deriving DecidableEq, Repr

/-- STTG (R202). -/
structure SttgOps where
  h : Hdr
  z : Bool
  a : BitVec 6
  b : Src
  off : BitVec 43
deriving DecidableEq, Repr

/-- PREF (R207). -/
structure PrefOps where
  h : Hdr
  lvl : PrefLvl
  a : BitVec 6
  off : BitVec 43
deriving DecidableEq, Repr

/-- LDACQ (R202). -/
structure LdacqOps where
  h : Hdr
  scope : Scope
  ty : IntTy
  d : Dst
  a : BitVec 6
  off : BitVec 43
deriving DecidableEq, Repr

/-- STREL (R202). -/
structure StrelOps where
  h : Hdr
  scope : Scope
  ty : IntTy
  a : BitVec 6
  b : Src
  off : BitVec 43
deriving DecidableEq, Repr

/-- FENCE (R202). -/
structure FenceOps where
  h : Hdr
  scope : Scope
  kind : FenceKind
deriving DecidableEq, Repr

/-- AMSG (R214). -/
structure AmsgOps where
  h : Hdr
  a : BitVec 6
  b : Src
  arg : BitVec 8
  narg : BitVec 3
deriving DecidableEq, Repr

/-- SYSC (R219). -/
structure SyscOps where
  h : Hdr
  a : Src
  b : BitVec 6
  arg : BitVec 8
  narg : BitVec 3
deriving DecidableEq, Repr

/-- JRD's readings (R213). -/
structure JrdOps where
  h : Hdr
  sel : JrdSel
  d : Dst
  a : Src
deriving DecidableEq, Repr

/-- A scalar destination and a scalar source: JRD.clr, WFE, the custody instructions. -/
structure DstSrc where
  h : Hdr
  d : Dst
  a : Src
deriving DecidableEq, Repr

/-- A scalar destination and two scalar sources: MIGR, PHSIG, PHWAIT, FLEND. -/
structure DstSrc2 where
  h : Hdr
  d : Dst
  a : Src
  b : Src
deriving DecidableEq, Repr

/-- MWAIT (R209). -/
structure MwaitOps where
  h : Hdr
  all : Bool
  d : Dst
  a : Src
deriving DecidableEq, Repr

/-- BANKCFG (R218). -/
structure BankcfgOps where
  h : Hdr
  mode : BankMode
  a : Src
  b : Src
deriving DecidableEq, Repr

/-- CSRR (R217). -/
structure CsrrOps where
  h : Hdr
  d : Dst
  num : BitVec 12
deriving DecidableEq, Repr

/-- CSRW (R217). -/
structure CsrwOps where
  h : Hdr
  a : Src
  num : BitVec 12
deriving DecidableEq, Repr

/-- ERET (R220). -/
structure EretOps where
  h : Hdr
  kern : Bool
  a : BitVec 6
deriving DecidableEq, Repr

/-- TLBINV `.page` (R223). -/
structure TlbPageOps where
  h : Hdr
  size : PageSize
  a : Src
deriving DecidableEq, Repr

/-- A scalar destination and a capability: TSPAWN, TCONT.ready, MRESTORE, TCREG.add. -/
structure DstCap where
  h : Hdr
  d : Dst
  a : BitVec 6
deriving DecidableEq, Repr

/-- TSIG (R263). -/
structure TsigOps where
  h : Hdr
  a : BitVec 6
  b : Src
  dec : BitVec 32
deriving DecidableEq, Repr

/-- FGET (R263). -/
structure FgetOps where
  h : Hdr
  d : Dst
  k : BitVec 2
deriving DecidableEq, Repr

/-- FPUT (R263). -/
structure FputOps where
  h : Hdr
  b : Src
  k : BitVec 2
deriving DecidableEq, Repr

/-- TCONT.end (R263). -/
structure TcontEndOps where
  h : Hdr
  d : Dst
  a : BitVec 6
  b : Src
deriving DecidableEq, Repr

/-- TREC (R263). -/
structure TrecOps where
  h : Hdr
  d : Dst
  a : BitVec 6
  b : Src
  arg : BitVec 8
  narg : BitVec 3
deriving DecidableEq, Repr

/-- AMO (R296); `cv` is the new value of `cas`. -/
structure AmoOps where
  h : Hdr
  ty : AmoTy
  d : Dst
  a : BitVec 6
  b : Src
  ofs : BitVec 16
  cv : Src
  ord : BitVec 2
  scope : Scope
  op : AmoOp
deriving DecidableEq, Repr

/-- AMOR (R296). -/
structure AmorOps where
  h : Hdr
  ty : AmoTy
  a : BitVec 6
  b : Src
  ofs : BitVec 16
  ord : BitVec 2
  scope : Scope
  op : AmoOp
deriving DecidableEq, Repr

/-- PHNEW (R304). -/
structure PhnewOps where
  h : Hdr
  d : Dst
  ctr : Bool
  die : Option (BitVec 5)
deriving DecidableEq, Repr

/-- PHJOIN (R304). -/
structure PhjoinOps where
  h : Hdr
  d : Dst
  a : Src
  role : Role
deriving DecidableEq, Repr

/-- PHROLE (R304). -/
structure PhroleOps where
  h : Hdr
  a : Src
  role : Role
deriving DecidableEq, Repr

/-- CTRREAD (R304). -/
structure CtrreadOps where
  h : Hdr
  d : Dst
  a : Src
  idx : BitVec 3
deriving DecidableEq, Repr

/-- TCREG.del, TCREG.stat (R325). -/
structure DstId where
  h : Hdr
  d : Dst
  id : BitVec 16
deriving DecidableEq, Repr

/-- TCLOOK (R325). -/
structure TclookOps where
  h : Hdr
  a : BitVec 6
  b : Src
  id : BitVec 16
deriving DecidableEq, Repr

/-- TCPF (R325). -/
structure TcpfOps where
  h : Hdr
  b : Src
  id : BitVec 16
  mask : BitVec 8
  stride : BitVec 8
deriving DecidableEq, Repr

/-- TCHALO (R325). -/
structure TchaloOps where
  h : Hdr
  edge : Bool
  a : BitVec 6
  b : Src
  id : BitVec 16
  w : BitVec 4
deriving DecidableEq, Repr

/-- TCINV (R325). -/
structure TcinvOps where
  h : Hdr
  id : BitVec 16
deriving DecidableEq, Repr

/-- SGATH (R331). -/
structure SgathOps where
  h : Hdr
  n64 : Bool
  d : BitVec 6
  a : BitVec 6
  b : BitVec 6
  count : BitVec 13
  roww : BitVec 12
deriving DecidableEq, Repr

/-- SRED (R331). -/
structure SredOps where
  h : Hdr
  ty : SredTy
  d : BitVec 6
  a : BitVec 6
  count : BitVec 23
  op : SredOp
deriving DecidableEq, Repr

/-- SCONV (R331). -/
structure SconvOps where
  h : Hdr
  d : BitVec 6
  a : BitVec 6
  b : BitVec 6
  sf : BitVec 6
  df : BitVec 6
  rm : BitVec 3
  count : BitVec 24
deriving DecidableEq, Repr

/-- COPY (R349). -/
structure CopyOps where
  h : Hdr
  dims : Dims
  d : BitVec 6
  a : BitVec 6
  b : BitVec 6
  ch : BitVec 2
deriving DecidableEq, Repr

/-- COPYR (R349). -/
structure CopyrOps where
  h : Hdr
  dims : Dims
  d : BitVec 6
  a : BitVec 6
  b : BitVec 6
  ch : BitVec 2
  die : BitVec 5
  flag : BitVec 8
deriving DecidableEq, Repr

/-- WPRD (R349). -/
structure WprdOps where
  h : Hdr
  d : Dst
  ch : BitVec 2
deriving DecidableEq, Repr

/-- TLWAIT (R349). -/
structure TlwaitOps where
  h : Hdr
  scope : Scope
  d : Dst
  b : Src
  tl : BitVec 3
  n : BitVec 35
deriving DecidableEq, Repr

/-- TLRD (R349). -/
structure TlrdOps where
  h : Hdr
  iss : Bool
  d : Dst
  tl : BitVec 3
deriving DecidableEq, Repr

/-- VADD, VSUB, VMUL and, with `sat` false, VMIN, VMAX, VSHL, VSHR, VPERM (R357, R367). -/
structure V2 where
  h : Hdr
  sat : Bool
  ty : VTy
  d : BitVec 5
  a : BitVec 5
  b : BitVec 5
deriving DecidableEq, Repr

/-- VFMA (R357). -/
structure V3 where
  h : Hdr
  sat : Bool
  ty : VTy
  d : BitVec 5
  a : BitVec 5
  b : BitVec 5
  c : BitVec 5
deriving DecidableEq, Repr

/-- One-source vector instructions (R357, R367). -/
structure V1 where
  h : Hdr
  sat : Bool
  ty : VTy
  d : BitVec 5
  a : BitVec 5
deriving DecidableEq, Repr

/-- VAND, VOR, VXOR (R357). -/
structure VLogic where
  h : Hdr
  d : BitVec 5
  a : BitVec 5
  b : BitVec 5
deriving DecidableEq, Repr

/-- VCMP (R363). -/
structure VcmpOps where
  h : Hdr
  cond : FCond
  ty : VTy
  d : VecPred
  a : BitVec 5
  b : BitVec 5
deriving DecidableEq, Repr

/-- VSEL (R364). -/
structure VselOps where
  h : Hdr
  d : BitVec 5
  a : BitVec 5
  b : BitVec 5
  c : VecPred
deriving DecidableEq, Repr

/-- VCVT (R365). -/
structure VcvtOps where
  h : Hdr
  src : VcvtTy
  dst : VcvtTy
  d : BitVec 5
  a : BitVec 5
  b : Src
deriving DecidableEq, Repr

/-- VREDADD, VREDMAX (R367). -/
structure VredOps where
  h : Hdr
  ty : VTy
  d : Dst
  a : BitVec 5
deriving DecidableEq, Repr

/-- VBCAST (R367). -/
structure VbcastOps where
  h : Hdr
  ty : VTy
  d : BitVec 5
  a : Src
deriving DecidableEq, Repr

/-- VLD (R372). -/
structure VldOps where
  h : Hdr
  d : BitVec 5
  a : BitVec 6
  off : BitVec 43
deriving DecidableEq, Repr

/-- VST (R372). -/
structure VstOps where
  h : Hdr
  a : BitVec 6
  b : BitVec 5
  off : BitVec 43
deriving DecidableEq, Repr

/-- VLDS (R372). -/
structure VldsOps where
  h : Hdr
  d : BitVec 5
  a : BitVec 6
  b : Src
  off : BitVec 35
deriving DecidableEq, Repr

/-- VGATH (R372). -/
structure VgathOps where
  h : Hdr
  sc : BitVec 2
  d : BitVec 5
  a : BitVec 6
  b : BitVec 5
  off : BitVec 35
deriving DecidableEq, Repr

/-- VSCAT (R372). -/
structure VscatOps where
  h : Hdr
  sc : BitVec 2
  a : BitVec 6
  b : BitVec 5
  c : BitVec 5
  off : BitVec 35
deriving DecidableEq, Repr

/-- VMOVG `.get` (R371). -/
structure VgetOps where
  h : Hdr
  ty : VTy
  d : Dst
  a : BitVec 5
  b : Src
  imm : BitVec 35
deriving DecidableEq, Repr

/-- VMOVG `.put` (R371). -/
structure VputOps where
  h : Hdr
  ty : VTy
  d : BitVec 5
  a : Src
  b : Src
  imm : BitVec 35
deriving DecidableEq, Repr

/-- MCLAIM (R385). -/
structure MclaimOps where
  h : Hdr
  d : Dst
  a : BitVec 6
  accm : BitVec 8
  slotm : BitVec 32
deriving DecidableEq, Repr

/-- MREL (R385). -/
structure MrelOps where
  h : Hdr
  accm : BitVec 8
  slotm : BitVec 32
deriving DecidableEq, Repr

/-- MLD (R385, R388). -/
structure MldOps where
  h : Hdr
  sw : Bool
  mode : MldMode
  a : BitVec 6
  b : Src
  slot : BitVec 5
  span2 : Bool
  zrows : BitVec 5
deriving DecidableEq, Repr

/-- MMA (R385). -/
structure MmaOps where
  h : Hdr
  ty : MmaTy
  b : Src
  sa : BitVec 5
  sb : BitVec 5
  accd : BitVec 3
  accc : BitVec 3
  z : Bool
  ip : Bool
  f : Bool
  m : Bool
  diag : BitVec 6
deriving DecidableEq, Repr

/-- MTERN (R385). -/
structure MternOps where
  h : Hdr
  n8 : Bool
  sa : BitVec 5
  sb : BitVec 5
  accd : BitVec 3
  accc : BitVec 3
  z : Bool
  ip : Bool
  m : Bool
  diag : BitVec 6
deriving DecidableEq, Repr

/-- ACCZ (R385). -/
structure AcczOps where
  h : Hdr
  accm : BitVec 8
deriving DecidableEq, Repr

/-- ACCLD (R385). -/
structure AccldOps where
  h : Hdr
  a : BitVec 6
  b : Src
  acc : BitVec 3
deriving DecidableEq, Repr

/-- ACCST (R385). -/
structure AccstOps where
  h : Hdr
  si : Bool
  ty : AccTy
  a : BitVec 6
  b : Src
  acc : BitVec 3
  rm : BitVec 3
deriving DecidableEq, Repr

/-- ACCMOV (R385). -/
structure AccmovOps where
  h : Hdr
  si : Bool
  t : Bool
  ty : AccTy
  acc : BitVec 3
  rm : BitVec 3
  slot : BitVec 5
  ofs : Bool
deriving DecidableEq, Repr

/-- BCENT (R420). -/
structure BcentOps where
  h : Hdr
  nolate : Bool
  d : Dst
  b : Src
  cid : BitVec 12
deriving DecidableEq, Repr

/-- BCLISTEN (R420). -/
structure BclistenOps where
  h : Hdr
  d : Dst
  cid : BitVec 12
deriving DecidableEq, Repr

/-- BCBIND.bind (R420). -/
structure BindOps where
  h : Hdr
  d : Dst
  lane : BitVec 4
  cid : BitVec 12
  rot : Bool
deriving DecidableEq, Repr

/-- BCBIND.unbind, BCBIND.stat (R420). -/
structure LaneOps where
  h : Hdr
  d : Dst
  lane : BitVec 4
deriving DecidableEq, Repr

/-- BCBIND.assign (R420). -/
structure AssignOps where
  h : Hdr
  d : Dst
  lane : BitVec 4
  part : BitVec 8
deriving DecidableEq, Repr

/-- A scalar destination alone: FQUERY.strk. -/
structure OneDst where
  h : Hdr
  d : Dst
deriving DecidableEq, Repr

end Sys2Proof
end

