-- ==== Sys2Proof/Syntax.lean ====
section
/-! DEFINITION. The instructions and events of the Zeluno instruction set, one constructor for each row of the
opcode table (R62, spec/95_what_each_step_holds.md). An instruction row is decoded from three words; an event row
is a step some agent of the machine takes, and its arguments say which. -/

namespace Sys2Proof

inductive Instr where
  /-- ADD (R169). -/
  | add (o : Alu3)
  /-- SUB (R169). -/
  | sub (o : Alu3)
  /-- MUL (R169). -/
  | mul (o : Alu3)
  /-- MULH (R169). -/
  | mulh (o : Alu2)
  /-- DIV (R170). -/
  | div (o : Alu2)
  /-- REM (R170). -/
  | rem (o : Alu2)
  /-- AND (R169). -/
  | and (o : Alu2)
  /-- OR (R169). -/
  | or (o : Alu2)
  /-- XOR (R169). -/
  | xor (o : Alu2)
  /-- ANDN (R169). -/
  | andn (o : Alu2)
  /-- SHL (R171). -/
  | shl (o : Alu2)
  /-- SHR (R171). -/
  | shr (o : Alu2)
  /-- SAR (R171). -/
  | sar (o : Alu2)
  /-- ROT (R171). -/
  | rot (o : Alu2)
  /-- CLZ (R173). -/
  | clz (o : Alu1)
  /-- POPC (R173). -/
  | popc (o : Alu1)
  /-- MIN (R172). -/
  | min (o : Alu2)
  /-- MAX (R172). -/
  | max (o : Alu2)
  /-- CMP (R174). -/
  | cmp (o : CmpOps)
  /-- SEL (R175). -/
  | sel (o : SelOps)
  /-- MOVI (R176). -/
  | movi (o : MoviOps)
  /-- MOVHI (R176). -/
  | movhi (o : MovhiOps)
  /-- CSETB (R179). -/
  | csetb (o : CsetbOps)
  /-- CSETP (R180). -/
  | csetp (o : CapImm)
  /-- CSEAL (R183). -/
  | cseal (o : CapAuth)
  /-- CUNSEAL (R183). -/
  | cunseal (o : CapAuth)
  /-- CADD (R181). -/
  | cadd (o : CapImm)
  /-- CGET (R184). -/
  | cget (o : CgetOps)
  /-- CTEST (R185). -/
  | ctest (o : CtestOps)
  /-- CKEY (R182). -/
  | ckey (o : CapImm)
  /-- BR (R187). -/
  | br (o : ImmOps)
  /-- BRC (R187). -/
  | brc (o : BrcOps)
  /-- CALL (R187). -/
  | call (o : CallOps)
  /-- RET (R188). -/
  | ret (o : OneG)
  /-- JMPI (R188). -/
  | jmpi (o : JmpiOps)
  /-- LOOP (R189). -/
  | loop (o : LoopOps)
  /-- YIELD (R190). -/
  | yield (o : NoOps)
  /-- END (R191). -/
  | endTask (o : OneSrc)
  /-- TRAPI (R192). -/
  | trapi (o : ImmOps)
  /-- FADD (R195). -/
  | fadd (o : Fp2)
  /-- FSUB (R195). -/
  | fsub (o : Fp2)
  /-- FMUL (R195). -/
  | fmul (o : Fp2)
  /-- FFMA (R196). -/
  | ffma (o : Fp3)
  /-- FDIV (R195). -/
  | fdiv (o : Fp2)
  /-- FSQRT (R195). -/
  | fsqrt (o : Fp1)
  /-- FCVT (R197). -/
  | fcvt (o : FcvtOps)
  /-- FCMP (R198). -/
  | fcmp (o : FcmpOps)
  /-- LD (R203). -/
  | ld (o : LdOps)
  /-- ST (R203). -/
  | st (o : StOps)
  /-- LDC (R205). -/
  | ldc (o : CapMem)
  /-- STC (R205). -/
  | stc (o : CapMem)
  /-- LDTG (R206). -/
  | ldtg (o : LdtgOps)
  /-- STTG (R206). -/
  | sttg (o : SttgOps)
  /-- PREF (R207). -/
  | pref (o : PrefOps)
  /-- LDACQ (R204). -/
  | ldacq (o : LdacqOps)
  /-- STREL (R204). -/
  | strel (o : StrelOps)
  /-- FENCE (R109). -/
  | fence (o : FenceOps)
  /-- AMSG (R215). -/
  | amsg (o : AmsgOps)
  /-- PST (R210). -/
  | pst (o : StOps)
  /-- JRD (R213). -/
  | jrd (o : JrdOps)
  /-- JRD_CLR (R213). -/
  | jrdClr (o : DstSrc)
  /-- MWAIT (R209). -/
  | mwait (o : MwaitOps)
  /-- BANKCFG (R218). -/
  | bankcfg (o : BankcfgOps)
  /-- CSRR (R217). -/
  | csrr (o : CsrrOps)
  /-- CSRW (R217). -/
  | csrw (o : CsrwOps)
  /-- SYSC (R219). -/
  | sysc (o : SyscOps)
  /-- ERET (R220). -/
  | eret (o : EretOps)
  /-- BRK (R221). -/
  | brk (o : ImmOps)
  /-- WFE (R222). -/
  | wfe (o : DstSrc)
  /-- HALT (R223). -/
  | halt (o : NoOps)
  /-- TLBINV_PAGE (R223). -/
  | tlbinvPage (o : TlbPageOps)
  /-- TLBINV_ALL (R223). -/
  | tlbinvAll (o : OneSrc)
  /-- MIGR (R224). -/
  | migr (o : DstSrc2)
  /-- CKPT (R225). -/
  | ckpt (o : NoOps)
  /-- TSPAWN (R264). -/
  | tspawn (o : DstCap)
  /-- TSIG (R264). -/
  | tsig (o : TsigOps)
  /-- LAUNCH (R255). -/
  | launch (o : OneG)
  /-- DONE (R264). -/
  | done (o : OneSrc)
  /-- FGET (R264). -/
  | fget (o : FgetOps)
  /-- FPUT (R264). -/
  | fput (o : FputOps)
  /-- TCONT_READY (R264). -/
  | tcontReady (o : DstCap)
  /-- TCONT_END (R264). -/
  | tcontEnd (o : TcontEndOps)
  /-- TREC (R264). -/
  | trec (o : TrecOps)
  /-- AMO (R298). -/
  | amo (o : AmoOps)
  /-- AMOR (R298). -/
  | amor (o : AmorOps)
  /-- PHNEW (R305). -/
  | phnew (o : PhnewOps)
  /-- PHJOIN (R305). -/
  | phjoin (o : PhjoinOps)
  /-- PHLEAVE (R305). -/
  | phleave (o : OneSrc)
  /-- PHROLE (R305). -/
  | phrole (o : PhroleOps)
  /-- PHSIG (R305). -/
  | phsig (o : DstSrc2)
  /-- PHWAIT (R305). -/
  | phwait (o : DstSrc2)
  /-- CTRREAD (R305). -/
  | ctrread (o : CtrreadOps)
  /-- TCREG_ADD (R326). -/
  | tcregAdd (o : DstCap)
  /-- TCREG_DEL (R326). -/
  | tcregDel (o : DstId)
  /-- TCREG_STAT (R326). -/
  | tcregStat (o : DstId)
  /-- TCLOOK_RD (R327). -/
  | tclookRd (o : TclookOps)
  /-- TCLOOK_WR (R327). -/
  | tclookWr (o : TclookOps)
  /-- TCPF (R328). -/
  | tcpf (o : TcpfOps)
  /-- TCHALO (R329). -/
  | tchalo (o : TchaloOps)
  /-- TCINV (R330). -/
  | tcinv (o : TcinvOps)
  /-- TCINV_DROP (R330). -/
  | tcinvDrop (o : TcinvOps)
  /-- TCINV_ALL (R330). -/
  | tcinvAll (o : TcinvOps)
  /-- SGATH (R332). -/
  | sgath (o : SgathOps)
  /-- SRED (R333). -/
  | sred (o : SredOps)
  /-- SCONV (R334). -/
  | sconv (o : SconvOps)
  /-- COPY (R343). -/
  | copy (o : CopyOps)
  /-- COPYR (R344). -/
  | copyr (o : CopyrOps)
  /-- WPRD (R345). -/
  | wprd (o : WprdOps)
  /-- TLWAIT (R347). -/
  | tlwait (o : TlwaitOps)
  /-- TLRD (R348). -/
  | tlrd (o : TlrdOps)
  /-- VADD (R358). -/
  | vadd (o : V2)
  /-- VSUB (R358). -/
  | vsub (o : V2)
  /-- VMUL (R358). -/
  | vmul (o : V2)
  /-- VFMA (R358). -/
  | vfma (o : V3)
  /-- VMIN (R358). -/
  | vmin (o : V2)
  /-- VMAX (R358). -/
  | vmax (o : V2)
  /-- VABS (R359). -/
  | vabs (o : V1)
  /-- VNEG (R359). -/
  | vneg (o : V1)
  /-- VRCP (R360). -/
  | vrcp (o : V1)
  /-- VRSQ (R360). -/
  | vrsq (o : V1)
  /-- VEXP2 (R360). -/
  | vexp2 (o : V1)
  /-- VLOG2 (R360). -/
  | vlog2 (o : V1)
  /-- VCVT (R366). -/
  | vcvt (o : VcvtOps)
  /-- VCMP (R363). -/
  | vcmp (o : VcmpOps)
  /-- VSEL (R364). -/
  | vsel (o : VselOps)
  /-- VAND (R361). -/
  | vand (o : VLogic)
  /-- VOR (R361). -/
  | vor (o : VLogic)
  /-- VXOR (R361). -/
  | vxor (o : VLogic)
  /-- VSHL (R361). -/
  | vshl (o : V2)
  /-- VSHR (R361). -/
  | vshr (o : V2)
  /-- VREDADD (R368). -/
  | vredadd (o : VredOps)
  /-- VREDMAX (R368). -/
  | vredmax (o : VredOps)
  /-- VSCAN (R369). -/
  | vscan (o : V1)
  /-- VPERM (R370). -/
  | vperm (o : V2)
  /-- VBCAST (R370). -/
  | vbcast (o : VbcastOps)
  /-- VCLASS (R362). -/
  | vclass (o : V1)
  /-- VLD (R374). -/
  | vld (o : VldOps)
  /-- VST (R375). -/
  | vst (o : VstOps)
  /-- VLDS (R374). -/
  | vlds (o : VldsOps)
  /-- VGATH (R374). -/
  | vgath (o : VgathOps)
  /-- VSCAT (R375). -/
  | vscat (o : VscatOps)
  /-- VMOVG_GET (R371). -/
  | vmovgGet (o : VgetOps)
  /-- VMOVG_PUT (R371). -/
  | vmovgPut (o : VputOps)
  /-- MCLAIM (R386). -/
  | mclaim (o : MclaimOps)
  /-- MREL (R387). -/
  | mrel (o : MrelOps)
  /-- MLD (R389). -/
  | mld (o : MldOps)
  /-- MMA (R391). -/
  | mma (o : MmaOps)
  /-- MTERN (R391). -/
  | mtern (o : MternOps)
  /-- ACCZ (R394). -/
  | accz (o : AcczOps)
  /-- ACCLD (R395). -/
  | accld (o : AccldOps)
  /-- ACCST (R397). -/
  | accst (o : AccstOps)
  /-- ACCMOV (R398). -/
  | accmov (o : AccmovOps)
  /-- MSAVE (R401). -/
  | msave (o : OneG)
  /-- MRESTORE (R402). -/
  | mrestore (o : DstCap)
  /-- BCENT (R421). -/
  | bcent (o : BcentOps)
  /-- BCLISTEN (R422). -/
  | bclisten (o : BclistenOps)
  /-- BCBIND_BIND (R423). -/
  | bcbindBind (o : BindOps)
  /-- BCBIND_UNBIND (R423). -/
  | bcbindUnbind (o : LaneOps)
  /-- BCBIND_STAT (R424). -/
  | bcbindStat (o : LaneOps)
  /-- BCBIND_ASSIGN (R423). -/
  | bcbindAssign (o : AssignOps)
  /-- FOFFER (R434). -/
  | foffer (o : DstSrc)
  /-- FOFFER_GRANT (R434). -/
  | fofferGrant (o : DstSrc2)
  /-- FOFFER_RECLAIM (R434). -/
  | fofferReclaim (o : DstSrc)
  /-- FACCEPT (R434). -/
  | faccept (o : DstSrc)
  /-- FWITHDRAW (R434). -/
  | fwithdraw (o : DstSrc)
  /-- FLEND (R434). -/
  | flend (o : DstSrc2)
  /-- FRECALL (R434). -/
  | frecall (o : DstSrc)
  /-- FRET (R434). -/
  | fret (o : DstSrc)
  /-- FQUERY_STATE (R435). -/
  | fqueryState (o : DstSrc)
  /-- FQUERY_DL (R435). -/
  | fqueryDl (o : DstSrc)
  /-- FQUERY_STRK (R435). -/
  | fqueryStrk (o : OneDst)
  /-- MATRIX_INSTRUCTION_COMPLETE: the oldest matrix instruction of a core's queue completes (R393). -/
  | matrixInstructionComplete (core : Nat)
  /-- PERFORM_LOAD: load entry `id` of context `c` performs (R103). -/
  | performLoad (c id : Nat)
  /-- ENQUEUE_STORE: store entry `id` of context `c` joins its cluster's store queue (R100). -/
  | enqueueStore (c id : Nat)
  /-- DRAIN: entry `id` of cluster `cl`'s store queue is written to its home (R105). -/
  | drain (cl id : Nat)
  /-- SEND: entry `id` of context `c` leaves the LOB for an engine or the network (R100). -/
  | send (c id : Nat)
  /-- PERFORM_ATOMIC: the atomic request `k` in flight performs at its engine (R295). -/
  | performAtomic (k : Nat)
  /-- ATOMIC_REPLY: the reply to the atomic request `k` reaches its core (R298). -/
  | atomicReply (k : Nat)
  /-- ATOMIC_RESEND: context `c` sends its oldest unanswered atomic request again (R295). -/
  | atomicResend (c : Nat)
  /-- ENGINE_PERFORM: effect `k` of engine command `id` performs; `old` is the choice R341 leaves open (R114). -/
  | enginePerform (id k : Nat) (old : Bool)
  /-- ENGINE_COMPLETE: engine command `id` completes and its counter advances (R27). -/
  | engineComplete (id : Nat)
  /-- FENCE_COMPLETE: fence entry `id` of context `c` completes (R109). -/
  | fenceComplete (c id : Nat)
  /-- WORD_ARRIVAL: the word `k` in flight reaches a mailbox or mesh port (R483). -/
  | wordArrival (k : Nat)
  /-- MAILBOX_ACKNOWLEDGEMENT: the acknowledgement `k` reaches the writer (R49). -/
  | mailboxAcknowledgement (k : Nat)
  /-- POSTED_STORE_ARRIVAL: the posted store `k` is accepted or refused at its home (R210). -/
  | postedStoreArrival (k : Nat)
  /-- ASYNC_TRAP_TAKEN: context `c` takes its lowest pending asynchronous trap (R227). -/
  | asyncTrapTaken (c : Nat)
  /-- PARK: blocked context `c` is parked (R253). -/
  | park (c : Nat)
  /-- SCHEDULER_PREEMPTION: the scheduler requests pre-emption of context `c` (R238). -/
  | schedulerPreemption (c : Nat)
  /-- SWITCH_OUT: a stopped context's state is written to a save area and the context freed (R232). -/
  | switchOut (c : Nat)
  /-- TASK_DISPATCH: the scheduler gives free context `c` a ready task (R252). -/
  | taskDispatch (c : Nat)
  /-- WFE_TIMEOUT: the timeout of context `c`'s WFE expires (R222). -/
  | wfeTimeout (c : Nat)
  /-- TSIG_PERFORM: the task signal `k` in flight is performed at its counter (R250). -/
  | tsigPerform (k : Nat)
  /-- DONE_MESSAGE_ARRIVAL: the done message `k` reaches its parent member (R256). -/
  | doneMessageArrival (k : Nat)
  /-- ACTOR_FIRING: the actor `a` fires (R257). -/
  | actorFiring (a : Nat)
  /-- HANDLER_DISPATCH: a free handler context takes the oldest active message (R261). -/
  | handlerDispatch (c : Nat)
  /-- TENDER_SERVE: a free service context takes a request (R267). -/
  | tenderServe (c : Nat)
  /-- TENDER_CREDIT_TICK: the virtual functions waiting on a die gain credit (R267). -/
  | tenderCreditTick (die : Nat)
  /-- TENDER_WINDOW_END: a 50 µs window of a partition ends (R268). -/
  | tenderWindowEnd (part : Nat)
  /-- FORWARDING_LAPSE: the lapse message `k` removes a forwarding entry (R483). -/
  | forwardingLapse (k : Nat)
  /-- BRIDLE_CHECKPOINT: the pair of context `c` takes a checkpoint (R161). -/
  | bridleCheckpoint (c : Nat)
  /-- BRIDLE_MISMATCH: the pair of context `c` detects a mismatch (R241). -/
  | bridleMismatch (c : Nat)
  /-- MONITOR_TRAP_DELIVERY: the oldest waiting monitor trap is delivered (R288). -/
  | monitorTrapDelivery (die : Nat)
  /-- UNCORRECTABLE_ERROR: a read of line `pa` for context `c` finds an error ECC cannot correct (R286). -/
  | uncorrectableError (pa c : Nat)
  /-- HOLD_TIMEOUT: a frame hold runs out after 1 ms (R289). -/
  | holdTimeout (tag : Nat)
  /-- HOLDRSP_REPLAY: HOLDRSP is written with action 0 (R289). -/
  | holdrspReplay (die : Nat) (who : Writer) (w : Word)
  /-- HOLDRSP_POISON: HOLDRSP is written with action 1 (R289). -/
  | holdrspPoison (die : Nat) (who : Writer) (w : Word)
  /-- PAGE_WALK: the walk context `c` waits for ends (R279). -/
  | pageWalk (c : Nat)
  /-- INVALIDATION_ACK: a die acknowledges invalidation `k` (R282). -/
  | invalidationAck (die k : Nat)
  /-- QUARANTINE: a die that has not acknowledged in 100 µs is quarantined (R282). -/
  | quarantine (die : Nat)
  /-- FLIT_RECEIVE: a flit of a class reaches the far end of a link, from a core of partition `src` toward `dst` (R283, R445). -/
  | flitReceive (link cls : Nat) (seq : BitVec 16) (good : Bool) (src dst : BitVec 8)
  /-- REPLAY_BUDGET_EXHAUSTED: a link's replay budget is exhausted and it retrains (R284). -/
  | replayBudgetExhausted (link : Nat)
  /-- DIE_LOST: a die is declared lost (R285). -/
  | dieLost (die : Nat)
  /-- TAG_CHECK_COMPLETE: the tag check of a line forwarded to load `id` of context `c` ends (R453). -/
  | tagCheckComplete (c id : Nat) (ok : Bool)
  /-- REVOKE_POINT: the recall of one line of a frame ends at its home agent (R436). -/
  | revokePoint (frame line : Nat)
  /-- CUSTODY_TRANSACTION_COMPLETE: the revocation steps of a transaction have ended everywhere (R436). -/
  | custodyTransactionComplete (frame : Nat)
  /-- RECALL_DEADLINE: a recalling frame's deadline passes (R439). -/
  | recallDeadline (frame : Nat)
  /-- SUSPENSION_END: a world's suspension ends (R440). -/
  | suspensionEnd (part vf : Nat) (world : Bool)
  /-- BEACON_ENTRY_ARRIVAL: the entry of context `c` reaches its die's Beacon unit (R418). -/
  | beaconEntryArrival (c : Nat)
  /-- BEACON_ARM_POINT: a lane reaches an arm point (R415). -/
  | beaconArmPoint (lane : Nat)
  /-- BEACON_FRAME_END: a lane's frame ends (R416). -/
  | beaconFrameEnd (lane : Nat)
  /-- ORPHAN_FREE: an orphaned scratchpad is freed (R450). -/
  | orphanFree (cl : Nat)
  /-- COPYR_QUEUE_ARRIVAL: a COPYR command joins the queue of its die (R344). -/
  | copyrQueueArrival (id : Nat)
  /-- COPY_COMPLETION_REPORT: a COPYR's completion report reaches its issuer (R344). -/
  | copyCompletionReport (id : Nat)
  /-- BANK_MODE_SET: the bank modes context `c` waits to set are set (R218). -/
  | bankModeSet (c : Nat)
  /-- PREEMPT_WRITE: PREEMPT is written (R243). -/
  | preemptWrite (die : Nat) (who : Writer) (w : Word)
  /-- DBHALT_WRITE: DBHALT is written (R469). -/
  | dbhaltWrite (die : Nat) (who : Writer) (w : Word)
  /-- VF_RESET: VFRST is written (R449). -/
  | vfReset (part : Nat) (who : Writer) (w : Word)
  /-- PCTL_ENABLE: PCTL is written with EN set (R446). -/
  | pctlEnable (part : Nat) (who : Writer) (w : Word)
  /-- PCTL_DISABLE: PCTL is written with EN clear (R446). -/
  | pctlDisable (part : Nat) (who : Writer) (w : Word)
  /-- KSUB_SUBMIT: KSUB is written (R452). -/
  | ksubSubmit (who : Writer) (w : Word)
  /-- MEASEXT_ABSORB: MEASEXT is written (R455). -/
  | measextAbsorb (who : Writer) (w : Word)
  /-- CERT_ROLL: CERT is written (R456). -/
  | certRoll (slot : Nat) (who : Writer) (w : Word)
  /-- ATTREQ_START: ATTREQ is written (R457). -/
  | attreqStart (who : Writer) (w : Word)
  /-- ATTESTATION_DONE: the running attestation's report is written (R457). -/
  | attestationDone
  /-- CUSTBASE_ENABLE: CUSTBASE is written (R428). -/
  | custbaseEnable (stack : Nat) (who : Writer) (w : Word)
  /-- DIE_RESET: DIECTL is written (R479). -/
  | dieReset (die : Nat) (who : Writer) (w : Word)
  /-- CKPT_SAVE: CKPTCTL starts a save (R476). -/
  | ckptSave (who : Writer) (w : Word)
  /-- CKPT_RESTORE: CKPTCTL starts a restore (R476). -/
  | ckptRestore (who : Writer) (w : Word)
  /-- MODULE_RESET: module reset and bring-up in order (R477). -/
  | moduleReset
  /-- ACTIVE_MESSAGE_ARRIVAL: an active message joins the handler queue of its die (R215). -/
  | activeMessageArrival (k : Nat)
  /-- AMSG_ACCEPTANCE: the acceptance of an active message reaches its sender (R215). -/
  | amsgAcceptance (k : Nat)
  /-- VECTOR_INSTRUCTION_COMPLETE: the oldest queued vector instruction of context `c` completes (R353). -/
  | vectorInstructionComplete (c : Nat)
  /-- CKPT_DONE: the running save or restore ends (R476). -/
  | ckptDone (ok : Bool)
  /-- TRACE_RECORD: the arbiter writes the oldest waiting record (R470). -/
  | traceRecord (part : Nat)
  /-- REGISTER_WRITE: a control-window register is written (R7). -/
  | registerWrite (pa : Nat) (who : Writer) (w : Word)
  /-- WACSUB_SUBMIT: WACSUB is written (R464). -/
  | wacsubSubmit (die : Nat) (who : Writer) (w : Word)
  /-- WAC_CONTRIBUTION: a member's contribution reaches collective `k` (R465). -/
  | wacContribution (die k member : Nat) (round : Word) (data : List Byte)
  /-- WAC_BOUND_EXPIRY: the staleness bound of collective `k` passes (R465). -/
  | wacBoundExpiry (die k : Nat)
  /-- ESESS_OPEN: ESESS is written with EN set (R463). -/
  | esessOpen (die s : Nat) (who : Writer) (w : Word)
  /-- ESESS_CLOSE: ESESS is written with EN clear (R463). -/
  | esessClose (die s : Nat) (who : Writer) (w : Word)
  /-- SESSION_KEYING_TIMEOUT: a peer has not answered within 1 s (R463). -/
  | sessionKeyingTimeout (die s : Nat)
  /-- ETHERNET_FRAME_RECEIVE: a keying answer (`key`) or a sealed frame arrives, its signature or tag good or not (R463). -/
  | ethernetFrameReceive (die s : Nat) (key : Bool) (ok : Bool) (ctr : Nat)
  /-- SESSION_REKEY: a session rekeys after 2^40 frames (R463). -/
  | sessionRekey (die s : Nat)
  /-- CXL_RESPONSE: a CXL.mem response carries a DevLoad (R462). -/
  | cxlResponse (die win : Nat) (load : BitVec 2)
  /-- DEVLOAD_PERIOD_END: a 10 µs DevLoad period ends (R462). -/
  | devloadPeriodEnd (die win : Nat)
  /-- THROTTLE_CHANGE: a die's clock, voltage or issue limit changes (R470). -/
  | throttleChange (die : Nat) (code : BitVec 8) (mhz : BitVec 16) (issue : BitVec 8) (mv : BitVec 16)
  /-- THERMAL_TRIP: a die's junction reaches 110 °C (R480). -/
  | thermalTrip (die : Nat)
  /-- SUPPLY_UNDERVOLTAGE: the supply falls below 40 V (R480). -/
  | supplyUndervoltage
  /-- LINK_RETRAIN_COMPLETE: a link has retrained (R284). -/
  | linkRetrainComplete (link : Nat)
  /-- SUPPLY_RESTORED: the supply returns to at least 40 V (R480). -/
  | supplyRestored
  /-- PORT_LINK_STATE_CHANGE: a port's link changes state (R459). -/
  | portLinkStateChange (die port : Nat) (lstat : BitVec 8)
deriving DecidableEq, Repr

end Sys2Proof
end

