-- ==== Sys2Proof/WellFormed.lean ====
section
/-! DEFINITION. What the encoding tables ask of an instruction's operands beyond their classes: which
destinations take a remote mailbox (R40, R168, R193), which types an entry accepts (R355, R357, R363), and the
subfield limits of the engine chapters (R214, R296, R304, R325, R331, R349, R385, R392). -/

namespace Sys2Proof

/-- A destination that is no remote mailbox (R40). -/
def Dst.local : Dst → Bool
  | .xm _ _ => false
  | _ => true

/-- An operand that is no mesh port: the cores that decode an instruction of kernel level have none (R18, R43, R59). -/
def Src.offMesh : Src → Bool
  | .n _ => false
  | _ => true
def Dst.offMesh : Dst → Bool
  | .n _ => false
  | d => d.local

/-- A remote mailbox leaves X[34:0] zero (R40). -/
def Dst.immOk (d : Dst) (imm : BitVec 35) : Bool := d.local || imm == 0

/-- Whether argument registers `arg … arg+narg-1` exist and the count is within `most` (R214, R219, R263). -/
def argsOk (arg : BitVec 8) (narg : BitVec 3) (most : Nat) : Bool :=
  decide (narg.toNat ≤ most) && decide (arg.toNat + narg.toNat ≤ 64)

/-- VADD's types: integer, .f32, .bf16, .f16 (R357). -/
def VTy.arith (t : VTy) : Bool := !t.isF8
/-- VABS's types (R357). -/
def VTy.signedOrFloat (t : VTy) : Bool := t.isSigned || (!t.isInt && !t.isF8)
/-- VRCP's types (R357). -/
def VTy.float (t : VTy) : Bool := !t.isInt && !t.isF8
/-- S is allowed with integer types only (R355). -/
def satOk (sat : Bool) (t : VTy) : Bool := !sat || t.isInt
/-- The general register an optional operand leaves out (R37). -/
def Src.isZero (s : Src) : Bool := s == .g 0

/-- Whether RM names a mode: codes 5 and 6 do not (R132). -/
def rmOk (rm : BitVec 3) : Bool := rm != 5 && rm != 6

/-- Span of MMA's operands in slots (R384). -/
def MmaTy.span2 : MmaTy → Bool
  | .mx6 => true | _ => false

/-- The control-bit combinations R392 forbids. -/
def mmaBitsOk (z ip f m : Bool) (accc : BitVec 3) (diag : BitVec 6) : Bool :=
  !(z && (f || ip || accc != 0)) && !(ip && accc != 0) && !(!m && diag != 0)

/-- The destination types of ACCMOV (R398). -/
def AccTy.movable : AccTy → Bool
  | .i8 | .bf16 | .f16 | .e4m3 | .e5m2 => true | _ => false
/-- The 16-bit types (R398). -/
def AccTy.is16 : AccTy → Bool
  | .bf16 | .f16 | .i16 => true | _ => false

/-- The control registers of R151. -/
def csrListed (n : BitVec 12) : Bool :=
  let k := n.toNat
  decide (k ≤ 6) || decide (0x10 ≤ k ∧ k ≤ 0x13) || decide (0x18 ≤ k ∧ k ≤ 0x1B) || k == 0x20 || k == 0x30
    || k == 0x31 || decide (0x40 ≤ k ∧ k ≤ 0x43) || k == 0x48 || decide (0x100 ≤ k ∧ k ≤ 0x10F)

/-- Shape registers a copy variant needs beyond `gk` (R339). -/
def Dims.extra : Dims → Nat
  | .d1 => 0 | .d2 => 1 | .d3 => 2

/-- Whether an instruction meets every operand rule of its encoding table. An event always does. -/
def Instr.wellFormed : Instr → Bool
  | .add o | .sub o | .mul o => o.d.local
  | .mulh o | .div o | .rem o | .and o | .or o | .xor o | .andn o | .shl o | .shr o | .sar o | .rot o
  | .min o | .max o => o.d.immOk o.imm
  | .clz _ | .popc _ => true
  | .sel o => o.d.local
  | .movi o => o.d.local
  | .movhi o => o.d.local
  | .cget o => o.d.local
  | .ffma o => o.d.local
  | .fcvt o => o.dst != o.src && !(decide (5 ≤ o.dst.code.toNat) && decide (5 ≤ o.src.code.toNat))
  | .ld o => o.d.local
  | .ldtg o => o.d.local
  | .ldacq o => o.d.local
  | .amsg o => argsOk o.arg o.narg 4
  | .jrd o => o.d.local
  | .jrdClr o => o.d.local
  | .mwait o => o.d.local
  | .csrr o => o.d.local && csrListed o.num
  | .csrw o => csrListed o.num
  | .sysc o => argsOk o.arg o.narg 6
  | .wfe o => o.d.local
  | .bankcfg o => o.a.offMesh && o.b.offMesh
  | .tlbinvPage o => o.a.offMesh
  | .tlbinvAll o => o.a.offMesh
  | .migr o => o.d.offMesh && o.a.offMesh && o.b.offMesh
  | .tspawn o | .tcontReady o | .mrestore o => o.d.local
  | .tcregAdd o => o.d.offMesh
  | .fget o => o.d.local
  | .tcontEnd o => o.d.local
  | .trec o => o.d.local && argsOk o.arg o.narg 6
  | .amo o => o.d.local && ((o.ty == .f32) == (o.op == .fadd)) && (o.op == .cas || o.cv.isZero)
  | .amor o => ((o.ty == .f32) == (o.op == .fadd)) && o.op != .cas
  | .phnew o => o.d.local
  | .phjoin o => o.d.local
  | .phsig o | .phwait o => o.d.local
  | .ctrread o => o.d.local && decide (o.idx.toNat ≤ 4)
  | .tcregDel o | .tcregStat o => o.d.offMesh
  | .tcpf o => o.stride != 0
  | .tchalo o => o.w != 0
  | .sgath o => o.count != 0 && o.roww != 0
  | .sred o => o.count != 0 && (decide (o.op.code.toNat ≤ 2) || decide (o.ty.code.toNat ≤ 7))
  | .sconv o => o.count != 0 && rmOk o.rm
  | .copy o => decide (o.b.toNat + o.dims.extra ≤ 63)
  | .copyr o => decide (o.b.toNat + o.dims.extra ≤ 63) && decide (o.flag.toNat ≤ 0x3E)
  | .wprd o => o.d.local
  | .tlwait o => o.d.local
  | .tlrd o => o.d.local
  | .vadd o | .vsub o | .vmul o => o.ty.arith && satOk o.sat o.ty
  | .vfma o => o.ty.arith && satOk o.sat o.ty
  | .vmin o | .vmax o => o.ty.arith && !o.sat
  | .vabs o | .vneg o => o.ty.signedOrFloat && satOk o.sat o.ty
  | .vrcp o | .vrsq o | .vexp2 o | .vlog2 o | .vclass o => o.ty.float && !o.sat
  | .vcvt o => o.src != o.dst
  | .vcmp o =>
    o.ty.arith && !(o.cond == .un && o.ty.isInt) &&
      (match o.d with | .vec _ => true | .pred _ => o.ty.width == 32)
  | .vshl o | .vshr o => o.ty.isInt && !o.sat
  | .vredadd o | .vredmax o => o.ty.arith && o.d.local
  | .vscan o => o.ty.arith && satOk o.sat o.ty
  | .vperm o => !o.sat
  | .vmovgGet o => o.d.local
  | .mclaim o => o.d.local
  | .mld o =>
    !(o.mode == .scale && (o.sw || o.span2 || o.zrows != 0 || !o.b.isZero)) && !(o.span2 && o.slot == 31)
  | .mma o =>
    mmaBitsOk o.z o.ip o.f o.m o.accc o.diag && (o.f || o.b.isZero) && !(o.f && o.ty == .i8) &&
      !(o.ty.span2 && (o.sa == 31 || o.sb == 31))
  | .mtern o => mmaBitsOk o.z o.ip false o.m o.accc o.diag && o.sb != 31
  | .accst o => rmOk o.rm
  | .accmov o => o.ty.movable && rmOk o.rm && !(o.ofs && o.ty.is16)
  | .bcent o => o.d.local
  | .bclisten o => o.d.local
  | .bcbindBind o => o.d.offMesh
  | .bcbindUnbind o | .bcbindStat o => o.d.offMesh
  | .bcbindAssign o => o.d.offMesh
  | .foffer o | .fofferReclaim o | .faccept o | .fwithdraw o | .frecall o | .fret o | .fqueryState o
  | .fqueryDl o => o.d.offMesh && o.a.offMesh
  | .fofferGrant o | .flend o => o.d.offMesh && o.a.offMesh && o.b.offMesh
  | .fqueryStrk o => o.d.offMesh
  | _ => true

/-- How many rows of the opcode table have a word; in `Instr` they come before the events. -/
def Instr.wordRows : Nat := 171

/-- Whether a row of the opcode table is an instruction, which has a word, and not an event. -/
def Instr.isWord (i : Instr) : Bool := decide (i.ctorIdx < Instr.wordRows)

end Sys2Proof
end

