-- ==== Sys2Proof/Decode.lean ====
section
/-! DEFINITION. The decoder of instruction words (R36 to R62, R57's order of checks), total on any bits, and
after it the encoder written from the same tables. Every refusal has its name and its reason (R58). -/

namespace Sys2Proof

/-- Why a word is no instruction (R58). -/
inductive Illegal where
  /-- Step 3: the opcode is not assigned. -/
  | unassigned
  /-- Step 5: VAR is not defined for the opcode. -/
  | undefinedVar
  /-- Step 6: an operand's class is reserved or not permitted. -/
  | badClass
  /-- Step 7: a reserved field is not zero. -/
  | nonzeroReserved
  /-- Step 4, and a mesh port off a compute core: not available on this core kind. -/
  | wrongKind
deriving DecidableEq, Repr

/-- The reason code of TRAPVAL[35:32] (R58). -/
def Illegal.reason : Illegal → BitVec 4
  | .unassigned => 1 | .undefinedVar => 2 | .badClass => 3 | .nonzeroReserved => 4 | .wrongKind => 5

/-- The fields of an instruction word (R36). -/
structure Fields where
  opc : BitVec 10
  var : BitVec 6
  d : BitVec 8
  a : BitVec 8
  b : BitVec 8
  g : BitVec 5
  h : BitVec 8
  x : BitVec 43
deriving DecidableEq, Repr

/-- The 96-bit word of its fields (R36). -/
def Fields.pack (f : Fields) : IWord :=
  f.opc ++ f.var ++ f.d ++ f.a ++ f.b ++ f.g ++ f.h ++ f.x

/-- The fields of a 96-bit word (R36). -/
def Fields.unpack (w : IWord) : Fields :=
  { opc := w.extractLsb' 86 10, var := w.extractLsb' 80 6, d := w.extractLsb' 72 8, a := w.extractLsb' 64 8
    b := w.extractLsb' 56 8, g := w.extractLsb' 51 5, h := w.extractLsb' 43 8, x := w.extractLsb' 0 43 }

/-- The three words W2, W1, W0 as one (R5). -/
def wordOf (w2 w1 w0 : BitVec 32) : IWord := w2 ++ w1 ++ w0

/-- W2 of an instruction word (R5). -/
def w2Of (w : IWord) : BitVec 32 := w.extractLsb' 64 32

def Fields.hdr (f : Fields) : Hdr :=
  { guard := { neg := f.g.getLsbD 4, p := f.g.extractLsb' 0 4 }, hints := f.h.extractLsb' 1 7 }
def Fields.c (f : Fields) : BitVec 8 := f.x.extractLsb' 35 8
def Fields.imm (f : Fields) : BitVec 35 := f.x.extractLsb' 0 35
def Fields.h0 (f : Fields) : Bool := !f.h.getLsbD 0
/-- Bits [lo+n-1:lo] of X. -/
def Fields.xs (f : Fields) (lo n : Nat) : BitVec n := f.x.extractLsb' lo n

def Hdr.g (h : Hdr) : BitVec 5 := BitVec.ofBool h.guard.neg ++ h.guard.p
def Hdr.h (h : Hdr) : BitVec 8 := h.hints ++ 0#1

/-- What decoding answers. -/
abbrev Dec := Except Illegal

/-- A test of decoding with the refusal it gives. -/
def Dec.ask (b : Bool) (e : Illegal) : Dec Unit := if b then .ok () else .error e
def Dec.var (o : Option α) : Dec α := match o with | some t => .ok t | none => .error .undefinedVar
def zeroField (b : Bool) : Dec Unit := Dec.ask b .nonzeroReserved
def class' (b : Bool) : Dec Unit := Dec.ask b .badClass
def varOk (b : Bool) : Dec Unit := Dec.ask b .undefinedVar

/-- A scalar source field (R41, R43). -/
def src (k : CoreKind) (v : BitVec 8) : Dec Src :=
  if v.toNat < 0x40 then .ok (.g (v.extractLsb' 0 6))
  else if v.toNat < 0x70 then .error .badClass
  else if v.toNat < 0x78 then .ok (.q (v.extractLsb' 0 3))
  else if v.toNat < 0x7C then
    if k = .compute then .ok (.n (v.extractLsb' 0 2)) else .error .wrongKind
  else if v.toNat < 0x80 then .error .badClass
  else if v.toNat < 0xA0 then .ok (.m (v.extractLsb' 0 5))
  else .error .badClass

/-- A scalar destination field; `remote` says whether the entry accepts a remote mailbox (R40, R41). -/
def dst (k : CoreKind) (remote : Bool) (f : Fields) : Dec Dst :=
  let v := f.d
  if v.toNat < 0x40 then .ok (.g (v.extractLsb' 0 6))
  else if v.toNat < 0x70 then .error .badClass
  else if v.toNat < 0x78 then .ok (.q (v.extractLsb' 0 3))
  else if v.toNat < 0x7C then
    if k = .compute then .ok (.n (v.extractLsb' 0 2)) else .error .wrongKind
  else if v.toNat < 0xC0 then .error .badClass
  else if v.toNat < 0xE0 then
    if remote then .ok (.xm (v.extractLsb' 0 5) (f.c.extractLsb' 0 6)) else .error .badClass
  else .error .badClass

/-- The refusal of a field whose kind takes no queue, port or mailbox: a mesh port is the wrong kind where the core has
none, which `decodeFields` decides (R57 step 6). -/
def refusedClass (v : BitVec 8) : Illegal := if v.extractLsb' 2 6 = 0b011110#6 then .wrongKind else .badClass

/-- A general register field (R43). -/
def gen (v : BitVec 8) : Dec (BitVec 6) :=
  if v.toNat < 0x40 then .ok (v.extractLsb' 0 6) else .error (refusedClass v)
/-- A vector register field (R43). -/
def vreg (v : BitVec 8) : Dec (BitVec 5) :=
  if v.extractLsb' 5 3 = 0b010#3 then .ok (v.extractLsb' 0 5) else .error (refusedClass v)
/-- A predicate field (R43). -/
def preg (v : BitVec 8) : Dec (BitVec 4) :=
  if v.extractLsb' 4 4 = 0b0110#4 then .ok (v.extractLsb' 0 4) else .error (refusedClass v)
/-- A field that takes a vector register or a predicate. -/
def vecPred (v : BitVec 8) : Dec VecPred :=
  if v.extractLsb' 5 3 = 0b010#3 then .ok (.vec (v.extractLsb' 0 5))
  else if v.extractLsb' 4 4 = 0b0110#4 then .ok (.pred (v.extractLsb' 0 4)) else .error (refusedClass v)

/-- X[42:35] of a remote mailbox destination names a general register (R40). -/
def Dst.askC (d : Dst) (f : Fields) : Dec Unit :=
  match d with
  | .xm _ _ => Dec.ask (decide (f.c.toNat < 0x40)) (refusedClass f.c)
  | _ => .ok ()
/-- The zero parts of X when operand C is free for a remote mailbox (R40); `imm` says an immediate is used. -/
def Dst.xZero (d : Dst) (f : Fields) (imm : Bool) : Bool :=
  match d with
  | .xm _ _ => f.imm == 0
  | _ => f.c == 0 && (imm || f.imm == 0)

/-- Whether the opcode is available on the core kind: step 4 (R19, R59). -/
def kindOk (k : CoreKind) (opc : BitVec 10) : Bool :=
  let n := opc.toNat
  if decide (0x300 ≤ n ∧ n ≤ 0x30A) then k == .compute
  else if n == 0x080 || n == 0x084 || n == 0x087 || n == 0x088 || n == 0x089 || n == 0x180 || n == 0x382
      || decide (0x3A0 ≤ n ∧ n ≤ 0x3A6) then k != .compute
  else true

/-- ADD, SUB, MUL (R168). -/
def decAlu3 (k : CoreKind) (f : Fields) (mk : Alu3 → Instr) : Dec Instr := do
  let ty ← Dec.var (IntTy.ofCode f.var)
  let d ← dst k false f
  let a ← src k f.a
  let b ← src k f.b
  let c ← src k f.c
  zeroField (f.h0)
  pure (mk ⟨f.hdr, ty, d, a, b, c, f.imm⟩)

/-- The other two-operand integer instructions (R168). -/
def decAlu2 (k : CoreKind) (f : Fields) (mk : Alu2 → Instr) : Dec Instr := do
  let ty ← Dec.var (IntTy.ofCode f.var)
  let d ← dst k true f
  let a ← src k f.a
  let b ← src k f.b
  d.askC f
  zeroField (f.h0 && d.xZero f true)
  pure (mk ⟨f.hdr, ty, d, a, b, f.imm⟩)

/-- CLZ, POPC (R168). -/
def decAlu1 (k : CoreKind) (f : Fields) (mk : Alu1 → Instr) : Dec Instr := do
  let ty ← Dec.var (IntTy.ofCode f.var)
  let d ← dst k true f
  let a ← src k f.a
  d.askC f
  zeroField (f.h0 && f.b == 0 && d.xZero f false)
  pure (mk ⟨f.hdr, ty, d, a⟩)

/-- CMP (R174). -/
def decCmp (k : CoreKind) (f : Fields) : Dec Instr := do
  let ty ← Dec.var (IntTy.ofCode (0#3 ++ f.var.extractLsb' 0 3))
  let cond ← Dec.var (Cond.ofCode (f.var.extractLsb' 3 3))
  let p ← preg f.d
  let a ← src k f.a
  let b ← src k f.b
  zeroField (f.h0 && f.c == 0)
  pure (.cmp ⟨f.hdr, cond, ty, p, a, b, f.imm⟩)

/-- SEL (R175). -/
def decSel (k : CoreKind) (f : Fields) : Dec Instr := do
  let ty ← Dec.var (IntTy.ofCode f.var)
  let d ← dst k false f
  let a ← src k f.a
  let b ← src k f.b
  let c ← preg f.c
  zeroField (f.h0)
  pure (.sel ⟨f.hdr, ty, d, a, b, c, f.imm⟩)

/-- MOVI (R176). -/
def decMovi (k : CoreKind) (f : Fields) : Dec Instr := do
  varOk (f.var == 0)
  let d ← dst k false f
  zeroField (f.h0 && f.a == 0 && f.b == 0)
  pure (.movi ⟨f.hdr, d, f.x⟩)

/-- MOVHI (R176). -/
def decMovhi (k : CoreKind) (f : Fields) : Dec Instr := do
  varOk (f.var == 0)
  let d ← dst k false f
  let a ← src k f.a
  zeroField (f.h0 && f.b == 0 && f.xs 21 22 == 0)
  pure (.movhi ⟨f.hdr, d, a, f.xs 0 21⟩)

/-- CSETP, CADD, CKEY (R177). -/
def decCapImm (k : CoreKind) (f : Fields) (mk : CapImm → Instr) : Dec Instr := do
  varOk (f.var == 0)
  let d ← gen f.d
  let a ← gen f.a
  let b ← src k f.b
  zeroField (f.h0 && f.c == 0)
  pure (mk ⟨f.hdr, d, a, b, f.imm⟩)

/-- CSETB (R177). -/
def decCsetb (k : CoreKind) (f : Fields) : Dec Instr := do
  varOk (f.var == 0 || f.var == 1)
  let d ← gen f.d
  let a ← gen f.a
  let b ← src k f.b
  zeroField (f.h0 && f.c == 0)
  pure (.csetb ⟨f.hdr, f.var == 1, d, a, b, f.imm⟩)

/-- CSEAL, CUNSEAL (R177). -/
def decCapAuth (f : Fields) (mk : CapAuth → Instr) : Dec Instr := do
  varOk (f.var == 0)
  let d ← gen f.d
  let a ← gen f.a
  let b ← gen f.b
  zeroField (f.h0 && f.x == 0)
  pure (mk ⟨f.hdr, d, a, b⟩)

/-- CGET (R177). -/
def decCget (k : CoreKind) (f : Fields) : Dec Instr := do
  let fd ← Dec.var (CapField.ofCode f.var)
  let d ← dst k false f
  let a ← gen f.a
  zeroField (f.h0 && f.b == 0 && f.x == 0)
  pure (.cget ⟨f.hdr, fd, d, a⟩)

/-- CTEST (R177). -/
def decCtest (f : Fields) : Dec Instr := do
  varOk (f.var == 0 || f.var == 1)
  let p ← preg f.d
  let a ← gen f.a
  if f.var = 1 then
    let b ← gen f.b
    zeroField (f.h0 && f.x == 0)
    pure (.ctest ⟨f.hdr, p, a, some b⟩)
  else
    zeroField (f.h0 && f.b == 0 && f.x == 0)
    pure (.ctest ⟨f.hdr, p, a, none⟩)

/-- BR, TRAPI, BRK (R186, R216). -/
def decImm (f : Fields) (mk : ImmOps → Instr) : Dec Instr := do
  varOk (f.var == 0)
  zeroField (f.h0 && f.d == 0 && f.a == 0 && f.b == 0)
  pure (mk ⟨f.hdr, f.x⟩)

/-- BRC (R186). -/
def decBrc (k : CoreKind) (f : Fields) : Dec Instr := do
  let ty ← Dec.var (IntTy.ofCode (0#3 ++ f.var.extractLsb' 0 3))
  let cond ← Dec.var (Cond.ofCode (f.var.extractLsb' 3 3))
  let a ← src k f.a
  let b ← src k f.b
  zeroField (f.h0 && f.d == 0 && f.c == 0)
  pure (.brc ⟨f.hdr, cond, ty, a, b, f.imm⟩)

/-- CALL (R186). -/
def decCall (f : Fields) : Dec Instr := do
  varOk (f.var == 0)
  let d ← gen f.d
  zeroField (f.h0 && f.a == 0 && f.b == 0)
  pure (.call ⟨f.hdr, d, f.x⟩)

/-- RET, LAUNCH, MSAVE (R186, R263, R385). -/
def decOneG (f : Fields) (mk : OneG → Instr) : Dec Instr := do
  varOk (f.var == 0)
  let a ← gen f.a
  zeroField (f.h0 && f.d == 0 && f.b == 0 && f.x == 0)
  pure (mk ⟨f.hdr, a⟩)

/-- JMPI (R186). -/
def decJmpi (f : Fields) : Dec Instr := do
  varOk (f.var == 0)
  let d ← gen f.d
  let a ← gen f.a
  zeroField (f.h0 && f.b == 0 && f.x == 0)
  pure (.jmpi ⟨f.hdr, d, a⟩)

/-- LOOP (R186). -/
def decLoop (f : Fields) : Dec Instr := do
  varOk (f.var == 0)
  let d ← gen f.d
  let a ← gen f.a
  zeroField (f.h0 && f.b == 0 && f.c == 0)
  pure (.loop ⟨f.hdr, d, a, f.imm⟩)

/-- YIELD, HALT, CKPT (R186, R216). -/
def decNone (f : Fields) (i : Hdr → Instr) : Dec Instr := do
  varOk (f.var == 0)
  zeroField (f.h0 && f.d == 0 && f.a == 0 && f.b == 0 && f.x == 0)
  pure (i f.hdr)

/-- END, DONE, PHLEAVE (R186, R263, R304). -/
def decOneSrc (k : CoreKind) (f : Fields) (mk : OneSrc → Instr) : Dec Instr := do
  varOk (f.var == 0)
  let a ← src k f.a
  zeroField (f.h0 && f.d == 0 && f.b == 0 && f.x == 0)
  pure (mk ⟨f.hdr, a⟩)

/-- FADD, FSUB, FMUL, FDIV (R193). -/
def decFp2 (k : CoreKind) (f : Fields) (mk : Fp2 → Instr) : Dec Instr := do
  let ty ← Dec.var (FpTy.ofCode f.var)
  let d ← dst k true f
  let a ← src k f.a
  let b ← src k f.b
  d.askC f
  zeroField (f.h0 && d.xZero f false)
  pure (mk ⟨f.hdr, ty, d, a, b⟩)

/-- FFMA (R193). -/
def decFp3 (k : CoreKind) (f : Fields) : Dec Instr := do
  let ty ← Dec.var (FpTy.ofCode f.var)
  let d ← dst k false f
  let a ← src k f.a
  let b ← src k f.b
  let c ← src k f.c
  zeroField (f.h0 && f.imm == 0)
  pure (.ffma ⟨f.hdr, ty, d, a, b, c⟩)

/-- FSQRT (R193). -/
def decFp1 (k : CoreKind) (f : Fields) : Dec Instr := do
  let ty ← Dec.var (FpTy.ofCode f.var)
  let d ← dst k true f
  let a ← src k f.a
  d.askC f
  zeroField (f.h0 && f.b == 0 && d.xZero f false)
  pure (.fsqrt ⟨f.hdr, ty, d, a⟩)

/-- FCVT (R197). -/
def decFcvt (k : CoreKind) (f : Fields) : Dec Instr := do
  let td := CvtTy.ofCode (f.var.extractLsb' 0 3)
  let ts := CvtTy.ofCode (f.var.extractLsb' 3 3)
  varOk (td != ts && !(decide (5 ≤ td.code.toNat) && decide (5 ≤ ts.code.toNat)))
  let d ← dst k true f
  let a ← src k f.a
  d.askC f
  zeroField (f.h0 && f.b == 0 && d.xZero f false)
  pure (.fcvt ⟨f.hdr, td, ts, d, a⟩)

/-- FCMP (R198). -/
def decFcmp (k : CoreKind) (f : Fields) : Dec Instr := do
  let ty ← Dec.var (FpTy.ofCode (0#2 ++ f.var.extractLsb' 0 4))
  let p ← preg f.d
  let a ← src k f.a
  let b ← src k f.b
  zeroField (f.h0 && f.x == 0)
  pure (.fcmp ⟨f.hdr, FCond.ofCode (f.var.extractLsb' 4 2), ty, p, a, b⟩)

/-- LD (R202). -/
def decLd (k : CoreKind) (f : Fields) : Dec Instr := do
  let ty ← Dec.var (IntTy.ofCode f.var)
  let d ← dst k false f
  let a ← gen f.a
  zeroField (f.h0 && f.b == 0)
  pure (.ld ⟨f.hdr, ty, d, a, f.x⟩)

/-- ST, PST (R202, R208). -/
def decSt (k : CoreKind) (f : Fields) (mk : StOps → Instr) : Dec Instr := do
  let ty ← Dec.var (IntTy.ofCode f.var)
  let a ← gen f.a
  let b ← src k f.b
  zeroField (f.h0 && f.d == 0)
  pure (mk ⟨f.hdr, ty, a, b, f.x⟩)

/-- LDC (R202). -/
def decLdc (f : Fields) : Dec Instr := do
  varOk (f.var == 0)
  let d ← gen f.d
  let a ← gen f.a
  zeroField (f.h0 && f.b == 0)
  pure (.ldc ⟨f.hdr, d, a, f.x⟩)

/-- STC (R202). -/
def decStc (f : Fields) : Dec Instr := do
  varOk (f.var == 0)
  let a ← gen f.a
  let b ← gen f.b
  zeroField (f.h0 && f.d == 0)
  pure (.stc ⟨f.hdr, b, a, f.x⟩)

/-- LDTG (R202). -/
def decLdtg (k : CoreKind) (f : Fields) : Dec Instr := do
  varOk (f.var == 0)
  let d ← dst k false f
  let a ← gen f.a
  zeroField (f.h0 && f.b == 0)
  pure (.ldtg ⟨f.hdr, d, a, f.x⟩)

/-- STTG (R202). -/
def decSttg (k : CoreKind) (f : Fields) : Dec Instr := do
  varOk (f.var == 0 || f.var == 1)
  let a ← gen f.a
  let b ← src k f.b
  zeroField (f.h0 && f.d == 0)
  pure (.sttg ⟨f.hdr, f.var == 1, a, b, f.x⟩)

/-- PREF (R202). -/
def decPref (f : Fields) : Dec Instr := do
  let l ← Dec.var (PrefLvl.ofCode f.var)
  let a ← gen f.a
  zeroField (f.h0 && f.d == 0 && f.b == 0)
  pure (.pref ⟨f.hdr, l, a, f.x⟩)

/-- LDACQ (R202). -/
def decLdacq (k : CoreKind) (f : Fields) : Dec Instr := do
  let s ← Dec.var (Scope.ofCode (f.var.extractLsb' 3 3))
  let ty ← Dec.var (IntTy.ofCode (0#3 ++ f.var.extractLsb' 0 3))
  let d ← dst k false f
  let a ← gen f.a
  zeroField (f.h0 && f.b == 0)
  pure (.ldacq ⟨f.hdr, s, ty, d, a, f.x⟩)

/-- STREL (R202). -/
def decStrel (k : CoreKind) (f : Fields) : Dec Instr := do
  let s ← Dec.var (Scope.ofCode (f.var.extractLsb' 3 3))
  let ty ← Dec.var (IntTy.ofCode (0#3 ++ f.var.extractLsb' 0 3))
  let a ← gen f.a
  let b ← src k f.b
  zeroField (f.h0 && f.d == 0)
  pure (.strel ⟨f.hdr, s, ty, a, b, f.x⟩)

/-- FENCE (R202). -/
def decFence (f : Fields) : Dec Instr := do
  let s ← Dec.var (Scope.ofCode (f.var.extractLsb' 3 3))
  let kd ← Dec.var (FenceKind.ofCode (f.var.extractLsb' 0 3))
  zeroField (f.h0 && f.d == 0 && f.a == 0 && f.b == 0 && f.x == 0)
  pure (.fence ⟨f.hdr, s, kd⟩)

/-- AMSG (R214). -/
def decAmsg (k : CoreKind) (f : Fields) : Dec Instr := do
  varOk (f.var == 0)
  let a ← gen f.a
  let b ← src k f.b
  let n : BitVec 3 := f.xs 32 3
  class' (decide (f.c.toNat + n.toNat ≤ 64))
  zeroField (f.h0 && f.d == 0 && decide (n.toNat ≤ 4) && f.xs 0 32 == 0)
  pure (.amsg ⟨f.hdr, a, b, f.c, n⟩)

/-- JRD (R208). -/
def decJrd (k : CoreKind) (f : Fields) : Dec Instr := do
  varOk (decide (f.var.toNat ≤ 3))
  let d ← dst k false f
  let a ← src k f.a
  zeroField (f.h0 && f.b == 0 && f.x == 0)
  pure (match f.var.toNat with
    | 0 => .jrd ⟨f.hdr, .addr, d, a⟩
    | 1 => .jrd ⟨f.hdr, .data, d, a⟩
    | 2 => .jrd ⟨f.hdr, .stat, d, a⟩
    | _ => .jrdClr ⟨f.hdr, d, a⟩)

/-- MWAIT (R208). -/
def decMwait (k : CoreKind) (f : Fields) : Dec Instr := do
  varOk (f.var == 0 || f.var == 1)
  let d ← dst k false f
  let a ← src k f.a
  zeroField (f.h0 && f.b == 0 && f.x == 0)
  pure (.mwait ⟨f.hdr, f.var == 1, d, a⟩)

/-- BANKCFG (R216). -/
def decBankcfg (k : CoreKind) (f : Fields) : Dec Instr := do
  let m ← Dec.var (BankMode.ofCode f.var)
  let a ← src k f.a
  let b ← src k f.b
  zeroField (f.h0 && f.d == 0 && f.x == 0)
  pure (.bankcfg ⟨f.hdr, m, a, b⟩)

/-- CSRR (R217, R151). -/
def decCsrr (k : CoreKind) (f : Fields) : Dec Instr := do
  varOk (f.var == 0)
  let d ← dst k false f
  zeroField (f.h0 && f.a == 0 && f.b == 0 && f.xs 12 31 == 0 && csrListed (f.xs 0 12))
  pure (.csrr ⟨f.hdr, d, f.xs 0 12⟩)

/-- CSRW (R217, R151). -/
def decCsrw (k : CoreKind) (f : Fields) : Dec Instr := do
  varOk (f.var == 0)
  let a ← src k f.a
  zeroField (f.h0 && f.d == 0 && f.b == 0 && f.xs 12 31 == 0 && csrListed (f.xs 0 12))
  pure (.csrw ⟨f.hdr, a, f.xs 0 12⟩)

/-- SYSC (R219). -/
def decSysc (k : CoreKind) (f : Fields) : Dec Instr := do
  varOk (f.var == 0)
  let a ← src k f.a
  let b ← gen f.b
  let n : BitVec 3 := f.xs 32 3
  class' (decide (f.c.toNat + n.toNat ≤ 64))
  zeroField (f.h0 && f.d == 0 && decide (n.toNat ≤ 6) && f.xs 0 32 == 0)
  pure (.sysc ⟨f.hdr, a, b, f.c, n⟩)

/-- ERET (R216). -/
def decEret (f : Fields) : Dec Instr := do
  varOk (f.var == 0 || f.var == 1)
  let a ← gen f.a
  zeroField (f.h0 && f.d == 0 && f.b == 0 && f.x == 0)
  pure (.eret ⟨f.hdr, f.var == 1, a⟩)

/-- WFE and the custody instructions with one variant (R216, R433). -/
def decDstSrc (k : CoreKind) (f : Fields) (mk : DstSrc → Instr) : Dec Instr := do
  varOk (f.var == 0)
  let d ← dst k false f
  let a ← src k f.a
  zeroField (f.h0 && f.b == 0 && f.x == 0)
  pure (mk ⟨f.hdr, d, a⟩)

/-- MIGR, PHSIG, PHWAIT, FLEND (R216, R304, R433). -/
def decDstSrc2 (k : CoreKind) (f : Fields) (mk : DstSrc2 → Instr) : Dec Instr := do
  varOk (f.var == 0)
  let d ← dst k false f
  let a ← src k f.a
  let b ← src k f.b
  zeroField (f.h0 && f.x == 0)
  pure (mk ⟨f.hdr, d, a, b⟩)

/-- TLBINV (R223). -/
def decTlbinv (k : CoreKind) (f : Fields) : Dec Instr := do
  varOk (f.var.extractLsb' 4 2 == 0 && decide ((f.var.extractLsb' 0 2).toNat ≤ 1)
    && (f.var.extractLsb' 0 2 == 0 || f.var.extractLsb' 2 2 == 0))
  let a ← src k f.a
  zeroField (f.h0 && f.d == 0 && f.b == 0 && f.x == 0)
  pure (if f.var.extractLsb' 0 2 = 0 then .tlbinvPage ⟨f.hdr, PageSize.ofCode (f.var.extractLsb' 2 2), a⟩
    else .tlbinvAll ⟨f.hdr, a⟩)

/-- TSPAWN, MRESTORE (R263, R385). -/
def decDstCap (k : CoreKind) (f : Fields) (mk : DstCap → Instr) : Dec Instr := do
  varOk (f.var == 0)
  let d ← dst k false f
  let a ← gen f.a
  zeroField (f.h0 && f.b == 0 && f.x == 0)
  pure (mk ⟨f.hdr, d, a⟩)

/-- TSIG (R263). -/
def decTsig (k : CoreKind) (f : Fields) : Dec Instr := do
  varOk (f.var == 0)
  let a ← gen f.a
  let b ← src k f.b
  zeroField (f.h0 && f.d == 0 && f.xs 32 11 == 0)
  pure (.tsig ⟨f.hdr, a, b, f.xs 0 32⟩)

/-- FGET (R263). -/
def decFget (k : CoreKind) (f : Fields) : Dec Instr := do
  varOk (f.var == 0)
  let d ← dst k false f
  zeroField (f.h0 && f.a == 0 && f.b == 0 && f.xs 2 41 == 0)
  pure (.fget ⟨f.hdr, d, f.xs 0 2⟩)

/-- FPUT (R263). -/
def decFput (k : CoreKind) (f : Fields) : Dec Instr := do
  varOk (f.var == 0)
  let b ← src k f.b
  zeroField (f.h0 && f.d == 0 && f.a == 0 && f.xs 2 41 == 0)
  pure (.fput ⟨f.hdr, b, f.xs 0 2⟩)

/-- TCONT (R263). -/
def decTcont (k : CoreKind) (f : Fields) : Dec Instr := do
  varOk (f.var == 0 || f.var == 1)
  let d ← dst k false f
  let a ← gen f.a
  if f.var = 1 then
    let b ← src k f.b
    zeroField (f.h0 && f.x == 0)
    pure (.tcontEnd ⟨f.hdr, d, a, b⟩)
  else
    zeroField (f.h0 && f.b == 0 && f.x == 0)
    pure (.tcontReady ⟨f.hdr, d, a⟩)

/-- TREC (R263). -/
def decTrec (k : CoreKind) (f : Fields) : Dec Instr := do
  varOk (f.var == 0)
  let d ← dst k false f
  let a ← gen f.a
  let b ← src k f.b
  let n : BitVec 3 := f.xs 32 3
  class' (decide (f.c.toNat + n.toNat ≤ 64))
  zeroField (f.h0 && decide (n.toNat ≤ 6) && f.xs 0 32 == 0)
  pure (.trec ⟨f.hdr, d, a, b, f.c, n⟩)

/-- AMO (R296). -/
def decAmo (k : CoreKind) (f : Fields) : Dec Instr := do
  let ty ← Dec.var (AmoTy.ofCode f.var)
  let s ← Dec.var (Scope.ofCode (f.xs 7 3))
  let isF := (f.xs 0 4 : BitVec 4) == 8
  varOk ((ty == .f32) == isF)
  let d ← dst k false f
  let a ← gen f.a
  let b ← src k f.b
  let cv ← if (f.xs 0 4 : BitVec 4) = 7 then src k (f.xs 19 8) else pure (.g 0)
  match AmoOp.ofCode (f.xs 0 4) with
  | none => .error .nonzeroReserved
  | some op =>
    zeroField (f.h0 && (op == .cas || (f.xs 19 8 : BitVec 8) == 0) && f.xs 12 7 == 0 && f.xs 4 3 == 0)
    pure (.amo ⟨f.hdr, ty, d, a, b, f.xs 27 16, cv, f.xs 10 2, s, op⟩)

/-- AMOR (R296). -/
def decAmor (k : CoreKind) (f : Fields) : Dec Instr := do
  let ty ← Dec.var (AmoTy.ofCode f.var)
  let s ← Dec.var (Scope.ofCode (f.xs 7 3))
  let isF := (f.xs 0 4 : BitVec 4) == 8
  varOk ((ty == .f32) == isF)
  let a ← gen f.a
  let b ← src k f.b
  match AmoOp.ofCode (f.xs 0 4) with
  | none => .error .nonzeroReserved
  | some op =>
    zeroField (f.h0 && op != .cas && f.d == 0 && (f.xs 19 8 : BitVec 8) == 0 && f.xs 12 7 == 0 && f.xs 4 3 == 0)
    pure (.amor ⟨f.hdr, ty, a, b, f.xs 27 16, f.xs 10 2, s, op⟩)

/-- PHNEW (R304). -/
def decPhnew (k : CoreKind) (f : Fields) : Dec Instr := do
  varOk (f.var == 0)
  let d ← dst k false f
  zeroField (f.h0 && f.a == 0 && f.b == 0 && f.xs 7 36 == 0 && (f.x.getLsbD 5 || (f.xs 0 5 : BitVec 5) == 0))
  pure (.phnew ⟨f.hdr, d, f.x.getLsbD 6, if f.x.getLsbD 5 then some (f.xs 0 5) else none⟩)

/-- PHJOIN (R304). -/
def decPhjoin (k : CoreKind) (f : Fields) : Dec Instr := do
  varOk (f.var == 0)
  let d ← dst k false f
  let a ← src k f.a
  match Role.ofCode (f.xs 0 2) with
  | none => .error .nonzeroReserved
  | some r =>
    zeroField (f.h0 && f.b == 0 && f.xs 2 41 == 0)
    pure (.phjoin ⟨f.hdr, d, a, r⟩)

/-- PHROLE (R304). -/
def decPhrole (k : CoreKind) (f : Fields) : Dec Instr := do
  varOk (f.var == 0)
  let a ← src k f.a
  match Role.ofCode (f.xs 0 2) with
  | none => .error .nonzeroReserved
  | some r =>
    zeroField (f.h0 && f.d == 0 && f.b == 0 && f.xs 2 41 == 0)
    pure (.phrole ⟨f.hdr, a, r⟩)

/-- CTRREAD (R304). -/
def decCtrread (k : CoreKind) (f : Fields) : Dec Instr := do
  varOk (f.var == 0)
  let d ← dst k false f
  let a ← src k f.a
  let i : BitVec 3 := f.xs 0 3
  zeroField (f.h0 && f.b == 0 && f.xs 3 40 == 0 && decide (i.toNat ≤ 4))
  pure (.ctrread ⟨f.hdr, d, a, i⟩)

/-- TCREG (R325). -/
def decTcreg (k : CoreKind) (f : Fields) : Dec Instr := do
  varOk (decide (f.var.toNat ≤ 2))
  let d ← dst k false f
  if f.var = 0 then
    let a ← gen f.a
    zeroField (f.h0 && f.b == 0 && f.x == 0)
    pure (.tcregAdd ⟨f.hdr, d, a⟩)
  else
    zeroField (f.h0 && f.a == 0 && f.b == 0 && f.xs 16 27 == 0)
    pure (if f.var = 1 then .tcregDel ⟨f.hdr, d, f.xs 0 16⟩ else .tcregStat ⟨f.hdr, d, f.xs 0 16⟩)

/-- TCLOOK (R325). -/
def decTclook (k : CoreKind) (f : Fields) : Dec Instr := do
  varOk (f.var == 0 || f.var == 1)
  let a ← gen f.a
  let b ← src k f.b
  zeroField (f.h0 && f.d == 0 && f.xs 16 27 == 0)
  pure (if f.var = 1 then .tclookWr ⟨f.hdr, a, b, f.xs 0 16⟩ else .tclookRd ⟨f.hdr, a, b, f.xs 0 16⟩)

/-- TCPF (R325). -/
def decTcpf (k : CoreKind) (f : Fields) : Dec Instr := do
  varOk (f.var == 0)
  let b ← src k f.b
  zeroField (f.h0 && f.d == 0 && f.a == 0 && f.xs 32 11 == 0 && (f.xs 24 8 : BitVec 8) != 0)
  pure (.tcpf ⟨f.hdr, b, f.xs 0 16, f.xs 16 8, f.xs 24 8⟩)

/-- TCHALO (R325). -/
def decTchalo (k : CoreKind) (f : Fields) : Dec Instr := do
  varOk (f.var == 0 || f.var == 1)
  let a ← gen f.a
  let b ← src k f.b
  zeroField (f.h0 && f.d == 0 && f.xs 20 23 == 0 && (f.xs 16 4 : BitVec 4) != 0)
  pure (.tchalo ⟨f.hdr, f.var == 1, a, b, f.xs 0 16, f.xs 16 4⟩)

/-- TCINV (R325). -/
def decTcinv (f : Fields) : Dec Instr := do
  varOk (decide (f.var.toNat ≤ 2))
  zeroField (f.h0 && f.d == 0 && f.a == 0 && f.b == 0 && f.xs 16 27 == 0)
  pure (match f.var.toNat with
    | 0 => .tcinv ⟨f.hdr, f.xs 0 16⟩
    | 1 => .tcinvDrop ⟨f.hdr, f.xs 0 16⟩
    | _ => .tcinvAll ⟨f.hdr, f.xs 0 16⟩)

/-- SGATH (R331). -/
def decSgath (f : Fields) : Dec Instr := do
  varOk (f.var == 6 || f.var == 7)
  let d ← gen f.d
  let a ← gen f.a
  let b ← gen f.b
  zeroField (f.h0 && f.xs 0 18 == 0 && (f.xs 30 13 : BitVec 13) != 0 && (f.xs 18 12 : BitVec 12) != 0)
  pure (.sgath ⟨f.hdr, f.var == 7, d, a, b, f.xs 30 13, f.xs 18 12⟩)

/-- SRED (R331, R333). -/
def decSred (f : Fields) : Dec Instr := do
  let ty ← Dec.var (SredTy.ofCode f.var)
  let d ← gen f.d
  let a ← gen f.a
  match SredOp.ofCode (f.xs 0 4) with
  | none => .error .nonzeroReserved
  | some op =>
    zeroField (f.h0 && f.b == 0 && f.xs 4 16 == 0 && (f.xs 20 23 : BitVec 23) != 0 && (decide (op.code.toNat ≤ 2) || decide (ty.code.toNat ≤ 7)))
    pure (.sred ⟨f.hdr, ty, d, a, f.xs 20 23, op⟩)

/-- SCONV (R331). -/
def decSconv (f : Fields) : Dec Instr := do
  varOk (f.var == 0 && rmOk (f.xs 28 3))
  let d ← gen f.d
  let a ← gen f.a
  let b ← gen f.b
  zeroField (f.h0 && f.xs 0 4 == 0 && (f.xs 4 24 : BitVec 24) != 0)
  pure (.sconv ⟨f.hdr, d, a, b, f.xs 37 6, f.xs 31 6, f.xs 28 3, f.xs 4 24⟩)

/-- COPY (R349). -/
def decCopy (f : Fields) : Dec Instr := do
  let m ← Dec.var (Dims.ofCode f.var)
  let d ← gen f.d
  let a ← gen f.a
  let b ← gen f.b
  class' (decide (b.toNat + m.extra ≤ 63))
  zeroField (f.h0 && f.xs 2 41 == 0)
  pure (.copy ⟨f.hdr, m, d, a, b, f.xs 0 2⟩)

/-- COPYR (R349). -/
def decCopyr (f : Fields) : Dec Instr := do
  let m ← Dec.var (Dims.ofCode f.var)
  let d ← gen f.d
  let a ← gen f.a
  let b ← gen f.b
  class' (decide (b.toNat + m.extra ≤ 63))
  class' (decide ((f.xs 7 8 : BitVec 8).toNat ≤ 0x3E))
  zeroField (f.h0 && f.xs 15 28 == 0)
  pure (.copyr ⟨f.hdr, m, d, a, b, f.xs 0 2, f.xs 2 5, f.xs 7 8⟩)

/-- WPRD (R349). -/
def decWprd (k : CoreKind) (f : Fields) : Dec Instr := do
  varOk (f.var == 0)
  let d ← dst k false f
  zeroField (f.h0 && f.a == 0 && f.b == 0 && f.xs 2 41 == 0)
  pure (.wprd ⟨f.hdr, d, f.xs 0 2⟩)

/-- TLWAIT (R349). -/
def decTlwait (k : CoreKind) (f : Fields) : Dec Instr := do
  varOk (f.var.extractLsb' 3 3 == 0)
  let s ← Dec.var (Scope.ofCode (f.var.extractLsb' 0 3))
  let d ← dst k false f
  let b ← src k f.b
  zeroField (f.h0 && f.a == 0 && f.xs 3 5 == 0)
  pure (.tlwait ⟨f.hdr, s, d, b, f.xs 0 3, f.xs 8 35⟩)

/-- TLRD (R349). -/
def decTlrd (k : CoreKind) (f : Fields) : Dec Instr := do
  varOk (f.var == 0 || f.var == 1)
  let d ← dst k false f
  zeroField (f.h0 && f.a == 0 && f.b == 0 && f.xs 3 40 == 0)
  pure (.tlrd ⟨f.hdr, f.var == 1, d, f.xs 0 3⟩)

/-- Two-source vector instructions (R357, R367). -/
def decV2 (f : Fields) (ok : VTy → Bool → Bool) (mk : V2 → Instr) : Dec Instr := do
  let ty ← Dec.var (VTy.ofCode (f.var.extractLsb' 0 5))
  let sat := f.var.getLsbD 5
  varOk (ok ty sat)
  let d ← vreg f.d
  let a ← vreg f.a
  let b ← vreg f.b
  zeroField (f.h0 && f.x == 0)
  pure (mk ⟨f.hdr, sat, ty, d, a, b⟩)

/-- VFMA (R357). -/
def decV3 (f : Fields) : Dec Instr := do
  let ty ← Dec.var (VTy.ofCode (f.var.extractLsb' 0 5))
  let sat := f.var.getLsbD 5
  varOk (ty.arith && satOk sat ty)
  let d ← vreg f.d
  let a ← vreg f.a
  let b ← vreg f.b
  let c ← vreg f.c
  zeroField (f.h0 && f.imm == 0)
  pure (.vfma ⟨f.hdr, sat, ty, d, a, b, c⟩)

/-- One-source vector instructions (R357, R367). -/
def decV1 (f : Fields) (ok : VTy → Bool → Bool) (mk : V1 → Instr) : Dec Instr := do
  let ty ← Dec.var (VTy.ofCode (f.var.extractLsb' 0 5))
  let sat := f.var.getLsbD 5
  varOk (ok ty sat)
  let d ← vreg f.d
  let a ← vreg f.a
  zeroField (f.h0 && f.b == 0 && f.x == 0)
  pure (mk ⟨f.hdr, sat, ty, d, a⟩)

/-- VAND, VOR, VXOR (R357). -/
def decVLogic (f : Fields) (mk : VLogic → Instr) : Dec Instr := do
  varOk (f.var == 0)
  let d ← vreg f.d
  let a ← vreg f.a
  let b ← vreg f.b
  zeroField (f.h0 && f.x == 0)
  pure (mk ⟨f.hdr, d, a, b⟩)

/-- VCMP (R363). -/
def decVcmp (f : Fields) : Dec Instr := do
  let ty ← Dec.var (VTy.ofCode (0#1 ++ f.var.extractLsb' 0 4))
  let cond := FCond.ofCode (f.var.extractLsb' 4 2)
  varOk (ty.arith && !(cond == .un && ty.isInt))
  let d ← vecPred f.d
  class' (match d with | .vec _ => true | .pred _ => ty.width == 32)
  let a ← vreg f.a
  let b ← vreg f.b
  zeroField (f.h0 && f.x == 0)
  pure (.vcmp ⟨f.hdr, cond, ty, d, a, b⟩)

/-- VSEL (R364). -/
def decVsel (f : Fields) : Dec Instr := do
  varOk (f.var == 0)
  let d ← vreg f.d
  let a ← vreg f.a
  let b ← vreg f.b
  let c ← vecPred f.c
  zeroField (f.h0 && f.imm == 0)
  pure (.vsel ⟨f.hdr, d, a, b, c⟩)

/-- VCVT (R365). -/
def decVcvt (k : CoreKind) (f : Fields) : Dec Instr := do
  let ts := VcvtTy.ofCode (f.var.extractLsb' 3 3)
  let td := VcvtTy.ofCode (f.var.extractLsb' 0 3)
  varOk (ts != td)
  let d ← vreg f.d
  let a ← vreg f.a
  let b ← src k f.b
  zeroField (f.h0 && f.x == 0)
  pure (.vcvt ⟨f.hdr, ts, td, d, a, b⟩)

/-- VREDADD, VREDMAX (R367). -/
def decVred (k : CoreKind) (f : Fields) (mk : VredOps → Instr) : Dec Instr := do
  let ty ← Dec.var (VTy.ofCode (f.var.extractLsb' 0 5))
  let sat := f.var.getLsbD 5
  varOk (ty.arith && !sat)
  let d ← dst k false f
  let a ← vreg f.a
  zeroField (f.h0 && f.b == 0 && f.x == 0)
  pure (mk ⟨f.hdr, ty, d, a⟩)

/-- VBCAST (R367). -/
def decVbcast (k : CoreKind) (f : Fields) : Dec Instr := do
  let ty ← Dec.var (VTy.ofCode (f.var.extractLsb' 0 5))
  let sat := f.var.getLsbD 5
  varOk (!sat)
  let d ← vreg f.d
  let a ← src k f.a
  zeroField (f.h0 && f.b == 0 && f.x == 0)
  pure (.vbcast ⟨f.hdr, ty, d, a⟩)

/-- VLD (R372). -/
def decVld (f : Fields) : Dec Instr := do
  varOk (f.var == 0)
  let d ← vreg f.d
  let a ← gen f.a
  zeroField (f.h0 && f.b == 0)
  pure (.vld ⟨f.hdr, d, a, f.x⟩)

/-- VST (R372). -/
def decVst (f : Fields) : Dec Instr := do
  varOk (f.var == 0)
  let a ← gen f.a
  let b ← vreg f.b
  zeroField (f.h0 && f.d == 0)
  pure (.vst ⟨f.hdr, a, b, f.x⟩)

/-- VLDS (R372). -/
def decVlds (k : CoreKind) (f : Fields) : Dec Instr := do
  varOk (f.var == 0)
  let d ← vreg f.d
  let a ← gen f.a
  let b ← src k f.b
  zeroField (f.h0 && f.c == 0)
  pure (.vlds ⟨f.hdr, d, a, b, f.imm⟩)

/-- VGATH (R372). -/
def decVgath (f : Fields) : Dec Instr := do
  varOk (f.var.extractLsb' 2 4 == 0)
  let d ← vreg f.d
  let a ← gen f.a
  let b ← vreg f.b
  zeroField (f.h0 && f.c == 0)
  pure (.vgath ⟨f.hdr, f.var.extractLsb' 0 2, d, a, b, f.imm⟩)

/-- VSCAT (R372). -/
def decVscat (f : Fields) : Dec Instr := do
  varOk (f.var.extractLsb' 2 4 == 0)
  let a ← gen f.a
  let b ← vreg f.b
  let c ← vreg f.c
  zeroField (f.h0 && f.d == 0)
  pure (.vscat ⟨f.hdr, f.var.extractLsb' 0 2, a, b, c, f.imm⟩)

/-- VMOVG (R371). -/
def decVmovg (k : CoreKind) (f : Fields) : Dec Instr := do
  let ty ← Dec.var (VTy.ofCode (f.var.extractLsb' 0 5))
  if f.var.getLsbD 5 then
    let d ← vreg f.d
    let a ← src k f.a
    let b ← src k f.b
    zeroField (f.h0 && f.c == 0)
    pure (.vmovgPut ⟨f.hdr, ty, d, a, b, f.imm⟩)
  else
    let d ← dst k false f
    let a ← vreg f.a
    let b ← src k f.b
    zeroField (f.h0 && f.c == 0)
    pure (.vmovgGet ⟨f.hdr, ty, d, a, b, f.imm⟩)

/-- MCLAIM (R385). -/
def decMclaim (k : CoreKind) (f : Fields) : Dec Instr := do
  varOk (f.var == 0)
  let d ← dst k false f
  let a ← gen f.a
  zeroField (f.h0 && f.b == 0 && f.xs 32 3 == 0)
  pure (.mclaim ⟨f.hdr, d, a, f.xs 35 8, f.xs 0 32⟩)

/-- MREL (R385). -/
def decMrel (f : Fields) : Dec Instr := do
  varOk (f.var == 0)
  zeroField (f.h0 && f.d == 0 && f.a == 0 && f.b == 0 && f.xs 32 3 == 0)
  pure (.mrel ⟨f.hdr, f.xs 35 8, f.xs 0 32⟩)

/-- MLD (R385, R388, R389). `.scale` leaves B unused. -/
def decMld (k : CoreKind) (f : Fields) : Dec Instr := do
  varOk (f.var.extractLsb' 3 3 == 0)
  let m := MldMode.ofCode (f.var.extractLsb' 0 2)
  let sw := f.var.getLsbD 2
  let a ← gen f.a
  let b ← if m = .scale then pure (.g 0) else src k f.b
  let span := f.x.getLsbD 5
  let s : BitVec 5 := f.xs 0 5
  let z : BitVec 5 := f.xs 6 5
  zeroField (f.h0 && f.d == 0 && f.xs 11 32 == 0 && !(m == .scale && (sw || span || z != 0 || f.b != 0)) && !(span && s == 31))
  pure (.mld ⟨f.hdr, sw, m, a, b, s, span, z⟩)

/-- MMA (R385, R392). With F clear, B is an unused field, judged at step 7. -/
def decMma (k : CoreKind) (f : Fields) : Dec Instr := do
  let ty ← Dec.var (MmaTy.ofCode f.var)
  let fd := f.x.getLsbD 18
  let b ← if fd then src k f.b else pure (.g 0)
  let sa : BitVec 5 := f.xs 0 5
  let sb : BitVec 5 := f.xs 5 5
  zeroField (f.h0 && f.d == 0 && f.a == 0 && f.xs 26 17 == 0 && (fd || f.b == 0) && !(fd && ty == .i8) && 
    mmaBitsOk (f.x.getLsbD 16) (f.x.getLsbD 17) fd (f.x.getLsbD 19) (f.xs 13 3) (f.xs 20 6) && 
    !(ty.span2 && (sa == 31 || sb == 31)))
  pure (.mma ⟨f.hdr, ty, b, sa, sb, f.xs 10 3, f.xs 13 3, f.x.getLsbD 16, f.x.getLsbD 17, fd, f.x.getLsbD 19,
    f.xs 20 6⟩)

/-- MTERN (R385, R392). -/
def decMtern (f : Fields) : Dec Instr := do
  varOk (f.var == 0 || f.var == 4)
  let sa : BitVec 5 := f.xs 0 5
  let sb : BitVec 5 := f.xs 5 5
  zeroField (f.h0 && f.d == 0 && f.a == 0 && f.b == 0 && f.xs 26 17 == 0 && !f.x.getLsbD 18 && 
    mmaBitsOk (f.x.getLsbD 16) (f.x.getLsbD 17) false (f.x.getLsbD 19) (f.xs 13 3) (f.xs 20 6) && sb != 31)
  pure (.mtern ⟨f.hdr, f.var == 4, sa, sb, f.xs 10 3, f.xs 13 3, f.x.getLsbD 16, f.x.getLsbD 17, f.x.getLsbD 19,
    f.xs 20 6⟩)

/-- ACCZ (R385). -/
def decAccz (f : Fields) : Dec Instr := do
  varOk (f.var == 0)
  zeroField (f.h0 && f.d == 0 && f.a == 0 && f.b == 0 && f.xs 8 35 == 0)
  pure (.accz ⟨f.hdr, f.xs 0 8⟩)

/-- ACCLD (R385). -/
def decAccld (k : CoreKind) (f : Fields) : Dec Instr := do
  varOk (f.var == 0)
  let a ← gen f.a
  let b ← src k f.b
  zeroField (f.h0 && f.d == 0 && f.xs 3 40 == 0)
  pure (.accld ⟨f.hdr, a, b, f.xs 0 3⟩)

/-- ACCST (R385, R396). -/
def decAccst (k : CoreKind) (f : Fields) : Dec Instr := do
  let ty ← Dec.var (AccTy.ofCode (f.var.extractLsb' 0 5))
  varOk (rmOk (f.xs 3 3))
  let a ← gen f.a
  let b ← src k f.b
  zeroField (f.h0 && f.d == 0 && f.xs 6 37 == 0)
  pure (.accst ⟨f.hdr, f.var.getLsbD 5, ty, a, b, f.xs 0 3, f.xs 3 3⟩)

/-- ACCMOV (R385, R398). -/
def decAccmov (f : Fields) : Dec Instr := do
  let ty ← Dec.var (AccTy.ofCode (0#1 ++ f.var.extractLsb' 0 4))
  varOk (ty.movable && rmOk (f.xs 3 3))
  zeroField (f.h0 && f.d == 0 && f.a == 0 && f.b == 0 && f.xs 12 31 == 0 && !(f.x.getLsbD 11 && ty.is16))
  pure (.accmov ⟨f.hdr, f.var.getLsbD 5, f.var.getLsbD 4, ty, f.xs 0 3, f.xs 3 3, f.xs 6 5, f.x.getLsbD 11⟩)

/-- BCENT (R420). -/
def decBcent (k : CoreKind) (f : Fields) : Dec Instr := do
  varOk (f.var == 0 || f.var == 1)
  let d ← dst k false f
  let b ← src k f.b
  zeroField (f.h0 && f.a == 0 && f.xs 12 31 == 0)
  pure (.bcent ⟨f.hdr, f.var == 1, d, b, f.xs 0 12⟩)

/-- BCLISTEN (R420). -/
def decBclisten (k : CoreKind) (f : Fields) : Dec Instr := do
  varOk (f.var == 0)
  let d ← dst k false f
  zeroField (f.h0 && f.a == 0 && f.b == 0 && f.xs 12 31 == 0)
  pure (.bclisten ⟨f.hdr, d, f.xs 0 12⟩)

/-- BCBIND (R420). -/
def decBcbind (k : CoreKind) (f : Fields) : Dec Instr := do
  varOk (decide (f.var.toNat ≤ 3))
  let d ← dst k false f
  match f.var.toNat with
  | 0 =>
    zeroField (f.h0 && f.a == 0 && f.b == 0 && f.xs 17 26 == 0)
    pure (.bcbindBind ⟨f.hdr, d, f.xs 0 4, f.xs 4 12, f.x.getLsbD 16⟩)
  | 3 =>
    zeroField (f.h0 && f.a == 0 && f.b == 0 && f.xs 4 20 == 0 && f.xs 32 11 == 0)
    pure (.bcbindAssign ⟨f.hdr, d, f.xs 0 4, f.xs 24 8⟩)
  | n =>
    zeroField (f.h0 && f.a == 0 && f.b == 0 && f.xs 4 39 == 0)
    pure (if n = 1 then .bcbindUnbind ⟨f.hdr, d, f.xs 0 4⟩ else .bcbindStat ⟨f.hdr, d, f.xs 0 4⟩)

/-- FOFFER (R433). -/
def decFoffer (k : CoreKind) (f : Fields) : Dec Instr := do
  varOk (decide (f.var.toNat ≤ 2))
  let d ← dst k false f
  let a ← src k f.a
  if f.var = 1 then
    let b ← src k f.b
    zeroField (f.h0 && f.x == 0)
    pure (.fofferGrant ⟨f.hdr, d, a, b⟩)
  else
    zeroField (f.h0 && f.b == 0 && f.x == 0)
    pure (if f.var = 0 then .foffer ⟨f.hdr, d, a⟩ else .fofferReclaim ⟨f.hdr, d, a⟩)

/-- FQUERY (R433). -/
def decFquery (k : CoreKind) (f : Fields) : Dec Instr := do
  varOk (decide (f.var.toNat ≤ 2))
  let d ← dst k false f
  if f.var = 2 then
    zeroField (f.h0 && f.a == 0 && f.b == 0 && f.x == 0)
    pure (.fqueryStrk ⟨f.hdr, d⟩)
  else
    let a ← src k f.a
    zeroField (f.h0 && f.b == 0 && f.x == 0)
    pure (if f.var = 0 then .fqueryState ⟨f.hdr, d, a⟩ else .fqueryDl ⟨f.hdr, d, a⟩)

/-- Steps 3 and 5 to 7 of R57 for an opcode, by the opcode map (R62). -/
def decodeOpc (k : CoreKind) (f : Fields) : Dec Instr :=
  match f.opc.toNat with
  | 0x000 => decAlu3 k f .add
  | 0x001 => decAlu3 k f .sub
  | 0x002 => decAlu3 k f .mul
  | 0x003 => decAlu2 k f .mulh
  | 0x004 => decAlu2 k f .div
  | 0x005 => decAlu2 k f .rem
  | 0x006 => decAlu2 k f .and
  | 0x007 => decAlu2 k f .or
  | 0x008 => decAlu2 k f .xor
  | 0x009 => decAlu2 k f .andn
  | 0x00A => decAlu2 k f .shl
  | 0x00B => decAlu2 k f .shr
  | 0x00C => decAlu2 k f .sar
  | 0x00D => decAlu2 k f .rot
  | 0x00E => decAlu1 k f .clz
  | 0x00F => decAlu1 k f .popc
  | 0x010 => decAlu2 k f .min
  | 0x011 => decAlu2 k f .max
  | 0x012 => decCmp k f
  | 0x013 => decSel k f
  | 0x014 => decMovi k f
  | 0x015 => decMovhi k f
  | 0x020 => decCsetb k f
  | 0x021 => decCapImm k f .csetp
  | 0x022 => decCapAuth f .cseal
  | 0x023 => decCapAuth f .cunseal
  | 0x024 => decCapImm k f .cadd
  | 0x025 => decCget k f
  | 0x026 => decCtest f
  | 0x027 => decCapImm k f .ckey
  | 0x030 => decImm f .br
  | 0x031 => decBrc k f
  | 0x032 => decCall f
  | 0x033 => decOneG f .ret
  | 0x034 => decJmpi f
  | 0x035 => decLoop f
  | 0x036 => decNone f (fun h => .yield ⟨h⟩)
  | 0x037 => decOneSrc k f .endTask
  | 0x038 => decImm f .trapi
  | 0x040 => decFp2 k f .fadd
  | 0x041 => decFp2 k f .fsub
  | 0x042 => decFp2 k f .fmul
  | 0x043 => decFp3 k f
  | 0x044 => decFp2 k f .fdiv
  | 0x045 => decFp1 k f
  | 0x046 => decFcvt k f
  | 0x047 => decFcmp k f
  | 0x060 => decLd k f
  | 0x061 => decSt k f .st
  | 0x062 => decLdc f
  | 0x063 => decStc f
  | 0x064 => decLdtg k f
  | 0x065 => decSttg k f
  | 0x066 => decPref f
  | 0x067 => decLdacq k f
  | 0x068 => decStrel k f
  | 0x069 => decFence f
  | 0x070 => decAmsg k f
  | 0x071 => decSt k f .pst
  | 0x072 => decJrd k f
  | 0x073 => decMwait k f
  | 0x080 => decBankcfg k f
  | 0x081 => decCsrr k f
  | 0x082 => decCsrw k f
  | 0x083 => decSysc k f
  | 0x084 => decEret f
  | 0x085 => decImm f .brk
  | 0x086 => decDstSrc k f .wfe
  | 0x087 => decNone f (fun h => .halt ⟨h⟩)
  | 0x088 => decTlbinv k f
  | 0x089 => decDstSrc2 k f .migr
  | 0x08A => decNone f (fun h => .ckpt ⟨h⟩)
  | 0x100 => decDstCap k f .tspawn
  | 0x101 => decTsig k f
  | 0x102 => decOneG f .launch
  | 0x103 => decOneSrc k f .done
  | 0x104 => decFget k f
  | 0x105 => decFput k f
  | 0x106 => decTcont k f
  | 0x107 => decTrec k f
  | 0x140 => decAmo k f
  | 0x141 => decAmor k f
  | 0x142 => decPhnew k f
  | 0x143 => decPhjoin k f
  | 0x144 => decOneSrc k f .phleave
  | 0x145 => decPhrole k f
  | 0x146 => decDstSrc2 k f .phsig
  | 0x147 => decDstSrc2 k f .phwait
  | 0x148 => decCtrread k f
  | 0x180 => decTcreg k f
  | 0x181 => decTclook k f
  | 0x182 => decTcpf k f
  | 0x183 => decTchalo k f
  | 0x184 => decTcinv f
  | 0x1A0 => decSgath f
  | 0x1A1 => decSred f
  | 0x1A2 => decSconv f
  | 0x1C0 => decCopy f
  | 0x1C1 => decCopyr f
  | 0x1C2 => decWprd k f
  | 0x1C3 => decTlwait k f
  | 0x1C4 => decTlrd k f
  | 0x200 => decV2 f (fun t s => t.arith && satOk s t) .vadd
  | 0x201 => decV2 f (fun t s => t.arith && satOk s t) .vsub
  | 0x202 => decV2 f (fun t s => t.arith && satOk s t) .vmul
  | 0x203 => decV3 f
  | 0x204 => decV2 f (fun t s => t.arith && !s) .vmin
  | 0x205 => decV2 f (fun t s => t.arith && !s) .vmax
  | 0x206 => decV1 f (fun t s => t.signedOrFloat && satOk s t) .vabs
  | 0x207 => decV1 f (fun t s => t.signedOrFloat && satOk s t) .vneg
  | 0x208 => decV1 f (fun t s => t.float && !s) .vrcp
  | 0x209 => decV1 f (fun t s => t.float && !s) .vrsq
  | 0x20A => decV1 f (fun t s => t.float && !s) .vexp2
  | 0x20B => decV1 f (fun t s => t.float && !s) .vlog2
  | 0x20C => decVcvt k f
  | 0x20D => decVcmp f
  | 0x20E => decVsel f
  | 0x20F => decVLogic f .vand
  | 0x210 => decVLogic f .vor
  | 0x211 => decVLogic f .vxor
  | 0x212 => decV2 f (fun t s => t.isInt && !s) .vshl
  | 0x213 => decV2 f (fun t s => t.isInt && !s) .vshr
  | 0x214 => decVred k f .vredadd
  | 0x215 => decVred k f .vredmax
  | 0x216 => decV1 f (fun t s => t.arith && satOk s t) .vscan
  | 0x217 => decV2 f (fun _ s => !s) .vperm
  | 0x218 => decVbcast k f
  | 0x219 => decV1 f (fun t s => t.float && !s) .vclass
  | 0x220 => decVld f
  | 0x221 => decVst f
  | 0x222 => decVlds k f
  | 0x223 => decVgath f
  | 0x224 => decVscat f
  | 0x225 => decVmovg k f
  | 0x300 => decMclaim k f
  | 0x301 => decMrel f
  | 0x302 => decMld k f
  | 0x303 => decMma k f
  | 0x304 => decMtern f
  | 0x305 => decAccz f
  | 0x306 => decAccld k f
  | 0x307 => decAccst k f
  | 0x308 => decAccmov f
  | 0x309 => decOneG f .msave
  | 0x30A => decDstCap k f .mrestore
  | 0x380 => decBcent k f
  | 0x381 => decBclisten k f
  | 0x382 => decBcbind k f
  | 0x3A0 => decFoffer k f
  | 0x3A1 => decDstSrc k f .faccept
  | 0x3A2 => decDstSrc k f .fwithdraw
  | 0x3A3 => decDstSrc2 k f .flend
  | 0x3A4 => decDstSrc k f .frecall
  | 0x3A5 => decDstSrc k f .fret
  | 0x3A6 => decFquery k f
  | _ => .error .unassigned

/-- The decoding checks of R57 that read the word: steps 3 to 7. A compute core has the mesh ports. -/
def decodeFields (k : CoreKind) (f : Fields) : Dec Instr :=
  if kindOk k f.opc then
    match decodeOpc k f with
    | .error .wrongKind => .error (if k = .compute then .badClass else .wrongKind)
    | r => r
  else .error .wrongKind

/-- Decodes a 96-bit word on a core of a kind (R57). -/
def decode (k : CoreKind) (w : IWord) : Dec Instr := decodeFields k (Fields.unpack w)

/-- A 32-bit word from its four bytes, least significant first (R4). -/
def le32 (b0 b1 b2 b3 : Byte) : BitVec 32 := b3 ++ b2 ++ b1 ++ b0

/-- Decodes the first twelve bytes of a list, the words in the order of R5; any other list is no instruction. -/
def decodeBytes (k : CoreKind) : List Byte → Dec Instr
  | [b0, b1, b2, b3, c0, c1, c2, c3, d0, d1, d2, d3] =>
    decode k (wordOf (le32 b0 b1 b2 b3) (le32 c0 c1 c2 c3) (le32 d0 d1 d2 d3))
  | _ => .error .unassigned

/-- The twelve bytes of an instruction word as they lie in memory (R4, R5). -/
def bytesOf (w : IWord) : List Byte :=
  [w.extractLsb' 64 8, w.extractLsb' 72 8, w.extractLsb' 80 8, w.extractLsb' 88 8,
   w.extractLsb' 32 8, w.extractLsb' 40 8, w.extractLsb' 48 8, w.extractLsb' 56 8,
   w.extractLsb' 0 8, w.extractLsb' 8 8, w.extractLsb' 16 8, w.extractLsb' 24 8]

/-- A word as the opcode table numbers its bits: bit 0 is the least significant bit of the first word, W2, and
the later words' bits count on from it. Bits at or above `nbits` are zero. -/
def tableWord (nbits w : Nat) : IWord :=
  let v := BitVec.ofNat 96 (w % 2 ^ nbits)
  wordOf (v.extractLsb' 0 32) (v.extractLsb' 32 32) (v.extractLsb' 64 32)

/-- What the decoder reads from a word numbered as the opcode table numbers it: as a compute core does, or,
where the word is available on no compute core, as a service core does. -/
def decodeTableWord (nbits w : Nat) : Option Instr :=
  let bytes := bytesOf (tableWord nbits w)
  match decodeBytes .compute bytes with
  | .ok i => some i
  | .error _ =>
    match decodeBytes .service bytes with
    | .ok i => some i
    | .error _ => none

/-! The encoder, written from the same tables. -/

/-- Fields of an instruction from its opcode, variant, operands and X. -/
def mkF (opc : BitVec 10) (var : BitVec 6) (d a b : BitVec 8) (h : Hdr) (x : BitVec 43) : Fields :=
  { opc := opc, var := var, d := d, a := a, b := b, g := h.g, h := h.h, x := x }

def gcode (i : BitVec 6) : BitVec 8 := 0#2 ++ i
def vcode (i : BitVec 5) : BitVec 8 := 0b010#3 ++ i
def pcode (i : BitVec 4) : BitVec 8 := 0b0110#4 ++ i
def b1 (b : Bool) : BitVec 1 := BitVec.ofBool b
/-- VAR of a vector instruction (R355). -/
def vvar (sat : Bool) (t : VTy) : BitVec 6 := b1 sat ++ t.code

def encAlu3 (n : BitVec 10) (o : Alu3) := mkF n o.ty.code o.d.code o.a.code o.b.code o.h (o.c.code ++ o.imm)
def encAlu2 (n : BitVec 10) (o : Alu2) := mkF n o.ty.code o.d.code o.a.code o.b.code o.h (o.d.xcode ++ o.imm)
def encAlu1 (n : BitVec 10) (o : Alu1) := mkF n o.ty.code o.d.code o.a.code 0 o.h (o.d.xcode ++ 0#35)
def encCapImm (n : BitVec 10) (o : CapImm) := mkF n 0 (gcode o.d) (gcode o.a) o.b.code o.h (0#8 ++ o.imm)
def encCapAuth (n : BitVec 10) (o : CapAuth) := mkF n 0 (gcode o.d) (gcode o.a) (gcode o.b) o.h 0
def encImm (n : BitVec 10) (o : ImmOps) := mkF n 0 0 0 0 o.h o.imm
def encOneG (n : BitVec 10) (o : OneG) := mkF n 0 0 (gcode o.a) 0 o.h 0
def encNone (n : BitVec 10) (o : NoOps) := mkF n 0 0 0 0 o.h 0
def encOneSrc (n : BitVec 10) (v : BitVec 6) (o : OneSrc) := mkF n v 0 o.a.code 0 o.h 0
def encFp2 (n : BitVec 10) (o : Fp2) := mkF n o.ty.code o.d.code o.a.code o.b.code o.h (o.d.xcode ++ 0#35)
def encSt (n : BitVec 10) (o : StOps) := mkF n o.ty.code 0 (gcode o.a) o.b.code o.h o.off
def encDstSrc (n : BitVec 10) (v : BitVec 6) (o : DstSrc) := mkF n v o.d.code o.a.code 0 o.h 0
def encDstSrc2 (n : BitVec 10) (v : BitVec 6) (o : DstSrc2) := mkF n v o.d.code o.a.code o.b.code o.h 0
def encDstCap (n : BitVec 10) (o : DstCap) := mkF n 0 o.d.code (gcode o.a) 0 o.h 0
def encDstId (v : BitVec 6) (o : DstId) := mkF 0x180 v o.d.code 0 0 o.h (0#27 ++ o.id)
def encTclook (v : BitVec 6) (o : TclookOps) := mkF 0x181 v 0 (gcode o.a) o.b.code o.h (0#27 ++ o.id)
def encTcinv (v : BitVec 6) (o : TcinvOps) := mkF 0x184 v 0 0 0 o.h (0#27 ++ o.id)
def encV2 (n : BitVec 10) (o : V2) := mkF n (vvar o.sat o.ty) (vcode o.d) (vcode o.a) (vcode o.b) o.h 0
def encV1 (n : BitVec 10) (o : V1) := mkF n (vvar o.sat o.ty) (vcode o.d) (vcode o.a) 0 o.h 0
def encVLogic (n : BitVec 10) (o : VLogic) := mkF n 0 (vcode o.d) (vcode o.a) (vcode o.b) o.h 0
def encVred (n : BitVec 10) (o : VredOps) := mkF n (vvar false o.ty) o.d.code (vcode o.a) 0 o.h 0
def encLane (v : BitVec 6) (o : LaneOps) := mkF 0x382 v o.d.code 0 0 o.h (0#39 ++ o.lane)

/-- The fields of an instruction; an event has none. -/
def Instr.fields : Instr → Option Fields
  | .add o => some (encAlu3 0 o)
  | .sub o => some (encAlu3 1 o)
  | .mul o => some (encAlu3 2 o)
  | .mulh o => some (encAlu2 0x003 o)
  | .div o => some (encAlu2 0x004 o)
  | .rem o => some (encAlu2 0x005 o)
  | .and o => some (encAlu2 0x006 o)
  | .or o => some (encAlu2 0x007 o)
  | .xor o => some (encAlu2 0x008 o)
  | .andn o => some (encAlu2 0x009 o)
  | .shl o => some (encAlu2 0x00A o)
  | .shr o => some (encAlu2 0x00B o)
  | .sar o => some (encAlu2 0x00C o)
  | .rot o => some (encAlu2 0x00D o)
  | .clz o => some (encAlu1 0x00E o)
  | .popc o => some (encAlu1 0x00F o)
  | .min o => some (encAlu2 0x010 o)
  | .max o => some (encAlu2 0x011 o)
  | .cmp o => some (mkF 0x012 (o.cond.code ++ o.ty.code.extractLsb' 0 3) (pcode o.p) o.a.code o.b.code o.h (0#8 ++ o.imm))
  | .sel o => some (mkF 0x013 o.ty.code o.d.code o.a.code o.b.code o.h (pcode o.c ++ o.imm))
  | .movi o => some (mkF 0x014 0 o.d.code 0 0 o.h o.imm)
  | .movhi o => some (mkF 0x015 0 o.d.code o.a.code 0 o.h (0#22 ++ o.imm))
  | .csetb o => some (mkF 0x020 (0#5 ++ b1 o.exact) (gcode o.d) (gcode o.a) o.b.code o.h (0#8 ++ o.imm))
  | .csetp o => some (encCapImm 0x021 o)
  | .cseal o => some (encCapAuth 0x022 o)
  | .cunseal o => some (encCapAuth 0x023 o)
  | .cadd o => some (encCapImm 0x024 o)
  | .cget o => some (mkF 0x025 o.field.code o.d.code (gcode o.a) 0 o.h 0)
  | .ctest o => some (match o.sub with
      | some b => mkF 0x026 1 (pcode o.p) (gcode o.a) (gcode b) o.h 0
      | none => mkF 0x026 0 (pcode o.p) (gcode o.a) 0 o.h 0)
  | .ckey o => some (encCapImm 0x027 o)
  | .br o => some (encImm 0x030 o)
  | .brc o => some (mkF 0x031 (o.cond.code ++ o.ty.code.extractLsb' 0 3) 0 o.a.code o.b.code o.h (0#8 ++ o.disp))
  | .call o => some (mkF 0x032 0 (gcode o.d) 0 0 o.h o.disp)
  | .ret o => some (encOneG 0x033 o)
  | .jmpi o => some (mkF 0x034 0 (gcode o.d) (gcode o.a) 0 o.h 0)
  | .loop o => some (mkF 0x035 0 (gcode o.d) (gcode o.a) 0 o.h (0#8 ++ o.disp))
  | .yield o => some (encNone 0x036 o)
  | .endTask o => some (encOneSrc 0x037 0 o)
  | .trapi o => some (encImm 0x038 o)
  | .fadd o => some (encFp2 0x040 o)
  | .fsub o => some (encFp2 0x041 o)
  | .fmul o => some (encFp2 0x042 o)
  | .ffma o => some (mkF 0x043 o.ty.code o.d.code o.a.code o.b.code o.h (o.c.code ++ 0#35))
  | .fdiv o => some (encFp2 0x044 o)
  | .fsqrt o => some (mkF 0x045 o.ty.code o.d.code o.a.code 0 o.h (o.d.xcode ++ 0#35))
  | .fcvt o => some (mkF 0x046 (o.src.code ++ o.dst.code) o.d.code o.a.code 0 o.h (o.d.xcode ++ 0#35))
  | .fcmp o => some (mkF 0x047 (o.cond.code ++ o.ty.code.extractLsb' 0 4) (pcode o.p) o.a.code o.b.code o.h 0)
  | .ld o => some (mkF 0x060 o.ty.code o.d.code (gcode o.a) 0 o.h o.off)
  | .st o => some (encSt 0x061 o)
  | .ldc o => some (mkF 0x062 0 (gcode o.r) (gcode o.a) 0 o.h o.off)
  | .stc o => some (mkF 0x063 0 0 (gcode o.a) (gcode o.r) o.h o.off)
  | .ldtg o => some (mkF 0x064 0 o.d.code (gcode o.a) 0 o.h o.off)
  | .sttg o => some (mkF 0x065 (0#5 ++ b1 o.z) 0 (gcode o.a) o.b.code o.h o.off)
  | .pref o => some (mkF 0x066 o.lvl.code 0 (gcode o.a) 0 o.h o.off)
  | .ldacq o => some (mkF 0x067 (o.scope.code ++ o.ty.code.extractLsb' 0 3) o.d.code (gcode o.a) 0 o.h o.off)
  | .strel o => some (mkF 0x068 (o.scope.code ++ o.ty.code.extractLsb' 0 3) 0 (gcode o.a) o.b.code o.h o.off)
  | .fence o => some (mkF 0x069 (o.scope.code ++ o.kind.code) 0 0 0 o.h 0)
  | .amsg o => some (mkF 0x070 0 0 (gcode o.a) o.b.code o.h (o.arg ++ o.narg ++ 0#32))
  | .pst o => some (encSt 0x071 o)
  | .jrd o => some (mkF 0x072 o.sel.code o.d.code o.a.code 0 o.h 0)
  | .jrdClr o => some (encDstSrc 0x072 3 o)
  | .mwait o => some (mkF 0x073 (0#5 ++ b1 o.all) o.d.code o.a.code 0 o.h 0)
  | .bankcfg o => some (mkF 0x080 o.mode.code 0 o.a.code o.b.code o.h 0)
  | .csrr o => some (mkF 0x081 0 o.d.code 0 0 o.h (0#31 ++ o.num))
  | .csrw o => some (mkF 0x082 0 0 o.a.code 0 o.h (0#31 ++ o.num))
  | .sysc o => some (mkF 0x083 0 0 o.a.code (gcode o.b) o.h (o.arg ++ o.narg ++ 0#32))
  | .eret o => some (mkF 0x084 (0#5 ++ b1 o.kern) 0 (gcode o.a) 0 o.h 0)
  | .brk o => some (encImm 0x085 o)
  | .wfe o => some (encDstSrc 0x086 0 o)
  | .halt o => some (encNone 0x087 o)
  | .tlbinvPage o => some (mkF 0x088 (0#2 ++ o.size.code ++ 0#2) 0 o.a.code 0 o.h 0)
  | .tlbinvAll o => some (encOneSrc 0x088 1 o)
  | .migr o => some (encDstSrc2 0x089 0 o)
  | .ckpt o => some (encNone 0x08A o)
  | .tspawn o => some (encDstCap 0x100 o)
  | .tsig o => some (mkF 0x101 0 0 (gcode o.a) o.b.code o.h (0#11 ++ o.dec))
  | .launch o => some (encOneG 0x102 o)
  | .done o => some (encOneSrc 0x103 0 o)
  | .fget o => some (mkF 0x104 0 o.d.code 0 0 o.h (0#41 ++ o.k))
  | .fput o => some (mkF 0x105 0 0 0 o.b.code o.h (0#41 ++ o.k))
  | .tcontReady o => some (encDstCap 0x106 o)
  | .tcontEnd o => some (mkF 0x106 1 o.d.code (gcode o.a) o.b.code o.h 0)
  | .trec o => some (mkF 0x107 0 o.d.code (gcode o.a) o.b.code o.h (o.arg ++ o.narg ++ 0#32))
  | .amo o => some (mkF 0x140 o.ty.code o.d.code (gcode o.a) o.b.code o.h
      (o.ofs ++ o.cv.code ++ 0#7 ++ o.ord ++ o.scope.code ++ 0#3 ++ o.op.code))
  | .amor o => some (mkF 0x141 o.ty.code 0 (gcode o.a) o.b.code o.h
      (o.ofs ++ 0#8 ++ 0#7 ++ o.ord ++ o.scope.code ++ 0#3 ++ o.op.code))
  | .phnew o => some (mkF 0x142 0 o.d.code 0 0 o.h
      (0#36 ++ b1 o.ctr ++ b1 o.die.isSome ++ o.die.getD 0))
  | .phjoin o => some (mkF 0x143 0 o.d.code o.a.code 0 o.h (0#41 ++ o.role.code))
  | .phleave o => some (encOneSrc 0x144 0 o)
  | .phrole o => some (mkF 0x145 0 0 o.a.code 0 o.h (0#41 ++ o.role.code))
  | .phsig o => some (encDstSrc2 0x146 0 o)
  | .phwait o => some (encDstSrc2 0x147 0 o)
  | .ctrread o => some (mkF 0x148 0 o.d.code o.a.code 0 o.h (0#40 ++ o.idx))
  | .tcregAdd o => some (encDstCap 0x180 o)
  | .tcregDel o => some (encDstId 1 o)
  | .tcregStat o => some (encDstId 2 o)
  | .tclookRd o => some (encTclook 0 o)
  | .tclookWr o => some (encTclook 1 o)
  | .tcpf o => some (mkF 0x182 0 0 0 o.b.code o.h (0#11 ++ o.stride ++ o.mask ++ o.id))
  | .tchalo o => some (mkF 0x183 (0#5 ++ b1 o.edge) 0 (gcode o.a) o.b.code o.h (0#23 ++ o.w ++ o.id))
  | .tcinv o => some (encTcinv 0 o)
  | .tcinvDrop o => some (encTcinv 1 o)
  | .tcinvAll o => some (encTcinv 2 o)
  | .sgath o => some (mkF 0x1A0 (0b00011#5 ++ b1 o.n64) (gcode o.d) (gcode o.a) (gcode o.b) o.h
      (o.count ++ o.roww ++ 0#18))
  | .sred o => some (mkF 0x1A1 o.ty.code (gcode o.d) (gcode o.a) 0 o.h (o.count ++ 0#16 ++ o.op.code))
  | .sconv o => some (mkF 0x1A2 0 (gcode o.d) (gcode o.a) (gcode o.b) o.h (o.sf ++ o.df ++ o.rm ++ o.count ++ 0#4))
  | .copy o => some (mkF 0x1C0 o.dims.code (gcode o.d) (gcode o.a) (gcode o.b) o.h (0#41 ++ o.ch))
  | .copyr o => some (mkF 0x1C1 o.dims.code (gcode o.d) (gcode o.a) (gcode o.b) o.h (0#28 ++ o.flag ++ o.die ++ o.ch))
  | .wprd o => some (mkF 0x1C2 0 o.d.code 0 0 o.h (0#41 ++ o.ch))
  | .tlwait o => some (mkF 0x1C3 (0#3 ++ o.scope.code) o.d.code 0 o.b.code o.h (o.n ++ 0#5 ++ o.tl))
  | .tlrd o => some (mkF 0x1C4 (0#5 ++ b1 o.iss) o.d.code 0 0 o.h (0#40 ++ o.tl))
  | .vadd o => some (encV2 0x200 o)
  | .vsub o => some (encV2 0x201 o)
  | .vmul o => some (encV2 0x202 o)
  | .vfma o => some (mkF 0x203 (vvar o.sat o.ty) (vcode o.d) (vcode o.a) (vcode o.b) o.h (vcode o.c ++ 0#35))
  | .vmin o => some (encV2 0x204 o)
  | .vmax o => some (encV2 0x205 o)
  | .vabs o => some (encV1 0x206 o)
  | .vneg o => some (encV1 0x207 o)
  | .vrcp o => some (encV1 0x208 o)
  | .vrsq o => some (encV1 0x209 o)
  | .vexp2 o => some (encV1 0x20A o)
  | .vlog2 o => some (encV1 0x20B o)
  | .vcvt o => some (mkF 0x20C (o.src.code ++ o.dst.code) (vcode o.d) (vcode o.a) o.b.code o.h 0)
  | .vcmp o => some (mkF 0x20D (o.cond.code ++ o.ty.code.extractLsb' 0 4) o.d.code (vcode o.a) (vcode o.b) o.h 0)
  | .vsel o => some (mkF 0x20E 0 (vcode o.d) (vcode o.a) (vcode o.b) o.h (o.c.code ++ 0#35))
  | .vand o => some (encVLogic 0x20F o)
  | .vor o => some (encVLogic 0x210 o)
  | .vxor o => some (encVLogic 0x211 o)
  | .vshl o => some (encV2 0x212 o)
  | .vshr o => some (encV2 0x213 o)
  | .vredadd o => some (encVred 0x214 o)
  | .vredmax o => some (encVred 0x215 o)
  | .vscan o => some (encV1 0x216 o)
  | .vperm o => some (encV2 0x217 o)
  | .vbcast o => some (mkF 0x218 (vvar false o.ty) (vcode o.d) o.a.code 0 o.h 0)
  | .vclass o => some (encV1 0x219 o)
  | .vld o => some (mkF 0x220 0 (vcode o.d) (gcode o.a) 0 o.h o.off)
  | .vst o => some (mkF 0x221 0 0 (gcode o.a) (vcode o.b) o.h o.off)
  | .vlds o => some (mkF 0x222 0 (vcode o.d) (gcode o.a) o.b.code o.h (0#8 ++ o.off))
  | .vgath o => some (mkF 0x223 (0#4 ++ o.sc) (vcode o.d) (gcode o.a) (vcode o.b) o.h (0#8 ++ o.off))
  | .vscat o => some (mkF 0x224 (0#4 ++ o.sc) 0 (gcode o.a) (vcode o.b) o.h (vcode o.c ++ o.off))
  | .vmovgGet o => some (mkF 0x225 (vvar false o.ty) o.d.code (vcode o.a) o.b.code o.h (0#8 ++ o.imm))
  | .vmovgPut o => some (mkF 0x225 (vvar true o.ty) (vcode o.d) o.a.code o.b.code o.h (0#8 ++ o.imm))
  | .mclaim o => some (mkF 0x300 0 o.d.code (gcode o.a) 0 o.h (o.accm ++ 0#3 ++ o.slotm))
  | .mrel o => some (mkF 0x301 0 0 0 0 o.h (o.accm ++ 0#3 ++ o.slotm))
  | .mld o => some (mkF 0x302 (0#3 ++ b1 o.sw ++ o.mode.code) 0 (gcode o.a) o.b.code o.h
      (0#32 ++ o.zrows ++ b1 o.span2 ++ o.slot))
  | .mma o => some (mkF 0x303 o.ty.code 0 0 o.b.code o.h
      (0#17 ++ o.diag ++ b1 o.m ++ b1 o.f ++ b1 o.ip ++ b1 o.z ++ o.accc ++ o.accd ++ o.sb ++ o.sa))
  | .mtern o => some (mkF 0x304 (0#3 ++ b1 o.n8 ++ 0#2) 0 0 0 o.h
      (0#17 ++ o.diag ++ b1 o.m ++ 0#1 ++ b1 o.ip ++ b1 o.z ++ o.accc ++ o.accd ++ o.sb ++ o.sa))
  | .accz o => some (mkF 0x305 0 0 0 0 o.h (0#35 ++ o.accm))
  | .accld o => some (mkF 0x306 0 0 (gcode o.a) o.b.code o.h (0#40 ++ o.acc))
  | .accst o => some (mkF 0x307 (b1 o.si ++ o.ty.code) 0 (gcode o.a) o.b.code o.h (0#37 ++ o.rm ++ o.acc))
  | .accmov o => some (mkF 0x308 (b1 o.si ++ b1 o.t ++ o.ty.code.extractLsb' 0 4) 0 0 0 o.h
      (0#31 ++ b1 o.ofs ++ o.slot ++ o.rm ++ o.acc))
  | .msave o => some (encOneG 0x309 o)
  | .mrestore o => some (encDstCap 0x30A o)
  | .bcent o => some (mkF 0x380 (0#5 ++ b1 o.nolate) o.d.code 0 o.b.code o.h (0#31 ++ o.cid))
  | .bclisten o => some (mkF 0x381 0 o.d.code 0 0 o.h (0#31 ++ o.cid))
  | .bcbindBind o => some (mkF 0x382 0 o.d.code 0 0 o.h (0#26 ++ b1 o.rot ++ o.cid ++ o.lane))
  | .bcbindUnbind o => some (encLane 1 o)
  | .bcbindStat o => some (encLane 2 o)
  | .bcbindAssign o => some (mkF 0x382 3 o.d.code 0 0 o.h (0#11 ++ o.part ++ 0#20 ++ o.lane))
  | .foffer o => some (encDstSrc 0x3A0 0 o)
  | .fofferGrant o => some (encDstSrc2 0x3A0 1 o)
  | .fofferReclaim o => some (encDstSrc 0x3A0 2 o)
  | .faccept o => some (encDstSrc 0x3A1 0 o)
  | .fwithdraw o => some (encDstSrc 0x3A2 0 o)
  | .flend o => some (encDstSrc2 0x3A3 0 o)
  | .frecall o => some (encDstSrc 0x3A4 0 o)
  | .fret o => some (encDstSrc 0x3A5 0 o)
  | .fqueryState o => some (encDstSrc 0x3A6 0 o)
  | .fqueryDl o => some (encDstSrc 0x3A6 1 o)
  | .fqueryStrk o => some (mkF 0x3A6 2 o.d.code 0 0 o.h 0)
  | _ => none

/-- The word of an instruction (R36); an event encodes as zero. -/
def encode (i : Instr) : IWord :=
  match i.fields with
  | some f => f.pack
  | none => 0

/-- The core kind a word is decoded for: matrix instructions decode on compute cores only (R19), instructions
of kernel level on service and host cores only (R59). -/
def Instr.kindFor (i : Instr) : CoreKind :=
  match i.fields with
  | some f => if kindOk .compute f.opc then .compute else .service
  | none => .compute

end Sys2Proof
end

