-- ==== Sys2Proof/Machine/Sparse.lean ====
section
/-! DEFINITION. Finite maps with rising keys, sets of numbers, and the canonical memory. -/

namespace Sys2Proof

/-- The value at a key; `d` where the map lists none. -/
def Sparse.get (d : α) : Sparse α → Nat → α
  | [], _ => d
  | (a, x) :: r, k => if a = k then x else Sparse.get d r k

/-- Sets the value at a key, keeping the keys rising. -/
def Sparse.set : Sparse α → Nat → α → Sparse α
  | [], k, v => [(k, v)]
  | (a, x) :: r, k, v =>
    if a = k then (k, v) :: r
    else if k < a then (k, v) :: (a, x) :: r
    else (a, x) :: Sparse.set r k v

/-- Removes a key. -/
def Sparse.drop (m : Sparse α) (k : Nat) : Sparse α := m.filter fun e => e.1 != k

namespace Machine

/-- The byte memory holds at an address; one not listed reads 0. -/
def Memory.read (m : List Host.Cell) (a : Nat) : Byte := Sparse.get 0 m a

/-- Writes one byte, keeping the canonical form. -/
def Memory.write (m : List Host.Cell) (a : Nat) (b : Byte) : List Host.Cell :=
  if b = 0 then Sparse.drop m a else Sparse.set m a b

/-- Writes cells in order. -/
def Memory.writeAll (m : List Host.Cell) (ws : List Host.Cell) : List Host.Cell :=
  ws.foldl (fun m c => Memory.write m c.1 c.2) m

/-- The canonical form: addresses strictly rising and no byte equal to 0. -/
def Memory.wf : List Host.Cell → Bool
  | [] => true
  | [c] => c.2 != 0
  | c :: d :: r => c.2 != 0 && decide (c.1 < d.1) && Memory.wf (d :: r)

/-- Puts a number into a rising list. -/
def insertNat : List Nat → Nat → List Nat
  | [], k => [k]
  | a :: r, k => if a = k then a :: r else if k < a then k :: a :: r else a :: insertNat r k

end Machine
end Sys2Proof
end

