-- ==== Sys2Proof/Machine/State.lean ====
section
/-! DEFINITION. The state of the package: everything the spec gives the machine, as plain data, and the state
right after module reset. Each field's docstring names the rule that gives it. A field the spec does not name
is marked MODEL. Keys: a context is `die*4096 + core*8 + context`, a core `die*512 + core`, a cluster
`die*64 + cluster` with the clusters of R99 (16 compute clusters, then one for each service core; on a host die
one for each host core), dies by physical number (R15). -/

namespace Sys2Proof.Machine

/-- Privilege levels (R150). -/
inductive Level where
  | task | kernel | custodian
deriving DecidableEq, Repr

/-- Rounding modes 0 to 4 (R132). -/
inductive RoundMode where
  | rne | rtz | rup | rdn | rna
deriving DecidableEq, Repr

/-- A general register: 128 bits and the capability tag (R153). -/
structure Reg where
  bits : BitVec 128 := 0
  tag : Bool := false
deriving DecidableEq, Repr

/-- A bank of trap registers (R151, R231). -/
structure TrapRegs where
  cause : BitVec 8 := 0
  val : Word := 0
  pc : Word := 0
  aux : Word := 0
deriving DecidableEq, Repr

/-- A word in a mailbox, queue, port or in flight, with its sender and its two times (R48, R472). -/
structure MsgWord where
  w : Word
  sender : BitVec 21 := 0
  t0 : Nat := 0
  t1 : Nat := 0
deriving DecidableEq, Repr

/-- A trap: cause, TRAPVAL, TRAPAUX (R13, R227). -/
structure Trap where
  cause : BitVec 8
  val : Word := 0
  aux : Word := 0
deriving DecidableEq, Repr

/-- A reply from an engine: a result or a trap (R298, R421, R437). -/
inductive Reply where
  | ok (w : Word)
  | trap (t : Trap)
deriving DecidableEq, Repr

/-- Whose access it is: partition, virtual function and its generation, world (R429), and whether at
custodian level. -/
structure Ident where
  custodian : Bool := false
  part : BitVec 8 := 0xFF
  vf : BitVec 4 := 0
  gen : BitVec 16 := 0
  world : Bool := true
deriving DecidableEq, Repr

/-- One contiguous access of `n` bytes at virtual `ea` and physical `pa` (R200); `lane` for vector accesses. -/
structure Acc where
  ea : Word
  pa : Nat
  n : Nat
  lane : Nat := 0
  /-- MT = 2 (R278). -/
  volatile : Bool := false
  /-- MT = 1 (R278). -/
  uncached : Bool := false
  /-- The store-queue entries that its lock check read (R158). -/
  sib : List Nat := []
deriving DecidableEq, Repr

/-- Translations captured before Issue: pairs of 4 KiB virtual and physical page numbers (R277, R321, R342). -/
abbrev Xlat := List (Nat × Nat)

/-- Where a load's bytes go when it performs (R103, R112). -/
inductive LoadDst where
  | scalar (d : BitVec 6) (ty : IntTy)
  | cap (d : BitVec 6) (keep : Bool)
  | lock (d : BitVec 6)
  | vec (d : BitVec 5)
  | slots (slot : Nat) (span2 : Bool) (scale : Bool) (map : List (Nat × Nat))
  | acc (a : BitVec 3)
  /-- MRESTORE: the items of an image, and a reply for its instruction (R402). -/
  | image
  /-- Its context waits for the bytes, or for the lock, and writes a queue, a port or a remote mailbox with them (R165). -/
  | reply (lock : Bool)
  /-- MODEL: of no entry; a place in the order for a read that an engine answers (R309). -/
  | now
deriving DecidableEq, Repr

/-- The shape of a copy (R339). -/
structure CopyShape where
  l : Nat
  r : Nat := 1
  p : Nat := 1
  srs : Int := 0
  drs : Nat := 0
  sps : Int := 0
  dps : Nat := 0
deriving DecidableEq, Repr

/-- The part of a COPYR beyond a copy (R344). -/
structure CopyRemote where
  die : Nat
  flag : Option Nat := none
  flagKey : BitVec 4 := 0
  v : Word := 0
deriving DecidableEq, Repr

/-- A queued engine command with what it captured (R112 to R117). -/
inductive EngOp where
  /-- VST, VSCAT: the enabled lanes' accesses and data (R375). -/
  | vst (lanes : List (Acc × BitVec 32))
  /-- ACCST, MSAVE: 16-byte words with their index and physical address, and the KEY checked at delivery (R397,
  R401). -/
  | words (ws : List (Nat × Nat × BitVec 128)) (key : BitVec 4)
  /-- COPY, COPYR (R340, R344). -/
  | copy (sh : CopyShape) (d a : Word) (dkey akey : BitVec 4) (xl : Xlat) (ch : Nat) (rem : Option CopyRemote)
  /-- TCLOOK (R327). -/
  | tclook (wr : Bool) (id : BitVec 16) (coord : List Nat) (a : Word) (xl : Xlat)
  /-- TCPF: the tiles to fill (R328). -/
  | tcpf (id : BitVec 16) (tiles : List (List Nat))
  /-- TCHALO (R329). -/
  | tchalo (edge : Bool) (id : BitVec 16) (coord : List Nat) (h : Nat) (a : Word) (xl : Xlat)
  /-- TCINV: 0 write back and discard, 1 drop, 2 all (R330). -/
  | tcinv (variant : Nat) (id : BitVec 16)
  /-- SGATH: bounds of the source capability beside the addresses, and whether it was issued above task level (R332). -/
  | sgath (n64 : Bool) (count roww : Nat) (d a b : Word) (abase atop : Nat) (xl : Xlat) (kern : Bool)
  /-- SRED (R333). -/
  | sred (ty : SredTy) (op : SredOp) (count : Nat) (d a : Word) (xl : Xlat)
  /-- SCONV (R334). -/
  | sconv (sf df : Nat) (rm : RoundMode) (count : Nat) (d a b : Word) (xl : Xlat)
  /-- LAUNCH: the descriptor's address and translations, and whether it was issued above task level (R255). -/
  | launch (a : Word) (xl : Xlat) (kern : Bool)
deriving DecidableEq, Repr

/-- An atomic request (R294, R298). -/
structure AtomReq where
  c : Nat
  seq : BitVec 16 := 0
  ident : Ident
  ty : AmoTy
  op : AmoOp
  ea : Word
  pa : Nat
  b : Word
  cv : Word
  dst : Option Dst
  engine : Nat
  sent : Nat := 0
  /-- It has been performed at its home (R108). -/
  performed : Bool := false
  /-- Its number in the order buffer, whether it is an acquire, and the scope it releases at (R101, R299). -/
  lid : Nat := 0
  acq : Bool := false
  rel : Option Scope := none
  /-- Whose timelines its context uses: the task that a refusal's trap reaches. -/
  owner : Nat := 0
deriving DecidableEq, Repr

/-- A task signal (R249, R264). -/
structure SigReq where
  c : Nat
  seq : BitVec 16 := 0
  ident : Ident
  ea : Word
  pa : Nat
  amount : BitVec 32
  die : Nat
  sent : Nat := 0
  owner : Nat := 0
deriving DecidableEq, Repr

/-- What a LOB entry is (R97, R100). -/
inductive LobOp where
  | load (acc : List Acc) (dst : LoadDst)
  /-- A store: its accesses with their data, the capability tag STC writes, and the lock STTG writes. -/
  | store (data : List (Acc × List Byte)) (tag : Option Bool) (lock : Option (BitVec 4)) (task : Word)
  | fence (kind : FenceKind) (scope : Scope)
  /-- A posted store in journal entry `j` of the core (R210). -/
  | post (j : Nat)
  | atomic (r : AtomReq)
  | signal (r : SigReq)
  | cmd (op : EngOp) (tl : Nat)
  /-- A performed load that read a store-queue entry not yet drained (R108). -/
  | readSibling (cl id : Nat)
  /-- A performed load whose line's tag is not yet checked (R453). -/
  | unverified (pa : Nat)
deriving DecidableEq, Repr

/-- An entry of a local order buffer (R97). A load-acquire is a load and then an acquire fence, a store-release
a release fence and then a store (R109). -/
structure LobEntry where
  id : Nat
  op : LobOp
  ident : Ident := {}
  /-- The general register whose value a store still waits for (R100, R102). -/
  wait : Option (BitVec 6) := none
deriving DecidableEq, Repr

/-- A store in a cluster store queue (R97, R105). -/
structure CsqEntry where
  id : Nat
  c : Nat
  /-- Its number in the order buffer it left. -/
  lid : Nat := 0
  ident : Ident
  data : List (Acc × List Byte)
  tag : Option Bool := none
  lock : Option (BitVec 4) := none
  task : Word := 0
deriving DecidableEq, Repr

/-- A queued vector instruction: what it will write when the engine finishes it (R353). -/
structure VecPending where
  vec : List (BitVec 5 × BitVec 2048) := []
  pred : List (BitVec 4 × Word) := []
  gen : List (BitVec 6 × Word) := []
  flags : BitVec 6 := 0
  /-- The order buffer's number at its issue: vector loads with lower ones are older (R353). -/
  lid : Nat := 0
deriving DecidableEq, Repr

/-- A PHSIG or PHWAIT held under its "while": its token, which of the two it is, its flags or its phase, and the
values of EVC0 to EVC3 that a PHSIG left the LOB with (R305). -/
structure PhHold where
  token : Word
  sig : Bool
  arg : Word
  evc : List Nat := []
deriving DecidableEq, Repr

/-- What a blocked context waits for (R45, R253). MODEL: the spec's blocking conditions by name. -/
inductive Wait where
  /-- On queues, ports and mailboxes: the sources and the destination of the instruction (R45). -/
  | operands (srcs : List Src) (dst : Option Dst)
  | mwait
  | wfe (deadline : Option Nat)
  | mailboxAck
  | amsgAccept
  | amoReply
  /-- For the bytes of its own load, which has entered the order buffer and whose word goes to `d`; `vol`: through a
  volatile page (R165, R474). -/
  | load (vol : Bool) (d : Dst)
  | custody
  | beacon
  | listen
  | bcbind
  /-- The phase count of a phaser of a die to reach, and what is held there (R303, R305, R306). -/
  | phaser (d i n : Nat) (h : PhHold)
  | timeline (tl n : Nat)
  | journal
  | channel
  | walk
  | release
  | engine
  | service
  /-- BANKCFG of cluster `cl`: the banks of a mask, the mode they wait for, and the number of the first message sent
  after its wait began (R218, R273). -/
  | banks (cl m : Nat) (mode : BankMode) (first : Nat)
  | invalidate
  /-- MIGR of the task with a GTI (R224). -/
  | migrate (gti : Word)
  | fetch
deriving DecidableEq, Repr

/-- Whether and why a context issues or not (R45, R223, R230, R232). -/
inductive RunState where
  | free
  | running
  | blocked (w : Wait) (since : Nat)
  /-- Stopped by HALT (R223). -/
  | halted
  /-- Switching out for a reason, until the machine can write its state (R232). -/
  | leaving (reason : Nat)
  /-- Stopped by a trap at custodian level (R230). -/
  | stopped
  /-- Switched out for a trap, its state in a save area, until its request has room in the service queue (R234). -/
  | saved (area idx : Nat)
deriving DecidableEq, Repr

/-- A task as the scheduler knows it (R244 to R253). -/
structure Task where
  gti : Word := 0
  ident : Ident := {}
  kind : CoreKind := .compute
  prio : Nat := 0
  lock : Bool := false
  /-- Home core, if any (R247). -/
  home : Option Nat := none
  /-- The core a parked task is pinned to (R253). -/
  pinned : Option Nat := none
  /-- Job and rank of its Buoy member (R256). -/
  member : Option (Nat × Nat) := none
  /-- The actor it is a firing of (R257). -/
  actor : Option Nat := none
  handler : Bool := false
  entry : Word := 0
  args : List Reg := []
  cont : Word := 0
  /-- The record it was created from (R474). -/
  record : List Byte := []
  /-- Save area it resumes from: physical address, die and index in the pool (R235, R237). -/
  save : Option (Nat × Nat × Nat) := none
  passes : Nat := 0
  promoted : Bool := false
  /-- What a parked task waits for (R253). -/
  wait : Option Wait := none
  /-- Bits of the event latch that set while it was parked (R222, R253). -/
  woken : BitVec 5 := 0
  /-- The core it last ran on. -/
  waitCore : Nat := 0
  meshHome : Option Nat := none
  /-- Instructions retired (R474). -/
  ord : Nat := 0
  /-- The breakpoint its first instruction is exempt from (R467). -/
  exempt : Option Nat := none
  /-- DONE has been executed (R264). -/
  doneSent : Bool := false
  /-- Destination core of a migration and the context of its MIGR (R239). -/
  target : Option (Nat × Nat) := none
  /-- Sender word, send time and acceptance time of the message a handler runs for (R472). -/
  msg : Option (BitVec 21 × Nat × Nat) := none
  msgStart : Nat := 0
  /-- Replay capture entry in force and its position's entry number (R473). -/
  replay : Option Nat := none
  lastStop : Option Nat := none
  /-- Asynchronous traps that reached it while it held no context, lowest first (R227, R236). -/
  pend : List Trap := []
  /-- The lowest trap pending at its switch-out, whose cause its save area holds (R235). -/
  low : Option Trap := none
  /-- Flags that its outstanding write raises when it retires (R49, R135). -/
  oflags : BitVec 6 := 0
deriving DecidableEq, Repr

/-- A page-table walk a context waits for (R279, R281): the address, the access kind of R280. -/
structure WalkReq where
  va : Word
  kind : Nat
deriving DecidableEq, Repr

/-- A branch whose sources are not yet known, and the loads issued past it (R102): the instruction and its address,
the number its younger entries start at, the way taken, and the registers that those loads will write, as they
were. -/
structure Spec where
  brc : BrcOps
  pc : Word
  id : Nat
  taken : Bool
  olds : List (BitVec 6 × Reg) := []
deriving DecidableEq, Repr

/-- A hardware context (R149, R151). -/
structure Context where
  run : RunState := .free
  pc : Word := 0
  level : Level := .task
  /-- g0 to g63 with their tags (R149). -/
  g : Sparse Reg := []
  /-- v0 to v31 (R149). -/
  v : Sparse (BitVec 2048) := []
  /-- p0 to p15 (R149). -/
  p : Sparse Word := []
  /-- FLAGS (R134, R152). -/
  flags : BitVec 6 := 0
  /-- ROUND (R152). -/
  round : RoundMode := .rne
  /-- CTXSTATUS.ORPHAN (R152). -/
  orphan : Bool := false
  /-- CTXSTATUS.PAIRED (R152, R160). -/
  paired : Bool := false
  /-- The kernel bank of the trap registers (R231). -/
  ktrap : TrapRegs := {}
  /-- The custodian bank of the trap registers (R231). -/
  ctrap : TrapRegs := {}
  /-- The event latch (R222). -/
  latch : BitVec 5 := 0
  /-- MBXMASK (R239). -/
  mbxmask : BitVec 32 := 0
  /-- PMASK (R407). -/
  pmask : BitVec 4 := 0
  /-- Physical address of the matrix image; 0 if none (R386). -/
  mimage : Nat := 0
  /-- The task it runs (R149); none for the contexts of R482. -/
  task : Option Task := none
  /-- Partition, virtual function, generation and world of its accesses (R277, R429). -/
  ident : Ident := {}
  /-- Local order buffer, oldest first (R97). -/
  lob : List LobEntry := []
  /-- MODEL: number of the next LOB entry. -/
  nextId : Nat := 0
  /-- Vector command queue, oldest first (R353). -/
  vq : List VecPending := []
  /-- Sequence number of the last atomic request (R294). -/
  seq : BitVec 16 := 0
  /-- Unanswered atomic requests and task signals, oldest first (R294). -/
  atoms : List (Sum AtomReq SigReq) := []
  /-- Asynchronous traps pending (R227, R229). -/
  pend : List Trap := []
  /-- Traps that were pending when another was taken in place at the level named: each is pending again once the
  handler returns (R229). -/
  later : List (Level × Trap) := []
  /-- Write outstanding at a switch-out: 0 none, 1 mailbox, 2 AMSG; and its acknowledgement (R233). -/
  outst : Nat := 0
  acked : Bool := false
  /-- Flags that its blocked instruction raises when it retires (R135, R298). -/
  oflags : BitVec 6 := 0
  /-- Reply a blocked instruction waits for, when it has come (R49, R298, R421, R437). -/
  reply : Option Reply := none
  /-- Request to stop pending: REASON of R235 (R238). -/
  request : Option Nat := none
  /-- The walk the context waits for (R281). -/
  walk : Option WalkReq := none
  /-- MODEL: its blocking command has left the core. -/
  sent : Bool := false
  /-- The source words its waiting instruction has taken, in order; they are put back if it is abandoned (R45, R47). -/
  held : Option (List (Src × MsgWord)) := none
  /-- An MMA or MTERN of it is held at issue for a slot or accumulator being loaded (R391, R404). -/
  mheld : Bool := false
  /-- The unresolved branch it has issued loads past (R102). -/
  spec : Option Spec := none
  /-- Time its service request is charged from, and the virtual function charged (R267). -/
  served : Option (Nat × Nat × Nat) := none
  /-- The notice or trap it handles names no task (R482). -/
  service : Bool := false
  /-- MODEL: how often it has been freed, so that each start without a task has timelines of its own (R482). -/
  set : Nat := 0
deriving DecidableEq, Repr


/-- Destination register of a word in flight (R46, R49). -/
inductive WordReg where
  | mbx (m : Nat)
  | port (n : Nat)
deriving DecidableEq, Repr

/-- An entry of the posted-store journal (R210, R213). -/
structure JEntry where
  state : Nat := 0
  c : Nat := 0
  ident : Ident := {}
  acc : Acc := { ea := 0, pa := 0, n := 1 }
  value : Word := 0
  reason : BitVec 4 := 0
  /-- Its number in the order buffer of its context. -/
  lid : Nat := 0
deriving DecidableEq, Repr

/-- A forwarding entry (R239, R240, R408). -/
structure Fwd where
  gti : Word
  target : Nat
  mask : BitVec 32
  pmask : BitVec 4 := 0
deriving DecidableEq, Repr

/-- A spill-ring entry (R407). -/
structure Spill where
  gti : Word
  reg : WordReg
  w : MsgWord
deriving DecidableEq, Repr

/-- State of an operand slot (R380). -/
inductive SlotState where
  | ready
  | loading
  | faulted (reason : BitVec 4) (pa : Nat)
deriving DecidableEq, Repr

/-- An operand slot with its scale area (R379). -/
structure Slot where
  owner : Option Nat := none
  bytes : BitVec 16384 := 0
  scale : BitVec 1024 := 0
  state : SlotState := .ready
deriving DecidableEq, Repr

/-- An accumulator (R379). -/
structure Accum where
  owner : Option Nat := none
  bytes : BitVec 32768 := 0
deriving DecidableEq, Repr

/-- A matrix instruction the engine has accepted: its context, the flags it raises when it completes, and whether it is a
product, which is counted then (R152, R383, R393). -/
structure MatrixPending where
  c : Nat
  flags : BitVec 6 := 0
  product : Bool := false
deriving DecidableEq, Repr

/-- The matrix engine of a core (R379, R383). -/
structure Matrix where
  slots : Sparse Slot := []
  accs : Sparse Accum := []
  /-- Instructions the engine has accepted, oldest first (R383). -/
  queue : List MatrixPending := []
deriving DecidableEq, Repr

/-- A capture or replay entry, REPG, REPB, REPX (R473). -/
structure Replay where
  gti : Word := 0
  en : Bool := false
  mode : Bool := false
  state : BitVec 2 := 0
  ovf : Bool := false
  base : Nat := 0
  size : Nat := 0
  pos : Nat := 0
  vf : BitVec 4 := 0
deriving DecidableEq, Repr

/-- A context's registers as a checkpoint copies them (R161). -/
structure RegCopy where
  c : Nat
  g : Sparse Reg
  v : Sparse (BitVec 2048)
  p : Sparse Word
  pc : Word
  flags : BitVec 6
  round : RoundMode
  ktrap : TrapRegs := {}
  ctrap : TrapRegs := {}
  latch : BitVec 5 := 0
  task : Option Task := none
  /-- Its replay entry, and that entry's state (R473). -/
  rep : Option (Nat × Replay) := none
  /-- Entries of its order buffer numbered below this may leave the core (R161). -/
  next : Nat
deriving DecidableEq, Repr

/-- A mesh-port word in the gated store buffer: the core and port it goes to, and who sends it (R161). -/
structure GatedWord where
  core : Nat
  reg : WordReg
  w : MsgWord
  c : Nat
  gti : Word
  ident : Ident
deriving DecidableEq, Repr

/-- A Bridle pair's checkpoint and replay log (R161, R241). The gated store buffer is the part of the pair's
order buffers numbered from each copy's `next` on, and the port words it has sent since. -/
structure Bridle where
  gated : List GatedWord := []
  /-- The core's queues at the checkpoint: what the interval writes to them is discarded with it (R241). -/
  queues : Sparse (List Word) := []
  /-- Copies of the contexts' registers at the last checkpoint. -/
  ckpt : List RegCopy := []
  /-- The replay log, and how much of it re-execution has taken (R241). -/
  log : List Word := []
  taken : Nat := 0
  /-- A checkpoint interval has ended: one is taken before the next instruction (R161). -/
  due : Bool := false
  /-- Failures since the last checkpoint (R242). -/
  fails : Nat := 0
  /-- Former matrix contents since the checkpoint (R409). -/
  matrix : Option Matrix := none
deriving DecidableEq, Repr

/-- A core (R45 to R49, R151, R210, R240, R336, R407). -/
structure Core where
  /-- q0 to q7 (R46). -/
  queues : Sparse (List Word) := []
  /-- Receive buffers of n0 to n3 (R46). -/
  ports : Sparse (List Word) := []
  /-- m0 to m31; none: the presence bit is clear (R48). -/
  mbox : Sparse (Option MsgWord) := []
  journal : Sparse JEntry := []
  /-- EVC0 to EVC3 (R152). -/
  evc : Sparse Nat := []
  /-- EVSEL (R152). -/
  evsel : Word := 0
  /-- BRCKPT.OFFS (R161). -/
  brckpt : Word := 0
  /-- BRSTAT: ROLLS, SINCE, MISM (R162). -/
  rolls : Nat := 0
  since : Nat := 0
  mism : Bool := false
  /-- Copy channels: command numbers, oldest first (R336). -/
  channels : Sparse (List Nat) := []
  matrix : Matrix := {}
  spill : List Spill := []
  fwd : List Fwd := []
  /-- Tasks switched out from this core that keep its mailboxes or ports, in the order they switched out: GTI, mask,
  port mask (R239, R407, R483). -/
  claims : List (Word × BitVec 32 × BitVec 4) := []
  bridle : Option Bridle := none
deriving DecidableEq, Repr

/-- A cached translation (R281): world, page number at its size, and the leaf. -/
structure TlbEntry where
  ident : Ident
  vpn : Nat
  size : Nat
  pa : Nat
  r : Bool
  w : Bool
  x : Bool
  u : Bool
  dirty : Bool
  mt : Nat
deriving DecidableEq, Repr

/-- A cluster (R97, R99, R272, R281, R450). -/
structure Cluster where
  /-- Cluster store queue, oldest first (R97). -/
  csq : List CsqEntry := []
  /-- Modes of the 32 banks (R218). -/
  modes : Sparse BankMode := []
  /-- Committed elements of a bank in FIFO mode, oldest first (R257). -/
  fifo : Sparse (List Word) := []
  /-- Cached translations (R281). -/
  tlb : List TlbEntry := []
  /-- Job that set the bank modes (R255). -/
  job : Option Nat := none
  /-- The modes a live job's cluster holds for the Bridle's 96 KiB (R162). -/
  bridle : Bool := false
  /-- Contexts attached by a remote access, with their jobs (R450). -/
  attached : List (Nat × Option Nat) := []
  /-- Time it became orphaned (R450). -/
  orphan : Option Nat := none
deriving DecidableEq, Repr

/-- A member record of a phaser (R302). -/
structure PhMember where
  role : Role
  s : Nat
deriving DecidableEq, Repr

/-- A phaser (R302). -/
structure Phaser where
  part : BitVec 8
  vf : BitVec 4
  c : Nat := 0
  out : Nat := 0
  started : Bool := false
  mf : BitVec 32 := 0
  lf : BitVec 32 := 0
  members : Sparse (Option PhMember) := []
  ctr : Bool := false
  /-- Sums of the last complete phase and of the current one. -/
  sums : List Nat := [0, 0, 0, 0]
  cur : List Nat := [0, 0, 0, 0]
deriving DecidableEq, Repr

/-- A request in a service queue (R234, R259, R289, R438, R449). -/
inductive Service where
  | trap (task : Task) (area : Nat) (va : Nat) (t : Trap) (pc : Word)
  | sysc (s : Word) (b : Reg) (gti : Word) (core : Word) (args : List Reg)
  | notice (g3 g4 g5 g6 : Word)
deriving DecidableEq, Repr

/-- A pending continuation of a SYSC (R259). -/
structure PendCont where
  gti : Word
  record : Word
  member : Option (Nat × Nat)
  ident : Ident
deriving DecidableEq, Repr

/-- An active message in flight or queued (R215). -/
structure ActMsg where
  die : Nat
  c : Nat
  gti : Word
  entry : Word
  words : List Word
  sender : Word
  ident : Ident
  t0 : Nat := 0
  t1 : Nat := 0
deriving DecidableEq, Repr

/-- A host port (R459). -/
structure Port where
  en : Bool := false
  mode : BitVec 2 := 0
  part : BitVec 8 := 0xFF
  lstat : BitVec 8 := 0
deriving DecidableEq, Repr

/-- A CXL window with its DevLoad state (R460, R462). -/
structure CxlWin where
  a : Word := 0x00FF000000000000
  b : Word := 0
  limit : Nat := 0
  last : BitVec 2 := 0
  severe : BitVec 32 := 0
  /-- Stores accepted at the ordering point and not yet acknowledged by the device, oldest first: context and
  order-buffer number (R98, R461). -/
  unacked : List (Nat × Nat) := []
  /-- End of the period of a DevLoad action (R462). -/
  till : Option Nat := none
deriving DecidableEq, Repr

/-- An Ethernet session (R463). -/
structure Session where
  en : Bool := false
  state : BitVec 2 := 0
  port : BitVec 2 := 0
  part : BitVec 8 := 0xFF
  peer : BitVec 40 := 0
  since : Nat := 0
  /-- Highest frame counter accepted, and the counters accepted within 1024 of it. -/
  high : Nat := 0
  seen : List Nat := []
  sent : Nat := 0
  /-- MODEL: number of keys drawn for it. -/
  keys : Nat := 0
  /-- A new key is being made while frames keep flowing. -/
  rekey : Bool := false
deriving DecidableEq, Repr

/-- A running wide-area collective (R464, R465). -/
structure Collective where
  wire : Nat
  nmem : Nat
  self : Nat
  bound : Nat
  round : Word
  buf : Nat
  count : Nat
  result : Nat
  sessions : List Nat
  start : Nat
  sum : List (BitVec 32)
  /-- Members counted, and members dropped. -/
  mask : List Nat
  dropped : List Nat := []
  ident : Ident
deriving DecidableEq, Repr

/-- A save-area pool of a virtual function on a die (R237). -/
structure Pool where
  en : Bool := false
  base : Nat := 0
  n : Nat := 0
  va : Nat := 0
  used : List Nat := []
deriving DecidableEq, Repr

/-- An entry of a stopped-task table (R237). -/
structure Stopped where
  gti : Word
  ident : Ident
  area : Nat
  task : Task
  reason : Nat
  /-- A debug notice not yet accepted (R468). -/
  notice : Option (Nat × Nat × Word) := none
deriving DecidableEq, Repr

/-- A record waiting for the trace arbiter (R470). -/
structure TraceRec where
  time : Nat
  kind : Nat
  code : Nat
  core : Nat
  gti : Word
  value : Word
deriving DecidableEq, Repr

/-- A compute or host die (R237, R243, R249 to R267, R285, R290, R344, R459 to R465, R478). -/
structure Die where
  /-- Ready pool (R251), tasks in the order they became ready. -/
  ready : List Task := []
  /-- Pending table: counter's physical address and the waiting task (R249). -/
  pending : List (Nat × Task) := []
  /-- Parked tasks (R253). -/
  parked : List Task := []
  stopped : List Stopped := []
  /-- TAGSHADOW: the die's copy for each partition (R151, R159). -/
  tagshadow : Sparse Word := []
  /-- Service queues by virtual function and partition (R259). -/
  service : Sparse (List Service) := []
  conts : List PendCont := []
  /-- Handler queue (R215). -/
  handlers : List ActMsg := []
  /-- Die copy queue (R344). -/
  copyq : List Nat := []
  /-- Next serial number of a GTI, by partition (R248). -/
  serial : Sparse Nat := []
  /-- Save-area pools by partition and virtual function (R237). -/
  pools : Sparse Pool := []
  /-- KENTRY of each partition and virtual function (R243). -/
  kentry : Sparse Word := []
  /-- CENTRY (R243). -/
  centry : Word := 0
  /-- Service credit of each partition and virtual function, in 1/64 ns (R267). -/
  credit : Sparse Int := []
  /-- The virtual function of each partition that the Tender's round-robin stands at (R267). -/
  turn : Sparse Nat := []
  /-- TSIG underflows, SCHSTAT.UNDER (R250, R266). -/
  under : Nat := 0
  /-- Core maps: logical to physical compute cores, by partition and virtual function (R448). -/
  cmap : Sparse (List Nat) := []
  /-- Cores leaving a border when their contexts are free, alone or as a pair, with the virtual function they join
  (R268, R448). -/
  leaving : List (List Nat × Nat) := []
  /-- CLFLAGS0 to CLFLAGS15 (R136). -/
  clflags : Sparse (BitVec 6) := []
  /-- Phasers by object slot, and each slot's generation (R301, R302). -/
  phasers : Sparse (Option Phaser) := []
  phgen : Sparse (BitVec 15) := []
  /-- Reply caches by source: sequence numbers, replies and their flags, newest first (R295). -/
  replies : Sparse (List (BitVec 16 × Reply × BitVec 6)) := []
  /-- Traps waiting for the monitor pair (R288). -/
  monitor : List Trap := []
  /-- FABERR (R285). -/
  lost : BitVec 32 := 0
  retrain : Nat := 0
  last : BitVec 4 := 0
  /-- KMIRR0 and KMIRR1 (R287). -/
  kmirr0 : Word := 0
  kmirr1 : Word := 0
  /-- MSGTBASE (R473). -/
  msgt : Word := 0
  /-- World of the context that wrote it, for the checks of R432. -/
  msgtwho : Ident := {}
deriving DecidableEq, Repr

/-- The outside of a host die: ports, windows, sessions, collectives (R459 to R465). -/
structure HostIo where
  ports : Sparse Port := []
  wins : Sparse CxlWin := []
  sess : Sparse Session := []
  wac : Sparse (Option Collective) := []
deriving DecidableEq, Repr

/-- A tile entry (R317). MODEL: memory holds the bytes a dirty tile's writeback will write from the moment it is
dirty; `undo` is what they replaced, and `flags` what the writeback will raise. -/
structure Tile where
  part : BitVec 8
  id : BitVec 16
  k : Nat
  /-- Elements in row order, and the scales of a block format. -/
  bytes : List Byte
  /-- Storage bytes, and scale bytes: address and length. -/
  pa : Nat
  n : Nat
  spa : Nat := 0
  sn : Nat := 0
  dirty : Bool := false
  flags : BitVec 6 := 0
  undo : List (Nat × Byte) := []
deriving DecidableEq, Repr

/-- A tensor region (R311, R312). -/
structure Region where
  id : BitVec 16
  part : BitVec 8
  vf : BitVec 4
  world : Bool
  ndim : Nat
  layout : Nat
  sfmt : Nat
  cfmt : Nat
  rmode : RoundMode
  base : Nat
  dims : List Nat
  tile : List Nat
  scale : Nat
  status : BitVec 6 := 0
  detached : Bool := false
deriving DecidableEq, Repr

/-- A rights-reducing transaction under way at a record home (R436). -/
structure Revoke where
  frame : Nat
  losers : List (BitVec 8 × BitVec 4 × Bool)
  /-- Lines whose revoke point has passed. -/
  past : List Nat := []
  /-- The context that waits for word 0, or none for a revocation at a deadline. -/
  issuer : Option Nat := none
  word : Word := 0
  /-- How often its issuer's context had been freed, so that no later occupant takes the result (R449). -/
  set : Nat := 0
deriving DecidableEq, Repr

/-- A stack's base die (R269, R317, R427 to R436). -/
structure BaseDie where
  /-- CUSTBASE: EN and BASE (R428). -/
  custEn : Bool := false
  custBase : Nat := 0
  tiles : List Tile := []
  revokes : List Revoke := []
  /-- Redirected frames: old frame, replacement (R289). -/
  redirect : List (Nat × Nat) := []
deriving DecidableEq, Repr

/-- A frame hold (R287, R289). -/
structure Hold where
  tag : Nat
  frame : Nat
  line : Nat
  since : Nat
  kernel : Bool := false
  die : Nat := 0
  part : BitVec 8 := 0xFF
  vf : BitVec 4 := 0
  world : Bool := true
  /-- The context whose read found the error. -/
  c : Nat := 0
deriving DecidableEq, Repr

/-- Strikes and suspension of a world (R440). -/
structure Strikes where
  times : List Nat := []
  till : Option Nat := none
deriving DecidableEq, Repr

/-- A breakpoint, DBPA and DBPB, with the virtual function that wrote it (R467). -/
structure Breakpoint where
  gti : Word := 0
  b : Word := 0
  vf : BitVec 4 := 0
deriving DecidableEq, Repr

/-- A claim, DBCA and DBCB (R468). -/
structure Claim where
  gti : Word := 0
  b : Word := 0
  vf : BitVec 4 := 0
deriving DecidableEq, Repr

/-- Control of a virtual function: TNDVF, the completed tasks of the current and last window, roots, strikes (R266,
R277, R440). -/
structure VfState where
  tnd : Word := 0
  gen : BitVec 16 := 0
  doneCur : Nat := 0
  doneLast : Nat := 0
  /-- TROOT of world 0 and world 1 (R277). -/
  root0 : Word := 0
  root1 : Word := 0
  strikes0 : Strikes := {}
  strikes1 : Strikes := {}
deriving DecidableEq, Repr

/-- A hard partition (R20, R21, R266, R277, R311, R444 to R457, R466 to R475). -/
structure Partition where
  /-- Logical die table: 32 words (R20). -/
  ldt : Sparse (BitVec 32) := []
  /-- LDTLOCK (R21). -/
  ldtlock : Bool := false
  /-- PCTL (R445). -/
  en : Bool := false
  prot : Bool := false
  joint : Bool := false
  frozen : Bool := false
  ready : Bool := false
  mcl : Bool := false
  shd : Bool := false
  shm : Bool := false
  kslot : BitVec 7 := 0
  /-- KPUB (R452). -/
  kpub : Word := 0
  /-- The scrambler key, the slot key and the key pair: which draw of the random source each is (R446). -/
  scrambler : Option Nat := none
  slotKey : Option Nat := none
  kem : Option Nat := none
  /-- Shares received: the ciphertexts' shared secrets (R452). -/
  shareM : Option (BitVec 256) := none
  shareD : Option (BitVec 256) := none
  /-- Confirmation values kept after the shares are erased (R457). -/
  confM : BitVec 256 := 0
  confD : BitVec 256 := 0
  jointKey : Option (BitVec 256) := none
  /-- The running measurement: bytes absorbed (R455). -/
  meas : List Byte := []
  vfs : Sparse VfState := []
  regions : List Region := []
  bps : Sparse Breakpoint := []
  claims : Sparse Claim := []
  reps : Sparse Replay := []
  /-- TRCBASE, TRCCTL, TRCIDX (R469, R470) and the identity that wrote TRCBASE. -/
  trcbase : Word := 0
  trcctl : Word := 0x20
  trcnext : Nat := 0
  trclost : Nat := 0
  trcwho : Ident := {}
  trcseq : Nat := 0
  /-- Records on their way to the arbiter (R470). -/
  trace : List TraceRec := []
deriving DecidableEq, Repr

/-- A staged change of a lane's binding (R413, R423). -/
inductive Staged where
  | bind (cid : BitVec 12) (vf : BitVec 4) (rot : Bool)
  | unbind
  | assign (part : BitVec 8)
deriving DecidableEq, Repr

/-- A waiting entrant or listener of a lane (R415, R418, R422). -/
structure Entrant where
  c : Nat
  cid : BitVec 12
  part : BitVec 8
  vf : BitVec 4
  key : BitVec 32 := 0
  late : Bool := false
  /-- 0 waiting, 1 counted in the frame in progress, 2 a late `.nolate` entrant, 3 a listener waiting for its
  frame, 4 a listener of the frame in progress. -/
  stage : Nat := 0
  /-- BCENT `.nolate`, BCLISTEN. -/
  nolate : Bool := false
  listen : Bool := false
  /-- Its context takes the result from a replay log (R475). -/
  mute : Bool := false
  /-- It was sent at custodian level, which sees physical core numbers (R448). -/
  cust : Bool := false
  /-- MODEL: how often its context had been freed, so that a later task there does not take its result. -/
  set : Nat := 0
deriving DecidableEq, Repr

/-- A frame's result (R416, R417). -/
structure FrameRes where
  key : BitVec 32
  die : Nat
  tag : BitVec 12
  winner : Nat
deriving DecidableEq, Repr

/-- A Beacon lane (R412 to R424). -/
structure Lane where
  part : BitVec 8 := 0xFF
  bound : Bool := false
  vf : BitVec 4 := 0
  cid : BitVec 12 := 0
  rot : Bool := false
  rotv : Nat := 0
  frames : Nat := 0
  staged : List Staged := []
  /-- The frame in progress: PRESENT, BIND, and what it settles. -/
  present : Bool := false
  bindBit : Bool := false
  /-- MODEL: the frame has ended, and the arm point of the next, which is the same moment, is still to come (R414). -/
  due : Bool := false
  result : Option FrameRes := none
  entrants : List Entrant := []
deriving DecidableEq, Repr

/-- The certificate slots, key submission and attestation (R443, R452, R456, R457). -/
structure Security where
  /-- PMAP of each compute die (R444). -/
  pmap : Sparse (BitVec 8) := []
  /-- Partition of each host core, by core key (R444). -/
  hcmap : Sparse (BitVec 8) := []
  kstatPart : BitVec 8 := 0xFF
  kstatRes : BitVec 4 := 0
  certGen : Sparse (BitVec 32) := []
  attBusy : Bool := false
  attDone : Bool := false
  attPart : BitVec 8 := 0
  attSlot : Nat := 0
  attAddr : Nat := 0
  attGen : BitVec 32 := 0
  /-- MODEL: draws made from the random source. -/
  draws : Nat := 0
  /-- Device measurement: bytes absorbed at bring-up (R477). -/
  device : List Byte := []
deriving DecidableEq, Repr

/-- A Buoy member (R256). -/
structure Member where
  core : Nat := 0
  live : Nat := 0
  word : Word := 0
  parent : Option Nat := none
  children : List Nat := []
  /-- Children whose done message has arrived. -/
  heard : List Nat := []
  sent : Bool := false
deriving DecidableEq, Repr

/-- A job (R254 to R256). -/
structure Job where
  part : BitVec 8
  vf : BitVec 4
  /-- Timeline owner and number on tl7 of its LAUNCH (R256). -/
  owner : Nat
  num : Nat
  ident : Ident
  /-- Physical address of the completion word, if it may be written. -/
  word : Option Nat
  bridle : Bool := false
  members : Sparse Member := []
  clusters : List Nat := []
  live : Bool := true
deriving DecidableEq, Repr

/-- A FIFO of an actor: bank, element size in bytes, rate (R91, R257). -/
structure FifoDesc where
  bank : Nat
  size : Nat
  rate : Nat
deriving DecidableEq, Repr

/-- An actor (R257, R258). -/
structure Actor where
  task : Task
  cluster : Nat
  /-- Its dependence counter has been met (R249). -/
  live : Bool := false
  ins : List (Option FifoDesc) := []
  outs : List (Option FifoDesc) := []
  /-- The firing under way: elements read of each input, elements written to each output. -/
  firing : Bool := false
  read : List Nat := []
  wrote : List (List Word) := []
  retired : Bool := false
deriving DecidableEq, Repr

/-- An engine command in flight (R112 to R117). -/
structure EngCmd where
  id : Nat
  c : Nat
  core : Nat
  owner : Nat
  tl : Nat
  num : Nat
  ident : Ident
  op : EngOp
  /-- Effects performed: for a copy the deliveries so far, else the numbers of the effects done. -/
  deliv : Nat := 0
  done : List Nat := []
  /-- First failure: index, reason (R323, R346, R376, R399), and the translation cause. -/
  fail : Option (Nat × Nat × Nat) := none
  flags : BitVec 6 := 0
  /-- 0 in its channel or engine, 1 sent to a die copy queue, 2 in the queue, 3 waiting for its report. -/
  stage : Nat := 0
  /-- Source bytes that the command also writes: address and what each held when the command started (R341). -/
  before : List (Nat × Byte) := []
deriving DecidableEq, Repr

/-- A timeline: commands issued, the counter, and numbers completed above it (R27, R28). -/
structure Timeline where
  issued : Nat := 0
  /-- The count of commands issued that END and SYSC use, which a save area carries (R235, R236). -/
  count : Nat := 0
  done : Nat := 0
  above : List Nat := []
  /-- Flags held with tl6's completions: number and flags (R324). -/
  flags : List (Nat × BitVec 6) := []
deriving DecidableEq, Repr

/-- Traffic in flight (R97, R118). -/
inductive NetMsg where
  /-- A word for a mailbox or port of a core, from context `c` running `gti`; `fwd` says a vacated core has
  redirected it (R240), `owed` that its acceptance is to be acknowledged (R49). -/
  | word (core : Nat) (reg : WordReg) (w : MsgWord) (c : Nat) (gti : Word) (ident : Ident) (fwd owed : Bool)
  | wordAck (c : Nat) (gti : Word)
  | post (core j : Nat)
  | amsg (m : ActMsg)
  | amsgAck (c : Nat) (gti : Word)
  | atomic (r : AtomReq)
  | atomReply (c : Nat) (seq : BitVec 16) (r : Reply) (flags : BitVec 6)
  | sig (r : SigReq)
  | done (job rank : Nat) (word : Word)
  | lapse (core : Nat) (gti : Word)
  | entry (e : Entrant)
deriving DecidableEq, Repr

/-- One direction of a link between two dies, seen at its receiving end (R283, R284); directions `2n` and `2n+1`
are one link. -/
structure Link where
  /-- Next expected sequence number of class 0 request, 1 reply, 2 control. -/
  expect : Sparse (BitVec 16) := []
  /-- The sender's next number of each class, and its replay buffer: the flits sent and not yet accepted, with how often
  each has been replayed. -/
  sent : Sparse (BitVec 16) := []
  buffer : List (Nat × BitVec 16 × Nat) := []
  /-- Times of replays in the last 10 µs. -/
  recent : List Nat := []
  /-- Time it lost service, while it retrains. -/
  down : Option Nat := none
deriving DecidableEq, Repr

/-- A line in a cluster's L1 under its partition's tag: which of its two sectors are valid, and which dirty (R274,
R451). -/
structure L1Line where
  line : Nat
  part : BitVec 8
  valid : BitVec 2 := 0
  dirty : BitVec 2 := 0
deriving DecidableEq, Repr

/-- MOESI states of a line that an L2 holds (R275). -/
inductive Moesi where
  | m | o | e | s
deriving DecidableEq, Repr

/-- A line in a die's L2 with its slice's directory entry: its state and the clusters that share it (R275, R451). -/
structure L2Line where
  line : Nat
  part : BitVec 8
  st : Moesi
  sharers : BitVec 16 := 0
deriving DecidableEq, Repr

/-- States of a home agent's directory (R275). -/
inductive HomeState where
  | i | s | e | o
deriving DecidableEq, Repr

/-- A home agent's directory entry: its state, the die that holds the line in E or owns it in O, and the vector of the
L2s that hold it (R275). -/
structure HomeLine where
  st : HomeState := .i
  owner : Option Nat := none
  vec : BitVec 10 := 0
deriving DecidableEq, Repr

/-- The counters of a 4 KiB page of protected memory: its major counter and the minor counters of its lines (R451). -/
structure PageCtr where
  major : Nat := 0
  minor : Sparse (BitVec 7) := []
deriving DecidableEq, Repr

/-- An invalidation or TLBINV waiting for acknowledgements (R223, R282). -/
structure Inval where
  id : Nat
  c : Nat
  waiting : List Nat
  since : Nat
  /-- Page and size removed, or none for all. -/
  page : Option (Nat × Nat) := none
  ident : Ident
  /-- The line whose copies it removes, for a die that is to write it; die 32: for its home (R275). -/
  line : Option Nat := none
  die : Nat := 32
deriving DecidableEq, Repr

/-- State of a die at bring-up (R478). -/
structure DieCtl where
  state : BitVec 3 := 0
  reason : BitVec 4 := 0
  stoppc : BitVec 56 := 0
  /-- Clock in MHz, issue limit and voltage set by the power manager (R470). -/
  mhz : BitVec 16 := 0
  issue : BitVec 8 := 0
  mv : BitVec 16 := 0
deriving DecidableEq, Repr

/-- An assigned frame as a save carries it out (R476): bytes, locks, capability tags, the two words of its entry. -/
structure SavedFrame where
  frame : Nat
  bytes : List Host.Cell
  locks : Sparse (BitVec 4)
  ctags : List Nat
  word0 : Word
  word1 : Word
deriving DecidableEq, Repr

/-- Whose turn it is. MODEL: the choice the spec leaves open (R100, R291) is plain data. -/
inductive Turn where
  /-- The context issues its next instruction (R100). -/
  | issue (c : Nat)
  /-- Some agent takes the step an event row names. -/
  | event (i : Instr)
  /-- Package time passes, in ns (R30). -/
  | tick (n : Nat)
deriving DecidableEq, Repr

/-- The state of the package. -/
structure State where
  /-- The package time base (R30). -/
  time : Word := 0
  /-- MODEL: who acts next; empty: the context `cur` issues. -/
  agenda : List Turn := []
  /-- MODEL: the context that acts. -/
  cur : Nat := 0
  /-- MODEL: counter of free values taken. -/
  fresh : Nat := 0
  /-- MODEL: number of the next object made (command, message, job, invalidation). -/
  next : Nat := 0
  /-- Bytes of memory at their homes (R98, R269), in canonical form; an address not listed reads 0. -/
  mem : List Host.Cell := []
  /-- MODEL: bytes written in the step under way, newest first; `step` puts them into `mem`. -/
  writes : List Host.Cell := []
  /-- Granules of 16 bytes whose capability tag is set (R156). -/
  ctags : List Nat := []
  /-- Locks of 32-byte granules (R157). -/
  locks : Sparse (BitVec 4) := []
  /-- Poisoned lines of 128 bytes (R286). -/
  poison : List Nat := []
  /-- The sets of the L1s, most recently used first: key `cluster*512 + PA[15:7]` (R274). -/
  l1 : Sparse (List L1Line) := []
  /-- The L2 of each die with its directory, most recently used first (R275). -/
  l2 : Sparse (List L2Line) := []
  /-- The home agents' directories by line; a line in state I has no entry (R275). -/
  homes : Sparse HomeLine := []
  /-- Counters of protected memory by page, and the key each line was last written under by line (R451). -/
  pages : Sparse PageCtr := []
  seals : Sparse Nat := []
  ctxs : Sparse Context := []
  cores : Sparse Core := []
  clus : Sparse Cluster := []
  dies : Sparse Die := []
  io : Sparse HostIo := []
  bases : Sparse BaseDie := []
  parts : Sparse Partition := []
  lanes : Sparse Lane := []
  sec : Security := {}
  jobs : Sparse (Option Job) := []
  actors : Sparse (Option Actor) := []
  cmds : List EngCmd := []
  /-- Timelines by owner and number: key `owner*8 + tl` (R27, R482). -/
  tls : Sparse Timeline := []
  net : List (Nat × NetMsg) := []
  links : Sparse Link := []
  holds : List Hold := []
  invals : List Inval := []
  /-- DIECTL of each die (R478). -/
  ctl : Sparse DieCtl := []
  /-- CKPTDST, and CKPTST's status and bytes moved, and CKPTCTL's resume bit (R476). -/
  ckptDst : Sparse Word := []
  ckptSt : BitVec 2 := 0
  ckptMoved : BitVec 56 := 0
  ckptResume : Bool := false
  ckptRestore : Bool := false
  /-- The saved image of the safe tier (R476). -/
  saved : List SavedFrame := []
  /-- Writes that reached device registers and memory-mapped I/O: address and bytes (R98, R269). -/
  devout : List (Nat × List Byte) := []
  /-- The supply is at or above 40 V (R480). -/
  supply : Bool := true
  /-- Bring-up has entered the custodian (R477). -/
  up : Bool := false
deriving DecidableEq, Repr

/-- Why a step stops. -/
inductive Fault where
  /-- Raised by `step` for a turn that names a context no core of the package has (R15, R18). Safe: no such
  agent exists, so no behaviour of the machine is lost. -/
  | noSuchContext
deriving DecidableEq, Repr

/-- Why an instruction has no meaning here. -/
inductive Refusal where
  /-- Raised by an arm of `exec` for a row not modelled. Safe: nothing is claimed of it. -/
  | notModelled (mnemonic : String)
deriving DecidableEq, Repr

/-- The machine right after module reset (R8, R477 step 1): every register at its reset value, nothing in
memory, every context free, every die in reset. -/
def State.reset : State := {}

end Sys2Proof.Machine
end

