-- ==== Sys2Proof/Machine/Cache.lean ====
section
/-! DEFINITION. The L1s, the L2s and the directories that keep them coherent (R274, R275). The bytes of a location
stand at its home in `State.mem` at every moment, as R276 lets the ordering machine take them; here is which caches
hold a copy of a line, and what a read, a write and an invalidation do to that. -/

namespace Sys2Proof.Machine

/-- The lines of 128 bytes that `n` bytes at an address touch. -/
def linesOf (pa n : Nat) : List Nat :=
  if n = 0 then [] else (List.range ((pa % 128 + n + 127) / 128)).map (pa / 128 + ·)

/-- The sectors of 64 bytes of a line that `n` bytes at an address touch (R274). -/
def sectorsOf (line pa n : Nat) : BitVec 2 :=
  let hit (a : Nat) : Bool := decide (a < pa + n) && decide (pa < a + 64)
  BitVec.ofNat 2 ((if hit (line * 128) then 1 else 0) + (if hit (line * 128 + 64) then 2 else 0))

/-- The set of a line in the L1 of a cluster: PA[15:7] (R274). -/
def l1Key (cl line : Nat) : Nat := cl * 512 + line % 512

/-- The sharer bit of a cluster: one each for the clusters of R99 of a compute die, and bit 15 for service and host
cores too (R275). -/
def clusterBit (cl : Nat) : BitVec 16 := 1 <<< min (cl % 64) 15

/-- A die's bit in a home directory's vector; the home itself, die 32, has none (R275). -/
def dieBit (die : Nat) : BitVec 10 := 1 <<< die

def State.homeLine (s : State) (line : Nat) : HomeLine := Sparse.get {} s.homes line

/-- Enters a line in its home directory; in state I it has no entry. -/
def setHomeLine (s : State) (line : Nat) (h : HomeLine) : State :=
  { s with homes := if h.vec = 0 then Sparse.drop s.homes line else Sparse.set s.homes line h }

/-- A die's L2 holds a line no longer (R275). -/
def HomeLine.leave (h : HomeLine) (die : Nat) : HomeLine :=
  let v := h.vec &&& ~~~ dieBit die
  if v = 0 then {} else if h.owner = some die then { st := .s, vec := v } else { h with vec := v }

/-- The L1s of a die, but that of cluster `keep`, hold a line no longer. -/
def dropL1 (l1 : Sparse (List L1Line)) (die line : Nat) (keep : Option Nat) : Sparse (List L1Line) :=
  l1.map fun (e : Nat × List L1Line) =>
    if e.1 / 32768 = die ∧ e.1 % 512 = line % 512 ∧ some (e.1 / 512) ≠ keep then (e.1, e.2.filter fun x => x.line != line) else e

/-- No cache of a die holds a line: it has been invalidated there, recalled, or replaced in the L2 (R275). -/
def dropCopy (s : State) (die line : Nat) : State :=
  let s := setHomeLine s line ((s.homeLine line).leave die)
  { s with
    l1 := dropL1 s.l1 die line none
    l2 := Sparse.set s.l2 die ((Sparse.get [] s.l2 die).filter fun x => x.line != line) }

/-- No cache of the package holds a line. -/
def purge (s : State) (line : Nat) : State :=
  let held := (s.homeLine line).vec != 0
  { s with
    l1 := if held then s.l1.map fun (e : Nat × List L1Line) => (e.1, e.2.filter fun x => x.line != line) else s.l1
    l2 := if held then s.l2.map fun (e : Nat × List L2Line) => (e.1, e.2.filter fun x => x.line != line) else s.l2
    homes := if held then Sparse.drop s.homes line else s.homes }

/-- No cache of the package holds a line of a range (R319, R330). -/
def purgeRange (s : State) (pa n : Nat) : State :=
  (s.homes.filter fun (e : Nat × HomeLine) => decide (0 < n ∧ pa / 128 ≤ e.1 ∧ e.1 * 128 < pa + n)).foldl
    (fun (s : State) (e : Nat × HomeLine) => purge s e.1) s

/-- The copies that an L2 holds of a range in E or as O-owner are recalled (R319). -/
def recallRange (s : State) (pa n : Nat) : State :=
  s.homes.foldl (fun (s : State) (e : Nat × HomeLine) =>
    match e.2.owner with
    | some d => if 0 < n ∧ pa / 128 ≤ e.1 ∧ e.1 * 128 < pa + n then dropCopy s d e.1 else s
    | none => s) s

/-- Lines an L2 holds: 256 MiB on a compute die, 64 MiB on a host die. -/
def l2Lines (die : Nat) : Nat := if die < 8 then 2097152 else 524288

/-- Puts a line at the head of an L2; the least recently used gives way when it is full. DESIGN CHOICE (log 16): the
spec gives neither the L2's placement nor its replacement. -/
def l2Put (s : State) (die : Nat) (x : L2Line) : State :=
  let l := x :: (Sparse.get [] s.l2 die).filter fun y => y.line != x.line
  let s := { s with l2 := Sparse.set s.l2 die (l.take (l2Lines die)) }
  (l.drop (l2Lines die)).foldl (fun s y => dropCopy s die y.line) s

/-- Marks a line of a die's L2 (R275). -/
def l2Mark (s : State) (die line : Nat) (st : Moesi) : State :=
  { s with l2 := Sparse.set s.l2 die ((Sparse.get [] s.l2 die).map fun x => if x.line = line then { x with st := st } else x) }

/-- An L2 has a clean copy of a line for a cluster: from itself, its owner or its home (R275). DESIGN CHOICE (log 16):
a line that no L2 held is then in state S. -/
def l2Read (s : State) (die cl : Nat) (part : BitVec 8) (line : Nat) : State :=
  match (Sparse.get [] s.l2 die).find? fun x => x.line == line && x.part == part with
  | some x => l2Put s die { x with sharers := x.sharers ||| clusterBit cl }
  | none =>
    let h := s.homeLine line
    let v := h.vec ||| dieBit die
    let s := match h.st, h.owner with
      | .e, some d =>
        if (Sparse.get [] s.l2 d).any fun x => x.line == line && x.st == .m then
          l2Mark (setHomeLine s line { st := .o, owner := some d, vec := v }) d line .o
        else l2Mark (setHomeLine s line { st := .s, vec := v }) d line .s
      | .o, _ => setHomeLine s line { h with vec := v }
      | _, _ => setHomeLine s line { st := .s, vec := v }
    l2Put s die { line := line, part := part, st := .s, sharers := clusterBit cl }

/-- A line of a cluster's L1 is used: what its sectors hold, and it is the most recently used of its set; the least
recently used gives way where the set has no room (R274). The answer says whether it missed. -/
def l1Use (s : State) (cl ways : Nat) (part : BitVec 8) (line : Nat) (sec : BitVec 2) (write : Bool) : Bool × State :=
  let set := Sparse.get [] s.l1 (l1Key cl line)
  let mine (x : L1Line) : Bool := x.line == line && x.part == part
  let old : L1Line := (set.find? mine).getD { line := line, part := part }
  let new : L1Line := { old with valid := old.valid ||| sec, dirty := old.dirty ||| (if write then sec else 0) }
  (old.valid &&& sec != sec,
    { s with l1 := Sparse.set s.l1 (l1Key cl line) ((new :: set.filter fun x => x.line != line).take ways) })

/-- A read of `n` bytes by a cluster through its L1 of `ways` ways, or straight through the L2 where it has none: how
many lines missed the L1, and the state after (R274, R275). -/
def cacheRead (s : State) (cl ways : Nat) (part : BitVec 8) (pa n : Nat) : Nat × State :=
  (linesOf pa n).foldl (fun (m : Nat × State) line =>
    let s := l2Read m.2 (cl / 64) cl part line
    if ways = 0 then (m.1, s)
    else
      let r := l1Use s cl ways part line (sectorsOf line pa n) false
      (m.1 + (if r.1 then 1 else 0), r.2)) (0, s)

/-- A die may write a line: no other L2 holds a copy (R275). -/
def granted (s : State) (die line : Nat) : Bool := (s.homeLine line).vec &&& ~~~ dieBit die == 0

/-- A write that is not granted asks each other die that holds a copy to drop it, and waits for their
acknowledgements (R275, R282). -/
def askGrant (s : State) (die : Nat) (line : Nat) : State :=
  if granted s die line || s.invals.any fun v => v.line == some line && v.die == die then s
  else
    let v := (s.homeLine line).vec
    let others := (List.range 10).filter fun d => d != die && v.getLsbD d
    { s with
      next := s.next + 1
      invals := s.invals ++ [{ id := s.next, c := 0, waiting := others, since := s.time.toNat, ident := {}, line := some line, die := die }] }

/-- A write of `n` bytes by a cluster, granted: its die's L2 holds the lines in E and modified, its L1 the sectors dirty,
and no other L1 of the die holds them (R274, R275). -/
def cacheWrite (s : State) (cl ways : Nat) (part : BitVec 8) (pa n : Nat) : State :=
  (linesOf pa n).foldl (fun s line =>
    let die := cl / 64
    let s := setHomeLine s line { st := .e, owner := some die, vec := dieBit die }
    let s := { s with l1 := dropL1 s.l1 die line (some cl) }
    let s := l2Put s die { line := line, part := part, st := .m, sharers := clusterBit cl }
    if ways = 0 then s else (l1Use s cl ways part line (sectorsOf line pa n) true).2) s

/-- An engine takes a line exclusive in its die's L2 and keeps it (R292). -/
def takeExclusive (s : State) (die : Nat) (part : BitVec 8) (line : Nat) : State :=
  let s := purge s line
  l2Put (setHomeLine s line { st := .e, owner := some die, vec := dieBit die }) die { line := line, part := part, st := .m }

/-- The lines a die holds in E or as O-owner (R282, R285). -/
def ownedLines (s : State) (die : Nat) : List Nat :=
  (s.homes.filter fun (e : Nat × HomeLine) => e.2.owner == some die).map fun e => e.1

/-- A die's caches hold nothing, and no directory shows it (R282). -/
def clearCaches (s : State) (die : Nat) : State :=
  { s with
    l1 := s.l1.filter fun (e : Nat × List L1Line) => e.1 / 32768 != die
    l2 := Sparse.drop s.l2 die
    homes := (s.homes.map fun (e : Nat × HomeLine) => (e.1, e.2.leave die)).filter fun (e : Nat × HomeLine) => e.2.vec != 0 }

end Sys2Proof.Machine
end

