-- ==== Sys2Proof/Machine/Ops.lean ====
section
/-! DEFINITION. The named operations over the state: who is who in the package, the pieces of the state by key,
bytes at their homes, the custody record's rights, capabilities, translation and the checks of an access, event
counters, trace records, taking an exception and returning from one. -/

namespace Sys2Proof.Machine

/-! Names of contexts, cores, clusters and dies (R15, R17, R18, R99). -/

def dieOf (c : Nat) : Nat := c / 4096
def coreOf (c : Nat) : Nat := c / 8
def ctxNo (c : Nat) : Nat := c % 8
/-- The die of a core key and the core's number on it. -/
def coreDie (k : Nat) : Nat := k / 512
def coreNo (k : Nat) : Nat := k % 512
def ctxKey (core n : Nat) : Nat := core * 8 + n

/-- The kind of a core (R17). -/
def kindOfCore (k : Nat) : CoreKind :=
  if 8 ≤ coreDie k then .host else if coreNo k < 256 then .compute else .service

def kindOf (c : Nat) : CoreKind := kindOfCore (coreOf c)

/-- Whether a key names a context of the package (R15, R17, R18). -/
def isContext (c : Nat) : Bool :=
  if dieOf c < 8 then decide (coreNo (coreOf c) < 264) && decide (ctxNo c < 4)
  else decide (dieOf c < 10) && decide (coreNo (coreOf c) < 32) && decide (ctxNo c < 2)

/-- Contexts on a core (R18). -/
def contextsOf (k : Nat) : List Nat := (List.range (if 8 ≤ coreDie k then 2 else 4)).map (ctxKey k)

/-- The cores of a die (R17). -/
def coresOf (die : Nat) : List Nat := (List.range (if 8 ≤ die then 32 else 264)).map (die * 512 + ·)

/-- Cluster of a core (R17, R99). -/
def clusterOfCore (k : Nat) : Nat :=
  let n := coreNo k
  coreDie k * 64 +
    (if 8 ≤ coreDie k then n else if n < 256 then n / 64 * 4 + n % 16 / 4 else 16 + (n - 256))

def clusterOf (c : Nat) : Nat := clusterOfCore (coreOf c)

/-- The contexts of a cluster. -/
def clusterContexts (cl : Nat) : List Nat :=
  ((coresOf (cl / 64)).filter fun k => clusterOfCore k == cl).flatMap contextsOf

/-! The pieces of the state by key. -/

def State.ctx (s : State) (c : Nat) : Context := Sparse.get {} s.ctxs c
def State.setCtx (s : State) (c : Nat) (x : Context) : State := { s with ctxs := Sparse.set s.ctxs c x }
def State.modCtx (s : State) (c : Nat) (f : Context → Context) : State := s.setCtx c (f (s.ctx c))
def State.core (s : State) (k : Nat) : Core := Sparse.get {} s.cores k
def State.setCore (s : State) (k : Nat) (x : Core) : State := { s with cores := Sparse.set s.cores k x }
def State.modCore (s : State) (k : Nat) (f : Core → Core) : State := s.setCore k (f (s.core k))
def State.clu (s : State) (k : Nat) : Cluster := Sparse.get {} s.clus k
def State.modClu (s : State) (k : Nat) (f : Cluster → Cluster) : State :=
  { s with clus := Sparse.set s.clus k (f (s.clu k)) }
def State.die (s : State) (k : Nat) : Die := Sparse.get {} s.dies k
def State.modDie (s : State) (k : Nat) (f : Die → Die) : State :=
  { s with dies := Sparse.set s.dies k (f (s.die k)) }
def State.hio (s : State) (k : Nat) : HostIo := Sparse.get {} s.io k
def State.modHio (s : State) (k : Nat) (f : HostIo → HostIo) : State :=
  { s with io := Sparse.set s.io k (f (s.hio k)) }
def State.base (s : State) (k : Nat) : BaseDie := Sparse.get {} s.bases k
def State.modBase (s : State) (k : Nat) (f : BaseDie → BaseDie) : State :=
  { s with bases := Sparse.set s.bases k (f (s.base k)) }
def State.part (s : State) (k : Nat) : Partition := Sparse.get {} s.parts k
def State.modPart (s : State) (k : Nat) (f : Partition → Partition) : State :=
  { s with parts := Sparse.set s.parts k (f (s.part k)) }
def State.vf (s : State) (p v : Nat) : VfState := Sparse.get {} (s.part p).vfs v
def State.modVf (s : State) (p v : Nat) (f : VfState → VfState) : State :=
  s.modPart p fun x => { x with vfs := Sparse.set x.vfs v (f (s.vf p v)) }
def State.lane (s : State) (k : Nat) : Lane := Sparse.get {} s.lanes k
def State.modLane (s : State) (k : Nat) (f : Lane → Lane) : State :=
  { s with lanes := Sparse.set s.lanes k (f (s.lane k)) }
def State.job (s : State) (k : Nat) : Option Job := Sparse.get none s.jobs k
def State.setJob (s : State) (k : Nat) (j : Option Job) : State := { s with jobs := Sparse.set s.jobs k j }
def State.actor (s : State) (k : Nat) : Option Actor := Sparse.get none s.actors k
def State.setActor (s : State) (k : Nat) (a : Option Actor) : State :=
  { s with actors := Sparse.set s.actors k a }
def State.dieCtl (s : State) (p : Nat) : DieCtl := Sparse.get {} s.ctl p
def State.modCtl (s : State) (p : Nat) (f : DieCtl → DieCtl) : State :=
  { s with ctl := Sparse.set s.ctl p (f (s.dieCtl p)) }
def State.tline (s : State) (owner tl : Nat) : Timeline := Sparse.get {} s.tls (owner * 8 + tl)
def State.modTline (s : State) (owner tl : Nat) (f : Timeline → Timeline) : State :=
  { s with tls := Sparse.set s.tls (owner * 8 + tl) (f (s.tline owner tl)) }

/-- Who owns a context's timelines: its task, or the context itself (R27, R482). -/
def tlOwner (s : State) (c : Nat) : Nat :=
  match (s.ctx c).task with
  | some t => t.gti.toNat * 2 + 1
  | none => ((s.ctx c).set * 65536 + c) * 2

/-- A value the spec leaves unstated. -/
def State.free (s : State) : Word × State := (Config.freeWord s.fresh, { s with fresh := s.fresh + 1 })

/-- The number of the next object made. -/
def State.new (s : State) : Nat × State := (s.next, { s with next := s.next + 1 })

/-- General register `i`; g0 reads untagged zero (R41). -/
def Context.reg (x : Context) (i : BitVec 6) : Reg := if i = 0 then {} else Sparse.get {} x.g i.toNat
/-- Writes general register `i`; a write to g0 is discarded (R41). -/
def Context.setReg (x : Context) (i : BitVec 6) (r : Reg) : Context :=
  if i = 0 then x else { x with g := Sparse.set x.g i.toNat r }
/-- Predicate `i`; p0 reads all ones (R41). -/
def Context.pred (x : Context) (i : BitVec 4) : Word := if i = 0 then BitVec.allOnes 64 else Sparse.get 0 x.p i.toNat
/-- Writes predicate `i`; a write to p0 is discarded (R41). -/
def Context.setPred (x : Context) (i : BitVec 4) (w : Word) : Context :=
  if i = 0 then x else { x with p := Sparse.set x.p i.toNat w }
/-- Vector register `i`. -/
def Context.vreg (x : Context) (i : BitVec 5) : BitVec 2048 := Sparse.get 0 x.v i.toNat
/-- Writes vector register `i`. -/
def Context.setVreg (x : Context) (i : BitVec 5) (w : BitVec 2048) : Context :=
  { x with v := Sparse.set x.v i.toNat w }
/-- Bits [63:0] of a general register (R163). -/
def Context.low (x : Context) (i : BitVec 6) : Word := (x.reg i).bits.setWidth 64

/-- An untagged register holding a word (R44, R165). -/
def Reg.ofWord (w : Word) : Reg := { bits := w.setWidth 128, tag := false }

/-- A register's 128 bits with a tag: while the tag is clear, bits [127:64] read as zero (R153). -/
def Reg.ofCap (bits : BitVec 128) (tag : Bool) : Reg :=
  if tag then { bits := bits, tag := true } else Reg.ofWord (bits.setWidth 64)

/-! Little-endian bytes (R4). -/

/-- The number little-endian bytes hold. -/
def ofBytes : List Byte → Nat
  | [] => 0
  | b :: r => b.toNat + 256 * ofBytes r

/-- The `n` little-endian bytes of a number. -/
def toBytes : Nat → Nat → List Byte
  | 0, _ => []
  | n + 1, x => BitVec.ofNat 8 x :: toBytes n (x / 256)

/-- A list cut or filled with zeros to `n` bytes. -/
def fixBytes (n : Nat) (l : List Byte) : List Byte := (l ++ List.replicate n 0).take n

/-! The physical address map (R269, R271, R460). -/

/-- What a physical address names. -/
inductive Place where
  | hbm (stack off : Nat)
  | scratch (cluster off : Nat)
  | cxl
  | window (die off : Nat)
  | mmio
  | reserved
deriving DecidableEq, Repr

/-- Capacity of a stack: 80 GiB (R269). -/
def stackBytes : Nat := 0x1400000000

/-- R269's map; a scratchpad die that has no clusters is reserved. -/
def region (pa : Nat) : Place :=
  if pa < 2 ^ 40 then
    if pa % 2 ^ 37 < stackBytes then .hbm (pa / 2 ^ 37) (pa % 2 ^ 37) else .reserved
  else if 2 ^ 48 ≤ pa ∧ pa < 2 ^ 48 + 2 ^ 32 then
    let o := pa - 2 ^ 48
    if o / 2 ^ 25 < 8 then .scratch (o / 2 ^ 25 * 64 + o % 2 ^ 25 / 2 ^ 21) (o % 2 ^ 21) else .reserved
  else if 2 ^ 49 ≤ pa ∧ pa < 2 ^ 49 + 2 ^ 48 then .cxl
  else if 3 * 2 ^ 48 ≤ pa ∧ pa < 3 * 2 ^ 48 + 2 ^ 37 then
    let o := pa - 3 * 2 ^ 48
    .window (o / 2 ^ 32) (o % 2 ^ 32)
  else if 2 ^ 50 ≤ pa ∧ pa < 2 ^ 50 + 2 ^ 48 then .mmio
  else .reserved

/-- Whether a physical address is populated HBM. -/
def isHbm (pa : Nat) : Bool := match region pa with | .hbm _ _ => true | _ => false

/-- Whether an address lies in a cluster scratchpad bank. -/
def isScratch (pa : Nat) : Bool := match region pa with | .scratch _ _ => true | _ => false

/-- Whether an address lies in uncached space: a control window or memory-mapped I/O (R269). -/
def isUncached (pa : Nat) : Bool := match region pa with | .window _ _ | .mmio => true | _ => false

/-- A bank's mode; banks come up in cache mode (R218). -/
def bankMode (s : State) (cl b : Nat) : BankMode := Sparse.get .cache (s.clu cl).modes b

/-- The scratch banks of a cluster in ascending order (R272). -/
def scratchBanks (s : State) (cl : Nat) : List Nat :=
  (List.range 32).filter fun b => bankMode s cl b == .scratch

/-- Where a scratch offset lies: the model's address of its byte, or none if it is unbacked (R162, R272). -/
def scratchLoc (s : State) (cl off : Nat) : Option Nat :=
  let banks := scratchBanks s cl
  let n := banks.length
  let top := n * 65536 - (if (s.clu cl).bridle then 96 * 1024 else 0)
  if top ≤ off then none
  else
    let bank := banks.getD (off / 16 % n) 0
    some (2 ^ 52 + cl / 64 * 2 ^ 25 + cl % 64 * 2 ^ 21 + bank * 65536 + off / 16 / n * 16 + off % 16)

/-- The frame that stands for a frame after the redirections from it on (R289). -/
def redirectFrame (s : State) : Nat → Nat → Nat
  | 0, f => f
  | n + 1, f =>
    match (s.base (f / 2 ^ 21)).redirect.find? fun r => r.1 == f with
    | some r => redirectFrame s n r.2
    | none => f

/-- An address of a redirected frame in the frame that stands for it (R289). -/
def redirect (s : State) (pa : Nat) : Nat :=
  let n := (s.bases.map fun (b : Nat × BaseDie) => b.2.redirect.length).foldl (· + ·) 0
  redirectFrame s n (pa / 65536) * 65536 + pa % 65536

/-- First GiB and size of a CXL window (R460). -/
def winRange (a : Word) : Nat × Nat := ((a.extractLsb' 30 18).toNat, (a.extractLsb' 0 12).toNat)

def winOf (s : State) (die j : Nat) : CxlWin := Sparse.get {} (s.hio die).wins j

/-- The window of a CXL address: host die and number (R460). -/
def winAt (s : State) (pa : Nat) : Option (Nat × Nat) :=
  [8, 9].findSome? fun h =>
    ((List.range 16).find? fun j =>
      let w := winOf s h j
      let r := winRange w.a
      w.a.getLsbD 63 && decide (2 ^ 49 + r.1 * 2 ^ 30 ≤ pa) && decide (pa < 2 ^ 49 + (r.1 + r.2) * 2 ^ 30)).map fun j => (h, j)

/-- The byte of a device that a CXL address maps to, as `mem` keys it: by port, and by device address (R460). -/
def cxlLoc (s : State) (pa : Nat) : Option Nat :=
  (winAt s pa).map fun e =>
    let w := winOf s e.1 e.2
    2 ^ 53 + ((e.1 - 8) * 2 + (if w.a.getLsbD 61 then 1 else 0)) * 2 ^ 50 + (w.b.extractLsb' 30 18).toNat * 2 ^ 30
      + (pa - (2 ^ 49 + (winRange w.a).1 * 2 ^ 30))

/-- The home of a location in `mem`: none for a register, a hole, an unbacked scratch offset, and a CXL address in no
window. -/
def loc (s : State) (pa : Nat) : Option Nat :=
  match region pa with
  | .hbm _ _ => some (redirect s pa)
  | .scratch cl off => scratchLoc s cl off
  | .cxl => cxlLoc s pa
  | _ => none

/-- Whether caches may hold a location: HBM, and CXL memory that no other host shares (R275, R461). -/
def cacheable (s : State) (pa : Nat) : Bool :=
  match region pa with
  | .hbm _ _ => true
  | .cxl => (match winAt s pa with | some e => !(winOf s e.1 e.2).a.getLsbD 62 | none => false)
  | _ => false

/-- The ways of a cluster's L1: its banks in cache mode (R274). -/
def l1Ways (s : State) (cl : Nat) : Nat := ((List.range 32).filter fun b => bankMode s cl b == .cache).length

/-! Bytes. A step's writes are held newest first in `writes` until the step ends. -/

/-- The byte at a model address, the step's own writes included. -/
def byteAt (s : State) (a : Nat) : Byte :=
  match s.writes.find? fun c => c.1 == a with
  | some c => c.2
  | none => Memory.read s.mem a

/-- Writes a byte. -/
def poke (s : State) (a : Nat) (b : Byte) : State := { s with writes := (a, b) :: s.writes }

/-- Writes bytes at successive model addresses. -/
def pokes (s : State) (a : Nat) (bs : List Byte) : State :=
  { s with writes := (bs.mapIdx fun i b => (a + i, b)).reverse ++ s.writes }

/-- The byte at the home of a physical address; 0 where nothing backs it. -/
def homeByte (s : State) (pa : Nat) : Byte :=
  match loc s pa with | some a => byteAt s a | none => 0

def homeBytes (s : State) (pa n : Nat) : List Byte := (List.range n).map fun i => homeByte s (pa + i)

/-- An aligned little-endian word at its home. -/
def homeWord (s : State) (pa : Nat) : Word := BitVec.ofNat 64 (ofBytes (homeBytes s pa 8))

/-- Whether the line of an address is poisoned (R286). -/
def poisoned (s : State) (pa : Nat) : Bool :=
  match loc s pa with | some a => s.poison.contains (a / 128) | none => false

/-- Whether a frame, or the frame that stands for it, is held at its home agent (R289). -/
def frameHeld (s : State) (pa : Nat) : Bool :=
  isHbm pa && s.holds.any fun h => !h.kernel && (h.frame == pa / 65536 || h.frame == redirect s pa / 65536)

/-- Whether a context's read of a line is held: in a held frame, or its own request in the kernel region (R287,
R289). -/
def readHeld (s : State) (c pa : Nat) : Bool :=
  frameHeld s pa || (isHbm pa && s.holds.any fun h => h.kernel && h.c == c && h.line == pa / 128)

/-- Whether an address lies in a line a tile covers (R319). -/
def Tile.covers (t : Tile) (pa : Nat) : Bool :=
  let within (a n : Nat) : Bool := decide (0 < n) && decide (a / 128 ≤ pa / 128) && decide (pa / 128 ≤ (a + n - 1) / 128)
  within t.pa t.n || within t.spa t.sn

/-- ORs flags into a region's status (R148). -/
def regionFlags (s : State) (part : BitVec 8) (id : BitVec 16) (f : BitVec 6) : State :=
  if f = 0 then s
  else s.modPart part.toNat fun p => { p with
    regions := p.regions.map fun r => if r.id = id then { r with status := r.status ||| f } else r }

/-- A dirty tile is written back: its region's status takes the flags (R148). -/
def tileFlags (s : State) (t : Tile) : State := if t.dirty then regionFlags s t.part t.id t.flags else s

/-- A read of `n` bytes of home storage writes back the dirty tiles that cover a line of them (R319). -/
def tileRead (s : State) (pa n : Nat) : State :=
  let k := pa / 2 ^ 37
  let hit (t : Tile) : Bool := t.dirty && (linesOf pa n).any fun l => t.covers (l * 128)
  if !(s.base k).tiles.any hit then s
  else
    ((s.base k).tiles.filter hit).foldl tileFlags (s.modBase k fun b => { b with
      tiles := b.tiles.map fun t => if hit t then { t with dirty := false, flags := 0, undo := [] } else t })

/-- A write of a home line discards the tiles that cover it, the dirty ones written back first (R319). -/
def tileWrite (s : State) (pa : Nat) : State :=
  let k := pa / 2 ^ 37
  if !(s.base k).tiles.any (·.covers pa) then s
  else
    ((s.base k).tiles.filter (·.covers pa)).foldl tileFlags (s.modBase k fun b => { b with
      tiles := b.tiles.filter fun t => !t.covers pa })

/-- Words 0 and 1 of a frame's entry; zeros where the record is not installed (R428). -/
def entryAddr (s : State) (frame : Nat) : Nat :=
  let k := frame * 65536 / 2 ^ 37
  k * 2 ^ 37 + (s.base k).custBase + 16 * (frame * 65536 % 2 ^ 37 / 65536)

def entry0 (s : State) (frame : Nat) : Word :=
  if (s.base (frame * 65536 / 2 ^ 37)).custEn then homeWord s (entryAddr s frame) else 0
def entry1 (s : State) (frame : Nat) : Word :=
  if (s.base (frame * 65536 / 2 ^ 37)).custEn then homeWord s (entryAddr s frame + 8) else 0

def entState (w : Word) : Nat := (w.extractLsb' 60 4).toNat
def entPart (w : Word) : BitVec 8 := w.extractLsb' 52 8
def entVf (w : Word) : BitVec 4 := w.extractLsb' 48 4
def entOwner (w : Word) : Bool := w.getLsbD 47
def entGen (w : Word) : BitVec 16 := w.extractLsb' 16 16
def entLimit (w : Word) : BitVec 16 := w.extractLsb' 0 16

/-- The key in a partition's slot: the draw it came from, or the joint key (R446, R452). -/
def Partition.key (p : Partition) : Option Nat :=
  match p.slotKey with | some d => some d | none => p.jointKey.map fun k => 2 ^ 64 + k.toNat

/-- A page's counters after a write of its line `i` (R451). -/
def PageCtr.bump (c : PageCtr) (i : Nat) : PageCtr :=
  let n : BitVec 7 := Sparse.get 0 c.minor i
  if n = 127 then { major := (c.major + 1) % 2 ^ 64, minor := [(i, 1)] } else { c with minor := Sparse.set c.minor i (n + 1) }

/-- A line of HBM has been written: under the key of the partition its frame is assigned to, if that is protected, and
its counter counts (R451). -/
def sealLine (s : State) (line : Nat) : State :=
  let w := entry0 s (line / 512)
  let p := s.part (entPart w).toNat
  let key := if isHbm (line * 128) && decide (1 ≤ entState w ∧ entState w ≤ 4) && p.prot then p.key else none
  { s with
    seals := match key with | some k => Sparse.set s.seals line k | none => Sparse.drop s.seals line
    pages := if key.isSome then Sparse.set s.pages (line / 32) ((Sparse.get {} s.pages (line / 32) : PageCtr).bump (line % 32))
      else s.pages }

/-- Whether the tag of a line fails its check: the partition its frame is assigned to no longer has the key the line was
written under (R446, R451). -/
def sealBad (s : State) (pa : Nat) : Bool :=
  let w := entry0 s (pa / 65536)
  let p := s.part (entPart w).toNat
  isHbm pa && decide (1 ≤ entState w ∧ entState w ≤ 4) &&
    match s.seals.find? fun e => e.1 == pa / 128 with
    | some e => p.key != some e.2
    | none => p.prot && p.key.isNone

/-- The first of the lines at addresses `ls` whose tag fails, at its home's address. -/
def badLine (s : State) (ls : List Nat) : Option Nat := ls.find? (sealBad s)

/-- The addresses of the lines that `n` bytes at an address touch. -/
def lineAddrs (pa n : Nat) : List Nat := (linesOf pa n).map (· * 128)

/-- Writes one byte at its home and clears the granule's capability tag (R156); the caches hold its line no longer
(R275), and a store to a poisoned line is discarded (R286). -/
def homePoke (s : State) (pa : Nat) (b : Byte) : State :=
  match loc s pa with
  | some a =>
    let s := purge (tileWrite s pa) (pa / 128)
    if s.poison.contains (a / 128) then s else { poke s a b with ctags := s.ctags.erase (a / 16) }
  | none => s

/-- Writes bytes at their homes (R104, R105). -/
def homeStore (s : State) (pa : Nat) (bs : List Byte) : State :=
  let s := (bs.mapIdx fun i b => (pa + i, b)).foldl (fun s c => homePoke s c.1 c.2) s
  (linesOf pa bs.length).foldl sealLine s

def homeStoreWord (s : State) (pa : Nat) (w : Word) : State := homeStore s pa (toBytes 8 w.toNat)

/-- The capability tag of the granule of an address (R156). -/
def homeTag (s : State) (pa : Nat) : Bool :=
  match loc s pa with | some a => s.ctags.contains (a / 16) | none => false

/-- Sets a granule's tag after its bytes were written (R156). -/
def setHomeTag (s : State) (pa : Nat) (t : Bool) : State :=
  match loc s pa with
  | some a =>
    if s.poison.contains (a / 128) then s
    else { s with ctags := if t then insertNat s.ctags (a / 16) else s.ctags.erase (a / 16) }
  | none => s

/-- The die a physical address has its home on; that of CXL memory is the host die of its window's port (R15, R98, R270,
R460). -/
def homeDie (s : State) (pa : Nat) : Nat :=
  match region pa with
  | .hbm k _ => 16 + k
  | .scratch cl _ => cl / 64
  | .window d _ => d
  | .cxl => ((winAt s pa).map fun e => e.1).getD 32
  | _ => 32

/-- Whether memory at an address carries locks (R157). -/
def hasLock (pa : Nat) : Bool := match region pa with | .hbm _ _ | .cxl => true | _ => false

/-- The lock of the granule at its home; 0 where memory carries none (R157, R206). -/
def homeLock (s : State) (pa : Nat) : BitVec 4 :=
  if hasLock pa then match loc s pa with | some a => Sparse.get 0 s.locks (a / 32) | none => 0 else 0

/-- The partition of a core (R444); 0xFF for none or one that is not enabled. -/
def partOfCore (s : State) (k : Nat) : BitVec 8 :=
  let p := if coreDie k < 8 then Sparse.get 0xFF s.sec.pmap (coreDie k) else Sparse.get 0xFF s.sec.hcmap k
  if (s.part p.toNat).en then p else 0xFF

/-- The partition whose TAGSHADOW an identity reaches: at custodian level that of the core (R151, R444). -/
def shadowPart (s : State) (c : Nat) (i : Ident) : Nat :=
  if i.custodian then (partOfCore s (coreOf c)).toNat else i.part.toNat

/-- The copy of TAGSHADOW that an access of a context goes by: that of its die (R151, R159). -/
def shadowOf (s : State) (c : Nat) (i : Ident) : Word := Sparse.get 0 (s.die (dieOf c)).tagshadow (shadowPart s c i)

/-- The shadow byte's address of a granule under a TAGSHADOW (R159). -/
def shadowAddr (w : Word) (pa : Nat) : Nat :=
  w.toNat / 4096 * 4096 + (pa / 2 ^ 37 * stackBytes + pa % 2 ^ 37) / 32

/-- Writes a granule's lock, and the history while EN of the TAGSHADOW is 1 (R159, R206). -/
def setHomeLock (s : State) (w : Word) (pa : Nat) (l : BitVec 4) : State :=
  if hasLock pa then
    match loc s pa with
    | some a =>
      let old : BitVec 4 := Sparse.get 0 s.locks (a / 32)
      let s1 := { s with locks := if l = 0 then Sparse.drop s.locks (a / 32) else Sparse.set s.locks (a / 32) l }
      if s.poison.contains (a / 128) then s
      else if w.getLsbD 0 && old != l && isHbm pa then
        let h := shadowAddr w pa
        let b := homeByte s h
        homePoke s1 h (old ++ (b.extractLsb' 4 4))
      else s1
    | none => s
  else s

/-- Writes `n` zero bytes at their homes, touching only the bytes memory lists. -/
def zeroRange (s : State) (a n : Nat) : State :=
  let live := ((s.writes ++ s.mem).filter fun c => decide (a ≤ c.1) && decide (c.1 < a + n)).map (·.1)
  { s with writes := (live.map fun k => (k, (0 : Byte))) ++ s.writes
           ctags := s.ctags.filter fun t => !(decide (a ≤ t * 16) && decide (t * 16 < a + n))
           seals := s.seals.filter fun (e : Nat × Nat) => !(decide (a ≤ e.1 * 128) && decide (e.1 * 128 < a + n)) }

/-! Identities, partitions, the logical die table (R20, R22, R448). -/

def partNo (i : Ident) : Nat := i.part.toNat
/-- Key of a virtual function in a die's maps. -/
def vfKey (i : Ident) : Nat := i.part.toNat * 16 + i.vf.toNat

/-- Whether two identities are one world (R429). -/
def sameWorld (a b : Ident) : Bool := a.part == b.part && a.vf == b.vf && a.world == b.world

/-- Whether a die is a member of a partition (R444). -/
def dieInPart (s : State) (die part : Nat) : Bool :=
  if die < 8 then partOfCore s (die * 512) == BitVec.ofNat 8 part
  else if die < 10 then (coresOf die).any fun k => partOfCore s k == BitVec.ofNat 8 part
  else false

/-- Whether an LDT word is valid: V and a kind (R20). -/
def ldtValid (w : BitVec 32) : Bool := w.getLsbD 31 && decide ((w.extractLsb' 29 2).toNat < 2)

/-- The physical die of a logical one, and whether it is a host die (R20). -/
def physDie (s : State) (part l : Nat) : Option (Nat × Bool) :=
  if 32 ≤ l then none
  else
    let w : BitVec 32 := Sparse.get 0 (s.part part).ldt l
    if ldtValid w then some ((w.extractLsb' 0 5).toNat, w.getLsbD 29) else none

/-- The logical number of a physical die in a partition; 0 if it has none. -/
def logDie (s : State) (part die : Nat) : Nat :=
  ((List.range 32).find? fun l => match physDie s part l with | some d => d.1 == die | none => false).getD 0

/-- The core map of a virtual function on a die: its physical compute cores in logical order (R448). -/
def coreMap (s : State) (die : Nat) (i : Ident) : List Nat := Sparse.get [] (s.die die).cmap (vfKey i)

/-- The logical number of a compute core; the number itself for other cores (R448). -/
def logCore (s : State) (i : Ident) (k : Nat) : Nat :=
  if i.custodian || kindOfCore k != .compute then coreNo k
  else ((coreMap s (coreDie k) i).findIdx? (· == coreNo k)).getD 0x1FF

/-- A core word in the layout of R17, as the identity sees it. -/
def coreWord (s : State) (i : Ident) (k : Nat) : BitVec 21 :=
  BitVec.ofNat 21
    ((if i.custodian then coreDie k else logDie s (partNo i) (coreDie k)) * 65536 + logCore s i k)

/-- Whether a core is the odd core of a live pair, that of a monitor pair among them (R160, R288). -/
def oddOfPair (s : State) (k : Nat) : Bool :=
  (k % 2 == 1 && kindOfCore k == .compute && (s.core (k - 1)).bridle.isSome) || (kindOfCore k == .service && coreNo k == 263)

/-- The core a word names, or none where R22 raises cause 0x60. A custodian names physical dies and cores
(R16, R448). -/
def coreOfWord (s : State) (i : Ident) (w : Nat) : Option Nat :=
  let l := w / 65536 % 32
  let n := w % 512
  match (if i.custodian then (if l < 10 then some (l, decide (8 ≤ l)) else none) else physDie s (partNo i) l) with
  | none => none
  | some (d, host) =>
    if host then (if n < 32 then some (d * 512 + n) else none)
    else if 264 ≤ n then none
    else if 256 ≤ n then (if oddOfPair s (d * 512 + n) then none else some (d * 512 + n))
    else
      match (if i.custodian then some n else (coreMap s d i)[n]?) with
      | none => none
      | some m => if oddOfPair s (d * 512 + m) then none else some (d * 512 + m)

/-- The lowest-numbered logical host die of a partition, physical number. -/
def firstHostDie (s : State) (part : Nat) : Option Nat :=
  (List.range 32).findSome? fun l => match physDie s part l with | some (d, true) => some d | _ => none

/-- Every die of a partition, physical numbers. -/
def partDies (s : State) (part : Nat) : List Nat := (List.range 10).filter fun d => dieInPart s d part

/-! The custody record (R427 to R432). -/

/-- Whether a world has rights over an entry (R430). -/
def rights (w : Word) (i : Ident) : Bool :=
  let n := entState w
  decide (1 ≤ n ∧ n ≤ 4) && entPart w == i.part && entVf w == i.vf && (entOwner w == i.world || decide (3 ≤ n))

/-- The revocation under way on a frame (R436). -/
def revokeOf (s : State) (frame : Nat) : Option Revoke :=
  (s.base (frame * 65536 / 2 ^ 37)).revokes.find? fun r => r.frame == frame

/-- Whether a world has rights at the home agent of a line: those of the entry, and those of a losing world
before the line's revoke point (R432, R436). -/
def homeRights (s : State) (i : Ident) (pa : Nat) : Bool :=
  if i.custodian then true
  else
    match region pa with
    | .hbm k _ =>
      (s.base k).custEn &&
        (rights (entry0 s (pa / 65536)) i ||
          match revokeOf s (pa / 65536) with
          | some r =>
            !r.past.contains (pa % 65536 / 128) &&
              r.losers.any fun l => l.1 == i.part && l.2.1 == i.vf && l.2.2 == i.world
          | none => false)
    | _ => true

/-! Capabilities (R153, R154, R155). -/

/-- A capability's fields and bounds. -/
structure Cap where
  addr : Nat
  base : Nat
  len : Nat
  top : Nat
  e : Nat
  perm : BitVec 12
  styp : BitVec 4
  key : BitVec 4
  bad : Bool
deriving DecidableEq, Repr

/-- R154's decoding of a register at a cursor. -/
def capAt (bits : BitVec 128) (a : Nat) : Cap :=
  let e := (bits.extractLsb' 90 6).toNat
  let b := (bits.extractLsb' 77 13).toNat
  let tm := (bits.extractLsb' 64 13).toNat
  let m := a / 2 ^ e % 2 ^ 13
  let hi : Int := (a / 2 ^ (e + 13) : Nat) - (if m < b then 1 else 0)
  let base := ((hi * 2 ^ (e + 13) + b * 2 ^ e) % 2 ^ 64).toNat
  let len := (tm + 2 ^ 13 - b) % 2 ^ 13 * 2 ^ e
  { addr := a, base := base, len := len, top := base + len, e := e, perm := bits.extractLsb' 96 12
    styp := bits.extractLsb' 108 4, key := bits.extractLsb' 112 4
    bad := decide (51 < e) || bits.extractLsb' 116 12 != 0 || decide (2 ^ 64 < base + len) }

def Reg.cap (r : Reg) : Cap := capAt r.bits (r.bits.setWidth 64).toNat

/-- Permission bits (R81). -/
def permLd : BitVec 12 := 0x001
def permSt : BitVec 12 := 0x002
def permEx : BitVec 12 := 0x004
def permLdc : BitVec 12 := 0x008
def permStc : BitVec 12 := 0x010
def permSeal : BitVec 12 := 0x020
def permUnseal : BitVec 12 := 0x040
/-- Engine source, engine destination. -/
def permEsrc : BitVec 12 := 0x080
def permEdst : BitVec 12 := 0x100
def permRemote : BitVec 12 := 0x200
def permSys : BitVec 12 := 0x400
def permGlobal : BitVec 12 := 0x800

/-- Why an instruction did not go through. -/
inductive Halt where
  /-- It raises a precise trap. -/
  | trap (t : Trap)
  /-- Its context is blocked (R45, R253). -/
  | block (w : Wait)
  /-- Its context waits for a translation (R281). -/
  | walk (r : WalkReq)
  /-- It waits for older work of its own context. -/
  | stall
  /-- Its pair takes a checkpoint first (R161). -/
  | checkpoint
deriving DecidableEq, Repr

abbrev Res (α : Type) := Except Halt α

/-- Goes on when a condition holds. -/
def ask (b : Bool) (h : Halt) : Res Unit := if b then .ok () else .error h

def trapIf (b : Bool) (cause : BitVec 8) (val : Word := 0) (aux : Word := 0) : Res Unit :=
  if b then .error (.trap { cause := cause, val := val, aux := aux }) else .ok ()

/-- TRAPAUX of causes 0x04 to 0x08 (R151). -/
def capAux (perm : BitVec 12) (r : BitVec 6) : Word := BitVec.ofNat 64 (perm.toNat * 256 + r.toNat)

/-- Checks 1 to 5 of R155. -/
def capCheck (g : Reg) (r : BitVec 6) (perm : BitVec 12) (ea : Word) (n : Nat) : Res Cap := do
  let k := g.cap
  let aux := capAux perm r
  trapIf (!g.tag) 0x04 ea aux
  trapIf k.bad 0x08 ea aux
  trapIf (k.styp != 0) 0x07 ea aux
  trapIf (k.perm &&& perm != perm) 0x06 ea aux
  trapIf (!(decide (k.base ≤ ea.toNat) && decide (ea.toNat + n ≤ k.top))) 0x05 ea aux
  pure k

/-! Translation (R277 to R281). -/

/-- Whether a bit of a page-table entry is set. -/
def pteBit (e : Word) (n : Nat) : Bool := e.getLsbD n
/-- The PA field of an entry as an address. -/
def ptePa (e : Word) : Nat := (e.extractLsb' 12 40).toNat * 4096
/-- Memory type of an entry. -/
def pteMt (e : Word) : Nat := (e.extractLsb' 8 2).toNat

/-- Whether the group of 16 level-0 entries around entry `idx` of a table makes a 64 KiB page (R278). -/
def groupOk (s : State) (table idx : Nat) : Bool :=
  let first := idx / 16 * 16
  let e0 := homeWord s (table + first * 8)
  decide (ptePa e0 % 65536 = 0) &&
    (List.range 16).all fun j =>
      let e := homeWord s (table + (first + j) * 8)
      pteBit e 0 && pteBit e 1 && pteBit e 11 && ptePa e == ptePa e0 + j * 4096
        && e.extractLsb' 8 2 == e0.extractLsb' 8 2 && e.extractLsb' 2 4 == e0.extractLsb' 2 4

/-- Whether an entry with V breaks R278 at its level. -/
def pteBad (s : State) (table idx lvl : Nat) (e : Word) : Bool :=
  let leaf := pteBit e 1
  e.extractLsb' 52 12 != 0 || pteBit e 10 || (decide (0 < lvl) && pteBit e 11) || decide (pteMt e = 3)
    || (decide (3 ≤ lvl) && leaf) || (decide (lvl = 0) && !leaf)
    || (leaf && decide (0 < lvl) && decide (ptePa e % 2 ^ (12 + 9 * lvl) ≠ 0))
    || (decide (lvl = 0) && pteBit e 11 && !groupOk s table idx)

/-- The four bits TRAPAUX [11:8] and the access kind of a translation fault (R280). -/
def xlatAux (lvl kind : Nat) : Word := BitVec.ofNat 64 (lvl * 256 + kind)

/-- Whether an entry grants an access: `task` says task level; kinds as in R280. -/
def TlbEntry.grants (e : TlbEntry) (task : Bool) (kind : Nat) : Bool :=
  (if kind = 2 then e.x && (task || !e.u) else if kind = 0 ∨ kind = 3 then e.r else e.w) && (!task || e.u)

/-- Whether an access of a kind writes. -/
def kindWrites (kind : Nat) : Bool := kind == 1 || kind == 4

/-- Whether the world of a context may reach a physical address at all: R269, R279, R460. -/
def reachable (s : State) (i : Ident) (pa : Nat) : Bool :=
  match region pa with
  | .reserved => false
  | .hbm _ _ | .mmio => true
  | .scratch cl _ => i.custodian || dieInPart s (cl / 64) (partNo i)
  | .window d _ => i.custodian && (decide (d < 10) || d == 16) || (decide (d < 10) && dieInPart s d (partNo i))
  | .cxl =>
    [8, 9].any fun h =>
      (List.range 16).any fun j =>
        let w : CxlWin := Sparse.get {} (s.hio h).wins j
        w.a.getLsbD 63 && (i.custodian || w.a.extractLsb' 48 8 == i.part)
          && decide (2 ^ 49 + (w.a.extractLsb' 30 18).toNat * 2 ^ 30 ≤ pa)
          && decide (pa < 2 ^ 49 + ((w.a.extractLsb' 30 18).toNat + (w.a.extractLsb' 0 12).toNat) * 2 ^ 30)

/-- What a walk finds: the translation, the frames of tables it read with their levels, and the entries whose A
and D it sets. -/
structure Found where
  entry : TlbEntry
  tables : List (Nat × Nat)
  marks : List Nat
  lvl : Nat
deriving DecidableEq, Repr

/-- The walk below a table (R278, R279), before the custody check. -/
def walkAt (s : State) (i : Ident) (task : Bool) (va : Word) (kind : Nat) (seen : List (Nat × Nat)) :
    Nat → Nat → Except Trap Found
  | lvl, table =>
    let v := va.toNat % 2 ^ 57
    let idx := v / 2 ^ (12 + 9 * lvl) % 512
    let ea := table + idx * 8
    let e := homeWord s ea
    let seen := (table / 65536, lvl) :: seen
    let bad (cause : BitVec 8) : Except Trap Found := .error { cause := cause, val := va, aux := xlatAux lvl kind }
    if poisoned s ea then bad 0x22
    else if !pteBit e 0 then bad 0x20
    else if pteBad s table idx lvl e then bad 0x22
    else if pteBit e 1 then
      let size := if lvl = 0 then (if pteBit e 11 then 16 else 12) else 12 + 9 * lvl
      let pa := ptePa e / 2 ^ size * 2 ^ size
      let entry : TlbEntry :=
        { ident := i, vpn := v / 2 ^ size, size := size, pa := pa, r := pteBit e 2, w := pteBit e 3
          x := pteBit e 4, u := pteBit e 5, dirty := pteBit e 7 || kindWrites kind, mt := pteMt e }
      if !entry.grants task kind then bad 0x21
      else if !reachable s i (pa + v % 2 ^ size) then bad 0x23
      else
        .ok { entry := entry, tables := seen, lvl := lvl
              marks := if size = 16 then (List.range 16).map fun j => table + (idx / 16 * 16 + j) * 8 else [ea] }
    else
      match lvl with
      | 0 => bad 0x22
      | n + 1 => if isHbm (ptePa e) then walkAt s i task va kind seen n (ptePa e) else bad 0x22

/-- The root of a world (R277). -/
def rootOf (s : State) (i : Ident) : Word :=
  let v := s.vf (partNo i) i.vf.toNat
  if i.world then v.root1 else v.root0

/-- A failed custody check: the lowest failing frame, its level and its STATE (R431). -/
def custodyFail (s : State) (i : Ident) (f : Found) : Option (Nat × Nat × Nat) :=
  let leaf :=
    if isHbm f.entry.pa then
      (List.range (max 1 (2 ^ f.entry.size / 65536))).map fun j => (f.entry.pa / 65536 + j, f.lvl)
    else []
  let failing := (f.tables ++ leaf).filter fun e => !rights (entry0 s e.1) i
  let low := failing.foldl (fun (m : Option (Nat × Nat)) e =>
    match m with | some x => if e.1 < x.1 then some e else some x | none => some e) none
  low.map fun e => (e.1, e.2, entState (entry0 s e.1))

/-- A whole walk (R277 to R279, R431). -/
def walk (s : State) (i : Ident) (task : Bool) (va : Word) (kind : Nat) : Except Trap Found :=
  let root := rootOf s i
  let t (cause : BitVec 8) (aux : Word) : Except Trap Found := .error { cause := cause, val := va, aux := aux }
  if !root.getLsbD 0 then t 0x20 (xlatAux 0xF kind)
  else if !isHbm (ptePa root) then t 0x22 (xlatAux 4 kind)
  else
    match walkAt s i task va kind [] 4 (ptePa root) with
    | .error e => .error e
    | .ok f =>
      match custodyFail s i f with
      | none => .ok f
      | some (frame, lvl, st) =>
        t 0x40 (BitVec.ofNat 64 (st * 2 ^ 60 + frame * 65536 + lvl * 256 + kind))

/-- The entries a walk below a table reads. -/
def walkEntries (s : State) (va : Word) : Nat → Nat → List Nat
  | lvl, table =>
    let a := table + va.toNat % 2 ^ 57 / 2 ^ (12 + 9 * lvl) % 512 * 8
    let e := homeWord s a
    match lvl with
    | 0 => [a]
    | n + 1 => a :: (if pteBit e 0 && !pteBit e 1 && !poisoned s a then walkEntries s va n (ptePa e) else [])

/-- The entries a walk of a world reads. -/
def walkOf (s : State) (i : Ident) (va : Word) : List Nat := walkEntries s va 4 (ptePa (rootOf s i))

/-- A walk's reads of its tables, as their homes take them (R319). -/
def walkReads (s : State) (i : Ident) (va : Word) : State := (walkOf s i va).foldl (fun s a => tileRead s a 8) s

/-- Sets A, and D for a write, in the entries of a leaf (R279). -/
def markLeaf (s : State) (f : Found) (kind : Nat) : State :=
  f.marks.foldl (fun s a =>
    homeStoreWord s a (homeWord s a ||| (if kindWrites kind then 0xC0 else 0x40))) s

/-- Whether a cached translation holds an address of a world. -/
def TlbEntry.holds (e : TlbEntry) (i : Ident) (va : Word) : Bool :=
  sameWorld e.ident i && e.vpn == va.toNat % 2 ^ 57 / 2 ^ e.size

/-- The cached translation that decides an access, if one does (R281). -/
def tlbHit (s : State) (c : Nat) (va : Word) (kind : Nat) : Option TlbEntry :=
  let x := s.ctx c
  (s.clu (clusterOf c)).tlb.find? fun e =>
    e.holds x.ident va && e.grants (x.level == .task) kind && (!kindWrites kind || e.dirty)

/-- Whether bits [63:57] copy bit 56 (R278). -/
def canonical (va : Word) : Bool :=
  let h := va.extractLsb' 56 8
  h == 0 || h == BitVec.allOnes 8

/-- The physical address of an access and whether its page is volatile; at custodian level the address itself
(R277). An address of a large page that its world may not reach raises cause 0x23 on every access (R269, R279). -/
def translate (s : State) (c : Nat) (va : Word) (kind : Nat) : Res (Nat × Bool) := do
  let x := s.ctx c
  if x.ident.custodian then
    trapIf (!reachable s x.ident va.toNat) 0x23 va (xlatAux 0xF kind)
    pure (va.toNat, false)
  else
    trapIf (!canonical va) 0x23 va (xlatAux 0xF kind)
    match tlbHit s c va kind with
    | some e =>
      let pa := e.pa + va.toNat % 2 ^ 57 % 2 ^ e.size
      trapIf (!reachable s x.ident pa) 0x23 va (xlatAux 0xF kind)
      pure (pa, e.mt == 2)
    | none => .error (.walk { va := va, kind := kind })

/-- The memory type of the page an access has been translated through (R278); at custodian level none. -/
def memType (s : State) (c : Nat) (va : Word) (kind : Nat) : Nat :=
  if (s.ctx c).ident.custodian then 0 else ((tlbHit s c va kind).map (·.mt)).getD 0

/-- The registers a control window holds (R271, R443, R466, R476, R478 and the offsets of R459 to R464);
`lead` says the die is logical die 0 of its partition. -/
def windowListed (die off : Nat) (lead : Bool) : Bool :=
  let within (lo hi : Nat) : Bool := decide (lo ≤ off ∧ off < hi)
  if die = 16 then
    within 0 0x80 || within 0x100 0x218 || within 0x300 0x350 || within 0x400 0x480 || within 0x500 0x540
      || within 0x800 0x1000
  else if die < 10 then
    within 0 0x90 || within 0x1000 0x1108 || within 0x1200 0x1380 || within 0x2000 0x2100 || within 0x3000 0x3020
      || within 0x5400 0x5408
      || (decide (die < 8) && (within 0x6000 0x8000 || (lead &&
          (within 0x5000 0x5188 || within 0x5200 0x5218 || (within 0x5300 0x5400 && decide (off % 32 < 24))))))
      || (decide (8 ≤ die) && (within 0x4000 0x4010 || within 0x4100 0x4280 || within 0x4400 0x4410
          || within 0x4800 0x5000))
      || (die == 8 && (within 0x5800 0x5830 || within 0x5A00 0x5AC0))
  else false

/-- The lead die of the partition of a die (R466). -/
def isLead (s : State) (die : Nat) : Bool :=
  let p := (partOfCore s (die * 512)).toNat
  (s.part p).en && (match physDie s p 0 with | some d => d.1 == die | none => false)

/-- What a place in the map asks of an access: aligned 8-byte register accesses in a window (R271), a backed
scratch offset (R272). -/
def placeCheck (s : State) (ea : Word) (pa n : Nat) (kind : Nat) (plain : Bool) : Res Unit :=
  match region pa with
  | .window d off => do
    trapIf (!(plain && n == 8 && decide (ea.toNat % 8 = 0))) 0x0E ea
    trapIf (!windowListed d off (isLead s d)) 0x23 ea (xlatAux 0xF kind)
  | .scratch cl off => trapIf ((scratchLoc s cl (off + n - 1)).isNone) 0x24 ea (xlatAux 0xF kind)
  | _ => .ok ()

/-! Event counters (R152) and trace records (R470). -/

def countEvent (s : State) (k : Nat) (code n : Nat) : State :=
  let x := s.core k
  if x.evsel = 0 then s
  else
    s.setCore k { x with
      evc := (List.range 4).foldl (fun m j =>
        if (x.evsel.extractLsb' (8 * j) 8).toNat = code then Sparse.set m j (min (Sparse.get 0 m j + n) (2 ^ 48 - 1))
        else m) x.evc }

/-- Hands a record to a partition's arbiter, if its kind is enabled (R469, R470). -/
def traceEvent (s : State) (part kind code core : Nat) (gti value : Word) : State :=
  let p := s.part part
  if p.trcctl.getLsbD 63 && p.trcctl.getLsbD kind then
    s.modPart part fun p => { p with
      trace := p.trace ++ [{ time := s.time.toNat % 2 ^ 48, kind := kind, code := code, core := core, gti := gti, value := value }] }
  else s

def gtiOf (x : Context) : Word := match x.task with | some t => t.gti | none => 0

/-! Taking an exception and returning from one (R227 to R234, R220, R242). -/

/-- The context stops at custodian level and its die reports it (R230, R478). -/
def stopAtCustodian (s : State) (c : Nat) : State :=
  let x := s.ctx c
  let s := s.setCtx c { x with run := .stopped }
  s.modCtl (dieOf c) fun d => { d with state := 2, stoppc := x.pc.setWidth 56 }

/-- The claim on a task, by its partition and virtual function (R468). -/
def claimOf (s : State) (x : Context) : Option Claim :=
  match x.task with
  | none => none
  | some t =>
    ((s.part (partNo x.ident)).claims.find? fun e =>
      e.2.b.getLsbD 63 && e.2.gti == t.gti && e.2.vf == x.ident.vf).map (·.2)

/-- Puts a word that a context's instruction took back where it stood; a word that has come into its mailbox since is
on its way again (R47, R48). -/
def putOne (c : Nat) (s : State) (e : Src × MsgWord) : State :=
  let k := s.core (coreOf c)
  match e.1 with
  | .g _ => s
  | .q i => s.setCore (coreOf c) { k with queues := Sparse.set k.queues i.toNat (e.2.w :: Sparse.get [] k.queues i.toNat) }
  | .n i => s.setCore (coreOf c) { k with ports := Sparse.set k.ports i.toNat (e.2.w :: Sparse.get [] k.ports i.toNat) }
  | .m i =>
    let t := s.setCore (coreOf c) { k with mbox := Sparse.set k.mbox i.toNat (some e.2) }
    match Sparse.get none k.mbox i.toNat with
    | none => t
    | some v =>
      let (n, t) := t.new
      { t with net := (n, .word (coreOf c) (.mbx i.toNat) v c 0 (s.ctx c).ident true false) :: t.net }

/-- An instruction that waits is abandoned: the words it took are where they were before it issued (R47). -/
def giveBack (s : State) (c : Nat) : State :=
  match (s.ctx c).held with
  | none => s
  | some l => l.reverse.foldl (putOne c) (s.modCtx c fun x => { x with held := none })

/-- An unresolved branch is given up: what was issued past it is discarded, and the context stands at the branch again
(R102). -/
def squash (s : State) (c : Nat) : State :=
  match (s.ctx c).spec with
  | none => s
  | some p => s.modCtx c fun x =>
    { p.olds.foldl (fun (x : Context) e => x.setReg e.1 e.2) x with
      pc := p.pc, spec := none, lob := x.lob.filter fun e => decide (e.id < p.id) }

/-- Takes a trap at a context: the saved registers, the level and the entry as R230 to R232 say, the pc of the
context being TRAPPC. On a compute core the context starts its switch-out, which satisfies a request to stop it
(R238), and a debug stop of a claimed task starts one on any core (R468). -/
def takeTrap (s : State) (c : Nat) (t : Trap) : State :=
  let s := giveBack (squash s c) c
  let x := s.ctx c
  let regs : TrapRegs := { cause := t.cause, val := t.val, pc := x.pc, aux := t.aux }
  let s := countEvent s (coreOf c) 7 1
  let s := if t.cause = 0x0F then traceEvent s (partNo x.ident) 4 0x0F (coreWord s x.ident (coreOf c)).toNat (gtiOf x) t.val else s
  let x := { x with walk := none, sent := false, reply := none, oflags := 0, mheld := false }
  if x.level = .task ∧ t.cause = 0x0F ∧ (claimOf s x).isSome then
    s.setCtx c { x with ktrap := regs, request := none, run := .leaving 3 }
  else if kindOf c = .compute then
    s.setCtx c { x with ktrap := regs, run := .leaving 1 }
  else
    match x.level with
    | .task =>
      let e := Sparse.get 0 (s.die (dieOf c)).kentry x.ident.vf.toNat
      let y := { x with ktrap := regs, level := .kernel, pc := e, run := .running }
      if e = 0 then stopAtCustodian (s.setCtx c { y with pc := regs.pc }) c else s.setCtx c y
    | .kernel =>
      let e := (s.die (dieOf c)).centry
      let y := { x with ctrap := regs, level := .custodian, pc := e, run := .running, ident := { x.ident with custodian := true } }
      if e = 0 then stopAtCustodian (s.setCtx c { y with pc := regs.pc }) c else s.setCtx c y
    | .custodian => stopAtCustodian s c

/-- Enters the custodian in place on a context that abandons what it ran (R232, R288, R454). -/
def enterCustodian (s : State) (c : Nat) (t : Trap) : State :=
  let x := s.ctx c
  let e := (s.die (dieOf c)).centry
  let y : Context :=
    { x with
      ctrap := { cause := t.cause, val := t.val, pc := x.pc, aux := t.aux }, level := .custodian, pc := e
      run := .running, ident := { x.ident with custodian := true, part := partOfCore s (coreOf c) }
      walk := none, sent := false, reply := none, mheld := false }
  let s := countEvent s (coreOf c) 7 1
  if e = 0 then stopAtCustodian (s.setCtx c { y with pc := x.pc }) c else s.setCtx c y

/-- Charges a serving context's time against the credit of the virtual function it serves (R267). -/
def charge (s : State) (c : Nat) : State :=
  match (s.ctx c).served with
  | none => s
  | some (t0, die, v) =>
    let s := s.modDie die fun d => { d with
      credit := Sparse.set d.credit v (Sparse.get 0 d.credit v - ((s.time.toNat - t0) * 64 : Nat)) }
    s.modCtx c fun x => { x with served := none }

/-- The code of a level (R150). -/
def Level.code : Level → Nat | .task => 0 | .kernel => 1 | .custodian => 2

/-- Puts a trap into the list of those pending; the lowest cause comes first, equal causes by TRAPVAL (R212, R229). -/
def insertTrap (l : List Trap) (t : Trap) : List Trap :=
  let first (u : Trap) : Bool := decide (u.cause.toNat < t.cause.toNat ∨ (u.cause = t.cause ∧ u.val.toNat ≤ t.val.toNat))
  l.takeWhile first ++ [t] ++ l.dropWhile first

/-- Returns to a lower level at an address, where the traps that were pending at that level are so again (R229); a context that leaves the custodian runs as its core's partition
(R220, R444). -/
def returnTo (s : State) (c : Nat) (kern : Bool) (pc : Word) : State :=
  (charge s c).modCtx c fun x => { x with
    pc := pc, level := if kern then .kernel else .task, run := .running
    pend := (x.later.filter fun e => (if kern then Level.kernel else .task).code ≤ e.1.code).foldl (fun l e => insertTrap l e.2) x.pend
    later := x.later.filter fun e => e.1.code < (if kern then Level.kernel else .task).code
    ident :=
      if x.ident.custodian then
        let p := partOfCore s (coreOf c)
        { custodian := false, part := p, vf := x.ident.vf, gen := (s.vf p.toNat x.ident.vf.toNat).gen
          world := kindOf c != .host }
      else x.ident }

/-- Sets bit 4 of the event latch; a halted context resumes, which clears the bit (R222, R223). -/
def interrupt (s : State) (c : Nat) : State :=
  s.modCtx c fun x =>
    if x.run = .halted then { x with run := .running, latch := x.latch &&& 0x0F } else { x with latch := x.latch ||| 0x10 }

/-- Makes an asynchronous trap pending, which interrupts the context (R222, R227). -/
def pendTrap (s : State) (c : Nat) (t : Trap) : State :=
  interrupt (s.modCtx c fun x => { x with pend := insertTrap x.pend t }) c

/-- The pc moves past the instruction, which has retired (R5, R152, R474). -/
def retireAt (s : State) (c : Nat) (pc : Word) : State :=
  let s := s.modCtx c fun x => { x with
    pc := pc, run := .running, sent := false, reply := none, mheld := false
    task := x.task.map fun t => { t with ord := t.ord + 1, exempt := none } }
  let s := countEvent (countEvent s (coreOf c) 1 1) (coreOf c) 2 1
  if (s.core (coreOf c)).bridle.isSome then s.modCore (coreOf c) fun k => { k with since := k.since + 1 } else s

def retire (s : State) (c : Nat) : State := retireAt s c ((s.ctx c).pc + 12)

/-- A context becomes blocked; one that was blocked already keeps the time it blocked (R46, R253). -/
def blockOn (s : State) (c : Nat) (w : Wait) : State :=
  (charge s c).modCtx c fun x => { x with
    mheld := false
    run := match x.run with
      | .blocked v t => if v = w then .blocked v t else .blocked w s.time.toNat
      | _ => .blocked w s.time.toNat }

/-- Whether every older instruction of a context has completed, as a precise trap asks (R227): no load waits to
perform and no vector instruction waits in its queue. -/
def Context.quiet (x : Context) : Bool :=
  x.vq.isEmpty && x.lob.all fun e => match e.op with | .load .. => false | _ => true

/-- Whether everything older has completed, its matrix instructions included (R227, R393). -/
def settled (s : State) (c : Nat) : Bool :=
  (s.ctx c).quiet && (s.core (coreOf c)).matrix.queue.all fun e => e.c != c

/-- What becomes of a context whose instruction did not go through. -/
def settle (s : State) (c : Nat) : Halt → State
  | .trap t => if settled s c then takeTrap s c t else s
  | .block w => blockOn s c w
  | .walk r => blockOn (s.modCtx c fun x => { x with walk := some r }) c .walk
  | .stall => s
  | .checkpoint => s

end Sys2Proof.Machine
end

