-- ==== Sys2Proof/Machine/Flags.lean ====
section
/-! DEFINITION. The flags word (R134): its bits and how an instruction raises them (R135, R136). Integer
instructions raise no flag (R169). -/

namespace Sys2Proof.Machine

/-- A flags word (R134). -/
abbrev FpFlags := BitVec 6

def flagNX : FpFlags := 0x01
def flagUF : FpFlags := 0x02
def flagOF : FpFlags := 0x04
def flagDZ : FpFlags := 0x08
def flagNV : FpFlags := 0x10
def flagIE : FpFlags := 0x20

/-- A flag, if a condition holds. -/
def flagIf (b : Bool) (f : FpFlags) : FpFlags := if b then f else 0

/-- ORs flags into a context's FLAGS, and into the flag register of its compute cluster (R135, R136). -/
def raiseFlags (s : State) (c : Nat) (f : FpFlags) : State :=
  if f = 0 then s
  else
    let s := s.modCtx c fun x => { x with flags := x.flags ||| f }
    if kindOf c = .compute then
      s.modDie (dieOf c) fun d => { d with
        clflags := Sparse.set d.clflags (clusterOf c % 64) (Sparse.get 0 d.clflags (clusterOf c % 64) ||| f) }
    else s

end Sys2Proof.Machine
end

