-- ==== Sys2Proof/Machine/Lob.lean ====
section
/-! DEFINITION. The ordering machine (R97 to R120): which entry of a local order buffer may go, what a load
reads, and how entries join the buffer. -/

namespace Sys2Proof.Machine

/-- Whether a scope reaches at least another. -/
def covers (a b : Scope) : Bool := decide (b.code.toNat ≤ a.code.toNat)

/-- Bytes of an atomic's operand (R296). -/
def amoBytes (t : AmoTy) : Nat := match t with | .i64 | .n64 => 8 | _ => 4

/-- Byte ranges an entry touches. -/
def LobOp.foot (posts : Sparse JEntry) : LobOp → List (Nat × Nat)
  | .load acc (.lock _) => acc.map fun _ => (0, 0)
  | .load acc _ => acc.map fun a => (a.pa, a.n)
  | .store d _ _ _ => d.map fun e => (e.1.pa, e.2.length)
  | .post j => let e := Sparse.get {} posts j; [(e.acc.pa, e.acc.n)]
  | .atomic r => [(r.pa, amoBytes r.ty)]
  | _ => []

/-- Lock granules an entry reads or writes (R158). -/
def LobOp.granules : LobOp → List Nat
  | .load acc (.lock _) => acc.map fun a => a.pa / 32
  | .store d _ (some _) _ => d.map fun e => e.1.pa / 32
  | _ => []

/-- Whether two lists of ranges share a byte. -/
def meets (a b : List (Nat × Nat)) : Bool :=
  a.any fun x => b.any fun y => decide (x.1 < y.1 + y.2) && decide (y.1 < x.1 + x.2)

def meetsAt (a b : List Nat) : Bool := a.any fun x => b.contains x

/-- Whether accesses at an address go through the context's cluster store queue: not uncached space and not
another cluster's scratchpad (R104). -/
def queued (c pa : Nat) : Bool :=
  match region pa with
  | .scratch cl _ => cl == clusterOf c
  | .window _ _ | .mmio => false
  | _ => true


def LobOp.isLoad : LobOp → Bool | .load .. => true | _ => false
def LobOp.isStore : LobOp → Bool | .store .. => true | _ => false
/-- What leaves the core: stores, atomics and sends (R101, R102). -/
def LobOp.leaves : LobOp → Bool
  | .store .. | .post _ | .atomic _ | .signal _ | .cmd .. => true
  | _ => false
def LobOp.isAccess : LobOp → Bool
  | .load .. | .store .. | .post _ | .atomic _ => true
  | _ => false
/-- Whether an access reaches uncached or memory-mapped space: by its page or by its address (R104, R278). -/
def Acc.bypasses (a : Acc) : Bool := a.uncached || isUncached a.pa
def LobOp.uncached (posts : Sparse JEntry) : LobOp → Bool
  | .load acc _ => acc.any Acc.bypasses
  | .store d _ _ _ => d.any fun e => e.1.bypasses
  | .post j => (Sparse.get {} posts j : JEntry).acc.bypasses
  | _ => false

/-- Whether everything a load or store touches goes through the store queue (R104). -/
def LobOp.queued (c : Nat) (o : LobOp) : Bool := ((o.foot []).all fun r => Machine.queued c r.1) && !o.uncached []

/-- Whether an atomic is an acquire. -/
def LobOp.acquires : LobOp → Bool | .atomic r => r.acq | _ => false

/-- Whether an older entry still in the buffer holds back a younger one under R101, R104 and R453. A load may
pass an older store of its own context to a common location once the store's value is known, and then takes its
value from it (R103). An acquire fence waits until what an older load read from the store queue has drained, if its
scope asks for that (R108, R109). -/
def holdsBack (c : Nat) (posts : Sparse JEntry) (o y : LobEntry) : Bool :=
  match o.op with
  | .fence .acq _ | .fence .full _ => true
  | .fence .rel _ => y.op.leaves
  | .unverified _ => y.op.leaves
  | .readSibling .. => match y.op with | .fence .acq sc => covers sc .die | _ => false
  | a =>
    a.acquires
      || (a.isAccess && y.op.isAccess && (meets (a.foot posts) (y.op.foot posts) || meetsAt a.granules y.op.granules)
        && !(a.isStore && o.wait.isNone && y.op.isLoad && a.queued c && y.op.queued c))
      || (a.uncached posts && y.op.uncached posts)
      || (a.isLoad && (match y.op with | .fence .acq _ => true | _ => false))

/-- Whether a world's lines carry tags that are checked after a line has been forwarded (R451, R453). -/
def guarded (s : State) (i : Ident) : Bool := (s.part (partNo i)).prot && !i.custodian

/-- Whether an older load of a context has yet to be performed in protected memory, or to be verified (R453). -/
def unproven (s : State) (c id : Nat) : Bool :=
  (s.ctx c).lob.any fun o => decide (o.id < id) && match o.op with
    | .unverified _ => true
    | .load acc _ => guarded s o.ident && acc.any fun a => isHbm a.pa
    | _ => false

/-- Whether an entry still in the buffer is complete at a scope (R108); `out` says it has left the gated buffer
of a pair. -/
def LobOp.completeAt (sc : Scope) (gated : Bool) : LobOp → Bool
  | .readSibling .. => !covers sc .die
  | .unverified _ => true
  | .store .. => gated && sc == .ctx
  | _ => false

/-- The first order-buffer number of a context that may not leave its pair before the next checkpoint (R161). -/
def gate (s : State) (c : Nat) : Option Nat :=
  match (s.core (coreOf c)).bridle with
  | none => none
  | some b => some (((b.ckpt.find? fun r => r.c == c).map (·.next)).getD 0)

/-- Whether something older than entry `id` of a context is incomplete at a scope (R108). -/
def outstanding (s : State) (c id : Nat) (sc : Scope) : Bool :=
  let x := s.ctx c
  x.lob.any (fun o => decide (o.id < id) &&
      !o.op.completeAt sc (match gate s c with | some g => decide (g ≤ o.id) | none => false))
    || (covers sc .die && (s.clu (clusterOf c)).csq.any fun e => e.c == c && decide (e.lid < id))
    || x.atoms.any (fun a => match a with | .inl r => !r.performed && decide (r.lid < id) | .inr _ => false)
    || (covers sc .part && (s.core (coreOf c)).journal.any fun e =>
          e.2.state == 1 && e.2.c == c && decide (e.2.lid < id))
    || (sc == .sys && [8, 9].any fun h => (s.hio h).wins.any fun w =>
          w.2.unacked.any fun u => u.1 == c && decide (u.2 < id))

/-- Whether an older access of the context that has left the buffer for its home still holds back an access
(R104, R111) or, as an acquire, anything (R101). -/
def awaited (s : State) (c : Nat) (y : LobEntry) : Bool :=
  let x := s.ctx c
  let k := s.core (coreOf c)
  let foot := y.op.foot k.journal
  x.atoms.any (fun a => match a with
      | .inl r => !r.performed && decide (r.lid < y.id) && (r.acq || meets [(r.pa, amoBytes r.ty)] foot)
      | .inr _ => false)
    || (y.op.isAccess && k.journal.any fun e =>
          e.2.state == 1 && e.2.c == c && decide (e.2.lid < y.id)
            && (meets [(e.2.acc.pa, e.2.acc.n)] foot || (e.2.acc.bypasses && y.op.uncached k.journal)))

/-- Whether an older store of the context to a common location has not drained: an atomic waits for it (R111), and so
does what bypasses the queue, which would overtake it (R101, R104). -/
def undrained (s : State) (c : Nat) (foot : List (Nat × Nat)) : Bool :=
  (s.clu (clusterOf c)).csq.any fun e => e.c == c && meets (e.data.map fun d => (d.1.pa, d.2.length)) foot

/-- Whether an entry may perform, enqueue, send or complete (R101, R102, R104, R109, R111, R113, R161). -/
def mayGo (s : State) (c : Nat) (y : LobEntry) : Bool :=
  let x := s.ctx c
  let posts := (s.core (coreOf c)).journal
  x.lob.all (fun o => decide (y.id ≤ o.id) || !holdsBack c posts o y)
    && !awaited s c y
    && y.wait.isNone
    && !(y.op.leaves && unproven s c y.id)
    && (!y.op.leaves || (match gate s c with | some g => decide (y.id < g) | none => true))
    && (match y.op with
        | .cmd .. | .signal _ => !outstanding s c y.id .part
        | .fence .rel sc | .fence .full sc => !outstanding s c y.id sc
        | .atomic r => !undrained s c (y.op.foot posts) && (match r.rel with | some sc => !outstanding s c y.id sc | none => true)
        | .post _ => !undrained s c (y.op.foot posts)
        | .load .. | .store .. => y.op.queued c || !undrained s c (y.op.foot posts)
        | _ => true)

/-- The entry of a context with a number. -/
def lobAt (s : State) (c id : Nat) : Option LobEntry := (s.ctx c).lob.find? fun e => e.id == id

/-- Takes an entry out of the buffer. -/
def lobDrop (s : State) (c id : Nat) : State :=
  s.modCtx c fun x => { x with lob := x.lob.filter fun e => e.id != id }

/-- Marks of the store-queue entries that the lock checks of some accesses have read (R108, R158). -/
def checkMarks (cl : Nat) (as : List Acc) : List LobOp := ((as.flatMap (·.sib)).eraseDups).map (.readSibling cl)

/-- What joins the buffer with an entry: the marks of its lock checks, and the entry. -/
def LobOp.withMarks (cl : Nat) (o : LobOp) : List LobOp :=
  (match o with
    | .load as _ => checkMarks cl as
    | .store d _ _ _ => checkMarks cl (d.map (·.1))
    | .cmd (.vst l) _ => checkMarks cl (l.map (·.1))
    | _ => []) ++ [o]

/-- Entries join the tail of the buffer (R100); `wait`: a store's register that is not yet known. -/
def lobAppend (s : State) (c : Nat) (ops : List LobOp) (wait : Option (BitVec 6) := none) : State :=
  s.modCtx c fun x => { x with
    lob := x.lob ++ ops.mapIdx fun n op => { id := x.nextId + n, op := op, ident := x.ident, wait := if op.isStore then wait else none }
    nextId := x.nextId + ops.length }

/-- An entry joins the tail of the buffer (R100). -/
def lobPush (s : State) (c : Nat) (op : LobOp) : State := lobAppend s c (op.withMarks (clusterOf c))

/-- The byte a store's accesses hold for an address, the last one in order. -/
def storeByte (d : List (Acc × List Byte)) (pa : Nat) : Option Byte :=
  d.foldl (fun r e => if e.1.pa ≤ pa ∧ pa < e.1.pa + e.2.length then e.2[pa - e.1.pa]? else r) none

/-- The youngest older store of the context to a byte (R103 source 1). -/
def fromLob (x : Context) (id pa : Nat) : Option Byte :=
  x.lob.foldl (fun r e =>
    match e.op with
    | .store d _ _ _ => if e.id < id then (match storeByte d pa with | some b => some b | none => r) else r
    | _ => r) none

/-- The youngest queue entry for a byte, with its number (R103 source 2). -/
def fromCsq (k : Cluster) (pa : Nat) : Option (Byte × Nat) :=
  k.csq.foldl (fun r e => match storeByte e.data pa with | some b => some (b, e.id) | none => r) none

/-- The value a load of a byte takes (R103). -/
def loadByte (s : State) (c id pa : Nat) : Byte :=
  if queued c pa then
    match fromLob (s.ctx c) id pa with
    | some b => b
    | none =>
      match fromCsq (s.clu (clusterOf c)) pa with
      | some b => b.1
      | none => homeByte s pa
  else homeByte s pa

def loadBytes (s : State) (c id pa n : Nat) : List Byte := (List.range n).map fun i => loadByte s c id (pa + i)

/-- The bytes, the tag and the lock an access takes: through an uncached page its homes give them, and there is no
lock (R104, R157). -/
def accBytes (s : State) (c id : Nat) (a : Acc) : List Byte :=
  if a.uncached then (List.range a.n).map fun i => homeByte s (a.pa + i) else loadBytes s c id a.pa a.n

/-- The queue entries a load read from (R108). -/
def siblings (s : State) (c id pa n : Nat) : List Nat :=
  (List.range n).filterMap fun i =>
    if queued c (pa + i) && (fromLob (s.ctx c) id (pa + i)).isNone then
      (fromCsq (s.clu (clusterOf c)) (pa + i)).map (·.2)
    else none

/-- The capability tag a load takes with its 16 bytes (R103, R156, R205). -/
def loadTag (s : State) (c id pa : Nat) : Bool :=
  let touch (d : List (Acc × List Byte)) : Bool := meets (d.map fun e => (e.1.pa, e.2.length)) [(pa, 16)]
  let own := (s.ctx c).lob.foldl (fun r e =>
    match e.op with
    | .store d t _ _ => if e.id < id ∧ touch d then some (t == some true) else r
    | _ => r) none
  let csq := (s.clu (clusterOf c)).csq.foldl (fun r e =>
    if touch e.data then some (e.tag == some true) else r) none
  if queued c pa then
    match own with
    | some t => t
    | none => match csq with | some t => t | none => homeTag s pa
  else homeTag s pa

/-- The lock a load or a check takes (R158). -/
def loadLock (s : State) (c id pa : Nat) : BitVec 4 :=
  let at' (d : List (Acc × List Byte)) : Bool := d.any fun e => e.1.pa / 32 == pa / 32
  let own := (s.ctx c).lob.foldl (fun r e =>
    match e.op with
    | .store d _ (some l) _ => if e.id < id ∧ at' d then some l else r
    | _ => r) none
  let csq := (s.clu (clusterOf c)).csq.foldl (fun r e =>
    match e.lock with | some l => if at' e.data then some l else r | none => r) none
  if !hasLock pa then 0
  else
    match own with
    | some l => l
    | none => match csq with | some l => l | none => homeLock s pa

/-- The store-queue entries that give the locks of `n` bytes at an address (R108, R158). -/
def lockSiblings (s : State) (c id pa n : Nat) : List Nat :=
  (List.range ((pa % 32 + n + 31) / 32)).filterMap fun j =>
    let g := (pa / 32 + j) * 32
    let at' (d : List (Acc × List Byte)) : Bool := d.any fun e => e.1.pa / 32 == g / 32
    let own := (s.ctx c).lob.any fun e => match e.op with
      | .store d _ (some _) _ => decide (e.id < id) && at' d
      | _ => false
    if hasLock g && !own then
      (((s.clu (clusterOf c)).csq.filter fun e => e.lock.isSome && at' e.data).getLast?).map (·.id)
    else none

def accTag (s : State) (c id : Nat) (a : Acc) : Bool := if a.uncached then homeTag s a.pa else loadTag s c id a.pa

def accLock (s : State) (c id : Nat) (a : Acc) : BitVec 4 := if a.uncached then 0 else loadLock s c id a.pa

/-- Whether general register `i` waits for a load or a queued vector instruction. -/
def Context.pendG (x : Context) (i : BitVec 6) : Bool :=
  i != 0 &&
    (x.lob.any (fun e => match e.op with
        | .load _ (.scalar d _) | .load _ (.cap d _) | .load _ (.lock d) => d == i
        | _ => false)
      || x.vq.any fun q => q.gen.any fun g => g.1 == i)

/-- The stores whose register now has its value take their bytes (R100, R102). -/
def Context.feed (x : Context) : Context :=
  let due (e : LobEntry) : Bool := match e.wait with | some d => !x.pendG d | none => false
  if x.lob.any due then
    { x with lob := x.lob.map fun e =>
        if due e then
          { e with wait := none, op := match e.op with
              | .store l t k w => .store (l.map fun p => (p.1, toBytes p.2.length (x.low (e.wait.getD 0)).toNat)) t k w
              | o => o }
        else e }
  else x

/-- Whether vector register `i` waits for a load or a queued vector instruction. -/
def Context.pendV (x : Context) (i : BitVec 5) : Bool :=
  x.lob.any (fun e => match e.op with | .load _ (.vec d) => d == i | _ => false)
    || x.vq.any fun q => q.vec.any fun v => v.1 == i

/-- Whether predicate `i` waits for a queued vector instruction. -/
def Context.pendP (x : Context) (i : BitVec 4) : Bool := x.vq.any fun q => q.pred.any fun p => p.1 == i

/-- Whether an instruction that would leave the core now, from the context itself and not through its buffer,
may: every older entry complete at partition scope (R113, R118) and verified (R453). -/
def released (s : State) (c : Nat) (sc : Scope) : Bool :=
  !outstanding s c (s.ctx c).nextId sc &&
    (s.ctx c).lob.all fun e => match e.op with | .unverified _ => false | _ => true

/-- Whether a debug breakpoint of kind load or store stops an access (R467). -/
def dataBreak (s : State) (c : Nat) (ea : Word) (n : Nat) (store : Bool) : Option Nat :=
  let x := s.ctx c
  match x.task with
  | none => none
  | some t =>
    if x.level != .task then none
    else
      ((s.part (partNo x.ident)).bps.find? fun e =>
        let k := (e.2.b.extractLsb' 61 2).toNat
        let a := (e.2.b.extractLsb' 0 57).toNat
        let v := ea.toNat % 2 ^ 57
        e.2.b.getLsbD 63 && e.2.vf == x.ident.vf && (e.2.gti == 0 || e.2.gti == t.gti)
          && (k == 3 || k == (if store then 2 else 1)) && decide (v ≤ a ∧ a < v + n) && t.exempt != some e.1).map (·.1)

/-- The trap of a breakpoint's match (R467). -/
def breakTrap (a : Word) (b : Nat) : Trap := { cause := 0x0F, val := a, aux := BitVec.ofNat 64 (2 ^ 63 + b) }

/-- What an access asks for (R201). -/
structure Ask where
  n : Nat
  align : Nat
  perm : BitVec 12
  kind : Nat
  lock : Bool
  /-- An LD, ST, LDACQ or STREL, which may reach a control window (R271). -/
  plain : Bool := false
  /-- An atomic, whose own check refuses uncached space (R293). -/
  atomic : Bool := false
  /-- Its data breakpoints: none, or whether it stores (R467). -/
  brk : Option Bool := none
deriving DecidableEq, Repr

/-- The lock check, step 7 of R155. -/
def lockCheck (s : State) (c : Nat) (r : BitVec 6) (k : Cap) (ea : Word) (pa n : Nat) : Res Unit :=
  let bad := (List.range ((pa % 32 + n + 31) / 32)).filterMap fun j =>
    let g := (pa / 32 + j) * 32
    let l := loadLock s c (s.ctx c).nextId g
    if l = 0 ∨ l = k.key then none else some (g, l)
  match bad with
  | [] => .ok ()
  | (g, l) :: _ =>
    let w := shadowOf s c (s.ctx c).ident
    let en := w.getLsbD 0 && isHbm g
    let h := if en then (homeByte s (shadowAddr w g)).toNat else 0
    .error (.trap { cause := 0x09, val := ea
                    aux := BitVec.ofNat 64 (r.toNat * 2 ^ 24 + (if en then 2 ^ 23 else 0) + k.key.toNat * 2 ^ 12
                      + l.toNat * 2 ^ 8 + h) })

/-- The data breakpoint that stops an access which has passed its checks (R467). -/
def breakCheck (s : State) (c : Nat) (ea : Word) (n : Nat) (store : Bool) : Res Unit :=
  match dataBreak s c ea n store with
  | some b => .error (.trap (breakTrap ((s.part (partNo (s.ctx c).ident)).bps.find? (·.1 == b) |>.map (fun e => e.2.b &&& (BitVec.ofNat 64 (2 ^ 57 - 1))) |>.getD 0) b))
  | none => .ok ()

/-- The checks of one access through a capability register, in the order of R200: capability, alignment,
translation, the entry's additional check, lock, and the data breakpoints. -/
def access (s : State) (c : Nat) (r : BitVec 6) (off : Word) (q : Ask) (extra : Nat → Res Unit := fun _ => .ok ()) :
    Res Acc := do
  let g := (s.ctx c).reg r
  let ea := g.bits.setWidth 64 + off
  let k ← capCheck g r q.perm ea q.n
  trapIf (decide (ea.toNat % q.align ≠ 0)) 0x0E ea
  let t ← translate s c ea q.kind
  if q.atomic && isUncached t.1 then pure () else placeCheck s ea t.1 q.n q.kind q.plain
  extra t.1
  let mt := memType s c ea q.kind
  if q.lock && mt != 1 then lockCheck s c r k ea t.1 q.n else pure ()
  match q.brk with
  | some st => breakCheck s c ea q.n st
  | none => pure ()
  pure { ea := ea, pa := t.1, n := q.n, volatile := t.2, uncached := mt == 1
         sib := if q.lock && mt != 1 then (lockSiblings s c (s.ctx c).nextId t.1 q.n).eraseDups else [] }

end Sys2Proof.Machine
end

