-- ==== Sys2Proof/Machine/Operands.lean ====
section
/-! DEFINITION. Operand reading and writing (R40 to R49, R163 to R166), what a Bridle pair and a replay put
around it (R161, R241, R473 to R475), and the frame of every instruction's execution: outstanding writes,
privilege, breakpoints, guard (R57 steps 8 and 9, R233, R467). -/

namespace Sys2Proof.Machine

/-! Checkpoints of a Bridle pair (R161). -/

/-- The port words in a core's gated store buffer leave it (R161). -/
def releaseGated (s : State) (k : Nat) : State :=
  match (s.core k).bridle with
  | none => s
  | some b =>
    b.gated.foldl (fun s g =>
      let (n, s) := s.new
      { s with net := s.net ++ [(n, NetMsg.word g.core g.reg g.w g.c g.gti g.ident false false)] })
      (if b.gated.isEmpty then s else s.modCore k fun q => { q with bridle := some { b with gated := [] } })

/-- The checkpoint of the pair a context runs on: copies of its contexts' registers and of its queues, with the words
that waiting instructions have taken from them, and what the gated buffer held may leave. None while a load of the pair
has not performed. -/
def checkpoint (s : State) (c : Nat) : Option State :=
  let k := coreOf c
  match (s.core k).bridle with
  | none => some s
  | some _ =>
    if !(s.core k).matrix.queue.isEmpty
        || (contextsOf k).any fun c => (s.ctx c).lob.any (fun e => e.op.isLoad) || !(s.ctx c).vq.isEmpty then none
    else
      let copies := (contextsOf k).map fun c =>
        let x := s.ctx c
        { c := c, g := x.g, v := x.v, p := x.p, pc := x.pc, flags := x.flags, round := x.round, next := x.nextId, ktrap := x.ktrap
          ctrap := x.ctrap, latch := x.latch, task := x.task
          rep := (x.task.bind (·.replay)).map fun e => (e, (Sparse.get {} (s.part (partNo x.ident)).reps e : Replay)) : RegCopy }
      let queues := (((contextsOf k).foldl giveBack s).core k).queues
      some ((releaseGated s k).modCore k fun q => { q with since := 0, bridle := some { queues := queues, ckpt := copies } })

/-- Entries the gated buffer of a context's pair holds (R161, BRSTAT.FILL). -/
def gateFill (s : State) (k : Nat) : Nat :=
  match (s.core k).bridle with
  | none => 0
  | some b =>
    (b.ckpt.map fun r => ((s.ctx r.c).lob.filter fun e => e.op.leaves && decide (r.next ≤ e.id)).length).foldl (· + ·) b.gated.length

/-- Whether a pair stands at a checkpoint: nothing has retired, been read or been gated since. -/
def atCheckpoint (s : State) (c : Nat) : Bool :=
  let k := s.core (coreOf c)
  match k.bridle with
  | none => true
  | some b => k.since == 0 && b.log.isEmpty && gateFill s (coreOf c) == 0

/-- Goes on at a checkpoint; elsewhere the pair takes one first. -/
def mustCheckpoint (s : State) (c : Nat) : Res State :=
  if atCheckpoint s c then .ok s else .error .checkpoint

/-- Before an effect joins the gated buffer: a full buffer forces a checkpoint (R161). -/
def gateRoom (s : State) (c : Nat) : Res State :=
  if (s.core (coreOf c)).bridle.isSome && decide (64 ≤ gateFill s (coreOf c)) then mustCheckpoint s c else .ok s

/-- Before an instruction that awaits a reply from outside: on a pair the checkpoint interval ends (R161); in
any case everything older is complete at a scope and verified (R113, R118, R453). -/
def leaveNow (s : State) (c : Nat) (sc : Scope) : Res State := do
  let t ← if (s.core (coreOf c)).bridle.isSome then mustCheckpoint s c else .ok s
  ask (released t c sc) .stall
  pure t

/-- On a pair, a fence wider than context scope takes a checkpoint first (R105, R161). -/
def pairFence (s : State) (c : Nat) (sc : Scope) : Res State :=
  if (s.core (coreOf c)).bridle.isSome && sc != .ctx then mustCheckpoint s c else .ok s

/-- After the reply the next checkpoint interval starts before the next instruction (R161). -/
def replied (s : State) (c : Nat) : State :=
  s.modCore (coreOf c) fun k => { k with bridle := k.bridle.map fun b => { b with due := true } }

/-! Replay capture and re-running (R473 to R475). -/

/-- The replay entry that acts on a context's task: its number and the entry. -/
def replayOf (s : State) (c : Nat) : Option (Nat × Replay) :=
  let x := s.ctx c
  match x.task with
  | none => none
  | some t =>
    match t.replay with
    | none => none
    | some e =>
      let r : Replay := Sparse.get {} (s.part (partNo x.ident)).reps e
      if r.en && r.state == 1 && x.level == .task then some (e, r) else none

def setReplay (s : State) (c e : Nat) (r : Replay) : State :=
  s.modPart (partNo (s.ctx c).ident) fun p => { p with reps := Sparse.set p.reps e r }

/-- Instructions the context's task has retired (R474). -/
def ordOf (x : Context) : Nat := match x.task with | some t => t.ord % 2 ^ 32 | none => 0

/-- Appends an item to the capture log by plain stores of the task (R474). -/
def capture (s : State) (c kind opnum : Nat) (bytes : List Byte) : State :=
  match replayOf s c with
  | some (e, r) =>
    if r.mode then s
    else
      let len := bytes.length
      let item := toBytes 8 (ordOf (s.ctx c) * 2 ^ 32 + opnum % 256 * 2 ^ 24 + len % 65536 * 256 + kind)
        ++ fixBytes ((len + 7) / 8 * 8) bytes
      if r.pos + item.length ≤ r.size then
        let pa := r.base + r.pos
        setReplay (lobPush s c (.store [({ ea := BitVec.ofNat 64 pa, pa := pa, n := item.length }, item)] none none (gtiOf (s.ctx c)))) c e
          { r with pos := r.pos + item.length }
      else setReplay s c e { r with ovf := true, state := 2 }
  | none => s

/-- In replay mode, the bytes the next item gives for a read of a kind; none outside replay mode (R475). -/
def replayed (s : State) (c kind : Nat) : Res (Option (List Byte × State)) :=
  match replayOf s c with
  | some (e, r) =>
    if !r.mode then .ok none
    else
      let ord := ordOf (s.ctx c)
      let at' (pos : Nat) : Nat := ofBytes (loadBytes s c (s.ctx c).nextId (r.base + pos) 8)
      let skip (pos : Nat) : Nat := pos + 8 + (at' pos / 256 % 65536 + 7) / 8 * 8
      let pos := if at' r.pos % 256 = 1 ∧ r.pos + 8 ≤ r.size then skip r.pos else r.pos
      let h := at' pos
      if r.size < pos + 8 then
        .error (.trap { cause := 0x12, val := BitVec.ofNat 64 ord, aux := BitVec.ofNat 64 (kind * 256) })
      else if h % 256 = kind ∧ h / 2 ^ 32 = ord then
        .ok (some (loadBytes s c (s.ctx c).nextId (r.base + pos + 8) (h / 256 % 65536), setReplay s c e { r with pos := skip pos }))
      else
        .error (.trap { cause := 0x12, val := BitVec.ofNat 64 ord, aux := BitVec.ofNat 64 (kind * 256 + h % 256) })
  | none => .ok none

/-- Whether the context's task re-runs from a log. -/
def replaying (s : State) (c : Nat) : Bool := match replayOf s c with | some (_, r) => r.mode | none => false

/-- A result from outside: the next item in replay mode, else the value, captured (R474, R475). -/
def outside (s : State) (c kind : Nat) (w : Word) : Res (Word × State) := do
  match ← replayed s c kind with
  | some (b, t) => pure (BitVec.ofNat 64 (ofBytes b), t)
  | none => pure (w, capture s c kind 0 (toBytes 8 w.toNat))

/-! Queues, ports and mailboxes (R44 to R49). -/

/-- The compute core a context's mesh ports belong to: its task's mesh home (R408). -/
def meshCore (s : State) (c : Nat) : Nat :=
  match (s.ctx c).task with
  | some t => t.meshHome.getD (coreOf c)
  | none => coreOf c

/-- The neighbour through port `n`, and the port of it a word arrives at (R18). DESIGN CHOICE (log 63): the same holds of
the cores of a Bridle pair, so a word toward its odd core arrives there, and the even core's east neighbour is the odd. -/
def neighbour (k n : Nat) : Nat × Nat :=
  let d := k / 512 * 512
  let r := coreNo k / 16
  let q := coreNo k % 16
  match n with
  | 0 => (d + (r + 15) % 16 * 16 + q, 2)
  | 1 => (d + r * 16 + (q + 1) % 16, 3)
  | 2 => (d + (r + 1) % 16 * 16 + q, 0)
  | _ => (d + r * 16 + (q + 15) % 16, 1)

def Core.queue (k : Core) (i : Nat) : List Word := Sparse.get [] k.queues i
def Core.port (k : Core) (i : Nat) : List Word := Sparse.get [] k.ports i
def Core.mail (k : Core) (i : Nat) : Option MsgWord := Sparse.get none k.mbox i

/-- Words of a kind in flight toward a core's register. -/
def inFlight (s : State) (k : Nat) (r : WordReg) : Nat :=
  (s.net.filter fun m => match m.2 with | .word d q _ _ _ _ _ _ => d == k && q == r | _ => false).length

/-- Words for a core's register that a pair holds back until its next checkpoint (R161). -/
def gatedFor (k : Core) (d : Nat) (r : WordReg) : Nat :=
  match k.bridle with
  | some b => b.gated.countP fun g => g.core == d && g.reg == r
  | none => 0

/-- Whether all of R45's conditions hold together. -/
def operandsReady (s : State) (c : Nat) (srcs : List Src) (dst : Option Dst) : Bool :=
  let k := s.core (coreOf c)
  let reads (v : Src) : Nat := (srcs.filter (· == v)).length
  srcs.all (fun v => match v with
    | .g _ => true
    | .q i => decide (reads v ≤ (k.queue i.toNat).length)
    | .n i => decide (reads v ≤ (k.port i.toNat).length)
    | .m i => (k.mail i.toNat).isSome)
  && (match dst with
    | some (.q i) => decide ((k.queue i.toNat).length - reads (.q i) < 8)
    | some (.n i) =>
      let t := neighbour (meshCore s c) i.toNat
      decide (((s.core t.1).port t.2).length + inFlight s t.1 (.port t.2) + gatedFor k t.1 (.port t.2) < 4)
    | _ => true)

/-- Whether two instructions name a common queue, port or mailbox. -/
def contend (a : List Src) (da : Option Dst) (b : List Src) (db : Option Dst) : Bool :=
  (a.any fun v => match v with | .g _ => false | _ => b.contains v)
    || (match da, db with | some (.q i), some (.q j) => i == j | some (.n i), some (.n j) => i == j | _, _ => false)

/-- Whether a context blocked longer on a common register is served before this one (R46). -/
def givesWay (s : State) (c : Nat) (srcs : List Src) (dst : Option Dst) : Bool :=
  let mine : Nat := match (s.ctx c).run with | .blocked _ t => t | _ => s.time.toNat
  (contextsOf (coreOf c)).any fun d =>
    d != c && (match (s.ctx d).run with
      | .blocked (.operands sr de) t =>
        (decide (t < mine) || (t == mine && decide (d < c))) && contend srcs dst sr de && operandsReady s d sr de
      | .blocked (.load _ e) t =>
        (decide (t < mine) || (t == mine && decide (d < c))) && (s.ctx d).reply.isSome && contend srcs dst [] (some e)
          && operandsReady s d [] (some e)
      | _ => false)

/-- Adds one message's times to the table of the receiving core's die (R472), with the rights of the world that placed it
(R432); DESIGN CHOICE (log 70). -/
def messageTimes (s : State) (core : Nat) (sender transit wait run : Nat) : State :=
  let b := (s.die (coreDie core)).msgt
  let base := (b.extractLsb' 18 34).toNat * 2 ^ 18 + coreNo core * 1024
  if !b.getLsbD 63 || !homeRights s (s.die (coreDie core)).msgtwho base then s
  else
    let w (j o : Nat) : Word := homeWord s (base + 64 * j + o)
    let slot :=
      match (List.range 16).find? fun j => (w j 0).getLsbD 63 && (w j 0).toNat % 2 ^ 21 == sender with
      | some j => j
      | none => ((List.range 16).find? fun j => !(w j 0).getLsbD 63).getD 15
    let known := (w slot 0).getLsbD 63 && (w slot 0).toNat % 2 ^ 21 == sender
    let who := if known || !(w slot 0).getLsbD 63 then sender else 0x1FFFFF
    let old (o : Nat) : Nat := if (w slot 0).getLsbD 63 then (w slot o).toNat else 0
    let add (o v : Nat) : Word := BitVec.ofNat 64 (min (old o + v) (2 ^ 64 - 1))
    let put (s : State) (o : Nat) (v : Word) : State := homeStoreWord s (base + 64 * slot + o) v
    let s := put s 0x00 (BitVec.ofNat 64 (2 ^ 63 + who))
    let s := put s 0x08 (add 0x08 1)
    let s := put s 0x10 (add 0x10 transit)
    let s := put s 0x18 (add 0x18 wait)
    let s := put s 0x20 (add 0x20 run)
    put s 0x28 (BitVec.ofNat 64 (max (old 0x28) transit))

/-- Takes one source word; `got` holds the mailboxes this instruction has consumed (R45, R48). -/
def takeOne (c : Nat) (st : State × List (BitVec 5 × Word)) (v : Src) : Word × (State × List (BitVec 5 × Word)) :=
  let s := st.1
  let kc := coreOf c
  let k := s.core kc
  match v with
  | .g i => ((s.ctx c).low i, st)
  | .q i =>
    match k.queue i.toNat with
    | [] => (0, st)
    | w :: r =>
      (w, (capture (s.setCore kc { k with queues := Sparse.set k.queues i.toNat r }) c 3 (0x70 + i.toNat) (toBytes 8 w.toNat), st.2))
  | .n i =>
    match k.port i.toNat with
    | [] => (0, st)
    | w :: r =>
      let s := s.setCore kc { k with ports := Sparse.set k.ports i.toNat r }
      let s := s.modCtx c fun x => { x with pmask := x.pmask ||| (1 <<< i.toNat) }
      (w, (capture s c 4 (0x78 + i.toNat) (toBytes 8 w.toNat), st.2))
  | .m i =>
    match st.2.find? fun e => e.1 == i with
    | some e => (e.2, st)
    | none =>
      match k.mail i.toNat with
      | none => (0, st)
      | some w =>
        let s := s.setCore kc { k with mbox := Sparse.set k.mbox i.toNat none }
        let s := s.modCtx c fun x => { x with mbxmask := x.mbxmask ||| (1 <<< i.toNat) }
        let s := messageTimes s kc w.sender.toNat ((w.t1 + 2 ^ 48 - w.t0) % 2 ^ 48) (s.time.toNat - w.t1) 0
        (w.w, (capture s c 2 (0x80 + i.toNat) (toBytes 8 w.w.toNat), (i, w.w) :: st.2))

/-- Takes the sources in order. -/
def takeAll (c : Nat) : List Src → State × List (BitVec 5 × Word) → List Word × State
  | [], st => ([], st.1)
  | v :: r, st =>
    let a := takeOne c st v
    let b := takeAll c r a.2
    (a.1 :: b.1, b.2)

/-- The replay kind of a source (R474). -/
def srcKind : Src → Option Nat
  | .g _ => none | .m _ => some 2 | .q _ => some 3 | .n _ => some 4

/-- Takes the sources from the replay log; a mailbox named twice gives its one word (R45, R475). -/
def takeReplayed (c : Nat) : List Src → State → List (BitVec 5 × Word) → Res (List Word × State)
  | [], s, _ => .ok ([], s)
  | v :: r, s, got => do
    let known := match v with | .m i => (got.find? fun e => e.1 == i).map (·.2) | _ => none
    match known, srcKind v with
    | some w, _ =>
      let (ws, t) ← takeReplayed c r s got
      pure (w :: ws, t)
    | none, none =>
      let (ws, t) ← takeReplayed c r s got
      let w := match v with | .g i => (s.ctx c).low i | _ => 0
      pure (w :: ws, t)
    | none, some kind =>
      match ← replayed s c kind with
      | some (b, s) =>
        let w := BitVec.ofNat 64 (ofBytes b)
        let (ws, t) ← takeReplayed c r s (match v with | .m i => (i, w) :: got | _ => got)
        pure (w :: ws, t)
      | none => .error .stall

/-- Whether a destination is a queue or a mesh port, through which a word leaves the context. -/
def outward (dst : Option Dst) : Bool := match dst with | some (.q _) | some (.n _) => true | _ => false

/-- Whether a destination is a mesh port. -/
def ported (dst : Option Dst) : Bool := match dst with | some (.n _) => true | _ => false

/-- Whether some source or destination is a queue, a port or a mailbox. -/
def blocking (srcs : List Src) (dst : Option Dst) : Bool :=
  srcs.any (fun v => match v with | .g _ => false | _ => true) || outward dst

/-- Whether a general register among the sources is pending. -/
def Context.pendSrc (x : Context) (srcs : List Src) : Bool :=
  srcs.any fun v => match v with | .g i => x.pendG i | _ => false

/-- Whether the general register a destination names is pending. -/
def Context.pendDst (x : Context) (dst : Option Dst) : Bool :=
  match dst with | some (.g i) => x.pendG i | some (.xm _ k) => x.pendG k | _ => false

/-- Whether an older load of a context keeps its next instruction from sending a word: it has yet to be performed in
protected memory, or its line's tag to be checked (R453). -/
def State.unchecked (s : State) (c : Nat) : Bool := unproven s c (s.ctx c).nextId

/-- Words of a pair's reads that are in its replay log and not yet taken (R241). -/
def bridleLogged (s : State) (c : Nat) (n : Nat) : Option (List Word × State) :=
  match (s.core (coreOf c)).bridle with
  | some b =>
    if b.taken + n ≤ b.log.length then
      some ((b.log.drop b.taken).take n,
        s.modCore (coreOf c) fun k => { k with bridle := some { b with taken := b.taken + n } })
    else none
  | none => none

/-- A pair's queue gives up the word that its log gives again: the queues were put back with the registers (R241). -/
def dropLogged (s : State) (c : Nat) (srcs : List Src) : State :=
  srcs.foldl (fun s v => match v with
    | .q i => s.modCore (coreOf c) fun k => { k with queues := Sparse.set k.queues i.toNat ((Sparse.get [] k.queues i.toNat).drop 1) }
    | _ => s) s

/-- The words of the blocking sources with the general registers' values put in their places; a mailbox named
twice takes one word. -/
def mergeWords (x : Context) : List Src → List Word → List (BitVec 5 × Word) → List Word
  | [], _, _ => []
  | .g i :: r, ws, got => x.low i :: mergeWords x r ws got
  | .m i :: r, ws, got =>
    match got.find? fun e => e.1 == i with
    | some e => e.2 :: mergeWords x r ws got
    | none => match ws with
      | w :: ws => w :: mergeWords x r ws ((i, w) :: got)
      | [] => 0 :: mergeWords x r [] got
  | _ :: r, w :: ws, got => w :: mergeWords x r ws got
  | _ :: r, [], got => 0 :: mergeWords x r [] got

/-- How many words a pair's log gains from a source list. -/
def logWords (srcs : List Src) : Nat :=
  (srcs.eraseDups.filter fun v => match v with | .m _ => true | _ => false).length
    + (srcs.filter fun v => match v with | .q _ | .n _ => true | _ => false).length

/-- The words read, as a pair's log keeps them: one for each word consumed. -/
def consumed : List Src → List Word → List (BitVec 5) → List Word
  | .m i :: r, w :: ws, got => if got.contains i then consumed r ws got else w :: consumed r ws (i :: got)
  | .q _ :: r, w :: ws, got | .n _ :: r, w :: ws, got => w :: consumed r ws got
  | .g _ :: r, _ :: ws, got => consumed r ws got
  | _, _, _ => []

/-- Reads the sources of an instruction once all its blocking operands allow it (R45 to R48, R55). -/
def sources (s : State) (c : Nat) (srcs : List Src) (dst : Option Dst) : Res (List Word × State) := do
  let x := s.ctx c
  ask (!x.pendSrc srcs) .stall
  ask (!x.pendDst dst) .stall
  if !blocking srcs dst then pure (takeAll c srcs (s, []))
  else
    ask (!(outward dst && s.unchecked c)) .stall
    if replaying s c then
      ask (operandsReady s c [] dst && !givesWay s c [] dst) (.block (.operands [] dst))
      takeReplayed c srcs s []
    else
      let n := logWords srcs
      match if n = 0 then none else bridleLogged s c n with
      | some (ws, t) =>
        ask (operandsReady s c [] dst && !givesWay s c [] dst) (.block (.operands [] dst))
        let t ← (if ported dst then gateRoom t c else pure t)
        pure (mergeWords x srcs ws [], dropLogged t c srcs)
      | none =>
        ask (operandsReady s c srcs dst && !givesWay s c srcs dst) (.block (.operands srcs dst))
        let s ← (match (s.core (coreOf c)).bridle with
          | some b => if 64 < b.log.length + n then mustCheckpoint s c else if ported dst then gateRoom s c else pure s
          | none => pure s)
        let (ws, t) := takeAll c srcs (s, [])
        let new := consumed srcs ws []
        pure (ws, t.modCore (coreOf c) fun k => { k with
          bridle := k.bridle.map fun b => { b with log := b.log ++ new, taken := b.taken + new.length } })

/-- Takes the word of one blocking source out of its register; the record of its use comes when the instruction
retires (R45, R47). -/
def pullOne (c : Nat) (st : State × List (Src × MsgWord)) (v : Src) : State × List (Src × MsgWord) :=
  let s := st.1
  let k := s.core (coreOf c)
  match v with
  | .g _ => st
  | .q i =>
    match k.queue i.toNat with
    | [] => st
    | w :: r => (s.setCore (coreOf c) { k with queues := Sparse.set k.queues i.toNat r }, st.2 ++ [(v, { w := w })])
  | .n i =>
    match k.port i.toNat with
    | [] => st
    | w :: r => (s.setCore (coreOf c) { k with ports := Sparse.set k.ports i.toNat r }, st.2 ++ [(v, { w := w })])
  | .m i =>
    if st.2.any fun e => e.1 == v then st
    else
      match k.mail i.toNat with
      | none => st
      | some w => (s.setCore (coreOf c) { k with mbox := Sparse.set k.mbox i.toNat none }, st.2 ++ [(v, w)])

/-- Records the use of a word that was taken: masks, message times, capture (R239, R407, R472, R474). -/
def recordUse (c : Nat) (s : State) (e : Src × MsgWord) : State :=
  match e.1 with
  | .g _ => s
  | .q i => capture s c 3 (0x70 + i.toNat) (toBytes 8 e.2.w.toNat)
  | .n i => capture (s.modCtx c fun x => { x with pmask := x.pmask ||| (1 <<< i.toNat) }) c 4 (0x78 + i.toNat) (toBytes 8 e.2.w.toNat)
  | .m i =>
    let s := s.modCtx c fun x => { x with mbxmask := x.mbxmask ||| (1 <<< i.toNat) }
    let s := messageTimes s (coreOf c) e.2.sender.toNat ((e.2.t1 + 2 ^ 48 - e.2.t0) % 2 ^ 48) (s.time.toNat - e.2.t1) 0
    capture s c 2 (0x80 + i.toNat) (toBytes 8 e.2.w.toNat)

/-- The source words of an instruction that goes on to wait: its blocking operands are taken together once their
conditions hold, and kept with the context (R45, R46). Words from a log stay there until `useWords`. -/
def holdWords (s : State) (c : Nat) (srcs : List Src) (dst : Option Dst) : Res (List Word × State) :=
  let x := s.ctx c
  match x.held with
  | some l => .ok (mergeWords x srcs (l.map (·.2.w)) [], s)
  | none => do
    let (ws, _) ← sources s c srcs dst
    if !blocking srcs none || replaying s c || (bridleLogged s c (logWords srcs)).isSome then pure (ws, s)
    else
      let (t, l) := srcs.foldl (pullOne c) (s, [])
      pure (ws, t.modCtx c fun x => { x with held := some l })

/-- The words that `holdWords` has given are used: the instruction retires (R45, R241). -/
def useWords (s : State) (c : Nat) (srcs : List Src) : Res State :=
  match (s.ctx c).held with
  | some l =>
    let t := l.foldl (recordUse c) (s.modCtx c fun x => { x with held := none })
    .ok (t.modCore (coreOf c) fun k => { k with bridle := k.bridle.map fun b =>
      { b with log := b.log ++ l.map (·.2.w), taken := b.taken + l.length } })
  | none => do
    let (_, t) ← sources s c srcs none
    pure t

/-- A parked task whose condition has come joins the ready pool, with a fresh ready time; `pin` keeps it on its
core, `bits` set in its event latch (R222, R253). -/
def readyParked (s : State) (die : Nat) (pin : Bool) (f : Task → Bool) (bits : BitVec 5 := 0) : State :=
  if !(s.die die).parked.any f then s
  else s.modDie die fun d => { d with
    parked := d.parked.filter fun t => !f t
    ready := d.ready ++ (d.parked.filter f).map fun t => { t with
      wait := none, woken := t.woken ||| bits, pinned := if pin then some t.waitCore else none, passes := 0, promoted := false } }

/-- Contexts that wait for something which has now happened try again (R45). -/
def wakeWaits (s : State) (f : Nat → Wait → Bool) : State :=
  { s with ctxs := s.ctxs.map fun (e : Nat × Context) =>
      (e.1, match e.2.run with | .blocked v _ => if f e.1 v then { e.2 with run := .running } else e.2 | _ => e.2) }

/-- Readies the tasks parked for a word, a mailbox or the latch of a core (R253). -/
def wakeParked (s : State) (k : Nat) (bit : BitVec 5) : State :=
  readyParked s (coreDie k) true (fun t => t.waitCore == k && (match t.wait with
    | some (.operands _ _) | some .mwait | some (.wfe _) => true
    | _ => false)) bit

/-- Sets latch bits of every context of a core (R222), and readies the tasks parked there (R253). -/
def wakeCore (s : State) (k : Nat) (bit : BitVec 5) : State :=
  let s := (contextsOf k).foldl (fun s c => s.modCtx c fun x => { x with latch := x.latch ||| bit }) s
  wakeParked (wakeWaits s fun c w => coreOf c == k && w == .mwait) k bit

/-- Writes a scalar result (R44, R165): a general register, a queue, or a word toward a neighbour. -/
def putWord (s : State) (c : Nat) (d : Dst) (w : Word) : State :=
  match d with
  | .g i => s.modCtx c fun x => x.setReg i (Reg.ofWord w)
  | .q i =>
    wakeCore (s.modCore (coreOf c) fun k => { k with queues := Sparse.set k.queues i.toNat (k.queue i.toNat ++ [w]) })
      (coreOf c) 0x02
  | .n i =>
    let t := neighbour (meshCore s c) i.toNat
    let x := s.ctx c
    let m : MsgWord := { w := w, sender := coreWord s x.ident (coreOf c), t0 := s.time.toNat % 2 ^ 48 }
    match (s.core (coreOf c)).bridle with
    | some b => s.modCore (coreOf c) fun k => { k with bridle := some { b with
        gated := b.gated ++ [{ core := t.1, reg := .port t.2, w := m, c := c, gti := gtiOf x, ident := x.ident }] } }
    | none =>
      let (n, s) := s.new
      { s with net := s.net ++ [(n, NetMsg.word t.1 (.port t.2) m c (gtiOf x) x.ident false false)] }
  | .xm _ _ => s

/-- Sends a remote mailbox word; the context stays blocked in its instruction until it is acknowledged, and the
instruction's flags are raised then (R49, R135). -/
def sendMail (s : State) (c : Nat) (target m : Nat) (w : Word) (f : FpFlags) : State :=
  let x := s.ctx c
  let (n, s) := s.new
  let s := { s with net := s.net ++ [(n, NetMsg.word target (.mbx m)
      { w := w, sender := coreWord s x.ident (coreOf c), t0 := s.time.toNat % 2 ^ 48 } c (gtiOf x) x.ident false true)] }
  blockOn (s.modCtx c fun x => { x with outst := 1, acked := false, oflags := f }) c .mailboxAck

/-- The core a remote mailbox destination names, checked under R22. -/
def mailTarget (s : State) (c : Nat) (k : BitVec 6) : Res Nat :=
  let w := (s.ctx c).low k
  match coreOfWord s (s.ctx c).ident w.toNat with
  | some t => .ok t
  | none => .error (.trap { cause := 0x60, val := w &&& 0x1F01FF })

/-- An instruction with scalar sources and a scalar destination: `f` computes the result and the flags from the
context and the source words (R44, R45, R49, R135, R165). -/
def scalarOp (srcs : List Src) (d : Dst) (f : Context → List Word → Word × FpFlags) (c : Nat) (s : State) :
    Res State := do
  match d with
  | .xm m k =>
    ask (!(s.ctx c).pendG k) .stall
    let t ← mailTarget s c k
    let s ← leaveNow s c .part
    let (ws, s) ← sources s c srcs (some d)
    let r := f (s.ctx c) ws
    pure (sendMail s c t m.toNat r.1 r.2)
  | _ =>
    let (ws, s) ← sources s c srcs (some d)
    let r := f (s.ctx c) ws
    pure (retire (raiseFlags (putWord s c d r.1) c r.2) c)

/-- An instruction with scalar sources and a predicate destination, all ones or zero (R166). -/
def predOp (srcs : List Src) (p : BitVec 4) (f : Context → List Word → Bool × FpFlags) (c : Nat) (s : State) :
    Res State := do
  ask (!(s.ctx c).pendP p) .stall
  let (ws, s) ← sources s c srcs none
  let r := f (s.ctx c) ws
  let s := s.modCtx c fun x => x.setPred p (if r.1 then BitVec.allOnes 64 else 0)
  pure (retire (raiseFlags s c r.2) c)

/-- A general register whose value is known; a pending one waits. -/
def regOf (s : State) (c : Nat) (i : BitVec 6) : Res Reg :=
  if (s.ctx c).pendG i then .error .stall else .ok ((s.ctx c).reg i)

/-- The result of an instruction whose destination's room `sources` has checked. -/
def deliver (s : State) (c : Nat) (d : Dst) (w : Word) : State := retire (putWord s c d w) c

/-! The frame of execution. -/

/-- The fetch breakpoint or the step stop that stops an instruction at R57 step 9 (R467, R468). -/
def fetchStop (s : State) (c : Nat) : Option (Trap × Nat) :=
  let x := s.ctx c
  match x.task with
  | none => none
  | some t =>
    if x.level != .task then none
    else
      match (s.part (partNo x.ident)).bps.find? fun e =>
        e.2.b.getLsbD 63 && e.2.b.extractLsb' 61 2 == 0 && e.2.vf == x.ident.vf && (e.2.gti == 0 || e.2.gti == t.gti)
          && e.2.b.extractLsb' 0 57 == x.pc.extractLsb' 0 57 && t.exempt != some e.1 with
      | some e => some (breakTrap ((e.2.b.extractLsb' 0 57).setWidth 64) e.1, e.1)
      | none =>
        match claimOf s x with
        | some k =>
          if k.b.getLsbD 62 && t.exempt != some 16 then
            some ({ cause := 0x0F, val := Config.freeWord s.fresh, aux := BitVec.ofNat 64 (2 ^ 62) }, 16)
          else none
        | none => none

/-- The privileged-instruction trap (R59). -/
def privTrap (i : Instr) : Trap := { cause := 0x02, val := (w2Of (encode i)).setWidth 64 }

/-- The value of the effective guard in every position (R50). -/
def guardOf (x : Context) (g : Guard) : Word := if g.neg then ~~~ x.pred g.p else x.pred g.p

/-- Puts what an instruction's body answers into the state. -/
def finish (s : State) (c : Nat) (r : Res State) : State :=
  match r with
  | .ok t => t
  | .error .checkpoint => (checkpoint s c).getD s
  | .error h => settle s c h

/-- A write or an active message that has left the core ends when its acknowledgement is recorded, and raises its
flags as it retires (R49, R135, R233). -/
def awaitAck (s : State) (c : Nat) : State :=
  let x := s.ctx c
  if x.acked then replied (retire (raiseFlags (s.setCtx c { x with outst := 0, acked := false, oflags := 0 }) c x.oflags) c) c
  else blockOn s c (if x.outst = 1 then .mailboxAck else .amsgAccept)

/-- Runs an instruction's body in its frame: the acknowledgement an earlier issue of it still awaits, the
checkpoint a pair owes, privilege, breakpoints, the guard (R53, R57, R161). -/
def runIn (i : Instr) (h : Hdr) (priv : Bool) (body : Nat → Word → State → Res State) (s : State) : State :=
  let c := s.cur
  let x := s.ctx c
  if x.outst ≠ 0 then awaitAck s c
  else if priv && x.level == .task then settle s c (.trap (privTrap i))
  else
    match fetchStop s c with
    | some (t, b) =>
      let s := { s with fresh := s.fresh + 1 }
      settle (s.modCtx c fun x => { x with task := x.task.map fun k => { k with lastStop := some b } }) c (.trap t)
    | none =>
      if x.pendP h.guard.p then s
      else
        let owed := match (s.core (coreOf c)).bridle with
          | some b => b.due || decide (1024 ≤ (s.core (coreOf c)).since)
          | none => false
        if owed then (match checkpoint s c with | some t => finish t c (body c (guardOf x h.guard) t) | none => s)
        else finish s c (body c (guardOf x h.guard) s)

/-- A scalar instruction: bit 0 of the guard decides (R51). -/
def run (i : Instr) (h : Hdr) (body : Nat → State → Res State) (s : State) : Host.Outcome State Fault Refusal :=
  .next (runIn i h false (fun c g s => if g.getLsbD 0 then body c s else .ok (retire s c)) s)

/-- An instruction of kernel level (R59). -/
def runKernel (i : Instr) (h : Hdr) (body : Nat → State → Res State) (s : State) : Host.Outcome State Fault Refusal :=
  .next (runIn i h true (fun c g s => if g.getLsbD 0 then body c s else .ok (retire s c)) s)

/-- An instruction whose operand names a level of its own: the level is checked before the guard (R57, R59). -/
def runLevel (i : Instr) (h : Hdr) (low : Bool) (body : Nat → State → Res State) (s : State) :
    Host.Outcome State Fault Refusal :=
  if low && (s.ctx s.cur).outst == 0 then .next (settle s s.cur (.trap (privTrap i))) else run i h body s

/-- A vector instruction: the guard enables lanes; with none enabled it completes (R52). -/
def runVector (i : Instr) (h : Hdr) (body : Nat → Word → State → Res State) (s : State) :
    Host.Outcome State Fault Refusal :=
  .next (runIn i h false (fun c g s => if g = 0 then .ok (retire s c) else body c g s) s)

end Sys2Proof.Machine
end

