-- ==== Sys2Proof/Machine/Window.lean ====
section
/-! DEFINITION. What a read of a control-window register returns (R237, R243, R266, R271, R277, R285, R287, R289,
R443 to R457, R459 to R464, R466 to R478). -/

namespace Sys2Proof.Machine

/-- A field placed in a word. -/
def fieldAt (lo : Nat) (x : Nat) : Nat := x * 2 ^ lo
/-- A word of fields. -/
def packWord (l : List (Nat × Nat)) : Word := BitVec.ofNat 64 (l.foldl (fun a e => a + fieldAt e.1 e.2) 0)
def bit (b : Bool) : Nat := if b then 1 else 0

/-- The partition whose register a window of a die shows: the die's, and on a host die the reader's. -/
def windowPart (s : State) (i : Ident) (die : Nat) : Nat :=
  if die < 8 then (partOfCore s (die * 512)).toNat else partNo i

/-- Deepest service queue of a virtual function over its partition's dies (R266). -/
def queueDepth (s : State) (p v : Nat) : Nat :=
  (partDies s p).foldl (fun m d => max m (Sparse.get [] (s.die d).service (p * 16 + v)).length) 0

/-- Compute cores in a virtual function's border, as its logical die 0 counts them (R266, R448). -/
def border (s : State) (p v : Nat) : Nat :=
  match physDie s p 0 with
  | some d => (Sparse.get [] (s.die d.1).cmap (p * 16 + v)).length
  | none => 0

/-- Free areas of a pool (R237). -/
def poolFree (p : Pool) : Nat := p.n - p.used.length

/-- PCTL of a partition (R445). -/
def pctlWord (x : Partition) : Word :=
  packWord [(63, bit x.en), (62, bit x.prot), (61, bit x.joint), (60, bit x.frozen), (59, bit x.ready), (58, bit x.mcl),
    (33, bit x.shd), (32, bit x.shm), (0, x.kslot.toNat)]

/-- An 8-entry row of a map of 8-bit or 16-bit fields. -/
def rowOf (n width : Nat) (f : Nat → Nat) : Word := packWord ((List.range n).map fun j => (width * j, f j))

/-- The security block of SB0 (R443). -/
def secRead (s : State) (off : Nat) : Word :=
  let i := off / 8
  if off < 0x40 then (Sparse.get 0xFF s.sec.pmap i : BitVec 8).setWidth 64
  else if off < 0x80 then
    let d := (off - 0x40) / 32
    let r := (off - 0x40) % 32 / 8
    rowOf 8 8 fun j => (Sparse.get 0xFF s.sec.hcmap ((8 + d) * 512 + 8 * r + j) : BitVec 8).toNat
  else if off < 0x180 then pctlWord (s.part ((off - 0x100) / 8))
  else if off < 0x200 then (s.part ((off - 0x180) / 8)).kpub
  else if off = 0x208 then packWord [(56, s.sec.kstatPart.toNat), (0, s.sec.kstatRes.toNat)]
  else if off < 0x300 then 0
  else if off < 0x340 then packWord [(32, (Sparse.get 0 s.sec.certGen ((off - 0x300) / 8) : BitVec 32).toNat)]
  else if off = 0x348 then packWord [(1, bit s.sec.attDone), (0, bit s.sec.attBusy)]
  else if off < 0x500 then 0
  else if off < 0x540 then
    let b := s.base ((off - 0x500) / 8)
    packWord [(63, bit b.custEn), (0, b.custBase)]
  else packWord [(0, (s.vf ((off - 0x800) / 128) ((off - 0x800) % 128 / 8)).gen.toNat)]

/-- An Ethernet session register (R463). -/
def sessWord (x : Session) : Word :=
  packWord [(63, bit x.en), (61, x.state.toNat), (56, x.port.toNat), (48, x.part.toNat), (0, x.peer.toNat)]

/-- The registers of a host die beyond R271's (R459, R476, R478). -/
def hostRead (s : State) (die off : Nat) : Word :=
  let h := s.hio die
  if off < 0x4010 then
    let p : Port := Sparse.get {} h.ports ((off - 0x4000) / 8)
    packWord [(63, bit p.en), (56, p.mode.toNat), (48, p.part.toNat), (0, p.lstat.toNat)]
  else if off < 0x4200 then
    let w : CxlWin := Sparse.get {} h.wins ((off - 0x4100) / 16)
    if off % 16 = 0 then w.a else w.b
  else if off < 0x4280 then
    let w : CxlWin := Sparse.get {} h.wins ((off - 0x4200) / 8)
    packWord [(48, w.limit), (32, w.last.toNat), (0, w.severe.toNat)]
  else if off = 0x4408 then packWord [(0, (h.wac.filter fun e => e.2.isSome).length)]
  else if off < 0x4800 then 0
  else if off < 0x5000 then sessWord (Sparse.get {} h.sess ((off - 0x4800) / 8))
  else if off < 0x5820 then Sparse.get 0 s.ckptDst ((off - 0x5800) / 8)
  else if off = 0x5828 then packWord [(8, s.ckptMoved.toNat), (0, s.ckptSt.toNat)]
  else if off < 0x5A00 then 0
  else
    let d := s.dieCtl ((off - 0x5A00) / 8)
    packWord [(60, d.state.toNat), (56, d.reason.toNat), (0, if d.state = 2 then d.stoppc.toNat else 0)]

/-- The debug block (R466 to R473). -/
def debugRead (s : State) (p off : Nat) : Word :=
  let x := s.part p
  if off < 0x5100 then
    let b : Breakpoint := Sparse.get {} x.bps ((off - 0x5000) / 16)
    if off % 16 = 0 then b.gti else b.b
  else if off < 0x5180 then
    let b : Claim := Sparse.get {} x.claims ((off - 0x5100) / 16)
    if off % 16 = 0 then b.gti else b.b
  else if off = 0x5200 then x.trcbase
  else if off = 0x5208 then x.trcctl
  else if off = 0x5210 then packWord [(32, x.trclost), (0, x.trcnext % 2 ^ 32)]
  else if off < 0x5300 then 0
  else
    let r : Replay := Sparse.get {} x.reps ((off - 0x5300) / 32)
    match off % 32 / 8 with
    | 0 => r.gti
    | 1 => packWord [(63, bit r.en), (62, bit r.mode), (60, r.state.toNat), (59, bit r.ovf), (0, r.base)]
    | _ => packWord [(32, r.size), (0, r.pos)]

/-- Whether a register of a virtual function shows itself to a reader: TNDVFv to the custodian, TNDSTv and CMAPv to the
kernel worlds of v too, SCHSTAT to any kernel (R266, R448). DESIGN CHOICE (log 60): to others it reads 0. -/
def windowShown (i : Ident) (level : Level) (die off : Nat) : Bool :=
  let kernel := i.custodian || level != .task
  if die = 16 then true
  else if 0x1000 ≤ off ∧ off < 0x1080 then i.custodian
  else if 0x1080 ≤ off ∧ off < 0x1100 then i.custodian || (kernel && i.vf.toNat == (off - 0x1080) / 8)
  else if off = 0x1100 then kernel
  else if die < 8 ∧ 0x6000 ≤ off then i.custodian || (kernel && i.vf.toNat == (off - 0x6000) / 512)
  else true

/-- A read of a control-window register as an identity. -/
def windowRead (s : State) (i : Ident) (die off : Nat) : Word :=
  let p := windowPart s i die
  let d := s.die die
  if die = 16 then secRead s off
  else if off < 0x80 then Sparse.get 0 d.kentry (off / 8)
  else if off = 0x80 then d.centry
  else if off < 0x1000 then 0
  else if off < 0x1080 then (s.vf p ((off - 0x1000) / 8)).tnd
  else if off < 0x1100 then
    let v := (off - 0x1080) / 8
    packWord [(32, (s.vf p v).doneLast), (16, border s p v), (0, queueDepth s p v)]
  else if off = 0x1100 then packWord [(48, d.under), (16, min d.pending.length 0xFFFF), (0, min d.ready.length 0xFFFF)]
  else if off < 0x1300 then
    let x : Pool := Sparse.get {} d.pools ((off - 0x1200) / 16)
    if off % 16 = 0 then packWord [(8, x.base), (0, bit x.en)] else packWord [(32, poolFree x), (0, x.n)]
  else if off < 0x1380 then
    let x : Pool := Sparse.get {} d.pools ((off - 0x1300) / 8)
    packWord [(8, x.va)]
  else if off < 0x2100 then
    let v := s.vf p ((off - 0x2000) / 16)
    if off % 16 = 0 then v.root0 else v.root1
  else if off = 0x3000 then
    packWord [(32, d.lost.toNat), (16, d.retrain), (8, min (s.holds.filter fun h => h.die == die && !h.kernel).length 255), (0, d.last.toNat)]
  else if off = 0x3008 then d.kmirr0
  else if off = 0x3010 then d.kmirr1
  else if off = 0x3018 then 0
  else if off = 0x5400 then d.msgt
  else if die < 8 then
    if 0x6000 ≤ off then
      let v := (off - 0x6000) / 512
      let m : List Nat := Sparse.get [] d.cmap (p * 16 + v)
      rowOf 4 16 fun j => m.getD ((off - 0x6000) % 512 / 8 * 4 + j) 0xFFFF
    else debugRead s p off
  else hostRead s die off

/-- Whether a load takes every byte of an access from its own order buffer or its cluster's queue, so that it asks
nothing of the home (R103). -/
def forwarded (s : State) (c id : Nat) (a : Acc) : Bool :=
  !a.uncached && (List.range a.n).all fun j =>
    queued c (a.pa + j) && ((fromLob (s.ctx c) id (a.pa + j)).isSome || (fromCsq (s.clu (clusterOf c)) (a.pa + j)).isSome)

/-- What reading an access at its home does: the bytes, or the trap of its refusal, and the state after (R203,
R285, R286, R432, R450). -/
def readAt (s : State) (c id : Nat) (i : Ident) (a : Acc) : Except Trap (List Byte) × State :=
  let line : Word := BitVec.ofNat 64 (a.pa / 128 * 128)
  let gone (die : Nat) : Bool := (s.die (dieOf c)).lost.getLsbD die
  match region a.pa with
  | .window die off =>
    if gone die then (.error { cause := 0x25, val := a.ea, aux := line }, s)
    else (.ok (toBytes a.n (if windowShown i (s.ctx c).level die off then windowRead s i die off else 0).toNat), s)
  | .mmio => (.ok (toBytes a.n (Config.mmioRead s.fresh).toNat), { s with fresh := s.fresh + 1 })
  | .scratch cl off =>
    if gone (cl / 64) then (.error { cause := 0x25, val := a.ea, aux := line }, s)
    else if (scratchLoc s cl (off + a.n - 1)).isNone then (.error { cause := 0x24, val := a.ea, aux := xlatAux 0xF 0 }, s)
    else
      let b := accBytes s c id a
      if cl = clusterOf c then (.ok b, s)
      else if (s.clu cl).orphan.isSome then (.ok b, s.modCtx c fun x => { x with orphan := true })
      else (.ok b, s)
  | _ =>
    if forwarded s c id a then (.ok (accBytes s c id a), s)
    else if !homeRights s i a.pa then (.error { cause := 0x41, val := a.ea, aux := line }, s)
    else if gone (homeDie s a.pa) || poisoned s a.pa then (.error { cause := 0x25, val := a.ea, aux := line }, s)
    else (.ok (accBytes s c id a), tileRead s a.pa a.n)

/-- The job of a context's task, for attachment (R450). -/
def jobOf (x : Context) : Option Nat := x.task.bind fun t => t.member.map (·.1)

/-- A context's first access to another cluster's scratchpad attaches it (R450). -/
def attach (s : State) (c pa : Nat) : State :=
  match region pa with
  | .scratch cl _ =>
    if cl = clusterOf c ∨ (s.clu cl).attached.any (fun e => e.1 == c) then s
    else s.modClu cl fun k => { k with attached := k.attached ++ [(c, jobOf (s.ctx c))] }
  | _ => s

/-- What the accesses of a load do to the caches, and the count of the lines that missed the L1, event 0x04 (R152, R274,
R275): those that a world may read, which go to their homes through the caches (R432, R461). -/
def cacheLoads (s : State) (c : Nat) (i : Ident) (id : Nat) (acc : List Acc) : State :=
  acc.foldl (fun s a =>
    if a.uncached || !cacheable s a.pa || forwarded s c id a || !homeRights s i a.pa || poisoned s a.pa then s
    else
      let r := cacheRead s (clusterOf c) (l1Ways s (clusterOf c)) i.part a.pa a.n
      countEvent r.2 (coreOf c) 4 r.1) s

end Sys2Proof.Machine
end

