-- ==== Sys2Proof/Machine/Tasks.lean ====
section
/-! DEFINITION. Tasks as the schedulers know them (R244 to R261): records, identity, dependence counters, ready
pools, members of the Buoy tree, actors, how a task ends and how a context is freed. -/

namespace Sys2Proof.Machine

/-! Timelines (R27, R28, R482). -/

/-- Whether an owner holds a set of timelines; one that has ended holds none. -/
def owns (s : State) (owner tl : Nat) : Bool := s.tls.any fun e => e.1 == owner * 8 + tl

/-- The next number on a timeline, taken as a command leaves the order buffer (R113). -/
def takeNum (s : State) (owner tl : Nat) : Nat × State :=
  let n := (s.tline owner tl).issued + 1
  (n, s.modTline owner tl fun t => { t with issued := n, count := t.count + 1 })

/-- The counter after a number completes: the largest n below which all have (R27). -/
def advance (t : Timeline) (n : Nat) : Timeline :=
  let r := (insertNat t.above n).foldl (fun (a : Nat × List Nat) k => if k = a.1 + 1 then (k, a.2) else (a.1, a.2 ++ [k]))
    (t.done, [])
  { t with done := r.1, above := r.2 }

/-- The contexts whose timelines an owner's are. -/
def ownerContexts (s : State) (owner : Nat) : List Nat :=
  (s.ctxs.filter fun e => tlOwner s e.1 == owner).map (·.1)

/-- Readies the parked tasks whose timeline, queue or journal condition holds (R253). -/
def readyHeld (s : State) (die : Nat) : State :=
  let s := readyParked s die false fun t => match t.wait with
    | some (.timeline tl n) => decide (n ≤ (s.tline (t.gti.toNat * 2 + 1) tl).done)
    | some .journal => (List.range 32).any fun j => (Sparse.get {} (s.core t.waitCore).journal j : JEntry).state == 0
    | _ => false
  readyParked s die true fun t => match t.wait with
    | some (.operands srcs dst) => operandsReady s (ctxKey t.waitCore 0) srcs dst
    | _ => false

/-- A numbered command completes: the counter advances, its owner's latch sets and its waits end (R27, R222,
R253). Nothing observes a completion whose owner has ended. -/
def completeNum (s : State) (owner tl n : Nat) : State :=
  if !owns s owner tl then s
  else
    let was := (s.tline owner tl).done
    let s := s.modTline owner tl fun t => advance t n
    if (s.tline owner tl).done = was then s
    else
      let s := (ownerContexts s owner).foldl (fun s c => s.modCtx c fun x => { x with latch := x.latch ||| 0x04 }) s
      (s.dies.map (·.1)).foldl (fun s e => readyHeld (readyParked s e true fun t =>
        t.gti.toNat * 2 + 1 == owner && (match t.wait with | some (.wfe _) => true | _ => false)) e) s

/-- Whether each of tl0 to tl6 equals the count of commands issued on it (R191, R219, R236). -/
def allDone (s : State) (owner : Nat) : Bool :=
  (List.range 7).all fun tl => let t := s.tline owner tl; t.done == t.count

/-- ORs the flags held with the completions of tl6 up to number `n` into FLAGS (R324). -/
def takeHeld (s : State) (c n : Nat) : State :=
  let o := tlOwner s c
  let t := s.tline o 6
  if t.flags.isEmpty then s
  else
    let f := (t.flags.filter fun e => decide (e.1 ≤ n)).foldl (fun (a : FpFlags) e => a ||| e.2) 0
    raiseFlags (s.modTline o 6 fun t => { t with flags := t.flags.filter fun e => decide (n < e.1) }) c f

/-- Forgets the timelines of an owner that ends. -/
def dropTimelines (s : State) (owner : Nat) : State :=
  { s with tls := s.tls.filter fun e => e.1 / 8 != owner }

/-! Records (R244 to R246). -/

/-- A task record as read: its 128 bytes and the tags of its granules. -/
structure Rec where
  bytes : List Byte
  tags : List Bool
deriving DecidableEq, Repr

/-- Word `n` of a record. -/
def Rec.word (r : Rec) (n : Nat) : Word := BitVec.ofNat 64 (ofBytes ((r.bytes.drop (8 * n)).take 8))
/-- Granule `n` of a record as a register (R246). -/
def Rec.granule (r : Rec) (n : Nat) : Reg :=
  let b := BitVec.ofNat 128 (ofBytes ((r.bytes.drop (16 * n)).take 16))
  if r.tags.getD n false then { bits := b, tag := true } else Reg.ofWord (b.setWidth 64)

/-- Reads a record at its home for a world; `keep` says the tags are not stripped. None if the home refuses it or
its line is poisoned. -/
def readRec (s : State) (i : Ident) (pa : Nat) (keep : Bool) : Option Rec :=
  if homeRights s i pa && !poisoned s pa then
    some { bytes := homeBytes s pa 128, tags := (List.range 8).map fun j => keep && homeTag s (pa + 16 * j) }
  else none

def Rec.ctl (r : Rec) : Word := r.word 1
def Rec.hany (r : Rec) : Bool := r.ctl.getLsbD 63
def Rec.argn (r : Rec) : Nat := (r.ctl.extractLsb' 60 3).toNat
def Rec.kindCode (r : Rec) : Nat := (r.ctl.extractLsb' 55 2).toNat
def Rec.isActor (r : Rec) : Bool := r.ctl.getLsbD 54

/-- R246's malformed records. -/
def Rec.malformed (r : Rec) : Bool :=
  r.kindCode == 3 || decide (6 < r.argn) || decide ((r.word 0).toNat % 4 ≠ 0)
    || r.ctl.extractLsb' 21 33 != 0 || r.ctl.extractLsb' 9 7 != 0
    || (r.hany && r.ctl.extractLsb' 0 21 != 0) || (r.isActor && decide (2 < r.argn))

def Rec.kind (r : Rec) : CoreKind := match r.kindCode with | 0 => .compute | 1 => .service | _ => .host

/-- FIFO descriptor `n` of an actor record (R91, R244); rate 0: not declared. -/
def Rec.fifo (r : Rec) (n : Nat) : Option FifoDesc :=
  let w := r.word (8 + n)
  let rate := (w.extractLsb' 16 16).toNat
  if rate = 0 then none
  else some { bank := (w.extractLsb' 0 8).toNat, size := (w.extractLsb' 8 8).toNat, rate := rate }

/-- A refusal word (R262). -/
def refusal (rr : Nat) : Word := BitVec.ofNat 64 (0xFF00000000000000 + rr)

/-! Creating tasks (R247 to R251). -/

/-- A new GTI of a die's scheduler (R248). -/
def newGti (s : State) (part die : Nat) : Word × State :=
  let n := Sparse.get 0 (s.die die).serial part + 1
  (BitVec.ofNat 64 (part % 256 * 2 ^ 56 + logDie s part die % 32 * 2 ^ 51 + n % 2 ^ 51),
    s.modDie die fun d => { d with serial := Sparse.set d.serial part n })

/-- The physical die a GTI was created on. -/
def gtiDie (s : State) (gti : Word) : Nat :=
  ((physDie s (gti.toNat / 2 ^ 56) (gti.toNat / 2 ^ 51 % 32)).map (·.1)).getD 0

/-- The die a task of a kind is placed on (R251). -/
def poolDie (s : State) (part : Nat) (kind : CoreKind) (home : Option Nat) (creator : Nat) : Option Nat :=
  match home with
  | some k => some (coreDie k)
  | none =>
    match kind with
    | .host => if 8 ≤ creator then some creator else firstHostDie s part
    | _ =>
      if creator < 8 then some creator
      else match physDie s part 0 with | some (d, false) => some d | _ => none

/-- Where an agent that acts for a world finds a virtual address for an access of a kind, from a cluster, or the cause of
its translation's failure (R269, R279, R332). -/
def agentXlat (s : State) (cl : Nat) (i : Ident) (va : Word) (task : Bool) (kind : Nat) : Except (BitVec 8) (Nat × State) :=
  if i.custodian then (if reachable s i va.toNat then .ok (va.toNat, s) else .error 0x23)
  else if !canonical va then .error 0x23
  else
    match (s.clu cl).tlb.find? fun e => e.holds i va && e.grants task kind && (!kindWrites kind || e.dirty) with
    | some e =>
      let pa := e.pa + va.toNat % 2 ^ 57 % 2 ^ e.size
      if reachable s i pa then .ok (pa, s) else .error 0x23
    | none =>
      let s := walkReads s i va
      match walk s i task va kind with
      | .ok f => .ok (f.entry.pa + va.toNat % 2 ^ 57 % 2 ^ f.entry.size, markLeaf s f kind)
      | .error t => .error t.cause

/-- Where the scheduler finds a virtual address (R249, R255, R260). -/
def schedXlat (s : State) (cl : Nat) (i : Ident) (va : Word) (task : Bool := true) (kind : Nat := 0) : Option (Nat × State) :=
  (agentXlat s cl i va task kind).toOption

/-- The place of a dependence counter, if R249 allows it for a task whose home, or creating core, is `k`. -/
def counterAt (s : State) (cl : Nat) (i : Ident) (k : Nat) (dep : Word) : Option (Nat × State) :=
  if dep.toNat % 4 ≠ 0 then none
  else
    match schedXlat s cl i dep with
    | none => none
    | some (pa, s) =>
      match region pa with
      | .scratch q off =>
        let ok := if kindOfCore k = .compute then q == clusterOfCore k else i.custodian || dieInPart s (q / 64) (partNo i)
        if ok && (scratchLoc s q off).isSome then some (pa, s) else none
      | _ => none

/-- A counter's value (R249). -/
def counterValue (s : State) (pa : Nat) : Nat := ofBytes (homeBytes s pa 4)

/-- A task joins the ready pool of a die (R251). -/
def enterPool (s : State) (die : Nat) (t : Task) : State :=
  s.modDie die fun d => { d with ready := d.ready ++ [{ t with passes := 0, promoted := false }] }

/-- A created task's dependences are met: it joins the pool of R251, or its actor may fire (R250, R257). -/
def makeReady (s : State) (t : Task) : State :=
  match t.actor with
  | some a =>
    match s.actor a with
    | some x => if x.live then enterPool s ((poolDie s (partNo t.ident) t.kind t.home (gtiDie s t.gti)).getD 0) t
      else s.setActor a (some { x with live := true })
    | none => s
  | none => enterPool s ((poolDie s (partNo t.ident) t.kind t.home (gtiDie s t.gti)).getD 0) t

/-- The current generation of a virtual function (R448). -/
def genOf (s : State) (i : Ident) : BitVec 16 := (s.vf (partNo i) i.vf.toNat).gen

/-- Whether an identity's generation is current (R449). -/
def current (s : State) (i : Ident) : Bool := i.custodian || i.gen == genOf s i

/-- Counts a task in its member (R256). -/
def modMember (s : State) (job rank : Nat) (f : Member → Member) : State :=
  match s.job job with
  | some j => s.setJob job (some { j with members := Sparse.set j.members rank (f (Sparse.get {} j.members rank)) })
  | none => s

/-- Two words combined field by field (R256). -/
def combine (a b : Word) : Word :=
  BitVec.ofNat 64
    (min (a.toNat / 2 ^ 32 + b.toNat / 2 ^ 32) (2 ^ 32 - 1) * 2 ^ 32
      + max (a.toNat / 2 ^ 16 % 2 ^ 16) (b.toNat / 2 ^ 16 % 2 ^ 16) * 2 ^ 16
      + ((a ||| b).toNat % 2 ^ 16))

/-- A word holding an error code of the hardware (R256). -/
def errorWord (e : Nat) : Word := BitVec.ofNat 64 (e * 2 ^ 16)

/-- Only folds an error into a member (R255, R260). -/
def foldError (s : State) (member : Option (Nat × Nat)) (e : Nat) : State :=
  match member with
  | none => s
  | some (j, m) => modMember s j m fun x => { x with word := combine x.word (errorWord e) }

/-- Elements a FIFO bank holds (R257). -/
def fifoRoom (f : FifoDesc) : Nat := if f.size = 0 then 0 else 65536 / f.size

/-- Whether a FIFO of an actor holds the rate its record gives (R257). -/
def rateGood (f : Option FifoDesc) : Bool := match f with | some f => decide (f.rate ≤ fifoRoom f) | none => true

/-- Creates a task from a record under TSPAWN's rules (R246 to R251, R264): `i` is the creator's identity, `k` the
creating core, `homed` a home the creator gives (R255). The GTI, or a refusal. DESIGN CHOICE (log 64): an actor with a
rate above what its FIFO holds folds error 0xFF03 into its member and never fires. -/
def createTask (s : State) (i : Ident) (k : Nat) (member : Option (Nat × Nat)) (homed : Option Nat) (r : Rec) :
    Except Word (Word × State) := do
  if r.malformed then throw (refusal 1)
  let kind := r.kind
  let home ← match homed with
    | some h => if kindOfCore h = kind then pure (some h) else throw (refusal 2)
    | none =>
      if r.hany then pure none
      else match coreOfWord s i (r.ctl.toNat % 2 ^ 21) with
        | some h => if kindOfCore h = kind then pure (some h) else throw (refusal 2)
        | none => throw (refusal 2)
  let pool ← match poolDie s (partNo i) kind home (coreDie k) with | some d => pure d | none => throw (refusal 2)
  let dep := r.word 2
  let (ctr, s) ←
    if dep = 0 then pure (none, s)
    else match counterAt s (clusterOfCore k) i (home.getD k) dep with
      | none => throw (refusal 3)
      | some (pa, s) =>
        let tbl := (s.die (match region pa with | .scratch q _ => q / 64 | _ => 0)).pending
        if tbl.any fun e => e.1 == pa then throw (refusal 4)
        else if 65536 ≤ tbl.length then throw (refusal 5)
        else pure (some pa, s)
  let (gti, s) := newGti s (partNo i) (coreDie k)
  let who : Ident := { custodian := false, part := i.part, vf := i.vf, gen := genOf s i, world := kind != .host }
  let t : Task :=
    { gti := gti, ident := who, kind := kind, prio := (r.ctl.extractLsb' 57 2).toNat, lock := r.ctl.getLsbD 59, home := home
      member := member, entry := r.word 0, cont := r.word 3, record := r.bytes
      args := (List.range r.argn).map fun j => r.granule (2 + j) }
  let (t, s) :=
    if r.isActor then
      let (a, s) := s.new
      let t := { t with actor := some a }
      let fifos := (List.range 8).map r.fifo
      let good := fifos.all rateGood
      let s := if good then s else foldError s member 0xFF03
      (t, s.setActor a (some
        { task := t, cluster := clusterOfCore (home.getD k), ins := fifos.take 4, outs := fifos.drop 4, retired := !good }))
    else (t, match member with | some (j, m) => modMember s j m fun x => { x with live := x.live + 1 } | none => s)
  match ctr with
  | some pa =>
    if counterValue s pa = 0 then pure (gti, makeReady s t)
    else
      let d := match region pa with | .scratch q _ => q / 64 | _ => pool
      pure (gti, s.modDie d fun x => { x with pending := x.pending ++ [(pa, t)] })
  | none => pure (gti, makeReady s t)

/-- A task signal at its counter's die (R249, R250). -/
def signalCounter (s : State) (pa amount : Nat) : State :=
  if amount = 0 then s
  else
    let die := match region pa with | .scratch q _ => q / 64 | _ => 0
    let v := counterValue s pa
    let s := if v < amount then s.modDie die fun d => { d with under := min (d.under + 1) 0xFFFF } else s
    let s := homeStore s pa (toBytes 4 (v - amount))
    if 0 < v ∧ v ≤ amount then
      match (s.die die).pending.find? fun e => e.1 == pa with
      | some e => makeReady (s.modDie die fun d => { d with pending := d.pending.filter fun e => e.1 != pa }) e.2
      | none => s
    else s

/-! The Buoy tree (R255, R256). -/

/-- Zeroes a cluster's scratch space: every scratch bank reads zero (R218, R450). -/
def zeroScratch (s : State) (cl : Nat) : State :=
  zeroRange s (2 ^ 52 + cl / 64 * 2 ^ 25 + cl % 64 * 2 ^ 21) (2 ^ 21)

/-- Frees an orphaned scratchpad: its banks return to cache mode (R450). -/
def freeScratch (s : State) (cl : Nat) : State :=
  (zeroScratch s cl).modClu cl fun k => { k with orphan := none, modes := [], fifo := [], job := none, bridle := false }

/-- Bank `b`'s mode in a mode word of R94. -/
def modeOf (w : Word) (b : Nat) : Option BankMode :=
  match (w.extractLsb' (2 * b) 2).toNat with | 0 => some .cache | 1 => some .scratch | 2 => some .fifo | _ => none

/-- Scratch banks among 32 modes. -/
def scratchCount (f : Nat → BankMode) : Nat := ((List.range 32).filter fun b => f b == .scratch).length

/-- Sets a cluster's bank modes, with what R218 says a bank holds after. -/
def setModes (s : State) (cl : Nat) (f : Nat → BankMode) : State :=
  let old := bankMode s cl
  let base := 2 ^ 52 + cl / 64 * 2 ^ 25 + cl % 64 * 2 ^ 21
  let s := if scratchCount old = scratchCount f then
      (List.range 32).foldl (fun s b => if f b = .scratch ∧ old b ≠ .scratch then zeroRange s (base + b * 65536) 65536 else s) s
    else zeroScratch s cl
  if (List.range 32).all fun b => old b == f b then s
  else
    let ways := ((List.range 32).filter fun b => f b == .cache && old b == .cache).length
    let s := { s with l1 := s.l1.map fun (e : Nat × List L1Line) => if e.1 / 512 = cl then (e.1, e.2.take ways) else e }
    s.modClu cl fun k => { k with
      modes := (List.range 32).filterMap fun b => if f b = .cache then none else some (b, f b)
      fifo := k.fifo.filter fun e => f e.1 == .fifo && old e.1 == .fifo }

/-- The cluster and the bank a scratchpad address lies in (R272). -/
def bankOf (s : State) (pa : Nat) : Option (Nat × Nat) :=
  match region pa with
  | .scratch cl off => (scratchLoc s cl off).map fun a => (cl, (a - (2 ^ 52 + cl / 64 * 2 ^ 25 + cl % 64 * 2 ^ 21)) / 65536)
  | _ => none

/-- Where a message will perform an access at memory, if it does. -/
def NetMsg.target (s : State) : NetMsg → Option Nat
  | .post core j => some (Sparse.get {} (s.core core).journal j : JEntry).acc.pa
  | .atomic r => some r.pa
  | .sig r => some r.pa
  | _ => none

/-- Whether the banks of a cluster that change have no access pending, sent before message `first` and not yet performed,
and its scratchpad is no orphan (R218, R273, R450). Their lines need no cleaning: `mem` has the bytes. -/
def banksIdle (s : State) (cl : Nat) (changes : Nat → Bool) (first : Nat) : Bool :=
  (s.clu cl).orphan.isNone &&
    s.net.all fun m => decide (first ≤ m.1) || match (m.2.target s).bind (bankOf s) with
      | some (q, b) => q != cl || !changes b
      | none => true

/-- Whether a bank changes its mode where a BANKCFG sets those of a mask. -/
def bankChanges (s : State) (cl m : Nat) (mode : BankMode) (b : Nat) : Bool := m.testBit b && bankMode s cl b != mode

/-- Whether an access of a context of another cluster, sent as message `n` to a bank, is held there, since a BANKCFG that
changes the bank waits (R273). -/
def bankHeld (s : State) (c pa n : Nat) : Bool :=
  match bankOf s pa with
  | some (cl, b) => cl != clusterOf c && s.ctxs.any fun e => match e.2.run with
    | .blocked (.banks q m mode first) _ => q == cl && bankChanges s cl m mode b && decide (first ≤ n)
    | _ => false
  | none => false

/-- Whether a cluster's bank is a FIFO of an actor of a live job (R218). -/
def fifoHeld (s : State) (cl b : Nat) : Bool :=
  s.actors.any fun e => match e.2 with
    | some a => !a.retired && a.cluster == cl && a.task.member.isSome
        && (a.ins ++ a.outs).any fun f => match f with | some f => f.bank == b | none => false
    | none => false

/-- A job's scratchpads are orphaned where a context of another job is attached (R450). -/
def orphanJob (s : State) (job : Nat) (cls : List Nat) : State :=
  cls.foldl (fun s cl =>
    let k := s.clu cl
    if k.job = some job ∧ k.attached.any (fun (a : Nat × Option Nat) => a.2 != some job) then s.modClu cl fun k => { k with orphan := some s.time.toNat }
    else s) s

/-- The live jobs of a partition. -/
def liveJobs (s : State) (part : BitVec 8) : List Nat :=
  (s.jobs.filter fun e => match e.2 with | some j => j.live && j.part == part | none => false).map (·.1)

/-- A job is over: its clusters are the next live job's, or no job's, its pairs part and give up the Bridle's 96 KiB
where no other live job has them, and with the last job of its partition the table unlocks (R21, R162, R255). -/
def closeJob (s : State) (job : Nat) (j : Job) : State :=
  let others : List (Nat × Job) := s.jobs.filterMap fun e =>
    e.2.bind fun o => if e.1 != job && o.live then some (e.1, o) else none
  let s := j.clusters.foldl (fun s cl => s.modClu cl fun k => { k with
    job := if k.job = some job then ((others.filter fun o => o.2.clusters.contains cl).getLast?).map (·.1) else k.job
    bridle := k.bridle && others.any fun o => o.2.bridle && o.2.clusters.contains cl }) s
  let kept (core : Nat) : Bool := others.any fun o => o.2.bridle && o.2.members.any fun m => m.2.core == core
  let s := if j.bridle then j.members.foldl (fun s m =>
      if kept m.2.core then s else (releaseGated s m.2.core).modCore m.2.core fun k => { k with bridle := none }) s else s
  let s := { s with actors := s.actors.filter fun e => match e.2 with | some a => a.task.member.map (fun (m : Nat × Nat) => m.1) != some job | none => false }
  let s := s.setJob job none
  if (liveJobs s j.part).isEmpty then s.modPart j.part.toNat fun p => { p with ldtlock := false } else s

/-- Writes the completion word at partition scope, if its home takes it, and advances the launcher's tl7 (R255,
R256). -/
def finishJob (s : State) (job : Nat) (word : Word) : State :=
  match s.job job with
  | none => s
  | some j =>
    let s := match j.word with
      | some pa => if homeRights s j.ident pa then homeStoreWord s pa word else s
      | none => s
    closeJob (completeNum s j.owner 7 j.num) job j

/-- The rank of the member an actor is homed on: the member on its home core, else the one its tasks count in (R256). -/
def actorRank (j : Job) (a : Actor) : Option Nat :=
  match a.task.home.bind fun h => j.members.find? fun m => m.2.core == h with
  | some m => some m.1
  | none => a.task.member.map fun m => m.2

/-- Sends a member's done message, or ends the job at its root, once R256's three conditions hold. -/
def settleMember (s : State) (job rank : Nat) : State :=
  match s.job job with
  | none => s
  | some j =>
    let m : Member := Sparse.get {} j.members rank
    let idle := s.actors.all fun e => match e.2 with
      | some a => a.retired || a.task.member.map (fun m => m.1) != some job || actorRank j a != some rank
      | none => true
    if m.sent ∨ m.live ≠ 0 ∨ !idle ∨ !(m.children.all m.heard.contains) then s
    else
      let s := modMember s job rank fun x => { x with sent := true }
      match m.parent with
      | none => finishJob s job m.word
      | some _ => let (n, s) := s.new; { s with net := s.net ++ [(n, NetMsg.done job rank m.word)] }

/-- Folds a word into a task's member and counts the task out of it (R256). -/
def foldMember (s : State) (member : Option (Nat × Nat)) (word : Word) : State :=
  match member with
  | none => s
  | some (j, m) => settleMember (modMember s j m fun x => { x with word := combine x.word word, live := x.live - 1 }) j m


/-! Actors (R257, R258). -/

/-- Committed elements of a bank. -/
def fifoLen (s : State) (cl b : Nat) : Nat := (Sparse.get [] (s.clu cl).fifo b).length

/-- Whether an actor may fire now (R257). -/
def canFire (s : State) (a : Actor) : Bool :=
  a.live && !a.retired && !a.firing
    && (a.ins.all fun f => match f with | some f => decide (f.rate ≤ fifoLen s a.cluster f.bank) | none => true)
    && a.outs.all fun f => match f with | some f => decide (fifoLen s a.cluster f.bank + f.rate ≤ fifoRoom f) | none => true

/-- Whether every producer into an actor's inputs has retired (R258). -/
def starved (s : State) (a : Actor) : Bool :=
  let ins := a.ins.filterMap id
  !ins.isEmpty && s.actors.all fun e => match e.2 with
    | some p => p.retired || p.cluster != a.cluster || !((p.outs.filterMap id).any fun f => ins.any fun g => g.bank == f.bank)
    | none => true

/-- The member an actor is homed on may end, now that the actor has retired (R256). -/
def settleActor (s : State) (a : Actor) : State :=
  match a.task.member with
  | some (j, _) =>
    match (s.job j).bind fun q => actorRank q a with
    | some m => settleMember s j m
    | none => s
  | none => s

/-- Retires each actor that can never fire again, and lets its member end (R256, R258). -/
def retirePass (s : State) : State :=
  s.actors.foldl (fun s e => match s.actor e.1 with
    | some a =>
      if !a.retired && a.live && !a.firing && !canFire s a && starved s a then
        settleActor (s.setActor e.1 (some { a with retired := true })) a
      else s
    | none => s) s

/-- Actors retire as long as one that retires starves another (R258). -/
def retireActors (s : State) : State := (List.range s.actors.length).foldl (fun s _ => retirePass s) s

/-- The end of a firing: its reserved inputs are removed, what it wrote is committed (R257). -/
def endFiring (s : State) (n : Nat) (status : Word) : State :=
  match s.actor n with
  | none => s
  | some a =>
    let s := s.modClu a.cluster fun k =>
      let fifo := a.ins.foldl (fun m f => match f with
        | some f => Sparse.set m f.bank ((Sparse.get [] m f.bank).drop f.rate)
        | none => m) k.fifo
      { k with fifo := (a.outs.zip a.wrote).foldl (fun m e => match e.1 with
          | some f => Sparse.set m f.bank (Sparse.get [] m f.bank ++ e.2)
          | none => m) fifo }
    let b := { a with firing := false, read := [], wrote := [], retired := a.retired || status.getLsbD 15 }
    let s := s.setActor n (some b)
    retireActors (if b.retired then settleActor s b else s)

/-! Leaving a context. -/

/-- The lowest free area of a virtual function's pool on a die (R237). -/
def freeArea (s : State) (die vf : Nat) : Option Nat :=
  let p : Pool := Sparse.get {} (s.die die).pools vf
  if p.en then (List.range p.n).find? fun i => !p.used.contains i else none

/-- Whether a context claims a matrix item (R381). -/
def holdsClaims (s : State) (c : Nat) : Bool :=
  let m := (s.core (coreOf c)).matrix
  m.slots.any (fun e => e.2.owner == some c) || m.accs.any fun e => e.2.owner == some c

/-- Whether a pre-emption, halt or migration may stop a context now: it runs a task at task level, an area is free,
it is not entered in a Beacon frame, and it holds no claim without an image (R232, R237, R406, R425). -/
def stoppable (s : State) (c : Nat) : Bool :=
  let x := s.ctx c
  x.level == .task && x.task.isSome && (freeArea s (dieOf c) x.ident.vf.toNat).isSome
    && !(holdsClaims s c && x.mimage == 0)
    && (match x.run with | .running => true | .blocked .beacon _ => false | .blocked _ _ => true | _ => false)

/-- Whether a YIELD is switched out: it runs a task at task level and an area is free (R190). -/
def yields (s : State) (c : Nat) : Bool :=
  let x := s.ctx c
  x.level == .task && x.task.isSome && (freeArea s (dieOf c) x.ident.vf.toNat).isSome

/-- Releases a context's matrix claims (R381, R404). -/
def releaseClaims (s : State) (c : Nat) : State :=
  let k := s.core (coreOf c)
  if k.matrix.slots.any (fun e => e.2.owner == some c) || k.matrix.accs.any (fun e => e.2.owner == some c) then
    s.setCore (coreOf c) { k with matrix := { k.matrix with
      slots := k.matrix.slots.filter fun e => e.2.owner != some c
      accs := k.matrix.accs.filter fun e => e.2.owner != some c } }
  else s

/-- A context is no longer attached anywhere; an orphan that loses its last one is freed (R450). -/
def detach (s : State) (c : Nat) : State :=
  s.clus.foldl (fun s e =>
    let k := s.clu e.1
    if k.attached.any fun a => a.1 == c then
      let s := s.modClu e.1 fun k => { k with attached := k.attached.filter fun a => a.1 != c }
      if k.orphan.isSome && (s.clu e.1).attached.isEmpty then freeScratch s e.1 else s
    else s) s

/-- The first group of cores that may leave its border now: each of their contexts has let its task go, and they are the
last of their map, so that no other core's number changes (R268, R448). -/
def borderReady (s : State) (die : Nat) : Option (List Nat × Nat) :=
  (s.die die).leaving.find? fun e =>
    (e.1.all fun n => (contextsOf (die * 512 + n)).all fun c => (s.ctx c).task.isNone)
      && (s.die die).cmap.any fun m => e.1.isSuffixOf m.2

/-- Cores of a die leave their borders as they may (R268). -/
def settleBorders (die : Nat) : Nat → State → State
  | 0, s => s
  | n + 1, s =>
    match borderReady s die with
    | none => s
    | some e =>
      settleBorders die n (s.modDie die fun d =>
        let m : Sparse (List Nat) := d.cmap.map fun (x : Nat × List Nat) => (x.1, x.2.filter fun k => !e.1.contains k)
        { d with leaving := d.leaving.erase e, cmap := Sparse.set m e.2 (Sparse.get [] m e.2 ++ e.1) })

/-- Cores of the die of `k` leave the borders they are in once each of their contexts has let its task go (R268). -/
def settleBorder (s : State) (k : Nat) : State := settleBorders (coreDie k) (s.die (coreDie k)).leaving.length s

/-- Whether a context's instruction has left the core and must have its reply there (R298, R425, R437): a BCLISTEN
and a load may be abandoned. -/
def holdsOut (x : Context) : Bool :=
  x.sent && (match x.run with | .blocked .listen _ | .blocked (.load ..) _ => false | _ => true)

/-- A BCLISTEN that is abandoned is registered no more (R425). -/
def abandonListen (s : State) (c : Nat) : State :=
  match (s.ctx c).run with
  | .blocked .listen _ =>
    let mine (e : Entrant) : Bool := e.listen && e.c == c
    { s.modCtx c (fun x => { x with sent := false, reply := none }) with
      net := s.net.filter fun m => match m.2 with | .entry e => !mine e | _ => true
      lanes := s.lanes.map fun l => (l.1, { l.2 with entrants := l.2.entrants.filter fun e => !mine e }) }
  | _ => s

/-- A posted store that has not left its context's order buffer goes with it. -/
def dropPosts (s : State) (c : Nat) : State :=
  let js := (s.ctx c).lob.filterMap fun e => match e.op with | .post j => some j | _ => none
  if js.isEmpty then s
  else s.modCore (coreOf c) fun k => { k with journal := k.journal.filter fun e => !js.contains e.1 }

/-- A context's queued matrix instructions raise no flag any more: nothing of their context is left (R135). -/
def dropMatrix (s : State) (c : Nat) : State :=
  if (s.core (coreOf c)).matrix.queue.any fun e => e.c == c then
    s.modCore (coreOf c) fun k => { k with matrix := { k.matrix with queue := k.matrix.queue.filter fun e => e.c != c } }
  else s

/-- What a context was doing is no more, whether it ends, is killed, or is abandoned: words it took are back, its
timelines without a task are gone, and no reply to what it has sent is its next occupant's (R47, R449, R482). -/
def dropWork (s : State) (c : Nat) : State :=
  let s := dropMatrix (dropPosts (abandonListen (charge (giveBack (squash s c) c) c) c) c) c
  let s := if (s.ctx c).task.isNone then dropTimelines s (tlOwner s c) else s
  s.modCtx c fun x => { x with
    run := .free, task := none, lob := [], vq := [], pend := [], later := [], outst := 0, acked := false, oflags := 0
    reply := none, sent := false, request := none, walk := none, spec := none, set := x.set + 1
    atoms := x.atoms.map fun a => match a with | .inl r => .inl { r with dst := none } | .inr r => .inr r }

/-- The context is free: it holds no task and no state; what it has sent and not had answered is still owed. -/
def freeContext (s : State) (c : Nat) : State :=
  let s := dropWork s c
  let x := s.ctx c
  let s := s.setCtx c { nextId := x.nextId, seq := x.seq, atoms := x.atoms, set := x.set }
  settleBorder (detach (releaseClaims s c) c) (coreOf c)

/-- Ends every MIGR waiting on a task with a status (R224, R238). -/
def answerMigr (s : State) (gti : Word) (w : Word) : State :=
  s.ctxs.foldl (fun s e => match e.2.run with
    | .blocked (.migrate g) _ => if g = gti then s.modCtx e.1 fun x => { x with reply := some (.ok w) } else s
    | _ => s) s

/-- Sends the lapse of a task's forwarding entries back along their chain from a core (R483). -/
def sendLapse (s : State) (core : Nat) (gti : Word) : State :=
  match s.cores.find? fun e => e.2.fwd.any fun f => f.gti == gti && f.target == core with
  | some e => let (n, s) := s.new; { s with net := s.net ++ [(n, NetMsg.lapse e.1 gti)] }
  | none => s

/-- Creates the task of a continuation link (R260). -/
def followCont (s : State) (core : Nat) (t : Task) : State :=
  let r := if t.cont.toNat % 128 ≠ 0 then none
    else match schedXlat s (clusterOfCore core) t.ident t.cont with
      | some (pa, s) => (readRec s t.ident pa true).map fun r => (r, s)
      | none => none
  match r with
  | none => foldError s t.member 0xFF04
  | some (r, s) =>
    match createTask s t.ident core t.member none r with
    | .ok (_, s) => s
    | .error _ => foldError s t.member 0xFF04

/-- What the end of a task does beyond its context: the continuation link, the member, the firing, the count of its
virtual function, the capture, the lapse of its forwarding entries, a MIGR that waits for it (R191, R224, R256 to
R261, R268, R473, R483). -/
def retireTask (s : State) (core : Nat) (t : Task) (status : Word) (follow : Bool) (code : Nat) : State :=
  let s := traceEvent s (partNo t.ident) 3 code (coreWord s t.ident core).toNat t.gti status
  let s := if follow && t.cont != 0 && !t.handler then followCont s core t else s
  let s := match t.actor with | some a => endFiring s a status | none => s
  let s := if t.handler then s else foldMember s t.member status
  let s := s.modVf (partNo t.ident) t.ident.vf.toNat fun v => { v with doneCur := v.doneCur + 1 }
  let s := match t.replay with
    | some e => s.modPart (partNo t.ident) fun p => { p with
        reps := Sparse.set p.reps e { (Sparse.get {} p.reps e : Replay) with state := 2 } }
    | none => s
  let s := match t.msg with
    | some (w, t0, t1) =>
      messageTimes s core w.toNat ((t1 + 2 ^ 48 - t0) % 2 ^ 48) (t.msgStart - t1) (s.time.toNat - t.msgStart)
    | none => s
  dropTimelines (answerMigr (sendLapse s core t.gti) t.gti 4) (t.gti.toNat * 2 + 1)

end Sys2Proof.Machine
end

