-- ==== Sys2Proof/Machine/Engine.lean ====
section
/-! DEFINITION. How a context issues an engine command: the translations captured before Issue, the entry in the
order buffer, and a reply from an engine (R100, R112, R113, R277). -/

namespace Sys2Proof.Machine

/-- Translates pages for an access of a kind, in ascending order (R100, R155). -/
def xlatPages (s : State) (c kind : Nat) : List Nat → Res Xlat
  | [] => .ok []
  | p :: r => do
    let t ← translate s c (BitVec.ofNat 64 (p * 4096)) kind
    let l ← xlatPages s c kind r
    pure ((p, t.1 / 4096) :: l)

/-- Pages of `n` bytes at an address. -/
def pagesOf (a n : Nat) : List Nat := if n = 0 then [] else (List.range ((a % 4096 + n - 1) / 4096 + 1)).map (a / 4096 + ·)

/-- Translates the pages of `n` bytes at an address, whose own translation reports the address itself. -/
def xlatRange (s : State) (c : Nat) (ea : Word) (n kind : Nat) : Res Xlat := do
  let t ← translate s c ea kind
  let l ← xlatPages s c kind ((pagesOf ea.toNat n).drop 1)
  pure ((ea.toNat / 4096, t.1 / 4096) :: l)

/-- The physical address of a virtual one under captured translations. -/
def xlAt (xl : Xlat) (va : Nat) : Nat :=
  match xl.find? fun e => e.1 == va / 4096 with
  | some e => e.2 * 4096 + va % 4096
  | none => va

/-- A capability operand of an engine command: checks 1 to 5 of R155 and the alignment, before Issue (R262). -/
def engineCap (s : State) (c : Nat) (r : BitVec 6) (perm : BitVec 12) (n align : Nat) : Res Reg := do
  let g ← regOf s c r
  let ea : Word := g.bits.setWidth 64
  let _ ← capCheck g r perm ea n
  trapIf (decide (ea.toNat % align ≠ 0)) 0x0E ea
  pure g

/-- Where an engine command's operand lies (R155, R271, R272). -/
def engineAt (s : State) (c : Nat) (ea : Word) (n kind : Nat) : Res Nat := do
  let t ← translate s c ea kind
  placeCheck s ea t.1 n kind false
  ask (!frameHeld s t.1) .stall
  pure t.1

/-- Whether captured translations hold every page of a range. -/
def xlHolds (xl : Xlat) (a n : Nat) : Bool := (pagesOf a n).all fun p => xl.any fun e => e.1 == p

/-- Translates every page of `n` bytes at an address in ascending order, and checks what the place of each asks
(R155, R271, R272). -/
def xlatPlaced (s : State) (c : Nat) (ea : Word) (n kind : Nat) : Res Xlat :=
  let a := ea.toNat
  (pagesOf a n).foldlM (fun (l : Xlat) p => do
    let lo := max a (p * 4096)
    let hi := min (a + n) (p * 4096 + 4096)
    let va : Word := BitVec.ofNat 64 lo
    let t ← translate s c va kind
    placeCheck s va t.1 (hi - lo) kind false
    pure (l ++ [(p, t.1 / 4096)])) []

/-- Deliveries of a copy. -/
def CopyShape.total (h : CopyShape) : Nat := h.l * h.r * h.p

/-- The translations a command captured. -/
def EngOp.xlat : EngOp → Xlat
  | .copy _ _ _ _ _ xl _ _ | .tclook _ _ _ _ xl | .tchalo _ _ _ _ _ xl | .sgath _ _ _ _ _ _ _ _ xl _ | .sred _ _ _ _ _ xl
  | .sconv _ _ _ _ _ _ _ xl | .launch _ xl _ => xl
  | _ => []

/-- Whether some use of a command's captured addresses is one of those `hit` names: virtual, where it is known, and
physical. -/
def EngOp.uses (op : EngOp) (hit : Option Word → Nat → Bool) : Bool :=
  match op with
  | .vst l => l.any fun z => hit (some z.1.ea) z.1.pa
  | .words ws _ => ws.any fun z => hit none z.2.1
  | .copy _ _ _ _ _ xl _ rem =>
    xl.any (fun p => hit (some (BitVec.ofNat 64 (p.1 * 4096))) (p.2 * 4096))
      || (match rem.bind fun r => r.flag with | some f => hit none f | none => false)
  | o => o.xlat.any fun p => hit (some (BitVec.ofNat 64 (p.1 * 4096))) (p.2 * 4096)

/-- The same of an entry of an order buffer that has not performed. -/
def LobOp.uses (op : LobOp) (hit : Option Word → Nat → Bool) : Bool :=
  match op with
  | .load acc _ => acc.any fun a => hit (some a.ea) a.pa
  | .store d _ _ _ => d.any fun z => hit (some z.1.ea) z.1.pa
  | .atomic r => hit (some r.ea) r.pa
  | .signal r => hit (some r.ea) r.pa
  | .cmd o _ => o.uses hit
  | _ => false

/-- Whether an access that a die of some dies has begun, and that has not performed, is one of those `hit` names
(R223, R436): in order buffers, on the way to an engine, in store queues and journals, or of a command. -/
def unperformed (s : State) (dies : Nat → Bool) (hit : Ident → Option Word → Nat → Bool) : Bool :=
  s.ctxs.any (fun e => dies (dieOf e.1) && (e.2.lob.any (fun y => y.op.uses (hit y.ident))
      || e.2.atoms.any fun a => match a with
        | .inl q => !q.performed && hit q.ident (some q.ea) q.pa
        | .inr q => hit q.ident (some q.ea) q.pa))
    || s.clus.any (fun k => dies (k.1 / 64) && k.2.csq.any fun y => y.data.any fun z => hit y.ident (some z.1.ea) z.1.pa)
    || s.cores.any (fun k => dies (coreDie k.1) && k.2.journal.any fun j =>
        j.2.state == 1 && hit j.2.ident (some j.2.acc.ea) j.2.acc.pa)
    || s.cmds.any fun e => dies (coreDie e.core) && e.op.uses (hit e.ident)

/-! Accesses of an engine at the homes of its effects (R114, R285, R286, R432, R450). -/

/-- Why an engine's access is not performed. -/
inductive Bad where
  | poison | custody | die | orphan | unbacked | lock | stopped | bounds | xlat (cause : BitVec 8)
deriving DecidableEq, Repr

/-- What refuses an access of a world from a die at its home, poison apart: each of its lines is checked (R432), and a
read of a line whose tag fails is one of a frozen partition (R454). -/
def accessBad (s : State) (die : Nat) (i : Ident) (pa n : Nat) (write : Bool) : Option Bad :=
  if (s.die die).lost.getLsbD (homeDie s pa) then some .die
  else
    match region pa with
    | .scratch cl off =>
      if write && (s.clu cl).orphan.isSome then some .orphan
      else if (scratchLoc s cl (off + n - 1)).isNone then some .unbacked
      else none
    | .reserved => some .die
    | _ =>
      if !((linesOf pa n).all fun l => homeRights s i (l * 128)) then some .custody
      else if !write && (linesOf pa n).any fun l => sealBad s (l * 128) then some .stopped
      else none

/-- The first line of a range, in ascending order, whose access from a die fails: why, and its offset in the range
(R323, R346). -/
def firstBad (s : State) (die : Nat) (i : Ident) (pa n : Nat) (write : Bool) : Option (Bad × Nat) :=
  (linesOf pa n).findSome? fun l =>
    let lo := max pa (l * 128)
    match accessBad s die i lo (min (pa + n) (l * 128 + 128) - lo) write with
    | some b => some (b, lo - pa)
    | none => if !write && poisoned s lo then some (.poison, lo - pa) else none

/-- Reads bytes at their home. -/
def engineGet (s : State) (die : Nat) (i : Ident) (pa n : Nat) : Except Bad (List Byte × State) :=
  match firstBad s die i pa n false with
  | some b => .error b.1
  | none =>
    match region pa with
    | .mmio => .ok ((List.range n).map (fun j => (Config.mmioRead (s.fresh + j)).setWidth 8), { s with fresh := s.fresh + n })
    | _ => .ok (homeBytes s pa n, tileRead s pa n)

/-- Writes bytes at their home. -/
def enginePut (s : State) (die : Nat) (i : Ident) (pa : Nat) (b : List Byte) : Except Bad State :=
  match firstBad s die i pa b.length true with
  | some e => .error e.1
  | none =>
    match region pa with
    | .mmio => .ok { s with devout := s.devout ++ [(pa, b)] }
    | _ => .ok (homeStore s pa b)

/-- Pieces of a virtual range that lie in one page each: physical address and length. -/
def xlPieces (xl : Xlat) (a n : Nat) : List (Nat × Nat) :=
  (pagesOf a n).map fun p =>
    let lo := max a (p * 4096)
    (xlAt xl lo, min (a + n) (p * 4096 + 4096) - lo)

/-- The first failure of an access to a virtual range, and its offset in it. -/
def firstBadAt (s : State) (die : Nat) (i : Ident) (xl : Xlat) (a n : Nat) (write : Bool) : Option (Bad × Nat) :=
  (pagesOf a n).findSome? fun p =>
    let lo := max a (p * 4096)
    (firstBad s die i (xlAt xl lo) (min (a + n) (p * 4096 + 4096) - lo) write).map fun b => (b.1, b.2 + (lo - a))

/-- Reads a virtual range under captured translations. -/
def engineGetAt (s : State) (die : Nat) (i : Ident) (xl : Xlat) (a n : Nat) : Except Bad (List Byte × State) :=
  (xlPieces xl a n).foldlM (fun (r : List Byte × State) p => do
    let (b, s) ← engineGet r.2 die i p.1 p.2
    pure (r.1 ++ b, s)) ([], s)

/-- Writes a virtual range under captured translations, all of it or none. -/
def enginePutAt (s : State) (die : Nat) (i : Ident) (xl : Xlat) (a : Nat) (b : List Byte) : Except Bad State := do
  let r ← (xlPieces xl a b.length).foldlM (fun (r : State × List Byte) p => do
    let s ← enginePut r.1 die i p.1 (r.2.take p.2)
    pure (s, r.2.drop p.2)) (s, b)
  pure r.1

/-- Whether a command's partition is frozen or its virtual function has a new generation (R323, R346). -/
def cmdStopped (s : State) (i : Ident) : Bool := !i.custodian && ((s.part (partNo i)).frozen || !current s i)

/-- A numbered command joins the order buffer (R113). -/
def pushCmd (s : State) (c : Nat) (op : EngOp) (tl : Nat) : Res State := do
  let s ← gateRoom s c
  pure (retire (lobPush s c (.cmd op tl)) c)

/-- Writes an engine's reply to a scalar destination and raises its flags; a remote mailbox takes it as any result
(R49, R135, R262). -/
def answer (s : State) (c : Nat) (d : Dst) (w : Word) (f : FpFlags := 0) : Res State :=
  match d with
  | .xm _ _ => scalarOp [] d (fun _ _ => (w, f)) c s
  | d => do
    ask (operandsReady s c [] (some d)) .stall
    pure (replied (deliver (raiseFlags s c f) c d w) c)

/-- Whether a destination that must be a known core is one, and has room (R22, R45). -/
def destReady (s : State) (c : Nat) (d : Dst) : Res Unit :=
  match d with
  | .xm _ k => do
    ask (!(s.ctx c).pendG k) .stall
    let _ ← mailTarget s c k
    pure ()
  | _ => .ok ()

/-- A command that blocks its context until the engine replies: `f` gives the reply and the state, or what the engine
waits for, while the context keeps the source words that the command has taken (R45, R112, R113). -/
def blockingCmd (s : State) (c : Nat) (srcs : List Src) (d : Dst) (f : List Word → State → Res (Word × State)) : Res State := do
  destReady s c d
  let s ← leaveNow s c .part
  let (ws, t) ← holdWords s c srcs (some d)
  match (do f ws (← useWords t c srcs) : Res (Word × State)) with
  | .ok (w, s) => answer s c d w
  | .error (.block w) => pure (blockOn t c w)
  | .error h => .error h

end Sys2Proof.Machine
end

