-- ==== Sys2Proof/Machine/Integer.lean ====
section
/-! DEFINITION. The integer instructions (R163 to R176). -/

namespace Sys2Proof.Machine

/-- What a meaning answers. -/
abbrev Out := Host.Outcome State Fault Refusal

/-- Ext of R163: the low bits of a word as an exact integer of the type. -/
def ext (t : IntTy) (x : Word) : Int :=
  if t.signed then (x.setWidth t.width).toInt else ((x.setWidth t.width).toNat : Int)

/-- The word R165 writes for an exact result. -/
def result (t : IntTy) (r : Int) : Word := BitVec.ofInt 64 (ext t (BitVec.ofInt 64 r))

/-- The second operand Y (R164). -/
def yOf (t : IntTy) (b : Word) (imm : BitVec 35) : Int := ext t (b + imm.signExtend 64)

/-- Source word `n` of an instruction. -/
def arg (ws : List Word) (n : Nat) : Word := ws.getD n 0

/-- The `w`-bit pattern of an exact integer (R171). -/
def pattern (t : IntTy) (x : Int) : Nat := (x % (2 ^ t.width : Nat)).toNat

/-- An instruction of the shape of ADD (R169). -/
def intOp3 (o : Alu3) (f : Int → Int → Int → Int) : Nat → State → Res State :=
  scalarOp [o.a, o.b, o.c] o.d fun _ ws =>
    (result o.ty (f (ext o.ty (arg ws 0)) (yOf o.ty (arg ws 1) o.imm) (ext o.ty (arg ws 2))), 0)

/-- An instruction of the shape of MULH (R169 to R172). -/
def intOp2 (o : Alu2) (f : Int → Int → Int) : Nat → State → Res State :=
  scalarOp [o.a, o.b] o.d fun _ ws =>
    (result o.ty (f (ext o.ty (arg ws 0)) (yOf o.ty (arg ws 1) o.imm)), 0)

/-- The bitwise operations work on the patterns (R169). -/
def bitOp (f : Word → Word → Word) (a y : Int) : Int := ((f (BitVec.ofInt 64 a) (BitVec.ofInt 64 y)).toNat : Int)

/-- DIV (R170). -/
def divide (t : IntTy) (a y : Int) : Int :=
  if y = 0 then (if t.signed then -1 else 2 ^ t.width - 1) else a.tdiv y
/-- REM (R170). -/
def remainder (a y : Int) : Int := if y = 0 then a else a.tmod y

/-- The shift count: Y modulo 2^64, unsigned (R171). -/
def shiftCount (y : Int) : Nat := (y % (2 ^ 64 : Nat)).toNat

def shiftLeft (t : IntTy) (a y : Int) : Int :=
  let n := shiftCount y
  if n < t.width then (pattern t a * 2 ^ n : Nat) else 0
def shiftRight (t : IntTy) (a y : Int) : Int :=
  let n := shiftCount y
  if n < t.width then (pattern t a / 2 ^ n : Nat) else 0
/-- The pattern filled with its bit w-1 (R171). -/
def shiftArith (t : IntTy) (a y : Int) : Int :=
  let n := min (shiftCount y) (t.width - 1)
  let p := pattern t a
  let v : Int := if 2 ^ (t.width - 1) ≤ p then (p : Int) - (2 ^ t.width : Nat) else p
  v / (2 ^ n : Nat)
def rotate (t : IntTy) (a y : Int) : Int :=
  let n := shiftCount y % t.width
  let p := pattern t a
  (p * 2 ^ n % 2 ^ t.width + p / 2 ^ (t.width - n) : Nat)

/-- Leading zeros of a `w`-bit pattern (R173). -/
def leadingZeros (w p : Nat) : Nat := if p = 0 then w else w - 1 - p.log2
/-- One bits of a `w`-bit pattern (R173). -/
def oneBits (w p : Nat) : Nat := ((List.range w).filter fun i => p.testBit i).length

/-- A condition of R174. -/
def holds (c : Cond) (a y : Int) : Bool :=
  match c with
  | .eq => decide (a = y) | .ne => decide (a ≠ y) | .lt => decide (a < y)
  | .le => decide (a ≤ y) | .gt => decide (a > y) | .ge => decide (a ≥ y)

/-- R169. -/
def execAdd (o : Alu3) (s : State) : Out := run (.add o) o.h (intOp3 o fun a y c => a + y + c) s
/-- R169. -/
def execSub (o : Alu3) (s : State) : Out := run (.sub o) o.h (intOp3 o fun a y c => a - y - c) s
/-- R169. -/
def execMul (o : Alu3) (s : State) : Out := run (.mul o) o.h (intOp3 o fun a y c => a * y + c) s
/-- R169: the upper half of the exact product. -/
def execMulh (o : Alu2) (s : State) : Out :=
  run (.mulh o) o.h (intOp2 o fun a y => a * y / (2 ^ o.ty.width : Nat)) s
/-- R170. -/
def execDiv (o : Alu2) (s : State) : Out := run (.div o) o.h (intOp2 o (divide o.ty)) s
/-- R170. -/
def execRem (o : Alu2) (s : State) : Out := run (.rem o) o.h (intOp2 o remainder) s
/-- R169. -/
def execAnd (o : Alu2) (s : State) : Out := run (.and o) o.h (intOp2 o (bitOp (· &&& ·))) s
/-- R169. -/
def execOr (o : Alu2) (s : State) : Out := run (.or o) o.h (intOp2 o (bitOp (· ||| ·))) s
/-- R169. -/
def execXor (o : Alu2) (s : State) : Out := run (.xor o) o.h (intOp2 o (bitOp (· ^^^ ·))) s
/-- R169. -/
def execAndn (o : Alu2) (s : State) : Out := run (.andn o) o.h (intOp2 o (bitOp fun a y => a &&& ~~~ y)) s
/-- R171. -/
def execShl (o : Alu2) (s : State) : Out := run (.shl o) o.h (intOp2 o (shiftLeft o.ty)) s
/-- R171. -/
def execShr (o : Alu2) (s : State) : Out := run (.shr o) o.h (intOp2 o (shiftRight o.ty)) s
/-- R171. -/
def execSar (o : Alu2) (s : State) : Out := run (.sar o) o.h (intOp2 o (shiftArith o.ty)) s
/-- R171. -/
def execRot (o : Alu2) (s : State) : Out := run (.rot o) o.h (intOp2 o (rotate o.ty)) s
/-- R172. -/
def execMin (o : Alu2) (s : State) : Out := run (.min o) o.h (intOp2 o fun a y => if a ≤ y then a else y) s
/-- R172. -/
def execMax (o : Alu2) (s : State) : Out := run (.max o) o.h (intOp2 o fun a y => if a ≤ y then y else a) s

/-- R173: the count as an unsigned 64-bit value. -/
def execClz (o : Alu1) (s : State) : Out :=
  run (.clz o) o.h (scalarOp [o.a] o.d fun _ ws =>
    (BitVec.ofNat 64 (leadingZeros o.ty.width ((arg ws 0).setWidth o.ty.width).toNat), 0)) s
/-- R173. -/
def execPopc (o : Alu1) (s : State) : Out :=
  run (.popc o) o.h (scalarOp [o.a] o.d fun _ ws =>
    (BitVec.ofNat 64 (oneBits o.ty.width ((arg ws 0).setWidth o.ty.width).toNat), 0)) s

/-- R174. -/
def execCmp (o : CmpOps) (s : State) : Out :=
  run (.cmp o) o.h (predOp [o.a, o.b] o.p fun _ ws =>
    (holds o.cond (ext o.ty (arg ws 0)) (yOf o.ty (arg ws 1) o.imm), 0)) s

/-- R175: both sources are read whichever is selected. -/
def selBody (o : SelOps) (c : Nat) (s : State) : Res State := do
  ask (!(s.ctx c).pendP o.c) .stall
  scalarOp [o.a, o.b] o.d (fun x ws =>
    (result o.ty (if (x.pred o.c).getLsbD 0 then ext o.ty (arg ws 0) else yOf o.ty (arg ws 1) o.imm), 0)) c s

/-- R175. -/
def execSel (o : SelOps) (s : State) : Out := run (.sel o) o.h (selBody o) s

/-- R176. -/
def execMovi (o : MoviOps) (s : State) : Out :=
  run (.movi o) o.h (scalarOp [] o.d fun _ _ => (o.imm.signExtend 64, 0)) s

/-- R176. -/
def execMovhi (o : MovhiOps) (s : State) : Out :=
  run (.movhi o) o.h (scalarOp [o.a] o.d fun _ ws => (o.imm ++ ((arg ws 0).setWidth 43), 0)) s

end Sys2Proof.Machine
end

