-- ==== Sys2Proof/Machine/Beacon.lean ====
section
/-! DEFINITION. The Beacon plane (R412 to R426): lanes, frames, BCENT, BCLISTEN and BCBIND. -/

namespace Sys2Proof.Machine

/-- Whether a die that is not itself closed off has reported a die lost or quarantined (R282, R285). -/
def dieGone (s : State) (die : Nat) : Bool := s.dies.any fun e => (s.dieCtl e.1).state != 3 && e.2.lost.getLsbD die

/-- Whether a die is connected to a lane (R412). -/
def connected (s : State) (l : Lane) (die : Nat) : Bool :=
  l.part != 0xFF && !dieGone s die
    && (List.range 32).any fun j => match physDie s l.part.toNat j with | some d => d.1 == die | none => false

/-- The lane bound to a contest identifier for a virtual function (R413). -/
def laneOf (s : State) (part : BitVec 8) (vf : BitVec 4) (cid : BitVec 12) : Option Nat :=
  (List.range 16).find? fun j => let l := s.lane j; l.bound && l.part == part && l.vf == vf && l.cid == cid

/-- The STALE result (R419). -/
def staleWord : Word := 8

/-- A result word (R417): KEY, LDIE and TAG of the frame, with LATE and WON. -/
def beaconWord (s : State) (l : Lane) (r : FrameRes) (late won : Bool) : Word :=
  packWord [(32, r.key.toNat), (27, logDie s l.part.toNat r.die), (15, r.tag.toNat), (2, bit late), (1, bit won), (0, 1)]

/-- Writes a result to the context of an entrant that still waits for it, in the occupancy that sent it (R417, R449). -/
def giveResult (s : State) (e : Entrant) (w : Word) : State :=
  let x := s.ctx e.c
  let waits := match x.run with
    | .blocked .beacon _ => !e.listen
    | .blocked .listen _ => e.listen
    | _ => false
  if !e.mute && x.sent && waits && x.set == e.set then s.modCtx e.c fun x => { x with reply := some (.ok w) } else s

/-- Fails every entrant and listener of a lane (R419). -/
def staleLane (s : State) (n : Nat) : State :=
  ((s.lane n).entrants.foldl (fun s e => giveResult s e staleWord) s).modLane n fun l => { l with entrants := [] }

/-- One staged change put in place (R413, R423). -/
def applyStaged (l : Lane) : Staged → Lane
  | .bind cid vf rot => { l with bound := true, cid := cid, vf := vf, rot := rot, rotv := 0, frames := 0 }
  | .unbind => { l with bound := false, cid := 0, vf := 0, rot := false, rotv := 0, frames := 0 }
  | .assign p => { l with part := p, bound := false, cid := 0, vf := 0, rot := false, rotv := 0, frames := 0 }

/-- v of a die under a rotation (R416). -/
def rotated (die rotv : Nat) : Nat := (die + 10 - rotv) % 10

/-- Whether entrant `a` beats `b` in a frame: the greater key, then the lower v, then the lower core and context
(R415, R416). DEDUCED (log 71): the physical core. -/
def beats (rotv : Nat) (a b : Entrant) : Bool :=
  let va := rotated (dieOf a.c) rotv
  let vb := rotated (dieOf b.c) rotv
  decide (b.key.toNat < a.key.toNat) || (a.key == b.key && (decide (va < vb) || (va == vb && decide (a.c < b.c))))

/-- The winner among the entrants at an arm point. -/
def winnerOf (rotv : Nat) : List Entrant → Option Entrant
  | [] => none
  | e :: r => match winnerOf rotv r with
    | some w => if beats rotv e w then some e else some w
    | none => some e

/-- A frame's result as its winner drives it (R414, R416): the tag has the core number that the winner's virtual function
sees (R448). -/
def frameOf (s : State) (w : Entrant) : FrameRes :=
  { key := w.key, die := dieOf w.c, winner := w.c
    tag := BitVec.ofNat 12 (logCore s { custodian := w.cust, part := w.part, vf := w.vf } (coreOf w.c) * 4 + ctxNo w.c) }

/-- The lane word (R424). -/
def laneWord (l : Lane) : Word :=
  if l.bound then
    packWord [(56, l.part.toNat), (52, l.vf.toNat), (51, 1), (50, bit l.rot), (46, l.rotv), (32, l.cid.toNat), (0, l.frames)]
  else packWord [(56, l.part.toNat)]

/-! The instructions (R420 to R424). -/

/-- Waits for the result of an entry or a listen that has been sent, and writes it (R421, R422, R425). -/
def beaconReply (s : State) (c : Nat) (d : Dst) (w : Wait) : Res State :=
  match (s.ctx c).reply with
  | some (.ok v) => do
    let (v, s) ← outside (s.modCtx c fun x => { x with sent := false, reply := none }) c 5 v
    answer s c d v
  | _ => .error (.block w)

/-- Sends an entry or a listen to the Beacon unit of its die, or in replay only the entry (R421, R422, R475). -/
def beaconSend (s : State) (c : Nat) (d : Dst) (e : Entrant) : Res State :=
  let out (s : State) (e : Entrant) : State :=
    let (n, s) := (countEvent s (coreOf c) 5 1).new
    { s with net := s.net ++ [(n, NetMsg.entry e)] }
  if replaying s c then do
    let (v, s) ← outside s c 5 0
    answer (if e.listen then s else out s { e with mute := true }) c d v
  else .ok (blockOn ((out s e).modCtx c fun x => { x with sent := true }) c (if e.listen then .listen else .beacon))

/-- BCENT (R421). -/
def bcentBody (o : BcentOps) (c : Nat) (s : State) : Res State := do
  if (s.ctx c).sent then beaconReply s c o.d .beacon
  else
    let s ← leaveNow s c .part
    let (ws, s) ← sources s c [o.b] (some o.d)
    let x := s.ctx c
    beaconSend s c o.d { c := c, cid := o.cid, part := x.ident.part, vf := x.ident.vf, key := (arg ws 0).setWidth 32, nolate := o.nolate
                         cust := x.ident.custodian, set := x.set }

def execBcent (o : BcentOps) (s : State) : Out := run (.bcent o) o.h (bcentBody o) s

/-- BCLISTEN (R422). -/
def bclistenBody (o : BclistenOps) (c : Nat) (s : State) : Res State := do
  if (s.ctx c).sent then beaconReply s c o.d .listen
  else
    let s ← leaveNow s c .part
    let (_, s) ← sources s c [] (some o.d)
    let x := s.ctx c
    beaconSend s c o.d { c := c, cid := o.cid, part := x.ident.part, vf := x.ident.vf, listen := true, cust := x.ident.custodian, set := x.set }

def execBclisten (o : BclistenOps) (s : State) : Out := run (.bclisten o) o.h (bclistenBody o) s

/-- A lane as its staged changes will leave it: the controller takes requests one at a time (R413). -/
def Lane.ahead (l : Lane) : Lane := l.staged.foldl applyStaged l

/-- A request at a lane's controller (R423): `f` gives a refusal or the change to stage. DEDUCED (log 72): a request is
judged by what the requests before it have staged; `.stat` shows the lane as applied. -/
def laneCmd (n : Nat) (d : Dst) (own : Bool) (f : State → Ident → Lane → Option Nat) (change : Ident → Option Staged) (c : Nat)
    (s : State) : Res State :=
  blockingCmd s c [] d fun _ s =>
    let i := (s.ctx c).ident
    let l := s.lane n
    let s := countEvent s (coreOf c) 5 1
    let view := if (change i).isSome then l.ahead else l
    if own && (view.part != i.part || view.part == 0xFF) then .ok (refusal 1, s)
    else
      match f s i view with
      | some r => .ok (refusal r, s)
      | none =>
        match change i with
        | some g => .ok (0, s.modLane n fun l => { l with staged := l.staged ++ [g] })
        | none => .ok (laneWord l, s)

/-- Whether a lane is bound by another virtual function. -/
def boundElse (i : Ident) (l : Lane) : Bool := l.bound && l.vf != i.vf

/-- Whether a contest identifier is bound, or is to be by some staged change, on another lane of a partition (R413). -/
def cidElse (s : State) (n : Nat) (part : BitVec 8) (cid : BitVec 12) : Bool :=
  (List.range 16).any fun j =>
    let l := s.lane j
    j != n && (List.range (l.staged.length + 1)).any fun k =>
      let v := (l.staged.take k).foldl applyStaged l
      v.bound && v.part == part && v.cid == cid

/-- R423 `.bind`. -/
def execBcbindBind (o : BindOps) (s : State) : Out :=
  runKernel (.bcbindBind o) o.h
    (laneCmd o.lane.toNat o.d true
      (fun s i l => if boundElse i l then some 2 else if cidElse s o.lane.toNat l.part o.cid then some 3 else none)
      fun i => some (.bind o.cid i.vf o.rot)) s

/-- R423 `.unbind`. -/
def execBcbindUnbind (o : LaneOps) (s : State) : Out :=
  runKernel (.bcbindUnbind o) o.h
    (laneCmd o.lane.toNat o.d true (fun _ i l => if boundElse i l then some 2 else none) fun _ => some .unbind) s

/-- R423, R424 `.stat`. -/
def execBcbindStat (o : LaneOps) (s : State) : Out :=
  runKernel (.bcbindStat o) o.h (laneCmd o.lane.toNat o.d true (fun _ _ _ => none) fun _ => none) s

/-- R423 `.assign`. -/
def assignBody (o : AssignOps) (c : Nat) (s : State) : Res State :=
  laneCmd o.lane.toNat o.d false (fun _ _ _ => if 16 ≤ o.part.toNat ∧ o.part ≠ 0xFF then some 5 else none)
    (fun _ => some (.assign o.part)) c s

/-- R423 `.assign`: below custodian level cause 0x02, whatever the guard (R59, R420). -/
def execBcbindAssign (o : AssignOps) (s : State) : Out :=
  runLevel (.bcbindAssign o) o.h ((s.ctx s.cur).level != .custodian) (assignBody o) s

/-! The plane's own steps (R415 to R419, R426). -/

/-- BEACON_ENTRY_ARRIVAL (R418, R419, R422): at the end of a frame, which is the arm point of the next, after that. -/
def execBeaconEntryArrival (c : Nat) (s : State) : Out :=
  match s.net.find? fun m => match m.2 with | .entry e => e.c == c | _ => false with
  | some (k, .entry e) =>
    let u := s
    let s := { s with net := s.net.filter fun m => m.1 != k }
    match laneOf s e.part e.vf e.cid with
    | none => .next (giveResult s e staleWord)
    | some n =>
      if (s.lane n).due then .next u else
      let late := (s.lane n).present
      let stage := if e.listen then 3 else if late && e.nolate then 2 else 0
      .next (s.modLane n fun l => { l with entrants := l.entrants ++ [{ e with late := late && !e.listen, stage := stage }] })
  | _ => .next s

/-- BEACON_ARM_POINT (R414, R415, R419): a binding change, or a frame with a contest, or an idle frame. -/
def execBeaconArmPoint (n : Nat) (s : State) : Out :=
  let l := s.lane n
  if l.present || l.bindBit || decide (16 ≤ n) then .next s
  else if !l.staged.isEmpty then
    .next ((staleLane s n).modLane n fun l => { l.ahead with staged := [], bindBit := true, due := false })
  else
    let es := l.entrants.filter fun e => connected s l (dieOf e.c)
    match winnerOf l.rotv (es.filter (·.stage == 0)) with
    | none => .next (if es.length = l.entrants.length ∧ !l.due then s else s.modLane n fun l => { l with entrants := es, due := false })
    | some w =>
      .next (s.modLane n fun l => { l with
        present := true
        due := false
        result := some (frameOf s w)
        entrants := es.map fun e => { e with stage := if e.stage = 0 then 1 else if e.stage = 3 then 4 else e.stage } })

/-- A frame's result as the dies that remain complete it (R426): that of the arm point, unless its winner's die has gone or
has lost it; then that of the best entrant counted on a die still connected. -/
def frameResult (s : State) (l : Lane) (r : FrameRes) : Option FrameRes :=
  let left := l.entrants.filter fun e => e.stage == 1 && connected s l (dieOf e.c)
  if left.any fun e => e.c == r.winner then some r else (winnerOf l.rotv left).map (frameOf s)

/-- BEACON_FRAME_END (R416 to R418, R426): the next frame's arm point is due. DESIGN CHOICE (log 73): a frame in which no
die with an entrant remains settles nothing, and its listeners wait for the next. -/
def execBeaconFrameEnd (n : Nat) (s : State) : Out :=
  let l := s.lane n
  if l.bindBit then .next (s.modLane n fun l => { l with bindBit := false, due := true })
  else
    match l.present, l.result.bind (frameResult s l) with
    | true, none =>
      .next (s.modLane n fun l => { l with
        present := false, result := none, due := true
        entrants := (l.entrants.filter fun e => e.stage != 1).map fun e => if e.stage = 4 then { e with stage := 3 } else e })
    | true, some r =>
      let served := l.entrants.filter fun e => e.stage == 1 || e.stage == 2 || e.stage == 4
      let s := served.foldl (fun s e =>
        giveResult s e (beaconWord s l r e.late (e.stage == 1 && e.c == r.winner))) s
      .next (s.modLane n fun l => { l with
        present := false, result := none, due := true, rotv := if l.rot then (l.rotv + 1) % 10 else l.rotv
        frames := min (l.frames + 1) 0xFFFFFFFF
        entrants := l.entrants.filter fun e => !(e.stage == 1 || e.stage == 2 || e.stage == 4) })
    | _, _ => .next s

end Sys2Proof.Machine
end

