-- ==== Sys2Proof/Machine/Capability.lean ====
section
/-! DEFINITION. The capability instructions (R177 to R185). -/

namespace Sys2Proof.Machine

/-- Checks 1 to 3, then 4, of R178 on a register; `sealed` lets a sealed one pass. -/
def capAuthCheck (g : Reg) (r : BitVec 6) (perm : BitVec 12) (sealed : Bool) : Res Cap := do
  let k := g.cap
  let v := g.bits.setWidth 64
  trapIf (!g.tag) 0x04 v (capAux perm r)
  trapIf k.bad 0x08 v (capAux perm r)
  trapIf (!sealed && k.styp != 0) 0x07 v (capAux perm r)
  trapIf (k.perm &&& perm != perm) 0x06 v (capAux perm r)
  pure k

/-- A register with another cursor. -/
def Reg.withAddr (g : Reg) (a : Word) : Reg := { g with bits := g.bits.extractLsb' 64 64 ++ a }
/-- A register with another BND field. -/
def Reg.withBnd (g : Reg) (b : BitVec 32) : Reg :=
  { g with bits := g.bits.extractLsb' 96 32 ++ b ++ g.bits.extractLsb' 0 64 }
/-- A register with other permissions. -/
def Reg.withPerm (g : Reg) (p : BitVec 12) : Reg :=
  { g with bits := g.bits.extractLsb' 108 20 ++ p ++ g.bits.extractLsb' 0 96 }
/-- A register with another seal. -/
def Reg.withSeal (g : Reg) (t : BitVec 4) : Reg :=
  { g with bits := g.bits.extractLsb' 112 16 ++ t ++ g.bits.extractLsb' 0 108 }
/-- A register with another key. -/
def Reg.withKey (g : Reg) (t : BitVec 4) : Reg :=
  { g with bits := g.bits.extractLsb' 116 12 ++ t ++ g.bits.extractLsb' 0 112 }

/-- Whether a cursor is representable for a capability's bounds (R154). -/
def representable (k : Cap) (a : Nat) : Bool := decide (k.base ≤ a) && decide (a < k.base + 2 ^ (k.e + 13))

/-- An instruction on capability A and second operand Y that writes general register D. -/
def capOp (d a : BitVec 6) (b : Src) (imm : BitVec 35) (f : Reg → Word → Res Reg) (c : Nat) (s : State) :
    Res State := do
  let g ← regOf s c a
  let (ws, s) ← sources s c [b] (some (.g d))
  let r ← f g (arg ws 0 + imm.signExtend 64)
  pure (retire (s.modCtx c fun x => x.setReg d r) c)

/-- The rounding of CSETB at an exponent: base and top (R179). -/
def roundBounds (b l e : Nat) : Nat × Nat := (b / 2 ^ e * 2 ^ e, (b + l + 2 ^ e - 1) / 2 ^ e * 2 ^ e)

/-- CSETB's narrowing (R179). -/
def setBounds (exact : Bool) (a : BitVec 6) (g : Reg) (y : Word) : Res Reg := do
  let k ← capAuthCheck g a 0 false
  let b := k.addr
  let l := y.toNat
  trapIf (decide (b < k.base) || decide (k.top < b + l)) 0x05 (g.bits.setWidth 64) (capAux 0 a)
  let fits (e : Nat) : Bool := decide ((roundBounds b l e).2 - (roundBounds b l e).1 ≤ (2 ^ 13 - 1) * 2 ^ e)
  match (List.range 52).find? fits with
  | none => .error (.trap { cause := 0x0A, val := y })
  | some e =>
    let (b', t') := roundBounds b l e
    trapIf (exact && (b' != b || t' != b + l)) 0x0A y
    trapIf (decide (b' < k.base) || decide (k.top < t')) 0x0A y
    let low := b' / 2 ^ e % 2 ^ 13
    pure (g.withBnd (BitVec.ofNat 32 (e * 2 ^ 26 + low * 2 ^ 13 + (low + (t' - b') / 2 ^ e) % 2 ^ 13)))

/-- R179. -/
def execCsetb (o : CsetbOps) (s : State) : Out :=
  run (.csetb o) o.h (capOp o.d o.a o.b o.imm (setBounds o.exact o.a)) s

/-- R180. -/
def execCsetp (o : CapImm) (s : State) : Out :=
  run (.csetp o) o.h (capOp o.d o.a o.b o.imm fun g y => do
    let k ← capAuthCheck g o.a 0 false
    pure (g.withPerm (k.perm &&& y.setWidth 12))) s

/-- R181. -/
def execCadd (o : CapImm) (s : State) : Out :=
  run (.cadd o) o.h (capOp o.d o.a o.b o.imm fun g y => do
    let sum := g.bits.setWidth 64 + y
    if g.tag then
      let k ← capAuthCheck g o.a 0 false
      pure (if representable k sum.toNat then g.withAddr sum else Reg.ofWord sum)
    else pure (Reg.ofWord sum)) s

/-- R182. -/
def execCkey (o : CapImm) (s : State) : Out :=
  run (.ckey o) o.h (capOp o.d o.a o.b o.imm fun g y => do
    let _ ← capAuthCheck g o.a permSys false
    pure (g.withKey (y.setWidth 4))) s

/-- An instruction on two capabilities that writes general register D (R183). -/
def capOp2 (o : CapAuth) (f : Reg → Reg → Res Reg) (c : Nat) (s : State) : Res State := do
  let a ← regOf s c o.a
  let b ← regOf s c o.b
  ask (!(s.ctx c).pendG o.d) .stall
  let r ← f a b
  pure (retire (s.modCtx c fun x => x.setReg o.d r) c)

/-- R183. -/
def execCseal (o : CapAuth) (s : State) : Out :=
  run (.cseal o) o.h (capOp2 o fun a b => do
    let _ ← capAuthCheck a o.a 0 false
    let k ← capAuthCheck b o.b permSeal false
    trapIf (!(decide (k.base ≤ k.addr ∧ k.addr < k.top ∧ 1 ≤ k.addr ∧ k.addr ≤ 15))) 0x05
      (b.bits.setWidth 64) (capAux permSeal o.b)
    pure (a.withSeal (BitVec.ofNat 4 k.addr))) s

/-- R183. -/
def execCunseal (o : CapAuth) (s : State) : Out :=
  run (.cunseal o) o.h (capOp2 o fun a b => do
    let j ← capAuthCheck a o.a 0 true
    let k ← capAuthCheck b o.b permUnseal false
    trapIf (!(decide (k.base ≤ k.addr ∧ k.addr < k.top))) 0x05 (b.bits.setWidth 64) (capAux permUnseal o.b)
    trapIf (j.styp == 0 || j.styp.toNat != k.addr) 0x0C (b.bits.setWidth 64)
    pure (a.withSeal 0)) s

/-- The field CGET reads (R184). -/
def capField (f : CapField) (g : Reg) : Word :=
  let k := g.cap
  match f with
  | .addr => g.bits.setWidth 64
  | .base => if g.tag && !k.bad then BitVec.ofNat 64 k.base else 0
  | .len => if g.tag && !k.bad then BitVec.ofNat 64 k.len else 0
  | .perm => if g.tag then k.perm.setWidth 64 else 0
  | .seal => if g.tag then k.styp.setWidth 64 else 0
  | .key => if g.tag then k.key.setWidth 64 else 0
  | .tag => if g.tag then 1 else 0
  | .bnd => if g.tag then (g.bits.extractLsb' 64 32).setWidth 64 else 0

/-- R184. -/
def execCget (o : CgetOps) (s : State) : Out :=
  run (.cget o) o.h (scalarOp [.g o.a] o.d fun x _ => (capField o.field (x.reg o.a), 0)) s

/-- CTEST's conditions (R185). -/
def capTest (a : Reg) (b : Option Reg) : Bool :=
  let j := a.cap
  match b with
  | none => a.tag && !j.bad
  | some b =>
    let k := b.cap
    a.tag && b.tag && !j.bad && !k.bad && j.styp == 0 && k.styp == 0 && decide (j.base ≤ k.base) && decide (k.top ≤ j.top)
      && (k.perm &&& ~~~ j.perm) == 0

/-- R185. -/
def execCtest (o : CtestOps) (s : State) : Out :=
  run (.ctest o) o.h (predOp (.g o.a :: (o.sub.map Src.g).toList) o.p fun x _ =>
    (capTest (x.reg o.a) (o.sub.map x.reg), 0)) s

end Sys2Proof.Machine
end

