-- ==== Sys2Proof/Machine/Control.lean ====
section
/-! DEFINITION. The control instructions BR to LOOP and TRAPI (R186 to R189, R192). -/

namespace Sys2Proof.Machine

/-- The target of a displacement in 4-byte units (R39). -/
def branchTo (pc : Word) (disp : BitVec n) : Word := pc + (disp.signExtend 64 <<< 2)

/-- R187. -/
def execBr (o : ImmOps) (s : State) : Out :=
  run (.br o) o.h (fun c s => .ok (retireAt s c (branchTo (s.ctx c).pc o.imm))) s

/-- Whether a branch waits for general registers only, so that loads may issue past it (R102). -/
def guesses (s : State) (c : Nat) (o : BrcOps) : Bool :=
  (s.ctx c).pendSrc [o.a, o.b] && !blocking [o.a, o.b] none && !(s.core (coreOf c)).bridle.isSome

/-- The context goes on past a branch whose sources are not known, one way or the other (R102). -/
def guessOn (s : State) (c : Nat) (o : BrcOps) : State :=
  let taken := Config.guess s.fresh
  { s.modCtx c (fun x => { x with
      spec := some { brc := o, pc := x.pc, id := x.nextId, taken := taken }
      pc := if taken then branchTo x.pc o.disp else x.pc + 12 }) with fresh := s.fresh + 1 }

/-- BRC reads its sources whether or not it branches (R187). -/
def brcBody (o : BrcOps) (c : Nat) (s : State) : Res State := do
  if guesses s c o then pure (guessOn s c o)
  else
    let (ws, s) ← sources s c [o.a, o.b] none
    if holds o.cond (ext o.ty (arg ws 0)) (ext o.ty (arg ws 1)) then
      pure (retireAt s c (branchTo (s.ctx c).pc o.disp))
    else pure (retire s c)

/-- R187. -/
def execBrc (o : BrcOps) (s : State) : Out := run (.brc o) o.h (brcBody o) s

/-- Writes the return address and jumps (R187, R188). -/
def linkAndJump (d : BitVec 6) (target : Word) (c : Nat) (s : State) : Res State := do
  ask (!(s.ctx c).pendG d) .stall
  let s := s.modCtx c fun x => x.setReg d (Reg.ofWord (x.pc + 12))
  pure (retireAt s c target)

/-- R187. -/
def execCall (o : CallOps) (s : State) : Out :=
  run (.call o) o.h (fun c s => linkAndJump o.d (branchTo (s.ctx c).pc o.disp) c s) s

/-- R188. -/
def execRet (o : OneG) (s : State) : Out :=
  run (.ret o) o.h (fun c s => do
    let a ← regOf s c o.a
    pure (retireAt s c (a.bits.setWidth 64))) s

/-- R188: the target is read before D is written. -/
def execJmpi (o : JmpiOps) (s : State) : Out :=
  run (.jmpi o) o.h (fun c s => do
    let a ← regOf s c o.a
    linkAndJump o.d (a.bits.setWidth 64) c s) s

/-- R189. -/
def loopBody (o : LoopOps) (c : Nat) (s : State) : Res State := do
  let a ← regOf s c o.a
  ask (!(s.ctx c).pendG o.d) .stall
  let n : Word := a.bits.setWidth 64
  let m := if n = 0 then 0 else n - 1
  let pc := (s.ctx c).pc
  let s := s.modCtx c fun x => x.setReg o.d (Reg.ofWord m)
  pure (retireAt s c (if m = 0 then pc + 12 else branchTo pc o.disp))

/-- R189. -/
def execLoop (o : LoopOps) (s : State) : Out := run (.loop o) o.h (loopBody o) s

/-- R192: the software trap. -/
def execTrapi (o : ImmOps) (s : State) : Out :=
  run (.trapi o) o.h (fun _ _ => .error (.trap { cause := 0x0B, val := o.imm.signExtend 64 })) s

end Sys2Proof.Machine
end

