-- ==== Sys2Proof/Machine/Formats.lean ====
section
/-! DEFINITION. Number formats and exact arithmetic (R121 to R143): values as signed dyadic numbers, one rounding
of an exact value into a format, conversions, the block formats, and the dot-product rule. -/

namespace Sys2Proof.Machine

/-- A floating-point format (R121, R125): exponent and fraction bits, bias, the exponent field and fraction of
the largest finite value, whether it has infinities, and the canonical NaN (R123). -/
structure Fmt where
  ebits : Nat
  mbits : Nat
  bias : Nat
  maxE : Nat
  maxF : Nat
  hasInf : Bool
  nan : Option Nat
deriving DecidableEq, Repr

def fF32 : Fmt := { ebits := 8, mbits := 23, bias := 127, maxE := 254, maxF := 0x7FFFFF, hasInf := true, nan := some 0x7FC00000 }
def fBf16 : Fmt := { ebits := 8, mbits := 7, bias := 127, maxE := 254, maxF := 0x7F, hasInf := true, nan := some 0x7FC0 }
def fF16 : Fmt := { ebits := 5, mbits := 10, bias := 15, maxE := 30, maxF := 0x3FF, hasInf := true, nan := some 0x7E00 }
def fE5m2 : Fmt := { ebits := 5, mbits := 2, bias := 15, maxE := 30, maxF := 3, hasInf := true, nan := some 0x7E }
def fE4m3 : Fmt := { ebits := 4, mbits := 3, bias := 7, maxE := 15, maxF := 6, hasInf := false, nan := some 0x7F }
def fE2m3 : Fmt := { ebits := 2, mbits := 3, bias := 1, maxE := 3, maxF := 7, hasInf := false, nan := none }
def fE2m1 : Fmt := { ebits := 2, mbits := 1, bias := 1, maxE := 3, maxF := 1, hasInf := false, nan := none }

/-- Bits of a format. -/
def Fmt.width (f : Fmt) : Nat := 1 + f.ebits + f.mbits

/-- A value: `fin neg m e` is ±m·2^e; zeros are signed. -/
inductive FVal where
  | nan (signalling : Bool)
  | inf (neg : Bool)
  | fin (neg : Bool) (m : Nat) (e : Int)
deriving DecidableEq, Repr

/-- The value an encoding has (R121, R122, R125). -/
def Fmt.decode (f : Fmt) (bits : Nat) : FVal :=
  let neg := bits / 2 ^ (f.ebits + f.mbits) % 2 == 1
  let e := bits / 2 ^ f.mbits % 2 ^ f.ebits
  let m := bits % 2 ^ f.mbits
  if f.hasInf && e == 2 ^ f.ebits - 1 then
    if m = 0 then .inf neg else .nan (decide (m < 2 ^ (f.mbits - 1)))
  else if !f.hasInf && f.nan.isSome && e == f.maxE && decide (f.maxF < m) then .nan false
  else if e = 0 then .fin neg m (1 - (f.bias : Int) - f.mbits)
  else .fin neg (2 ^ f.mbits + m) ((e : Int) - f.bias - f.mbits)

/-- An exact positive real: the exponent of its leading bit, and for each q the floor of x/2^q with whether
anything was cut. -/
structure Mag where
  lg : Int
  fl : Int → Nat × Bool

/-- m·2^e, for m > 0. -/
def Mag.dyadic (m : Nat) (e : Int) : Mag :=
  { lg := (m.log2 : Int) + e
    fl := fun q =>
      if q ≤ e then (m * 2 ^ (e - q).toNat, false)
      else (m / 2 ^ (q - e).toNat, decide (m % 2 ^ (q - e).toNat ≠ 0)) }

/-- a/b·2^e, for a, b > 0. -/
def Mag.quot (a b : Nat) (e : Int) : Mag :=
  let d : Int := (a.log2 : Int) - b.log2
  -- a/b lies in [2^(d-1), 2^(d+1)); it is at least 2^d when a·2^(-d) ≥ b
  let atLeast : Bool := if 0 ≤ d then decide (b * 2 ^ d.toNat ≤ a) else decide (b ≤ a * 2 ^ (-d).toNat)
  { lg := (if atLeast then d else d - 1) + e
    fl := fun q =>
      let k := e - q
      let n := if 0 ≤ k then a * 2 ^ k.toNat else a
      let m := if 0 ≤ k then b else b * 2 ^ (-k).toNat
      (n / m, decide (n % m ≠ 0)) }

/-- Integer square root, one bit of the answer at a time from bit `n`. -/
def isqrtFrom (x : Nat) : Nat → Nat → Nat
  | 0, r => r
  | n + 1, r =>
    let t := r + 2 ^ n
    isqrtFrom x n (if t * t ≤ x then t else r)

def isqrt (x : Nat) : Nat := isqrtFrom x (x.log2 / 2 + 1) 0

/-- The square root of m·2^e, for m > 0. -/
def Mag.sqrt (m : Nat) (e : Int) : Mag :=
  { lg := ((m.log2 : Int) + e) / 2
    fl := fun q =>
      let k := e - 2 * q
      if 0 ≤ k then
        let x := m * 2 ^ k.toNat
        let r := isqrt x
        (r, decide (r * r ≠ x))
      else
        let x := m / 2 ^ (-k).toNat
        let r := isqrt x
        (r, decide (r * r ≠ x) || decide (m % 2 ^ (-k).toNat ≠ 0)) }

/-- Whether a mode rounds a cut magnitude away from zero (R132): `odd` is the kept last bit, `half` the first
bit cut, `more` whether anything lies below it. -/
def roundsUp (mode : RoundMode) (neg odd half more : Bool) : Bool :=
  match mode with
  | .rne => half && (more || odd)
  | .rtz => false
  | .rup => !neg && (half || more)
  | .rdn => neg && (half || more)
  | .rna => half

/-- A magnitude rounded to a multiple of 2^q: the multiple, and whether it is inexact. -/
def Mag.roundAt (x : Mag) (q : Int) (mode : RoundMode) (neg : Bool) : Nat × Bool :=
  let (n1, more) := x.fl (q - 1)
  let half := n1 % 2 == 1
  let n := n1 / 2
  (if roundsUp mode neg (n % 2 == 1) half more then n + 1 else n, half || more)

/-- Bits of a sign, an exponent field and a fraction. -/
def Fmt.bits (f : Fmt) (neg : Bool) (e m : Nat) : Nat :=
  (if neg then 2 ^ (f.ebits + f.mbits) else 0) + e * 2 ^ f.mbits + m

def Fmt.maxBits (f : Fmt) (neg : Bool) : Nat := f.bits neg f.maxE f.maxF
def Fmt.infBits (f : Fmt) (neg : Bool) : Nat := f.bits neg (2 ^ f.ebits - 1) 0
/-- The canonical NaN (R123); 0 in a format without one. -/
def Fmt.nanBits (f : Fmt) : Nat := f.nan.getD 0
def Fmt.zero (f : Fmt) (neg : Bool) : Nat := f.bits neg 0 0

/-- What overflow gives (R137). -/
def Fmt.overflow (f : Fmt) (mode : RoundMode) (sat neg : Bool) : Nat :=
  if !f.hasInf || sat then f.maxBits neg
  else
    match mode with
    | .rne | .rna => f.infBits neg
    | .rtz => f.maxBits neg
    | .rup => if neg then f.maxBits neg else f.infBits neg
    | .rdn => if neg then f.infBits neg else f.maxBits neg

/-- Round and SatRound of an exact nonzero value (R133, R137). -/
def Fmt.round (f : Fmt) (mode : RoundMode) (sat neg : Bool) (x : Mag) : Nat × FpFlags :=
  let emin : Int := 1 - (f.bias : Int)
  let q := max (x.lg - f.mbits) (emin - f.mbits)
  let (n, inexact) := x.roundAt q mode neg
  -- a carry out of the significand moves to the next binade
  let (n, q) := if n = 2 ^ (f.mbits + 1) then (2 ^ f.mbits, q + 1) else (n, q)
  let tiny : Bool :=
    if emin ≤ x.lg then false
    else if x.lg < emin - 1 then true
    else decide ((x.roundAt (x.lg - f.mbits) mode neg).1 < 2 ^ (f.mbits + 1))
  let e : Nat := if n < 2 ^ f.mbits then 0 else (q + f.mbits + f.bias).toNat
  let m : Nat := if n < 2 ^ f.mbits then n else n - 2 ^ f.mbits
  if f.maxE < e ∨ (e = f.maxE ∧ f.maxF < m) then (f.overflow mode sat neg, flagOF ||| flagNX)
  else (f.bits neg e m, flagIf inexact flagNX ||| flagIf (inexact && tiny) flagUF)

/-- A conversion of an exact or special value into a format (R137, R140). -/
def Fmt.convert (f : Fmt) (mode : RoundMode) (sat : Bool) (v : FVal) : Nat × FpFlags :=
  match v with
  | .nan sg => (f.nanBits, flagIf sg flagNV)
  | .inf neg => if f.hasInf then (f.infBits neg, 0) else (f.maxBits neg, flagNV)
  | .fin neg m e => if m = 0 then (f.zero neg, 0) else f.round mode sat neg (Mag.dyadic m e)

/-- The value of an exact integer. -/
def FVal.ofInt (x : Int) : FVal := .fin (decide (x < 0)) x.natAbs 0

/-- The signed significand of a finite value at an exponent no larger than its own. -/
def alignTo (neg : Bool) (m : Nat) (e q : Int) : Int := (if neg then -1 else 1) * (m * 2 ^ (e - q).toNat : Nat)

/-- RoundInt of ±m·2^e, with whether it is inexact (R133). -/
def roundInt (mode : RoundMode) (neg : Bool) (m : Nat) (e : Int) : Int × Bool :=
  if m = 0 then (0, false)
  else
    let (n, r) := (Mag.dyadic m e).roundAt 0 mode neg
    (if neg then -(n : Int) else n, r)

/-- A conversion to an integer range (R139). -/
def toIntRange (lo hi : Int) (mode : RoundMode) (v : FVal) : Int × FpFlags :=
  match v with
  | .nan _ => (0, flagNV)
  | .inf neg => (if neg then lo else hi, flagNV)
  | .fin neg m e =>
    let (n, r) := roundInt mode neg m e
    if n < lo then (lo, flagNV) else if hi < n then (hi, flagNV) else (n, flagIf r flagNX)

/-- Arithmetic rounds mode 4 to nearest-even (R132). -/
def arithMode (m : RoundMode) : RoundMode := if m = .rna then .rne else m

/-- The sign of an exact zero sum (R195). -/
def zeroSum (mode : RoundMode) : Bool := mode == .rdn

def FVal.isNan : FVal → Bool | .nan _ => true | _ => false
def FVal.isSnan : FVal → Bool | .nan s => s | _ => false
def FVal.neg : FVal → FVal
  | .nan s => .nan s | .inf n => .inf (!n) | .fin n m e => .fin (!n) m e

/-- The flag of signalling operands (R138). -/
def snanFlag (vs : List FVal) : FpFlags := flagIf (vs.any FVal.isSnan) flagNV

/-- Rounds a signed exact dyadic; an exact zero takes the sign of a zero sum. -/
def Fmt.roundSum (f : Fmt) (mode : RoundMode) (n : Int) (e : Int) : Nat × FpFlags :=
  if n = 0 then (f.zero (zeroSum mode), 0)
  else f.round mode false (decide (n < 0)) (Mag.dyadic n.natAbs e)

/-- x + y rounded once (R195). -/
def fpAdd (f : Fmt) (md : RoundMode) (x y : FVal) : Nat × FpFlags :=
  let mode := arithMode md
  match x, y with
  | .nan _, _ | _, .nan _ => (f.nanBits, snanFlag [x, y])
  | .inf a, .inf b => if a = b then (f.infBits a, 0) else (f.nanBits, flagNV)
  | .inf a, _ => (f.infBits a, 0)
  | _, .inf b => (f.infBits b, 0)
  | .fin a m e, .fin b n g =>
    if m = 0 ∧ n = 0 then (f.zero (if a = b then a else zeroSum mode), 0)
    else
      let q := min e g
      f.roundSum mode (alignTo a m e q + alignTo b n g q) q

/-- x × y rounded once (R195). -/
def fpMul (f : Fmt) (md : RoundMode) (x y : FVal) : Nat × FpFlags :=
  let mode := arithMode md
  match x, y with
  | .nan _, _ | _, .nan _ => (f.nanBits, snanFlag [x, y])
  | .inf a, .inf b => (f.infBits (a != b), 0)
  | .inf a, .fin b m _ | .fin b m _, .inf a => if m = 0 then (f.nanBits, flagNV) else (f.infBits (a != b), 0)
  | .fin a m e, .fin b n g =>
    if m * n = 0 then (f.zero (a != b), 0) else f.round mode false (a != b) (Mag.dyadic (m * n) (e + g))

/-- x × y + z rounded once (R196). -/
def fpFma (f : Fmt) (md : RoundMode) (x y z : FVal) : Nat × FpFlags :=
  let mode := arithMode md
  let bad : Bool := match x, y with
    | .inf _, .fin _ 0 _ | .fin _ 0 _, .inf _ => true
    | _, _ => false
  if bad then (f.nanBits, flagNV)
  else
    match x, y, z with
    | .nan _, _, _ | _, .nan _, _ | _, _, .nan _ => (f.nanBits, snanFlag [x, y, z])
    | .fin a m e, .fin b n g, .fin c k h =>
      if m * n = 0 ∧ k = 0 then (f.zero (if (a != b) = c then c else zeroSum mode), 0)
      else
        let q := min (e + g) h
        f.roundSum mode (alignTo (a != b) (m * n) (e + g) q + alignTo c k h q) q
    | .fin .., .fin .., .inf c => (f.infBits c, 0)
    | .inf a, .inf b, .inf c | .inf a, .fin b _ _, .inf c | .fin a _ _, .inf b, .inf c =>
      if (a != b) = c then (f.infBits c, 0) else (f.nanBits, flagNV)
    | .inf a, .inf b, .fin .. | .inf a, .fin b _ _, .fin .. | .fin a _ _, .inf b, .fin .. => (f.infBits (a != b), 0)

/-- x ÷ y rounded once (R195). -/
def fpDiv (f : Fmt) (md : RoundMode) (x y : FVal) : Nat × FpFlags :=
  let mode := arithMode md
  match x, y with
  | .nan _, _ | _, .nan _ => (f.nanBits, snanFlag [x, y])
  | .inf _, .inf _ => (f.nanBits, flagNV)
  | .inf a, .fin b _ _ => (f.infBits (a != b), 0)
  | .fin a _ _, .inf b => (f.zero (a != b), 0)
  | .fin a m e, .fin b n g =>
    if n = 0 then (if m = 0 then (f.nanBits, flagNV) else (f.infBits (a != b), flagDZ))
    else if m = 0 then (f.zero (a != b), 0)
    else f.round mode false (a != b) (Mag.quot m n (e - g))

/-- The square root rounded once (R195). -/
def fpSqrt (f : Fmt) (md : RoundMode) (x : FVal) : Nat × FpFlags :=
  match x with
  | .nan _ => (f.nanBits, snanFlag [x])
  | .inf neg => if neg then (f.nanBits, flagNV) else (f.infBits false, 0)
  | .fin neg m e =>
    if m = 0 then (f.zero neg, 0)
    else if neg then (f.nanBits, flagNV)
    else f.round (arithMode md) false false (Mag.sqrt m e)

/-- Exact comparison of two values that are no NaN: -1, 0 or 1. -/
def cmpFin (x y : FVal) : Int :=
  let key : FVal → Int × Int × Int := fun v => match v with
    | .inf neg => (if neg then -1 else 1, 0, 0)
    | .fin neg m e => (0, (if neg then -1 else 1) * (m : Int), e)
    | .nan _ => (0, 0, 0)
  let a := key x
  let b := key y
  if a.1 ≠ b.1 then (if a.1 < b.1 then -1 else 1)
  else
    let q := min a.2.2 b.2.2
    let m := a.2.1 * 2 ^ (a.2.2 - q).toNat
    let n := b.2.1 * 2 ^ (b.2.2 - q).toNat
    if m < n then -1 else if n < m then 1 else 0

/-- The condition of FCMP and VCMP and its flag (R198). -/
def fpCompare (c : FCond) (x y : FVal) : Bool × FpFlags :=
  let nan := x.isNan || y.isNan
  match c with
  | .eq => (!nan && decide (cmpFin x y = 0), snanFlag [x, y])
  | .lt => (!nan && decide (cmpFin x y < 0), flagIf nan flagNV)
  | .le => (!nan && decide (cmpFin x y ≤ 0), flagIf nan flagNV)
  | .un => (nan, snanFlag [x, y])

/-- Whether x comes before y for MIN and MAX, −0 before +0 (R138). -/
def fpBefore (x y : FVal) : Bool :=
  let c := cmpFin x y
  if c ≠ 0 then decide (c < 0)
  else match x, y with
    | .fin a _ _, .fin b _ _ => a && !b
    | _, _ => false

/-- MIN or MAX on encodings (R138). -/
def fpMinMax (f : Fmt) (isMax : Bool) (xb yb : Nat) : Nat × FpFlags :=
  let x := f.decode xb
  let y := f.decode yb
  let fl := snanFlag [x, y]
  if x.isNan && y.isNan then (f.nanBits, fl)
  else if x.isNan then (yb, fl)
  else if y.isNan then (xb, fl)
  else (if fpBefore x y == isMax then yb else xb, fl)

/-! Block formats (R125 to R131). -/

/-- The value of an E8M0 scale: none for NaN (R125). -/
def scaleExp (k : Nat) : Option Int := if k % 256 = 255 then none else some ((k % 256 : Nat) - 127)

/-- An element under a scale 2^x (R126). -/
def FVal.scaled (v : FVal) (x : Option Int) : FVal :=
  match x, v with
  | none, _ => .nan false
  | some x, .fin n m e => .fin n m (e + x)
  | _, v => v

/-- Comparison of magnitudes of finite values. -/
def magLt (a b : FVal) : Bool :=
  match a, b with
  | .fin _ m e, .fin _ n g =>
    let q := min e g
    decide (m * 2 ^ (e - q).toNat < n * 2 ^ (g - q).toNat)
  | _, _ => false

def FVal.isFin : FVal → Bool | .fin .. => true | _ => false

/-- The value of largest magnitude among finite ones. -/
def maxMag (vs : List FVal) : FVal := vs.foldl (fun a b => if magLt a b then b else a) (.fin false 0 0)

/-- R127: the scale byte and the element codes of a microscaling block; `quiet` marks elements that count as +0
in choosing the scale (R147). -/
def encodeMx (f : Fmt) (emax : Int) (mode : RoundMode) (vs : List FVal) (quiet : List Bool) : Nat × List Nat × FpFlags :=
  let seen := (vs.zip quiet).map fun e => if e.2 then FVal.fin false 0 0 else e.1
  if seen.any fun v => !v.isFin then (0xFF, vs.map fun _ => 0, flagNV)
  else
    match maxMag seen with
    | .fin _ 0 _ => (0, vs.map fun _ => 0, 0)
    | .fin _ m e =>
      let x := min (max ((m.log2 : Int) + e - emax) (-127)) 127
      let rs := vs.map fun v => f.convert mode true (v.scaled (some (-x)))
      let fl := ((rs.zip quiet).filter fun r => !r.2).foldl (fun a r => a ||| r.1.2) 0
      ((x + 127).toNat, rs.map (·.1), fl)
    | _ => (0, vs.map fun _ => 0, 0)

/-- R131: the scale and the elements of a GQ block. -/
def encodeGq (f : Fmt) (q : Nat) (mode : RoundMode) (vs : List FVal) (quiet : List Bool) : Nat × List Int × FpFlags :=
  let seen := (vs.zip quiet).map fun e => if e.2 then FVal.fin false 0 0 else e.1
  if seen.any fun v => !v.isFin then (f.nanBits, vs.map fun _ => 0, flagNV)
  else
    match maxMag seen with
    | .fin _ 0 _ => (0, vs.map fun _ => 0, 0)
    | .fin _ m e =>
      let (sb, sf) := f.round .rne true false (Mag.quot m q e)
      match f.decode sb with
      | .fin _ 0 _ => (sb, vs.map fun _ => 0, sf ||| flagUF ||| flagNX)
      | .fin _ sm se =>
        let one (v : FVal) : Int × FpFlags :=
          match v with
          | .fin neg m e =>
            if m = 0 then (0, 0)
            else
              let (n, r) := (Mag.quot m sm (e - se)).roundAt 0 mode neg
              let z : Int := if neg then -(n : Int) else n
              if z < -(q : Int) then (-(q : Int), flagNX) else if (q : Int) < z then ((q : Int), flagNX) else (z, flagIf r flagNX)
          | _ => (0, 0)
        let rs := vs.map one
        let fl := ((rs.zip quiet).filter fun r => !r.2).foldl (fun a r => a ||| r.1.2) 0
        (sb, rs.map (·.1), sf ||| fl)
      | _ => (sb, vs.map fun _ => 0, sf)
    | _ => (0, vs.map fun _ => 0, 0)

/-- The value of a T2 weight and its flag (R129). -/
def decodeT2 (code : Nat) : Int × FpFlags :=
  match code % 4 with
  | 0 => (0, 0) | 1 => (1, 0) | 2 => (0, flagIE) | _ => (-1, 0)

/-- R147's re-encoding into T2. -/
def encodeT2 (mode : RoundMode) (v : FVal) : Nat × FpFlags :=
  match v with
  | .nan _ => (0, flagNV)
  | .inf neg => (if neg then 3 else 1, flagNV)
  | .fin neg m e =>
    let w := min (max (roundInt mode neg m e).1 (-1)) 1
    let same : Bool := decide (cmpFin (.ofInt w) v = 0)
    (if w = 0 then 0 else if w = 1 then 1 else 3, flagIf (!same) flagNX)

/-! Dot products (R141, R142). -/

/-- The exact product of two values, with what is invalid about it (R142). -/
def exactMul (x y : FVal) : FVal × Bool :=
  match x, y with
  | .nan s, .nan t => (.nan (s || t), s || t)
  | .nan s, _ | _, .nan s => (.nan s, s)
  | .inf a, .inf b => (.inf (a != b), false)
  | .inf a, .fin b m _ | .fin b m _, .inf a => if m = 0 then (.nan false, true) else (.inf (a != b), false)
  | .fin a m e, .fin b n g => (.fin (a != b) (m * n) (e + g), false)

/-- Floor of t/2^q as an integer, and whether anything was cut. -/
def windowFloor (neg : Bool) (m : Nat) (e q : Int) : Int × Bool :=
  let v := (Mag.dyadic m e).fl q
  if neg then (if v.2 then -(v.1 : Int) - 1 else -(v.1 : Int), v.2) else (v.1, v.2)

/-- The rounded sum of exact terms (R141, R142); `inv` says a term was invalid. DESIGN CHOICE (log 81): beside a NaN term,
infinite terms of both signs raise nothing more, where a product of 0 and ∞ does; and a result whose only inexactness is
in bits below the window raises inexact alone, tiny or not. -/
def dotSum (terms : List FVal) (inv : Bool) : Nat × FpFlags :=
  let f := fF32
  if terms.any FVal.isNan then (f.nanBits, flagIf inv flagNV)
  else
    let pos := terms.any fun t => t == .inf false
    let negI := terms.any fun t => t == .inf true
    if pos && negI then (f.nanBits, flagNV)
    else if pos || negI then (f.infBits negI, 0)
    else
      let fins := terms.filterMap fun t => match t with | .fin n m e => if m = 0 then none else some (n, m, e) | _ => none
      match fins with
      | [] => (f.zero (terms.all fun t => match t with | .fin n _ _ => n | _ => false), 0)
      | (_, m0, e0) :: _ =>
        let top := fins.foldl (fun (a : Int) t => max a ((t.2.1.log2 : Int) + t.2.2)) ((m0.log2 : Int) + e0)
        let q := top - 62
        let cut := fins.map fun t => windowFloor t.1 t.2.1 t.2.2 q
        let sticky := cut.any (·.2)
        let sum : Int := cut.foldl (fun a t => a + t.1) 0
        let n := 2 * sum + (if sticky then 1 else 0)
        if n = 0 then (f.zero false, 0)
        else
          let r := f.round .rne false (decide (n < 0)) (Mag.dyadic n.natAbs (q - 1))
          (r.1, r.2 ||| flagIf sticky flagNX)

/-- The rounding mode of an instruction's field: 7 is the context's (R132). -/
def roundField (x : RoundMode) (rm : BitVec 3) : RoundMode :=
  match rm.toNat with
  | 0 => .rne | 1 => .rtz | 2 => .rup | 3 => .rdn | 4 => .rna | _ => x

end Sys2Proof.Machine
end

