-- ==== Sys2Proof/Machine/Codec.lean ====
section
/-! DEFINITION. Arrays of elements in any format code 0x00 to 0x12 (R56, R125, R130, R313): packing, decoding to
exact values and encoding, for tensor regions (R146, R147) and the stack engines (R334). -/

namespace Sys2Proof.Machine

/-- Bits of an element of a format code (R313). -/
def codeBits (f : Nat) : Nat :=
  match f with
  | 0 | 4 | 11 | 12 | 13 | 17 => 8
  | 1 | 5 | 9 | 10 => 16
  | 2 | 6 | 8 => 32
  | 3 | 7 => 64
  | 14 => 6
  | 15 | 18 => 4
  | 16 => 2
  | _ => 0

/-- Elements of a block and bytes of its scale; none for a format without blocks (R313). -/
def codeBlock (f : Nat) : Option (Nat × Nat) :=
  match f with
  | 13 | 14 | 15 => some (32, 1)
  | 17 => some (64, 4)
  | 18 => some (32, 2)
  | _ => none

/-- The floating-point format of a code, and of a microscaling code its elements'. -/
def codeFmt (f : Nat) : Option Fmt :=
  match f with
  | 8 => some fF32 | 9 => some fBf16 | 10 => some fF16 | 11 => some fE4m3 | 12 => some fE5m2
  | 13 => some fE4m3 | 14 => some fE2m3 | 15 => some fE2m1
  | _ => none

/-- The scale format of a GQ code, and the bound Q of its elements (R131). -/
def codeGq (f : Nat) : Option (Fmt × Nat) :=
  match f with | 17 => some (fF32, 127) | 18 => some (fF16, 7) | _ => none

/-- Whether a code is an integer format. -/
def codeInt (f : Nat) : Bool := decide (f < 8)

/-- Splits a number into `n` fields of `w` bits, the lowest first. -/
def unpackNat (w : Nat) : Nat → Nat → List Nat
  | 0, _ => []
  | n + 1, x => x % 2 ^ w :: unpackNat w n (x / 2 ^ w)

/-- Packs fields of `w` bits, the lowest first. -/
def packNat (w : Nat) : List Nat → Nat
  | [] => 0
  | x :: r => x % 2 ^ w + 2 ^ w * packNat w r

/-- The codes of `n` elements of `w` bits held in little-endian bytes (R125). -/
def unpackBytes (w n : Nat) (b : List Byte) : List Nat := unpackNat w n (ofBytes b)

/-- Bytes of packed elements. -/
def packBytes (w : Nat) (l : List Nat) : List Byte := toBytes ((l.length * w + 7) / 8) (packNat w l)

/-- A signed reading of a code of `w` bits. -/
def signedOf (w x : Nat) : Int := if x < 2 ^ (w - 1) then x else (x : Int) - 2 ^ w

/-- The exact value of an element of a code under a scale (R126, R129, R130), and the flag of its decoding. -/
def decodeCode (f scale x : Nat) : FVal × FpFlags :=
  match codeGq f with
  | some (sf, _) =>
    let r := exactMul (sf.decode scale) (.ofInt (signedOf (codeBits f) x))
    (r.1, flagIf r.2 flagNV)
  | none =>
    if f = 16 then (.ofInt (decodeT2 x).1, (decodeT2 x).2)
    else if codeInt f then (.ofInt (if f < 4 then signedOf (codeBits f) x else x), 0)
    else match codeFmt f with
      | some m =>
        if (codeBlock f).isSome then ((m.decode x).scaled (scaleExp scale), 0) else (m.decode x, 0)
      | none => (.fin false 0 0, 0)

/-- Bounds of an integer code. -/
def codeRange (f : Nat) : Int × Int :=
  let w := codeBits f
  if f < 4 then (-(2 ^ (w - 1)), 2 ^ (w - 1) - 1) else (0, 2 ^ w - 1)

/-- A value placed in a code without blocks, under the Round column of R137 (R146, R147, R334); `exact` says the
source is an integer. DESIGN CHOICE (log 27): an integer beyond the bounds of an integer code is clamped and raises
overflow. -/
def encodeCode (f : Nat) (mode : RoundMode) (exact : Bool) (v : FVal) : Nat × FpFlags :=
  if f = 16 then encodeT2 mode v
  else if codeInt f then
    let (lo, hi) := codeRange f
    let w := codeBits f
    match exact, v with
    | true, .fin neg m e =>
      let n := alignTo neg m e 0
      let r := max lo (min hi n)
      ((r % 2 ^ w).toNat, flagIf (r != n) flagOF)
    | _, v =>
      let r := toIntRange lo hi mode v
      ((r.1 % 2 ^ w).toNat, r.2)
  else match codeFmt f with
    | some m => m.convert mode false v
    | none => (0, 0)

/-- Cuts a list into pieces of `n`, at most `k` of them. -/
def pieces (n : Nat) : Nat → List α → List (List α)
  | 0, _ => []
  | k + 1, l => l.take n :: pieces n k (l.drop n)

/-- One block of a block code: the scale, the element codes and the flags (R127, R131). -/
def encodeBlock (f : Nat) (mode : RoundMode) (vs : List FVal) (quiet : List Bool) : Nat × List Nat × FpFlags :=
  match codeGq f with
  | some (sf, q) =>
    let r := encodeGq sf q mode vs quiet
    (r.1, r.2.1.map fun x => (x % 2 ^ codeBits f).toNat, r.2.2)
  | none =>
    match codeFmt f with
    | some m => encodeMx m (if f = 13 then 8 else 2) mode vs quiet
    | none => (0, vs.map fun _ => 0, 0)

/-- The values of an array of elements and scales, and the flags of decoding each. -/
def decodeArray (f : Nat) (codes scales : List Nat) : List (FVal × FpFlags) :=
  let n := match codeBlock f with | some (n, _) => n | none => 1
  codes.mapIdx fun j x => decodeCode f (scales.getD (j / n) 0) x

/-- An array of values in a code: element codes, scales, flags; `quiet` elements count as +0 and raise nothing
(R147). -/
def encodeArray (f : Nat) (mode : RoundMode) (exact : Bool) (vs : List FVal) (quiet : List Bool) :
    List Nat × List Nat × FpFlags :=
  match codeBlock f with
  | some (n, _) =>
    let k := vs.length / n
    let bs := (pieces n k vs).zip (pieces n k quiet)
    let rs := bs.map fun b => encodeBlock f mode b.1 b.2
    (rs.flatMap (·.2.1), rs.map (·.1), rs.foldl (fun a r => a ||| r.2.2) 0)
  | none =>
    let rs := (vs.zip quiet).map fun e => if e.2 then (0, 0) else encodeCode f mode exact e.1
    (rs.map (·.1), [], rs.foldl (fun a r => a ||| r.2) 0)

end Sys2Proof.Machine
end

