-- ==== Sys2Proof/Machine/Tile.lean ====
section
/-! DEFINITION. Tensor regions, the tile cache and its instructions (R311 to R330). -/

namespace Sys2Proof.Machine

/-! The geometry of a region (R313 to R316). -/

def Region.elems (r : Region) : Nat := r.tile.foldl (· * ·) 1
/-- Bytes of `n` packed elements. -/
def packedSize (f n : Nat) : Nat := n * codeBits f / 8
/-- Scale bytes of `n` elements; 0 in a format without blocks. -/
def scaleSize (f n : Nat) : Nat := match codeBlock f with | some (k, b) => n / k * b | none => 0
/-- SS and CS (R314). -/
def Region.ss (r : Region) : Nat := packedSize r.sfmt r.elems
def Region.cs (r : Region) : Nat := packedSize r.cfmt r.elems + scaleSize r.cfmt r.elems
/-- Scale bytes of a tile in storage. -/
def Region.sb (r : Region) : Nat := scaleSize r.sfmt r.elems
/-- Tiles along each dimension (R314). -/
def Region.counts (r : Region) : List Nat := (r.dims.zip r.tile).map fun e => (e.1 + e.2 - 1) / e.2
def Region.tiles (r : Region) : Nat := r.counts.foldl (· * ·) 1
/-- The number of a tile (R315). -/
def tileIndex : List Nat → List Nat → Nat
  | n :: ns, c :: cs => c + n * tileIndex ns cs
  | _, _ => 0
/-- Coordinates of a number under extents, dimension 0 first. -/
def splitIndex : List Nat → Nat → List Nat
  | [], _ => []
  | n :: ns, k => k % n :: splitIndex ns (k / n)
/-- Which elements of a tile are padding, in row order (R315). -/
def Region.padding (r : Region) (k : Nat) : List Bool :=
  let c := splitIndex r.counts k
  (List.range r.elems).map fun q =>
    ((splitIndex r.tile q).zip (c.zip (r.tile.zip r.dims))).any fun e => decide (e.2.2.2 ≤ e.2.1 * e.2.2.1 + e.1)
def Region.tileAt (r : Region) (k : Nat) : Nat := r.base + k * r.ss
def Region.scaleAt (r : Region) (k : Nat) : Nat := r.scale + k * r.sb
/-- The base die that holds a region's tiles (R317). -/
def Region.stack (r : Region) : Nat := r.base / 2 ^ 37

/-- The byte offset of element `q` in the decoded view (R316). -/
def Region.offset (r : Region) (q : Nat) : Nat :=
  let s := codeBits r.cfmt / 8
  let t0 := r.tile.getD 0 1
  let t1 := r.tile.getD 1 1
  match r.layout with
  | 1 => (q / t0 % t1 + t1 * (q % t0 + t0 * (q / (t0 * t1)))) * s
  | 2 =>
    let row := q / t0
    let b := q % t0 * s
    row * 128 + (b / 16 ^^^ row % 8) * 16 + b % 16
  | _ => q * s

/-- The element at cell `p` of the decoded view: the inverse of `offset` (R316). -/
def Region.cell (r : Region) (p : Nat) : Nat :=
  let s := codeBits r.cfmt / 8
  let t0 := r.tile.getD 0 1
  let t1 := r.tile.getD 1 1
  match r.layout with
  | 1 => p / t1 % t0 + t0 * (p % t1 + t1 * (p / (t0 * t1)))
  | 2 =>
    let row := p * s / 128
    let b := p * s % 128
    ((b / 16 ^^^ row % 8) * 16 + b % 16) / s + t0 * row
  | _ => p

/-- The decoded view of a tile's bytes (R316). -/
def Region.view (r : Region) (b : List Byte) : List Byte :=
  if (codeBlock r.cfmt).isSome then b
  else
    let s := codeBits r.cfmt / 8
    (List.range r.elems).flatMap fun p => (b.drop (r.cell p * s)).take s

/-- A tile's bytes from its decoded view, padding elements left out (R316, R327). -/
def Region.ofView (r : Region) (k : Nat) (v : List Byte) : List Byte :=
  let w := codeBits r.cfmt
  let codes :=
    if (codeBlock r.cfmt).isSome then unpackBytes w r.elems v
    else (List.range r.elems).map fun q => ofBytes ((v.drop (r.offset q)).take (w / 8))
  packBytes w ((codes.zip (r.padding k)).map fun e => if e.2 then 0 else e.1) ++ v.drop (packedSize r.cfmt r.elems)

/-! Fills and writebacks (R146, R147, R317). -/

def findTile (s : State) (r : Region) (k : Nat) : Option Tile :=
  (s.base r.stack).tiles.find? fun t => t.part == r.part && t.id == r.id && t.k == k

/-- Puts an entry in, in place of one of the same tile. -/
def putTile (s : State) (r : Region) (t : Tile) : State :=
  s.modBase r.stack fun b => { b with
    tiles := b.tiles.filter (fun u => !(u.part == t.part && u.id == t.id && u.k == t.k)) ++ [t] }

/-- Bytes of a tile's storage, or why they cannot be read and the first element that fails (R323). -/
def tileBytes (s : State) (die : Nat) (i : Ident) (pa n w : Nat) : Except (Bad × Nat) (List Byte × State) :=
  match firstBad s die i pa n false with
  | some b => .error (b.1, b.2 * 8 / w)
  | none => .ok (homeBytes s pa n, s)

/-- A miss of a base die's cache replaces a tile, or none: which one the cache's organisation decides, and the spec
leaves that open (R317). A dirty victim is written back. -/
def replaceTile (s : State) (stack : Nat) : State :=
  match (s.base stack).tiles with
  | [] => s
  | l =>
    let n := Config.tileVictim s.fresh
    let s := { s with fresh := s.fresh + 1 }
    match l[n]? with
    | none => s
    | some t => tileFlags (s.modBase stack fun b => { b with tiles := b.tiles.eraseIdx n }) t

/-- What a fill of a tile asks of the caches: the copies in E or O come back (R319). -/
def recallTile (s : State) (r : Region) (k : Nat) : State :=
  recallRange (recallRange s (r.tileAt k) r.ss) (r.scaleAt k) r.sb

/-- No L1 and no L2 holds a line of a tile (R319). -/
def purgeTile (s : State) (r : Region) (k : Nat) : State :=
  purgeRange (purgeRange s (r.tileAt k) r.ss) (r.scaleAt k) r.sb

/-- Fills a tile that is not present (R146, R317): the entry, and the state with the fill's flags recorded. -/
def fillTile (s : State) (die : Nat) (i : Ident) (r : Region) (k : Nat) : Except (Bad × Nat) (Tile × State) :=
  match findTile s r k with
  | some t => .ok (t, s)
  | none => do
    let w := codeBits r.sfmt
    let (b, s) ← tileBytes s die i (r.tileAt k) r.ss w
    let (sc, s) ← if r.sb = 0 then pure ([], s) else
      (tileBytes s die i (r.scaleAt k) r.sb 8).mapError fun e =>
        (e.1, match codeBlock r.sfmt with | some (n, b) => e.2 / b * n | none => 0)
    let pads := r.padding k
    let codes := unpackBytes w r.elems b
    let (bytes, f) :=
      if (codeBlock r.cfmt).isSome then
        (packBytes w ((codes.zip pads).map fun e => if e.2 then 0 else e.1) ++ sc, 0)
      else
        let scales := match codeBlock r.sfmt with | some (n, b) => unpackBytes (8 * b) (r.elems / n) sc | none => []
        let cells := (decodeArray r.sfmt codes scales).zip pads |>.map fun e =>
          if e.2 then (0, 0)
          else
            let v := encodeCode r.cfmt .rne (codeInt r.sfmt || r.sfmt == 16) e.1.1
            (v.1, v.2 ||| e.1.2)
        (packBytes (codeBits r.cfmt) (cells.map (·.1)), cells.foldl (fun (a : FpFlags) c => a ||| c.2) 0)
    let t : Tile := { part := r.part, id := r.id, k := k, bytes := bytes, pa := r.tileAt k, n := r.ss, spa := r.scaleAt k, sn := r.sb }
    pure (t, putTile (regionFlags (replaceTile (recallTile s r k) r.stack) r.part r.id f) r t)

/-- What the writeback of a tile's bytes stores and raises (R147). -/
def writeback (s : State) (r : Region) (k : Nat) (bytes : List Byte) : List (Nat × Byte) × FpFlags :=
  let w := codeBits r.sfmt
  let pads := r.padding k
  let old := unpackBytes w r.elems (homeBytes s (r.tileAt k) r.ss)
  let (codes, scales, f) : List Nat × List Byte × FpFlags :=
    if (codeBlock r.cfmt).isSome then (unpackBytes w r.elems bytes, bytes.drop (packedSize r.cfmt r.elems), 0)
    else
      let vs := (decodeArray r.cfmt (unpackBytes (codeBits r.cfmt) r.elems bytes) []).map (·.1)
      let e := encodeArray r.sfmt r.rmode (codeInt r.cfmt) vs pads
      (e.1, match codeBlock r.sfmt with | some (_, b) => e.2.1.flatMap (toBytes b) | none => [], e.2.2)
  let data := packBytes w ((codes.zip (pads.zip old)).map fun e => if e.2.1 then e.2.2 else e.1)
  (data.mapIdx (fun j b => (r.tileAt k + j, b)) ++ scales.mapIdx (fun j b => (r.scaleAt k + j, b)), f)

/-- Writes bytes at their homes as a writeback does, except in poisoned lines (R286). -/
def putBack (s : State) (l : List (Nat × Byte)) : State :=
  l.foldl (fun s e =>
    match loc s e.1 with
    | some a => if s.poison.contains (a / 128) then s else { poke s a e.2 with ctags := s.ctags.erase (a / 16) }
    | none => s) s

/-- A decoded write makes a tile dirty (R319, R327). -/
def dirtyTile (s : State) (r : Region) (t : Tile) (bytes : List Byte) : State :=
  let (l, f) := writeback s r t.k bytes
  let undo := if t.dirty then t.undo else l.map fun e => (e.1, homeByte s e.1)
  putBack (putTile (purgeTile s r t.k) r { t with bytes := bytes, dirty := true, flags := f, undo := undo }) l

/-- Discards every tile of a region, the dirty ones written back first unless `drop` (R330). -/
def invRegion (s : State) (r : Region) (drop : Bool) : State :=
  let mine (t : Tile) : Bool := t.part == r.part && t.id == r.id
  let ts := (s.base r.stack).tiles.filter mine
  let s := s.modBase r.stack fun b => { b with tiles := b.tiles.filter fun t => !mine t }
  if drop then ts.foldl (fun s t => if t.dirty then putBack s t.undo else s) s else ts.foldl tileFlags s

/-! The region table (R311, R314, R326). -/

def regionOf (s : State) (part : Nat) (id : BitVec 16) : Option Region := (s.part part).regions.find? fun r => r.id == id

/-- Whether the frames of a range all belong to a world's rights (R326). -/
def framesHeld (s : State) (i : Ident) (a n : Nat) : Bool :=
  n == 0 || i.custodian || (List.range ((a % 65536 + n - 1) / 65536 + 1)).all fun j => rights (entry0 s (a / 65536 + j)) i

/-- Whether a range lies in one stack window (R269, R315). -/
def oneWindow (a n : Nat) : Bool := isHbm a && (n == 0 || (isHbm (a + n - 1) && a / 2 ^ 37 == (a + n - 1) / 2 ^ 37))

def overlaps (a n b m : Nat) : Bool := decide (0 < n) && decide (0 < m) && decide (a < b + m) && decide (b < a + n)

/-- Little-endian field of a descriptor. -/
def descField (b : List Byte) (o n : Nat) : Nat := ofBytes ((b.drop o).take n)

/-- A descriptor as its region, if it is well formed (R312, R314). -/
def readRegion (i : Ident) (b : List Byte) : Option Region :=
  let nd := descField b 2 1
  let lay := descField b 3 1
  let sf := descField b 4 1
  let cf := descField b 5 1
  let rm := descField b 6 1
  let base := descField b 8 8
  let scale := descField b 0x28 8
  let dim (j : Nat) : Nat := descField b (0x10 + 4 * j) 4
  let til (j : Nat) : Nat := descField b (0x20 + 2 * j) 2
  let mode : Option RoundMode := match rm with | 0 => some .rne | 1 => some .rtz | 2 => some .rup | 3 => some .rdn | 4 => some .rna | _ => none
  match mode with
  | none => none
  | some m =>
    let r : Region :=
      { id := BitVec.ofNat 16 (descField b 0 2), part := i.part, vf := i.vf, world := i.world, ndim := nd, layout := lay
        sfmt := sf, cfmt := cf, rmode := m, base := base, dims := (List.range nd).map dim, tile := (List.range nd).map til
        scale := scale }
    let e := r.elems
    let good :=
      r.id != 0 && decide (1 ≤ nd ∧ nd ≤ 4) && decide (lay ≤ 2) && decide (sf ≤ 18) && decide (cf ≤ 18) && cf != 16
        && descField b 7 1 == 0 && ((b.drop 0x30).take 16).all (· == 0)
        && (List.range 4).all (fun j => if j < nd then dim j != 0 && til j != 0 else dim j == 0 && til j == 0)
        && base % 128 == 0
        && decide (r.ss % 128 = 0 ∧ e * codeBits sf % 1024 = 0 ∧ r.ss ≤ 16384)
        && decide (e * codeBits cf % 8 = 0 ∧ r.cs % 16 = 0 ∧ r.cs ≤ 4096)
        && r.counts.all (fun n => decide (n ≤ 65536))
        && (match codeBlock sf with | some (n, _) => e % n == 0 && scale != 0 | none => scale == 0)
        && ((codeBlock cf).isNone || (cf == sf && lay == 0))
        && (lay != 1 || decide (2 ≤ nd))
        && (lay != 2 || r.tile.getD 0 0 * codeBits cf == 1024)
    if good then some r else none

/-- TCREG `.add` at the region table (R326): the result word. -/
def addRegion (s : State) (i : Ident) (b : List Byte) : Word × State :=
  match readRegion i b with
  | none => (refusal 1, s)
  | some r =>
    let n := r.tiles * r.ss
    let m := r.tiles * r.sb
    let table := (s.part (partNo i)).regions
    if !oneWindow r.base n || (m != 0 && !(oneWindow r.scale m && r.scale / 2 ^ 37 == r.base / 2 ^ 37)) then (refusal 6, s)
    else if table.any fun q => overlaps r.base n q.base (q.tiles * q.ss) then (refusal 2, s)
    else if !(framesHeld s i r.base n && framesHeld s i r.scale m) then (refusal 3, s)
    else if 4096 ≤ table.length then (refusal 4, s)
    else if table.any fun q => q.id == r.id then (refusal 5, s)
    else (0, s.modPart (partNo i) fun p => { p with regions := p.regions ++ [r] })

/-- A TCREG (R321, R326): number n of tl6, performed at its turn; a trap comes with the reply. -/
def tcregRun (c : Nat) (d : Dst) (s : State) (f : State → Except Trap (Word × State)) : Res State := do
  let s ← leaveNow s c .part
  let owner := tlOwner s c
  ask ((s.tline owner 6).done == (s.tline owner 6).issued) (.block .engine)
  ask (settled s c) .stall
  let (_, s) ← sources s c [] (some d)
  let (n, s) := takeNum (countEvent s (coreOf c) 5 1) owner 6
  match f s with
  | .ok (w, s) => pure (replied (deliver (completeNum s owner 6 n) c d w) c)
  | .error t => pure (takeTrap (completeNum s owner 6 n) c t)

/-- TCREG `.add` (R326). -/
def execTcregAdd (o : DstCap) (s : State) : Out :=
  runKernel (.tcregAdd o) o.h (fun c s => do
    let g ← engineCap s c o.a permLd 64 64
    let ea : Word := g.bits.setWidth 64
    let pa ← engineAt s c ea 64 0
    tcregRun c o.d s fun s =>
      let i := (s.ctx c).ident
      let line : Word := BitVec.ofNat 64 (pa / 128 * 128)
      if (s.die (dieOf c)).lost.getLsbD (homeDie s pa) then .error { cause := 0x25, val := ea, aux := line }
      else if !homeRights s i pa then .error { cause := 0x41, val := ea, aux := line }
      else if poisoned s pa then .error { cause := 0x25, val := ea, aux := line }
      else .ok (addRegion (tileRead s pa 64) i (homeBytes s pa 64))) s

/-- The region of an identifier that belongs to a context's virtual function. -/
def ownRegion (s : State) (c : Nat) (id : BitVec 16) : Option Region :=
  let i := (s.ctx c).ident
  match regionOf s (partNo i) id with
  | some r => if r.vf = i.vf then some r else none
  | none => none

/-- TCREG `.del` (R326). -/
def execTcregDel (o : DstId) (s : State) : Out :=
  runKernel (.tcregDel o) o.h (fun c s =>
    tcregRun c o.d s fun s =>
      match ownRegion s c o.id with
      | none => .ok (refusal 7, s)
      | some r =>
        .ok (0, (invRegion s r false).modPart r.part.toNat fun p => { p with regions := p.regions.filter fun q => q.id != r.id })) s

/-- TCREG `.stat` (R326). -/
def execTcregStat (o : DstId) (s : State) : Out :=
  runKernel (.tcregStat o) o.h (fun c s =>
    tcregRun c o.d s fun s =>
      match ownRegion s c o.id with
      | none => .ok (refusal 7, s)
      | some r =>
        .ok (packWord [(8, bit r.detached), (0, r.status.toNat)], s.modPart r.part.toNat fun p => { p with
          regions := p.regions.map fun q => if q.id = r.id then { q with status := 0 } else q })) s

/-! The commands on tiles (R321, R322, R327 to R330). -/

/-- Cause 0x34 (R322). -/
def regionTrap (id : BitVec 16) (b : Word) (reason : Nat) : Halt :=
  .trap { cause := 0x34, val := b, aux := packWord [(16, id.toNat), (0, reason)] }

/-- Step 2 of R321; `form` gives the reasons 6 and 8. -/
def regionCheck (s : State) (c : Nat) (id : BitVec 16) (b : Word) (form : Region → Option Nat) : Res Region := do
  ask (id != 0) (regionTrap id b 5)
  match regionOf s (partNo (s.ctx c).ident) id with
  | none => .error (regionTrap id b 1)
  | some r =>
    ask (r.vf == (s.ctx c).ident.vf) (regionTrap id b 2)
    ask (!r.detached) (regionTrap id b 4)
    match form r with
    | some n => .error (regionTrap id b n)
    | none => pure r

/-- The coordinates of a word (R325). -/
def coordOf (w : Word) : List Nat := (List.range 4).map fun j => (w.extractLsb' (16 * j) 16).toNat

/-- Step 3 of R321. -/
def coordCheck (r : Region) (id : BitVec 16) (b : Word) : Res Unit :=
  let n := r.counts ++ List.replicate (4 - r.ndim) 1
  ask ((n.zip (coordOf b)).all fun e => decide (e.2 < e.1)) (regionTrap id b 3)

/-- TCLOOK (R327). -/
def tclookBody (wr : Bool) (o : TclookOps) (c : Nat) (s : State) : Res State := do
  let (ws, s) ← sources s c [o.b] none
  let b := arg ws 0
  let r ← regionCheck s c o.id b fun _ => none
  coordCheck r o.id b
  let g ← engineCap s c o.a (if wr then permEsrc else permEdst) r.cs 16
  let ea : Word := g.bits.setWidth 64
  let xl ← xlatPlaced s c ea r.cs (if wr then 3 else 4)
  pushCmd s c (.tclook wr o.id ((coordOf b).take r.ndim) ea xl) 6

def execTclookRd (o : TclookOps) (s : State) : Out := run (.tclookRd o) o.h (tclookBody false o) s
def execTclookWr (o : TclookOps) (s : State) : Out := run (.tclookWr o) o.h (tclookBody true o) s

/-- The neighbours a mask selects, in the order of its bits (R328). -/
def neighbours (r : Region) (c : List Nat) (mask : BitVec 8) (stride : Nat) : List (List Nat) :=
  let step : List (Int × Int) := [(1, 0), (1, 1), (0, 1), (-1, 1), (-1, 0), (-1, -1), (0, -1), (1, -1)]
  (step.mapIdx fun j d => (j, d)).filterMap fun e =>
    if !mask.getLsbD e.1 then none
    else
      let x : Int := (c.getD 0 0 : Int) + e.2.1 * stride
      let y : Int := (c.getD 1 0 : Int) + e.2.2 * stride
      let n := r.counts
      if x < 0 ∨ y < 0 ∨ (n.getD 0 1 : Int) ≤ x ∨ (n.getD 1 1 : Int) ≤ y ∨ (r.ndim = 1 ∧ e.2.2 ≠ 0) then none
      else some (([x.toNat, y.toNat] ++ c.drop 2).take r.ndim)

/-- TCPF (R328). -/
def execTcpf (o : TcpfOps) (s : State) : Out :=
  run (.tcpf o) o.h (fun c s => do
    let (ws, s) ← sources s c [o.b] none
    let b := arg ws 0
    let r ← regionCheck s c o.id b fun _ => none
    coordCheck r o.id b
    let k := (coordOf b).take r.ndim
    pushCmd s c (.tcpf o.id (k :: neighbours r k o.mask o.stride.toNat)) 6) s

/-- Width and height of a halo buffer (R329). -/
def haloShape (r : Region) (h : Nat) : Nat × Nat :=
  (r.tile.getD 0 1 + 2 * h, if r.ndim = 1 then 1 else r.tile.getD 1 1 + 2 * h)

/-- TCHALO (R329). -/
def execTchalo (o : TchaloOps) (s : State) : Out :=
  run (.tchalo o) o.h (fun c s => do
    let h := o.w.toNat
    let (ws, s) ← sources s c [o.b] none
    let b := arg ws 0
    let r ← regionCheck s c o.id b fun r =>
      if (codeBlock r.cfmt).isSome ∨ 2 < r.ndim then some 6
      else if r.tile.getD 0 1 < h ∨ (r.ndim = 2 ∧ r.tile.getD 1 1 < h) then some 8
      else none
    coordCheck r o.id b
    let e := codeBits r.cfmt / 8
    let n := (haloShape r h).1 * (haloShape r h).2 * e
    let g ← engineCap s c o.a permEdst n e
    let ea : Word := g.bits.setWidth 64
    let xl ← xlatPlaced s c ea n 4
    ask (xl.all fun p => isScratch (p.2 * 4096)) (regionTrap o.id b 7)
    pushCmd s c (.tchalo o.edge o.id ((coordOf b).take r.ndim) h ea xl) 6) s

/-- TCINV (R330). -/
def tcinvBody (variant : Nat) (o : TcinvOps) (c : Nat) (s : State) : Res State := do
  let _ ← regionCheck s c o.id 0 fun _ => none
  pushCmd s c (.tcinv variant o.id) 6

def execTcinv (o : TcinvOps) (s : State) : Out := run (.tcinv o) o.h (tcinvBody 0 o) s
def execTcinvDrop (o : TcinvOps) (s : State) : Out := run (.tcinvDrop o) o.h (tcinvBody 1 o) s
def execTcinvAll (o : TcinvOps) (s : State) : Out := run (.tcinvAll o) o.h (tcinvBody 2 o) s

/-! The commands at their base die. An effect is what R323 names: a tile, here the whole command. -/

/-- The first failure of an effect: reason of R323, index, translation cause. -/
def engineReason : Bad → Nat
  | .bounds => 1 | .xlat _ => 2 | .poison => 3 | .die => 5 | .custody => 6 | .unbacked => 7 | .stopped => 8 | .orphan => 9
  | .lock => 6

/-- A command's region as it is now; reason 4 if it is gone or detached, reason 5 if the die of its stack cannot be
reached (R285, R320, R323). -/
def liveRegion (s : State) (die : Nat) (i : Ident) (id : BitVec 16) : Except (Nat × Nat) Region :=
  match regionOf s (partNo i) id with
  | some r =>
    if r.detached then .error (4, 0)
    else if (s.die die).lost.getLsbD (homeDie s r.base) then .error (5, 0)
    else .ok r
  | none => .error (4, 0)

/-- A failure with its index as R323 reports it. -/
def asReason (r : Except (Bad × Nat) α) : Except (Nat × Nat) α := r.mapError fun e => (engineReason e.1, e.2)
def asReason0 (r : Except Bad α) : Except (Nat × Nat) α := r.mapError fun e => (engineReason e, 0)

/-- Writes a decoded read's bytes; if they are refused, the fills it made stand. -/
def putOrKeep (s : State) (die : Nat) (i : Ident) (xl : Xlat) (a : Word) (b : List Byte) : State × Option (Nat × Nat) :=
  match enginePutAt s die i xl a.toNat b with
  | .ok t => (t, none)
  | .error e => (s, some (engineReason e, 0))

/-- TCLOOK performed (R327). -/
def performTclook (s : State) (die : Nat) (i : Ident) (wr : Bool) (id : BitVec 16) (coord : List Nat) (a : Word) (xl : Xlat) :
    Except (Nat × Nat) (State × Option (Nat × Nat)) := do
  let r ← liveRegion s die i id
  if !(xlHolds xl a.toNat r.cs && decide (coord.length = r.ndim)) then throw (4, 0)
  let k := tileIndex r.counts coord
  if wr then
    let (v, s) ← asReason0 (engineGetAt s die i xl a.toNat r.cs)
    let (t, s) ← asReason (fillTile s die i r k)
    pure (dirtyTile s r t (r.ofView k v), none)
  else
    let (t, s) ← asReason (fillTile s die i r k)
    pure (putOrKeep s die i xl a (r.view t.bytes))

/-- One fill of TCPF; one that meets a poisoned line is abandoned without a fault (R328). -/
def performTcpf (s : State) (die : Nat) (i : Ident) (id : BitVec 16) (coord : List Nat) : Except (Nat × Nat) State := do
  let r ← liveRegion s die i id
  match fillTile s die i r (tileIndex r.counts coord) with
  | .ok (_, s) => pure s
  | .error (.poison, _) => pure s
  | .error e => throw (engineReason e.1, e.2)

/-- The tile and the element of it that hold a tensor element at signed coordinates; none beyond the extents
(R329). -/
def haloSource (r : Region) (edge : Bool) (p : List Int) : Option (List Nat × Nat) :=
  let near := (p.zip r.dims).map fun e => if edge then max 0 (min ((e.2 : Int) - 1) e.1) else e.1
  if (near.zip r.dims).any fun e => decide (e.1 < 0) || decide ((e.2 : Int) ≤ e.1) then none
  else
    let q := near.map Int.toNat
    some ((q.zip r.tile).map fun e => e.1 / e.2, tileIndex r.tile ((q.zip r.tile).map fun e => e.1 % e.2))

/-- The tile and element behind each cell of a halo buffer, in its order (R329). -/
def haloCells (r : Region) (edge : Bool) (coord : List Nat) (h : Nat) : List (Option (List Nat × Nat)) :=
  let (w, n) := haloShape r h
  let at' (j : Nat) (v : Nat) : Int := (coord.getD j 0 * r.tile.getD j 1 : Nat) + (v : Int) - h
  (List.range (w * n)).map fun q =>
    haloSource r edge (([at' 0 (q % w)] ++ (if r.ndim = 1 then [] else [at' 1 (q / w)])))

/-- The tiles a halo buffer takes elements of. -/
def haloTiles (cells : List (Option (List Nat × Nat))) : List (List Nat) := (cells.filterMap fun c => c.map (·.1)).eraseDups

/-- TCHALO performed (R329). -/
def performTchalo (s : State) (die : Nat) (i : Ident) (edge : Bool) (id : BitVec 16) (coord : List Nat) (h : Nat) (a : Word)
    (xl : Xlat) : Except (Nat × Nat) (State × Option (Nat × Nat)) := do
  let r ← liveRegion s die i id
  let e := codeBits r.cfmt / 8
  let (w, n) := haloShape r h
  if !(xlHolds xl a.toNat (w * n * e) && decide (coord.length = r.ndim)) then throw (4, 0)
  let cells := haloCells r edge coord h
  let (got, s) ← (haloTiles cells).foldlM (fun (x : List (List Nat × List Byte) × State) c => do
    let (t, s) ← asReason (fillTile x.2 die i r (tileIndex r.counts c))
    pure (x.1 ++ [(c, t.bytes)], s)) ([], s)
  let data := cells.flatMap fun c => match c with
    | none => List.replicate e 0
    | some (t, q) => match got.find? fun g => g.1 == t with
      | some g => (g.2.drop (q * e)).take e
      | none => List.replicate e 0
  pure (putOrKeep s die i xl a data)

/-- TCINV performed in one step at its base die; `.all` then recalls every L1 and L2 copy of the storage lines (R330). -/
def performTcinv (s : State) (die : Nat) (i : Ident) (variant : Nat) (id : BitVec 16) : Except (Nat × Nat) State := do
  let r ← liveRegion s die i id
  let s := invRegion s r (variant == 1)
  pure (if variant = 2 then purgeRange (purgeRange s r.base (r.tiles * r.ss)) r.scale (r.tiles * r.sb) else s)

end Sys2Proof.Machine
end

