-- ==== Sys2Proof/Machine/Stack.lean ====
section
/-! DEFINITION. The stack engines: SGATH, SRED, SCONV (R331 to R334). -/

namespace Sys2Proof.Machine

/-- Of checks whose order no rule gives, the trap of the lowest cause (R14); a wait comes before any trap. -/
def lowest (l : List (Res Unit)) : Res Unit :=
  let halts := l.filterMap fun r => match r with | .error h => some h | .ok _ => none
  match halts.find? fun h => match h with | .trap _ => false | _ => true with
  | some h => .error h
  | none =>
    match halts.foldl (fun (m : Option Trap) h => match h, m with
      | .trap t, none => some t
      | .trap t, some u => if t.cause.toNat < u.cause.toNat then some t else some u
      | _, m => m) none with
    | some t => .error (.trap t)
    | none => .ok ()

/-- A capability's checks 1 to 5 over `n` bytes at its cursor; with `n` none, 1 to 4 only. -/
def stackCap (s : State) (c : Nat) (r : BitVec 6) (perm : BitVec 12) (n : Option Nat) : Res Unit := do
  let g ← regOf s c r
  match n with
  | some n => let _ ← capCheck g r perm (g.bits.setWidth 64) n; pure ()
  | none =>
    let k := g.cap
    let ea : Word := g.bits.setWidth 64
    let aux := capAux perm r
    trapIf (!g.tag) 0x04 ea aux
    trapIf k.bad 0x08 ea aux
    trapIf (k.styp != 0) 0x07 ea aux
    trapIf (k.perm &&& perm != perm) 0x06 ea aux

/-- Misalignment of an operand, cause 0x0E. -/
def alignCheck (s : State) (c : Nat) (r : BitVec 6) (n : Nat) : Res Unit :=
  trapIf (decide ((s.ctx c).low r |>.toNat |> (· % n) |> (· ≠ 0))) 0x0E ((s.ctx c).low r)

/-- The translations of several ranges, whose order no rule gives (R14). -/
def xlatAll (s : State) (c : Nat) (l : List (Word × Nat × Nat)) : Res Xlat := do
  lowest (l.map fun e => (xlatPlaced s c e.1 e.2.1 e.2.2).map fun _ => ())
  l.foldlM (fun (xl : Xlat) e => do pure (xl ++ (← xlatPlaced s c e.1 e.2.1 e.2.2))) []

/-- SGATH (R332). -/
def sgathBody (o : SgathOps) (c : Nat) (s : State) : Res State := do
  let n := o.count.toNat
  let row := 4 * o.roww.toNat
  let w := if o.n64 then 8 else 4
  lowest [stackCap s c o.d permEdst (some (n * row)), stackCap s c o.a permEsrc none, stackCap s c o.b permEsrc (some (n * w))]
  lowest [alignCheck s c o.d 4, alignCheck s c o.a 4, alignCheck s c o.b w]
  let x := s.ctx c
  let xl ← xlatAll s c [(x.low o.d, n * row, 4), (x.low o.b, n * w, 3)]
  let k := (x.reg o.a).cap
  pushCmd s c (.sgath o.n64 n o.roww.toNat (x.low o.d) (x.low o.a) (x.low o.b) k.base k.top xl (x.level != .task)) 6

def execSgath (o : SgathOps) (s : State) : Out := run (.sgath o) o.h (sgathBody o) s

/-- Bytes of an element of SRED. -/
def sredBytes (t : SredTy) : Nat := match t with | .i32 | .n32 | .f32 => 4 | .i64 | .n64 => 8 | _ => 2

/-- SRED (R333). -/
def sredBody (o : SredOps) (c : Nat) (s : State) : Res State := do
  let w := sredBytes o.ty
  let n := o.count.toNat * w
  lowest [stackCap s c o.d permEdst (some n), stackCap s c o.a permEsrc (some n)]
  lowest [alignCheck s c o.d w, alignCheck s c o.a w]
  let x := s.ctx c
  let xl ← xlatAll s c [(x.low o.d, n, 4), (x.low o.a, n, 3)]
  pushCmd s c (.sred o.ty o.op o.count.toNat (x.low o.d) (x.low o.a) xl) 6

def execSred (o : SredOps) (s : State) : Out := run (.sred o) o.h (sredBody o) s

/-- What SCONV's COUNT is a multiple of: a block, a byte of T2, else one (R334). -/
def convUnit (sf df : Nat) : Nat :=
  match codeBlock sf, codeBlock df with
  | some (n, _), _ => n
  | _, some (n, _) => n
  | _, _ => if sf = 16 then 4 else 1

/-- SCONV's operand conditions (R334). -/
def convBad (sf df count : Nat) (b : BitVec 6) : Bool :=
  let sb := codeBlock sf
  let db := codeBlock df
  (sb.isSome && db.isSome) || df == 16 || decide (18 < sf) || decide (18 < df)
    || decide (count % convUnit sf df ≠ 0) || ((sb.isSome || db.isSome) == (b == 0))

/-- SCONV (R334). -/
def sconvBody (o : SconvOps) (c : Nat) (s : State) : Res State := do
  let sf := o.sf.toNat
  let df := o.df.toNat
  let n := o.count.toNat
  let side := if (codeBlock sf).isSome then sf else df
  let scales := (codeBlock side).isSome
  let bperm := if (codeBlock sf).isSome then permEsrc else permEdst
  let bkind := if (codeBlock sf).isSome then 3 else 4
  let bn := scaleSize side n
  lowest ([stackCap s c o.d permEdst (some (packedSize df n)), stackCap s c o.a permEsrc (some (packedSize sf n))]
    ++ (if scales && o.b != 0 then [stackCap s c o.b bperm (some bn)] else []))
  trapIf (convBad sf df n o.b) 0x0D (BitVec.ofNat 64 (sf * 64 + df))
  lowest ([alignCheck s c o.d (codeBits df / 8 |> max 1), alignCheck s c o.a (codeBits sf / 8 |> max 1)]
    ++ (match codeBlock side with | some (_, w) => [alignCheck s c o.b w] | none => []))
  let x := s.ctx c
  let xl ← xlatAll s c ([(x.low o.d, packedSize df n, 4), (x.low o.a, packedSize sf n, 3)]
    ++ (if scales then [(x.low o.b, bn, bkind)] else []))
  pushCmd s c (.sconv sf df (roundField x.round o.rm) n (x.low o.d) (x.low o.a) (x.low o.b) xl) 6

def execSconv (o : SconvOps) (s : State) : Out := run (.sconv o) o.h (sconvBody o) s

/-! The commands at their base dies. An effect is what R323 names: an element, a block of them, or a row. -/

/-- What an effect comes to: the state, the flags it raised, and its failure with the translation cause. -/
structure Effect where
  s : State
  flags : FpFlags := 0
  fail : Option (Nat × Nat × Nat) := none
deriving DecidableEq, Repr

def Effect.bad (s : State) (b : Bad) (idx : Nat) : Effect :=
  { s := s, fail := some (idx, engineReason b, match b with | .xlat k => k.toNat | _ => 0) }

/-- The pages of the row SGATH reads, each with its part's physical address and length: checked against the bounds of
its capability and translated when it is performed, at the level it was issued at (R332). The walks' accessed bits
stand whatever the row comes to (R279). -/
def gatherPages (s : State) (c : Nat) (i : Ident) (kern : Bool) (va n base top : Nat) : State × Except Bad (List (Nat × Nat)) :=
  if !(decide (base ≤ va) && decide (va + n ≤ top)) then (s, .error .bounds)
  else
    (pagesOf va n).foldl (fun (r : State × Except Bad (List (Nat × Nat))) p =>
      match r.2 with
      | .error _ => r
      | .ok l =>
        let lo := max va (p * 4096)
        match agentXlat r.1 (clusterOf c) i (BitVec.ofNat 64 lo) (!kern) 3 with
        | .ok (pa, s) => (s, .ok (l ++ [(pa, min (va + n) (p * 4096 + 4096) - lo)]))
        | .error k => (r.1, .error (.xlat k))) (s, .ok [])

/-- The row SGATH reads, at its homes (R332). -/
def gatherRow (s : State) (c : Nat) (i : Ident) (kern : Bool) (va n base top : Nat) : State × Except Bad (List Byte) :=
  match gatherPages s c i kern va n base top with
  | (s, .error e) => (s, .error e)
  | (s, .ok l) =>
    l.foldl (fun (r : State × Except Bad (List Byte)) p =>
      match r.2 with
      | .error _ => r
      | .ok b => match engineGet r.1 (dieOf c) i p.1 p.2 with
        | .ok (x, s) => (s, .ok (b ++ x))
        | .error e => (r.1, .error e)) (s, .ok [])

/-- Row `j` of SGATH (R323, R332). -/
def performSgath (s : State) (c : Nat) (i : Ident) (n64 : Bool) (roww : Nat) (d a b : Word) (base top : Nat) (xl : Xlat)
    (kern : Bool) (j : Nat) : Effect :=
  let die := dieOf c
  let w := if n64 then 8 else 4
  let row := 4 * roww
  match engineGetAt s die i xl (b.toNat + j * w) w with
  | .error e => .bad s e j
  | .ok (ib, s) =>
    let put (s : State) (l : List Byte) (fail : Option (Nat × Nat × Nat)) : Effect :=
      match enginePutAt s die i xl (d.toNat + j * row) l with
      | .ok s => { s := s, fail := fail }
      | .error e => .bad s e j
    match gatherRow s c i kern (a.toNat + ofBytes ib * row) row base top with
    | (s, .ok l) => put s l none
    | (s, .error .bounds) => put s (List.replicate row 0) (some (j, 1, 0))
    | (s, .error (.xlat k)) => put s (List.replicate row 0) (some (j, 2, k.toNat))
    | (s, .error e) => .bad s e j

/-- The result of SRED on two elements (R333). -/
def sredOp (t : SredTy) (op : SredOp) (d v : Nat) : Nat × FpFlags :=
  let w := 8 * sredBytes t
  let fl (f : Fmt) : Nat × FpFlags :=
    match op with
    | .min => fpMinMax f false d v
    | .max => fpMinMax f true d v
    | _ => fpAdd f .rne (f.decode d) (f.decode v)
  let int (signed : Bool) : Nat × FpFlags :=
    let e (x : Nat) : Int := if signed then signedOf w x else x
    match op with
    | .add => ((d + v) % 2 ^ w, 0)
    | .min => (if e d ≤ e v then d else v, 0)
    | .max => (if e d ≤ e v then v else d, 0)
    | .and => (d &&& v, 0)
    | .or => (d ||| v, 0)
    | .xor => (d ^^^ v, 0)
  match t with
  | .f32 => fl fF32 | .bf16 => fl fBf16 | .f16 => fl fF16
  | .i32 | .i64 => int true
  | .n32 | .n64 => int false

/-- Element `j` of SRED, one step at its home (R333). -/
def performSred (s : State) (die : Nat) (i : Ident) (t : SredTy) (op : SredOp) (d a : Word) (xl : Xlat) (j : Nat) : Effect :=
  let w := sredBytes t
  match engineGetAt s die i xl (a.toNat + j * w) w with
  | .error e => .bad s e j
  | .ok (vb, s) =>
    match engineGetAt s die i xl (d.toNat + j * w) w with
    | .error e => .bad s e j
    | .ok (db, s) =>
      let r := sredOp t op (ofBytes db) (ofBytes vb)
      match enginePutAt s die i xl (d.toNat + j * w) (toBytes w r.1) with
      | .ok s => { s := s, flags := r.2 }
      | .error e => .bad s e j

/-- The conversion of `n` elements of SCONV, of one block where a side has blocks (R334). -/
def convert (sf df : Nat) (rm : RoundMode) (n : Nat) (src scales : List Byte) : List Byte × List Byte × FpFlags :=
  let sc := match codeBlock sf with | some (_, b) => [ofBytes (scales.take b)] | none => []
  let vs := decodeArray sf (unpackBytes (codeBits sf) n src) sc
  let e := encodeArray df rm (codeInt sf || sf == 16) (vs.map (·.1)) (vs.map fun _ => false)
  let f := vs.foldl (fun (a : FpFlags) v => a ||| v.2) e.2.2
  (packBytes (codeBits df) e.1, match codeBlock df with | some (_, b) => e.2.1.flatMap (toBytes b) | none => [], f)

/-- Elements that one effect of SCONV writes: a block of a block destination, whose scale they share, else one (R323,
R334). -/
def convStep (df : Nat) : Nat := match codeBlock df with | some (n, _) => n | none => 1

/-- The ranges of effect `u` of SCONV: source bytes, the scale of its block, destination bytes, and the scale it writes;
each an address and a length (R313, R334). -/
def convRanges (sf df : Nat) (d a b : Word) (u : Nat) : List (Nat × Nat) :=
  let n := convStep df
  let e := u * n
  let w := codeBits sf
  let lo := e * w / 8
  [(a.toNat + lo, ((e + n) * w + 7) / 8 - lo),
   match codeBlock sf with | some (m, z) => (b.toNat + e / m * z, z) | none => (b.toNat, 0),
   (d.toNat + packedSize df e, packedSize df n),
   (b.toNat + scaleSize df e, scaleSize df n)]

/-- Effect `u` of SCONV performed: its first element that fails, or the conversion of them all (R323, R334). -/
def performSconv (s : State) (die : Nat) (i : Ident) (sf df : Nat) (rm : RoundMode) (d a b : Word) (xl : Xlat) (u : Nat) : Effect :=
  let n := convStep df
  let e := u * n
  match convRanges sf df d a b u with
  | [src, sc, dst, ds] =>
    let bad (r : Nat × Nat) (write : Bool) (elem : Nat → Nat) : Option (Bad × Nat) :=
      (firstBadAt s die i xl r.1 r.2 write).map fun x => (x.1, max e (elem x.2))
    let fails := [bad src false fun o => (e * codeBits sf / 8 + o) * 8 / codeBits sf, bad sc false fun _ => e,
      bad dst true fun o => e + o * 8 / codeBits df, bad ds true fun _ => e]
    let first := fails.foldl (fun (m : Option (Bad × Nat)) f => match m, f with
      | some x, some y => if y.2 < x.2 then some y else some x
      | none, f => f
      | m, none => m) none
    match first with
    | some x => .bad s x.1 x.2
    | none =>
      let r : Except Bad (State × FpFlags) := do
        let (bytes, s) ← engineGetAt s die i xl src.1 src.2
        let (scale, s) ← engineGetAt s die i xl sc.1 sc.2
        let code := ofBytes bytes >>> (e * codeBits sf % 8)
        let v := convert sf df rm n (toBytes ((n * codeBits sf + 7) / 8) code) scale
        let s ← enginePutAt s die i xl dst.1 v.1
        let s ← enginePutAt s die i xl ds.1 v.2.1
        pure (s, v.2.2)
      match r with
      | .ok (s, f) => { s := s, flags := f }
      | .error k => .bad s k e
  | _ => { s := s }

end Sys2Proof.Machine
end

