-- ==== Sys2Proof/Machine/Copy.lean ====
section
/-! DEFINITION. The copy engine: COPY, COPYR, WPRD, TLWAIT, TLRD (R336 to R348). -/

namespace Sys2Proof.Machine

/-- A copy's shape from its registers, with the first register that fails R339; a variant's unused fields are
read as R339 gives them. -/
def readShape (v : Dims) (k0 k1 k2 : Word) : Except Word CopyShape :=
  let l := (k0.extractLsb' 0 32).toNat
  let r := (k0.extractLsb' 32 16).toNat
  let p := (k0.extractLsb' 48 16).toNat
  let rows := v != .d1
  let planes := v == .d3
  let r' := if rows then r else 1
  let p' := if planes then p else 1
  let drs := if rows then (k1.extractLsb' 32 32).toNat else 0
  let dps := if planes then (k2.extractLsb' 32 32).toNat else 0
  if l = 0 ∨ r' = 0 ∨ p' = 0 ∨ (!rows ∧ r ≠ 0) ∨ (!planes ∧ p ≠ 0) ∨ 2 ^ 32 - 1 < l * r' * p' then .error k0
  else if 1 < r' ∧ drs < l then .error k1
  else if 1 < p' ∧ dps < (r' - 1) * drs + l then .error k2
  else
    .ok { l := l, r := r', p := p', drs := drs, dps := dps
          srs := if rows then (k1.extractLsb' 0 32).toInt else 0
          sps := if planes then (k2.extractLsb' 0 32).toInt else 0 }

/-- Source and destination of delivery `i` (R340). -/
def CopyShape.src (h : CopyShape) (a : Word) (i : Nat) : Nat :=
  let p := i / (h.l * h.r)
  let r := i / h.l % h.r
  ((a.toNat : Int) + p * h.sps + r * h.srs + (i % h.l : Nat) |>.emod (2 ^ 64)).toNat
def CopyShape.dst (h : CopyShape) (d : Word) (i : Nat) : Nat :=
  (d.toNat + i / (h.l * h.r) * h.dps + i / h.l % h.r * h.drs + i % h.l) % 2 ^ 64

/-- The hulls: lowest address and length (R340). -/
def CopyShape.dstHull (h : CopyShape) (d : Word) : Word × Nat := (d, (h.p - 1) * h.dps + (h.r - 1) * h.drs + h.l)
def CopyShape.srcHull (h : CopyShape) (a : Word) : Word × Nat :=
  let ps : Int := ((h.p - 1 : Nat) : Int) * h.sps
  let rs : Int := ((h.r - 1 : Nat) : Int) * h.srs
  let lo := min 0 ps + min 0 rs
  (a + BitVec.ofInt 64 lo, (max 0 ps + max 0 rs - lo + h.l).toNat)

/-- A command's hull of a capability: checks 1 to 5 of R155. -/
def hullCheck (s : State) (c : Nat) (r : BitVec 6) (perm : BitVec 12) (hull : Word × Nat) : Res Unit := do
  let _ ← capCheck ((s.ctx c).reg r) r perm hull.1 hull.2
  pure ()

/-- Commands on a channel. -/
def channelOf (s : State) (k : Nat) (ch : BitVec 2) : List Nat := Sparse.get [] (s.core k).channels ch.toNat

/-- The shape registers of a copy, none of them pending. -/
def shapeOf (s : State) (c : Nat) (v : Dims) (b : BitVec 6) : Res (Except Word CopyShape) := do
  let k0 ← regOf s c b
  let k1 ← if v = .d1 then pure {} else regOf s c (b + 1)
  let k2 ← if v = .d3 then regOf s c (b + 2) else pure {}
  pure (readShape v (k0.bits.setWidth 64) (k1.bits.setWidth 64) (k2.bits.setWidth 64))

/-- A command whose channel is full does not issue (R337). -/
def channelRoom (s : State) (c : Nat) (ch : BitVec 2) : Res Unit :=
  ask (decide ((channelOf s (coreOf c) ch).length < 16)) (.block .channel)

/-- COPY (R342, R343). -/
def copyBody (o : CopyOps) (c : Nat) (s : State) : Res State := do
  let d ← regOf s c o.d
  let a ← regOf s c o.a
  match ← shapeOf s c o.dims o.b with
  | .error w => .error (.trap { cause := 0x0D, val := w })
  | .ok h =>
    let da : Word := d.bits.setWidth 64
    let aa : Word := a.bits.setWidth 64
    hullCheck s c o.d permEdst (h.dstHull da)
    hullCheck s c o.a permEsrc (h.srcHull aa)
    let xl ← xlatAll s c [(da, (h.dstHull da).2, 4), ((h.srcHull aa).1, (h.srcHull aa).2, 3)]
    channelRoom s c o.ch
    pushCmd s c (.copy h da aa d.cap.key a.cap.key xl o.ch.toNat none) o.ch.toNat

def execCopy (o : CopyOps) (s : State) : Out := run (.copy o) o.h (copyBody o) s

/-- The die DIE of a COPYR names (R22, R342). -/
def copyrDie (s : State) (i : Ident) (l : Nat) : Option Nat :=
  if i.custodian then (if l < 10 then some l else none) else (physDie s (partNo i) l).map (·.1)

/-- COPYR (R342, R344). -/
def copyrBody (o : CopyrOps) (c : Nat) (s : State) : Res State := do
  match copyrDie s (s.ctx c).ident o.die.toNat with
  | none => .error (.trap { cause := 0x60, val := BitVec.ofNat 64 (o.die.toNat * 65536) })
  | some die =>
    let d ← regOf s c o.d
    let a ← regOf s c o.a
    match ← shapeOf s c o.dims o.b with
    | .error w => .error (.trap { cause := 0x0D, val := w })
    | .ok h =>
      let da : Word := d.bits.setWidth 64
      let aa : Word := a.bits.setWidth 64
      hullCheck s c o.d (permEdst ||| permRemote) (h.dstHull da)
      hullCheck s c o.a permEsrc (h.srcHull aa)
      let fr : BitVec 6 := o.flag.setWidth 6
      let f ← regOf s c fr
      let v ← regOf s c (fr + 1)
      let fa : Word := f.bits.setWidth 64
      if o.flag != 0 then do
        hullCheck s c fr (permSt ||| permRemote) (fa, 8)
        trapIf (decide (fa.toNat % 8 ≠ 0)) 0x0E fa
      else pure ()
      let xl ← xlatAll s c ([(da, (h.dstHull da).2, 4), ((h.srcHull aa).1, (h.srcHull aa).2, 3)]
        ++ (if o.flag != 0 then [(fa, 8, 4)] else []))
      let fp ← if o.flag != 0 then (do let p ← engineAt s c fa 8 4; pure (some p)) else pure none
      channelRoom s c o.ch
      let rem : CopyRemote := { die := die, flag := fp, flagKey := f.cap.key, v := v.bits.setWidth 64 }
      pushCmd s c (.copy h da aa d.cap.key a.cap.key xl o.ch.toNat (some rem)) o.ch.toNat

def execCopyr (o : CopyrOps) (s : State) : Out := run (.copyr o) o.h (copyrBody o) s

/-- Deliveries a write pointer reports: whole rows and whole 64-byte destination sectors (R345). -/
def pointerOf (h : CopyShape) (d : Word) (n : Nat) : Nat :=
  if n = h.total then n else n - min (h.dst d n % 64) (n % h.l)

/-- The write pointer's word (R345). -/
def writePointer (s : State) (k : Nat) (ch : BitVec 2) : Word :=
  match (channelOf s k ch).head? with
  | none => packWord [(31, 1)]
  | some id =>
    match s.cmds.find? fun e => e.id == id with
    | none => packWord [(31, 1)]
    | some e =>
      match e.op with
      | .copy h d _ _ _ _ _ none => packWord [(32, pointerOf h d e.deliv), (28, ctxNo e.c), (0, e.num % 2 ^ 28)]
      | _ => packWord [(30, 1), (28, ctxNo e.c), (0, e.num % 2 ^ 28)]

/-- WPRD (R116, R345): once the context's older copies on the channel have joined it. -/
def wprdBody (o : WprdOps) (c : Nat) (s : State) : Res State := do
  let x := s.ctx c
  ask (x.lob.all fun e => match e.op with | .cmd (.copy _ _ _ _ _ _ ch _) _ => ch != o.ch.toNat | _ => true) .stall
  ask (mayGo s c { id := x.nextId, op := .load [] .now, ident := x.ident }) .stall
  let (_, s) ← sources s c [] (some o.d)
  pure (deliver s c o.d (writePointer s (coreOf c) o.ch))

def execWprd (o : WprdOps) (s : State) : Out := run (.wprd o) o.h (wprdBody o) s

/-- TLWAIT (R115, R347). -/
def tlwaitBody (o : TlwaitOps) (c : Nat) (s : State) : Res State := do
  let s ← leaveNow s c .part
  let owner := tlOwner s c
  let t := s.tline owner o.tl.toNat
  let (ws, s) ← holdWords s c [o.b] (some o.d)
  let w := arg ws 0 + o.n.setWidth 64
  let n := if w = 0 then t.issued else w.toNat
  trapIf (decide (t.issued < n)) 0x0D w
  if t.done < n then pure (blockOn s c (.timeline o.tl.toNat n))
  else
    let s ← useWords s c [o.b]
    ask (operandsReady s c [] (some o.d)) .stall
    let s := if o.tl = 6 then takeHeld s c n else s
    pure (replied (deliver (countEvent s (coreOf c) 5 1) c o.d (BitVec.ofNat 64 t.done)) c)

def execTlwait (o : TlwaitOps) (s : State) : Out := run (.tlwait o) o.h (tlwaitBody o) s

/-- The commands a context has issued on a timeline: those numbered, and those still in its order buffer, whose
numbers come as they leave (R100, R113, R348). -/
def issuedOn (s : State) (c tl : Nat) : Nat :=
  (s.tline (tlOwner s c) tl).issued
    + (s.ctx c).lob.countP fun e => match e.op with | .cmd _ t => t == tl | _ => false

/-- TLRD (R348, R474). -/
def execTlrd (o : TlrdOps) (s : State) : Out :=
  run (.tlrd o) o.h (fun c s => do
    let (_, s) ← sources s c [] (some o.d)
    let n := if o.iss then issuedOn s c o.tl.toNat else (s.tline (tlOwner s c) o.tl.toNat).done
    let (w, s) ← outside s c 7 (BitVec.ofNat 64 n)
    pure (deliver s c o.d w)) s

/-! A copy at its engine (R340, R341, R346). -/

/-- Reasons of R346. -/
def copyReason : Bad → Nat
  | .poison => 1 | .custody => 2 | .die => 3 | .orphan => 4 | .unbacked => 5 | .lock => 6 | .stopped => 7
  | _ => 3

/-- The lock check of a delivered byte (R342, R346). -/
def copyLock (s : State) (pa : Nat) (key : BitVec 4) : Except Bad Unit :=
  let l := homeLock s pa
  if l = 0 ∨ l = key then .ok () else .error .lock

/-- The source bytes of a copy that are destination bytes of it too, with what they hold now (R341). -/
def ownSources (s : State) (h : CopyShape) (d a : Word) (xl : Xlat) : List (Nat × Byte) :=
  let p := pagesOf (h.dstHull d).1.toNat (h.dstHull d).2
  let q := pagesOf (h.srcHull a).1.toNat (h.srcHull a).2
  if !(p.any fun x => q.any fun y => xlAt xl (x * 4096) == xlAt xl (y * 4096)) then []
  else
    let dsts := (List.range h.total).map fun i => xlAt xl (h.dst d i)
    ((List.range h.total).filterMap fun i =>
      let src := xlAt xl (h.src a i)
      if dsts.contains src then some (src, homeByte s src) else none).eraseDups

/-- Delivery `i` of a copy (R340, R341). `old` takes for a source byte that an earlier delivery of the command has written
the byte it held when the command started. -/
def deliverByte (s : State) (e : EngCmd) (h : CopyShape) (d a : Word) (dkey akey : BitVec 4) (xl : Xlat) (i : Nat) (old : Bool) :
    Except Bad State := do
  let die := dieOf e.c
  if cmdStopped s e.ident then throw .stopped
  let src := xlAt xl (h.src a i)
  let dst := xlAt xl (h.dst d i)
  copyLock s src akey
  let (b, s) ← engineGet s die e.ident src 1
  let written := old && (List.range i).any fun j => xlAt xl (h.dst d j) == src
  let v := match (if written then e.before.find? fun p => p.1 == src else none) with
    | some p => p.2
    | none => b.getD 0 0
  copyLock s dst dkey
  enginePut s die e.ident dst [v]

/-- The flag write of a COPYR (R344, R346). -/
def writeFlag (s : State) (e : EngCmd) (r : CopyRemote) : Except Bad State :=
  match r.flag with
  | none => .ok s
  | some pa => do
    if cmdStopped s e.ident then throw .stopped
    copyLock s pa r.flagKey
    enginePut s (dieOf e.c) e.ident pa (toBytes 8 r.v.toNat)

end Sys2Proof.Machine
end

