-- ==== Sys2Proof/Machine/Custody.lean ====
section
/-! DEFINITION. The frame custody record's transactions (R427 to R442): FOFFER to FQUERY, revoke points,
completion, deadlines, strikes and notices. -/

namespace Sys2Proof.Machine

/-- The stack of a frame. -/
def frameStack (frame : Nat) : Nat := frame / 2 ^ 21

/-- Frames the record of a stack takes: 16 bytes for each populated frame (R428). -/
def recordFrames : Nat := 320

/-- Whether a frame is one a transaction may name: populated, of an installed stack, not the record's own (R428,
R434). -/
def frameNamed (s : State) (frame : Nat) : Bool :=
  let b := s.base (frameStack frame)
  let o := frame % 2 ^ 21
  isHbm (frame * 65536) && b.custEn && !(decide (b.custBase / 65536 ≤ o) && decide (o < b.custBase / 65536 + recordFrames))

/-- An entry's word 0 from its fields (R429). -/
def entryWord (st : Nat) (part : BitVec 8) (vf : BitVec 4) (owner : Bool) (gen : BitVec 16) (limit : Nat) : Word :=
  packWord [(60, st), (52, part.toNat), (48, vf.toNat), (47, bit owner), (16, gen.toNat), (0, limit)]

/-- A performed transaction writes the entry with GEN advanced, and the frame is redirected no more (R289, R429,
R434). -/
def putEntry (s : State) (frame st : Nat) (part : BitVec 8) (vf : BitVec 4) (owner : Bool) (limit : Nat) (deadline : Word) : State :=
  let a := entryAddr s frame
  let w := entryWord st part vf owner (entGen (entry0 s frame) + 1) limit
  (homeStoreWord (homeStoreWord s a w) (a + 8) deadline).modBase (frameStack frame) fun b => { b with
    redirect := b.redirect.filter fun r => r.1 != frame }

/-- Zeroes lines of a frame with lock 0 and no tags, and takes their poison away (R157, R286, R434). -/
def cleanLines (s : State) (frame : Nat) (all : Bool) : State :=
  (List.range 512).foldl (fun s j =>
    let a := frame * 65536 + 128 * j
    if all || s.poison.contains (a / 128) then
      { zeroRange (purge s (a / 128)) a 128 with
        poison := s.poison.filter (· != a / 128)
        locks := s.locks.filter fun l => l.1 / 4 != a / 128 }
    else s) s

/-- Whether a region's storage or scales overlap a frame. -/
def Region.inFrame (r : Region) (frame : Nat) : Bool :=
  overlaps r.base (r.tiles * r.ss) (frame * 65536) 65536 || overlaps r.scale (r.tiles * r.sb) (frame * 65536) 65536

/-- The tile cache lets a frame go: its entries are written back and discarded, and the regions of a world that
loses it are detached (R320). -/
def detachFrame (s : State) (frame : Nat) (losers : List (BitVec 8 × BitVec 4 × Bool)) : State :=
  let k := frameStack frame
  let hit (t : Tile) : Bool := overlaps t.pa t.n (frame * 65536) 65536 || overlaps t.spa t.sn (frame * 65536) 65536
  let s := ((s.base k).tiles.filter hit).foldl tileFlags (s.modBase k fun b => { b with tiles := b.tiles.filter fun t => !hit t })
  losers.foldl (fun s l => s.modPart l.1.toNat fun p => { p with
    regions := p.regions.map fun r => if r.vf = l.2.1 ∧ r.world = l.2.2 ∧ r.inFrame frame then { r with detached := true } else r }) s

/-- Starts the withdrawal of rights (R436 step 1); the tile cache is dealt with at once (R320). -/
def withdraw (s : State) (frame : Nat) (losers : List (BitVec 8 × BitVec 4 × Bool)) (issuer : Option Nat) : State :=
  (detachFrame s frame losers).modBase (frameStack frame) fun b => { b with
    revokes := b.revokes ++ [{ frame := frame, losers := losers, issuer := issuer, word := entry0 s frame
                               set := (issuer.map fun c => (s.ctx c).set).getD 0 }] }

/-- Adds a notice to the service queue of a world's virtual function (R259, R438). -/
def custodyNotice (s : State) (part : BitVec 8) (vf : BitVec 4) (world : Bool) (g3 : Word) (frame : Nat) (g6 : Word) : State :=
  let die := if world then (physDie s part.toNat 0).map (·.1) else firstHostDie s part.toNat
  match die with
  | none => s
  | some d => s.modDie d fun x => { x with
      service := Sparse.set x.service (part.toNat * 16 + vf.toNat)
        (Sparse.get [] x.service (part.toNat * 16 + vf.toNat) ++ [.notice g3 (BitVec.ofNat 64 (frame * 65536)) 0 g6]) }

/-! Strikes and suspension (R440). -/

def strikesOf (s : State) (part : BitVec 8) (vf : BitVec 4) (world : Bool) : Strikes :=
  let v := s.vf part.toNat vf.toNat
  if world then v.strikes1 else v.strikes0

def setStrikes (s : State) (part : BitVec 8) (vf : BitVec 4) (world : Bool) (k : Strikes) : State :=
  s.modVf part.toNat vf.toNat fun v => if world then { v with strikes1 := k } else { v with strikes0 := k }

/-- Whether a world's borrowing is suspended now. -/
def suspended (s : State) (k : Strikes) : Bool := match k.till with | some t => decide (s.time.toNat < t) | none => false

/-- The times of a world's strikes within the last second. -/
def recentStrikes (s : State) (k : Strikes) : List Nat := k.times.filter fun t => decide (s.time.toNat ≤ t + 1000000000)

/-- Charges a strike; the third within a second suspends for 100 ms. -/
def strike (s : State) (part : BitVec 8) (vf : BitVec 4) (world : Bool) : State :=
  let k := strikesOf s part vf world
  let ts := ((s.time.toNat :: k.times).take 3)
  let n := (recentStrikes s { k with times := ts }).length
  setStrikes s part vf world { times := ts, till := if n = 3 then some (s.time.toNat + 100000000) else k.till }

/-- The strike word (R435); microseconds left are rounded up. -/
def strikeWord (s : State) (k : Strikes) : Word :=
  let left := match k.till with | some t => t - s.time.toNat | none => 0
  packWord [(16, (left + 999) / 1000), (8, bit (suspended s k)), (0, (recentStrikes s k).length)]

/-! Transactions (R434). -/

/-- The seven transactions that change an entry, in the order of the table. -/
inductive CustodyOp where
  | offer | withdraw | accept | lend (b : Word) | recall | ret | grant (b : Word) | reclaim
deriving DecidableEq, Repr

/-- What a transaction comes to: a refusal, or the state and the worlds that lose rights. -/
def transact (s : State) (i : Ident) (op : CustodyOp) (frame : Nat) : Except Nat (State × List (BitVec 8 × BitVec 4 × Bool)) :=
  let w := entry0 s frame
  let st := entState w
  let part := entPart w
  let vf := entVf w
  let owner := entOwner w
  let me := i.world
  let anyone := match op with | .grant _ | .reclaim => true | _ => false
  let put (st : Nat) (owner : Bool) (limit : Nat) (dl : Word) : State := putEntry s frame st part vf owner limit dl
  let world (b : Bool) : BitVec 8 × BitVec 4 × Bool := (part, vf, b)
  if !frameNamed s frame then .error 1
  else if !anyone && (i.custodian || st == 0 || part != i.part || vf != i.vf) then .error 2
  else if s.holds.any fun h => !h.kernel && h.frame == frame then .error 5
  else
    match op with
    | .offer => if st = 1 ∧ owner = me then .ok (put 2 me 0 0, []) else .error 3
    | .withdraw => if st = 2 then .ok (put 1 owner 0 0, []) else .error 3
    | .accept => if st = 2 ∧ owner ≠ me then .ok (cleanLines (put 1 me 0 0) frame false, [world owner]) else .error 3
    | .lend b =>
      if !(st == 1 && owner == me) then .error 3
      else if suspended s (strikesOf s part vf (!me)) then .error 4
      else .ok (put 3 me (if b.toNat % 65536 = 0 then 200 else b.toNat % 65536) 0, [])
    | .recall =>
      if st = 3 ∧ owner = me then
        let dl := s.time + BitVec.ofNat 64 ((entLimit w).toNat * 10000)
        .ok (custodyNotice (put 4 me (entLimit w).toNat dl) part vf (!me) 0x42 frame dl, [])
      else .error 3
    | .ret => if (st = 3 ∨ st = 4) ∧ owner ≠ me then .ok (put 1 owner 0 0, [world me]) else .error 3
    | .grant b =>
      if st ≠ 0 then .error 3
      else if b.toNat / 2 ^ 12 ≠ 0 ∨ b.extractLsb' 1 3 ≠ 0 then .error 6
      else .ok (cleanLines (putEntry s frame 1 (b.extractLsb' 8 8) (b.extractLsb' 4 4) (b.getLsbD 0) 0 0) frame true, [])
    | .reclaim =>
      if st = 0 then .error 3
      else .ok (putEntry s frame 0 0 0 false 0 0, [world owner] ++ if 3 ≤ st then [world (!owner)] else [])

/-- A custody instruction (R433, R436, R437): cause 0x0D, the release, the wait for the entry, then the transaction;
`f` gives the result, or none when the reply comes with the end of a withdrawal. -/
def custodyCmd (srcs : List Src) (d : Dst) (f : Nat → List Word → State → Option Word × State) (c : Nat) (s : State) : Res State := do
  destReady s c d
  if (s.ctx c).sent then
    match (s.ctx c).reply with
    | some (.ok w) => answer (s.modCtx c fun x => { x with sent := false, reply := none }) c d w
    | _ => .error (.block .custody)
  else
    let (ws, t) ← holdWords s c srcs (some d)
    trapIf (decide ((arg ws 0).toNat % 65536 ≠ 0)) 0x0D (arg ws 0)
    let s ← leaveNow t c .part
    let frame := (arg ws 0).toNat / 65536
    if (revokeOf s frame).isSome then pure (blockOn t c .custody)
    else
      let s ← useWords s c srcs
      match f frame ws (countEvent s (coreOf c) 5 1) with
      | (some w, s) => answer s c d w
      | (none, s) => pure (blockOn (s.modCtx c fun x => { x with sent := true }) c .custody)

/-- A transaction at the record home (R434, R436). -/
def runTransaction (c : Nat) (op : List Word → CustodyOp) (frame : Nat) (ws : List Word) (s : State) : Option Word × State :=
  match transact s (s.ctx c).ident (op ws) frame with
  | .error n => (some (refusal n), s)
  | .ok (t, []) => (some (entry0 t frame), t)
  | .ok (t, l) => (none, withdraw t frame l (some c))

/-- R434. -/
def execFoffer (o : DstSrc) (s : State) : Out :=
  runKernel (.foffer o) o.h (fun c => custodyCmd [o.a] o.d (runTransaction c fun _ => .offer) c) s

/-- R434 `.grant`: below custodian level cause 0x02, whatever the guard (R59, R433). -/
def execFofferGrant (o : DstSrc2) (s : State) : Out :=
  runLevel (.fofferGrant o) o.h ((s.ctx s.cur).level != .custodian)
    (fun c => custodyCmd [o.a, o.b] o.d (runTransaction c fun ws => .grant (arg ws 1)) c) s

/-- R434 `.reclaim`: below custodian level cause 0x02, whatever the guard (R59, R433). -/
def execFofferReclaim (o : DstSrc) (s : State) : Out :=
  runLevel (.fofferReclaim o) o.h ((s.ctx s.cur).level != .custodian)
    (fun c => custodyCmd [o.a] o.d (runTransaction c fun _ => .reclaim) c) s

/-- R434. -/
def execFaccept (o : DstSrc) (s : State) : Out :=
  runKernel (.faccept o) o.h (fun c => custodyCmd [o.a] o.d (runTransaction c fun _ => .accept) c) s

/-- R434. -/
def execFwithdraw (o : DstSrc) (s : State) : Out :=
  runKernel (.fwithdraw o) o.h (fun c => custodyCmd [o.a] o.d (runTransaction c fun _ => .withdraw) c) s

/-- FLEND (R433, R434): a B beyond 16 bits is cause 0x0D, after A's own check. -/
def flendBody (o : DstSrc2) (c : Nat) (s : State) : Res State := do
  if (s.ctx c).sent then pure ()
  else do
    let (ws, _) ← holdWords s c [o.a, o.b] (some o.d)
    trapIf (decide ((arg ws 0).toNat % 65536 = 0) && decide (2 ^ 16 ≤ (arg ws 1).toNat)) 0x0D (arg ws 1)
  custodyCmd [o.a, o.b] o.d (runTransaction c fun ws => .lend (arg ws 1)) c s

def execFlend (o : DstSrc2) (s : State) : Out := runKernel (.flend o) o.h (flendBody o) s

/-- R434. -/
def execFrecall (o : DstSrc) (s : State) : Out :=
  runKernel (.frecall o) o.h (fun c => custodyCmd [o.a] o.d (runTransaction c fun _ => .recall) c) s

/-- R434. -/
def execFret (o : DstSrc) (s : State) : Out :=
  runKernel (.fret o) o.h (fun c => custodyCmd [o.a] o.d (runTransaction c fun _ => .ret) c) s

/-- FQUERY `.state` and `.dl` (R434, R435): the checks of a transaction, then a word of the entry. -/
def queryEntry (c : Nat) (word : State → Nat → Word) (frame : Nat) (_ : List Word) (s : State) : Option Word × State :=
  let i := (s.ctx c).ident
  let w := entry0 s frame
  if !frameNamed s frame then (some (refusal 1), s)
  else if !i.custodian && (entState w == 0 || entPart w != i.part || entVf w != i.vf) then (some (refusal 2), s)
  else if s.holds.any fun h => !h.kernel && h.frame == frame then (some (refusal 5), s)
  else (some (word s frame), s)

/-- R435. -/
def execFqueryState (o : DstSrc) (s : State) : Out :=
  runKernel (.fqueryState o) o.h (fun c => custodyCmd [o.a] o.d (queryEntry c entry0) c) s
/-- R435. -/
def execFqueryDl (o : DstSrc) (s : State) : Out :=
  runKernel (.fqueryDl o) o.h (fun c => custodyCmd [o.a] o.d (queryEntry c entry1) c) s

/-- FQUERY `.strk` (R435): refusal 0x02 at custodian level, which has no world (R434). -/
def execFqueryStrk (o : OneDst) (s : State) : Out :=
  runKernel (.fqueryStrk o) o.h (fun c s =>
    blockingCmd s c [] o.d fun _ s =>
      let i := (s.ctx c).ident
      .ok (if i.custodian then refusal 2 else strikeWord s (strikesOf s i.part i.vf i.world), countEvent s (coreOf c) 5 1)) s

/-! The end of a withdrawal, deadlines and suspensions (R436, R438 to R440). -/

/-- REVOKE_POINT (R436 step 2) of one of a frame's 512 lines: its copies on the dies of the losing worlds' kinds are
recalled first. -/
def execRevokePoint (frame line : Nat) (s : State) : Out :=
  .next (match revokeOf s frame with
    | some r =>
      if line < 512 ∧ !r.past.contains line then
        let kin (d : Nat) : Bool := r.losers.any fun l => l.2.2 == decide (d < 8)
        (((List.range 10).filter kin).foldl (fun s d => dropCopy s d (frame * 512 + line)) s).modBase (frameStack frame) fun b => { b with
          revokes := b.revokes.map fun r => if r.frame = frame then { r with past := insertNat r.past line } else r }
      else s
    | none => s)

/-- Removes the translations of worlds over a frame (R436 step 3). -/
def dropTranslations (s : State) (frame : Nat) (losers : List (BitVec 8 × BitVec 4 × Bool)) : State :=
  let hit (e : TlbEntry) : Bool := overlaps e.pa (2 ^ e.size) (frame * 65536) 65536
    && losers.any fun l => l.1 == e.ident.part && l.2.1 == e.ident.vf && l.2.2 == e.ident.world
  { s with clus := s.clus.map fun k => (k.1, { k.2 with tlb := k.2.tlb.filter fun e => !hit e }) }

/-- Whether a die that is not lost still has an access of a losing world into the frame: it acknowledges only after
each has performed (R282, R436 step 3). -/
def Revoke.awaits (r : Revoke) (s : State) : Bool :=
  let mine (i : Ident) (pa : Nat) : Bool := !i.custodian && pa / 65536 == r.frame
    && r.losers.any fun l => l.1 == i.part && l.2.1 == i.vf && l.2.2 == i.world
  unperformed s (fun d => (s.dieCtl d).state != 3) fun i _ pa => mine i pa

/-- CUSTODY_TRANSACTION_COMPLETE (R436, R439): the steps have ended everywhere. A revocation at a deadline then charges
its strike; the result of a transaction whose context has been freed since is discarded (R449). -/
def execCustodyTransactionComplete (frame : Nat) (s : State) : Out :=
  match revokeOf s frame with
  | none => .next s
  | some r =>
    if r.awaits s then .next s else
    let s := (dropTranslations s frame r.losers).modBase (frameStack frame) fun b => { b with
      revokes := b.revokes.filter fun r => r.frame != frame }
    match r.issuer with
    | some c =>
      let waits := match (s.ctx c).run with | .blocked .custody _ => (s.ctx c).sent && (s.ctx c).set == r.set | _ => false
      .next (if waits then s.modCtx c fun x => { x with reply := some (.ok r.word) } else s)
    | none =>
      let w := entry0 s frame
      let s := r.losers.foldl (fun s l => strike s l.1 l.2.1 l.2.2) s
      let note (s : State) (world : Bool) : State := custodyNotice s (entPart r.word) (entVf r.word) world 0x43 frame 0
      .next (note (note s (entOwner w)) (!entOwner w))

/-- RECALL_DEADLINE (R439): the revocation begins; the strike follows the withdrawal. -/
def execRecallDeadline (frame : Nat) (s : State) : Out :=
  let w := entry0 s frame
  if !(frameNamed s frame && entState w == 4 && (revokeOf s frame).isNone && decide ((entry1 s frame).toNat ≤ s.time.toNat)) then .next s
  else
    let t := putEntry s frame 1 (entPart w) (entVf w) (entOwner w) 0 0
    .next (withdraw t frame [(entPart w, entVf w, !entOwner w)] none)

/-- SUSPENSION_END (R440). -/
def execSuspensionEnd (part vf : Nat) (world : Bool) (s : State) : Out :=
  let p := BitVec.ofNat 8 part
  let v := BitVec.ofNat 4 vf
  let k := strikesOf s p v world
  match k.till with
  | some t => .next (if t ≤ s.time.toNat then setStrikes s p v world { k with till := none } else s)
  | none => .next s

end Sys2Proof.Machine
end

