-- ==== Sys2Proof/Machine/System.lean ====
section
/-! DEFINITION. YIELD, END and the system instructions BANKCFG to CKPT (R190, R191, R216 to R225), and the control
registers (R23, R151, R152). -/

namespace Sys2Proof.Machine

/-- YIELD gives up its context by a switch-out with REASON 5; where none can be made it only goes on (R190, R232,
R237). -/
def execYield (o : NoOps) (s : State) : Out :=
  run (.yield o) o.h (fun c s => do
    let s ← leaveNow s c .part
    let s := retire s c
    pure (if yields s c then s.modCtx c fun x => { x with run := .leaving 5 } else s)) s

/-- The order of R191: once the commands on tl0 to tl6 are over A is read, and once it has A the release of R118 is
performed; then `fin` goes on with the word. A word it has taken waits with its context. -/
def afterCommands (srcs : List Src) (c : Nat) (s : State) (fin : Word → State → Res State) : Res State := do
  ask (allDone s (tlOwner s c)) (.block .engine)
  let (ws, t) ← holdWords s c srcs none
  if (s.ctx c).held.isNone && (t.ctx c).held.isSome then pure t
  else
    let s ← leaveNow t c .part
    fin (arg ws 0) s

/-- The end of a task, in the order of R191. Its own vector and matrix instructions are over too, so that their flags
are its own (R135). -/
def endingWith (srcs : List Src) (c : Nat) (s : State) (fin : Word → State → Res State) : Res State :=
  afterCommands srcs c s fun w s => do
    ask (settled s c) .stall
    fin w (takeHeld s c (s.tline (tlOwner s c) 6).done)

/-- END (R191): the task ends and its context is free. -/
def endBody (o : OneSrc) (c : Nat) (s : State) : Res State :=
  endingWith [o.a] c s fun w s => do
    let s ← useWords s c [o.a]
    let s := retire s c
    let s := match (s.ctx c).task with
      | some t => retireTask s (coreOf c) t w true 0
      | none => s
    pure (freeContext s c)

def execEndTask (o : OneSrc) (s : State) : Out := run (.endTask o) o.h (endBody o) s

/-- BANKCFG (R218): the checks, then the modes are set once the banks are clean. -/
def bankcfgBody (o : BankcfgOps) (c : Nat) (s : State) : Res State := do
  let (ws, t) ← sources s c [o.a, o.b] none
  let m := (arg ws 0).toNat % 2 ^ 32
  let k := arg ws 1
  trapIf (decide (2 ^ 32 ≤ (arg ws 0).toNat)) 0x0D (arg ws 0)
  trapIf (decide (15 < k.toNat) || kindOf c == .host) 0x0D k
  let cl := dieOf c * 64 + k.toNat
  let new (b : Nat) : BankMode := if m.testBit b then o.mode else bankMode s cl b
  trapIf (!([0, 4, 8, 16, 32].contains (scratchCount new))) 0x0D (BitVec.ofNat 64 m)
  trapIf (o.mode != .fifo && (List.range 32).any fun b => m.testBit b && fifoHeld s cl b) 0x0D (BitVec.ofNat 64 m)
  if (List.range 32).all fun b => bankMode s cl b == new b then pure (retire t c)
  else
    let first := match (s.ctx c).run with
      | .blocked (.banks q n md f) _ => if q = cl ∧ n = m ∧ md = o.mode then f else s.next
      | _ => s.next
    ask (banksIdle s cl (bankChanges s cl m o.mode) first) (.block (.banks cl m o.mode first))
    pure (retire (setModes t cl new) c)

def execBankcfg (o : BankcfgOps) (s : State) : Out := runKernel (.bankcfg o) o.h (bankcfgBody o) s

/-! Control registers (R151, R152). -/

/-- The lowest level that may read a register; none: not listed (R151). -/
def csrReadLevel (n : Nat) : Option Nat :=
  if n ≤ 6 then some 0
  else if 0x10 ≤ n ∧ n ≤ 0x13 then some 1
  else if 0x18 ≤ n ∧ n ≤ 0x1B then some 2
  else if n = 0x20 ∨ n = 0x30 ∨ n = 0x31 then some 1
  else if (0x40 ≤ n ∧ n ≤ 0x43) ∨ n = 0x48 then some 0
  else if 0x100 ≤ n ∧ n ≤ 0x10F then some 1
  else none

/-- The lowest level that may write a register; 3: no level (R151). -/
def csrWriteLevel (n : Nat) : Nat :=
  if n ≤ 2 then 0
  else if n ≤ 6 then 3
  else if (0x18 ≤ n ∧ n ≤ 0x1B) ∨ n = 0x20 then 2
  else 1

/-- Codes of the rounding modes (R132). -/
def RoundMode.code : RoundMode → Nat | .rne => 0 | .rtz => 1 | .rup => 2 | .rdn => 3 | .rna => 4
/-- A rounding mode field; 5 to 7 name none. -/
def RoundMode.ofCode (n : Nat) : Option RoundMode :=
  match n with | 0 => some .rne | 1 => some .rtz | 2 => some .rup | 3 => some .rdn | 4 => some .rna | _ => none

/-- CTXSTATUS (R152). -/
def ctxStatus (x : Context) : Word := packWord [(7, bit x.orphan), (4, bit x.paired), (0, x.level.code)]

/-- DIEINFO (R23). -/
def dieInfo (s : State) (c : Nat) : Word :=
  let i := (s.ctx c).ident
  let p := (partOfCore s (coreOf c)).toNat
  packWord [(40, if p = 0xFF then 0 else p), (27, logDie s p (dieOf c)), (22, bit (kindOf c == .host)),
    (12, if i.custodian then dieOf c else 0), (0, logCore s i (coreOf c))]

/-- A field of a bank of trap registers. -/
def TrapRegs.read (t : TrapRegs) (n : Nat) : Word :=
  match n with | 0 => t.cause.setWidth 64 | 1 => t.val | 2 => t.pc | _ => t.aux
def TrapRegs.write (t : TrapRegs) (n : Nat) (w : Word) : TrapRegs :=
  match n with
  | 0 => { t with cause := w.setWidth 8 }
  | 1 => { t with val := w }
  | 2 => { t with pc := w }
  | _ => { t with aux := w }

/-- BRSTAT (R162). -/
def brstat (s : State) (k : Nat) : Word :=
  let x := s.core k
  packWord [(48, min x.rolls 0xFFFF), (16, x.since % 2 ^ 32), (1, min (gateFill s k) 64), (0, bit x.mism)]

/-- The value of a listed control register as a context reads it. DESIGN CHOICE (log 77): on a host die, which has no cluster
flag registers (R136), they read 0 and take no write. -/
def csrValue (s : State) (c n : Nat) : Word :=
  let x := s.ctx c
  let k := s.core (coreOf c)
  if n = 0 then x.flags.setWidth 64
  else if n = 1 then BitVec.ofNat 64 x.round.code
  else if n = 2 then ctxStatus x
  else if n = 3 then BitVec.ofNat 64 (ctxNo c)
  else if n = 4 then gtiOf x
  else if n = 5 then dieInfo s c
  else if n = 6 then s.time
  else if n ≤ 0x13 then (if x.level = .custodian then x.ctrap else x.ktrap).read (n - 0x10)
  else if n ≤ 0x1B then x.ktrap.read (n - 0x18)
  else if n = 0x20 then shadowOf s c x.ident
  else if n = 0x30 then k.brckpt
  else if n = 0x31 then brstat s (coreOf c)
  else if n ≤ 0x43 then BitVec.ofNat 64 (Sparse.get 0 k.evc (n - 0x40))
  else if n = 0x48 then k.evsel
  else if 8 ≤ dieOf c then 0
  else ((Sparse.get 0 (s.die (dieOf c)).clflags (n - 0x100) : BitVec 6)).setWidth 64

/-- A write of a listed control register, field by field (R7, R136, R152, R159). -/
def csrStore (s : State) (c n : Nat) (w : Word) : State :=
  let k := coreOf c
  if n = 0 then s.modCtx c fun x => { x with flags := w.setWidth 6 }
  else if n = 1 then s.modCtx c fun x => { x with round := (RoundMode.ofCode (w.toNat % 8)).getD x.round }
  else if n = 2 then s.modCtx c fun x => { x with orphan := x.orphan && !w.getLsbD 7 }
  else if n ≤ 0x13 then
    s.modCtx c fun x =>
      if x.level = .custodian then { x with ctrap := x.ctrap.write (n - 0x10) w } else { x with ktrap := x.ktrap.write (n - 0x10) w }
  else if n ≤ 0x1B then s.modCtx c fun x => { x with ktrap := x.ktrap.write (n - 0x18) w }
  else if n = 0x20 then
    let p := shadowPart s c (s.ctx c).ident
    s.modDie (dieOf c) fun d => { d with tagshadow := Sparse.set d.tagshadow p (w &&& 0xFFFFFFFFFFFFF001) }
  else if n = 0x30 then s.modCore k fun x => { x with brckpt := w &&& 0x1FFFF0 }
  else if n = 0x31 then s.modCore k fun x => { x with mism := x.mism && !w.getLsbD 0 }
  else if n ≤ 0x43 then s.modCore k fun x => { x with evc := Sparse.set x.evc (n - 0x40) (w.toNat % 2 ^ 48) }
  else if n = 0x48 then s.modCore k fun x => { x with evsel := w &&& 0xFFFFFFFF }
  else if 8 ≤ dieOf c then s
  else
    s.modDie (dieOf c) fun d => { d with
      clflags := Sparse.set d.clflags (n - 0x100) (Sparse.get 0 d.clflags (n - 0x100) &&& ~~~ w.setWidth 6) }

/-- The word W2 of an instruction. -/
def w2Word (i : Instr) : BitVec 32 := w2Of (encode i)

/-- Whether FLAGS waits for the context's vector and matrix instructions (R135, R393). -/
def flagsReady (s : State) (c n : Nat) : Bool :=
  n != 0 || ((s.ctx c).vq.isEmpty && (s.core (coreOf c)).matrix.queue.all fun e => e.c != c)

/-- CSRR (R217). -/
def csrrBody (o : CsrrOps) (c : Nat) (s : State) : Res State := do
  let n := o.num.toNat
  match csrReadLevel n with
  | none => .error (.trap (illegalCsr (w2Word (.csrr o))))
  | some _ =>
    ask (flagsReady s c n) .stall
    if n = 6 then
      let (_, s) ← sources s c [] (some o.d)
      let (w, s) ← outside s c 7 s.time
      put s o.d w c
    else scalarOp [] o.d (fun _ _ => (csrValue s c n, 0)) c s
where
  /-- A number that is not listed (R58, R151). -/
  illegalCsr (w2 : BitVec 32) : Trap := { cause := 0x01, val := BitVec.ofNat 64 (4 * 2 ^ 32 + w2.toNat) }
  /-- Writes the result, to a remote mailbox as any scalar instruction does (R49, R165). -/
  put (s : State) (d : Dst) (w : Word) (c : Nat) : Res State :=
    match d with
    | .xm _ _ => scalarOp [] d (fun _ _ => (w, 0)) c s
    | _ => .ok (deliver s c d w)

def execCsrr (o : CsrrOps) (s : State) : Out :=
  let low := (csrReadLevel o.num.toNat).any fun l => decide ((s.ctx s.cur).level.code < l)
  runLevel (.csrr o) o.h low (csrrBody o) s

/-- CSRW (R217). -/
def csrwBody (o : CsrwOps) (c : Nat) (s : State) : Res State := do
  let n := o.num.toNat
  match csrReadLevel n with
  | none => .error (.trap { cause := 0x01, val := BitVec.ofNat 64 (4 * 2 ^ 32 + (w2Word (.csrw o)).toNat) })
  | some _ =>
    ask (flagsReady s c n) .stall
    let (ws, s) ← sources s c [o.a] none
    pure (retire (csrStore s c n (arg ws 0)) c)

def execCsrw (o : CsrwOps) (s : State) : Out :=
  let low := (csrReadLevel o.num.toNat).isSome && decide ((s.ctx s.cur).level.code < csrWriteLevel o.num.toNat)
  runLevel (.csrw o) o.h low (csrwBody o) s

/-- The most requests a service queue holds (R259). -/
def serviceMax : Nat := 4096

/-- SYSC (R219): the request enters the service queue and the task has ended. -/
def syscBody (o : SyscOps) (c : Nat) (s : State) : Res State := do
  let g ← regOf s c o.b
  let ea : Word := g.bits.setWidth 64
  let _ ← capCheck g o.b (permLd ||| permSt) ea 128
  trapIf (decide (ea.toNat % 128 ≠ 0)) 0x0E ea
  let regs ← argRegs s c
  endingWith [o.a] c s fun n s => do
    trapIf (decide (2 ^ 16 ≤ n.toNat)) 0x0D n
    let x := s.ctx c
    let q := Sparse.get [] (s.die (dieOf c)).service (vfKey x.ident)
    ask (decide (q.length < serviceMax)) (.block .service)
    let s ← useWords s c [o.a]
    let gti := gtiOf x
    let s := s.modDie (dieOf c) fun d => { d with
      service := Sparse.set d.service (vfKey x.ident)
        (q ++ [.sysc n g gti ((coreWord s x.ident (coreOf c)).setWidth 64) regs])
      conts := d.conts ++ [{ gti := gti, record := ea, member := x.task.bind (·.member), ident := x.ident }] }
    let s := retire s c
    let s := match (s.ctx c).task with
      | some t =>
        let s := retireTask s (coreOf c) { t with member := none, actor := none } n false 2
        match t.actor with | some a => endFiring s a 0 | none => s
      | none => s
    pure (freeContext s c)
where
  argRegs (s : State) (c : Nat) : Res (List Reg) :=
    let regs := (List.range o.narg.toNat).map fun j => BitVec.ofNat 6 (o.arg.toNat + j)
    if regs.any fun i => (s.ctx c).pendG i then .error .stall else .ok (regs.map fun i => (s.ctx c).reg i)

def execSysc (o : SyscOps) (s : State) : Out := run (.sysc o) o.h (syscBody o) s

/-- ERET (R220, R447): the full fence at core scope, then the lower level. -/
def eretBody (o : EretOps) (c : Nat) (s : State) : Res State := do
  let x := s.ctx c
  let var := bit o.kern
  trapIf (decide (x.level.code ≤ var)) 0x0D (BitVec.ofNat 64 var)
  let p := partOfCore s (coreOf c)
  trapIf (x.level == .custodian && p != 0xFF && !(s.part p.toNat).ready) 0x54 (p.setWidth 64)
  let a ← regOf s c o.a
  let s ← pairFence s c .core
  ask (!outstanding s c x.nextId .core) .stall
  pure (returnTo (retire s c) c o.kern (a.bits.setWidth 64))

def execEret (o : EretOps) (s : State) : Out := runKernel (.eret o) o.h (eretBody o) s

/-- BRK (R221). -/
def execBrk (o : ImmOps) (s : State) : Out :=
  run (.brk o) o.h (fun _ _ => .error (.trap { cause := 0x0F, val := o.imm.signExtend 64 })) s

/-- WFE (R222): the latch, or a wait on it until a deadline. -/
def wfeBody (o : DstSrc) (c : Nat) (s : State) : Res State := do
  let x := s.ctx c
  let (dl, t) ← (match x.run with
    | .blocked (.wfe d) _ => .ok (d, s)
    | _ => do
      let (ws, t) ← holdWords s c [o.a] (some o.d)
      pure (if arg ws 0 = 0 then none else some (s.time.toNat + (arg ws 0).toNat), t) : Res (Option Nat × State))
  let late := match dl with | some d => decide (d ≤ s.time.toNat) | none => false
  let latch := if x.latch == 0 && late then 0x08 else x.latch
  if latch == 0 && !replaying s c then pure (blockOn t c (.wfe dl))
  else
    let t ← useWords t c [o.a]
    let (w, t) ← outside t c 7 (latch.setWidth 64)
    let t := t.modCtx c fun x => { x with latch := 0 }
    match o.d with
    | .xm _ _ => scalarOp [] o.d (fun _ _ => (w, 0)) c t
    | d => do
      ask (operandsReady t c [] (some d)) .stall
      pure (deliver t c d w)

def execWfe (o : DstSrc) (s : State) : Out := run (.wfe o) o.h (wfeBody o) s

/-- HALT (R223): the full fence at core scope, then no issue until bit 4 of the latch. -/
def haltBody (c : Nat) (s : State) : Res State := do
  let x := s.ctx c
  let s ← pairFence s c .core
  ask (!outstanding s c x.nextId .core) .stall
  let s := retire s c
  pure (s.modCtx c fun x => if x.latch.getLsbD 4 then { x with latch := x.latch &&& 0x0F } else { x with run := .halted })

def execHalt (o : NoOps) (s : State) : Out := runKernel (.halt o) o.h haltBody s

/-- Bits of a page offset of a size (R223). -/
def pageBits : PageSize → Nat | .k4 => 12 | .k64 => 16 | .m2 => 21 | .g1 => 30

/-- TLBINV (R223): the fence, the request to every die of the partition, and the wait for their acknowledgements. -/
def tlbinvBody (src : Src) (page : Word → Option (Nat × Nat)) (c : Nat) (s : State) : Res State := do
  let x := s.ctx c
  if x.sent then
    match x.reply with
    | some _ => do
      let s ← useWords s c [src]
      pure (retire s c)
    | none => .error (.block .invalidate)
  else
    let s ← pairFence s c .part
    ask (!outstanding s c x.nextId .part) .stall
    let (ws, t) ← holdWords s c [src] none
    let dies := if x.ident.part = 0xFF then List.range 10 else partDies s (partNo x.ident)
    if dies.isEmpty then
      let s ← useWords t c [src]
      pure (retire s c)
    else
      let (n, t) := t.new
      let inv : Inval := { id := n, c := c, waiting := dies, since := t.time.toNat, page := page (arg ws 0), ident := x.ident }
      let t := { t with invals := t.invals ++ [inv] }
      pure (blockOn (t.modCtx c fun x => { x with sent := true }) c .invalidate)

def execTlbinvPage (o : TlbPageOps) (s : State) : Out :=
  runKernel (.tlbinvPage o) o.h
    (tlbinvBody o.a fun w => some (w.toNat % 2 ^ 57 / 2 ^ pageBits o.size, pageBits o.size)) s

def execTlbinvAll (o : OneSrc) (s : State) : Out := runKernel (.tlbinvAll o) o.h (tlbinvBody o.a fun _ => none) s

/-- A context of a die that runs the task with a GTI, for an identity's partition (R224). -/
def residentOf (s : State) (die : Nat) (part : BitVec 8) (gti : Word) : Option Nat :=
  (s.ctxs.find? fun e => dieOf e.1 == die && e.2.run != .free && (match e.2.run with | .saved .. => false | _ => true) && e.2.ident.part == part &&
    (match e.2.task with | some t => t.gti == gti | none => false)).map (·.1)

/-- Whether a context takes tasks other than active-message handlers (R261). -/
def handlerContext (c : Nat) : Bool :=
  kindOf c == .compute && ctxNo c == 3 && coreNo (coreOf c) / 16 % 4 == 0 && coreNo (coreOf c) % 4 < 2

/-- A free context of a core that takes tasks. -/
def freeOn (s : State) (core : Nat) : Option Nat :=
  (contextsOf core).find? fun c => (s.ctx c).run == .free && !handlerContext c

/-- MIGR (R224): the judgements 5, 1, 3, 2 before the task is stopped, then the wait for the transfer. -/
def migrBody (o : DstSrc2) (c : Nat) (s : State) : Res State := do
  let x := s.ctx c
  let (ws, t) ← if x.sent then .ok ([], s) else holdWords s c [o.a, o.b] (some o.d)
  let give (w : Word) : Res State := do
    let t ← useWords t c [o.a, o.b]
    match o.d with
    | .xm _ _ => scalarOp [] o.d (fun _ _ => (w, 0)) c (t.modCtx c fun x => { x with sent := false, reply := none })
    | d => do
      ask (operandsReady t c [] (some d)) .stall
      pure (deliver t c d w)
  let gti := arg ws 0
  if x.sent then
    match x.reply with
    | some (.ok w) => give w
    | _ => pure s
  else
    match coreOfWord s x.ident (arg ws 1).toNat with
    | none => .error (.trap { cause := 0x60, val := arg ws 1 &&& 0x1F01FF })
    | some dest =>
      if gtiOf x = gti ∧ x.task.isSome then give 5
      else
        match residentOf s (dieOf c) x.ident.part gti with
        | none => give 1
        | some r =>
          if kindOfCore dest ≠ kindOf r then give 3
          else if (freeOn s dest).isNone then give 2
          else
            let busy := match (s.ctx r).run with | .leaving _ => true | _ => false
            let s := if busy then t
              else interrupt (t.modCtx r fun y => { y with
                request := some 4, task := y.task.map fun k => { k with target := some (dest, c) } }) r
            pure (blockOn (s.modCtx c fun x => { x with sent := true }) c (.migrate gti))

def execMigr (o : DstSrc2) (s : State) : Out := runKernel (.migr o) o.h (migrBody o) s

/-- CKPT (R225): a checkpoint on a pair, nothing elsewhere. -/
def execCkpt (o : NoOps) (s : State) : Out :=
  run (.ckpt o) o.h (fun c s => do
    let s ← mustCheckpoint s c
    pure (retire s c)) s

end Sys2Proof.Machine
end

