-- ==== Sys2Proof/Machine/Debug.lean ====
section
/-! DEFINITION. The debug block, trace, throttling and message timing (R466 to R473, R480), and the requests to
stop a task that a register write makes (R238, R243, R469). -/

namespace Sys2Proof.Machine

/-! Requests (R238, R243, R469). -/

/-- Requests the stop of a resident task with a REASON; one that is being switched out is satisfied by that. -/
def requestStop (s : State) (c reason : Nat) : State :=
  match (s.ctx c).run with
  | .leaving _ => s
  | _ => interrupt (s.modCtx c fun x => { x with request := some (x.request.getD reason) }) c

/-- PREEMPT: the task must belong to the writer's virtual function. -/
def writePreempt (s : State) (die : Nat) (i : Ident) (gti : Word) : State :=
  match residentOf s die i.part gti with
  | some c => if !i.custodian && (s.ctx c).ident.vf == i.vf then requestStop s c 2 else s
  | none => s

/-- DBHALT: a claimed task of the writer's virtual function, resident on a die of the partition. -/
def writeDbhalt (s : State) (p : Nat) (i : Ident) (gti : Word) : State :=
  match (partDies s p).findSome? fun d => residentOf s d (BitVec.ofNat 8 p) gti with
  | some c => if (s.ctx c).ident.vf == i.vf && (claimOf s (s.ctx c)).isSome then requestStop s c 3 else s
  | none => s

/-! The debug block (R467 to R473). -/

/-- Whether a task with a GTI has been dispatched: it was created, and no scheduler holds it undispatched. -/
def dispatched (s : State) (part : Nat) (gti : Word) : Bool :=
  let fresh (t : Task) : Bool := t.gti == gti && t.save.isNone
  let waits := s.dies.any fun d => d.2.ready.any fresh || d.2.pending.any fun e => fresh e.2
  decide (gti.toNat / 2 ^ 56 = part) && decide (0 < gti.toNat % 2 ^ 51)
    && decide (gti.toNat % 2 ^ 51 ≤ Sparse.get 0 (s.die (gtiDie s gti)).serial part) && !waits

/-- A write of REPBe: setting EN arms the entry, or finds the task already dispatched (R473). -/
def writeRepb (s : State) (p : Nat) (r : Replay) (w : Word) : Replay :=
  let r := { r with mode := w.getLsbD 62, base := (w.extractLsb' 3 49).toNat * 8 }
  if w.getLsbD 63 ∧ !r.en then
    { r with en := true, ovf := false, pos := 0, state := if dispatched s p r.gti then 3 else 0 }
  else { r with en := w.getLsbD 63 }

/-- A write in the debug block of partition `p`. -/
def debugWrite (s : State) (p : Nat) (i : Ident) (off : Nat) (w : Word) : State :=
  if off < 0x5100 then
    s.modPart p fun x =>
      let n := (off - 0x5000) / 16
      let b : Breakpoint := Sparse.get {} x.bps n
      { x with bps := Sparse.set x.bps n (if off % 16 = 0 then { b with gti := w, vf := i.vf } else { b with b := w &&& 0xE1FFFFFFFFFFFFFF, vf := i.vf }) }
  else if off < 0x5180 then
    s.modPart p fun x =>
      let n := (off - 0x5100) / 16
      let b : Claim := Sparse.get {} x.claims n
      { x with claims := Sparse.set x.claims n (if off % 16 = 0 then { b with gti := w, vf := i.vf } else { b with b := w &&& 0xC00000001F1FFFFF, vf := i.vf }) }
  else if off = 0x5180 then writeDbhalt s p i w
  else if off = 0x5200 then s.modPart p fun x => { x with trcbase := w &&& 0xFC0FFFFFFFFFF000, trcwho := i }
  else if off = 0x5208 then s.modPart p fun x => { x with trcctl := (w &&& 0xC0000000000001FE) ||| 0x20 }
  else if off = 0x5210 then
    s.modPart p fun x => { x with trclost := (BitVec.ofNat 32 x.trclost &&& ~~~ w.extractLsb' 32 32).toNat }
  else if off < 0x5300 then s
  else
    let n := (off - 0x5300) / 32
    let r : Replay := Sparse.get {} (s.part p).reps n
    let r := match off % 32 / 8 with
      | 0 => { r with gti := w }
      | 1 => writeRepb s p r w
      | _ => { r with size := (w.extractLsb' 32 32).toNat }
    s.modPart p fun x => { x with reps := Sparse.set x.reps n { r with vf := i.vf } }

/-! Trace and throttling (R470, R480). -/

/-- A record as its 32 bytes. -/
def traceBytes (r : TraceRec) (seq : Nat) : List Byte :=
  toBytes 8 (packWord [(16, r.time), (8, r.kind), (0, r.code)]).toNat
    ++ toBytes 8 (packWord [(32, seq % 2 ^ 32), (0, r.core)]).toNat ++ toBytes 8 r.gti.toNat ++ toBytes 8 r.value.toNat

/-- TRACE_RECORD (R470): the oldest record takes the next SEQ and is written, dropped when the buffer is full, or
refused by the custody record. -/
def execTraceRecord (part : Nat) (s : State) : Out :=
  let p := s.part part
  match p.trace with
  | [] => .next s
  | r :: rest =>
    let n := (p.trcbase.extractLsb' 58 6).toNat
    let pa := (p.trcbase.extractLsb' 12 40).toNat * 4096 + 32 * (p.trcnext % 2 ^ n)
    let s := s.modPart part fun x => { x with trace := rest, trcseq := x.trcseq + 1 }
    let lost (s : State) : State := s.modPart part fun x => { x with trclost := min (x.trclost + 1) (2 ^ 32 - 1) }
    if n < 6 ∨ 30 < n then .next s
    else if !p.trcctl.getLsbD 62 && decide (2 ^ n ≤ p.trcnext) then .next (lost s)
    else if !homeRights s p.trcwho pa then .next (lost s)
    else if frameHeld s pa then .next { s with parts := Sparse.set s.parts part p }
    else .next ((homeStore s pa (traceBytes r p.trcseq)).modPart part fun x => { x with trcnext := (x.trcnext + 1) % 2 ^ 32 })

/-- Partitions that have a core of a die; every enabled one for a base die. -/
def partsOn (s : State) (die : Nat) : List Nat :=
  (List.range 16).filter fun p => if die < 10 then dieInPart s die p else (s.part p).en

/-- THROTTLE_CHANGE (R34, R470): the die's clock, issue limit and voltage, and a record of it. -/
def execThrottleChange (die : Nat) (code : BitVec 8) (mhz : BitVec 16) (issue : BitVec 8) (mv : BitVec 16) (s : State) : Out :=
  if !(decide (die < 10) || (decide (16 ≤ die) && decide (die < 24))) || !(decide (1 ≤ code.toNat) && decide (code.toNat ≤ 5)) then .next s
  else
    let s := s.modCtl die fun d => { d with mhz := mhz, issue := issue, mv := mv }
    let value := packWord [(32, mv.toNat), (16, issue.toNat), (0, mhz.toNat)]
    .next ((partsOn s die).foldl (fun s p =>
      traceEvent s p 5 code.toNat ((if die < 10 then logDie s p die else die) * 65536 + 0x1FF) 0 value) s)

/-! The rows whose write these are. -/

def execPreemptWrite (die : Nat) (who : Writer) (w : Word) (s : State) : Out :=
  .next (writePreempt s die { custodian := who.custodian, part := who.part, vf := who.vf, world := who.world } w)

/-- DBHALT_WRITE, in the block of the logical die 0 of a partition (R466). -/
def execDbhaltWrite (die : Nat) (who : Writer) (w : Word) (s : State) : Out :=
  .next (if die < 8 ∧ isLead s die then
      writeDbhalt s (partOfCore s (die * 512)).toNat { custodian := who.custodian, part := who.part, vf := who.vf, world := who.world } w
    else s)

end Sys2Proof.Machine
end

