-- ==== Sys2Proof/Machine/Scheduler.lean ====
section
/-! DEFINITION. The scheduler's instructions TSPAWN to TREC (R262 to R265), and the launch of a job (R21, R254 to
R256). -/

namespace Sys2Proof.Machine

/-- Counts an engine command sent, event 0x05 (R152). -/
def countSent (s : State) (c : Nat) : State := countEvent s (coreOf c) 5 1

/-- TSPAWN (R264). -/
def tspawnBody (o : DstCap) (c : Nat) (s : State) : Res State := do
  let g ← engineCap s c o.a permLd 128 128
  let pa ← engineAt s c (g.bits.setWidth 64) 128 0
  blockingCmd s c [] o.d fun _ s =>
    let x := s.ctx c
    let s := countSent s c
    match readRec s x.ident pa (g.cap.perm.getLsbD 3) with
    | none => .ok (refusal 1, s)
    | some r =>
      match createTask s x.ident (coreOf c) (x.task.bind (·.member)) none r with
      | .ok (w, s) => .ok (w, s)
      | .error w => .ok (w, s)

def execTspawn (o : DstCap) (s : State) : Out := run (.tspawn o) o.h (tspawnBody o) s

/-- TSIG (R264): posted through the order buffer. -/
def tsigBody (o : TsigOps) (c : Nat) (s : State) : Res State := do
  let g ← engineCap s c o.a permSt 4 4
  let ea : Word := g.bits.setWidth 64
  let pa ← engineAt s c ea 4 1
  let die := match region pa with | .scratch q _ => q / 64 | _ => dieOf c
  trapIf (die != dieOf c && !g.cap.perm.getLsbD 9) 0x06 ea (capAux permRemote o.a)
  let s ← gateRoom s c
  let (ws, s) ← sources s c [o.b] none
  let x := s.ctx c
  let r : SigReq := { c := c, ident := x.ident, ea := ea, pa := pa, amount := (arg ws 0).setWidth 32 + o.dec, die := die, owner := tlOwner s c }
  pure (retire (lobPush s c (.signal r)) c)

def execTsig (o : TsigOps) (s : State) : Out := run (.tsig o) o.h (tsigBody o) s

/-- The lowest logical index at which a partition's table is not well formed (R21). DESIGN CHOICE (log 74): an entry whose
kind is not that of its die offends too, and at a gap the first valid entry after it is the offender. -/
def ldtOffender (s : State) (part : Nat) : Option Nat :=
  (List.range 32).find? fun l =>
    match physDie s part l with
    | none => false
    | some (d, host) =>
      decide (10 ≤ l) || !dieInPart s d part || (!host && decide (8 ≤ d)) || (host && decide (d < 8))
        || (List.range l).any fun m => match physDie s part m with
          | none => true
          | some (e, h) => e == d || (h && !host)

/-- LAUNCH (R264): the checks of R21 and of A, then number n of tl7. DESIGN CHOICE (log 74): the table is checked where the
LAUNCH issues, and only if no job is live then. -/
def launchBody (o : OneG) (c : Nat) (s : State) : Res State := do
  let g ← engineCap s c o.a (permLd ||| permLdc) 192 64
  let ea : Word := g.bits.setWidth 64
  let xl ← xlatRange s c ea 192 0
  let x := s.ctx c
  let p := partNo x.ident
  let first := (liveJobs s x.ident.part).isEmpty
  let bad := if first then ldtOffender s p else none
  trapIf bad.isSome 0x50 (BitVec.ofNat 64 (bad.getD 0))
  let s ← pushCmd s c (.launch ea xl (x.level != .task)) 7
  pure (if first then s.modPart p fun q => { q with ldtlock := true, mcl := true } else s)

def execLaunch (o : OneG) (s : State) : Out := run (.launch o) o.h (launchBody o) s

/-- DONE (R264): the task reports to its member and runs on. -/
def doneBody (o : OneSrc) (c : Nat) (s : State) : Res State := do
  match (s.ctx c).task with
  | some t =>
    if t.member.isSome && !t.doneSent then
      afterCommands [o.a] c s fun w s => do
        let s ← useWords s c [o.a]
        let s := traceEvent (countSent s c) (partNo t.ident) 3 1 (coreWord s t.ident (coreOf c)).toNat t.gti w
        let s := s.modCtx c fun x => { x with task := x.task.map fun t => { t with member := none, doneSent := true } }
        pure (retire (foldMember (replied s c) t.member w) c)
    else pure (retire s c)
  | none => pure (retire s c)

def execDone (o : OneSrc) (s : State) : Out := run (.done o) o.h (doneBody o) s

/-- TRAPVAL of cause 0x30 (R264). -/
def fifoTrap (reason : Nat) (put : Bool) (n : Nat) : Halt :=
  .trap { cause := 0x30, val := BitVec.ofNat 64 (reason * 2 ^ 12 + bit put * 2 ^ 8 + n) }

/-- The firing a context runs and a FIFO of it with `n` elements taken, checked (R264). -/
def firingOf (s : State) (c : Nat) (put : Bool) (n : Nat) : Res (Nat × Actor × FifoDesc) :=
  match (s.ctx c).task.bind (·.actor) with
  | none => .error (fifoTrap 1 put n)
  | some k =>
    match s.actor k with
    | none => .error (fifoTrap 1 put n)
    | some a =>
      match (if put then a.outs else a.ins).getD n none with
      | none => .error (fifoTrap 2 put n)
      | some f =>
        let used := if put then (a.wrote.getD n []).length else a.read.getD n 0
        if f.rate ≤ used then .error (fifoTrap 3 put n) else .ok (k, a, f)

/-- FGET (R264). -/
def fgetBody (o : FgetOps) (c : Nat) (s : State) : Res State := do
  let n := o.k.toNat
  let (k, a, f) ← firingOf s c false n
  let used := a.read.getD n 0
  let e := (Sparse.get [] (s.clu a.cluster).fifo f.bank).getD used 0
  blockingCmd s c [] o.d fun _ s =>
    .ok (e, countSent (s.setActor k (some { a with read := (fixLen a.read).set n (used + 1) })) c)
where
  fixLen (l : List Nat) : List Nat := (l ++ [0, 0, 0, 0]).take 4

def execFget (o : FgetOps) (s : State) : Out := run (.fget o) o.h (fgetBody o) s

/-- FPUT (R264). -/
def fputBody (o : FputOps) (c : Nat) (s : State) : Res State := do
  let n := o.k.toNat
  let (k, a, f) ← firingOf s c true n
  let s ← leaveNow s c .part
  let (ws, s) ← sources s c [o.b] none
  let e : Word := BitVec.ofNat 64 ((arg ws 0).toNat % 2 ^ (8 * f.size))
  let wrote := ((a.wrote ++ [[], [], [], []]).take 4).mapIdx fun j l => if j = n then l ++ [e] else l
  pure (retire (replied (countSent (s.setActor k (some { a with wrote := wrote })) c) c) c)

def execFput (o : FputOps) (s : State) : Out := run (.fput o) o.h (fputBody o) s

/-- Gives a save area back to its pool (R237). -/
def releaseArea (s : State) (t : Task) : State :=
  match t.save with
  | some (_, die, idx) =>
    s.modDie die fun d =>
      let p : Pool := Sparse.get {} d.pools t.ident.vf.toNat
      { d with pools := Sparse.set d.pools t.ident.vf.toNat { p with used := p.used.filter (· != idx) } }
  | none => s

/-- The stopped task TCONT names: the table of the die must hold it at the area's physical address (R237, R264). -/
def stoppedAt (s : State) (c pa : Nat) : Option Stopped :=
  let i := (s.ctx c).ident
  (s.die (dieOf c)).stopped.find? fun e =>
    e.area == pa && e.gti == homeWord s (pa + 8) && e.ident.part == i.part && (i.custodian || e.ident.vf == i.vf)

/-- Takes a task out of the stopped-task table. -/
def dropStopped (s : State) (die : Nat) (gti : Word) : State :=
  s.modDie die fun d => { d with stopped := d.stopped.filter fun e => e.gti != gti }

/-- TCONT `.ready` (R264). -/
def tcontReadyBody (o : DstCap) (c : Nat) (s : State) : Res State := do
  let g ← engineCap s c o.a (permLd ||| permSt) 10240 256
  let pa ← engineAt s c (g.bits.setWidth 64) 128 0
  blockingCmd s c [] o.d fun _ s =>
    match stoppedAt s c pa with
    | none => .ok (refusal 6, s)
    | some e => do
      ask e.notice.isNone (.block .engine)
      pure (e.gti, enterPool (dropStopped (countSent s c) (dieOf c) e.gti) (dieOf c) { e.task with pinned := none })

def execTcontReady (o : DstCap) (s : State) : Out := run (.tcontReady o) o.h (tcontReadyBody o) s

/-- The scratchpads a job loses a last member task in are orphaned where R450 says. -/
def orphanAfterEnd (s : State) (member : Option (Nat × Nat)) : State :=
  match member with
  | none => s
  | some (j, m) =>
    match s.job j with
    | none => s
    | some job =>
      let cl := clusterOfCore (Sparse.get {} job.members m : Member).core
      if job.members.all fun e => clusterOfCore e.2.core != cl || e.2.live == 0 then orphanJob s j [cl] else s

/-- TCONT `.end` (R264): the task ends once its queued commands have. -/
def tcontEndBody (o : TcontEndOps) (c : Nat) (s : State) : Res State := do
  let g ← engineCap s c o.a (permLd ||| permSt) 10240 256
  let pa ← engineAt s c (g.bits.setWidth 64) 128 0
  blockingCmd s c [o.b] o.d fun ws s =>
    match stoppedAt s c pa with
    | none => .ok (refusal 6, s)
    | some e => do
      ask e.notice.isNone (.block .engine)
      ask (allDone s (e.gti.toNat * 2 + 1)) (.block .engine)
      let s := releaseArea (dropStopped (countSent s c) (dieOf c) e.gti) e.task
      let job := e.task.member.bind fun m => s.job m.1
      let t := retireTask s e.task.waitCore e.task (arg ws 0) false 3
      pure (e.gti, if job.isSome then orphanAfterEnd t e.task.member else t)

def execTcontEnd (o : TcontEndOps) (s : State) : Out := run (.tcontEnd o) o.h (tcontEndBody o) s

/-- A record with arguments put in (R264). -/
def withArgs (r : Rec) (regs : List Reg) : Rec :=
  let n := regs.length
  let ctl := if r.argn < n then (r.ctl &&& ~~~ (7#64 <<< 60)) ||| (BitVec.ofNat 64 n <<< 60) else r.ctl
  { bytes := r.bytes.take 8 ++ toBytes 8 ctl.toNat ++ (r.bytes.drop 16).take 16
      ++ regs.flatMap (fun g => toBytes 16 g.bits.toNat) ++ r.bytes.drop (32 + 16 * n)
    tags := r.tags.take 2 ++ regs.map (·.tag) ++ r.tags.drop (2 + n) }

/-- TREC (R264): answers a pending continuation. -/
def trecBody (o : TrecOps) (c : Nat) (s : State) : Res State := do
  let g ← engineCap s c o.a permLd 128 128
  let ea : Word := g.bits.setWidth 64
  let pa ← engineAt s c ea 128 0
  let regs := (List.range o.narg.toNat).map fun j => BitVec.ofNat 6 (o.arg.toNat + j)
  ask (!(regs.any fun i => (s.ctx c).pendG i)) .stall
  let args := regs.map fun i => (s.ctx c).reg i
  blockingCmd s c [o.b] o.d fun ws s =>
    let s := countSent s c
    let x := s.ctx c
    let die := dieOf c
    match (s.die die).conts.find? fun e =>
      e.gti == arg ws 0 && e.record == ea && e.ident.part == x.ident.part && (x.ident.custodian || e.ident.vf == x.ident.vf) with
    | none => .ok (refusal 6, s)
    | some e =>
      let gone := s.modDie die fun d => { d with conts := d.conts.filter (· != e) }
      if !current s e.ident then .ok (refusal 7, gone)
      else
        match readRec s x.ident pa (g.cap.perm.getLsbD 3) with
        | none => .ok (refusal 1, s)
        | some r =>
          match createTask gone x.ident (coreOf c) e.member none (withArgs r args) with
          | .error w => .ok (w, s)
          | .ok (w, s) => .ok (w, foldMember s e.member 0)

def execTrec (o : TrecOps) (s : State) : Out := run (.trec o) o.h (trecBody o) s

/-! The launch (R254 to R256). -/

/-- A capability held in a descriptor: checks of R155 over `n` bytes at its cursor, aligned, then its translation
for the launcher (R255). -/
def heldCap (s : State) (cl : Nat) (i : Ident) (kern : Bool) (g : Reg) (perm : BitVec 12) (n align kind : Nat) :
    Option (Nat × State) :=
  let ea : Word := g.bits.setWidth 64
  match capCheck g 0 perm ea n with
  | .error _ => none
  | .ok _ => if ea.toNat % align ≠ 0 then none else schedXlat s cl i ea (!kern) kind

/-- A launch descriptor as its words give it (R254). -/
structure Desc where
  dies : Nat
  nt : Nat
  bridle : Bool
  cores : Nat
  modes : Word
  bytes : List Byte
deriving DecidableEq, Repr

/-- Word `n` of bytes. -/
def wordOf (b : List Byte) (n : Nat) : Word := BitVec.ofNat 64 (ofBytes ((b.drop (8 * n)).take 8))

def Desc.ofBytes (b : List Byte) : Desc :=
  let w := wordOf b 2
  { dies := (w.extractLsb' 0 8).toNat, nt := (w.extractLsb' 8 8).toNat, bridle := w.getLsbD 16
    cores := (w.extractLsb' 32 9).toNat, modes := wordOf b 3, bytes := b }

/-- Mode of a bank under a descriptor; mode code 3 names none. -/
def Desc.mode (d : Desc) (b : Nat) : BankMode := (modeOf d.modes b).getD .cache

/-- R256's 0xFF01 on the descriptor alone. DESIGN CHOICE (log 75): a bank mode of code 3, which R94 gives no meaning, is
among it. -/
def Desc.malformed (d : Desc) : Bool :=
  let w := wordOf d.bytes 2
  let n := scratchCount d.mode
  (w &&& 0x000001FF0001FFFF) != w || !(decide (1 ≤ d.dies ∧ d.dies ≤ 8) && decide (1 ≤ d.nt ∧ d.nt ≤ 8)
      && decide (1 ≤ d.cores ∧ d.cores ≤ 256))
    || (d.bridle && d.cores % 2 == 1) || ((List.range 32).any fun b => (modeOf d.modes b).isNone)
    || !([0, 4, 8, 16, 32].contains n) || (d.bridle && decide (n < 4))
    || ((d.bytes.drop 32).take 32).any (· != 0) || (d.bytes.drop (64 + 16 * d.nt)).any (· != 0)

/-- The participating cores die by die, in logical order (R254). -/
def launchCores (s : State) (i : Ident) (d : Desc) : List (List Nat) :=
  (List.range d.dies).map fun l =>
    match physDie s (partNo i) l with
    | some (p, false) => ((coreMap s p i).take d.cores).map (p * 512 + ·)
    | _ => []

/-- The members of a die: every core, or under the Bridle the even core of each pair (R254). -/
def membersOf (bridle : Bool) (cores : List Nat) : List Nat :=
  if bridle then (cores.mapIdx fun j k => (j, k)).filterMap fun e => if e.1 % 2 = 0 then some e.2 else none else cores

/-- Whether logical cores 2k and 2k+1 map to one physical pair (R448). -/
def pairsGood : List Nat → Bool
  | a :: b :: r => a % 2 == 0 && b == a + 1 && pairsGood r
  | [] => true
  | _ => false

/-- The members of a job in rank order, with the tree of R255. -/
def layTree (dies : List (List Nat)) : List Member :=
  let base (d : Nat) : Nat := ((dies.take d).map (·.length)).foldl (· + ·) 0
  let flat := (dies.mapIdx fun d l => l.mapIdx fun q k => (d, q, k)).flatten
  let parent (d q : Nat) : Option Nat :=
    if q = 0 then (if d = 0 then none else some (base ((d - 1) / 2))) else some (base d + (q - 1) / 4)
  flat.map fun e =>
    { core := e.2.2, parent := parent e.1 e.2.1
      children := (flat.mapIdx fun r f => (r, f)).filterMap fun f =>
        if parent f.2.1 f.2.2.1 = some (base e.1 + e.2.1) then some f.1 else none }

/-- The instances of a record: the member's rank and the home it gives (R255). -/
def instances (s : State) (i : Ident) (ms : List Member) (r : Rec) : List (Nat × Option Nat) :=
  if r.hany then ms.mapIdx fun n m => (n, some m.core)
  else [((ms.findIdx? fun m => coreOfWord s i (r.ctl.toNat % 2 ^ 21) == some m.core).getD 0, none)]

/-- Whether a record may make an instance: well formed, with a home of its kind (R251, R256). -/
def recordGood (s : State) (i : Ident) (r : Rec) : Bool :=
  !r.malformed && (if r.hany then r.kind == .compute else
    match coreOfWord s i (r.ctl.toNat % 2 ^ 21) with | some h => kindOfCore h == r.kind | none => false)

/-- Whether the FIFOs of a launch's actors are in FIFO mode, have room for their rate, and have one producer and one
consumer each (R256, R257). DESIGN CHOICE (log 76): an element size of 0, or above 8, is refused with the rest; one of 3, 5,
6 or 7 is taken as it stands. -/
def fifosGood (d : Desc) (clusters : List Nat) (actors : List (Nat × Rec)) : Bool :=
  let use (out : Bool) : List (Nat × FifoDesc) := actors.flatMap fun e =>
    ((List.range 4).filterMap fun j => e.2.fifo (if out then 4 + j else j)).map fun f => (e.1, f)
  let all := use false ++ use true
  all.all (fun e => clusters.contains e.1 && decide (e.2.bank < 32) && d.mode e.2.bank == .fifo && decide (e.2.rate ≤ fifoRoom e.2)
      && decide (e.2.size ≤ 8))
    && all.all fun e =>
      ((use false).filter fun f => f.1 == e.1 && f.2.bank == e.2.bank).length == 1
        && ((use true).filter fun f => f.1 == e.1 && f.2.bank == e.2.bank).length == 1

/-- What the check of a descriptor comes to: an error code, or the cores, the members and the records (R255 step 1,
R256). -/
def checkDesc (s : State) (cl : Nat) (i : Ident) (kern : Bool) (pa : Nat → Nat) (d : Desc) :
    Except Nat (List (List Nat) × List Member × List Rec × State) := do
  if d.malformed then throw 0xFF01
  let computes := ((List.range 32).filter fun l => match physDie s (partNo i) l with | some (_, h) => !h | none => false).length
  if computes < d.dies then throw 0xFF02
  let cores := launchCores s i d
  if cores.any fun l => decide (l.length < d.cores) then throw 0xFF02
  if d.bridle && !(cores.all pairsGood) then throw 0xFF01
  let clusters := (cores.flatten.map clusterOfCore).eraseDups
  if clusters.any fun k => (s.jobs.any fun j => match j.2 with | some j => j.live && j.clusters.contains k | none => false)
      && (List.range 32).any fun b => bankMode s k b != d.mode b then throw 0xFF03
  let ms := layTree (cores.map (membersOf d.bridle))
  let (recs, s) ← readAll s (List.range d.nt) []
  if !(recs.all (recordGood s i)) then throw 0xFF04
  let actors := recs.flatMap fun r =>
    if r.isActor then (instances s i ms r).map fun e =>
      (clusterOfCore (e.2.getD ((coreOfWord s i (r.ctl.toNat % 2 ^ 21)).getD 0)), r) else []
  if !fifosGood d clusters actors then throw 0xFF03
  pure (cores, ms, recs, s)
where
  readAll (s : State) (l : List Nat) (acc : List Rec) : Except Nat (List Rec × State) :=
    match l with
    | [] => .ok (acc, s)
    | j :: r =>
      let o := 64 + 16 * j
      let g : Reg := Reg.ofCap (BitVec.ofNat 128 (ofBytes ((d.bytes.drop o).take 16))) (homeTag s (pa o))
      match heldCap s cl i kern g permLd 128 128 0 with
      | none => .error 0xFF04
      | some (p, s) =>
        match readRec s i p (g.cap.perm.getLsbD 3) with
        | none => .error 0xFF04
        | some x => readAll s r (acc ++ [x])

/-- Puts a pair under the Bridle: the even core holds the checkpoint, and each the area's offset (R160 to R162). A pair
that a live job uses already stays as it is. DESIGN CHOICE (log 63): tasks that run on the two cores go on. -/
def startPair (s : State) (d : Desc) (k : Nat) : State :=
  let n := coreNo k
  let idx := 2 * (n / 16 % 4) + n % 16 % 4 / 2
  let area := BitVec.ofNat 64 (scratchCount d.mode * 65536 - 12288 * (idx + 1))
  if (s.core k).bridle.isSome then s
  else
    (s.modCore k fun x => { x with bridle := some { due := true }, rolls := 0, since := 0, brckpt := area }).modCore (k + 1)
      fun x => { x with rolls := 0, since := 0, brckpt := area }

/-- Starts a checked job. DESIGN CHOICE (log 74): one whose LAUNCH issued while another job was live sets LDTLOCK without
a check of the table, though that job has ended. Bank modes, the tree, the instances (R255 steps 2 to 5). -/
def startJob (s : State) (i : Ident) (owner num : Nat) (word : Option Nat) (d : Desc) (cores : List (List Nat))
    (ms : List Member) (recs : List Rec) : State :=
  let (id, s) := s.new
  let clusters := (cores.flatten.map clusterOfCore).eraseDups
  let s := clusters.foldl (fun s k =>
    let s := (setModes s k d.mode).modClu k fun x => { x with job := some id, bridle := x.bridle || d.bridle }
    s.modDie (k / 64) fun x => { x with clflags := Sparse.drop x.clflags (k % 64) }) s
  let s := if d.bridle then ms.foldl (fun s m => startPair s d m.core) s else s
  let s := s.setJob id (some
    { part := i.part, vf := i.vf, owner := owner, num := num, ident := i, word := word, bridle := d.bridle
      members := ms.mapIdx fun n m => (n, m), clusters := clusters })
  let s := s.modPart (partNo i) fun p => { p with ldtlock := true, mcl := true }
  let s := recs.foldl (fun s r =>
    (instances s i ms r).foldl (fun s e =>
      match createTask s i (ms.getD e.1 {}).core (some (id, e.1)) e.2 r with
      | .ok (_, s) => s
      | .error _ => foldError s (some (id, e.1)) 0xFF04) s) s
  (List.range ms.length).foldl (fun s n => settleMember s id n) s

/-- The banks of a launch's clusters that change their modes are to have no access pending (R218, R255). -/
def launchWaits (s : State) (d : Desc) (cores : List (List Nat)) : Bool :=
  ((cores.flatten.map clusterOfCore).eraseDups).any fun k => !banksIdle s k (fun b => bankMode s k b != d.mode b) s.next

/-- Performs a LAUNCH at the scheduler (R255); none while it waits for banks. -/
def performLaunch (s : State) (e : EngCmd) (a : Word) (xl : Xlat) (kern : Bool) : Option State :=
  let pa (o : Nat) : Nat := xlAt xl (a.toNat + o)
  let cl := clusterOfCore e.core
  let bytes := (List.range 192).map fun j => homeByte s (pa j)
  let readable := [0, 64, 128].all fun o => homeRights s e.ident (pa o) && !poisoned s (pa o)
  let drop (s : State) : State := { s with cmds := s.cmds.filter fun x => x.id != e.id }
  let d := Desc.ofBytes bytes
  let g : Reg := Reg.ofCap (BitVec.ofNat 128 (ofBytes (bytes.take 16))) (homeTag s (pa 0))
  let held := if readable then heldCap s cl e.ident kern g permSt 8 8 1 else none
  let fail (s : State) (word : Option Nat) (code : Nat) : State :=
    let s := match word with
      | some p => if homeRights s e.ident p then homeStoreWord s p (errorWord code) else s
      | none => s
    let s := completeNum (drop s) e.owner 7 e.num
    if (liveJobs s e.ident.part).isEmpty then s.modPart (partNo e.ident) fun p => { p with ldtlock := false } else s
  match held with
  | none => some (fail s none 0xFF01)
  | some (w, s) =>
    if !homeRights s e.ident w then some (fail s none 0xFF01)
    else
      match checkDesc s cl e.ident kern pa d with
      | .error code => some (fail s (some w) code)
      | .ok (cores, ms, recs, s) =>
        if launchWaits s d cores then none
        else some (startJob (drop s) e.ident e.owner e.num (some w) d cores ms recs)

end Sys2Proof.Machine
end

