-- ==== Sys2Proof/Machine/Sync.lean ====
section
/-! DEFINITION. The synchronisation engine: AMO, AMOR, the phaser instructions and CTRREAD, and an atomic's effect
at its home (R290 to R310). -/

namespace Sys2Proof.Machine

/-- The compute dies of a partition's table in logical order, physical numbers. -/
def computeDies (s : State) (part : Nat) : List Nat :=
  (List.range 32).filterMap fun l => match physDie s part l with | some (d, false) => some d | _ => none

/-- The die whose engine performs an atomic (R292). -/
def atomEngine (s : State) (c pa : Nat) (i : Ident) : Nat :=
  match region pa with
  | .scratch q _ => q / 64
  | _ =>
    let dies := computeDies s (partNo i)
    let f (lo n : Nat) : Nat := pa / 2 ^ lo % 2 ^ n
    let h := f 7 8 ^^^ f 15 8 ^^^ f 23 8 ^^^ f 31 8 ^^^ f 39 8 ^^^ f 47 5
    if dies.isEmpty then dieOf c else dies.getD (h % dies.length) 0

/-- R293's check of the target. -/
def atomTarget (s : State) (c : Nat) (ea : Word) (pa : Nat) : Res Unit := do
  trapIf (memType s c ea 1 == 1) 0x31 ea 1
  trapIf (isUncached pa) 0x31 ea 2

/-- The register copies of a pair let what its context has sent leave: the checkpoint interval ends here (R161). -/
def openGate (s : State) (c : Nat) : State :=
  let n := (s.ctx c).nextId
  s.modCore (coreOf c) fun k => { k with
    bridle := k.bridle.map fun b => { b with ckpt := b.ckpt.map fun r => if r.c = c then { r with next := n } else r } }

/-- The request of an atomic enters the order buffer, with its acquire and the scope of its release (R299). -/
def sendAtomic (s : State) (c : Nat) (a : Acc) (ord : BitVec 2) (sc : Scope) (r : AtomReq) : State :=
  let s := lobAppend s c (checkMarks (clusterOf c) [a])
  let rel := if ord.getLsbD 1 then some sc else none
  openGate (lobPush s c (.atomic { r with lid := (s.ctx c).nextId, acq := ord.getLsbD 0, rel := rel })) c

/-- Width and signedness of an atomic's type. -/
def amoInt (t : AmoTy) : IntTy := match t with | .i32 => .i32 | .i64 => .i64 | .n32 | .f32 => .n32 | .n64 => .n64

/-- The sources of an AMO (R298). -/
def amoSrcs (o : AmoOps) : List Src := if o.op = .cas then [o.b, o.cv] else [o.b]

/-- The new value of an atomic, the flags of `fadd`, and whether it writes (R298). -/
def amoNew (r : AtomReq) (old : Nat) : Nat × FpFlags × Bool :=
  let w := 8 * amoBytes r.ty
  let b := r.b.toNat % 2 ^ w
  let e (x : Nat) : Int := ext (amoInt r.ty) (BitVec.ofNat 64 x)
  match r.op with
  | .add => ((old + b) % 2 ^ w, 0, true)
  | .and => (old &&& b, 0, true)
  | .or => (old ||| b, 0, true)
  | .xor => (old ^^^ b, 0, true)
  | .min => (if e old ≤ e b then old else b, 0, true)
  | .max => (if e old ≤ e b then b else old, 0, true)
  | .swap => (b, 0, true)
  | .cas => if old = b then (r.cv.toNat % 2 ^ w, 0, true) else (old, 0, false)
  | .fadd =>
    let v := fpAdd fF32 .rne (fF32.decode old) (fF32.decode b)
    (v.1, v.2, true)

/-- The later turns of an AMO: its reply, with the flags that came with it, or the wait for it (R135, R298, R300). -/
def amoReply (o : AmoOps) (c : Nat) (s : State) : Res State := do
  let x := s.ctx c
  match x.reply with
  | some (.ok w) =>
    let s := s.modCtx c fun x => { x with sent := false, reply := none, oflags := 0 }
    let s ← useWords s c (amoSrcs o)
    let (w, s) ← outside s c 7 w
    answer s c o.d w x.oflags
  | some (.trap t) => .error (.trap t)
  | none => .error (.block .amoReply)

/-- AMO (R298): the request, then the wait for its reply. -/
def amoBody (o : AmoOps) (c : Nat) (s : State) : Res State := do
  let x := s.ctx c
  if x.sent then amoReply o c s
  else
    let _ ← regOf s c o.a
    let n := amoBytes o.ty
    let ea := x.low o.a + o.ofs.signExtend 64
    let a ← access s c o.a (o.ofs.signExtend 64)
      { n := n, align := n, perm := permLd ||| permSt, kind := 1, lock := true, atomic := true, brk := some true }
      (fun pa => atomTarget s c ea pa)
    match dataBreak s c ea n false with
    | some b => .error (.trap (breakTrap (((Sparse.get {} (s.part (partNo x.ident)).bps b : Breakpoint).b.extractLsb' 0 57).setWidth 64) b))
    | none => pure ()
    destReady s c o.d
    let s ← if (s.core (coreOf c)).bridle.isSome then mustCheckpoint s c else pure s
    let (ws, s) ← holdWords s c (amoSrcs o) (some o.d)
    let x := s.ctx c
    let r : AtomReq :=
      { c := c, ident := x.ident, ty := o.ty, op := o.op, ea := ea, pa := a.pa, b := arg ws 0, cv := arg ws 1
        dst := some o.d, engine := atomEngine s c a.pa x.ident, owner := tlOwner s c }
    if replaying s c then
      let s ← useWords s c (amoSrcs o)
      let (w, s) ← outside s c 7 0
      answer (sendAtomic s c a o.ord o.scope { r with dst := none }) c o.d w (amoNew r (w.toNat % 2 ^ (8 * n))).2.1
    else
      let s := sendAtomic s c a o.ord o.scope r
      pure (blockOn (s.modCtx c fun x => { x with sent := true }) c .amoReply)

def execAmo (o : AmoOps) (s : State) : Out := run (.amo o) o.h (amoBody o) s

/-- AMOR (R298): nothing returns. -/
def amorBody (o : AmorOps) (c : Nat) (s : State) : Res State := do
  let _ ← regOf s c o.a
  let n := amoBytes o.ty
  let ea := (s.ctx c).low o.a + o.ofs.signExtend 64
  let a ← access s c o.a (o.ofs.signExtend 64)
    { n := n, align := n, perm := permSt, kind := 1, lock := true, atomic := true, brk := some true }
    (fun pa => atomTarget s c ea pa)
  let s ← if (s.core (coreOf c)).bridle.isSome then mustCheckpoint s c else pure s
  let (ws, s) ← sources s c [o.b] none
  let x := s.ctx c
  let r : AtomReq :=
    { c := c, ident := x.ident, ty := o.ty, op := o.op, ea := ea, pa := a.pa, b := arg ws 0, cv := 0
      dst := none, engine := atomEngine s c a.pa x.ident, owner := tlOwner s c }
  pure (replied (retire (sendAtomic s c a o.ord o.scope r) c) c)

def execAmor (o : AmorOps) (s : State) : Out := run (.amor o) o.h (amorBody o) s

/-! An atomic at its engine (R298, R300). -/


/-- Why an atomic is not applied (R300, R432, R450). -/
def amoRefusal (s : State) (r : AtomReq) : Option Trap :=
  let line : Word := BitVec.ofNat 64 (r.pa / 128 * 128)
  let no (reason : Nat) : Option Trap := some { cause := 0x33, val := r.ea, aux := BitVec.ofNat 64 reason }
  if (s.die (dieOf r.c)).lost.getLsbD r.engine then no 1
  else if (s.part (partNo r.ident)).frozen && !r.ident.custodian then no 3
  else if !current s r.ident then no 4
  else
    match region r.pa with
    | .scratch q off =>
      if (s.clu q).orphan.isSome then some { cause := 0x53, val := r.ea }
      else if (scratchLoc s q off).isNone then some { cause := 0x24, val := r.ea, aux := xlatAux 0xF 1 }
      else none
    | _ =>
      if !homeRights s r.ident r.pa then some { cause := 0x41, val := r.ea, aux := line }
      else if poisoned s r.pa then some { cause := 0x25, val := r.ea, aux := line }
      else none

/-- Performs an atomic at its home in one step (R111, R298). -/
def applyAtomic (s : State) (r : AtomReq) : Reply × FpFlags × State :=
  match amoRefusal s r with
  | some t => (.trap t, 0, s)
  | none =>
    let n := amoBytes r.ty
    let old := ofBytes (homeBytes s r.pa n)
    let (new, f, writes) := amoNew r old
    let s := if writes then homeStore s r.pa (toBytes n new) else s
    (.ok (BitVec.ofInt 64 (ext (amoInt r.ty) (BitVec.ofNat 64 old))), f, s)

/-- What a reply cache makes of an arriving number: the cached reply, to apply, or to discard (R295). -/
inductive Seen where
  | cached (r : Reply) (f : FpFlags)
  | fresh
  | stale
deriving DecidableEq, Repr

def replyCache (s : State) (die src : Nat) (seq : BitVec 16) : Seen :=
  let l := Sparse.get [] (s.die die).replies src
  match l.find? fun e => e.1 == seq with
  | some e => .cached e.2.1 e.2.2
  | none =>
    match l with
    | [] => .fresh
    | t :: _ => if 1 ≤ (seq - t.1).toNat ∧ (seq - t.1).toNat ≤ 32767 then .fresh else .stale

/-- Keeps a reply in place of the oldest of four (R295). -/
def cacheReply (s : State) (die src : Nat) (seq : BitVec 16) (r : Reply) (f : FpFlags) : State :=
  s.modDie die fun d => { d with replies := Sparse.set d.replies src (((seq, r, f) :: Sparse.get [] d.replies src).take 4) }

/-! Phasers (R301 to R309). -/

/-- A handle or token as its fields (R301). -/
def phWord (part ldie vf gen member idx : Nat) : Word :=
  packWord [(56, part), (51, ldie), (47, vf), (32, gen), (20, member), (0, idx)]

def phMember (w : Word) : Nat := (w.extractLsb' 20 12).toNat
def phIndex (w : Word) : Nat := (w.extractLsb' 0 20).toNat

/-- The trap of an invalid sync object (R308). -/
def phCause (w : Word) (reason : Nat) : Trap := { cause := 0x32, val := w, aux := BitVec.ofNat 64 reason }
def phTrap (w : Word) (reason : Nat) : Halt := .trap (phCause w reason)

def Die.phaser (d : Die) (i : Nat) : Option Phaser := Sparse.get none d.phasers i

/-- The die and the phaser a word names, checked under R301 and R308; `token`: which of the two it must be, if it
matters. -/
def phaserOf (s : State) (c : Nat) (w : Word) (token : Option Bool) : Res (Nat × Phaser) := do
  let i := (s.ctx c).ident
  ask (w.extractLsb' 56 8 == i.part && w.extractLsb' 47 4 == i.vf) (phTrap w 1)
  match physDie s (partNo i) (w.extractLsb' 51 5).toNat with
  | some (d, false) =>
    trapIf ((s.die (dieOf c)).lost.getLsbD d) 0x33 w 1
    ask (Sparse.get 0 (s.die d).phgen (phIndex w) == w.extractLsb' 32 15) (phTrap w 2)
    match (s.die d).phaser (phIndex w) with
    | none => .error (phTrap w 3)
    | some p =>
      match token with
      | some t => ask (t == (phMember w != 0)) (phTrap w 7)
      | none => pure ()
      if phMember w ≠ 0 ∧ (Sparse.get none p.members (phMember w)).isNone then .error (phTrap w 4)
      else pure (d, p)
  | _ => .error (phTrap w 3)

def setPhaser (s : State) (d i : Nat) (p : Option Phaser) : State :=
  s.modDie d fun x => { x with phasers := Sparse.set x.phasers i p }

/-- Whether a role signals, and whether it waits. -/
def roleSignals : Role → Bool | .wait => false | _ => true
def roleWaits : Role → Bool | .sig => false | _ => true

def Phaser.signallers (p : Phaser) : Nat :=
  (p.members.filter fun e => match e.2 with | some m => roleSignals m.role | none => false).length

/-- Completes the phase if it has started and nothing is outstanding (R303). -/
def Phaser.complete (p : Phaser) : Phaser :=
  if p.started && p.out == 0 then
    { p with lf := p.mf, mf := 0, started := false, c := p.c + 1, out := p.signallers, sums := p.cur, cur := [0, 0, 0, 0] }
  else p

/-- A member signals the current phase: its flags and, with counters, the values it left with are counted in
(R305). -/
def Phaser.signal (p : Phaser) (n : Nat) (m : PhMember) (flags : Word) (evc : List Nat) : Phaser :=
  { p with
    mf := p.mf ||| flags.setWidth 32, started := true, out := p.out - 1
    members := Sparse.set p.members n (some { m with s := p.c + 1 })
    cur := if p.ctr then p.cur.mapIdx fun j v => v + evc.getD j 0 else p.cur }

/-- The result of a PHWAIT for a phase before the current one (R305). -/
def Phaser.result (p : Phaser) (b : Word) : Word :=
  packWord [(32, min (p.c - 1 - b.toNat) (2 ^ 32 - 1)), (0, p.lf.toNat)]

/-- The values of a core's EVC0 to EVC3. -/
def evcSample (k : Core) : List Nat := (List.range 4).map fun j => Sparse.get 0 k.evc j

/-- The instructions held at a phaser, in the order of their arrival (R306). -/
def heldOn (s : State) (d i : Nat) : List (Nat × PhHold) :=
  let all : List (Nat × Nat × PhHold) := s.ctxs.filterMap fun e => match (s.ctx e.1).run with
    | .blocked (.phaser f j _ h) t => if f = d ∧ j = i then some (t, e.1, h) else none
    | _ => none
  (all.foldl (fun l x => l.takeWhile (fun y => decide (y.1 ≤ x.1)) ++ x :: l.dropWhile fun y => decide (y.1 ≤ x.1)) []).map (·.2)

/-- Completes a phaser's phase if it can, then releases what is held there in the order of arrival: a PHWAIT has its
result at the completion that ends it, a PHSIG is applied to the next phase, which may complete in turn (R303, R305,
R306). The first number bounds the releases. -/
def Phaser.release : Nat → List (Nat × PhHold) → Phaser → List (Nat × Reply) × Phaser
  | 0, _, p => ([], p.complete)
  | k + 1, hs, p =>
    let q := p.complete
    let past (h : PhHold) : Bool := !h.sig && decide (h.arg.toNat < q.c)
    let ended := (hs.filter fun e => past e.2).map fun e => (e.1, Reply.ok (q.result e.2.arg))
    let rest := hs.filter fun e => !past e.2
    let free (e : Nat × PhHold) : Option (Nat × PhHold × PhMember) :=
      match Sparse.get none q.members (phMember e.2.token) with
      | some m => if e.2.sig && decide (m.s ≤ q.c) then some (e.1, e.2, m) else none
      | none => none
    match rest.findSome? free with
    | some (c, h, m) =>
      let r := Phaser.release k (rest.filter (·.1 != c)) (q.signal (phMember h.token) m h.arg h.evc)
      (ended ++ (c, Reply.ok (BitVec.ofNat 64 q.c)) :: r.1, r.2)
    | none => (ended, q)

/-- A hold ends: the instruction has its answer at its next turn. -/
def endHold (s : State) (c : Nat) (r : Reply) : State :=
  s.modCtx c fun x => { x with run := .running, sent := true, reply := some r }

/-- Ends what is held for a member that is removed (reason 4) or loses a role (reason 5); `sig` and `wait`: which of
the two instructions (R305, R308). -/
def dropHeld (s : State) (d i n : Nat) (sig wait : Bool) (reason : Nat) : State :=
  (heldOn s d i).foldl (fun s e =>
    if phMember e.2.token = n ∧ (if e.2.sig then sig else wait) = true then endHold s e.1 (.trap (phCause e.2.token reason)) else s) s

/-- Tasks parked on a phaser are ready again (R306). -/
def readyPhase (s : State) (f : Nat → Nat → Nat → Bool) : State :=
  (s.dies.map (·.1)).foldl (fun s e => readyParked s e false fun t => match t.wait with
    | some (.phaser d i n _) => f d i n
    | _ => false) s

/-- Puts a phaser back after an operation, with what that completes and releases; tasks parked on a phase issue again
when it completes (R303, R306). -/
def settlePhaser (s : State) (d i : Nat) (p : Phaser) : State :=
  let hs := heldOn s d i
  let (ends, q) := p.release (hs.length + 1) hs
  let s := setPhaser (ends.foldl (fun s e => endHold s e.1 e.2) s) d i (some q)
  if q.c = p.c then s else readyPhase s fun e j n => e == d && j == i && decide (n ≤ q.c)

/-- Dissolves a phaser: its slot's generation advances (R307), and who waits on it issues again. -/
def dissolve (s : State) (d i : Nat) : State :=
  let s := wakeWaits s fun _ w => match w with | .phaser e j _ _ => e == d && j == i | _ => false
  (readyPhase s fun e j _ => e == d && j == i).modDie d fun x => { x with
    phasers := Sparse.set x.phasers i none, phgen := Sparse.set x.phgen i (Sparse.get 0 x.phgen i + 1) }

/-- The instruction a context has held at an engine, with what it waits for. -/
def heldOf (x : Context) : Option (Wait × PhHold) :=
  match x.run with
  | .blocked (.phaser d i n h) _ => some (.phaser d i n h, h)
  | _ => none

/-- The turn of a PHSIG or PHWAIT that has been held: what its engine has answered, or it stays held; `first` is what
it does when it has not been (R305, R306). -/
def heldTurn (s : State) (c : Nat) (o : DstSrc2) (result : Word → State → Res (Word × State)) (first : Res State) : Res State :=
  let x := s.ctx c
  match (if x.sent then x.reply else none), heldOf x with
  | some (.ok w), _ => do
    destReady s c o.d
    let s ← useWords s c [o.a, o.b]
    let (w, s) ← result w (countEvent s (coreOf c) 5 1)
    answer s c o.d w
  | some (.trap t), _ => .error (.trap t)
  | none, some (w, h) => do
    let _ ← phaserOf s c h.token (some true)
    .error (.block w)
  | none, none => first

/-- Units of sync SRAM in use on a die (R290). -/
def unitsUsed (d : Die) : Nat :=
  (d.phasers.map fun e => match e.2 with
    | some p => 4 + (if p.ctr then 3 else 0) + (p.members.filter fun m => m.2.isSome).length
    | none => 0).foldl (· + ·) 0

/-- Units a die's objects may take, in SRAM and in the overflow area of the kernel region (R287, R290). -/
def unitsMax (s : State) (part die : Nat) : Nat :=
  let n := (computeDies s part).length
  458752 + (if 1024 ≤ (s.die die).kmirr0.toNat % 2 ^ 16 ∧ 0 < n then 4194304 / n else 0)

/-- PHNEW (R305). -/
def phnewBody (o : PhnewOps) (c : Nat) (s : State) : Res State := do
  let i := (s.ctx c).ident
  let e := match o.die with
    | some d => d.toNat
    | none => if kindOf c = .host then 0 else logDie s (partNo i) (dieOf c)
  match physDie s (partNo i) e with
  | some (d, false) =>
    blockingCmd s c [] o.d fun _ s =>
      let s := countEvent s (coreOf c) 5 1
      if unitsMax s (partNo i) d < unitsUsed (s.die d) + (if o.ctr then 7 else 4) then .ok (0xFF00000000000001, s)
      else
        match (List.range 1048576).find? fun j => ((s.die d).phaser j).isNone with
        | none => .ok (0xFF00000000000001, s)
        | some j =>
          let w := phWord i.part.toNat e i.vf.toNat (Sparse.get 0 (s.die d).phgen j).toNat 0 j
          .ok (w, setPhaser s d j (some { part := i.part, vf := i.vf, ctr := o.ctr }))
  | _ => .error (.trap { cause := 0x60, val := BitVec.ofNat 64 (e * 65536) })

def execPhnew (o : PhnewOps) (s : State) : Out := run (.phnew o) o.h (phnewBody o) s

/-- A member that gains the signaller role in a phaser's current state (R303). -/
def Phaser.gain (p : Phaser) (n : Nat) (r : Role) : Phaser :=
  let m : PhMember := { role := r, s := if p.started then p.c + 1 else p.c }
  { p with out := if p.started then p.out else p.out + 1, members := Sparse.set p.members n (some m) }

/-- A signaller that loses the role (R303). -/
def Phaser.lose (p : Phaser) (m : PhMember) : Phaser := if m.s = p.c then { p with out := p.out - 1 } else p

/-- PHJOIN (R305). -/
def phjoinBody (o : PhjoinOps) (c : Nat) (s : State) : Res State :=
  blockingCmd s c [o.a] o.d fun ws s => do
    let w := arg ws 0
    let (d, p) ← phaserOf s c w (some false)
    let s := countEvent s (coreOf c) 5 1
    match ((List.range 4096).drop 1).find? fun n => (Sparse.get none p.members n).isNone with
    | none => pure (0xFF00000000000002, s)
    | some n =>
      if unitsMax s (partNo (s.ctx c).ident) d < unitsUsed (s.die d) + 1 then pure (0xFF00000000000001, s)
      else
        let q := if roleSignals o.role then p.gain n o.role
          else { p with members := Sparse.set p.members n (some { role := o.role, s := p.c }) }
        pure (w ||| BitVec.ofNat 64 (n * 2 ^ 20), settlePhaser s d (phIndex w) q)

def execPhjoin (o : PhjoinOps) (s : State) : Out := run (.phjoin o) o.h (phjoinBody o) s

/-- A blocking command with no result register (R305). -/
def blockingNone (s : State) (c : Nat) (srcs : List Src) (f : List Word → State → Res State) : Res State := do
  let s ← leaveNow s c .part
  let (ws, s) ← sources s c srcs none
  let s ← f ws s
  pure (replied (retire (countEvent s (coreOf c) 5 1) c) c)

/-- PHLEAVE (R305). -/
def phleaveBody (o : OneSrc) (c : Nat) (s : State) : Res State :=
  blockingNone s c [o.a] fun ws s => do
    let w := arg ws 0
    let (d, p) ← phaserOf s c w none
    match Sparse.get none p.members (phMember w) with
    | some m =>
      let s := dropHeld s d (phIndex w) (phMember w) true true 4
      let q := if roleSignals m.role then p.lose m else p
      let q := { q with members := Sparse.drop q.members (phMember w) }
      let s := settlePhaser s d (phIndex w) q
      pure (if q.members.any (·.2.isSome) then s else dissolve s d (phIndex w))
    | none =>
      ask (!p.members.any (·.2.isSome)) (phTrap w 8)
      pure (dissolve s d (phIndex w))

def execPhleave (o : OneSrc) (s : State) : Out := run (.phleave o) o.h (phleaveBody o) s

/-- PHROLE (R305). -/
def phroleBody (o : PhroleOps) (c : Nat) (s : State) : Res State :=
  blockingNone s c [o.a] fun ws s => do
    let w := arg ws 0
    let (d, p) ← phaserOf s c w (some true)
    match Sparse.get none p.members (phMember w) with
    | none => .error (phTrap w 4)
    | some m =>
      let s := dropHeld s d (phIndex w) (phMember w) (roleSignals m.role && !roleSignals o.role)
        (roleWaits m.role && !roleWaits o.role) 5
      let keep (q : Phaser) (r : PhMember) : Phaser := { q with members := Sparse.set q.members (phMember w) (some r) }
      let q := match roleSignals m.role, roleSignals o.role with
        | false, true => p.gain (phMember w) o.role
        | true, false => keep (p.lose m) { m with role := o.role }
        | _, _ => keep p { m with role := o.role }
      pure (settlePhaser s d (phIndex w) q)

def execPhrole (o : PhroleOps) (s : State) : Out := run (.phrole o) o.h (phroleBody o) s

/-- PHSIG (R305). -/
def phsigBody (o : DstSrc2) (c : Nat) (s : State) : Res State :=
  heldTurn s c o (fun w s => .ok (w, s)) <| blockingCmd s c [o.a, o.b] o.d fun ws s => do
    let w := arg ws 0
    let (d, p) ← phaserOf s c w (some true)
    match Sparse.get none p.members (phMember w) with
    | none => .error (phTrap w 4)
    | some m =>
      ask (roleSignals m.role) (phTrap w 5)
      let s := countEvent s (coreOf c) 5 1
      let evc := evcSample (s.core (coreOf c))
      ask (decide (m.s ≤ p.c)) (.block (.phaser d (phIndex w) m.s { token := w, sig := true, arg := arg ws 1, evc := evc }))
      pure (BitVec.ofNat 64 p.c, settlePhaser s d (phIndex w) (p.signal (phMember w) m (arg ws 1) evc))

def execPhsig (o : DstSrc2) (s : State) : Out := run (.phsig o) o.h (phsigBody o) s

/-- PHWAIT (R305). -/
def phwaitBody (o : DstSrc2) (c : Nat) (s : State) : Res State :=
  heldTurn s c o (fun w s => outside s c 7 w) <| blockingCmd s c [o.a, o.b] o.d fun ws s => do
    if replaying s c then outside s c 7 0
    else
      let w := arg ws 0
      let (d, p) ← phaserOf s c w (some true)
      match Sparse.get none p.members (phMember w) with
      | none => .error (phTrap w 4)
      | some m =>
        ask (roleWaits m.role) (phTrap w 5)
        ask (decide ((arg ws 1).toNat < p.c)) (.block
          (.phaser d (phIndex w) ((arg ws 1).toNat + 1) { token := w, sig := false, arg := arg ws 1 }))
        outside (countEvent s (coreOf c) 5 1) c 7 (p.result (arg ws 1))

def execPhwait (o : DstSrc2) (s : State) : Out := run (.phwait o) o.h (phwaitBody o) s

/-- CTRREAD (R305, R309): a load of the phaser at its engine. -/
def ctrreadBody (o : CtrreadOps) (c : Nat) (s : State) : Res State := do
  destReady s c o.d
  let x := s.ctx c
  ask (mayGo s c { id := x.nextId, op := .load [] .now, ident := x.ident }) .stall
  let (ws, s) ← sources s c [o.a] (some o.d)
  if replaying s c then
    let (w, s) ← outside s c 7 0
    answer s c o.d w
  else
    let w := arg ws 0
    let (_, p) ← phaserOf s c w none
    ask (p.ctr || o.idx == 4) (phTrap w 6)
    let (w, s) ← outside s c 7 (BitVec.ofNat 64 (if o.idx = 4 then p.c else p.sums.getD o.idx.toNat 0))
    answer s c o.d w

def execCtrread (o : CtrreadOps) (s : State) : Out := run (.ctrread o) o.h (ctrreadBody o) s

end Sys2Proof.Machine
end

