-- ==== Sys2Proof/Machine/Partition.lean ====
section
/-! DEFINITION. Partitions and confidential computing (R428, R443 to R457): creating and ending a partition, key
shares, measurement, certificates, attestation, the reset of a virtual function, integrity failures and orphaned
scratchpads. Register writes that have a row of their own come through the same operations from `Register`. -/

namespace Sys2Proof.Machine

/-- The world of a writer; the generation is the current one. -/
def writerIdent (s : State) (x : Writer) : Ident :=
  { custodian := x.custodian, part := x.part, vf := x.vf, world := x.world, gen := (s.vf x.part.toNat x.vf.toNat).gen }

/-- A trap waits for the monitor pair of a compute die (R288). -/
def monitorTrap (s : State) (die : Nat) (t : Trap) : State := s.modDie die fun d => { d with monitor := d.monitor ++ [t] }

/-- Every die's contexts that belong to a world below custodian level and hold something. -/
def contextsFor (s : State) (f : Ident → Bool) : List Nat :=
  (s.ctxs.filter fun e => e.2.run != .free && e.2.level != .custodian && !e.2.ident.custodian && f e.2.ident).map (·.1)

/-- Frees a context without switch-out: its task is gone (R449, R454). -/
def killContext (s : State) (c : Nat) : State :=
  let x := s.ctx c
  let s := match x.task with
    | some t => dropTimelines (answerMigr (releaseArea s t) t.gti 4) (t.gti.toNat * 2 + 1)
    | none => s
  freeContext s c

/-- A context that is to enter the custodian in place abandons what it was running, its task with it; its registers
stay (R232, R454). It then starts at custodian level with timelines of its own (R482). -/
def abandonWork (s : State) (c : Nat) : State :=
  let s := match (s.ctx c).task with
    | some t => dropTimelines (answerMigr (sendLapse s (coreOf c) t.gti) t.gti 4) (t.gti.toNat * 2 + 1)
    | none => s
  detach (releaseClaims (dropWork s c) c) c

/-! Integrity failures (R454). -/

/-- A tag check failed on a line that context `c` received. -/
def integrityFailure (s : State) (c : Nat) (i : Ident) (pa : Nat) : State :=
  let t : Trap := { cause := 0x51, val := BitVec.ofNat 64 (pa / 128 * 128), aux := gtiOf (s.ctx c) }
  let s := s.modPart (partNo i) fun p => { p with frozen := true }
  let s := (contextsFor s fun j => j.part == i.part).foldl killContext s
  if dieOf c < 8 then monitorTrap s (dieOf c) t
  else
    let h := ctxKey (dieOf c * 512 + 31) 0
    enterCustodian (abandonWork s h) h t

/-- A context has received a line of a frame whose partition no longer has the key (R446). -/
def sealFailure (s : State) (c line : Nat) : State :=
  integrityFailure s c { part := entPart (entry0 s (line / 65536)) } line

/-! The reset of a virtual function (R449). -/

/-- Whether an identity is of a virtual function. -/
def ofVf (k v : Nat) (i : Ident) : Bool := i.part == BitVec.ofNat 8 k && i.vf == BitVec.ofNat 4 v

/-- Discards what a context of the virtual function holds in its core's mailboxes and ports (R449 step 5). -/
def dropWords (s : State) (c : Nat) : State :=
  let x := s.ctx c
  s.modCore (coreOf c) fun k => { k with
    mbox := k.mbox.map fun (e : Nat × Option MsgWord) => if x.mbxmask.getLsbD e.1 then (e.1, none) else e
    ports := k.ports.map fun (e : Nat × List Word) => if x.pmask.getLsbD e.1 then (e.1, []) else e }

/-- Discards the tasks of a virtual function that a die's scheduler holds (R449 step 3). -/
def dropTasks (k v : Nat) (s : State) (die : Nat) : State :=
  let mine (t : Task) : Bool := ofVf k v t.ident
  let d := s.die die
  let gone := (d.ready ++ d.pending.map (·.2) ++ d.parked ++ d.stopped.map (·.task)).filter mine
  let s := gone.foldl (fun s t => dropTimelines (answerMigr (releaseArea s t) t.gti 4) (t.gti.toNat * 2 + 1)) s
  let gtis := gone.map (·.gti)
  let s := { s with cores := s.cores.map fun (e : Nat × Core) => (e.1, { e.2 with
      spill := e.2.spill.filter fun x => !gtis.contains x.gti, fwd := e.2.fwd.filter (fun x => !gtis.contains x.gti)
      claims := e.2.claims.filter fun x => !gtis.contains x.1 }) }
  s.modDie die fun d => { d with
    ready := d.ready.filter fun t => !mine t
    pending := d.pending.filter fun e => !mine e.2
    parked := d.parked.filter fun t => !mine t
    stopped := d.stopped.filter fun e => !ofVf k v e.ident
    handlers := d.handlers.filter fun m => !ofVf k v m.ident
    conts := d.conts.filter fun e => !ofVf k v e.ident
    service := d.service.map fun (e : Nat × List Service) => if e.1 = k * 16 + v then
        (e.1, e.2.filter fun r => match r with | .notice .. => true | _ => false) else e }

/-- Ends the live jobs of a virtual function with error 0xFF05 (R256, R449, R450). -/
def killJobs (k v : Nat) (s : State) : State :=
  s.jobs.foldl (fun s e =>
    match s.job e.1 with
    | some j =>
      if j.part = BitVec.ofNat 8 k ∧ j.vf = BitVec.ofNat 4 v then finishJob (orphanJob s e.1 j.clusters) e.1 (errorWord 0xFF05) else s
    | none => s) s

/-- A notice of a reset in the service queues (R449 step 6). -/
def resetNotice (s : State) (k v : Nat) (die : Option Nat) : State :=
  match die with
  | none => s
  | some d => s.modDie d fun x => { x with
      service := Sparse.set x.service (k * 16 + v) (Sparse.get [] x.service (k * 16 + v)
        ++ [.notice 0x52 ((s.vf k v).gen.setWidth 64) (BitVec.ofNat 64 v) 0]) }

/-- Resets one virtual function. -/
def vfReset (s : State) (k v : Nat) : State :=
  let s := s.modVf k v fun x => { x with gen := x.gen + 1 }
  let s := (contextsFor s (ofVf k v)).foldl (fun s c => killContext (dropWords s c) c) s
  let s := (s.dies.map (·.1)).foldl (dropTasks k v) s
  let s := killJobs k v s
  let s := { s with actors := s.actors.filter fun e => match e.2 with | some a => !ofVf k v a.task.ident | none => false }
  let s := s.dies.foldl (fun s e => e.2.phasers.foldl (fun s p => match p.2 with
    | some q => if q.part = BitVec.ofNat 8 k ∧ q.vf = BitVec.ofNat 4 v then dissolve s e.1 p.1 else s
    | none => s) s) s
  let s := { s with lanes := s.lanes.map fun (e : Nat × Lane) =>
      if [e.2, e.2.ahead].any fun l => l.bound && l.part == BitVec.ofNat 8 k && l.vf == BitVec.ofNat 4 v then (e.1, { e.2 with staged := e.2.staged ++ [Staged.unbind] })
      else e }
  let mine := (s.part k).regions.filter fun r => r.vf == BitVec.ofNat 4 v
  let s := (mine.foldl (fun (s : State) (r : Region) => invRegion s r false) s).modPart k fun p => { p with
    regions := p.regions.filter fun (r : Region) => r.vf != BitVec.ofNat 4 v }
  resetNotice (resetNotice s k v ((physDie s k 0).map (·.1))) k v (firstHostDie s k)

/-- A write of VFRST (R448, R449). -/
def writeVfrst (s : State) (k : Nat) (w : Word) : State :=
  (List.range 16).foldl (fun s v => if w.getLsbD v then vfReset s k v else s) s

/-! PCTL (R445, R446). -/

/-- Whether R446 ignores a write that sets EN. -/
def pctlRefused (s : State) (k : Nat) (w : Word) : Bool :=
  let prot := w.getLsbD 62
  let slot := w.extractLsb' 0 7
  (prot && slot == 0) || (!prot && slot != 0) || (w.getLsbD 61 && !prot)
    || (slot != 0 && (List.range 16).any fun j => j != k && (s.part j).en && (s.part j).kslot == slot)

/-- Creates partition `k`. -/
def pctlOn (s : State) (k : Nat) (w : Word) : State :=
  let prot := w.getLsbD 62
  let joint := w.getLsbD 61
  let d := s.sec.draws
  let s := { s with sec := { s.sec with draws := d + 2 } }
  let s := s.modPart k fun p => { p with
    en := true, prot := prot, joint := joint, kslot := w.extractLsb' 0 7, frozen := false, ready := !joint
    mcl := false, shm := false, shd := false, shareM := none, shareD := none, confM := 0, confD := 0, jointKey := none
    scrambler := some d, slotKey := if prot && !joint then some (d + 1) else none, kem := if joint then some (d + 1) else none
    meas := s.sec.device }
  if joint then homeStore s ((s.part k).kpub.toNat / 16 * 16) (fixBytes 1568 (Config.kemPublic (d + 1))) else s

/-- Ends partition `k` unless R446 ignores the write. -/
def pctlOff (s : State) (k : Nat) : State :=
  if (s.part k).ldtlock || !(contextsFor s fun i => i.part == BitVec.ofNat 8 k).isEmpty then s
  else
    let s := s.modPart k fun p => { p with
      en := false, frozen := false, ready := false, mcl := false, shm := false, shd := false, scrambler := none, slotKey := none
      kem := none, shareM := none, shareD := none, jointKey := none }
    let keep (e : Nat × BitVec 8) : Bool := e.2 != BitVec.ofNat 8 k
    { s with sec := { s.sec with pmap := s.sec.pmap.filter keep, hcmap := s.sec.hcmap.filter keep } }

/-- A write of PCTL: PROT, JOINT and KSLOT are locked by EN as it stands before the write. -/
def writePctl (s : State) (k : Nat) (w : Word) : State :=
  match (s.part k).en, w.getLsbD 63 with
  | false, true => if pctlRefused s k w then s else pctlOn s k w
  | true, false => pctlOff s k
  | false, false => s.modPart k fun p => { p with prot := w.getLsbD 62, joint := w.getLsbD 61, kslot := w.extractLsb' 0 7 }
  | true, true => s

/-! Key shares, measurement, certificates, attestation (R452, R455 to R457). -/

/-- ASCII bytes of a string. -/
def ascii (t : String) : List Byte := t.toList.map fun c => BitVec.ofNat 8 c.toNat

/-- The first 32 bytes of SHAKE256 as a number. -/
def shake32 (b : List Byte) : BitVec 256 := BitVec.ofNat 256 (ofBytes ((fixBytes 64 (Config.shake256 b)).take 32))

/-- The slot key of two shares (R452). -/
def jointOf (k : Nat) (m d : BitVec 256) : BitVec 256 :=
  shake32 (ascii "ZLN-PM8 joint" ++ [BitVec.ofNat 8 k] ++ toBytes 32 m.toNat ++ toBytes 32 d.toNat ++ Config.deviceSecret)

/-- Whether bytes can be read from memory: they have a home and no line of theirs is poisoned. -/
def readable (s : State) (pa n : Nat) : Bool :=
  (loc s pa).isSome && (loc s (pa + n - 1)).isSome
    && (List.range ((pa % 128 + n + 127) / 128)).all fun j => !poisoned s (pa / 128 * 128 + 128 * j)

/-- KSUB (R452). The shares and the confirmation values stay until both shares are there, then only the values. -/
def writeKsub (s : State) (w : Word) : State :=
  let owner := (w.extractLsb' 62 2).toNat
  let part := (w.extractLsb' 52 8).toNat
  let pa := (w.extractLsb' 0 52).toNat
  let p := s.part part
  let res (s : State) (r : BitVec 4) : State :=
    { s with sec := { s.sec with kstatPart := BitVec.ofNat 8 part, kstatRes := r } }
  if owner = 0 ∨ owner = 3 then s
  else if 16 ≤ part ∨ !p.en ∨ !p.joint ∨ p.ready then res s 3
  else if (if owner = 1 then p.shm else p.shd) then res s 2
  else if pa % 16 ≠ 0 ∨ !readable s pa 1568 then res s 4
  else
    let ss := Config.kemOpen (p.kem.getD 0) (homeBytes s pa 1568)
    let conf := shake32 (toBytes 32 ss.toNat ++ ascii "confirm")
    let p := if owner = 1 then { p with shm := true, shareM := some ss, confM := conf }
      else { p with shd := true, shareD := some ss, confD := conf }
    let p := match p.shareM, p.shareD with
      | some m, some d => { p with jointKey := some (jointOf part m d), shareM := none, shareD := none, ready := true }
      | _, _ => p
    res (s.modPart part fun _ => p) 0

/-- MEASEXT (R455). -/
def writeMeasext (s : State) (w : Word) : State :=
  let part := (w.extractLsb' 56 8).toNat
  let frame := (w.extractLsb' 16 36).toNat
  let e := entry0 s frame
  if (s.part part).mcl || !(decide (1 ≤ entState e ∧ entState e ≤ 4) && entPart e == BitVec.ofNat 8 part) then s
  else s.modPart part fun p => { p with
    meas := p.meas ++ toBytes 8 (frame * 65536) ++ homeBytes s (frame * 65536) 65536 }

/-- Generation of a certificate slot. -/
def certGen (s : State) (i : Nat) : BitVec 32 := Sparse.get 0 s.sec.certGen i

/-- CERTi (R456): a roll of slot `i`. -/
def writeCert (s : State) (i : Nat) (w : Word) : State :=
  if i = 0 then s
  else
    let pa := (w.extractLsb' 0 32).toNat * 256
    let g := certGen s i + 1
    let key := fixBytes 64 (Config.slhPublic i g)
    let s := { s with sec := { s.sec with certGen := Sparse.set s.sec.certGen i g } }
    let sig := Config.slhSign 0 (certGen s 0) (key ++ [BitVec.ofNat 8 i] ++ toBytes 4 g.toNat)
    homeStore (homeStore s pa key) (pa + 64) (fixBytes 29792 sig)

/-- ATTREQ (R457). -/
def writeAttreq (s : State) (w : Word) : State :=
  if s.sec.attBusy then s
  else
    let slot := (w.extractLsb' 52 3).toNat
    { s with sec := { s.sec with
        attBusy := true, attPart := w.extractLsb' 56 8, attSlot := slot
        attAddr := (w.extractLsb' 12 40).toNat * 4096, attGen := certGen s slot } }

/-- The report after its nonce, up to the signature (R457). -/
def attReport (s : State) (status : Nat) : List Byte :=
  let a := s.sec
  let p := s.part a.attPart.toNat
  toBytes 8 1 ++ toBytes 8 (packWord [(32, a.attGen.toNat), (8, a.attSlot), (0, a.attPart.toNat)]).toNat
    ++ toBytes 8 (pctlWord p).toNat ++ fixBytes 64 (Config.shake256 p.meas)
    ++ toBytes 32 p.confM.toNat ++ toBytes 32 p.confD.toNat
    ++ (match p.kem with | some d => fixBytes 64 (Config.shake256 (fixBytes 1568 (Config.kemPublic d))) | none => List.replicate 64 0)
    ++ toBytes 8 status

/-- ATTESTATION_DONE (R457). -/
def execAttestationDone (s : State) : Out :=
  let a := s.sec
  if !a.attBusy then .next s
  else
    let status := if certGen s a.attSlot != a.attGen then 1 else if !(s.part a.attPart.toNat).en then 2 else 0
    let nonce := homeBytes s a.attAddr 64
    let report := nonce ++ attReport s status
    let sig := if status = 0 then fixBytes 29792 (Config.slhSign a.attSlot a.attGen report) else List.replicate 29792 0
    let s := homeStore s (a.attAddr + 64) (report.drop 64 ++ sig)
    .next { s with sec := { s.sec with attBusy := false, attDone := true } }

/-! CUSTBASE (R428) and orphans (R450). -/

/-- A write of CUSTBASE of a stack. -/
def writeCustbase (s : State) (k : Nat) (w : Word) : State :=
  let base := (w.extractLsb' 16 21).toNat * 65536
  if (s.base k).custEn then s
  else if w.getLsbD 63 then
    if stackBytes < base + recordFrames * 65536 then s
    else (zeroRange s (k * 2 ^ 37 + base) (recordFrames * 65536)).modBase k fun b => { b with custEn := true, custBase := base }
  else s.modBase k fun b => { b with custBase := base }

/-- ORPHAN_FREE (R450). -/
def execOrphanFree (cl : Nat) (s : State) : Out :=
  .next (match (s.clu cl).orphan with
    | some t => if (s.clu cl).attached.isEmpty ∨ t + 1000000 ≤ s.time.toNat then freeScratch s cl else s
    | none => s)

/-! The rows of the opcode table whose write these are. Only the custodian maps the security block (R443). -/

def execVfReset (k : Nat) (who : Writer) (w : Word) (s : State) : Out :=
  .next (if who.custodian ∧ k < 16 then writeVfrst s k w else s)

/-- PCTL_ENABLE: a write that sets EN. -/
def execPctlEnable (k : Nat) (who : Writer) (w : Word) (s : State) : Out :=
  .next (if who.custodian ∧ k < 16 ∧ w.getLsbD 63 then writePctl s k w else s)

/-- PCTL_DISABLE: a write that clears EN. -/
def execPctlDisable (k : Nat) (who : Writer) (w : Word) (s : State) : Out :=
  .next (if who.custodian ∧ k < 16 ∧ !w.getLsbD 63 then writePctl s k w else s)

def execKsubSubmit (who : Writer) (w : Word) (s : State) : Out := .next (if who.custodian then writeKsub s w else s)

def execMeasextAbsorb (who : Writer) (w : Word) (s : State) : Out := .next (if who.custodian then writeMeasext s w else s)

def execCertRoll (i : Nat) (who : Writer) (w : Word) (s : State) : Out :=
  .next (if who.custodian ∧ i < 8 then writeCert s i w else s)

def execAttreqStart (who : Writer) (w : Word) (s : State) : Out := .next (if who.custodian then writeAttreq s w else s)

def execCustbaseEnable (k : Nat) (who : Writer) (w : Word) (s : State) : Out :=
  .next (if who.custodian ∧ k < 8 ∧ w.getLsbD 63 then writeCustbase s k w else s)

end Sys2Proof.Machine
end

