-- ==== Sys2Proof/Machine/Fabric.lean ====
section
/-! DEFINITION. The memory fabric's own steps (R279 to R289): page walks, invalidations, links, lost and quarantined
dies, uncorrectable errors and holds; and the resets of a die and of the module, trips and supply (R477 to R480). -/

namespace Sys2Proof.Machine

/-! Page walks (R279, R281). -/

/-- PAGE_WALK: a translation joins the TLB of the cluster, or the instruction traps, or the walk has read a line whose tag
fails (R451, R454). -/
def execPageWalk (c : Nat) (s : State) : Out :=
  let x := s.ctx c
  match x.walk, x.run with
  | some r, .blocked .walk _ =>
    if (walkOf s x.ident r.va).any fun a => frameHeld s a then .next s
    else if let some l := badLine s ((walkOf s x.ident r.va).map fun a => a / 128 * 128) then .next (sealFailure s c l)
    else
      let s := walkReads s x.ident r.va
      match walk s x.ident (x.level == .task) r.va r.kind with
      | .ok f =>
        let s := (markLeaf s f r.kind).modClu (clusterOf c) fun k => { k with
          tlb := (k.tlb.filter fun e => !e.holds x.ident r.va) ++ [f.entry] }
        .next (s.modCtx c fun x => { x with walk := none, run := .running })
      | .error t =>
        if !x.pend.isEmpty then .next (s.modCtx c fun x => { x with walk := none, run := .running })
        else if settled s c then .next (takeTrap (s.modCtx c fun x => { x with walk := none }) c t)
        else .next s
  | _, _ => .next s

/-! Invalidations (R223, R282). -/

/-- Whether a virtual address is in what a TLBINV removes, for a world of an identity: at custodian level both worlds of
every virtual function of its partition. DESIGN CHOICE (log 67): of every partition where it has none. -/
def Inval.names (v : Inval) (i : Ident) (va : Nat) : Bool :=
  v.line.isNone
    && (if v.ident.custodian then v.ident.part == 0xFF || i.part == v.ident.part else sameWorld i v.ident)
    && match v.page with | some (p, n) => va % 2 ^ 57 / 2 ^ n == p | none => true

/-- Whether a cached translation is removed. -/
def Inval.removes (v : Inval) (e : TlbEntry) : Bool :=
  v.names e.ident (e.vpn * 2 ^ e.size) && match v.page with | some (_, n) => n == e.size | none => true

/-- Whether a die still has an access that used a removed translation; one whose virtual address is not kept may have
used any of its world's. -/
def Inval.awaits (v : Inval) (s : State) (die : Nat) : Bool :=
  unperformed s (· == die) fun i ea _ => !i.custodian && match ea with
    | some a => v.names i a.toNat
    | none => { v with page := none }.names i 0

/-- What a die removes before it acknowledges: translations, or its copies of a line (R223, R275). -/
def removeAt (s : State) (die : Nat) (v : Inval) : State :=
  match v.line with
  | some l => dropCopy s die l
  | none => { s with clus := s.clus.map fun (e : Nat × Cluster) =>
      if e.1 / 64 = die then (e.1, { e.2 with tlb := e.2.tlb.filter fun t => !v.removes t }) else e }

/-- A die has acknowledged an invalidation; the last one lets its issuer go on. -/
def acked (s : State) (die : Nat) (v : Inval) : State :=
  let w := v.waiting.filter (· != die)
  if w.isEmpty then
    let s := { s with invals := s.invals.filter fun y => y.id != v.id }
    match (s.ctx v.c).run with
    | .blocked .invalidate _ => if (s.ctx v.c).sent then s.modCtx v.c fun x => { x with reply := some (.ok 0) } else s
    | _ => s
  else { s with invals := s.invals.map fun y => if y.id = v.id then { y with waiting := w } else y }

/-- Acknowledges everything pending at a die, before it loses what it holds (R282, R285). -/
def ackAll (s : State) (die : Nat) : State :=
  (s.invals.filter fun v => v.waiting.contains die).foldl (fun s v => acked (removeAt s die v) die v) s

/-- INVALIDATION_ACK (R223, R275, R282): the die has removed what was asked. -/
def execInvalidationAck (die k : Nat) (s : State) : Out :=
  .next (match s.invals.find? fun v => v.id == k && v.waiting.contains die with
    | none => s
    | some v =>
      if v.awaits s die then s else acked (removeAt s die v) die v)

/-- Poisons the line of an address. -/
def poisonLine (s : State) (pa : Nat) : State :=
  match loc s pa with | some a => { s with poison := insertNat s.poison (a / 128) } | none => s

/-! Lost and quarantined dies (R282, R285). -/

/-- The dies that record the loss of one: those of its partitions, or every die for a base die. -/
def concerned (s : State) (die : Nat) : List Nat :=
  (List.range 10).filter fun d => d != die && (decide (10 ≤ die) ||
    (List.range 16).any fun p => dieInPart s die p && dieInPart s d p)

/-- A word or a message on its way to a die that is closed off counts as acknowledged (R285). -/
def endOwed (s : State) (die : Nat) : State :=
  { s with net := s.net.map fun m => match m.2 with
    | .word core _ _ c g _ _ true => if coreDie core = die then (m.1, .wordAck c g) else m
    | .amsg a => if a.die = die then (m.1, .amsgAck a.c a.gti) else m
    | _ => m }

/-- A die is closed off: the others record it and it them, its acknowledgements count as received, every line that the
directories show it holding in E or as O-owner is poisoned and its other directory bits are cleared (R282, R285). Requests
and replies of the synchronisation engines may be lost while the fabric routes around it (R295). -/
def closeOff (s : State) (die : Nat) (last : BitVec 4) : State :=
  let s := (concerned s die).foldl (fun s d => s.modDie d fun x => { x with
    lost := x.lost ||| (1 <<< die), last := last }) s
  let s := if die < 10 then s.modDie die fun x => { x with lost := ~~~ ((1 : BitVec 32) <<< die) } else s
  let s := (ownedLines s die).foldl (fun s l => poisonLine s (l * 128)) s
  let (n, s) := s.new
  let s := { s with net := s.net.filter fun m => match m.2 with
    | .atomic _ | .atomReply .. | .sig _ => !Config.routeLoses n m.1
    | _ => true }
  ((endOwed (ackAll (clearCaches s die) die) die)).modCtl die fun d => { d with state := 3, reason := 0 }

/-- QUARANTINE (R282): a die silent for 100 µs. -/
def execQuarantine (die : Nat) (s : State) : Out :=
  .next (if s.invals.any fun v => v.waiting.contains die && decide (v.since + 100000 ≤ s.time.toNat) then closeOff s die 3 else s)

def linkOf (s : State) (k : Nat) : Link := Sparse.get {} s.links k
def modLink (s : State) (k : Nat) (f : Link → Link) : State := { s with links := Sparse.set s.links k (f (linkOf s k)) }

/-- DIE_LOST (R284, R285): a link has been down for 1 ms; the die at either end is lost to the other. -/
def execDieLost (die : Nat) (s : State) : Out :=
  .next (if s.links.any fun l =>
      let e := Config.linkEnds (l.1 / 2)
      (e.1 == die || e.2 == die) && (match l.2.down with | some t => decide (t + 1000000 ≤ s.time.toNat) | none => false)
    then closeOff s die 2 else s)

/-! Links (R283, R284, R445). -/

/-- The sender's side of a direction by the time a flit of number `seq` arrives: the flits up to it have been sent and
stand in the replay buffer (R283). -/
def Link.sentUpTo (l : Link) (cls : Nat) (seq : BitVec 16) : Link :=
  let first := Sparse.get 0 l.sent cls
  let n := (seq - first).toNat + 1
  if 32768 < n then l
  else { l with
    sent := Sparse.set l.sent cls (seq + 1)
    buffer := l.buffer ++ (List.range n).map fun j => (cls, first + BitVec.ofNat 16 j, 0) }

/-- The receiver asks for replay from its next expected number: that flit has been replayed once more (R283, R284). -/
def Link.replay (l : Link) (cls : Nat) (want : BitVec 16) (now : Nat) : Link :=
  { l with
    buffer := l.buffer.map fun f => if f.1 = cls ∧ f.2.1 = want then (f.1, f.2.1, f.2.2 + 1) else f
    recent := (now :: l.recent).filter fun t => decide (now ≤ t + 10000) }

/-- FLIT_RECEIVE (R283): only a good flit with the next expected number of its class is accepted, and leaves the sender's
replay buffer; a duplicate is dropped; a bad one or a gap asks for replay. A flit between partitions takes its number
like any other, and is dropped where it is routed (R445). -/
def execFlitReceive (link cls : Nat) (seq : BitVec 16) (good : Bool) (_src _dst : BitVec 8) (s : State) : Out :=
  let l := linkOf s link
  let want := Sparse.get 0 l.expect cls
  let ahead := (seq - want).toNat
  .next (if 3 ≤ cls ∨ l.down.isSome then s
    else if good ∧ 32768 ≤ ahead then s
    else modLink s link fun l =>
      let l := l.sentUpTo cls seq
      if good ∧ ahead = 0 then { l with
        expect := Sparse.set l.expect cls (want + 1), buffer := l.buffer.filter fun f => !(f.1 == cls && f.2.1 == seq) }
      else l.replay cls want s.time.toNat)

/-- The two dies of a link count its retraining (R285). -/
def countRetrain (s : State) (link : Nat) : State :=
  let e := Config.linkEnds (link / 2)
  let up (s : State) (d : Nat) : State := if d < 10 then s.modDie d fun x => { x with retrain := min (x.retrain + 1) 0xFFFF, last := 1 } else s
  up (up s e.1) e.2

/-- The two directions of a link. -/
def bothWays (link : Nat) : List Nat := [link / 2 * 2, link / 2 * 2 + 1]

/-- Whether a link's replay budget is spent: a flit replayed 8 times and not accepted, or 64 replays within 10 µs
(R284). -/
def budgetSpent (s : State) (link : Nat) : Bool :=
  let ls := (bothWays link).map (linkOf s)
  ls.any (fun l => l.buffer.any fun f => decide (8 ≤ f.2.2))
    || decide (64 ≤ (ls.flatMap fun l => l.recent.filter fun t => decide (s.time.toNat ≤ t + 10000)).length)

/-- REPLAY_BUDGET_EXHAUSTED (R284): the link stops serving, both ways, and retrains. -/
def execReplayBudgetExhausted (link : Nat) (s : State) : Out :=
  .next (if budgetSpent s link && (linkOf s link).down.isNone then
      countRetrain ((bothWays link).foldl (fun s k => modLink s k fun l => { l with down := some s.time.toNat }) s) link
    else s)

/-- LINK_RETRAIN_COMPLETE (R284): each end keeps its replay buffer and its expected numbers; the budget is whole again. -/
def execLinkRetrainComplete (link : Nat) (s : State) : Out :=
  .next (if (linkOf s link).down.isSome then
      (bothWays link).foldl (fun s k => modLink s k fun l => { l with
        down := none, recent := [], buffer := l.buffer.map fun f => (f.1, f.2.1, 0) }) s
    else s)

/-! Uncorrectable errors and holds (R286, R287, R289). -/

/-- The mirror of a kernel region's address on a die, if the address lies in its region (R287). -/
def mirrorOn (s : State) (die pa : Nat) : Option Nat :=
  let d := s.die die
  let base := (d.kmirr0.extractLsb' 16 36).toNat * 65536
  let n := (d.kmirr0.extractLsb' 0 16).toNat * 65536
  if base ≤ pa ∧ pa < base + n then some ((d.kmirr1.extractLsb' 16 36).toNat * 65536 + (pa - base)) else none

def setLast (s : State) (die : Nat) (n : BitVec 4) : State := s.modDie die fun d => { d with last := n }

/-- The lowest hold tag that is free (R289: 12 bits). -/
def freeTag (s : State) : Nat := ((List.range 4096).find? fun t => !s.holds.any fun h => h.tag == t).getD 0

/-- The error request of a hold (R289). -/
def holdNotice (s : State) (h : Hold) : State :=
  match (if h.world then (physDie s h.part.toNat 0).map (·.1) else firstHostDie s h.part.toNat) with
  | none => s
  | some d => s.modDie d fun x => { x with
      service := Sparse.set x.service (h.part.toNat * 16 + h.vf.toNat)
        (Sparse.get [] x.service (h.part.toNat * 16 + h.vf.toNat)
          ++ [.notice 0x25 (BitVec.ofNat 64 (h.line * 128)) 0 (BitVec.ofNat 64 h.tag)]) }

/-- The kernel-region hold whose mirror line an address lies in (R287). -/
def mirrorHold (s : State) (pa : Nat) : Option Hold :=
  s.holds.find? fun h => h.kernel && ((mirrorOn s h.die (h.line * 128)).map fun m => m / 128) == some (pa / 128)

/-- UNCORRECTABLE_ERROR (R286, R287, R289): a home agent's read of a line for a context, or for an engine command of it,
finds an error, in the frame that stands for the one it names. A line of the kernel region is held by itself, and where
its mirror fails too both are poisoned; another frame is held as a whole, unless it is already. -/
def execUncorrectableError (pa c : Nat) (s : State) : Out :=
  let die := dieOf c
  let pa := if isHbm pa then redirect s pa else pa
  let frame := pa / 65536
  if !isHbm pa || poisoned s pa || s.holds.any (fun h => if h.kernel then h.line == pa / 128 else h.frame == frame)
      || !isContext c then .next s
  else
    let w := entry0 s frame
    let h : Hold :=
      { tag := freeTag s, frame := frame, line := pa / 128, since := s.time.toNat, die := die, c := c
        part := entPart w, vf := entVf w, world := entOwner w }
    match (if die < 8 then mirrorOn s die pa else none), mirrorHold s pa with
    | some m, _ =>
      if poisoned s m then .next (poisonLine (poisonLine s pa) m)
      else
        let s := setLast { s with holds := s.holds ++ [{ h with kernel := true }] } die 4
        .next (monitorTrap s die { cause := 0x26, val := BitVec.ofNat 64 (pa / 128 * 128), aux := BitVec.ofNat 64 (frame * 65536) })
    | none, some k =>
      .next (poisonLine (poisonLine { s with holds := s.holds.filter fun x => x.tag != k.tag } (k.line * 128)) pa)
    | none, none =>
      let s := setLast { s with holds := s.holds ++ [h] } die 5
      .next (if entState w = 0 then s else holdNotice s h)

/-- Ends a hold by poisoning its line (action 1 of R289). -/
def holdPoison (s : State) (h : Hold) : State :=
  setLast (poisonLine { s with holds := s.holds.filter fun x => x.tag != h.tag } (h.line * 128)) h.die 6

/-- HOLD_TIMEOUT: a frame hold unanswered for 1 ms. -/
def execHoldTimeout (tag : Nat) (s : State) : Out :=
  .next (match s.holds.find? fun h => h.tag == tag && !h.kernel with
    | some h => if h.since + 1000000 ≤ s.time.toNat then holdPoison s h else s
    | none => s)

/-- Whether a writer is the memory manager of a hold. -/
def holdOwner (i : Ident) (h : Hold) : Bool := i.custodian || (i.part == h.part && i.vf == h.vf && i.world == h.world)

/-- HOLDRSP (R287, R289): a kernel-region hold is named by its own frame, a frame hold by its tag. -/
def writeHoldrsp (s : State) (i : Ident) (w : Word) : State :=
  let frame := (w.extractLsb' 16 36).toNat
  let act := (w.extractLsb' 12 4).toNat
  let tag := (w.extractLsb' 0 12).toNat
  match (if act = 0 ∧ i.custodian then s.holds.find? fun h => h.kernel && h.frame == frame else none) with
  | some h => { s with holds := s.holds.filter fun x => x.tag != h.tag }
  | none =>
    match s.holds.find? fun h => !h.kernel && h.tag == tag && holdOwner i h with
    | none => s
    | some h =>
      if act = 1 then holdPoison s h
      else if act = 0 then
        let e := entry0 s frame
        let ok := isHbm (frame * 65536) && decide (1 ≤ entState e ∧ entState e ≤ 4) && entPart e == h.part && entVf e == h.vf
          && entOwner e == h.world
        if !ok then s
        else
          { s with holds := s.holds.filter fun x => x.tag != h.tag }.modBase (h.frame / 2 ^ 21) fun b => { b with
            redirect := (b.redirect.filter fun (r : Nat × Nat) => r.1 != h.frame) ++ (if frame = h.frame then [] else [(h.frame, frame)]) }
      else s

/-- HOLDRSP_REPLAY: action 0, written in a die's window. -/
def execHoldrspReplay (die : Nat) (who : Writer) (w : Word) (s : State) : Out :=
  .next (if die < 10 ∧ w.extractLsb' 12 4 = 0 then writeHoldrsp s (writerIdent s who) w else s)

/-- HOLDRSP_POISON: action 1. -/
def execHoldrspPoison (die : Nat) (who : Writer) (w : Word) (s : State) : Out :=
  .next (if die < 10 ∧ w.extractLsb' 12 4 = 1 then writeHoldrsp s (writerIdent s who) w else s)

/-! Resets (R477 to R480). -/

/-- The bytes that dirty tiles of a base die would have written are not (R317). -/
def undoTiles (s : State) (k : Nat) : State :=
  ((s.base k).tiles.foldl (fun s t => if t.dirty then putBack s t.undo else s) s).modBase k fun b => { b with tiles := [] }

/-- What a die keeps when it loses everything else: the counts that must not come again, of GTIs (R248) and of
object slots, whose phasers dissolve (R301, R307). -/
def Die.emptied (d : Die) : Die :=
  { serial := d.serial
    phgen := d.phasers.foldl (fun g e => if e.2.isSome then Sparse.set g e.1 ((Sparse.get 0 g e.1 : BitVec 15) + 1) else g) d.phgen }

/-- A COPYR whose die copy queue is emptied stops where it is, with reason 3 (R285, R346). -/
def EngCmd.queueGone (e : EngCmd) (p : Nat) : EngCmd :=
  match e.op with
  | .copy h _ _ _ _ _ _ (some r) =>
    if r.die = p ∧ e.stage = 2 ∧ e.fail.isNone ∧ e.deliv < h.total + (if r.flag.isSome then 1 else 0) then
      { e with fail := some (if e.deliv < h.total then e.deliv else 0xFFFFFFFF, 3, 0) }
    else e
  | _ => e

/-- A die loses what it holds: caches, queues, tasks, registers (R8, R479). -/
def emptyDie (s : State) (p : Nat) : State :=
  let s := clearCaches (ackAll s p) p
  if 16 ≤ p then undoTiles s (p - 16)
  else
    let d := s.die p
    let gtis := ((s.ctxs.filter fun e => dieOf e.1 == p).filterMap fun e => e.2.task.map (·.gti))
      ++ (d.ready ++ d.pending.map (·.2) ++ d.parked ++ d.stopped.map (·.task)).map (·.gti)
    let s := gtis.foldl (fun s g => dropTimelines s (g.toNat * 2 + 1)) s
    let s := zeroRange s (2 ^ 52 + p * 2 ^ 25) (2 ^ 25)
    { s with
      ctxs := s.ctxs.filter fun e => dieOf e.1 != p
      cores := (s.cores.filter fun e => coreDie e.1 != p).map fun (e : Nat × Core) =>
        (e.1, { e.2 with claims := e.2.claims.filter fun x => !gtis.contains x.1 })
      clus := (s.clus.filter fun e => e.1 / 64 != p).map fun (e : Nat × Cluster) =>
        (e.1, { e.2 with attached := e.2.attached.filter fun a => dieOf a.1 != p })
      dies := (Sparse.set s.dies p d.emptied).map fun (e : Nat × Die) =>
        (e.1, { e.2 with
          copyq := e.2.copyq.filter fun id => s.cmds.any fun (y : EngCmd) => y.id == id && coreDie y.core != p
          replies := e.2.replies.filter fun (r : Nat × List (BitVec 16 × Reply × BitVec 6)) => dieOf r.1 != p })
      io := Sparse.drop s.io p
      lanes := s.lanes.map fun (e : Nat × Lane) => (e.1, { e.2 with entrants := e.2.entrants.filter fun x => dieOf x.c != p })
      cmds := (s.cmds.filter fun e => coreDie e.core != p).map fun e => e.queueGone p
      tls := s.tls.filter fun e => e.1 / 8 % 2 == 1 || dieOf (e.1 / 16) != p
      net := s.net.filter fun m => match m.2 with
        | .word k _ _ _ _ _ _ _ => coreDie k != p
        | .post k _ => coreDie k != p
        | .amsg a => a.die != p
        | .sig r => r.die != p && dieOf r.c != p
        | .atomic r => r.engine != p && dieOf r.c != p
        | .entry e => dieOf e.c != p
        | _ => true }

/-- From reset the monitor pair of a compute die runs in lockstep (R288). -/
def monitorPair (s : State) (p : Nat) : State :=
  if p < 8 then s.modCore (p * 512 + 262) fun k => { k with bridle := some { due := true } } else s

/-- DIECTL RST (R479): a die that is stopped, lost or failed comes up again, empty and in no partition. -/
def dieReset (s : State) (p : Nat) : State :=
  let st := (s.dieCtl p).state
  if !(decide (p < 10) || (decide (16 ≤ p) && decide (p < 24))) || !(st == 2 || st == 3 || st == 4) then s
  else
    let s := emptyDie s p
    let s := { s with
      dies := s.dies.map fun (e : Nat × Die) => (e.1, { e.2 with lost := e.2.lost &&& ~~~ ((1 : BitVec 32) <<< p) })
      sec := { s.sec with
        pmap := if p < 8 then Sparse.drop s.sec.pmap p else s.sec.pmap
        hcmap := s.sec.hcmap.filter fun e => coreDie e.1 != p } }
    (monitorPair s p).modCtl p fun d => { d with state := 1, reason := 0, stoppc := 0 }

/-- DIE_RESET: only the custodian maps DIECTL. -/
def execDieReset (p : Nat) (who : Writer) (w : Word) (s : State) : Out :=
  .next (if who.custodian ∧ w.getLsbD 63 then dieReset s p else s)

/-- Every die loses what it holds; memory, the devices and the safe tier keep theirs. -/
def emptyModule (s : State) : State :=
  let s := (List.range 8).foldl undoTiles s
  let s := zeroRange s (2 ^ 52) (2 ^ 29)
  { State.reset with
    agenda := s.agenda, cur := 8 * 4096, fresh := s.fresh, next := s.next, mem := s.mem, writes := s.writes, poison := s.poison
    saved := s.saved, devout := s.devout, supply := s.supply, sec := { draws := s.sec.draws } }

/-- The dies of the package. -/
def allDies : List Nat := List.range 10 ++ (List.range 8).map (16 + ·)

/-- MODULE_RESET (R477 steps 1 to 5): the custodian is entered on context 0 of core 0 of HD0 if the image is good. -/
def execModuleReset (s : State) : Out :=
  if !s.supply then .next s
  else
    let s := { emptyModule s with up := true }
    if Config.firmwareGood then
      let s := allDies.foldl (fun s d => (monitorPair s d).modCtl d fun x => { x with state := 1 }) s
      let s := { s with sec := { s.sec with device := Config.firmware } }
      .next (s.setCtx (8 * 4096) {
        run := .running, level := .custodian, pc := Config.custodianEntry, ident := { custodian := true, part := 0xFF, world := false } })
    else .next (s.modCtl 8 fun x => { x with state := 4, reason := 2 })

/-- THERMAL_TRIP (R480): the die enters reset with REASON 3. -/
def execThermalTrip (die : Nat) (s : State) : Out :=
  .next (if die < 10 ∨ (16 ≤ die ∧ die < 24) then (emptyDie s die).modCtl die fun d => { d with state := 0, reason := 3, stoppc := 0 } else s)

/-- SUPPLY_UNDERVOLTAGE (R480): every die is held in reset. -/
def execSupplyUndervoltage (s : State) : Out := .next { emptyModule s with supply := false, up := false }

/-- SUPPLY_RESTORED (R480): the dies are released, and bring-up follows. -/
def execSupplyRestored (s : State) : Out := .next { s with supply := true }

end Sys2Proof.Machine
end

