-- ==== Sys2Proof/Machine/Fetch.lean ====
section
/-! DEFINITION. What stands around an instruction's meaning in a step: whether its context issues, the fetch and
decoding of R57 steps 1 to 7, the passing of time, and which agent acts when nothing says which (R100). -/

namespace Sys2Proof.Machine

/-- What the issue of a context comes to: an instruction to execute, or a state in which none issued. -/
inductive Fetched where
  | go (i : Instr)
  | done (s : State)
deriving DecidableEq, Repr

/-- The trap of a word that is no instruction (R58). -/
def illegalTrap (e : Illegal) (w2 : BitVec 32) : Trap :=
  { cause := 0x01, val := BitVec.ofNat 64 (e.reason.toNat * 2 ^ 32 + w2.toNat) }

/-- The bytes of an instruction at a physical address; device memory gives what it gives (R269). -/
def fetchBytes (s : State) (pa n : Nat) : List Byte :=
  match region pa with
  | .mmio => (List.range n).map fun j => (Config.mmioRead (s.fresh + j)).setWidth 8
  | _ => homeBytes s pa n

/-- R57 step 2 on the bytes `n` at a virtual address: translation, place, and for each of their lines poison, a lost
home, custody, and its tag (R285, R286, R432, R451). -/
def fetchPart (s : State) (c : Nat) (va : Word) (n : Nat) : Res (List Byte) := do
  let x := s.ctx c
  let t ← translate s c va 2
  placeCheck s va t.1 n 2 false
  let lines := lineAddrs t.1 n
  ask (!lines.any (readHeld s c)) .stall
  let lost (l : Nat) : Bool := (s.die (dieOf c)).lost.getLsbD (homeDie s l) || poisoned s l
  let bad (f : Nat → Bool) (cause : BitVec 8) : Res Unit :=
    match lines.find? f with
    | some l => .error (.trap { cause := cause, val := x.pc, aux := BitVec.ofNat 64 l })
    | none => .ok ()
  bad lost 0x25
  bad (fun l => !homeRights s x.ident l) 0x41
  ask (badLine s lines).isNone .stall
  pure (fetchBytes s t.1 n)

/-- A line of a context's next instruction whose tag fails, where nothing else stands before it (R446, R451). -/
def fetchFails (s : State) (c : Nat) : Option Nat :=
  let pc := (s.ctx c).pc
  let first := min 12 (4096 - pc.toNat % 4096)
  let lines (va : Word) (n : Nat) : List Nat :=
    match translate s c va 2 with
    | .ok t => (lineAddrs t.1 n).filter fun l => homeRights s (s.ctx c).ident l && !readHeld s c l
    | .error _ => []
  badLine s (lines pc first ++ lines (pc + BitVec.ofNat 64 first) (12 - first))

/-- Fetches and decodes the instruction at a context's pc (R5, R57 steps 1 to 7, R60). -/
def fetchDecode (s : State) (c : Nat) : Res Instr := do
  let pc := (s.ctx c).pc
  trapIf (decide (pc.toNat % 4 ≠ 0)) 0x03 pc
  let first := min 12 (4096 - pc.toNat % 4096)
  let lo ← fetchPart s c pc first
  let hi ← if first = 12 then pure [] else fetchPart s c (pc + BitVec.ofNat 64 first) (12 - first)
  match decodeBytes (kindOf c) (lo ++ hi) with
  | .ok i => pure i
  | .error e => .error (.trap (illegalTrap e ((lo ++ hi).take 4 |> ofBytes |> BitVec.ofNat 32)))

/-- Whether a context issues: it runs, or it is blocked and tries its instruction again (R45). -/
def issues (r : RunState) : Bool := match r with | .running | .blocked _ _ => true | _ => false

/-- The context when the first of its pending traps is taken: in place, the others wait for the handler's return
(R229); on a compute core they go with the task. -/
def putOff (c : Nat) (x : Context) (r : List Trap) : Context :=
  if kindOf c = .compute then { x with pend := r }
  else { x with pend := [], later := x.later ++ r.map fun t => (x.level, t) }

/-- Takes the lowest pending asynchronous trap, abandoning a blocked instruction that has not left the core
(R227, R229, R233). Bit 4 of the latch stays set. -/
def takeAsync (s : State) (c : Nat) : State :=
  match (s.ctx c).pend with
  | [] => s
  | t :: r => if settled s c then takeTrap (abandonListen (s.modCtx c fun x => putOff c x r) c) c t else s

/-- Whether a pending trap waits: the instruction has left the core, and is taken with its context only by a
switch-out (R233, R298, R437). -/
def awaitsReply (s : State) (c : Nat) : Bool :=
  let x := s.ctx c
  holdsOut x || (x.outst != 0 && !x.acked && kindOf c != .compute)

/-- A plain load past an unresolved branch joins the order buffer (R102); anything else waits for the branch. -/
def guessLoad (s : State) (c : Nat) (p : Spec) : State :=
  let x := s.ctx c
  match fetchDecode s c with
  | .ok (.ld o) =>
    match o.d with
    | .g i =>
      if o.h.guard.p != 0 || o.h.guard.neg || x.pendG i || x.pendG o.a || (fetchStop s c).isSome then s
      else
        let n := o.ty.bytes
        match access s c o.a (o.off.signExtend 64)
            { n := n, align := n, perm := permLd, kind := 0, lock := true, plain := true, brk := some false } with
        | .ok a =>
          if a.bypasses || a.volatile || !queued c a.pa then s
          else (lobPush s c (.load [a] (.scalar i o.ty))).modCtx c fun x => { x with
            pc := x.pc + 12, spec := some { p with olds := (i, x.reg i) :: p.olds } }
        | .error _ => s
    | _ => s
  | _ => s

/-- The turn of a context past an unresolved branch: once the sources are known the branch and the loads retire, or the
loads are discarded (R102). -/
def guessTurn (s : State) (c : Nat) (p : Spec) : State :=
  let x := s.ctx c
  let word (v : Src) : Word := match v with | .g i => x.low i | _ => 0
  if x.pendSrc [p.brc.a, p.brc.b] then guessLoad s c p
  else if holds p.brc.cond (ext p.brc.ty (word p.brc.a)) (ext p.brc.ty (word p.brc.b)) = p.taken then
    (List.range (p.olds.length + 1)).foldl (fun s _ => retireAt s c x.pc) (s.modCtx c fun x => { x with spec := none })
  else squash s c

/-- What the turn of a context comes to (R57, R100, R227): traps and requests first, an acknowledged write before them, and
a held product, which has issued (R404). -/
def fetchInstr (s : State) (c : Nat) : Fetched :=
  let x := s.ctx c
  if !issues x.run then .done s
  else if !x.pend.isEmpty && x.outst != 0 && x.acked then .done (awaitAck s c)
  else if !x.pend.isEmpty && !awaitsReply s c && !x.mheld then .done (takeAsync s c)
  else if x.request.isSome && !holdsOut x && !x.mheld && stoppable s c then
    .done ((abandonListen (giveBack (squash s c) c) c).modCtx c fun x => { x with
      run := .leaving (x.request.getD 2), sent := false, reply := none, oflags := if x.outst = 0 then 0 else x.oflags })
  else if 2 ≤ x.vq.length then .done s
  else if let some p := x.spec then .done (guessTurn s c p)
  else
    match fetchDecode s c with
    | .ok i => .go i
    | .error .stall => .done (match fetchFails s c with | some l => sealFailure s c l | none => s)
    | .error h => .done (settle s c h)

/-- The clock of a die's cores in MHz: what the power manager has set, else the nominal clock (R30, R470). -/
def clockMhz (s : State) (die : Nat) : Nat :=
  let set := (s.dieCtl die).mhz.toNat
  if set ≠ 0 then set else if 8 ≤ die then Config.hostMhz else 2000

/-- Time passes (R30); contexts that are blocked count toward event 0x03 (R152). -/
def passTime (s : State) (n : Nat) : State :=
  let blocked := s.ctxs.filter fun e => match e.2.run with | .blocked _ _ => true | _ => false
  let s := blocked.foldl (fun s e =>
    countEvent s (coreOf e.1) 3 (n * clockMhz s (dieOf e.1) / 1000)) s
  { s with time := s.time + BitVec.ofNat 64 n }

/-- The event that may move a message in flight. -/
def netEvent (m : Nat × NetMsg) : Instr :=
  match m.2 with
  | .word .. => .wordArrival m.1
  | .wordAck .. => .mailboxAcknowledgement m.1
  | .post .. => .postedStoreArrival m.1
  | .amsg _ => .activeMessageArrival m.1
  | .amsgAck .. => .amsgAcceptance m.1
  | .atomic _ => .performAtomic m.1
  | .atomReply .. => .atomicReply m.1
  | .sig _ => .tsigPerform m.1
  | .done .. => .doneMessageArrival m.1
  | .lapse .. => .forwardingLapse m.1
  | .entry e => .beaconEntryArrival e.c

/-- The event that may move an entry of a context's order buffer. -/
def lobEvent (c : Nat) (e : LobEntry) : List Instr :=
  match e.op with
  | .load .. => [.performLoad c e.id]
  | .store .. => [.enqueueStore c e.id, .send c e.id]
  | .fence .. => [.fenceComplete c e.id]
  | .post _ | .atomic _ | .signal _ | .cmd .. => [.send c e.id]
  | .readSibling .. => []
  | .unverified _ => [.tagCheckComplete c e.id true]

/-- The effect of a command the model tries next. -/
def nextEffect (e : EngCmd) : Nat :=
  match e.op with
  | .copy .. => e.deliv
  | _ => ((List.range (e.done.length + 1)).find? fun k => !e.done.contains k).getD 0

/-- Steps other than issue that the machine may take next, as the model tries them when its agenda is empty:
engines, messages, the store queue and the order buffer of the context that acts, its vector and matrix queues,
its walk, its switch-out, work for it while it is free, actors, invalidations and monitor traps (R100). -/
def candidates (s : State) : List Instr :=
  let c := s.cur
  let x := s.ctx c
  (s.cmds.flatMap fun e => [.copyrQueueArrival e.id, .enginePerform e.id (nextEffect e) false, .engineComplete e.id, .copyCompletionReport e.id])
    ++ s.net.map netEvent
    ++ ((s.clu (clusterOf c)).csq.take 1).map (fun e => .drain (clusterOf c) e.id)
    ++ x.lob.flatMap (lobEvent c)
    ++ s.bases.flatMap (fun b => b.2.revokes.map fun r => .custodyTransactionComplete r.frame)
    ++ s.lanes.flatMap (fun l =>
        if l.2.present || l.2.bindBit then [.beaconFrameEnd l.1]
        else if !l.2.due && l.2.staged.isEmpty && l.2.entrants.isEmpty then [] else [.beaconArmPoint l.1])
    ++ (if x.vq.isEmpty then [] else [.vectorInstructionComplete c])
    ++ (if (s.core (coreOf c)).matrix.queue.isEmpty then [] else [.matrixInstructionComplete (coreOf c)])
    ++ (if x.walk.isSome then [.pageWalk c] else [])
    ++ (match x.run with
        | .leaving _ | .saved .. => [.switchOut c]
        | .blocked (.banks ..) _ => [.bankModeSet c]
        | .free => [.taskDispatch c, .handlerDispatch c, .tenderServe c]
        | _ => [])
    ++ s.actors.map (fun a => .actorFiring a.1)
    ++ s.invals.flatMap (fun v => v.waiting.map fun d => .invalidationAck d v.id)
    ++ (s.dies.filter fun d => !d.2.monitor.isEmpty).map fun d => .monitorTrapDelivery d.1

end Sys2Proof.Machine
end

