-- ==== Sys2Proof/Machine/Fp.lean ====
section
/-! DEFINITION. Scalar floating point (R193 to R198). -/

namespace Sys2Proof.Machine

def fmtOfFp (t : FpTy) : Fmt := match t with | .f32 => fF32 | .bf16 => fBf16 | .f16 => fF16

/-- The value in the low bits of a word (R165). -/
def fpArg (f : Fmt) (w : Word) : FVal := f.decode (w.toNat % 2 ^ f.width)

/-- A floating-point result as the word R165 writes. -/
def fpOut (r : Nat × FpFlags) : Word × FpFlags := (BitVec.ofNat 64 r.1, r.2)

/-- An instruction of the shape of FADD (R195). -/
def fpOp2 (o : Fp2) (f : Fmt → RoundMode → FVal → FVal → Nat × FpFlags) : Nat → State → Res State :=
  scalarOp [o.a, o.b] o.d fun x ws =>
    let t := fmtOfFp o.ty
    fpOut (f t x.round (fpArg t (arg ws 0)) (fpArg t (arg ws 1)))

/-- R195. -/
def execFadd (o : Fp2) (s : State) : Out := run (.fadd o) o.h (fpOp2 o fpAdd) s
/-- R195. -/
def execFsub (o : Fp2) (s : State) : Out := run (.fsub o) o.h (fpOp2 o fun f m x y => fpAdd f m x y.neg) s
/-- R195. -/
def execFmul (o : Fp2) (s : State) : Out := run (.fmul o) o.h (fpOp2 o fpMul) s
/-- R195. -/
def execFdiv (o : Fp2) (s : State) : Out := run (.fdiv o) o.h (fpOp2 o fpDiv) s
/-- R196. -/
def execFfma (o : Fp3) (s : State) : Out :=
  run (.ffma o) o.h (scalarOp [o.a, o.b, o.c] o.d fun x ws =>
    let t := fmtOfFp o.ty
    fpOut (fpFma t x.round (fpArg t (arg ws 0)) (fpArg t (arg ws 1)) (fpArg t (arg ws 2)))) s
/-- R195. -/
def execFsqrt (o : Fp1) (s : State) : Out :=
  run (.fsqrt o) o.h (scalarOp [o.a] o.d fun x ws =>
    fpOut (fpSqrt (fmtOfFp o.ty) x.round (fpArg (fmtOfFp o.ty) (arg ws 0)))) s

/-- The floating-point format of an FCVT code, if it is one (R197). -/
def cvtFmt (t : CvtTy) : Option Fmt :=
  match t with
  | .f32 => some fF32 | .bf16 => some fBf16 | .f16 => some fF16 | .e4m3 => some fE4m3 | .e5m2 => some fE5m2
  | _ => none

/-- The value of an FCVT source (R197). -/
def cvtSource (t : CvtTy) (w : Word) : FVal :=
  match t with
  | .i32 => FVal.ofInt (w.setWidth 32).toInt
  | .i64 => FVal.ofInt w.toInt
  | .n64 => FVal.ofInt w.toNat
  | t => fpArg ((cvtFmt t).getD fF32) w

/-- FCVT's result (R139, R140, R197). -/
def cvtResult (t : CvtTy) (mode : RoundMode) (v : FVal) : Word × FpFlags :=
  match t with
  | .i32 => let r := toIntRange (-2 ^ 31) (2 ^ 31 - 1) mode v; (BitVec.ofInt 64 r.1, r.2)
  | .i64 => let r := toIntRange (-2 ^ 63) (2 ^ 63 - 1) mode v; (BitVec.ofInt 64 r.1, r.2)
  | .n64 => let r := toIntRange 0 (2 ^ 64 - 1) mode v; (BitVec.ofInt 64 r.1, r.2)
  | t => fpOut (((cvtFmt t).getD fF32).convert mode false v)

/-- R197. -/
def execFcvt (o : FcvtOps) (s : State) : Out :=
  run (.fcvt o) o.h (scalarOp [o.a] o.d fun x ws => cvtResult o.dst x.round (cvtSource o.src (arg ws 0))) s

/-- R198. -/
def execFcmp (o : FcmpOps) (s : State) : Out :=
  run (.fcmp o) o.h (predOp [o.a, o.b] o.p fun _ ws =>
    let t := fmtOfFp o.ty
    fpCompare o.cond (fpArg t (arg ws 0)) (fpArg t (arg ws 1))) s

end Sys2Proof.Machine
end

