-- ==== Sys2Proof/Machine/Memory.lean ====
section
/-! DEFINITION. Loads, stores, fences, posted stores, the journal, mailbox waits and active messages: what each
does at Issue (R200 to R215). What becomes of an issued entry stands in `Ordering`. -/

namespace Sys2Proof.Machine

/-- The offset of Form M (R200). -/
def offM (x : BitVec 43) : Word := x.signExtend 64

/-- Whether a context's load from an address is a load from another die (R161). DESIGN CHOICE (log 62): the scratchpads
and windows of other dies, CXL memory behind a host die and memory-mapped I/O are; HBM and the own die's clusters and
window are not. -/
def outsidePair (c pa : Nat) : Bool :=
  match region pa with
  | .hbm _ _ => false
  | .scratch cl _ => cl / 64 != dieOf c
  | .window d _ => d != dieOf c
  | _ => true

/-- On a pair, an instruction that reads outside it ends the checkpoint interval (R161). -/
def pairLeaves (s : State) (c : Nat) (pa : Nat) : Res State :=
  if (s.core (coreOf c)).bridle.isSome && outsidePair c pa then do
    let t ← mustCheckpoint s c
    pure (replied t c)
  else .ok s


/-- Whether a load's own instruction takes its bytes: it writes a queue or port, or it is a volatile load of a task
under replay (R165, R474). -/
def takesBytes (s : State) (c : Nat) (d : Dst) (vol : Bool) : Bool :=
  (match d with | .g _ => false | _ => true) || (vol && (replayOf s c).isSome)

/-- A load enters the order buffer for its own instruction, whose context waits for what it gives (R100, R165). -/
def askLoad (s : State) (c : Nat) (a : Acc) (lock : Bool) (d : Dst) : State :=
  blockOn ((lobPush s c (.load [a] (.reply lock))).modCtx c fun x => { x with sent := true, reply := none }) c (.load a.volatile d)

/-- The later turns of such an instruction: whether the page was volatile, what the load has given, and the state after
the wait; it waits on while the load has yet to perform or the destination has no room (R45, R46, R165). None: the
instruction's first turn. -/
def gotLoad (s : State) (c : Nat) (d : Dst) : Option (Res (Bool × Word × State)) :=
  match (s.ctx c).run with
  | .blocked (.load vol e) _ => some do
    match (s.ctx c).reply with
    | some (.ok w) =>
      ask (!(outward (some d) && s.unchecked c)) .stall
      ask (operandsReady s c [] (some d) && !givesWay s c [] (some d)) (.block (.load vol e))
      pure (vol, w, s.modCtx c fun x => { x with sent := false, reply := none })
    | _ => .error (.block (.load vol e))
  | _ => none

/-- The word a load of a type writes (R203). -/
def loadWord (t : IntTy) (b : List Byte) : Word := BitVec.ofInt 64 (ext t (BitVec.ofNat 64 (ofBytes b)))

/-- A load of a type into a general register, which its entry in the order buffer writes, or through its own
instruction; `fin` is what follows it at the instruction's retirement (R203). -/
def loadBody (ty : IntTy) (d : Dst) (r : BitVec 6) (off : BitVec 43) (fin : State → State) (c : Nat) (s : State) : Res State :=
  match if takesBytes s c d true then gotLoad s c d else none with
  | some got => do
    let (vol, w, s) ← got
    let b := toBytes ty.bytes w.toNat
    pure (fin (putWord (if vol then capture s c 6 0 b else s) c d (loadWord ty b)))
  | none => do
    let n := ty.bytes
    let _ ← regOf s c r
    let a ← access s c r (offM off) { n := n, align := n, perm := permLd, kind := 0, lock := true, plain := true, brk := some false }
    let s ← pairLeaves s c a.pa
    let (_, s) ← sources s c [] (some d)
    if takesBytes s c d a.volatile then
      match ← (if a.volatile then replayed s c 6 else pure none) with
      | some (b, s) => pure (fin (putWord s c d (loadWord ty b)))
      | none => pure (askLoad s c a false d)
    else
      match d with
      | .g i => pure (fin (lobPush s c (.load [a] (.scalar i ty))))
      | _ => pure (fin s)

/-- R203. -/
def execLd (o : LdOps) (s : State) : Out :=
  run (.ld o) o.h (fun c s => loadBody o.ty o.d o.a o.off (fun s => retire s c) c s) s

/-- LDACQ: the load, then an acquire fence of its scope (R109, R204). -/
def execLdacq (o : LdacqOps) (s : State) : Out :=
  run (.ldacq o) o.h (fun c s => do
    let s ← pairFence s c o.scope
    loadBody o.ty o.d o.a o.off (fun s => retire (lobPush s c (.fence .acq o.scope)) c) c s) s

/-- A store of its low bytes; one whose general register is not yet known enters the order buffer without it (R100,
R203). -/
def storeBody (ty : IntTy) (r : BitVec 6) (b : Src) (off : BitVec 43) (c : Nat) (s : State) : Res State := do
  let n := ty.bytes
  let _ ← regOf s c r
  let a ← access s c r (offM off) { n := n, align := n, perm := permSt, kind := 1, lock := true, plain := true, brk := some true }
  let s ← gateRoom s c
  match b with
  | .g i =>
    let x := s.ctx c
    let o := LobOp.store [(a, toBytes n (x.low i).toNat)] none none (gtiOf x)
    pure (lobAppend s c (o.withMarks (clusterOf c)) (if x.pendG i then some i else none))
  | _ =>
    let (ws, s) ← sources s c [b] none
    pure (lobPush s c (.store [(a, toBytes n (arg ws 0).toNat)] none none (gtiOf (s.ctx c))))

/-- R203. -/
def execSt (o : StOps) (s : State) : Out :=
  run (.st o) o.h (fun c s => do pure (retire (← storeBody o.ty o.a o.b o.off c s) c)) s

/-- STREL: a release fence of its scope, then the store (R109, R204). -/
def execStrel (o : StrelOps) (s : State) : Out :=
  run (.strel o) o.h (fun c s => do
    let s ← pairFence s c o.scope
    let s ← storeBody o.ty o.a o.b o.off c (lobPush s c (.fence .rel o.scope))
    pure (retire s c)) s

/-- LDC (R205): the tag is stripped when A lacks ldc. -/
def execLdc (o : CapMem) (s : State) : Out :=
  run (.ldc o) o.h (fun c s => do
    let g ← regOf s c o.a
    let a ← access s c o.a (offM o.off) { n := 16, align := 16, perm := permLd, kind := 0, lock := true, brk := some false }
    let s ← pairLeaves s c a.pa
    ask (!(s.ctx c).pendG o.r) .stall
    pure (retire (lobPush s c (.load [a] (.cap o.r (g.cap.perm.getLsbD 3)))) c)) s

/-- STC (R205): a tagged register needs stc, and outside scratchpads its own global permission. -/
def stcBody (o : CapMem) (c : Nat) (s : State) : Res State := do
  let _ ← regOf s c o.a
  let b ← regOf s c o.r
  let ea := (s.ctx c).low o.a + offM o.off
  let a ← access s c o.a (offM o.off)
    { n := 16, align := 16, perm := if b.tag then permSt ||| permStc else permSt, kind := 1, lock := true, brk := some true }
    (fun pa => trapIf (b.tag && !isScratch pa && !b.cap.perm.getLsbD 11) 0x06 ea (capAux permGlobal o.r))
  let s ← gateRoom s c
  pure (lobPush s c (.store [(a, toBytes 16 b.bits.toNat)] (some b.tag) none (gtiOf (s.ctx c))))

def execStc (o : CapMem) (s : State) : Out :=
  run (.stc o) o.h (fun c s => do pure (retire (← stcBody o c s) c)) s

/-- LDTG's access to the lock of a granule (R206). -/
def ldtgBody (o : LdtgOps) (c : Nat) (s : State) : Res State :=
  match if takesBytes s c o.d false then gotLoad s c o.d else none with
  | some got => do
    let (_, w, s) ← got
    pure (deliver s c o.d w)
  | none => do
    let _ ← regOf s c o.a
    let a ← access s c o.a (offM o.off) { n := 32, align := 32, perm := permLd, kind := 0, lock := false, brk := some false }
    let s ← pairLeaves s c a.pa
    let (_, s) ← sources s c [] (some o.d)
    match o.d with
    | .g i => pure (retire (lobPush s c (.load [a] (.lock i))) c)
    | d => pure (askLoad s c a true d)

/-- R206. -/
def execLdtg (o : LdtgOps) (s : State) : Out := run (.ldtg o) o.h (ldtgBody o) s

/-- STTG (R206): the lock, and under `.z` the 32 bytes with it. -/
def sttgBody (o : SttgOps) (c : Nat) (s : State) : Res State := do
  let _ ← regOf s c o.a
  let a ← access s c o.a (offM o.off) { n := 32, align := 32, perm := permSt ||| permSys, kind := 1, lock := false, brk := some true }
  let s ← gateRoom s c
  let (ws, s) ← sources s c [o.b] none
  let lock := if hasLock a.pa && !a.uncached then some ((arg ws 0).setWidth 4) else none
  pure (lobPush s c (.store [(a, if o.z then List.replicate 32 0 else [])] none lock (gtiOf (s.ctx c))))

def execSttg (o : SttgOps) (s : State) : Out :=
  run (.sttg o) o.h (fun c s => do pure (retire (← sttgBody o c s) c)) s

/-- PREF changes no value any load can return (R207). -/
def execPref (o : PrefOps) (s : State) : Out := run (.pref o) o.h (fun c s => .ok (retire s c)) s

/-- FENCE (R109). -/
def execFence (o : FenceOps) (s : State) : Out :=
  run (.fence o) o.h (fun c s => do
    let s ← pairFence s c o.scope
    pure (retire (lobPush s c (.fence o.kind o.scope)) c)) s

/-- PST (R210): an entry of the journal and of the order buffer. -/
def pstBody (o : StOps) (c : Nat) (s : State) : Res State := do
  let n := o.ty.bytes
  let _ ← regOf s c o.a
  let a ← access s c o.a (offM o.off) { n := n, align := n, perm := permSt ||| permRemote, kind := 1, lock := true, brk := some true }
  let k := s.core (coreOf c)
  match (List.range 32).find? fun j => (Sparse.get {} k.journal j : JEntry).state == 0 with
  | none => .error (.block .journal)
  | some j =>
    let s ← gateRoom s c
    let (ws, s) ← sources s c [o.b] none
    let x := s.ctx c
    let v := BitVec.ofNat 64 (ofBytes (toBytes n (arg ws 0).toNat))

    let s := lobAppend s c (checkMarks (clusterOf c) [a])
    let s := s.modCore (coreOf c) fun k => { k with
      journal := Sparse.set k.journal j { state := 1, c := c, ident := x.ident, acc := a, value := v, lid := (s.ctx c).nextId } }
    pure (lobPush s c (.post j))

/-- R210. -/
def execPst (o : StOps) (s : State) : Out :=
  run (.pst o) o.h (fun c s => do pure (retire (← pstBody o c s) c)) s

/-- The status word of a journal entry (R213). -/
def jrdStatus (e : JEntry) : Word :=
  if e.state = 0 then 0
  else packWord [(14, e.state), (12, ctxNo e.c), (8, e.acc.n.log2), (0, if e.state = 2 then e.reason.toNat else 0)]

/-- The journal entry a source names, as the context may see it (R213). -/
def jrdEntry (s : State) (c : Nat) (w : Word) : Res (Nat × JEntry) := do
  trapIf (decide (32 ≤ w.toNat)) 0x0D w
  let e : JEntry := Sparse.get {} (s.core (coreOf c)).journal w.toNat
  pure (w.toNat, if (s.ctx c).level == .task && e.c != c then {} else e)

/-- JRD's readings (R213). -/
def execJrd (o : JrdOps) (s : State) : Out :=
  run (.jrd o) o.h (fun c s => do
    let (ws, s) ← sources s c [o.a] (some o.d)
    let (_, e) ← jrdEntry s c (arg ws 0)
    let v := match o.sel with
      | .addr => if e.state = 0 then 0 else e.acc.ea
      | .data => if e.state = 0 then 0 else e.value
      | .stat => jrdStatus e
    pure (deliver s c o.d v)) s

/-- JRD `.clr`: a refused entry is freed (R213). -/
def execJrdClr (o : DstSrc) (s : State) : Out :=
  run (.jrdClr o) o.h (fun c s => do
    let (ws, s) ← sources s c [o.a] (some o.d)
    let (j, e) ← jrdEntry s c (arg ws 0)
    let s := if e.state = 2 then s.modCore (coreOf c) fun k => { k with journal := Sparse.drop k.journal j } else s
    pure (deliver s c o.d (jrdStatus e))) s

/-- The presence bits of a core (R48). -/
def presence (k : Core) : Nat := (List.range 32).foldl (fun a i => if (k.mail i).isSome then a + 2 ^ i else a) 0

/-- Whether MWAIT's wait ends (R209). -/
def mwaitEnds (all : Bool) (mask present : Nat) : Bool :=
  mask == 0 || (if all then present &&& mask == mask else present &&& mask != 0)

/-- MWAIT (R209). -/
def execMwait (o : MwaitOps) (s : State) : Out :=
  run (.mwait o) o.h (fun c s => do
    let (ws, s) ← holdWords s c [o.a] (some o.d)
    let mask := (arg ws 0).toNat % 2 ^ 32
    let p := presence (s.core (coreOf c))
    if !(mwaitEnds o.all mask p || replaying s c) then pure (blockOn s c .mwait)
    else
    let s ← useWords s c [o.a]
    ask (operandsReady s c [] (some o.d)) .stall
    let s := s.modCtx c fun x => { x with mbxmask := x.mbxmask ||| BitVec.ofNat 32 mask }
    let (w, s) ← outside s c 7 (BitVec.ofNat 64 p)
    pure (deliver s c o.d w)) s

/-- Argument registers, none of them pending (R214, R219, R263). -/
def argRegs (s : State) (c : Nat) (first count : Nat) : Res (List Reg) :=
  let regs := (List.range count).map fun j => BitVec.ofNat 6 (first + j)
  if regs.any fun i => (s.ctx c).pendG i then .error .stall else .ok (regs.map fun i => (s.ctx c).reg i)

/-- The compute die a die word names (R215, R22). -/
def amsgDie (s : State) (i : Ident) (w : Word) : Option Nat :=
  let l := (w.extractLsb' 16 5).toNat
  if i.custodian then (if l < 8 then some l else none)
  else match physDie s (partNo i) l with | some (d, false) => some d | _ => none

/-- AMSG (R215): after it has left, the context stays blocked until the handler queue accepts it. -/
def amsgBody (o : AmsgOps) (c : Nat) (s : State) : Res State := do
  let g ← regOf s c o.a
  let ea : Word := g.bits.setWidth 64
  let _ ← capCheck g o.a (permEx ||| permRemote) ea 12
  trapIf (decide (ea.toNat % 4 ≠ 0)) 0x0D ea
  let (ws, s) ← sources s c [o.b] none
  match amsgDie s (s.ctx c).ident (arg ws 0) with
  | none => .error (.trap { cause := 0x60, val := arg ws 0 })
  | some d =>
    let regs ← argRegs s c o.arg.toNat o.narg.toNat
    let s ← leaveNow s c .part
    let x := s.ctx c
    let m : ActMsg :=
      { die := d, c := c, gti := gtiOf x, entry := ea, words := regs.map fun r => r.bits.setWidth 64
        sender := (coreWord s x.ident (coreOf c)).setWidth 64, ident := x.ident, t0 := s.time.toNat % 2 ^ 48 }
    let (n, s) := s.new
    let s := { s with net := s.net ++ [(n, NetMsg.amsg m)] }
    pure (blockOn (s.modCtx c fun x => { x with outst := 2, acked := false }) c .amsgAccept)

/-- R215. -/
def execAmsg (o : AmsgOps) (s : State) : Out := run (.amsg o) o.h (amsgBody o) s

end Sys2Proof.Machine
end

