-- ==== Sys2Proof/Machine/Vector.lean ====
section
/-! DEFINITION. The vector engine (R351 to R378): what each instruction computes at Issue, and what it will write
when the engine finishes it. -/

namespace Sys2Proof.Machine

/-! Elements (R351). -/

/-- Element `k` of width `w`. -/
def velem (v : BitVec 2048) (w k : Nat) : Nat := v.toNat / 2 ^ (w * k) % 2 ^ w

/-- Whether the lane of element `k` is enabled. -/
def laneOn (g : Word) (w k : Nat) : Bool := g.getLsbD (k * w / 32)

/-- A register of elements of width `w`, element 0 lowest. -/
def vecOf (w : Nat) (l : List Nat) : BitVec 2048 := BitVec.ofNat 2048 (l.foldr (fun x a => x % 2 ^ w + 2 ^ w * a) 0)

/-- The enabled elements in ascending order (R368). -/
def enabled (g : Word) (w : Nat) : List Nat := (List.range (2048 / w)).filter (laneOn g w)

/-- A destination whose enabled elements `f` gives and whose others keep their values (R352), with the flags of
the enabled ones (R135). -/
def vmap (g : Word) (w : Nat) (old : BitVec 2048) (f : Nat → Nat × FpFlags) : BitVec 2048 × FpFlags :=
  let l := (List.range (2048 / w)).map fun k => if laneOn g w k then f k else (velem old w k, 0)
  (vecOf w (l.map (·.1)), l.foldl (fun (a : FpFlags) e => a ||| e.2) 0)

/-- The floating-point format of a vector type. -/
def vtyFmt (t : VTy) : Option Fmt :=
  match t with
  | .f32 => some fF32 | .bf16 => some fBf16 | .f16 => some fF16 | .e4m3 => some fE4m3 | .e5m2 => some fE5m2
  | _ => none

/-- Ext at the type's width (R163). -/
def vext (t : VTy) (x : Nat) : Int :=
  if t.isSigned && decide (2 ^ (t.width - 1) ≤ x) then (x : Int) - 2 ^ t.width else x

/-- Bounds of an integer vector type. -/
def vrange (t : VTy) : Int × Int :=
  if t.isSigned then (-(2 ^ (t.width - 1)), 2 ^ (t.width - 1) - 1) else (0, 2 ^ t.width - 1)

/-- An exact integer result, wrapped or clamped (R128, R355). -/
def vint (t : VTy) (sat : Bool) (r : Int) : Nat × FpFlags :=
  let (lo, hi) := vrange t
  let q := if sat then max lo (min hi r) else r
  ((q % (2 ^ t.width : Nat)).toNat, flagIf (q != r) flagOF)

/-! Issue (R353). -/

/-- Vector registers whose values are known; a pending one waits. -/
def vregs (s : State) (c : Nat) (l : List (BitVec 5)) : Res Unit := ask (!(l.any fun i => (s.ctx c).pendV i)) .stall

/-- An instruction joins the context's vector queue (R353). -/
def queueVec (s : State) (c : Nat) (p : VecPending) : Res State := do
  ask (decide ((s.ctx c).vq.length < 2)) .stall
  pure (retire (s.modCtx c fun x => { x with vq := x.vq ++ [{ p with lid := x.nextId }] }) c)

/-- Whether no vector load that a context issued before entry `id` of its order buffer waits to perform: destinations are
written in issue order (R353). -/
def Context.vloadsDone (x : Context) (id : Nat) : Bool :=
  x.lob.all fun e => match e.op with | .load _ (.vec _) => decide (id ≤ e.id) | _ => true

/-- Whether a performing vector load of a context is the oldest of its vector instructions (R353). -/
def Context.vecTurn (x : Context) (id : Nat) : Bool :=
  x.vloadsDone id && x.vq.all fun q => decide (id < q.lid)

/-- An instruction with a vector destination: `f` computes the register and the flags from the old value. -/
def vecOp (srcs : List (BitVec 5)) (d : BitVec 5) (f : Context → Word → BitVec 2048 → BitVec 2048 × FpFlags) (c : Nat) (g : Word)
    (s : State) : Res State := do
  vregs s c (d :: srcs)
  let x := s.ctx c
  let r := f x g (x.vreg d)
  queueVec s c { vec := [(d, r.1)], flags := r.2 }

/-- A scalar result of a vector instruction: a general register through the queue, another destination after
everything queued (R353). -/
def vecScalar (s : State) (c : Nat) (d : Dst) (w : Word) (f : FpFlags) : Res State :=
  match d with
  | .g i => queueVec s c { gen := [(i, w)], flags := f }
  | d => do
    ask ((s.ctx c).vecTurn (s.ctx c).nextId) .stall
    pure (deliver (raiseFlags s c f) c d w)

/-! Element-wise instructions (R357 to R362). -/

/-- A two-source instruction: `i` on exact integers, `f` on encodings. -/
def vbin (o : V2) (i : Int → Int → Int) (f : Fmt → RoundMode → Nat → Nat → Nat × FpFlags) : Nat → Word → State → Res State :=
  vecOp [o.a, o.b] o.d fun x g old =>
    let w := o.ty.width
    vmap g w old fun k =>
      let a := velem (x.vreg o.a) w k
      let b := velem (x.vreg o.b) w k
      match vtyFmt o.ty with
      | some m => f m x.round a b
      | none => vint o.ty o.sat (i (vext o.ty a) (vext o.ty b))

/-- R358. -/
def execVadd (o : V2) (s : State) : Out :=
  runVector (.vadd o) o.h (vbin o (· + ·) fun m r a b => fpAdd m r (m.decode a) (m.decode b)) s
/-- R358. -/
def execVsub (o : V2) (s : State) : Out :=
  runVector (.vsub o) o.h (vbin o (· - ·) fun m r a b => fpAdd m r (m.decode a) (m.decode b).neg) s
/-- R358. -/
def execVmul (o : V2) (s : State) : Out :=
  runVector (.vmul o) o.h (vbin o (· * ·) fun m r a b => fpMul m r (m.decode a) (m.decode b)) s
/-- R358. -/
def execVmin (o : V2) (s : State) : Out :=
  runVector (.vmin o) o.h (vbin o min fun m _ a b => fpMinMax m false a b) s
/-- R358. -/
def execVmax (o : V2) (s : State) : Out :=
  runVector (.vmax o) o.h (vbin o max fun m _ a b => fpMinMax m true a b) s

/-- R358: rounded once. -/
def execVfma (o : V3) (s : State) : Out :=
  runVector (.vfma o) o.h (vecOp [o.a, o.b, o.c] o.d fun x g old =>
    let w := o.ty.width
    vmap g w old fun k =>
      let a := velem (x.vreg o.a) w k
      let b := velem (x.vreg o.b) w k
      let c := velem (x.vreg o.c) w k
      match vtyFmt o.ty with
      | some m => fpFma m x.round (m.decode a) (m.decode b) (m.decode c)
      | none => vint o.ty o.sat (vext o.ty a * vext o.ty b + vext o.ty c)) s

/-- A one-source instruction on elements. -/
def vone (o : V1) (f : RoundMode → Nat → Nat × FpFlags) : Nat → Word → State → Res State :=
  vecOp [o.a] o.d fun x g old => vmap g o.ty.width old fun k => f x.round (velem (x.vreg o.a) o.ty.width k)

/-- R359. -/
def execVabs (o : V1) (s : State) : Out :=
  runVector (.vabs o) o.h (vone o fun _ a =>
    match vtyFmt o.ty with
    | some m => (a % 2 ^ (m.width - 1), 0)
    | none => vint o.ty o.sat (vext o.ty a).natAbs) s
/-- R359. -/
def execVneg (o : V1) (s : State) : Out :=
  runVector (.vneg o) o.h (vone o fun _ a =>
    match vtyFmt o.ty with
    | some m => (a ^^^ 2 ^ (m.width - 1), 0)
    | none => vint o.ty o.sat (-(vext o.ty a))) s

/-- The reciprocal square root of m·2^e, for m > 0. -/
def Mag.rsqrt (m : Nat) (e : Int) : Mag :=
  let l : Int := (m.log2 : Int) + e
  { lg := if m = 2 ^ m.log2 ∧ l % 2 = 0 then -(l / 2) else -(l / 2) - 1
    fl := fun q =>
      let k := -e - 2 * q
      let n := if 0 ≤ k then 2 ^ k.toNat else 1
      let d := if 0 ≤ k then m else m * 2 ^ (-k).toNat
      let r := isqrt (n / d)
      (r, decide (n % d ≠ 0) || decide (r * r ≠ n / d)) }

/-- Bits of the working precision of 2^f and log2. -/
def workBits : Nat := 256

/-- floor(2^f·2^256) to within 2^10, for f = n/2^k in [0,1): `r` is 2^(2^-j), one square root at a time. -/
def powFrac (n : Nat) : Nat → Nat → Nat → Nat
  | 0, _, acc => acc
  | k + 1, r, acc =>
    let r := isqrt (r * 2 ^ workBits)
    powFrac n k r (if n.testBit k then acc * r / 2 ^ workBits else acc)

/-- 2^(N + n/2^k) with n > 0: never exact. -/
def Mag.exp2 (N : Int) (n k : Nat) : Mag :=
  { lg := N
    fl := fun q =>
      let p := N - q
      if p < 0 then (0, true)
      else (powFrac n k (2 ^ (workBits + 1)) (2 ^ workBits) * 2 ^ p.toNat / 2 ^ workBits, true) }

/-- The first `n` binary digits of log2 of x/2^512, x in [2^512, 2^513). -/
def logDigits : Nat → Nat → Nat → Nat
  | 0, _, acc => acc
  | n + 1, x, acc =>
    let y := x * x / 2 ^ (2 * workBits)
    if 2 ^ (2 * workBits + 1) ≤ y then logDigits n (y / 2) (2 * acc + 1) else logDigits n y (2 * acc)

/-- Digits taken of a logarithm. -/
def logLen : Nat := 180

/-- |log2(m·2^e)| for m no power of two: never exact; the sign says whether it is negative. -/
def Mag.log2 (m : Nat) (e : Int) : Bool × Mag :=
  let i : Int := (m.log2 : Int) + e
  let g := logDigits logLen (m * 2 ^ (2 * workBits) / 2 ^ m.log2) 0
  let v : Int := i * 2 ^ logLen + g
  let n : Nat := if i < 0 then (-v - 1).toNat else v.toNat
  (decide (i < 0),
    { lg := (n.log2 : Int) - logLen
      fl := fun q => let k := q + logLen; if 0 ≤ k then (n / 2 ^ k.toNat, true) else (n * 2 ^ (-k).toNat, true) })

/-- VRCP (R360). -/
def vrcpOf (f : Fmt) (r : RoundMode) (v : FVal) : Nat × FpFlags :=
  match v with
  | .nan sg => (f.nanBits, flagIf sg flagNV)
  | .inf neg => (f.zero neg, 0)
  | .fin neg m e => if m = 0 then (f.infBits neg, flagDZ) else f.round (arithMode r) false neg (Mag.quot 1 m (-e))

/-- VRSQ (R360). -/
def vrsqOf (f : Fmt) (r : RoundMode) (v : FVal) : Nat × FpFlags :=
  match v with
  | .nan sg => (f.nanBits, flagIf sg flagNV)
  | .inf neg => if neg then (f.nanBits, flagNV) else (f.zero false, 0)
  | .fin neg m e =>
    if m = 0 then (f.infBits neg, flagDZ)
    else if neg then (f.nanBits, flagNV)
    else f.round (arithMode r) false false (Mag.rsqrt m e)

/-- VEXP2 (R360); an exponent beyond ±4096 overflows or underflows as ±4096 does. -/
def vexp2Of (f : Fmt) (r : RoundMode) (v : FVal) : Nat × FpFlags :=
  match v with
  | .nan sg => (f.nanBits, flagIf sg flagNV)
  | .inf neg => if neg then (f.zero false, 0) else (f.infBits false, 0)
  | .fin neg m e =>
    let k := (-e).toNat
    let x : Int := alignTo neg m (max e 0) 0
    let n : Int := if e < 0 then x / 2 ^ k else x
    let fr : Nat := if e < 0 then (x % 2 ^ k).toNat else 0
    f.round (arithMode r) false false (if fr = 0 then Mag.dyadic 1 (max (-4096) (min 4096 n)) else Mag.exp2 n fr k)

/-- VLOG2 (R360). -/
def vlog2Of (f : Fmt) (r : RoundMode) (v : FVal) : Nat × FpFlags :=
  match v with
  | .nan sg => (f.nanBits, flagIf sg flagNV)
  | .inf neg => if neg then (f.nanBits, flagNV) else (f.infBits false, 0)
  | .fin neg m e =>
    if m = 0 then (f.infBits true, flagDZ)
    else if neg then (f.nanBits, flagNV)
    else if m = 2 ^ m.log2 then f.convert (arithMode r) false (.ofInt ((m.log2 : Int) + e))
    else let g := Mag.log2 m e; f.round (arithMode r) false g.1 g.2

/-- A one-source instruction on floating-point values. -/
def vfloat (o : V1) (f : Fmt → RoundMode → FVal → Nat × FpFlags) : Nat → Word → State → Res State :=
  vone o fun r a => match vtyFmt o.ty with | some m => f m r (m.decode a) | none => (a, 0)

/-- R360. -/
def execVrcp (o : V1) (s : State) : Out := runVector (.vrcp o) o.h (vfloat o vrcpOf) s
/-- R360. -/
def execVrsq (o : V1) (s : State) : Out := runVector (.vrsq o) o.h (vfloat o vrsqOf) s
/-- R360. -/
def execVexp2 (o : V1) (s : State) : Out := runVector (.vexp2 o) o.h (vfloat o vexp2Of) s
/-- R360. -/
def execVlog2 (o : V1) (s : State) : Out := runVector (.vlog2 o) o.h (vfloat o vlog2Of) s

/-- The class of an element, as its bit (R362). -/
def classOf (m : Fmt) (a : Nat) : Nat :=
  let neg := a / 2 ^ (m.width - 1) % 2 == 1
  let e := a / 2 ^ m.mbits % 2 ^ m.ebits
  let fr := a % 2 ^ m.mbits
  match m.decode a with
  | .nan sg => if sg then 8 else 9
  | .inf n => if n then 0 else 7
  | .fin .. =>
    if e = 0 ∧ fr = 0 then (if neg then 3 else 4)
    else if e = 0 then (if neg then 2 else 5)
    else (if neg then 1 else 6)

/-- R362. -/
def execVclass (o : V1) (s : State) : Out :=
  runVector (.vclass o) o.h (vone o fun _ a =>
    match vtyFmt o.ty with | some m => (2 ^ classOf m a, 0) | none => (0, 0)) s

/-- A bitwise instruction over the enabled lanes (R361). -/
def vlogic (o : VLogic) (f : Nat → Nat → Nat) : Nat → Word → State → Res State :=
  vecOp [o.a, o.b] o.d fun x g old => vmap g 32 old fun k => (f (velem (x.vreg o.a) 32 k) (velem (x.vreg o.b) 32 k), 0)

/-- R361. -/
def execVand (o : VLogic) (s : State) : Out := runVector (.vand o) o.h (vlogic o fun a b => a &&& b) s
/-- R361. -/
def execVor (o : VLogic) (s : State) : Out := runVector (.vor o) o.h (vlogic o fun a b => a ||| b) s
/-- R361. -/
def execVxor (o : VLogic) (s : State) : Out := runVector (.vxor o) o.h (vlogic o fun a b => a ^^^ b) s

/-- A shift of elements by unsigned counts (R171, R361). -/
def vshift (o : V2) (f : Nat → Nat → Nat → Nat) : Nat → Word → State → Res State :=
  vecOp [o.a, o.b] o.d fun x g old =>
    let w := o.ty.width
    vmap g w old fun k => (f w (velem (x.vreg o.a) w k) (velem (x.vreg o.b) w k), 0)

/-- R361. -/
def execVshl (o : V2) (s : State) : Out :=
  runVector (.vshl o) o.h (vshift o fun w a n => if n < w then a * 2 ^ n % 2 ^ w else 0) s
/-- R361. -/
def execVshr (o : V2) (s : State) : Out :=
  runVector (.vshr o) o.h (vshift o fun w a n =>
    if o.ty.isSigned then ((vext o.ty a / 2 ^ min n (w - 1) : Int) % 2 ^ w).toNat
    else if n < w then a / 2 ^ n else 0) s

/-! Comparison and selection (R363, R364). -/

/-- The outcome of VCMP on two elements. -/
def vcompare (t : VTy) (cond : FCond) (a b : Nat) : Bool × FpFlags :=
  match vtyFmt t with
  | some m => fpCompare cond (m.decode a) (m.decode b)
  | none =>
    (match cond with
      | .eq => decide (vext t a = vext t b) | .lt => decide (vext t a < vext t b) | .le => decide (vext t a ≤ vext t b)
      | .un => false, 0)

/-- VCMP (R363). -/
def vcmpBody (o : VcmpOps) (c : Nat) (g : Word) (s : State) : Res State := do
  let w := o.ty.width
  vregs s c [o.a, o.b]
  let x := s.ctx c
  let out (k : Nat) : Bool × FpFlags := vcompare o.ty o.cond (velem (x.vreg o.a) w k) (velem (x.vreg o.b) w k)
  match o.d with
  | .vec d =>
    vregs s c [d]
    let r := vmap g w (x.vreg d) fun k => let r := out k; (if r.1 then 2 ^ w - 1 else 0, r.2)
    queueVec s c { vec := [(d, r.1)], flags := r.2 }
  | .pred p =>
    ask (!x.pendP p) .stall
    let on := enabled g 32
    let bits : Word := BitVec.ofNat 64 ((on.filter fun k => (out k).1).foldl (fun a k => a + 2 ^ k) 0)
    queueVec s c { pred := [(p, (x.pred p &&& ~~~ g) ||| bits)], flags := on.foldl (fun (a : FpFlags) k => a ||| (out k).2) 0 }

def execVcmp (o : VcmpOps) (s : State) : Out := runVector (.vcmp o) o.h (vcmpBody o) s

/-- VSEL (R364). -/
def vselBody (o : VselOps) (c : Nat) (g : Word) (s : State) : Res State := do
  let x := s.ctx c
  match o.c with
  | .vec v => vregs s c [v]
  | .pred p => ask (!x.pendP p) .stall
  vecOp [o.a, o.b] o.d (fun x g old => vmap g 32 old fun i =>
    let a := velem (x.vreg o.a) 32 i
    let b := velem (x.vreg o.b) 32 i
    match o.c with
    | .pred p => (if (x.pred p).getLsbD i then a else b, 0)
    | .vec v => let m := velem (x.vreg v) 32 i; ((a &&& m) ||| (b &&& (m ^^^ (2 ^ 32 - 1))), 0)) c g s

def execVsel (o : VselOps) (s : State) : Out := runVector (.vsel o) o.h (vselBody o) s

/-! Conversion (R365, R366). -/

def vcvtWidth (t : VcvtTy) : Nat := match t with | .f32 | .i32 => 32 | .bf16 | .f16 | .i16 => 16 | _ => 8
def vcvtFmt (t : VcvtTy) : Option Fmt :=
  match t with
  | .f32 => some fF32 | .bf16 => some fBf16 | .f16 => some fF16 | .e4m3 => some fE4m3 | .e5m2 => some fE5m2
  | _ => none

/-- cv of R366. -/
def vcvtOne (sf df : VcvtTy) (r : RoundMode) (a : Nat) : Nat × FpFlags :=
  let sw := vcvtWidth sf
  let dw := vcvtWidth df
  let n : Int := if a < 2 ^ (sw - 1) then a else (a : Int) - 2 ^ sw
  let lo : Int := -(2 ^ (dw - 1))
  let hi : Int := 2 ^ (dw - 1) - 1
  match vcvtFmt sf, vcvtFmt df with
  | some f, some d => d.convert r false (f.decode a)
  | some f, none => let v := toIntRange lo hi r (f.decode a); ((v.1 % 2 ^ dw).toNat, v.2)
  | none, some d => d.convert r false (.ofInt n)
  | none, none => let v := max lo (min hi n); ((v % 2 ^ dw).toNat, flagIf (v != n) flagOF)

/-- VCVT (R366). -/
def vcvtBody (o : VcvtOps) (c : Nat) (g : Word) (s : State) : Res State := do
  let (ws, s) ← sources s c [o.b] none
  let p := (arg ws 0).toNat
  let sw := vcvtWidth o.src
  let dw := vcvtWidth o.dst
  let f := max sw dw / min sw dw
  trapIf (decide (f ≤ p)) 0x0D (arg ws 0)
  let ms := 32 / sw
  let md := 32 / dw
  vecOp [o.a] o.d (fun x g old => vmap g dw old fun k =>
    let i := k / md
    let e := k % md
    let cv (j : Nat) : Nat × FpFlags := vcvtOne o.src o.dst x.round (velem (x.vreg o.a) sw (i * ms + j))
    if dw < sw then (if p * ms ≤ e ∧ e < p * ms + ms then cv (e - p * ms) else (velem old dw k, 0))
    else if sw < dw then cv (p * md + e)
    else cv e) c g s

def execVcvt (o : VcvtOps) (s : State) : Out := runVector (.vcvt o) o.h (vcvtBody o) s

/-! Across lanes (R367 to R371). -/

/-- The running FP32 values of R368 and R369, each with its flags. -/
def runF (m : Fmt) (step : Nat → Nat → Nat × FpFlags) : List Nat → Option Nat → List (Nat × FpFlags)
  | [], _ => []
  | x :: r, acc =>
    let v := fF32.convert .rne false (m.decode x)
    let n := match acc with | none => (v.1, (0 : FpFlags)) | some a => step a v.1
    (n.1, v.2 ||| n.2) :: runF m step r (some n.1)

/-- A reduction (R368). -/
def vreduce (o : VredOps) (i : Int → Int → Int) (f : RoundMode → Nat → Nat → Nat × FpFlags) (c : Nat) (g : Word) (s : State) :
    Res State := do
  vregs s c [o.a]
  ask (!(match o.d with | .g k => (s.ctx c).pendG k | _ => false)) .stall
  let (_, s) ← sources s c [] (some o.d)
  let x := s.ctx c
  let w := o.ty.width
  let es := (enabled g w).map (velem (x.vreg o.a) w)
  match vtyFmt o.ty with
  | some m =>
    let rs := runF m (f x.round) es none
    vecScalar s c o.d (BitVec.ofNat 64 ((rs.getLast?.map (·.1)).getD 0)) (rs.foldl (fun (a : FpFlags) r => a ||| r.2) 0)
  | none =>
    match es.map (vext o.ty) with
    | [] => pure (retire s c)
    | e :: r => vecScalar s c o.d (BitVec.ofInt 64 (r.foldl i e)) 0

def addF32 (r : RoundMode) (a b : Nat) : Nat × FpFlags := fpAdd fF32 r (fF32.decode a) (fF32.decode b)

/-- R368. -/
def execVredadd (o : VredOps) (s : State) : Out := runVector (.vredadd o) o.h (vreduce o (· + ·) addF32) s
/-- R368. -/
def execVredmax (o : VredOps) (s : State) : Out :=
  runVector (.vredmax o) o.h (vreduce o max fun _ a b => fpMinMax fF32 true a b) s

/-- The running sums of exact integers. -/
def runI : List Int → Int → List Int
  | [], _ => []
  | x :: r, a => (a + x) :: runI r (a + x)

/-- VSCAN (R369). -/
def execVscan (o : V1) (s : State) : Out :=
  runVector (.vscan o) o.h (vecOp [o.a] o.d fun x g old =>
    let w := o.ty.width
    let ks := enabled g w
    let es := ks.map (velem (x.vreg o.a) w)
    let rs : List (Nat × FpFlags) := match vtyFmt o.ty with
      | some m => (runF m (addF32 x.round) es none).map fun r =>
          if o.ty = .f32 then r
          else let v := m.convert (arithMode x.round) false (fF32.decode r.1); (v.1, r.2 ||| v.2)
      | none => (runI (es.map (vext o.ty)) 0).map (vint o.ty o.sat)
    vmap g w old fun k => match (ks.zip rs).find? fun e => e.1 == k with | some e => e.2 | none => (0, 0)) s

/-- R370. -/
def execVperm (o : V2) (s : State) : Out :=
  runVector (.vperm o) o.h (vecOp [o.a, o.b] o.d fun x g old =>
    let w := o.ty.width
    vmap g w old fun k =>
      let i := velem (x.vreg o.b) w k
      (if i < 2048 / w then velem (x.vreg o.a) w i else 0, 0)) s

/-- R370. -/
def execVbcast (o : VbcastOps) (s : State) : Out :=
  runVector (.vbcast o) o.h (fun c g s => do
    let (ws, s) ← sources s c [o.a] none
    vecOp [] o.d (fun _ g old => vmap g o.ty.width old fun _ => ((arg ws 0).toNat % 2 ^ o.ty.width, 0)) c g s) s

/-- VMOVG `.get` (R371). -/
def execVmovgGet (o : VgetOps) (s : State) : Out :=
  runVector (.vmovgGet o) o.h (fun c g s => do
    vregs s c [o.a]
    let (ws, s) ← sources s c [o.b] (some o.d)
    let k := arg ws 0 + o.imm.signExtend 64
    let w := o.ty.width
    trapIf (decide (2048 / w ≤ k.toNat)) 0x0D k
    if laneOn g w k.toNat then
      let e := velem ((s.ctx c).vreg o.a) w k.toNat
      vecScalar s c o.d (if o.ty.isInt then BitVec.ofInt 64 (vext o.ty e) else BitVec.ofNat 64 e) 0
    else pure (retire s c)) s

/-- VMOVG `.put` (R371). -/
def execVmovgPut (o : VputOps) (s : State) : Out :=
  runVector (.vmovgPut o) o.h (fun c g s => do
    vregs s c [o.d]
    let (ws, s) ← sources s c [o.a, o.b] none
    let k := arg ws 1 + o.imm.signExtend 64
    let w := o.ty.width
    trapIf (decide (2048 / w ≤ k.toNat)) 0x0D k
    if laneOn g w k.toNat then
      let old := (s.ctx c).vreg o.d
      let r := vecOf w ((List.range (2048 / w)).map fun j => if j = k.toNat then (arg ws 0).toNat % 2 ^ w else velem old w j)
      queueVec s c { vec := [(o.d, r)] }
    else pure (retire s c)) s

/-! Memory (R372 to R375). -/

/-- The checks of the enabled lanes in ascending order, and the data breakpoints once all have passed (R373, R467): `off` is a lane's offset from the register. -/
def vlanes (s : State) (c : Nat) (r : BitVec 6) (g : Word) (store : Bool) (off : Nat → Word) : Res (List Acc) := do
  let _ ← regOf s c r
  let as ← ((List.range 64).filter fun i => g.getLsbD i).mapM fun i => do
    let a ← access s c r (off i)
      { n := 4, align := 4, perm := if store then permSt else permLd, kind := if store then 1 else 0, lock := true }
    pure { a with lane := i }
  as.forM fun a => breakCheck s c a.ea 4 store
  pure as

/-- A register with the bytes of some lanes put in (R374). -/
def putLanes (old : BitVec 2048) (l : List (Nat × Nat)) : BitVec 2048 :=
  vecOf 32 ((List.range 64).map fun i => match l.find? fun e => e.1 == i with | some e => e.2 | none => velem old 32 i)

/-- Reads lanes at one moment, a location that several name once; the first lane refused gives its trap (R374). `got`
holds the locations read. -/
def readLanes (s : State) (c : Nat) (id : Nat) (i : Ident) (as : List Acc) (got : List (Nat × List Byte) := []) :
    Except Trap (List (Nat × Nat)) × State :=
  match as with
  | [] => (.ok [], s)
  | a :: r =>
    let one : Except Trap (List Byte) × State :=
      match got.find? fun e => e.1 == a.pa with
      | some e => (.ok e.2, s)
      | none => readAt (attach s c a.pa) c id i a
    match one with
    | (.error t, s) => (.error t, s)
    | (.ok b, s) =>
      match readLanes s c id i r ((a.pa, b) :: got) with
      | (.ok l, s) => (.ok ((a.lane, ofBytes b) :: l), s)
      | (.error t, s) => (.error t, s)

/-- A vector load of checked lanes (R374): an entry of the order buffer, or, for a volatile load under capture or
replay, performed at issue (R474, R475). -/
def vload (s : State) (c : Nat) (d : BitVec 5) (as : List Acc) : Res State := do
  vregs s c [d]
  let s ← as.foldlM (fun s a => pairLeaves s c a.pa) s
  if as.any (·.volatile) && (replayOf s c).isSome then
    ask ((s.ctx c).vecTurn (s.ctx c).nextId) .stall
    match ← replayed s c 6 with
    | some (b, s) =>
      let l := as.map fun a => (a.lane, ofBytes ((b.drop (4 * a.lane)).take 4))
      pure (retire (s.modCtx c fun x => x.setVreg d (putLanes (x.vreg d) l)) c)
    | none =>
      let x := s.ctx c
      ask (mayGo s c { id := x.nextId, op := .load as .now, ident := x.ident } && as.all fun a => !readHeld s c a.pa) .stall
      match readLanes s c x.nextId x.ident as with
      | (.ok l, s) =>
        let s := capture s c 6 0 ((List.range 64).flatMap fun i => toBytes 4 (((l.find? fun e => e.1 == i).map (·.2)).getD 0))
        pure (retire (s.modCtx c fun x => x.setVreg d (putLanes (x.vreg d) l)) c)
      | (.error t, s) => pure (retire (pendTrap s c t) c)
  else pure (retire (lobPush s c (.load as (.vec d))) c)

/-- VLD (R372 to R374). -/
def execVld (o : VldOps) (s : State) : Out :=
  runVector (.vld o) o.h (fun c g s => do
    vload s c o.d (← vlanes s c o.a g false fun i => o.off.signExtend 64 + BitVec.ofNat 64 (4 * i))) s

/-- VLDS (R372 to R374). -/
def execVlds (o : VldsOps) (s : State) : Out :=
  runVector (.vlds o) o.h (fun c g s => do
    let (ws, s) ← sources s c [o.b] none
    vload s c o.d (← vlanes s c o.a g false fun i => o.off.signExtend 64 + BitVec.ofNat 64 i * arg ws 0)) s

/-- The offset of an indexed lane (R372). -/
def indexOff (v : BitVec 2048) (sc : BitVec 2) (off : BitVec 35) (i : Nat) : Word :=
  off.signExtend 64 + BitVec.ofNat 64 (velem v 32 i * 2 ^ sc.toNat)

/-- VGATH (R372 to R374). -/
def execVgath (o : VgathOps) (s : State) : Out :=
  runVector (.vgath o) o.h (fun c g s => do
    vregs s c [o.b]
    vload s c o.d (← vlanes s c o.a g false (indexOff ((s.ctx c).vreg o.b) o.sc o.off))) s

/-- A vector store of checked lanes (R375). -/
def vstore (s : State) (c : Nat) (v : BitVec 5) (as : List Acc) : Res State := do
  vregs s c [v]
  let x := (s.ctx c).vreg v
  pushCmd s c (.vst (as.map fun a => (a, BitVec.ofNat 32 (velem x 32 a.lane)))) 4

/-- VST (R372, R373, R375). -/
def execVst (o : VstOps) (s : State) : Out :=
  runVector (.vst o) o.h (fun c g s => do
    vstore s c o.b (← vlanes s c o.a g true fun i => o.off.signExtend 64 + BitVec.ofNat 64 (4 * i))) s

/-- VSCAT (R372, R373, R375). -/
def execVscat (o : VscatOps) (s : State) : Out :=
  runVector (.vscat o) o.h (fun c g s => do
    vregs s c [o.b]
    vstore s c o.c (← vlanes s c o.a g true (indexOff ((s.ctx c).vreg o.b) o.sc o.off))) s

/-- R375: one lane of a vector store at its home. -/
def performLane (s : State) (die : Nat) (i : Ident) (e : Acc × BitVec 32) : Except Bad State :=
  enginePut s die i e.1.pa (toBytes 4 e.2.toNat)

/-- Reasons of R376. -/
def vstReason : Bad → Nat
  | .custody => 1 | .die => 2 | .orphan => 3 | .unbacked => 4 | .stopped => 5
  | _ => 1

end Sys2Proof.Machine
end

