-- ==== Sys2Proof/Machine/Host.lean ====
section
/-! DEFINITION. The outside of the host dies (R459 to R465) and the checkpoint to the safe tier (R476). -/

namespace Sys2Proof.Machine

/-! Ports (R459). -/

def modPort (s : State) (die n : Nat) (f : Port → Port) : State :=
  s.modHio die fun h => { h with ports := Sparse.set h.ports n (f (Sparse.get {} h.ports n)) }

/-- A write of PORTi: MODE and PART do not change while EN is 1; a MODE of 3 is ignored. -/
def writePort (s : State) (die n : Nat) (w : Word) : State :=
  modPort s die n fun p =>
    let m := w.extractLsb' 56 2
    if p.en then { p with en := w.getLsbD 63 }
    else { p with en := w.getLsbD 63, mode := if m = 3 then p.mode else m, part := w.extractLsb' 48 8 }

/-- PORT_LINK_STATE_CHANGE (R459): LSTAT takes one of its four values. -/
def execPortLinkStateChange (die n : Nat) (l : BitVec 8) (s : State) : Out :=
  .next (if (die = 8 ∨ die = 9) ∧ n < 2 ∧ l.toNat < 4 then modPort s die n fun p => { p with lstat := l } else s)

/-! CXL windows (R460 to R462). -/


def modWin (s : State) (die j : Nat) (f : CxlWin → CxlWin) : State :=
  s.modHio die fun h => { h with wins := Sparse.set h.wins j (f (winOf s die j)) }


/-- RLIM of a window. -/
def winLimit (w : CxlWin) : Nat := (w.b.extractLsb' 48 16).toNat

/-- Whether R460 ignores a write that sets EN. -/
def winRefused (s : State) (die j : Nat) (a : Word) : Bool :=
  let r := winRange a
  let port : Port := Sparse.get {} (s.hio die).ports (if a.getLsbD 61 then 1 else 0)
  r.2 == 0 || port.mode != 2
    || [8, 9].any fun h => (List.range 16).any fun k =>
        let o := winRange (winOf s h k).a
        !(h == die && k == j) && (winOf s h k).a.getLsbD 63 && decide (r.1 < o.1 + o.2) && decide (o.1 < r.1 + r.2)

/-- A write of word A; an enabled window starts with the limit RLIM. -/
def writeWinA (s : State) (die j : Nat) (w : Word) : State :=
  let a := w &&& 0xE0FFFFFFC0000FFF
  if a.getLsbD 63 then
    if winRefused s die j a then s
    else modWin s die j fun x => { x with a := a, limit := if x.a.getLsbD 63 then x.limit else winLimit x }
  else modWin s die j fun x => { x with a := a }

def writeWinB (s : State) (die j : Nat) (w : Word) : State := modWin s die j fun x => { x with b := w &&& 0xFFFFFFFFC0000000 }


/-- A store of a context was accepted at a CXL window's ordering point; the device has yet to acknowledge it (R98,
R108, R461). -/
def cxlAccepted (s : State) (c lid pa : Nat) : State :=
  match region pa with
  | .cxl =>
    match winAt s pa with
    | some (h, j) => modWin s h j fun w => { w with unacked := w.unacked ++ [(c, lid)] }
    | none => s
  | _ => s

/-- The limit a DevLoad sets for the next 10 µs, in whole GB/s, never below an eighth of RLIM (R462). -/
def newLimit (rlim cur : Nat) (load : BitVec 2) : Nat :=
  if rlim = 0 then cur
  else match load.toNat with
    | 0 => rlim
    | 1 => cur
    | 2 => max (cur * 3 / 4) ((rlim + 7) / 8)
    | _ => max (cur / 2) ((rlim + 7) / 8)

/-- CXL_RESPONSE (R462): DevLoad is recorded, its action stands for 10 µs, and the oldest store awaiting the
device is acknowledged. -/
def execCxlResponse (die j : Nat) (load : BitVec 2) (s : State) : Out :=
  if !((die == 8 || die == 9) && decide (j < 16) && (winOf s die j).a.getLsbD 63) then .next s
  else
    .next (modWin s die j fun w => { w with
      last := load, unacked := w.unacked.drop 1
      severe := if load = 3 ∧ w.severe ≠ BitVec.allOnes 32 then w.severe + 1 else w.severe
      limit := if w.till.isSome then w.limit else newLimit (winLimit w) w.limit load
      till := if w.till.isSome then w.till else some (s.time.toNat + 10000) })

/-- DEVLOAD_PERIOD_END (R462). -/
def execDevloadPeriodEnd (die j : Nat) (s : State) : Out :=
  .next (match (winOf s die j).till with
    | some t => if t ≤ s.time.toNat then modWin s die j fun w => { w with till := none } else s
    | none => s)

/-! Wide-area collectives (R464, R465). -/

def sessOf (s : State) (die n : Nat) : Session := Sparse.get {} (s.hio die).sess n
def modSess (s : State) (die n : Nat) (f : Session → Session) : State :=
  s.modHio die fun h => { h with sess := Sparse.set h.sess n (f (sessOf s die n)) }

/-- Units of values converted one at a time between two formats (R131, R334). -/
def convertAll (sf df : Nat) (units : Nat) (src scales : List Byte) : List Byte × List Byte :=
  let n := convUnit sf df
  let ws := codeBits sf * n / 8
  let ss := match codeBlock sf with | some (_, b) => b | none => 0
  let r := (List.range units).map fun u => convert sf df .rne n ((src.drop (u * ws)).take ws) ((scales.drop (u * ss)).take ss)
  (r.flatMap (·.1), r.flatMap (·.2.1))

/-- FP32 values encoded for the wire: codes, then scales. -/
def wireEncode (wire count : Nat) (f32 : List Byte) : List Byte :=
  let r := convertAll 8 wire (count / convUnit 8 wire) f32 []
  r.1 ++ r.2

/-- Bytes of `n` FP32 values as words. -/
def f32Words (n : Nat) (b : List Byte) : List (BitVec 32) := (List.range n).map fun j => BitVec.ofNat 32 (ofBytes ((b.drop (4 * j)).take 4))

/-- A contribution decoded. -/
def wireDecode (wire count : Nat) (b : List Byte) : List (BitVec 32) :=
  let n := count * codeBits wire / 8
  f32Words count (convertAll wire 8 (count / convUnit wire 8) (b.take n) (b.drop n)).1

/-- Writes a collective's record (R465). -/
def wacRecord (s : State) (result : Nat) (round : Word) (mask : List Nat) (dropped status : Nat) : State :=
  homeStore s result
    (toBytes 8 round.toNat ++ toBytes 8 (mask.foldl (fun a m => a + 2 ^ m) 0) ++ toBytes 4 mask.length ++ toBytes 4 dropped
      ++ toBytes 4 status ++ toBytes 4 0)

def wacAt (s : State) (die k : Nat) : Option Collective := Sparse.get none (s.hio die).wac k
def setWac (s : State) (die k : Nat) (x : Option Collective) : State :=
  s.modHio die fun h => { h with wac := match x with | some _ => Sparse.set h.wac k x | none => Sparse.drop h.wac k }

/-- The members a collective has to do without: their sessions are not open (R465). -/
def wacDropped (s : State) (die : Nat) (x : Collective) : List Nat :=
  (List.range x.nmem).filter fun m =>
    m != x.self && !x.mask.contains m && (x.dropped.contains m || (sessOf s die (x.sessions.getD m 0xFFFF)).state != 2)

/-- The end of a round: the sum, then the record. -/
def wacEnd (s : State) (die k : Nat) (x : Collective) : State :=
  let s := homeStore s x.buf (x.sum.flatMap fun v => toBytes 4 v.toNat)
  setWac (wacRecord s x.result x.round x.mask x.dropped.length 1) die k none

/-- Drops members and ends the round when the others have all contributed. -/
def wacSettle (s : State) (die k : Nat) : State :=
  match wacAt s die k with
  | none => s
  | some x =>
    let x := { x with dropped := wacDropped s die x }
    let s := setWac s die k (some x)
    if (List.range x.nmem).all fun m => x.mask.contains m || x.dropped.contains m then wacEnd s die k x else s

/-- Whether a descriptor is well formed (R464). -/
def wacGood (d : List Byte) : Bool :=
  let f (o n : Nat) : Nat := ofBytes ((d.drop o).take n)
  let wire := f 0 1
  let count := f 0x18 4
  [8, 9, 0x11, 0x12].contains wire && decide (2 ≤ f 1 1 ∧ f 1 1 ≤ 64) && decide (f 2 1 < f 1 1)
    && decide (1 ≤ f 4 4 ∧ f 4 4 ≤ 600000) && decide (1 ≤ count ∧ count ≤ 2 ^ 24)
    && (wire != 0x11 || count % 64 == 0) && (wire != 0x12 || count % 32 == 0)

/-- WACSUB (R464, R465), with the rights of the writer's world over the memory it names (R432). -/
def writeWacsub (s : State) (die : Nat) (i : Ident) (w : Word) : State :=
  let pa := (w.extractLsb' 6 46).toNat * 64
  if !homeRights s i pa then s
  else
    let d := homeBytes s pa 192
    let f (o n : Nat) : Nat := ofBytes ((d.drop o).take n)
    let result := f 0x20 8
    let round := BitVec.ofNat 64 (f 8 8)
    if !homeRights s i result then s
    else if !wacGood d then wacRecord s result round [] 0 2
    else if 16 ≤ ((s.hio die).wac.filter fun e => e.2.isSome).length then wacRecord s result round [] 0 3
    else
      let count := f 0x18 4
      let enc := wireEncode (f 0 1) count (homeBytes s (f 0x10 8) (4 * count))
      let (k, s) := s.new
      let x : Collective :=
        { wire := f 0 1, nmem := f 1 1, self := f 2 1, bound := f 4 4, round := round, buf := f 0x10 8, count := count
          result := result, sessions := (List.range (f 1 1)).map fun m => f (0x40 + 2 * m) 2, start := s.time.toNat
          sum := wireDecode (f 0 1) count enc, mask := [f 2 1], ident := i }
      let s := x.sessions.foldl (fun s n => if n < 256 ∧ (sessOf s die n).state = 2 then modSess s die n fun y => { y with sent := y.sent + 1 } else s) s
      wacSettle (setWac s die k (some x)) die k

/-- WACSUB_SUBMIT. -/
def execWacsubSubmit (die : Nat) (who : Writer) (w : Word) (s : State) : Out :=
  .next (if die = 8 ∨ die = 9 then
      writeWacsub s die { custodian := who.custodian, part := who.part, vf := who.vf, world := who.world } w
    else s)

/-- WAC_CONTRIBUTION (R465). -/
def execWacContribution (die k member : Nat) (round : Word) (data : List Byte) (s : State) : Out :=
  .next (match wacAt s die k with
    | none => s
    | some x =>
      let late := decide (x.start + x.bound * 1000000 ≤ s.time.toNat)
      if late || round != x.round || x.mask.contains member || x.dropped.contains member || x.nmem ≤ member
          || (sessOf s die (x.sessions.getD member 0xFFFF)).state != 2 then s
      else
        let v := wireDecode x.wire x.count data
        let sum := (x.sum.zip v).map fun e => BitVec.ofNat 32 (addF32 .rne e.1.toNat e.2.toNat).1
        wacSettle (setWac s die k (some { x with sum := sum, mask := x.mask ++ [member] })) die k)

/-- WAC_BOUND_EXPIRY (R465). -/
def execWacBoundExpiry (die k : Nat) (s : State) : Out :=
  .next (match wacAt s die k with
    | none => s
    | some x => if x.start + x.bound * 1000000 ≤ s.time.toNat then wacEnd s die k { x with dropped := wacDropped s die x } else s)

/-! Ethernet sessions (R463). -/

/-- Every running collective of a die looks at its members' sessions again. -/
def wacAll (s : State) (die : Nat) : State := (s.hio die).wac.foldl (fun s e => wacSettle s die e.1) s

/-- A write of ESESSs: EN starts keying when it is set, and closes the session when it is cleared. -/
def writeSess (s : State) (die n : Nat) (w : Word) : State :=
  let s := modSess s die n fun x =>
    let x := { x with port := w.extractLsb' 56 2, part := w.extractLsb' 48 8, peer := w.extractLsb' 0 40 }
    if w.getLsbD 63 ∧ !x.en then { x with en := true, state := 1, since := s.time.toNat, high := 0, seen := [], sent := 0, keys := x.keys + 1, rekey := false }
    else if !w.getLsbD 63 then { x with en := false, state := 0, rekey := false }
    else x
  wacAll s die

/-- ESESS_OPEN. -/
def execEsessOpen (die n : Nat) (_ : Writer) (w : Word) (s : State) : Out :=
  .next (if (die = 8 ∨ die = 9) ∧ n < 256 ∧ w.getLsbD 63 then writeSess s die n w else s)

/-- ESESS_CLOSE. -/
def execEsessClose (die n : Nat) (_ : Writer) (w : Word) (s : State) : Out :=
  .next (if (die = 8 ∨ die = 9) ∧ n < 256 ∧ !w.getLsbD 63 then writeSess s die n w else s)

/-- Whether a session waits for its peer's part of a key. -/
def Session.keying (x : Session) : Bool := x.state == 1 || (x.state == 2 && x.rekey)

/-- SESSION_KEYING_TIMEOUT: a second has passed without an answer. -/
def execSessionKeyingTimeout (die n : Nat) (s : State) : Out :=
  let x := sessOf s die n
  .next (if x.keying ∧ x.since + 1000000000 ≤ s.time.toNat then
      wacAll (modSess s die n fun x => { x with state := 3, rekey := false }) die
    else s)

/-- The peer's answer to a keying: the session is open, under a new key if it had one, or failed. -/
def Session.answered (x : Session) (ok : Bool) : Session :=
  if !ok then { x with state := 3, rekey := false }
  else if x.rekey then { x with keys := x.keys + 1, sent := 0, rekey := false }
  else { x with state := 2 }

/-- ETHERNET_FRAME_RECEIVE: a keying answer opens the session or fails it; a sealed frame is accepted or dropped. -/
def execEthernetFrameReceive (die n : Nat) (key ok : Bool) (ctr : Nat) (s : State) : Out :=
  let x := sessOf s die n
  .next (if key then
      if x.keying then wacAll (modSess s die n fun x => x.answered ok) die else s
    else if x.state ≠ 2 ∨ !ok ∨ ctr + 1024 ≤ x.high ∨ x.seen.contains ctr then s
    else
      modSess s die n fun x =>
        let high := max x.high ctr
        { x with high := high, seen := (ctr :: x.seen).filter (fun k => decide (high < k + 1024)), sent := x.sent + 1 })

/-- SESSION_REKEY: after 2^40 frames a new key is asked for, while frames keep flowing. -/
def execSessionRekey (die n : Nat) (s : State) : Out :=
  let x := sessOf s die n
  .next (if x.state = 2 ∧ 2 ^ 40 ≤ x.sent ∧ x.rekey = false then modSess s die n fun x => { x with rekey := true, since := s.time.toNat } else s)

/-! The safe tier (R476). -/

/-- Whether every context below custodian level has left its core and every command has completed. -/
def allOut (s : State) : Bool := s.ctxs.all (fun e => e.2.run == .free || e.2.level == .custodian)

/-- The assigned frames, as the records' own bytes name them. -/
def assigned (s : State) : List Nat :=
  (List.range 8).flatMap fun k =>
    let b := s.base k
    let lo := k * 2 ^ 37 + b.custBase
    if !b.custEn then []
    else
      (((s.mem.filter fun c => decide (lo ≤ c.1) && decide (c.1 < lo + 320 * 65536)).map fun c => (c.1 - lo) / 16).eraseDups.map
        (k * 2 ^ 21 + ·)).filter fun f => entState (entry0 s f) != 0

/-- A frame as a save carries it. -/
def saveFrame (s : State) (f : Nat) : SavedFrame :=
  { frame := f
    bytes := s.mem.filter fun c => decide (c.1 / 65536 = f)
    locks := s.locks.filter fun l => decide (l.1 * 32 / 65536 = f)
    ctags := s.ctags.filter fun t => decide (t * 16 / 65536 = f)
    word0 := entry0 s f, word1 := entry1 s f }

/-- Writes a saved frame back. -/
def loadFrame (s : State) (x : SavedFrame) : State :=
  let s := zeroRange s (x.frame * 65536) 65536
  let s := { s with writes := x.bytes.reverse ++ s.writes }
  let s := { s with
    locks := x.locks.foldl (fun m l => Sparse.set m l.1 l.2) (s.locks.filter fun l => decide (l.1 * 32 / 65536 ≠ x.frame))
    ctags := x.ctags.foldl insertNat s.ctags }
  homeStoreWord (homeStoreWord s (entryAddr s x.frame) x.word0) (entryAddr s x.frame + 8) x.word1

/-- CKPTCTL (R476): a save asks every context below custodian level to stop; a restore is refused unless all have. -/
def writeCkptctl (s : State) (w : Word) : State :=
  if !w.getLsbD 0 || s.ckptSt == 1 then s
  else
    let s := { s with ckptRestore := w.getLsbD 1, ckptResume := w.getLsbD 2 }
    if w.getLsbD 1 then
      if allOut s then { s with ckptSt := 1 } else { s with ckptSt := 3 }
    else
      (s.ctxs.map (·.1)).foldl (fun s c =>
        let x := s.ctx c
        let busy := match x.run with | .leaving _ => true | _ => false
        if x.run = .free || x.level == .custodian || x.task.isNone || busy then s
        else interrupt (s.modCtx c fun x => { x with request := some 3 }) c) { s with ckptSt := 1 }

/-- The halted tasks become ready (R476 bit 2). -/
def resumeHalted (s : State) : State :=
  (s.dies.map (·.1)).foldl (fun s d =>
    let out := (s.die d).stopped.filter fun e => e.reason == 3
    out.foldl (fun s e => enterPool s d { e.task with pinned := none })
      (s.modDie d fun x => { x with stopped := x.stopped.filter fun e => e.reason != 3 })) s

/-- Dirty tiles are written back (R476 step 3). -/
def cleanTiles (s : State) : State :=
  let s := s.bases.foldl (fun s b => b.2.tiles.foldl tileFlags s) s
  { s with bases := s.bases.map fun b => (b.1, { b.2 with tiles := b.2.tiles.map fun t => { t with dirty := false, flags := 0, undo := [] } }) }

/-- CKPT_DONE (R476): done once every context is out, every command complete and every store at its home. -/
def execCkptDone (ok : Bool) (s : State) : Out :=
  if s.ckptSt ≠ 1 then .next s
  else if !ok then .next { s with ckptSt := 3 }
  else if !(allOut s && s.cmds.isEmpty && s.clus.all fun k => k.2.csq.isEmpty) then .next s
  else
    let s := if s.ckptRestore then s.saved.foldl loadFrame s
      else
        let s := cleanTiles s
        { s with saved := (assigned s).map (saveFrame s) }
    let (v, s) := s.free
    let s := { s with ckptSt := 2, ckptMoved := v.setWidth 56 }
    .next (if s.ckptResume then resumeHalted s else s)

/-- CKPT_SAVE: only the custodian maps CKPTCTL. -/
def execCkptSave (who : Writer) (w : Word) (s : State) : Out :=
  .next (if who.custodian ∧ !w.getLsbD 1 then writeCkptctl s w else s)

/-- CKPT_RESTORE. -/
def execCkptRestore (who : Writer) (w : Word) (s : State) : Out :=
  .next (if who.custodian ∧ w.getLsbD 1 then writeCkptctl s w else s)

end Sys2Proof.Machine
end

