-- ==== Sys2Proof/Machine/Matrix.lean ====
section
/-! DEFINITION. The matrix engine (R379 to R409): claims, operand loads, products, accumulator instructions and the
matrix image. Its instructions act on slots and accumulators at Issue, in issue order (R382). -/

namespace Sys2Proof.Machine

def matrixOf (s : State) (c : Nat) : Matrix := (s.core (coreOf c)).matrix
def Matrix.slot (m : Matrix) (i : Nat) : Slot := Sparse.get {} m.slots i
def Matrix.acc (m : Matrix) (i : Nat) : Accum := Sparse.get {} m.accs i
def Matrix.setSlot (m : Matrix) (i : Nat) (x : Slot) : Matrix := { m with slots := Sparse.set m.slots i x }
def Matrix.setAcc (m : Matrix) (i : Nat) (x : Accum) : Matrix := { m with accs := Sparse.set m.accs i x }
def modMatrix (s : State) (c : Nat) (f : Matrix → Matrix) : State :=
  s.modCore (coreOf c) fun k => { k with matrix := f k.matrix }

/-! Claims (R381, R386, R387). -/

/-- A matrix instruction enters the engine's queue of eight; its context is stalled while that is full (R383). `f` are the
flags it raises when it completes. -/
def enterQueue (s : State) (c : Nat) (f : FpFlags := 0) (product : Bool := false) : Res State := do
  ask (decide ((matrixOf s c).queue.length < 8)) .stall
  pure (modMatrix s c fun m => { m with queue := m.queue ++ [{ c := c, flags := f, product := product }] })

/-- Every item an instruction names must be claimed: the lowest slot, then the lowest accumulator (R381). -/
def claimed (s : State) (c : Nat) (slots accs : List Nat) : Res Unit :=
  let m := matrixOf s c
  match (List.range 32).find? fun i => slots.contains i && (m.slot i).owner != some c with
  | some i => .error (.trap { cause := 0x38, val := BitVec.ofNat 64 i })
  | none =>
    match (List.range 8).find? fun i => accs.contains i && (m.acc i).owner != some c with
    | some i => .error (.trap { cause := 0x38, val := BitVec.ofNat 64 (32 + i) })
    | none => .ok ()

/-- The items of masks that other contexts hold, placed as in X (R386). -/
def conflicts (s : State) (c : Nat) (slotm : BitVec 32) (accm : BitVec 8) : Nat × Nat :=
  let m := matrixOf s c
  let other (o : Option Nat) : Bool := match o with | some d => d != c | none => false
  (((List.range 32).filter fun i => slotm.getLsbD i && other (m.slot i).owner).foldl (fun a i => a + 2 ^ i) 0,
    ((List.range 8).filter fun i => accm.getLsbD i && other (m.acc i).owner).foldl (fun a i => a + 2 ^ i) 0)

def conflictWord (k : Nat × Nat) : Word := packWord [(35, k.2), (0, k.1)]

/-- Claims the items of masks that the context does not hold, cleared (R380, R386). -/
def claimAll (s : State) (c : Nat) (slotm : BitVec 32) (accm : BitVec 8) : State :=
  modMatrix s c fun m =>
    let m := (List.range 32).foldl (fun (m : Matrix) i =>
      if slotm.getLsbD i && (m.slot i).owner != some c then m.setSlot i { owner := some c } else m) m
    (List.range 8).foldl (fun (m : Matrix) i =>
      if accm.getLsbD i && (m.acc i).owner != some c then m.setAcc i { owner := some c } else m) m

/-- Bytes of an image (R400). -/
def imageSize : Nat := 0x19100

/-- On a pair, an instruction that writes slots or accumulators starts a checkpoint interval, and the engine keeps
what they held (R409). -/
def matrixWrites (s : State) (c : Nat) : Res State :=
  match (s.core (coreOf c)).bridle with
  | none => .ok s
  | some _ => do
    let s ← mustCheckpoint s c
    pure (s.modCore (coreOf c) fun k => { k with bridle := k.bridle.map fun b => { b with matrix := some k.matrix } })

/-- Whether a load into accumulator `a` has not performed. -/
def accLoading (s : State) (c a : Nat) : Bool :=
  (s.ctx c).lob.any fun e => match e.op with | .load _ (.acc b) => b.toNat == a | _ => false

/-- Slots that no load is filling, and accumulators; one being loaded waits (R382, R391). -/
def idle (s : State) (c : Nat) (slots accs : List Nat) : Res Unit :=
  ask (!(slots.any fun i => ((matrixOf s c).slot i).state == .loading) && !accs.any (accLoading s c)) .stall

/-- Whether captured pages are contiguous in physical memory (R386). -/
def contiguous : Xlat → Bool
  | a :: b :: r => decide (b.2 = a.2 + 1) && contiguous (b :: r)
  | _ => true

/-- MCLAIM (R386). -/
def mclaimBody (o : MclaimOps) (c : Nat) (s : State) : Res State := do
  let image ←
    if o.a != 0 && !holdsClaims s c && (o.slotm != 0 || o.accm != 0) then do
      let g ← regOf s c o.a
      let ea : Word := g.bits.setWidth 64
      let _ ← capCheck g o.a (permLd ||| permSt) ea imageSize
      trapIf (decide (ea.toNat % 256 ≠ 0)) 0x0E ea
      let xl ← xlatPlaced s c ea imageSize 1
      trapIf (!contiguous xl) 0x0D ea
      pure (some (xlAt xl ea.toNat))
    else pure none
  let (_, s) ← sources s c [] (some o.d)
  let s ← matrixWrites s c
  let s ← enterQueue s c
  let k := conflicts s c o.slotm o.accm
  if k.1 ≠ 0 ∨ k.2 ≠ 0 then pure (deliver s c o.d (conflictWord k))
  else
    let s := claimAll s c o.slotm o.accm
    let s := match image with | some pa => s.modCtx c fun x => { x with mimage := pa } | none => s
    pure (deliver s c o.d 0)

def execMclaim (o : MclaimOps) (s : State) : Out := run (.mclaim o) o.h (mclaimBody o) s

/-- MREL (R387). -/
def mrelBody (o : MrelOps) (c : Nat) (s : State) : Res State := do
  let m := matrixOf s c
  let slots := (List.range 32).filter fun i => o.slotm.getLsbD i && (m.slot i).owner == some c
  let accs := (List.range 8).filter fun i => o.accm.getLsbD i && (m.acc i).owner == some c
  idle s c slots accs
  ask (m.queue.all fun e => e.c != c) .stall
  let s ← matrixWrites s c
  let s ← enterQueue s c
  let s := modMatrix s c fun m => { m with
    slots := m.slots.filter (fun e => !slots.contains e.1), accs := m.accs.filter fun e => !accs.contains e.1 }
  pure (retire (if holdsClaims s c then s else s.modCtx c fun x => { x with mimage := 0 }) c)

def execMrel (o : MrelOps) (s : State) : Out := run (.mrel o) o.h (mrelBody o) s

/-! Loads (R388 to R390, R395). -/

/-- The 16-byte pieces of source rows: their exact addresses and lengths, row by row (R11, R388). -/
def piecesOf (rows w : Nat) (at' : Nat → Nat → Nat) : List (Nat × Nat) :=
  (List.range rows).flatMap fun m => (List.range ((w + 15) / 16)).map fun j => (at' m (16 * j), min 16 (w - 16 * j))

/-- The hull of pieces: lowest address and length. -/
def hullOf (l : List (Nat × Nat)) : Word × Nat :=
  let lo := l.foldl (fun a e => min a e.1) ((l.head?.map (·.1)).getD 0)
  let hi := l.foldl (fun a e => max a (e.1 + e.2)) 0
  (BitVec.ofNat 64 lo, hi - lo)

/-- R155's checks 1 to 5 over a hull, then translation and place of every piece, then the lock of each, then the data
breakpoints (R200, R389, R395, R467). -/
def pieceAccess (s : State) (c : Nat) (r : BitVec 6) (l : List (Nat × Nat)) : Res (List Acc) := do
  let g ← regOf s c r
  let h := hullOf l
  let _ ← capCheck g r permLd h.1 h.2
  let a : Word := g.bits.setWidth 64
  let one (lock : Bool) (e : Nat × Nat) : Res Acc :=
    access s c r (BitVec.ofNat 64 e.1 - a) { n := e.2, align := 1, perm := permLd, kind := 0, lock := lock }
  l.forM fun e => do let _ ← one false e; pure ()
  let as ← l.mapM (one true)
  as.forM fun e => breakCheck s c e.ea e.n false
  pure as

/-- Where each loaded byte goes in the slots (R389): pairs of source and destination byte. -/
def mldMap (mode : MldMode) (n rb w : Nat) : List (Nat × Nat) :=
  match mode with
  | .rows => (List.range (n * rb)).map fun k => (k, k)
  | .scale => (List.range 128).map fun k => (k, k)
  | .t8 | .t16 =>
    let e := if mode = .t8 then 1 else 2
    (List.range (n * rb)).map fun k => (k % rb / e * w + k / rb * e + k % e, k)

/-- Reads pieces at one moment; the first refused gives its trap. -/
def readPieces (s : State) (c id : Nat) (i : Ident) : List Acc → Except Trap (List Byte) × State
  | [] => (.ok [], s)
  | a :: r =>
    match readAt (attach s c a.pa) c id i a with
    | (.error t, s) => (.error t, s)
    | (.ok b, s) =>
      match readPieces s c id i r with
      | (.ok l, s) => (.ok (b ++ l), s)
      | (.error t, s) => (.error t, s)

/-- Bytes put into a register of `n` bytes at mapped places, the others zero. -/
def mapBytes (n : Nat) (map : List (Nat × Nat)) (b : List Byte) : Nat :=
  map.foldl (fun a e => a + (b.getD e.1 0).toNat * 2 ^ (8 * e.2)) 0 % 2 ^ (8 * n)

/-- Fills slots, or a scale area, with loaded bytes (R389). -/
def fillSlots (s : State) (c slot : Nat) (span2 scale : Bool) (map : List (Nat × Nat)) (b : List Byte) : State :=
  modMatrix s c fun m =>
    if scale then m.setSlot slot { m.slot slot with scale := BitVec.ofNat 1024 (mapBytes 128 map b), state := .ready }
    else
      let v := mapBytes (if span2 then 4096 else 2048) map b
      let m := m.setSlot slot { m.slot slot with bytes := BitVec.ofNat 16384 v, state := .ready }
      if span2 then m.setSlot (slot + 1) { m.slot (slot + 1) with bytes := BitVec.ofNat 16384 (v / 2 ^ 16384), state := .ready } else m

/-- The slots of a load that failed (R390). -/
def faultSlots (s : State) (c slot : Nat) (span2 scale : Bool) (reason : BitVec 4) (pa : Nat) : State :=
  modMatrix s c fun m =>
    if scale then m.setSlot slot { m.slot slot with scale := 0, state := .faulted reason pa }
    else
      let m := m.setSlot slot { m.slot slot with bytes := 0, state := .faulted reason pa }
      if span2 then m.setSlot (slot + 1) { m.slot (slot + 1) with bytes := 0, state := .faulted reason pa } else m

/-- The reason of R390 for a refused read. -/
def mldReason (t : Trap) (lost : Bool) : BitVec 4 :=
  if t.cause = 0x41 then 3 else if t.cause = 0x24 then 5 else if lost then 2 else 1

/-- MLD (R388, R389). -/
def mldBody (o : MldOps) (c : Nat) (s : State) : Res State := do
  let slots := if o.span2 then [o.slot.toNat, o.slot.toNat + 1] else [o.slot.toNat]
  claimed s c slots []
  let (ws, s) ← sources s c [o.b] none
  let v := arg ws 0
  let g ← regOf s c o.a
  let ea : Word := g.bits.setWidth 64
  let rb := if o.span2 then 128 else 64
  let n := 32 - o.zrows.toNat
  let e := if o.mode = .t16 then 2 else 1
  let w := match o.mode with | .rows => rb | .scale => 128 | _ => n * e
  let rows := match o.mode with | .rows => n | .scale => 1 | _ => rb / e
  let sw := o.sw
  trapIf (decide (v.toNat % 16 ≠ 0) || (sw && decide (128 < v.toNat + w))) 0x0D v
  trapIf (decide (ea.toNat % (if sw then 1024 else 16) ≠ 0)) 0x0E ea
  let at' (m b : Nat) : Nat :=
    if sw then ea.toNat + m * 128 + ((v.toNat + b) / 16 ^^^ m % 8) * 16 + (v.toNat + b) % 16
    else ea.toNat + m * v.toNat + b
  let as ← pieceAccess s c o.a (piecesOf rows w at')
  idle s c slots []
  let s ← as.foldlM (fun s a => pairLeaves s c a.pa) s
  let s ← matrixWrites s c
  let s ← enterQueue s c
  let s := modMatrix s c fun m => slots.foldl (fun m i => m.setSlot i { m.slot i with state := .loading }) m
  pure (retire (lobPush s c (.load as (.slots o.slot.toNat o.span2 (o.mode == .scale) (mldMap o.mode n rb w)))) c)

def execMld (o : MldOps) (s : State) : Out := run (.mld o) o.h (mldBody o) s

/-- ACCLD (R395). -/
def accldBody (o : AccldOps) (c : Nat) (s : State) : Res State := do
  let a := o.acc.toNat
  claimed s c [] [a]
  let (ws, s) ← sources s c [o.b] none
  let v := arg ws 0
  let g ← regOf s c o.a
  let ea : Word := g.bits.setWidth 64
  trapIf (decide (v.toNat % 16 ≠ 0)) 0x0D v
  trapIf (decide (ea.toNat % 16 ≠ 0)) 0x0E ea
  let as ← pieceAccess s c o.a (piecesOf 32 128 fun m b => ea.toNat + m * v.toNat + b)
  idle s c [] [a]
  let s ← as.foldlM (fun s a => pairLeaves s c a.pa) s
  let s ← matrixWrites s c
  let s ← enterQueue s c
  pure (retire (lobPush s c (.load as (.acc o.acc))) c)

def execAccld (o : AccldOps) (s : State) : Out := run (.accld o) o.h (accldBody o) s

/-! Products (R384, R391 to R393). -/

/-- Element `k` of row `r` of an operand whose rows have `rb` bytes. -/
def operandAt (x rb w r k : Nat) : Nat := x / 2 ^ (8 * rb * r + w * k) % 2 ^ w

/-- Bytes of an operand in slot `i`, with its span. -/
def operandBytes (m : Matrix) (i : Nat) (span2 : Bool) : Nat :=
  (m.slot i).bytes.toNat + (if span2 then (m.slot (i + 1)).bytes.toNat * 2 ^ 16384 else 0)

def mmaFmt (t : MmaTy) : Option Fmt :=
  match t with
  | .i8 => none | .bf16 => some fBf16 | .f16 => some fF16 | .e4m3 | .mx8 => some fE4m3 | .e5m2 => some fE5m2
  | .mx6 => some fE2m3 | .mx4 => some fE2m1
def mmaK (t : MmaTy) : Nat := match t with | .bf16 | .f16 => 32 | .mx6 | .mx4 => 128 | _ => 64
def mmaBits (t : MmaTy) : Nat := match t with | .bf16 | .f16 => 16 | .mx6 => 6 | .mx4 => 4 | _ => 8
def mmaScaled (t : MmaTy) : Bool := match t with | .mx8 | .mx6 | .mx4 => true | _ => false

/-- Element (r, k) of an operand as an exact value (R126, R384). -/
def operandVal (m : Matrix) (t : MmaTy) (slot r k : Nat) : FVal :=
  match mmaFmt t with
  | none => .fin false 0 0
  | some f =>
    let v := f.decode (operandAt (operandBytes m slot t.span2) (if t.span2 then 128 else 64) (mmaBits t) r k)
    if mmaScaled t then v.scaled (scaleExp ((m.slot slot).scale.toNat / 2 ^ (8 * (r * (mmaK t / 32) + k / 32)) % 256)) else v

/-- Whether the products of element (i, j) are kept (R391). -/
def kept (mask : Bool) (diag : BitVec 6) (i j : Nat) : Bool := !mask || decide ((j : Int) ≤ i + diag.toInt)

/-- Word (i, j) of an accumulator. -/
def accWord (a : BitVec 32768) (i j : Nat) : Nat := a.toNat / 2 ^ (32 * (32 * i + j)) % 2 ^ 32

/-- An accumulator from its 1024 words, with the flags of all. -/
def accOf (f : Nat → Nat → Nat × FpFlags) : BitVec 32768 × FpFlags :=
  let l := (List.range 1024).map fun n => f (n / 32) (n % 32)
  (BitVec.ofNat 32768 (packNat 32 (l.map (·.1))), l.foldl (fun (a : FpFlags) e => a ||| e.2) 0)

/-- R143: an exact sum clamped to INT32. -/
def clampI32 (x : Int) : Nat × FpFlags :=
  let r := max (-(2 ^ 31)) (min (2 ^ 31 - 1) x)
  ((r % 2 ^ 32).toNat, flagIf (r != x) flagOF)

/-- A floating-point element of an MMA (R141, R142, R391). -/
def mmaElem (m : Matrix) (o : MmaOps) (gamma : Nat) (i j : Nat) : Nat × FpFlags :=
  let ps := if kept o.m o.diag i j then
      (List.range (mmaK o.ty)).map fun k => exactMul (operandVal m o.ty o.sa.toNat i k) (operandVal m o.ty o.sb.toNat j k)
    else []
  let src := fF32.decode (accWord (m.acc (if o.ip then o.accd else o.accc).toNat).bytes i j)
  let c : FVal × Bool :=
    if o.z then (.fin false 0 0, false) else if o.f then exactMul (fF32.decode gamma) src else (src, src.isSnan)
  dotSum (c.1 :: ps.map (·.1)) (c.2 || ps.any (·.2))

/-- A signed byte. -/
def byteInt (x : Nat) : Int := if x < 128 then x else (x : Int) - 256

/-- An element of MMA `.i8` (R143, R391). -/
def mmaElemI (m : Matrix) (o : MmaOps) (i j : Nat) : Nat × FpFlags :=
  let at' (s r k : Nat) : Int := byteInt (operandAt (operandBytes m s false) 64 8 r k)
  let p : Int := if kept o.m o.diag i j then
      (List.range 64).foldl (fun a k => a + at' o.sa.toNat i k * at' o.sb.toNat j k) 0 else 0
  let c : Int := if o.z then 0 else signedOf 32 (accWord (m.acc (if o.ip then o.accd else o.accc).toNat).bytes i j)
  clampI32 (p + c)

/-- An element of MTERN (R143, R391). -/
def mternElem (m : Matrix) (o : MternOps) (i j : Nat) : Nat × FpFlags :=
  let b (k : Nat) : Int :=
    let x := operandAt (operandBytes m o.sb.toNat true) 128 8 j k
    if o.n8 then x else byteInt x
  let ts := if kept o.m o.diag i j then
      (List.range 128).map fun k =>
        let w := decodeT2 (operandAt (operandBytes m o.sa.toNat false) 64 2 i k)
        (w.1 * b k, w.2)
    else []
  let c : Int := if o.z then 0 else signedOf 32 (accWord (m.acc (if o.ip then o.accd else o.accc).toNat).bytes i j)
  let r := clampI32 (ts.foldl (fun (a : Int) t => a + t.1) c)
  (r.1, ts.foldl (fun (a : FpFlags) t => a ||| t.2) r.2)

/-- The issue of a product: claims, loading and faulted slots, then the accumulator, with its flags queued for
completion (R383, R391, R393). While a slot or accumulator is being loaded it is held at issue, its context stalled: `s`
is then the state, in which it has taken no source word; `t` has them taken. -/
def product (s t : State) (c : Nat) (slots : List Nat) (accd accs : Nat) (f : Matrix → Nat → Nat → Nat × FpFlags) : Res State := do
  claimed t c slots [accd, accs]
  if (idle t c slots [accd, accs]).isOk then
    let m := matrixOf t c
    match (List.range 32).find? fun i => slots.contains i && (match (m.slot i).state with | .faulted _ _ => true | _ => false) with
    | some i =>
      match (m.slot i).state with
      | .faulted r pa => .error (.trap { cause := 0x39, val := packWord [(8, r.toNat), (0, i)], aux := BitVec.ofNat 64 pa })
      | _ => .error .stall
    | none =>
      let t ← matrixWrites t c
      let r := accOf (f m)
      let t ← enterQueue t c r.2 true
      pure (retire (modMatrix t c fun m => m.setAcc accd { m.acc accd with bytes := r.1 }) c)
  else pure (s.modCtx c fun x => { x with mheld := true })

/-- Slots of an operand. -/
def spanOf (i : Nat) (span2 : Bool) : List Nat := if span2 then [i, i + 1] else [i]

/-- MMA (R391). -/
def mmaBody (o : MmaOps) (c : Nat) (s : State) : Res State := do
  let (ws, t) ← sources s c [o.b] none
  let gamma := (arg ws 0).toNat % 2 ^ 32
  product s t c (spanOf o.sa.toNat o.ty.span2 ++ spanOf o.sb.toNat o.ty.span2) o.accd.toNat
    (if o.z || o.ip then o.accd else o.accc).toNat
    (fun m i j => if o.ty = .i8 then mmaElemI m o i j else mmaElem m o gamma i j)

def execMma (o : MmaOps) (s : State) : Out := run (.mma o) o.h (mmaBody o) s

/-- MTERN (R391). -/
def mternBody (o : MternOps) (c : Nat) (s : State) : Res State :=
  product s s c (spanOf o.sa.toNat false ++ spanOf o.sb.toNat true) o.accd.toNat (if o.z || o.ip then o.accd else o.accc).toNat
    (fun m i j => mternElem m o i j)

def execMtern (o : MternOps) (s : State) : Out := run (.mtern o) o.h (mternBody o) s

/-! Accumulator instructions (R394 to R398). -/

/-- ACCZ (R394). -/
def acczBody (o : AcczOps) (c : Nat) (s : State) : Res State := do
  let accs := (List.range 8).filter fun i => o.accm.getLsbD i
  claimed s c [] accs
  idle s c [] accs
  let s ← matrixWrites s c
  let s ← enterQueue s c
  pure (retire (modMatrix s c fun m => accs.foldl (fun m i => m.setAcc i { m.acc i with bytes := 0 }) m) c)

def execAccz (o : AcczOps) (s : State) : Out := run (.accz o) o.h (acczBody o) s

/-- Bytes of a destination type. -/
def accTyBytes (t : AccTy) : Nat := match t with | .i8 | .e4m3 | .e5m2 => 1 | .i16 | .bf16 | .f16 => 2 | _ => 4
def accTyFmt (t : AccTy) : Option Fmt :=
  match t with
  | .f32 => some fF32 | .bf16 => some fBf16 | .f16 => some fF16 | .e4m3 => some fE4m3 | .e5m2 => some fE5m2
  | _ => none

/-- The conversion of an accumulator word (R396). -/
def accConvert (si : Bool) (t : AccTy) (rm : RoundMode) (x : Nat) : Nat × FpFlags :=
  let w := 8 * accTyBytes t
  let lo : Int := -(2 ^ (w - 1))
  let hi : Int := 2 ^ (w - 1) - 1
  match si, accTyFmt t with
  | false, some f => if t = .f32 then (x, 0) else f.convert rm false (fF32.decode x)
  | false, none => let v := toIntRange lo hi rm (fF32.decode x); ((v.1 % 2 ^ w).toNat, v.2)
  | true, some f => f.convert rm false (.ofInt (signedOf 32 x))
  | true, none => let n := signedOf 32 x; let v := max lo (min hi n); ((v % 2 ^ w).toNat, flagIf (v != n) flagOF)

/-- Row `i` of a converted accumulator, or column `i`, and the flags of it. -/
def accRow (a : BitVec 32768) (si t : Bool) (ty : AccTy) (rm : RoundMode) (i : Nat) : Nat × FpFlags :=
  let l := (List.range 32).map fun j => accConvert si ty rm (if t then accWord a j i else accWord a i j)
  (packNat (8 * accTyBytes ty) (l.map (·.1)), l.foldl (fun (a : FpFlags) e => a ||| e.2) 0)

/-- ACCST (R397). -/
def accstBody (o : AccstOps) (c : Nat) (s : State) : Res State := do
  let a := o.acc.toNat
  claimed s c [] [a]
  let (ws, s) ← sources s c [o.b] none
  let v := arg ws 0
  let g ← regOf s c o.a
  let ea : Word := g.bits.setWidth 64
  trapIf (decide (v.toNat % 16 ≠ 0)) 0x0D v
  trapIf (decide (ea.toNat % 16 ≠ 0)) 0x0E ea
  let w := 32 * accTyBytes o.ty
  let ps := piecesOf 32 w fun m b => ea.toNat + m * v.toNat + b
  let h := hullOf ps
  let k ← capCheck g o.a permEdst h.1 h.2
  let xl ← ps.foldlM (fun (l : Xlat) p => do let x ← xlatPlaced s c (BitVec.ofNat 64 p.1) p.2 4; pure (l ++ x)) []
  idle s c [] [a]
  let rm := roundField (s.ctx c).round o.rm
  let rows := (List.range 32).map (accRow ((matrixOf s c).acc a).bytes o.si false o.ty rm)
  let f := rows.foldl (fun (a : FpFlags) r => a ||| r.2) 0
  let words := ps.mapIdx fun n p =>
    (n, xlAt xl p.1, BitVec.ofNat 128 ((rows.getD (n / (w / 16)) (0, 0)).1 / 2 ^ (128 * (n % (w / 16)))))
  pushCmd (← enterQueue s c f) c (.words words k.key) 5

def execAccst (o : AccstOps) (s : State) : Out := run (.accst o) o.h (accstBody o) s

/-- A slot's bytes with the converted rows of an accumulator put in (R398). -/
def moveInto (old : BitVec 16384) (rows : List Nat) (w ofs : Nat) : BitVec 16384 :=
  BitVec.ofNat 16384 (packNat 512 ((List.range 32).map fun r =>
    let row := old.toNat / 2 ^ (512 * r) % 2 ^ 512
    let lo := 8 * w * ofs
    row % 2 ^ lo + (rows.getD r 0 % 2 ^ (8 * w)) * 2 ^ lo + row / 2 ^ (lo + 8 * w) * 2 ^ (lo + 8 * w)))

/-- ACCMOV (R398). -/
def accmovBody (o : AccmovOps) (c : Nat) (s : State) : Res State := do
  let a := o.acc.toNat
  let t := o.slot.toNat
  claimed s c [t] [a]
  idle s c [t] [a]
  let s ← matrixWrites s c
  let rm := roundField (s.ctx c).round o.rm
  let rows := (List.range 32).map (accRow ((matrixOf s c).acc a).bytes o.si o.t o.ty rm)
  let f := rows.foldl (fun (a : FpFlags) r => a ||| r.2) 0
  let s ← enterQueue s c f
  let s := modMatrix s c fun m =>
    m.setSlot t { m.slot t with bytes := moveInto (m.slot t).bytes (rows.map (·.1)) (32 * accTyBytes o.ty) (bit o.ofs) }
  pure (retire s c)

def execAccmov (o : AccmovOps) (s : State) : Out := run (.accmov o) o.h (accmovBody o) s

/-! The matrix image (R400 to R402, R404, R405). -/

/-- The image of a context's items as its 16-byte words: offset and data (R400). -/
def imageWords (m : Matrix) (c : Nat) : List (Nat × Nat) :=
  let slots := (List.range 32).filter fun i => (m.slot i).owner == some c
  let accs := (List.range 8).filter fun i => (m.acc i).owner == some c
  let mask (l : List Nat) : Nat := l.foldl (fun a i => a + 2 ^ i) 0
  let fault (i : Nat) : Nat := match (m.slot i).state with | .faulted r _ => r.toNat | _ => 0
  let faulted := slots.filter fun i => fault i != 0
  let header := mask slots + mask accs * 2 ^ 64 + mask faulted * 2 ^ 128
    + (faulted.foldl (fun a i => a + fault i * 2 ^ (4 * i)) 0) * 2 ^ 192
  let words (o n x : Nat) : List (Nat × Nat) := (List.range (n / 16)).map fun j => (o + 16 * j, x / 2 ^ (128 * j) % 2 ^ 128)
  words 0 0x100 header
    ++ slots.flatMap (fun i => words (0x100 + 0x800 * i) 0x800 (m.slot i).bytes.toNat)
    ++ accs.flatMap (fun j => words (0x10100 + 0x1000 * j) 0x1000 (m.acc j).bytes.toNat)
    ++ slots.flatMap (fun i => words (0x18100 + 0x80 * i) 0x80 (m.slot i).scale.toNat)

/-- MSAVE (R401). -/
def msaveBody (o : OneG) (c : Nat) (s : State) : Res State := do
  let g ← regOf s c o.a
  let ea : Word := g.bits.setWidth 64
  let k ← capCheck g o.a permEdst ea imageSize
  trapIf (decide (ea.toNat % 256 ≠ 0)) 0x0E ea
  let xl ← xlatPlaced s c ea imageSize 4
  let m := matrixOf s c
  idle s c ((List.range 32).filter fun i => (m.slot i).owner == some c) ((List.range 8).filter fun i => (m.acc i).owner == some c)
  pushCmd (← enterQueue s c) c (.words ((imageWords m c).map fun w => (w.1 / 16, xlAt xl (ea.toNat + w.1), BitVec.ofNat 128 w.2)) k.key) 5

def execMsave (o : OneG) (s : State) : Out := run (.msave o) o.h (msaveBody o) s

/-- A header as its masks and reasons, if it is well formed (R402). -/
def readHeader (b : List Byte) : Option (BitVec 32 × BitVec 8 × Nat × Nat) :=
  let f (o n : Nat) : Nat := ofBytes ((b.drop o).take n)
  let sm := f 0 8
  let am := f 8 8
  let fm := f 16 8
  let rs := f 24 16
  let reason (i : Nat) : Nat := rs / 2 ^ (4 * i) % 16
  if (b.drop 0x28).all (· == 0) && decide (sm < 2 ^ 32) && decide (fm < 2 ^ 32) && decide (am < 256) && fm &&& sm == fm
      && (List.range 32).all (fun i => if fm.testBit i then decide (1 ≤ reason i ∧ reason i ≤ 5) else reason i == 0) then
    some (BitVec.ofNat 32 sm, BitVec.ofNat 8 am, fm, rs)
  else none

/-- The blocks of an image its masks name: offset and length (R400). -/
def imageBlocks (sm : BitVec 32) (am : BitVec 8) : List (Nat × Nat) :=
  let slots := (List.range 32).filter fun i => sm.getLsbD i
  let accs := (List.range 8).filter fun i => am.getLsbD i
  slots.map (fun i => (0x100 + 0x800 * i, 0x800)) ++ accs.map (fun j => (0x10100 + 0x1000 * j, 0x1000))
    ++ slots.map (fun i => (0x18100 + 0x80 * i, 0x80))

/-- Claims an image's items for a context and gives them its contents: `get` reads a block (R402, R405). -/
def restoreImage (s : State) (c : Nat) (sm : BitVec 32) (am : BitVec 8) (fm rs : Nat) (get : Nat → Nat → Nat) : State :=
  modMatrix s c fun m =>
    let m := (List.range 32).foldl (fun (m : Matrix) i =>
      if sm.getLsbD i then
        m.setSlot i
          { owner := some c, bytes := BitVec.ofNat 16384 (get (0x100 + 0x800 * i) 0x800)
            scale := BitVec.ofNat 1024 (get (0x18100 + 0x80 * i) 0x80)
            state := if fm.testBit i then .faulted (BitVec.ofNat 4 (rs / 2 ^ (4 * i))) 0 else .ready }
      else m) m
    (List.range 8).foldl (fun (m : Matrix) j =>
      if am.getLsbD j then m.setAcc j { owner := some c, bytes := BitVec.ofNat 32768 (get (0x10100 + 0x1000 * j) 0x1000) } else m) m

/-- The 16-byte accesses of blocks under captured translations; `unc` says which addresses are uncached. -/
def blockAccs (unc : Nat → Bool) (ea : Nat) (xl : Xlat) (bs : List (Nat × Nat)) : List Acc :=
  bs.flatMap fun b => (List.range (b.2 / 16)).map fun j =>
    { ea := BitVec.ofNat 64 (ea + b.1 + 16 * j), pa := xlAt xl (ea + b.1 + 16 * j), n := 16, uncached := unc (ea + b.1 + 16 * j) }

/-- Bytes of a block among the blocks read one after another. -/
def blockOf (bs : List (Nat × Nat)) (data : List Byte) (o n : Nat) : Nat :=
  let at' := (bs.takeWhile fun b => b.1 != o).foldl (fun a b => a + b.2) 0
  ofBytes ((data.drop at').take n)

/-- The accesses among those of a whole image that MRESTORE makes: the header, and the blocks of the items it claims
(R402). -/
def imageTouched (s : State) (c id : Nat) (acc : List Acc) : List Acc :=
  let head := acc.take 16
  match readHeader (head.flatMap (accBytes s c id)) with
  | some (sm, am, _, _) =>
    if conflicts s c sm am = (0, 0) then head ++ (imageBlocks sm am).flatMap fun b => (acc.drop (b.1 / 16)).take (b.2 / 16) else head
  | none => head

/-- An image is read: what D is told, and the state with its items claimed and filled (R402). -/
def takeImage (s : State) (c id : Nat) (i : Ident) (acc : List Acc) : Except Trap Word × State :=
  match readPieces s c id i acc with
  | (.error t, s) => (.error t, s)
  | (.ok b, s) =>
    match readHeader (b.take 0x100) with
    | none => (.ok (refusal 1), s)
    | some (sm, am, fm, rs) =>
      let k := conflicts s c sm am
      if k.1 ≠ 0 ∨ k.2 ≠ 0 then (.ok (conflictWord k), s)
      else (.ok 0, restoreImage s c sm am fm rs (blockOf (imageBlocks sm am) (b.drop 0x100)))

/-- MRESTORE (R402): a load of the context that performs in one step, once no older load has an item of the context
to fill (R382); the context is blocked until then. -/
def mrestoreBody (o : DstCap) (c : Nat) (s : State) : Res State := do
  match gotLoad s c o.d with
  | some got => do
    let (_, w, s) ← got
    pure (deliver s c o.d w)
  | none => do
    let g ← regOf s c o.a
    let ea : Word := g.bits.setWidth 64
    let _ ← capCheck g o.a permLd ea imageSize
    trapIf (decide (ea.toNat % 256 ≠ 0)) 0x0E ea
    let xl ← xlatPlaced s c ea imageSize 0
    destReady s c o.d
    let m := matrixOf s c
    idle s c ((List.range 32).filter fun i => (m.slot i).owner == some c) ((List.range 8).filter fun i => (m.acc i).owner == some c)
    let unc (a : Nat) : Bool := memType s c (BitVec.ofNat 64 a) 0 == 1
    let s ← matrixWrites s c
    let s ← enterQueue s c
    pure (blockOn ((lobPush s c (.load (blockAccs unc ea.toNat xl [(0, imageSize)]) .image)).modCtx c fun x => { x with
      sent := true, reply := none }) c (.load false o.d))

def execMrestore (o : DstCap) (s : State) : Out := run (.mrestore o) o.h (mrestoreBody o) s

/-- R393: the oldest matrix instruction of a core completes and raises its flags; a product counts for event 0x06
(R152). -/
def completeMatrix (s : State) (core : Nat) : State :=
  match (s.core core).matrix.queue with
  | [] => s
  | q :: r =>
    let s := raiseFlags (s.modCore core fun k => { k with matrix := { k.matrix with queue := r } }) q.c q.flags
    if q.product then countEvent s core 6 1 else s

/-- Reasons of R399. -/
def wordReason : Bad → Nat
  | .custody => 1 | .die => 2 | .orphan => 3 | .unbacked => 4 | .lock => 5 | .stopped => 6
  | _ => 1

/-- One word of ACCST or MSAVE at its home (R397, R399). -/
def performWord (s : State) (die : Nat) (i : Ident) (key : BitVec 4) (w : Nat × Nat × BitVec 128) : Except Bad State := do
  match accessBad s die i w.2.1 16 true with
  | some b => throw b
  | none => pure ()
  copyLock s w.2.1 key
  enginePut s die i w.2.1 (toBytes 16 w.2.2.toNat)

end Sys2Proof.Machine
end

