-- ==== Sys2Proof/Machine/Register.lean ====
section
/-! DEFINITION. What a write of a control-window register does (R7, R9, R271): the registers without a row of their
own, and the way to those that have one. -/

namespace Sys2Proof.Machine

/-! Save-area pools and entry addresses (R237, R243). -/

/-- Whether a writer may write a virtual function's kernel registers on a die: the custodian, or the kernel world
whose cores the die carries. -/
def mayWriteVf (die v : Nat) (i : Ident) : Bool := i.custodian || (i.vf.toNat == v && i.world == decide (die < 8))

/-- Whether the record shows a world holding every frame of a pool. -/
def poolHeld (s : State) (i : Ident) (base n : Nat) : Bool :=
  (List.range ((base % 65536 + 0x2800 * n + 65535) / 65536)).all fun j =>
    let e := entry0 s (base / 65536 + j)
    isHbm ((base / 65536 + j) * 65536) && decide (1 ≤ entState e ∧ entState e ≤ 4) && entPart e == i.part && entVf e == i.vf
      && entOwner e == i.world

def modPool (s : State) (die v : Nat) (f : Pool → Pool) : State :=
  s.modDie die fun d => { d with pools := Sparse.set d.pools v (f (Sparse.get {} d.pools v)) }

/-- SAVBASEv, SAVCNTv, SAVVAv: ignored while an area of the pool is in use. -/
def writePool (s : State) (die v reg : Nat) (i : Ident) (w : Word) : State :=
  let p : Pool := Sparse.get {} (s.die die).pools v
  if !mayWriteVf die v i || !p.used.isEmpty then s
  else
    match reg with
    | 0 =>
      let base := (w.extractLsb' 8 44).toNat
      if w.getLsbD 0 && !i.custodian && (p.n == 0 || !poolHeld s i (base * 256) p.n) then s
      else modPool s die v fun p => { p with base := base, en := w.getLsbD 0 }
    | 1 => modPool s die v fun p => { p with n := (w.extractLsb' 0 16).toNat }
    | _ => modPool s die v fun p => { p with va := (w.extractLsb' 8 49).toNat }

/-! The Tender's registers (R266, R448). -/

/-- Fewest compute cores of a TNDVF word. -/
def tndMin (w : Word) : Nat := (w.extractLsb' 37 9).toNat
def tndMax (w : Word) : Nat := (w.extractLsb' 46 9).toNat

/-- Gives a virtual function its first cores on a compute die: the lowest that are in no border (R448). -/
def firstCores (s : State) (p v n : Nat) (die : Nat) : State :=
  let taken := ((s.die die).cmap.flatMap (·.2)) ++ (s.die die).leaving.flatMap (·.1)
  let free := (List.range 256).filter fun k => !taken.contains k
  s.modDie die fun d => { d with cmap := Sparse.set d.cmap (p * 16 + v) (free.take n) }

/-- TNDVFv: setting EN assigns the first cores; clearing it ends the border. -/
def writeTnd (s : State) (p v : Nat) (w : Word) : State :=
  let old := (s.vf p v).tnd
  let s := s.modVf p v fun x => { x with tnd := w &&& 0x7FFFE0FFFF1F81 }
  let dies := (partDies s p).filter fun d => decide (d < 8)
  if w.getLsbD 0 && !old.getLsbD 0 then dies.foldl (fun s d => firstCores s p v (tndMin w) d) s
  else if !w.getLsbD 0 && old.getLsbD 0 then
    dies.foldl (fun s d => s.modDie d fun x => { x with cmap := Sparse.drop x.cmap (p * 16 + v) }) s
  else s

/-! The security block (R443). -/

/-- PMAPp: locked by LDTLOCK of the partition it names now. -/
def writePmap (s : State) (p : Nat) (w : Word) : State :=
  let old : BitVec 8 := Sparse.get 0xFF s.sec.pmap p
  if (s.part old.toNat).ldtlock then s
  else { s with sec := { s.sec with pmap := Sparse.set s.sec.pmap p (w.setWidth 8) } }

/-- HCMAPd,i: each field is locked separately. -/
def writeHcmap (s : State) (d r : Nat) (w : Word) : State :=
  (List.range 8).foldl (fun s j =>
    let k := (8 + d) * 512 + 8 * r + j
    let old : BitVec 8 := Sparse.get 0xFF s.sec.hcmap k
    if (s.part old.toNat).ldtlock then s
    else { s with sec := { s.sec with hcmap := Sparse.set s.sec.hcmap k (w.extractLsb' (8 * j) 8) } }) s

/-- A write in the window of SB0. -/
def secWrite (s : State) (off : Nat) (w : Word) : State :=
  if off < 0x40 then writePmap s (off / 8) w
  else if off < 0x80 then writeHcmap s ((off - 0x40) / 32) ((off - 0x40) % 32 / 8) w
  else if off < 0x100 then s
  else if off < 0x180 then writePctl s ((off - 0x100) / 8) w
  else if off < 0x200 then
    if (s.part ((off - 0x180) / 8)).en then s
    else s.modPart ((off - 0x180) / 8) fun p => { p with kpub := w &&& 0xFFFFFFFFFFFF0 }
  else if off = 0x200 then writeKsub s w
  else if off = 0x210 then writeMeasext s w
  else if off < 0x300 then s
  else if off < 0x340 then writeCert s ((off - 0x300) / 8) w
  else if off = 0x340 then writeAttreq s w
  else if off = 0x348 then { s with sec := { s.sec with attDone := s.sec.attDone && !w.getLsbD 1 } }
  else if off < 0x400 then s
  else if off < 0x480 then writeVfrst s ((off - 0x400) / 8) w
  else if off < 0x500 then s
  else if off < 0x540 then writeCustbase s ((off - 0x500) / 8) w
  else s

/-! The windows of host dies (R459 to R464, R476, R478). -/

def hostWrite (s : State) (die : Nat) (i : Ident) (off : Nat) (w : Word) : State :=
  if off < 0x4010 then writePort s die ((off - 0x4000) / 8) w
  else if off < 0x4200 then
    if off % 16 = 0 then writeWinA s die ((off - 0x4100) / 16) w else writeWinB s die ((off - 0x4100) / 16) w
  else if off < 0x4280 then modWin s die ((off - 0x4200) / 8) fun x => { x with severe := x.severe &&& ~~~ w.setWidth 32 }
  else if off = 0x4400 then writeWacsub s die i w
  else if off < 0x4800 then s
  else if off < 0x5000 then writeSess s die ((off - 0x4800) / 8) w
  else if !i.custodian then s
  else if off < 0x5820 then { s with ckptDst := Sparse.set s.ckptDst ((off - 0x5800) / 8) w }
  else if off = 0x5820 then writeCkptctl s w
  else if off < 0x5A00 then s
  else if w.getLsbD 63 then dieReset s ((off - 0x5A00) / 8)
  else s

/-! Any window. -/

/-- A write of the 8-byte register at an offset of a die's control window by a world. -/
def windowWrite (s : State) (i : Ident) (die off : Nat) (w : Word) : State :=
  let p := windowPart s i die
  if die = 16 then (if i.custodian then secWrite s off w else s)
  else if 10 ≤ die then s
  else if off < 0x80 then
    let v := off / 8
    if mayWriteVf die v i then s.modDie die fun d => { d with kentry := Sparse.set d.kentry v (w &&& 0xFFFFFFFFFFFFFFFC) } else s
  else if off = 0x80 then (if i.custodian then s.modDie die fun d => { d with centry := w &&& 0xFFFFFFFFFFFFFFFC } else s)
  else if off = 0x88 then writePreempt s die i w
  else if off < 0x1000 then s
  else if off < 0x1080 then (if i.custodian then writeTnd s p ((off - 0x1000) / 8) w else s)
  else if off = 0x1100 then
    if i.custodian || i.part.toNat == p then
      s.modDie die fun d => { d with under := (BitVec.ofNat 16 d.under &&& ~~~ w.extractLsb' 48 16).toNat }
    else s
  else if off < 0x1200 then s
  else if off < 0x1300 then writePool s die ((off - 0x1200) / 16) (off % 16 / 8) i w
  else if off < 0x1380 then writePool s die ((off - 0x1300) / 8) 2 i w
  else if off < 0x2000 then s
  else if off < 0x2100 then
    let v := (off - 0x2000) / 16
    let world1 := off % 16 != 0
    if i.custodian || (i.vf.toNat == v && i.world == world1) then
      s.modVf p v fun x => if world1 then { x with root1 := w &&& 0xFFFFFFFFFF001 } else { x with root0 := w &&& 0xFFFFFFFFFF001 }
    else s
  else if off = 0x3000 then s.modDie die fun d => { d with last := d.last &&& ~~~ w.setWidth 4 }
  else if off = 0x3008 then (if i.custodian then s.modDie die fun d => { d with kmirr0 := w &&& 0xFFFFFFFFFFFFF } else s)
  else if off = 0x3010 then (if i.custodian then s.modDie die fun d => { d with kmirr1 := w &&& 0xFFFFFFFFF0000 } else s)
  else if off = 0x3018 then writeHoldrsp s i w
  else if off = 0x5400 then s.modDie die fun d => { d with msgt := w &&& 0x800FFFFFFFFC0000, msgtwho := i }
  else if off < 0x4000 then s
  else if die < 8 then (if 0x5000 ≤ off ∧ off < 0x5400 ∧ isLead s die then debugWrite s p i off w else s)
  else hostWrite s die i off w

/-- LDTLOCK keeps a partition's logical die table from the custodian's writes (R20, R21). The table's words have no
address in a window; the model names word `l` of partition `k` by 2^52 + 256 k + 8 l. -/
def writeLdt (s : State) (k l : Nat) (w : Word) : State :=
  if (s.part k).ldtlock then s
  else s.modPart k fun p => { p with ldt := Sparse.set p.ldt l (w.setWidth 32 &&& 0xE000001F) }

/-- REGISTER_WRITE (R7). -/
def execRegisterWrite (pa : Nat) (who : Writer) (w : Word) (s : State) : Out :=
  let i := writerIdent s who
  .next (if 2 ^ 52 ≤ pa ∧ pa < 2 ^ 52 + 4096 then
      (if i.custodian then writeLdt s ((pa - 2 ^ 52) / 256) ((pa - 2 ^ 52) % 256 / 8) w else s)
    else
      match region pa with
      | .window die off => if off % 8 = 0 ∧ windowListed die off (isLead s die) ∧ reachable s i pa then windowWrite s i die off w else s
      | _ => s)

end Sys2Proof.Machine
end

