-- ==== Sys2Proof/Machine/Ordering.lean ====
section
/-! DEFINITION. The ordering machine's own steps (R100 to R118): loads perform, stores enqueue and drain, entries
are sent, atomics and posted stores reach their homes, engines perform their effects and complete. -/

namespace Sys2Proof.Machine

/-! Loads (R103, R453). -/

/-- What a performed load leaves in the buffer: the queue entries it read, and lines not yet verified (R108,
R453). -/
def performed (s : State) (c : Nat) (e : LobEntry) (acc : List Acc) (lock : Bool := false) : State :=
  let sib := (acc.flatMap fun a => if a.uncached then []
    else if lock then lockSiblings s c e.id a.pa a.n else siblings s c e.id a.pa a.n).eraseDups
  let lines := (acc.filter fun a => isHbm a.pa).flatMap fun a =>
    (List.range ((a.pa % 128 + a.n + 127) / 128)).map fun j => (a.pa / 128 + j) * 128
  let owed : List LobOp := sib.map (LobOp.readSibling (clusterOf c))
    ++ (if guarded s e.ident then lines.eraseDups.map .unverified else [])
  s.modCtx c fun x => { x with
    lob := x.lob.flatMap fun y => if y.id = e.id then owed.map fun o => { y with op := o } else [y] }

/-- A context whose load gives a word or a lock to its own instruction has it (R165). -/
def giveReply (s : State) (c : Nat) (w : Word) : State := s.modCtx c fun x => { x with reply := some (.ok w) }

/-- A refused load leaves, its destination as it was, and its trap is pending (R286, R432). -/
def loadFailed (s : State) (c id : Nat) (t : Trap) : State := pendTrap ((lobDrop s c id).modCtx c Context.feed) c t

/-- Performs a load entry whose turn it is: its destination takes the value (R103, R203 to R206, R374, R389, R390). -/
def performEntry (s : State) (c : Nat) (e : LobEntry) (acc : List Acc) (dst : LoadDst) : State :=
  let fin (s : State) (f : Context → Context) : State := (performed s c e acc).modCtx c f
  let gen (s : State) (d : BitVec 6) (r : Reg) : State := fin s fun x => (x.setReg d r).feed
  let lockOf (f : State → Word → State) : State :=
    match acc with
    | a :: _ =>
      if homeRights s e.ident a.pa then f (performed s c e acc true) ((accLock s c e.id a).setWidth 64)
      else loadFailed s c e.id { cause := 0x41, val := a.ea, aux := BitVec.ofNat 64 (a.pa / 128 * 128) }
    | [] => lobDrop s c e.id
  let one (f : State → Acc → List Byte → State) : State :=
    match acc with
    | a :: _ =>
      match readAt (attach s c a.pa) c e.id e.ident a with
      | (.ok b, s) => f s a b
      | (.error t, s) => loadFailed s c e.id t
    | [] => lobDrop s c e.id
  match dst with
  | .scalar d ty => one fun s _ b => gen s d (Reg.ofWord (loadWord ty b))
  | .cap d keep => one fun t a b => gen t d (Reg.ofCap (BitVec.ofNat 128 (ofBytes b)) (keep && accTag s c e.id a))
  | .lock d => lockOf fun s w => s.modCtx c fun x => (x.setReg d (Reg.ofWord w)).feed
  | .reply true => lockOf fun s w => giveReply s c w
  | .reply false => one fun s _ b => giveReply (fin s id) c (BitVec.ofNat 64 (ofBytes b))
  | .vec d =>
    match readLanes s c e.id e.ident acc with
    | (.ok l, s) => fin s fun x => x.setVreg d (putLanes (x.vreg d) l)
    | (.error t, s) => loadFailed s c e.id t
  | .slots slot span2 scale map =>
    if cmdStopped s e.ident then faultSlots (lobDrop s c e.id) c slot span2 scale 4 0
    else
      match readPieces s c e.id e.ident acc with
      | (.ok b, s) => fillSlots (fin s id) c slot span2 scale map b
      | (.error t, s) =>
        let lost := acc.any fun a => (s.die (dieOf c)).lost.getLsbD (homeDie s a.pa)
        let line := ((acc.find? fun a => a.ea == t.val).map fun a => a.pa / 128 * 128).getD 0
        faultSlots (lobDrop s c e.id) c slot span2 scale (mldReason t lost) line
  | .acc a =>
    match readPieces s c e.id e.ident acc with
    | (.ok b, s) =>
      modMatrix (fin s id) c fun m => m.setAcc a.toNat { m.acc a.toNat with bytes := BitVec.ofNat 32768 (ofBytes b) }
    | (.error t, s) => loadFailed s c e.id t
  | .image =>
    match takeImage s c e.id e.ident acc with
    | (.ok w, s) => giveReply (fin s id) c w
    | (.error t, s) => loadFailed s c e.id t
  | .now => lobDrop s c e.id

/-- The accesses a load makes when it performs. -/
def touched (s : State) (c id : Nat) (dst : LoadDst) (acc : List Acc) : List Acc :=
  match dst with | .image => imageTouched s c id acc | _ => acc

/-- Whether a load is the oldest of what must write before it (R353). -/
def loadTurn (s : State) (c id : Nat) (dst : LoadDst) : Bool :=
  match dst with | .vec _ => (s.ctx c).vecTurn id | _ => true

/-- Whether an access of a context waits at its home: in a held frame, or at a bank of another cluster whose mode is
about to change (R273, R287, R289). -/
def accessWaits (s : State) (c : Nat) (a : Acc) : Bool :=
  readHeld s c a.pa || bankHeld s c a.pa s.next

/-- The first line that a load receives and whose tag fails: of a partition that no longer has the key (R446, R451,
R454). -/
def failedSeal (s : State) (c id : Nat) (i : Ident) (acc : List Acc) : Option Nat :=
  badLine s (acc.flatMap fun a => if forwarded s c id a then [] else (lineAddrs a.pa a.n).filter (homeRights s i))

/-- PERFORM_LOAD (R100, R103). -/
def execPerformLoad (c id : Nat) (s : State) : Out :=
  .next (match lobAt s c id with
    | some e =>
      match e.op with
      | .load acc dst =>
        let acc := touched s c id dst acc
        if mayGo s c e && loadTurn s c id dst && acc.all fun a => !accessWaits s c a then
          match failedSeal s c id e.ident acc with
          | some l => (lobDrop (sealFailure s c l) c id).modCtx c Context.feed
          | none => performEntry (cacheLoads s c e.ident id acc) c e acc dst
        else s
      | _ => s
    | none => s)

/-- TAG_CHECK_COMPLETE (R453, R454): `ok` says the line's tag matched. -/
def execTagCheckComplete (c id : Nat) (ok : Bool) (s : State) : Out :=
  let hit (e : LobEntry) : Bool := e.id == id && (match e.op with | .unverified _ => true | _ => false)
  .next (match (s.ctx c).lob.find? hit with
    | some { op := .unverified pa, ident := i, .. } =>
      if ok then s.modCtx c fun x => { x with lob := x.lob.filter fun e => !(hit e && e.op == .unverified pa) }
      else integrityFailure s c i pa
    | _ => s)

/-! Stores (R104, R105). -/

/-- ENQUEUE_STORE (R100). -/
def execEnqueueStore (c id : Nat) (s : State) : Out :=
  .next (match lobAt s c id with
    | some e =>
      match e.op with
      | .store data tag lock task =>
        if mayGo s c e && e.op.queued c then
          let (n, s) := s.new
          (lobDrop s c id).modClu (clusterOf c) fun k => { k with
            csq := k.csq ++ [{ id := n, c := c, lid := id, ident := e.ident, data := data, tag := tag, lock := lock, task := task }] }
        else s
      | _ => s
    | none => s)

/-- The kernel region's mirror of an address (R287). -/
def mirrorOf (s : State) (pa : Nat) : Option Nat :=
  s.dies.findSome? fun e =>
    let base := (e.2.kmirr0.extractLsb' 16 36).toNat * 65536
    let n := (e.2.kmirr0.extractLsb' 0 16).toNat * 65536
    if base ≤ pa ∧ pa < base + n then some ((e.2.kmirr1.extractLsb' 16 36).toNat * 65536 + (pa - base)) else none

/-- One access of a store at its home: bytes, the granule's tag and lock, whose change is traced (R156, R206, R287,
R432, R450, R470). DESIGN CHOICE (log 66): one whose home is on a lost die is discarded. -/
def storeHome (s : State) (c : Nat) (i : Ident) (a : Acc) (b : List Byte) (tag : Option Bool) (lock : Option (BitVec 4))
    (task : Word) : State :=
  let line : Word := BitVec.ofNat 64 (a.pa / 128 * 128)
  if cmdStopped s i || (s.die (dieOf c)).lost.getLsbD (homeDie s a.pa) then s
  else
    match region a.pa with
    | .window die off => windowWrite s i die off (BitVec.ofNat 64 (ofBytes b))
    | .mmio => { s with devout := s.devout ++ [(a.pa, b)] }
    | .scratch cl off =>
      if (s.clu cl).orphan.isSome then pendTrap s c { cause := 0x53, val := a.ea }
      else if (scratchLoc s cl (off + b.length - 1)).isNone ∧ b ≠ [] then pendTrap s c { cause := 0x24, val := a.ea, aux := xlatAux 0xF 1 }
      else
        let s := homeStore (attach s c a.pa) a.pa b
        match tag with | some t => setHomeTag s a.pa t | none => s
    | _ =>
      if !homeRights s i a.pa then pendTrap s c { cause := 0x41, val := a.ea, aux := line }
      else
        let put (s : State) (pa : Nat) : State :=
          let s := homeStore s pa b
          let s := match tag with | some t => setHomeTag s pa t | none => s
          match lock with | some l => setHomeLock s (shadowOf s c i) pa l | none => s
        let old := homeLock s a.pa
        let p := partNo i
        let s := match lock with
          | some l =>
            if (shadowOf s c i).getLsbD 0 && old != l && isHbm a.pa then
              traceEvent s p 6 (l.toNat + 16 * old.toNat) (coreWord s i (coreOf c)).toNat task (BitVec.ofNat 64 (a.pa / 32 * 32))
            else s
          | none => s
        let s := put s a.pa
        match mirrorOf s a.pa with | some m => put s m | none => s

/-- Whether a store's access waits at its home (R289). -/
def storeHeld (s : State) (data : List (Acc × List Byte)) : Bool := data.any fun d => frameHeld s d.1.pa

/-- The lines of a store that caches may hold (R275). -/
def storeLines (s : State) (data : List (Acc × List Byte)) : List Nat :=
  (data.filter fun d => cacheable s d.1.pa).flatMap fun d => linesOf d.1.pa d.2.length

/-- A drained store in the caches: its die's L2 and its cluster's L1 hold what a home has let it write (R275). -/
def storeCached (s : State) (cl : Nat) (i : Ident) (data : List (Acc × List Byte)) : State :=
  data.foldl (fun s d =>
    if cacheable s d.1.pa && homeRights s i d.1.pa && !poisoned s d.1.pa && !cmdStopped s i then
      cacheWrite s cl (l1Ways s cl) i.part d.1.pa d.2.length
    else s) s

/-- A write at a home that copies in caches stand against: each die that holds one is asked to drop it, unless `die`,
which writes it, is the only one (R275). -/
def askLines (s : State) (die : Nat) (lines : List Nat) : State := lines.foldl (fun s l => askGrant s die l) s

/-- DRAIN (R105): entries that touch a common location drain in order, and a line is written once no other L2 holds it
(R275); loads that read the entry are complete at die scope (R108). -/
def execDrain (cl id : Nat) (s : State) : Out :=
  let foot (e : CsqEntry) : List (Nat × Nat) := e.data.map fun d => (d.1.pa, d.2.length)
  let grans (e : CsqEntry) : List Nat := if e.lock.isSome then e.data.map fun d => d.1.pa / 32 else []
  .next (match (s.clu cl).csq.find? fun e => e.id == id with
    | none => s
    | some e =>
      let older := (s.clu cl).csq.takeWhile fun y => y.id != id
      let lines := storeLines s e.data
      if older.any (fun y => meets (foot y) (foot e) || meetsAt (grans y) (grans e)) || storeHeld s e.data then s
      else if !lines.all (granted s (cl / 64)) then askLines s (cl / 64) lines
      else
        let s := e.data.foldl (fun s d => storeHome s e.c e.ident d.1 d.2 e.tag e.lock e.task) s
        let s := storeCached s cl e.ident e.data
        let s := s.modClu cl fun k => { k with csq := k.csq.filter fun y => y.id != id }
        let owed (y : LobEntry) : Bool := match y.op with | .readSibling q n => q == cl && n == id | _ => false
        let s := (clusterContexts cl).foldl (fun s c =>
          if (s.ctx c).lob.any owed then s.modCtx c fun x => { x with lob := x.lob.filter fun y => !owed y } else s) s
        (e.data.map fun d => d.1.pa).foldl (fun s pa => cxlAccepted s e.c e.lid pa) s)

/-- FENCE_COMPLETE (R109). -/
def execFenceComplete (c id : Nat) (s : State) : Out :=
  .next (match lobAt s c id with
    | some e =>
      match e.op with
      | .fence .. => if mayGo s c e then lobDrop s c id else s
      | _ => s
    | none => s)

/-! What is sent (R100, R104, R113, R294). -/

/-- Whether a request of the synchronisation engine may take a number now: the oldest of the four before it is
answered, and no older one waits (R291, R294). -/
def atomRoom (s : State) (c : Nat) (e : LobEntry) : Bool :=
  let x := s.ctx c
  let near (q : BitVec 16) : Bool := decide ((x.seq + 1 - q).toNat < 4)
  x.atoms.all (fun a => match a with | .inl r => near r.seq | .inr r => near r.seq)
    && x.lob.all fun o => match o.op with
      | .atomic _ | .signal _ => decide (e.id ≤ o.id)
      | _ => true

/-- Takes a sequence number and sends a request; its cluster's L1 holds the line of an atomic no longer (R111, R294). -/
def sendAtom (s : State) (c id : Nat) (a : BitVec 16 → Sum AtomReq SigReq) : State :=
  let n := (s.ctx c).seq + 1
  let r := a n
  let s := match r with
    | .inl r => { s with l1 := s.l1.map fun (e : Nat × List L1Line) =>
        if e.1 / 512 = clusterOf c then (e.1, e.2.filter fun x => x.line != r.pa / 128) else e }
    | .inr _ => s
  let (k, s) := (lobDrop s c id).new
  let s := s.modCtx c fun x => { x with seq := n, atoms := x.atoms ++ [r] }
  { s with net := s.net ++ [(k, match r with | .inl r => NetMsg.atomic r | .inr r => NetMsg.sig r)] }

/-- A numbered command takes its number and its channel (R113, R336). -/
def sendCmd (s : State) (c id : Nat) (i : Ident) (op : EngOp) (tl : Nat) : State :=
  let k := coreOf c
  let ch : Option Nat := match op with | .copy _ _ _ _ _ _ ch _ => some ch | _ => none
  let room := match ch with | some h => decide ((Sparse.get [] (s.core k).channels h).length < 16) | none => true
  if !room then s
  else
    let owner := tlOwner s c
    let (num, s) := takeNum (countSent (lobDrop s c id) c) owner tl
    let (n, s) := s.new
    let s := match ch with
      | some h => s.modCore k fun x => { x with channels := Sparse.set x.channels h (Sparse.get [] x.channels h ++ [n]) }
      | none => s
    { s with cmds := s.cmds ++ [{ id := n, c := c, core := k, owner := owner, tl := tl, num := num, ident := i, op := op }] }

/-- SEND (R100): a posted store, a request of the synchronisation engine, an engine command, or a store that
bypasses the queue and is performed at its home (R104). -/
def execSend (c id : Nat) (s : State) : Out :=
  .next (match lobAt s c id with
    | none => s
    | some e =>
      if !mayGo s c e then s
      else
        match e.op with
        | .store data tag lock task =>
          if e.op.queued c || storeHeld s data
              || data.any fun d => bankHeld s c d.1.pa s.next then s
          else if !(storeLines s data).all (granted s 32) then askLines s 32 (storeLines s data)
          else
            let s := data.foldl (fun s d => storeHome s c e.ident d.1 d.2 tag lock task) (lobDrop s c id)
            (data.map fun d => d.1.pa).foldl (fun s pa => cxlAccepted s c id pa) s
        | .post j =>
          let (n, s) := (lobDrop s c id).new
          { s with net := s.net ++ [(n, NetMsg.post (coreOf c) j)] }
        | .atomic r =>
          if atomRoom s c e then sendAtom s c id fun n => .inl { r with seq := n, sent := s.time.toNat } else s
        | .signal r =>
          if atomRoom s c e then sendAtom (countSent s c) c id fun n => .inr { r with seq := n, sent := s.time.toNat } else s
        | .cmd op tl => sendCmd s c id e.ident op tl
        | _ => s)

/-! Atomics (R295, R298, R300). -/

/-- Takes a message out of the network. -/
def takeMsg (s : State) (k : Nat) : State := { s with net := s.net.filter fun m => m.1 != k }

/-- The dies a message goes from and to; those that only come back to a context go from no die the model names. -/
def NetMsg.ends : NetMsg → Option (Nat × Nat)
  | .word core _ _ c _ _ _ _ => if c < 2 ^ 20 then some (dieOf c, coreDie core) else none
  | .amsg m => some (dieOf m.c, m.die)
  | .atomic r => some (dieOf r.c, r.engine)
  | .sig r => some (dieOf r.c, r.die)
  | _ => none

/-- A message waits in its queue while a link between its two dies is out of service (R284). DESIGN CHOICE (log 46). -/
def linkWaits (s : State) (m : NetMsg) : Bool :=
  match m.ends with
  | some (a, b) => a != b && s.links.any fun l => l.2.down.isSome && [(a, b), (b, a)].contains (Config.linkEnds (l.1 / 2))
  | none => false

/-- A message that may arrive. -/
def msgAt (s : State) (k : Nat) : Option NetMsg :=
  match s.net.find? fun m => m.1 == k with
  | some m => if linkWaits s m.2 then none else some m.2
  | none => none

/-- Sends the reply or acknowledgement of a request. -/
def sendReply (s : State) (c : Nat) (seq : BitVec 16) (r : Reply) (f : FpFlags) : State :=
  let (n, s) := s.new
  { s with net := s.net ++ [(n, NetMsg.atomReply c seq r f)] }

/-- Marks a context's request as performed at its home (R108). -/
def markPerformed (s : State) (c : Nat) (seq : BitVec 16) : State :=
  s.modCtx c fun x => { x with
    atoms := x.atoms.map fun a => match a with
      | .inl r => if r.seq = seq then .inl { r with performed := true } else .inl r
      | .inr r => .inr r }

/-- An older request of the same context is still on its way to the same engine (R291: two requests from one
context arrive in issue order). -/
def olderOnTheWay (s : State) (engine c : Nat) (seq : BitVec 16) : Bool :=
  let before (q : BitVec 16) : Bool := q != seq && (seq - q).toNat < 32768
  s.net.any fun m => match m.2 with
    | .atomic r => r.engine == engine && r.c == c && before r.seq
    | .sig r => r.die == engine && r.c == c && before r.seq
    | _ => false

/-- PERFORM_ATOMIC (R111, R291, R295, R298). -/
def execPerformAtomic (k : Nat) (s : State) : Out :=
  .next (match msgAt s k with
    | some (.atomic r) =>
      match replyCache s r.engine r.c r.seq with
      | .cached p f => sendReply (takeMsg s k) r.c r.seq p f
      | .stale => takeMsg s k
      | .fresh =>
        let lines := if cacheable s r.pa then [r.pa / 128] else []
        if olderOnTheWay s r.engine r.c r.seq || frameHeld s r.pa || bankHeld s r.c r.pa k then s
        else if !lines.all (granted s r.engine) then askLines s r.engine lines
        else
          let (p, f, s) := applyAtomic (takeMsg s k) r
          let s := match p with
            | .ok _ => lines.foldl (fun s l => takeExclusive s r.engine r.ident.part l) s
            | .trap _ => s
          sendReply (cacheReply (markPerformed s r.c r.seq) r.engine r.c r.seq p f) r.c r.seq p f
    | _ => s)

/-- An asynchronous trap reaches the owner of a timeline: the context that holds it, or its task while it holds
none (R227, R236). -/
def pendOwner (s : State) (owner : Nat) (t : Trap) : State :=
  match s.ctxs.find? fun x => x.2.run != .free && tlOwner s x.1 == owner with
  | some x => pendTrap s x.1 t
  | none =>
    let give (k : Task) : Task := if k.gti.toNat * 2 + 1 = owner then { k with pend := k.pend ++ [t] } else k
    { s with dies := s.dies.map fun d => (d.1, { d.2 with
        ready := d.2.ready.map give, parked := d.2.parked.map give
        stopped := d.2.stopped.map fun e => { e with task := give e.task } }) }

/-- The end of a request at its context: an AMO that waits takes its reply, a refused AMOR's trap is pending
(R298, R300). -/
def endAtom (s : State) (c : Nat) (seq : BitVec 16) (p : Reply) (f : FpFlags) : State :=
  let mine (a : Sum AtomReq SigReq) : Bool := match a with | .inl r => r.seq == seq | .inr r => r.seq == seq
  match (s.ctx c).atoms.find? mine with
  | none => s
  | some a =>
    let s := s.modCtx c fun x => { x with atoms := x.atoms.filter fun a => !mine a }
    let amo := match a with | .inl r => r.dst.isSome | .inr _ => false
    if amo then
      match (s.ctx c).run with
      | .blocked .amoReply _ => s.modCtx c fun x => { x with reply := some p, oflags := f }
      | _ => s
    else
      match p with
      | .trap t => pendOwner s (match a with | .inl r => r.owner | .inr r => r.owner) t
      | .ok _ => s

/-- ATOMIC_REPLY (R298). -/
def execAtomicReply (k : Nat) (s : State) : Out :=
  .next (match msgAt s k with
    | some (.atomReply c seq p f) => endAtom (takeMsg s k) c seq p f
    | _ => s)

/-- Sends a request again, or ends it once its engine's die is lost (R295). -/
def resendOne (c : Nat) (s : State) (a : Sum AtomReq SigReq) : State :=
  let (seq, ea, die, sent) : BitVec 16 × Word × Nat × Nat := match a with
    | .inl r => (r.seq, r.ea, r.engine, r.sent)
    | .inr r => (r.seq, r.ea, r.die, r.sent)
  if s.time.toNat < sent + 20000 then s
  else if (s.die (dieOf c)).lost.getLsbD die then endAtom s c seq (.trap { cause := 0x33, val := ea, aux := 1 }) 0
  else
    let b : Sum AtomReq SigReq := match a with
      | .inl r => .inl { r with sent := s.time.toNat }
      | .inr r => .inr { r with sent := s.time.toNat }
    let (n, s) := s.new
    let s := s.modCtx c fun x => { x with atoms := x.atoms.map fun y => if y = a then b else y }
    { s with net := s.net ++ [(n, match b with | .inl r => NetMsg.atomic r | .inr r => NetMsg.sig r)] }

/-- ATOMIC_RESEND (R295). -/
def execAtomicResend (c : Nat) (s : State) : Out := .next ((s.ctx c).atoms.foldl (resendOne c) s)

/-- TSIG_PERFORM (R250, R264, R291, R295). -/
def execTsigPerform (k : Nat) (s : State) : Out :=
  .next (match msgAt s k with
    | some (.sig r) =>
      match replyCache s r.die r.c r.seq with
      | .cached p f => sendReply (takeMsg s k) r.c r.seq p f
      | .stale => takeMsg s k
      | .fresh =>
        if olderOnTheWay s r.die r.c r.seq || bankHeld s r.c r.pa k then s
        else
        let s := takeMsg s k
        let backed := match region r.pa with
          | .scratch q off => (scratchLoc s q off).isSome && (s.clu q).orphan.isNone
          | _ => false
        let s := if backed && !cmdStopped s r.ident then signalCounter s r.pa r.amount.toNat else s
        sendReply (cacheReply s r.die r.c r.seq (.ok 0) 0) r.c r.seq (.ok 0) 0
    | _ => s)

/-! Posted stores (R210 to R212). -/

/-- Why a posted store is refused at its home (R211). -/
def postRefusal (s : State) (c : Nat) (e : JEntry) : Option (BitVec 4) :=
  if (s.die (dieOf c)).lost.getLsbD (homeDie s e.acc.pa) then some 3
  else if !e.ident.custodian && (s.part (partNo e.ident)).frozen then some 5
  else if !current s e.ident then some 6
  else
    match region e.acc.pa with
    | .scratch q off =>
      if (s.clu q).orphan.isSome then some 1
      else if (scratchLoc s q (off + e.acc.n - 1)).isNone then some 7
      else none
    | _ => if !homeRights s e.ident e.acc.pa then some 2 else if poisoned s e.acc.pa then some 4 else none

/-- POSTED_STORE_ARRIVAL (R210): two of one context to a common location are accepted in issue order. -/
def execPostedStoreArrival (k : Nat) (s : State) : Out :=
  .next (match msgAt s k with
    | some (.post core j) =>
      let e : JEntry := Sparse.get {} (s.core core).journal j
      let earlier := (s.core core).journal.any fun y =>
        y.2.state == 1 && y.2.c == e.c && decide (y.2.lid < e.lid) && meets [(y.2.acc.pa, y.2.acc.n)] [(e.acc.pa, e.acc.n)]
      let lines := if cacheable s e.acc.pa then linesOf e.acc.pa e.acc.n else []
      if earlier || frameHeld s e.acc.pa || bankHeld s e.c e.acc.pa k then s
      else if e.state = 1 && !lines.all (granted s 32) then askLines s 32 lines
      else
        let s := takeMsg s k
        if e.state ≠ 1 then s
        else
          match postRefusal s e.c e with
          | some r =>
            let s := s.modCore core fun x => { x with journal := Sparse.set x.journal j { e with state := 2, reason := r } }
            pendTrap s e.c { cause := 0x61, val := BitVec.ofNat 64 (j * 256 + r.toNat) }
          | none =>
            let s := storeHome (attach s e.c e.acc.pa) e.c e.ident e.acc (toBytes e.acc.n e.value.toNat) none none 0
            let s := s.modCore core fun x => { x with journal := Sparse.drop x.journal j }
            readyHeld s (coreDie core)
    | _ => s)

/-! Engines (R114, R323, R340, R376, R399). -/

def setCmd (s : State) (e : EngCmd) : State := { s with cmds := s.cmds.map fun x => if x.id = e.id then e else x }
def cmdAt (s : State) (id : Nat) : Option EngCmd := s.cmds.find? fun e => e.id == id

/-- How many effects a command has. -/
def effectCount (e : EngCmd) : Nat :=
  match e.op with
  | .vst l => l.length
  | .words ws _ => ws.length
  | .copy h _ _ _ _ _ _ rem => h.total + (match rem with | some r => if r.flag.isSome then 1 else 0 | none => 0)
  | .tcpf _ ts => ts.length
  | .sgath _ n _ _ _ _ _ _ _ _ => n
  | .sred _ _ n _ _ _ => n
  | .sconv _ df _ n _ _ _ _ => n / convStep df
  | .tclook .. | .tchalo .. | .tcinv .. | .launch .. => 1

/-- The storage of a tile: its elements and its scales (R315). -/
def Region.tileFoot (r : Region) (co : List Nat) : List (Nat × Nat) :=
  let k := tileIndex r.counts co
  [(r.tileAt k, r.ss), (r.scaleAt k, r.sb)]

/-- The locations at their homes that effect `k` of a command touches, as they stand now (R114, R323): the row an SGATH
takes is where its index points now. -/
def effectFoot (s : State) (e : EngCmd) (k : Nat) : List (Nat × Nat) :=
  let named (id : BitVec 16) (f : Region → List (Nat × Nat)) : List (Nat × Nat) :=
    match regionOf s (partNo e.ident) id with | some r => f r | none => []
  match e.op with
  | .vst l => match l[k]? with | some a => [(a.1.pa, 4)] | none => []
  | .words ws _ => match ws[k]? with | some w => [(w.2.1, 16)] | none => []
  | .copy h d a _ _ xl _ rem =>
    if k < h.total then [(xlAt xl (h.src a k), 1), (xlAt xl (h.dst d k), 1)]
    else match rem.bind (·.flag) with | some f => [(f, 8)] | none => []
  | .tclook _ id co a xl => named id fun r => xlPieces xl a.toNat r.cs ++ r.tileFoot co
  | .tcpf id ts => named id fun r => r.tileFoot (ts.getD k [])
  | .tchalo edge id co h a xl => named id fun r =>
    xlPieces xl a.toNat ((haloShape r h).1 * (haloShape r h).2 * (codeBits r.cfmt / 8))
      ++ (haloTiles (haloCells r edge co h)).flatMap r.tileFoot
  | .tcinv _ id => named id fun r => [(r.base, r.tiles * r.ss), (r.scale, r.tiles * r.sb)]
  | .sgath n64 _ roww d a b base top xl kern =>
    let w := if n64 then 8 else 4
    let row := 4 * roww
    let index := xlPieces xl (b.toNat + k * w) w
    let i := ofBytes (index.flatMap fun p => homeBytes s p.1 p.2)
    index ++ xlPieces xl (d.toNat + k * row) row
      ++ match (gatherPages s e.c e.ident kern (a.toNat + i * row) row base top).2 with | .ok l => l | .error _ => []
  | .sred ty _ _ d a xl =>
    let w := sredBytes ty
    xlPieces xl (a.toNat + k * w) w ++ xlPieces xl (d.toNat + k * w) w
  | .sconv sf df _ _ d a b xl => (convRanges sf df d a b k).flatMap fun r => xlPieces xl r.1 r.2
  | .launch a xl _ => xlPieces xl a.toNat 192

/-- The effects a command has still to perform. -/
def EngCmd.undone (e : EngCmd) : List Nat := (List.range (effectCount e)).filter fun j => !e.done.contains j

/-- The commands of the same timeline with lower numbers that have not completed. -/
def olderCmds (s : State) (e : EngCmd) : List EngCmd :=
  s.cmds.filter fun x => x.owner == e.owner && x.tl == e.tl && decide (x.num < e.num)

/-- Whether effect `k` of a command may be performed before what R114 orders first: what touches a common location goes
in number order, SGATH's rows go in ascending order (R332), and a copy's deliveries in theirs (R340). -/
def effectFree (s : State) (e : EngCmd) (k : Nat) : Bool :=
  let f := effectFoot s e k
  let ascending := match e.op with | .sgath .. => true | _ => false
  decide (e.tl < 4)
    || ((List.range k).all (fun j => e.done.contains j || !(ascending || meets (effectFoot s e j) f))
      && (olderCmds s e).all fun x => x.undone.all fun j => !meets (effectFoot s x j) f)

/-- The kind of a stack command, and the base die it runs on: that of the stack that holds the first byte of its
destination (R331). DESIGN CHOICE (log 68): for a scratchpad, the base die with the number of its die. -/
def EngOp.stackAt (op : EngOp) : Option (Nat × Nat) :=
  let die (xl : Xlat) (d : Word) : Nat :=
    let pa := xlAt xl d.toNat
    match region pa with | .scratch cl _ => cl / 64 | _ => pa / 2 ^ 37
  match op with
  | .sgath _ _ _ d _ _ _ _ xl _ => some (0, die xl d)
  | .sred _ _ _ d _ xl => some (1, die xl d)
  | .sconv _ _ _ _ d _ _ xl => some (2, die xl d)
  | _ => none

/-- Whether a stack command runs: it is among the first four of its kind at its base die that have not done all their
effects (R331). -/
def stackRuns (s : State) (e : EngCmd) : Bool :=
  match e.op.stackAt with
  | none => true
  | some k => decide (((s.cmds.filter fun x => x.op.stackAt == some k && !x.undone.isEmpty && decide (x.id < e.id)).length) < 4)

/-- The region a command names. -/
def EngOp.region : EngOp → Option (BitVec 16)
  | .tclook _ id _ _ _ | .tcpf id _ | .tchalo _ id _ _ _ _ | .tcinv _ id => some id
  | _ => none

/-- Whether an effect's homes hold its frames, or a line that its own context waits for (R287, R289). -/
def effectHeld (s : State) (e : EngCmd) (k : Nat) : Bool :=
  !s.holds.isEmpty && (effectFoot s e k).any fun r => (linesOf r.1 r.2).any fun l => readHeld s e.c (l * 128)

/-- The lower of two failures by index. -/
def firstFail (a b : Option (Nat × Nat × Nat)) : Option (Nat × Nat × Nat) :=
  match a, b with
  | some x, some y => if y.1 < x.1 then some y else some x
  | none, y => y
  | x, none => x

/-- Puts an effect's outcome into its command; after a failure with `stop` nothing further is done. -/
def effectDone (s : State) (e : EngCmd) (k : Nat) (f : FpFlags) (fail : Option (Nat × Nat × Nat)) (stop : Bool) : State :=
  let done := if stop then List.range (effectCount e) else insertNat e.done k
  setCmd s { e with done := done, flags := e.flags ||| f, fail := firstFail e.fail fail }

/-- Reasons of R323 after which a command does nothing further. -/
def stopsR323 (reason : Nat) : Bool := reason == 4 || reason == 5 || reason == 8

/-- The outcome of a tile command. -/
def tileDone (s : State) (e : EngCmd) (k : Nat) (r : Except (Nat × Nat) (State × Option (Nat × Nat))) : State :=
  match r with
  | .ok (s, none) => effectDone s e k 0 none false
  | .ok (s, some f) => effectDone s e k 0 (some (f.2, f.1, 0)) (stopsR323 f.1)
  | .error f => effectDone s e k 0 (some (f.2, f.1, 0)) (stopsR323 f.1)

/-- The outcome of an element or row of a stack engine. -/
def stackDone (e : EngCmd) (k : Nat) (r : Effect) : State :=
  effectDone r.s e k r.flags r.fail (match r.fail with | some f => stopsR323 f.2.1 | none => false)

/-- A delivery or the flag write of a copy (R340, R344, R346). -/
def performCopy (s : State) (e : EngCmd) (h : CopyShape) (d a : Word) (dkey akey : BitVec 4) (xl : Xlat) (rem : Option CopyRemote)
    (k : Nat) (old : Bool) : State :=
  let lostQueue := match rem with | some r => (s.die (dieOf e.c)).lost.getLsbD r.die | none => false
  let stop (reason : Nat) : State := setCmd s { e with fail := some (if k < h.total then k else 0xFFFFFFFF, reason, 0) }
  let e := if k = 0 then { e with before := ownSources s h d a xl } else e
  if k ≠ e.deliv ∨ e.fail.isSome then s
  else if lostQueue then stop 3
  else if k < h.total then
    match deliverByte s e h d a dkey akey xl k old with
    | .ok s => setCmd s { e with deliv := k + 1 }
    | .error b => stop (copyReason b)
  else
    match rem with
    | some r =>
      match writeFlag s e r with
      | .ok s => setCmd s { e with deliv := k + 1 }
      | .error b => stop (copyReason b)
    | none => s

/-- Whether a copy is at the point where it is performed: at the head of its channel, or, sent to a die, among the
first 16 of its queue (R336, R344). -/
def copyRuns (s : State) (e : EngCmd) (ch : Nat) (rem : Option CopyRemote) : Bool :=
  match rem with
  | none => (Sparse.get [] (s.core e.core).channels ch).head? == some e.id
  | some r => e.stage == 2 && ((s.die r.die).copyq.take 16).contains e.id

/-- ENGINE_PERFORM (R114): effect `k` of a command; `old` chooses between R341's two readings. -/
def execEnginePerform (id k : Nat) (old : Bool) (s : State) : Out :=
  .next (match cmdAt s id with
    | none => s
    | some e =>
      let die := coreDie e.core
      if effectCount e ≤ k || e.done.contains k || !effectFree s e k || !stackRuns s e || effectHeld s e k then s
      else
        match e.op with
        | .copy h d a dkey akey xl ch rem => if copyRuns s e ch rem then performCopy s e h d a dkey akey xl rem k old else s
        | .launch a xl kern => (performLaunch s e a xl kern).getD s
        | .vst l =>
          match l[k]? with
          | none => s
          | some x =>
            match (if cmdStopped s e.ident then .error .stopped else performLane s die e.ident x) with
            | .ok s => effectDone s e k 0 none false
            | .error b => effectDone s e k 0 (some (x.1.lane, vstReason b, 0)) false
        | .words ws key =>
          match ws[k]? with
          | none => s
          | some w =>
            match (if cmdStopped s e.ident then .error .stopped else performWord s die e.ident key w) with
            | .ok s => effectDone s e k 0 none false
            | .error b => effectDone s e k 0 (some (w.1, wordReason b, 0)) false
        | op =>
          if cmdStopped s e.ident then effectDone s e k 0 (some (k, 8, 0)) true
          else
            match op with
            | .tclook wr rid co a xl => tileDone s e k (performTclook s die e.ident wr rid co a xl)
            | .tcpf rid ts => tileDone s e k ((performTcpf s die e.ident rid (ts.getD k [])).map fun s => (s, none))
            | .tchalo edge rid co h a xl => tileDone s e k (performTchalo s die e.ident edge rid co h a xl)
            | .tcinv v rid => tileDone s e k ((performTcinv s die e.ident v rid).map fun s => (s, none))
            | .sgath n64 _ roww d a b base top xl kern =>
              stackDone e k (performSgath s e.c e.ident n64 roww d a b base top xl kern k)
            | .sred ty o _ d a xl => stackDone e k (performSred s die e.ident ty o d a xl k)
            | .sconv sf df rm _ d a b xl => stackDone e k (performSconv s die e.ident sf df rm d a b xl k)
            | _ => s)

/-- The trap of a command that failed (R323, R346, R376, R399). -/
def failTrap (e : EngCmd) : Option Trap :=
  e.fail.map fun (idx, reason, cause) =>
    { cause := match e.tl with | 4 => 0x37 | 5 => 0x3A | 6 => 0x35 | _ => 0x36
      val := BitVec.ofNat 64 e.num
      aux := packWord [(32, idx), (8, cause), (4, if e.tl < 4 then e.tl else 0), (0, reason)] }

/-- A command completes: it leaves its channel and its timeline advances; its failure is reported after (R27,
R323, R324, R346). -/
def completeCmd (s : State) (e : EngCmd) : State :=
  let s := { s with cmds := s.cmds.filter fun x => x.id != e.id }
  let s := match e.op with
    | .copy _ _ _ _ _ _ ch _ =>
      let s := s.modCore e.core fun x => { x with channels := Sparse.set x.channels ch ((Sparse.get [] x.channels ch).filter (· != e.id)) }
      readyParked (wakeWaits s fun c w => coreOf c == e.core && w == .channel) (coreDie e.core) false fun t => t.wait == some .channel
    | _ => s
  let s := if e.tl = 6 ∧ e.flags ≠ 0 ∧ owns s e.owner 6 then
    s.modTline e.owner 6 fun t => { t with flags := t.flags ++ [(e.num, e.flags)] } else s
  let s := completeNum s e.owner e.tl e.num
  match failTrap e with
  | some t => pendOwner s e.owner t
  | none => s

/-- Whether every effect of a command has been performed or given up. -/
def cmdOver (e : EngCmd) : Bool :=
  match e.op with
  | .copy .. => e.fail.isSome || decide (effectCount e ≤ e.deliv)
  | .launch .. => false
  | _ => e.undone.isEmpty

/-- Whether a command may complete: its effects are over, and on the timelines of the copy engine, the tile cache and the
stack engines so are the commands before it (R28). -/
def cmdTurn (s : State) (e : EngCmd) : Bool :=
  cmdOver e && ((e.tl == 4 || e.tl == 5) || (olderCmds s e).isEmpty)

/-- ENGINE_COMPLETE (R27, R100): not of a COPYR, whose report completes it (R344). -/
def execEngineComplete (id : Nat) (s : State) : Out :=
  .next (match cmdAt s id with
    | some e =>
      let remote := match e.op with | .copy _ _ _ _ _ _ _ (some _) => true | _ => false
      if !remote && cmdTurn s e then completeCmd s e else s
    | none => s)

/-- COPYR_QUEUE_ARRIVAL (R344): a COPYR at the head of its channel joins the queue of its die, or waits while that
is full; a lost die ends it. -/
def execCopyrQueueArrival (id : Nat) (s : State) : Out :=
  .next (match cmdAt s id with
    | some e =>
      match e.op with
      | .copy _ _ _ _ _ _ ch (some r) =>
        if e.stage ≠ 0 ∨ (Sparse.get [] (s.core e.core).channels ch).head? ≠ some id then s
        else if (s.die (coreDie e.core)).lost.getLsbD r.die then setCmd s { e with stage := 2, fail := some (0, 3, 0) }
        else if 512 ≤ (s.die r.die).copyq.length then s
        else setCmd (s.modDie r.die fun d => { d with copyq := d.copyq ++ [id] }) { e with stage := 2 }
      | _ => s
    | none => s)

/-- COPY_COMPLETION_REPORT (R344). -/
def execCopyCompletionReport (id : Nat) (s : State) : Out :=
  .next (match cmdAt s id with
    | some e =>
      match e.op with
      | .copy _ _ _ _ _ _ _ (some r) =>
        if e.stage = 2 ∧ cmdTurn s e then
          completeCmd (s.modDie r.die fun d => { d with copyq := d.copyq.filter (· != id) }) e
        else s
      | _ => s
    | none => s)

/-- VECTOR_INSTRUCTION_COMPLETE (R353): the oldest queued vector instruction writes its destinations and flags, once the
vector loads before it have. -/
def execVectorInstructionComplete (c : Nat) (s : State) : Out :=
  .next (match (s.ctx c).vq with
    | [] => s
    | q :: r =>
      if !(s.ctx c).vloadsDone q.lid then s
      else
      raiseFlags (s.modCtx c fun x =>
        let x := { x with vq := r }
        let x := q.vec.foldl (fun x e => x.setVreg e.1 e.2) x
        let x := q.pred.foldl (fun x e => x.setPred e.1 e.2) x
        (q.gen.foldl (fun x e => x.setReg e.1 (Reg.ofWord e.2)) x).feed) c q.flags)

/-- MATRIX_INSTRUCTION_COMPLETE (R393). -/
def execMatrixInstructionComplete (core : Nat) (s : State) : Out :=
  .next (completeMatrix s core)

end Sys2Proof.Machine
end

