-- ==== Sys2Proof/Machine/Messages.lean ====
section
/-! DEFINITION. Words, active messages, done messages and lapses reach where they go (R49, R215, R233, R239, R240,
R256, R407, R483). -/

namespace Sys2Proof.Machine

/-! Words for mailboxes and mesh ports. -/

/-- The sender number of the words the hardware sends itself: no context has it. -/
def hardwareSender : Nat := 2 ^ 20

/-- Whether a mask of mailboxes and one of ports hold a register. -/
def inMask (mask : BitVec 32) (pmask : BitVec 4) (r : WordReg) : Bool :=
  match r with | .mbx m => mask.getLsbD m | .port n => pmask.getLsbD n

/-- Where a word that arrives goes (R483). -/
inductive Route where
  | accept
  | redirect (target : Nat)
  | ring (gti : Word)
deriving DecidableEq, Repr

/-- The place a core gives a word for one of its registers, in the order of R483. -/
def route (s : State) (core : Nat) (r : WordReg) : Route :=
  let k := s.core core
  if (contextsOf core).any fun c => (s.ctx c).run != .free && inMask (s.ctx c).mbxmask (s.ctx c).pmask r then .accept
  else
    match k.fwd.find? fun f => inMask f.mask f.pmask r with
    | some f => .redirect f.target
    | none =>
      match k.claims.find? fun e => inMask e.2.1 e.2.2 r with
      | some e => .ring e.1
      | none => .accept

/-- Whether an earlier word must be placed before this one: redirected and returned words come first, each direction of
a port keeps its order, and two words of one context keep theirs (R46, R49, R239, R240, R407). -/
def wordWaits (s : State) (k core : Nat) (r : WordReg) (c : Nat) (gti : Word) (fwd : Bool) : Bool :=
  let earlier := s.net.takeWhile fun m => m.1 != k
  let hit (f : Nat → Word → Bool → Bool) (m : Nat × NetMsg) : Bool :=
    match m.2 with | .word d q _ c g _ w _ => d == core && q == r && f c g w | _ => false
  if fwd then earlier.any (hit fun _ _ w => w)
  else
    s.net.any (hit fun _ _ w => w)
      || earlier.any (hit fun d g _ => (match r with | .port _ => true | .mbx _ => d == c && g == gti))

/-- Sends the acknowledgement of a mailbox word, if one is owed (R49). -/
def ackWord (s : State) (owed : Bool) (c : Nat) (gti : Word) : State :=
  if owed then let (n, s) := s.new; { s with net := s.net ++ [(n, NetMsg.wordAck c gti)] } else s

/-- The core takes a word if it has room: a clear presence bit, or a place in the port's buffer (R46, R49). -/
def acceptWord (s : State) (core : Nat) (r : WordReg) (w : MsgWord) : Option State :=
  let k := s.core core
  match r with
  | .mbx m =>
    if (k.mail m).isSome then none
    else some (wakeCore (s.setCore core { k with mbox := Sparse.set k.mbox m (some { w with t1 := s.time.toNat }) }) core 0x01)
  | .port n =>
    if 4 ≤ (k.port n).length then none
    else some (wakeCore (s.setCore core { k with ports := Sparse.set k.ports n (k.port n ++ [w.w]) }) core 0x02)

/-- The bit of the event latch that a word sets (R222). -/
def latchBit : WordReg → BitVec 5 | .mbx _ => 0x01 | .port _ => 0x02

/-- Whether a word cannot reach its core: the core's die is lost to the sender's, or the core is not of the word's
partition, which drops it; what it owes counts as acknowledged (R285, R445). -/
def undeliverable (s : State) (core c : Nat) (i : Ident) : Bool :=
  (decide (c < hardwareSender) && (s.die (dieOf c)).lost.getLsbD (coreDie core)) || (!i.custodian && partOfCore s core != i.part)

/-- WORD_ARRIVAL (R483); a word for the spill ring readies the tasks parked for one on that core (R253). -/
def execWordArrival (n : Nat) (s : State) : Out :=
  .next (match msgAt s n with
    | some (.word core r w c gti i fwd owed) =>
      if !current s i then takeMsg s n
      else if undeliverable s core c i then ackWord (takeMsg s n) owed c gti
      else if wordWaits s n core r c gti fwd then s
      else
        match route s core r with
        | .accept =>
          match acceptWord (takeMsg s n) core r w with
          | some t => ackWord t owed c gti
          | none => s
        | .redirect target =>
          let (m, t) := (takeMsg s n).new
          { t with net := t.net ++ [(m, NetMsg.word target r w c gti i true owed)] }
        | .ring g =>
          let k := s.core core
          if 256 ≤ k.spill.length then s
          else
            let t := (takeMsg s n).setCore core { k with spill := k.spill ++ [{ gti := g, reg := r, w := w }] }
            ackWord (wakeParked t core (latchBit r)) owed c gti
    | _ => s)

/-! Acknowledgements and acceptances (R49, R215, R233, R240). -/

/-- The context whose outstanding instruction an answer is for: the one that issued it, or wherever its task runs. -/
def owedContext (s : State) (c : Nat) (gti : Word) (kind : Nat) : Option Nat :=
  if (s.ctx c).outst = kind ∧ gtiOf (s.ctx c) = gti then some c
  else if gti = 0 then none
  else (s.ctxs.find? fun e => e.2.outst == kind && gtiOf e.2 == gti).map (·.1)

/-- The save area of a task that holds no context. -/
def savedAt (s : State) (gti : Word) : Option Nat :=
  s.dies.findSome? fun d =>
    (d.2.ready ++ d.2.parked ++ d.2.stopped.map (·.task)).findSome? fun t =>
      if t.gti = gti then t.save.map (·.1) else none

/-- Records an answer against its task: in its context, or in the OUTST word of its save area (R233, R235). -/
def recordAnswer (s : State) (c : Nat) (gti : Word) (kind : Nat) : State :=
  match owedContext s c gti kind with
  | some d => s.modCtx d fun x => { x with acked := true }
  | none =>
    match savedAt s gti with
    | some a =>
      let w := homeWord s (a + 0x68)
      if w.toNat % 4 = kind then homeStoreWord s (a + 0x68) (w ||| 4) else s
    | none => s

/-- A debug notice has been accepted (R468). -/
def noticeTaken (s : State) (gti : Word) : State :=
  { s with dies := s.dies.map fun (d : Nat × Die) => (d.1, { d.2 with
      stopped := d.2.stopped.map fun e => if e.gti = gti then { e with notice := none } else e }) }

/-- MAILBOX_ACKNOWLEDGEMENT (R49, R233). -/
def execMailboxAcknowledgement (n : Nat) (s : State) : Out :=
  .next (match msgAt s n with
    | some (.wordAck c gti) =>
      if c = hardwareSender then noticeTaken (takeMsg s n) gti else recordAnswer (takeMsg s n) c gti 1
    | _ => s)

/-- AMSG_ACCEPTANCE (R215, R233, R240). -/
def execAmsgAcceptance (n : Nat) (s : State) : Out :=
  .next (match msgAt s n with
    | some (.amsgAck c gti) => recordAnswer (takeMsg s n) c gti 2
    | _ => s)

/-! Active messages (R215). -/

/-- ACTIVE_MESSAGE_ARRIVAL (R215): the handler queue of the die takes it when it has room. -/
def execActiveMessageArrival (n : Nat) (s : State) : Out :=
  .next (match msgAt s n with
    | some (.amsg m) =>
      if !current s m.ident then takeMsg s n
      else if (s.die (dieOf m.c)).lost.getLsbD m.die then
        let (k, s) := (takeMsg s n).new
        { s with net := s.net ++ [(k, NetMsg.amsgAck m.c m.gti)] }
      else if 256 ≤ (s.die m.die).handlers.length then s
      else
        let s := (takeMsg s n).modDie m.die fun d => { d with handlers := d.handlers ++ [{ m with t1 := s.time.toNat }] }
        let (k, s) := s.new
        { s with net := s.net ++ [(k, NetMsg.amsgAck m.c m.gti)] }
    | _ => s)

/-! The ends of tasks (R256, R483). -/

/-- FORWARDING_LAPSE (R483): the entry goes, and the lapse goes on along the chain. -/
def execForwardingLapse (n : Nat) (s : State) : Out :=
  .next (match msgAt s n with
    | some (.lapse core gti) =>
      let s := (takeMsg s n).modCore core fun k => { k with fwd := k.fwd.filter fun f => f.gti != gti }
      sendLapse s core gti
    | _ => s)

/-- DONE_MESSAGE_ARRIVAL (R256). -/
def execDoneMessageArrival (n : Nat) (s : State) : Out :=
  .next (match msgAt s n with
    | some (.done job rank word) =>
      let s := takeMsg s n
      match s.job job with
      | some j =>
        match (Sparse.get {} j.members rank : Member).parent with
        | some p =>
          settleMember (modMember s job p fun m => { m with word := combine m.word word, heard := m.heard ++ [rank] }) job p
        | none => s
      | none => s
    | _ => s)

end Sys2Proof.Machine
end

