-- ==== Sys2Proof/Machine/Switch.lean ====
section
/-! DEFINITION. Switch-out, parking, pre-emption and migration (R120, R232 to R240, R253, R404 to R408), and how a
scheduler gives a context a task, resumes one, fires an actor and starts a handler (R247, R252, R257, R261). -/

namespace Sys2Proof.Machine

/-! Switch-out (R232). -/

/-- Whether steps 2 to 4 of R232 have ended: everything issued has completed at partition scope and is verified. -/
def drained (s : State) (c : Nat) : Bool :=
  let x := s.ctx c
  x.lob.isEmpty && x.vq.isEmpty && !outstanding s c x.nextId .part
    && (s.core (coreOf c)).matrix.queue.all fun e => e.c != c

/-- The words of a save area but its tags, in the order of R235. -/
def areaBytes (s : State) (c reason : Nat) (image : Nat) : List Byte :=
  let x := s.ctx c
  let o := tlOwner s c
  let w (n : Nat) : List Byte := toBytes 8 n
  w x.pc.toNat ++ w (gtiOf x).toNat ++ w x.flags.toNat ++ w x.round.code
    ++ w (2 ^ 7 * bit x.orphan + 2 ^ 4 * bit x.paired)
    ++ w x.ktrap.cause.toNat ++ w x.ktrap.val.toNat ++ w x.ktrap.pc.toNat ++ w x.ktrap.aux.toNat
    ++ w reason ++ w ((x.pend.head?.map fun t => t.cause.toNat).getD 0)
    ++ w (coreWord s x.ident (coreOf c)).toNat ++ w x.latch.toNat
    ++ w (x.outst + 4 * bit (x.outst != 0 && x.acked)) ++ w (x.mbxmask.toNat + 2 ^ 32 * x.pmask.toNat) ++ w image
    ++ (List.range 8).flatMap (fun j => w (s.tline o j).count) ++ List.replicate 64 0
    ++ (List.range 64).flatMap (fun j => toBytes 16 (x.reg (BitVec.ofNat 6 j)).bits.toNat) ++ List.replicate 256 0
    ++ (List.range 16).flatMap (fun j => w (x.pred (BitVec.ofNat 4 j)).toNat)
    ++ (List.range 8).flatMap (fun j => w (s.tline o j).done) ++ List.replicate 320 0
    ++ (List.range 32).flatMap fun j => toBytes 256 (x.vreg (BitVec.ofNat 5 j)).toNat

/-- Bytes of a save area (R235). -/
def areaSize : Nat := 0x2800

/-- Writes a context's state to a save area, and its matrix image (R235, R404). -/
def writeArea (s : State) (c reason area image : Nat) : State :=
  let x := s.ctx c
  let ws := if image = 0 then [] else imageWords (matrixOf s c) c
  let t := homeStore s area (areaBytes s c reason image)
  let t := (List.range 64).foldl (fun t j =>
    if (x.reg (BitVec.ofNat 6 j)).tag then setHomeTag t (area + 0x100 + 16 * j) true else t) t
  ws.foldl (fun t w => homeStore t (image + w.1) (toBytes 16 w.2)) t

/-- Whether the custody record lets a world write its save area, and its matrix image (R232, R404). -/
def areaAllowed (s : State) (c area image : Nat) : Bool :=
  let i := (s.ctx c).ident
  (List.range (areaSize / 128)).all (fun j => homeRights s i (area + 128 * j))
    && (image == 0 || (imageWords (matrixOf s c) c).all fun w => homeRights s i (image + w.1))

/-- Cause 0x11: the context keeps its state and stays stopped, and the custodian is told in place (R232). -/
def saveFault (s : State) (c area reason : Nat) : State :=
  let t : Trap := { cause := 0x11, val := BitVec.ofNat 64 area, aux := BitVec.ofNat 64 reason }
  let s := s.modCtx c fun x => { x with run := .stopped }
  if dieOf c < 8 then monitorTrap s (dieOf c) t
  else
    let k := ctxKey (dieOf c * 512 + 31) 0
    let h := if c = k then k + 1 else k
    enterCustodian (abandonWork s h) h t

/-- The words a core holds for a task: those of its mailboxes and its ports (R239, R407). -/
def heldWords (s : State) (c : Nat) : List (WordReg × MsgWord) :=
  let k := s.core (coreOf c)
  let x := s.ctx c
  ((List.range 32).filterMap fun m =>
      if x.mbxmask.getLsbD m then (k.mail m).map fun w => (WordReg.mbx m, w) else none)
    ++ (List.range 4).flatMap fun n =>
      if x.pmask.getLsbD n then (k.port n).map fun w => (WordReg.port n, ({ w := w } : MsgWord)) else []

/-- The core no longer holds them. -/
def clearHeld (s : State) (c : Nat) : State :=
  let x := s.ctx c
  s.modCore (coreOf c) fun k => { k with
    mbox := k.mbox.map fun (e : Nat × Option MsgWord) => if x.mbxmask.getLsbD e.1 then (e.1, none) else e
    ports := k.ports.map fun (e : Nat × List Word) => if x.pmask.getLsbD e.1 then (e.1, []) else e }

/-- Words that return to, or follow, a task: delivered before any other word to their registers (R239, R407). -/
def sendHeld (s : State) (core : Nat) (gti : Word) (i : Ident) (ws : List (WordReg × MsgWord)) : State :=
  ws.foldl (fun s w =>
    let (n, s) := s.new
    { s with net := s.net ++ [(n, NetMsg.word core w.1 w.2 hardwareSender gti i true false)] }) s

/-- A resident task's words move into the spill ring, whose claim takes those still to come (R407). -/
def intoRing (s : State) (c : Nat) (ws : List (WordReg × MsgWord)) : State :=
  let x := s.ctx c
  (clearHeld s c).modCore (coreOf c) fun k => { k with
    spill := k.spill ++ ws.map fun w => { gti := gtiOf x, reg := w.1, w := w.2 }
    claims := k.claims ++ [(gtiOf x, x.mbxmask, x.pmask)] }

/-- The items of the matrix image a save area names: none if it names no image or one that cannot be read (R405). -/
def savedItems (s : State) (i : Ident) (area : Nat) : Option (Nat × BitVec 32 × BitVec 8 × Nat × Nat) :=
  let pa := (homeWord s (area + 0x78)).toNat
  if pa = 0 ∨ !((List.range (imageSize / 128)).all fun j => homeRights s i (pa + 128 * j)) then none
  else (readHeader (homeBytes s pa 0x100)).map fun h => (pa, h)

/-- Whether the image a task resumes with fits a context's core (R405). -/
def imageFits (s : State) (c : Nat) (i : Ident) (area : Nat) : Bool :=
  kindOf c != .compute || (match savedItems s i area with
    | some (_, sm, am, _, _) => conflicts s c sm am == (0, 0)
    | none => true)

/-- A pair that takes up a task checkpoints before its first instruction (R161). -/
def pairStarts (s : State) (core : Nat) : State :=
  s.modCore core fun k => { k with bridle := k.bridle.map fun b => { b with due := true } }

/-- Causes that are none or are never reported (R13, R228). -/
def neverReported (k : BitVec 8) : Bool := k == 0 || decide (0x13 ≤ k.toNat ∧ k.toNat < 0x20) || decide (0x70 ≤ k.toNat)

/-- Restores a task's state from its save area into a free context and gives the area back (R236, R237, R405). -/
def restoreTask (s : State) (c : Nat) (t : Task) (area : Nat) : State :=
  let w (o : Nat) : Word := homeWord s (area + o)
  let outst := if (w 0x68).toNat % 4 = 3 then 0 else (w 0x68).toNat % 4
  let cause : BitVec 8 := (w 0x50).setWidth 8
  let (v1, s) := s.free
  let (v2, s) := s.free
  let low : List Trap :=
    if neverReported cause then []
    else match t.low with
      | some k => if k.cause = cause then [k] else [{ cause := cause, val := v1, aux := v2 }]
      | none => [{ cause := cause, val := v1, aux := v2 }]
  let x := s.ctx c
  let x : Context := { x with
    run := if outst = 1 then .blocked .mailboxAck s.time.toNat else if outst = 2 then .blocked .amsgAccept s.time.toNat
      else .running
    pc := w 0x00, level := .task, flags := (w 0x10).setWidth 6, round := (RoundMode.ofCode ((w 0x18).toNat % 8)).getD .rne
    orphan := (w 0x20).getLsbD 7, paired := (s.core (coreOf c)).bridle.isSome
    ktrap := { cause := (w 0x28).setWidth 8, val := w 0x30, pc := w 0x38, aux := w 0x40 }
    latch := (w 0x60).setWidth 5 ||| 0x07 ||| t.woken, outst := outst, acked := (w 0x68).getLsbD 2
    mbxmask := (w 0x70).setWidth 32, pmask := (w 0x70).extractLsb' 32 4, ident := t.ident
    oflags := t.oflags, pend := low ++ t.pend
    task := some { t with save := none, pend := [], low := none, wait := none, woken := 0, oflags := 0, pinned := none, target := none, exempt := t.lastStop, lastStop := none } }
  let x := (List.range 64).foldl (fun (x : Context) j =>
    x.setReg (BitVec.ofNat 6 j)
      (Reg.ofCap (BitVec.ofNat 128 (ofBytes (homeBytes s (area + 0x100 + 16 * j) 16))) (homeTag s (area + 0x100 + 16 * j)))) x
  let x := (List.range 16).foldl (fun (x : Context) j => x.setPred (BitVec.ofNat 4 j) (w (0x600 + 8 * j))) x
  let x := (List.range 32).foldl (fun (x : Context) j =>
    x.setVreg (BitVec.ofNat 5 j) (BitVec.ofNat 2048 (ofBytes (homeBytes s (area + 0x800 + 256 * j) 256)))) x
  let o := t.gti.toNat * 2 + 1
  let s := (List.range 8).foldl (fun s j => s.modTline o j fun q => { q with count := (w (0x80 + 8 * j)).toNat }) s
  let s := releaseArea (s.setCtx c x) t
  let s := if kindOf c != .compute then s
    else match savedItems s t.ident area with
      | some (pa, sm, am, fm, rs) =>
        (restoreImage s c sm am fm rs fun o n => ofBytes (homeBytes s (pa + o) n)).modCtx c fun x => { x with mimage := pa }
      | none => s
  pairStarts s (coreOf c)

/-- Forwarding entries of a core (R239). -/
def fwdRoom (s : State) (core : Nat) : Bool := decide ((s.core core).fwd.length < 16)

def addFwd (s : State) (core : Nat) (f : Fwd) : State := s.modCore core fun k => { k with fwd := k.fwd ++ [f] }

/-- Where a migration goes, once it can: the free context of the destination, and a free forwarding entry (R239). -/
def migrationTo (s : State) (c : Nat) (t : Task) (image : Nat) : Option Nat :=
  match t.target with
  | none => none
  | some (dest, _) =>
    match freeOn s dest with
    | none => none
    | some d =>
      let m := matrixOf s c
      let items := (List.range 32).foldl (fun (a : BitVec 32) j => if (m.slot j).owner = some c then a ||| (1 <<< j) else a) 0
      let accs := (List.range 8).foldl (fun (a : BitVec 8) j => if (m.acc j).owner = some c then a ||| (1 <<< j) else a) 0
      if fwdRoom s (coreOf c) && (image == 0 || conflicts s d items accs == (0, 0)) then some d else none

/-- The notice of a debug stop, for the debugger's mailbox (R468). -/
def stopNotice (s : State) (c area : Nat) (k : Claim) : State × Option (Nat × Nat × Word) :=
  let x := s.ctx c
  let cause := if x.request = some 3 then 0 else x.ktrap.cause.toNat
  let w : Word := BitVec.ofNat 64 (cause * 2 ^ 56 + area)
  match coreOfWord s x.ident (k.b.toNat % 2 ^ 21) with
  | some core =>
    let m := (k.b.extractLsb' 24 5).toNat
    let (n, s) := s.new
    ({ s with net := s.net ++ [(n, NetMsg.word core (.mbx m)
        { w := w, sender := coreWord s x.ident (coreOf c), t0 := s.time.toNat % 2 ^ 48 } hardwareSender (gtiOf x) x.ident false true)] },
      some (core, m, w))
  | none => (s, none)

/-- The trap request of a context whose state is saved enters the service queue, and the context is free; while the
queue is full the context stays occupied (R234). -/
def askTrap (s : State) (c area idx : Nat) : State :=
  let x := s.ctx c
  let q := Sparse.get [] (s.die (dieOf c)).service (vfKey x.ident)
  match x.task with
  | some t =>
    if serviceMax ≤ q.length then s
    else
      let p : Pool := Sparse.get {} (s.die (dieOf c)).pools x.ident.vf.toNat
      let k : Trap := { cause := x.ktrap.cause, val := x.ktrap.val, aux := x.ktrap.aux }
      freeContext (s.modDie (dieOf c) fun d => { d with
        service := Sparse.set d.service (vfKey x.ident) (q ++ [.trap t area (p.va * 256 + areaSize * idx) k x.ktrap.pc]) }) c
  | none => s

/-- What follows step 5 for each REASON: the parked tasks, the stopped-task table and its request or notice, a ready
pool, or the destination of a migration (R234, R237, R239, R252, R253, R468). `s` has the state written, `t` is the
task with its area, `d` the destination context. -/
def placeTask (s : State) (c reason area : Nat) (t : Task) (x : Context) (idx : Nat) (held : List (WordReg × MsgWord)) (d : Nat) : State :=
  let die := dieOf c
  let stop (s : State) (n : Option (Nat × Nat × Word)) : State :=
    s.modDie die fun q => { q with
      stopped := q.stopped ++ [{ gti := t.gti, ident := x.ident, area := area, task := t, reason := reason, notice := n }] }
  match reason with
  | 0 =>
    match t.wait with
    | some (.listen) => enterPool (freeContext s c) die { t with wait := none }
    | _ => (freeContext s c).modDie die fun q => { q with parked := q.parked ++ [t] }
  | 1 =>
    askTrap ((stop s none).modCtx c fun y => { y with run := .saved area idx, task := some t }) c area idx
  | 3 =>
    match claimOf s x with
    | some k =>
      let (s, n) := stopNotice s c area k
      freeContext (stop s n) c
    | none => freeContext (stop s none) c
  | 4 =>
    let s := addFwd (freeContext (clearHeld s c) c) (coreOf c)
      { gti := t.gti, target := coreOf d, mask := x.mbxmask, pmask := x.pmask }
    let s := sendHeld (restoreTask s d t area) (coreOf d) t.gti t.ident held
    match t.target with
    | some (_, m) => s.modCtx m fun y => { y with reply := some (.ok 0) }
    | none => s
  | _ => enterPool (freeContext s c) die t

/-- Steps 4 to 6 of R232 for a context that has drained: none while it waits for a save area, room in the spill ring, or
a destination (R237, R239, R407). A YIELD that finds no area saves nothing (R190). -/
def switchNow (s : State) (c reason : Nat) (wait : Option Wait) : Option State :=
  let x := s.ctx c
  match x.task, freeArea s (dieOf c) x.ident.vf.toNat with
  | some t, some idx =>
    let p : Pool := Sparse.get {} (s.die (dieOf c)).pools x.ident.vf.toNat
    let area := p.base * 256 + areaSize * idx
    let image := if holdsClaims s c then x.mimage else 0
    let ring := kindOf c == .compute && reason != 4
    let held := if ring || reason == 4 then heldWords s c else []
    let room := !ring || decide ((s.core (coreOf c)).spill.length + held.length ≤ 256)
    let dest := if reason = 4 then migrationTo s c t image else some 0
    match room, dest with
    | true, some d =>
      if !areaAllowed s c area image then some (saveFault s c area reason)
      else
        let s := writeArea s c reason area image
        let s := s.modDie (dieOf c) fun q => { q with
          pools := Sparse.set q.pools x.ident.vf.toNat { p with used := p.used ++ [idx] } }
        let s := s.modCore (coreOf c) fun k => { k with
          journal := k.journal.filter fun (e : Nat × JEntry) => !(e.2.state == 2 && e.2.c == c) }
        let s := traceEvent s (partNo x.ident) 2 reason (coreWord s x.ident (coreOf c)).toNat t.gti x.pc
        let s := if ring then intoRing s c held else s
        let s := answerMigr s t.gti 1
        let t := { t with
          save := some (area, dieOf c, idx), pend := x.pend.drop 1, low := x.pend.head?, oflags := x.oflags, wait := wait
          waitCore := coreOf c
          passes := 0, promoted := false }
        some (placeTask s c reason area t x idx held d)
    | _, _ => none
  | _, none => if reason = 5 then some (s.modCtx c fun x => { x with run := .running }) else none
  | _, _ => none

/-- A context's switch-out as far as it gets in one step: a pair takes a checkpoint, so that what it holds may leave
(R161), then the state leaves. -/
def switchOut (s : State) (c reason : Nat) (wait : Option Wait) : State :=
  if !drained s c then (if gateFill s (coreOf c) = 0 then s else (checkpoint s c).getD s)
  else
    match checkpoint s c with
    | none => s
    | some t => (switchNow t c reason wait).getD s

/-- SWITCH_OUT (R232): an asynchronous trap that is pending is taken first (R229, R238). -/
def execSwitchOut (c : Nat) (s : State) : Out :=
  let x := s.ctx c
  .next (match x.run with
    | .leaving r =>
      if !x.pend.isEmpty && r != 1 && settled s c then takeAsync s c
      else switchOut s c r none
    | .saved area idx => askTrap s c area idx
    | _ => s)

/-- What a context that may be parked waits for (R253): the kinds R253 lists, while the condition has not come. -/
def parkable (s : State) (c : Nat) : Option Wait :=
  let x := s.ctx c
  match x.run with
  | .blocked w t =>
    if stoppable s c && x.pend.isEmpty && x.request.isNone && x.outst == 0
        && decide (4096 * 1000 ≤ (s.time.toNat - t) * clockMhz s (dieOf c)) then
      match w with
      | .operands srcs dst => if operandsReady s c srcs dst then none else some w
      | .mwait | .phaser .. | .channel | .listen => some w
      | .wfe dl => if x.latch != 0 || (match dl with | some d => decide (d ≤ s.time.toNat) | none => false) then none else some w
      | .timeline tl n => if n ≤ (s.tline (tlOwner s c) tl).done then none else some w
      | .journal =>
        if (List.range 32).any fun j => (Sparse.get {} (s.core (coreOf c)).journal j : JEntry).state == 0 then none else some w
      | _ => none
    else none
  | _ => none

/-- PARK (R253): a switch-out with REASON 0 of a context that has nothing left to wait for before it. -/
def execPark (c : Nat) (s : State) : Out :=
  .next (match parkable s c with
    | some w =>
      if drained s c then
        let t := switchOut (giveBack s c) c 0 (some w)
        if (t.ctx c).run = (s.ctx c).run then s else t
      else s
    | none => s)

/-- SCHEDULER_PREEMPTION (R238). -/
def execSchedulerPreemption (c : Nat) (s : State) : Out :=
  let x := s.ctx c
  .next (if x.task.isSome && x.run != .free && x.run != .stopped then requestStop s c 2 else s)

/-- ASYNC_TRAP_TAKEN (R227, R229). -/
def execAsyncTrapTaken (c : Nat) (s : State) : Out :=
  let x := s.ctx c
  .next (if issues x.run && !awaitsReply s c then takeAsync s c else s)

/-- WFE_TIMEOUT (R222): the latch of a context whose WFE has waited its time, or of a task parked in one. -/
def execWfeTimeout (c : Nat) (s : State) : Out :=
  let past (w : Wait) : Bool := match w with | .wfe (some d) => decide (d ≤ s.time.toNat) | _ => false
  let x := s.ctx c
  let t := match x.run with
    | .blocked w _ => if past w && x.latch == 0 then s.modCtx c fun x => { x with latch := 0x08 } else s
    | _ => s
  let overdue (t : Task) : Bool := t.waitCore == coreOf c && (match t.wait with | some w => past w | none => false)
  .next (readyParked t (dieOf c) true overdue 0x08)

/-! Dispatch (R247, R252). -/

/-- Whether a context may be given work for a world: it is free, its die runs, and its partition is ready (R444, R445,
R478). -/
def openContext (s : State) (c : Nat) (part : BitVec 8) : Bool :=
  let st := (s.dieCtl (dieOf c)).state
  (s.ctx c).run == .free && isContext c && (st == 1 || st == 2) && partOfCore s (coreOf c) == part
    && (s.part part.toNat).ready && !(s.part part.toNat).frozen && !oddOfPair s (coreOf c)

/-- Whether the custody record lets a world read its save area (R235, R432). DESIGN CHOICE (log 65): a task whose area
it may not read stays ready. -/
def areaReadable (s : State) (i : Ident) (area : Nat) : Bool :=
  (List.range (areaSize / 128)).all fun j => homeRights s i (area + 128 * j)

/-- Whether a context may run a ready task (R17, R252, R253, R257, R268, R288, R405, R408, R448). -/
def mayRun (s : State) (c : Nat) (t : Task) : Bool :=
  let k := coreOf c
  openContext s c t.ident.part && !handlerContext c && t.kind == kindOf c && current s t.ident
    && !(dieOf c < 8 && coreNo k ≥ 262)
    && (kindOf c != .compute || (coreMap s (dieOf c) t.ident).contains (coreNo k))
    && (match t.actor.bind fun a => s.actor a with | some a => a.cluster == clusterOf c | none => true)
    && (match t.pinned with | some p => p == k | none => true)
    && (!t.lock || (s.core k).bridle.isSome)
    && (match t.save with
        | some (a, _, _) =>
          areaReadable s t.ident a && imageFits s c t.ident a
            && (t.waitCore == k || !(s.core t.waitCore).claims.any (fun e => e.1 == t.gti) || fwdRoom s t.waitCore)
        | none => true)

/-- The task R252 gives a context: the highest class, then promoted, homed on the core, homed in the cluster, oldest. -/
def choose (s : State) (c : Nat) : Option Task :=
  let all := (s.die (dieOf c)).ready.filter (mayRun s c)
  let top := all.foldl (fun m t => max m t.prio) 0
  let l := all.filter fun t => t.prio == top
  let k := coreOf c
  match l.find? (·.promoted), l.find? (fun t => t.home == some k), l.find? (fun t => t.home.map clusterOfCore == some (clusterOfCore k)) with
  | some t, _, _ => some t
  | none, some t, _ => some t
  | none, none, some t => some t
  | none, none, none => l.head?

/-- A task leaves the pool; those it passed over are counted, and promoted at 64 (R252). -/
def takeReady (d : Die) (t : Task) : Die :=
  let older := d.ready.takeWhile fun u => u.gti != t.gti
  let younger := (d.ready.dropWhile fun u => u.gti != t.gti).drop 1
  { d with ready := older.map (fun u =>
      if u.kind == t.kind && u.prio == t.prio then { u with passes := u.passes + 1, promoted := u.promoted || decide (64 ≤ u.passes + 1) } else u)
    ++ younger }

/-- The timelines a task starts with (R149). -/
def newTimelines (s : State) (owner : Nat) : State :=
  (List.range 8).foldl (fun s j => s.modTline owner j fun _ => {}) s

/-- g7 of a task: its member's core and rank, or the core that runs it (R247). -/
def memberWord (s : State) (core : Nat) (t : Task) : Word :=
  match t.member.bind fun m => (s.job m.1).map fun j => (m.2, (Sparse.get {} j.members m.2 : Member)) with
  | some (rank, m) => BitVec.ofNat 64 (rank * 2 ^ 32 + (coreWord s t.ident m.core).toNat)
  | none => BitVec.ofNat 64 (coreWord s t.ident core).toNat

/-- A context starts a task at an entry with some registers set (R149, R247). -/
def startTask (s : State) (c : Nat) (t : Task) (pc : Word) (regs : List Reg) : State :=
  let x := s.ctx c
  let y : Context :=
    { nextId := x.nextId, seq := x.seq, atoms := x.atoms, set := x.set, run := .running, pc := pc, ident := t.ident, latch := 0x07
      paired := (s.core (coreOf c)).bridle.isSome, task := some t }
  let y := (regs.mapIdx fun j r => (j, r)).foldl (fun (y : Context) e => y.setReg (BitVec.ofNat 6 (e.1 + 1)) e.2) y
  pairStarts (newTimelines (s.setCtx c y) (t.gti.toNat * 2 + 1)) (coreOf c)

/-- The replay entry armed for a task (R473). -/
def armedFor (s : State) (t : Task) : Option Nat :=
  ((s.part (partNo t.ident)).reps.find? fun e =>
    e.2.en && e.2.gti == t.gti && e.2.state == 0 && e.2.vf == t.ident.vf).map (·.1)

/-- A task's first dispatch (R247, R473, R474). -/
def firstDispatch (s : State) (c : Nat) (t : Task) : State :=
  let entry := armedFor s t
  let t := { t with replay := entry, pinned := none, meshHome := if kindOf c = .compute then some (coreOf c) else none }
  let args := (t.args ++ List.replicate 6 {}).take 6
  let s := startTask s c t t.entry (args ++ [Reg.ofWord (memberWord s (coreOf c) t)])
  match entry with
  | some e =>
    let s := s.modPart (partNo t.ident) fun p => { p with
      reps := Sparse.set p.reps e { (Sparse.get {} p.reps e : Replay) with state := 1 } }
    let tags := (t.args.mapIdx fun j r => if r.tag then 2 ^ j else 0).foldl (· + ·) 0
    capture s c 1 tags (fixBytes 128 t.record)
  | none => s

/-- A task resumes: its words follow it, and its claim on the core it left ends (R236, R407, R408). -/
def resume (s : State) (c : Nat) (t : Task) (area : Nat) : State :=
  let from' := t.waitCore
  let k := s.core from'
  let claim := k.claims.find? fun e => e.1 == t.gti
  let words := (k.spill.filter fun e => e.gti == t.gti).map fun e => (e.reg, e.w)
  let s := s.setCore from' { k with
    spill := k.spill.filter fun e => e.gti != t.gti, claims := k.claims.filter fun e => e.1 != t.gti }
  let s := match claim with
    | some (_, m, p) => if from' = coreOf c then s else addFwd s from' { gti := t.gti, target := coreOf c, mask := m, pmask := p }
    | none => s
  sendHeld (restoreTask s c t area) (coreOf c) t.gti t.ident words

/-- TASK_DISPATCH (R252). -/
def execTaskDispatch (c : Nat) (s : State) : Out :=
  .next (match choose s c with
    | none => s
    | some t =>
      let s := s.modDie (dieOf c) fun d => takeReady d t
      let s := match t.save with
        | some (a, _, _) => resume s c t a
        | none => firstDispatch s c t
      traceEvent s (partNo t.ident) 1 t.prio (coreWord s t.ident (coreOf c)).toNat t.gti (s.ctx c).pc)

/-- ACTOR_FIRING (R257): a task from the template, with the inputs and the room reserved. An actor that cannot fire
retires where its producers have (R258). -/
def execActorFiring (a : Nat) (s : State) : Out :=
  .next (match s.actor a with
    | some x =>
      if !canFire s x then retireActors s
      else
        let die := x.cluster / 64
        let (gti, s) := newGti s (partNo x.task.ident) die
        let t := { x.task with gti := gti, actor := some a }
        let s := s.setActor a (some { x with firing := true, read := [], wrote := [] })
        let s := match t.member with
          | some (j, m) => modMember s j m fun y => { y with live := y.live + 1 }
          | none => s
        enterPool s ((poolDie s (partNo t.ident) t.kind t.home die).getD die) t
    | none => s)

/-- HANDLER_DISPATCH (R215, R261). -/
def execHandlerDispatch (c : Nat) (s : State) : Out :=
  let d := dieOf c
  .next (if !handlerContext c then s
    else
      match (s.die d).handlers.find? fun m => openContext s c m.ident.part with
      | none => s
      | some m =>
        let s := s.modDie d fun x => { x with handlers := x.handlers.erase m }
        if !current s m.ident then s
        else
          let (gti, s) := newGti s (partNo m.ident) d
          let who : Ident := { custodian := false, part := m.ident.part, vf := m.ident.vf, gen := genOf s m.ident, world := true }
          let t : Task :=
            { gti := gti, ident := who, handler := true, entry := m.entry, meshHome := some (coreOf c)
              msg := some (m.sender.setWidth 21, m.t0, m.t1), msgStart := s.time.toNat }
          let words := (m.words ++ [0, 0, 0, 0]).take 4
          let s := startTask s c t m.entry ((words ++ [m.sender]).map Reg.ofWord)
          traceEvent s (partNo who) 1 0 (coreWord s who (coreOf c)).toNat gti m.entry)

end Sys2Proof.Machine
end

