-- ==== Sys2Proof/Machine/Tender.lean ====
section
/-! DEFINITION. The Tender (R259, R266 to R268), checkpoints and rollbacks of a pair (R161, R241, R242), the monitor
pair (R288) and the end of a BANKCFG's wait (R218). -/

namespace Sys2Proof.Machine

/-! Service (R234, R259, R267). -/

/-- The contexts a die serves its queues with, for a partition (R259). -/
def serviceContexts (s : State) (die : Nat) (part : BitVec 8) : List Nat :=
  if die < 8 then (List.range 6).flatMap fun j => contextsOf (die * 512 + 256 + j)
  else (((coresOf die).filter fun k => partOfCore s k == part).flatMap contextsOf).take 64

/-- SHARE of a TNDVF word; 0 acts as 1 (R266). -/
def tndShare (w : Word) : Nat := max 1 (w.extractLsb' 7 6).toNat

/-- Whether the Tender serves a virtual function. -/
def served (s : State) (p v : Nat) : Bool := (s.vf p v).tnd.getLsbD 0

/-- The enabled SHAREs of a partition added up (R267). -/
def shareSum (s : State) (p : Nat) : Nat :=
  (List.range 16).foldl (fun a v => if served s p v then a + tndShare (s.vf p v).tnd else a) 0

/-- What a virtual function's credit gains in 1 µs on a die, in 1/64 ns (R267). -/
def creditGain (s : State) (die p v : Nat) : Nat :=
  let n := (serviceContexts s die (BitVec.ofNat 8 p)).length
  let all := shareSum s p
  let share := tndShare (s.vf p v).tnd * 1000 * n
  if 64 < all then share * 64 / all else share

/-- TENDER_CREDIT_TICK (R267): every enabled virtual function with a waiting request gains credit. -/
def execTenderCreditTick (die : Nat) (s : State) : Out :=
  .next ((s.die die).service.foldl (fun s q =>
    let p := q.1 / 16
    let v := q.1 % 16
    if q.2.isEmpty || !served s p v then s
    else s.modDie die fun d => { d with credit := Sparse.set d.credit q.1 (Sparse.get 0 d.credit q.1 + (creditGain s die p v : Int)) }) s)

/-- The capability to a save area that a trap request gives (R234). -/
def areaCap (va : Nat) : Reg :=
  let half (n : Nat) : Nat := n / 2 % 2 ^ 13
  { bits := BitVec.ofNat 128 (va % 2 ^ 64 + half (va + areaSize) * 2 ^ 64 + half va * 2 ^ 77 + 1 * 2 ^ 90 + 0x81B * 2 ^ 96), tag := true }

/-- The registers a service context starts with, from g1 on, and its trap registers (R234, R259). -/
def serviceRegs : Service → List Reg × TrapRegs
  | .trap t _ va k pc =>
    ([areaCap va, Reg.ofWord t.gti, Reg.ofWord (k.cause.setWidth 64), Reg.ofWord k.val, Reg.ofWord pc, Reg.ofWord k.aux],
      { cause := k.cause, val := k.val, pc := pc, aux := k.aux })
  | .sysc n b gti core args =>
    ([b, Reg.ofWord gti, {}, Reg.ofWord n, Reg.ofWord core, {}] ++ args, {})
  | .notice g3 g4 g5 g6 => ([{}, {}, Reg.ofWord g3, Reg.ofWord g4, Reg.ofWord g5, Reg.ofWord g6], {})

/-- The virtual function the Tender serves next for a partition on a die, by deficit round-robin: from the one it served
last on, in ascending order and round, the first that is enabled and has a request and credit (R267). -/
def nextServed (s : State) (die p : Nat) : Option Nat :=
  let d := s.die die
  let first := Sparse.get 0 d.turn p
  ((List.range 16).map fun j => (first + j) % 16).find? fun v =>
    served s p v && !(Sparse.get [] d.service (p * 16 + v)).isEmpty && decide ((0 : Int) < Sparse.get 0 d.credit (p * 16 + v))

/-- TENDER_SERVE (R259, R267): the context starts at KENTRY of the virtual function at kernel level. -/
def execTenderServe (c : Nat) (s : State) : Out :=
  let die := dieOf c
  let part := partOfCore s (coreOf c)
  .next (if !openContext s c part || !(serviceContexts s die part).contains c then s
    else
      match nextServed s die part.toNat with
      | none => s
      | some v =>
        let key := part.toNat * 16 + v
        match Sparse.get [] (s.die die).service key with
        | [] => s
        | r :: rest =>
          let entry := Sparse.get 0 (s.die die).kentry v
          let who : Ident :=
            { custodian := false, part := part, vf := BitVec.ofNat 4 v, gen := (s.vf part.toNat v).gen, world := decide (die < 8) }
          let x := s.ctx c
          let (regs, bank) := serviceRegs r
          let y : Context :=
            { nextId := x.nextId, seq := x.seq, atoms := x.atoms, set := x.set, run := .running, pc := entry, level := .kernel, ident := who
              ktrap := bank, latch := 0x07, served := some (s.time.toNat, die, key) }
          let y := (regs.mapIdx fun j g => (j, g)).foldl (fun (y : Context) e => y.setReg (BitVec.ofNat 6 (e.1 + 1)) e.2) y
          let s := s.modDie die fun d => { d with
            service := Sparse.set d.service key rest, turn := Sparse.set d.turn part.toNat v
            credit := if rest.isEmpty then Sparse.set d.credit key (min 0 (Sparse.get 0 d.credit key)) else d.credit }
          let s := s.setCtx c y
          let s := newTimelines s (tlOwner s c)
          if entry = 0 then stopAtCustodian s c else s)

/-! Borders (R268). -/

/-- Cores of a virtual function on a die once those that leave have left. -/
def borderAfter (s : State) (die key : Nat) : Nat :=
  let d := s.die die
  let m : List Nat := Sparse.get [] d.cmap key
  (m.filter fun n => !d.leaving.any fun e => e.1.contains n).length
    + ((d.leaving.filter fun e => e.2 == key).map (·.1.length)).foldl (· + ·) 0

/-- Whether a virtual function has a live Bridle job on a die (R448). -/
def bridleOn (s : State) (die p v : Nat) : Bool :=
  s.jobs.any fun e => match e.2 with
    | some j => j.live && j.bridle && j.part.toNat == p && j.vf.toNat == v && j.clusters.any fun k => k / 64 == die
    | none => false

/-- The virtual function that gives cores on a die: the one most above its target that is above its CMIN (R268). -/
def giver (s : State) (die p : Nat) (done : Nat → Nat) : Option Nat :=
  let excess (v : Nat) : Int := (done v : Int) - tndTarget (s.vf p v).tnd
  ((List.range 16).filter fun v =>
      served s p v && decide (0 < excess v) && decide (tndMin (s.vf p v).tnd < borderAfter s die (p * 16 + v))).foldl
    (fun (m : Option Nat) v => match m with
      | some u => if excess u < excess v then some v else some u
      | none => some v) none
where
  tndTarget (w : Word) : Nat := (w.extractLsb' 16 16).toNat

/-- Cuts a list into pairs in order. -/
def inPairs : List Nat → List (List Nat)
  | a :: b :: r => [a, b] :: inPairs r
  | _ => []

/-- Moves up to 16 cores of a die from one border to another: the last entries of the giver's map, as their contexts
let their tasks go; in whole pairs beside a live Bridle job (R268, R448). -/
def moveCores (s : State) (die p from' to' : Nat) : State :=
  let a := p * 16 + from'
  let b := p * 16 + to'
  let n := min 16 (min (borderAfter s die a - tndMin (s.vf p from').tnd) (tndMax (s.vf p to').tnd - borderAfter s die b))
  let stay := (Sparse.get [] (s.die die).cmap a).filter fun k => !(s.die die).leaving.any fun e => e.1.contains k
  let paired := bridleOn s die p from' || bridleOn s die p to'
  let groups :=
    if paired then
      let tail := stay.drop (stay.length - n / 2 * 2)
      if stay.length % 2 = 0 && pairsGood tail then (inPairs tail).reverse else []
    else ((stay.drop (stay.length - n)).map fun k => [k]).reverse
  let s := s.modDie die fun d => { d with leaving := d.leaving ++ groups.map fun g => (g, b) }
  settleBorders die (s.die die).leaving.length s

/-- Gives cores to the virtual functions below their target on a die (R268). -/
def adjustBorders (s : State) (die p : Nat) (done : Nat → Nat) : State :=
  (List.range 16).foldl (fun s v =>
    let w := (s.vf p v).tnd
    if served s p v && decide (done v < (w.extractLsb' 16 16).toNat) && decide (borderAfter s die (p * 16 + v) < tndMax w) then
      match giver s die p done with
      | some u => moveCores s die p u v
      | none => s
    else s) s

/-- TENDER_WINDOW_END (R266, R268). -/
def execTenderWindowEnd (part : Nat) (s : State) : Out :=
  let done (v : Nat) : Nat := (s.vf part v).doneCur
  let t := (List.range 16).foldl (fun s v => s.modVf part v fun x => { x with doneLast := x.doneCur, doneCur := 0 }) s
  .next (((partDies s part).filter (· < 8)).foldl (fun s d => adjustBorders s d part done) t)

/-! A Bridle pair (R161, R241, R242). -/

/-- BRIDLE_CHECKPOINT (R161): after 1024 retired instructions, on a full buffer, or where one is owed. -/
def execBridleCheckpoint (c : Nat) (s : State) : Out :=
  let k := coreOf c
  .next (match (s.core k).bridle with
    | some b =>
      if b.due || decide (1024 ≤ (s.core k).since) || decide (64 ≤ gateFill s k) then (checkpoint s c).getD s else s
    | none => s)

/-- A context goes back to its copy: its registers, its trap registers and its level of capture; what it has put into
the order buffer since is discarded, and the words a waiting instruction of it has taken are where they were (R241). -/
def rollContext (s : State) (r : RegCopy) : State :=
  let s := giveBack s r.c
  let x := s.ctx r.c
  if x.run = .free ∨ x.task.map (·.gti) ≠ r.task.map (·.gti) then s
  else
    let s := match r.rep with
      | some (e, p) => s.modPart (partNo x.ident) fun q => { q with reps := Sparse.set q.reps e p }
      | none => s
    let s := s.modCore (coreOf r.c) fun k => { k with
      journal := k.journal.filter fun (e : Nat × JEntry) => !(e.2.state == 1 && e.2.c == r.c && decide (r.next ≤ e.2.lid)) }
    s.setCtx r.c { x with
      g := r.g, v := r.v, p := r.p, pc := r.pc, flags := r.flags, round := r.round, ktrap := r.ktrap, ctrap := r.ctrap
      latch := r.latch ||| x.latch
      task := match x.task, r.task with
        | some t, some u => some { t with ord := u.ord, exempt := u.exempt, lastStop := u.lastStop }
        | t, _ => t
      run := match x.run with | .leaving 1 | .leaving 3 | .leaving 5 | .blocked _ _ | .halted => .running | y => y
      lob := x.lob.filter fun e => decide (e.id < r.next), vq := [], walk := none, sent := false, reply := none }

/-- The third failure in succession: each task of the pair takes cause 0x10; a monitor pair stops (R242, R288). -/
def failContext (s : State) (c : Nat) : State :=
  let x := s.ctx c
  if x.run = .free then s
  else if x.task.isNone then stopAtCustodian s c
  else takeTrap s c { cause := 0x10, val := x.pc, aux := brstat s (coreOf c) }

/-- Whether a mismatch can find work of the pair undone: no instruction has left it whose reply is still due, a load
apart, and its interval has begun (R161, R241). -/
def canRoll (s : State) (k : Nat) (b : Bridle) : Bool :=
  !b.due && !b.ckpt.isEmpty && (contextsOf k).all fun c => !holdsOut (s.ctx c) && (s.ctx c).outst == 0

/-- BRIDLE_MISMATCH (R241, R242). -/
def execBridleMismatch (c : Nat) (s : State) : Out :=
  let k := coreOf c
  .next (match (s.core k).bridle with
    | some b =>
      if !canRoll s k b then s
      else
        let s := b.ckpt.foldl rollContext s
        let third := decide (2 ≤ b.fails)
        let s := s.modCore k fun q => { q with
          queues := b.queues, matrix := b.matrix.getD q.matrix, mism := true, rolls := min (q.rolls + 1) 0xFFFF, since := 0
          bridle := some { b with gated := [], taken := 0, matrix := none, fails := if third then 0 else b.fails + 1 } }
        let s := s.modCore (k + 1) fun q => { q with mism := true, rolls := min (q.rolls + 1) 0xFFFF, since := 0 }
        if third then (contextsOf k).foldl failContext s else s
    | none => s)

/-! The monitor pair (R288) and BANKCFG (R218). -/

/-- MONITOR_TRAP_DELIVERY (R288): on context 0 of the pair once it waits in HALT. -/
def execMonitorTrapDelivery (die : Nat) (s : State) : Out :=
  let c := ctxKey (die * 512 + 262) 0
  let x := s.ctx c
  .next (if 8 ≤ die ∨ !(x.run == .halted || x.run == .free) then s
    else
      match (s.die die).monitor with
      | [] => s
      | t :: r => pairStarts (enterCustodian (s.modDie die fun d => { d with monitor := r }) c t) (coreOf c))

/-- BANK_MODE_SET (R218): the banks a BANKCFG waits for are clean and idle, and take their new modes. -/
def execBankModeSet (c : Nat) (s : State) : Out :=
  .next (match (s.ctx c).run with
    | .blocked (.banks cl m mode first) _ =>
      if banksIdle s cl (bankChanges s cl m mode) first then setModes s cl fun b => if m.testBit b then mode else bankMode s cl b else s
    | _ => s)

end Sys2Proof.Machine
end

