-- ==== Sys2Proof/Machine/Dispatch.lean ====
section
/-! DEFINITION. One arm for each constructor of `Instr`: the meaning of its row of the opcode table. -/

namespace Sys2Proof.Machine

def exec (i : Instr) (s : State) : Host.Outcome State Fault Refusal :=
  match i with
  | .add o => Sys2Proof.Machine.execAdd o s
  | .sub o => Sys2Proof.Machine.execSub o s
  | .mul o => Sys2Proof.Machine.execMul o s
  | .mulh o => Sys2Proof.Machine.execMulh o s
  | .div o => Sys2Proof.Machine.execDiv o s
  | .rem o => Sys2Proof.Machine.execRem o s
  | .and o => Sys2Proof.Machine.execAnd o s
  | .or o => Sys2Proof.Machine.execOr o s
  | .xor o => Sys2Proof.Machine.execXor o s
  | .andn o => Sys2Proof.Machine.execAndn o s
  | .shl o => Sys2Proof.Machine.execShl o s
  | .shr o => Sys2Proof.Machine.execShr o s
  | .sar o => Sys2Proof.Machine.execSar o s
  | .rot o => Sys2Proof.Machine.execRot o s
  | .clz o => Sys2Proof.Machine.execClz o s
  | .popc o => Sys2Proof.Machine.execPopc o s
  | .min o => Sys2Proof.Machine.execMin o s
  | .max o => Sys2Proof.Machine.execMax o s
  | .cmp o => Sys2Proof.Machine.execCmp o s
  | .sel o => Sys2Proof.Machine.execSel o s
  | .movi o => Sys2Proof.Machine.execMovi o s
  | .movhi o => Sys2Proof.Machine.execMovhi o s
  | .csetb o => Sys2Proof.Machine.execCsetb o s
  | .csetp o => Sys2Proof.Machine.execCsetp o s
  | .cseal o => Sys2Proof.Machine.execCseal o s
  | .cunseal o => Sys2Proof.Machine.execCunseal o s
  | .cadd o => Sys2Proof.Machine.execCadd o s
  | .cget o => Sys2Proof.Machine.execCget o s
  | .ctest o => Sys2Proof.Machine.execCtest o s
  | .ckey o => Sys2Proof.Machine.execCkey o s
  | .br o => Sys2Proof.Machine.execBr o s
  | .brc o => Sys2Proof.Machine.execBrc o s
  | .call o => Sys2Proof.Machine.execCall o s
  | .ret o => Sys2Proof.Machine.execRet o s
  | .jmpi o => Sys2Proof.Machine.execJmpi o s
  | .loop o => Sys2Proof.Machine.execLoop o s
  | .yield o => Sys2Proof.Machine.execYield o s
  | .endTask o => Sys2Proof.Machine.execEndTask o s
  | .trapi o => Sys2Proof.Machine.execTrapi o s
  | .fadd o => Sys2Proof.Machine.execFadd o s
  | .fsub o => Sys2Proof.Machine.execFsub o s
  | .fmul o => Sys2Proof.Machine.execFmul o s
  | .ffma o => Sys2Proof.Machine.execFfma o s
  | .fdiv o => Sys2Proof.Machine.execFdiv o s
  | .fsqrt o => Sys2Proof.Machine.execFsqrt o s
  | .fcvt o => Sys2Proof.Machine.execFcvt o s
  | .fcmp o => Sys2Proof.Machine.execFcmp o s
  | .ld o => Sys2Proof.Machine.execLd o s
  | .st o => Sys2Proof.Machine.execSt o s
  | .ldc o => Sys2Proof.Machine.execLdc o s
  | .stc o => Sys2Proof.Machine.execStc o s
  | .ldtg o => Sys2Proof.Machine.execLdtg o s
  | .sttg o => Sys2Proof.Machine.execSttg o s
  | .pref o => Sys2Proof.Machine.execPref o s
  | .ldacq o => Sys2Proof.Machine.execLdacq o s
  | .strel o => Sys2Proof.Machine.execStrel o s
  | .fence o => Sys2Proof.Machine.execFence o s
  | .amsg o => Sys2Proof.Machine.execAmsg o s
  | .pst o => Sys2Proof.Machine.execPst o s
  | .jrd o => Sys2Proof.Machine.execJrd o s
  | .jrdClr o => Sys2Proof.Machine.execJrdClr o s
  | .mwait o => Sys2Proof.Machine.execMwait o s
  | .bankcfg o => Sys2Proof.Machine.execBankcfg o s
  | .csrr o => Sys2Proof.Machine.execCsrr o s
  | .csrw o => Sys2Proof.Machine.execCsrw o s
  | .sysc o => Sys2Proof.Machine.execSysc o s
  | .eret o => Sys2Proof.Machine.execEret o s
  | .brk o => Sys2Proof.Machine.execBrk o s
  | .wfe o => Sys2Proof.Machine.execWfe o s
  | .halt o => Sys2Proof.Machine.execHalt o s
  | .tlbinvPage o => Sys2Proof.Machine.execTlbinvPage o s
  | .tlbinvAll o => Sys2Proof.Machine.execTlbinvAll o s
  | .migr o => Sys2Proof.Machine.execMigr o s
  | .ckpt o => Sys2Proof.Machine.execCkpt o s
  | .tspawn o => Sys2Proof.Machine.execTspawn o s
  | .tsig o => Sys2Proof.Machine.execTsig o s
  | .launch o => Sys2Proof.Machine.execLaunch o s
  | .done o => Sys2Proof.Machine.execDone o s
  | .fget o => Sys2Proof.Machine.execFget o s
  | .fput o => Sys2Proof.Machine.execFput o s
  | .tcontReady o => Sys2Proof.Machine.execTcontReady o s
  | .tcontEnd o => Sys2Proof.Machine.execTcontEnd o s
  | .trec o => Sys2Proof.Machine.execTrec o s
  | .amo o => Sys2Proof.Machine.execAmo o s
  | .amor o => Sys2Proof.Machine.execAmor o s
  | .phnew o => Sys2Proof.Machine.execPhnew o s
  | .phjoin o => Sys2Proof.Machine.execPhjoin o s
  | .phleave o => Sys2Proof.Machine.execPhleave o s
  | .phrole o => Sys2Proof.Machine.execPhrole o s
  | .phsig o => Sys2Proof.Machine.execPhsig o s
  | .phwait o => Sys2Proof.Machine.execPhwait o s
  | .ctrread o => Sys2Proof.Machine.execCtrread o s
  | .tcregAdd o => Sys2Proof.Machine.execTcregAdd o s
  | .tcregDel o => Sys2Proof.Machine.execTcregDel o s
  | .tcregStat o => Sys2Proof.Machine.execTcregStat o s
  | .tclookRd o => Sys2Proof.Machine.execTclookRd o s
  | .tclookWr o => Sys2Proof.Machine.execTclookWr o s
  | .tcpf o => Sys2Proof.Machine.execTcpf o s
  | .tchalo o => Sys2Proof.Machine.execTchalo o s
  | .tcinv o => Sys2Proof.Machine.execTcinv o s
  | .tcinvDrop o => Sys2Proof.Machine.execTcinvDrop o s
  | .tcinvAll o => Sys2Proof.Machine.execTcinvAll o s
  | .sgath o => Sys2Proof.Machine.execSgath o s
  | .sred o => Sys2Proof.Machine.execSred o s
  | .sconv o => Sys2Proof.Machine.execSconv o s
  | .copy o => Sys2Proof.Machine.execCopy o s
  | .copyr o => Sys2Proof.Machine.execCopyr o s
  | .wprd o => Sys2Proof.Machine.execWprd o s
  | .tlwait o => Sys2Proof.Machine.execTlwait o s
  | .tlrd o => Sys2Proof.Machine.execTlrd o s
  | .vadd o => Sys2Proof.Machine.execVadd o s
  | .vsub o => Sys2Proof.Machine.execVsub o s
  | .vmul o => Sys2Proof.Machine.execVmul o s
  | .vfma o => Sys2Proof.Machine.execVfma o s
  | .vmin o => Sys2Proof.Machine.execVmin o s
  | .vmax o => Sys2Proof.Machine.execVmax o s
  | .vabs o => Sys2Proof.Machine.execVabs o s
  | .vneg o => Sys2Proof.Machine.execVneg o s
  | .vrcp o => Sys2Proof.Machine.execVrcp o s
  | .vrsq o => Sys2Proof.Machine.execVrsq o s
  | .vexp2 o => Sys2Proof.Machine.execVexp2 o s
  | .vlog2 o => Sys2Proof.Machine.execVlog2 o s
  | .vcvt o => Sys2Proof.Machine.execVcvt o s
  | .vcmp o => Sys2Proof.Machine.execVcmp o s
  | .vsel o => Sys2Proof.Machine.execVsel o s
  | .vand o => Sys2Proof.Machine.execVand o s
  | .vor o => Sys2Proof.Machine.execVor o s
  | .vxor o => Sys2Proof.Machine.execVxor o s
  | .vshl o => Sys2Proof.Machine.execVshl o s
  | .vshr o => Sys2Proof.Machine.execVshr o s
  | .vredadd o => Sys2Proof.Machine.execVredadd o s
  | .vredmax o => Sys2Proof.Machine.execVredmax o s
  | .vscan o => Sys2Proof.Machine.execVscan o s
  | .vperm o => Sys2Proof.Machine.execVperm o s
  | .vbcast o => Sys2Proof.Machine.execVbcast o s
  | .vclass o => Sys2Proof.Machine.execVclass o s
  | .vld o => Sys2Proof.Machine.execVld o s
  | .vst o => Sys2Proof.Machine.execVst o s
  | .vlds o => Sys2Proof.Machine.execVlds o s
  | .vgath o => Sys2Proof.Machine.execVgath o s
  | .vscat o => Sys2Proof.Machine.execVscat o s
  | .vmovgGet o => Sys2Proof.Machine.execVmovgGet o s
  | .vmovgPut o => Sys2Proof.Machine.execVmovgPut o s
  | .mclaim o => Sys2Proof.Machine.execMclaim o s
  | .mrel o => Sys2Proof.Machine.execMrel o s
  | .mld o => Sys2Proof.Machine.execMld o s
  | .mma o => Sys2Proof.Machine.execMma o s
  | .mtern o => Sys2Proof.Machine.execMtern o s
  | .accz o => Sys2Proof.Machine.execAccz o s
  | .accld o => Sys2Proof.Machine.execAccld o s
  | .accst o => Sys2Proof.Machine.execAccst o s
  | .accmov o => Sys2Proof.Machine.execAccmov o s
  | .msave o => Sys2Proof.Machine.execMsave o s
  | .mrestore o => Sys2Proof.Machine.execMrestore o s
  | .bcent o => Sys2Proof.Machine.execBcent o s
  | .bclisten o => Sys2Proof.Machine.execBclisten o s
  | .bcbindBind o => Sys2Proof.Machine.execBcbindBind o s
  | .bcbindUnbind o => Sys2Proof.Machine.execBcbindUnbind o s
  | .bcbindStat o => Sys2Proof.Machine.execBcbindStat o s
  | .bcbindAssign o => Sys2Proof.Machine.execBcbindAssign o s
  | .foffer o => Sys2Proof.Machine.execFoffer o s
  | .fofferGrant o => Sys2Proof.Machine.execFofferGrant o s
  | .fofferReclaim o => Sys2Proof.Machine.execFofferReclaim o s
  | .faccept o => Sys2Proof.Machine.execFaccept o s
  | .fwithdraw o => Sys2Proof.Machine.execFwithdraw o s
  | .flend o => Sys2Proof.Machine.execFlend o s
  | .frecall o => Sys2Proof.Machine.execFrecall o s
  | .fret o => Sys2Proof.Machine.execFret o s
  | .fqueryState o => Sys2Proof.Machine.execFqueryState o s
  | .fqueryDl o => Sys2Proof.Machine.execFqueryDl o s
  | .fqueryStrk o => Sys2Proof.Machine.execFqueryStrk o s
  | .matrixInstructionComplete core => Sys2Proof.Machine.execMatrixInstructionComplete core s
  | .performLoad c id => Sys2Proof.Machine.execPerformLoad c id s
  | .enqueueStore c id => Sys2Proof.Machine.execEnqueueStore c id s
  | .drain cl id => Sys2Proof.Machine.execDrain cl id s
  | .send c id => Sys2Proof.Machine.execSend c id s
  | .performAtomic k => Sys2Proof.Machine.execPerformAtomic k s
  | .atomicReply k => Sys2Proof.Machine.execAtomicReply k s
  | .atomicResend c => Sys2Proof.Machine.execAtomicResend c s
  | .enginePerform id k old => Sys2Proof.Machine.execEnginePerform id k old s
  | .engineComplete id => Sys2Proof.Machine.execEngineComplete id s
  | .fenceComplete c id => Sys2Proof.Machine.execFenceComplete c id s
  | .wordArrival k => Sys2Proof.Machine.execWordArrival k s
  | .mailboxAcknowledgement k => Sys2Proof.Machine.execMailboxAcknowledgement k s
  | .postedStoreArrival k => Sys2Proof.Machine.execPostedStoreArrival k s
  | .asyncTrapTaken c => Sys2Proof.Machine.execAsyncTrapTaken c s
  | .park c => Sys2Proof.Machine.execPark c s
  | .schedulerPreemption c => Sys2Proof.Machine.execSchedulerPreemption c s
  | .switchOut c => Sys2Proof.Machine.execSwitchOut c s
  | .taskDispatch c => Sys2Proof.Machine.execTaskDispatch c s
  | .wfeTimeout c => Sys2Proof.Machine.execWfeTimeout c s
  | .tsigPerform k => Sys2Proof.Machine.execTsigPerform k s
  | .doneMessageArrival k => Sys2Proof.Machine.execDoneMessageArrival k s
  | .actorFiring a => Sys2Proof.Machine.execActorFiring a s
  | .handlerDispatch c => Sys2Proof.Machine.execHandlerDispatch c s
  | .tenderServe c => Sys2Proof.Machine.execTenderServe c s
  | .tenderCreditTick die => Sys2Proof.Machine.execTenderCreditTick die s
  | .tenderWindowEnd part => Sys2Proof.Machine.execTenderWindowEnd part s
  | .forwardingLapse k => Sys2Proof.Machine.execForwardingLapse k s
  | .bridleCheckpoint c => Sys2Proof.Machine.execBridleCheckpoint c s
  | .bridleMismatch c => Sys2Proof.Machine.execBridleMismatch c s
  | .monitorTrapDelivery die => Sys2Proof.Machine.execMonitorTrapDelivery die s
  | .uncorrectableError pa c => Sys2Proof.Machine.execUncorrectableError pa c s
  | .holdTimeout tag => Sys2Proof.Machine.execHoldTimeout tag s
  | .holdrspReplay die who w => Sys2Proof.Machine.execHoldrspReplay die who w s
  | .holdrspPoison die who w => Sys2Proof.Machine.execHoldrspPoison die who w s
  | .pageWalk c => Sys2Proof.Machine.execPageWalk c s
  | .invalidationAck die k => Sys2Proof.Machine.execInvalidationAck die k s
  | .quarantine die => Sys2Proof.Machine.execQuarantine die s
  | .flitReceive link cls seq good src dst => Sys2Proof.Machine.execFlitReceive link cls seq good src dst s
  | .replayBudgetExhausted link => Sys2Proof.Machine.execReplayBudgetExhausted link s
  | .dieLost die => Sys2Proof.Machine.execDieLost die s
  | .tagCheckComplete c id ok => Sys2Proof.Machine.execTagCheckComplete c id ok s
  | .revokePoint frame line => Sys2Proof.Machine.execRevokePoint frame line s
  | .custodyTransactionComplete frame => Sys2Proof.Machine.execCustodyTransactionComplete frame s
  | .recallDeadline frame => Sys2Proof.Machine.execRecallDeadline frame s
  | .suspensionEnd part vf world => Sys2Proof.Machine.execSuspensionEnd part vf world s
  | .beaconEntryArrival c => Sys2Proof.Machine.execBeaconEntryArrival c s
  | .beaconArmPoint lane => Sys2Proof.Machine.execBeaconArmPoint lane s
  | .beaconFrameEnd lane => Sys2Proof.Machine.execBeaconFrameEnd lane s
  | .orphanFree cl => Sys2Proof.Machine.execOrphanFree cl s
  | .copyrQueueArrival id => Sys2Proof.Machine.execCopyrQueueArrival id s
  | .copyCompletionReport id => Sys2Proof.Machine.execCopyCompletionReport id s
  | .bankModeSet c => Sys2Proof.Machine.execBankModeSet c s
  | .preemptWrite die who w => Sys2Proof.Machine.execPreemptWrite die who w s
  | .dbhaltWrite die who w => Sys2Proof.Machine.execDbhaltWrite die who w s
  | .vfReset part who w => Sys2Proof.Machine.execVfReset part who w s
  | .pctlEnable part who w => Sys2Proof.Machine.execPctlEnable part who w s
  | .pctlDisable part who w => Sys2Proof.Machine.execPctlDisable part who w s
  | .ksubSubmit who w => Sys2Proof.Machine.execKsubSubmit who w s
  | .measextAbsorb who w => Sys2Proof.Machine.execMeasextAbsorb who w s
  | .certRoll slot who w => Sys2Proof.Machine.execCertRoll slot who w s
  | .attreqStart who w => Sys2Proof.Machine.execAttreqStart who w s
  | .attestationDone => Sys2Proof.Machine.execAttestationDone s
  | .custbaseEnable stack who w => Sys2Proof.Machine.execCustbaseEnable stack who w s
  | .dieReset die who w => Sys2Proof.Machine.execDieReset die who w s
  | .ckptSave who w => Sys2Proof.Machine.execCkptSave who w s
  | .ckptRestore who w => Sys2Proof.Machine.execCkptRestore who w s
  | .ckptDone ok => Sys2Proof.Machine.execCkptDone ok s
  | .wacsubSubmit die who w => Sys2Proof.Machine.execWacsubSubmit die who w s
  | .wacContribution die k member round data => Sys2Proof.Machine.execWacContribution die k member round data s
  | .wacBoundExpiry die k => Sys2Proof.Machine.execWacBoundExpiry die k s
  | .esessOpen die n who w => Sys2Proof.Machine.execEsessOpen die n who w s
  | .esessClose die n who w => Sys2Proof.Machine.execEsessClose die n who w s
  | .sessionKeyingTimeout die n => Sys2Proof.Machine.execSessionKeyingTimeout die n s
  | .ethernetFrameReceive die n key ok ctr => Sys2Proof.Machine.execEthernetFrameReceive die n key ok ctr s
  | .sessionRekey die n => Sys2Proof.Machine.execSessionRekey die n s
  | .cxlResponse die win load => Sys2Proof.Machine.execCxlResponse die win load s
  | .devloadPeriodEnd die win => Sys2Proof.Machine.execDevloadPeriodEnd die win s
  | .traceRecord part => Sys2Proof.Machine.execTraceRecord part s
  | .throttleChange die code mhz issue mv => Sys2Proof.Machine.execThrottleChange die code mhz issue mv s
  | .thermalTrip die => Sys2Proof.Machine.execThermalTrip die s
  | .supplyUndervoltage => Sys2Proof.Machine.execSupplyUndervoltage s
  | .moduleReset => Sys2Proof.Machine.execModuleReset s
  | .registerWrite pa who w => Sys2Proof.Machine.execRegisterWrite pa who w s
  | .activeMessageArrival k => Sys2Proof.Machine.execActiveMessageArrival k s
  | .amsgAcceptance k => Sys2Proof.Machine.execAmsgAcceptance k s
  | .linkRetrainComplete link => Sys2Proof.Machine.execLinkRetrainComplete link s
  | .supplyRestored => Sys2Proof.Machine.execSupplyRestored s
  | .portLinkStateChange die port lstat => Sys2Proof.Machine.execPortLinkStateChange die port lstat s
  | .vectorInstructionComplete c => Sys2Proof.Machine.execVectorInstructionComplete c s

end Sys2Proof.Machine
end

