-- ==== Sys2Proof/Machine/Step.lean ====
section
/-! DEFINITION. One step of the package (R100): the turn the agenda names, or, with none, bring-up, then the
first step that changes something, then the issue of the context that acts. -/

namespace Sys2Proof.Machine

/-- Puts the bytes a step wrote into memory. -/
def State.commit (s t : State) : State := { t with mem := Memory.writeAll s.mem t.writes.reverse, writes := [] }

/-- `commit` under an outcome. -/
def commitOutcome (s : State) (o : Host.Outcome State Fault Refusal) : Host.Outcome State Fault Refusal :=
  match o with
  | .next t => .next (s.commit t)
  | .fault r => .fault r
  | .refused r => .refused r

/-- The issue of one context. -/
def issue (s : State) (c : Nat) : Host.Outcome State Fault Refusal :=
  if isContext c then
    match fetchInstr { s with cur := c } c with
    | .go i => exec i { s with cur := c }
    | .done t => .next t
  else .fault .noSuchContext

/-- Whether an event changes the state. -/
def moves (s : State) (i : Instr) : Bool :=
  match exec i s with
  | .next t => t != s
  | _ => false

/-- The turn taken when the agenda is empty. -/
def nextTurn (s : State) : Turn :=
  if !s.up then .event .moduleReset
  else match (candidates s).find? (moves s) with
    | some i => .event i
    | none => .issue s.cur

/-- A turn. -/
def act (t : Turn) (s : State) : Host.Outcome State Fault Refusal :=
  match t with
  | .issue c => issue s c
  | .event i => exec i s
  | .tick n => .next (passTime s n)

def step (s : State) : Host.Outcome State Fault Refusal :=
  let s0 := { s with writes := [] }
  match s.agenda with
  | t :: r => commitOutcome s (act t { s0 with agenda := r })
  | [] => commitOutcome s (act (nextTurn s0) s0)

/-- The context a word is placed for: a custodian context of HD0, or, for a word only a compute core has, a
context of CD0's core 0, in partition 0 of which CD0 is logical die 0, with one page of its cluster's scratchpad
mapped for it. -/
def State.withFetchWord (s : State) (nbits w : Nat) : State :=
  let bytes := bytesOf (tableWord nbits w)
  match decodeBytes .host bytes with
  | .ok _ =>
    let c := 8 * 4096
    let x := s.ctx c
    let s := s.setCtx c { x with
      run := .running, level := .custodian, pc := 0x1000, pend := [], outst := 0
      ident := { custodian := true, part := 0xFF, world := false } }
    { s with up := true, cur := c, agenda := [], writes := []
             mem := Memory.writeAll s.mem ((fixBytes 12 bytes).mapIdx fun i b => (0x1000 + i, b)) }
  | .error _ =>
    let x := s.ctx 0
    let who : Ident := { custodian := false, part := 0, vf := 0, world := true }
    let s := s.setCtx 0 { x with run := .running, level := .task, pc := 0x1000, pend := [], outst := 0, ident := who }
    let s := s.modPart 0 fun p => { p with en := true, ldt := [(0, 0x80000000)] }
    let s := s.modClu 0 fun k => { k with
      modes := (List.range 32).map fun b => (b, BankMode.scratch)
      tlb := [{ ident := who, vpn := 1, size := 12, pa := 2 ^ 48, r := true, w := true, x := true, u := true, dirty := true, mt := 0 }] }
    { s with up := true, cur := 0, agenda := [], writes := [], sec := { s.sec with pmap := [(0, 0)] }
             mem := Memory.writeAll s.mem ((fixBytes 12 bytes).mapIdx fun i b => ((scratchLoc s 0 i).getD 0, b)) }

end Sys2Proof.Machine
end

