-- ==== Sys2Proof/Safety.lean ====
section
/-! DEFINITION. The terms the statements are made in: when nothing stands before an instruction's own effect, when
its operands are there, and what a state holds after the instruction, register by register. -/

namespace Sys2Proof.Machine

/-- Nothing stands before the body of an instruction of the acting context: the context exists, no write of it that
has left the core awaits its acknowledgement (R233), no breakpoint or step stop meets it (R467, R468), its guard
has come (R353), and its pair, if it runs on one, owes no checkpoint (R161). -/
structure Clear (s : State) (h : Hdr) : Prop where
  real : isContext s.cur = true
  done : (s.ctx s.cur).outst = 0
  stop : fetchStop s s.cur = none
  known : (s.ctx s.cur).pendP h.guard.p = false
  paid : ∀ b, (s.core (coreOf s.cur)).bridle = some b → b.due = false ∧ (s.core (coreOf s.cur)).since < 1024

/-- The guard of a scalar instruction is true: bit 0 of its effective guard (R51). -/
def On (s : State) (h : Hdr) : Prop := (guardOf (s.ctx s.cur) h.guard).getLsbD 0 = true

/-- The acting context runs on no Bridle pair (R160), and no replay entry acts on its task (R473). -/
structure Lone (s : State) : Prop where
  pair : (s.core (coreOf s.cur)).bridle = none
  replay : replayOf s s.cur = none

/-- The operands of a scalar instruction are there (R45): no general register it names waits for a load or a vector
instruction; and where it names a queue, a port or a mailbox, R45's conditions hold together, no context that has
waited longer comes first (R46), and what leaves the core has been verified (R453). -/
structure Ready (s : State) (srcs : List Src) (d : Option Dst) : Prop where
  known : (s.ctx s.cur).pendSrc srcs = false
  room : (s.ctx s.cur).pendDst d = false
  there : blocking srcs d = true →
    Lone s ∧ operandsReady s s.cur srcs d = true ∧ givesWay s s.cur srcs d = false
  verified : outward d = true → s.unchecked s.cur = false
  /-- Message timing is off on the die, or no mailbox is read (R472). -/
  untimed : (∀ m, Src.m m ∉ srcs) ∨ (s.die (coreDie (coreOf s.cur))).msgt.getLsbD 63 = false

/-- How many of some sources are a given one. -/
def times (l : List Src) (v : Src) : Nat := (l.filter (· == v)).length

/-- The word a source gives after the sources before it (R43 to R48): a queue or a port gives its next word each
time it is named, a mailbox named twice gives its word twice. -/
def srcWord (s : State) (seen : List Src) (v : Src) : Word :=
  let k := s.core (coreOf s.cur)
  match v with
  | .g i => (s.ctx s.cur).low i
  | .q i => (k.queue i.toNat).getD (times seen v) 0
  | .n i => (k.port i.toNat).getD (times seen v) 0
  | .m i => ((k.mail i.toNat).map (·.w)).getD 0

/-- The words a list of sources gives, in order. -/
def srcWords (s : State) (seen : List Src) : List Src → List Word
  | [] => []
  | v :: r => srcWord s seen v :: srcWords s (seen ++ [v]) r

/-- The ports, and the mailboxes, that reading some sources marks as used (R239, R407). -/
def portMarks (l : List Src) : BitVec 4 := l.foldl (fun m v => match v with | .n i => m ||| 1 <<< i.toNat | _ => m) 0
def mailMarks (l : List Src) : BitVec 32 := l.foldl (fun m v => match v with | .m i => m ||| 1 <<< i.toNat | _ => m) 0

/-- What stands in a core's queues, ports and mailboxes after some sources were read (R46, R48). -/
structure Consumed (s t : State) (srcs : List Src) (d : Option Dst) (w : Word) : Prop where
  queues : ∀ i : BitVec 3, (t.core (coreOf s.cur)).queue i.toNat =
    ((s.core (coreOf s.cur)).queue i.toNat).drop (times srcs (.q i)) ++ (if d = some (.q i) then [w] else [])
  ports : ∀ i : BitVec 2, (t.core (coreOf s.cur)).port i.toNat =
    ((s.core (coreOf s.cur)).port i.toNat).drop (times srcs (.n i))
  mail : ∀ i : BitVec 5, (t.core (coreOf s.cur)).mail i.toNat =
    if Src.m i ∈ srcs then none else (s.core (coreOf s.cur)).mail i.toNat

/-- A context that has retired an instruction and goes on at an address. -/
def Context.goesOn (x : Context) (pc : Word) : Context :=
  { x with
    pc := pc, run := .running, sent := false, reply := none, mheld := false
    task := x.task.map fun a => { a with ord := a.ord + 1, exempt := none } }

/-- Nothing of a core changes but its queues, ports and mailboxes, its event counters (R152), and the instructions
its pair has retired since the last checkpoint (R162). -/
def CoreKept (s t : State) (k : Nat) : Prop :=
  t.core k = { s.core k with
    queues := (t.core k).queues, ports := (t.core k).ports, mbox := (t.core k).mbox, evc := (t.core k).evc
    since := (t.core k).since }

/-- A context of a core that a word has come to: event bit 1, and it goes on if it waited for any mailbox (R222). -/
def wordCame (x : Context) : Context :=
  { x with
    latch := x.latch ||| 0x02
    run := match x.run with | .blocked .mwait _ => .running | r => r }

/-- Flags reach the die's cluster register too (R136): bits of one cluster of one die, every other as before. -/
def ClusterFlags (s t : State) (fl : FpFlags) : Prop :=
  ∀ e n, Sparse.get 0 (t.die e).clflags n =
    if kindOf s.cur = .compute ∧ e = dieOf s.cur ∧ n = clusterOf s.cur % 64 then
      Sparse.get 0 (s.die e).clflags n ||| fl
    else Sparse.get 0 (s.die e).clflags n

/-- Nothing of the package changes but contexts, cores, dies, the traffic in flight and the number of the next
object made: memory, capability tags, locks, partitions, timelines, engine commands and all the rest are as
before. -/
def Within (s t : State) : Prop :=
  t = { s with ctxs := t.ctxs, cores := t.cores, dies := t.dies, net := t.net, next := t.next }

/-- Every byte of memory reads as before. -/
def SameBytes (s t : State) : Prop := ∀ a, byteAt t a = byteAt s a

/-- A word is on its way toward a mailbox or port (R46, R49). -/
def WordSent (s t : State) (core : Nat) (reg : WordReg) (w : Word) (owed : Bool) : Prop :=
  ∃ m : MsgWord, m.w = w ∧ m.sender = coreWord s (s.ctx s.cur).ident (coreOf s.cur) ∧ m.t0 = s.time.toNat % 2 ^ 48 ∧
    t.net = s.net ++ [(s.next, .word core reg m s.cur (gtiOf (s.ctx s.cur)) (s.ctx s.cur).ident false owed)]
    ∧ t.next = s.next + 1

/-- A word leaves through a mesh port toward the neighbour (R18, R46); through no other destination. -/
def Departed (s t : State) (d : Dst) (w : Word) : Prop :=
  match d with
  | .n i => WordSent s t (neighbour (meshCore s s.cur) i.toNat).1 (.port (neighbour (meshCore s s.cur) i.toNat).2) w false
  | _ => t.net = s.net ∧ t.next = s.next

/-- Whether a destination is a queue. -/
def isQueue : Dst → Bool | .q _ => true | _ => false

/-- What a state holds after an instruction with scalar sources and a scalar destination that is no remote mailbox
has retired with result `w` and flags `fl`: the destination written, the sources consumed, the pc past the
instruction, and everything else as before. A write of g0 is discarded (R41). -/
structure ScalarDone (s t : State) (srcs : List Src) (d : Dst) (w : Word) (fl : FpFlags) : Prop where
  whole : Within s t
  bytes : SameBytes s t
  own : t.ctx s.cur =
    { (s.ctx s.cur).goesOn ((s.ctx s.cur).pc + 12) with
      g := (t.ctx s.cur).g
      flags := (s.ctx s.cur).flags ||| fl
      latch := if isQueue d then (s.ctx s.cur).latch ||| 0x02 else (s.ctx s.cur).latch
      pmask := (s.ctx s.cur).pmask ||| portMarks srcs
      mbxmask := (s.ctx s.cur).mbxmask ||| mailMarks srcs }
  regs : ∀ j, (t.ctx s.cur).reg j = if d = .g j ∧ j ≠ 0 then Reg.ofWord w else (s.ctx s.cur).reg j
  consumed : Consumed s t srcs (some d) w
  core : CoreKept s t (coreOf s.cur)
  cores : ∀ j, j ≠ coreOf s.cur → t.core j = s.core j
  others : ∀ e, isContext e = true → e ≠ s.cur → t.ctx e =
    if isQueue d = true ∧ coreOf e = coreOf s.cur then wordCame (s.ctx e) else s.ctx e
  dies : ∀ e, t.die e = { s.die e with
    clflags := (t.die e).clflags, parked := (t.die e).parked, ready := (t.die e).ready }
  pools : isQueue d = false → ∀ e, (t.die e).parked = (s.die e).parked ∧ (t.die e).ready = (s.die e).ready
  flags : ClusterFlags s t fl
  net : Departed s t d w

/-- A remote mailbox destination may be written: the register names a core of the partition (R22, R49), everything
older is complete at partition scope (R113, R118), and the context is not on a pair. -/
structure MailReady (s : State) (k : BitVec 6) (target : Nat) : Prop where
  names : coreOfWord s (s.ctx s.cur).ident ((s.ctx s.cur).low k).toNat = some target
  older : released s s.cur .part = true
  lone : (s.core (coreOf s.cur)).bridle = none

/-- What a state holds after an instruction has sent its result to a remote mailbox (R49): the word is on its way,
the sources are consumed, and the context stays in the instruction until the word is acknowledged; its flags are
raised then, and not before (R135). -/
structure MailSent (s t : State) (srcs : List Src) (target m : Nat) (w : Word) (fl : FpFlags) : Prop where
  whole : Within s t
  bytes : SameBytes s t
  own : t.ctx s.cur =
    { s.ctx s.cur with
      run := (t.ctx s.cur).run, outst := 1, acked := false, served := none, oflags := fl, mheld := false
      pmask := (s.ctx s.cur).pmask ||| portMarks srcs
      mbxmask := (s.ctx s.cur).mbxmask ||| mailMarks srcs }
  blocked : ∃ n, (t.ctx s.cur).run = .blocked .mailboxAck n
  consumed : Consumed s t srcs none w
  core : CoreKept s t (coreOf s.cur)
  cores : ∀ j, j ≠ coreOf s.cur → t.core j = s.core j
  others : ∀ e, e ≠ s.cur → t.ctx e = s.ctx e
  dies : ∀ e, t.die e = { s.die e with credit := (t.die e).credit }
  net : WordSent s t target (.mbx m) w true

/-- What a state holds after an instruction with a predicate destination (R166): all ones or zero in the predicate
(p0 discards it, R41), and everything else as before. -/
structure PredDone (s t : State) (srcs : List Src) (p : BitVec 4) (b : Bool) (fl : FpFlags) : Prop where
  whole : Within s t
  net : t.net = s.net ∧ t.next = s.next
  bytes : SameBytes s t
  own : t.ctx s.cur =
    { (s.ctx s.cur).goesOn ((s.ctx s.cur).pc + 12) with
      p := (t.ctx s.cur).p
      flags := (s.ctx s.cur).flags ||| fl
      pmask := (s.ctx s.cur).pmask ||| portMarks srcs
      mbxmask := (s.ctx s.cur).mbxmask ||| mailMarks srcs }
  preds : ∀ j, (t.ctx s.cur).pred j =
    if p = j ∧ j ≠ 0 then (if b then BitVec.allOnes 64 else 0) else (s.ctx s.cur).pred j
  consumed : Consumed s t srcs none 0
  core : CoreKept s t (coreOf s.cur)
  cores : ∀ j, j ≠ coreOf s.cur → t.core j = s.core j
  others : ∀ e, e ≠ s.cur → t.ctx e = s.ctx e
  dies : ∀ e, t.die e = { s.die e with clflags := (t.die e).clflags }
  flags : ClusterFlags s t fl

/-- What a state holds after an instruction that reads sources, writes general registers alone, and leaves its
context otherwise as `x`: `put` gives each register written its contents. -/
structure Retired (s t : State) (srcs : List Src) (x : Context) (put : BitVec 6 → Option Reg) : Prop where
  whole : Within s t
  net : t.net = s.net ∧ t.next = s.next
  bytes : SameBytes s t
  own : t.ctx s.cur =
    { x with
      g := (t.ctx s.cur).g
      pmask := (s.ctx s.cur).pmask ||| portMarks srcs
      mbxmask := (s.ctx s.cur).mbxmask ||| mailMarks srcs }
  regs : ∀ j, (t.ctx s.cur).reg j = if j = 0 then {} else (put j).getD ((s.ctx s.cur).reg j)
  consumed : Consumed s t srcs none 0
  core : CoreKept s t (coreOf s.cur)
  cores : ∀ j, j ≠ coreOf s.cur → t.core j = s.core j
  others : ∀ e, e ≠ s.cur → t.ctx e = s.ctx e
  dies : ∀ e, t.die e = s.die e

/-- The acting context's next instruction. -/
def State.after (s : State) : Context := (s.ctx s.cur).goesOn ((s.ctx s.cur).pc + 12)

/-- A write of one general register, or of none. -/
def putReg (d : BitVec 6) (r : Reg) : BitVec 6 → Option Reg := fun j => if j = d then some r else none
def putNone : BitVec 6 → Option Reg := fun _ => none

/-- No general register among some waits for a load or a vector instruction. -/
def Known (s : State) (l : List (BitVec 6)) : Prop := ∀ i ∈ l, (s.ctx s.cur).pendG i = false

end Sys2Proof.Machine
end

