-- ==== Sys2Proof/Safety/Scalar.lean ====
section
/-! DEFINITION. The scalar instructions as tables the statements quantify over: for each instruction its header,
its sources, its destination and its result, the integer results written with bit-vector operations of the type's
width (R163 to R176). -/

namespace Sys2Proof.Machine

/-- A scalar instruction: guard and hints, sources, destination, the predicates it reads beside its guard, and its
result with the flags it raises. -/
structure Scalar where
  h : Hdr
  srcs : List Src
  d : Dst
  preds : List (BitVec 4) := []
  val : Context → List Word → Word × FpFlags

/-- The instruction completes: with its operands there it retires with its result written (R44, R165), or, for a
remote mailbox, its result is on its way and it waits for the acknowledgement (R49). -/
def Scalar.Completes (i : Instr) (f : Scalar) : Prop :=
  ∀ s, Clear s f.h → On s f.h → (∀ p ∈ f.preds, (s.ctx s.cur).pendP p = false) → Ready s f.srcs (some f.d) →
    ((∀ m k, f.d ≠ .xm m k) → ∃ t, exec i s = .next t ∧
      ScalarDone s t f.srcs f.d (f.val (s.ctx s.cur) (srcWords s [] f.srcs)).1
        (f.val (s.ctx s.cur) (srcWords s [] f.srcs)).2) ∧
    (∀ m k target, f.d = .xm m k → MailReady s k target → ∃ t, exec i s = .next t ∧
      MailSent s t f.srcs target m.toNat (f.val (s.ctx s.cur) (srcWords s [] f.srcs)).1
        (f.val (s.ctx s.cur) (srcWords s [] f.srcs)).2)

/-- The low bits of a word at a type's width. -/
def lowBits (t : IntTy) (w : Word) : BitVec t.width := w.setWidth t.width
/-- A result of a type's width as the word R165 writes. -/
def widen (t : IntTy) (x : BitVec t.width) : Word := if t.signed then x.signExtend 64 else x.setWidth 64
/-- The second operand at the type's width (R164). -/
def second (t : IntTy) (b : Word) (imm : BitVec 35) : BitVec t.width := lowBits t (b + imm.signExtend 64)

def alu3 (o : Alu3) (f : (a y c : BitVec o.ty.width) → BitVec o.ty.width) : Scalar :=
  { h := o.h, srcs := [o.a, o.b, o.c], d := o.d
    val := fun _ ws => (widen o.ty (f (lowBits o.ty (arg ws 0)) (second o.ty (arg ws 1) o.imm) (lowBits o.ty (arg ws 2))), 0) }

def alu2 (o : Alu2) (f : (a y : BitVec o.ty.width) → BitVec o.ty.width) : Scalar :=
  { h := o.h, srcs := [o.a, o.b], d := o.d
    val := fun _ ws => (widen o.ty (f (lowBits o.ty (arg ws 0)) (second o.ty (arg ws 1) o.imm)), 0) }

def alu1 (o : Alu1) (f : BitVec o.ty.width → Nat) : Scalar :=
  { h := o.h, srcs := [o.a], d := o.d, val := fun _ ws => (BitVec.ofNat 64 (f (lowBits o.ty (arg ws 0))), 0) }

/-- The upper half of the double-width product (R169). -/
def upperHalf (signed : Bool) {w : Nat} (a y : BitVec w) : BitVec w :=
  if signed then (a.signExtend (2 * w) * y.signExtend (2 * w)).extractLsb' w w
  else (a.setWidth (2 * w) * y.setWidth (2 * w)).extractLsb' w w

/-- The order of a type's values. -/
def leAt (signed : Bool) {w : Nat} (a y : BitVec w) : Bool := if signed then a.sle y else a.ule y
def ltAt (signed : Bool) {w : Nat} (a y : BitVec w) : Bool := if signed then a.slt y else a.ult y

/-- Leading zeros, and ones, of a pattern (R173). -/
def zerosAbove {w : Nat} (a : BitVec w) : Nat := ((List.range w).takeWhile fun i => !a.getMsbD i).length
def onesIn {w : Nat} (a : BitVec w) : Nat := ((List.range w).filter a.getLsbD).length

/-- The count of a shift: Y modulo 2^64 (R171). -/
def countOf (t : IntTy) (y : BitVec t.width) : Nat := (widen t y).toNat

/-- ADD, SUB, MUL and the bitwise instructions (R169). -/
def arithForm : Instr → Option Scalar
  | .add o => some (alu3 o fun a y c => a + y + c)
  | .sub o => some (alu3 o fun a y c => a - y - c)
  | .mul o => some (alu3 o fun a y c => a * y + c)
  | .and o => some (alu2 o (· &&& ·))
  | .or o => some (alu2 o (· ||| ·))
  | .xor o => some (alu2 o (· ^^^ ·))
  | .andn o => some (alu2 o fun a y => a &&& ~~~ y)
  | _ => none

/-- MULH (R169), DIV and REM (R170). -/
def divideForm : Instr → Option Scalar
  | .mulh o => some (alu2 o (upperHalf o.ty.signed))
  | .div o => some (alu2 o fun a y => if y = 0 then BitVec.allOnes _ else if o.ty.signed then a.sdiv y else a / y)
  | .rem o => some (alu2 o fun a y => if y = 0 then a else if o.ty.signed then a.srem y else a % y)
  | _ => none

/-- The shifts and the rotate, R171's table. -/
def shiftForm : Instr → Option Scalar
  | .shl o => some (alu2 o fun a y => if countOf o.ty y < o.ty.width then a <<< countOf o.ty y else 0)
  | .shr o => some (alu2 o fun a y => if countOf o.ty y < o.ty.width then a >>> countOf o.ty y else 0)
  | .sar o => some (alu2 o fun a y => a.sshiftRight (min (countOf o.ty y) (o.ty.width - 1)))
  | .rot o => some (alu2 o fun a y => a.rotateLeft (countOf o.ty y % o.ty.width))
  | _ => none

/-- MIN and MAX (R172), CLZ and POPC (R173), SEL (R175), MOVI and MOVHI (R176). -/
def selectForm : Instr → Option Scalar
  | .clz o => some (alu1 o zerosAbove)
  | .popc o => some (alu1 o onesIn)
  | .min o => some (alu2 o fun a y => if leAt o.ty.signed a y then a else y)
  | .max o => some (alu2 o fun a y => if leAt o.ty.signed a y then y else a)
  | .sel o => some
      { h := o.h, srcs := [o.a, o.b], d := o.d, preds := [o.c]
        val := fun x ws =>
          (widen o.ty (if (x.pred o.c).getLsbD 0 then lowBits o.ty (arg ws 0) else second o.ty (arg ws 1) o.imm), 0) }
  | .movi o => some { h := o.h, srcs := [], d := o.d, val := fun _ _ => (o.imm.signExtend 64, 0) }
  | .movhi o => some
      { h := o.h, srcs := [o.a], d := o.d
        val := fun _ ws => (o.imm.setWidth 64 <<< 43 ||| ((arg ws 0).setWidth 43).setWidth 64, 0) }
  | _ => none

/-- The floating-point instructions with a scalar destination (R195 to R197). -/
def fpForm : Instr → Option Scalar
  | .fadd o => some (fp2 o fpAdd)
  | .fsub o => some (fp2 o fun f m x y => fpAdd f m x y.neg)
  | .fmul o => some (fp2 o fpMul)
  | .fdiv o => some (fp2 o fpDiv)
  | .ffma o => some
      { h := o.h, srcs := [o.a, o.b, o.c], d := o.d
        val := fun x ws => fpOut (fpFma (fmtOfFp o.ty) x.round (fpArg (fmtOfFp o.ty) (arg ws 0))
          (fpArg (fmtOfFp o.ty) (arg ws 1)) (fpArg (fmtOfFp o.ty) (arg ws 2))) }
  | .fsqrt o => some
      { h := o.h, srcs := [o.a], d := o.d
        val := fun x ws => fpOut (fpSqrt (fmtOfFp o.ty) x.round (fpArg (fmtOfFp o.ty) (arg ws 0))) }
  | .fcvt o => some
      { h := o.h, srcs := [o.a], d := o.d, val := fun x ws => cvtResult o.dst x.round (cvtSource o.src (arg ws 0)) }
  | _ => none
where
  fp2 (o : Fp2) (f : Fmt → RoundMode → FVal → FVal → Nat × FpFlags) : Scalar :=
    { h := o.h, srcs := [o.a, o.b], d := o.d
      val := fun x ws => fpOut (f (fmtOfFp o.ty) x.round (fpArg (fmtOfFp o.ty) (arg ws 0)) (fpArg (fmtOfFp o.ty) (arg ws 1))) }

/-- CGET (R184). -/
def capReads (o : CgetOps) : Scalar :=
  { h := o.h, srcs := [.g o.a], d := o.d, val := fun x _ => (capField o.field (x.reg o.a), 0) }

/-- An instruction with a predicate destination: header, sources, predicate, and what it decides with the flags it
raises. -/
structure Decides where
  h : Hdr
  srcs : List Src
  p : BitVec 4
  val : Context → List Word → Bool × FpFlags

/-- The instruction completes: the predicate is all ones or zero (R166). -/
def Decides.Completes (i : Instr) (f : Decides) : Prop :=
  ∀ s, Clear s f.h → On s f.h → (s.ctx s.cur).pendP f.p = false → Ready s f.srcs none →
    ∃ t, exec i s = .next t ∧
      PredDone s t f.srcs f.p (f.val (s.ctx s.cur) (srcWords s [] f.srcs)).1
        (f.val (s.ctx s.cur) (srcWords s [] f.srcs)).2

/-- R174's table at a type's width. -/
def condHolds (c : Cond) (signed : Bool) {w : Nat} (a y : BitVec w) : Bool :=
  match c with
  | .eq => a == y | .ne => a != y | .lt => ltAt signed a y | .le => leAt signed a y
  | .gt => ltAt signed y a | .ge => leAt signed y a

/-- CMP (R174), FCMP (R198), CTEST (R185). -/
def predForm : Instr → Option Decides
  | .cmp o => some
      { h := o.h, srcs := [o.a, o.b], p := o.p
        val := fun _ ws =>
          (condHolds o.cond o.ty.signed (lowBits o.ty (arg ws 0)) (second o.ty (arg ws 1) o.imm), 0) }
  | .fcmp o => some
      { h := o.h, srcs := [o.a, o.b], p := o.p
        val := fun _ ws => fpCompare o.cond (fpArg (fmtOfFp o.ty) (arg ws 0)) (fpArg (fmtOfFp o.ty) (arg ws 1)) }
  | .ctest o => some
      { h := o.h, srcs := .g o.a :: (o.sub.map Src.g).toList, p := o.p
        val := fun x _ => (capTest (x.reg o.a) (o.sub.map x.reg), 0) }
  | _ => none

/-- Y as the 64-bit word it is before Ext (R164, R177). -/
def secondWord (s : State) (b : Src) (imm : BitVec 35) : Word := srcWord s [] b + imm.signExtend 64

/-- A capability that passes checks 1 to 3 of R178. -/
def Sound (g : Reg) : Prop := g.tag = true ∧ g.cap.bad = false ∧ g.cap.styp = 0

/-- A sealing authority: sound, with the permission, its cursor inside its bounds (R183). -/
def Authority (g : Reg) (perm : BitVec 12) : Prop :=
  Sound g ∧ g.cap.perm &&& perm = perm ∧ g.cap.base ≤ g.cap.addr ∧ g.cap.addr < g.cap.top

/-- CADD's result at a new cursor (R181). -/
def moved (g : Reg) (c : Word) : Reg :=
  if g.tag ∧ g.cap.base ≤ c.toNat ∧ c.toNat < g.cap.base + 2 ^ (g.cap.e + 13) then
    { tag := true, bits := g.bits.extractLsb' 64 64 ++ c }
  else Reg.ofWord c

/-- The region of CSETB rounded at an exponent (R179). -/
def lowEnd (k : Cap) (e : Nat) : Nat := k.addr / 2 ^ e * 2 ^ e
def highEnd (k : Cap) (l e : Nat) : Nat := (k.addr + l + 2 ^ e - 1) / 2 ^ e * 2 ^ e

/-- CSETB's conditions for a length, at the least exponent that fits (R179). -/
structure Narrows (exact : Bool) (k : Cap) (l e : Nat) : Prop where
  inside : k.base ≤ k.addr ∧ k.addr + l ≤ k.top
  limit : e ≤ 51
  fits : highEnd k l e - lowEnd k e ≤ (2 ^ 13 - 1) * 2 ^ e
  least : ∀ d, d < e → (2 ^ 13 - 1) * 2 ^ d < highEnd k l d - lowEnd k d
  precise : exact = true → lowEnd k e = k.addr ∧ highEnd k l e = k.addr + l
  within : k.base ≤ lowEnd k e ∧ highEnd k l e ≤ k.top

/-- CSETB's result: A with the rounded bounds, as R154 decodes them. -/
structure Narrowed (g r : Reg) (l e : Nat) : Prop where
  tag : r.tag = true
  good : r.cap.bad = false
  cursor : r.bits.setWidth 64 = g.bits.setWidth 64
  upper : r.bits.extractLsb' 96 32 = g.bits.extractLsb' 96 32
  exponent : r.cap.e = e
  bounds : r.cap.base = lowEnd g.cap e ∧ r.cap.top = highEnd g.cap l e

end Sys2Proof.Machine
end

