-- ==== Sys2Proof/Safety/Memory.lean ====
section
/-! DEFINITION. The terms for loads, stores, fences and messages: what an access asks for, and what joins the order
buffer at Issue (R100, R200 to R215). -/

namespace Sys2Proof.Machine

/-- The acting context with entries joined to the tail of its order buffer, oldest first: each behind the marks of the
store-queue entries that its lock check read (R108), and a store, where `wait` names a register, without its value. -/
def State.buffered (s : State) (ops : List LobOp) (wait : Option (BitVec 6) := none) : Context :=
  let all := ops.flatMap (LobOp.withMarks (clusterOf s.cur))
  { s.ctx s.cur with
    lob := (s.ctx s.cur).lob ++ all.mapIdx fun n op =>
      { id := (s.ctx s.cur).nextId + n, op := op, ident := (s.ctx s.cur).ident, wait := if op.isStore then wait else none }
    nextId := (s.ctx s.cur).nextId + all.length }

/-- A context but for what its waiting in an instruction changes. -/
def Context.waiting (x : Context) : Context := { x with run := .running, sent := false, reply := none, served := none, mheld := false }

/-- The acting context's next instruction, with entries joined to its order buffer. -/
def State.joined (s : State) (ops : List LobOp) (wait : Option (BitVec 6) := none) : Context :=
  (s.buffered ops wait).goesOn ((s.ctx s.cur).pc + 12)

/-- The source of a store is there, or is a general register, known or not (R100). -/
def StoreReady (s : State) (b : Src) : Prop := (∃ i, b = .g i) ∨ Ready s [b] none

/-- The register whose value a store that issues now still waits for (R100). -/
def awaitedReg (s : State) (b : Src) : Option (BitVec 6) :=
  match b with | .g i => if (s.ctx s.cur).pendG i then some i else none | _ => none

/-- What R201 asks of an access of each kind. -/
def askLd (ty : IntTy) : Ask :=
  { n := ty.bytes, align := ty.bytes, perm := permLd, kind := 0, lock := true, plain := true, brk := some false }
def askStore (ty : IntTy) : Ask :=
  { n := ty.bytes, align := ty.bytes, perm := permSt, kind := 1, lock := true, plain := true, brk := some true }
def askPost (ty : IntTy) : Ask :=
  { n := ty.bytes, align := ty.bytes, perm := permSt ||| permRemote, kind := 1, lock := true, brk := some true }
def askLdc : Ask := { n := 16, align := 16, perm := permLd, kind := 0, lock := true, brk := some false }
def askStc (tagged : Bool) : Ask :=
  { n := 16, align := 16, perm := if tagged then permSt ||| permStc else permSt, kind := 1, lock := true, brk := some true }
def askLdtg : Ask := { n := 32, align := 32, perm := permLd, kind := 0, lock := false, brk := some false }
def askSttg : Ask := { n := 32, align := 32, perm := permSt ||| permSys, kind := 1, lock := false, brk := some true }

/-- The checks of R200 pass for an access of the acting context, which is `a`. -/
def Grants (s : State) (r : BitVec 6) (off : BitVec 43) (q : Ask) (a : Acc) : Prop :=
  access s s.cur r (off.signExtend 64) q = .ok a

/-- R205's additional check: a tagged register that leaves the scratchpads carries the global permission. -/
def StaysInside (b : Reg) (a : Acc) : Prop := b.tag = true → isScratch a.pa = false → b.cap.perm.getLsbD 11 = true

/-- The later turn of an instruction whose own load has given its word `w`, through a volatile page or not (R165). -/
structure Given (s : State) (d : Dst) (vol : Bool) (w : Word) : Prop where
  waits : ∃ n, (s.ctx s.cur).run = .blocked (.load vol d) n
  word : (s.ctx s.cur).reply = some (.ok w)

/-- Whether a destination is a queue or a port of the core, which a load's own instruction writes (R165). -/
def Direct (d : Dst) : Prop := (∃ i, d = .q i) ∨ ∃ i, d = .n i

/-- The presence bits of the acting context's core (R48, R209). -/
def presentIn (s : State) : Nat :=
  (List.range 32).foldl (fun m i => if ((s.core (coreOf s.cur)).mail i).isSome then m + 2 ^ i else m) 0

/-- A core's journal with an entry written or freed (R210, R213). -/
def State.withJournal (s : State) (f : Sparse JEntry → Sparse JEntry) : State :=
  s.modCore (coreOf s.cur) fun k => { k with journal := f k.journal }

/-- The lowest free entry of the journal of the acting context's core (R210). -/
def FreeSlot (s : State) (j : Nat) : Prop :=
  j < 32 ∧ (Sparse.get {} (s.core (coreOf s.cur)).journal j : JEntry).state = 0 ∧
    ∀ i, i < j → (Sparse.get {} (s.core (coreOf s.cur)).journal i : JEntry).state ≠ 0

/-- The journal entry JRD shows a context: its own, or any above task level (R213). -/
def seenEntry (s : State) (j : Nat) : JEntry :=
  let e : JEntry := Sparse.get {} (s.core (coreOf s.cur)).journal j
  if (s.ctx s.cur).level = .task ∧ e.c ≠ s.cur then {} else e

/-- The status word of R213. -/
def statusWord (e : JEntry) : Word :=
  if e.state = 0 then 0
  else BitVec.ofNat 64 (e.state * 2 ^ 14 + ctxNo e.c * 2 ^ 12 + e.acc.n.log2 * 2 ^ 8 + if e.state = 2 then e.reason.toNat else 0)

/-- What JRD reads (R213). -/
def entryField (sel : JrdSel) (e : JEntry) : Word :=
  match sel with
  | .addr => if e.state = 0 then 0 else e.acc.ea
  | .data => if e.state = 0 then 0 else e.value
  | .stat => statusWord e

end Sys2Proof.Machine
end

