-- ==== Sys2Proof/Safety/System.lean ====
section
/-! DEFINITION. The terms for the machine as a whole and for the control and system instructions: what an
instruction that an engine answers leaves, which opcodes are of kernel level, and what the levels, the latch and the
translations become. -/

namespace Sys2Proof

/-- The opcodes the map marks kernel (R59), and the vector range (R51). -/
def Fields.kernel (f : Fields) : Bool :=
  [0x080, 0x084, 0x087, 0x088, 0x089, 0x180, 0x382].contains f.opc.toNat || decide (0x3A0 ≤ f.opc.toNat ∧ f.opc.toNat ≤ 0x3A6)
def Fields.vector (f : Fields) : Bool := decide (0x200 ≤ f.opc.toNat ∧ f.opc.toNat ≤ 0x2FF)

end Sys2Proof

namespace Sys2Proof.Machine

/-- The state after the sources of an instruction were taken (R45 to R48). -/
def State.taken (s : State) (srcs : List Src) (d : Option Dst) : State :=
  match sources s s.cur srcs d with
  | .ok r => r.2
  | .error _ => s

/-- The marks and the pieces of the core that reading some sources changes: what `taken` leaves (R46, R48, R239). -/
structure Took (s t : State) (srcs : List Src) : Prop where
  whole : t = { s with ctxs := t.ctxs, cores := t.cores }
  own : t.ctx s.cur = { s.ctx s.cur with
    pmask := (s.ctx s.cur).pmask ||| portMarks srcs, mbxmask := (s.ctx s.cur).mbxmask ||| mailMarks srcs }
  consumed : Consumed s t srcs none 0
  core : t.core (coreOf s.cur) = { s.core (coreOf s.cur) with
    queues := (t.core (coreOf s.cur)).queues, ports := (t.core (coreOf s.cur)).ports
    mbox := (t.core (coreOf s.cur)).mbox }
  cores : ∀ j, j ≠ coreOf s.cur → t.core j = s.core j
  others : ∀ e, e ≠ s.cur → t.ctx e = s.ctx e

/-- The words an instruction that may wait has: those it took at an earlier turn, else those its sources give now
(R45). -/
def State.words (s : State) (srcs : List Src) : List Word :=
  match (s.ctx s.cur).held with
  | some l => mergeWords (s.ctx s.cur) srcs (l.map (·.2.w)) []
  | none => srcWords s [] srcs

/-- Such an instruction has its words, or takes them now, and its destination has room. -/
structure Has (s : State) (srcs : List Src) (d : Option Dst) : Prop where
  lone : Lone s
  there : (s.ctx s.cur).held.isSome = true ∨ Ready s srcs d
  room : (s.ctx s.cur).held.isSome = true → operandsReady s s.cur [] d = true
  /-- Message timing is off on the die, or no mailbox's word is among those it has (R472). -/
  untimed : (∀ l, (s.ctx s.cur).held = some l → ∀ m, Src.m m ∉ l.map (·.1)) ∨
    (s.die (coreDie (coreOf s.cur))).msgt.getLsbD 63 = false

/-- The sources it takes now; and those whose words it has once it has taken them. -/
def State.taking (s : State) (srcs : List Src) : List Src := if (s.ctx s.cur).held.isSome then [] else srcs
def State.sourced (s : State) (srcs : List Src) : List Src :=
  match (s.ctx s.cur).held with | some l => l.map (·.1) | none => srcs

/-- The instruction waits on with its words: those of queues, ports and mailboxes have left their registers, no mark is
made of them yet, and, put back, they stand where they stood (R45, R47). -/
structure Kept (s u : State) (srcs : List Src) : Prop where
  whole : u = { s with ctxs := u.ctxs, cores := u.cores }
  own : u.ctx s.cur = { s.ctx s.cur with held := (u.ctx s.cur).held }
  held : (u.ctx s.cur).held.isSome = ((s.ctx s.cur).held.isSome || blocking srcs none)
  words : u.words srcs = s.words srcs
  consumed : Consumed s u (s.taking srcs) none 0
  core : u.core (coreOf s.cur) = { s.core (coreOf s.cur) with
    queues := (u.core (coreOf s.cur)).queues, ports := (u.core (coreOf s.cur)).ports
    mbox := (u.core (coreOf s.cur)).mbox }
  cores : ∀ j, j ≠ coreOf s.cur → u.core j = s.core j
  others : ∀ e, e ≠ s.cur → u.ctx e = s.ctx e
  back : ∀ i, ((giveBack u s.cur).core (coreOf s.cur)).queue i = ((giveBack s s.cur).core (coreOf s.cur)).queue i ∧
    ((giveBack u s.cur).core (coreOf s.cur)).port i = ((giveBack s s.cur).core (coreOf s.cur)).port i ∧
    ((giveBack u s.cur).core (coreOf s.cur)).mail i = ((giveBack s s.cur).core (coreOf s.cur)).mail i

/-- The state in which an instruction that may wait has used its words (R45 to R48). -/
def State.used (s : State) (srcs : List Src) (d : Option Dst) : State :=
  match (do
    let (_, t) ← holdWords s s.cur srcs d
    useWords t s.cur srcs : Res State) with
  | .ok t => t
  | .error _ => s

/-- What `used` leaves: the words consumed, their use marked (R48, R239, R407). -/
structure Used (s u : State) (srcs : List Src) : Prop where
  whole : u = { s with ctxs := u.ctxs, cores := u.cores }
  own : u.ctx s.cur = { s.ctx s.cur with
    held := none
    pmask := (s.ctx s.cur).pmask ||| portMarks (s.sourced srcs)
    mbxmask := (s.ctx s.cur).mbxmask ||| mailMarks (s.sourced srcs) }
  consumed : Consumed s u (s.taking srcs) none 0
  core : u.core (coreOf s.cur) = { s.core (coreOf s.cur) with
    queues := (u.core (coreOf s.cur)).queues, ports := (u.core (coreOf s.cur)).ports
    mbox := (u.core (coreOf s.cur)).mbox }
  cores : ∀ j, j ≠ coreOf s.cur → u.core j = s.core j
  others : ∀ e, e ≠ s.cur → u.ctx e = s.ctx e

/-- Nothing keeps an instruction that an engine answers from going: its operands are there, its destination is no
remote mailbox, everything older is complete at partition scope (R112, R113, R118), and it runs on no pair and under
no replay. -/
structure Sends (s : State) (srcs : List Src) (d : Dst) : Prop where
  has : Has s srcs (some d)
  plain : d.local = true
  older : released s s.cur .part = true

/-- The instruction completes with an engine's answer `w`, the engine having made the state `u`: the destination
takes the word if it has room, and everything else is as `u`. -/
def Answered (i : Instr) (s u : State) (d : Dst) (w : Word) : Prop :=
  operandsReady u s.cur [] (some d) = true → ∃ t, exec i s = .next t ∧ ScalarDone u t [] d w 0

/-- The instruction takes a precise trap: the state answered is that of taking it, nothing else done (R227). -/
def Traps (i : Instr) (s : State) (cause : BitVec 8) (val : Word) (aux : Word := 0) : Prop :=
  exec i s = .next (takeTrap s s.cur { cause := cause, val := val, aux := aux })

/-- Every older instruction of the acting context has completed, as a precise trap asks (R227). -/
def Settled (s : State) : Prop := settled s s.cur = true

/-- A fence at a scope finds nothing older outstanding (R109). -/
def Fenced (s : State) (sc : Scope) : Prop := outstanding s s.cur (s.ctx s.cur).nextId sc = false

/-- A context stopped in an instruction, blocked since the time of the state (R45). -/
def Context.waits (x : Context) (w : Wait) (now : Nat) : Context :=
  { x with
    served := none
    mheld := false
    run := match x.run with
      | .blocked v t => if v = w then .blocked v t else .blocked w now
      | _ => .blocked w now }

/-- The trap registers a trap leaves at a context whose pc is the trapping instruction's (R231). -/
def Context.trapRegs (x : Context) (t : Trap) : TrapRegs := { cause := t.cause, val := t.val, pc := x.pc, aux := t.aux }

/-- A context that goes on at a level's entry (R231): no register of the program changes. -/
def Context.entered (x : Context) (l : Level) (entry : Word) : Context :=
  { x with level := l, pc := entry, run := .running, walk := none, sent := false, reply := none, oflags := 0, mheld := false }

/-- Nothing of the package changes but contexts, cores and the dies' contexts' traces: what taking a trap leaves. -/
def TrapFrame (s t : State) (c : Nat) : Prop :=
  t = { s with ctxs := t.ctxs, cores := t.cores, parts := t.parts, ctl := t.ctl } ∧
  (∀ e, e ≠ c → t.ctx e = s.ctx e) ∧ (∀ k, t.core k = { s.core k with evc := (t.core k).evc }) ∧
  ∀ p, t.part p = { s.part p with trace := (t.part p).trace }

/-- The level ERET names (R220). -/
def lowered (kern : Bool) : Level := if kern then .kernel else .task

/-- The conditions for YIELD's switch-out (R190, R232, R237): task level, a task, a free area. -/
def Yields (s : State) : Prop :=
  (s.ctx s.cur).level = .task ∧ (s.ctx s.cur).task.isSome ∧
    (freeArea s (dieOf s.cur) (s.ctx s.cur).ident.vf.toNat).isSome

/-- Each of tl0 to tl6 equals the count of commands issued on it (R191, R236). -/
def EnginesDone (s : State) : Prop := ∀ tl, tl < 7 →
  (s.tline (tlOwner s s.cur) tl).done = (s.tline (tlOwner s s.cur) tl).count

/-- The flags tl6's completions hold are taken by the context that has seen them (R324). -/
def State.heldTaken (s : State) : State := takeHeld s s.cur (s.tline (tlOwner s s.cur) 6).done

/-- A task reports or ends: its commands are over, it has the word of A, and everything older is complete at partition
scope (R191, R264). -/
structure Reporting (s : State) (a : Src) : Prop where
  lone : Lone s
  done : EnginesDone s
  word : (s.ctx s.cur).held.isSome = true ∨ ∃ i, a = .g i ∧ (s.ctx s.cur).pendG i = false
  older : released s s.cur .part = true
  untimed : (∀ l, (s.ctx s.cur).held = some l → ∀ m, Src.m m ∉ l.map (·.1)) ∨
    (s.die (coreDie (coreOf s.cur))).msgt.getLsbD 63 = false

/-- A task is at the point where its END or SYSC ends it: its vector and matrix instructions are over too (R135,
R191). -/
structure Ending (s : State) (a : Src) : Prop extends Reporting s a where
  settled : Settled s

/-- BANKCFG's cluster and its new modes (R218). -/
def bankCluster (s : State) (k : Nat) : Nat := dieOf s.cur * 64 + k
def newModes (s : State) (cl m : Nat) (mode : BankMode) (b : Nat) : BankMode := if m.testBit b then mode else bankMode s cl b

/-- The number of the first message sent after a BANKCFG's wait for these banks began, or now begins (R273). -/
def bankFirst (s : State) (cl m : Nat) (mode : BankMode) : Nat :=
  match (s.ctx s.cur).run with
  | .blocked (.banks q n md f) _ => if q = cl ∧ n = m ∧ md = mode then f else s.next
  | _ => s.next

/-- The deadline a WFE waits for (R222). -/
def wfeDeadline (s : State) (w : Word) : Option Nat :=
  match (s.ctx s.cur).run with
  | .blocked (.wfe d) _ => d
  | _ => if w = 0 then none else some (s.time.toNat + w.toNat)

/-- A deadline that has come. -/
def deadlinePast (s : State) (d : Option Nat) : Prop := ∃ t, d = some t ∧ t ≤ s.time.toNat

/-- The argument registers of AMSG, SYSC and TREC (R214, R219). -/
def argList (arg : BitVec 8) (n : BitVec 3) : List (BitVec 6) := (List.range n.toNat).map fun j => BitVec.ofNat 6 (arg.toNat + j)

/-- The trap registers and the flags CSRW and CSRR reach wait for nothing: FLAGS waits for the context's vector and
matrix instructions (R135). -/
def CsrKnown (s : State) (n : Nat) : Prop :=
  n = 0 → (s.ctx s.cur).vq = [] ∧ ∀ e ∈ (s.core (coreOf s.cur)).matrix.queue, e.c ≠ s.cur

end Sys2Proof.Machine
end

