-- ==== Sys2Proof/Safety/Engines.lean ====
section
/-! DEFINITION. The terms for the scheduler, the synchronisation engine and the queued engine commands: what an engine
operand must grant, what an atomic asks of its access, and what a command leaves in the order buffer. -/

namespace Sys2Proof.Machine

/-- An engine's capability operand passes its checks, and its bytes lie at `pa` (R262, R155, R277). -/
def EngineGrants (s : State) (r : BitVec 6) (perm : BitVec 12) (n align kind : Nat) (pa : Nat) : Prop :=
  engineCap s s.cur r perm n align = .ok ((s.ctx s.cur).reg r) ∧ engineAt s s.cur ((s.ctx s.cur).low r) n kind = .ok pa

/-- A command sent to an engine counts as event 0x05 (R152). -/
def State.counted (s : State) : State := countSent s s.cur

/-- The state after an instruction's sources were used and its command counted. -/
def State.asked (s : State) (srcs : List Src) (d : Option Dst) : State := (s.used srcs d).counted

/-- What AMO and AMOR ask of their access (R201, R293). -/
def askAtomic (n : Nat) (perm : BitVec 12) : Ask :=
  { n := n, align := n, perm := perm, kind := 1, lock := true, atomic := true, brk := some true }

/-- An atomic's checks pass for the address A + OFS, which lies at `a`. -/
def AtomGrants (s : State) (r : BitVec 6) (ofs : Word) (n : Nat) (perm : BitVec 12) (a : Acc) : Prop :=
  access s s.cur r ofs (askAtomic n perm) (fun pa => atomTarget s s.cur ((s.ctx s.cur).low r + ofs) pa) = .ok a

/-- What an atomic of access `a` leaves in the order buffer: the marks of its lock check, and its request, which carries
its acquire and the scope of its release (R108, R299). -/
def atomicOps (s : State) (a : Acc) (ord : BitVec 2) (sc : Scope) (r : AtomReq) : List LobOp :=
  let marks := checkMarks (clusterOf s.cur) [a]
  marks ++ [.atomic { r with
    lid := (s.ctx s.cur).nextId + marks.length, acq := ord.getLsbD 0, rel := if ord.getLsbD 1 then some sc else none }]

/-- The element FGET gives and FPUT takes: the firing the task runs, and a FIFO of it (R257, R264). -/
structure Fires (s : State) (put : Bool) (n : Nat) (k : Nat) (a : Actor) (f : FifoDesc) : Prop where
  task : ((s.ctx s.cur).task.bind (·.actor)) = some k
  live : s.actor k = some a
  fifo : (if put then a.outs else a.ins).getD n none = some f
  room : (if put then (a.wrote.getD n []).length else a.read.getD n 0) < f.rate

/-- A firing's read counts, and its written elements, with one more (R257, R264). -/
def oneRead (a : Actor) (n : Nat) : Actor := { a with read := ((a.read ++ [0, 0, 0, 0]).take 4).set n (a.read.getD n 0 + 1) }
def oneWritten (a : Actor) (n : Nat) (w : Word) : Actor :=
  { a with wrote := ((a.wrote ++ [[], [], [], []]).take 4).mapIdx fun j l => if j = n then l ++ [w] else l }

/-- A state a command leaves behind: a queued command at the tail of the order buffer, for timeline `tl` (R113). -/
def Queued (i : Instr) (s : State) (srcs : List Src) (op : EngOp) (tl : Nat) : Prop :=
  ∃ t, exec i s = .next t ∧ Retired s t srcs (s.joined [.cmd op tl]) putNone

/-- A TCREG of `s` has left `t`: the engine has performed number n of tl6 in the state `u` with the answer `w` (R321,
R326). -/
def Registered (s t u : State) (d : Dst) (w : Word) (n : Nat) : Prop :=
  ScalarDone (completeNum u (tlOwner s s.cur) 6 n) t [] d w 0

/-- The state in which a TCREG performs, its number of tl6 taken; and that number. -/
def State.tcregAt (s : State) (d : Dst) : State := (takeNum (s.taken [] (some d)).counted (tlOwner s s.cur) 6).2
def State.tcregNum (s : State) : Nat := (s.tline (tlOwner s s.cur) 6).issued + 1

/-- A TCREG's turn has come: everything issued on tl6 has completed, and all older work of the context (R321). -/
def TcregTurn (s : State) (d : Dst) : Prop :=
  Sends s [] d ∧ Ready s [] (some d) ∧ (s.tline (tlOwner s s.cur) 6).done = (s.tline (tlOwner s s.cur) 6).issued ∧ Settled s

/-- A region a command may name: registered, of the context's virtual function, attached (R321, R322). -/
structure Names (s : State) (id : BitVec 16) (r : Region) : Prop where
  given : id ≠ 0
  found : regionOf s (partNo (s.ctx s.cur).ident) id = some r
  own : r.vf = (s.ctx s.cur).ident.vf
  live : r.detached = false

/-- Coordinates inside a region's tiles, one beyond its dimensions (R321). -/
def InTiles (r : Region) (b : Word) : Prop :=
  ∀ e ∈ (r.counts ++ List.replicate (4 - r.ndim) 1).zip (coordOf b), e.2 < e.1

/-- TRAPAUX of cause 0x34 (R322). -/
def regionAux (id : BitVec 16) (reason : Nat) : Word := packWord [(16, id.toNat), (0, reason)]

/-- Step 2 and 3 of R321 hold for an instruction with identifier `id` and coordinate word `b`, in their order; `form`
says what the entry adds. -/
def RegionChecks (i : Instr) (s : State) (id : BitVec 16) (b : Word) (form : Region → Option Nat) (coords : Bool) : Prop :=
  Settled s →
    (id = 0 → Traps i s 0x34 b (regionAux id 5)) ∧
    (id ≠ 0 → regionOf s (partNo (s.ctx s.cur).ident) id = none → Traps i s 0x34 b (regionAux id 1)) ∧
    ∀ r, id ≠ 0 → regionOf s (partNo (s.ctx s.cur).ident) id = some r →
      (r.vf ≠ (s.ctx s.cur).ident.vf → Traps i s 0x34 b (regionAux id 2)) ∧
      (r.vf = (s.ctx s.cur).ident.vf → r.detached = true → Traps i s 0x34 b (regionAux id 4)) ∧
      (∀ n, Names s id r → form r = some n → Traps i s 0x34 b (regionAux id n)) ∧
      (coords = true → Names s id r → form r = none → ¬ InTiles r b → Traps i s 0x34 b (regionAux id 3))

/-- The halo's form conditions, and its buffer (R329). -/
def haloForm (h : Nat) (r : Region) : Option Nat :=
  if (codeBlock r.cfmt).isSome ∨ 2 < r.ndim then some 6
  else if r.tile.getD 0 1 < h ∨ (r.ndim = 2 ∧ r.tile.getD 1 1 < h) then some 8
  else none
def haloBytes (r : Region) (h : Nat) : Nat := (haloShape r h).1 * (haloShape r h).2 * (codeBits r.cfmt / 8)

/-- A stack engine's capability operand passes its checks and alignment (R331 to R334). -/
def StackGrants (s : State) (r : BitVec 6) (perm : BitVec 12) (n : Option Nat) (m : Nat) : Prop :=
  stackCap s s.cur r perm n = .ok () ∧ ((s.ctx s.cur).low r).toNat % m = 0

/-- The operands of a copy: its registers are there, its shape is R339's, its two hulls pass R155 and are translated
(R342). -/
structure CopyGrants (s : State) (dims : Dims) (d a b : BitVec 6) (perm : BitVec 12) (h : CopyShape) (xd xa : Xlat) : Prop where
  there : Known s [d, a]
  shape : shapeOf s s.cur dims b = .ok (.ok h)
  dst : hullCheck s s.cur d perm (h.dstHull ((s.ctx s.cur).low d)) = .ok ()
  src : hullCheck s s.cur a permEsrc (h.srcHull ((s.ctx s.cur).low a)) = .ok ()
  xdst : xlatPlaced s s.cur ((s.ctx s.cur).low d) (h.dstHull ((s.ctx s.cur).low d)).2 4 = .ok xd
  xsrc : xlatPlaced s s.cur (h.srcHull ((s.ctx s.cur).low a)).1 (h.srcHull ((s.ctx s.cur).low a)).2 3 = .ok xa

/-- The copy a COPY or COPYR queues (R340, R344). -/
def copyOp (s : State) (d a : BitVec 6) (h : CopyShape) (xl : Xlat) (ch : BitVec 2) (rem : Option CopyRemote) : EngOp :=
  .copy h ((s.ctx s.cur).low d) ((s.ctx s.cur).low a) ((s.ctx s.cur).reg d).cap.key ((s.ctx s.cur).reg a).cap.key xl ch.toNat rem

/-- The number TLWAIT waits for (R347). -/
def waitNumber (s : State) (tl : Nat) (w : Word) : Nat := if w = 0 then (s.tline (tlOwner s s.cur) tl).issued else w.toNat

end Sys2Proof.Machine
end

