-- ==== Sys2Proof/Safety/Vector.lean ====
section
/-! DEFINITION. The terms for the vector instructions: a table of the element-wise ones, each element's result written
from the rules, and what an issued vector instruction leaves in the context's queue (R351 to R375). -/

namespace Sys2Proof.Machine

/-- An element-wise instruction: its vector sources, its destination, the width of its elements, and the result of
element `k` with its flags, from the context, the guard and the destination's old value. -/
structure VecForm where
  h : Hdr
  srcs : List (BitVec 5)
  d : BitVec 5
  w : Nat
  val : Context → Word → Nat → Nat × FpFlags

/-- The guard's lanes of an instruction in a state (R52). -/
def State.guardLanes (s : State) (h : Hdr) : Word := guardOf (s.ctx s.cur) h.guard

/-- Vector registers no queued vector instruction or load is to write, and room in the queue (R353). -/
def VecReady (s : State) (l : List (BitVec 5)) : Prop :=
  (∀ v ∈ l, (s.ctx s.cur).pendV v = false) ∧ (s.ctx s.cur).vq.length < 2

/-- A vector destination as issued: the enabled elements hold `f`, the others keep what they held (R52, R352), and the
flags are those of the enabled ones (R135). -/
def Lanes (w : Nat) (g : Word) (old new : BitVec 2048) (fl : FpFlags) (f : Nat → Nat × FpFlags) : Prop :=
  (∀ k, k < 2048 / w → velem new w k = if laneOn g w k then (f k).1 % 2 ^ w else velem old w k) ∧
    ∀ b, fl.getLsbD b = (enabled g w).any fun k => (f k).2.getLsbD b

/-- The instruction has joined the context's vector queue as `p`, behind the loads its order buffer holds, and will write
what `p` holds; nothing else of the context but the pc has changed, and the sources are consumed (R353). -/
def Issued (i : Instr) (s : State) (srcs : List Src) (p : VecPending) : Prop :=
  ∃ t, exec i s = .next t ∧
    Retired s t srcs { s.after with vq := (s.ctx s.cur).vq ++ [{ p with lid := (s.ctx s.cur).nextId }] } putNone

/-- The instruction issues with one vector destination. -/
def IssuesVector (i : Instr) (s : State) (h : Hdr) (srcs : List Src) (d : BitVec 5) (w : Nat) (f : Nat → Nat × FpFlags) : Prop :=
  ∃ v fl, Issued i s srcs { vec := [(d, v)], flags := fl } ∧ Lanes w (s.guardLanes h) ((s.ctx s.cur).vreg d) v fl f

/-- The element-wise instruction issues for every guard with a lane. -/
def VecForm.Completes (i : Instr) (f : VecForm) : Prop :=
  ∀ s, Clear s f.h → s.guardLanes f.h ≠ 0 → VecReady s (f.d :: f.srcs) →
    IssuesVector i s f.h [] f.d f.w (f.val (s.ctx s.cur) (s.guardLanes f.h))

/-- An element of a vector register. -/
def Context.elem (x : Context) (v : BitVec 5) (w k : Nat) : Nat := velem (x.vreg v) w k

/-- An exact integer result at a type's width: wrapped, or clamped with overflow where it was (R128, R355). -/
def atWidth (t : VTy) (sat : Bool) (r : Int) : Nat × FpFlags :=
  let lo : Int := if t.isSigned then -(2 ^ (t.width - 1)) else 0
  let hi : Int := if t.isSigned then 2 ^ (t.width - 1) - 1 else 2 ^ t.width - 1
  let q := if !sat then r else if r < lo then lo else if hi < r then hi else r
  ((q % 2 ^ t.width).toNat, if sat = true ∧ (r < lo ∨ hi < r) then flagOF else 0)

/-- A two-source arithmetic instruction on a type (R357, R358). -/
def two (o : V2) (i : Int → Int → Int) (f : Fmt → RoundMode → Nat → Nat → Nat × FpFlags) : VecForm :=
  { h := o.h, srcs := [o.a, o.b], d := o.d, w := o.ty.width
    val := fun x _ k => match vtyFmt o.ty with
      | some m => f m x.round (x.elem o.a o.ty.width k) (x.elem o.b o.ty.width k)
      | none => atWidth o.ty o.sat (i (vext o.ty (x.elem o.a o.ty.width k)) (vext o.ty (x.elem o.b o.ty.width k))) }

/-- A one-source instruction on a floating-point type (R360, R362). -/
def oneFloat (o : V1) (f : Fmt → RoundMode → Nat → Nat × FpFlags) : VecForm :=
  { h := o.h, srcs := [o.a], d := o.d, w := o.ty.width
    val := fun x _ k => match vtyFmt o.ty with
      | some m => f m x.round (x.elem o.a o.ty.width k)
      | none => (0, 0) }

/-- A bitwise instruction over whole lanes (R361). -/
def lanewise (o : VLogic) (f : BitVec 32 → BitVec 32 → BitVec 32) : VecForm :=
  { h := o.h, srcs := [o.a, o.b], d := o.d, w := 32
    val := fun x _ k => ((f (BitVec.ofNat 32 (x.elem o.a 32 k)) (BitVec.ofNat 32 (x.elem o.b 32 k))).toNat, 0) }

/-- The elements a scan has taken up to element `k` (R369). -/
def upTo (g : Word) (w k : Nat) : List Nat := (enabled g w).filter fun j => decide (j ≤ k)

/-- The last of a running list of FP32 values, with its flags. -/
def lastRun (l : List (Nat × FpFlags)) : Nat × FpFlags := l.getLast?.getD (0, 0)

/-- VSCAN's element `k` (R369). -/
def scanned (o : V1) (x : Context) (g : Word) (k : Nat) : Nat × FpFlags :=
  let es := (upTo g o.ty.width k).map (x.elem o.a o.ty.width)
  match vtyFmt o.ty with
  | none => atWidth o.ty o.sat ((es.map (vext o.ty)).foldl (· + ·) 0)
  | some m =>
    let r := lastRun (runF m (addF32 x.round) es none)
    if o.ty = .f32 then r
    else ((m.convert (arithMode x.round) false (fF32.decode r.1)).1, r.2 ||| (m.convert (arithMode x.round) false (fF32.decode r.1)).2)

/-- The element-wise instructions and their results (R357 to R362, R369, R370). -/
def vecForm : Instr → Option VecForm
  | .vadd o => some (two o (· + ·) fun m r a b => fpAdd m r (m.decode a) (m.decode b))
  | .vsub o => some (two o (· - ·) fun m r a b => fpAdd m r (m.decode a) (m.decode b).neg)
  | .vmul o => some (two o (· * ·) fun m r a b => fpMul m r (m.decode a) (m.decode b))
  | .vmin o => some (two { o with sat := false } min fun m _ a b => fpMinMax m false a b)
  | .vmax o => some (two { o with sat := false } max fun m _ a b => fpMinMax m true a b)
  | .vfma o => some
    { h := o.h, srcs := [o.a, o.b, o.c], d := o.d, w := o.ty.width
      val := fun x _ k => match vtyFmt o.ty with
        | some m => fpFma m x.round (m.decode (x.elem o.a o.ty.width k)) (m.decode (x.elem o.b o.ty.width k))
            (m.decode (x.elem o.c o.ty.width k))
        | none => atWidth o.ty o.sat (vext o.ty (x.elem o.a o.ty.width k) * vext o.ty (x.elem o.b o.ty.width k)
            + vext o.ty (x.elem o.c o.ty.width k)) }
  | .vabs o => some
    { h := o.h, srcs := [o.a], d := o.d, w := o.ty.width
      val := fun x _ k => match vtyFmt o.ty with
        | some m => (x.elem o.a o.ty.width k % 2 ^ (m.width - 1), 0)
        | none => atWidth o.ty o.sat (if vext o.ty (x.elem o.a o.ty.width k) < 0 then -(vext o.ty (x.elem o.a o.ty.width k))
            else vext o.ty (x.elem o.a o.ty.width k)) }
  | .vneg o => some
    { h := o.h, srcs := [o.a], d := o.d, w := o.ty.width
      val := fun x _ k => match vtyFmt o.ty with
        | some m => (x.elem o.a o.ty.width k ^^^ 2 ^ (m.width - 1), 0)
        | none => atWidth o.ty o.sat (-(vext o.ty (x.elem o.a o.ty.width k))) }
  | .vclass o => some (oneFloat o fun m _ a => (2 ^ classOf m a, 0))
  | .vand o => some (lanewise o (· &&& ·))
  | .vor o => some (lanewise o (· ||| ·))
  | .vxor o => some (lanewise o (· ^^^ ·))
  | .vshl o => some
    { h := o.h, srcs := [o.a, o.b], d := o.d, w := o.ty.width
      val := fun x _ k => ((BitVec.ofNat o.ty.width (x.elem o.a o.ty.width k) <<< x.elem o.b o.ty.width k).toNat, 0) }
  | .vshr o => some
    { h := o.h, srcs := [o.a, o.b], d := o.d, w := o.ty.width
      val := fun x _ k => (((if o.ty.isSigned then
          (BitVec.ofNat o.ty.width (x.elem o.a o.ty.width k)).sshiftRight (x.elem o.b o.ty.width k)
        else BitVec.ofNat o.ty.width (x.elem o.a o.ty.width k) >>> x.elem o.b o.ty.width k)).toNat, 0) }
  | .vperm o => some
    { h := o.h, srcs := [o.a, o.b], d := o.d, w := o.ty.width
      val := fun x _ k => (if x.elem o.b o.ty.width k < 2048 / o.ty.width then
        x.elem o.a o.ty.width (x.elem o.b o.ty.width k) else 0, 0) }
  | .vscan o => some { h := o.h, srcs := [o.a], d := o.d, w := o.ty.width, val := scanned o }
  | _ => none

/-- VRCP, VRSQ, VEXP2 and VLOG2: the function of each on a value (R360). -/
def functionForm : Instr → Option VecForm
  | .vrcp o => some (oneFloat o fun m r a => vrcpOf m r (m.decode a))
  | .vrsq o => some (oneFloat o fun m r a => vrsqOf m r (m.decode a))
  | .vexp2 o => some (oneFloat o fun m r a => vexp2Of m r (m.decode a))
  | .vlog2 o => some (oneFloat o fun m r a => vlog2Of m r (m.decode a))
  | _ => none

/-- The type of a one-source instruction that takes floating-point types only is one (R357). -/
def Floats : Instr → Prop
  | .vclass o | .vrcp o | .vrsq o | .vexp2 o | .vlog2 o => o.ty.isInt = false
  | _ => True

/-- The bits VCMP writes to a predicate: the outcomes of the enabled lanes, the other bits kept (R363). -/
def cmpBits (g old : Word) (out : Nat → Bool) (new : Word) : Prop :=
  ∀ k, k < 64 → new.getLsbD k = if g.getLsbD k then out k else old.getLsbD k

/-- A reduction's result over the enabled elements in ascending order (R368). -/
def reduced (ty : VTy) (x : Context) (g : Word) (a : BitVec 5) (i : Int → Int → Int)
    (f : RoundMode → Nat → Nat → Nat × FpFlags) : Word × FpFlags :=
  let es := (enabled g ty.width).map (x.elem a ty.width)
  match vtyFmt ty with
  | some m =>
    let rs := runF m (f x.round) es none
    (BitVec.ofNat 64 (lastRun rs).1, rs.foldl (fun (a : FpFlags) r => a ||| r.2) 0)
  | none => match es.map (vext ty) with | [] => (0, 0) | e :: r => (BitVec.ofInt 64 (r.foldl i e), 0)

/-- A vector instruction with a scalar result writes it through the queue where D is a general register, and itself,
once the queue is empty and the vector loads before it have performed, where it is a queue or a port (R353). -/
def ScalarFromVector (i : Instr) (s : State) (srcs : List Src) (d : Dst) (w : Word) (fl : FpFlags) : Prop :=
  (∀ j, d = .g j → (s.ctx s.cur).vq.length < 2 → Issued i s srcs { gen := [(j, w)], flags := fl }) ∧
    (Direct d → (s.ctx s.cur).vecTurn (s.ctx s.cur).nextId = true → ∃ t, exec i s = .next t ∧ ScalarDone s t srcs d w fl)

/-- A conversion's element: the part of the wider format the position names (R366). -/
def converted (o : VcvtOps) (x : Context) (p k : Nat) : Nat × FpFlags :=
  let sw := vcvtWidth o.src
  let dw := vcvtWidth o.dst
  let ms := 32 / sw
  let md := 32 / dw
  let cv (j : Nat) : Nat × FpFlags := vcvtOne o.src o.dst x.round (x.elem o.a sw (k / md * ms + j))
  if dw < sw then (if p * ms ≤ k % md ∧ k % md < p * ms + ms then cv (k % md - p * ms) else (x.elem o.d dw k, 0))
  else if sw < dw then cv (p * md + k % md)
  else cv (k % md)

/-- The wider of a conversion's formats holds this many of the narrower (R365). -/
def parts (o : VcvtOps) : Nat := max (vcvtWidth o.src) (vcvtWidth o.dst) / min (vcvtWidth o.src) (vcvtWidth o.dst)

/-- The lanes of a vector access pass their checks, in order, as `as` (R373). -/
def LanesGrant (s : State) (r : BitVec 6) (g : Word) (store : Bool) (off : Nat → Word) (as : List Acc) : Prop :=
  vlanes s s.cur r g store off = .ok as

/-- The lanes' offsets of a contiguous, a strided and an indexed access (R372). -/
def unitSteps (off : BitVec 43) (i : Nat) : Word := off.signExtend 64 + BitVec.ofNat 64 (4 * i)
def strided (off : BitVec 35) (b : Word) (i : Nat) : Word := off.signExtend 64 + BitVec.ofNat 64 i * b

/-- A vector load joins the order buffer, to write its register when it performs (R374). -/
def LoadsVector (i : Instr) (s : State) (srcs : List Src) (d : BitVec 5) (as : List Acc) : Prop :=
  ∃ t, exec i s = .next t ∧ Retired s t srcs (s.joined [.load as (.vec d)]) putNone

/-- A vector store joins the order buffer for tl4 with the enabled lanes' words (R375). -/
def StoresVector (i : Instr) (s : State) (v : BitVec 5) (as : List Acc) : Prop :=
  Queued i s [] (.vst (as.map fun a => (a, BitVec.ofNat 32 ((s.ctx s.cur).elem v 32 a.lane)))) 4

end Sys2Proof.Machine
end

