-- ==== Sys2Proof/Safety/Matrix.lean ====
section
/-! DEFINITION. The terms for the matrix engine: who holds an item, what a claim leaves, what an element of a product
and of a conversion is, and the words of an image (R379 to R402). -/

namespace Sys2Proof.Machine

/-- The matrix engine of the acting context's core. -/
def State.matrix (s : State) : Matrix := (s.core (coreOf s.cur)).matrix
def State.withMatrix (s : State) (m : Matrix) : State := s.modCore (coreOf s.cur) fun k => { k with matrix := m }

abbrev State.ownsSlot (s : State) (i : Nat) : Prop := (s.matrix.slot i).owner = some s.cur
abbrev State.ownsAcc (s : State) (i : Nat) : Prop := (s.matrix.acc i).owner = some s.cur

/-- Every item an instruction names is claimed (R381). -/
structure Claims (s : State) (slots accs : List Nat) : Prop where
  slots : ∀ i ∈ slots, s.ownsSlot i
  accs : ∀ i ∈ accs, s.ownsAcc i

/-- The item TRAPVAL of cause 0x38 names: the lowest unclaimed slot, or, all slots claimed, accumulator (R381). -/
def FirstUnclaimed (s : State) (slots accs : List Nat) (n : Nat) : Prop :=
  (n < 32 ∧ n ∈ slots ∧ ¬ s.ownsSlot n ∧ ∀ i ∈ slots, i < n → s.ownsSlot i) ∨
    ∃ k, n = 32 + k ∧ k ∈ accs ∧ (∀ i ∈ slots, s.ownsSlot i) ∧ ¬ s.ownsAcc k ∧ ∀ i ∈ accs, i < k → s.ownsAcc i

/-- No load has yet to fill some items (R380, R382). -/
structure Filled (s : State) (slots accs : List Nat) : Prop where
  slots : ∀ i ∈ slots, (s.matrix.slot i).state ≠ .loading
  accs : ∀ i ∈ accs, accLoading s s.cur i = false

/-- Some other context of the core holds an item. -/
def heldByOther (s : State) (o : Option Nat) : Prop := ∃ c, o = some c ∧ c ≠ s.cur

/-- The word of the conflicting items, placed as in X (R386). -/
def Conflicts (s : State) (slotm : BitVec 32) (accm : BitVec 8) (w : Word) : Prop :=
  ∀ i, w.getLsbD i = true ↔
    (slotm.getLsbD i = true ∧ heldByOther s (s.matrix.slot i).owner) ∨
      (35 ≤ i ∧ accm.getLsbD (i - 35) = true ∧ heldByOther s (s.matrix.acc (i - 35)).owner)

/-- The engine's queue of eight with the acting context's instruction at its end (R383), and its flags (R393). -/
def State.enqueued (s : State) (fl : FpFlags := 0) (product : Bool := false) : List MatrixPending :=
  s.matrix.queue ++ [{ c := s.cur, flags := fl, product := product }]
/-- The queue has room (R383). -/
abbrev State.engineRoom (s : State) : Prop := s.matrix.queue.length < 8

/-- The engine after a claim: each named item not already held is this context's, with zero contents and ready
(R380, R386). -/
structure Claimed (s : State) (slotm : BitVec 32) (accm : BitVec 8) (m : Matrix) : Prop where
  slots : ∀ i, m.slot i = if slotm.getLsbD i ∧ ¬ s.ownsSlot i then { owner := some s.cur } else s.matrix.slot i
  accs : ∀ i, m.acc i = if accm.getLsbD i ∧ ¬ s.ownsAcc i then { owner := some s.cur } else s.matrix.acc i
  queue : m.queue = s.enqueued

/-- The engine after a release (R387). -/
structure Released (s : State) (slotm : BitVec 32) (accm : BitVec 8) (m : Matrix) : Prop where
  slots : ∀ i, m.slot i = if slotm.getLsbD i ∧ s.ownsSlot i then {} else s.matrix.slot i
  accs : ∀ i, m.acc i = if accm.getLsbD i ∧ s.ownsAcc i then {} else s.matrix.acc i
  queue : m.queue = s.enqueued

/-- MCLAIM's image operand passes its checks, and its physical range begins at `pa` (R386). -/
structure ImageGrants (s : State) (r : BitVec 6) (xl : Xlat) : Prop where
  there : Known s [r]
  check : capCheck ((s.ctx s.cur).reg r) r (permLd ||| permSt) ((s.ctx s.cur).low r) imageSize = .ok ((s.ctx s.cur).reg r).cap
  aligned : ((s.ctx s.cur).low r).toNat % 256 = 0
  pages : xlatPlaced s s.cur ((s.ctx s.cur).low r) imageSize 1 = .ok xl

/-- An instruction retires, the engine left as `m`, and some operations at the tail of the order buffer. -/
def Engine (i : Instr) (s : State) (srcs : List Src) (m : Matrix) (ops : List LobOp) : Prop :=
  ∃ t, exec i s = .next t ∧ Retired (s.withMatrix m) t srcs (s.joined ops) putNone

/-- The slots a load fills, and the pieces it reads (R388, R389). -/
def mldSlots (o : MldOps) : List Nat := if o.span2 then [o.slot.toNat, o.slot.toNat + 1] else [o.slot.toNat]
def mldRowBytes (o : MldOps) : Nat := if o.span2 then 128 else 64
def mldWidth (o : MldOps) : Nat :=
  match o.mode with
  | .rows => mldRowBytes o | .scale => 128 | .t8 => 32 - o.zrows.toNat | .t16 => 2 * (32 - o.zrows.toNat)
def mldRows (o : MldOps) : Nat :=
  match o.mode with
  | .rows => 32 - o.zrows.toNat | .scale => 1 | .t8 => mldRowBytes o | .t16 => mldRowBytes o / 2
/-- The exact address of byte column `b` of memory row `m` (R11, R388). -/
def mldSource (o : MldOps) (ea v : Word) (m b : Nat) : Nat :=
  if o.sw then ea.toNat + m * 128 + ((v.toNat + b) / 16 ^^^ m % 8) * 16 + (v.toNat + b) % 16
  else ea.toNat + m * v.toNat + b
/-- The same of an instruction whose rows lie a stride apart (R395, R397). -/
def rowSource (ea v : Word) (m b : Nat) : Nat := ea.toNat + m * v.toNat + b

/-- What an operand byte's two's complement value is. -/
def int8At (m : Matrix) (slot rb r k : Nat) (span2 : Bool) : Int :=
  signedOf 8 (operandAt (operandBytes m slot span2) rb 8 r k)

/-- The sum of a product of `n` terms. -/
def sumTo (n : Nat) (f : Nat → Int) : Int := ((List.range n).map f).foldl (· + ·) 0

/-- R143: an exact sum clamped to INT32, overflow where it was. -/
def clamped (x : Int) : Nat × FpFlags :=
  if x < -(2 ^ 31) then (2 ^ 31, flagOF)
  else if 2 ^ 31 - 1 < x then (2 ^ 31 - 1, flagOF)
  else ((x % 2 ^ 32).toNat, 0)


/-- The accumulator whose old words an instruction adds to (R391). -/
def oldWord (m : Matrix) (z ip : Bool) (accd accc : BitVec 3) (i j : Nat) : Nat :=
  if z then 0 else accWord (m.acc (if ip then accd else accc).toNat).bytes i j

/-- Element (i, j) of MMA `.i8` (R143, R391). -/
def productInt (m : Matrix) (o : MmaOps) (i j : Nat) : Nat × FpFlags :=
  clamped (signedOf 32 (oldWord m o.z o.ip o.accd o.accc i j) +
    if !o.m || decide ((j : Int) ≤ i + o.diag.toInt) then
      sumTo 64 fun k => int8At m o.sa.toNat 64 i k false * int8At m o.sb.toNat 64 j k false
    else 0)

/-- A weight of T2, and whether its code is the invalid one (R129, R391). -/
def weight (m : Matrix) (slot i k : Nat) : Int × Bool :=
  match operandAt (operandBytes m slot false) 64 2 i k with
  | 0 => (0, false) | 1 => (1, false) | 3 => (-1, false) | _ => (0, true)

/-- Element (i, j) of MTERN (R143, R391). -/
def productTern (m : Matrix) (o : MternOps) (i j : Nat) : Nat × FpFlags :=
  let on := !o.m || decide ((j : Int) ≤ i + o.diag.toInt)
  let b (k : Nat) : Int :=
    if o.n8 then operandAt (operandBytes m o.sb.toNat true) 128 8 j k else int8At m o.sb.toNat 128 j k true
  let r := clamped (signedOf 32 (oldWord m o.z o.ip o.accd o.accc i j) +
    if on then sumTo 128 fun k => (weight m o.sa.toNat i k).1 * b k else 0)
  (r.1, r.2 ||| if on && (List.range 128).any (fun k => (weight m o.sa.toNat i k).2) then flagIE else 0)

/-- The engine after a product: the destination's words and, with the queued instruction, the flags of all (R391,
R393). -/
structure Product (s : State) (accd : BitVec 3) (f : Nat → Nat → Nat × FpFlags) (m : Matrix) : Prop where
  slots : ∀ i, m.slot i = s.matrix.slot i
  others : ∀ i, i ≠ accd.toNat → m.acc i = s.matrix.acc i
  owner : (m.acc accd.toNat).owner = (s.matrix.acc accd.toNat).owner
  words : ∀ i j, i < 32 → j < 32 → accWord (m.acc accd.toNat).bytes i j = (f i j).1
  queue : ∃ fl, m.queue = s.enqueued fl true ∧
    ∀ b, fl.getLsbD b = true ↔ ∃ i j, i < 32 ∧ j < 32 ∧ (f i j).2.getLsbD b = true

/-- A product may issue: its items claimed, no slot of it loading or faulted, and room in the engine's queue (R383,
R390). -/
structure MayMultiply (s : State) (slots accs : List Nat) : Prop where
  claims : Claims s slots accs
  filled : Filled s slots accs
  sound : ∀ i ∈ slots, ∀ r pa, (s.matrix.slot i).state ≠ .faulted r pa
  room : s.engineRoom

/-- The slots an MMA reads, and the accumulators it names. -/
def mmaSlots (o : MmaOps) : List Nat := spanOf o.sa.toNat o.ty.span2 ++ spanOf o.sb.toNat o.ty.span2
def mmaAccs (o : MmaOps) : List Nat := [o.accd.toNat, (if o.z || o.ip then o.accd else o.accc).toNat]
def mternSlots (o : MternOps) : List Nat := o.sa.toNat :: spanOf o.sb.toNat true
def mternAccs (o : MternOps) : List Nat := [o.accd.toNat, (if o.z || o.ip then o.accd else o.accc).toNat]

/-- Element (i, j) of an accumulator converted (R396). -/
def convertedAt (s : State) (acc : BitVec 3) (si : Bool) (ty : AccTy) (rm : BitVec 3) (i j : Nat) : Nat × FpFlags :=
  accConvert si ty (roundField (s.ctx s.cur).round rm) (accWord (s.matrix.acc acc.toNat).bytes i j)

/-- The flags of all the elements of a conversion. -/
def ConvertFlags (s : State) (acc : BitVec 3) (si : Bool) (ty : AccTy) (rm : BitVec 3) (fl : FpFlags) : Prop :=
  ∀ b, fl.getLsbD b = true ↔ ∃ i j, i < 32 ∧ j < 32 ∧ (convertedAt s acc si ty rm i j).2.getLsbD b = true

/-- ACCST's 16-byte words: index, physical address and data, row by row (R397). -/
def storeWords (s : State) (o : AccstOps) (v : Word) (xl : Xlat) : List (Nat × Nat × BitVec 128) :=
  let t := accTyBytes o.ty
  let ea := (s.ctx s.cur).low o.a
  (List.range (64 * t)).map fun n =>
    let r := n / (2 * t)
    let j := n % (2 * t)
    (n, xlAt xl (rowSource ea v r (16 * j)),
      BitVec.ofNat 128 (packNat (8 * t) ((List.range (16 / t)).map fun k =>
        (convertedAt s o.acc o.si o.ty o.rm r (16 / t * j + k)).1)))

/-- ACCST's operands are granted: stride and address multiples of 16, the hull of its 32 rows and every page of them
(R397). -/
structure StoreGrants (s : State) (o : AccstOps) (v : Word) (xl : Xlat) : Prop where
  there : Known s [o.a]
  stride : v.toNat % 16 = 0
  aligned : ((s.ctx s.cur).low o.a).toNat % 16 = 0
  hull : (let h := hullOf (piecesOf 32 (32 * accTyBytes o.ty) (rowSource ((s.ctx s.cur).low o.a) v))
    capCheck ((s.ctx s.cur).reg o.a) o.a permEdst h.1 h.2 = .ok ((s.ctx s.cur).reg o.a).cap)
  pages : (piecesOf 32 (32 * accTyBytes o.ty) (rowSource ((s.ctx s.cur).low o.a) v)).foldlM
    (fun (l : Xlat) p => do let x ← xlatPlaced s s.cur (BitVec.ofNat 64 p.1) p.2 4; pure (l ++ x)) [] = .ok xl

/-- The slot ACCMOV writes: the 32 converted elements at their offset of each row, the rest as before (R398). -/
def MovedInto (s : State) (o : AccmovOps) (b : BitVec 16384) : Prop :=
  let t := accTyBytes o.ty
  ∀ r k, r < 32 → k < 64 / t → operandAt b.toNat 64 (8 * t) r k =
    if 32 * bit o.ofs ≤ k ∧ k < 32 * bit o.ofs + 32 then
      let n := k - 32 * bit o.ofs
      (if o.t then convertedAt s o.acc o.si o.ty o.rm n r else convertedAt s o.acc o.si o.ty o.rm r n).1
    else operandAt (s.matrix.slot o.slot.toNat).bytes.toNat 64 (8 * t) r k

/-- The bytes of a matrix image that a context's items give, from an offset (R400): `n` bytes of a block. -/
def imageHeader (m : Matrix) (c : Nat) (o : Nat) : Nat :=
  let mask (p : Nat → Bool) (n w : Nat) : Nat := (List.range n).foldl (fun a i => a + if p i then 2 ^ (w * i) else 0) 0
  let reason (i : Nat) : Nat :=
    if (m.slot i).owner = some c then match (m.slot i).state with | .faulted r _ => r.toNat | _ => 0 else 0
  let word := mask (fun i => (m.slot i).owner == some c) 32 1
    + mask (fun i => (m.acc i).owner == some c) 8 1 * 2 ^ 64
    + mask (fun i => reason i != 0) 32 1 * 2 ^ 128
    + (List.range 32).foldl (fun a i => a + reason i * 2 ^ (4 * i)) 0 * 2 ^ 192
  word / 2 ^ (8 * o) % 2 ^ 128

/-- The 16 bytes of an image at an offset that is a multiple of 16 (R400). -/
def imageWord (m : Matrix) (c o : Nat) : Nat :=
  if o < 0x100 then imageHeader m c o
  else if o < 0x10100 then (m.slot ((o - 0x100) / 0x800)).bytes.toNat / 2 ^ (8 * ((o - 0x100) % 0x800)) % 2 ^ 128
  else if o < 0x18100 then (m.acc ((o - 0x10100) / 0x1000)).bytes.toNat / 2 ^ (8 * ((o - 0x10100) % 0x1000)) % 2 ^ 128
  else (m.slot ((o - 0x18100) / 0x80)).scale.toNat / 2 ^ (8 * ((o - 0x18100) % 0x80)) % 2 ^ 128

/-- Whether an image of a context's items holds the word at an offset: the header, or the block of a claimed item. -/
def inImage (m : Matrix) (c o : Nat) : Bool :=
  if o < 0x100 then true
  else if o < 0x10100 then (m.slot ((o - 0x100) / 0x800)).owner == some c
  else if o < 0x18100 then (m.acc ((o - 0x10100) / 0x1000)).owner == some c
  else (m.slot ((o - 0x18100) / 0x80)).owner == some c

/-- MSAVE's words, in ascending order: index, physical address, data. -/
def savedWords (s : State) (ea : Word) (xl : Xlat) : List (Nat × Nat × BitVec 128) :=
  ((List.range (imageSize / 16)).filter fun n => inImage s.matrix s.cur (16 * n)).map fun n =>
    (n, xlAt xl (ea.toNat + 16 * n), BitVec.ofNat 128 (imageWord s.matrix s.cur (16 * n)))

/-- MSAVE's and MRESTORE's operand is granted over an image (R401, R402). -/
structure WholeImage (s : State) (r : BitVec 6) (perm : BitVec 12) (kind : Nat) (xl : Xlat) : Prop where
  there : Known s [r]
  check : capCheck ((s.ctx s.cur).reg r) r perm ((s.ctx s.cur).low r) imageSize = .ok ((s.ctx s.cur).reg r).cap
  aligned : ((s.ctx s.cur).low r).toNat % 256 = 0
  pages : xlatPlaced s s.cur ((s.ctx s.cur).low r) imageSize kind = .ok xl

/-- Whether a load's page is uncached (R278). -/
def uncachedAt (s : State) (a : Nat) : Bool := memType s s.cur (BitVec.ofNat 64 a) 0 == 1

/-- The 16-byte accesses of MRESTORE's image (R402). -/
def imageAccs (s : State) (r : BitVec 6) (xl : Xlat) : List Acc :=
  blockAccs (uncachedAt s) ((s.ctx s.cur).low r).toNat xl [(0, imageSize)]

/-- The matrix engine of a core after a restore for context `c` of an image whose blocks hold `get` (R402). -/
structure Restored (old : Matrix) (c : Nat) (sm : BitVec 32) (am : BitVec 8) (fm rs : Nat) (get : Nat → Nat → Nat) (m : Matrix) :
    Prop where
  slots : ∀ i, m.slot i = if sm.getLsbD i then
    { owner := some c, bytes := BitVec.ofNat 16384 (get (0x100 + 0x800 * i) 0x800)
      scale := BitVec.ofNat 1024 (get (0x18100 + 0x80 * i) 0x80)
      state := if fm.testBit i then .faulted (BitVec.ofNat 4 (rs / 2 ^ (4 * i))) 0 else .ready }
    else old.slot i
  accs : ∀ i, m.acc i = if am.getLsbD i then
    { owner := some c, bytes := BitVec.ofNat 32768 (get (0x10100 + 0x1000 * i) 0x1000) } else old.acc i
  queue : m.queue = old.queue

end Sys2Proof.Machine
end

