-- ==== Sys2Proof/Safety/Planes.lean ====
section
/-! DEFINITION. The terms for the Beacon plane's instructions and for the custody record: an entry sent, a lane
command, and R434's table as data (R413 to R440). -/

namespace Sys2Proof.Machine

/-- A state with an entry on its way to a Beacon unit (R421, R422). -/
def State.withEntry (s : State) (e : Entrant) : State :=
  { s with net := s.net ++ [(s.next, NetMsg.entry e)], next := s.next + 1 }

/-- A context that has sent what it waits for. -/
def State.hasSent (s : State) : State := s.modCtx s.cur fun x => { x with sent := true }

/-- A kernel-level instruction's level. -/
def Privileged (s : State) : Prop := (s.ctx s.cur).level ≠ .task

/-- A lane with the first `k` of its staged changes put in place (R413); with all of them, as the next request finds it. -/
def Lane.after (l : Lane) (k : Nat) : Lane := (l.staged.take k).foldl applyStaged l

/-- The refusals of BCBIND, in their order, of a lane as `l` (R423). -/
def NotAssigned (s : State) (l : Lane) : Prop := l.part ≠ (s.ctx s.cur).ident.part ∨ l.part = 0xFF
def BoundByOther (s : State) (l : Lane) : Prop := l.bound = true ∧ l.vf ≠ (s.ctx s.cur).ident.vf
/-- The identifier is bound in the partition on another lane, now or by some change staged there. -/
def BoundOnOther (s : State) (n : Nat) (part : BitVec 8) (cid : BitVec 12) : Prop :=
  ∃ j k, j < 16 ∧ j ≠ n ∧ k ≤ (s.lane j).staged.length ∧
    ((s.lane j).after k).bound = true ∧ ((s.lane j).after k).part = part ∧ ((s.lane j).after k).cid = cid

/-- A change staged on a lane (R413). -/
def State.stage (s : State) (n : Nat) (g : Staged) : State := s.modLane n fun l => { l with staged := l.staged ++ [g] }

/-! Custody. -/

/-- A custody transaction's header, sources, destination, and whether it asks that the frame be of the issuer's
partition and virtual function (R433, R434); the context's turn has come. -/
structure CustodyForm where
  h : Hdr
  srcs : List Src
  d : Dst
  own : Bool
  custodian : Bool := false

def custodyForm : Instr → Option CustodyForm
  | .foffer o | .faccept o | .fwithdraw o | .frecall o | .fret o => some { h := o.h, srcs := [o.a], d := o.d, own := true }
  | .flend o => some { h := o.h, srcs := [o.a, o.b], d := o.d, own := true }
  | .fofferGrant o => some { h := o.h, srcs := [o.a, o.b], d := o.d, own := false, custodian := true }
  | .fofferReclaim o => some { h := o.h, srcs := [o.a], d := o.d, own := false, custodian := true }
  | .fqueryState o | .fqueryDl o => some { h := o.h, srcs := [o.a], d := o.d, own := true }
  | _ => none

/-- FQUERY, whose check for refusal 0x02 the custodian does not meet (R434). -/
def isQuery : Instr → Bool | .fqueryState _ | .fqueryDl _ => true | _ => false

/-- The two source words of a custody instruction, the second zero where it has none; one that waits keeps them (R45,
R436). -/
def custodyWords (s : State) (f : CustodyForm) : Word × Word := (arg (s.words f.srcs) 0, arg (s.words f.srcs) 1)

/-- A custody instruction has its operands, and nothing older of its context is outstanding (R437). -/
structure CustodyTurn (s : State) (f : CustodyForm) : Prop where
  clear : Clear s f.h
  on : On s f.h
  level : if f.custodian then (s.ctx s.cur).level = .custodian else Privileged s
  sends : Sends s f.srcs f.d
  fresh : (s.ctx s.cur).sent = false

/-- The frame is of the issuer's partition and virtual function (R434). -/
structure OwnFrame (s : State) (frame : Nat) : Prop where
  level : (s.ctx s.cur).ident.custodian = false
  given : entState (entry0 s frame) ≠ 0
  part : entPart (entry0 s frame) = (s.ctx s.cur).ident.part
  vf : entVf (entry0 s frame) = (s.ctx s.cur).ident.vf

/-- No hold of R289 is open on the frame; one of the kernel region's requests is none (R287). -/
def Unheld (s : State) (frame : Nat) : Prop := ∀ h ∈ s.holds, h.kernel = false → h.frame ≠ frame

/-- One row of R434's table: state, owner, limit and deadline after it, the worlds that lose rights, and whether a
recall notice goes out (R438). -/
structure CustodyRow where
  st : Nat
  owner : Bool
  limit : Nat := 0
  deadline : Word := 0
  losers : List Bool := []
  notice : Bool := false

/-- R434's table: the row of an instruction whose frame has an entry, or refusal 0x03 or 0x04. `b` is B, `w` the
entry, `me` the issuing world, `susp` whether the other world's borrowing is suspended. -/
def custodyRow (i : Instr) (w : Word) (me susp : Bool) (now b : Word) : Except Nat CustodyRow :=
  let st := entState w
  let mine := entOwner w == me
  match i with
  | .foffer _ => if st = 1 ∧ mine = true then .ok { st := 2, owner := me } else .error 3
  | .fwithdraw _ => if st = 2 then .ok { st := 1, owner := entOwner w } else .error 3
  | .faccept _ => if st = 2 ∧ mine = false then .ok { st := 1, owner := me, losers := [!me] } else .error 3
  | .flend _ =>
    if st = 1 ∧ mine = true then
      if susp then .error 4 else .ok { st := 3, owner := me, limit := if b.toNat % 65536 = 0 then 200 else b.toNat % 65536 }
    else .error 3
  | .frecall _ =>
    if st = 3 ∧ mine = true then .ok
      { st := 4, owner := me, limit := (entLimit w).toNat, notice := true
        deadline := now + BitVec.ofNat 64 ((entLimit w).toNat * 10000) }
    else .error 3
  | .fret _ => if (st = 3 ∨ st = 4) ∧ mine = false then .ok { st := 1, owner := !me, losers := [me] } else .error 3
  | _ => .error 3

/-- The state after a row's entry was written, with the notice and the poisoned lines of an accepted frame (R434,
R438). -/
def State.custodied (s : State) (i : Instr) (frame : Nat) (r : CustodyRow) : State :=
  let w := entry0 s frame
  let t := putEntry s frame r.st (entPart w) (entVf w) r.owner r.limit r.deadline
  if r.notice then custodyNotice t (entPart w) (entVf w) (!r.owner) 0x42 frame r.deadline
  else match i with | .faccept _ => cleanLines t frame false | _ => t

/-- A performed transaction: with no rights lost it writes the new word 0 to D; else the withdrawal of R436 has
begun, and the context waits for its end. -/
def Performed (i : Instr) (s v : State) (d : Dst) (frame : Nat) (losers : List (BitVec 8 × BitVec 4 × Bool)) : Prop :=
  (losers = [] → Answered i s v d (entry0 v frame)) ∧
    (losers ≠ [] → exec i s = .next (blockOn (withdraw v frame losers (some s.cur)).hasSent s.cur .custody))

/-- The line of the record that holds a frame's entry, populated and sound. -/
structure RecordSound (s : State) (frame : Nat) : Prop where
  named : frameNamed s frame = true
  there : ∀ j, j < 16 → isHbm (entryAddr s frame + j) = true
  aligned : (s.base (frameStack frame)).custBase % 65536 = 0
  sound : poisoned s (entryAddr s frame) = false
  straight : redirect s (entryAddr s frame) = entryAddr s frame

end Sys2Proof.Machine
end

