-- ==== Sys2Proof/Safety/Steps.lean ====
section
/-! DEFINITION. The terms for the ordering machine's own steps: whose turn it is, where a load's bytes come from, what
a store changes at its home, and what each step leaves (R100 to R118, R210 to R212, R294 to R298). -/

namespace Sys2Proof.Machine

/-- Entry `id` of a context's order buffer is `e`, and R101 to R113 let it go now. -/
structure EntryTurn (s : State) (c id : Nat) (e : LobEntry) : Prop where
  found : lobAt s c id = some e
  free : mayGo s c e = true

/-- A load's turn: nothing older holds it back, no older vector instruction has yet to write (R353), and no home and no
waiting BANKCFG holds an access it makes (R101, R273, R287, R289). -/
structure LoadReady (s : State) (c id : Nat) (e : LobEntry) (as : List Acc) (d : LoadDst) : Prop where
  turn : EntryTurn s c id e
  load : e.op = .load as d
  order : ∀ v, d = .vec v → (s.ctx c).vecTurn id = true
  free : ∀ a ∈ touched s c id d as, accessWaits s c a = false

/-- A load's turn, and no line it receives is one whose partition has no longer the key it was written under (R446). -/
structure LoadTurn (s : State) (c id : Nat) (e : LobEntry) (as : List Acc) (d : LoadDst) : Prop where
  ready : LoadReady s c id e as d
  sealed : failedSeal s c id e.ident (touched s c id d as) = none

/-- The last of the older stores of a context's order buffer that holds a byte (R103). -/
def ownStore (s : State) (c id pa : Nat) : Option Byte :=
  (((s.ctx c).lob.filter fun e => decide (e.id < id)).filterMap fun e =>
    match e.op with | .store d _ _ _ => storeByte d pa | _ => none).getLast?

/-- The youngest entry of the cluster's store queue that holds a byte (R103). -/
def queuedStore (s : State) (c pa : Nat) : Option Byte :=
  ((s.clu (clusterOf c)).csq.filterMap fun e => storeByte e.data pa).getLast?

/-- The byte a load takes (R103): its own older store's, else the store queue's, else its home's; an uncached or
remote location's home gives it. -/
def loadSource (s : State) (c id pa : Nat) : Byte :=
  if queued c pa then
    match ownStore s c id pa with
    | some b => b
    | none => (queuedStore s c pa).getD (homeByte s pa)
  else homeByte s pa

/-- The state a load reads in: the caches hold its lines, the misses counted (R152, R274, R275). -/
def State.caching (s : State) (c id : Nat) (e : LobEntry) (as : List Acc) : State := cacheLoads s c e.ident id as

/-- That state, its context attached to a scratchpad it reaches (R450). -/
def State.reading (s : State) (c id : Nat) (e : LobEntry) (a : Acc) : State := attach (s.caching c id e [a]) c a.pa

/-- What a performed load leaves beside its destination: its entry is gone, but for marks of what it read and has yet
to be drained or verified (R108, R453); where it wrote a register, the stores that waited for that take their bytes
(R100). -/
structure Loaded (u t : State) (c id : Nat) (feed : Context → Context) : Prop where
  whole : t = { u with ctxs := t.ctxs }
  others : ∀ e, e ≠ c → t.ctx e = u.ctx e
  own : ∃ owed : List LobOp, (∀ o ∈ owed, (∃ k n, o = .readSibling k n) ∨ ∃ pa, o = .unverified pa) ∧
    t.ctx c = feed { u.ctx c with
      g := (t.ctx c).g, v := (t.ctx c).v
      lob := (u.ctx c).lob.flatMap fun y => if y.id = id then owed.map fun o => { y with op := o } else [y] }

/-- A refused load: its entry is gone, its register stays, and the trap is pending (R286, R432). -/
def refusedLoad (u : State) (c id : Nat) (t : Trap) : State := pendTrap ((lobDrop u c id).modCtx c Context.feed) c t

/-- General registers after a write of one; vector registers after a write of one. -/
def WroteReg (u t : State) (c : Nat) (d : BitVec 6) (r : Reg) : Prop :=
  (∀ j, (t.ctx c).reg j = if j = d ∧ j ≠ 0 then r else (u.ctx c).reg j) ∧ (t.ctx c).v = (u.ctx c).v
def WroteVreg (u t : State) (c : Nat) (d : BitVec 5) (w : BitVec 2048) : Prop :=
  (∀ j, (t.ctx c).vreg j = if j = d then w else (u.ctx c).vreg j) ∧ (t.ctx c).g = (u.ctx c).g

/-- A read in HBM that goes through: every byte from the context's own cluster (R103), or a home on a live die that the
world has rights to, with no poison (R285, R286, R432). -/
def ReadableHbm (s : State) (c id : Nat) (i : Ident) (a : Acc) : Prop :=
  (∃ k o, region a.pa = .hbm k o) ∧ (forwarded s c id a = true ∨
    (homeRights s i a.pa = true ∧ (s.die (dieOf c)).lost.getLsbD (homeDie s a.pa) = false ∧ poisoned s a.pa = false))

/-- The lines an access carries in its trap (R286, R432). -/
def lineOf (a : Acc) : Word := BitVec.ofNat 64 (a.pa / 128 * 128)

/-- Bytes written at a physical address: the homes of it hold them, every other byte of memory is as before. -/
def Wrote (s t : State) (pa : Nat) (bs : List Byte) : Prop :=
  (∀ j x, j < bs.length → loc s (pa + j) = some x → byteAt t x = bs.getD j 0) ∧
    ∀ x, (∀ j, j < bs.length → loc s (pa + j) ≠ some x) → byteAt t x = byteAt s x

/-- A plain store's access may be performed at its home in HBM: the partition runs, its home lives, the world has
rights, the line is sound, no tile and no mirror covers it, and it lies in one frame (R105, R286, R287, R319, R432). -/
structure StoreHome (s : State) (c : Nat) (i : Ident) (a : Acc) (bs : List Byte) : Prop where
  runs : cmdStopped s i = false
  live : (s.die (dieOf c)).lost.getLsbD (homeDie s a.pa) = false
  hbm : ∀ j, j < bs.length → ∃ k o, region (a.pa + j) = .hbm k o
  some : bs ≠ []
  frame : a.pa % 128 + bs.length ≤ 128
  rights : homeRights s i a.pa = true
  sound : poisoned s a.pa = false
  tiles : ∀ t ∈ (s.base (a.pa / 2 ^ 37)).tiles, ∀ j, j < bs.length → t.covers (a.pa + j) = false
  mirror : mirrorOf s a.pa = none

/-- Nothing but memory, its capability tags, keys and counters, the caches that hold its lines, contexts and store queues
changes. -/
def OnlyStores (s t : State) : Prop :=
  t = { s with
    writes := t.writes, ctags := t.ctags, ctxs := t.ctxs, clus := t.clus
    l1 := t.l1, l2 := t.l2, homes := t.homes, seals := t.seals, pages := t.pages }

/-- A die may write an access: no other L2 holds a copy of a line of it that caches may hold (R275). -/
def Owned (s : State) (die pa n : Nat) : Prop := cacheable s pa = true → ∀ l ∈ linesOf pa n, granted s die l = true

/-- A drain's place in its queue: no older entry shares a location or a lock with it, and no home holds it (R105). -/
structure DrainFirst (s : State) (cl id : Nat) (e : CsqEntry) (older : List CsqEntry) : Prop where
  found : ∃ r, (s.clu cl).csq = older ++ e :: r
  number : e.id = id ∧ ∀ y ∈ older, y.id ≠ id
  apart : ∀ y ∈ older, meets (y.data.map fun d => (d.1.pa, d.2.length)) (e.data.map fun d => (d.1.pa, d.2.length)) = false ∧
    (∀ l k, y.lock = some l → e.lock = some k → meetsAt (y.data.map fun d => d.1.pa / 32) (e.data.map fun d => d.1.pa / 32) = false)
  free : storeHeld s e.data = false

/-- A drain's turn: its place, and its die may write its lines (R105, R275). -/
structure DrainTurn (s : State) (cl id : Nat) (e : CsqEntry) (older : List CsqEntry) : Prop where
  first : DrainFirst s cl id e older
  owned : ∀ d ∈ e.data, Owned s (cl / 64) d.1.pa d.2.length

/-- A message is the one in the network under a number. -/
def InNet (s : State) (k : Nat) (m : NetMsg) : Prop := msgAt s k = some m

/-- A posted store that may be answered at its home (R210, R211, R273, R275, R289). -/
structure Accepts (s : State) (k core j : Nat) (e : JEntry) : Prop where
  entry : (Sparse.get {} (s.core core).journal j : JEntry) = e
  filled : e.state = 1
  first : ∀ y ∈ (s.core core).journal, y.2.state = 1 → y.2.c = e.c → y.2.lid < e.lid →
    meets [(y.2.acc.pa, y.2.acc.n)] [(e.acc.pa, e.acc.n)] = false
  free : frameHeld s e.acc.pa = false
  banks : bankHeld s e.c e.acc.pa k = false
  owned : Owned s 32 e.acc.pa e.acc.n

/-- A request's turn to take a sequence number (R294). -/
structure RequestTurn (s : State) (c id : Nat) (e : LobEntry) : Prop where
  turn : EntryTurn s c id e
  room : atomRoom s c e = true

/-! Engines and messages. -/

/-- An effect of a command may be performed: it is not done, R114 orders nothing before it, its stack engine runs it
(R331), and no home holds a frame of it (R289). -/
structure EffectTurn (s : State) (id k : Nat) (e : EngCmd) : Prop where
  found : cmdAt s id = some e
  one : k < effectCount e
  new : k ∉ e.done
  free : effectFree s e k = true
  runs : stackRuns s e = true
  frames : effectHeld s e k = false

/-- An engine's write at a home in HBM goes through: what `accessBad` asks, a sound line, no tile over it, in one line. -/
structure EngineHome (s : State) (die : Nat) (i : Ident) (pa : Nat) (bs : List Byte) : Prop where
  good : accessBad s die i pa bs.length true = none
  hbm : ∀ j, j < bs.length → ∃ k o, region (pa + j) = .hbm k o
  some : bs ≠ []
  line : pa % 128 + bs.length ≤ 128
  sound : poisoned s pa = false
  tiles : ∀ t ∈ (s.base (pa / 2 ^ 37)).tiles, ∀ j, j < bs.length → t.covers (pa + j) = false

/-- One command is put in place of the one of its number; memory, its tags, keys and counters, the caches that hold its
lines, and nothing else may have changed. -/
def Effected (s t : State) (e : EngCmd) : Prop :=
  t = { s with
    writes := t.writes, ctags := t.ctags, l1 := t.l1, l2 := t.l2, homes := t.homes, seals := t.seals, pages := t.pages
    cmds := s.cmds.map fun x => if x.id = e.id then e else x }

/-- A copy as it starts: with the source bytes that are its own destination bytes (R341). -/
def started (s : State) (e : EngCmd) (h : CopyShape) (d a : Word) (xl : Xlat) (k : Nat) : EngCmd :=
  if k = 0 then { e with before := ownSources s h d a xl } else e

/-- SRED's result on two elements (R333): integers with bit-vector operations of the type's width. -/
def reduce (t : SredTy) (op : SredOp) (d v : Nat) : Nat × FpFlags :=
  let int (signed : Bool) : Nat × FpFlags :=
    let x := BitVec.ofNat (8 * sredBytes t) d
    let y := BitVec.ofNat (8 * sredBytes t) v
    (match op with
      | .add => (x + y).toNat
      | .min => if leAt signed x y then d else v
      | .max => if leAt signed x y then v else d
      | .and => (x &&& y).toNat
      | .or => (x ||| y).toNat
      | .xor => (x ^^^ y).toNat, 0)
  let float (f : Fmt) : Nat × FpFlags :=
    match op with
    | .min => fpMinMax f false d v
    | .max => fpMinMax f true d v
    | _ => fpAdd f .rne (f.decode d) (f.decode v)
  match t with
  | .f32 => float fF32 | .bf16 => float fBf16 | .f16 => float fF16
  | .i32 | .i64 => int true
  | .n32 | .n64 => int false

/-- A tile command's region is live and its stack in reach, and its operands have the region's shape (R321, R323). -/
structure TileTurn (s : State) (die : Nat) (i : Ident) (id : BitVec 16) (coord : List Nat) (a : Word) (xl : Xlat) (n : Nat)
    (r : Region) : Prop where
  found : regionOf s (partNo i) id = some r
  live : r.detached = false
  reach : (s.die die).lost.getLsbD (homeDie s r.base) = false
  coords : coord.length = r.ndim
  pages : xlHolds xl a.toNat n = true

/-- A timeline as R27 has it: numbers completed above the counter, rising. -/
structure TimelineOk (t : Timeline) : Prop where
  rising : t.above.Pairwise (· < ·)
  above : ∀ m ∈ t.above, t.done < m

/-- A command's trap is the one R323, R346, R376 and R399 give: none where it did not fail. -/
def CommandTrap (e : EngCmd) (t : Trap) : Prop :=
  ∃ idx reason cause, e.fail = some (idx, reason, cause) ∧ t.val = BitVec.ofNat 64 e.num ∧
    t.cause = (if e.tl = 4 then 0x37 else if e.tl = 5 then 0x3A else if e.tl = 6 then 0x35 else 0x36)

/-- A word that reaches a core may be placed now (R46, R49, R449, R483). -/
structure WordTurn (s : State) (k core : Nat) (r : WordReg) (w : MsgWord) (c : Nat) (gti : Word) (i : Ident) (fwd owed : Bool) :
    Prop where
  here : InNet s k (.word core r w c gti i fwd owed)
  fresh : current s i = true
  reaches : undeliverable s core c i = false
  first : wordWaits s k core r c gti fwd = false

/-- The traffic after a message was taken out and, where one is owed, another sent. -/
def netAfter (s : State) (k : Nat) (m : List NetMsg) : List (Nat × NetMsg) :=
  s.net.filter (fun x => x.1 != k) ++ m.mapIdx fun n x => (s.next + n, x)

end Sys2Proof.Machine
end

