-- ==== Sys2Proof/Safety/Events.lean ====
section
/-! DEFINITION. The terms for the events of contexts, schedulers, the fabric, the planes, partitions and the outside:
what a save area holds, when a context leaves or resumes, and what each event leaves (R227 to R242, R247 to R268, R281
to R289, R412 to R480). -/

namespace Sys2Proof.Machine

/-! Leaving and resuming (R232 to R237, R252, R253). -/

/-- Plain storage: each byte lies in HBM at its own address, in a sound line that no tile covers. -/
structure PlainHbm (s : State) (pa n : Nat) : Prop where
  hbm : ∀ j, j < n → isHbm (pa + j) = true
  place : ∀ j, j < n → loc s (pa + j) = some (pa + j)
  sound : ∀ j, j < n → s.poison.contains ((pa + j) / 128) = false
  tiles : ∀ k, ∀ t ∈ (s.base k).tiles, ∀ j, j < n → t.covers (pa + j) = false

/-- A save area's physical address: the pool's base and 10 KiB for each area before it (R235, R237). -/
def areaPa (s : State) (c idx : Nat) : Nat :=
  (Sparse.get {} (s.die (dieOf c)).pools (s.ctx c).ident.vf.toNat : Pool).base * 256 + 0x2800 * idx

/-- A word of a number. -/
def nat64 (n : Nat) : Word := BitVec.ofNat 64 n

/-- Context `c` of `s` stands in the save area at `a` of `t` with a reason, as R235 lays it out. -/
structure AreaHolds (s t : State) (c a reason : Nat) : Prop where
  pc : homeWord t a = (s.ctx c).pc
  gti : homeWord t (a + 0x08) = gtiOf (s.ctx c)
  flags : homeWord t (a + 0x10) = (s.ctx c).flags.setWidth 64
  round : homeWord t (a + 0x18) = nat64 (s.ctx c).round.code
  cause : homeWord t (a + 0x28) = (s.ctx c).ktrap.cause.setWidth 64
  val : homeWord t (a + 0x30) = (s.ctx c).ktrap.val
  trapPc : homeWord t (a + 0x38) = (s.ctx c).ktrap.pc
  aux : homeWord t (a + 0x40) = (s.ctx c).ktrap.aux
  reason : homeWord t (a + 0x48) = nat64 reason
  pend : homeWord t (a + 0x50) = (((s.ctx c).pend.head?.map Trap.cause).getD 0).setWidth 64
  core : homeWord t (a + 0x58) = (coreWord s (s.ctx c).ident (coreOf c)).setWidth 64
  latch : homeWord t (a + 0x60) = (s.ctx c).latch.setWidth 64
  masks : homeWord t (a + 0x70) = (s.ctx c).mbxmask.setWidth 64 ||| ((s.ctx c).pmask.setWidth 64 <<< 32)
  issued : ∀ j, j < 8 → homeWord t (a + 0x80 + 8 * j) = nat64 (s.tline (tlOwner s c) j).count
  done : ∀ j, j < 8 → homeWord t (a + 0x680 + 8 * j) = nat64 (s.tline (tlOwner s c) j).done
  general : ∀ j, j < 64 → ofBytes (homeBytes t (a + 0x100 + 16 * j) 16) = ((s.ctx c).reg (BitVec.ofNat 6 j)).bits.toNat ∧
    homeTag t (a + 0x100 + 16 * j) = ((s.ctx c).reg (BitVec.ofNat 6 j)).tag
  preds : ∀ j, j < 16 → homeWord t (a + 0x600 + 8 * j) = (s.ctx c).pred (BitVec.ofNat 4 j)
  vectors : ∀ j, j < 32 → ofBytes (homeBytes t (a + 0x800 + 256 * j) 256) = ((s.ctx c).vreg (BitVec.ofNat 5 j)).toNat

/-- A context can leave now: its older work is done, its area is free, may be written and is plain storage, and its
words have room in the ring (R232, R237, R407). It is on no pair and holds no claim. -/
structure LeaveTurn (s : State) (c : Nat) (t : Task) (idx : Nat) : Prop where
  real : isContext c = true
  drained : drained s c = true
  lone : (s.core (coreOf c)).bridle = none
  task : (s.ctx c).task = some t
  area : freeArea s (dieOf c) (s.ctx c).ident.vf.toNat = some idx
  items : holdsClaims s c = false
  allowed : areaAllowed s c (areaPa s c idx) 0 = true
  plain : PlainHbm s (areaPa s c idx) 0x2800
  ring : kindOf c = .compute → (s.core (coreOf c)).spill.length + (heldWords s c).length ≤ 256
  tags : s.ctags.Nodup

/-- The task as its die keeps it once its context has let it go. -/
def savedTask (s : State) (c idx : Nat) (t : Task) (w : Option Wait) : Task :=
  { t with
    save := some (areaPa s c idx, dieOf c, idx), pend := (s.ctx c).pend.drop 1, low := (s.ctx c).pend.head?
    oflags := (s.ctx c).oflags, wait := w, waitCore := coreOf c, passes := 0, promoted := false }

/-- What every switch-out leaves: the area holds the context and is used, the context is free, no other byte of memory
but of a scratchpad changes, and no other context but one that waits for a migration. -/
structure Left (s t : State) (c idx reason : Nat) : Prop where
  area : AreaHolds s t c (areaPa s c idx) reason
  free : (t.ctx c).run = .free ∧ (t.ctx c).task = none
  used : idx ∈ (Sparse.get {} (t.die (dieOf c)).pools (s.ctx c).ident.vf.toNat : Pool).used
  bytes : ∀ x, x < 2 ^ 52 → (∀ j, j < 0x2800 → x ≠ areaPa s c idx + j) → byteAt t x = byteAt s x
  others : ∀ e, e ≠ c → (∀ g n, (s.ctx e).run ≠ .blocked (.migrate g) n) → t.ctx e = s.ctx e

/-- A context may be parked (R253): blocked for 4096 cycles in nothing that awaits a reply, with a free area, no trap
and no request pending. -/
structure LongBlocked (s : State) (c : Nat) (w : Wait) : Prop where
  run : ∃ t0, (s.ctx c).run = .blocked w t0 ∧ 4096 * 1000 ≤ (s.time.toNat - t0) * clockMhz s (dieOf c)
  may : stoppable s c = true
  calm : (s.ctx c).pend = [] ∧ (s.ctx c).request = none ∧ (s.ctx c).outst = 0

/-- The waits of R253 that end a park at once and those that never park. -/
def Wait.parks : Wait → Bool
  | .mwait | .phaser .. | .channel => true
  | _ => false
def Wait.staysPut : Wait → Bool
  | .mailboxAck | .amsgAccept | .amoReply | .custody | .beacon => true
  | _ => false

/-- A context has a task's saved registers again (R236): those of the area, the latch with its low bits set and those that
have come meanwhile (R253). -/
structure Restored' (s t : State) (c a : Nat) (k : Task) : Prop where
  pc : (t.ctx c).pc = homeWord s a
  flags : (t.ctx c).flags = (homeWord s (a + 0x10)).setWidth 6
  trap : (t.ctx c).ktrap = { cause := (homeWord s (a + 0x28)).setWidth 8, val := homeWord s (a + 0x30)
                             pc := homeWord s (a + 0x38), aux := homeWord s (a + 0x40) }
  latch : (t.ctx c).latch = (homeWord s (a + 0x60)).setWidth 5 ||| 0x07 ||| k.woken
  masks : (t.ctx c).mbxmask = (homeWord s (a + 0x70)).setWidth 32 ∧ (t.ctx c).pmask = (homeWord s (a + 0x70)).extractLsb' 32 4
  general : ∀ j : BitVec 6, j ≠ 0 → (t.ctx c).reg j =
    Reg.ofCap (BitVec.ofNat 128 (ofBytes (homeBytes s (a + 0x100 + 16 * j.toNat) 16))) (homeTag s (a + 0x100 + 16 * j.toNat))
  preds : ∀ j : BitVec 4, j ≠ 0 → (t.ctx c).pred j = homeWord s (a + 0x600 + 8 * j.toNat)
  vectors : ∀ j : BitVec 5, (t.ctx c).vreg j = BitVec.ofNat 2048 (ofBytes (homeBytes s (a + 0x800 + 256 * j.toNat) 256))

/-- A context that has just been given work: running at an entry, with general registers from g1 on set and every other
register at R149's value. -/
structure Started (t : State) (c : Nat) (pc : Word) (level : Level) (i : Ident) (regs : List Reg) : Prop where
  run : (t.ctx c).run = .running
  pc : (t.ctx c).pc = pc
  level : (t.ctx c).level = level
  ident : (t.ctx c).ident = i
  latch : (t.ctx c).latch = 0x07
  general : ∀ j : BitVec 6, j ≠ 0 → (t.ctx c).reg j = (regs[j.toNat - 1]?).getD {}
  vectors : (t.ctx c).v = []
  preds : (t.ctx c).p = []
  plain : (t.ctx c).flags = 0 ∧ (t.ctx c).round = .rne ∧ (t.ctx c).lob = [] ∧ (t.ctx c).pend = [] ∧ (t.ctx c).mbxmask = 0 ∧ (t.ctx c).pmask = 0

/-- The six argument registers of a task (R247). -/
def argRegs6 (t : Task) : List Reg := (t.args ++ List.replicate 6 (Reg.ofWord 0)).take 6

/-- The tiles over the table entries a walk reads are written back first (R319). -/
def State.walked (s : State) (c : Nat) (r : WalkReq) : State := walkReads s (s.ctx c).ident r.va

/-- A walk is due at a context, and no home holds the frame of an entry it reads and no entry's tag fails (R281,
R289, R451). -/
structure WalkTurn (s : State) (c : Nat) (r : WalkReq) : Prop where
  here : (s.ctx c).walk = some r
  waits : ∃ n, (s.ctx c).run = .blocked .walk n
  free : ∀ a ∈ walkOf s (s.ctx c).ident r.va, frameHeld s a = false
  sealed : badLine s ((walkOf s (s.ctx c).ident r.va).map fun a => a / 128 * 128) = none

/-! The Tender, pairs and errors (R241, R242, R266 to R268, R285 to R289, R450). -/

/-- A pair's interval can be undone (R161, R241). -/
structure PairTurn (s : State) (k : Nat) (b : Bridle) : Prop where
  pair : (s.core k).bridle = some b
  can : canRoll s k b = true
  own : ∀ r ∈ b.ckpt, coreOf r.c = k
  apart : (b.ckpt.map (·.c)).Nodup

/-- A context stands at its copy again (R241). -/
structure RolledBack (s t : State) (r : RegCopy) : Prop where
  general : (t.ctx r.c).g = r.g ∧ (t.ctx r.c).v = r.v ∧ (t.ctx r.c).p = r.p
  pc : (t.ctx r.c).pc = r.pc
  flags : (t.ctx r.c).flags = r.flags ∧ (t.ctx r.c).round = r.round ∧ (t.ctx r.c).ktrap = r.ktrap ∧ (t.ctx r.c).ctrap = r.ctrap
  lob : (t.ctx r.c).lob = (s.ctx r.c).lob.filter fun e => decide (e.id < r.next)
  queue : (t.ctx r.c).vq = [] ∧ (t.ctx r.c).walk = none ∧ (t.ctx r.c).held = none

/-- A hold opened for a read of a line for a context (R287, R289). -/
def openedHold (s : State) (pa c : Nat) (kernel : Bool) : Hold :=
  { tag := freeTag s, frame := pa / 65536, line := pa / 128, since := s.time.toNat, kernel := kernel, die := dieOf c
    part := entPart (entry0 s (pa / 65536)), vf := entVf (entry0 s (pa / 65536)), world := entOwner (entry0 s (pa / 65536)), c := c }

/-- A line of HBM is poisoned where it lies. -/
def Poisons (t : State) (pa : Nat) : Prop := ∀ a, loc t pa = some a → t.poison.contains (a / 128) = true

/-- What closing a die off leaves: those concerned record it, its acknowledgements count as received, DIECTL says
lost (R282, R285). -/
structure ClosedOff (s t : State) (die : Nat) (last : BitVec 4) : Prop where
  state : t.dieCtl die = { s.dieCtl die with state := 3, reason := 0 }
  lost : ∀ d, d < 10 → d ≠ die → (10 ≤ die ∨ ∃ p, p < 16 ∧ dieInPart s die p = true ∧ dieInPart s d p = true) →
    (t.die d).lost = (s.die d).lost ||| (1 <<< die) ∧ (t.die d).last = last
  acks : ∀ v ∈ t.invals, die ∉ v.waiting
  bytes : SameBytes s t
  poison : ∀ l ∈ s.poison, l ∈ t.poison

/-- The credit of a virtual function on a die in 1/64 ns (R267). -/
def creditOf (s : State) (die p v : Nat) : Int := Sparse.get 0 (s.die die).credit (p * 16 + v)

/-- What a microsecond adds to it: SHARE for each service context, scaled where the SHAREs add up to more than 64. -/
def microCredit (share contexts sum : Nat) : Nat :=
  if 64 < sum then share * 1000 * contexts * 64 / sum else share * 1000 * contexts

/-- The requests waiting for a virtual function on a die (R259). -/
def requests (s : State) (die p v : Nat) : List Service := Sparse.get [] (s.die die).service (p * 16 + v)

/-! Links, the Beacon plane and the custody record (R283, R284, R412 to R419, R436 to R440, R450). -/

/-- An entrant beats another in a frame (R415, R416): the greater key, then the lower v of its die, then the lower
core and context. -/
def Outranks (rotv : Nat) (a b : Entrant) : Prop :=
  b.key.toNat < a.key.toNat ∨ (a.key = b.key ∧
    ((dieOf a.c + 10 - rotv) % 10 < (dieOf b.c + 10 - rotv) % 10 ∨
      ((dieOf a.c + 10 - rotv) % 10 = (dieOf b.c + 10 - rotv) % 10 ∧ a.c ≤ b.c)))

/-- The context of an entrant or listener waits for its result, in the occupancy that sent it (R417, R425, R449). -/
def AwaitsResult (s : State) (e : Entrant) : Prop :=
  e.mute = false ∧ (s.ctx e.c).sent = true ∧ (s.ctx e.c).set = e.set ∧ ∃ n, (s.ctx e.c).run = .blocked (if e.listen then .listen else .beacon) n

/-- A frame's result word has R417's fields. -/
structure ResultWord (s : State) (l : Lane) (r : FrameRes) (late won : Bool) (w : Word) : Prop where
  key : w.extractLsb' 32 32 = r.key
  die : (w.extractLsb' 27 5).toNat = logDie s l.part.toNat r.die
  tag : w.extractLsb' 15 12 = r.tag
  low : w.extractLsb' 3 12 = 0 ∧ w.getLsbD 2 = late ∧ w.getLsbD 1 = won ∧ w.getLsbD 0 = true

/-- An entry of a frame as R429 has it. -/
structure EntryIs (s : State) (frame : Nat) (st : Nat) (part : BitVec 8) (vf : BitVec 4) (owner : Bool) (gen : BitVec 16)
    (limit : Nat) (deadline : Word) : Prop where
  state : entState (entry0 s frame) = st
  holder : entPart (entry0 s frame) = part ∧ entVf (entry0 s frame) = vf ∧ entOwner (entry0 s frame) = owner
  gen : entGen (entry0 s frame) = gen
  limit : (entLimit (entry0 s frame)).toNat = limit
  deadline : entry1 s frame = deadline

/-- The deadline of a recalled frame has come (R439). -/
structure DeadlinePast (s : State) (frame : Nat) : Prop where
  named : frameNamed s frame = true
  recalling : entState (entry0 s frame) = 4
  free : revokeOf s frame = none
  past : (entry1 s frame).toNat ≤ s.time.toNat

/-! Partitions, requests of registers and the safe tier (R237, R243, R428, R443 to R457, R469, R476 to R479). -/

/-- A request to stop a task that runs at a context (R222, R238): bit 4 of its latch, and a REASON. -/
structure Requested (s t : State) (c reason : Nat) : Prop where
  whole : t = { s with ctxs := t.ctxs }
  others : ∀ e, e ≠ c → t.ctx e = s.ctx e
  own : t.ctx c = { s.ctx c with request := some ((s.ctx c).request.getD reason), latch := (s.ctx c).latch ||| 0x10 }

/-- A context that issues or is blocked, so that a request finds it. -/
def Resident (s : State) (c : Nat) : Prop := (s.ctx c).run = .running ∨ ∃ w n, (s.ctx c).run = .blocked w n

/-- Nothing of a virtual function is left on a die's scheduler (R449 step 3). -/
structure Emptied (t : State) (d k v : Nat) : Prop where
  ready : ∀ x ∈ (t.die d).ready, ofVf k v x.ident = false
  parked : ∀ x ∈ (t.die d).parked, ofVf k v x.ident = false
  pending : ∀ x ∈ (t.die d).pending, ofVf k v x.2.ident = false
  stopped : ∀ x ∈ (t.die d).stopped, ofVf k v x.ident = false
  conts : ∀ x ∈ (t.die d).conts, ofVf k v x.ident = false
  handlers : ∀ x ∈ (t.die d).handlers, ofVf k v x.ident = false

/-- KSUB's fields (R452). -/
def ksubOwner (w : Word) : Nat := (w.extractLsb' 62 2).toNat
def ksubPart (w : Word) : Nat := (w.extractLsb' 52 8).toNat
def ksubAddr (w : Word) : Nat := (w.extractLsb' 0 52).toNat

/-- What KSTAT says, and nothing else changes (R452). -/
def Refused (s t : State) (w : Word) (r : BitVec 4) : Prop :=
  t = { s with sec := { s.sec with kstatPart := BitVec.ofNat 8 (ksubPart w), kstatRes := r } }

/-- A partition R452 takes a share for. -/
def TakesShares (s : State) (w : Word) : Prop :=
  ksubPart w < 16 ∧ (s.part (ksubPart w)).en = true ∧ (s.part (ksubPart w)).joint = true ∧ (s.part (ksubPart w)).ready = false

/-- The address of a register in a die's control window (R269, R271). -/
def windowPa (die off : Nat) : Nat := 3 * 2 ^ 48 + die * 2 ^ 32 + off

/-- A context that a save asks to stop (R476 step 1). -/
def AsksToStop (s : State) (c : Nat) : Prop :=
  (s.ctx c).run ≠ .free ∧ (∀ r, (s.ctx c).run ≠ .leaving r) ∧ (s.ctx c).run ≠ .halted ∧ (s.ctx c).level ≠ .custodian ∧ (s.ctx c).task.isSome = true

/-! The outside and power (R459 to R465, R470, R477, R480). -/

/-- A host die (R15). -/
def IsHost (die : Nat) : Prop := die = 8 ∨ die = 9

/-- R462's limit for the next 10 µs, in whole GB/s, and never below an eighth of RLIM. -/
def loadLimit (rlim cur load : Nat) : Nat :=
  if rlim = 0 then cur
  else if load = 0 then rlim
  else if load = 1 then cur
  else if load = 2 then max (cur * 3 / 4) ((rlim + 7) / 8)
  else max (cur / 2) ((rlim + 7) / 8)

/-- The record of a collective (R465). -/
structure WacRecord (t : State) (pa : Nat) (round : Word) (mask counted dropped status : Nat) : Prop where
  round : homeWord t pa = round
  mask : homeWord t (pa + 8) = nat64 mask
  counts : homeWord t (pa + 16) = nat64 (counted % 2 ^ 32 + 2 ^ 32 * dropped)
  status : homeWord t (pa + 24) = nat64 status

/-- Two ranges of memory apart from each other. -/
def Apart (a n b m : Nat) : Prop := a + n ≤ b ∨ b + m ≤ a

/-- The end of a round at a host die: the sum in BUF, the record with status 1, the collective gone (R465). -/
structure RoundEnds (t : State) (die k : Nat) (x : Collective) (sum : List (BitVec 32)) (mask : List Nat) (dropped : Nat) : Prop where
  sums : homeBytes t x.buf (4 * sum.length) = sum.flatMap fun v => toBytes 4 v.toNat
  record : WacRecord t x.result x.round ((mask.map fun m => 2 ^ m).foldl (· + ·) 0) mask.length dropped 1
  gone : wacAt t die k = none

/-- Where a round's sum and record go is plain storage, apart from each other. -/
structure WacPlain (s : State) (x : Collective) (n : Nat) : Prop where
  buf : PlainHbm s x.buf (4 * n)
  record : PlainHbm s x.result 32
  apart : Apart x.buf (4 * n) x.result 32

/-- A contribution that counts (R465). -/
structure Counts (s : State) (die k member : Nat) (round : Word) (x : Collective) : Prop where
  runs : wacAt s die k = some x
  early : s.time.toNat < x.start + x.bound * 1000000
  round : round = x.round
  counted : member < x.nmem ∧ member ∉ x.mask ∧ member ∉ x.dropped
  session : (sessOf s die (x.sessions.getD member 0xFFFF)).state = 2

/-- Element by element, the sum with a contribution rounded to FP32 (R465). -/
def addAll (sum v : List (BitVec 32)) : List (BitVec 32) :=
  (sum.zip v).map fun e => BitVec.ofNat 32 (addF32 .rne e.1.toNat e.2.toNat).1

/-- A descriptor's fields (R464). -/
def wacField (s : State) (pa o n : Nat) : Nat := ofBytes (homeBytes s (pa + o) n)

/-- A descriptor is well formed (R464). -/
structure WacWellFormed (s : State) (pa : Nat) : Prop where
  wire : wacField s pa 0 1 ∈ [0x08, 0x09, 0x11, 0x12]
  members : 2 ≤ wacField s pa 1 1 ∧ wacField s pa 1 1 ≤ 64 ∧ wacField s pa 2 1 < wacField s pa 1 1
  bound : 1 ≤ wacField s pa 4 4 ∧ wacField s pa 4 4 ≤ 600000
  count : 1 ≤ wacField s pa 0x18 4 ∧ wacField s pa 0x18 4 ≤ 2 ^ 24
  blocks : (wacField s pa 0 1 = 0x11 → wacField s pa 0x18 4 % 64 = 0) ∧ (wacField s pa 0 1 = 0x12 → wacField s pa 0x18 4 % 32 = 0)

/-- The place of a trace buffer's record (R469, R470). -/
def traceSize (p : Partition) : Nat := (p.trcbase.extractLsb' 58 6).toNat
def tracePa (p : Partition) : Nat := (p.trcbase.extractLsb' 12 40).toNat * 4096 + 32 * (p.trcnext % 2 ^ traceSize p)

end Sys2Proof.Machine
end

