-- ==== Sys2Proof/Certificates/Slice0/Obligations.lean ====
section
/-! DEFINITION. The statements for the provers. -/

open Sys2Proof Sys2Proof.Machine

/-- In the state after reset: the time base is 0; every general register of every context is untagged zero and every
FLAGS register, CLFLAGS register and event counter is zero; every bank is in cache mode; every DIECTL reads STATE 0,
REASON 0, STOPPC 0; no compute die and no host core belongs to a partition; no partition is enabled; no custody
record is installed; no lane is bound; memory has its canonical form and no write is left over, the invariant that
StepKeepsMemory keeps. That memory reads zero everywhere, and that the general registers and FLAGS hold zero before
a task is dispatched, is the model's own choice, which the assumption log names. -/
def Obligations.ResetValues : Prop :=
  State.reset.time = 0 ∧ (∀ c i, (State.reset.ctx c).reg i = {}) ∧ (∀ c, (State.reset.ctx c).flags = 0) ∧
  (∀ d n, Sparse.get 0 (State.reset.die d).clflags n = 0) ∧ (∀ k n, Sparse.get 0 (State.reset.core k).evc n = 0) ∧
  (∀ cl b, bankMode State.reset cl b = .cache) ∧
  (∀ p, (State.reset.dieCtl p).state = 0 ∧ (State.reset.dieCtl p).reason = 0 ∧ (State.reset.dieCtl p).stoppc = 0) ∧
  (∀ k, partOfCore State.reset k = 0xFF) ∧ (∀ p, (State.reset.part p).en = false) ∧
  (∀ k, (State.reset.base k).custEn = false) ∧ (∀ l, (State.reset.lane l).bound = false) ∧
  ∀ a, byteAt State.reset a = 0 ∧
  Memory.wf State.reset.mem = true ∧ State.reset.writes = []

/-- For every state whose memory has the canonical form and every step that answers a next state: the memory has the
canonical form again, no write of the step is left over, and the byte at every address is the last one the step
wrote there, or, where it wrote none, the byte that stood there before, whatever instruction, event or passing of
time the step was. -/
def Obligations.StepKeepsMemory : Prop :=
  ∀ s t, Memory.wf s.mem = true → step s = .next t →
    Memory.wf t.mem = true ∧ t.writes = [] ∧
    ∃ ws : List Host.Cell, ∀ a, Memory.read t.mem a =
      match ws.find? fun c => c.1 == a with
      | some c => c.2
      | none => Memory.read s.mem a

/-- When it is a context's turn and the context runs with nothing pending and past no unresolved branch: if its pc is a multiple of 4, its twelve
bytes lie in one page and are fetched, and they decode to an instruction i, the step is exec of i at that state with
the context acting, its writes put into memory; if they decode to nothing, the step takes cause 0x01 with the reason
and W2 once everything older has completed; a pc that is no multiple of 4 takes cause 0x03 with TRAPVAL the pc. At
custodian level the bytes fetched from populated, unpoisoned HBM that no frame hold and no lost die keeps, and whose
tags match, are those at the address itself. With an empty
agenda and no other agent able to move, the turn is the acting context's. -/
def Obligations.StepRunsDecoded : Prop :=
  (∀ (s : State) (c : Nat) (r : List Turn), s.agenda = .issue c :: r → isContext c = true →
    issues (s.ctx c).run = true → (s.ctx c).pend = [] → (s.ctx c).request = none → (s.ctx c).vq.length < 2 →
    (s.ctx c).spec = none →
    let u : State := { s with agenda := r, writes := [], cur := c }
    (∀ b i, (s.ctx c).pc.toNat % 4 = 0 → (s.ctx c).pc.toNat % 4096 ≤ 4084 → fetchPart u c (s.ctx c).pc 12 = .ok b →
      decodeBytes (kindOf c) b = .ok i → step s = commitOutcome s (exec i u)) ∧
    (∀ b e, (s.ctx c).pc.toNat % 4 = 0 → (s.ctx c).pc.toNat % 4096 ≤ 4084 → fetchPart u c (s.ctx c).pc 12 = .ok b →
      decodeBytes (kindOf c) b = .error e → settled u c = true →
      step s = .next (s.commit (takeTrap u c
        { cause := 0x01, val := BitVec.ofNat 64 (e.reason.toNat * 2 ^ 32 + ofBytes (b.take 4)) }))) ∧
    ((s.ctx c).pc.toNat % 4 ≠ 0 → settled u c = true →
      step s = .next (s.commit (takeTrap u c { cause := 0x03, val := (s.ctx c).pc })))) ∧
  (∀ (s : State) (c : Nat) (pc : Word), (s.ctx c).ident.custodian = true → isHbm pc.toNat = true →
    (∀ l ∈ lineAddrs pc.toNat 12, readHeld s c l = false ∧ poisoned s l = false ∧
      (s.die (dieOf c)).lost.getLsbD (homeDie s l) = false ∧ sealBad s l = false) →
    fetchPart s c pc 12 = .ok (homeBytes s pc.toNat 12)) ∧
  (∀ s : State, s.agenda = [] → s.up = true →
    (∀ i ∈ candidates { s with writes := [] }, moves { s with writes := [] } i = false) →
    step s = commitOutcome s (issue { s with writes := [] } s.cur))

/-- Built field by field as R36 lays the word out: ?!p1 add.i64 q7, g1, g2, g3, -1; mulh.n32 of g1 and g2 to a
remote mailbox m4 of the core in g9; cseal g1, g2, g3; br -1; st.n16 [g5 + 8], m3; csrw 0x20, g7; eret.kernel g30;
phwait g1, g2, g3; ?p3 vadd.f32 v31, v2, v3; bcent.nolate g1, g2, cid 0xABC decode to those instructions on a core
that has them; the first with the reserved hint bit set, eret on a compute core, and the phwait word with its VAR 1
decode to nothing, each with its reason. -/
def Obligations.SpecWordsDecode : Prop :=
  let h : Hdr := { guard := { neg := false, p := 0 }, hints := 0 }
  let zero : Fields := { opc := 0, var := 0, d := 0, a := 0, b := 0, g := 0, h := 0, x := 0 }
  let add : Fields := { zero with var := 0b000011, d := 0x77, a := 0x01, b := 0x02, g := 0b10001, x := 0x03#8 ++ 0x7FFFFFFFF#35 }
  let eret : Fields := { zero with opc := 0x084, var := 1, a := 0x1E }
  let phwait : Fields := { zero with opc := 0x147, d := 0x01, a := 0x02, b := 0x03 }
  decode .compute add.pack = .ok (.add { h := { guard := { neg := true, p := 1 }, hints := 0 }, ty := .i64, d := .q 7
                                         a := .g 1, b := .g 2, c := .g 3, imm := 0x7FFFFFFFF }) ∧
  decode .service (Fields.pack { zero with opc := 0x003, var := 0b000110, d := 0xC4, a := 0x01, b := 0x02, x := 0x09#8 ++ 0#35 })
    = .ok (.mulh { h := h, ty := .n32, d := .xm 4 9, a := .g 1, b := .g 2, imm := 0 }) ∧
  decode .host (Fields.pack { zero with opc := 0x022, d := 0x01, a := 0x02, b := 0x03 })
    = .ok (.cseal { h := h, d := 1, a := 2, b := 3 }) ∧
  decode .compute (Fields.pack { zero with opc := 0x030, x := 0x7FFFFFFFFFF }) = .ok (.br { h := h, imm := -1 }) ∧
  decode .service (Fields.pack { zero with opc := 0x061, var := 0b000101, a := 0x05, b := 0x83, x := 8 })
    = .ok (.st { h := h, ty := .n16, a := 5, b := .m 3, off := 8 }) ∧
  decode .host (Fields.pack { zero with opc := 0x082, a := 0x07, x := 0x20 }) = .ok (.csrw { h := h, a := .g 7, num := 0x20 }) ∧
  decode .service eret.pack = .ok (.eret { h := h, kern := true, a := 30 }) ∧
  decode .compute phwait.pack = .ok (.phwait { h := h, d := .g 1, a := .g 2, b := .g 3 }) ∧
  decode .compute (Fields.pack { zero with opc := 0x200, var := 0x08, d := 0x5F, a := 0x42, b := 0x43, g := 0b00011 })
    = .ok (.vadd { h := { guard := { neg := false, p := 3 }, hints := 0 }, sat := false, ty := .f32, d := 31, a := 2, b := 3 }) ∧
  decode .compute (Fields.pack { zero with opc := 0x380, var := 1, d := 0x01, b := 0x02, x := 0xABC })
    = .ok (.bcent { h := h, nolate := true, d := .g 1, b := .g 2, cid := 0xABC }) ∧
  decode .compute (Fields.pack { add with h := 0x01 }) = .error .nonzeroReserved ∧
  decode .compute eret.pack = .error .wrongKind ∧
  decode .compute (Fields.pack { phwait with var := 1 }) = .error .undefinedVar

/-- For every instruction of the opcode table that has a word and every value its fields admit: decoding its encoded
word, on a core kind that has it, gives the instruction itself, with every operand, type, variant, guard, hint and
immediate; and so do the word's twelve bytes as they lie in memory. -/
def Obligations.EncodeDecode : Prop :=
  ∀ i : Instr, i.isWord = true → i.wellFormed = true →
    decode i.kindFor (encode i) = .ok i ∧ decodeBytes i.kindFor (bytesOf (encode i)) = .ok i

/-- In every state of a context, g0 reads untagged zero and p0 reads all ones; a write of g0 or p0 leaves the
context as it was; a write of any other register changes what that register reads, to what was written, and no
other. -/
def Obligations.HardWiredRegisters : Prop :=
  ∀ x : Context, x.reg 0 = {} ∧ x.pred 0 = BitVec.allOnes 64 ∧ (∀ r, x.setReg 0 r = x) ∧ (∀ w, x.setPred 0 w = x) ∧
    (∀ i j r, i ≠ 0 → (x.setReg i r).reg j = if i = j then r else x.reg j) ∧
    (∀ i j w, i ≠ 0 → (x.setPred i w).pred j = if i = j then w else x.pred j)

/-- For every ADD, SUB, MUL, MULH, DIV, REM, AND, OR, XOR and ANDN, whatever its type, sources and destination, and every
state in which nothing stands before it and its operands are there, exec answers a next state that holds the result
computed at the type's width from A, Y and C (wrapping, extended under the type; MULH the upper half of the exact
product, DIV the quotient truncated toward zero, REM the remainder with the dividend's sign, a divisor of zero all
ones and the dividend, the most negative value by minus one itself and zero), raises no flag, takes no trap, consumes
the sources, moves the pc past the instruction and leaves every other register, flag, core, context and byte of memory
as it was. A result for a remote mailbox is on its way instead, and the context waits for its acknowledgement.
Complete here: add, sub, mul, mulh, div, rem, and, or, xor, andn. -/
def Obligations.ArithmeticResults : Prop :=
  (∀ i f, arithForm i = some f → f.Completes i) ∧ ∀ i f, divideForm i = some f → f.Completes i

/-- For every SHL, SHR, SAR, ROT, MIN, MAX, CLZ, POPC, SEL, MOVI and MOVHI and every state in which nothing stands before
it and its operands are there, exec answers a next state with the w-bit pattern of A shifted or rotated by Y mod 2^64,
R171's results for counts of w and more, R172's lesser or greater value, R173's counts as unsigned 64-bit values,
R175's selected value (both sources read whichever is selected), or R176's constants; everything else as before.
Complete here: shl, shr, sar, rot, clz, popc, min, max, sel, movi, movhi. -/
def Obligations.ShiftAndSelectionResults : Prop :=
  (∀ i f, shiftForm i = some f → f.Completes i) ∧ ∀ i f, selectForm i = some f → f.Completes i

/-- For every FADD, FSUB, FMUL, FDIV, FFMA, FSQRT and FCVT, whatever its type, sources and destination, and every state in
which nothing stands before it and its operands are there, exec answers a next state whose destination holds the
result of the format's one rounding under the context's ROUND, whose FLAGS gain exactly the flags that result raises
(the die's cluster register too, on a compute core), and in which everything else is as before. Complete here: fadd,
fsub, fmul, ffma, fdiv, fsqrt, fcvt. -/
def Obligations.FloatingPointResults : Prop := ∀ i f, fpForm i = some f → f.Completes i

/-- For every CMP, FCMP and CTEST and every state in which nothing stands before it and its operands are there, exec
answers a next state whose predicate is all ones if R174's, R198's or R185's condition holds and zero if not (a write
of p0 is discarded), with FCMP's flags raised, the sources consumed, and everything else as before. Complete here:
cmp, fcmp, ctest. -/
def Obligations.PredicateResults : Prop := ∀ i f, predForm i = some f → f.Completes i

/-- When the operands are there and pass R178's checks and the entry's own, CSETP ands the permissions, CADD moves the
cursor and keeps the tag exactly while the cursor stays representable (and adds without a check when A is untagged),
CKEY replaces the key, CSEAL and CUNSEAL set and clear the seal under the authority B, CGET writes the field named,
untagged; each retires, writes its destination alone (g0 discards it), and leaves everything else as before. Complete
here: csetp, cadd, ckey, cseal, cunseal, cget. -/
def Obligations.CapabilityResults : Prop :=
  (∀ (o : CapImm) s, Clear s o.h → On s o.h → Known s [o.a] → Ready s [o.b] (some (.g o.d)) →
    (Sound ((s.ctx s.cur).reg o.a) → ∃ t, exec (.csetp o) s = .next t ∧ Retired s t [o.b] s.after (putReg o.d
      (((s.ctx s.cur).reg o.a).withPerm (((s.ctx s.cur).reg o.a).cap.perm &&& (secondWord s o.b o.imm).setWidth 12)))) ∧
    (Sound ((s.ctx s.cur).reg o.a) → ((s.ctx s.cur).reg o.a).cap.perm &&& permSys = permSys → ∃ t,
      exec (.ckey o) s = .next t ∧ Retired s t [o.b] s.after (putReg o.d
        (((s.ctx s.cur).reg o.a).withKey ((secondWord s o.b o.imm).setWidth 4)))) ∧
    (Sound ((s.ctx s.cur).reg o.a) ∨ ((s.ctx s.cur).reg o.a).tag = false → ∃ t,
      exec (.cadd o) s = .next t ∧ Retired s t [o.b] s.after (putReg o.d
        (moved ((s.ctx s.cur).reg o.a) ((s.ctx s.cur).low o.a + secondWord s o.b o.imm))))) ∧
  (∀ (o : CapAuth) s, Clear s o.h → On s o.h → Known s [o.a, o.b, o.d] →
    (Sound ((s.ctx s.cur).reg o.a) → Authority ((s.ctx s.cur).reg o.b) permSeal →
      1 ≤ ((s.ctx s.cur).reg o.b).cap.addr → ((s.ctx s.cur).reg o.b).cap.addr ≤ 15 → ∃ t,
      exec (.cseal o) s = .next t ∧ Retired s t [] s.after (putReg o.d
        (((s.ctx s.cur).reg o.a).withSeal (BitVec.ofNat 4 ((s.ctx s.cur).reg o.b).cap.addr)))) ∧
    (((s.ctx s.cur).reg o.a).tag = true → ((s.ctx s.cur).reg o.a).cap.bad = false →
      Authority ((s.ctx s.cur).reg o.b) permUnseal → ((s.ctx s.cur).reg o.a).cap.styp ≠ 0 →
      ((s.ctx s.cur).reg o.a).cap.styp.toNat = ((s.ctx s.cur).reg o.b).cap.addr → ∃ t,
      exec (.cunseal o) s = .next t ∧ Retired s t [] s.after (putReg o.d (((s.ctx s.cur).reg o.a).withSeal 0)))) ∧
  (∀ o : CgetOps, (capReads o).Completes (.cget o))

/-- When A is sound and R179's conditions hold at the least exponent E, CSETB retires with a tagged register whose bounds,
decoded under R154, are exactly the rounded base and top at E, inside A's bounds, with A's cursor, permissions, seal
and key. And whatever CSETB, CSETP or CADD writes from a sound A: if the result is tagged, its bounds lie in A's, and
its permissions are among A's. Complete here: csetb. -/
def Obligations.BoundsOnlyNarrow : Prop :=
  (∀ (o : CsetbOps) s e, Clear s o.h → On s o.h → Known s [o.a] → Ready s [o.b] (some (.g o.d)) →
    Sound ((s.ctx s.cur).reg o.a) →
    Narrows o.exact ((s.ctx s.cur).reg o.a).cap (secondWord s o.b o.imm).toNat e →
    ∃ t r, exec (.csetb o) s = .next t ∧ Retired s t [o.b] s.after (putReg o.d r) ∧
      Narrowed ((s.ctx s.cur).reg o.a) r (secondWord s o.b o.imm).toNat e) ∧
  (∀ (g r : Reg) (x : Bool) (a : BitVec 6) (y : Word), Sound g → (setBounds x a g y = .ok r ∨
      r = g.withPerm (g.cap.perm &&& y.setWidth 12) ∨ r = moved g y) → r.tag = true →
    r.cap.bad = false ∧ g.cap.base ≤ r.cap.base ∧ r.cap.top ≤ g.cap.top ∧ r.cap.perm &&& ~~~ g.cap.perm = 0)

/-- For CSETP and CKEY at a context whose older work has completed: an untagged A traps with cause 0x04; a malformed
one with 0x08; a sealed one with 0x07; for CKEY, one without the sys permission with 0x06; each only when the
earlier checks pass, TRAPVAL the cursor, TRAPAUX the permission needed and the register's number, and the
destination not written: the state answered is that of taking the trap. -/
def Obligations.CapabilityChecksInOrder : Prop :=
  ∀ (o : CapImm) s, Clear s o.h → On s o.h → Known s [o.a] → Ready s [o.b] (some (.g o.d)) →
    settled s s.cur = true →
    let g := (s.ctx s.cur).reg o.a
    let trap (cause : BitVec 8) (perm : Nat) : Host.Outcome State Fault Refusal :=
      .next (takeTrap s s.cur { cause := cause, val := (s.ctx s.cur).low o.a, aux := BitVec.ofNat 64 (perm * 256 + o.a.toNat) })
    (g.tag = false → exec (.csetp o) s = trap 0x04 0 ∧ exec (.ckey o) s = trap 0x04 0x400) ∧
    (g.tag = true → g.cap.bad = true → exec (.csetp o) s = trap 0x08 0 ∧ exec (.ckey o) s = trap 0x08 0x400) ∧
    (g.tag = true → g.cap.bad = false → g.cap.styp ≠ 0 →
      exec (.csetp o) s = trap 0x07 0 ∧ exec (.ckey o) s = trap 0x07 0x400) ∧
    (Sound g → g.cap.perm.getLsbD 10 = false → exec (.ckey o) s = trap 0x06 0x400)

/-- For every BR, BRC, CALL, RET, JMPI and LOOP and every state in which nothing stands before it and its operands are
there, exec answers a next state whose pc is the target of the rule (a displacement counts 4-byte units from the
instruction's own address), with the return address or the new count, untagged, in D (g0 discards it), BRC's sources
read whether or not it branches, and everything else as before. Complete here: br, brc, call, ret, jmpi, loop. -/
def Obligations.ControlTransfers : Prop :=
  (∀ (o : ImmOps) s, Clear s o.h → On s o.h → ∃ t, exec (.br o) s = .next t ∧
    Retired s t [] ((s.ctx s.cur).goesOn ((s.ctx s.cur).pc + 4 * o.imm.signExtend 64)) putNone) ∧
  (∀ (o : BrcOps) s, Clear s o.h → On s o.h → Ready s [o.a, o.b] none → ∃ t, exec (.brc o) s = .next t ∧
    Retired s t [o.a, o.b] ((s.ctx s.cur).goesOn (if condHolds o.cond o.ty.signed
        (lowBits o.ty (srcWord s [] o.a)) (lowBits o.ty (srcWord s [o.a] o.b))
      then (s.ctx s.cur).pc + 4 * o.disp.signExtend 64 else (s.ctx s.cur).pc + 12)) putNone) ∧
  (∀ (o : CallOps) s, Clear s o.h → On s o.h → Known s [o.d] → ∃ t, exec (.call o) s = .next t ∧
    Retired s t [] ((s.ctx s.cur).goesOn ((s.ctx s.cur).pc + 4 * o.disp.signExtend 64))
      (putReg o.d (Reg.ofWord ((s.ctx s.cur).pc + 12)))) ∧
  (∀ (o : OneG) s, Clear s o.h → On s o.h → Known s [o.a] → ∃ t, exec (.ret o) s = .next t ∧
    Retired s t [] ((s.ctx s.cur).goesOn ((s.ctx s.cur).low o.a)) putNone) ∧
  (∀ (o : JmpiOps) s, Clear s o.h → On s o.h → Known s [o.a, o.d] → ∃ t, exec (.jmpi o) s = .next t ∧
    Retired s t [] ((s.ctx s.cur).goesOn ((s.ctx s.cur).low o.a)) (putReg o.d (Reg.ofWord ((s.ctx s.cur).pc + 12)))) ∧
  (∀ (o : LoopOps) s, Clear s o.h → On s o.h → Known s [o.a, o.d] → ∃ t, exec (.loop o) s = .next t ∧
    Retired s t [] ((s.ctx s.cur).goesOn (if 1 < ((s.ctx s.cur).low o.a).toNat
        then (s.ctx s.cur).pc + 4 * o.disp.signExtend 64 else (s.ctx s.cur).pc + 12))
      (putReg o.d (Reg.ofWord (if (s.ctx s.cur).low o.a = 0 then 0 else (s.ctx s.cur).low o.a - 1))))

/-- For an access of n bytes through a general register at the effective address A + offset: an untagged register
raises 0x04, then a malformed capability 0x08, a sealed one 0x07, a missing permission 0x06, an address range
outside the bounds 0x05, each with TRAPVAL the effective address and TRAPAUX the permission and register; then a
misaligned address raises 0x0E with TRAPAUX zero; then a non-canonical address raises 0x23, and one that no cached
translation decides waits for a walk. A capability operand of an engine command fails the same five checks and its
alignment in the same order; a register still awaited waits; and one that passes all is granted. -/
def Obligations.AccessChecksInOrder : Prop :=
  (∀ (s : State) (r : BitVec 6) (off : Word) (q : Ask),
    let g := (s.ctx s.cur).reg r
    let ea := (s.ctx s.cur).low r + off
    let fails (cause : BitVec 8) (aux : Word) : Res Acc := .error (.trap { cause := cause, val := ea, aux := aux })
    let aux := BitVec.ofNat 64 (q.perm.toNat * 256 + r.toNat)
    let inside := g.cap.base ≤ ea.toNat ∧ ea.toNat + q.n ≤ g.cap.top
    (g.tag = false → access s s.cur r off q = fails 0x04 aux) ∧
    (g.tag = true → g.cap.bad = true → access s s.cur r off q = fails 0x08 aux) ∧
    (g.tag = true → g.cap.bad = false → g.cap.styp ≠ 0 → access s s.cur r off q = fails 0x07 aux) ∧
    (Sound g → g.cap.perm &&& q.perm ≠ q.perm → access s s.cur r off q = fails 0x06 aux) ∧
    (Sound g → g.cap.perm &&& q.perm = q.perm → ¬ inside → access s s.cur r off q = fails 0x05 aux) ∧
    (Sound g → g.cap.perm &&& q.perm = q.perm → inside → ea.toNat % q.align ≠ 0 →
      access s s.cur r off q = fails 0x0E 0) ∧
    (Sound g → g.cap.perm &&& q.perm = q.perm → inside → ea.toNat % q.align = 0 →
      (s.ctx s.cur).ident.custodian = false →
      (canonical ea = false → access s s.cur r off q = fails 0x23 (xlatAux 0xF q.kind)) ∧
      (canonical ea = true → tlbHit s s.cur ea q.kind = none →
        access s s.cur r off q = .error (.walk { va := ea, kind := q.kind })))) ∧
  (∀ (s : State) (r : BitVec 6) (perm : BitVec 12) (n m : Nat),
    let g := (s.ctx s.cur).reg r
    let ea := (s.ctx s.cur).low r
    let fails (cause : BitVec 8) (aux : Word) : Res Reg := .error (.trap { cause := cause, val := ea, aux := aux })
    let aux := BitVec.ofNat 64 (perm.toNat * 256 + r.toNat)
    let inside := g.cap.base ≤ ea.toNat ∧ ea.toNat + n ≤ g.cap.top
    ((s.ctx s.cur).pendG r = true → engineCap s s.cur r perm n m = .error .stall) ∧
    ((s.ctx s.cur).pendG r = false →
      (g.tag = false → engineCap s s.cur r perm n m = fails 0x04 aux) ∧
      (g.tag = true → g.cap.bad = true → engineCap s s.cur r perm n m = fails 0x08 aux) ∧
      (g.tag = true → g.cap.bad = false → g.cap.styp ≠ 0 → engineCap s s.cur r perm n m = fails 0x07 aux) ∧
      (Sound g → g.cap.perm &&& perm ≠ perm → engineCap s s.cur r perm n m = fails 0x06 aux) ∧
      (Sound g → g.cap.perm &&& perm = perm → ¬ inside → engineCap s s.cur r perm n m = fails 0x05 aux) ∧
      (Sound g → g.cap.perm &&& perm = perm → inside → ea.toNat % m ≠ 0 → engineCap s s.cur r perm n m = fails 0x0E 0) ∧
      (Sound g → g.cap.perm &&& perm = perm → inside → ea.toNat % m = 0 → engineCap s s.cur r perm n m = .ok g)))

/-- When R200's checks pass on a core with no pair and the destination has come, LD, LDC and LDTG to a general register
retire with their load entry at the tail of the context's order buffer (LDC keeps the tag exactly when A holds ldc),
LDACQ with an acquire fence of its scope after it; no register, flag or byte of memory changes. To a queue or port, an
LD, LDACQ or LDTG puts the same entry there, behind the marks of its lock check, and its context waits in it; once the
load has given its word and the destination has room, the word, extended under the type, or the lock is delivered and
the instruction retires, LDACQ with its fence. Complete here: ld, ldacq, ldc, ldtg. -/
def Obligations.LoadsJoinTheOrderBuffer : Prop :=
  (∀ (o : LdOps) s a i, Clear s o.h → On s o.h → Lone s → o.d = .g i → Known s [o.a, i] →
    Grants s o.a o.off (askLd o.ty) a →
    ∃ t, exec (.ld o) s = .next t ∧ Retired s t [] (s.joined [.load [a] (.scalar i o.ty)]) putNone) ∧
  (∀ (o : LdacqOps) s a i, Clear s o.h → On s o.h → Lone s → o.d = .g i → Known s [o.a, i] →
    Grants s o.a o.off (askLd o.ty) a →
    ∃ t, exec (.ldacq o) s = .next t ∧
      Retired s t [] (s.joined [.load [a] (.scalar i o.ty), .fence .acq o.scope]) putNone) ∧
  (∀ (o : CapMem) s a, Clear s o.h → On s o.h → Lone s → Known s [o.a, o.r] → Grants s o.a o.off askLdc a →
    ∃ t, exec (.ldc o) s = .next t ∧
      Retired s t [] (s.joined [.load [a] (.cap o.r (((s.ctx s.cur).reg o.a).cap.perm.getLsbD 3))]) putNone) ∧
  (∀ (o : LdtgOps) s a i, Clear s o.h → On s o.h → Lone s → o.d = .g i → Known s [o.a, i] → Grants s o.a o.off askLdtg a →
    ∃ t, exec (.ldtg o) s = .next t ∧ Retired s t [] (s.joined [.load [a] (.lock i)]) putNone) ∧
  (∀ (i : Instr) (h : Hdr) (d : Dst) (ra : BitVec 6) (off : BitVec 43) (q : Ask) (lock : Bool) s a,
    ((∃ o : LdOps, i = .ld o ∧ h = o.h ∧ d = o.d ∧ ra = o.a ∧ off = o.off ∧ q = askLd o.ty ∧ lock = false) ∨
      (∃ o : LdacqOps, i = .ldacq o ∧ h = o.h ∧ d = o.d ∧ ra = o.a ∧ off = o.off ∧ q = askLd o.ty ∧ lock = false) ∨
      ∃ o : LdtgOps, i = .ldtg o ∧ h = o.h ∧ d = o.d ∧ ra = o.a ∧ off = o.off ∧ q = askLdtg ∧ lock = true) →
    Clear s h → On s h → Lone s → Direct d → Known s [ra] → Ready s [] (some d) → Grants s ra off q a →
    (∀ v e n, (s.ctx s.cur).run ≠ .blocked (.load v e) n) → ∃ t, exec i s = .next t ∧ Within s t ∧ SameBytes s t ∧
      t.net = s.net ∧ (∀ k, t.core k = s.core k) ∧ (∀ e, e ≠ s.cur → t.ctx e = s.ctx e) ∧
      (t.ctx s.cur).waiting = (s.buffered [.load [a] (.reply lock)]).waiting ∧ (t.ctx s.cur).sent = true ∧
      (t.ctx s.cur).reply = none ∧ ∃ n, (t.ctx s.cur).run = .blocked (.load a.volatile d) n) ∧
  (∀ (o : LdOps) s v w, Clear s o.h → On s o.h → Lone s → Direct o.d → Given s o.d v w → Ready s [] (some o.d) →
    ∃ t, exec (.ld o) s = .next t ∧ ScalarDone s t [] o.d (loadWord o.ty (toBytes o.ty.bytes w.toNat)) 0) ∧
  (∀ (o : LdacqOps) s v w, Clear s o.h → On s o.h → Lone s → Direct o.d → Given s o.d v w → Ready s [] (some o.d) →
    ∃ t, exec (.ldacq o) s = .next t ∧
      ScalarDone (s.setCtx s.cur (s.buffered [.fence .acq o.scope])) t [] o.d (loadWord o.ty (toBytes o.ty.bytes w.toNat)) 0) ∧
  (∀ (o : LdtgOps) s w v, Clear s o.h → On s o.h → Lone s → Direct o.d → Given s o.d v w → Ready s [] (some o.d) →
    ∃ t, exec (.ldtg o) s = .next t ∧ ScalarDone s t [] o.d w 0)

/-- When R200's checks pass on a core with no pair and the source is there, ST retires with a store entry holding the low
bytes of B (one whose general register is still awaited names it and takes its bytes later), STREL with a release
fence of its scope before it, STC with B's 16 bytes and its tag (a tagged B that leaves the scratchpads carries
global), STTG with the lock where memory carries locks and, under .z, 32 zero bytes, and PST with the lowest free
journal entry taken for the store; no other register or flag changes, and no byte of memory at Issue. Complete here:
st, strel, stc, sttg, pst. -/
def Obligations.StoresJoinTheOrderBuffer : Prop :=
  (∀ (o : StOps) s a, Clear s o.h → On s o.h → Lone s → Known s [o.a] → StoreReady s o.b →
    Grants s o.a o.off (askStore o.ty) a →
    ∃ t, exec (.st o) s = .next t ∧ Retired s t [o.b] (s.joined
      [.store [(a, toBytes o.ty.bytes (srcWord s [] o.b).toNat)] none none (gtiOf (s.ctx s.cur))]
      (awaitedReg s o.b)) putNone) ∧
  (∀ (o : StrelOps) s a, Clear s o.h → On s o.h → Lone s → Known s [o.a] → StoreReady s o.b →
    access (lobPush s s.cur (.fence .rel o.scope)) s.cur o.a (o.off.signExtend 64) (askStore o.ty) = .ok a →
    ∃ t, exec (.strel o) s = .next t ∧ Retired s t [o.b] (s.joined [.fence .rel o.scope,
      .store [(a, toBytes o.ty.bytes (srcWord s [] o.b).toNat)] none none (gtiOf (s.ctx s.cur))]
      (awaitedReg s o.b)) putNone) ∧
  (∀ (o : CapMem) s a, Clear s o.h → On s o.h → Lone s → Known s [o.a, o.r] →
    Grants s o.a o.off (askStc ((s.ctx s.cur).reg o.r).tag) a → StaysInside ((s.ctx s.cur).reg o.r) a →
    ∃ t, exec (.stc o) s = .next t ∧ Retired s t [] (s.joined
      [.store [(a, toBytes 16 ((s.ctx s.cur).reg o.r).bits.toNat)] (some ((s.ctx s.cur).reg o.r).tag) none
        (gtiOf (s.ctx s.cur))]) putNone) ∧
  (∀ (o : SttgOps) s a, Clear s o.h → On s o.h → Lone s → Known s [o.a] → Ready s [o.b] none →
    Grants s o.a o.off askSttg a →
    ∃ t, exec (.sttg o) s = .next t ∧ Retired s t [o.b] (s.joined
      [.store [(a, if o.z then List.replicate 32 0 else [])] none
        (if hasLock a.pa && !a.uncached then some ((srcWord s [] o.b).setWidth 4) else none) (gtiOf (s.ctx s.cur))]) putNone) ∧
  (∀ (o : StOps) s a j, Clear s o.h → On s o.h → Lone s → Known s [o.a] → Ready s [o.b] none →
    Grants s o.a o.off (askPost o.ty) a → FreeSlot s j →
    ∃ t, exec (.pst o) s = .next t ∧ Retired (s.withJournal fun m => Sparse.set m j
        { state := 1, c := s.cur, ident := (s.ctx s.cur).ident, acc := a
          lid := (s.ctx s.cur).nextId + (checkMarks (clusterOf s.cur) [a]).length
          value := BitVec.ofNat 64 (ofBytes (toBytes o.ty.bytes (srcWord s [] o.b).toNat)) })
      t [o.b] (s.joined (checkMarks (clusterOf s.cur) [a] ++ [.post j])) putNone)

/-- JRD of an entry number below 32 writes the address, value or status word of the entry (zero for an entry of another
context at task level), and under .clr frees it when it is refused; an entry number of 32 or more raises 0x0D with
TRAPVAL the number. MWAIT ends when its mask is zero or the presence bits meet it under .any or .all, and writes the
presence bits; it consumes no mailbox but its own source; otherwise the context blocks, and keeps the word of a queue,
port or mailbox that its source has given. What an instruction has that waits with its words: they have left their
registers, no use is recorded before it retires, and put back they stand where they stood. FENCE retires with a fence
entry of its kind and scope at the tail of the order buffer; PREF retires and changes nothing else. Complete here:
fence, pref, jrd, jrdClr, mwait. -/
def Obligations.FencesJournalAndMailboxWaits : Prop :=
  ((∀ (o : FenceOps) s, Clear s o.h → On s o.h → Lone s →
    ∃ t, exec (.fence o) s = .next t ∧ Retired s t [] (s.joined [.fence o.kind o.scope]) putNone) ∧
  (∀ (o : PrefOps) s, Clear s o.h → On s o.h → ∃ t, exec (.pref o) s = .next t ∧ Retired s t [] s.after putNone)) ∧
  ((∀ (o : JrdOps) s, Clear s o.h → On s o.h → Ready s [o.a] (some o.d) → o.d.local = true →
    ((srcWord s [] o.a).toNat < 32 → ∃ t, exec (.jrd o) s = .next t ∧
      ScalarDone s t [o.a] o.d (entryField o.sel (seenEntry s (srcWord s [] o.a).toNat)) 0) ∧
    (32 ≤ (srcWord s [] o.a).toNat → settled s s.cur = true →
      exec (.jrd o) s = .next (takeTrap s s.cur { cause := 0x0D, val := srcWord s [] o.a }))) ∧
  (∀ (o : DstSrc) s, Clear s o.h → On s o.h → Ready s [o.a] (some o.d) → o.d.local = true →
    (srcWord s [] o.a).toNat < 32 → ∃ t, exec (.jrdClr o) s = .next t ∧
      ScalarDone (s.withJournal fun m =>
        if (seenEntry s (srcWord s [] o.a).toNat).state = 2 then Sparse.drop m (srcWord s [] o.a).toNat else m)
        t [o.a] o.d (statusWord (seenEntry s (srcWord s [] o.a).toNat)) 0) ∧
  (∀ (o : MwaitOps) s, Clear s o.h → On s o.h → Has s [o.a] (some o.d) → o.d.local = true →
    ∃ u, Kept s u [o.a] ∧
    (let mask := (arg (s.words [o.a]) 0).toNat % 2 ^ 32
    let present := presentIn u
    let ends := mask = 0 ∨ (o.all = false ∧ present &&& mask ≠ 0) ∨ (o.all = true ∧ present &&& mask = mask);
    (ends → ∃ v t, Used s v [o.a] ∧ exec (.mwait o) s = .next t ∧
      ScalarDone (v.modCtx s.cur fun x => { x with mbxmask := x.mbxmask ||| BitVec.ofNat 32 mask }) t [] o.d
        (BitVec.ofNat 64 present) 0) ∧
    (¬ ends → exec (.mwait o) s = .next (blockOn u s.cur .mwait)))) ∧
  (∀ s srcs d, Has s srcs d → Used s (s.used srcs d) srcs))

/-- When the entry capability is sound, executable and remote with its 12 bytes in bounds and its address a multiple of 4,
the die word names a compute die, the argument registers have come and everything older is complete at partition
scope, AMSG answers a state in which one active message with the entry, the argument words and the sender's core word
is in flight, and the context is blocked until the handler queue accepts it; the pc has not moved and no byte of
memory has changed. Complete here: amsg. -/
def Obligations.ActiveMessageLeaves : Prop :=
  ∀ (o : AmsgOps) s die, Clear s o.h → On s o.h → Lone s → Known s [o.a] → Ready s [o.b] none →
    let ea := (s.ctx s.cur).low o.a
    Sound ((s.ctx s.cur).reg o.a) → ((s.ctx s.cur).reg o.a).cap.perm &&& 0x204 = 0x204 →
    ((s.ctx s.cur).reg o.a).cap.base ≤ ea.toNat → ea.toNat + 12 ≤ ((s.ctx s.cur).reg o.a).cap.top →
    ea.toNat % 4 = 0 → amsgDie s (s.ctx s.cur).ident (srcWord s [] o.b) = some die →
    Known s ((List.range o.narg.toNat).map fun j => BitVec.ofNat 6 (o.arg.toNat + j)) → released s s.cur .part = true →
    (∀ m, o.b ≠ .m m) ∧ (∀ n, o.b ≠ .n n) ∧ (∀ q, o.b ≠ .q q) →
    ∃ t n, exec (.amsg o) s = .next t ∧ Within s t ∧ SameBytes s t ∧
      t.net = s.net ++ [(s.next, .amsg
        { die := die, c := s.cur, gti := gtiOf (s.ctx s.cur), entry := ea, ident := (s.ctx s.cur).ident
          words := (List.range o.narg.toNat).map fun j => (s.ctx s.cur).low (BitVec.ofNat 6 (o.arg.toNat + j))
          sender := (coreWord s (s.ctx s.cur).ident (coreOf s.cur)).setWidth 64, t0 := s.time.toNat % 2 ^ 48 })] ∧
      t.ctx s.cur = { s.ctx s.cur with run := .blocked .amsgAccept n, outst := 2, acked := false, served := none, mheld := false } ∧
      ∀ e, e ≠ s.cur → t.ctx e = s.ctx e

/-- For every instruction with a word, of every family: when bit 0 of its effective guard is 0 (for the vector
range, when the whole guard is 0), and it is no kernel instruction at task level, exec answers a next state in which
the pc has moved past it and nothing else has changed: no operand read or consumed, no access, no message, no flag,
no timeline number, no trap. -/
def Obligations.FalseGuardRetires : Prop :=
  ∀ (i : Instr) (f : Fields) (s : State), i.fields = some f → Clear s f.hdr →
    (f.kernel = true → (s.ctx s.cur).level ≠ .task) →
    (if f.vector then guardOf (s.ctx s.cur) f.hdr.guard = 0 else (guardOf (s.ctx s.cur) f.hdr.guard).getLsbD 0 = false) →
    ∃ t, exec i s = .next t ∧ Retired s t [] s.after putNone

/-- When everything older of the context has completed, TRAPI takes cause 0x0B and BRK cause 0x0F, TRAPVAL the sign-
extended immediate, TRAPPC the instruction's own address, TRAPAUX zero; while something older has not, neither does
anything and the context issues it again. An instruction whose opcode the map marks kernel, at task level, with no
write of its context awaiting an acknowledgement and everything older complete, takes cause 0x02 with TRAPVAL W2 and
reason 0, whatever the guard and the operands; nothing else is done. Complete here: trapi, brk. -/
def Obligations.InstructionsThatTrap : Prop :=
  ((∀ (o : ImmOps) s, Clear s o.h → On s o.h → Settled s → Traps (.trapi o) s 0x0B (o.imm.signExtend 64)) ∧
  (∀ (o : ImmOps) s, Clear s o.h → On s o.h → Settled s → Traps (.brk o) s 0x0F (o.imm.signExtend 64)) ∧
  (∀ (o : ImmOps) s, Clear s o.h → On s o.h → (s.core (coreOf s.cur)).bridle = none → ¬ Settled s →
    exec (.trapi o) s = .next s ∧ exec (.brk o) s = .next s)) ∧
  (∀ (i : Instr) (f : Fields) (s : State), i.fields = some f → f.kernel = true → (s.ctx s.cur).level = .task →
    (s.ctx s.cur).outst = 0 → Settled s → Traps i s 0x02 ((w2Of (encode i)).setWidth 64))

/-- On a service or host core, a trap at task level (no debug stop of a claimed task) writes the kernel bank, and
one at kernel level the custodian bank: cause, TRAPVAL, the pc of the instruction, TRAPAUX; the other bank and every
register of the program are unchanged, the level rises by one and the pc is KENTRY of the context's virtual function
or CENTRY of the die. Every other context, all memory, and everything but the trap counters and a debug trace record
is unchanged. A context that waited with words taken, or had issued loads past an unresolved branch, has given both up
first: a trap is taken as from the state with the words back and the loads gone. -/
def Obligations.TrapsInPlace : Prop :=
  (∀ (s : State) (c : Nat) (t : Trap), let u := giveBack (squash s c) c
    takeTrap s c t = takeTrap u c t ∧ (u.ctx c).held = none ∧ (u.ctx c).spec = none ∧
      ∀ p, (s.ctx c).spec = some p → (u.ctx c).pc = p.pc) ∧
  ∀ (s : State) (c : Nat) (t : Trap), kindOf c ≠ .compute → (s.ctx c).held = none → (s.ctx c).spec = none →
    ((s.ctx c).level = .task → ¬ (t.cause = 0x0F ∧ (claimOf s (s.ctx c)).isSome = true) →
      ∀ e, Sparse.get 0 (s.die (dieOf c)).kentry (s.ctx c).ident.vf.toNat = e → e ≠ 0 →
      (takeTrap s c t).ctx c =
        { (s.ctx c).entered .kernel e with ktrap := (s.ctx c).trapRegs t } ∧
      TrapFrame s (takeTrap s c t) c) ∧
    ((s.ctx c).level = .kernel → (s.die (dieOf c)).centry ≠ 0 →
      (takeTrap s c t).ctx c =
        { (s.ctx c).entered .custodian (s.die (dieOf c)).centry with
          ctrap := (s.ctx c).trapRegs t, ident := { (s.ctx c).ident with custodian := true } } ∧
      TrapFrame s (takeTrap s c t) c)

/-- A trap at task level on a compute core writes the context's trap registers and starts its switch-out with REASON
1, the pc left at the instruction; a breakpoint of a task a debugger has claimed starts one with REASON 3 on any
core. A trap at custodian level stops the context, no trap register written, and DIECTL of its die reads STATE 2
with STOPPC the pc. Every other context and all memory are unchanged. -/
def Obligations.TrapsThatStop : Prop :=
  ∀ (s : State) (c : Nat) (t : Trap), (s.ctx c).held = none → (s.ctx c).spec = none →
    (kindOf c = .compute → (s.ctx c).level = .task → ¬ (t.cause = 0x0F ∧ (claimOf s (s.ctx c)).isSome = true) →
      (takeTrap s c t).ctx c = { s.ctx c with
        ktrap := (s.ctx c).trapRegs t, run := .leaving 1, walk := none, sent := false, reply := none, oflags := 0
        mheld := false } ∧
      TrapFrame s (takeTrap s c t) c) ∧
    ((s.ctx c).level = .task → t.cause = 0x0F → (claimOf s (s.ctx c)).isSome = true →
      (takeTrap s c t).ctx c = { s.ctx c with
        ktrap := (s.ctx c).trapRegs t, run := .leaving 3, walk := none, sent := false, reply := none, request := none
        oflags := 0, mheld := false } ∧
      TrapFrame s (takeTrap s c t) c) ∧
    (kindOf c ≠ .compute → (s.ctx c).level = .custodian →
      ((takeTrap s c t).ctx c).run = .stopped ∧ ((takeTrap s c t).ctx c).ctrap = (s.ctx c).ctrap ∧
      ((takeTrap s c t).ctx c).ktrap = (s.ctx c).ktrap ∧
      (takeTrap s c t).dieCtl (dieOf c) =
        { s.dieCtl (dieOf c) with state := 2, stoppc := (s.ctx c).pc.setWidth 56 } ∧
      TrapFrame s (takeTrap s c t) c)

/-- At a level above the one VAR names, with everything older complete at core scope and A known, off a pair or at a
checkpoint, ERET answers a state whose pc is A[63:0] and whose level is VAR; a context that leaves the custodian takes
its core's partition; no general, vector or predicate register, no trap bank, no flag and no byte of memory changes;
the traps that were put off at the level it returns to are pending again. Where VAR is not lower than the level, cause
0x0D with TRAPVAL VAR; at custodian level on a core of a partition that is not READY, cause 0x54 with TRAPVAL the
partition. Complete here: eret. -/
def Obligations.EretLowersTheLevel : Prop :=
  ∀ (o : EretOps) s, Clear s o.h → On s o.h → (s.ctx s.cur).level ≠ .task →
    ((lowered o.kern).code < (s.ctx s.cur).level.code →
      ((s.ctx s.cur).level = .custodian → partOfCore s (coreOf s.cur) ≠ 0xFF →
        (s.part (partOfCore s (coreOf s.cur)).toNat).ready = true) →
      Known s [o.a] → atCheckpoint s s.cur = true → Fenced s .core → ∃ t, exec (.eret o) s = .next t ∧ Within s t ∧ SameBytes s t ∧
        t.ctx s.cur = { (s.ctx s.cur).goesOn ((s.ctx s.cur).low o.a) with
          level := lowered o.kern, ident := (t.ctx s.cur).ident, served := none, pend := (t.ctx s.cur).pend
          later := (s.ctx s.cur).later.filter fun e => decide (e.1.code < (lowered o.kern).code) } ∧
        (∀ tr, tr ∈ (t.ctx s.cur).pend ↔ tr ∈ (s.ctx s.cur).pend ∨ ∃ l, (l, tr) ∈ (s.ctx s.cur).later ∧ (lowered o.kern).code ≤ l.code) ∧
        (if (s.ctx s.cur).ident.custodian then (t.ctx s.cur).ident.custodian = false ∧
            (t.ctx s.cur).ident.part = partOfCore s (coreOf s.cur) ∧ (t.ctx s.cur).ident.vf = (s.ctx s.cur).ident.vf ∧
            (t.ctx s.cur).ident.world = (kindOf s.cur != .host)
          else (t.ctx s.cur).ident = (s.ctx s.cur).ident) ∧
        (∀ e, e ≠ s.cur → t.ctx e = s.ctx e) ∧ (∀ k, CoreKept s t k)) ∧
    (Settled s → (s.ctx s.cur).level.code ≤ (lowered o.kern).code →
      Traps (.eret o) s 0x0D (BitVec.ofNat 64 (lowered o.kern).code)) ∧
    (Settled s → (s.ctx s.cur).level = .custodian → partOfCore s (coreOf s.cur) ≠ 0xFF →
      (s.part (partOfCore s (coreOf s.cur)).toNat).ready = false →
      Traps (.eret o) s 0x54 ((partOfCore s (coreOf s.cur)).setWidth 64))

/-- With everything older complete at partition scope, YIELD moves the pc past itself and starts a switch-out with REASON
5 exactly when the context runs a task at task level and an area of its pool is free; otherwise it only goes on. END:
while a command on tl0 to tl6 is left it blocks and has read nothing; then it takes the word of A, which a queue, port
or mailbox gives in a turn of its own; and with everything older complete at partition scope and the context's vector
and matrix instructions over it answers a state in which the context is free: its task has retired with the status
word A. SYSC, when B is sound with ld and st over 128 aligned bytes and the argument registers have come, goes the
same way: with A below 2^16 and room it answers a state in which the queue of the task's virtual function on its die
holds the request with A, B, the task's GTI, the core word and the arguments behind what it held, the die holds the
continuation, and the context is free, its task retired with status A where it has one. A of 2^16 or more takes cause
0x0D with TRAPVAL A; a full queue blocks. Complete here: yield, endTask, sysc. -/
def Obligations.TasksGiveUpOrEnd : Prop :=
  ((∀ (o : NoOps) s, Clear s o.h → On s o.h → Lone s → released s s.cur .part = true →
    (Yields s → ∃ t, exec (.yield o) s = .next t ∧ Retired s t [] { s.after with run := .leaving 5 } putNone) ∧
    (¬ Yields s → ∃ t, exec (.yield o) s = .next t ∧ Retired s t [] s.after putNone)) ∧
  (∀ (o : OneSrc) s, Clear s o.h → On s o.h → Lone s →
    (¬ EnginesDone s → exec (.endTask o) s = .next (blockOn s s.cur .engine)) ∧
    (EnginesDone s → (s.ctx s.cur).held = none → blocking [o.a] none = true → Ready s [o.a] none → ∃ u,
      Kept s u [o.a] ∧ exec (.endTask o) s = .next u) ∧
    (Ending s o.a → let u := s.heldTaken.used [o.a] none
      Used s.heldTaken u [o.a] ∧ ∃ v t, Retired u v [] u.after putNone ∧ exec (.endTask o) s = .next t ∧
      (t.ctx s.cur).run = .free ∧ (t.ctx s.cur).task = none ∧
      t = freeContext (match (s.ctx s.cur).task with
        | some k => retireTask v (coreOf s.cur) { k with ord := k.ord + 1, exempt := none } (arg (s.words [o.a]) 0) true 0
        | none => v) s.cur))) ∧
  (∀ (o : SyscOps) s, Clear s o.h → On s o.h → Lone s → Known s [o.b] → Known s (argList o.arg o.narg) →
    Sound ((s.ctx s.cur).reg o.b) → ((s.ctx s.cur).reg o.b).cap.perm &&& 0x003 = 0x003 →
    ((s.ctx s.cur).reg o.b).cap.base ≤ ((s.ctx s.cur).low o.b).toNat →
    ((s.ctx s.cur).low o.b).toNat + 128 ≤ ((s.ctx s.cur).reg o.b).cap.top → ((s.ctx s.cur).low o.b).toNat % 128 = 0 →
    let q := Sparse.get [] (s.die (dieOf s.cur)).service (vfKey (s.ctx s.cur).ident)
    let u := s.heldTaken.used [o.a] none
    let w := arg (s.words [o.a]) 0
    (¬ EnginesDone s → exec (.sysc o) s = .next (blockOn s s.cur .engine)) ∧
    (EnginesDone s → (s.ctx s.cur).held = none → blocking [o.a] none = true → Ready s [o.a] none → ∃ v,
      Kept s v [o.a] ∧ exec (.sysc o) s = .next v) ∧
    (Ending s o.a → 2 ^ 16 ≤ w.toNat → Traps (.sysc o) s 0x0D w) ∧
    (Ending s o.a → w.toNat < 2 ^ 16 → serviceMax ≤ q.length → exec (.sysc o) s = .next (blockOn s s.cur .service)) ∧
    (Ending s o.a → w.toNat < 2 ^ 16 → q.length < serviceMax →
      ∃ v t, Retired (u.modDie (dieOf s.cur) fun d => { d with
          service := Sparse.set d.service (vfKey (s.ctx s.cur).ident) (q ++
            [.sysc w ((s.ctx s.cur).reg o.b) (gtiOf (s.ctx s.cur))
              ((coreWord s (s.ctx s.cur).ident (coreOf s.cur)).setWidth 64)
              ((argList o.arg o.narg).map (s.ctx s.cur).reg)])
          conts := d.conts ++ [{ gti := gtiOf (s.ctx s.cur), record := (s.ctx s.cur).low o.b
                                 member := (s.ctx s.cur).task.bind (·.member), ident := (s.ctx s.cur).ident }] })
        v [] u.after putNone ∧
      exec (.sysc o) s = .next t ∧ (t.ctx s.cur).run = .free ∧ (t.ctx s.cur).task = none ∧
      ((s.ctx s.cur).task = none → t = freeContext v s.cur) ∧
      ∀ k, (s.ctx s.cur).task = some k →
        let r := retireTask v (coreOf s.cur) { k with ord := k.ord + 1, exempt := none, member := none, actor := none } w false 2
        t = freeContext (match k.actor with | some a => endFiring r a 0 | none => r) s.cur))

/-- At a level that may read it, CSRR writes a listed register's value, untagged, to D and leaves everything else: FLAGS,
ROUND's code, the context's number, its GTI, the time, a trap register of the bank of the level or of the kernel bank,
an event counter. At a level that may write it, CSRW writes A: FLAGS and ROUND the context's (a ROUND field that names
no mode leaves it), the ORPHAN bit cleared where A is 1, a trap register in the bank of the level, TAGSHADOW the die's
for the partition, an event counter 48 bits, a cluster flag register cleared where A is 1. Below the level, cause 0x02
with TRAPVAL W2, whatever the guard. FLAGS waits for the context's vector and matrix instructions. Complete here:
csrr, csrw. -/
def Obligations.ControlRegisters : Prop :=
  (∀ (o : CsrrOps) s l, Clear s o.h → On s o.h → Lone s → Ready s [] (some o.d) → o.d.local = true →
    csrReadLevel o.num.toNat = some l → l ≤ (s.ctx s.cur).level.code → CsrKnown s o.num.toNat →
    ∃ t, exec (.csrr o) s = .next t ∧ ScalarDone s t [] o.d (csrValue s s.cur o.num.toNat) 0) ∧
  (∀ (o : CsrrOps) s l, (s.ctx s.cur).outst = 0 → csrReadLevel o.num.toNat = some l → (s.ctx s.cur).level.code < l →
    Settled s → Traps (.csrr o) s 0x02 ((w2Of (encode (.csrr o))).setWidth 64)) ∧
  (∀ (o : CsrrOps) s, Clear s o.h → On s o.h → o.num = 0 → ¬ CsrKnown s 0 → exec (.csrr o) s = .next s) ∧
  (∀ (o : CsrwOps) s l, Clear s o.h → On s o.h → Ready s [o.a] none → csrReadLevel o.num.toNat = some l →
    csrWriteLevel o.num.toNat ≤ (s.ctx s.cur).level.code → CsrKnown s o.num.toNat → ∃ t, exec (.csrw o) s = .next t ∧
      Retired (csrStore (s.taken [o.a] none) s.cur o.num.toNat (srcWord s [] o.a)) t []
        (csrStore (s.taken [o.a] none) s.cur o.num.toNat (srcWord s [] o.a)).after putNone) ∧
  (∀ (o : CsrwOps) s l, (s.ctx s.cur).outst = 0 → csrReadLevel o.num.toNat = some l →
    (s.ctx s.cur).level.code < csrWriteLevel o.num.toNat → Settled s →
    Traps (.csrw o) s 0x02 ((w2Of (encode (.csrw o))).setWidth 64)) ∧
  (∀ (o : CsrwOps) s, Clear s o.h → On s o.h → o.num = 0 → ¬ CsrKnown s 0 → exec (.csrw o) s = .next s) ∧
  (∀ s c j, j < 4 → csrValue s c 0 = (s.ctx c).flags.setWidth 64 ∧ csrValue s c 1 = BitVec.ofNat 64 (s.ctx c).round.code ∧
    csrValue s c 3 = BitVec.ofNat 64 (c % 8) ∧ csrValue s c 4 = gtiOf (s.ctx c) ∧ csrValue s c 6 = s.time ∧
    csrValue s c (0x10 + j) = (if (s.ctx c).level = .custodian then (s.ctx c).ctrap else (s.ctx c).ktrap).read j ∧
    csrValue s c (0x18 + j) = (s.ctx c).ktrap.read j ∧
    csrValue s c (0x40 + j) = BitVec.ofNat 64 (Sparse.get 0 (s.core (coreOf c)).evc j)) ∧
  (∀ s c j w, j < 4 → csrStore s c 0 w = s.modCtx c (fun x => { x with flags := w.setWidth 6 }) ∧
    (∀ m : RoundMode, w.toNat % 8 = m.code → csrStore s c 1 w = s.modCtx c fun x => { x with round := m }) ∧
    (5 ≤ w.toNat % 8 → csrStore s c 1 w = s.modCtx c id) ∧
    csrStore s c 2 w = s.modCtx c (fun x => { x with orphan := x.orphan && !w.getLsbD 7 }) ∧
    csrStore s c (0x10 + j) w = s.modCtx c (fun x => if x.level = .custodian then
      { x with ctrap := x.ctrap.write j w } else { x with ktrap := x.ktrap.write j w }) ∧
    csrStore s c 0x20 w = s.modDie (dieOf c) (fun d => { d with
      tagshadow := Sparse.set d.tagshadow (shadowPart s c (s.ctx c).ident) (w &&& 0xFFFFFFFFFFFFF001) }) ∧
    csrStore s c (0x40 + j) w = s.modCore (coreOf c) (fun k => { k with evc := Sparse.set k.evc j (w.toNat % 2 ^ 48) }) ∧
    ∀ n, n < 16 → dieOf c < 8 → csrStore s c (0x100 + n) w = s.modDie (dieOf c) fun d => { d with
      clflags := Sparse.set d.clflags n (Sparse.get 0 d.clflags n &&& ~~~ w.setWidth 6) })

/-- With a latch that is not zero, WFE writes it to D, zero-extended, and clears it; with a latch of zero and the deadline
past it writes 8 and clears the latch; else it blocks until its deadline, or with no deadline where A is zero, and
keeps the word of a queue, port or mailbox. HALT, once everything older is complete at core scope and off a pair or at
a checkpoint, stops the context at the next pc, or, with bit 4 of the latch set, clears that bit and goes on. CKPT off
a pair, or at a checkpoint, only goes on. Complete here: wfe, halt, ckpt. -/
def Obligations.WaitsAndHalts : Prop :=
  (∀ (o : DstSrc) s, Clear s o.h → On s o.h → Has s [o.a] (some o.d) → o.d.local = true →
    (∀ d n, (s.ctx s.cur).run = .blocked (.wfe d) n → (s.ctx s.cur).held.isSome = true ∨ blocking [o.a] none = false) →
    let dl := wfeDeadline s (arg (s.words [o.a]) 0)
    let v := (s.used [o.a] (some o.d)).modCtx s.cur fun x => { x with latch := 0 }
    ((s.ctx s.cur).latch ≠ 0 → ∃ t, exec (.wfe o) s = .next t ∧
      ScalarDone v t [] o.d ((s.ctx s.cur).latch.setWidth 64) 0) ∧
    ((s.ctx s.cur).latch = 0 → deadlinePast s dl → ∃ t, exec (.wfe o) s = .next t ∧ ScalarDone v t [] o.d 8 0) ∧
    ((s.ctx s.cur).latch = 0 → ¬ deadlinePast s dl → ∃ u, Kept s u [o.a] ∧
      exec (.wfe o) s = .next (blockOn u s.cur (.wfe dl)))) ∧
  (∀ (o : NoOps) s, Clear s o.h → On s o.h → (s.ctx s.cur).level ≠ .task → atCheckpoint s s.cur = true → Fenced s .core → ∃ t,
    exec (.halt o) s = .next t ∧ Retired s t [] (if (s.ctx s.cur).latch.getLsbD 4
      then { s.after with latch := (s.ctx s.cur).latch &&& 0x0F } else { s.after with run := .halted }) putNone) ∧
  (∀ (o : NoOps) s, Clear s o.h → On s o.h → atCheckpoint s s.cur = true → ∃ t,
    exec (.ckpt o) s = .next t ∧ Retired s t [] s.after putNone)

/-- At kernel level or above, with its sources there: A above 2^32 takes cause 0x0D with TRAPVAL A; a cluster above 15, or
a host core, 0x0D with TRAPVAL B; a number of scratch banks other than 0, 4, 8, 16 or 32, or a bank that is a live
actor's FIFO and would not stay one, 0x0D with TRAPVAL the mask; else, modes that are so already only let it go on;
banks with no access pending from before its wait take the new modes; others block it. Complete here: bankcfg. -/
def Obligations.BankModes : Prop :=
  ∀ (o : BankcfgOps) s, Clear s o.h → On s o.h → (s.ctx s.cur).level ≠ .task → Ready s [o.a, o.b] none →
    let a := srcWord s [] o.a
    let k := srcWord s [o.a] o.b
    let cl := bankCluster s k.toNat
    let m := a.toNat % 2 ^ 32
    let new := newModes s cl m o.mode
    let first := bankFirst s cl m o.mode
    let held := o.mode ≠ .fifo ∧ ∃ b, b < 32 ∧ m.testBit b = true ∧ fifoHeld s cl b = true
    let fits := scratchCount new ∈ [0, 4, 8, 16, 32]
    (2 ^ 32 ≤ a.toNat → Settled s → Traps (.bankcfg o) s 0x0D a) ∧
    (a.toNat < 2 ^ 32 → 15 < k.toNat ∨ kindOf s.cur = .host → Settled s → Traps (.bankcfg o) s 0x0D k) ∧
    (a.toNat < 2 ^ 32 → k.toNat ≤ 15 → kindOf s.cur ≠ .host → ¬ fits ∨ held → Settled s →
      Traps (.bankcfg o) s 0x0D (BitVec.ofNat 64 m)) ∧
    (a.toNat < 2 ^ 32 → k.toNat ≤ 15 → kindOf s.cur ≠ .host → fits → ¬ held →
      ((∀ b, b < 32 → bankMode s cl b = new b) → ∃ t, exec (.bankcfg o) s = .next t ∧
        Retired s t [o.a, o.b] s.after putNone) ∧
      ((∃ b, b < 32 ∧ bankMode s cl b ≠ new b) → banksIdle s cl (bankChanges s cl m o.mode) first = true → ∃ t,
        exec (.bankcfg o) s = .next t ∧
        Retired (setModes (s.taken [o.a, o.b] none) cl new) t [] (s.taken [o.a, o.b] none).after putNone) ∧
      ((∃ b, b < 32 ∧ bankMode s cl b ≠ new b) → banksIdle s cl (bankChanges s cl m o.mode) first = false →
        exec (.bankcfg o) s = .next (blockOn s s.cur (.banks cl m o.mode first))))

/-- After the modes of a cluster are set to a function of the bank number: every bank of the cluster has the mode it
names, every other cluster's banks keep theirs; a byte of memory outside the cluster's scratch space reads as
before, a bank that enters scratch mode reads zero, and where the number of scratch banks changes the whole scratch
space of the cluster reads zero; no register, context, core or die changes. -/
def Obligations.ModesAreSet : Prop :=
  ∀ (s : State) (cl : Nat) (f : Nat → BankMode), (∀ b, 32 ≤ b → bankMode s cl b = .cache) →
    let t := setModes s cl f
    let low := 2 ^ 52 + cl / 64 * 2 ^ 25 + cl % 64 * 2 ^ 21
    (∀ b, b < 32 → bankMode t cl b = f b) ∧ (∀ k b, k ≠ cl → bankMode t k b = bankMode s k b) ∧
    (∀ a, a < low ∨ low + 2 ^ 21 ≤ a → byteAt t a = byteAt s a) ∧
    (∀ b o, b < 32 → o < 65536 → f b = .scratch → bankMode s cl b ≠ .scratch → byteAt t (low + b * 65536 + o) = 0) ∧
    (scratchCount (bankMode s cl) ≠ scratchCount f → ∀ o, o < 2 ^ 21 → byteAt t (low + o) = 0) ∧
    t.ctxs = s.ctxs ∧ t.cores = s.cores ∧ t.dies = s.dies ∧ t.locks = s.locks

/-- At kernel level or above, off a pair: TLBINV, with everything older complete at partition scope, puts one invalidation
to every die of its partition (a custodian of no partition: to every die), for the page of A at the size named or for
all, and blocks; when the answer has come it goes on; with no die to ask it goes on at once. MIGR of its own task
writes 5; of a task not resident on the die 1; to a core of another kind 3; to one with no free context 2; each in
that order and without stopping anything. A task that may move is asked to stop, with the destination core noted, and
MIGR blocks until the answer, which it writes to D; a destination word that names no core takes cause 0x60. Complete
here: tlbinvPage, tlbinvAll, migr. -/
def Obligations.InvalidationsAndMigration : Prop :=
  (∀ (i : Instr) (h : Hdr) (a : Src) (page : Word → Option (Nat × Nat)) s,
    ((∃ o : TlbPageOps, i = .tlbinvPage o ∧ h = o.h ∧ a = o.a ∧
        page = fun w => some (w.toNat % 2 ^ 57 / 2 ^ pageBits o.size, pageBits o.size)) ∨
      ∃ o : OneSrc, i = .tlbinvAll o ∧ h = o.h ∧ a = o.a ∧ page = fun _ => none) →
    Clear s h → On s h → (s.ctx s.cur).level ≠ .task → Has s [a] none →
    let dies := if (s.ctx s.cur).ident.part = 0xFF then List.range 10 else partDies s (partNo (s.ctx s.cur).ident)
    ((s.ctx s.cur).sent = true → (s.ctx s.cur).reply.isSome = true →
      (s.ctx s.cur).held.isSome = true ∨ blocking [a] none = false → ∃ t,
      exec i s = .next t ∧ Retired (s.used [a] none) t [] (s.used [a] none).after putNone) ∧
    ((s.ctx s.cur).sent = false → Fenced s .part → dies = [] → ∃ t,
      exec i s = .next t ∧ Retired (s.used [a] none) t [] (s.used [a] none).after putNone) ∧
    ((s.ctx s.cur).sent = false → Fenced s .part → dies ≠ [] → ∃ u t, Kept s u [a] ∧
      exec i s = .next t ∧ (t.ctx s.cur) = { u.ctx s.cur with run := (t.ctx s.cur).run, sent := true, served := none, mheld := false } ∧
      t.invals = s.invals ++ [{ id := s.next, c := s.cur, waiting := dies, since := s.time.toNat
                                page := page (arg (s.words [a]) 0), ident := (s.ctx s.cur).ident }] ∧
      (∃ n, (t.ctx s.cur).run = .blocked .invalidate n) ∧ SameBytes s t ∧ ∀ e, e ≠ s.cur → t.ctx e = s.ctx e)) ∧
  (∀ (o : DstSrc2) s, Clear s o.h → On s o.h → (s.ctx s.cur).level ≠ .task → Has s [o.a, o.b] (some o.d) → o.d.local = true →
    let gti := arg (s.words [o.a, o.b]) 0
    let there := residentOf s (dieOf s.cur) (s.ctx s.cur).ident.part gti
    let own := gtiOf (s.ctx s.cur) = gti ∧ (s.ctx s.cur).task.isSome = true
    let named := coreOfWord s (s.ctx s.cur).ident (arg (s.words [o.a, o.b]) 1).toNat
    let u := s.used [o.a, o.b] (some o.d)
    (∀ w, (s.ctx s.cur).sent = true → (s.ctx s.cur).reply = some (.ok w) →
      (s.ctx s.cur).held.isSome = true ∨ blocking [o.a, o.b] none = false → ∃ t, exec (.migr o) s = .next t ∧ ScalarDone u t [] o.d w 0) ∧
    ((s.ctx s.cur).sent = false → named = none → Settled s →
      Traps (.migr o) s 0x60 (arg (s.words [o.a, o.b]) 1 &&& 0x1F01FF)) ∧
    (∀ dest, (s.ctx s.cur).sent = false → named = some dest →
      (own → ∃ t, exec (.migr o) s = .next t ∧ ScalarDone u t [] o.d 5 0) ∧
      (¬ own → there = none → ∃ t, exec (.migr o) s = .next t ∧ ScalarDone u t [] o.d 1 0) ∧
      (∀ r, ¬ own → there = some r → kindOfCore dest ≠ kindOf r → ∃ t, exec (.migr o) s = .next t ∧ ScalarDone u t [] o.d 3 0) ∧
      (∀ r, ¬ own → there = some r → kindOfCore dest = kindOf r → freeOn s dest = none → ∃ t, exec (.migr o) s = .next t ∧ ScalarDone u t [] o.d 2 0) ∧
      ∀ r, ¬ own → there = some r → kindOfCore dest = kindOf r → (freeOn s dest).isSome = true →
        (∀ n, (s.ctx r).run ≠ .leaving n) → ∃ v t n, Kept s v [o.a, o.b] ∧ exec (.migr o) s = .next t ∧ SameBytes s t ∧
        t.ctx s.cur = { v.ctx s.cur with run := .blocked (.migrate gti) n, sent := true, served := none, mheld := false } ∧
        t.ctx r = { s.ctx r with
          request := some 4, task := (s.ctx r).task.map fun k => { k with target := some (dest, s.cur) }
          run := if (s.ctx r).run = .halted then .running else (s.ctx r).run
          latch := if (s.ctx r).run = .halted then (s.ctx r).latch &&& 0x0F else (s.ctx r).latch ||| 0x10 } ∧
        ∀ e, e ≠ s.cur → e ≠ r → t.ctx e = s.ctx e))

/-- For a well-formed record with HANY, no dependence and no actor bit, of a kind whose die is known: creating a
task answers the GTI of the partition, the creating die's logical number and its next serial number, and the state
in which the task, with the record's entry, priority, arguments, continuation and the current generation, stands
last in the ready pool of that die; no context, core or byte of memory changes. A malformed record is refused with
0x01, a home that names no core, or one of another kind, with 0x02. -/
def Obligations.TasksAreCreated : Prop :=
  ∀ (s : State) (i : Ident) (k : Nat) (r : Rec),
    (r.malformed = true → ∀ m h, createTask s i k m h r = .error (refusal 1)) ∧
    (r.malformed = false → r.hany = false → (∀ m,
      (coreOfWord s i (r.ctl.toNat % 2 ^ 21) = none → createTask s i k m none r = .error (refusal 2)) ∧
      ∀ h, coreOfWord s i (r.ctl.toNat % 2 ^ 21) = some h → kindOfCore h ≠ r.kind →
        createTask s i k m none r = .error (refusal 2))) ∧
    (∀ d, r.malformed = false → r.hany = true → r.isActor = false → r.word 2 = 0 →
      poolDie s (partNo i) r.kind none (coreDie k) = some d →
      let gti := BitVec.ofNat 64 (partNo i % 256 * 2 ^ 56 + logDie s (partNo i) (coreDie k) % 32 * 2 ^ 51
        + (Sparse.get 0 (s.die (coreDie k)).serial (partNo i) + 1) % 2 ^ 51)
      poolDie s (partNo i) r.kind none (gtiDie s gti) = some d →
      ∃ u x, createTask s i k none none r = .ok (gti, u) ∧
        (u.die d).ready = (s.die d).ready ++ [x] ∧ x.gti = gti ∧ x.kind = r.kind ∧ x.home = none ∧
        x.prio = (r.ctl.extractLsb' 57 2).toNat ∧ x.entry = r.word 0 ∧ x.cont = r.word 3 ∧ x.record = r.bytes ∧
        x.args = (List.range r.argn).map (fun j => r.granule (2 + j)) ∧
        x.ident = { custodian := false, part := i.part, vf := i.vf, gen := genOf s i, world := r.kind != .host } ∧
        (u.die (coreDie k)).serial = Sparse.set (s.die (coreDie k)).serial (partNo i)
          (Sparse.get 0 (s.die (coreDie k)).serial (partNo i) + 1) ∧
        u = { s with dies := u.dies })

/-- With its operands granted: TSPAWN answers the GTI of the task created from the record at A, or the refusal word of a
record its home does not give (0x01) or that may not be created; TSIG joins the order buffer as a signal of B plus its
decrement to the counter at A, for the scratchpad's die; LAUNCH joins it as a command for tl7, and where no job of the
partition lives it locks the logical die table, which must be well formed: else cause 0x50 with TRAPVAL the lowest bad
entry. Complete here: tspawn, tsig, launch. -/
def Obligations.SpawnSignalAndLaunch : Prop :=
  (∀ (o : DstCap) s pa, Clear s o.h → On s o.h → EngineGrants s o.a permLd 128 128 0 pa → Sends s [] o.d →
    let v := s.asked [] (some o.d)
    let keep := ((s.ctx s.cur).reg o.a).cap.perm.getLsbD 3
    let make (r : Rec) := createTask v (s.ctx s.cur).ident (coreOf s.cur) ((s.ctx s.cur).task.bind (·.member)) none r
    (readRec v (s.ctx s.cur).ident pa keep = none → Answered (.tspawn o) s v o.d (refusal 1)) ∧
    (∀ r w u, readRec v (s.ctx s.cur).ident pa keep = some r → make r = .ok (w, u) → Answered (.tspawn o) s u o.d w) ∧
    (∀ r w, readRec v (s.ctx s.cur).ident pa keep = some r → make r = .error w → Answered (.tspawn o) s v o.d w)) ∧
  (∀ (o : TsigOps) s pa, Clear s o.h → On s o.h → Lone s → EngineGrants s o.a permSt 4 4 1 pa → Ready s [o.b] none →
    let die := match region pa with | .scratch q _ => q / 64 | _ => dieOf s.cur
    (die = dieOf s.cur ∨ ((s.ctx s.cur).reg o.a).cap.perm.getLsbD 9 = true → ∃ t, exec (.tsig o) s = .next t ∧
      Retired s t [o.b] (s.joined [.signal
        { c := s.cur, ident := (s.ctx s.cur).ident, ea := (s.ctx s.cur).low o.a, pa := pa
          amount := (srcWord s [] o.b).setWidth 32 + o.dec, die := die, owner := tlOwner s s.cur }]) putNone) ∧
    (die ≠ dieOf s.cur → ((s.ctx s.cur).reg o.a).cap.perm.getLsbD 9 = false → Settled s →
      Traps (.tsig o) s 0x06 ((s.ctx s.cur).low o.a) (capAux permRemote o.a))) ∧
  (∀ (o : OneG) s xl, Clear s o.h → On s o.h → Lone s →
    engineCap s s.cur o.a (permLd ||| permLdc) 192 64 = .ok ((s.ctx s.cur).reg o.a) →
    xlatRange s s.cur ((s.ctx s.cur).low o.a) 192 0 = .ok xl →
    let first := liveJobs s (s.ctx s.cur).ident.part = []
    let u := if first then s.modPart (partNo (s.ctx s.cur).ident) fun p => { p with ldtlock := true, mcl := true } else s
    (first → ∀ l, ldtOffender s (partNo (s.ctx s.cur).ident) = some l → Settled s →
      Traps (.launch o) s 0x50 (BitVec.ofNat 64 l)) ∧
    (¬ first ∨ ldtOffender s (partNo (s.ctx s.cur).ident) = none → ∃ t, exec (.launch o) s = .next t ∧
      Retired u t [] (s.joined [.cmd (.launch ((s.ctx s.cur).low o.a) xl ((s.ctx s.cur).level != .task)) 7]) putNone))

/-- A DONE of a task that is no member's, or that has reported already, or of a context that runs no task, only goes on.
Otherwise, with a command left on tl0 to tl6, it blocks; then it takes the word of A, which a queue, port or mailbox
gives in a turn of its own; and with everything older complete at partition scope it retires, the task is no longer
its member's and has reported, and A is folded into the member: its word is combined with A, the counts added up to
their bound, the greater error code, the flag bits of both, and it has one live task fewer. A member that then has no
live task, no actor and no child that has not reported sends its word to its parent. Complete here: done. -/
def Obligations.DoneReports : Prop :=
  (∀ (o : OneSrc) s, Clear s o.h → On s o.h →
    (∀ k, (s.ctx s.cur).task = some k → k.member = none ∨ k.doneSent = true) →
    ∃ t, exec (.done o) s = .next t ∧ Retired s t [] s.after putNone) ∧
  (∀ (o : OneSrc) s k m, Clear s o.h → On s o.h → Lone s → (s.ctx s.cur).task = some k → k.member = some m →
    k.doneSent = false →
    (¬ EnginesDone s → exec (.done o) s = .next (blockOn s s.cur .engine)) ∧
    (EnginesDone s → (s.ctx s.cur).held = none → blocking [o.a] none = true → Ready s [o.a] none → ∃ u,
      Kept s u [o.a] ∧ exec (.done o) s = .next u) ∧
    (Reporting s o.a → let w := arg (s.words [o.a]) 0
      Used s (s.used [o.a] none) [o.a] ∧ exec (.done o) s = .next (retire (foldMember
        (replied ((traceEvent (s.asked [o.a] none) (partNo k.ident) 3 1 (coreWord s k.ident (coreOf s.cur)).toNat k.gti w).modCtx
          s.cur fun x => { x with task := x.task.map fun t => { t with member := none, doneSent := true } }) s.cur)
        (some m) w) s.cur))) ∧
  (∀ s j r w q, s.job j = some q →
    let m : Member := Sparse.get {} q.members r
    let n : Member := { m with word := combine m.word w, live := m.live - 1 }
    let u := s.setJob j (some { q with members := Sparse.set q.members r n })
    foldMember s (some (j, r)) w = settleMember u j r ∧
    (∀ p, m.live = 1 → m.sent = false → m.parent = some p → (∀ c ∈ m.children, c ∈ m.heard) →
      (∀ e ∈ s.actors, ∀ a, e.2 = some a → a.retired = true ∨ a.task.member.map (·.1) ≠ some j) →
      (settleMember u j r).net = s.net ++ [(s.next, .done j r n.word)]) ∧
    (1 < m.live → settleMember u j r = u)) ∧
  ∀ a b : Word,
    (combine a b).toNat / 2 ^ 32 = min (a.toNat / 2 ^ 32 + b.toNat / 2 ^ 32) (2 ^ 32 - 1) ∧
    (combine a b).toNat / 2 ^ 16 % 2 ^ 16 = max (a.toNat / 2 ^ 16 % 2 ^ 16) (b.toNat / 2 ^ 16 % 2 ^ 16) ∧
    (combine a b).setWidth 16 = a.setWidth 16 ||| b.setWidth 16

/-- In a firing whose FIFO n is declared and has elements of its rate left: FGET answers the next element in order and
counts it read; FPUT takes B at the element's size as the next element written. Outside a firing, with an undeclared
FIFO, or past the rate, each takes cause 0x30 with TRAPVAL the reason 1, 2 or 3, whether it is FPUT, and n. Complete
here: fget, fput. -/
def Obligations.FiringsReadAndWrite : Prop :=
  (∀ (o : FgetOps) s k a f, Clear s o.h → On s o.h → Fires s false o.k.toNat k a f → Sends s [] o.d →
    Answered (.fget o) s (((s.used [] (some o.d)).setActor k (some (oneRead a o.k.toNat))).counted) o.d
      ((Sparse.get [] (s.clu a.cluster).fifo f.bank).getD (a.read.getD o.k.toNat 0) 0)) ∧
  (∀ (o : FputOps) s k a f, Clear s o.h → On s o.h → Lone s → Fires s true o.k.toNat k a f → Ready s [o.b] none →
    released s s.cur .part = true → ∃ t, exec (.fput o) s = .next t ∧
      Retired ((s.taken [o.b] none).setActor k (some (oneWritten a o.k.toNat
        (BitVec.ofNat 64 ((srcWord s [] o.b).toNat % 2 ^ (8 * f.size)))))) t [] (s.taken [o.b] none).after putNone) ∧
  (∀ (o : FgetOps) s, Clear s o.h → On s o.h → Settled s →
    ((s.ctx s.cur).task.bind (·.actor) = none → Traps (.fget o) s 0x30 (BitVec.ofNat 64 (0x1000 + o.k.toNat))) ∧
    (∀ k a, (s.ctx s.cur).task.bind (·.actor) = some k → s.actor k = some a →
      (a.ins.getD o.k.toNat none = none → Traps (.fget o) s 0x30 (BitVec.ofNat 64 (0x2000 + o.k.toNat))) ∧
      ∀ f, a.ins.getD o.k.toNat none = some f → f.rate ≤ a.read.getD o.k.toNat 0 →
        Traps (.fget o) s 0x30 (BitVec.ofNat 64 (0x3000 + o.k.toNat)))) ∧
  (∀ (o : FputOps) s, Clear s o.h → On s o.h → Settled s →
    ((s.ctx s.cur).task.bind (·.actor) = none → Traps (.fput o) s 0x30 (BitVec.ofNat 64 (0x1100 + o.k.toNat))) ∧
    (∀ k a, (s.ctx s.cur).task.bind (·.actor) = some k → s.actor k = some a →
      (a.outs.getD o.k.toNat none = none → Traps (.fput o) s 0x30 (BitVec.ofNat 64 (0x2100 + o.k.toNat))) ∧
      ∀ f, a.outs.getD o.k.toNat none = some f → f.rate ≤ (a.wrote.getD o.k.toNat []).length →
        Traps (.fput o) s 0x30 (BitVec.ofNat 64 (0x3100 + o.k.toNat))))

/-- With its operand granted: TCONT of an area that no stopped task of the issuer's virtual function holds answers the
refusal 0x06. TCONT .ready of one that does answers its GTI, takes it out of the table and puts it, unpinned, in the
die's ready pool; .end, once the task's commands have completed, answers its GTI and retires it with B as its status,
its area free. TREC with no pending continuation of GTI B and record A answers 0x06, one of an old generation 0x07
with the continuation gone; else it creates the task with its arguments, which takes the continuation's place in its
member. Complete here: tcontReady, tcontEnd, trec. -/
def Obligations.StoppedTasksAreAnswered : Prop :=
  (∀ (o : DstCap) s pa, Clear s o.h → On s o.h →
    engineCap s s.cur o.a (permLd ||| permSt) 10240 256 = .ok ((s.ctx s.cur).reg o.a) →
    engineAt s s.cur ((s.ctx s.cur).low o.a) 128 0 = .ok pa → Sends s [] o.d →
    let v := s.used [] (some o.d)
    (stoppedAt v s.cur pa = none → Answered (.tcontReady o) s v o.d (refusal 6)) ∧
    (∀ e, stoppedAt v s.cur pa = some e → e.notice = none →
      Answered (.tcontReady o) s (enterPool (dropStopped v.counted (dieOf s.cur) e.gti) (dieOf s.cur) { e.task with pinned := none })
        o.d e.gti)) ∧
  (∀ (o : TcontEndOps) s pa, Clear s o.h → On s o.h →
    engineCap s s.cur o.a (permLd ||| permSt) 10240 256 = .ok ((s.ctx s.cur).reg o.a) →
    engineAt s s.cur ((s.ctx s.cur).low o.a) 128 0 = .ok pa → Sends s [o.b] o.d →
    let v := s.used [o.b] (some o.d)
    (stoppedAt v s.cur pa = none → Answered (.tcontEnd o) s v o.d (refusal 6)) ∧
    (∀ e, stoppedAt v s.cur pa = some e → e.notice = none → allDone v (e.gti.toNat * 2 + 1) = true →
      let r := retireTask (releaseArea (dropStopped v.counted (dieOf s.cur) e.gti) e.task) e.task.waitCore e.task
        (arg (s.words [o.b]) 0) false 3
      (e.task.member = none → Answered (.tcontEnd o) s r o.d e.gti) ∧
      ∃ u, (u = r ∨ u = orphanAfterEnd r e.task.member) ∧ Answered (.tcontEnd o) s u o.d e.gti)) ∧
  (∀ (o : TrecOps) s pa, Clear s o.h → On s o.h → EngineGrants s o.a permLd 128 128 0 pa →
    Known s (argList o.arg o.narg) → Sends s [o.b] o.d →
    let v := s.asked [o.b] (some o.d)
    let named (e : PendCont) : Bool := e.gti == arg (s.words [o.b]) 0 && e.record == (s.ctx s.cur).low o.a &&
      e.ident.part == (s.ctx s.cur).ident.part && ((s.ctx s.cur).ident.custodian || e.ident.vf == (s.ctx s.cur).ident.vf)
    ((s.die (dieOf s.cur)).conts.find? named = none → Answered (.trec o) s v o.d (refusal 6)) ∧
    ∀ e, (s.die (dieOf s.cur)).conts.find? named = some e →
      let gone := v.modDie (dieOf s.cur) fun d => { d with conts := d.conts.filter (· != e) }
      (current v e.ident = false → Answered (.trec o) s gone o.d (refusal 7)) ∧
      (∀ r w u, current v e.ident = true →
        readRec v (s.ctx s.cur).ident pa (((s.ctx s.cur).reg o.a).cap.perm.getLsbD 3) = some r →
        createTask gone (s.ctx s.cur).ident (coreOf s.cur) e.member none
          (withArgs r ((argList o.arg o.narg).map (s.ctx s.cur).reg)) = .ok (w, u) →
        Answered (.trec o) s (foldMember u e.member 0) o.d w))

/-- With its access granted and its sources there, AMO puts one request, which carries its acquire and its release as its
order says, at the tail of the order buffer, keeps the words it took, and blocks; when the reply is there it writes
the word to D, raises the flags that came with it, and goes on, its words used; when the reply is a trap it takes it.
AMOR retires with its request at the tail of the order buffer. No byte of memory changes at Issue, and no register but
D. Complete here: amo, amor. -/
def Obligations.AtomicsLeaveAndReturn : Prop :=
  (∀ (o : AmoOps) s a, Clear s o.h → On s o.h → Lone s → (s.ctx s.cur).sent = false → Known s [o.a] →
    AtomGrants s o.a (o.ofs.signExtend 64) (amoBytes o.ty) (permLd ||| permSt) a →
    dataBreak s s.cur ((s.ctx s.cur).low o.a + o.ofs.signExtend 64) (amoBytes o.ty) false = none →
    let srcs := if o.op = .cas then [o.b, o.cv] else [o.b]
    Has s srcs (some o.d) → o.d.local = true → ∃ u t, Kept s u srcs ∧ exec (.amo o) s = .next t ∧ Within s t ∧
      SameBytes s t ∧ t.net = s.net ∧ (∀ e, e ≠ s.cur → t.ctx e = s.ctx e) ∧ (∀ k, t.core k = u.core k) ∧
      (∃ n, (t.ctx s.cur).run = .blocked .amoReply n) ∧
      t.ctx s.cur = { s.buffered (atomicOps s a o.ord o.scope
          { c := s.cur, ident := (s.ctx s.cur).ident, ty := o.ty, op := o.op, ea := (s.ctx s.cur).low o.a + o.ofs.signExtend 64
            pa := a.pa, b := arg (s.words srcs) 0, cv := arg (s.words srcs) 1, dst := some o.d
            engine := atomEngine s s.cur a.pa (s.ctx s.cur).ident, owner := tlOwner s s.cur }) with
        held := (u.ctx s.cur).held, sent := true, served := none, mheld := false, run := (t.ctx s.cur).run }) ∧
  (∀ (o : AmoOps) s w, Clear s o.h → On s o.h → (s.ctx s.cur).sent = true → o.d.local = true →
    (s.ctx s.cur).reply = some (.ok w) →
    let srcs := if o.op = .cas then [o.b, o.cv] else [o.b]
    Has s srcs (some o.d) → (s.ctx s.cur).held.isSome = true ∨ blocking srcs none = false →
    let u := s.modCtx s.cur fun x => { x with sent := false, reply := none, oflags := 0 }
    Used u (u.used srcs (some o.d)) srcs ∧ ∃ t, exec (.amo o) s = .next t ∧
      ScalarDone (u.used srcs (some o.d)) t [] o.d w (s.ctx s.cur).oflags) ∧
  (∀ (o : AmoOps) s tr, Clear s o.h → On s o.h → (s.ctx s.cur).sent = true → (s.ctx s.cur).reply = some (.trap tr) →
    Settled s → exec (.amo o) s = .next (takeTrap s s.cur tr)) ∧
  (∀ (o : AmorOps) s a, Clear s o.h → On s o.h → Lone s → Known s [o.a] →
    AtomGrants s o.a (o.ofs.signExtend 64) (amoBytes o.ty) permSt a → Ready s [o.b] none →
    ∃ t, exec (.amor o) s = .next t ∧ Retired s t [o.b] (s.joined (atomicOps s a o.ord o.scope
      { c := s.cur, ident := (s.ctx s.cur).ident, ty := o.ty, op := o.op, ea := (s.ctx s.cur).low o.a + o.ofs.signExtend 64
        pa := a.pa, b := srcWord s [] o.b, cv := 0, dst := none
        engine := atomEngine s s.cur a.pa (s.ctx s.cur).ident, owner := tlOwner s s.cur })) putNone)

/-- An atomic that its home does not refuse replies with the old bytes at its address, extended under its type, and
writes the sum, the bitwise result, the lesser or greater, B, C where the old value equals B (and nothing where it
does not), or the rounded sum of .f32, whose flags it gives; a byte outside the operand reads as before. A refused
one changes nothing and replies with its trap: 0x33 with reason 1, 3 or 4 for a lost die, a frozen partition, an old
generation; 0x53 in an orphaned scratchpad; 0x41 without rights; 0x25 in a poisoned line. -/
def Obligations.AtomicsAtTheirHome : Prop :=
  ∀ (s : State) (r : AtomReq),
    let n := amoBytes r.ty
    let old := ofBytes (homeBytes s r.pa n)
    let b := r.b.toNat % 2 ^ (8 * n)
    let int (x : Nat) : Int := ext (amoInt r.ty) (BitVec.ofNat 64 x)
    let done (new : Nat) (fl : FpFlags) : Prop :=
      applyAtomic s r = (.ok (BitVec.ofInt 64 (int old)), fl, homeStore s r.pa (toBytes n new))
    (∀ t, amoRefusal s r = some t → applyAtomic s r = (.trap t, 0, s)) ∧
    (amoRefusal s r = none →
      (r.op = .add → done ((old + b) % 2 ^ (8 * n)) 0) ∧ (r.op = .and → done (old &&& b) 0) ∧
      (r.op = .or → done (old ||| b) 0) ∧ (r.op = .xor → done (old ^^^ b) 0) ∧
      (r.op = .min → done (if int old ≤ int b then old else b) 0) ∧
      (r.op = .max → done (if int old ≤ int b then b else old) 0) ∧ (r.op = .swap → done b 0) ∧
      (r.op = .cas → old = b → done (r.cv.toNat % 2 ^ (8 * n)) 0) ∧
      (r.op = .cas → old ≠ b → applyAtomic s r = (.ok (BitVec.ofInt 64 (int old)), 0, s)) ∧
      (r.op = .fadd → done (fpAdd fF32 .rne (fF32.decode old) (fF32.decode b)).1
        (fpAdd fF32 .rne (fF32.decode old) (fF32.decode b)).2)) ∧
    ((s.die (dieOf r.c)).lost.getLsbD r.engine = true →
      amoRefusal s r = some { cause := 0x33, val := r.ea, aux := 1 }) ∧
    (∀ a, (∀ j, j < n → loc s (r.pa + j) ≠ some a) → (∀ t ∈ (s.base (r.pa / 2 ^ 37)).tiles, t.dirty = false) →
      byteAt (applyAtomic s r).2.2 a = byteAt s a)

/-- PHNEW answers the handle of the lowest free slot of the die named, which holds an empty phaser at phase 0, or the
refusal 1 without units. PHJOIN with a handle answers the token of the lowest free member number, and a joining
signaller adds one to OUT before the phase has started and none after. PHLEAVE takes its member away, one outstanding
signal with it; the last one's leaving dissolves the phaser. PHROLE changes the member's role and counts it in or out.
Each then completes the phase if nothing is outstanding. What is held for a member that leaves is answered with cause
0x32 and reason 4, what is held for a role it loses with reason 5; any other context stays as it was. Complete here:
phnew, phjoin, phleave, phrole. -/
def Obligations.PhasersAreMadeAndJoined : Prop :=
  (∀ (o : PhnewOps) s e d, Clear s o.h → On s o.h → Sends s [] o.d →
    e = (match o.die with
      | some d => d.toNat
      | none => if kindOf s.cur = .host then 0 else logDie s (partNo (s.ctx s.cur).ident) (dieOf s.cur)) →
    physDie s (partNo (s.ctx s.cur).ident) e = some (d, false) →
    let v := s.asked [] (some o.d)
    let full := unitsMax s (partNo (s.ctx s.cur).ident) d < unitsUsed (s.die d) + (if o.ctr then 7 else 4)
    (full → Answered (.phnew o) s v o.d 0xFF00000000000001) ∧
    (∀ j, ¬ full → (List.range 1048576).find? (fun j => ((s.die d).phaser j).isNone) = some j →
      Answered (.phnew o) s (setPhaser v d j (some
          { part := (s.ctx s.cur).ident.part, vf := (s.ctx s.cur).ident.vf, ctr := o.ctr })) o.d
        (phWord (s.ctx s.cur).ident.part.toNat e (s.ctx s.cur).ident.vf.toNat (Sparse.get 0 (s.die d).phgen j).toNat 0 j))) ∧
  (∀ (o : PhjoinOps) s d p n, Clear s o.h → On s o.h → Sends s [o.a] o.d →
    let w := arg (s.words [o.a]) 0
    let v := s.asked [o.a] (some o.d)
    phaserOf s s.cur w (some false) = .ok (d, p) →
    ((List.range 4096).drop 1).find? (fun n => (Sparse.get none p.members n).isNone) = some n →
    unitsUsed (s.die d) + 1 ≤ unitsMax s (partNo (s.ctx s.cur).ident) d →
    Answered (.phjoin o) s (settlePhaser v d (phIndex w)
      (if roleSignals o.role then
        { p with out := if p.started then p.out else p.out + 1
                 members := Sparse.set p.members n (some { role := o.role, s := if p.started then p.c + 1 else p.c }) }
      else { p with members := Sparse.set p.members n (some { role := o.role, s := p.c }) }))
      o.d (w ||| BitVec.ofNat 64 (n * 2 ^ 20))) ∧
  (∀ (o : OneSrc) s d p m, Clear s o.h → On s o.h → Lone s → Ready s [o.a] none → released s s.cur .part = true →
    let w := srcWord s [] o.a
    let v := dropHeld (s.taken [o.a] none) d (phIndex w) (phMember w) true true 4
    phaserOf s s.cur w none = .ok (d, p) → Sparse.get none p.members (phMember w) = some m →
    let q : Phaser := { p with
      out := if roleSignals m.role ∧ m.s = p.c then p.out - 1 else p.out, members := Sparse.drop p.members (phMember w) }
    let u := settlePhaser v d (phIndex w) q
    let z := if q.members.any (·.2.isSome) then u else dissolve u d (phIndex w)
    ∃ t, exec (.phleave o) s = .next t ∧ Retired z t [] z.after putNone) ∧
  (∀ (o : OneSrc) s d p, Clear s o.h → On s o.h → Lone s → Ready s [o.a] none → released s s.cur .part = true →
    let w := srcWord s [] o.a
    phaserOf s s.cur w none = .ok (d, p) → Sparse.get none p.members (phMember w) = none →
    p.members.any (·.2.isSome) = false →
    let z := dissolve (s.taken [o.a] none) d (phIndex w)
    ∃ t, exec (.phleave o) s = .next t ∧ Retired z t [] z.after putNone) ∧
  (∀ (o : PhroleOps) s d p m, Clear s o.h → On s o.h → Lone s → Ready s [o.a] none → released s s.cur .part = true →
    let w := srcWord s [] o.a
    phaserOf s s.cur w (some true) = .ok (d, p) → Sparse.get none p.members (phMember w) = some m →
    let gains := roleSignals m.role = false ∧ roleSignals o.role = true
    let loses := roleSignals m.role = true ∧ roleSignals o.role = false
    let q : Phaser := { p with
      out := if gains then (if p.started then p.out else p.out + 1)
        else if loses ∧ m.s = p.c then p.out - 1 else p.out
      members := Sparse.set p.members (phMember w) (some
        { role := o.role, s := if gains then (if p.started then p.c + 1 else p.c) else m.s }) }
    let v := dropHeld (s.taken [o.a] none) d (phIndex w) (phMember w) (roleSignals m.role && !roleSignals o.role)
      (roleWaits m.role && !roleWaits o.role) 5
    let z := settlePhaser v d (phIndex w) q
    ∃ t, exec (.phrole o) s = .next t ∧ Retired z t [] z.after putNone) ∧
  (∀ s d i n sig wait reason c,
    (∀ k h t, (s.ctx c).run = .blocked (.phaser d i k h) t → phMember h.token = n → (if h.sig then sig else wait) = true →
      (dropHeld s d i n sig wait reason).ctx c = { s.ctx c with
        run := .running, sent := true
        reply := some (.trap { cause := 0x32, val := h.token, aux := BitVec.ofNat 64 reason }) }) ∧
    ((∀ k h t, (s.ctx c).run = .blocked (.phaser d i k h) t → phMember h.token = n → (if h.sig then sig else wait) = false) →
      (dropHeld s d i n sig wait reason).ctx c = s.ctx c))

/-- PHSIG by a signaller whose phase has come answers the current phase, ORs its flags in, counts one signal off and, with
counters, adds the core's event counters; one too early is held with its flags and the counters' values; one that may
not signal takes 0x32 with reason 5. PHWAIT of a phase before the current one answers its lag and the last flags; of a
later one it is held. One that is held keeps the words it took and stays so until its engine answers; then it gives
that answer, its words used, or takes that trap. A completion answers each held PHWAIT it ends with the flags and its
lag, and applies a lone held PHSIG of the next phase with the values it left with. CTRREAD answers the phase or a
counter's sum. When a started phase has nothing outstanding, the count advances by one, the flags become the last
flags, the sums the last sums, and OUT the number of signallers; otherwise nothing of it changes. Complete here:
phsig, phwait, ctrread. -/
def Obligations.PhasesAdvance : Prop :=
  (∀ (o : DstSrc2) s d p m, Clear s o.h → On s o.h → Sends s [o.a, o.b] o.d →
    (s.ctx s.cur).sent = false → heldOf (s.ctx s.cur) = none →
    let w := arg (s.words [o.a, o.b]) 0
    let b := arg (s.words [o.a, o.b]) 1
    let v := s.asked [o.a, o.b] (some o.d)
    phaserOf s s.cur w (some true) = .ok (d, p) → Sparse.get none p.members (phMember w) = some m →
    (roleSignals m.role = true → m.s ≤ p.c → Answered (.phsig o) s (settlePhaser v d (phIndex w) { p with
        mf := p.mf ||| b.setWidth 32, started := true, out := p.out - 1
        members := Sparse.set p.members (phMember w) (some { m with s := p.c + 1 })
        cur := if p.ctr then p.cur.mapIdx fun j n => n + (evcSample (v.core (coreOf s.cur))).getD j 0 else p.cur })
      o.d (BitVec.ofNat 64 p.c)) ∧
    (roleSignals m.role = true → p.c < m.s → ∃ u, Kept s u [o.a, o.b] ∧
      exec (.phsig o) s = .next (blockOn u s.cur (.phaser d (phIndex w) m.s
        { token := w, sig := true, arg := b, evc := evcSample (v.core (coreOf s.cur)) }))) ∧
    (roleSignals m.role = false → Settled s → Traps (.phsig o) s 0x32 w 5)) ∧
  (∀ (o : DstSrc2) s d p m, Clear s o.h → On s o.h → Sends s [o.a, o.b] o.d →
    (s.ctx s.cur).sent = false → heldOf (s.ctx s.cur) = none →
    let w := arg (s.words [o.a, o.b]) 0
    let n := (arg (s.words [o.a, o.b]) 1).toNat
    phaserOf s s.cur w (some true) = .ok (d, p) → Sparse.get none p.members (phMember w) = some m →
    (roleWaits m.role = true → n < p.c → Answered (.phwait o) s (s.asked [o.a, o.b] (some o.d)) o.d
      (packWord [(32, min (p.c - 1 - n) (2 ^ 32 - 1)), (0, p.lf.toNat)])) ∧
    (roleWaits m.role = true → p.c ≤ n → ∃ u, Kept s u [o.a, o.b] ∧
      exec (.phwait o) s = .next (blockOn u s.cur (.phaser d (phIndex w) (n + 1)
        { token := w, sig := false, arg := arg (s.words [o.a, o.b]) 1 }))) ∧
    (roleWaits m.role = false → Settled s → Traps (.phwait o) s 0x32 w 5)) ∧
  (∀ (o : DstSrc2) s i, Clear s o.h → On s o.h → (i = .phsig o ∨ i = .phwait o) →
    (∀ w h d, (s.ctx s.cur).sent = false → heldOf (s.ctx s.cur) = some (w, h) → phaserOf s s.cur h.token (some true) = .ok d →
      exec i s = .next (blockOn s s.cur w)) ∧
    (∀ w, (s.ctx s.cur).sent = true → (s.ctx s.cur).reply = some (.ok w) → o.d.local = true → Has s [o.a, o.b] (some o.d) →
      (s.ctx s.cur).held.isSome = true ∨ blocking [o.a, o.b] none = false →
      Answered i s (s.asked [o.a, o.b] (some o.d)) o.d w) ∧
    (∀ tr, (s.ctx s.cur).sent = true → (s.ctx s.cur).reply = some (.trap tr) → Settled s →
      exec i s = .next (takeTrap s s.cur tr))) ∧
  (∀ s d i (p : Phaser), p.started = true → p.out = 0 →
    (∀ c k h t, (s.ctx c).run = .blocked (.phaser d i k h) t → h.sig = false → h.arg.toNat ≤ p.c →
      (settlePhaser s d i p).ctx c = { s.ctx c with
        run := .running, sent := true
        reply := some (.ok (packWord [(32, min (p.c - h.arg.toNat) (2 ^ 32 - 1)), (0, p.mf.toNat)])) }) ∧
    (∀ c h m, heldOn s d i = [(c, h)] → h.sig = true → Sparse.get none p.members (phMember h.token) = some m → m.s ≤ p.c + 1 →
      ((settlePhaser s d i p).die d).phaser i = some ((p.complete.signal (phMember h.token) m h.arg h.evc).complete) ∧
      (settlePhaser s d i p).ctx c = { s.ctx c with
        run := .running, sent := true, reply := some (.ok (BitVec.ofNat 64 (p.c + 1))) })) ∧
  (∀ (o : CtrreadOps) s d p, Clear s o.h → On s o.h → Lone s → o.d.local = true → Ready s [o.a] (some o.d) →
    mayGo s s.cur { id := (s.ctx s.cur).nextId, op := .load [] .now, ident := (s.ctx s.cur).ident } = true →
    phaserOf s s.cur (srcWord s [] o.a) none = .ok (d, p) →
    (p.ctr = true ∨ o.idx = 4 → Answered (.ctrread o) s (s.taken [o.a] (some o.d)) o.d
      (BitVec.ofNat 64 (if o.idx = 4 then p.c else p.sums.getD o.idx.toNat 0))) ∧
    (p.ctr = false → o.idx ≠ 4 → Settled s → Traps (.ctrread o) s 0x32 (srcWord s [] o.a) 6)) ∧
  (∀ p : Phaser, p.started = true → p.out = 0 → p.complete = { p with
    lf := p.mf, mf := 0, started := false, c := p.c + 1, out := p.signallers, sums := p.cur, cur := [0, 0, 0, 0] }) ∧
  (∀ p : Phaser, ¬ (p.started = true ∧ p.out = 0) → p.complete = p)

/-- At kernel level or above, with tl6 idle and everything older complete: TCREG .add reads the descriptor at A and
answers 0, the region then in its partition's table, or the refusal of the first condition it fails, nothing added; a
descriptor on a lost die takes 0x25, one its home refuses 0x41, a poisoned one 0x25. TCREG .del of an own region
answers 0, its tiles written back and gone and the region out of the table; .stat answers its status and clears it;
one that is not the virtual function's own is refused with 7. Each takes the next number of tl6 and completes it.
Complete here: tcregAdd, tcregDel, tcregStat. -/
def Obligations.RegionsAreRegistered : Prop :=
  (∀ (o : DstCap) s pa, Clear s o.h → On s o.h → (s.ctx s.cur).level ≠ .task → EngineGrants s o.a permLd 64 64 0 pa →
    TcregTurn s o.d →
    let v := s.tcregAt o.d
    let i := (s.ctx s.cur).ident
    let r := addRegion (tileRead v pa 64) i (homeBytes v pa 64)
    let bad (cause : BitVec 8) : Host.Outcome State Fault Refusal := .next (takeTrap (completeNum v (tlOwner s s.cur) 6 s.tcregNum) s.cur
      { cause := cause, val := (s.ctx s.cur).low o.a, aux := BitVec.ofNat 64 (pa / 128 * 128) })
    let lost := (s.die (dieOf s.cur)).lost.getLsbD (homeDie s pa)
    (lost = true → exec (.tcregAdd o) s = bad 0x25) ∧
    (lost = false → homeRights s i pa = false → exec (.tcregAdd o) s = bad 0x41) ∧
    (lost = false → homeRights s i pa = true → poisoned s pa = true → exec (.tcregAdd o) s = bad 0x25) ∧
    (lost = false → homeRights s i pa = true → poisoned s pa = false →
      ∃ t, exec (.tcregAdd o) s = .next t ∧ Registered s t r.2 o.d r.1 s.tcregNum)) ∧
  (∀ (o : DstId) s, Clear s o.h → On s o.h → (s.ctx s.cur).level ≠ .task → TcregTurn s o.d →
    let v := s.tcregAt o.d
    (ownRegion s s.cur o.id = none → (∃ t, exec (.tcregDel o) s = .next t ∧ Registered s t v o.d (refusal 7) s.tcregNum) ∧
      ∃ t, exec (.tcregStat o) s = .next t ∧ Registered s t v o.d (refusal 7) s.tcregNum) ∧
    ∀ r, ownRegion s s.cur o.id = some r →
      (∃ t, exec (.tcregDel o) s = .next t ∧ Registered s t ((invRegion v r false).modPart r.part.toNat fun p => { p with
        regions := p.regions.filter fun q => q.id != r.id }) o.d 0 s.tcregNum) ∧
      ∃ t, exec (.tcregStat o) s = .next t ∧ Registered s t (v.modPart r.part.toNat fun p => { p with
        regions := p.regions.map fun q => if q.id = r.id then { q with status := 0 } else q }) o.d
        (packWord [(8, bit r.detached), (0, r.status.toNat)]) s.tcregNum) ∧
  (∀ s i b, (readRegion i b = none → addRegion s i b = (refusal 1, s)) ∧
    ∀ r, readRegion i b = some r → (addRegion s i b).1 = 0 →
      (addRegion s i b).2 = s.modPart (partNo i) (fun p => { p with regions := p.regions ++ [r] }) ∧
      ∀ q ∈ (s.part (partNo i)).regions, q.id ≠ r.id ∧
        overlaps r.base (r.tiles * r.ss) q.base (q.tiles * q.ss) = false)

/-- With its sources there and its region registered, own and attached, its coordinates inside the tiles and its
capability and pages granted: each of TCLOOK, TCPF (with the neighbours its mask selects), TCHALO (whose destination
lies in scratchpad) and the three TCINV retires with its command at the tail of the order buffer for tl6, and no byte
of memory changes. Each failed check of R321, in order, takes cause 0x34 with its reason: 5 no identifier, 1 not
registered, 2 another virtual function's, 4 detached, the entry's own 6 or 8, 3 coordinates outside. Complete here:
tclookRd, tclookWr, tcpf, tchalo, tcinv, tcinvDrop, tcinvAll. -/
def Obligations.TileCommandsQueue : Prop :=
  (∀ (wr : Bool) (o : TclookOps) s, Clear s o.h → On s o.h → Lone s → Ready s [o.b] none →
    let i : Instr := if wr then .tclookWr o else .tclookRd o
    let b := srcWord s [] o.b
    let v := s.taken [o.b] none
    (∀ r xl, Names s o.id r → InTiles r b →
      engineCap v s.cur o.a (if wr then permEsrc else permEdst) r.cs 16 = .ok ((s.ctx s.cur).reg o.a) →
      xlatPlaced v s.cur ((s.ctx s.cur).low o.a) r.cs (if wr then 3 else 4) = .ok xl →
      Queued i s [o.b] (.tclook wr o.id ((coordOf b).take r.ndim) ((s.ctx s.cur).low o.a) xl) 6) ∧
    RegionChecks i s o.id b (fun _ => none) true) ∧
  (∀ (o : TcpfOps) s, Clear s o.h → On s o.h → Lone s → Ready s [o.b] none →
    let b := srcWord s [] o.b
    (∀ r, Names s o.id r → InTiles r b →
      Queued (.tcpf o) s [o.b] (.tcpf o.id (((coordOf b).take r.ndim) ::
        neighbours r ((coordOf b).take r.ndim) o.mask o.stride.toNat)) 6) ∧
    RegionChecks (.tcpf o) s o.id b (fun _ => none) true) ∧
  (∀ (o : TchaloOps) s, Clear s o.h → On s o.h → Lone s → Ready s [o.b] none →
    let b := srcWord s [] o.b
    let v := s.taken [o.b] none
    (∀ r xl, Names s o.id r → haloForm o.w.toNat r = none → InTiles r b →
      engineCap v s.cur o.a permEdst (haloBytes r o.w.toNat) (codeBits r.cfmt / 8) = .ok ((s.ctx s.cur).reg o.a) →
      xlatPlaced v s.cur ((s.ctx s.cur).low o.a) (haloBytes r o.w.toNat) 4 = .ok xl →
      ((∀ p ∈ xl, isScratch (p.2 * 4096) = true) →
        Queued (.tchalo o) s [o.b] (.tchalo o.edge o.id ((coordOf b).take r.ndim) o.w.toNat ((s.ctx s.cur).low o.a) xl) 6) ∧
      ((∃ p ∈ xl, isScratch (p.2 * 4096) = false) → Settled s → Traps (.tchalo o) s 0x34 b (regionAux o.id 7))) ∧
    RegionChecks (.tchalo o) s o.id b (haloForm o.w.toNat) true) ∧
  (∀ (o : TcinvOps) s, Clear s o.h → On s o.h → Lone s →
    (∀ r, Names s o.id r → Queued (.tcinv o) s [] (.tcinv 0 o.id) 6 ∧ Queued (.tcinvDrop o) s [] (.tcinv 1 o.id) 6 ∧
      Queued (.tcinvAll o) s [] (.tcinv 2 o.id) 6) ∧
    RegionChecks (.tcinv o) s o.id 0 (fun _ => none) false ∧ RegionChecks (.tcinvDrop o) s o.id 0 (fun _ => none) false ∧
    RegionChecks (.tcinvAll o) s o.id 0 (fun _ => none) false)

/-- With each capability operand granted over its bytes and aligned to its element, and every page translated: SGATH, SRED
and SCONV retire with their command at the tail of the order buffer for tl6, SGATH with the bounds of its source and
its level, SCONV with the rounding mode the field or the context names; nothing else changes. SCONV of formats R334
does not pair takes cause 0x0D with TRAPVAL the two formats. Complete here: sgath, sred, sconv. -/
def Obligations.StackCommandsQueue : Prop :=
  (∀ (o : SgathOps) s xd xb, Clear s o.h → On s o.h → Lone s →
    let n := o.count.toNat
    let row := 4 * o.roww.toNat
    let w := if o.n64 then 8 else 4
    StackGrants s o.d permEdst (some (n * row)) 4 → StackGrants s o.a permEsrc none 4 → StackGrants s o.b permEsrc (some (n * w)) w →
    xlatPlaced s s.cur ((s.ctx s.cur).low o.d) (n * row) 4 = .ok xd →
    xlatPlaced s s.cur ((s.ctx s.cur).low o.b) (n * w) 3 = .ok xb →
    Queued (.sgath o) s [] (.sgath o.n64 n o.roww.toNat ((s.ctx s.cur).low o.d) ((s.ctx s.cur).low o.a)
      ((s.ctx s.cur).low o.b) ((s.ctx s.cur).reg o.a).cap.base ((s.ctx s.cur).reg o.a).cap.top (xd ++ xb)
      ((s.ctx s.cur).level != .task)) 6) ∧
  (∀ (o : SredOps) s xd xa, Clear s o.h → On s o.h → Lone s →
    let w := sredBytes o.ty
    let n := o.count.toNat * w
    StackGrants s o.d permEdst (some n) w → StackGrants s o.a permEsrc (some n) w →
    xlatPlaced s s.cur ((s.ctx s.cur).low o.d) n 4 = .ok xd → xlatPlaced s s.cur ((s.ctx s.cur).low o.a) n 3 = .ok xa →
    Queued (.sred o) s [] (.sred o.ty o.op o.count.toNat ((s.ctx s.cur).low o.d) ((s.ctx s.cur).low o.a) (xd ++ xa)) 6) ∧
  (∀ (o : SconvOps) s xd xa xb, Clear s o.h → On s o.h → Lone s →
    let sf := o.sf.toNat
    let df := o.df.toNat
    let n := o.count.toNat
    let side := if (codeBlock sf).isSome then sf else df
    StackGrants s o.d permEdst (some (packedSize df n)) (max 1 (codeBits df / 8)) →
    StackGrants s o.a permEsrc (some (packedSize sf n)) (max 1 (codeBits sf / 8)) →
    (∀ m w, codeBlock side = some (m, w) → o.b ≠ 0 →
      StackGrants s o.b (if (codeBlock sf).isSome then permEsrc else permEdst) (some (scaleSize side n)) w ∧
      xlatPlaced s s.cur ((s.ctx s.cur).low o.b) (scaleSize side n) (if (codeBlock sf).isSome then 3 else 4) = .ok xb) →
    (codeBlock side = none → xb = []) →
    xlatPlaced s s.cur ((s.ctx s.cur).low o.d) (packedSize df n) 4 = .ok xd →
    xlatPlaced s s.cur ((s.ctx s.cur).low o.a) (packedSize sf n) 3 = .ok xa →
    (convBad sf df n o.b = false → Queued (.sconv o) s [] (.sconv sf df (roundField (s.ctx s.cur).round o.rm) n
      ((s.ctx s.cur).low o.d) ((s.ctx s.cur).low o.a) ((s.ctx s.cur).low o.b) (xd ++ xa ++ xb)) 6) ∧
    (convBad sf df n o.b = true → Settled s → Traps (.sconv o) s 0x0D (BitVec.ofNat 64 (sf * 64 + df))))

/-- With its shape registers known and of R339's form, its hulls granted and translated: COPY retires with its command for
its channel's timeline, and so does COPYR with the die, the flag's address and its value; a full channel blocks; a
shape that fails R339 takes 0x0D with TRAPVAL the register; a die that does not exist takes 0x60. WPRD writes the
channel's write pointer, TLRD the counter or the number issued. TLWAIT of a number that has completed writes the
counter (taking tl6's flags up to it), of one that has not it keeps the word it took and blocks, of one never issued
it takes 0x0D with TRAPVAL it. Complete here: copy, copyr, wprd, tlwait, tlrd. -/
def Obligations.CopiesAndTimelines : Prop :=
  (∀ (o : CopyOps) s h xd xa, Clear s o.h → On s o.h → Lone s → CopyGrants s o.dims o.d o.a o.b permEdst h xd xa →
    ((channelOf s (coreOf s.cur) o.ch).length < 16 → Queued (.copy o) s [] (copyOp s o.d o.a h (xd ++ xa) o.ch none) o.ch.toNat) ∧
    (16 ≤ (channelOf s (coreOf s.cur) o.ch).length → exec (.copy o) s = .next (blockOn s s.cur .channel))) ∧
  (∀ (o : CopyOps) s w, Clear s o.h → On s o.h → Known s [o.d, o.a] → shapeOf s s.cur o.dims o.b = .ok (.error w) → Settled s →
    Traps (.copy o) s 0x0D w) ∧
  (∀ (o : CopyrOps) s die h xd xa, Clear s o.h → On s o.h → Lone s → copyrDie s (s.ctx s.cur).ident o.die.toNat = some die →
    CopyGrants s o.dims o.d o.a o.b (permEdst ||| permRemote) h xd xa →
    let f : BitVec 6 := o.flag.setWidth 6
    Known s [f, f + 1] → (channelOf s (coreOf s.cur) o.ch).length < 16 →
    (o.flag = 0 → Queued (.copyr o) s [] (copyOp s o.d o.a h (xd ++ xa) o.ch (some
      { die := die, flag := none, flagKey := ((s.ctx s.cur).reg f).cap.key, v := (s.ctx s.cur).low (f + 1) })) o.ch.toNat) ∧
    (∀ p xf, o.flag ≠ 0 → hullCheck s s.cur f (permSt ||| permRemote) ((s.ctx s.cur).low f, 8) = .ok () →
      ((s.ctx s.cur).low f).toNat % 8 = 0 → xlatPlaced s s.cur ((s.ctx s.cur).low f) 8 4 = .ok xf →
      engineAt s s.cur ((s.ctx s.cur).low f) 8 4 = .ok p →
      Queued (.copyr o) s [] (copyOp s o.d o.a h (xd ++ xa ++ xf) o.ch (some
        { die := die, flag := some p, flagKey := ((s.ctx s.cur).reg f).cap.key, v := (s.ctx s.cur).low (f + 1) })) o.ch.toNat)) ∧
  (∀ (o : CopyrOps) s, Clear s o.h → On s o.h → copyrDie s (s.ctx s.cur).ident o.die.toNat = none → Settled s →
    Traps (.copyr o) s 0x60 (BitVec.ofNat 64 (o.die.toNat * 65536))) ∧
  (∀ (o : WprdOps) s, Clear s o.h → On s o.h → Ready s [] (some o.d) → o.d.local = true →
    (∀ e ∈ (s.ctx s.cur).lob, ∀ h d a k l xl rem tl, e.op ≠ .cmd (.copy h d a k l xl o.ch.toNat rem) tl) →
    mayGo s s.cur { id := (s.ctx s.cur).nextId, op := .load [] .now, ident := (s.ctx s.cur).ident } = true →
    ∃ t, exec (.wprd o) s = .next t ∧ ScalarDone s t [] o.d (writePointer s (coreOf s.cur) o.ch) 0) ∧
  (∀ (o : TlwaitOps) s, Clear s o.h → On s o.h → Sends s [o.b] o.d →
    let w := arg (s.words [o.b]) 0 + o.n.setWidth 64
    let tl := s.tline (tlOwner s s.cur) o.tl.toNat
    let n := waitNumber s o.tl.toNat w
    let v := s.used [o.b] (some o.d)
    let u := if o.tl = 6 then takeHeld v s.cur n else v
    (n ≤ tl.issued → n ≤ tl.done → ∃ t, exec (.tlwait o) s = .next t ∧ ScalarDone u t [] o.d (BitVec.ofNat 64 tl.done) 0) ∧
    (n ≤ tl.issued → tl.done < n → ∃ r, Kept s r [o.b] ∧
      exec (.tlwait o) s = .next (blockOn r s.cur (.timeline o.tl.toNat n))) ∧
    (tl.issued < n → Settled s → Traps (.tlwait o) s 0x0D w)) ∧
  (∀ (o : TlrdOps) s, Clear s o.h → On s o.h → Lone s → Ready s [] (some o.d) → o.d.local = true →
    ∃ t, exec (.tlrd o) s = .next t ∧ ScalarDone s t [] o.d (BitVec.ofNat 64 (if o.iss then
      issuedOn s s.cur o.tl.toNat else (s.tline (tlOwner s s.cur) o.tl.toNat).done)) 0)

/-- For VADD, VSUB, VMUL, VFMA, VMIN, VMAX, VABS, VNEG, VCLASS, VAND, VOR, VXOR, VSHL, VSHR, VPERM and VSCAN, whatever the
type, and VRCP, VRSQ, VEXP2 and VLOG2 with the model's rounded function values: with a lane enabled, its registers
awaited by none and room in the queue, the instruction joins the context's vector queue; what it will write is each
enabled element's result at the type's width (wrapped, or clamped with overflow under .sat, or rounded once), every
other element as it was, and the flags of the enabled elements; nothing else changes. A vector engine entry writes
when it completes. Complete here: vadd, vsub, vmul, vfma, vmin, vmax, vabs, vneg, vrcp, vrsq, vexp2, vlog2, vand, vor,
vxor, vshl, vshr, vscan, vperm, vclass. -/
def Obligations.VectorElements : Prop :=
  ∀ i f, vecForm i = some f ∨ functionForm i = some f → Floats i → f.Completes i

/-- With a lane enabled and everything there: VCMP gives all ones or zero to each enabled element, or one bit to each
enabled lane of a predicate; VSEL chooses by predicate bit or by mask; VCVT converts the part its position names (a
part beyond takes 0x0D); VBCAST writes A to each enabled element; VREDADD and VREDMAX write the result over the
enabled elements in ascending order; VMOVG .get writes one element and .put replaces one, or has no effect where its
lane is disabled; an index beyond the elements takes 0x0D with TRAPVAL it. Complete here: vcmp, vsel, vcvt, vbcast,
vredadd, vredmax, vmovgGet, vmovgPut. -/
def Obligations.VectorComparesAndMoves : Prop :=
  (∀ (o : VcmpOps) s, Clear s o.h → s.guardLanes o.h ≠ 0 → VecReady s [o.a, o.b] →
    let x := s.ctx s.cur
    let out (k : Nat) := vcompare o.ty o.cond (x.elem o.a o.ty.width k) (x.elem o.b o.ty.width k)
    (∀ d, o.d = .vec d → x.pendV d = false → IssuesVector (.vcmp o) s o.h [] d o.ty.width fun k =>
      (if (out k).1 then 2 ^ o.ty.width - 1 else 0, (out k).2)) ∧
    (∀ p, o.d = .pred p → o.ty.width = 32 → x.pendP p = false → ∃ w fl, Issued (.vcmp o) s [] { pred := [(p, w)], flags := fl } ∧
      cmpBits (s.guardLanes o.h) (x.pred p) (fun k => (out k).1) w ∧
      ∀ b, fl.getLsbD b = (enabled (s.guardLanes o.h) 32).any fun k => (out k).2.getLsbD b)) ∧
  (∀ (o : VselOps) s, Clear s o.h → s.guardLanes o.h ≠ 0 → VecReady s [o.d, o.a, o.b] →
    let x := s.ctx s.cur
    (∀ p, o.c = .pred p → x.pendP p = false → IssuesVector (.vsel o) s o.h [] o.d 32 fun k =>
      (if (x.pred p).getLsbD k then x.elem o.a 32 k else x.elem o.b 32 k, 0)) ∧
    (∀ v, o.c = .vec v → x.pendV v = false → IssuesVector (.vsel o) s o.h [] o.d 32 fun k =>
      ((BitVec.ofNat 32 (x.elem o.a 32 k) &&& BitVec.ofNat 32 (x.elem v 32 k) |||
        BitVec.ofNat 32 (x.elem o.b 32 k) &&& ~~~ BitVec.ofNat 32 (x.elem v 32 k)).toNat, 0))) ∧
  (∀ (o : VcvtOps) s, Clear s o.h → s.guardLanes o.h ≠ 0 → VecReady s [o.d, o.a] → Ready s [o.b] none →
    ((srcWord s [] o.b).toNat < parts o → IssuesVector (.vcvt o) s o.h [o.b] o.d (vcvtWidth o.dst)
      (converted o (s.ctx s.cur) (srcWord s [] o.b).toNat)) ∧
    (parts o ≤ (srcWord s [] o.b).toNat → Settled s → Traps (.vcvt o) s 0x0D (srcWord s [] o.b))) ∧
  (∀ (o : VbcastOps) s, Clear s o.h → s.guardLanes o.h ≠ 0 → VecReady s [o.d] → Ready s [o.a] none →
    IssuesVector (.vbcast o) s o.h [o.a] o.d o.ty.width fun _ => ((srcWord s [] o.a).toNat % 2 ^ o.ty.width, 0)) ∧
  (∀ (o : VredOps) s, Clear s o.h → s.guardLanes o.h ≠ 0 → (s.ctx s.cur).pendV o.a = false → Ready s [] (some o.d) →
    (let r := reduced o.ty (s.ctx s.cur) (s.guardLanes o.h) o.a (· + ·) addF32;
      ScalarFromVector (.vredadd o) s [] o.d r.1 r.2) ∧
    (let r := reduced o.ty (s.ctx s.cur) (s.guardLanes o.h) o.a max fun _ a b => fpMinMax fF32 true a b;
      ScalarFromVector (.vredmax o) s [] o.d r.1 r.2)) ∧
  (∀ (o : VgetOps) s, Clear s o.h → s.guardLanes o.h ≠ 0 → (s.ctx s.cur).pendV o.a = false → Ready s [o.b] (some o.d) →
    let k := srcWord s [] o.b + o.imm.signExtend 64
    let e := (s.ctx s.cur).elem o.a o.ty.width k.toNat
    (k.toNat < 2048 / o.ty.width → laneOn (s.guardLanes o.h) o.ty.width k.toNat = true → ScalarFromVector (.vmovgGet o) s [o.b] o.d
      (if o.ty.isInt then BitVec.ofInt 64 (vext o.ty e) else BitVec.ofNat 64 e) 0) ∧
    (k.toNat < 2048 / o.ty.width → laneOn (s.guardLanes o.h) o.ty.width k.toNat = false → ∃ t,
      exec (.vmovgGet o) s = .next t ∧ Retired s t [o.b] s.after putNone) ∧
    (2048 / o.ty.width ≤ k.toNat → Settled s → Traps (.vmovgGet o) s 0x0D k)) ∧
  (∀ (o : VputOps) s, Clear s o.h → s.guardLanes o.h ≠ 0 → VecReady s [o.d] → Ready s [o.a, o.b] none →
    let k := srcWord s [o.a] o.b + o.imm.signExtend 64
    (k.toNat < 2048 / o.ty.width → laneOn (s.guardLanes o.h) o.ty.width k.toNat = true → ∃ v,
      Issued (.vmovgPut o) s [o.a, o.b] { vec := [(o.d, v)] } ∧ ∀ j, j < 2048 / o.ty.width → velem v o.ty.width j =
        if j = k.toNat then (srcWord s [] o.a).toNat % 2 ^ o.ty.width else (s.ctx s.cur).elem o.d o.ty.width j) ∧
    (k.toNat < 2048 / o.ty.width → laneOn (s.guardLanes o.h) o.ty.width k.toNat = false → ∃ t,
      exec (.vmovgPut o) s = .next t ∧ Retired s t [o.a, o.b] s.after putNone) ∧
    (2048 / o.ty.width ≤ k.toNat → Settled s → Traps (.vmovgPut o) s 0x0D k))

/-- With a lane enabled and every enabled lane's 4-byte access granted, in ascending lane order: VLD at A + offset + 4i,
VLDS at A + offset + i times B, VGATH at A + offset + the scaled index join the order buffer as one load of those
lanes to their register; VST and VSCAT join it for tl4 with each enabled lane's word. No byte of memory and no
register changes at Issue. The first lane that fails its checks gives the trap; nothing is done. Complete here: vld,
vlds, vgath, vst, vscat. -/
def Obligations.VectorMemory : Prop :=
  (∀ (o : VldOps) s as, Clear s o.h → Lone s → s.guardLanes o.h ≠ 0 → (s.ctx s.cur).pendV o.d = false → Known s [o.a] →
    LanesGrant s o.a (s.guardLanes o.h) false (unitSteps o.off) as → LoadsVector (.vld o) s [] o.d as) ∧
  (∀ (o : VldsOps) s as, Clear s o.h → Lone s → s.guardLanes o.h ≠ 0 → (s.ctx s.cur).pendV o.d = false →
    Ready s [o.b] none → LanesGrant (s.taken [o.b] none) o.a (s.guardLanes o.h) false (strided o.off (srcWord s [] o.b)) as →
    LoadsVector (.vlds o) s [o.b] o.d as) ∧
  (∀ (o : VgathOps) s as, Clear s o.h → Lone s → s.guardLanes o.h ≠ 0 → (s.ctx s.cur).pendV o.d = false →
    (s.ctx s.cur).pendV o.b = false →
    LanesGrant s o.a (s.guardLanes o.h) false (indexOff ((s.ctx s.cur).vreg o.b) o.sc o.off) as → LoadsVector (.vgath o) s [] o.d as) ∧
  (∀ (o : VstOps) s as, Clear s o.h → Lone s → s.guardLanes o.h ≠ 0 → (s.ctx s.cur).pendV o.b = false →
    LanesGrant s o.a (s.guardLanes o.h) true (unitSteps o.off) as → StoresVector (.vst o) s o.b as) ∧
  (∀ (o : VscatOps) s as, Clear s o.h → Lone s → s.guardLanes o.h ≠ 0 → (s.ctx s.cur).pendV o.b = false →
    (s.ctx s.cur).pendV o.c = false →
    LanesGrant s o.a (s.guardLanes o.h) true (indexOff ((s.ctx s.cur).vreg o.b) o.sc o.off) as → StoresVector (.vscat o) s o.c as) ∧
  (∀ (o : VldOps) s t, Clear s o.h → s.guardLanes o.h ≠ 0 → Settled s →
    vlanes s s.cur o.a (s.guardLanes o.h) false (unitSteps o.off) = .error (.trap t) → exec (.vld o) s = .next (takeTrap s s.cur t)) ∧
  (∀ (o : VstOps) s t, Clear s o.h → s.guardLanes o.h ≠ 0 → Settled s →
    vlanes s s.cur o.a (s.guardLanes o.h) true (unitSteps o.off) = .error (.trap t) → exec (.vst o) s = .next (takeTrap s s.cur t)) ∧
  (∀ (s : State) (r : BitVec 6) (g : Word) (st : Bool) (off : Nat → Word) (as : List Acc),
    LanesGrant s r g st off as → as.map (·.lane) = (List.range 64).filter fun i => g.getLsbD i)

/-- With room in the engine's queue of eight, which each of these instructions enters: MCLAIM with a conflict writes the
conflicting items and changes no item; without one every named item not held becomes this context's, zero and ready,
and D is 0; a granted image's physical base is recorded. MREL frees the named items held, and the image record goes
with the last. MLD puts its slots into loading and joins the order buffer with the pieces R388 addresses, ACCLD with
32 rows of 128 bytes; ACCZ zeroes the named accumulators. Each of them, and MMA, MTERN, ACCST and ACCMOV, takes cause
0x38 with TRAPVAL the first unclaimed item. Nothing else changes. Complete here: mclaim, mrel, mld, accz, accld. -/
def Obligations.MatrixItemsAndLoads : Prop :=
  (∀ (o : MclaimOps) s w, Clear s o.h → On s o.h → Lone s → Ready s [] (some o.d) → o.d.local = true → s.engineRoom →
    (o.a = 0 ∨ holdsClaims s s.cur = true ∨ (o.slotm = 0 ∧ o.accm = 0)) → Conflicts s o.slotm o.accm w →
    (w ≠ 0 → ∃ t, exec (.mclaim o) s = .next t ∧
      ScalarDone (s.withMatrix { s.matrix with queue := s.enqueued }) t [] o.d w 0) ∧
    (w = 0 → ∃ m t, Claimed s o.slotm o.accm m ∧ exec (.mclaim o) s = .next t ∧ ScalarDone (s.withMatrix m) t [] o.d 0 0)) ∧
  (∀ (o : MclaimOps) s xl, Clear s o.h → On s o.h → Lone s → Ready s [] (some o.d) → o.d.local = true → s.engineRoom →
    o.a ≠ 0 → holdsClaims s s.cur = false → ¬ (o.slotm = 0 ∧ o.accm = 0) → ImageGrants s o.a xl →
    (contiguous xl = true → Conflicts s o.slotm o.accm 0 → ∃ m t, Claimed s o.slotm o.accm m ∧
      exec (.mclaim o) s = .next t ∧ ScalarDone ((s.withMatrix m).setCtx s.cur { s.ctx s.cur with
        mimage := xlAt xl ((s.ctx s.cur).low o.a).toNat }) t [] o.d 0 0) ∧
    (contiguous xl = false → Settled s → Traps (.mclaim o) s 0x0D ((s.ctx s.cur).low o.a))) ∧
  (∀ (o : MrelOps) s, Clear s o.h → On s o.h → Lone s → (∀ e ∈ s.matrix.queue, e.c ≠ s.cur) → s.engineRoom →
    Filled s ((List.range 32).filter fun i => o.slotm.getLsbD i && (s.matrix.slot i).owner == some s.cur)
      ((List.range 8).filter fun i => o.accm.getLsbD i && (s.matrix.acc i).owner == some s.cur) →
    ∃ m t, Released s o.slotm o.accm m ∧ exec (.mrel o) s = .next t ∧ Retired (s.withMatrix m) t [] { s.after with
      mimage := if holdsClaims (s.withMatrix m) s.cur then (s.ctx s.cur).mimage else 0 } putNone) ∧
  (∀ (o : MldOps) s as, Clear s o.h → On s o.h → Lone s → Ready s [o.b] none → Known s [o.a] →
    Claims s (mldSlots o) [] → Filled s (mldSlots o) [] → s.engineRoom →
    let v := srcWord s [] o.b
    let ea := (s.ctx s.cur).low o.a
    v.toNat % 16 = 0 → (o.sw = true → v.toNat + mldWidth o ≤ 128) → ea.toNat % (if o.sw then 1024 else 16) = 0 →
    pieceAccess (s.taken [o.b] none) s.cur o.a (piecesOf (mldRows o) (mldWidth o) (mldSource o ea v)) = .ok as →
    ∃ m, (∀ i, m.slot i = if i ∈ mldSlots o then { s.matrix.slot i with state := .loading } else s.matrix.slot i) ∧
      (∀ i, m.acc i = s.matrix.acc i) ∧ m.queue = s.enqueued ∧
      Engine (.mld o) s [o.b] m [.load as (.slots o.slot.toNat o.span2 (o.mode == .scale)
        (mldMap o.mode (32 - o.zrows.toNat) (mldRowBytes o) (mldWidth o)))]) ∧
  (∀ (o : MldOps) s, Clear s o.h → On s o.h → Ready s [o.b] none → Known s [o.a] → Claims s (mldSlots o) [] → Settled s →
    let v := srcWord s [] o.b
    let bad := v.toNat % 16 ≠ 0 ∨ (o.sw = true ∧ 128 < v.toNat + mldWidth o)
    (bad → Traps (.mld o) s 0x0D v) ∧
    (¬ bad → ((s.ctx s.cur).low o.a).toNat % (if o.sw then 1024 else 16) ≠ 0 → Traps (.mld o) s 0x0E ((s.ctx s.cur).low o.a))) ∧
  (∀ (o : AccldOps) s as, Clear s o.h → On s o.h → Lone s → Ready s [o.b] none → Known s [o.a] →
    Claims s [] [o.acc.toNat] → Filled s [] [o.acc.toNat] → s.engineRoom →
    let v := srcWord s [] o.b
    let ea := (s.ctx s.cur).low o.a
    v.toNat % 16 = 0 → ea.toNat % 16 = 0 →
    pieceAccess (s.taken [o.b] none) s.cur o.a (piecesOf 32 128 (rowSource ea v)) = .ok as →
    Engine (.accld o) s [o.b] { s.matrix with queue := s.enqueued } [.load as (.acc o.acc)]) ∧
  (∀ (o : AcczOps) s, Clear s o.h → On s o.h → Lone s →
    (let accs := (List.range 8).filter fun i => o.accm.getLsbD i;
    Claims s [] accs → Filled s [] accs → s.engineRoom → ∃ m, (∀ i, m.slot i = s.matrix.slot i) ∧ m.queue = s.enqueued ∧
      (∀ i, m.acc i = if o.accm.getLsbD i then { s.matrix.acc i with bytes := 0 } else s.matrix.acc i) ∧
      Engine (.accz o) s [] m [])) ∧
  (∀ s h n, Clear s h → On s h → Settled s →
    (∀ o : MldOps, o.h = h → FirstUnclaimed s (mldSlots o) [] n → Traps (.mld o) s 0x38 (BitVec.ofNat 64 n)) ∧
    (∀ o : MmaOps, o.h = h → Ready s [o.b] none → FirstUnclaimed s (mmaSlots o) (mmaAccs o) n → Traps (.mma o) s 0x38 (BitVec.ofNat 64 n)) ∧
    (∀ o : MternOps, o.h = h → FirstUnclaimed s (mternSlots o) (mternAccs o) n → Traps (.mtern o) s 0x38 (BitVec.ofNat 64 n)) ∧
    (∀ o : AcczOps, o.h = h → FirstUnclaimed s [] ((List.range 8).filter fun i => o.accm.getLsbD i) n →
      Traps (.accz o) s 0x38 (BitVec.ofNat 64 n)) ∧
    (∀ o : AccldOps, o.h = h → FirstUnclaimed s [] [o.acc.toNat] n → Traps (.accld o) s 0x38 (BitVec.ofNat 64 n)) ∧
    (∀ o : AccstOps, o.h = h → FirstUnclaimed s [] [o.acc.toNat] n → Traps (.accst o) s 0x38 (BitVec.ofNat 64 n)) ∧
    (∀ o : AccmovOps, o.h = h → FirstUnclaimed s [o.slot.toNat] [o.acc.toNat] n → Traps (.accmov o) s 0x38 (BitVec.ofNat 64 n)))

/-- A product with its items claimed, filled and sound writes each of the 1024 words of ACCD as R391 gives it from the
words before, and queues the OR of their flags; a faulted slot takes 0x39 with its number, its reason and its address.
ACCMOV writes the converted elements at their offset of each row of the slot and the rest stays; ACCST and MSAVE join
the order buffer for tl5 with every 16-byte word of the converted accumulator, or of the image. The flags of a
conversion wait in the engine's queue of eight, which each instruction enters. MRESTORE joins the order buffer as one
load of the image and its context waits; the load, when it performs, claims and fills the image's items and gives 0,
or gives 0xFF00000000000001 for a bad header, or the conflicts, changing no item; then MRESTORE writes what it gave.
Nothing else changes. Complete here: mma, mtern, accmov, accst, msave, mrestore. -/
def Obligations.MatrixProductsAndImages : Prop :=
  (∀ (o : MmaOps) s, Clear s o.h → On s o.h → Lone s → Ready s [o.b] none → MayMultiply s (mmaSlots o) (mmaAccs o) →
    ∃ m, Product s o.accd (fun i j => if o.ty = .i8 then productInt s.matrix o i j
      else mmaElem s.matrix o ((srcWord s [] o.b).toNat % 2 ^ 32) i j) m ∧ Engine (.mma o) s [o.b] m []) ∧
  (∀ (o : MternOps) s, Clear s o.h → On s o.h → Lone s → MayMultiply s (mternSlots o) (mternAccs o) →
    ∃ m, Product s o.accd (productTern s.matrix o) m ∧ Engine (.mtern o) s [] m []) ∧
  (∀ s h n r pa, Clear s h → On s h → Settled s → (s.matrix.slot n).state = .faulted r pa →
    (∀ o : MmaOps, o.h = h → Ready s [o.b] none → Claims s (mmaSlots o) (mmaAccs o) → Filled s (mmaSlots o) (mmaAccs o) →
      n ∈ mmaSlots o → (∀ i ∈ mmaSlots o, i < n → ∀ q p, (s.matrix.slot i).state ≠ .faulted q p) →
      Traps (.mma o) s 0x39 (packWord [(8, r.toNat), (0, n)]) (BitVec.ofNat 64 pa)) ∧
    (∀ o : MternOps, o.h = h → Claims s (mternSlots o) (mternAccs o) → Filled s (mternSlots o) (mternAccs o) →
      n ∈ mternSlots o → (∀ i ∈ mternSlots o, i < n → ∀ q p, (s.matrix.slot i).state ≠ .faulted q p) →
      Traps (.mtern o) s 0x39 (packWord [(8, r.toNat), (0, n)]) (BitVec.ofNat 64 pa))) ∧
  (∀ (o : AccmovOps) s fl, Clear s o.h → On s o.h → Lone s → Claims s [o.slot.toNat] [o.acc.toNat] →
    Filled s [o.slot.toNat] [o.acc.toNat] → s.engineRoom → (o.ofs = true → accTyBytes o.ty = 1) → accTyBytes o.ty ≤ 2 →
    ConvertFlags s o.acc o.si o.ty o.rm fl →
    ∃ m b t, MovedInto s o b ∧ (∀ i, m.slot i = if i = o.slot.toNat then { s.matrix.slot i with bytes := b } else s.matrix.slot i) ∧
      (∀ i, m.acc i = s.matrix.acc i) ∧ m.queue = s.enqueued fl ∧ exec (.accmov o) s = .next t ∧
      Retired (s.withMatrix m) t [] s.after putNone) ∧
  (∀ (o : AccstOps) s fl xl, Clear s o.h → On s o.h → Lone s → Ready s [o.b] none → Claims s [] [o.acc.toNat] →
    Filled s [] [o.acc.toNat] → s.engineRoom → StoreGrants s o (srcWord s [] o.b) xl → ConvertFlags s o.acc o.si o.ty o.rm fl →
    Engine (.accst o) s [o.b] { s.matrix with queue := s.enqueued fl }
      [.cmd (.words (storeWords s o (srcWord s [] o.b) xl) ((s.ctx s.cur).reg o.a).cap.key) 5]) ∧
  (∀ (o : OneG) s xl, Clear s o.h → On s o.h → Lone s → WholeImage s o.a permEdst 4 xl → s.engineRoom →
    Filled s ((List.range 32).filter fun i => (s.matrix.slot i).owner == some s.cur)
      ((List.range 8).filter fun i => (s.matrix.acc i).owner == some s.cur) →
    Engine (.msave o) s [] { s.matrix with queue := s.enqueued }
      [.cmd (.words (savedWords s ((s.ctx s.cur).low o.a) xl) ((s.ctx s.cur).reg o.a).cap.key) 5]) ∧
  (∀ (o : DstCap) s xl, Clear s o.h → On s o.h → Lone s → o.d.local = true → s.engineRoom → WholeImage s o.a permLd 0 xl →
    (∀ v e n, (s.ctx s.cur).run ≠ .blocked (.load v e) n) →
    Filled s ((List.range 32).filter fun i => (s.matrix.slot i).owner == some s.cur)
      ((List.range 8).filter fun i => (s.matrix.acc i).owner == some s.cur) →
    ∃ t, exec (.mrestore o) s = .next t ∧ Within s t ∧ SameBytes s t ∧ t.net = s.net ∧
      (∀ k, t.core k = (s.withMatrix { s.matrix with queue := s.enqueued }).core k) ∧
      (∀ e, e ≠ s.cur → t.ctx e = s.ctx e) ∧
      (t.ctx s.cur).waiting = (s.buffered [.load (imageAccs s o.a xl) .image]).waiting ∧ (t.ctx s.cur).sent = true ∧
      (t.ctx s.cur).reply = none ∧ ∃ n, (t.ctx s.cur).run = .blocked (.load false o.d) n) ∧
  (∀ (o : DstCap) s w, Clear s o.h → On s o.h → Lone s → o.d.local = true → Given s o.d false w → Ready s [] (some o.d) →
    ∃ t, exec (.mrestore o) s = .next t ∧ ScalarDone s t [] o.d w 0) ∧
  (∀ s c id i acc b u, readPieces s c id i acc = (.ok b, u) →
    (readHeader (b.take 0x100) = none → takeImage s c id i acc = (.ok 0xFF00000000000001, u)) ∧
    ∀ sm am fm rs, readHeader (b.take 0x100) = some (sm, am, fm, rs) →
      (∀ w, Conflicts { u with cur := c } sm am w → w ≠ 0 → takeImage s c id i acc = (.ok w, u)) ∧
      (Conflicts { u with cur := c } sm am 0 → ∃ m,
        Restored (u.core (coreOf c)).matrix c sm am fm rs (blockOf (imageBlocks sm am) (b.drop 0x100)) m ∧
        takeImage s c id i acc = (.ok 0, u.modCore (coreOf c) fun k => { k with matrix := m })))

/-- With its operands there and everything older complete, BCENT sends its key, identifier and variant to its die's Beacon
unit and BCLISTEN its identifier, and the context waits; when the result word has come it is written to D and the
context goes on; while it has not, the context waits. BCBIND .bind and .unbind, judged by the lanes as the changes
staged before leave them (the model's choice, log 72), stage their change and write 0, or write refusal 1, 2 or 3 in
that order, changing nothing; .stat writes the lane word as applied, or refusal 1; .assign at custodian level stages
the lane's new partition, or writes refusal 5; at kernel level it takes cause 0x02 with TRAPVAL W2, whatever the
guard. Complete here: bcent, bclisten, bcbindBind, bcbindUnbind, bcbindStat, bcbindAssign. -/
def Obligations.BeaconInstructions : Prop :=
  (∀ (o : BcentOps) s, Clear s o.h → On s o.h → Sends s [o.b] o.d → Ready s [o.b] (some o.d) → (s.ctx s.cur).sent = false →
    exec (.bcent o) s = .next (blockOn ((s.taken [o.b] (some o.d)).counted.withEntry
      { c := s.cur, cid := o.cid, part := (s.ctx s.cur).ident.part, vf := (s.ctx s.cur).ident.vf
        key := (srcWord s [] o.b).setWidth 32, nolate := o.nolate
        cust := (s.ctx s.cur).ident.custodian, set := (s.ctx s.cur).set }).hasSent s.cur .beacon)) ∧
  (∀ (o : BclistenOps) s, Clear s o.h → On s o.h → Sends s [] o.d → Ready s [] (some o.d) → (s.ctx s.cur).sent = false →
    exec (.bclisten o) s = .next (blockOn ((s.taken [] (some o.d)).counted.withEntry
      { c := s.cur, cid := o.cid, part := (s.ctx s.cur).ident.part, vf := (s.ctx s.cur).ident.vf, listen := true
        cust := (s.ctx s.cur).ident.custodian, set := (s.ctx s.cur).set }).hasSent
      s.cur .listen)) ∧
  (∀ (o : BcentOps) s, Clear s o.h → On s o.h → Lone s → o.d.local = true → (s.ctx s.cur).sent = true →
    (∀ w, (s.ctx s.cur).reply = some (.ok w) → Answered (.bcent o) s s o.d w) ∧
    ((s.ctx s.cur).reply = none → exec (.bcent o) s = .next (blockOn s s.cur .beacon))) ∧
  (∀ (o : BclistenOps) s, Clear s o.h → On s o.h → Lone s → o.d.local = true → (s.ctx s.cur).sent = true →
    (∀ w, (s.ctx s.cur).reply = some (.ok w) → Answered (.bclisten o) s s o.d w) ∧
    ((s.ctx s.cur).reply = none → exec (.bclisten o) s = .next (blockOn s s.cur .listen))) ∧
  (∀ (o : BindOps) s, Clear s o.h → On s o.h → Privileged s → Sends s [] o.d →
    let u := s.asked [] (some o.d)
    let n := o.lane.toNat
    let l := (s.lane n).after (s.lane n).staged.length
    (NotAssigned s l → Answered (.bcbindBind o) s u o.d (refusal 1)) ∧
    (¬ NotAssigned s l → BoundByOther s l → Answered (.bcbindBind o) s u o.d (refusal 2)) ∧
    (¬ NotAssigned s l → ¬ BoundByOther s l → BoundOnOther s n l.part o.cid → Answered (.bcbindBind o) s u o.d (refusal 3)) ∧
    (¬ NotAssigned s l → ¬ BoundByOther s l → ¬ BoundOnOther s n l.part o.cid →
      Answered (.bcbindBind o) s (u.stage n (.bind o.cid (s.ctx s.cur).ident.vf o.rot)) o.d 0)) ∧
  (∀ (o : LaneOps) s, Clear s o.h → On s o.h → Privileged s → Sends s [] o.d →
    let u := s.asked [] (some o.d)
    let n := o.lane.toNat
    let l := (s.lane n).after (s.lane n).staged.length
    (NotAssigned s l → Answered (.bcbindUnbind o) s u o.d (refusal 1)) ∧
    (¬ NotAssigned s l → BoundByOther s l → Answered (.bcbindUnbind o) s u o.d (refusal 2)) ∧
    (¬ NotAssigned s l → ¬ BoundByOther s l → Answered (.bcbindUnbind o) s (u.stage n .unbind) o.d 0) ∧
    (NotAssigned s (s.lane n) → Answered (.bcbindStat o) s u o.d (refusal 1)) ∧
    (¬ NotAssigned s (s.lane n) → Answered (.bcbindStat o) s u o.d (laneWord (s.lane n)))) ∧
  (∀ (o : AssignOps) s, (s.ctx s.cur).outst = 0 → (s.ctx s.cur).level = .kernel → Settled s →
    Traps (.bcbindAssign o) s 0x02 ((w2Of (encode (.bcbindAssign o))).setWidth 64)) ∧
  (∀ (o : AssignOps) s, Clear s o.h → On s o.h → (s.ctx s.cur).level = .custodian → Sends s [] o.d →
    let u := s.asked [] (some o.d)
    (16 ≤ o.part.toNat ∧ o.part ≠ 0xFF → Answered (.bcbindAssign o) s u o.d (refusal 5)) ∧
    (o.part.toNat < 16 ∨ o.part = 0xFF → Answered (.bcbindAssign o) s (u.stage o.lane.toNat (.assign o.part)) o.d 0))

/-- A frame address not a multiple of 65536 takes 0x0D with it; a transaction on an entry whose withdrawal is under way
waits, and keeps the words it took. Else it writes refusal 1 for a frame not named, 2 for one not of the issuer, 5 for
a held one, 3 for another state, 4 for a suspended borrower, 6 for a holder that is none, changing nothing; or it
performs its row: the entry has the row's state, owner, limit and deadline and GEN plus 1, and D is the new word 0, at
once where no world loses rights and else at the end of the withdrawal. FQUERY writes word 0, word 1 or the strike
word. At kernel level .grant and .reclaim take 0x02, whatever the guard. Complete here: foffer, fofferGrant,
fofferReclaim, faccept, fwithdraw, flend, frecall, fret, fqueryState, fqueryDl, fqueryStrk. -/
def Obligations.CustodyTransactions : Prop :=
  (∀ i f s, custodyForm i = some f → (s.ctx s.cur).outst = 0 → f.custodian = true → (s.ctx s.cur).level = .kernel →
    Settled s → Traps i s 0x02 ((w2Of (encode i)).setWidth 64)) ∧
  (∀ i f s, custodyForm i = some f → CustodyTurn s f → (custodyWords s f).1.toNat % 65536 ≠ 0 → Settled s →
    Traps i s 0x0D (custodyWords s f).1) ∧
  (∀ (o : DstSrc2) f s, custodyForm (.flend o) = some f → CustodyTurn s f → (custodyWords s f).1.toNat % 65536 = 0 →
    2 ^ 16 ≤ (custodyWords s f).2.toNat → Settled s → Traps (.flend o) s 0x0D (custodyWords s f).2) ∧
  (∀ i f s frame, custodyForm i = some f → CustodyTurn s f → (custodyWords s f).1.toNat = frame * 65536 →
    (∀ o, i = .flend o → (custodyWords s f).2.toNat < 2 ^ 16) →
    let u := s.asked f.srcs (some f.d)
    let id := (s.ctx s.cur).ident
    let free := revokeOf s frame = none
    let passes := frameNamed s frame = true ∧
      (f.own = true → OwnFrame s frame ∨ (isQuery i = true ∧ id.custodian = true)) ∧ Unheld s frame
    (¬ free → ∃ v, Kept s v f.srcs ∧ exec i s = .next (blockOn v s.cur .custody)) ∧
    (free → frameNamed s frame = false → Answered i s u f.d (refusal 1)) ∧
    (free → frameNamed s frame = true → f.own = true → ¬ OwnFrame s frame → ¬ (isQuery i = true ∧ id.custodian = true) →
      Answered i s u f.d (refusal 2)) ∧
    (free → frameNamed s frame = true → (f.own = true → OwnFrame s frame ∨ (isQuery i = true ∧ id.custodian = true)) →
      ¬ Unheld s frame → Answered i s u f.d (refusal 5)) ∧
    (free → passes → f.own = true → isQuery i = false →
      match custodyRow i (entry0 s frame) id.world (suspended s (strikesOf s id.part id.vf (!id.world))) s.time (custodyWords s f).2 with
      | .error n => Answered i s u f.d (refusal n)
      | .ok r => Performed i s (u.custodied i frame r) f.d frame (r.losers.map fun b => (id.part, id.vf, b))) ∧
    (free → passes → (∀ o, i = .fqueryState o → Answered i s u f.d (entry0 s frame)) ∧
      (∀ o, i = .fqueryDl o → Answered i s u f.d (entry1 s frame))) ∧
    (free → passes → ∀ o, i = .fofferGrant o →
      let b := (custodyWords s f).2
      let st := entState (entry0 s frame)
      let bad := 2 ^ 12 ≤ b.toNat ∨ b.extractLsb' 1 3 ≠ 0
      (st ≠ 0 → Answered i s u f.d (refusal 3)) ∧ (st = 0 → bad → Answered i s u f.d (refusal 6)) ∧
      (st = 0 → ¬ bad → Performed i s (cleanLines (putEntry u frame 1 (b.extractLsb' 8 8) (b.extractLsb' 4 4) (b.getLsbD 0) 0 0)
        frame true) f.d frame [])) ∧
    (free → passes → ∀ o, i = .fofferReclaim o →
      let w := entry0 s frame
      (entState w = 0 → Answered i s u f.d (refusal 3)) ∧
      (entState w ≠ 0 → Performed i s (putEntry u frame 0 0 0 false 0 0) f.d frame
        ((entPart w, entVf w, entOwner w) :: if 3 ≤ entState w then [(entPart w, entVf w, !entOwner w)] else [])))) ∧
  (∀ i f s, custodyForm i = some f → Clear s f.h → On s f.h →
    (if f.custodian then (s.ctx s.cur).level = .custodian else Privileged s) → Lone s → f.d.local = true →
    (s.ctx s.cur).sent = true →
    (∀ w, (s.ctx s.cur).reply = some (.ok w) → Answered i s s f.d w) ∧
    ((s.ctx s.cur).reply = none → exec i s = .next (blockOn s s.cur .custody))) ∧
  (∀ (o : OneDst) s, Clear s o.h → On s o.h → Privileged s → Sends s [] o.d →
    Answered (.fqueryStrk o) s (s.asked [] (some o.d)) o.d (if (s.ctx s.cur).ident.custodian then refusal 2
      else strikeWord s (strikesOf s (s.ctx s.cur).ident.part (s.ctx s.cur).ident.vf (s.ctx s.cur).ident.world))) ∧
  (∀ s frame st part vf owner limit dl, RecordSound s frame → st < 16 → limit < 65536 →
    let t := putEntry s frame st part vf owner limit dl
    entState (entry0 t frame) = st ∧ entPart (entry0 t frame) = part ∧ entVf (entry0 t frame) = vf ∧
      entOwner (entry0 t frame) = owner ∧ entGen (entry0 t frame) = entGen (entry0 s frame) + 1 ∧
      (entLimit (entry0 t frame)).toNat = limit ∧ entry1 t frame = dl)

/-- A load whose turn it is and whose homes it may read: LD writes its register with the extended bytes, LDC its 16 bytes
with the tag where kept, LDTG the lock, VLD its lanes, ACCLD its accumulator, MLD its slots, which become ready; an LD
or LDTG to a queue or a port and an MRESTORE give their word to their own instruction; the entry goes, save marks of
what is not yet drained or verified, and no byte of memory and no other register changes. A refused read leaves the
register as it was and its trap pending (0x41 without rights, 0x25 in a poisoned line); MLD's slots become faulted. In
HBM each byte is that of the youngest older own store, else of the store queue, else of memory; through an uncached
page it is that of memory. A line under a key its partition no longer has freezes that partition. A tag check that
succeeds takes away its mark; a failed one freezes the partition. Complete here: performLoad, tagCheckComplete. -/
def Obligations.LoadsPerform : Prop :=
  (∀ s c id e a d ty, LoadTurn s c id e [a] (.scalar d ty) →
    (∀ b u, readAt (s.reading c id e a) c id e.ident a = (.ok b, u) → ∃ t, exec (.performLoad c id) s = .next t ∧
      Loaded u t c id Context.feed ∧ WroteReg u t c d (Reg.ofWord (loadWord ty b)) ∧ SameBytes u t) ∧
    (∀ tr u, readAt (s.reading c id e a) c id e.ident a = (.error tr, u) →
      exec (.performLoad c id) s = .next (refusedLoad u c id tr))) ∧
  (∀ s c id e a d keep, LoadTurn s c id e [a] (.cap d keep) →
    (∀ b u, readAt (s.reading c id e a) c id e.ident a = (.ok b, u) → ∃ t, exec (.performLoad c id) s = .next t ∧
      Loaded u t c id Context.feed ∧ SameBytes u t ∧
      (let tag := keep && accTag (s.caching c id e [a]) c id a
      WroteReg u t c d { bits := if tag then BitVec.ofNat 128 (ofBytes b) else BitVec.ofNat 128 (ofBytes b % 2 ^ 64), tag := tag })) ∧
    (∀ tr u, readAt (s.reading c id e a) c id e.ident a = (.error tr, u) →
      exec (.performLoad c id) s = .next (refusedLoad u c id tr))) ∧
  (∀ s c id e a, (∃ d, LoadTurn s c id e [a] (.lock d)) ∨ LoadTurn s c id e [a] (.reply true) →
    let u := s.caching c id e [a]
    let w := (accLock u c id a).setWidth 64
    (homeRights u e.ident a.pa = true →
      (∀ d, e.op = .load [a] (.lock d) → ∃ t, exec (.performLoad c id) s = .next t ∧ Loaded u t c id Context.feed ∧
        WroteReg u t c d (Reg.ofWord w) ∧ SameBytes u t) ∧
      (e.op = .load [a] (.reply true) → ∃ t, exec (.performLoad c id) s = .next (giveReply t c w) ∧ Loaded u t c id (fun x => x) ∧
        (t.ctx c).g = (u.ctx c).g ∧ (t.ctx c).v = (u.ctx c).v ∧ SameBytes u t)) ∧
    (homeRights u e.ident a.pa = false →
      exec (.performLoad c id) s = .next (refusedLoad u c id { cause := 0x41, val := a.ea, aux := lineOf a }))) ∧
  (∀ s c id e a, LoadTurn s c id e [a] (.reply false) →
    (∀ b u, readAt (s.reading c id e a) c id e.ident a = (.ok b, u) → ∃ t,
      exec (.performLoad c id) s = .next (giveReply t c (BitVec.ofNat 64 (ofBytes b))) ∧ Loaded u t c id (fun x => x) ∧
      (t.ctx c).g = (u.ctx c).g ∧ (t.ctx c).v = (u.ctx c).v ∧ SameBytes u t) ∧
    (∀ tr u, readAt (s.reading c id e a) c id e.ident a = (.error tr, u) →
      exec (.performLoad c id) s = .next (refusedLoad u c id tr))) ∧
  (∀ s c id e as d, LoadTurn s c id e as (.vec d) →
    (∀ l u, readLanes (s.caching c id e as) c id e.ident as = (.ok l, u) → ∃ t w, exec (.performLoad c id) s = .next t ∧
      Loaded u t c id (fun x => x) ∧ WroteVreg u t c d w ∧ SameBytes u t ∧ l.map (·.1) = as.map (·.lane) ∧
      (∀ k, k < 64 → k ∉ as.map (·.lane) → velem w 32 k = velem ((u.ctx c).vreg d) 32 k) ∧
      ((as.map (·.lane)).Nodup → ∀ k x, (k, x) ∈ l → k < 64 → velem w 32 k = x % 2 ^ 32) ∧
      ∀ i j a b, as[i]? = some a → as[j]? = some b → a.pa = b.pa → (l.getD i (0, 0)).2 = (l.getD j (0, 0)).2) ∧
    (∀ tr u, readLanes (s.caching c id e as) c id e.ident as = (.error tr, u) →
      exec (.performLoad c id) s = .next (refusedLoad u c id tr))) ∧
  (∀ s c id e as d, LoadTurn s c id e as (.acc d) →
    (∀ b u, readPieces (s.caching c id e as) c id e.ident as = (.ok b, u) → ∃ t v m, exec (.performLoad c id) s = .next t ∧
      Loaded u v c id (fun x => x) ∧ SameBytes u v ∧ (u.ctx c).g = (v.ctx c).g ∧ (u.ctx c).v = (v.ctx c).v ∧
      t = modMatrix v c (fun _ => m) ∧ (m.acc d.toNat).bytes = BitVec.ofNat 32768 (ofBytes b) ∧
      (∀ i, i ≠ d.toNat → m.acc i = (matrixOf u c).acc i) ∧ m.slots = (matrixOf u c).slots ∧ m.queue = (matrixOf u c).queue)) ∧
  (∀ s c id e as slot map, LoadTurn s c id e as (.slots slot false false map) → cmdStopped s e.ident = false →
    (∀ x ∈ map, x.2 < 2048) → map.Pairwise (fun x y => x.2 ≠ y.2) →
    (∀ b u, readPieces (s.caching c id e as) c id e.ident as = (.ok b, u) → ∃ t v m, exec (.performLoad c id) s = .next t ∧
      Loaded u v c id (fun x => x) ∧ SameBytes u v ∧ t = modMatrix v c (fun _ => m) ∧ (m.slot slot).state = .ready ∧
      (m.slot slot).owner = ((matrixOf u c).slot slot).owner ∧
      (∀ k, k < 2048 → (m.slot slot).bytes.toNat / 2 ^ (8 * k) % 256 =
        match map.find? fun x => x.2 == k with | some x => (b.getD x.1 0).toNat | none => 0) ∧
      (∀ i, i ≠ slot → m.slot i = (matrixOf u c).slot i) ∧ m.accs = (matrixOf u c).accs) ∧
    (∀ tr u, readPieces (s.caching c id e as) c id e.ident as = (.error tr, u) → ∃ t r line, exec (.performLoad c id) s = .next t ∧
      ((matrixOf t c).slot slot).state = .faulted r line ∧ ((matrixOf t c).slot slot).bytes = 0 ∧
      (tr.cause = 0x41 → r = 3) ∧ (tr.cause = 0x24 → r = 5) ∧ (t.ctx c).pend = (u.ctx c).pend ∧
      ∀ a, as.find? (fun x => x.ea == tr.val) = some a → line = a.pa / 128 * 128)) ∧
  (∀ s c id e as, LoadTurn s c id e as .image →
    let l := touched s c id .image as
    (∀ w u, takeImage (s.caching c id e l) c id e.ident l = (.ok w, u) → ∃ t, exec (.performLoad c id) s = .next (giveReply t c w) ∧
      Loaded u t c id (fun x => x) ∧ SameBytes u t) ∧
    (∀ tr u, takeImage (s.caching c id e l) c id e.ident l = (.error tr, u) →
      exec (.performLoad c id) s = .next (refusedLoad u c id tr))) ∧
  (∀ s c id i a, ReadableHbm s c id i a → (readAt s c id i a).1 = .ok ((List.range a.n).map fun j =>
    if a.uncached then homeByte s (a.pa + j) else loadSource s c id (a.pa + j))) ∧
  (∀ s c id i (a : Acc) k o, region a.pa = .hbm k o → forwarded s c id a = false →
    (homeRights s i a.pa = false → readAt s c id i a = (.error { cause := 0x41, val := a.ea, aux := lineOf a }, s)) ∧
    (homeRights s i a.pa = true → poisoned s a.pa = true →
      readAt s c id i a = (.error { cause := 0x25, val := a.ea, aux := lineOf a }, s))) ∧
  (∀ s c id e as d l, LoadReady s c id e as d → failedSeal s c id e.ident (touched s c id d as) = some l →
    ∃ t, exec (.performLoad c id) s = .next t ∧ (t.part (entPart (entry0 s (l / 65536))).toNat).frozen = true) ∧
  (∀ s c id e pa, ((s.ctx c).lob.find? fun e => e.id == id && (match e.op with | .unverified _ => true | _ => false)) = some e →
    e.op = .unverified pa →
    (∃ t, exec (.tagCheckComplete c id true) s = .next t ∧ t = s.setCtx c { s.ctx c with lob := (t.ctx c).lob } ∧
      ∀ y, y ∈ (t.ctx c).lob ↔ y ∈ (s.ctx c).lob ∧ ¬ (y.id = id ∧ y.op = .unverified pa)) ∧
    (∃ t, exec (.tagCheckComplete c id false) s = .next t ∧ (t.part (partNo e.ident)).frozen = true))

/-- In its turn a cached store leaves the order buffer for the tail of its cluster's queue; a queue entry with nothing
older in common drains: its bytes stand at their home, with no tag, and no other byte changes; without rights nothing
is written and cause 0x41 is pending. A store that bypasses the queue writes at its home when sent. SEND puts a posted
store, an atomic or a signal in the network, the latter two with the next sequence number, and gives an engine command
its timeline's next number. A posted store that arrives writes its bytes and frees its entry, or leaves it refused
with its reason and 0x61 pending. A fence whose turn has come goes. Out of turn, nothing changes; a line that another
L2 holds is asked for first, and written once that has dropped it. Complete here: enqueueStore, drain, send,
fenceComplete, postedStoreArrival. -/
def Obligations.StoresReachTheirHomes : Prop :=
  (∀ s c id e data tag lock task, EntryTurn s c id e → e.op = .store data tag lock task → e.op.queued c = true →
    ∃ t, exec (.enqueueStore c id) s = .next t ∧ t = { s with ctxs := t.ctxs, clus := t.clus, next := s.next + 1 } ∧
      t.ctx c = { s.ctx c with lob := (s.ctx c).lob.filter fun y => y.id != id } ∧ (∀ d, d ≠ c → t.ctx d = s.ctx d) ∧
      (∀ k, t.clu k = if k = clusterOf c then { s.clu k with csq := (s.clu k).csq ++
        [{ id := s.next, c := c, lid := id, ident := e.ident, data := data, tag := tag, lock := lock, task := task }] } else s.clu k)) ∧
  (∀ s cl id e older a bs, DrainTurn s cl id e older → e.data = [(a, bs)] → e.lock = none →
    (StoreHome s e.c e.ident a bs → ∃ t, exec (.drain cl id) s = .next t ∧ OnlyStores s t ∧ Wrote s t a.pa bs ∧
      (s.ctags.Nodup → ∀ j, j < bs.length → homeTag t (a.pa + j) = (e.tag == some true && decide ((a.pa + j) / 16 = a.pa / 16))) ∧
      (t.clu cl).csq = (s.clu cl).csq.filter (fun y => y.id != id) ∧
      (∀ c, (t.ctx c).lob = if clusterOf c = cl ∧ isContext c = true then (s.ctx c).lob.filter (fun y => y.op != .readSibling cl id)
        else (s.ctx c).lob)) ∧
    (cmdStopped s e.ident = false → (s.die (dieOf e.c)).lost.getLsbD (homeDie s a.pa) = false → (∃ k o, region a.pa = .hbm k o) →
      homeRights s e.ident a.pa = false → ∃ t, exec (.drain cl id) s = .next t ∧ SameBytes s t ∧
        (t.ctx e.c).pend = (pendTrap s e.c { cause := 0x41, val := a.ea, aux := lineOf a } |>.ctx e.c).pend)) ∧
  (∀ s cl id e older a bs l, DrainFirst s cl id e older → e.data = [(a, bs)] → cacheable s a.pa = true → linesOf a.pa bs.length = [l] →
    granted s (cl / 64) l = false → (∀ v ∈ s.invals, v.line = some l → v.die ≠ cl / 64) → exec (.drain cl id) s =
      .next { s with next := s.next + 1, invals := s.invals ++ [{ id := s.next, c := 0, since := s.time.toNat, ident := {}
                                                                  line := some l, die := cl / 64
                                                                  waiting := (List.range 10).filter fun d => d != cl / 64 && (s.homeLine l).vec.getLsbD d }] }) ∧
  (∀ s c id e a bs lock task, EntryTurn s c id e → e.op = .store [(a, bs)] none lock task → e.op.queued c = false →
    frameHeld s a.pa = false → bankHeld s c a.pa s.next = false → cmdStopped s e.ident = false →
    (s.die (dieOf c)).lost.getLsbD (homeDie s a.pa) = false →
    (∀ cl off, region a.pa = .scratch cl off → cl ≠ clusterOf c → (s.clu cl).orphan = none →
      (scratchLoc s cl (off + bs.length - 1)).isSome = true → bs ≠ [] → (∀ j, j < bs.length → region (a.pa + j) = .scratch cl (off + j)) →
      s.poison = [] → (∀ j, j < bs.length → tileWrite s (a.pa + j) = s) → ∃ t, exec (.send c id) s = .next t ∧ OnlyStores s t ∧ Wrote s t a.pa bs) ∧
    (region a.pa = .mmio → exec (.send c id) s = .next { lobDrop s c id with devout := s.devout ++ [(a.pa, bs)] })) ∧
  (∀ s c id e j, EntryTurn s c id e → e.op = .post j → exec (.send c id) s = .next { lobDrop s c id with
    net := s.net ++ [(s.next, .post (coreOf c) j)], next := s.next + 1 }) ∧
  (∀ s c id e r, RequestTurn s c id e → e.op = .atomic r → ∃ t n, exec (.send c id) s = .next t ∧ n = (s.ctx c).seq + 1 ∧
    (let q : AtomReq := { r with seq := n, sent := s.time.toNat };
    t = { s with
      ctxs := t.ctxs, net := s.net ++ [(s.next, .atomic q)], next := s.next + 1
      l1 := s.l1.map fun (x : Nat × List L1Line) =>
        if x.1 / 512 = clusterOf c then (x.1, x.2.filter fun y => y.line != r.pa / 128) else x } ∧
    t.ctx c = { s.ctx c with lob := (s.ctx c).lob.filter fun y => y.id != id, seq := n, atoms := (s.ctx c).atoms ++ [.inl q] } ∧
    ∀ d, d ≠ c → t.ctx d = s.ctx d)) ∧
  (∀ s c id e r, RequestTurn s c id e → e.op = .signal r → ∃ t n, exec (.send c id) s = .next t ∧ n = (s.ctx c).seq + 1 ∧
    (let q : SigReq := { r with seq := n, sent := s.time.toNat };
    t = { s with ctxs := t.ctxs, cores := t.cores, net := s.net ++ [(s.next, .sig q)], next := s.next + 1 } ∧
    t.ctx c = { s.ctx c with lob := (s.ctx c).lob.filter fun y => y.id != id, seq := n, atoms := (s.ctx c).atoms ++ [.inr q] })) ∧
  (∀ s c id e op tl, EntryTurn s c id e → e.op = .cmd op tl → (∀ h d a k l xl ch r, op ≠ .copy h d a k l xl ch r) →
    let n := (s.tline (tlOwner s c) tl).issued + 1
    exec (.send c id) s = .next { (countSent (lobDrop s c id) c).modTline (tlOwner s c) tl (fun t => { t with issued := n, count := t.count + 1 }) with
      next := s.next + 1
      cmds := s.cmds ++ [{ id := s.next, c := c, core := coreOf c, owner := tlOwner s c, tl := tl, num := n, ident := e.ident, op := op }] }) ∧
  (∀ s c id e h d a k l xl ch r tl, EntryTurn s c id e → e.op = .cmd (.copy h d a k l xl ch r) tl →
    let q := Sparse.get [] (s.core (coreOf c)).channels ch
    let n := (s.tline (tlOwner s c) tl).issued + 1
    (q.length < 16 → ∃ t, exec (.send c id) s = .next t ∧ SameBytes s t ∧
      Sparse.get [] (t.core (coreOf c)).channels ch = q ++ [s.next] ∧ (t.tline (tlOwner s c) tl).issued = n ∧
      t.cmds = s.cmds ++ [{ id := s.next, c := c, core := coreOf c, owner := tlOwner s c, tl := tl, num := n, ident := e.ident, op := .copy h d a k l xl ch r }]) ∧
    (16 ≤ q.length → exec (.send c id) s = .next s)) ∧
  (∀ s c id e k sc, EntryTurn s c id e → e.op = .fence k sc → exec (.fenceComplete c id) s = .next (lobDrop s c id)) ∧
  (∀ s c id e, lobAt s c id = some e → mayGo s c e = false → exec (.enqueueStore c id) s = .next s ∧
    exec (.send c id) s = .next s ∧ exec (.fenceComplete c id) s = .next s ∧ exec (.performLoad c id) s = .next s) ∧
  (∀ s k core j e, InNet s k (.post core j) → Accepts s k core j e →
    (∀ r, postRefusal s e.c e = some r → exec (.postedStoreArrival k) s = .next (pendTrap ((takeMsg s k).modCore core fun x =>
      { x with journal := Sparse.set x.journal j { e with state := 2, reason := r } }) e.c
      { cause := 0x61, val := BitVec.ofNat 64 (j * 256 + r.toNat) })) ∧
    (postRefusal s e.c e = none → StoreHome s e.c e.ident e.acc (toBytes e.acc.n e.value.toNat) →
      ∃ t, exec (.postedStoreArrival k) s = .next t ∧ Wrote s t e.acc.pa (toBytes e.acc.n e.value.toNat) ∧
        (Sparse.get {} (t.core core).journal j : JEntry) = {} ∧ t.net = s.net.filter (fun m => m.1 != k)))

/-- A fresh atomic performs at its home, its reply is kept and sent, but waits while an older request of its context is on
its way to the engine; one already answered is answered again and a stale one dropped, with nothing changed. A reply
ends its request: a waiting AMO has it, a refused AMOR's trap is pending. A request 20 us old is sent again, or ends
with 0x33 where its engine's die is lost. A fresh TSIG with none older on its way subtracts from a backed counter. A
word fills an empty mailbox or a port with room, is redirected or put in the spill ring, and an owed acknowledgement
goes out; with no room it stays. Acknowledgements mark the context that waits. An active message joins the handler
queue of its die; a done message joins its word to the parent's. Complete here: performAtomic, atomicReply,
atomicResend, tsigPerform, wordArrival, mailboxAcknowledgement, doneMessageArrival, forwardingLapse,
activeMessageArrival, amsgAcceptance. -/
def Obligations.RequestsAreAnswered : Prop :=
  (∀ s k r, InNet s k (.atomic r) →
    (replyCache s r.engine r.c r.seq = .fresh → olderOnTheWay s r.engine r.c r.seq = true → exec (.performAtomic k) s = .next s) ∧
    (replyCache s r.engine r.c r.seq = .fresh → olderOnTheWay s r.engine r.c r.seq = false → frameHeld s r.pa = false →
      bankHeld s r.c r.pa k = false → (cacheable s r.pa = true → granted s r.engine (r.pa / 128) = true) → ∃ t, exec (.performAtomic k) s = .next t ∧
      (let a := applyAtomic (takeMsg s k) r;
      t.net = netAfter s k [.atomReply r.c r.seq a.1 a.2.1] ∧ (∀ x, byteAt t x = byteAt a.2.2 x) ∧
      Sparse.get [] (t.die r.engine).replies r.c = ((r.seq, a.1, a.2.1) :: Sparse.get [] (s.die r.engine).replies r.c).take 4)) ∧
    (∀ p f, replyCache s r.engine r.c r.seq = .cached p f → exec (.performAtomic k) s =
      .next { s with net := netAfter s k [.atomReply r.c r.seq p f], next := s.next + 1 }) ∧
    (replyCache s r.engine r.c r.seq = .stale → exec (.performAtomic k) s = .next { s with net := netAfter s k [] })) ∧
  (∀ s k c seq p f r, InNet s k (.atomReply c seq p f) → (s.ctx c).atoms = [.inl r] → r.seq = seq →
    (r.dst.isSome = true → (∃ n, (s.ctx c).run = .blocked .amoReply n) → ∃ t, exec (.atomicReply k) s = .next t ∧ SameBytes s t ∧
      t.ctx c = { s.ctx c with atoms := [], reply := some p, oflags := f } ∧ t.net = netAfter s k []) ∧
    (r.dst = none → ∀ tr, p = .trap tr → r.owner = tlOwner s c → (s.ctxs.filter fun x => tlOwner s x.1 == r.owner) = [(c, s.ctx c)] →
      (s.ctx c).run ≠ .free → ∃ t, exec (.atomicReply k) s = .next t ∧ (t.ctx c).atoms = [] ∧ tr ∈ (t.ctx c).pend ∧ SameBytes s t)) ∧
  (∀ s c r, (s.ctx c).atoms = [.inl r] →
    (s.time.toNat < r.sent + 20000 → exec (.atomicResend c) s = .next s) ∧
    (r.sent + 20000 ≤ s.time.toNat → (s.die (dieOf c)).lost.getLsbD r.engine = false →
      ∃ t, exec (.atomicResend c) s = .next t ∧ t.net = s.net ++ [(s.next, .atomic { r with sent := s.time.toNat })] ∧
        (t.ctx c).atoms = [.inl { r with sent := s.time.toNat }]) ∧
    (r.sent + 20000 ≤ s.time.toNat → (s.die (dieOf c)).lost.getLsbD r.engine = true →
      (∃ n, (s.ctx c).run = .blocked .amoReply n) → r.dst.isSome = true → ∃ t, exec (.atomicResend c) s = .next t ∧
        t.ctx c = { s.ctx c with atoms := [], reply := some (.trap { cause := 0x33, val := r.ea, aux := 1 }), oflags := 0 })) ∧
  (∀ s k r q off, InNet s k (.sig r) → replyCache s r.die r.c r.seq = .fresh → olderOnTheWay s r.die r.c r.seq = false → bankHeld s r.c r.pa k = false → region r.pa = .scratch q off →
    (scratchLoc s q off).isSome = true → (s.clu q).orphan = none → cmdStopped s r.ident = false →
    ∃ t, exec (.tsigPerform k) s = .next t ∧ t.net = netAfter s k [.atomReply r.c r.seq (.ok 0) 0] ∧
      ∀ x, byteAt t x = byteAt (signalCounter s r.pa r.amount.toNat) x) ∧
  (∀ s k core m w c gti i fwd owed, WordTurn s k core (.mbx m) w c gti i fwd owed → route s core (.mbx m) = .accept →
    ((s.core core).mail m = none → ∃ t, exec (.wordArrival k) s = .next t ∧ (t.core core).mail m = some { w with t1 := s.time.toNat } ∧
      (∀ j, j ≠ m → (t.core core).mail j = (s.core core).mail j) ∧ (∀ j, (t.core core).port j = (s.core core).port j) ∧
      t.net = netAfter s k (if owed then [.wordAck c gti] else []) ∧ SameBytes s t ∧
      ∀ d ∈ contextsOf core, (t.ctx d).latch = (s.ctx d).latch ||| 0x01) ∧
    ((s.core core).mail m ≠ none → exec (.wordArrival k) s = .next s)) ∧
  (∀ s k core n w c gti i fwd owed, WordTurn s k core (.port n) w c gti i fwd owed → route s core (.port n) = .accept →
    ((s.core core).port n |>.length) < 4 → ∃ t, exec (.wordArrival k) s = .next t ∧ (t.core core).port n = (s.core core).port n ++ [w.w] ∧
      (∀ j, j ≠ n → (t.core core).port j = (s.core core).port j) ∧ ∀ d ∈ contextsOf core, (t.ctx d).latch = (s.ctx d).latch ||| 0x02) ∧
  (∀ s k core r w c gti i fwd owed, WordTurn s k core r w c gti i fwd owed →
    (∀ target, route s core r = .redirect target → exec (.wordArrival k) s =
      .next { s with net := netAfter s k [.word target r w c gti i true owed], next := s.next + 1 }) ∧
    (∀ g, route s core r = .ring g → (s.core core).spill.length < 256 → ∃ t, exec (.wordArrival k) s = .next t ∧
      t.core core = { s.core core with spill := (s.core core).spill ++ [{ gti := g, reg := r, w := w }] } ∧
      t.net = netAfter s k (if owed then [.wordAck c gti] else []))) ∧
  (∀ s k c gti, c ≠ hardwareSender → gtiOf (s.ctx c) = gti →
    (InNet s k (.wordAck c gti) → (s.ctx c).outst = 1 → exec (.mailboxAcknowledgement k) s =
      .next ((takeMsg s k).setCtx c { s.ctx c with acked := true })) ∧
    (InNet s k (.amsgAck c gti) → (s.ctx c).outst = 2 → exec (.amsgAcceptance k) s =
      .next ((takeMsg s k).setCtx c { s.ctx c with acked := true }))) ∧
  (∀ s k m, InNet s k (.amsg m) → current s m.ident = true → (s.die (dieOf m.c)).lost.getLsbD m.die = false →
    ((s.die m.die).handlers.length < 256 → ∃ t, exec (.activeMessageArrival k) s = .next t ∧ SameBytes s t ∧
      t = { s with dies := t.dies, net := netAfter s k [.amsgAck m.c m.gti], next := s.next + 1 } ∧
      ∀ d, t.die d = if d = m.die then { s.die d with handlers := (s.die d).handlers ++ [{ m with t1 := s.time.toNat }] } else s.die d) ∧
    (256 ≤ (s.die m.die).handlers.length → exec (.activeMessageArrival k) s = .next s)) ∧
  (∀ s k job rank word j p, InNet s k (.done job rank word) → s.job job = some j →
    (Sparse.get {} j.members rank : Member).parent = some p → exec (.doneMessageArrival k) s =
      .next (settleMember (modMember (takeMsg s k) job p fun m => { m with word := combine m.word word, heard := m.heard ++ [rank] }) job p)) ∧
  (∀ s k core gti, InNet s k (.lapse core gti) → exec (.forwardingLapse k) s =
    .next (sendLapse ((takeMsg s k).modCore core fun x => { x with fwd := x.fwd.filter fun f => f.gti != gti }) core gti))

/-- In its turn a VST lane writes its 4 bytes, a word of ACCST or MSAVE its 16, a delivery of a copy its byte; SGATH, SRED
and SCONV elements and tile commands perform as R323 to R334 give; a failed effect writes nothing and the first
failure of lowest index is kept; a copy stops at its failure; a detached or lost region ends its command. LAUNCH
starts its job or waits. A command with every effect done leaves, on timeline 6 after those before it; its counter
becomes the largest number below which all have completed; its trap follows. COPYR joins its die's queue while that
has room, and completes with the report. The oldest vector instruction writes its registers and raises its flags; so
does the oldest matrix instruction its flags. Complete here: enginePerform, engineComplete, copyrQueueArrival,
copyCompletionReport, vectorInstructionComplete, matrixInstructionComplete. -/
def Obligations.EnginesPerformAndComplete : Prop :=
  (∀ s id k old e l x, EffectTurn s id k e → e.op = .vst l → l[k]? = some x → cmdStopped s e.ident = false →
    (EngineHome s (coreDie e.core) e.ident x.1.pa (toBytes 4 x.2.toNat) → ∃ t, exec (.enginePerform id k old) s = .next t ∧
      Wrote s t x.1.pa (toBytes 4 x.2.toNat) ∧ Effected s t { e with done := insertNat e.done k }) ∧
    (∀ b, x.1.pa % 128 + 4 ≤ 128 → accessBad s (coreDie e.core) e.ident x.1.pa 4 true = some b → exec (.enginePerform id k old) s =
      .next (setCmd s { e with done := insertNat e.done k, fail := firstFail e.fail (some (x.1.lane, vstReason b, 0)) }))) ∧
  (∀ s id k old e ws key w, EffectTurn s id k e → e.op = .words ws key → ws[k]? = some w → cmdStopped s e.ident = false →
    homeLock s w.2.1 = 0 ∨ homeLock s w.2.1 = key → EngineHome s (coreDie e.core) e.ident w.2.1 (toBytes 16 w.2.2.toNat) →
    ∃ t, exec (.enginePerform id k old) s = .next t ∧ Wrote s t w.2.1 (toBytes 16 w.2.2.toNat) ∧
      Effected s t { e with done := insertNat e.done k }) ∧
  (∀ s id k old e h d a dk ak xl ch rem, EffectTurn s id k e → e.op = .copy h d a dk ak xl ch rem → copyRuns s e ch rem = true →
    k = e.deliv → e.fail = none → k < h.total → (∀ r, rem = some r → (s.die (dieOf e.c)).lost.getLsbD r.die = false) →
    let src := xlAt xl (h.src a k)
    let dst := xlAt xl (h.dst d k)
    let f := started s e h d a xl k
    (∀ u, deliverByte s f h d a dk ak xl k old = .ok u → ∃ t, exec (.enginePerform id k old) s = .next t ∧
      (∀ x, byteAt t x = byteAt u x) ∧ cmdAt t id = some { f with deliv := k + 1 }) ∧
    (∀ b, deliverByte s f h d a dk ak xl k old = .error b → exec (.enginePerform id k old) s =
      .next (setCmd s { f with fail := some (k, copyReason b, 0) })) ∧
    (cmdStopped s e.ident = false → homeLock s src = 0 ∨ homeLock s src = ak → homeLock s dst = 0 ∨ homeLock s dst = dk →
      (∃ k o, region src = .hbm k o) → poisoned s src = false → accessBad s (dieOf e.c) e.ident src 1 false = none →
      EngineHome s (dieOf e.c) e.ident dst [homeByte s src] → old = false ∨ (∀ j, j < k → xlAt xl (h.dst d j) ≠ src) →
      (s.base (src / 2 ^ 37)).tiles = [] → ∃ t, exec (.enginePerform id k old) s = .next t ∧ Wrote s t dst [homeByte s src])) ∧
  (∀ s id k old e ty op n d a xl u v x vb db, EffectTurn s id k e → e.op = .sred ty op n d a xl → cmdStopped s e.ident = false →
    let w := sredBytes ty
    engineGetAt s (coreDie e.core) e.ident xl (a.toNat + k * w) w = .ok (vb, u) →
    engineGetAt u (coreDie e.core) e.ident xl (d.toNat + k * w) w = .ok (db, v) →
    (let r := reduce ty op (ofBytes db) (ofBytes vb);
    enginePutAt v (coreDie e.core) e.ident xl (d.toNat + k * w) (toBytes w r.1) = .ok x →
      exec (.enginePerform id k old) s = .next (setCmd x { e with done := insertNat e.done k, flags := e.flags ||| r.2
                                                                  fail := firstFail e.fail none }))) ∧
  (∀ s id k old e, EffectTurn s id k e → cmdStopped s e.ident = false →
    (∀ n64 n roww d a b base top xl kern, e.op = .sgath n64 n roww d a b base top xl kern → exec (.enginePerform id k old) s =
      .next (stackDone e k (performSgath s e.c e.ident n64 roww d a b base top xl kern k))) ∧
    (∀ sf df rm n d a b xl, e.op = .sconv sf df rm n d a b xl → exec (.enginePerform id k old) s =
      .next (stackDone e k (performSconv s (coreDie e.core) e.ident sf df rm d a b xl k)))) ∧
  (∀ s id old e rid co a xl r, EffectTurn s id 0 e → cmdStopped s e.ident = false → e.done = [] →
    (∀ ti u, e.op = .tclook false rid co a xl → TileTurn s (coreDie e.core) e.ident rid co a xl r.cs r → findTile s r (tileIndex r.counts co) = some ti →
      enginePutAt s (coreDie e.core) e.ident xl a.toNat (r.view ti.bytes) = .ok u → exec (.enginePerform id 0 old) s =
        .next (setCmd u { e with done := [0], fail := firstFail e.fail none })) ∧
    (∀ ti b u, e.op = .tclook true rid co a xl → TileTurn s (coreDie e.core) e.ident rid co a xl r.cs r →
      engineGetAt s (coreDie e.core) e.ident xl a.toNat r.cs = .ok (b, u) → findTile u r (tileIndex r.counts co) = some ti →
      exec (.enginePerform id 0 old) s = .next (setCmd (dirtyTile u r ti (r.ofView (tileIndex r.counts co) b))
        { e with done := [0], fail := firstFail e.fail none })) ∧
    (∀ v, e.op = .tcinv v rid → regionOf s (partNo e.ident) rid = some r → r.detached = false →
      (s.die (coreDie e.core)).lost.getLsbD (homeDie s r.base) = false →
      let u := invRegion s r (v == 1)
      exec (.enginePerform id 0 old) s = .next (setCmd (if v = 2 then purgeRange (purgeRange u r.base (r.tiles * r.ss)) r.scale
        (r.tiles * r.sb) else u) { e with done := [0], fail := firstFail e.fail none }))) ∧
  (∀ s id k old e rid reason, EffectTurn s id k e → e.tl = 6 → e.op.region = some rid → cmdStopped s e.ident = false →
    (reason = 4 ∧ ∀ r, regionOf s (partNo e.ident) rid = some r → r.detached = true) ∨
      (reason = 5 ∧ ∃ r, regionOf s (partNo e.ident) rid = some r ∧ r.detached = false ∧
        (s.die (coreDie e.core)).lost.getLsbD (homeDie s r.base) = true) → exec (.enginePerform id k old) s =
      .next (setCmd s { e with done := List.range (effectCount e), fail := firstFail e.fail (some (0, reason, 0)) })) ∧
  (∀ s id old e a xl kern, EffectTurn s id 0 e → e.op = .launch a xl kern →
    (∀ t, performLaunch s e a xl kern = some t → exec (.enginePerform id 0 old) s = .next t) ∧
    (performLaunch s e a xl kern = none → exec (.enginePerform id 0 old) s = .next s)) ∧
  (∀ s id e, cmdAt s id = some e → cmdTurn s e = true → (∀ h d a dk ak xl ch r, e.op ≠ .copy h d a dk ak xl ch (some r)) →
    owns s e.owner e.tl = true → ∃ t, exec (.engineComplete id) s = .next t ∧ SameBytes s t ∧ t.cmds = s.cmds.filter (fun x => x.id != id) ∧
      (t.tline e.owner e.tl).issued = (s.tline e.owner e.tl).issued ∧
      (t.tline e.owner e.tl).done = (advance (s.tline e.owner e.tl) e.num).done ∧
      (e.fail = none → ∀ c, (t.ctx c).pend = (s.ctx c).pend) ∧
      (e.fail ≠ none → ∃ tr, CommandTrap e tr ∧ failTrap e = some tr ∧
        ∀ c, isContext c = true → (s.ctx c).run ≠ .free → tlOwner s c = e.owner → s.ctxs = [(c, s.ctx c)] → tr ∈ (t.ctx c).pend)) ∧
  (∀ (t : Timeline) n, TimelineOk t → t.done < n → n ∉ t.above →
    (∀ j, j ≤ (advance t n).done → j ≤ t.done ∨ j = n ∨ j ∈ t.above) ∧ (advance t n).done + 1 ≠ n ∧ (advance t n).done + 1 ∉ t.above ∧
      t.done ≤ (advance t n).done ∧ TimelineOk (advance t n)) ∧
  (∀ s id e h d a dk ak xl ch r, cmdAt s id = some e → e.op = .copy h d a dk ak xl ch (some r) →
    (e.stage = 0 → (Sparse.get [] (s.core e.core).channels ch).head? = some id → (s.die (coreDie e.core)).lost.getLsbD r.die = false →
      ((s.die r.die).copyq.length < 512 → ∃ t, exec (.copyrQueueArrival id) s = .next t ∧ (t.die r.die).copyq = (s.die r.die).copyq ++ [id] ∧
        cmdAt t id = some { e with stage := 2 } ∧ SameBytes s t) ∧
      (512 ≤ (s.die r.die).copyq.length → exec (.copyrQueueArrival id) s = .next s)) ∧
    (e.stage = 2 → cmdTurn s e = true → exec (.copyCompletionReport id) s =
      .next (completeCmd (s.modDie r.die fun x => { x with copyq := x.copyq.filter (· != id) }) e))) ∧
  (∀ s c q r, (s.ctx c).vq = q :: r → (s.ctx c).vloadsDone q.lid = true →
    ∃ t, exec (.vectorInstructionComplete c) s = .next t ∧ SameBytes s t ∧
    (t.ctx c).vq = r ∧ (t.ctx c).flags = (s.ctx c).flags ||| q.flags ∧
    (∀ v w, q.vec = [(v, w)] → ∀ j, (t.ctx c).vreg j = if j = v then w else (s.ctx c).vreg j) ∧
    (∀ p w, q.pred = [(p, w)] → p ≠ 0 → (t.ctx c).pred p = w) ∧ (∀ g w, q.gen = [(g, w)] → g ≠ 0 → (t.ctx c).reg g = Reg.ofWord w) ∧
    (q.vec = [] → (t.ctx c).v = (s.ctx c).v) ∧ (q.pred = [] → (t.ctx c).p = (s.ctx c).p) ∧ (q.gen = [] → (t.ctx c).g = (s.ctx c).g) ∧
    ∀ d, d ≠ c → t.ctx d = s.ctx d) ∧
  (∀ s core q r, (s.core core).matrix.queue = q :: r → ∃ t, exec (.matrixInstructionComplete core) s = .next t ∧ SameBytes s t ∧
    (t.core core).matrix = { (s.core core).matrix with queue := r } ∧ t.ctx q.c = { s.ctx q.c with flags := (s.ctx q.c).flags ||| q.flags } ∧
    ∀ d, d ≠ q.c → t.ctx d = s.ctx d)

/-- A context off a pair with no claim, drained, whose area is free and may be written: SWITCH_OUT writes its registers at
R235's offsets, frees it, and changes no byte outside the area but of a scratchpad; for a pre-emption or YIELD the
task joins the ready pool, for a trap it enters the stopped-task table and its request the service queue; while that
is full the context, saved, waits in its place. PARK does so for a context long blocked in a wait R253 may park, whose
task is then parked; one in a wait it never parks stays. A context not drained stays. TASK_DISPATCH takes the task
R252 chooses: a new one starts at its entry with R247's registers, a saved one has the registers its area holds and
the latch with bits 0 to 2 and those that came meanwhile. Complete here: switchOut, park, taskDispatch. -/
def Obligations.TasksLeaveAndResume : Prop :=
  (∀ s c r t idx, (s.ctx c).run = .leaving r → LeaveTurn s c t idx → (r = 2 ∨ r = 5) → (s.ctx c).pend = [] →
    ∃ u, exec (.switchOut c) s = .next u ∧ Left s u c idx r ∧
      (u.die (dieOf c)).ready = (s.die (dieOf c)).ready ++ [savedTask s c idx t none] ∧
      (u.die (dieOf c)).parked = (s.die (dieOf c)).parked ∧ (u.die (dieOf c)).stopped = (s.die (dieOf c)).stopped) ∧
  (∀ s c t idx, (s.ctx c).run = .leaving 1 → LeaveTurn s c t idx →
    (let q := requests s (dieOf c) (s.ctx c).ident.part.toNat (s.ctx c).ident.vf.toNat;
    (q.length < 4096 → ∃ u e v, exec (.switchOut c) s = .next u ∧ Left s u c idx 1 ∧ (u.die (dieOf c)).ready = (s.die (dieOf c)).ready ∧
      (u.die (dieOf c)).stopped = (s.die (dieOf c)).stopped ++ [e] ∧ e.gti = t.gti ∧ e.area = areaPa s c idx ∧ e.reason = 1 ∧
      e.task = savedTask s c idx t none ∧ e.notice = none ∧
      requests u (dieOf c) (s.ctx c).ident.part.toNat (s.ctx c).ident.vf.toNat = q ++ [.trap e.task e.area v
        { cause := (s.ctx c).ktrap.cause, val := (s.ctx c).ktrap.val, aux := (s.ctx c).ktrap.aux } (s.ctx c).ktrap.pc] ∧
      v = (Sparse.get {} (s.die (dieOf c)).pools (s.ctx c).ident.vf.toNat : Pool).va * 256 + 0x2800 * idx) ∧
    (4096 ≤ q.length → ∃ u e, exec (.switchOut c) s = .next u ∧ AreaHolds s u c (areaPa s c idx) 1 ∧
      (u.ctx c).run = .saved (areaPa s c idx) idx ∧ (u.ctx c).task = some (savedTask s c idx t none) ∧
      (u.die (dieOf c)).stopped = (s.die (dieOf c)).stopped ++ [e] ∧ e.gti = t.gti ∧
      idx ∈ (Sparse.get {} (u.die (dieOf c)).pools (s.ctx c).ident.vf.toNat : Pool).used ∧
      requests u (dieOf c) (s.ctx c).ident.part.toNat (s.ctx c).ident.vf.toNat = q))) ∧
  (∀ s c a idx t, (s.ctx c).run = .saved a idx → (s.ctx c).task = some t →
    (let q := requests s (dieOf c) (s.ctx c).ident.part.toNat (s.ctx c).ident.vf.toNat;
    (4096 ≤ q.length → exec (.switchOut c) s = .next s) ∧
    (q.length < 4096 → ∃ u va, exec (.switchOut c) s = .next u ∧ (u.ctx c).run = .free ∧ (u.ctx c).task = none ∧
      requests u (dieOf c) (s.ctx c).ident.part.toNat (s.ctx c).ident.vf.toNat = q ++ [.trap t a va
        { cause := (s.ctx c).ktrap.cause, val := (s.ctx c).ktrap.val, aux := (s.ctx c).ktrap.aux } (s.ctx c).ktrap.pc]))) ∧
  (∀ s c r, (s.ctx c).run = .leaving r → drained s c = false → (s.core (coreOf c)).bridle = none → ((s.ctx c).pend = [] ∨ r = 1) →
    exec (.switchOut c) s = .next s) ∧
  (∀ s c w t idx, LongBlocked s c w → w.parks = true → drained s c = true → LeaveTurn (giveBack s c) c t idx →
    ∃ u, exec (.park c) s = .next u ∧ Left (giveBack s c) u c idx 0 ∧
      (u.die (dieOf c)).parked = (s.die (dieOf c)).parked ++ [savedTask (giveBack s c) c idx t (some w)] ∧
      (u.die (dieOf c)).ready = (s.die (dieOf c)).ready) ∧
  (∀ s c w n, (s.ctx c).run = .blocked w n → w.staysPut = true → exec (.park c) s = .next s) ∧
  (∀ s c, freeArea s (dieOf c) (s.ctx c).ident.vf.toNat = none → exec (.park c) s = .next s) ∧
  (∀ s c t, choose s c = some t → t ∈ (s.die (dieOf c)).ready ∧ mayRun s c t = true ∧
    (∀ u ∈ (s.die (dieOf c)).ready, mayRun s c u = true → u.prio ≤ t.prio) ∧
    ∀ u ∈ (s.die (dieOf c)).ready, mayRun s c u = true → u.prio = t.prio →
      (u.promoted = true → t.promoted = true) ∧ (t.promoted = false → u.home = some (coreOf c) → t.home = some (coreOf c))) ∧
  (∀ s c, choose s c = none → (∀ u ∈ (s.die (dieOf c)).ready, mayRun s c u = false) ∧ exec (.taskDispatch c) s = .next s) ∧
  (∀ s c t, choose s c = some t → t.save = none → armedFor s t = none → ∃ u w, exec (.taskDispatch c) s = .next u ∧
    Started u c t.entry .task t.ident (argRegs6 t ++ [w]) ∧
    (t.member = none → w = Reg.ofWord ((coreWord s t.ident (coreOf c)).setWidth 64)) ∧
    (∀ j m i b, t.member = some (j, m) → s.job j = some b → (Sparse.get {} b.members m : Member) = i →
      w = Reg.ofWord (nat64 (m * 2 ^ 32 + (coreWord s t.ident i.core).toNat))) ∧
    ((u.ctx c).task.map (·.gti) = some t.gti) ∧ (∀ j, j < 8 → (u.tline (t.gti.toNat * 2 + 1) j) = {}) ∧ SameBytes s u ∧
    (u.die (dieOf c)).ready.map (·.gti) = ((s.die (dieOf c)).ready.map (·.gti)).erase t.gti) ∧
  (∀ s c t a d i, choose s c = some t → t.save = some (a, d, i) → ∃ u, exec (.taskDispatch c) s = .next u ∧ Restored' s u c a t ∧
    (u.ctx c).level = .task ∧ (u.ctx c).ident = t.ident ∧ (u.ctx c).task.map (·.gti) = some t.gti ∧
    ((homeWord s (a + 0x68)).toNat % 4 = 0 → (u.ctx c).run = .running) ∧
    i ∉ (Sparse.get {} (u.die d).pools t.ident.vf.toNat : Pool).used)

/-- The lowest pending asynchronous trap is taken by a context that issues and awaits no reply; where it is taken in
place, the others are put off to the return from its handler. A scheduler's pre-emption leaves a request and latch bit
4. A WFE past its deadline finds latch bit 3. A walk that succeeds puts its translation into the cluster's TLB and the
context runs; one that fails is the context's trap. A die that has no access left to a removed translation drops it
from its TLBs and acknowledges; the last acknowledgement answers the issuer. Banks a BANKCFG waits for take their
modes once idle, and a new scratch bank reads zero. An actor that may fire makes one new task in the pool, and one
that may not none, and retires where its producers have. A free handler context starts the oldest message it may, with
its words in g1 to g4 and the sender in g5. Where the condition fails, nothing changes. Complete here: asyncTrapTaken,
schedulerPreemption, wfeTimeout, pageWalk, invalidationAck, bankModeSet, actorFiring, handlerDispatch. -/
def Obligations.EventsReachContexts : Prop :=
  (∀ s c t l, (s.ctx c).pend = t :: l → awaitsReply s c = false → settled s c = true →
    ((s.ctx c).run = .running ∨ ∃ w n, (s.ctx c).run = .blocked w n ∧ w ≠ .listen) →
    (kindOf c = .compute → exec (.asyncTrapTaken c) s = .next (takeTrap (s.setCtx c { s.ctx c with pend := l }) c t)) ∧
    (kindOf c ≠ .compute → exec (.asyncTrapTaken c) s = .next (takeTrap (s.setCtx c { s.ctx c with
      pend := [], later := (s.ctx c).later ++ l.map fun u => ((s.ctx c).level, u) }) c t))) ∧
  (∀ s c, (s.ctx c).pend = [] ∨ awaitsReply s c = true → exec (.asyncTrapTaken c) s = .next s) ∧
  (∀ s c, (s.ctx c).task.isSome = true → ((s.ctx c).run = .running ∨ ∃ w n, (s.ctx c).run = .blocked w n) →
    ∃ u, exec (.schedulerPreemption c) s = .next u ∧ u = { s with ctxs := u.ctxs } ∧ (∀ e, e ≠ c → u.ctx e = s.ctx e) ∧
      u.ctx c = { s.ctx c with request := some ((s.ctx c).request.getD 2), latch := (s.ctx c).latch ||| 0x10 }) ∧
  (∀ s c r, (s.ctx c).run = .leaving r → exec (.schedulerPreemption c) s = .next s) ∧
  (∀ s c d n, (s.ctx c).run = .blocked (.wfe (some d)) n → ∃ u, exec (.wfeTimeout c) s = .next u ∧ (∀ e, e ≠ c → u.ctx e = s.ctx e) ∧
    (d ≤ s.time.toNat → (s.ctx c).latch = 0 → u.ctx c = { s.ctx c with latch := 0x08 }) ∧
    (s.time.toNat < d ∨ (s.ctx c).latch ≠ 0 → u.ctx c = s.ctx c)) ∧
  (∀ s c d t, t ∈ (s.die (dieOf c)).parked → t.wait = some (.wfe (some d)) → t.waitCore = coreOf c → d ≤ s.time.toNat →
    ∃ u, exec (.wfeTimeout c) s = .next u ∧ t ∉ (u.die (dieOf c)).parked ∧
      { t with wait := none, woken := t.woken ||| 0x08, pinned := some (coreOf c), passes := 0, promoted := false } ∈
        (u.die (dieOf c)).ready) ∧
  (∀ s c r, WalkTurn s c r →
    (let v := s.walked c r;
    (∀ f, walk v (s.ctx c).ident ((s.ctx c).level == .task) r.va r.kind = .ok f → ∃ u, exec (.pageWalk c) s = .next u ∧
      u.ctx c = { v.ctx c with walk := none, run := .running } ∧ (∀ e, e ≠ c → u.ctx e = v.ctx e) ∧
      (u.clu (clusterOf c)).tlb = ((v.clu (clusterOf c)).tlb.filter fun e => !e.holds (s.ctx c).ident r.va) ++ [f.entry] ∧
      (∀ k, k ≠ clusterOf c → u.clu k = v.clu k) ∧ (∀ x, byteAt u x = byteAt (markLeaf v f r.kind) x)) ∧
    (∀ t, walk v (s.ctx c).ident ((s.ctx c).level == .task) r.va r.kind = .error t → (v.ctx c).pend = [] → settled v c = true →
      exec (.pageWalk c) s = .next (takeTrap (v.setCtx c { v.ctx c with walk := none }) c t)))) ∧
  (∀ s die k v, (s.invals.find? fun y => y.id == k && y.waiting.contains die) = some v →
    (v.awaits s die = true → exec (.invalidationAck die k) s = .next s) ∧
    (v.awaits s die = false → ∃ u, exec (.invalidationAck die k) s = .next u ∧ SameBytes s u ∧
      (∀ l, v.line = some l → die < 10 → (u.homeLine l).vec.getLsbD die = false ∧
        ∀ x ∈ (Sparse.get [] u.l2 die : List L2Line), x.line ≠ l) ∧
      (v.line = none → ∀ q, u.clu q = if q / 64 = die then { s.clu q with tlb := (s.clu q).tlb.filter fun e => !v.removes e } else s.clu q) ∧
      (∀ y ∈ u.invals, y.id = k → die ∉ y.waiting) ∧ (∀ y, y.id ≠ k → (y ∈ u.invals ↔ y ∈ s.invals)) ∧
      (v.waiting = [die] → (∃ n, (s.ctx v.c).run = .blocked .invalidate n) → (s.ctx v.c).sent = true →
        u.ctx v.c = { s.ctx v.c with reply := some (.ok 0) } ∧ ∀ y ∈ u.invals, y.id ≠ k))) ∧
  (∀ s c cl m mode first n, (s.ctx c).run = .blocked (.banks cl m mode first) n →
    (banksIdle s cl (bankChanges s cl m mode) first = true → ∃ u, exec (.bankModeSet c) s = .next u ∧
      (∀ b, b < 32 → bankMode u cl b = if m.testBit b then mode else bankMode s cl b) ∧
      (∀ b j, b < 32 → j < 65536 → m.testBit b = true → mode = .scratch → bankMode s cl b ≠ .scratch →
        byteAt u (2 ^ 52 + cl / 64 * 2 ^ 25 + cl % 64 * 2 ^ 21 + b * 65536 + j) = 0) ∧ u.ctxs = s.ctxs ∧
      ∀ x, x < 2 ^ 52 → byteAt u x = byteAt s x) ∧
    (banksIdle s cl (bankChanges s cl m mode) first = false → exec (.bankModeSet c) s = .next s)) ∧
  (∀ s a x, s.actor a = some x → (canFire s x = false → exec (.actorFiring a) s = .next (retireActors s)) ∧
    (canFire s x = false → (∀ e ∈ s.actors, ∀ y, e.2 = some y → starved s y = false) → exec (.actorFiring a) s = .next s) ∧
    (∀ d, canFire s x = true → poolDie s (partNo x.task.ident) x.task.kind x.task.home (x.cluster / 64) = some d →
      ∃ u g, exec (.actorFiring a) s = .next u ∧ u.actor a = some { x with firing := true, read := [], wrote := [] } ∧
        (u.die d).ready = (s.die d).ready ++ [{ x.task with gti := g, actor := some a, passes := 0, promoted := false }] ∧
        g = nat64 (partNo x.task.ident % 256 * 2 ^ 56 + logDie s (partNo x.task.ident) (x.cluster / 64) % 32 * 2 ^ 51
          + (Sparse.get 0 (s.die (x.cluster / 64)).serial (partNo x.task.ident) + 1) % 2 ^ 51) ∧
        u.ctxs = s.ctxs ∧ u.clus = s.clus ∧ SameBytes s u)) ∧
  (∀ s x, canFire s x = true ↔ x.live = true ∧ x.retired = false ∧ x.firing = false ∧
    (∀ f, some f ∈ x.ins → f.rate ≤ (Sparse.get [] (s.clu x.cluster).fifo f.bank).length) ∧
    (∀ f, some f ∈ x.outs → (Sparse.get [] (s.clu x.cluster).fifo f.bank).length + f.rate ≤ if f.size = 0 then 0 else 65536 / f.size)) ∧
  (∀ s c m l, handlerContext c = true → (s.die (dieOf c)).handlers = m :: l → openContext s c m.ident.part = true →
    (current s m.ident = true → ∃ u, exec (.handlerDispatch c) s = .next u ∧ (u.die (dieOf c)).handlers = l ∧
      Started u c m.entry .task { custodian := false, part := m.ident.part, vf := m.ident.vf, gen := genOf s m.ident, world := true }
        (((m.words ++ [0, 0, 0, 0]).take 4 ++ [m.sender]).map Reg.ofWord) ∧
      (∀ e, e ≠ c → u.ctx e = s.ctx e) ∧ SameBytes s u) ∧
    (current s m.ident = false → ∃ u, exec (.handlerDispatch c) s = .next u ∧ (u.die (dieOf c)).handlers = l ∧ u.ctxs = s.ctxs)) ∧
  (∀ s c, handlerContext c = false ∨ (∀ m ∈ (s.die (dieOf c)).handlers, openContext s c m.ident.part = false) →
    exec (.handlerDispatch c) s = .next s)

/-- A free service context takes the oldest request of the next served virtual function in round-robin order that has
credit, at KENTRY at kernel level with R234's registers. A tick adds SHARE for each service context to each waiting
one; a window's end moves the counts of completed tasks. A checkpoint that is due copies the pair's contexts and
starts its interval; a mismatch puts them and the queues back, discards what was gated and counts, and the third takes
cause 0x10. The monitor pair takes its oldest trap when it waits. An uncorrectable error in a mirrored frame holds the
request and tells the monitor, or poisons both lines where the mirror fails too, elsewhere it holds the frame and
tells its owner; a timeout or action 1 poisons the line, action 0 redirects the frame or ends a kernel hold. A silent
die or one whose link is down 1 ms is closed off. Complete here: tenderServe, tenderCreditTick, tenderWindowEnd,
bridleCheckpoint, bridleMismatch, monitorTrapDelivery, uncorrectableError, holdTimeout, holdrspReplay, holdrspPoison,
quarantine, dieLost. -/
def Obligations.TenderPairsAndErrors : Prop :=
  (∀ s c v r l, openContext s c (partOfCore s (coreOf c)) = true → c ∈ serviceContexts s (dieOf c) (partOfCore s (coreOf c)) →
    nextServed s (dieOf c) (partOfCore s (coreOf c)).toNat = some v → requests s (dieOf c) (partOfCore s (coreOf c)).toNat v = r :: l →
    (Sparse.get 0 (s.die (dieOf c)).kentry v : Word) ≠ 0 → (∀ n b g k args, r = .sysc n b g k args → args.length ≤ 7) →
    (let p := partOfCore s (coreOf c);
    ∃ u regs, exec (.tenderServe c) s = .next u ∧ Started u c (Sparse.get 0 (s.die (dieOf c)).kentry v) .kernel
        { custodian := false, part := p, vf := BitVec.ofNat 4 v, gen := (s.vf p.toNat v).gen, world := decide (dieOf c < 8) } regs ∧
      (u.ctx c).task = none ∧ (u.ctx c).served = some (s.time.toNat, dieOf c, p.toNat * 16 + v) ∧ requests u (dieOf c) p.toNat v = l ∧
      (Sparse.get 0 (u.die (dieOf c)).turn p.toNat : Nat) = v ∧ (∀ j, j < 8 → u.tline (tlOwner u c) j = {}) ∧
      (∀ e, e ≠ c → u.ctx e = s.ctx e) ∧ SameBytes s u ∧
      creditOf u (dieOf c) p.toNat v = (if l = [] then min 0 (creditOf s (dieOf c) p.toNat v) else creditOf s (dieOf c) p.toNat v) ∧
      (∀ t a va k pc, r = .trap t a va k pc → regs.drop 1 = [Reg.ofWord t.gti, Reg.ofWord (k.cause.setWidth 64), Reg.ofWord k.val,
          Reg.ofWord pc, Reg.ofWord k.aux] ∧ (u.ctx c).ktrap = { cause := k.cause, val := k.val, pc := pc, aux := k.aux } ∧
        ∀ g, regs.head? = some g → va % 0x100 = 0 → va + 0x2800 < 2 ^ 57 → g.tag = true ∧ g.cap.addr = va ∧ g.cap.base = va ∧ g.cap.top = va + 0x2800 ∧
          g.cap.perm = 0x81B ∧ g.cap.key = 0) ∧
      (∀ n b g k args, r = .sysc n b g k args → regs = [b, Reg.ofWord g, Reg.ofWord 0, Reg.ofWord n, Reg.ofWord k, Reg.ofWord 0] ++ args) ∧
      (∀ a b x y, r = .notice a b x y → regs = [Reg.ofWord 0, Reg.ofWord 0, Reg.ofWord a, Reg.ofWord b, Reg.ofWord x, Reg.ofWord y]))) ∧
  (∀ s d p v, nextServed s d p = some v →
    let due (w : Nat) : Prop := (s.vf p w).tnd.getLsbD 0 = true ∧ requests s d p w ≠ [] ∧ 0 < creditOf s d p w
    let place (w : Nat) : Nat := (w + 16 - Sparse.get 0 (s.die d).turn p % 16) % 16
    v < 16 ∧ due v ∧ ∀ w, w < 16 → due w → place v ≤ place w) ∧
  (∀ s c, nextServed s (dieOf c) (partOfCore s (coreOf c)).toNat = none → exec (.tenderServe c) s = .next s) ∧
  (∀ s d, ((s.die d).service.map (·.1)).Nodup → ∃ u, exec (.tenderCreditTick d) s = .next u ∧ u = { s with dies := u.dies } ∧
    (u.die d).ready = (s.die d).ready ∧ (u.die d).service = (s.die d).service ∧
    ∀ p v, v < 16 → creditOf u d p v = creditOf s d p v +
      (if requests s d p v ≠ [] ∧ (s.vf p v).tnd.getLsbD 0 = true then
        (microCredit (max 1 ((s.vf p v).tnd.extractLsb' 7 6).toNat) (serviceContexts s d (BitVec.ofNat 8 p)).length (shareSum s p) : Int) else 0)) ∧
  (∀ s p, ∃ u, exec (.tenderWindowEnd p) s = .next u ∧ u.ctxs = s.ctxs ∧ SameBytes s u ∧
    (∀ v, v < 16 → (u.vf p v).doneLast = (s.vf p v).doneCur ∧ (u.vf p v).doneCur = 0 ∧ (u.vf p v).tnd = (s.vf p v).tnd) ∧
    ((∀ v, v < 16 → ((s.vf p v).tnd.extractLsb' 16 16).toNat ≤ (s.vf p v).doneCur) → u.dies = s.dies)) ∧
  (∀ s c b, (s.core (coreOf c)).bridle = some b →
    (b.due = true ∨ 1024 ≤ (s.core (coreOf c)).since ∨ 64 ≤ gateFill s (coreOf c) →
      (s.core (coreOf c)).matrix.queue = [] → (∀ d ∈ contextsOf (coreOf c), (s.ctx d).vq = [] ∧ ∀ e ∈ (s.ctx d).lob, e.op.isLoad = false) →
      ∃ u n, exec (.bridleCheckpoint c) s = .next u ∧ SameBytes s u ∧ u.ctxs = s.ctxs ∧
        (u.core (coreOf c)).since = 0 ∧ (u.core (coreOf c)).bridle = some n ∧ n.gated = [] ∧ n.log = [] ∧ n.taken = 0 ∧ n.due = false ∧ n.fails = 0 ∧
        ((∀ d ∈ contextsOf (coreOf c), (s.ctx d).held = none) → n.queues = (s.core (coreOf c)).queues) ∧
        n.ckpt.map (·.c) = contextsOf (coreOf c) ∧ ∀ r ∈ n.ckpt, r.g = (s.ctx r.c).g ∧ r.v = (s.ctx r.c).v ∧ r.p = (s.ctx r.c).p ∧
          r.pc = (s.ctx r.c).pc ∧ r.flags = (s.ctx r.c).flags ∧ r.round = (s.ctx r.c).round ∧ r.ktrap = (s.ctx r.c).ktrap ∧
          r.ctrap = (s.ctx r.c).ctrap ∧ r.next = (s.ctx r.c).nextId) ∧
    (b.due = false → (s.core (coreOf c)).since < 1024 → gateFill s (coreOf c) < 64 → exec (.bridleCheckpoint c) s = .next s)) ∧
  (∀ s c b, PairTurn s (coreOf c) b → b.fails < 2 → ∃ u, exec (.bridleMismatch c) s = .next u ∧
    (∀ r ∈ b.ckpt, (s.ctx r.c).run ≠ .free → (s.ctx r.c).task.map (·.gti) = r.task.map (·.gti) → RolledBack s u r) ∧
    (u.core (coreOf c)).mism = true ∧ (u.core (coreOf c)).rolls = min ((s.core (coreOf c)).rolls + 1) 0xFFFF ∧ (u.core (coreOf c)).since = 0 ∧
    (u.core (coreOf c)).bridle = some { b with gated := [], taken := 0, matrix := none, fails := b.fails + 1 } ∧
    (u.core (coreOf c)).queues = b.queues ∧ (u.core (coreOf c + 1)).mism = true ∧
    (∀ e, (∀ r ∈ b.ckpt, r.c ≠ e) → u.ctx e = s.ctx e) ∧ SameBytes s u) ∧
  (∀ s c b r, PairTurn s (coreOf c) b → 2 ≤ b.fails → kindOf c = .compute → r ∈ b.ckpt → r.c ∈ contextsOf (coreOf c) →
    (s.ctx r.c).run = .running → (s.ctx r.c).task.isSome = true → (s.ctx r.c).task.map (·.gti) = r.task.map (·.gti) →
    ∃ u, exec (.bridleMismatch c) s = .next u ∧ (u.ctx r.c).run = .leaving 1 ∧ (u.ctx r.c).ktrap.cause = 0x10 ∧
      (u.ctx r.c).ktrap.val = r.pc ∧ (u.ctx r.c).ktrap.pc = r.pc) ∧
  (∀ s c b, (s.core (coreOf c)).bridle = some b → canRoll s (coreOf c) b = false → exec (.bridleMismatch c) s = .next s) ∧
  (∀ s d t l, d < 8 → (s.die d).monitor = t :: l →
    (let m := ctxKey (d * 512 + 262) 0;
    ((s.ctx m).run = .halted ∨ (s.ctx m).run = .free → (s.die d).centry ≠ 0 → ∃ u, exec (.monitorTrapDelivery d) s = .next u ∧
      (u.die d).monitor = l ∧ (u.ctx m).ctrap = { cause := t.cause, val := t.val, pc := (s.ctx m).pc, aux := t.aux } ∧
      (u.ctx m).level = .custodian ∧ (u.ctx m).pc = (s.die d).centry ∧ (u.ctx m).run = .running ∧ ∀ e, e ≠ m → u.ctx e = s.ctx e) ∧
    ((s.ctx m).run = .running → exec (.monitorTrapDelivery d) s = .next s))) ∧
  (∀ s pa c, isHbm pa = true → redirect s pa = pa → poisoned s pa = false → isContext c = true →
    (∀ h ∈ s.holds, if h.kernel then h.line ≠ pa / 128 else h.frame ≠ pa / 65536) →
    (∀ m, dieOf c < 8 → mirrorOn s (dieOf c) pa = some m → ∃ u, exec (.uncorrectableError pa c) s = .next u ∧
      (poisoned s m = false → u.holds = s.holds ++ [openedHold s pa c true] ∧ (u.die (dieOf c)).last = 4 ∧ (u.die (dieOf c)).monitor =
        (s.die (dieOf c)).monitor ++ [{ cause := 0x26, val := nat64 (pa / 128 * 128), aux := nat64 (pa / 65536 * 65536) }]) ∧
      (poisoned s m = true → u.holds = s.holds ∧ Poisons u pa ∧ Poisons u m)) ∧
    (∀ k, (8 ≤ dieOf c ∨ mirrorOn s (dieOf c) pa = none) → mirrorHold s pa = some k → (∀ x ∈ s.holds, x.tag = k.tag → x = k) →
      ∃ u, exec (.uncorrectableError pa c) s = .next u ∧ k ∉ u.holds ∧ Poisons u (k.line * 128) ∧ Poisons u pa ∧ SameBytes s u) ∧
    ((8 ≤ dieOf c ∨ mirrorOn s (dieOf c) pa = none) → mirrorHold s pa = none → ∃ u, exec (.uncorrectableError pa c) s = .next u ∧
      u.holds = s.holds ++ [openedHold s pa c false] ∧ (u.die (dieOf c)).last = 5 ∧ u.ctxs = s.ctxs ∧ SameBytes s u ∧
      (let h := openedHold s pa c false;
      ∀ d, entState (entry0 s (pa / 65536)) ≠ 0 → (if h.world then (physDie s h.part.toNat 0).map (·.1) else firstHostDie s h.part.toNat) = some d →
        requests u d h.part.toNat h.vf.toNat = requests s d h.part.toNat h.vf.toNat ++ [.notice 0x25 (nat64 (pa / 128 * 128)) 0 (nat64 h.tag)]))) ∧
  (∀ s h, h ∈ s.holds → h.kernel = false → (∀ x ∈ s.holds, x.tag = h.tag → x = h) →
    (s.time.toNat < h.since + 1000000 → exec (.holdTimeout h.tag) s = .next s) ∧
    (h.since + 1000000 ≤ s.time.toNat → ∃ u, exec (.holdTimeout h.tag) s = .next u ∧ h ∉ u.holds ∧ Poisons u (h.line * 128) ∧
      (u.die h.die).last = 6 ∧ SameBytes s u) ∧
    (∀ d who w, d < 10 → w.extractLsb' 0 12 = BitVec.ofNat 12 h.tag → h.tag < 4096 → holdOwner (writerIdent s who) h = true →
      (w.extractLsb' 12 4 = 1 → ∃ u, exec (.holdrspPoison d who w) s = .next u ∧ h ∉ u.holds ∧ Poisons u (h.line * 128)) ∧
      (w.extractLsb' 12 4 = 0 → who.custodian = false →
        (let f := (w.extractLsb' 16 36).toNat;
        let e := entry0 s f;
        let held := isHbm (f * 65536) = true ∧ 1 ≤ entState e ∧ entState e ≤ 4 ∧ entPart e = h.part ∧ entVf e = h.vf ∧ entOwner e = h.world;
        (held → ∃ u, exec (.holdrspReplay d who w) s = .next u ∧ h ∉ u.holds ∧
          (u.base (h.frame / 2 ^ 21)).redirect = ((s.base (h.frame / 2 ^ 21)).redirect.filter fun r => r.1 ≠ h.frame) ++
            (if f = h.frame then [] else [(h.frame, f)])) ∧
        (¬ held → exec (.holdrspReplay d who w) s = .next s))))) ∧
  (∀ s h d who w, h ∈ s.holds → h.kernel = true → (∀ x ∈ s.holds, x.kernel = true → x.frame = h.frame → x = h) → d < 10 → who.custodian = true →
    w.extractLsb' 12 4 = 0 → (w.extractLsb' 16 36).toNat = h.frame → exec (.holdrspReplay d who w) s =
      .next { s with holds := s.holds.filter fun x => x.tag != h.tag }) ∧
  (∀ s die, (∃ v ∈ s.invals, die ∈ v.waiting ∧ v.since + 100000 ≤ s.time.toNat) → ∃ u, exec (.quarantine die) s = .next u ∧ ClosedOff s u die 3) ∧
  (∀ s die, (∀ v ∈ s.invals, die ∈ v.waiting → s.time.toNat < v.since + 100000) → exec (.quarantine die) s = .next s) ∧
  (∀ s die l t, l ∈ s.links → (Config.linkEnds (l.1 / 2)).1 = die ∨ (Config.linkEnds (l.1 / 2)).2 = die → l.2.down = some t →
    t + 1000000 ≤ s.time.toNat → ∃ u, exec (.dieLost die) s = .next u ∧ ClosedOff s u die 2) ∧
  (∀ s die, (∀ l ∈ s.links, l.2.down = none) → exec (.dieLost die) s = .next s)

/-- A link takes only a good flit with the number it expects, which leaves the sender's replay buffer; a duplicate changes
nothing, a bad one or a gap counts a replay of the flit expected; a spent budget takes the link down both ways and
counts a retrain at both dies, and its end restores it. An entry that arrives joins its bound lane as R418's table
says or is answered STALE. An arm point puts staged changes in place and fails those who wait, or settles the greatest
key, or is idle; a frame's end gives each entrant counted R417's word, advances rotation and count. A revoke point
ends the loser's rights to its line; completion drops its translations and answers the issuer or sends notices. At its
deadline a recalled frame is held again with GEN plus 1, and its borrower struck when that completes; a suspension
ends at its time. An orphaned scratchpad is freed, zero, in cache mode, when nothing is attached or after 1 ms.
Complete here: flitReceive, replayBudgetExhausted, linkRetrainComplete, beaconEntryArrival, beaconArmPoint,
beaconFrameEnd, revokePoint, custodyTransactionComplete, recallDeadline, suspensionEnd, orphanFree. -/
def Obligations.LinksAndPlanesMove : Prop :=
  (∀ s k cls seq good a b, cls < 3 → (linkOf s k).down = none →
    (let want := Sparse.get 0 (linkOf s k).expect cls;
    let l := (linkOf s k).sentUpTo cls seq;
    (good = true → seq = want → ∃ u, exec (.flitReceive k cls seq good a b) s = .next u ∧ u = { s with links := u.links } ∧
      linkOf u k = { l with expect := Sparse.set (linkOf s k).expect cls (want + 1), buffer := (linkOf u k).buffer } ∧
      (∀ f, f ∈ (linkOf u k).buffer ↔ f ∈ l.buffer ∧ ¬ (f.1 = cls ∧ f.2.1 = seq)) ∧ ∀ j, j ≠ k → linkOf u j = linkOf s j) ∧
    (good = true → 32768 ≤ (seq - want).toNat → exec (.flitReceive k cls seq good a b) s = .next s) ∧
    (good = false ∨ (seq ≠ want ∧ (seq - want).toNat < 32768) → ∃ u, exec (.flitReceive k cls seq good a b) s = .next u ∧
      (linkOf u k).expect = (linkOf s k).expect ∧ s.time.toNat ∈ (linkOf u k).recent ∧
      (linkOf u k).buffer = l.buffer.map fun f => if f.1 = cls ∧ f.2.1 = want then (f.1, f.2.1, f.2.2 + 1) else f))) ∧
  (∀ s k cls seq good a b, (linkOf s k).down.isSome = true → exec (.flitReceive k cls seq good a b) s = .next s) ∧
  (∀ s k, (linkOf s k).down = none →
    (let spent := (∃ j ∈ bothWays k, ∃ f ∈ (linkOf s j).buffer, 8 ≤ f.2.2) ∨
      64 ≤ ((bothWays k).flatMap fun j => (linkOf s j).recent.filter fun t => decide (s.time.toNat ≤ t + 10000)).length;
    (spent → ∃ u, exec (.replayBudgetExhausted k) s = .next u ∧
      (∀ j ∈ bothWays k, linkOf u j = { linkOf s j with down := some s.time.toNat }) ∧
      ∀ d, d < 10 → (Config.linkEnds (k / 2)).1 ≠ (Config.linkEnds (k / 2)).2 →
        (d = (Config.linkEnds (k / 2)).1 ∨ d = (Config.linkEnds (k / 2)).2 → (u.die d).retrain = min ((s.die d).retrain + 1) 0xFFFF ∧ (u.die d).last = 1) ∧
        (d ≠ (Config.linkEnds (k / 2)).1 → d ≠ (Config.linkEnds (k / 2)).2 → u.die d = s.die d)) ∧
    (¬ spent → exec (.replayBudgetExhausted k) s = .next s))) ∧
  (∀ s k, (∃ t, (linkOf s k).down = some t) → ∃ u, exec (.linkRetrainComplete k) s = .next u ∧
    (∀ j ∈ bothWays k, linkOf u j = { linkOf s j with
      down := none, recent := [], buffer := (linkOf s j).buffer.map fun f => (f.1, f.2.1, 0) }) ∧ u = { s with links := u.links }) ∧
  (∀ s c k e, (s.net.find? fun m => match m.2 with | .entry e => e.c == c | _ => false) = some (k, .entry e) →
    (laneOf s e.part e.vf e.cid = none → ∃ u, exec (.beaconEntryArrival c) s = .next u ∧ u.net = s.net.filter (fun m => m.1 != k) ∧
      u.lanes = s.lanes ∧ (AwaitsResult s e → (u.ctx e.c).reply = some (.ok 8))) ∧
    (∀ n, laneOf s e.part e.vf e.cid = some n → (s.lane n).due = true → exec (.beaconEntryArrival c) s = .next s) ∧
    (∀ n, laneOf s e.part e.vf e.cid = some n → (s.lane n).due = false → ∃ u, exec (.beaconEntryArrival c) s = .next u ∧ u.net = s.net.filter (fun m => m.1 != k) ∧
      u.ctxs = s.ctxs ∧ u.lane n = { s.lane n with entrants := (s.lane n).entrants ++ [{ e with
        late := (s.lane n).present && !e.listen, stage := if e.listen then 3 else if (s.lane n).present && e.nolate then 2 else 0 }] })) ∧
  (∀ s n, n < 16 → (s.lane n).present = false → (s.lane n).bindBit = false →
    (∀ g, (s.lane n).staged = [g] → ∃ u, exec (.beaconArmPoint n) s = .next u ∧ (u.lane n).entrants = [] ∧ (u.lane n).staged = [] ∧
      (u.lane n).bindBit = true ∧ (u.lane n).present = false ∧ (u.lane n).rotv = 0 ∧ (u.lane n).frames = 0 ∧
      (∀ e ∈ (s.lane n).entrants, AwaitsResult s e → (u.ctx e.c).reply = some (.ok 8)) ∧
      (∀ cid vf rot, g = .bind cid vf rot → (u.lane n).bound = true ∧ (u.lane n).cid = cid ∧ (u.lane n).vf = vf ∧ (u.lane n).rot = rot ∧
        (u.lane n).part = (s.lane n).part) ∧
      (g = .unbind → (u.lane n).bound = false ∧ (u.lane n).part = (s.lane n).part) ∧ (∀ p, g = .assign p → (u.lane n).bound = false ∧ (u.lane n).part = p)) ∧
    ((s.lane n).staged = [] →
      (let es := (s.lane n).entrants.filter fun e => connected s (s.lane n) (dieOf e.c);
      ((∃ e ∈ es, e.stage = 0) → ∃ u r w, exec (.beaconArmPoint n) s = .next u ∧ (u.lane n).present = true ∧ (u.lane n).result = some r ∧
        w ∈ es ∧ w.stage = 0 ∧ r = { key := w.key, die := dieOf w.c, winner := w.c
                                     tag := BitVec.ofNat 12 (logCore s { custodian := w.cust, part := w.part, vf := w.vf } (coreOf w.c) * 4 + ctxNo w.c) } ∧
        (∀ e ∈ es, e.stage = 0 → Outranks (s.lane n).rotv w e) ∧ u.ctxs = s.ctxs ∧ (u.lane n).due = false ∧ (u.lane n).rotv = (s.lane n).rotv ∧
        (u.lane n).entrants = es.map fun e => { e with stage := if e.stage = 0 then 1 else if e.stage = 3 then 4 else e.stage }) ∧
      ((∀ e ∈ es, e.stage ≠ 0) → ∃ u, exec (.beaconArmPoint n) s = .next u ∧ u.lane n = { s.lane n with entrants := es, due := false } ∧ u.ctxs = s.ctxs)))) ∧
  (∀ s n r, (s.lane n).bindBit = false → (s.lane n).present = true → (s.lane n).result.bind (frameResult s (s.lane n)) = some r →
    ∃ u, exec (.beaconFrameEnd n) s = .next u ∧ (u.lane n).present = false ∧ (u.lane n).due = true ∧ (u.lane n).result = none ∧ (u.lane n).frames = min ((s.lane n).frames + 1) 0xFFFFFFFF ∧
    (u.lane n).rotv = (if (s.lane n).rot then ((s.lane n).rotv + 1) % 10 else (s.lane n).rotv) ∧
    (u.lane n).entrants = (s.lane n).entrants.filter (fun e => e.stage != 1 && e.stage != 2 && e.stage != 4) ∧
    ∀ e ∈ (s.lane n).entrants, e.stage = 1 ∨ e.stage = 2 ∨ e.stage = 4 → ((s.lane n).entrants.map (·.c)).Nodup → AwaitsResult s e →
      ∃ w, (u.ctx e.c).reply = some (.ok w) ∧ ResultWord s (s.lane n) r e.late (e.stage == 1 && e.c == r.winner) w) ∧
  (∀ s n, (s.lane n).bindBit = true → ∃ u, exec (.beaconFrameEnd n) s = .next u ∧ u.lane n = { s.lane n with bindBit := false, due := true } ∧ u.ctxs = s.ctxs) ∧
  (∀ s (l : Lane) r,
    let left := l.entrants.filter fun e => e.stage == 1 && connected s l (dieOf e.c);
    ((∃ e ∈ left, e.c = r.winner) → frameResult s l r = some r) ∧
    ((∀ e ∈ left, e.c ≠ r.winner) → (left = [] → frameResult s l r = none) ∧
      (left ≠ [] → ∃ w ∈ left, frameResult s l r = some (frameOf s w) ∧ ∀ e ∈ left, Outranks l.rotv w e))) ∧
  (∀ s n, (s.lane n).bindBit = false → (s.lane n).present = true → (s.lane n).result.bind (frameResult s (s.lane n)) = none →
    ∃ u, exec (.beaconFrameEnd n) s = .next u ∧ (u.lane n).present = false ∧ (u.lane n).due = true ∧ u.ctxs = s.ctxs ∧
      (u.lane n).frames = (s.lane n).frames ∧ (u.lane n).rotv = (s.lane n).rotv ∧ ∀ e ∈ (u.lane n).entrants, e.stage ≠ 1 ∧ e.stage ≠ 4) ∧
  (∀ s f j r, revokeOf s f = some r → j < 512 → ∃ u, exec (.revokePoint f j) s = .next u ∧ SameBytes s u ∧ u.ctxs = s.ctxs ∧
    (∃ r', revokeOf u f = some r' ∧ ∀ x, x ∈ r'.past ↔ x ∈ r.past ∨ x = j) ∧
    ∀ i pa, isHbm pa = true → pa / 65536 = f → pa % 65536 / 128 = j → i.custodian = false → rights (entry0 s f) i = false → homeRights u i pa = false) ∧
  (∀ s f r, revokeOf s f = some r → (r.awaits s = true → exec (.custodyTransactionComplete f) s = .next s) ∧
    (r.awaits s = false → ∃ u, exec (.custodyTransactionComplete f) s = .next u ∧ revokeOf u f = none ∧ SameBytes s u ∧
      (∀ k e, e ∈ (u.clu k).tlb ↔ e ∈ (s.clu k).tlb ∧ ¬ (overlaps e.pa (2 ^ e.size) (f * 65536) 65536 = true ∧
        ∃ l ∈ r.losers, l.1 = e.ident.part ∧ l.2.1 = e.ident.vf ∧ l.2.2 = e.ident.world)) ∧
      (∀ c n, r.issuer = some c → (s.ctx c).run = .blocked .custody n → (s.ctx c).sent = true → (s.ctx c).set = r.set →
        u.ctx c = { s.ctx c with reply := some (.ok r.word) }) ∧
      (∀ c, r.issuer = some c → (s.ctx c).set ≠ r.set → u.ctxs = s.ctxs) ∧
      (∀ l, r.issuer = none → r.losers = [l] →
        let k := strikesOf s l.1 l.2.1 l.2.2
        let recent := (k.times.take 2).filter fun t => decide (s.time.toNat ≤ t + 1000000000)
        (strikesOf u l.1 l.2.1 l.2.2).times = (s.time.toNat :: k.times).take 3 ∧
        (2 ≤ recent.length → (strikesOf u l.1 l.2.1 l.2.2).till = some (s.time.toNat + 100000000)) ∧
        (recent = [] → (strikesOf u l.1 l.2.1 l.2.2).till = k.till)) ∧
      (∀ d h, r.issuer = none → (physDie s (entPart r.word).toNat 0).map (·.1) = some d → firstHostDie s (entPart r.word).toNat = some h → d ≠ h →
        requests u d (entPart r.word).toNat (entVf r.word).toNat = requests s d (entPart r.word).toNat (entVf r.word).toNat ++ [.notice 0x43 (nat64 (f * 65536)) 0 0] ∧
        requests u h (entPart r.word).toNat (entVf r.word).toNat = requests s h (entPart r.word).toNat (entVf r.word).toNat ++ [.notice 0x43 (nat64 (f * 65536)) 0 0]))) ∧
  (∀ s f, DeadlinePast s f → PlainHbm s (entryAddr s f) 16 →
    (let e := entry0 s f;
    ∃ u, exec (.recallDeadline f) s = .next u ∧ EntryIs u f 1 (entPart e) (entVf e) (entOwner e) (entGen e + 1) 0 0 ∧
      (∃ r, revokeOf u f = some r ∧ r.losers = [(entPart e, entVf e, !entOwner e)] ∧ r.issuer = none ∧ r.past = []) ∧
      (∀ x, (∀ j, j < 16 → x ≠ entryAddr s f + j) → byteAt u x = byteAt s x) ∧ u.ctxs = s.ctxs ∧
      strikesOf u (entPart e) (entVf e) (!entOwner e) = strikesOf s (entPart e) (entVf e) (!entOwner e))) ∧
  (∀ s f, s.time.toNat < (entry1 s f).toNat ∨ entState (entry0 s f) ≠ 4 → exec (.recallDeadline f) s = .next s) ∧
  (∀ s p v b t, p < 256 → v < 16 → (strikesOf s (BitVec.ofNat 8 p) (BitVec.ofNat 4 v) b).till = some t →
    (t ≤ s.time.toNat → ∃ u, exec (.suspensionEnd p v b) s = .next u ∧
      strikesOf u (BitVec.ofNat 8 p) (BitVec.ofNat 4 v) b = { strikesOf s (BitVec.ofNat 8 p) (BitVec.ofNat 4 v) b with till := none }) ∧
    (s.time.toNat < t → exec (.suspensionEnd p v b) s = .next s)) ∧
  (∀ s q t, (s.clu q).orphan = some t →
    ((s.clu q).attached = [] ∨ t + 1000000 ≤ s.time.toNat → ∃ u, exec (.orphanFree q) s = .next u ∧ (u.clu q).orphan = none ∧
      (∀ b, bankMode u q b = .cache) ∧ (∀ j, j < 2 ^ 21 → byteAt u (2 ^ 52 + q / 64 * 2 ^ 25 + q % 64 * 2 ^ 21 + j) = 0) ∧
      (∀ x, x < 2 ^ 52 → byteAt u x = byteAt s x) ∧ u.ctxs = s.ctxs ∧ ∀ k, k ≠ q → u.clu k = s.clu k) ∧
    ((s.clu q).attached ≠ [] → s.time.toNat < t + 1000000 → exec (.orphanFree q) s = .next s))

/-- PREEMPT and DBHALT request a stop of a resident task of the writer's virtual function, DBHALT of a claimed one. VFRST
advances GEN and leaves nothing of the virtual function in contexts, schedulers, phasers or regions. PCTL makes a
partition unless R446 ignores the write, and ends one with no lock and no context. KSUB answers refusals 3, 2, 4 in
that order, else takes the share, and both derive the key. MEASEXT absorbs a held frame until the measurement closes.
CERTi advances its generation and writes its key; ATTREQ captures, and its report has the format and status. CUSTBASE
installs a zeroed record once. DIECTL resets a die that is stopped, lost or failed. CKPTCTL asks contexts to stop; a
restore needs them out; the end saves assigned frames or writes them back. A window register takes its writer's value.
Only the custodian's writes count where R443 says. Complete here: preemptWrite, dbhaltWrite, vfReset, pctlEnable,
pctlDisable, ksubSubmit, measextAbsorb, certRoll, attreqStart, attestationDone, custbaseEnable, dieReset, ckptSave,
ckptRestore, ckptDone, registerWrite. -/
def Obligations.PartitionsAndRegisters : Prop :=
  (∀ s d who w c, who.custodian = false → residentOf s d who.part w = some c → Resident s c →
    ((s.ctx c).ident.vf = who.vf → ∃ u, exec (.preemptWrite d who w) s = .next u ∧ Requested s u c 2) ∧
    ((s.ctx c).ident.vf ≠ who.vf → exec (.preemptWrite d who w) s = .next s)) ∧
  (∀ s d who w, residentOf s d who.part w = none → exec (.preemptWrite d who w) s = .next s) ∧
  (∀ s d who w c, d < 8 → isLead s d = true →
    ((partDies s (partOfCore s (d * 512)).toNat).findSome? fun e => residentOf s e (BitVec.ofNat 8 (partOfCore s (d * 512)).toNat) w) = some c →
    Resident s c → ((s.ctx c).ident.vf = who.vf → (claimOf s (s.ctx c)).isSome = true → ∃ u, exec (.dbhaltWrite d who w) s = .next u ∧ Requested s u c 3) ∧
    ((s.ctx c).ident.vf ≠ who.vf ∨ claimOf s (s.ctx c) = none → exec (.dbhaltWrite d who w) s = .next s)) ∧
  (∀ s k who w, k < 16 → who.custodian = true → ∃ u, exec (.vfReset k who w) s = .next u ∧
    (∀ v, v < 16 → (u.vf k v).gen = (s.vf k v).gen + (if w.getLsbD v then 1 else 0) ∧ (u.vf k v).tnd = (s.vf k v).tnd) ∧
    ∀ v, v < 16 → w.getLsbD v = true →
      (∀ c, ofVf k v (u.ctx c).ident = true → (u.ctx c).level ≠ .custodian → (u.ctx c).ident.custodian = false → (u.ctx c).run = .free) ∧
      (∀ d, Emptied u d k v) ∧ (∀ r ∈ (u.part k).regions, r.vf.toNat ≠ v) ∧
      (∀ j b, u.job j = some b → ¬ (b.part.toNat = k ∧ b.vf.toNat = v)) ∧
      ∀ d i p, (Sparse.get none (u.die d).phasers i : Option Phaser) = some p → ¬ (p.part.toNat = k ∧ p.vf.toNat = v)) ∧
  (∀ s k who w, k < 16 → who.custodian = true → w.getLsbD 63 = true → (s.part k).en = false →
    (pctlRefused s k w = true → exec (.pctlEnable k who w) s = .next s) ∧
    (pctlRefused s k w = false → ∃ u, exec (.pctlEnable k who w) s = .next u ∧ (u.part k).en = true ∧ (u.part k).prot = w.getLsbD 62 ∧
      (u.part k).joint = w.getLsbD 61 ∧ (u.part k).kslot = w.extractLsb' 0 7 ∧ (u.part k).ready = !w.getLsbD 61 ∧ (u.part k).frozen = false ∧
      (u.part k).scrambler = some s.sec.draws ∧ ((u.part k).slotKey.isSome = (w.getLsbD 62 && !w.getLsbD 61)) ∧ (u.part k).kem.isSome = w.getLsbD 61 ∧
      (u.part k).meas = s.sec.device ∧ (∀ j, j ≠ k → u.part j = s.part j) ∧ u.ctxs = s.ctxs ∧ (w.getLsbD 61 = false → SameBytes s u))) ∧
  (∀ s k w, pctlRefused s k w = true ↔ (w.getLsbD 62 = true ∧ w.extractLsb' 0 7 = 0) ∨ (w.getLsbD 62 = false ∧ w.extractLsb' 0 7 ≠ 0) ∨
    (w.getLsbD 61 = true ∧ w.getLsbD 62 = false) ∨
      (w.extractLsb' 0 7 ≠ 0 ∧ ∃ j, j < 16 ∧ j ≠ k ∧ (s.part j).en = true ∧ (s.part j).kslot = w.extractLsb' 0 7)) ∧
  (∀ s k who w, k < 16 → who.custodian = true → w.getLsbD 63 = false → (s.part k).en = true →
    ((s.part k).ldtlock = true ∨ (contextsFor s fun i => i.part == BitVec.ofNat 8 k) ≠ [] → exec (.pctlDisable k who w) s = .next s) ∧
    ((s.part k).ldtlock = false → (contextsFor s fun i => i.part == BitVec.ofNat 8 k) = [] → ∃ u, exec (.pctlDisable k who w) s = .next u ∧
      (u.part k).en = false ∧ (u.part k).ready = false ∧ (u.part k).mcl = false ∧ (u.part k).shm = false ∧ (u.part k).shd = false ∧ (u.part k).frozen = false ∧
      (u.part k).scrambler = none ∧ (u.part k).slotKey = none ∧ (u.part k).kem = none ∧ (u.part k).jointKey = none ∧
      ((s.part k).prot = true → ∀ pa, isHbm pa = true → 1 ≤ entState (entry0 u (pa / 65536)) → entState (entry0 u (pa / 65536)) ≤ 4 →
        (entPart (entry0 u (pa / 65536))).toNat = k → sealBad u pa = true) ∧
      (∀ p, (Sparse.get 0xFF u.sec.pmap p : BitVec 8).toNat ≠ k) ∧ (∀ c, (Sparse.get 0xFF u.sec.hcmap c : BitVec 8).toNat ≠ k) ∧ SameBytes s u)) ∧
  (∀ s who w, who.custodian = true → ksubOwner w = 1 ∨ ksubOwner w = 2 →
    (let given := if ksubOwner w = 1 then (s.part (ksubPart w)).shm else (s.part (ksubPart w)).shd;
    let good := ksubAddr w % 16 = 0 ∧ readable s (ksubAddr w) 1568 = true;
    (¬ TakesShares s w → ∃ u, exec (.ksubSubmit who w) s = .next u ∧ Refused s u w 3) ∧
    (TakesShares s w → given = true → ∃ u, exec (.ksubSubmit who w) s = .next u ∧ Refused s u w 2) ∧
    (TakesShares s w → given = false → ¬ good → ∃ u, exec (.ksubSubmit who w) s = .next u ∧ Refused s u w 4) ∧
    (TakesShares s w → given = false → good → ∃ u, exec (.ksubSubmit who w) s = .next u ∧ u.sec.kstatRes = 0 ∧
      (let p := u.part (ksubPart w);
      let q := s.part (ksubPart w);
      p.shm = (q.shm || ksubOwner w == 1) ∧ p.shd = (q.shd || ksubOwner w == 2) ∧
      (ksubOwner w = 1 → q.shareD = none → p.ready = false ∧ p.shareM.isSome = true) ∧
      (∀ d, ksubOwner w = 1 → q.shareD = some d → p.ready = true ∧ p.shareM = none ∧ p.shareD = none ∧
        p.jointKey = some (jointOf (ksubPart w) (Config.kemOpen (q.kem.getD 0) (homeBytes s (ksubAddr w) 1568)) d)))))) ∧
  (∀ s who w, who.custodian = false → (∀ k, exec (.vfReset k who w) s = .next s ∧ exec (.pctlEnable k who w) s = .next s ∧
      exec (.pctlDisable k who w) s = .next s ∧ exec (.certRoll k who w) s = .next s ∧
      exec (.custbaseEnable k who w) s = .next s ∧ exec (.dieReset k who w) s = .next s) ∧
    exec (.ksubSubmit who w) s = .next s ∧ exec (.measextAbsorb who w) s = .next s ∧
    exec (.attreqStart who w) s = .next s ∧ exec (.ckptSave who w) s = .next s ∧
    exec (.ckptRestore who w) s = .next s) ∧
  (∀ s who w, who.custodian = true →
    (let k := (w.extractLsb' 56 8).toNat;
    let f := (w.extractLsb' 16 36).toNat;
    let e := entry0 s f;
    let ok := (s.part k).mcl = false ∧ 1 ≤ entState e ∧ entState e ≤ 4 ∧ (entPart e).toNat = k;
    (ok → ∃ u, exec (.measextAbsorb who w) s = .next u ∧ u = { s with parts := u.parts } ∧ u.part k = { s.part k with
      meas := (s.part k).meas ++ toBytes 8 (f * 65536) ++ homeBytes s (f * 65536) 65536 } ∧ ∀ j, j ≠ k → u.part j = s.part j) ∧
    (¬ ok → exec (.measextAbsorb who w) s = .next s))) ∧
  (∀ s i who w, who.custodian = true → (i = 0 → exec (.certRoll i who w) s = .next s) ∧
    (let pa := (w.extractLsb' 0 32).toNat * 256;
    0 < i → i < 8 → PlainHbm s pa 29856 → ∃ u, exec (.certRoll i who w) s = .next u ∧ certGen u i = certGen s i + 1 ∧
      (∀ j, j ≠ i → certGen u j = certGen s j) ∧ homeBytes u pa 64 = fixBytes 64 (Config.slhPublic i (certGen s i + 1)) ∧
      (∀ x, (∀ j, j < 29856 → x ≠ pa + j) → byteAt u x = byteAt s x) ∧ u.parts = s.parts ∧ u.ctxs = s.ctxs)) ∧
  (∀ s who w, who.custodian = true → (s.sec.attBusy = true → exec (.attreqStart who w) s = .next s) ∧
    (s.sec.attBusy = false → ∃ u, exec (.attreqStart who w) s = .next u ∧ u = { s with sec := { s.sec with
      attBusy := true, attPart := w.extractLsb' 56 8, attSlot := (w.extractLsb' 52 3).toNat, attAddr := u.sec.attAddr
      attGen := certGen s (w.extractLsb' 52 3).toNat } } ∧ u.sec.attAddr = (w.extractLsb' 0 52).toNat / 4096 * 4096)) ∧
  (∀ s, s.sec.attBusy = false → exec .attestationDone s = .next s) ∧
  (∀ s, s.sec.attBusy = true → s.sec.attSlot < 8 → PlainHbm s s.sec.attAddr 30080 →
    (let a := s.sec.attAddr;
    ∃ u, exec .attestationDone s = .next u ∧ u.sec.attBusy = false ∧ u.sec.attDone = true ∧ (homeBytes u a 64 = homeBytes s a 64) ∧
      homeWord u (a + 0x40) = 1 ∧ homeWord u (a + 0x48) = nat64 (s.sec.attPart.toNat + 256 * s.sec.attSlot + 2 ^ 32 * s.sec.attGen.toNat) ∧
      homeWord u (a + 0x50) = pctlWord (s.part s.sec.attPart.toNat) ∧
      homeWord u (a + 0x118) = (if certGen s s.sec.attSlot ≠ s.sec.attGen then 1 else if (s.part s.sec.attPart.toNat).en = false then 2 else 0) ∧
      (homeWord u (a + 0x118) ≠ 0 → ∀ j, j < 29792 → homeByte u (a + 0x120 + j) = 0) ∧
      ∀ x, (∀ j, j < 30080 → x ≠ a + j) → byteAt u x = byteAt s x)) ∧
  (∀ s k who w, k < 8 → who.custodian = true → w.getLsbD 63 = true →
    (let base := (w.extractLsb' 16 21).toNat * 65536;
    ((s.base k).custEn = true ∨ stackBytes < base + 320 * 65536 → exec (.custbaseEnable k who w) s = .next s) ∧
    ((s.base k).custEn = false → base + 320 * 65536 ≤ stackBytes → ∃ u, exec (.custbaseEnable k who w) s = .next u ∧
      (u.base k).custEn = true ∧ (u.base k).custBase = base ∧ (∀ j, j < 320 * 65536 → byteAt u (k * 2 ^ 37 + base + j) = 0) ∧
      (∀ x, (∀ j, j < 320 * 65536 → x ≠ k * 2 ^ 37 + base + j) → byteAt u x = byteAt s x) ∧ (∀ j, j ≠ k → u.base j = s.base j)))) ∧
  (∀ s p who w, who.custodian = true → w.getLsbD 63 = true →
    ((s.dieCtl p).state = 1 ∨ (s.dieCtl p).state = 0 → exec (.dieReset p who w) s = .next s) ∧
    (p < 8 → (s.dieCtl p).state = 2 ∨ (s.dieCtl p).state = 3 ∨ (s.dieCtl p).state = 4 → ∃ u, exec (.dieReset p who w) s = .next u ∧
      u.dieCtl p = { s.dieCtl p with state := 1, reason := 0, stoppc := 0 } ∧ (∀ c, dieOf c = p → (u.ctx c).run = .free) ∧
      (u.die p).ready = [] ∧ (u.die p).service = [] ∧ (u.die p).centry = 0 ∧ (∀ q, q / 64 = p → u.clu q = {}) ∧ (∀ v ∈ u.invals, p ∉ v.waiting) ∧
      (Sparse.get 0xFF u.sec.pmap p : BitVec 8) = 0xFF ∧ (∀ d, (u.die d).lost.getLsbD p = false) ∧
      (∀ j, j < 2 ^ 25 → byteAt u (2 ^ 52 + p * 2 ^ 25 + j) = 0) ∧ ∀ x, x < 2 ^ 52 → byteAt u x = byteAt s x)) ∧
  (∀ s who w, who.custodian = true → w.getLsbD 0 = true → s.ckptSt ≠ 1 →
    (w.getLsbD 1 = false → ∃ u, exec (.ckptSave who w) s = .next u ∧ u.ckptSt = 1 ∧ u.ckptRestore = false ∧ u.ckptResume = w.getLsbD 2 ∧ SameBytes s u ∧
      (∀ c, AsksToStop s c → u.ctx c = { s.ctx c with request := some 3, latch := (s.ctx c).latch ||| 0x10 }) ∧
      ∀ c, (s.ctx c).level = .custodian ∨ (s.ctx c).task = none → u.ctx c = s.ctx c) ∧
    (w.getLsbD 1 = true → exec (.ckptRestore who w) s =
      .next { s with ckptRestore := true, ckptResume := w.getLsbD 2, ckptSt := if allOut s then 1 else 3 })) ∧
  (∀ s, s.ckptSt = 1 → exec (.ckptDone false) s = .next { s with ckptSt := 3 }) ∧
  (∀ s ok, s.ckptSt ≠ 1 → exec (.ckptDone ok) s = .next s) ∧
  (∀ s, s.ckptSt = 1 → allOut s = true → s.cmds = [] → (∀ k ∈ s.clus, k.2.csq = []) → s.ckptResume = false →
    (s.ckptRestore = false → ∃ u, exec (.ckptDone true) s = .next u ∧ u.ckptSt = 2 ∧ u.saved.map (·.frame) = assigned s ∧ SameBytes s u ∧
      ∀ f ∈ u.saved, f.word0 = entry0 s f.frame ∧ f.word1 = entry1 s f.frame ∧
        ∀ x, x / 65536 = f.frame → Memory.read s.mem x = ((f.bytes.find? fun e => e.1 == x).map (·.2)).getD 0) ∧
    (∀ f, s.ckptRestore = true → s.saved = [f] → (s.base (f.frame / 2 ^ 21)).custEn = true → 
      PlainHbm s (entryAddr s f.frame) 16 → (∀ e ∈ f.bytes, e.1 / 65536 = f.frame) → (f.bytes.map (·.1)).Nodup →
      (∀ j, j < 16 → (entryAddr s f.frame + j) / 65536 ≠ f.frame) → ∃ u, exec (.ckptDone true) s = .next u ∧ u.ckptSt = 2 ∧
        (∀ x, x / 65536 = f.frame → byteAt u x = ((f.bytes.find? fun e => e.1 == x).map (·.2)).getD 0) ∧
        entry0 u f.frame = f.word0 ∧ entry1 u f.frame = f.word1)) ∧
  (∀ s d v who w, d < 10 → v < 16 → reachable s (writerIdent s who) (windowPa d (8 * v)) = true →
    (who.custodian = true ∨ (who.vf.toNat = v ∧ who.world = decide (d < 8)) → ∃ u, exec (.registerWrite (windowPa d (8 * v)) who w) s = .next u ∧
      (Sparse.get 0 (u.die d).kentry v : Word) = w &&& 0xFFFFFFFFFFFFFFFC ∧ (∀ j, j ≠ v → (Sparse.get 0 (u.die d).kentry j : Word) = Sparse.get 0 (s.die d).kentry j) ∧
      u = { s with dies := u.dies } ∧ ∀ e, e ≠ d → u.die e = s.die e) ∧
    (who.custodian = false → who.vf.toNat ≠ v → exec (.registerWrite (windowPa d (8 * v)) who w) s = .next s)) ∧
  (∀ s d who w, d < 10 → reachable s (writerIdent s who) (windowPa d 0x80) = true →
    (who.custodian = true → ∃ u, exec (.registerWrite (windowPa d 0x80) who w) s = .next u ∧ u.die d = { s.die d with centry := w &&& 0xFFFFFFFFFFFFFFFC }) ∧
    (who.custodian = false → exec (.registerWrite (windowPa d 0x80) who w) s = .next s)) ∧
  (∀ s d off who w, d < 10 → off < 2 ^ 32 → windowListed d off (isLead s d) = false → exec (.registerWrite (windowPa d off) who w) s = .next s)

/-- A port's link takes its state. A response sets an enabled window's DevLoad, severe count and R462's limit for 10 us. A
session keys when opened and again after 2^40 frames, takes its key or fails with its peer's answer or after 1 s,
accepts a frame once within 1024 of the highest, closes. A malformed descriptor or a seventeenth collective gets its
status; a good one starts with its own encoding; a contribution counts once, in time and in its round; the round's end
writes the sum and then the record. The arbiter writes the oldest record at the buffer's next place, or counts it
lost. A throttle sets the die's clock and makes a record. A trip empties the die; undervoltage holds every die in
reset; module reset with a good image enters the custodian on context 0 of HD0, else leaves HD0 in STATE 4 with REASON
2. Complete here: portLinkStateChange, cxlResponse, devloadPeriodEnd, esessOpen, esessClose, sessionKeyingTimeout,
ethernetFrameReceive, sessionRekey, wacsubSubmit, wacContribution, wacBoundExpiry, traceRecord, throttleChange,
thermalTrip, supplyUndervoltage, supplyRestored, moduleReset. -/
def Obligations.OutsideAndPower : Prop :=
  (∀ s d n l, IsHost d → n < 2 → (l.toNat < 4 → ∃ u, exec (.portLinkStateChange d n l) s = .next u ∧
      (Sparse.get {} (u.hio d).ports n : Port) = { (Sparse.get {} (s.hio d).ports n : Port) with lstat := l } ∧ u = { s with io := u.io }) ∧
    (4 ≤ l.toNat → exec (.portLinkStateChange d n l) s = .next s)) ∧
  (∀ s d j load, IsHost d → j < 16 → (winOf s d j).a.getLsbD 63 = true → ∃ u, exec (.cxlResponse d j load) s = .next u ∧ u = { s with io := u.io } ∧
    (winOf u d j).last = load ∧ (winOf u d j).unacked = (winOf s d j).unacked.drop 1 ∧
    (winOf u d j).severe.toNat = min ((winOf s d j).severe.toNat + if load = 3 then 1 else 0) (2 ^ 32 - 1) ∧
    ((winOf s d j).till = none → (winOf u d j).limit = loadLimit ((winOf s d j).b.extractLsb' 48 16).toNat (winOf s d j).limit load.toNat ∧
      (winOf u d j).till = some (s.time.toNat + 10000)) ∧
    (∀ t, (winOf s d j).till = some t → (winOf u d j).limit = (winOf s d j).limit ∧ (winOf u d j).till = some t)) ∧
  (∀ s d j load, (winOf s d j).a.getLsbD 63 = false → exec (.cxlResponse d j load) s = .next s) ∧
  (∀ s d j t, (winOf s d j).till = some t → (t ≤ s.time.toNat → ∃ u, exec (.devloadPeriodEnd d j) s = .next u ∧
      winOf u d j = { winOf s d j with till := none }) ∧ (s.time.toNat < t → exec (.devloadPeriodEnd d j) s = .next s)) ∧
  (∀ s d n who w, IsHost d → n < 256 → (s.hio d).wac = [] →
    (w.getLsbD 63 = true → (sessOf s d n).en = true → ∃ u, exec (.esessOpen d n who w) s = .next u ∧ (sessOf u d n).state = (sessOf s d n).state) ∧
    (w.getLsbD 63 = true → (sessOf s d n).en = false → ∃ u, exec (.esessOpen d n who w) s = .next u ∧ (sessOf u d n).en = true ∧
      (sessOf u d n).state = 1 ∧ (sessOf u d n).since = s.time.toNat ∧ (sessOf u d n).peer = w.extractLsb' 0 40 ∧ (sessOf u d n).port = w.extractLsb' 56 2) ∧
    (w.getLsbD 63 = false → ∃ u, exec (.esessClose d n who w) s = .next u ∧ (sessOf u d n).en = false ∧ (sessOf u d n).state = 0)) ∧
  (∀ s d n, (s.hio d).wac = [] → (let x := sessOf s d n;
    x.state = 1 ∨ (x.state = 2 ∧ x.rekey = true) →
    (x.since + 1000000000 ≤ s.time.toNat → ∃ u, exec (.sessionKeyingTimeout d n) s = .next u ∧ sessOf u d n = { x with state := 3, rekey := false }) ∧
    (s.time.toNat < x.since + 1000000000 → exec (.sessionKeyingTimeout d n) s = .next s) ∧
    ∀ ok c, ∃ u, exec (.ethernetFrameReceive d n true ok c) s = .next u ∧ sessOf u d n =
      if ok then (if x.rekey then { x with keys := x.keys + 1, sent := 0, rekey := false } else { x with state := 2 })
      else { x with state := 3, rekey := false })) ∧
  (∀ s d n ok c, (let x := sessOf s d n;
    (x.state = 2 → ok = true → x.high < c + 1024 → c ∉ x.seen → ∃ u, exec (.ethernetFrameReceive d n false ok c) s = .next u ∧
      (sessOf u d n).high = max x.high c ∧ c ∈ (sessOf u d n).seen ∧ (sessOf u d n).state = 2 ∧ u = { s with io := u.io }) ∧
    (x.state ≠ 2 ∨ ok = false ∨ c + 1024 ≤ x.high ∨ c ∈ x.seen → exec (.ethernetFrameReceive d n false ok c) s = .next s))) ∧
  (∀ s d n, (let x := sessOf s d n;
    (x.state = 2 → 2 ^ 40 ≤ x.sent → x.rekey = false → ∃ u, exec (.sessionRekey d n) s = .next u ∧
      sessOf u d n = { x with rekey := true, since := s.time.toNat }) ∧
    (x.state ≠ 2 ∨ x.sent < 2 ^ 40 ∨ x.rekey = true → exec (.sessionRekey d n) s = .next s))) ∧
  (∀ s d who w, IsHost d → (let pa := (w.extractLsb' 6 46).toNat * 64;
    let i : Ident := { custodian := who.custodian, part := who.part, vf := who.vf, world := who.world };
    let result := wacField s pa 0x20 8;
    homeRights s i pa = true → homeRights s i result = true → PlainHbm s result 32 →
    (¬ WacWellFormed s pa → ∃ u, exec (.wacsubSubmit d who w) s = .next u ∧ WacRecord u result (nat64 (wacField s pa 8 8)) 0 0 0 2 ∧ u.io = s.io ∧
      ∀ x, (∀ j, j < 32 → x ≠ result + j) → byteAt u x = byteAt s x) ∧
    (WacWellFormed s pa → 16 ≤ ((s.hio d).wac.filter fun e => e.2.isSome).length → ∃ u, exec (.wacsubSubmit d who w) s = .next u ∧
      WacRecord u result (nat64 (wacField s pa 8 8)) 0 0 0 3 ∧ u.io = s.io) ∧
    (∀ m, WacWellFormed s pa → ((s.hio d).wac.filter fun e => e.2.isSome).length < 16 → m < wacField s pa 1 1 → m ≠ wacField s pa 2 1 →
      (sessOf s d (wacField s pa (0x40 + 2 * m) 2)).state = 2 → ∃ u k x, exec (.wacsubSubmit d who w) s = .next u ∧ wacAt u d k = some x ∧ SameBytes s u ∧
        x.mask = [wacField s pa 2 1] ∧ x.start = s.time.toNat ∧ x.bound = wacField s pa 4 4 ∧ x.round = nat64 (wacField s pa 8 8) ∧
        x.buf = wacField s pa 0x10 8 ∧ x.result = result ∧ x.nmem = wacField s pa 1 1 ∧
        x.sum = wireDecode (wacField s pa 0 1) (wacField s pa 0x18 4) (wireEncode (wacField s pa 0 1) (wacField s pa 0x18 4)
          (homeBytes s (wacField s pa 0x10 8) (4 * wacField s pa 0x18 4)))))) ∧
  (∀ s d k m round data x, Counts s d k m round x → (let sum := addAll x.sum (wireDecode x.wire x.count data);
    ((∃ j, j < x.nmem ∧ j ≠ x.self ∧ j ≠ m ∧ j ∉ x.mask ∧ j ∉ x.dropped ∧ (sessOf s d (x.sessions.getD j 0xFFFF)).state = 2) →
      ∃ u y, exec (.wacContribution d k m round data) s = .next u ∧ wacAt u d k = some y ∧ y.sum = sum ∧ y.mask = x.mask ++ [m] ∧ SameBytes s u) ∧
    ((∀ j, j < x.nmem → j ∈ x.mask ∨ j = m) → WacPlain s x sum.length → ∃ u, exec (.wacContribution d k m round data) s = .next u ∧
      RoundEnds u d k x sum (x.mask ++ [m]) 0))) ∧
  (∀ s d k m round data x, wacAt s d k = some x → x.start + x.bound * 1000000 ≤ s.time.toNat ∨ round ≠ x.round ∨ m ∈ x.mask →
    exec (.wacContribution d k m round data) s = .next s) ∧
  (∀ s d k x, wacAt s d k = some x →
    (x.start + x.bound * 1000000 ≤ s.time.toNat → WacPlain s x x.sum.length → ∃ u n, exec (.wacBoundExpiry d k) s = .next u ∧
      RoundEnds u d k x x.sum x.mask n ∧ n = (wacDropped s d x).length) ∧
    (s.time.toNat < x.start + x.bound * 1000000 → exec (.wacBoundExpiry d k) s = .next s)) ∧
  (∀ s p, (s.part p).trace = [] → exec (.traceRecord p) s = .next s) ∧
  (∀ s p r l, (s.part p).trace = r :: l → 6 ≤ traceSize (s.part p) → traceSize (s.part p) ≤ 30 → (let q := s.part p;
    let full := q.trcctl.getLsbD 62 = false ∧ 2 ^ traceSize q ≤ q.trcnext;
    (full ∨ homeRights s q.trcwho (tracePa q) = false → ∃ u, exec (.traceRecord p) s = .next u ∧ (u.part p).trace = l ∧
      (u.part p).trclost = min (q.trclost + 1) (2 ^ 32 - 1) ∧ (u.part p).trcnext = q.trcnext ∧ SameBytes s u) ∧
    (¬ full → homeRights s q.trcwho (tracePa q) = true → frameHeld s (tracePa q) = false → PlainHbm s (tracePa q) 32 →
      ∃ u, exec (.traceRecord p) s = .next u ∧ (u.part p).trace = l ∧ (u.part p).trcnext = (q.trcnext + 1) % 2 ^ 32 ∧ (u.part p).trcseq = q.trcseq + 1 ∧
        homeWord u (tracePa q) = nat64 (r.time * 2 ^ 16 + r.kind * 2 ^ 8 + r.code) ∧ homeWord u (tracePa q + 8) = nat64 (q.trcseq % 2 ^ 32 * 2 ^ 32 + r.core) ∧
        homeWord u (tracePa q + 16) = r.gti ∧ homeWord u (tracePa q + 24) = r.value ∧ (u.part p).trclost = q.trclost ∧
        ∀ x, (∀ j, j < 32 → x ≠ tracePa q + j) → byteAt u x = byteAt s x))) ∧
  (∀ s d code mhz iss mv, d < 10 → 1 ≤ code.toNat → code.toNat ≤ 5 → ∃ u, exec (.throttleChange d code mhz iss mv) s = .next u ∧
    u.dieCtl d = { s.dieCtl d with mhz := mhz, issue := iss, mv := mv } ∧ u = { s with ctl := u.ctl, parts := u.parts } ∧
    (∀ p, p < 16 → dieInPart s d p = true → (s.part p).trcctl.getLsbD 63 = true → (s.part p).trcctl.getLsbD 5 = true → ∃ r, (u.part p).trace = (s.part p).trace ++ [r] ∧
      r.kind = 5 ∧ r.code = code.toNat ∧ r.core = logDie s p d * 65536 + 0x1FF ∧ r.gti = 0 ∧
      r.value = mhz.setWidth 64 ||| (iss.setWidth 64 <<< 16) ||| (mv.setWidth 64 <<< 32)) ∧
    (∀ p, p < 16 → dieInPart s d p = false → (u.part p).trace = (s.part p).trace)) ∧
  (∀ s d, d < 10 → ∃ u, exec (.thermalTrip d) s = .next u ∧ (u.dieCtl d).state = 0 ∧ (u.dieCtl d).reason = 3 ∧ (∀ c, dieOf c = d → (u.ctx c).run = .free) ∧
    (u.die d).ready = [] ∧ (∀ e ∈ u.cmds, coreDie e.core ≠ d) ∧ (∀ x, x < 2 ^ 52 → byteAt u x = byteAt s x) ∧
    ∀ j, j ≠ d → u.dieCtl j = s.dieCtl j) ∧
  (∀ s, ∃ u, exec .supplyUndervoltage s = .next u ∧ u.supply = false ∧ u.up = false ∧ (∀ c, (u.ctx c).run = .free) ∧ (∀ d, (u.dieCtl d).state = 0) ∧
    u.cmds = [] ∧ u.net = [] ∧ u.jobs = []) ∧
  (∀ s, exec .supplyRestored s = .next { s with supply := true }) ∧
  (∀ s, s.supply = false → exec .moduleReset s = .next s) ∧
  (∀ s, s.supply = true → (∀ k, (s.base k).tiles = []) → ∃ u, exec .moduleReset s = .next u ∧ u.time = 0 ∧ u.up = true ∧ u.locks = [] ∧ u.ctags = [] ∧
    u.parts = [] ∧ u.jobs = [] ∧ u.cmds = [] ∧ u.net = [] ∧ u.lanes = [] ∧ (∀ k, (u.base k).custEn = false) ∧ (∀ x, x < 2 ^ 52 → byteAt u x = byteAt s x) ∧
    (Config.firmwareGood = true → (∀ d, d < 10 → (u.dieCtl d).state = 1) ∧ u.sec.device = Config.firmware ∧ (u.ctx 0x8000).run = .running ∧
      (u.ctx 0x8000).level = .custodian ∧ (u.ctx 0x8000).pc = Config.custodianEntry ∧ ∀ c, c ≠ 0x8000 → (u.ctx c).run = .free) ∧
    (Config.firmwareGood = false → (u.dieCtl 8).state = 4 ∧ (u.dieCtl 8).reason = 2 ∧ ∀ c, (u.ctx c).run = .free))
end

