-- ==== Sys2Proof/Laws/Cache.lean ====
section
/-! SUPPORT. What the caches' operations change: the L1s, the L2s and the directories, and nothing else of the state. -/

namespace Sys2Proof.Machine

/-- Two states that differ in their caches and directories at most. -/
def CachesOnly (s t : State) : Prop := t = { s with l1 := t.l1, l2 := t.l2, homes := t.homes }

theorem CachesOnly.refl (s : State) : CachesOnly s s := rfl

theorem CachesOnly.trans {s t u : State} (h : CachesOnly s t) (k : CachesOnly t u) : CachesOnly s u := by
  unfold CachesOnly at *
  rw [k, h]

/-- What CachesOnly says of memory and of the contexts, for rewriting. -/
theorem CachesOnly.mem {s t : State} (h : CachesOnly s t) : t.mem = s.mem ∧ t.writes = s.writes ∧ t.ctxs = s.ctxs := by
  rw [h]
  exact ⟨rfl, rfl, rfl⟩

/-- A fold of steps that change caches only changes caches only. -/
theorem CachesOnly.foldl {α : Type} {f : State → α → State} (h : ∀ s a, CachesOnly s (f s a)) :
    ∀ (l : List α) (s : State), CachesOnly s (l.foldl f s)
  | [], s => .refl s
  | a :: l, s => (h s a).trans (CachesOnly.foldl h l (f s a))

theorem setHomeLine_only (s : State) (line : Nat) (h : HomeLine) : CachesOnly s (setHomeLine s line h) := rfl

theorem dropCopy_only (s : State) (die line : Nat) : CachesOnly s (dropCopy s die line) := rfl

theorem purge_only (s : State) (line : Nat) : CachesOnly s (purge s line) := rfl

theorem purgeRange_only (s : State) (pa n : Nat) : CachesOnly s (purgeRange s pa n) :=
  .foldl (fun s (e : Nat × HomeLine) => purge_only s e.1) _ s

theorem recallRange_only (s : State) (pa n : Nat) : CachesOnly s (recallRange s pa n) := by
  refine .foldl (fun s e => ?_) _ s
  split
  · split
    · exact dropCopy_only s _ _
    · exact .refl s
  · exact .refl s

theorem l2Put_only (s : State) (die : Nat) (x : L2Line) : CachesOnly s (l2Put s die x) :=
  CachesOnly.trans (t := { s with l2 := _ }) rfl (.foldl (fun s (y : L2Line) => dropCopy_only s die y.line) _ _)

theorem l2Mark_only (s : State) (die line : Nat) (st : Moesi) : CachesOnly s (l2Mark s die line st) := rfl

theorem l2Read_only (s : State) (die cl : Nat) (part : BitVec 8) (line : Nat) : CachesOnly s (l2Read s die cl part line) := by
  unfold l2Read
  split
  · exact l2Put_only s die _
  · refine CachesOnly.trans ?_ (l2Put_only _ die _)
    split
    · split <;> exact (setHomeLine_only s line _).trans (l2Mark_only _ _ _ _)
    · exact setHomeLine_only s line _
    · exact setHomeLine_only s line _

theorem l1Use_only (s : State) (cl ways : Nat) (part : BitVec 8) (line : Nat) (sec : BitVec 2) (write : Bool) :
    CachesOnly s (l1Use s cl ways part line sec write).2 := rfl

/-- A read through the caches changes caches only (R274, R275). -/
theorem cacheRead_only (s : State) (cl ways : Nat) (part : BitVec 8) (pa n : Nat) : CachesOnly s (cacheRead s cl ways part pa n).2 := by
  suffices h : ∀ (l : List Nat) (m : Nat × State), CachesOnly s m.2 → CachesOnly s (l.foldl (fun (m : Nat × State) line =>
      let s := l2Read m.2 (cl / 64) cl part line
      if ways = 0 then (m.1, s)
      else
        let r := l1Use s cl ways part line (sectorsOf line pa n) false
        (m.1 + (if r.1 then 1 else 0), r.2)) m).2 from h _ (0, s) (.refl s)
  intro l
  induction l with
  | nil => exact fun m h => h
  | cons a l ih =>
    intro m h
    rw [List.foldl_cons]
    refine ih _ ?_
    dsimp only
    split
    · exact h.trans (l2Read_only _ _ _ _ _)
    · exact (h.trans (l2Read_only _ _ _ _ _)).trans (l1Use_only _ _ _ _ _ _ _)

/-- A write through the caches changes caches only (R274, R275). -/
theorem cacheWrite_only (s : State) (cl ways : Nat) (part : BitVec 8) (pa n : Nat) : CachesOnly s (cacheWrite s cl ways part pa n) := by
  refine .foldl (fun s line => ?_) _ s
  have k : CachesOnly s { setHomeLine s line { st := .e, owner := some (cl / 64), vec := dieBit (cl / 64) } with
      l1 := dropL1 (setHomeLine s line { st := .e, owner := some (cl / 64), vec := dieBit (cl / 64) }).l1 (cl / 64) line (some cl) } := rfl
  dsimp only
  split
  · exact k.trans (l2Put_only _ _ _)
  · exact (k.trans (l2Put_only _ _ _)).trans (l1Use_only _ _ _ _ _ _ _)

theorem takeExclusive_only (s : State) (die : Nat) (part : BitVec 8) (line : Nat) : CachesOnly s (takeExclusive s die part line) :=
  ((purge_only s line).trans (setHomeLine_only _ line _)).trans (l2Put_only _ _ _)

theorem clearCaches_only (s : State) (die : Nat) : CachesOnly s (clearCaches s die) := rfl

/-- Asking for a line adds one invalidation at most (R275). -/
theorem askGrant_only (s : State) (die line : Nat) :
    askGrant s die line = { s with next := (askGrant s die line).next, invals := (askGrant s die line).invals } := by
  unfold askGrant
  split <;> rfl

end Sys2Proof.Machine
end

