-- ==== Sys2Proof/Laws/Sparse.lean ====
section
/-! SUPPORT. Lemmas about finite maps and about memory: read after write, and the canonical form. -/

namespace Sys2Proof

theorem Sparse.get_set {α : Type} (d : α) (m : Sparse α) (k j : Nat) (v : α) :
    Sparse.get d (Sparse.set m k v) j = if k = j then v else Sparse.get d m j := by
  induction m with
  | nil => rfl
  | cons e r ih =>
    obtain ⟨a, x⟩ := e
    unfold Sparse.set
    split
    · rename_i ha; subst ha; by_cases hj : a = j <;> simp [Sparse.get, hj]
    · split
      · by_cases hj : k = j <;> simp [Sparse.get, hj]
      · simp only [Sparse.get, ih]
        split <;> split <;> first | rfl | omega

@[simp] theorem Sparse.get_set_same {α : Type} (d : α) (m : Sparse α) (k : Nat) (v : α) :
    Sparse.get d (Sparse.set m k v) k = v := by simp [Sparse.get_set]

theorem Sparse.get_set_ne {α : Type} (d : α) (m : Sparse α) {k j : Nat} (v : α) (h : k ≠ j) :
    Sparse.get d (Sparse.set m k v) j = Sparse.get d m j := by simp [Sparse.get_set, h]

theorem Sparse.get_drop {α : Type} (d : α) (m : Sparse α) (k j : Nat) :
    Sparse.get d (Sparse.drop m k) j = if k = j then d else Sparse.get d m j := by
  induction m with
  | nil => simp [Sparse.drop, Sparse.get]
  | cons e r ih =>
    obtain ⟨a, x⟩ := e
    have hd : Sparse.drop ((a, x) :: r) k = if a = k then Sparse.drop r k else (a, x) :: Sparse.drop r k := by
      by_cases ha : a = k <;> simp [Sparse.drop, ha]
    rw [hd]
    split
    · rename_i ha; rw [ih]; simp only [Sparse.get, ha]; split <;> rfl
    · simp only [Sparse.get, ih]; split <;> split <;> first | rfl | omega

namespace Machine

/-- Read after write. -/
theorem Memory.read_write (m : List Host.Cell) (a j : Nat) (b : Byte) :
    Memory.read (Memory.write m a b) j = if a = j then b else Memory.read m j := by
  unfold Memory.write Memory.read
  split
  · rename_i hb; rw [Sparse.get_drop, hb]
  · rw [Sparse.get_set]

/-- The canonical form as its two parts. -/
theorem Memory.wf_iff (m : List Host.Cell) :
    Memory.wf m = true ↔ (∀ c ∈ m, c.2 ≠ 0) ∧ m.Pairwise (fun c d => c.1 < d.1) := by
  induction m with
  | nil => simp [Memory.wf]
  | cons c r ih =>
    cases r with
    | nil => simp [Memory.wf]
    | cons d r =>
      simp only [Memory.wf, Bool.and_eq_true, bne_iff_ne, decide_eq_true_eq, ih]
      constructor
      · rintro ⟨⟨hc, hlt⟩, hall, hp⟩
        refine ⟨fun e he => (List.mem_cons.1 he).elim (fun h => h ▸ hc) (hall e), ?_⟩
        rw [List.pairwise_cons]
        refine ⟨?_, hp⟩
        intro e he
        rcases List.mem_cons.1 he with rfl | he
        · exact hlt
        · exact Nat.lt_trans hlt ((List.pairwise_cons.1 hp).1 e he)
      · rintro ⟨hall, hp⟩
        have h1 := List.pairwise_cons.1 hp
        exact ⟨⟨hall c (by simp), h1.1 d (by simp)⟩, fun e he => hall e (List.mem_cons_of_mem _ he), h1.2⟩

theorem Sparse.set_mem {α : Type} (m : Sparse α) (k : Nat) (v : α) (e : Nat × α) (h : e ∈ Sparse.set m k v) :
    e = (k, v) ∨ e ∈ m := by
  induction m with
  | nil => simpa [Sparse.set] using h
  | cons f r ih =>
    obtain ⟨a, x⟩ := f
    unfold Sparse.set at h
    split at h
    · rcases List.mem_cons.1 h with h | h
      · exact .inl h
      · exact .inr (List.mem_cons_of_mem _ h)
    · split at h
      · rcases List.mem_cons.1 h with h | h
        · exact .inl h
        · exact .inr h
      · rcases List.mem_cons.1 h with h | h
        · exact .inr (by simp [h])
        · rcases ih h with h | h
          · exact .inl h
          · exact .inr (List.mem_cons_of_mem _ h)

theorem Sparse.set_rising {α : Type} (m : Sparse α) (k : Nat) (v : α) (h : m.Pairwise (fun c d => c.1 < d.1)) :
    (Sparse.set m k v).Pairwise (fun c d => c.1 < d.1) := by
  induction m with
  | nil => simp [Sparse.set]
  | cons f r ih =>
    obtain ⟨a, x⟩ := f
    have hc := List.pairwise_cons.1 h
    unfold Sparse.set
    split
    · rename_i ha; subst ha
      exact List.pairwise_cons.2 ⟨hc.1, hc.2⟩
    · split
      · rename_i hlt
        refine List.pairwise_cons.2 ⟨?_, h⟩
        intro e he
        rcases List.mem_cons.1 he with rfl | he
        · exact hlt
        · exact Nat.lt_trans hlt (hc.1 e he)
      · rename_i hne hnlt
        refine List.pairwise_cons.2 ⟨?_, ih hc.2⟩
        intro e he
        rcases Sparse.set_mem r k v e he with rfl | he
        · show a < k
          omega
        · exact hc.1 e he

/-- A write keeps the canonical form. -/
theorem Memory.wf_write (m : List Host.Cell) (a : Nat) (b : Byte) (h : Memory.wf m = true) :
    Memory.wf (Memory.write m a b) = true := by
  rw [Memory.wf_iff] at h ⊢
  unfold Memory.write
  split
  · exact ⟨fun c hc => h.1 c (List.mem_of_mem_filter hc), h.2.filter _⟩
  · rename_i hb
    refine ⟨fun c hc => ?_, Sparse.set_rising m a b h.2⟩
    rcases Sparse.set_mem m a b c hc with rfl | hc
    · exact hb
    · exact h.1 c hc

/-- Writes in order keep the canonical form. -/
theorem Memory.wf_writeAll (ws m : List Host.Cell) (h : Memory.wf m = true) :
    Memory.wf (Memory.writeAll m ws) = true := by
  induction ws generalizing m with
  | nil => exact h
  | cons c r ih => exact ih _ (Memory.wf_write m c.1 c.2 h)

/-- After writes in order, an address reads as the last of them says, or as before. -/
theorem Memory.read_writeAll (ws m : List Host.Cell) (a : Nat) :
    Memory.read (Memory.writeAll m ws) a =
      match ws.reverse.find? (fun c => c.1 == a) with | some c => c.2 | none => Memory.read m a := by
  induction ws generalizing m with
  | nil => rfl
  | cons c r ih =>
    show Memory.read (Memory.writeAll (Memory.write m c.1 c.2) r) a = _
    rw [ih]
    simp only [List.reverse_cons, List.find?_append, Memory.read_write]
    cases hr : r.reverse.find? (fun c => c.1 == a) with
    | some d => simp
    | none => by_cases hc : c.1 = a <;> simp [hc]

end Machine
end Sys2Proof
end

