-- ==== Sys2Proof/Laws/State.lean ====
section
/-! SUPPORT. What each update of one piece of the state leaves alone, field by field and piece by piece, and what
it puts in its place. -/

namespace Sys2Proof.Machine

variable (s : State)

/-! `setCtx`. -/

@[simp] theorem State.setCtx_time (c : Nat) (x : Context) : (s.setCtx c x).time = s.time := rfl
@[simp] theorem State.setCtx_agenda (c : Nat) (x : Context) : (s.setCtx c x).agenda = s.agenda := rfl
@[simp] theorem State.setCtx_cur (c : Nat) (x : Context) : (s.setCtx c x).cur = s.cur := rfl
@[simp] theorem State.setCtx_fresh (c : Nat) (x : Context) : (s.setCtx c x).fresh = s.fresh := rfl
@[simp] theorem State.setCtx_next (c : Nat) (x : Context) : (s.setCtx c x).next = s.next := rfl
@[simp] theorem State.setCtx_mem (c : Nat) (x : Context) : (s.setCtx c x).mem = s.mem := rfl
@[simp] theorem State.setCtx_writes (c : Nat) (x : Context) : (s.setCtx c x).writes = s.writes := rfl
@[simp] theorem State.setCtx_ctags (c : Nat) (x : Context) : (s.setCtx c x).ctags = s.ctags := rfl
@[simp] theorem State.setCtx_locks (c : Nat) (x : Context) : (s.setCtx c x).locks = s.locks := rfl
@[simp] theorem State.setCtx_poison (c : Nat) (x : Context) : (s.setCtx c x).poison = s.poison := rfl
@[simp] theorem State.setCtx_l1 (c : Nat) (x : Context) : (s.setCtx c x).l1 = s.l1 := rfl
@[simp] theorem State.setCtx_l2 (c : Nat) (x : Context) : (s.setCtx c x).l2 = s.l2 := rfl
@[simp] theorem State.setCtx_homes (c : Nat) (x : Context) : (s.setCtx c x).homes = s.homes := rfl
@[simp] theorem State.setCtx_pages (c : Nat) (x : Context) : (s.setCtx c x).pages = s.pages := rfl
@[simp] theorem State.setCtx_seals (c : Nat) (x : Context) : (s.setCtx c x).seals = s.seals := rfl
@[simp] theorem State.setCtx_cores (c : Nat) (x : Context) : (s.setCtx c x).cores = s.cores := rfl
@[simp] theorem State.setCtx_clus (c : Nat) (x : Context) : (s.setCtx c x).clus = s.clus := rfl
@[simp] theorem State.setCtx_dies (c : Nat) (x : Context) : (s.setCtx c x).dies = s.dies := rfl
@[simp] theorem State.setCtx_io (c : Nat) (x : Context) : (s.setCtx c x).io = s.io := rfl
@[simp] theorem State.setCtx_bases (c : Nat) (x : Context) : (s.setCtx c x).bases = s.bases := rfl
@[simp] theorem State.setCtx_parts (c : Nat) (x : Context) : (s.setCtx c x).parts = s.parts := rfl
@[simp] theorem State.setCtx_lanes (c : Nat) (x : Context) : (s.setCtx c x).lanes = s.lanes := rfl
@[simp] theorem State.setCtx_sec (c : Nat) (x : Context) : (s.setCtx c x).sec = s.sec := rfl
@[simp] theorem State.setCtx_jobs (c : Nat) (x : Context) : (s.setCtx c x).jobs = s.jobs := rfl
@[simp] theorem State.setCtx_actors (c : Nat) (x : Context) : (s.setCtx c x).actors = s.actors := rfl
@[simp] theorem State.setCtx_cmds (c : Nat) (x : Context) : (s.setCtx c x).cmds = s.cmds := rfl
@[simp] theorem State.setCtx_tls (c : Nat) (x : Context) : (s.setCtx c x).tls = s.tls := rfl
@[simp] theorem State.setCtx_net (c : Nat) (x : Context) : (s.setCtx c x).net = s.net := rfl
@[simp] theorem State.setCtx_links (c : Nat) (x : Context) : (s.setCtx c x).links = s.links := rfl
@[simp] theorem State.setCtx_holds (c : Nat) (x : Context) : (s.setCtx c x).holds = s.holds := rfl
@[simp] theorem State.setCtx_invals (c : Nat) (x : Context) : (s.setCtx c x).invals = s.invals := rfl
@[simp] theorem State.setCtx_ctl (c : Nat) (x : Context) : (s.setCtx c x).ctl = s.ctl := rfl
@[simp] theorem State.setCtx_ckptDst (c : Nat) (x : Context) : (s.setCtx c x).ckptDst = s.ckptDst := rfl
@[simp] theorem State.setCtx_ckptSt (c : Nat) (x : Context) : (s.setCtx c x).ckptSt = s.ckptSt := rfl
@[simp] theorem State.setCtx_ckptMoved (c : Nat) (x : Context) : (s.setCtx c x).ckptMoved = s.ckptMoved := rfl
@[simp] theorem State.setCtx_ckptResume (c : Nat) (x : Context) : (s.setCtx c x).ckptResume = s.ckptResume := rfl
@[simp] theorem State.setCtx_ckptRestore (c : Nat) (x : Context) : (s.setCtx c x).ckptRestore = s.ckptRestore := rfl
@[simp] theorem State.setCtx_saved (c : Nat) (x : Context) : (s.setCtx c x).saved = s.saved := rfl
@[simp] theorem State.setCtx_devout (c : Nat) (x : Context) : (s.setCtx c x).devout = s.devout := rfl
@[simp] theorem State.setCtx_supply (c : Nat) (x : Context) : (s.setCtx c x).supply = s.supply := rfl
@[simp] theorem State.setCtx_up (c : Nat) (x : Context) : (s.setCtx c x).up = s.up := rfl
@[simp] theorem State.setCtx_at_core (c : Nat) (x : Context) (k : Nat) : (s.setCtx c x).core k = s.core k := rfl
@[simp] theorem State.setCtx_at_clu (c : Nat) (x : Context) (k : Nat) : (s.setCtx c x).clu k = s.clu k := rfl
@[simp] theorem State.setCtx_at_die (c : Nat) (x : Context) (k : Nat) : (s.setCtx c x).die k = s.die k := rfl
@[simp] theorem State.setCtx_at_hio (c : Nat) (x : Context) (k : Nat) : (s.setCtx c x).hio k = s.hio k := rfl
@[simp] theorem State.setCtx_at_base (c : Nat) (x : Context) (k : Nat) : (s.setCtx c x).base k = s.base k := rfl
@[simp] theorem State.setCtx_at_part (c : Nat) (x : Context) (k : Nat) : (s.setCtx c x).part k = s.part k := rfl
@[simp] theorem State.setCtx_at_lane (c : Nat) (x : Context) (k : Nat) : (s.setCtx c x).lane k = s.lane k := rfl
@[simp] theorem State.setCtx_at_job (c : Nat) (x : Context) (k : Nat) : (s.setCtx c x).job k = s.job k := rfl
@[simp] theorem State.setCtx_at_actor (c : Nat) (x : Context) (k : Nat) : (s.setCtx c x).actor k = s.actor k := rfl
@[simp] theorem State.setCtx_at_dieCtl (c : Nat) (x : Context) (k : Nat) : (s.setCtx c x).dieCtl k = s.dieCtl k := rfl
@[simp] theorem State.setCtx_at_tline (c : Nat) (x : Context) (o l : Nat) : (s.setCtx c x).tline o l = s.tline o l := rfl
theorem State.setCtx_at_ctx (c : Nat) (x : Context) (k : Nat) :
    (s.setCtx c x).ctx k = if c = k then x else s.ctx k := Sparse.get_set ..
@[simp] theorem State.setCtx_ctx_same (c : Nat) (x : Context) : (s.setCtx c x).ctx c = x := Sparse.get_set_same ..
@[simp] theorem State.setCtx_ctx_ne (c : Nat) (x : Context) (k : Nat) (h : c ≠ k) : (s.setCtx c x).ctx k = s.ctx k :=
  Sparse.get_set_ne _ _ _ h

/-! `modCtx`. -/

@[simp] theorem State.modCtx_time (c : Nat) (f : Context → Context) : (s.modCtx c f).time = s.time := rfl
@[simp] theorem State.modCtx_agenda (c : Nat) (f : Context → Context) : (s.modCtx c f).agenda = s.agenda := rfl
@[simp] theorem State.modCtx_cur (c : Nat) (f : Context → Context) : (s.modCtx c f).cur = s.cur := rfl
@[simp] theorem State.modCtx_fresh (c : Nat) (f : Context → Context) : (s.modCtx c f).fresh = s.fresh := rfl
@[simp] theorem State.modCtx_next (c : Nat) (f : Context → Context) : (s.modCtx c f).next = s.next := rfl
@[simp] theorem State.modCtx_mem (c : Nat) (f : Context → Context) : (s.modCtx c f).mem = s.mem := rfl
@[simp] theorem State.modCtx_writes (c : Nat) (f : Context → Context) : (s.modCtx c f).writes = s.writes := rfl
@[simp] theorem State.modCtx_ctags (c : Nat) (f : Context → Context) : (s.modCtx c f).ctags = s.ctags := rfl
@[simp] theorem State.modCtx_locks (c : Nat) (f : Context → Context) : (s.modCtx c f).locks = s.locks := rfl
@[simp] theorem State.modCtx_poison (c : Nat) (f : Context → Context) : (s.modCtx c f).poison = s.poison := rfl
@[simp] theorem State.modCtx_l1 (c : Nat) (f : Context → Context) : (s.modCtx c f).l1 = s.l1 := rfl
@[simp] theorem State.modCtx_l2 (c : Nat) (f : Context → Context) : (s.modCtx c f).l2 = s.l2 := rfl
@[simp] theorem State.modCtx_homes (c : Nat) (f : Context → Context) : (s.modCtx c f).homes = s.homes := rfl
@[simp] theorem State.modCtx_pages (c : Nat) (f : Context → Context) : (s.modCtx c f).pages = s.pages := rfl
@[simp] theorem State.modCtx_seals (c : Nat) (f : Context → Context) : (s.modCtx c f).seals = s.seals := rfl
@[simp] theorem State.modCtx_cores (c : Nat) (f : Context → Context) : (s.modCtx c f).cores = s.cores := rfl
@[simp] theorem State.modCtx_clus (c : Nat) (f : Context → Context) : (s.modCtx c f).clus = s.clus := rfl
@[simp] theorem State.modCtx_dies (c : Nat) (f : Context → Context) : (s.modCtx c f).dies = s.dies := rfl
@[simp] theorem State.modCtx_io (c : Nat) (f : Context → Context) : (s.modCtx c f).io = s.io := rfl
@[simp] theorem State.modCtx_bases (c : Nat) (f : Context → Context) : (s.modCtx c f).bases = s.bases := rfl
@[simp] theorem State.modCtx_parts (c : Nat) (f : Context → Context) : (s.modCtx c f).parts = s.parts := rfl
@[simp] theorem State.modCtx_lanes (c : Nat) (f : Context → Context) : (s.modCtx c f).lanes = s.lanes := rfl
@[simp] theorem State.modCtx_sec (c : Nat) (f : Context → Context) : (s.modCtx c f).sec = s.sec := rfl
@[simp] theorem State.modCtx_jobs (c : Nat) (f : Context → Context) : (s.modCtx c f).jobs = s.jobs := rfl
@[simp] theorem State.modCtx_actors (c : Nat) (f : Context → Context) : (s.modCtx c f).actors = s.actors := rfl
@[simp] theorem State.modCtx_cmds (c : Nat) (f : Context → Context) : (s.modCtx c f).cmds = s.cmds := rfl
@[simp] theorem State.modCtx_tls (c : Nat) (f : Context → Context) : (s.modCtx c f).tls = s.tls := rfl
@[simp] theorem State.modCtx_net (c : Nat) (f : Context → Context) : (s.modCtx c f).net = s.net := rfl
@[simp] theorem State.modCtx_links (c : Nat) (f : Context → Context) : (s.modCtx c f).links = s.links := rfl
@[simp] theorem State.modCtx_holds (c : Nat) (f : Context → Context) : (s.modCtx c f).holds = s.holds := rfl
@[simp] theorem State.modCtx_invals (c : Nat) (f : Context → Context) : (s.modCtx c f).invals = s.invals := rfl
@[simp] theorem State.modCtx_ctl (c : Nat) (f : Context → Context) : (s.modCtx c f).ctl = s.ctl := rfl
@[simp] theorem State.modCtx_ckptDst (c : Nat) (f : Context → Context) : (s.modCtx c f).ckptDst = s.ckptDst := rfl
@[simp] theorem State.modCtx_ckptSt (c : Nat) (f : Context → Context) : (s.modCtx c f).ckptSt = s.ckptSt := rfl
@[simp] theorem State.modCtx_ckptMoved (c : Nat) (f : Context → Context) : (s.modCtx c f).ckptMoved = s.ckptMoved := rfl
@[simp] theorem State.modCtx_ckptResume (c : Nat) (f : Context → Context) : (s.modCtx c f).ckptResume = s.ckptResume := rfl
@[simp] theorem State.modCtx_ckptRestore (c : Nat) (f : Context → Context) : (s.modCtx c f).ckptRestore = s.ckptRestore := rfl
@[simp] theorem State.modCtx_saved (c : Nat) (f : Context → Context) : (s.modCtx c f).saved = s.saved := rfl
@[simp] theorem State.modCtx_devout (c : Nat) (f : Context → Context) : (s.modCtx c f).devout = s.devout := rfl
@[simp] theorem State.modCtx_supply (c : Nat) (f : Context → Context) : (s.modCtx c f).supply = s.supply := rfl
@[simp] theorem State.modCtx_up (c : Nat) (f : Context → Context) : (s.modCtx c f).up = s.up := rfl
@[simp] theorem State.modCtx_at_core (c : Nat) (f : Context → Context) (k : Nat) : (s.modCtx c f).core k = s.core k := rfl
@[simp] theorem State.modCtx_at_clu (c : Nat) (f : Context → Context) (k : Nat) : (s.modCtx c f).clu k = s.clu k := rfl
@[simp] theorem State.modCtx_at_die (c : Nat) (f : Context → Context) (k : Nat) : (s.modCtx c f).die k = s.die k := rfl
@[simp] theorem State.modCtx_at_hio (c : Nat) (f : Context → Context) (k : Nat) : (s.modCtx c f).hio k = s.hio k := rfl
@[simp] theorem State.modCtx_at_base (c : Nat) (f : Context → Context) (k : Nat) : (s.modCtx c f).base k = s.base k := rfl
@[simp] theorem State.modCtx_at_part (c : Nat) (f : Context → Context) (k : Nat) : (s.modCtx c f).part k = s.part k := rfl
@[simp] theorem State.modCtx_at_lane (c : Nat) (f : Context → Context) (k : Nat) : (s.modCtx c f).lane k = s.lane k := rfl
@[simp] theorem State.modCtx_at_job (c : Nat) (f : Context → Context) (k : Nat) : (s.modCtx c f).job k = s.job k := rfl
@[simp] theorem State.modCtx_at_actor (c : Nat) (f : Context → Context) (k : Nat) : (s.modCtx c f).actor k = s.actor k := rfl
@[simp] theorem State.modCtx_at_dieCtl (c : Nat) (f : Context → Context) (k : Nat) : (s.modCtx c f).dieCtl k = s.dieCtl k := rfl
@[simp] theorem State.modCtx_at_tline (c : Nat) (f : Context → Context) (o l : Nat) : (s.modCtx c f).tline o l = s.tline o l := rfl
theorem State.modCtx_at_ctx (c : Nat) (f : Context → Context) (k : Nat) :
    (s.modCtx c f).ctx k = if c = k then f (s.ctx c) else s.ctx k := Sparse.get_set ..
@[simp] theorem State.modCtx_ctx_same (c : Nat) (f : Context → Context) : (s.modCtx c f).ctx c = f (s.ctx c) := Sparse.get_set_same ..
@[simp] theorem State.modCtx_ctx_ne (c : Nat) (f : Context → Context) (k : Nat) (h : c ≠ k) : (s.modCtx c f).ctx k = s.ctx k :=
  Sparse.get_set_ne _ _ _ h

/-! `setCore`. -/

@[simp] theorem State.setCore_time (c : Nat) (x : Core) : (s.setCore c x).time = s.time := rfl
@[simp] theorem State.setCore_agenda (c : Nat) (x : Core) : (s.setCore c x).agenda = s.agenda := rfl
@[simp] theorem State.setCore_cur (c : Nat) (x : Core) : (s.setCore c x).cur = s.cur := rfl
@[simp] theorem State.setCore_fresh (c : Nat) (x : Core) : (s.setCore c x).fresh = s.fresh := rfl
@[simp] theorem State.setCore_next (c : Nat) (x : Core) : (s.setCore c x).next = s.next := rfl
@[simp] theorem State.setCore_mem (c : Nat) (x : Core) : (s.setCore c x).mem = s.mem := rfl
@[simp] theorem State.setCore_writes (c : Nat) (x : Core) : (s.setCore c x).writes = s.writes := rfl
@[simp] theorem State.setCore_ctags (c : Nat) (x : Core) : (s.setCore c x).ctags = s.ctags := rfl
@[simp] theorem State.setCore_locks (c : Nat) (x : Core) : (s.setCore c x).locks = s.locks := rfl
@[simp] theorem State.setCore_poison (c : Nat) (x : Core) : (s.setCore c x).poison = s.poison := rfl
@[simp] theorem State.setCore_l1 (c : Nat) (x : Core) : (s.setCore c x).l1 = s.l1 := rfl
@[simp] theorem State.setCore_l2 (c : Nat) (x : Core) : (s.setCore c x).l2 = s.l2 := rfl
@[simp] theorem State.setCore_homes (c : Nat) (x : Core) : (s.setCore c x).homes = s.homes := rfl
@[simp] theorem State.setCore_pages (c : Nat) (x : Core) : (s.setCore c x).pages = s.pages := rfl
@[simp] theorem State.setCore_seals (c : Nat) (x : Core) : (s.setCore c x).seals = s.seals := rfl
@[simp] theorem State.setCore_ctxs (c : Nat) (x : Core) : (s.setCore c x).ctxs = s.ctxs := rfl
@[simp] theorem State.setCore_clus (c : Nat) (x : Core) : (s.setCore c x).clus = s.clus := rfl
@[simp] theorem State.setCore_dies (c : Nat) (x : Core) : (s.setCore c x).dies = s.dies := rfl
@[simp] theorem State.setCore_io (c : Nat) (x : Core) : (s.setCore c x).io = s.io := rfl
@[simp] theorem State.setCore_bases (c : Nat) (x : Core) : (s.setCore c x).bases = s.bases := rfl
@[simp] theorem State.setCore_parts (c : Nat) (x : Core) : (s.setCore c x).parts = s.parts := rfl
@[simp] theorem State.setCore_lanes (c : Nat) (x : Core) : (s.setCore c x).lanes = s.lanes := rfl
@[simp] theorem State.setCore_sec (c : Nat) (x : Core) : (s.setCore c x).sec = s.sec := rfl
@[simp] theorem State.setCore_jobs (c : Nat) (x : Core) : (s.setCore c x).jobs = s.jobs := rfl
@[simp] theorem State.setCore_actors (c : Nat) (x : Core) : (s.setCore c x).actors = s.actors := rfl
@[simp] theorem State.setCore_cmds (c : Nat) (x : Core) : (s.setCore c x).cmds = s.cmds := rfl
@[simp] theorem State.setCore_tls (c : Nat) (x : Core) : (s.setCore c x).tls = s.tls := rfl
@[simp] theorem State.setCore_net (c : Nat) (x : Core) : (s.setCore c x).net = s.net := rfl
@[simp] theorem State.setCore_links (c : Nat) (x : Core) : (s.setCore c x).links = s.links := rfl
@[simp] theorem State.setCore_holds (c : Nat) (x : Core) : (s.setCore c x).holds = s.holds := rfl
@[simp] theorem State.setCore_invals (c : Nat) (x : Core) : (s.setCore c x).invals = s.invals := rfl
@[simp] theorem State.setCore_ctl (c : Nat) (x : Core) : (s.setCore c x).ctl = s.ctl := rfl
@[simp] theorem State.setCore_ckptDst (c : Nat) (x : Core) : (s.setCore c x).ckptDst = s.ckptDst := rfl
@[simp] theorem State.setCore_ckptSt (c : Nat) (x : Core) : (s.setCore c x).ckptSt = s.ckptSt := rfl
@[simp] theorem State.setCore_ckptMoved (c : Nat) (x : Core) : (s.setCore c x).ckptMoved = s.ckptMoved := rfl
@[simp] theorem State.setCore_ckptResume (c : Nat) (x : Core) : (s.setCore c x).ckptResume = s.ckptResume := rfl
@[simp] theorem State.setCore_ckptRestore (c : Nat) (x : Core) : (s.setCore c x).ckptRestore = s.ckptRestore := rfl
@[simp] theorem State.setCore_saved (c : Nat) (x : Core) : (s.setCore c x).saved = s.saved := rfl
@[simp] theorem State.setCore_devout (c : Nat) (x : Core) : (s.setCore c x).devout = s.devout := rfl
@[simp] theorem State.setCore_supply (c : Nat) (x : Core) : (s.setCore c x).supply = s.supply := rfl
@[simp] theorem State.setCore_up (c : Nat) (x : Core) : (s.setCore c x).up = s.up := rfl
@[simp] theorem State.setCore_at_ctx (c : Nat) (x : Core) (k : Nat) : (s.setCore c x).ctx k = s.ctx k := rfl
@[simp] theorem State.setCore_at_clu (c : Nat) (x : Core) (k : Nat) : (s.setCore c x).clu k = s.clu k := rfl
@[simp] theorem State.setCore_at_die (c : Nat) (x : Core) (k : Nat) : (s.setCore c x).die k = s.die k := rfl
@[simp] theorem State.setCore_at_hio (c : Nat) (x : Core) (k : Nat) : (s.setCore c x).hio k = s.hio k := rfl
@[simp] theorem State.setCore_at_base (c : Nat) (x : Core) (k : Nat) : (s.setCore c x).base k = s.base k := rfl
@[simp] theorem State.setCore_at_part (c : Nat) (x : Core) (k : Nat) : (s.setCore c x).part k = s.part k := rfl
@[simp] theorem State.setCore_at_lane (c : Nat) (x : Core) (k : Nat) : (s.setCore c x).lane k = s.lane k := rfl
@[simp] theorem State.setCore_at_job (c : Nat) (x : Core) (k : Nat) : (s.setCore c x).job k = s.job k := rfl
@[simp] theorem State.setCore_at_actor (c : Nat) (x : Core) (k : Nat) : (s.setCore c x).actor k = s.actor k := rfl
@[simp] theorem State.setCore_at_dieCtl (c : Nat) (x : Core) (k : Nat) : (s.setCore c x).dieCtl k = s.dieCtl k := rfl
@[simp] theorem State.setCore_at_tline (c : Nat) (x : Core) (o l : Nat) : (s.setCore c x).tline o l = s.tline o l := rfl
theorem State.setCore_at_core (c : Nat) (x : Core) (k : Nat) :
    (s.setCore c x).core k = if c = k then x else s.core k := Sparse.get_set ..
@[simp] theorem State.setCore_core_same (c : Nat) (x : Core) : (s.setCore c x).core c = x := Sparse.get_set_same ..
@[simp] theorem State.setCore_core_ne (c : Nat) (x : Core) (k : Nat) (h : c ≠ k) : (s.setCore c x).core k = s.core k :=
  Sparse.get_set_ne _ _ _ h

/-! `modCore`. -/

@[simp] theorem State.modCore_time (c : Nat) (f : Core → Core) : (s.modCore c f).time = s.time := rfl
@[simp] theorem State.modCore_agenda (c : Nat) (f : Core → Core) : (s.modCore c f).agenda = s.agenda := rfl
@[simp] theorem State.modCore_cur (c : Nat) (f : Core → Core) : (s.modCore c f).cur = s.cur := rfl
@[simp] theorem State.modCore_fresh (c : Nat) (f : Core → Core) : (s.modCore c f).fresh = s.fresh := rfl
@[simp] theorem State.modCore_next (c : Nat) (f : Core → Core) : (s.modCore c f).next = s.next := rfl
@[simp] theorem State.modCore_mem (c : Nat) (f : Core → Core) : (s.modCore c f).mem = s.mem := rfl
@[simp] theorem State.modCore_writes (c : Nat) (f : Core → Core) : (s.modCore c f).writes = s.writes := rfl
@[simp] theorem State.modCore_ctags (c : Nat) (f : Core → Core) : (s.modCore c f).ctags = s.ctags := rfl
@[simp] theorem State.modCore_locks (c : Nat) (f : Core → Core) : (s.modCore c f).locks = s.locks := rfl
@[simp] theorem State.modCore_poison (c : Nat) (f : Core → Core) : (s.modCore c f).poison = s.poison := rfl
@[simp] theorem State.modCore_l1 (c : Nat) (f : Core → Core) : (s.modCore c f).l1 = s.l1 := rfl
@[simp] theorem State.modCore_l2 (c : Nat) (f : Core → Core) : (s.modCore c f).l2 = s.l2 := rfl
@[simp] theorem State.modCore_homes (c : Nat) (f : Core → Core) : (s.modCore c f).homes = s.homes := rfl
@[simp] theorem State.modCore_pages (c : Nat) (f : Core → Core) : (s.modCore c f).pages = s.pages := rfl
@[simp] theorem State.modCore_seals (c : Nat) (f : Core → Core) : (s.modCore c f).seals = s.seals := rfl
@[simp] theorem State.modCore_ctxs (c : Nat) (f : Core → Core) : (s.modCore c f).ctxs = s.ctxs := rfl
@[simp] theorem State.modCore_clus (c : Nat) (f : Core → Core) : (s.modCore c f).clus = s.clus := rfl
@[simp] theorem State.modCore_dies (c : Nat) (f : Core → Core) : (s.modCore c f).dies = s.dies := rfl
@[simp] theorem State.modCore_io (c : Nat) (f : Core → Core) : (s.modCore c f).io = s.io := rfl
@[simp] theorem State.modCore_bases (c : Nat) (f : Core → Core) : (s.modCore c f).bases = s.bases := rfl
@[simp] theorem State.modCore_parts (c : Nat) (f : Core → Core) : (s.modCore c f).parts = s.parts := rfl
@[simp] theorem State.modCore_lanes (c : Nat) (f : Core → Core) : (s.modCore c f).lanes = s.lanes := rfl
@[simp] theorem State.modCore_sec (c : Nat) (f : Core → Core) : (s.modCore c f).sec = s.sec := rfl
@[simp] theorem State.modCore_jobs (c : Nat) (f : Core → Core) : (s.modCore c f).jobs = s.jobs := rfl
@[simp] theorem State.modCore_actors (c : Nat) (f : Core → Core) : (s.modCore c f).actors = s.actors := rfl
@[simp] theorem State.modCore_cmds (c : Nat) (f : Core → Core) : (s.modCore c f).cmds = s.cmds := rfl
@[simp] theorem State.modCore_tls (c : Nat) (f : Core → Core) : (s.modCore c f).tls = s.tls := rfl
@[simp] theorem State.modCore_net (c : Nat) (f : Core → Core) : (s.modCore c f).net = s.net := rfl
@[simp] theorem State.modCore_links (c : Nat) (f : Core → Core) : (s.modCore c f).links = s.links := rfl
@[simp] theorem State.modCore_holds (c : Nat) (f : Core → Core) : (s.modCore c f).holds = s.holds := rfl
@[simp] theorem State.modCore_invals (c : Nat) (f : Core → Core) : (s.modCore c f).invals = s.invals := rfl
@[simp] theorem State.modCore_ctl (c : Nat) (f : Core → Core) : (s.modCore c f).ctl = s.ctl := rfl
@[simp] theorem State.modCore_ckptDst (c : Nat) (f : Core → Core) : (s.modCore c f).ckptDst = s.ckptDst := rfl
@[simp] theorem State.modCore_ckptSt (c : Nat) (f : Core → Core) : (s.modCore c f).ckptSt = s.ckptSt := rfl
@[simp] theorem State.modCore_ckptMoved (c : Nat) (f : Core → Core) : (s.modCore c f).ckptMoved = s.ckptMoved := rfl
@[simp] theorem State.modCore_ckptResume (c : Nat) (f : Core → Core) : (s.modCore c f).ckptResume = s.ckptResume := rfl
@[simp] theorem State.modCore_ckptRestore (c : Nat) (f : Core → Core) : (s.modCore c f).ckptRestore = s.ckptRestore := rfl
@[simp] theorem State.modCore_saved (c : Nat) (f : Core → Core) : (s.modCore c f).saved = s.saved := rfl
@[simp] theorem State.modCore_devout (c : Nat) (f : Core → Core) : (s.modCore c f).devout = s.devout := rfl
@[simp] theorem State.modCore_supply (c : Nat) (f : Core → Core) : (s.modCore c f).supply = s.supply := rfl
@[simp] theorem State.modCore_up (c : Nat) (f : Core → Core) : (s.modCore c f).up = s.up := rfl
@[simp] theorem State.modCore_at_ctx (c : Nat) (f : Core → Core) (k : Nat) : (s.modCore c f).ctx k = s.ctx k := rfl
@[simp] theorem State.modCore_at_clu (c : Nat) (f : Core → Core) (k : Nat) : (s.modCore c f).clu k = s.clu k := rfl
@[simp] theorem State.modCore_at_die (c : Nat) (f : Core → Core) (k : Nat) : (s.modCore c f).die k = s.die k := rfl
@[simp] theorem State.modCore_at_hio (c : Nat) (f : Core → Core) (k : Nat) : (s.modCore c f).hio k = s.hio k := rfl
@[simp] theorem State.modCore_at_base (c : Nat) (f : Core → Core) (k : Nat) : (s.modCore c f).base k = s.base k := rfl
@[simp] theorem State.modCore_at_part (c : Nat) (f : Core → Core) (k : Nat) : (s.modCore c f).part k = s.part k := rfl
@[simp] theorem State.modCore_at_lane (c : Nat) (f : Core → Core) (k : Nat) : (s.modCore c f).lane k = s.lane k := rfl
@[simp] theorem State.modCore_at_job (c : Nat) (f : Core → Core) (k : Nat) : (s.modCore c f).job k = s.job k := rfl
@[simp] theorem State.modCore_at_actor (c : Nat) (f : Core → Core) (k : Nat) : (s.modCore c f).actor k = s.actor k := rfl
@[simp] theorem State.modCore_at_dieCtl (c : Nat) (f : Core → Core) (k : Nat) : (s.modCore c f).dieCtl k = s.dieCtl k := rfl
@[simp] theorem State.modCore_at_tline (c : Nat) (f : Core → Core) (o l : Nat) : (s.modCore c f).tline o l = s.tline o l := rfl
theorem State.modCore_at_core (c : Nat) (f : Core → Core) (k : Nat) :
    (s.modCore c f).core k = if c = k then f (s.core c) else s.core k := Sparse.get_set ..
@[simp] theorem State.modCore_core_same (c : Nat) (f : Core → Core) : (s.modCore c f).core c = f (s.core c) := Sparse.get_set_same ..
@[simp] theorem State.modCore_core_ne (c : Nat) (f : Core → Core) (k : Nat) (h : c ≠ k) : (s.modCore c f).core k = s.core k :=
  Sparse.get_set_ne _ _ _ h

/-! `modClu`. -/

@[simp] theorem State.modClu_time (c : Nat) (f : Cluster → Cluster) : (s.modClu c f).time = s.time := rfl
@[simp] theorem State.modClu_agenda (c : Nat) (f : Cluster → Cluster) : (s.modClu c f).agenda = s.agenda := rfl
@[simp] theorem State.modClu_cur (c : Nat) (f : Cluster → Cluster) : (s.modClu c f).cur = s.cur := rfl
@[simp] theorem State.modClu_fresh (c : Nat) (f : Cluster → Cluster) : (s.modClu c f).fresh = s.fresh := rfl
@[simp] theorem State.modClu_next (c : Nat) (f : Cluster → Cluster) : (s.modClu c f).next = s.next := rfl
@[simp] theorem State.modClu_mem (c : Nat) (f : Cluster → Cluster) : (s.modClu c f).mem = s.mem := rfl
@[simp] theorem State.modClu_writes (c : Nat) (f : Cluster → Cluster) : (s.modClu c f).writes = s.writes := rfl
@[simp] theorem State.modClu_ctags (c : Nat) (f : Cluster → Cluster) : (s.modClu c f).ctags = s.ctags := rfl
@[simp] theorem State.modClu_locks (c : Nat) (f : Cluster → Cluster) : (s.modClu c f).locks = s.locks := rfl
@[simp] theorem State.modClu_poison (c : Nat) (f : Cluster → Cluster) : (s.modClu c f).poison = s.poison := rfl
@[simp] theorem State.modClu_l1 (c : Nat) (f : Cluster → Cluster) : (s.modClu c f).l1 = s.l1 := rfl
@[simp] theorem State.modClu_l2 (c : Nat) (f : Cluster → Cluster) : (s.modClu c f).l2 = s.l2 := rfl
@[simp] theorem State.modClu_homes (c : Nat) (f : Cluster → Cluster) : (s.modClu c f).homes = s.homes := rfl
@[simp] theorem State.modClu_pages (c : Nat) (f : Cluster → Cluster) : (s.modClu c f).pages = s.pages := rfl
@[simp] theorem State.modClu_seals (c : Nat) (f : Cluster → Cluster) : (s.modClu c f).seals = s.seals := rfl
@[simp] theorem State.modClu_ctxs (c : Nat) (f : Cluster → Cluster) : (s.modClu c f).ctxs = s.ctxs := rfl
@[simp] theorem State.modClu_cores (c : Nat) (f : Cluster → Cluster) : (s.modClu c f).cores = s.cores := rfl
@[simp] theorem State.modClu_dies (c : Nat) (f : Cluster → Cluster) : (s.modClu c f).dies = s.dies := rfl
@[simp] theorem State.modClu_io (c : Nat) (f : Cluster → Cluster) : (s.modClu c f).io = s.io := rfl
@[simp] theorem State.modClu_bases (c : Nat) (f : Cluster → Cluster) : (s.modClu c f).bases = s.bases := rfl
@[simp] theorem State.modClu_parts (c : Nat) (f : Cluster → Cluster) : (s.modClu c f).parts = s.parts := rfl
@[simp] theorem State.modClu_lanes (c : Nat) (f : Cluster → Cluster) : (s.modClu c f).lanes = s.lanes := rfl
@[simp] theorem State.modClu_sec (c : Nat) (f : Cluster → Cluster) : (s.modClu c f).sec = s.sec := rfl
@[simp] theorem State.modClu_jobs (c : Nat) (f : Cluster → Cluster) : (s.modClu c f).jobs = s.jobs := rfl
@[simp] theorem State.modClu_actors (c : Nat) (f : Cluster → Cluster) : (s.modClu c f).actors = s.actors := rfl
@[simp] theorem State.modClu_cmds (c : Nat) (f : Cluster → Cluster) : (s.modClu c f).cmds = s.cmds := rfl
@[simp] theorem State.modClu_tls (c : Nat) (f : Cluster → Cluster) : (s.modClu c f).tls = s.tls := rfl
@[simp] theorem State.modClu_net (c : Nat) (f : Cluster → Cluster) : (s.modClu c f).net = s.net := rfl
@[simp] theorem State.modClu_links (c : Nat) (f : Cluster → Cluster) : (s.modClu c f).links = s.links := rfl
@[simp] theorem State.modClu_holds (c : Nat) (f : Cluster → Cluster) : (s.modClu c f).holds = s.holds := rfl
@[simp] theorem State.modClu_invals (c : Nat) (f : Cluster → Cluster) : (s.modClu c f).invals = s.invals := rfl
@[simp] theorem State.modClu_ctl (c : Nat) (f : Cluster → Cluster) : (s.modClu c f).ctl = s.ctl := rfl
@[simp] theorem State.modClu_ckptDst (c : Nat) (f : Cluster → Cluster) : (s.modClu c f).ckptDst = s.ckptDst := rfl
@[simp] theorem State.modClu_ckptSt (c : Nat) (f : Cluster → Cluster) : (s.modClu c f).ckptSt = s.ckptSt := rfl
@[simp] theorem State.modClu_ckptMoved (c : Nat) (f : Cluster → Cluster) : (s.modClu c f).ckptMoved = s.ckptMoved := rfl
@[simp] theorem State.modClu_ckptResume (c : Nat) (f : Cluster → Cluster) : (s.modClu c f).ckptResume = s.ckptResume := rfl
@[simp] theorem State.modClu_ckptRestore (c : Nat) (f : Cluster → Cluster) : (s.modClu c f).ckptRestore = s.ckptRestore := rfl
@[simp] theorem State.modClu_saved (c : Nat) (f : Cluster → Cluster) : (s.modClu c f).saved = s.saved := rfl
@[simp] theorem State.modClu_devout (c : Nat) (f : Cluster → Cluster) : (s.modClu c f).devout = s.devout := rfl
@[simp] theorem State.modClu_supply (c : Nat) (f : Cluster → Cluster) : (s.modClu c f).supply = s.supply := rfl
@[simp] theorem State.modClu_up (c : Nat) (f : Cluster → Cluster) : (s.modClu c f).up = s.up := rfl
@[simp] theorem State.modClu_at_ctx (c : Nat) (f : Cluster → Cluster) (k : Nat) : (s.modClu c f).ctx k = s.ctx k := rfl
@[simp] theorem State.modClu_at_core (c : Nat) (f : Cluster → Cluster) (k : Nat) : (s.modClu c f).core k = s.core k := rfl
@[simp] theorem State.modClu_at_die (c : Nat) (f : Cluster → Cluster) (k : Nat) : (s.modClu c f).die k = s.die k := rfl
@[simp] theorem State.modClu_at_hio (c : Nat) (f : Cluster → Cluster) (k : Nat) : (s.modClu c f).hio k = s.hio k := rfl
@[simp] theorem State.modClu_at_base (c : Nat) (f : Cluster → Cluster) (k : Nat) : (s.modClu c f).base k = s.base k := rfl
@[simp] theorem State.modClu_at_part (c : Nat) (f : Cluster → Cluster) (k : Nat) : (s.modClu c f).part k = s.part k := rfl
@[simp] theorem State.modClu_at_lane (c : Nat) (f : Cluster → Cluster) (k : Nat) : (s.modClu c f).lane k = s.lane k := rfl
@[simp] theorem State.modClu_at_job (c : Nat) (f : Cluster → Cluster) (k : Nat) : (s.modClu c f).job k = s.job k := rfl
@[simp] theorem State.modClu_at_actor (c : Nat) (f : Cluster → Cluster) (k : Nat) : (s.modClu c f).actor k = s.actor k := rfl
@[simp] theorem State.modClu_at_dieCtl (c : Nat) (f : Cluster → Cluster) (k : Nat) : (s.modClu c f).dieCtl k = s.dieCtl k := rfl
@[simp] theorem State.modClu_at_tline (c : Nat) (f : Cluster → Cluster) (o l : Nat) : (s.modClu c f).tline o l = s.tline o l := rfl
theorem State.modClu_at_clu (c : Nat) (f : Cluster → Cluster) (k : Nat) :
    (s.modClu c f).clu k = if c = k then f (s.clu c) else s.clu k := Sparse.get_set ..
@[simp] theorem State.modClu_clu_same (c : Nat) (f : Cluster → Cluster) : (s.modClu c f).clu c = f (s.clu c) := Sparse.get_set_same ..
@[simp] theorem State.modClu_clu_ne (c : Nat) (f : Cluster → Cluster) (k : Nat) (h : c ≠ k) : (s.modClu c f).clu k = s.clu k :=
  Sparse.get_set_ne _ _ _ h

/-! `modDie`. -/

@[simp] theorem State.modDie_time (c : Nat) (f : Die → Die) : (s.modDie c f).time = s.time := rfl
@[simp] theorem State.modDie_agenda (c : Nat) (f : Die → Die) : (s.modDie c f).agenda = s.agenda := rfl
@[simp] theorem State.modDie_cur (c : Nat) (f : Die → Die) : (s.modDie c f).cur = s.cur := rfl
@[simp] theorem State.modDie_fresh (c : Nat) (f : Die → Die) : (s.modDie c f).fresh = s.fresh := rfl
@[simp] theorem State.modDie_next (c : Nat) (f : Die → Die) : (s.modDie c f).next = s.next := rfl
@[simp] theorem State.modDie_mem (c : Nat) (f : Die → Die) : (s.modDie c f).mem = s.mem := rfl
@[simp] theorem State.modDie_writes (c : Nat) (f : Die → Die) : (s.modDie c f).writes = s.writes := rfl
@[simp] theorem State.modDie_ctags (c : Nat) (f : Die → Die) : (s.modDie c f).ctags = s.ctags := rfl
@[simp] theorem State.modDie_locks (c : Nat) (f : Die → Die) : (s.modDie c f).locks = s.locks := rfl
@[simp] theorem State.modDie_poison (c : Nat) (f : Die → Die) : (s.modDie c f).poison = s.poison := rfl
@[simp] theorem State.modDie_l1 (c : Nat) (f : Die → Die) : (s.modDie c f).l1 = s.l1 := rfl
@[simp] theorem State.modDie_l2 (c : Nat) (f : Die → Die) : (s.modDie c f).l2 = s.l2 := rfl
@[simp] theorem State.modDie_homes (c : Nat) (f : Die → Die) : (s.modDie c f).homes = s.homes := rfl
@[simp] theorem State.modDie_pages (c : Nat) (f : Die → Die) : (s.modDie c f).pages = s.pages := rfl
@[simp] theorem State.modDie_seals (c : Nat) (f : Die → Die) : (s.modDie c f).seals = s.seals := rfl
@[simp] theorem State.modDie_ctxs (c : Nat) (f : Die → Die) : (s.modDie c f).ctxs = s.ctxs := rfl
@[simp] theorem State.modDie_cores (c : Nat) (f : Die → Die) : (s.modDie c f).cores = s.cores := rfl
@[simp] theorem State.modDie_clus (c : Nat) (f : Die → Die) : (s.modDie c f).clus = s.clus := rfl
@[simp] theorem State.modDie_io (c : Nat) (f : Die → Die) : (s.modDie c f).io = s.io := rfl
@[simp] theorem State.modDie_bases (c : Nat) (f : Die → Die) : (s.modDie c f).bases = s.bases := rfl
@[simp] theorem State.modDie_parts (c : Nat) (f : Die → Die) : (s.modDie c f).parts = s.parts := rfl
@[simp] theorem State.modDie_lanes (c : Nat) (f : Die → Die) : (s.modDie c f).lanes = s.lanes := rfl
@[simp] theorem State.modDie_sec (c : Nat) (f : Die → Die) : (s.modDie c f).sec = s.sec := rfl
@[simp] theorem State.modDie_jobs (c : Nat) (f : Die → Die) : (s.modDie c f).jobs = s.jobs := rfl
@[simp] theorem State.modDie_actors (c : Nat) (f : Die → Die) : (s.modDie c f).actors = s.actors := rfl
@[simp] theorem State.modDie_cmds (c : Nat) (f : Die → Die) : (s.modDie c f).cmds = s.cmds := rfl
@[simp] theorem State.modDie_tls (c : Nat) (f : Die → Die) : (s.modDie c f).tls = s.tls := rfl
@[simp] theorem State.modDie_net (c : Nat) (f : Die → Die) : (s.modDie c f).net = s.net := rfl
@[simp] theorem State.modDie_links (c : Nat) (f : Die → Die) : (s.modDie c f).links = s.links := rfl
@[simp] theorem State.modDie_holds (c : Nat) (f : Die → Die) : (s.modDie c f).holds = s.holds := rfl
@[simp] theorem State.modDie_invals (c : Nat) (f : Die → Die) : (s.modDie c f).invals = s.invals := rfl
@[simp] theorem State.modDie_ctl (c : Nat) (f : Die → Die) : (s.modDie c f).ctl = s.ctl := rfl
@[simp] theorem State.modDie_ckptDst (c : Nat) (f : Die → Die) : (s.modDie c f).ckptDst = s.ckptDst := rfl
@[simp] theorem State.modDie_ckptSt (c : Nat) (f : Die → Die) : (s.modDie c f).ckptSt = s.ckptSt := rfl
@[simp] theorem State.modDie_ckptMoved (c : Nat) (f : Die → Die) : (s.modDie c f).ckptMoved = s.ckptMoved := rfl
@[simp] theorem State.modDie_ckptResume (c : Nat) (f : Die → Die) : (s.modDie c f).ckptResume = s.ckptResume := rfl
@[simp] theorem State.modDie_ckptRestore (c : Nat) (f : Die → Die) : (s.modDie c f).ckptRestore = s.ckptRestore := rfl
@[simp] theorem State.modDie_saved (c : Nat) (f : Die → Die) : (s.modDie c f).saved = s.saved := rfl
@[simp] theorem State.modDie_devout (c : Nat) (f : Die → Die) : (s.modDie c f).devout = s.devout := rfl
@[simp] theorem State.modDie_supply (c : Nat) (f : Die → Die) : (s.modDie c f).supply = s.supply := rfl
@[simp] theorem State.modDie_up (c : Nat) (f : Die → Die) : (s.modDie c f).up = s.up := rfl
@[simp] theorem State.modDie_at_ctx (c : Nat) (f : Die → Die) (k : Nat) : (s.modDie c f).ctx k = s.ctx k := rfl
@[simp] theorem State.modDie_at_core (c : Nat) (f : Die → Die) (k : Nat) : (s.modDie c f).core k = s.core k := rfl
@[simp] theorem State.modDie_at_clu (c : Nat) (f : Die → Die) (k : Nat) : (s.modDie c f).clu k = s.clu k := rfl
@[simp] theorem State.modDie_at_hio (c : Nat) (f : Die → Die) (k : Nat) : (s.modDie c f).hio k = s.hio k := rfl
@[simp] theorem State.modDie_at_base (c : Nat) (f : Die → Die) (k : Nat) : (s.modDie c f).base k = s.base k := rfl
@[simp] theorem State.modDie_at_part (c : Nat) (f : Die → Die) (k : Nat) : (s.modDie c f).part k = s.part k := rfl
@[simp] theorem State.modDie_at_lane (c : Nat) (f : Die → Die) (k : Nat) : (s.modDie c f).lane k = s.lane k := rfl
@[simp] theorem State.modDie_at_job (c : Nat) (f : Die → Die) (k : Nat) : (s.modDie c f).job k = s.job k := rfl
@[simp] theorem State.modDie_at_actor (c : Nat) (f : Die → Die) (k : Nat) : (s.modDie c f).actor k = s.actor k := rfl
@[simp] theorem State.modDie_at_dieCtl (c : Nat) (f : Die → Die) (k : Nat) : (s.modDie c f).dieCtl k = s.dieCtl k := rfl
@[simp] theorem State.modDie_at_tline (c : Nat) (f : Die → Die) (o l : Nat) : (s.modDie c f).tline o l = s.tline o l := rfl
theorem State.modDie_at_die (c : Nat) (f : Die → Die) (k : Nat) :
    (s.modDie c f).die k = if c = k then f (s.die c) else s.die k := Sparse.get_set ..
@[simp] theorem State.modDie_die_same (c : Nat) (f : Die → Die) : (s.modDie c f).die c = f (s.die c) := Sparse.get_set_same ..
@[simp] theorem State.modDie_die_ne (c : Nat) (f : Die → Die) (k : Nat) (h : c ≠ k) : (s.modDie c f).die k = s.die k :=
  Sparse.get_set_ne _ _ _ h

/-! `modHio`. -/

@[simp] theorem State.modHio_time (c : Nat) (f : HostIo → HostIo) : (s.modHio c f).time = s.time := rfl
@[simp] theorem State.modHio_agenda (c : Nat) (f : HostIo → HostIo) : (s.modHio c f).agenda = s.agenda := rfl
@[simp] theorem State.modHio_cur (c : Nat) (f : HostIo → HostIo) : (s.modHio c f).cur = s.cur := rfl
@[simp] theorem State.modHio_fresh (c : Nat) (f : HostIo → HostIo) : (s.modHio c f).fresh = s.fresh := rfl
@[simp] theorem State.modHio_next (c : Nat) (f : HostIo → HostIo) : (s.modHio c f).next = s.next := rfl
@[simp] theorem State.modHio_mem (c : Nat) (f : HostIo → HostIo) : (s.modHio c f).mem = s.mem := rfl
@[simp] theorem State.modHio_writes (c : Nat) (f : HostIo → HostIo) : (s.modHio c f).writes = s.writes := rfl
@[simp] theorem State.modHio_ctags (c : Nat) (f : HostIo → HostIo) : (s.modHio c f).ctags = s.ctags := rfl
@[simp] theorem State.modHio_locks (c : Nat) (f : HostIo → HostIo) : (s.modHio c f).locks = s.locks := rfl
@[simp] theorem State.modHio_poison (c : Nat) (f : HostIo → HostIo) : (s.modHio c f).poison = s.poison := rfl
@[simp] theorem State.modHio_l1 (c : Nat) (f : HostIo → HostIo) : (s.modHio c f).l1 = s.l1 := rfl
@[simp] theorem State.modHio_l2 (c : Nat) (f : HostIo → HostIo) : (s.modHio c f).l2 = s.l2 := rfl
@[simp] theorem State.modHio_homes (c : Nat) (f : HostIo → HostIo) : (s.modHio c f).homes = s.homes := rfl
@[simp] theorem State.modHio_pages (c : Nat) (f : HostIo → HostIo) : (s.modHio c f).pages = s.pages := rfl
@[simp] theorem State.modHio_seals (c : Nat) (f : HostIo → HostIo) : (s.modHio c f).seals = s.seals := rfl
@[simp] theorem State.modHio_ctxs (c : Nat) (f : HostIo → HostIo) : (s.modHio c f).ctxs = s.ctxs := rfl
@[simp] theorem State.modHio_cores (c : Nat) (f : HostIo → HostIo) : (s.modHio c f).cores = s.cores := rfl
@[simp] theorem State.modHio_clus (c : Nat) (f : HostIo → HostIo) : (s.modHio c f).clus = s.clus := rfl
@[simp] theorem State.modHio_dies (c : Nat) (f : HostIo → HostIo) : (s.modHio c f).dies = s.dies := rfl
@[simp] theorem State.modHio_bases (c : Nat) (f : HostIo → HostIo) : (s.modHio c f).bases = s.bases := rfl
@[simp] theorem State.modHio_parts (c : Nat) (f : HostIo → HostIo) : (s.modHio c f).parts = s.parts := rfl
@[simp] theorem State.modHio_lanes (c : Nat) (f : HostIo → HostIo) : (s.modHio c f).lanes = s.lanes := rfl
@[simp] theorem State.modHio_sec (c : Nat) (f : HostIo → HostIo) : (s.modHio c f).sec = s.sec := rfl
@[simp] theorem State.modHio_jobs (c : Nat) (f : HostIo → HostIo) : (s.modHio c f).jobs = s.jobs := rfl
@[simp] theorem State.modHio_actors (c : Nat) (f : HostIo → HostIo) : (s.modHio c f).actors = s.actors := rfl
@[simp] theorem State.modHio_cmds (c : Nat) (f : HostIo → HostIo) : (s.modHio c f).cmds = s.cmds := rfl
@[simp] theorem State.modHio_tls (c : Nat) (f : HostIo → HostIo) : (s.modHio c f).tls = s.tls := rfl
@[simp] theorem State.modHio_net (c : Nat) (f : HostIo → HostIo) : (s.modHio c f).net = s.net := rfl
@[simp] theorem State.modHio_links (c : Nat) (f : HostIo → HostIo) : (s.modHio c f).links = s.links := rfl
@[simp] theorem State.modHio_holds (c : Nat) (f : HostIo → HostIo) : (s.modHio c f).holds = s.holds := rfl
@[simp] theorem State.modHio_invals (c : Nat) (f : HostIo → HostIo) : (s.modHio c f).invals = s.invals := rfl
@[simp] theorem State.modHio_ctl (c : Nat) (f : HostIo → HostIo) : (s.modHio c f).ctl = s.ctl := rfl
@[simp] theorem State.modHio_ckptDst (c : Nat) (f : HostIo → HostIo) : (s.modHio c f).ckptDst = s.ckptDst := rfl
@[simp] theorem State.modHio_ckptSt (c : Nat) (f : HostIo → HostIo) : (s.modHio c f).ckptSt = s.ckptSt := rfl
@[simp] theorem State.modHio_ckptMoved (c : Nat) (f : HostIo → HostIo) : (s.modHio c f).ckptMoved = s.ckptMoved := rfl
@[simp] theorem State.modHio_ckptResume (c : Nat) (f : HostIo → HostIo) : (s.modHio c f).ckptResume = s.ckptResume := rfl
@[simp] theorem State.modHio_ckptRestore (c : Nat) (f : HostIo → HostIo) : (s.modHio c f).ckptRestore = s.ckptRestore := rfl
@[simp] theorem State.modHio_saved (c : Nat) (f : HostIo → HostIo) : (s.modHio c f).saved = s.saved := rfl
@[simp] theorem State.modHio_devout (c : Nat) (f : HostIo → HostIo) : (s.modHio c f).devout = s.devout := rfl
@[simp] theorem State.modHio_supply (c : Nat) (f : HostIo → HostIo) : (s.modHio c f).supply = s.supply := rfl
@[simp] theorem State.modHio_up (c : Nat) (f : HostIo → HostIo) : (s.modHio c f).up = s.up := rfl
@[simp] theorem State.modHio_at_ctx (c : Nat) (f : HostIo → HostIo) (k : Nat) : (s.modHio c f).ctx k = s.ctx k := rfl
@[simp] theorem State.modHio_at_core (c : Nat) (f : HostIo → HostIo) (k : Nat) : (s.modHio c f).core k = s.core k := rfl
@[simp] theorem State.modHio_at_clu (c : Nat) (f : HostIo → HostIo) (k : Nat) : (s.modHio c f).clu k = s.clu k := rfl
@[simp] theorem State.modHio_at_die (c : Nat) (f : HostIo → HostIo) (k : Nat) : (s.modHio c f).die k = s.die k := rfl
@[simp] theorem State.modHio_at_base (c : Nat) (f : HostIo → HostIo) (k : Nat) : (s.modHio c f).base k = s.base k := rfl
@[simp] theorem State.modHio_at_part (c : Nat) (f : HostIo → HostIo) (k : Nat) : (s.modHio c f).part k = s.part k := rfl
@[simp] theorem State.modHio_at_lane (c : Nat) (f : HostIo → HostIo) (k : Nat) : (s.modHio c f).lane k = s.lane k := rfl
@[simp] theorem State.modHio_at_job (c : Nat) (f : HostIo → HostIo) (k : Nat) : (s.modHio c f).job k = s.job k := rfl
@[simp] theorem State.modHio_at_actor (c : Nat) (f : HostIo → HostIo) (k : Nat) : (s.modHio c f).actor k = s.actor k := rfl
@[simp] theorem State.modHio_at_dieCtl (c : Nat) (f : HostIo → HostIo) (k : Nat) : (s.modHio c f).dieCtl k = s.dieCtl k := rfl
@[simp] theorem State.modHio_at_tline (c : Nat) (f : HostIo → HostIo) (o l : Nat) : (s.modHio c f).tline o l = s.tline o l := rfl
theorem State.modHio_at_hio (c : Nat) (f : HostIo → HostIo) (k : Nat) :
    (s.modHio c f).hio k = if c = k then f (s.hio c) else s.hio k := Sparse.get_set ..
@[simp] theorem State.modHio_hio_same (c : Nat) (f : HostIo → HostIo) : (s.modHio c f).hio c = f (s.hio c) := Sparse.get_set_same ..
@[simp] theorem State.modHio_hio_ne (c : Nat) (f : HostIo → HostIo) (k : Nat) (h : c ≠ k) : (s.modHio c f).hio k = s.hio k :=
  Sparse.get_set_ne _ _ _ h

/-! `modBase`. -/

@[simp] theorem State.modBase_time (c : Nat) (f : BaseDie → BaseDie) : (s.modBase c f).time = s.time := rfl
@[simp] theorem State.modBase_agenda (c : Nat) (f : BaseDie → BaseDie) : (s.modBase c f).agenda = s.agenda := rfl
@[simp] theorem State.modBase_cur (c : Nat) (f : BaseDie → BaseDie) : (s.modBase c f).cur = s.cur := rfl
@[simp] theorem State.modBase_fresh (c : Nat) (f : BaseDie → BaseDie) : (s.modBase c f).fresh = s.fresh := rfl
@[simp] theorem State.modBase_next (c : Nat) (f : BaseDie → BaseDie) : (s.modBase c f).next = s.next := rfl
@[simp] theorem State.modBase_mem (c : Nat) (f : BaseDie → BaseDie) : (s.modBase c f).mem = s.mem := rfl
@[simp] theorem State.modBase_writes (c : Nat) (f : BaseDie → BaseDie) : (s.modBase c f).writes = s.writes := rfl
@[simp] theorem State.modBase_ctags (c : Nat) (f : BaseDie → BaseDie) : (s.modBase c f).ctags = s.ctags := rfl
@[simp] theorem State.modBase_locks (c : Nat) (f : BaseDie → BaseDie) : (s.modBase c f).locks = s.locks := rfl
@[simp] theorem State.modBase_poison (c : Nat) (f : BaseDie → BaseDie) : (s.modBase c f).poison = s.poison := rfl
@[simp] theorem State.modBase_l1 (c : Nat) (f : BaseDie → BaseDie) : (s.modBase c f).l1 = s.l1 := rfl
@[simp] theorem State.modBase_l2 (c : Nat) (f : BaseDie → BaseDie) : (s.modBase c f).l2 = s.l2 := rfl
@[simp] theorem State.modBase_homes (c : Nat) (f : BaseDie → BaseDie) : (s.modBase c f).homes = s.homes := rfl
@[simp] theorem State.modBase_pages (c : Nat) (f : BaseDie → BaseDie) : (s.modBase c f).pages = s.pages := rfl
@[simp] theorem State.modBase_seals (c : Nat) (f : BaseDie → BaseDie) : (s.modBase c f).seals = s.seals := rfl
@[simp] theorem State.modBase_ctxs (c : Nat) (f : BaseDie → BaseDie) : (s.modBase c f).ctxs = s.ctxs := rfl
@[simp] theorem State.modBase_cores (c : Nat) (f : BaseDie → BaseDie) : (s.modBase c f).cores = s.cores := rfl
@[simp] theorem State.modBase_clus (c : Nat) (f : BaseDie → BaseDie) : (s.modBase c f).clus = s.clus := rfl
@[simp] theorem State.modBase_dies (c : Nat) (f : BaseDie → BaseDie) : (s.modBase c f).dies = s.dies := rfl
@[simp] theorem State.modBase_io (c : Nat) (f : BaseDie → BaseDie) : (s.modBase c f).io = s.io := rfl
@[simp] theorem State.modBase_parts (c : Nat) (f : BaseDie → BaseDie) : (s.modBase c f).parts = s.parts := rfl
@[simp] theorem State.modBase_lanes (c : Nat) (f : BaseDie → BaseDie) : (s.modBase c f).lanes = s.lanes := rfl
@[simp] theorem State.modBase_sec (c : Nat) (f : BaseDie → BaseDie) : (s.modBase c f).sec = s.sec := rfl
@[simp] theorem State.modBase_jobs (c : Nat) (f : BaseDie → BaseDie) : (s.modBase c f).jobs = s.jobs := rfl
@[simp] theorem State.modBase_actors (c : Nat) (f : BaseDie → BaseDie) : (s.modBase c f).actors = s.actors := rfl
@[simp] theorem State.modBase_cmds (c : Nat) (f : BaseDie → BaseDie) : (s.modBase c f).cmds = s.cmds := rfl
@[simp] theorem State.modBase_tls (c : Nat) (f : BaseDie → BaseDie) : (s.modBase c f).tls = s.tls := rfl
@[simp] theorem State.modBase_net (c : Nat) (f : BaseDie → BaseDie) : (s.modBase c f).net = s.net := rfl
@[simp] theorem State.modBase_links (c : Nat) (f : BaseDie → BaseDie) : (s.modBase c f).links = s.links := rfl
@[simp] theorem State.modBase_holds (c : Nat) (f : BaseDie → BaseDie) : (s.modBase c f).holds = s.holds := rfl
@[simp] theorem State.modBase_invals (c : Nat) (f : BaseDie → BaseDie) : (s.modBase c f).invals = s.invals := rfl
@[simp] theorem State.modBase_ctl (c : Nat) (f : BaseDie → BaseDie) : (s.modBase c f).ctl = s.ctl := rfl
@[simp] theorem State.modBase_ckptDst (c : Nat) (f : BaseDie → BaseDie) : (s.modBase c f).ckptDst = s.ckptDst := rfl
@[simp] theorem State.modBase_ckptSt (c : Nat) (f : BaseDie → BaseDie) : (s.modBase c f).ckptSt = s.ckptSt := rfl
@[simp] theorem State.modBase_ckptMoved (c : Nat) (f : BaseDie → BaseDie) : (s.modBase c f).ckptMoved = s.ckptMoved := rfl
@[simp] theorem State.modBase_ckptResume (c : Nat) (f : BaseDie → BaseDie) : (s.modBase c f).ckptResume = s.ckptResume := rfl
@[simp] theorem State.modBase_ckptRestore (c : Nat) (f : BaseDie → BaseDie) : (s.modBase c f).ckptRestore = s.ckptRestore := rfl
@[simp] theorem State.modBase_saved (c : Nat) (f : BaseDie → BaseDie) : (s.modBase c f).saved = s.saved := rfl
@[simp] theorem State.modBase_devout (c : Nat) (f : BaseDie → BaseDie) : (s.modBase c f).devout = s.devout := rfl
@[simp] theorem State.modBase_supply (c : Nat) (f : BaseDie → BaseDie) : (s.modBase c f).supply = s.supply := rfl
@[simp] theorem State.modBase_up (c : Nat) (f : BaseDie → BaseDie) : (s.modBase c f).up = s.up := rfl
@[simp] theorem State.modBase_at_ctx (c : Nat) (f : BaseDie → BaseDie) (k : Nat) : (s.modBase c f).ctx k = s.ctx k := rfl
@[simp] theorem State.modBase_at_core (c : Nat) (f : BaseDie → BaseDie) (k : Nat) : (s.modBase c f).core k = s.core k := rfl
@[simp] theorem State.modBase_at_clu (c : Nat) (f : BaseDie → BaseDie) (k : Nat) : (s.modBase c f).clu k = s.clu k := rfl
@[simp] theorem State.modBase_at_die (c : Nat) (f : BaseDie → BaseDie) (k : Nat) : (s.modBase c f).die k = s.die k := rfl
@[simp] theorem State.modBase_at_hio (c : Nat) (f : BaseDie → BaseDie) (k : Nat) : (s.modBase c f).hio k = s.hio k := rfl
@[simp] theorem State.modBase_at_part (c : Nat) (f : BaseDie → BaseDie) (k : Nat) : (s.modBase c f).part k = s.part k := rfl
@[simp] theorem State.modBase_at_lane (c : Nat) (f : BaseDie → BaseDie) (k : Nat) : (s.modBase c f).lane k = s.lane k := rfl
@[simp] theorem State.modBase_at_job (c : Nat) (f : BaseDie → BaseDie) (k : Nat) : (s.modBase c f).job k = s.job k := rfl
@[simp] theorem State.modBase_at_actor (c : Nat) (f : BaseDie → BaseDie) (k : Nat) : (s.modBase c f).actor k = s.actor k := rfl
@[simp] theorem State.modBase_at_dieCtl (c : Nat) (f : BaseDie → BaseDie) (k : Nat) : (s.modBase c f).dieCtl k = s.dieCtl k := rfl
@[simp] theorem State.modBase_at_tline (c : Nat) (f : BaseDie → BaseDie) (o l : Nat) : (s.modBase c f).tline o l = s.tline o l := rfl
theorem State.modBase_at_base (c : Nat) (f : BaseDie → BaseDie) (k : Nat) :
    (s.modBase c f).base k = if c = k then f (s.base c) else s.base k := Sparse.get_set ..
@[simp] theorem State.modBase_base_same (c : Nat) (f : BaseDie → BaseDie) : (s.modBase c f).base c = f (s.base c) := Sparse.get_set_same ..
@[simp] theorem State.modBase_base_ne (c : Nat) (f : BaseDie → BaseDie) (k : Nat) (h : c ≠ k) : (s.modBase c f).base k = s.base k :=
  Sparse.get_set_ne _ _ _ h

/-! `modPart`. -/

@[simp] theorem State.modPart_time (c : Nat) (f : Partition → Partition) : (s.modPart c f).time = s.time := rfl
@[simp] theorem State.modPart_agenda (c : Nat) (f : Partition → Partition) : (s.modPart c f).agenda = s.agenda := rfl
@[simp] theorem State.modPart_cur (c : Nat) (f : Partition → Partition) : (s.modPart c f).cur = s.cur := rfl
@[simp] theorem State.modPart_fresh (c : Nat) (f : Partition → Partition) : (s.modPart c f).fresh = s.fresh := rfl
@[simp] theorem State.modPart_next (c : Nat) (f : Partition → Partition) : (s.modPart c f).next = s.next := rfl
@[simp] theorem State.modPart_mem (c : Nat) (f : Partition → Partition) : (s.modPart c f).mem = s.mem := rfl
@[simp] theorem State.modPart_writes (c : Nat) (f : Partition → Partition) : (s.modPart c f).writes = s.writes := rfl
@[simp] theorem State.modPart_ctags (c : Nat) (f : Partition → Partition) : (s.modPart c f).ctags = s.ctags := rfl
@[simp] theorem State.modPart_locks (c : Nat) (f : Partition → Partition) : (s.modPart c f).locks = s.locks := rfl
@[simp] theorem State.modPart_poison (c : Nat) (f : Partition → Partition) : (s.modPart c f).poison = s.poison := rfl
@[simp] theorem State.modPart_l1 (c : Nat) (f : Partition → Partition) : (s.modPart c f).l1 = s.l1 := rfl
@[simp] theorem State.modPart_l2 (c : Nat) (f : Partition → Partition) : (s.modPart c f).l2 = s.l2 := rfl
@[simp] theorem State.modPart_homes (c : Nat) (f : Partition → Partition) : (s.modPart c f).homes = s.homes := rfl
@[simp] theorem State.modPart_pages (c : Nat) (f : Partition → Partition) : (s.modPart c f).pages = s.pages := rfl
@[simp] theorem State.modPart_seals (c : Nat) (f : Partition → Partition) : (s.modPart c f).seals = s.seals := rfl
@[simp] theorem State.modPart_ctxs (c : Nat) (f : Partition → Partition) : (s.modPart c f).ctxs = s.ctxs := rfl
@[simp] theorem State.modPart_cores (c : Nat) (f : Partition → Partition) : (s.modPart c f).cores = s.cores := rfl
@[simp] theorem State.modPart_clus (c : Nat) (f : Partition → Partition) : (s.modPart c f).clus = s.clus := rfl
@[simp] theorem State.modPart_dies (c : Nat) (f : Partition → Partition) : (s.modPart c f).dies = s.dies := rfl
@[simp] theorem State.modPart_io (c : Nat) (f : Partition → Partition) : (s.modPart c f).io = s.io := rfl
@[simp] theorem State.modPart_bases (c : Nat) (f : Partition → Partition) : (s.modPart c f).bases = s.bases := rfl
@[simp] theorem State.modPart_lanes (c : Nat) (f : Partition → Partition) : (s.modPart c f).lanes = s.lanes := rfl
@[simp] theorem State.modPart_sec (c : Nat) (f : Partition → Partition) : (s.modPart c f).sec = s.sec := rfl
@[simp] theorem State.modPart_jobs (c : Nat) (f : Partition → Partition) : (s.modPart c f).jobs = s.jobs := rfl
@[simp] theorem State.modPart_actors (c : Nat) (f : Partition → Partition) : (s.modPart c f).actors = s.actors := rfl
@[simp] theorem State.modPart_cmds (c : Nat) (f : Partition → Partition) : (s.modPart c f).cmds = s.cmds := rfl
@[simp] theorem State.modPart_tls (c : Nat) (f : Partition → Partition) : (s.modPart c f).tls = s.tls := rfl
@[simp] theorem State.modPart_net (c : Nat) (f : Partition → Partition) : (s.modPart c f).net = s.net := rfl
@[simp] theorem State.modPart_links (c : Nat) (f : Partition → Partition) : (s.modPart c f).links = s.links := rfl
@[simp] theorem State.modPart_holds (c : Nat) (f : Partition → Partition) : (s.modPart c f).holds = s.holds := rfl
@[simp] theorem State.modPart_invals (c : Nat) (f : Partition → Partition) : (s.modPart c f).invals = s.invals := rfl
@[simp] theorem State.modPart_ctl (c : Nat) (f : Partition → Partition) : (s.modPart c f).ctl = s.ctl := rfl
@[simp] theorem State.modPart_ckptDst (c : Nat) (f : Partition → Partition) : (s.modPart c f).ckptDst = s.ckptDst := rfl
@[simp] theorem State.modPart_ckptSt (c : Nat) (f : Partition → Partition) : (s.modPart c f).ckptSt = s.ckptSt := rfl
@[simp] theorem State.modPart_ckptMoved (c : Nat) (f : Partition → Partition) : (s.modPart c f).ckptMoved = s.ckptMoved := rfl
@[simp] theorem State.modPart_ckptResume (c : Nat) (f : Partition → Partition) : (s.modPart c f).ckptResume = s.ckptResume := rfl
@[simp] theorem State.modPart_ckptRestore (c : Nat) (f : Partition → Partition) : (s.modPart c f).ckptRestore = s.ckptRestore := rfl
@[simp] theorem State.modPart_saved (c : Nat) (f : Partition → Partition) : (s.modPart c f).saved = s.saved := rfl
@[simp] theorem State.modPart_devout (c : Nat) (f : Partition → Partition) : (s.modPart c f).devout = s.devout := rfl
@[simp] theorem State.modPart_supply (c : Nat) (f : Partition → Partition) : (s.modPart c f).supply = s.supply := rfl
@[simp] theorem State.modPart_up (c : Nat) (f : Partition → Partition) : (s.modPart c f).up = s.up := rfl
@[simp] theorem State.modPart_at_ctx (c : Nat) (f : Partition → Partition) (k : Nat) : (s.modPart c f).ctx k = s.ctx k := rfl
@[simp] theorem State.modPart_at_core (c : Nat) (f : Partition → Partition) (k : Nat) : (s.modPart c f).core k = s.core k := rfl
@[simp] theorem State.modPart_at_clu (c : Nat) (f : Partition → Partition) (k : Nat) : (s.modPart c f).clu k = s.clu k := rfl
@[simp] theorem State.modPart_at_die (c : Nat) (f : Partition → Partition) (k : Nat) : (s.modPart c f).die k = s.die k := rfl
@[simp] theorem State.modPart_at_hio (c : Nat) (f : Partition → Partition) (k : Nat) : (s.modPart c f).hio k = s.hio k := rfl
@[simp] theorem State.modPart_at_base (c : Nat) (f : Partition → Partition) (k : Nat) : (s.modPart c f).base k = s.base k := rfl
@[simp] theorem State.modPart_at_lane (c : Nat) (f : Partition → Partition) (k : Nat) : (s.modPart c f).lane k = s.lane k := rfl
@[simp] theorem State.modPart_at_job (c : Nat) (f : Partition → Partition) (k : Nat) : (s.modPart c f).job k = s.job k := rfl
@[simp] theorem State.modPart_at_actor (c : Nat) (f : Partition → Partition) (k : Nat) : (s.modPart c f).actor k = s.actor k := rfl
@[simp] theorem State.modPart_at_dieCtl (c : Nat) (f : Partition → Partition) (k : Nat) : (s.modPart c f).dieCtl k = s.dieCtl k := rfl
@[simp] theorem State.modPart_at_tline (c : Nat) (f : Partition → Partition) (o l : Nat) : (s.modPart c f).tline o l = s.tline o l := rfl
theorem State.modPart_at_part (c : Nat) (f : Partition → Partition) (k : Nat) :
    (s.modPart c f).part k = if c = k then f (s.part c) else s.part k := Sparse.get_set ..
@[simp] theorem State.modPart_part_same (c : Nat) (f : Partition → Partition) : (s.modPart c f).part c = f (s.part c) := Sparse.get_set_same ..
@[simp] theorem State.modPart_part_ne (c : Nat) (f : Partition → Partition) (k : Nat) (h : c ≠ k) : (s.modPart c f).part k = s.part k :=
  Sparse.get_set_ne _ _ _ h

/-! `modLane`. -/

@[simp] theorem State.modLane_time (c : Nat) (f : Lane → Lane) : (s.modLane c f).time = s.time := rfl
@[simp] theorem State.modLane_agenda (c : Nat) (f : Lane → Lane) : (s.modLane c f).agenda = s.agenda := rfl
@[simp] theorem State.modLane_cur (c : Nat) (f : Lane → Lane) : (s.modLane c f).cur = s.cur := rfl
@[simp] theorem State.modLane_fresh (c : Nat) (f : Lane → Lane) : (s.modLane c f).fresh = s.fresh := rfl
@[simp] theorem State.modLane_next (c : Nat) (f : Lane → Lane) : (s.modLane c f).next = s.next := rfl
@[simp] theorem State.modLane_mem (c : Nat) (f : Lane → Lane) : (s.modLane c f).mem = s.mem := rfl
@[simp] theorem State.modLane_writes (c : Nat) (f : Lane → Lane) : (s.modLane c f).writes = s.writes := rfl
@[simp] theorem State.modLane_ctags (c : Nat) (f : Lane → Lane) : (s.modLane c f).ctags = s.ctags := rfl
@[simp] theorem State.modLane_locks (c : Nat) (f : Lane → Lane) : (s.modLane c f).locks = s.locks := rfl
@[simp] theorem State.modLane_poison (c : Nat) (f : Lane → Lane) : (s.modLane c f).poison = s.poison := rfl
@[simp] theorem State.modLane_l1 (c : Nat) (f : Lane → Lane) : (s.modLane c f).l1 = s.l1 := rfl
@[simp] theorem State.modLane_l2 (c : Nat) (f : Lane → Lane) : (s.modLane c f).l2 = s.l2 := rfl
@[simp] theorem State.modLane_homes (c : Nat) (f : Lane → Lane) : (s.modLane c f).homes = s.homes := rfl
@[simp] theorem State.modLane_pages (c : Nat) (f : Lane → Lane) : (s.modLane c f).pages = s.pages := rfl
@[simp] theorem State.modLane_seals (c : Nat) (f : Lane → Lane) : (s.modLane c f).seals = s.seals := rfl
@[simp] theorem State.modLane_ctxs (c : Nat) (f : Lane → Lane) : (s.modLane c f).ctxs = s.ctxs := rfl
@[simp] theorem State.modLane_cores (c : Nat) (f : Lane → Lane) : (s.modLane c f).cores = s.cores := rfl
@[simp] theorem State.modLane_clus (c : Nat) (f : Lane → Lane) : (s.modLane c f).clus = s.clus := rfl
@[simp] theorem State.modLane_dies (c : Nat) (f : Lane → Lane) : (s.modLane c f).dies = s.dies := rfl
@[simp] theorem State.modLane_io (c : Nat) (f : Lane → Lane) : (s.modLane c f).io = s.io := rfl
@[simp] theorem State.modLane_bases (c : Nat) (f : Lane → Lane) : (s.modLane c f).bases = s.bases := rfl
@[simp] theorem State.modLane_parts (c : Nat) (f : Lane → Lane) : (s.modLane c f).parts = s.parts := rfl
@[simp] theorem State.modLane_sec (c : Nat) (f : Lane → Lane) : (s.modLane c f).sec = s.sec := rfl
@[simp] theorem State.modLane_jobs (c : Nat) (f : Lane → Lane) : (s.modLane c f).jobs = s.jobs := rfl
@[simp] theorem State.modLane_actors (c : Nat) (f : Lane → Lane) : (s.modLane c f).actors = s.actors := rfl
@[simp] theorem State.modLane_cmds (c : Nat) (f : Lane → Lane) : (s.modLane c f).cmds = s.cmds := rfl
@[simp] theorem State.modLane_tls (c : Nat) (f : Lane → Lane) : (s.modLane c f).tls = s.tls := rfl
@[simp] theorem State.modLane_net (c : Nat) (f : Lane → Lane) : (s.modLane c f).net = s.net := rfl
@[simp] theorem State.modLane_links (c : Nat) (f : Lane → Lane) : (s.modLane c f).links = s.links := rfl
@[simp] theorem State.modLane_holds (c : Nat) (f : Lane → Lane) : (s.modLane c f).holds = s.holds := rfl
@[simp] theorem State.modLane_invals (c : Nat) (f : Lane → Lane) : (s.modLane c f).invals = s.invals := rfl
@[simp] theorem State.modLane_ctl (c : Nat) (f : Lane → Lane) : (s.modLane c f).ctl = s.ctl := rfl
@[simp] theorem State.modLane_ckptDst (c : Nat) (f : Lane → Lane) : (s.modLane c f).ckptDst = s.ckptDst := rfl
@[simp] theorem State.modLane_ckptSt (c : Nat) (f : Lane → Lane) : (s.modLane c f).ckptSt = s.ckptSt := rfl
@[simp] theorem State.modLane_ckptMoved (c : Nat) (f : Lane → Lane) : (s.modLane c f).ckptMoved = s.ckptMoved := rfl
@[simp] theorem State.modLane_ckptResume (c : Nat) (f : Lane → Lane) : (s.modLane c f).ckptResume = s.ckptResume := rfl
@[simp] theorem State.modLane_ckptRestore (c : Nat) (f : Lane → Lane) : (s.modLane c f).ckptRestore = s.ckptRestore := rfl
@[simp] theorem State.modLane_saved (c : Nat) (f : Lane → Lane) : (s.modLane c f).saved = s.saved := rfl
@[simp] theorem State.modLane_devout (c : Nat) (f : Lane → Lane) : (s.modLane c f).devout = s.devout := rfl
@[simp] theorem State.modLane_supply (c : Nat) (f : Lane → Lane) : (s.modLane c f).supply = s.supply := rfl
@[simp] theorem State.modLane_up (c : Nat) (f : Lane → Lane) : (s.modLane c f).up = s.up := rfl
@[simp] theorem State.modLane_at_ctx (c : Nat) (f : Lane → Lane) (k : Nat) : (s.modLane c f).ctx k = s.ctx k := rfl
@[simp] theorem State.modLane_at_core (c : Nat) (f : Lane → Lane) (k : Nat) : (s.modLane c f).core k = s.core k := rfl
@[simp] theorem State.modLane_at_clu (c : Nat) (f : Lane → Lane) (k : Nat) : (s.modLane c f).clu k = s.clu k := rfl
@[simp] theorem State.modLane_at_die (c : Nat) (f : Lane → Lane) (k : Nat) : (s.modLane c f).die k = s.die k := rfl
@[simp] theorem State.modLane_at_hio (c : Nat) (f : Lane → Lane) (k : Nat) : (s.modLane c f).hio k = s.hio k := rfl
@[simp] theorem State.modLane_at_base (c : Nat) (f : Lane → Lane) (k : Nat) : (s.modLane c f).base k = s.base k := rfl
@[simp] theorem State.modLane_at_part (c : Nat) (f : Lane → Lane) (k : Nat) : (s.modLane c f).part k = s.part k := rfl
@[simp] theorem State.modLane_at_job (c : Nat) (f : Lane → Lane) (k : Nat) : (s.modLane c f).job k = s.job k := rfl
@[simp] theorem State.modLane_at_actor (c : Nat) (f : Lane → Lane) (k : Nat) : (s.modLane c f).actor k = s.actor k := rfl
@[simp] theorem State.modLane_at_dieCtl (c : Nat) (f : Lane → Lane) (k : Nat) : (s.modLane c f).dieCtl k = s.dieCtl k := rfl
@[simp] theorem State.modLane_at_tline (c : Nat) (f : Lane → Lane) (o l : Nat) : (s.modLane c f).tline o l = s.tline o l := rfl
theorem State.modLane_at_lane (c : Nat) (f : Lane → Lane) (k : Nat) :
    (s.modLane c f).lane k = if c = k then f (s.lane c) else s.lane k := Sparse.get_set ..
@[simp] theorem State.modLane_lane_same (c : Nat) (f : Lane → Lane) : (s.modLane c f).lane c = f (s.lane c) := Sparse.get_set_same ..
@[simp] theorem State.modLane_lane_ne (c : Nat) (f : Lane → Lane) (k : Nat) (h : c ≠ k) : (s.modLane c f).lane k = s.lane k :=
  Sparse.get_set_ne _ _ _ h

/-! `setJob`. -/

@[simp] theorem State.setJob_time (c : Nat) (x : Option Job) : (s.setJob c x).time = s.time := rfl
@[simp] theorem State.setJob_agenda (c : Nat) (x : Option Job) : (s.setJob c x).agenda = s.agenda := rfl
@[simp] theorem State.setJob_cur (c : Nat) (x : Option Job) : (s.setJob c x).cur = s.cur := rfl
@[simp] theorem State.setJob_fresh (c : Nat) (x : Option Job) : (s.setJob c x).fresh = s.fresh := rfl
@[simp] theorem State.setJob_next (c : Nat) (x : Option Job) : (s.setJob c x).next = s.next := rfl
@[simp] theorem State.setJob_mem (c : Nat) (x : Option Job) : (s.setJob c x).mem = s.mem := rfl
@[simp] theorem State.setJob_writes (c : Nat) (x : Option Job) : (s.setJob c x).writes = s.writes := rfl
@[simp] theorem State.setJob_ctags (c : Nat) (x : Option Job) : (s.setJob c x).ctags = s.ctags := rfl
@[simp] theorem State.setJob_locks (c : Nat) (x : Option Job) : (s.setJob c x).locks = s.locks := rfl
@[simp] theorem State.setJob_poison (c : Nat) (x : Option Job) : (s.setJob c x).poison = s.poison := rfl
@[simp] theorem State.setJob_l1 (c : Nat) (x : Option Job) : (s.setJob c x).l1 = s.l1 := rfl
@[simp] theorem State.setJob_l2 (c : Nat) (x : Option Job) : (s.setJob c x).l2 = s.l2 := rfl
@[simp] theorem State.setJob_homes (c : Nat) (x : Option Job) : (s.setJob c x).homes = s.homes := rfl
@[simp] theorem State.setJob_pages (c : Nat) (x : Option Job) : (s.setJob c x).pages = s.pages := rfl
@[simp] theorem State.setJob_seals (c : Nat) (x : Option Job) : (s.setJob c x).seals = s.seals := rfl
@[simp] theorem State.setJob_ctxs (c : Nat) (x : Option Job) : (s.setJob c x).ctxs = s.ctxs := rfl
@[simp] theorem State.setJob_cores (c : Nat) (x : Option Job) : (s.setJob c x).cores = s.cores := rfl
@[simp] theorem State.setJob_clus (c : Nat) (x : Option Job) : (s.setJob c x).clus = s.clus := rfl
@[simp] theorem State.setJob_dies (c : Nat) (x : Option Job) : (s.setJob c x).dies = s.dies := rfl
@[simp] theorem State.setJob_io (c : Nat) (x : Option Job) : (s.setJob c x).io = s.io := rfl
@[simp] theorem State.setJob_bases (c : Nat) (x : Option Job) : (s.setJob c x).bases = s.bases := rfl
@[simp] theorem State.setJob_parts (c : Nat) (x : Option Job) : (s.setJob c x).parts = s.parts := rfl
@[simp] theorem State.setJob_lanes (c : Nat) (x : Option Job) : (s.setJob c x).lanes = s.lanes := rfl
@[simp] theorem State.setJob_sec (c : Nat) (x : Option Job) : (s.setJob c x).sec = s.sec := rfl
@[simp] theorem State.setJob_actors (c : Nat) (x : Option Job) : (s.setJob c x).actors = s.actors := rfl
@[simp] theorem State.setJob_cmds (c : Nat) (x : Option Job) : (s.setJob c x).cmds = s.cmds := rfl
@[simp] theorem State.setJob_tls (c : Nat) (x : Option Job) : (s.setJob c x).tls = s.tls := rfl
@[simp] theorem State.setJob_net (c : Nat) (x : Option Job) : (s.setJob c x).net = s.net := rfl
@[simp] theorem State.setJob_links (c : Nat) (x : Option Job) : (s.setJob c x).links = s.links := rfl
@[simp] theorem State.setJob_holds (c : Nat) (x : Option Job) : (s.setJob c x).holds = s.holds := rfl
@[simp] theorem State.setJob_invals (c : Nat) (x : Option Job) : (s.setJob c x).invals = s.invals := rfl
@[simp] theorem State.setJob_ctl (c : Nat) (x : Option Job) : (s.setJob c x).ctl = s.ctl := rfl
@[simp] theorem State.setJob_ckptDst (c : Nat) (x : Option Job) : (s.setJob c x).ckptDst = s.ckptDst := rfl
@[simp] theorem State.setJob_ckptSt (c : Nat) (x : Option Job) : (s.setJob c x).ckptSt = s.ckptSt := rfl
@[simp] theorem State.setJob_ckptMoved (c : Nat) (x : Option Job) : (s.setJob c x).ckptMoved = s.ckptMoved := rfl
@[simp] theorem State.setJob_ckptResume (c : Nat) (x : Option Job) : (s.setJob c x).ckptResume = s.ckptResume := rfl
@[simp] theorem State.setJob_ckptRestore (c : Nat) (x : Option Job) : (s.setJob c x).ckptRestore = s.ckptRestore := rfl
@[simp] theorem State.setJob_saved (c : Nat) (x : Option Job) : (s.setJob c x).saved = s.saved := rfl
@[simp] theorem State.setJob_devout (c : Nat) (x : Option Job) : (s.setJob c x).devout = s.devout := rfl
@[simp] theorem State.setJob_supply (c : Nat) (x : Option Job) : (s.setJob c x).supply = s.supply := rfl
@[simp] theorem State.setJob_up (c : Nat) (x : Option Job) : (s.setJob c x).up = s.up := rfl
@[simp] theorem State.setJob_at_ctx (c : Nat) (x : Option Job) (k : Nat) : (s.setJob c x).ctx k = s.ctx k := rfl
@[simp] theorem State.setJob_at_core (c : Nat) (x : Option Job) (k : Nat) : (s.setJob c x).core k = s.core k := rfl
@[simp] theorem State.setJob_at_clu (c : Nat) (x : Option Job) (k : Nat) : (s.setJob c x).clu k = s.clu k := rfl
@[simp] theorem State.setJob_at_die (c : Nat) (x : Option Job) (k : Nat) : (s.setJob c x).die k = s.die k := rfl
@[simp] theorem State.setJob_at_hio (c : Nat) (x : Option Job) (k : Nat) : (s.setJob c x).hio k = s.hio k := rfl
@[simp] theorem State.setJob_at_base (c : Nat) (x : Option Job) (k : Nat) : (s.setJob c x).base k = s.base k := rfl
@[simp] theorem State.setJob_at_part (c : Nat) (x : Option Job) (k : Nat) : (s.setJob c x).part k = s.part k := rfl
@[simp] theorem State.setJob_at_lane (c : Nat) (x : Option Job) (k : Nat) : (s.setJob c x).lane k = s.lane k := rfl
@[simp] theorem State.setJob_at_actor (c : Nat) (x : Option Job) (k : Nat) : (s.setJob c x).actor k = s.actor k := rfl
@[simp] theorem State.setJob_at_dieCtl (c : Nat) (x : Option Job) (k : Nat) : (s.setJob c x).dieCtl k = s.dieCtl k := rfl
@[simp] theorem State.setJob_at_tline (c : Nat) (x : Option Job) (o l : Nat) : (s.setJob c x).tline o l = s.tline o l := rfl
theorem State.setJob_at_job (c : Nat) (x : Option Job) (k : Nat) :
    (s.setJob c x).job k = if c = k then x else s.job k := Sparse.get_set ..
@[simp] theorem State.setJob_job_same (c : Nat) (x : Option Job) : (s.setJob c x).job c = x := Sparse.get_set_same ..
@[simp] theorem State.setJob_job_ne (c : Nat) (x : Option Job) (k : Nat) (h : c ≠ k) : (s.setJob c x).job k = s.job k :=
  Sparse.get_set_ne _ _ _ h

/-! `setActor`. -/

@[simp] theorem State.setActor_time (c : Nat) (x : Option Actor) : (s.setActor c x).time = s.time := rfl
@[simp] theorem State.setActor_agenda (c : Nat) (x : Option Actor) : (s.setActor c x).agenda = s.agenda := rfl
@[simp] theorem State.setActor_cur (c : Nat) (x : Option Actor) : (s.setActor c x).cur = s.cur := rfl
@[simp] theorem State.setActor_fresh (c : Nat) (x : Option Actor) : (s.setActor c x).fresh = s.fresh := rfl
@[simp] theorem State.setActor_next (c : Nat) (x : Option Actor) : (s.setActor c x).next = s.next := rfl
@[simp] theorem State.setActor_mem (c : Nat) (x : Option Actor) : (s.setActor c x).mem = s.mem := rfl
@[simp] theorem State.setActor_writes (c : Nat) (x : Option Actor) : (s.setActor c x).writes = s.writes := rfl
@[simp] theorem State.setActor_ctags (c : Nat) (x : Option Actor) : (s.setActor c x).ctags = s.ctags := rfl
@[simp] theorem State.setActor_locks (c : Nat) (x : Option Actor) : (s.setActor c x).locks = s.locks := rfl
@[simp] theorem State.setActor_poison (c : Nat) (x : Option Actor) : (s.setActor c x).poison = s.poison := rfl
@[simp] theorem State.setActor_l1 (c : Nat) (x : Option Actor) : (s.setActor c x).l1 = s.l1 := rfl
@[simp] theorem State.setActor_l2 (c : Nat) (x : Option Actor) : (s.setActor c x).l2 = s.l2 := rfl
@[simp] theorem State.setActor_homes (c : Nat) (x : Option Actor) : (s.setActor c x).homes = s.homes := rfl
@[simp] theorem State.setActor_pages (c : Nat) (x : Option Actor) : (s.setActor c x).pages = s.pages := rfl
@[simp] theorem State.setActor_seals (c : Nat) (x : Option Actor) : (s.setActor c x).seals = s.seals := rfl
@[simp] theorem State.setActor_ctxs (c : Nat) (x : Option Actor) : (s.setActor c x).ctxs = s.ctxs := rfl
@[simp] theorem State.setActor_cores (c : Nat) (x : Option Actor) : (s.setActor c x).cores = s.cores := rfl
@[simp] theorem State.setActor_clus (c : Nat) (x : Option Actor) : (s.setActor c x).clus = s.clus := rfl
@[simp] theorem State.setActor_dies (c : Nat) (x : Option Actor) : (s.setActor c x).dies = s.dies := rfl
@[simp] theorem State.setActor_io (c : Nat) (x : Option Actor) : (s.setActor c x).io = s.io := rfl
@[simp] theorem State.setActor_bases (c : Nat) (x : Option Actor) : (s.setActor c x).bases = s.bases := rfl
@[simp] theorem State.setActor_parts (c : Nat) (x : Option Actor) : (s.setActor c x).parts = s.parts := rfl
@[simp] theorem State.setActor_lanes (c : Nat) (x : Option Actor) : (s.setActor c x).lanes = s.lanes := rfl
@[simp] theorem State.setActor_sec (c : Nat) (x : Option Actor) : (s.setActor c x).sec = s.sec := rfl
@[simp] theorem State.setActor_jobs (c : Nat) (x : Option Actor) : (s.setActor c x).jobs = s.jobs := rfl
@[simp] theorem State.setActor_cmds (c : Nat) (x : Option Actor) : (s.setActor c x).cmds = s.cmds := rfl
@[simp] theorem State.setActor_tls (c : Nat) (x : Option Actor) : (s.setActor c x).tls = s.tls := rfl
@[simp] theorem State.setActor_net (c : Nat) (x : Option Actor) : (s.setActor c x).net = s.net := rfl
@[simp] theorem State.setActor_links (c : Nat) (x : Option Actor) : (s.setActor c x).links = s.links := rfl
@[simp] theorem State.setActor_holds (c : Nat) (x : Option Actor) : (s.setActor c x).holds = s.holds := rfl
@[simp] theorem State.setActor_invals (c : Nat) (x : Option Actor) : (s.setActor c x).invals = s.invals := rfl
@[simp] theorem State.setActor_ctl (c : Nat) (x : Option Actor) : (s.setActor c x).ctl = s.ctl := rfl
@[simp] theorem State.setActor_ckptDst (c : Nat) (x : Option Actor) : (s.setActor c x).ckptDst = s.ckptDst := rfl
@[simp] theorem State.setActor_ckptSt (c : Nat) (x : Option Actor) : (s.setActor c x).ckptSt = s.ckptSt := rfl
@[simp] theorem State.setActor_ckptMoved (c : Nat) (x : Option Actor) : (s.setActor c x).ckptMoved = s.ckptMoved := rfl
@[simp] theorem State.setActor_ckptResume (c : Nat) (x : Option Actor) : (s.setActor c x).ckptResume = s.ckptResume := rfl
@[simp] theorem State.setActor_ckptRestore (c : Nat) (x : Option Actor) : (s.setActor c x).ckptRestore = s.ckptRestore := rfl
@[simp] theorem State.setActor_saved (c : Nat) (x : Option Actor) : (s.setActor c x).saved = s.saved := rfl
@[simp] theorem State.setActor_devout (c : Nat) (x : Option Actor) : (s.setActor c x).devout = s.devout := rfl
@[simp] theorem State.setActor_supply (c : Nat) (x : Option Actor) : (s.setActor c x).supply = s.supply := rfl
@[simp] theorem State.setActor_up (c : Nat) (x : Option Actor) : (s.setActor c x).up = s.up := rfl
@[simp] theorem State.setActor_at_ctx (c : Nat) (x : Option Actor) (k : Nat) : (s.setActor c x).ctx k = s.ctx k := rfl
@[simp] theorem State.setActor_at_core (c : Nat) (x : Option Actor) (k : Nat) : (s.setActor c x).core k = s.core k := rfl
@[simp] theorem State.setActor_at_clu (c : Nat) (x : Option Actor) (k : Nat) : (s.setActor c x).clu k = s.clu k := rfl
@[simp] theorem State.setActor_at_die (c : Nat) (x : Option Actor) (k : Nat) : (s.setActor c x).die k = s.die k := rfl
@[simp] theorem State.setActor_at_hio (c : Nat) (x : Option Actor) (k : Nat) : (s.setActor c x).hio k = s.hio k := rfl
@[simp] theorem State.setActor_at_base (c : Nat) (x : Option Actor) (k : Nat) : (s.setActor c x).base k = s.base k := rfl
@[simp] theorem State.setActor_at_part (c : Nat) (x : Option Actor) (k : Nat) : (s.setActor c x).part k = s.part k := rfl
@[simp] theorem State.setActor_at_lane (c : Nat) (x : Option Actor) (k : Nat) : (s.setActor c x).lane k = s.lane k := rfl
@[simp] theorem State.setActor_at_job (c : Nat) (x : Option Actor) (k : Nat) : (s.setActor c x).job k = s.job k := rfl
@[simp] theorem State.setActor_at_dieCtl (c : Nat) (x : Option Actor) (k : Nat) : (s.setActor c x).dieCtl k = s.dieCtl k := rfl
@[simp] theorem State.setActor_at_tline (c : Nat) (x : Option Actor) (o l : Nat) : (s.setActor c x).tline o l = s.tline o l := rfl
theorem State.setActor_at_actor (c : Nat) (x : Option Actor) (k : Nat) :
    (s.setActor c x).actor k = if c = k then x else s.actor k := Sparse.get_set ..
@[simp] theorem State.setActor_actor_same (c : Nat) (x : Option Actor) : (s.setActor c x).actor c = x := Sparse.get_set_same ..
@[simp] theorem State.setActor_actor_ne (c : Nat) (x : Option Actor) (k : Nat) (h : c ≠ k) : (s.setActor c x).actor k = s.actor k :=
  Sparse.get_set_ne _ _ _ h

/-! `modCtl`. -/

@[simp] theorem State.modCtl_time (c : Nat) (f : DieCtl → DieCtl) : (s.modCtl c f).time = s.time := rfl
@[simp] theorem State.modCtl_agenda (c : Nat) (f : DieCtl → DieCtl) : (s.modCtl c f).agenda = s.agenda := rfl
@[simp] theorem State.modCtl_cur (c : Nat) (f : DieCtl → DieCtl) : (s.modCtl c f).cur = s.cur := rfl
@[simp] theorem State.modCtl_fresh (c : Nat) (f : DieCtl → DieCtl) : (s.modCtl c f).fresh = s.fresh := rfl
@[simp] theorem State.modCtl_next (c : Nat) (f : DieCtl → DieCtl) : (s.modCtl c f).next = s.next := rfl
@[simp] theorem State.modCtl_mem (c : Nat) (f : DieCtl → DieCtl) : (s.modCtl c f).mem = s.mem := rfl
@[simp] theorem State.modCtl_writes (c : Nat) (f : DieCtl → DieCtl) : (s.modCtl c f).writes = s.writes := rfl
@[simp] theorem State.modCtl_ctags (c : Nat) (f : DieCtl → DieCtl) : (s.modCtl c f).ctags = s.ctags := rfl
@[simp] theorem State.modCtl_locks (c : Nat) (f : DieCtl → DieCtl) : (s.modCtl c f).locks = s.locks := rfl
@[simp] theorem State.modCtl_poison (c : Nat) (f : DieCtl → DieCtl) : (s.modCtl c f).poison = s.poison := rfl
@[simp] theorem State.modCtl_l1 (c : Nat) (f : DieCtl → DieCtl) : (s.modCtl c f).l1 = s.l1 := rfl
@[simp] theorem State.modCtl_l2 (c : Nat) (f : DieCtl → DieCtl) : (s.modCtl c f).l2 = s.l2 := rfl
@[simp] theorem State.modCtl_homes (c : Nat) (f : DieCtl → DieCtl) : (s.modCtl c f).homes = s.homes := rfl
@[simp] theorem State.modCtl_pages (c : Nat) (f : DieCtl → DieCtl) : (s.modCtl c f).pages = s.pages := rfl
@[simp] theorem State.modCtl_seals (c : Nat) (f : DieCtl → DieCtl) : (s.modCtl c f).seals = s.seals := rfl
@[simp] theorem State.modCtl_ctxs (c : Nat) (f : DieCtl → DieCtl) : (s.modCtl c f).ctxs = s.ctxs := rfl
@[simp] theorem State.modCtl_cores (c : Nat) (f : DieCtl → DieCtl) : (s.modCtl c f).cores = s.cores := rfl
@[simp] theorem State.modCtl_clus (c : Nat) (f : DieCtl → DieCtl) : (s.modCtl c f).clus = s.clus := rfl
@[simp] theorem State.modCtl_dies (c : Nat) (f : DieCtl → DieCtl) : (s.modCtl c f).dies = s.dies := rfl
@[simp] theorem State.modCtl_io (c : Nat) (f : DieCtl → DieCtl) : (s.modCtl c f).io = s.io := rfl
@[simp] theorem State.modCtl_bases (c : Nat) (f : DieCtl → DieCtl) : (s.modCtl c f).bases = s.bases := rfl
@[simp] theorem State.modCtl_parts (c : Nat) (f : DieCtl → DieCtl) : (s.modCtl c f).parts = s.parts := rfl
@[simp] theorem State.modCtl_lanes (c : Nat) (f : DieCtl → DieCtl) : (s.modCtl c f).lanes = s.lanes := rfl
@[simp] theorem State.modCtl_sec (c : Nat) (f : DieCtl → DieCtl) : (s.modCtl c f).sec = s.sec := rfl
@[simp] theorem State.modCtl_jobs (c : Nat) (f : DieCtl → DieCtl) : (s.modCtl c f).jobs = s.jobs := rfl
@[simp] theorem State.modCtl_actors (c : Nat) (f : DieCtl → DieCtl) : (s.modCtl c f).actors = s.actors := rfl
@[simp] theorem State.modCtl_cmds (c : Nat) (f : DieCtl → DieCtl) : (s.modCtl c f).cmds = s.cmds := rfl
@[simp] theorem State.modCtl_tls (c : Nat) (f : DieCtl → DieCtl) : (s.modCtl c f).tls = s.tls := rfl
@[simp] theorem State.modCtl_net (c : Nat) (f : DieCtl → DieCtl) : (s.modCtl c f).net = s.net := rfl
@[simp] theorem State.modCtl_links (c : Nat) (f : DieCtl → DieCtl) : (s.modCtl c f).links = s.links := rfl
@[simp] theorem State.modCtl_holds (c : Nat) (f : DieCtl → DieCtl) : (s.modCtl c f).holds = s.holds := rfl
@[simp] theorem State.modCtl_invals (c : Nat) (f : DieCtl → DieCtl) : (s.modCtl c f).invals = s.invals := rfl
@[simp] theorem State.modCtl_ckptDst (c : Nat) (f : DieCtl → DieCtl) : (s.modCtl c f).ckptDst = s.ckptDst := rfl
@[simp] theorem State.modCtl_ckptSt (c : Nat) (f : DieCtl → DieCtl) : (s.modCtl c f).ckptSt = s.ckptSt := rfl
@[simp] theorem State.modCtl_ckptMoved (c : Nat) (f : DieCtl → DieCtl) : (s.modCtl c f).ckptMoved = s.ckptMoved := rfl
@[simp] theorem State.modCtl_ckptResume (c : Nat) (f : DieCtl → DieCtl) : (s.modCtl c f).ckptResume = s.ckptResume := rfl
@[simp] theorem State.modCtl_ckptRestore (c : Nat) (f : DieCtl → DieCtl) : (s.modCtl c f).ckptRestore = s.ckptRestore := rfl
@[simp] theorem State.modCtl_saved (c : Nat) (f : DieCtl → DieCtl) : (s.modCtl c f).saved = s.saved := rfl
@[simp] theorem State.modCtl_devout (c : Nat) (f : DieCtl → DieCtl) : (s.modCtl c f).devout = s.devout := rfl
@[simp] theorem State.modCtl_supply (c : Nat) (f : DieCtl → DieCtl) : (s.modCtl c f).supply = s.supply := rfl
@[simp] theorem State.modCtl_up (c : Nat) (f : DieCtl → DieCtl) : (s.modCtl c f).up = s.up := rfl
@[simp] theorem State.modCtl_at_ctx (c : Nat) (f : DieCtl → DieCtl) (k : Nat) : (s.modCtl c f).ctx k = s.ctx k := rfl
@[simp] theorem State.modCtl_at_core (c : Nat) (f : DieCtl → DieCtl) (k : Nat) : (s.modCtl c f).core k = s.core k := rfl
@[simp] theorem State.modCtl_at_clu (c : Nat) (f : DieCtl → DieCtl) (k : Nat) : (s.modCtl c f).clu k = s.clu k := rfl
@[simp] theorem State.modCtl_at_die (c : Nat) (f : DieCtl → DieCtl) (k : Nat) : (s.modCtl c f).die k = s.die k := rfl
@[simp] theorem State.modCtl_at_hio (c : Nat) (f : DieCtl → DieCtl) (k : Nat) : (s.modCtl c f).hio k = s.hio k := rfl
@[simp] theorem State.modCtl_at_base (c : Nat) (f : DieCtl → DieCtl) (k : Nat) : (s.modCtl c f).base k = s.base k := rfl
@[simp] theorem State.modCtl_at_part (c : Nat) (f : DieCtl → DieCtl) (k : Nat) : (s.modCtl c f).part k = s.part k := rfl
@[simp] theorem State.modCtl_at_lane (c : Nat) (f : DieCtl → DieCtl) (k : Nat) : (s.modCtl c f).lane k = s.lane k := rfl
@[simp] theorem State.modCtl_at_job (c : Nat) (f : DieCtl → DieCtl) (k : Nat) : (s.modCtl c f).job k = s.job k := rfl
@[simp] theorem State.modCtl_at_actor (c : Nat) (f : DieCtl → DieCtl) (k : Nat) : (s.modCtl c f).actor k = s.actor k := rfl
@[simp] theorem State.modCtl_at_tline (c : Nat) (f : DieCtl → DieCtl) (o l : Nat) : (s.modCtl c f).tline o l = s.tline o l := rfl
theorem State.modCtl_at_dieCtl (c : Nat) (f : DieCtl → DieCtl) (k : Nat) :
    (s.modCtl c f).dieCtl k = if c = k then f (s.dieCtl c) else s.dieCtl k := Sparse.get_set ..
@[simp] theorem State.modCtl_dieCtl_same (c : Nat) (f : DieCtl → DieCtl) : (s.modCtl c f).dieCtl c = f (s.dieCtl c) := Sparse.get_set_same ..
@[simp] theorem State.modCtl_dieCtl_ne (c : Nat) (f : DieCtl → DieCtl) (k : Nat) (h : c ≠ k) : (s.modCtl c f).dieCtl k = s.dieCtl k :=
  Sparse.get_set_ne _ _ _ h

end Sys2Proof.Machine
end

