-- ==== Sys2Proof/Laws/Frame.lean ====
section
/-! SUPPORT. What each shared operation of a scalar instruction does: retiring, raising flags, reading sources,
writing the destination; and the frame around an instruction's body. -/

namespace Sys2Proof.Machine

/-! Bodies that go through. -/

@[simp] theorem Res.ok_bind {α β : Type} (a : α) (f : α → Res β) : ((Except.ok a : Res α) >>= f) = f a := rfl
@[simp] theorem Res.error_bind {α β : Type} (h : Halt) (f : α → Res β) : ((Except.error h : Res α) >>= f) = .error h := rfl
@[simp] theorem Res.pure_eq {α : Type} (a : α) : (pure a : Res α) = .ok a := rfl
@[simp] theorem ask_true (h : Halt) : ask true h = .ok () := rfl
@[simp] theorem ask_false (h : Halt) : ask false h = .error h := rfl
@[simp] theorem trapIf_false (c : BitVec 8) (v a : Word) : trapIf false c v a = .ok () := rfl
@[simp] theorem trapIf_true (c : BitVec 8) (v a : Word) :
    trapIf true c v a = .error (.trap { cause := c, val := v, aux := a }) := rfl

/-! Event counters and retiring. -/

/-- `countEvent` changes one core's counters and nothing else. -/
theorem countEvent_eq (s : State) (k code n : Nat) :
    ∃ v, countEvent s k code n = s.setCore k { s.core k with evc := v } ∨ countEvent s k code n = s := by
  unfold countEvent
  dsimp only
  split
  · exact ⟨[], .inr rfl⟩
  · exact ⟨_, .inl rfl⟩

/-- Two states that differ at most in the counters of one core. -/
structure Counted (s t : State) (k : Nat) : Prop where
  whole : t = { s with cores := t.cores }
  core : t.core k = { s.core k with evc := (t.core k).evc, since := (t.core k).since }
  cores : ∀ j, j ≠ k → t.core j = s.core j

theorem Counted.refl (s : State) (k : Nat) : Counted s s k := ⟨rfl, rfl, fun _ _ => rfl⟩

theorem Counted.trans {s t u : State} {k : Nat} (a : Counted s t k) (b : Counted t u k) : Counted s u k := by
  refine ⟨?_, ?_, fun j h => (b.cores j h).trans (a.cores j h)⟩
  · rw [b.whole]; conv_lhs => rw [a.whole]
  · rw [b.core]; rw [a.core]

theorem countEvent_counted (s : State) (k code n : Nat) : Counted s (countEvent s k code n) k := by
  obtain ⟨v, h | h⟩ := countEvent_eq s k code n <;> rw [h]
  · exact ⟨rfl, by simp, fun j hj => by simp [Ne.symm hj]⟩
  · exact .refl s k

theorem modCore_since_counted (s : State) (k : Nat) :
    Counted s (s.modCore k fun q => { q with since := q.since + 1 }) k :=
  ⟨rfl, by rw [State.modCore_core_same], fun j hj => State.modCore_core_ne _ _ _ _ (Ne.symm hj)⟩

theorem Counted.ctx {s t : State} {k : Nat} (h : Counted s t k) (c : Nat) : t.ctx c = s.ctx c := by
  rw [h.whole]; rfl
theorem Counted.die {s t : State} {k : Nat} (h : Counted s t k) (c : Nat) : t.die c = s.die c := by
  rw [h.whole]; rfl

/-- Retiring moves one context on and counts; nothing else changes. -/
theorem retireAt_spec (s : State) (c : Nat) (pc : Word) :
    ∃ t, Counted (s.modCtx c fun x => x.goesOn pc) t (coreOf c) ∧ retireAt s c pc = t := by
  refine ⟨_, ?_, rfl⟩
  unfold retireAt
  dsimp only
  refine ((countEvent_counted _ (coreOf c) 1 1).trans (countEvent_counted _ (coreOf c) 2 1)).trans ?_
  split
  · exact modCore_since_counted _ _
  · exact .refl _ _

theorem retireAt_ctx_same (s : State) (c : Nat) (pc : Word) : (retireAt s c pc).ctx c = (s.ctx c).goesOn pc := by
  obtain ⟨t, h, e⟩ := retireAt_spec s c pc
  rw [e, h.ctx]; simp

theorem retireAt_ctx_ne (s : State) (c e : Nat) (pc : Word) (h : e ≠ c) : (retireAt s c pc).ctx e = s.ctx e := by
  obtain ⟨t, g, q⟩ := retireAt_spec s c pc
  rw [q, g.ctx]; simp [Ne.symm h]

/-! The frame around an instruction's body. -/

theorem runIn_clear {i : Instr} {h : Hdr} {body : Nat → Word → State → Res State} {s : State} (hc : Clear s h) :
    runIn i h false body s = finish s s.cur (body s.cur (guardOf (s.ctx s.cur) h.guard) s) := by
  unfold runIn
  simp only [hc.done, ne_eq, not_true_eq_false, if_false, Bool.false_and, hc.stop, hc.known]
  cases hb : (s.core (coreOf s.cur)).bridle with
  | none => simp
  | some b =>
    have := hc.paid b hb
    simp [this.1, Nat.not_le.2 this.2]

theorem run_on {i : Instr} {h : Hdr} {body : Nat → State → Res State} {s : State} (hc : Clear s h) (ho : On s h) :
    run i h body s = .next (finish s s.cur (body s.cur s)) := by
  unfold On at ho
  rw [run, runIn_clear hc, if_pos ho]

/-- An instruction whose body goes through answers the body's state. -/
theorem run_next {i : Instr} {h : Hdr} {body : Nat → State → Res State} {s t : State} (hc : Clear s h) (ho : On s h)
    (hb : body s.cur s = .ok t) : run i h body s = .next t := by rw [run_on hc ho, hb]; rfl

/-- A scalar instruction whose guard is false retires with no effect (R51). -/
theorem run_off {i : Instr} {h : Hdr} {body : Nat → State → Res State} {s : State} (hc : Clear s h)
    (ho : (guardOf (s.ctx s.cur) h.guard).getLsbD 0 = false) : run i h body s = .next (retire s s.cur) := by
  rw [run, runIn_clear hc, ho]; rfl

end Sys2Proof.Machine
end

