-- ==== Sys2Proof/Laws/Operands.lean ====
section
/-! SUPPORT. Reading the sources of a scalar instruction: what each word is, and what the state holds after. -/

namespace Sys2Proof.Machine

theorem replayOf_congr {s t : State} {c : Nat} (hp : t.parts = s.parts) (h1 : (t.ctx c).task = (s.ctx c).task)
    (h2 : (t.ctx c).level = (s.ctx c).level) (h3 : (t.ctx c).ident = (s.ctx c).ident) : replayOf t c = replayOf s c := by
  have : ∀ k, t.part k = s.part k := fun k => by simp only [State.part, hp]
  simp only [replayOf, h1, h2, h3, this]

theorem replayOf_keep {s t : State} {c : Nat} (h : replayOf s c = none) (hp : t.parts = s.parts)
    (h1 : (t.ctx c).task = (s.ctx c).task) (h2 : (t.ctx c).level = (s.ctx c).level)
    (h3 : (t.ctx c).ident = (s.ctx c).ident) : replayOf t c = none := (replayOf_congr hp h1 h2 h3).trans h

theorem capture_none {s : State} {c : Nat} (h : replayOf s c = none) (k o : Nat) (b : List Byte) :
    capture s c k o b = s := by simp only [capture, h]

theorem messageTimes_off {s : State} {k : Nat} (h : (s.die (coreDie k)).msgt.getLsbD 63 = false) (a b c d : Nat) :
    messageTimes s k a b c d = s := by simp only [messageTimes, h, Bool.not_false, Bool.true_or, if_true]

theorem times_append (l : List Src) (v w : Src) : times (l ++ [v]) w = times l w + if v = w then 1 else 0 := by
  unfold times
  rw [List.filter_append, List.length_append]
  by_cases h : v = w <;> simp [h]

theorem portMarks_append (l : List Src) (v : Src) :
    portMarks (l ++ [v]) = match v with | .n i => portMarks l ||| 1 <<< i.toNat | _ => portMarks l := by
  cases v <;> simp only [portMarks, List.foldl_append, List.foldl_cons, List.foldl_nil]

theorem mailMarks_append (l : List Src) (v : Src) :
    mailMarks (l ++ [v]) = match v with | .m i => mailMarks l ||| 1 <<< i.toNat | _ => mailMarks l := by
  cases v <;> simp only [mailMarks, List.foldl_append, List.foldl_cons, List.foldl_nil]

/-- The state after the sources `seen` of an instruction have been read; `got` holds the mailboxes consumed. -/
structure Reading (s u : State) (got : List (BitVec 5 × Word)) (seen : List Src) : Prop where
  whole : u = { s with ctxs := u.ctxs, cores := u.cores }
  own : u.ctx s.cur = { s.ctx s.cur with
    pmask := (s.ctx s.cur).pmask ||| portMarks seen, mbxmask := (s.ctx s.cur).mbxmask ||| mailMarks seen }
  others : ∀ e, e ≠ s.cur → u.ctx e = s.ctx e
  queues : ∀ i : BitVec 3, (u.core (coreOf s.cur)).queue i.toNat =
    ((s.core (coreOf s.cur)).queue i.toNat).drop (times seen (.q i))
  ports : ∀ i : BitVec 2, (u.core (coreOf s.cur)).port i.toNat =
    ((s.core (coreOf s.cur)).port i.toNat).drop (times seen (.n i))
  mail : ∀ i : BitVec 5, (u.core (coreOf s.cur)).mail i.toNat =
    if Src.m i ∈ seen then none else (s.core (coreOf s.cur)).mail i.toNat
  core : u.core (coreOf s.cur) = { s.core (coreOf s.cur) with
    queues := (u.core (coreOf s.cur)).queues, ports := (u.core (coreOf s.cur)).ports, mbox := (u.core (coreOf s.cur)).mbox }
  cores : ∀ j, j ≠ coreOf s.cur → u.core j = s.core j
  got : ∀ i : BitVec 5, (got.find? fun e => e.1 == i) =
    if Src.m i ∈ seen then some (i, (((s.core (coreOf s.cur)).mail i.toNat).map (·.w)).getD 0) else none

theorem Reading.start (s : State) : Reading s s [] [] := by
  constructor <;> intros <;> first | rfl | simp [portMarks, mailMarks]

theorem Reading.replay {s u : State} {got : List (BitVec 5 × Word)} {seen : List Src} (h : Reading s u got seen) :
    replayOf u s.cur = replayOf s s.cur :=
  replayOf_congr (by rw [h.whole]) (by rw [h.own]) (by rw [h.own]) (by rw [h.own])

/-- Whether a source can be taken after the sources before it. -/
def Takable (s : State) (seen : List Src) : Src → Prop
  | .g _ => True
  | .q i => times seen (.q i) < ((s.core (coreOf s.cur)).queue i.toNat).length
  | .n i => times seen (.n i) < ((s.core (coreOf s.cur)).port i.toNat).length
  | .m i => ((s.core (coreOf s.cur)).mail i.toNat).isSome = true

theorem drop_eq_cons {α : Type} (l : List α) (n : Nat) (h : n < l.length) (d : α) :
    l.drop n = l.getD n d :: l.drop (n + 1) := by
  rw [List.drop_eq_getElem_cons h]; simp [List.getD, h]

theorem toNat_inj3 {w : Nat} {i j : BitVec w} : i.toNat = j.toNat ↔ i = j := BitVec.toNat_inj

/-- One source is taken as the rules say. -/
theorem takeOne_spec {s u : State} {got : List (BitVec 5 × Word)} {seen : List Src} (h : Reading s u got seen)
    (v : Src) (hn : v.code.toNat ≥ 64 → replayOf s s.cur = none) (ht : Takable s seen v)
    (hm : (∀ i, v ≠ .m i) ∨ (s.die (coreDie (coreOf s.cur))).msgt.getLsbD 63 = false) :
    ∃ u' got', takeOne s.cur (u, got) v = (srcWord s seen v, (u', got')) ∧ Reading s u' got' (seen ++ [v]) := by
  cases v with
  | g i =>
    refine ⟨u, got, ?_, ?_⟩
    · simp only [takeOne, srcWord, Context.low, Context.reg, h.own]
    · exact ⟨h.whole, by rw [portMarks_append, mailMarks_append]; exact h.own, h.others,
        fun j => by rw [times_append]; simpa using h.queues j, fun j => by rw [times_append]; simpa using h.ports j,
        fun j => by simpa using h.mail j, h.core, h.cores, fun j => by simpa using h.got j⟩
  | q i =>
    have hq := h.queues i
    rw [drop_eq_cons _ _ ht 0] at hq
    have hr := hn (by simp only [Src.code, BitVec.toNat_append, Nat.shiftLeft_eq]; exact Nat.le_trans (by decide) Nat.left_le_or)
    refine ⟨u.setCore (coreOf s.cur) { u.core (coreOf s.cur) with
      queues := (Sparse.set (u.core (coreOf s.cur)).queues i.toNat
        (((s.core (coreOf s.cur)).queue i.toNat).drop (times seen (.q i) + 1))) }, got, ?_, ?_⟩
    · simp only [takeOne, hq, srcWord]
      rw [capture_none]
      exact (replayOf_congr (s := u) rfl rfl rfl rfl).trans (h.replay.trans hr)
    · refine ⟨?_, ?_, ?_, ?_, ?_, ?_, ?_, ?_, ?_⟩
      · conv_lhs => rw [h.whole]
        rfl
      · rw [portMarks_append, mailMarks_append]; exact h.own
      · exact h.others
      · intro j
        rw [State.setCore_core_same, times_append]
        by_cases hj : i = j
        · subst hj; simp [Core.queue, Sparse.get_set_same]
        · have hne : i.toNat ≠ j.toNat := fun e => hj (BitVec.toNat_inj.1 e)
          simp only [Core.queue, Sparse.get_set_ne _ _ _ hne]
          simpa [hj, Core.queue] using h.queues j
      · intro j
        rw [State.setCore_core_same, times_append]
        simpa [Core.port] using h.ports j
      · intro j; rw [State.setCore_core_same]; simpa [Core.mail] using h.mail j
      · rw [State.setCore_core_same]; conv_lhs => rw [h.core]
      · intro j hj; rw [State.setCore_core_ne _ _ _ _ (Ne.symm hj)]; exact h.cores j hj
      · intro j; simpa using h.got j
  | n i =>
    have hq := h.ports i
    rw [drop_eq_cons _ _ ht 0] at hq
    have hr := hn (by simp only [Src.code, BitVec.toNat_append, Nat.shiftLeft_eq]; exact Nat.le_trans (by decide) Nat.left_le_or)
    refine ⟨(u.setCore (coreOf s.cur) { u.core (coreOf s.cur) with
      ports := (Sparse.set (u.core (coreOf s.cur)).ports i.toNat
        (((s.core (coreOf s.cur)).port i.toNat).drop (times seen (.n i) + 1))) }).modCtx s.cur
        fun x => { x with pmask := x.pmask ||| 1 <<< i.toNat }, got, ?_, ?_⟩
    · simp only [takeOne, hq, srcWord]
      rw [capture_none]
      refine replayOf_keep (h.replay.trans hr) rfl ?_ ?_ ?_ <;> rw [State.modCtx_ctx_same] <;> rfl
    · refine ⟨?_, ?_, ?_, ?_, ?_, ?_, ?_, ?_, ?_⟩
      · conv_lhs => rw [h.whole]
        rfl
      · rw [portMarks_append, mailMarks_append, State.modCtx_ctx_same, State.setCore_at_ctx, h.own]
        simp only [BitVec.or_assoc]
      · intro e he; rw [State.modCtx_ctx_ne _ _ _ _ (Ne.symm he), State.setCore_at_ctx]; exact h.others e he
      · intro j
        rw [State.modCtx_at_core, State.setCore_core_same, times_append]
        simpa [Core.queue] using h.queues j
      · intro j
        rw [State.modCtx_at_core, State.setCore_core_same, times_append]
        by_cases hj : i = j
        · subst hj; simp [Core.port, Sparse.get_set_same]
        · have hne : i.toNat ≠ j.toNat := fun e => hj (BitVec.toNat_inj.1 e)
          simp only [Core.port, Sparse.get_set_ne _ _ _ hne]
          simpa [hj, Core.port] using h.ports j
      · intro j; rw [State.modCtx_at_core, State.setCore_core_same]; simpa [Core.mail] using h.mail j
      · rw [State.modCtx_at_core, State.setCore_core_same]; conv_lhs => rw [h.core]
      · intro j hj; rw [State.modCtx_at_core, State.setCore_core_ne _ _ _ _ (Ne.symm hj)]; exact h.cores j hj
      · intro j; simpa using h.got j
  | m i =>
    have hg := h.got i
    by_cases hs : Src.m i ∈ seen
    · rw [if_pos hs] at hg
      refine ⟨u, got, ?_, ?_⟩
      · simp only [takeOne, hg, srcWord]
      · have hmark : mailMarks seen ||| 1 <<< i.toNat = mailMarks seen := by
          clear hg ht hm hn h
          induction seen using List.reverseRecOn with
          | nil => simp at hs
          | append_singleton l a ih =>
            rw [mailMarks_append]
            rcases List.mem_append.1 hs with hl | hl
            · cases a <;> simp only [ih hl]
              rw [BitVec.or_assoc, BitVec.or_comm (1 <<< _), ← BitVec.or_assoc, ih hl]
            · have : a = .m i := (List.mem_singleton.1 hl).symm
              subst this
              simp only [BitVec.or_assoc, BitVec.or_self]
        refine ⟨h.whole, ?_, h.others, ?_, ?_, ?_, h.core, h.cores, ?_⟩
        · rw [portMarks_append, mailMarks_append]
          simp only [hmark]; exact h.own
        · intro j; rw [times_append]; simpa using h.queues j
        · intro j; rw [times_append]; simpa using h.ports j
        · intro j; rw [h.mail j]
          by_cases hj : i = j
          · subst hj; simp [hs]
          · have : ¬ j = i := fun e => hj e.symm
            simp [this]
        · intro j; rw [h.got j]
          by_cases hj : i = j
          · subst hj; simp [hs]
          · have : ¬ j = i := fun e => hj e.symm
            simp [this]
    · rw [if_neg hs] at hg
      have hml := h.mail i
      rw [if_neg hs] at hml
      obtain ⟨w, hw⟩ := Option.isSome_iff_exists.1 ht
      rw [hw] at hml
      have hr := hn (by simp only [Src.code, BitVec.toNat_append, Nat.shiftLeft_eq]; exact Nat.le_trans (by decide) Nat.left_le_or)
      have hoff := hm.resolve_left (fun f => f i rfl)
      refine ⟨(u.setCore (coreOf s.cur) { u.core (coreOf s.cur) with
        mbox := Sparse.set (u.core (coreOf s.cur)).mbox i.toNat none }).modCtx s.cur
          fun x => { x with mbxmask := x.mbxmask ||| 1 <<< i.toNat }, (i, w.w) :: got, ?_, ?_⟩
      · simp only [takeOne, hg, hml, srcWord, hw]
        rw [messageTimes_off, capture_none]
        · rfl
        · refine replayOf_keep (h.replay.trans hr) rfl ?_ ?_ ?_ <;> rw [State.modCtx_ctx_same] <;> rfl
        · rw [State.modCtx_at_die, State.setCore_at_die, h.whole]; exact hoff
      · refine ⟨?_, ?_, ?_, ?_, ?_, ?_, ?_, ?_, ?_⟩
        · conv_lhs => rw [h.whole]
          rfl
        · rw [portMarks_append, mailMarks_append, State.modCtx_ctx_same, State.setCore_at_ctx, h.own]
          simp only [BitVec.or_assoc]
        · intro e he; rw [State.modCtx_ctx_ne _ _ _ _ (Ne.symm he), State.setCore_at_ctx]; exact h.others e he
        · intro j
          rw [State.modCtx_at_core, State.setCore_core_same, times_append]
          simpa [Core.queue] using h.queues j
        · intro j
          rw [State.modCtx_at_core, State.setCore_core_same, times_append]
          simpa [Core.port] using h.ports j
        · intro j
          rw [State.modCtx_at_core, State.setCore_core_same]
          by_cases hj : i = j
          · subst hj; simp [Core.mail, Sparse.get_set_same]
          · have hne : i.toNat ≠ j.toNat := fun e => hj (BitVec.toNat_inj.1 e)
            have hne' : ¬ j = i := fun e => hj e.symm
            simp only [Core.mail, Sparse.get_set_ne _ _ _ hne]
            simpa [hne', Core.mail] using h.mail j
        · rw [State.modCtx_at_core, State.setCore_core_same]; conv_lhs => rw [h.core]
        · intro j hj; rw [State.modCtx_at_core, State.setCore_core_ne _ _ _ _ (Ne.symm hj)]; exact h.cores j hj
        · intro j
          by_cases hj : i = j
          · subst hj; simp [hw]
          · have hne' : ¬ j = i := fun e => hj e.symm
            simp [hj, hne', h.got j]

/-- Sources are taken in order as the rules say. -/
theorem takeAll_spec {s : State} (srcs : List Src) (hn : ∀ v ∈ srcs, v.code.toNat ≥ 64 → replayOf s s.cur = none)
    (hm : (∀ i, Src.m i ∉ srcs) ∨ (s.die (coreDie (coreOf s.cur))).msgt.getLsbD 63 = false) :
    ∀ (seen : List Src) (u : State) (got : List (BitVec 5 × Word)), Reading s u got seen →
      (∀ a v b, srcs = a ++ v :: b → Takable s (seen ++ a) v) →
      ∃ u', (∃ got', Reading s u' got' (seen ++ srcs)) ∧ takeAll s.cur srcs (u, got) = (srcWords s seen srcs, u') := by
  induction srcs with
  | nil => intro seen u got h _; exact ⟨u, ⟨got, by simpa using h⟩, rfl⟩
  | cons v r ih =>
    intro seen u got h ht
    have hm1 : (∀ i, v ≠ .m i) ∨ (s.die (coreDie (coreOf s.cur))).msgt.getLsbD 63 = false :=
      hm.imp (fun f i e => f i (by simp [e])) id
    obtain ⟨u1, got1, h1, hr1⟩ := takeOne_spec h v (hn v (by simp)) (by simpa using ht [] v r rfl) hm1
    obtain ⟨u2, ⟨got2, hr2⟩, h2⟩ := ih (fun w hw => hn w (List.mem_cons_of_mem _ hw))
      (hm.imp (fun f i e => f i (List.mem_cons_of_mem _ e)) id) (seen ++ [v]) u1 got1 hr1
      (fun a w b e => by simpa using ht (v :: a) w b (by simp [e]))
    refine ⟨u2, ⟨got2, by simpa using hr2⟩, ?_⟩
    simp only [takeAll, h1, h2, srcWords]

theorem times_prefix {a b : List Src} {v : Src} : times a v < times (a ++ v :: b) v := by
  unfold times
  rw [List.filter_append, List.length_append]
  simp

/-- R45's conditions give what taking the sources needs. -/
theorem takable_of_ready {s : State} {srcs : List Src} {d : Option Dst} (h : operandsReady s s.cur srcs d = true)
    (a : List Src) (v : Src) (b : List Src) (e : srcs = a ++ v :: b) : Takable s a v := by
  unfold operandsReady at h
  have h1 := List.all_eq_true.1 (Bool.and_eq_true_iff.1 h).1 v (by simp [e])
  have hp : times a v < times srcs v := by rw [e]; exact times_prefix
  cases v with
  | g i => trivial
  | q i => exact Nat.lt_of_lt_of_le hp (of_decide_eq_true h1)
  | n i => exact Nat.lt_of_lt_of_le hp (of_decide_eq_true h1)
  | m i => exact h1

theorem takable_of_plain {s : State} {srcs : List Src} {d : Option Dst} (h : blocking srcs d = false) (a : List Src)
    (v : Src) (b : List Src) (e : srcs = a ++ v :: b) : Takable s a v := by
  unfold blocking at h
  have h1 := (Bool.or_eq_false_iff.1 h).1
  have h2 := List.any_eq_false.1 h1 v (by simp [e])
  cases v <;> trivial

theorem plain_code {srcs : List Src} {d : Option Dst} (h : blocking srcs d = false) (v : Src) (hv : v ∈ srcs) :
    ¬ v.code.toNat ≥ 64 := by
  unfold blocking at h
  have h2 := List.any_eq_false.1 (Bool.or_eq_false_iff.1 h).1 v hv
  cases v with
  | g i =>
    simp only [Src.code, ge_iff_le, Nat.not_le]
    rw [BitVec.toNat_append]
    have := i.isLt
    simp
    omega
  | q i => exact absurd rfl h2
  | n i => exact absurd rfl h2
  | m i => exact absurd rfl h2

/-- What `sources` answers when the operands are there. -/
theorem sources_ready {s : State} {srcs : List Src} {d : Option Dst} (h : Ready s srcs d) :
    ∃ u, (∃ got, Reading s u got srcs) ∧ sources s s.cur srcs d = .ok (srcWords s [] srcs, u) := by
  unfold sources
  simp only [h.known, h.room, Bool.not_false, ask_true, Res.ok_bind, Res.pure_eq]
  by_cases hb : blocking srcs d = true
  · obtain ⟨hl, ho, hg⟩ := h.there hb
    obtain ⟨u, ⟨got, hr⟩, ht⟩ := takeAll_spec srcs (fun _ _ _ => hl.replay) h.untimed [] s []
      (Reading.start s) (by simpa using takable_of_ready ho)
    have a3 : (!(outward d && s.unchecked s.cur)) = true := by
      cases ho : outward d with
      | false => rfl
      | true => rw [h.verified ho]; rfl
    have hrep : replaying s s.cur = false := by simp only [replaying, hl.replay]
    have hlog : bridleLogged s s.cur (logWords srcs) = none := by simp only [bridleLogged, hl.pair]
    simp only [a3, hb, Bool.not_true, Bool.false_eq_true, if_false, hrep, hlog, ite_self, ho, hg, Bool.not_false,
      Bool.and_true, hl.pair, ht, ask_true, Res.ok_bind]
    refine ⟨_, ⟨got, ?_⟩, rfl⟩
    have hbn : (u.core (coreOf s.cur)).bridle = none := by rw [hr.core]; exact hl.pair
    have hid : ∀ l n, ({ u.core (coreOf s.cur) with
        bridle := (u.core (coreOf s.cur)).bridle.map fun b => { b with log := b.log ++ l, taken := b.taken + n } } : Core)
        = u.core (coreOf s.cur) := fun l n => by rw [hbn, Option.map_none, ← hbn]
    refine ⟨?_, hr.own, hr.others, ?_, ?_, ?_, ?_, ?_, by simpa using hr.got⟩
    · conv_lhs => rw [hr.whole]
      rfl
    · intro i; rw [State.modCore_core_same, hid]; simpa using hr.queues i
    · intro i; rw [State.modCore_core_same, hid]; simpa using hr.ports i
    · intro i; rw [State.modCore_core_same, hid]; simpa using hr.mail i
    · rw [State.modCore_core_same, hid]; exact hr.core
    · intro j hj; rw [State.modCore_core_ne _ _ _ _ (Ne.symm hj)]; exact hr.cores j hj
  · have hb' : blocking srcs d = false := by simpa using hb
    obtain ⟨u, ⟨got, hr⟩, ht⟩ := takeAll_spec srcs (fun v hv hc => absurd hc (plain_code hb' v hv)) h.untimed [] s []
      (Reading.start s) (by simpa using takable_of_plain hb')
    simp only [hb', Bool.not_false, if_true, ht]
    exact ⟨u, ⟨got, by simpa using hr⟩, rfl⟩

end Sys2Proof.Machine
end

