-- ==== Sys2Proof/Laws/Scalar.lean ====
section
/-! SUPPORT. What an instruction with scalar sources does when its operands are there: raising flags, waking a core,
writing a destination, and the whole of `scalarOp` and `predOp`. -/

namespace Sys2Proof.Machine

/-! Nothing else changes. -/

theorem Within.refl (s : State) : Within s s := rfl

theorem Within.trans {s t u : State} (a : Within s t) (b : Within t u) : Within s u := by
  unfold Within at a
  obtain ⟨A, B, C, D, E, rfl⟩ : ∃ A B C D E, t = { s with ctxs := A, cores := B, dies := C, net := D, next := E } :=
    ⟨_, _, _, _, _, a⟩
  exact b

theorem Within.of_ctxs_dies {s t : State} (h : t = { s with ctxs := t.ctxs, dies := t.dies }) : Within s t := by
  obtain ⟨A, B, rfl⟩ : ∃ A B, t = { s with ctxs := A, dies := B } := ⟨_, _, h⟩
  rfl

theorem Within.of_ctxs_cores {s t : State} (h : t = { s with ctxs := t.ctxs, cores := t.cores }) : Within s t := by
  obtain ⟨A, B, rfl⟩ : ∃ A B, t = { s with ctxs := A, cores := B } := ⟨_, _, h⟩
  rfl

theorem Within.of_cores {s t : State} (h : t = { s with cores := t.cores }) : Within s t := by
  obtain ⟨B, rfl⟩ : ∃ B, t = { s with cores := B } := ⟨_, h⟩
  rfl

theorem Within.bytes {s t : State} (h : Within s t) : SameBytes s t := by
  unfold Within at h
  obtain ⟨A, B, C, D, E, rfl⟩ : ∃ A B C D E, t = { s with ctxs := A, cores := B, dies := C, net := D, next := E } :=
    ⟨_, _, _, _, _, h⟩
  intro a; rfl

/-! Flags. -/

structure Flagged (s t : State) (c : Nat) (fl : FpFlags) : Prop where
  whole : t = { s with ctxs := t.ctxs, dies := t.dies }
  own : t.ctx c = { s.ctx c with flags := (s.ctx c).flags ||| fl }
  others : ∀ e, e ≠ c → t.ctx e = s.ctx e
  dies : ∀ e, t.die e = { s.die e with clflags := (t.die e).clflags }
  bits : ∀ e n, Sparse.get 0 (t.die e).clflags n =
    if kindOf c = .compute ∧ e = dieOf c ∧ n = clusterOf c % 64 then Sparse.get 0 (s.die e).clflags n ||| fl
    else Sparse.get 0 (s.die e).clflags n

theorem raiseFlags_spec (s : State) (c : Nat) (fl : FpFlags) : Flagged s (raiseFlags s c fl) c fl := by
  unfold raiseFlags
  split
  · rename_i h; subst h
    refine ⟨rfl, ?_, fun _ _ => rfl, fun _ => rfl, fun e n => ?_⟩
    · show _ = { s.ctx c with flags := (s.ctx c).flags ||| 0#6 }
      rw [BitVec.or_zero]
    · show _ = if _ then _ ||| 0#6 else _
      rw [BitVec.or_zero]; split <;> rfl
  · dsimp only
    split
    · rename_i hk
      refine ⟨rfl, ?_, ?_, ?_, ?_⟩
      · rw [State.modDie_at_ctx, State.modCtx_ctx_same]
      · intro e he; rw [State.modDie_at_ctx, State.modCtx_ctx_ne _ _ _ _ (Ne.symm he)]
      · intro e
        rw [State.modDie_at_die]
        split
        · rename_i he; subst he; rfl
        · rfl
      · intro e n
        rw [State.modDie_at_die]
        by_cases he : dieOf c = e
        · subst he
          simp only [if_true, State.modCtx_at_die, hk, true_and, Sparse.get_set]
          by_cases hn : clusterOf c % 64 = n
          · simp [hn]
          · have : ¬ n = clusterOf c % 64 := fun h => hn h.symm
            simp [hn, this]
        · have : ¬ e = dieOf c := fun h => he h.symm
          simp [he, this]
    · rename_i hk
      refine ⟨rfl, State.modCtx_ctx_same _ _ _, fun e he => State.modCtx_ctx_ne _ _ _ _ (Ne.symm he), fun _ => rfl, ?_⟩
      intro e n
      simp [hk]

/-! Waking. -/

theorem Sparse.get_map {α : Type} (d : α) (g : Nat → α → α) (k : Nat) (hg : g k d = d) (m : Sparse α) :
    Sparse.get d (m.map fun (e : Nat × α) => (e.1, g e.1 e.2)) k = g k (Sparse.get d m k) := by
  induction m with
  | nil => exact hg.symm
  | cons e r ih =>
    obtain ⟨a, x⟩ := e
    simp only [List.map_cons, Sparse.get]
    split
    · rename_i h; subst h; rfl
    · exact ih

theorem wakeWaits_ctx (s : State) (f : Nat → Wait → Bool) (e : Nat) :
    (wakeWaits s f).ctx e =
      match (s.ctx e).run with
      | .blocked v _ => if f e v then { s.ctx e with run := .running } else s.ctx e
      | _ => s.ctx e := by
  unfold wakeWaits State.ctx
  exact Sparse.get_map {} (fun k x => match x.run with
    | .blocked v _ => if f k v then { x with run := .running } else x | _ => x) e rfl s.ctxs

theorem foldl_latch (l : List Nat) (bit : BitVec 5) (s : State) :
    (l.foldl (fun s c => s.modCtx c fun x => { x with latch := x.latch ||| bit }) s
      = { s with ctxs := (l.foldl (fun s c => s.modCtx c fun x => { x with latch := x.latch ||| bit }) s).ctxs }) ∧
    ∀ e, (l.foldl (fun s c => s.modCtx c fun x => { x with latch := x.latch ||| bit }) s).ctx e =
      if e ∈ l then { s.ctx e with latch := (s.ctx e).latch ||| bit } else s.ctx e := by
  induction l generalizing s with
  | nil => exact ⟨rfl, fun _ => rfl⟩
  | cons c r ih =>
    obtain ⟨h1, h2⟩ := ih (s.modCtx c fun x => { x with latch := x.latch ||| bit })
    refine ⟨?_, fun e => ?_⟩
    · simp only [List.foldl_cons]
      conv_lhs => rw [h1]
      rfl
    · simp only [List.foldl_cons, h2, State.modCtx_at_ctx]
      by_cases hc : c = e
      · subst hc
        by_cases hm : c ∈ r <;> simp [hm, BitVec.or_assoc]
      · have : ¬ e = c := fun h => hc h.symm
        simp [hc, this]

theorem readyParked_dies (s : State) (die : Nat) (pin : Bool) (f : Task → Bool) (b : BitVec 5) :
    readyParked s die pin f b = { s with dies := (readyParked s die pin f b).dies } ∧
    ∀ e, (readyParked s die pin f b).die e =
      { s.die e with parked := ((readyParked s die pin f b).die e).parked, ready := ((readyParked s die pin f b).die e).ready } := by
  unfold readyParked
  split
  · exact ⟨rfl, fun _ => rfl⟩
  · refine ⟨rfl, fun e => ?_⟩
    rw [State.modDie_at_die]
    split
    · rename_i h; subst h; rfl
    · rfl

/-- Waking a core sets the latch bits of its contexts, lets those that wait for any mailbox go on, and readies
parked tasks of its die; nothing else changes. -/
theorem wakeCore_spec (s : State) (k : Nat) (bit : BitVec 5) :
    wakeCore s k bit = { s with ctxs := (wakeCore s k bit).ctxs, dies := (wakeCore s k bit).dies } ∧
    (∀ e, (wakeCore s k bit).die e =
      { s.die e with parked := ((wakeCore s k bit).die e).parked, ready := ((wakeCore s k bit).die e).ready }) ∧
    ∀ e, (wakeCore s k bit).ctx e =
      { (if e ∈ contextsOf k then { s.ctx e with latch := (s.ctx e).latch ||| bit } else s.ctx e) with
        run := match (s.ctx e).run with
          | .blocked .mwait t => if coreOf e = k then .running else .blocked .mwait t
          | r => r } := by
  obtain ⟨f1, f2⟩ := foldl_latch (contextsOf k) bit s
  unfold wakeCore wakeParked
  dsimp only
  generalize hs1 : (contextsOf k).foldl (fun s c => s.modCtx c fun x => { x with latch := x.latch ||| bit }) s = s1
  rw [hs1] at f1 f2
  clear hs1
  obtain ⟨X, rfl⟩ : ∃ X, s1 = { s with ctxs := X } := ⟨_, f1⟩
  have r := readyParked_dies (wakeWaits { s with ctxs := X } fun c w => coreOf c == k && w == Wait.mwait) (coreDie k) true
  refine ⟨?_, ?_, ?_⟩
  · conv_lhs => rw [(r _ _).1]
    rw [(r _ _).1]
    rfl
  · intro e
    rw [(r _ _).2 e]; rfl
  · intro e
    have hc : ∀ (a : State) d p f b, (readyParked a d p f b).ctx e = a.ctx e := by
      intro a d p f b; rw [(readyParked_dies a d p f b).1]; rfl
    rw [hc, wakeWaits_ctx, f2]
    generalize s.ctx e = x
    have key : ∀ y : Context, (match y.run with
        | .blocked v _ => if (coreOf e == k && v == Wait.mwait) = true then { y with run := .running } else y
        | _ => y) = { y with run := match y.run with
          | .blocked .mwait t => if coreOf e = k then .running else .blocked .mwait t
          | r => r } := by
      intro y
      obtain ⟨run⟩ := y
      cases run with
      | blocked w t =>
        by_cases hk : coreOf e = k
        · cases w <;> simp [hk]
        · cases w <;> simp [hk]
      | _ => rfl
    rw [key]
    by_cases he : e ∈ contextsOf k <;> simp only [he, if_true, if_false]

theorem mem_contextsOf {e k : Nat} (h : e ∈ contextsOf k) : coreOf e = k := by
  unfold contextsOf at h
  rw [List.mem_map] at h
  obtain ⟨n, hn, rfl⟩ := h
  have := List.mem_range.1 hn
  unfold coreOf ctxKey
  split at this <;> omega

/-- A context of the package is one of its core's. -/
theorem mem_contextsOf_of_real {e : Nat} (h : isContext e = true) : e ∈ contextsOf (coreOf e) := by
  unfold contextsOf
  rw [List.mem_map]
  refine ⟨e % 8, ?_, by unfold ctxKey coreOf; omega⟩
  rw [List.mem_range]
  unfold isContext ctxNo coreDie coreNo coreOf dieOf at *
  split at h
  · simp only [Bool.and_eq_true, decide_eq_true_eq] at h
    split <;> omega
  · simp only [Bool.and_eq_true, decide_eq_true_eq] at h
    split <;> omega

/-! Writing a destination. -/

theorem setReg_reg (x : Context) (i j : BitVec 6) (r : Reg) :
    (x.setReg i r).reg j = if i = j ∧ j ≠ 0 then r else x.reg j := by
  unfold Context.setReg Context.reg
  by_cases hj : j = 0
  · rw [if_pos hj, if_pos hj, if_neg (fun h => h.2 hj)]
  · rw [if_neg hj, if_neg hj]
    by_cases hi : i = 0
    · rw [if_pos hi, if_neg (fun h => h.2 (h.1 ▸ hi))]
    · rw [if_neg hi, Sparse.get_set]
      by_cases hij : i = j
      · rw [if_pos (by rw [hij]), if_pos ⟨hij, hj⟩]
      · rw [if_neg (fun e => hij (BitVec.toNat_inj.1 e)), if_neg (fun h => hij h.1)]

theorem setReg_eq (x : Context) (i : BitVec 6) (r : Reg) : x.setReg i r = { x with g := (x.setReg i r).g } := by
  unfold Context.setReg; split <;> rfl

theorem setPred_pred (x : Context) (i j : BitVec 4) (r : Word) :
    (x.setPred i r).pred j = if i = j ∧ j ≠ 0 then r else x.pred j := by
  unfold Context.setPred Context.pred
  by_cases hj : j = 0
  · rw [if_pos hj, if_pos hj, if_neg (fun h => h.2 hj)]
  · rw [if_neg hj, if_neg hj]
    by_cases hi : i = 0
    · rw [if_pos hi, if_neg (fun h => h.2 (h.1 ▸ hi))]
    · rw [if_neg hi, Sparse.get_set]
      by_cases hij : i = j
      · rw [if_pos (by rw [hij]), if_pos ⟨hij, hj⟩]
      · rw [if_neg (fun e => hij (BitVec.toNat_inj.1 e)), if_neg (fun h => hij h.1)]

theorem setPred_eq (x : Context) (i : BitVec 4) (r : Word) : x.setPred i r = { x with p := (x.setPred i r).p } := by
  unfold Context.setPred; split <;> rfl

/-- The state after a scalar destination that is no remote mailbox has been written. -/
structure Written (s u t : State) (d : Dst) (w : Word) : Prop where
  whole : Within s t
  own : t.ctx s.cur = { u.ctx s.cur with
    g := (t.ctx s.cur).g, run := (t.ctx s.cur).run
    latch := if isQueue d then (u.ctx s.cur).latch ||| 0x02 else (u.ctx s.cur).latch }
  regs : ∀ j, (t.ctx s.cur).reg j = if d = .g j ∧ j ≠ 0 then Reg.ofWord w else (u.ctx s.cur).reg j
  others : ∀ e, isContext e = true → e ≠ s.cur → t.ctx e =
    if isQueue d = true ∧ coreOf e = coreOf s.cur then wordCame (u.ctx e) else u.ctx e
  queues : ∀ i : BitVec 3, (t.core (coreOf s.cur)).queue i.toNat =
    (u.core (coreOf s.cur)).queue i.toNat ++ (if d = .q i then [w] else [])
  core : t.core (coreOf s.cur) = { u.core (coreOf s.cur) with queues := (t.core (coreOf s.cur)).queues }
  cores : ∀ j, j ≠ coreOf s.cur → t.core j = u.core j
  dies : ∀ e, t.die e = { s.die e with parked := (t.die e).parked, ready := (t.die e).ready }
  pools : isQueue d = false → ∀ e, (t.die e).parked = (s.die e).parked ∧ (t.die e).ready = (s.die e).ready
  net : Departed s t d w

theorem putWord_spec {s u : State} {got : List (BitVec 5 × Word)} {srcs : List Src} (h : Reading s u got srcs)
    (hr : isContext s.cur = true) (d : Dst) (w : Word) (hx : ∀ m k, d ≠ .xm m k)
    (hp : ∀ i, d = .n i → (s.core (coreOf s.cur)).bridle = none) :
    Written s u (putWord u s.cur d w) d w := by
  obtain ⟨A, B, rfl⟩ : ∃ A B, u = { s with ctxs := A, cores := B } := ⟨_, _, h.whole⟩
  have hown := h.own
  generalize hu : ({ s with ctxs := A, cores := B } : State) = u at *
  have hcur : u.cur = s.cur := by rw [← hu]
  have hdie : ∀ e, u.die e = s.die e := fun e => by rw [← hu]; rfl
  cases d with
  | xm m k => exact absurd rfl (hx m k)
  | g i =>
    refine ⟨?_, ?_, ?_, ?_, ?_, ?_, ?_, ?_, ?_, ?_⟩ <;> simp only [putWord]
    · rw [← hu]; rfl
    · rw [State.modCtx_ctx_same, setReg_eq]; rfl
    · intro j
      rw [State.modCtx_ctx_same, setReg_reg]
      by_cases hij : i = j
      · subst hij; simp
      · simp [hij]
    · intro e _ he
      rw [State.modCtx_ctx_ne _ _ _ _ (Ne.symm he)]; rfl
    · intro j; simp
    · rfl
    · intro j _; rfl
    · intro e; rw [State.modCtx_at_die, hdie]
    · intro _ e; rw [State.modCtx_at_die, hdie]; exact ⟨rfl, rfl⟩
    · exact ⟨by rw [← hu]; rfl, by rw [← hu]; rfl⟩
  | q i =>
    simp only [putWord]
    obtain ⟨w1, w2, w3⟩ := wakeCore_spec (u.modCore (coreOf s.cur) fun k =>
      { k with queues := Sparse.set k.queues i.toNat (k.queue i.toNat ++ [w]) }) (coreOf s.cur) 0x02
    generalize hv : wakeCore (u.modCore (coreOf s.cur) fun k =>
      { k with queues := Sparse.set k.queues i.toNat (k.queue i.toNat ++ [w]) }) (coreOf s.cur) 0x02 = v at *
    have hcore : ∀ j, v.core j = (u.modCore (coreOf s.cur) fun k =>
      { k with queues := Sparse.set k.queues i.toNat (k.queue i.toNat ++ [w]) }).core j := fun j => by rw [w1]; rfl
    refine ⟨?_, ?_, ?_, ?_, ?_, ?_, ?_, ?_, ?_, ?_⟩
    · refine Within.trans ?_ (Within.of_ctxs_dies w1)
      rw [← hu]; rfl
    · rw [w3, if_pos (mem_contextsOf_of_real hr), State.modCore_at_ctx]; rfl
    · intro j
      rw [w3, if_pos (mem_contextsOf_of_real hr), State.modCore_at_ctx]
      simp [Context.reg]
    · intro e hre he
      rw [w3, State.modCore_at_ctx]
      by_cases hk : coreOf e = coreOf s.cur
      · have : e ∈ contextsOf (coreOf s.cur) := hk ▸ mem_contextsOf_of_real hre
        rw [if_pos this, if_pos ⟨rfl, hk⟩]
        unfold wordCame
        cases hrun : (u.ctx e).run with
        | blocked a b => cases a <;> simp [hk]
        | _ => simp
      · have : ¬ e ∈ contextsOf (coreOf s.cur) := fun hm => hk (mem_contextsOf hm)
        rw [if_neg this, if_neg (fun f => hk f.2)]
        cases hrun : (u.ctx e).run with
        | blocked a b => cases a <;> simp [hk, ← hrun]
        | _ => simp [← hrun]
    · intro j
      rw [hcore, State.modCore_core_same]
      by_cases hij : i = j
      · subst hij; simp [Core.queue]
      · have hne : i.toNat ≠ j.toNat := fun e => hij (BitVec.toNat_inj.1 e)
        simp [Core.queue, Sparse.get_set_ne _ _ _ hne, hij]
    · rw [hcore, State.modCore_core_same]
    · intro j hj; rw [hcore, State.modCore_core_ne _ _ _ _ (Ne.symm hj)]
    · intro e; rw [w2, State.modCore_at_die, hdie]
    · intro hq; exact absurd hq (by simp [isQueue])
    · exact ⟨by rw [w1, ← hu]; rfl, by rw [w1, ← hu]; rfl⟩
  | n i =>
    have hb : (u.core (coreOf s.cur)).bridle = none := by rw [h.core]; exact hp i rfl
    have he : putWord u s.cur (.n i) w = { u with
        next := u.next + 1
        net := u.net ++ [(u.next, NetMsg.word (neighbour (meshCore u s.cur) i.toNat).1
          (.port (neighbour (meshCore u s.cur) i.toNat).2)
          { w := w, sender := coreWord u (u.ctx s.cur).ident (coreOf s.cur), t0 := u.time.toNat % 2 ^ 48 } s.cur
          (gtiOf (u.ctx s.cur)) (u.ctx s.cur).ident false false)] } := by simp only [putWord, hb, State.new]
    refine ⟨?_, ?_, ?_, ?_, ?_, ?_, ?_, ?_, ?_, ?_⟩ <;> rw [he]
    · rw [← hu]; rfl
    · rfl
    · intro j; simp [State.ctx]
    · intro e _ _; rfl
    · intro j; simp [State.core]
    · rfl
    · intro j _; rfl
    · intro e; rw [← hdie e]; rfl
    · intro _ e; rw [← hdie e]; exact ⟨rfl, rfl⟩
    · have hm : meshCore u s.cur = meshCore s s.cur := by simp only [meshCore, hown]
      have hi : (u.ctx s.cur).ident = (s.ctx s.cur).ident := by rw [hown]
      have hg : gtiOf (u.ctx s.cur) = gtiOf (s.ctx s.cur) := by simp only [gtiOf, hown]
      simp only [hm, hi, hg]
      rw [← hu]
      exact ⟨_, rfl, rfl, rfl, rfl, rfl⟩

theorem Counted.within {s t : State} {k : Nat} (h : Counted s t k) : Within s t := Within.of_cores h.whole

/-- Sources read, destination written, flags raised, retired: the state `ScalarDone` describes. -/
theorem scalar_done {s u : State} {got : List (BitVec 5 × Word)} {srcs : List Src} (h : Reading s u got srcs)
    (hr : isContext s.cur = true) (d : Dst) (w : Word) (fl : FpFlags) (hx : ∀ m k, d ≠ .xm m k)
    (hp : ∀ i, d = .n i → (s.core (coreOf s.cur)).bridle = none) :
    ScalarDone s (retire (raiseFlags (putWord u s.cur d w) s.cur fl) s.cur) srcs d w fl := by
  have p := putWord_spec h hr d w hx hp
  generalize putWord u s.cur d w = t1 at p
  have q := raiseFlags_spec t1 s.cur fl
  generalize raiseFlags t1 s.cur fl = t2 at q
  unfold retire
  obtain ⟨t3, r, e⟩ := retireAt_spec t2 s.cur ((t2.ctx s.cur).pc + 12)
  rw [e]
  have hw : Within s t3 := by
    refine Within.trans (Within.trans p.whole (Within.of_ctxs_dies q.whole)) (Within.trans ?_ r.within)
    rfl
  have hcore1 : ∀ j, t2.core j = t1.core j := fun j => by rw [q.whole]; rfl
  have hdie3 : ∀ j, t3.die j = t2.die j := fun j => by rw [r.die]; rfl
  have hcore3 : t3.core (coreOf s.cur) = { t2.core (coreOf s.cur) with
      evc := (t3.core (coreOf s.cur)).evc, since := (t3.core (coreOf s.cur)).since } := r.core
  refine ⟨hw, hw.bytes, ?_, ?_, ?_, ?_, ?_, ?_, ?_, ?_, ?_, ?_⟩
  · rw [r.ctx, State.modCtx_ctx_same, q.own, p.own, h.own]; rfl
  · intro j
    rw [r.ctx, State.modCtx_ctx_same]
    have : ∀ x : Context, ∀ y, ((x.goesOn y).reg j) = x.reg j := fun _ _ => rfl
    rw [this, q.own]
    have p2 := p.regs j
    rw [h.own] at p2
    exact p2
  · refine ⟨?_, ?_, ?_⟩
    · intro i
      have h1 : ∀ k : Core, ∀ a b, ({ k with evc := a, since := b } : Core).queue i.toNat = k.queue i.toNat := fun _ _ _ => rfl
      rw [hcore3, h1, hcore1, p.queues, h.queues]
      simp
    · intro i
      have h1 : ∀ k : Core, ∀ a b, ({ k with evc := a, since := b } : Core).port i.toNat = k.port i.toNat := fun _ _ _ => rfl
      have h2 : ∀ k : Core, ∀ a, ({ k with queues := a } : Core).port i.toNat = k.port i.toNat := fun _ _ => rfl
      rw [hcore3, h1, hcore1, p.core, h2, h.ports]
    · intro i
      have h1 : ∀ k : Core, ∀ a b, ({ k with evc := a, since := b } : Core).mail i.toNat = k.mail i.toNat := fun _ _ _ => rfl
      have h2 : ∀ k : Core, ∀ a, ({ k with queues := a } : Core).mail i.toNat = k.mail i.toNat := fun _ _ => rfl
      rw [hcore3, h1, hcore1, p.core, h2, h.mail]
  · unfold CoreKept
    rw [hcore3, hcore1, p.core, h.core]
  · intro j hj
    rw [r.cores j hj]
    exact (hcore1 j).trans ((p.cores j hj).trans (h.cores j hj))
  · intro j hre hj
    rw [r.ctx, State.modCtx_ctx_ne _ _ _ _ (Ne.symm hj), q.others j hj, p.others j hre hj, h.others j hj]
  · intro j
    rw [hdie3, q.dies, p.dies]
  · intro hq j
    rw [hdie3, q.dies]
    exact p.pools hq j
  · intro j n
    rw [hdie3, q.bits]
    have := p.dies j
    have e1 : (t1.die j).clflags = (s.die j).clflags := by rw [this]
    rw [e1]
  · have n1 : t3.net = t1.net ∧ t3.next = t1.next := by
      have a : t3.net = t2.net ∧ t3.next = t2.next := by rw [r.whole]; exact ⟨rfl, rfl⟩
      have b : t2.net = t1.net ∧ t2.next = t1.next := by rw [q.whole]; exact ⟨rfl, rfl⟩
      exact ⟨a.1.trans b.1, a.2.trans b.2⟩
    have p3 := p.net
    unfold Departed WordSent at *
    rw [n1.1, n1.2]
    exact p3

theorem Reading.die {s u : State} {got : List (BitVec 5 × Word)} {srcs : List Src} (h : Reading s u got srcs) (j : Nat) :
    u.die j = s.die j := by rw [h.whole]; rfl

theorem Reading.round {s u : State} {got : List (BitVec 5 × Word)} {srcs : List Src} (h : Reading s u got srcs) :
    (u.ctx s.cur).round = (s.ctx s.cur).round := by rw [h.own]

/-- A scalar instruction whose operands are there retires in the state `ScalarDone` describes. The result may
depend on the context through what reading sources leaves alone. -/
theorem scalarOp_done {s : State} {srcs : List Src} {d : Dst} {f : Context → List Word → Word × FpFlags}
    (h : Ready s srcs (some d)) (hr : isContext s.cur = true) (hx : ∀ m k, d ≠ .xm m k)
    (hf : ∀ pm mm ws, f { s.ctx s.cur with pmask := pm, mbxmask := mm } ws = f (s.ctx s.cur) ws) :
    ∃ t, scalarOp srcs d f s.cur s = .ok t ∧
      ScalarDone s t srcs d (f (s.ctx s.cur) (srcWords s [] srcs)).1 (f (s.ctx s.cur) (srcWords s [] srcs)).2 := by
  obtain ⟨u, ⟨got, hg⟩, hs⟩ := sources_ready h
  have hfu : f (u.ctx s.cur) (srcWords s [] srcs) = f (s.ctx s.cur) (srcWords s [] srcs) := by rw [hg.own]; exact hf ..
  refine ⟨_, ?_, scalar_done hg hr d _ _ hx fun i hd => (h.there (by simp [blocking, outward, hd])).1.pair⟩
  unfold scalarOp
  cases d with
  | xm m k => exact absurd rfl (hx m k)
  | _ => simp only [hs, Res.ok_bind, Res.pure_eq, hfu]

/-- An instruction with a predicate destination. -/
theorem predOp_done {s : State} {srcs : List Src} {p : BitVec 4} {f : Context → List Word → Bool × FpFlags}
    (h : Ready s srcs none) (hp : (s.ctx s.cur).pendP p = false)
    (hf : ∀ pm mm ws, f { s.ctx s.cur with pmask := pm, mbxmask := mm } ws = f (s.ctx s.cur) ws) :
    ∃ t, predOp srcs p f s.cur s = .ok t ∧
      PredDone s t srcs p (f (s.ctx s.cur) (srcWords s [] srcs)).1 (f (s.ctx s.cur) (srcWords s [] srcs)).2 := by
  obtain ⟨u, ⟨got, hg⟩, hs⟩ := sources_ready h
  have hfu : f (u.ctx s.cur) (srcWords s [] srcs) = f (s.ctx s.cur) (srcWords s [] srcs) := by rw [hg.own]; exact hf ..
  generalize hv : f (s.ctx s.cur) (srcWords s [] srcs) = v at *
  have hb : predOp srcs p f s.cur s = .ok (retire (raiseFlags (u.modCtx s.cur fun x =>
      x.setPred p (if v.1 then BitVec.allOnes 64 else 0)) s.cur v.2) s.cur) := by
    simp only [predOp, hp, Bool.not_false, ask_true, Res.ok_bind, hs, hfu, Res.pure_eq]
  refine ⟨_, hb, ?_⟩
  generalize ht1 : (u.modCtx s.cur fun x => x.setPred p (if v.1 then BitVec.allOnes 64 else 0)) = t1
  have o1 : t1.ctx s.cur = (u.ctx s.cur).setPred p (if v.1 then BitVec.allOnes 64 else 0) := by
    rw [← ht1, State.modCtx_ctx_same]
  have c1 : ∀ j, t1.core j = u.core j := fun j => by rw [← ht1]; rfl
  have d1 : ∀ j, t1.die j = s.die j := fun j => by rw [← ht1, State.modCtx_at_die, Reading.die hg]
  have w1 : Within s t1 := by rw [← ht1]; exact (Within.of_ctxs_cores hg.whole).trans rfl
  have q := raiseFlags_spec t1 s.cur v.2
  generalize raiseFlags t1 s.cur v.2 = t2 at q
  unfold retire
  obtain ⟨t3, r, e⟩ := retireAt_spec t2 s.cur ((t2.ctx s.cur).pc + 12)
  rw [e]
  have hw : Within s t3 := by
    refine Within.trans (w1.trans (Within.of_ctxs_dies q.whole)) (Within.trans ?_ r.within)
    rfl
  have hcore1 : ∀ j, t2.core j = t1.core j := fun j => by rw [q.whole]; rfl
  have hdie3 : ∀ j, t3.die j = t2.die j := fun j => by rw [r.die]; rfl
  have hcore3 : t3.core (coreOf s.cur) = { t2.core (coreOf s.cur) with
      evc := (t3.core (coreOf s.cur)).evc, since := (t3.core (coreOf s.cur)).since } := r.core
  refine ⟨hw, ?_, hw.bytes, ?_, ?_, ?_, ?_, ?_, ?_, ?_, ?_⟩
  · have a : t3.net = t2.net ∧ t3.next = t2.next := by rw [r.whole]; exact ⟨rfl, rfl⟩
    have b : t2.net = t1.net ∧ t2.next = t1.next := by rw [q.whole]; exact ⟨rfl, rfl⟩
    have c : t1.net = s.net ∧ t1.next = s.next := by
      rw [← ht1, State.modCtx_net, State.modCtx_next, hg.whole]; exact ⟨rfl, rfl⟩
    exact ⟨a.1.trans (b.1.trans c.1), a.2.trans (b.2.trans c.2)⟩
  · rw [r.ctx, State.modCtx_ctx_same, q.own, o1, setPred_eq, hg.own]; rfl
  · intro j
    rw [r.ctx, State.modCtx_ctx_same]
    have : ∀ x : Context, ∀ y, ((x.goesOn y).pred j) = x.pred j := fun _ _ => rfl
    rw [this, q.own]
    have : ∀ x : Context, ∀ y, ({ x with flags := y } : Context).pred j = x.pred j := fun _ _ => rfl
    rw [this, o1, setPred_pred, hg.own]; rfl
  · refine ⟨?_, ?_, ?_⟩
    · intro i
      have h1 : ∀ k : Core, ∀ a b, ({ k with evc := a, since := b } : Core).queue i.toNat = k.queue i.toNat := fun _ _ _ => rfl
      rw [hcore3, h1, hcore1, c1, hg.queues]
      simp
    · intro i
      have h1 : ∀ k : Core, ∀ a b, ({ k with evc := a, since := b } : Core).port i.toNat = k.port i.toNat := fun _ _ _ => rfl
      rw [hcore3, h1, hcore1, c1, hg.ports]
    · intro i
      have h1 : ∀ k : Core, ∀ a b, ({ k with evc := a, since := b } : Core).mail i.toNat = k.mail i.toNat := fun _ _ _ => rfl
      rw [hcore3, h1, hcore1, c1, hg.mail]
  · unfold CoreKept
    rw [hcore3, hcore1, c1, hg.core]
  · intro j hj
    rw [r.cores j hj]
    exact (hcore1 j).trans ((c1 j).trans (hg.cores j hj))
  · intro j hj
    rw [r.ctx, State.modCtx_ctx_ne _ _ _ _ (Ne.symm hj), q.others j hj, ← ht1,
      State.modCtx_ctx_ne _ _ _ _ (Ne.symm hj), hg.others j hj]
  · intro j
    rw [hdie3, q.dies, d1]
  · intro j n
    rw [hdie3, q.bits, d1]

/-- Charging a serving context changes the credit of dies and the context's own note of it (R267). -/
theorem charge_spec (s : State) (c : Nat) :
    charge s c = { s with ctxs := (charge s c).ctxs, dies := (charge s c).dies } ∧
    (charge s c).ctx c = { s.ctx c with served := none } ∧ (∀ e, e ≠ c → (charge s c).ctx e = s.ctx e) ∧
    ∀ e, (charge s c).die e = { s.die e with credit := ((charge s c).die e).credit } := by
  unfold charge
  cases h : (s.ctx c).served with
  | none =>
    have hx : ∀ x : Context, x.served = none → x = { x with served := none } := fun x hx => by
      obtain ⟨⟩ := x; cases hx; rfl
    exact ⟨rfl, hx _ h, fun _ _ => rfl, fun _ => rfl⟩
  | some v =>
    obtain ⟨t0, die, n⟩ := v
    refine ⟨rfl, ?_, ?_, ?_⟩
    · dsimp only; rw [State.modCtx_ctx_same, State.modDie_at_ctx]
    · intro e he; dsimp only; rw [State.modCtx_ctx_ne _ _ _ _ (Ne.symm he), State.modDie_at_ctx]
    · intro e; dsimp only; rw [State.modCtx_at_die, State.modDie_at_die]
      split
      · rename_i he; subst he; rfl
      · rfl

/-- Blocking a context: its run state and what is charged. -/
theorem blockOn_spec (s : State) (c : Nat) (w : Wait) :
    blockOn s c w = { s with ctxs := (blockOn s c w).ctxs, dies := (blockOn s c w).dies } ∧
    (∃ n, (blockOn s c w).ctx c = { s.ctx c with served := none, mheld := false, run := .blocked w n }) ∧
    (∀ e, e ≠ c → (blockOn s c w).ctx e = s.ctx e) ∧
    ∀ e, (blockOn s c w).die e = { s.die e with credit := ((blockOn s c w).die e).credit } := by
  obtain ⟨h1, h2, h3, h4⟩ := charge_spec s c
  unfold blockOn
  refine ⟨?_, ?_, ?_, ?_⟩
  · conv_lhs => rw [h1]
    rfl
  · rw [State.modCtx_ctx_same, h2]
    cases hr : (s.ctx c).run with
    | blocked v n =>
      by_cases hv : v = w
      · exact ⟨n, by simp [hv]⟩
      · exact ⟨s.time.toNat, by simp only [hv, if_false]⟩
    | _ => exact ⟨s.time.toNat, rfl⟩
  · intro e he; rw [State.modCtx_ctx_ne _ _ _ _ (Ne.symm he), h3 e he]
  · intro e; rw [State.modCtx_at_die]; exact h4 e

/-- A scalar instruction whose result goes to a remote mailbox. -/
theorem scalarOp_sent {s : State} {srcs : List Src} {m : BitVec 5} {k : BitVec 6}
    {f : Context → List Word → Word × FpFlags} {target : Nat} (h : Ready s srcs (some (.xm m k)))
    (hm : MailReady s k target)
    (hf : ∀ pm mm ws, f { s.ctx s.cur with pmask := pm, mbxmask := mm } ws = f (s.ctx s.cur) ws) :
    ∃ t, scalarOp srcs (.xm m k) f s.cur s = .ok t ∧
      MailSent s t srcs target m.toNat (f (s.ctx s.cur) (srcWords s [] srcs)).1 (f (s.ctx s.cur) (srcWords s [] srcs)).2 := by
  obtain ⟨u, ⟨got, hg⟩, hs⟩ := sources_ready h
  have hfu : f (u.ctx s.cur) (srcWords s [] srcs) = f (s.ctx s.cur) (srcWords s [] srcs) := by rw [hg.own]; exact hf ..
  generalize hv : f (s.ctx s.cur) (srcWords s [] srcs) = v at *
  have hk : (s.ctx s.cur).pendG k = false := h.room
  have ht : mailTarget s s.cur k = .ok target := by simp only [mailTarget, hm.names]
  have hl : leaveNow s s.cur .part = .ok s := by
    simp only [leaveNow, hm.lone, Option.isSome_none, Bool.false_eq_true, if_false, Res.pure_eq, Res.ok_bind, hm.older,
      ask_true]
  have hb : scalarOp srcs (.xm m k) f s.cur s = .ok (sendMail u s.cur target m.toNat v.1 v.2) := by
    simp only [scalarOp, hk, Bool.not_false, ask_true, Res.ok_bind, ht, hl, hs, hfu, Res.pure_eq]
  refine ⟨_, hb, ?_⟩
  have hid : (u.ctx s.cur).ident = (s.ctx s.cur).ident := by rw [hg.own]
  have hcoreW : coreWord u (s.ctx s.cur).ident (coreOf s.cur) = coreWord s (s.ctx s.cur).ident (coreOf s.cur) := by
    have h2 : ∀ p, u.part p = s.part p := fun p => by rw [hg.whole]; rfl
    have h3 : ∀ e, u.die e = s.die e := hg.die
    simp only [coreWord, logDie, physDie, logCore, coreMap, h3, h2]
  have hgti : gtiOf (u.ctx s.cur) = gtiOf (s.ctx s.cur) := by simp only [gtiOf, hg.own]
  have hn : u.net = s.net ∧ u.next = s.next ∧ u.time = s.time := by rw [hg.whole]; exact ⟨rfl, rfl, rfl⟩
  unfold sendMail
  simp only [State.new]
  generalize ht3 : (State.modCtx _ _ _ : State) = t3
  obtain ⟨b1, ⟨n, b2⟩, b3, b4⟩ := blockOn_spec t3 s.cur .mailboxAck
  generalize blockOn t3 s.cur .mailboxAck = t at b1 b2 b3 b4
  have w3 : Within u t3 := by rw [← ht3]; rfl
  have hw : Within s t := (Within.of_ctxs_cores hg.whole).trans (w3.trans (Within.of_ctxs_dies b1))
  have own3 : t3.ctx s.cur = { u.ctx s.cur with outst := 1, acked := false, oflags := v.2 } := by
    rw [← ht3, State.modCtx_ctx_same]; rfl
  have ne3 : ∀ e, e ≠ s.cur → t3.ctx e = u.ctx e := by
    intro e he; rw [← ht3, State.modCtx_ctx_ne _ _ _ _ (Ne.symm he)]; rfl
  have hcore : ∀ j, t.core j = u.core j := fun j => by
    have e1 : t.core j = t3.core j := by rw [b1]; rfl
    have e2 : t3.core j = u.core j := by rw [← ht3]; rfl
    exact e1.trans e2
  have hdie : ∀ j, t3.die j = u.die j := fun j => by rw [← ht3]; rfl
  refine ⟨hw, hw.bytes, ?_, ⟨n, by rw [b2]⟩, ?_, ?_, ?_, ?_, ?_, ?_⟩
  · rw [b2, own3, hg.own]
  · refine ⟨?_, ?_, ?_⟩
    · intro i; rw [hcore, hg.queues]; simp
    · intro i; rw [hcore, hg.ports]
    · intro i; rw [hcore, hg.mail]
  · unfold CoreKept; rw [hcore, hg.core]
  · intro j hj; rw [hcore]; exact hg.cores j hj
  · intro e he; rw [b3 e he, ne3 e he, hg.others e he]
  · intro e; rw [b4, hdie, hg.die]
  · have a : t.net = t3.net ∧ t.next = t3.next := by rw [b1]; exact ⟨rfl, rfl⟩
    refine ⟨{ w := v.1, sender := coreWord s (s.ctx s.cur).ident (coreOf s.cur), t0 := s.time.toNat % 2 ^ 48 },
      rfl, rfl, rfl, ?_, ?_⟩
    · rw [a.1, ← ht3, State.modCtx_net, ← hcoreW, ← hn.1, ← hn.2.1, ← hgti, ← hid, ← hn.2.2]
      rfl
    · rw [a.2, ← ht3, State.modCtx_next, hn.2.1]

/-- An instruction that is `scalarOp` in its frame completes, if its result is the table's. -/
theorem Scalar.completes {i : Instr} {f : Scalar} (g : Context → List Word → Word × FpFlags)
    (he : ∀ s, exec i s = run i f.h (scalarOp f.srcs f.d g) s) (hg : ∀ x ws, g x ws = f.val x ws)
    (hf : ∀ (x : Context) pm mm ws, g { x with pmask := pm, mbxmask := mm } ws = g x ws) : f.Completes i := by
  intro s hc ho _ hr
  rw [he]
  refine ⟨fun hx => ?_, fun m k target hd hm => ?_⟩
  · obtain ⟨t, ht, hd⟩ := scalarOp_done hr hc.real hx (fun pm mm ws => hf (s.ctx s.cur) pm mm ws)
    refine ⟨t, run_next hc ho ht, ?_⟩
    rw [hg] at hd; exact hd
  · rw [hd] at hr ⊢
    obtain ⟨t, ht, hd⟩ := scalarOp_sent hr hm (fun pm mm ws => hf (s.ctx s.cur) pm mm ws)
    refine ⟨t, run_next hc ho ht, ?_⟩
    rw [hg] at hd; exact hd

/-- An instruction that is `predOp` in its frame completes. -/
theorem Decides.completes {i : Instr} {f : Decides} (g : Context → List Word → Bool × FpFlags)
    (he : ∀ s, exec i s = run i f.h (predOp f.srcs f.p g) s) (hg : ∀ x ws, g x ws = f.val x ws)
    (hf : ∀ (x : Context) pm mm ws, g { x with pmask := pm, mbxmask := mm } ws = g x ws) : f.Completes i := by
  intro s hc ho hp hr
  rw [he]
  obtain ⟨t, ht, hd⟩ := predOp_done hr hp (fun pm mm ws => hf (s.ctx s.cur) pm mm ws)
  refine ⟨t, run_next hc ho ht, ?_⟩
  rw [hg] at hd; exact hd

theorem reg_zero (x : Context) : x.reg 0 = {} := by unfold Context.reg; exact if_pos rfl

/-- Sources read, the context changed in registers and whatever `y` says, retired: the state `Retired` describes. -/
theorem retired_of {s u : State} {got : List (BitVec 5 × Word)} {srcs : List Src} (h : Reading s u got srcs)
    (f : Context → Context) (pc : Word) (y : Context) (put : BitVec 6 → Option Reg)
    (hy : f (u.ctx s.cur) = { y with
      g := (f (u.ctx s.cur)).g, pmask := (s.ctx s.cur).pmask ||| portMarks srcs
      mbxmask := (s.ctx s.cur).mbxmask ||| mailMarks srcs })
    (hr : ∀ j, j ≠ 0 → (f (u.ctx s.cur)).reg j = (put j).getD ((s.ctx s.cur).reg j)) :
    Retired s (retireAt (u.modCtx s.cur f) s.cur pc) srcs (y.goesOn pc) put := by
  generalize ht1 : u.modCtx s.cur f = t1
  have o1 : t1.ctx s.cur = f (u.ctx s.cur) := by rw [← ht1, State.modCtx_ctx_same]
  have c1 : ∀ j, t1.core j = u.core j := fun j => by rw [← ht1]; rfl
  have d1 : ∀ j, t1.die j = s.die j := fun j => by rw [← ht1, State.modCtx_at_die, h.die]
  have w1 : Within s t1 := by rw [← ht1]; exact (Within.of_ctxs_cores h.whole).trans rfl
  obtain ⟨t3, r, e⟩ := retireAt_spec t1 s.cur pc
  rw [e]
  have hw : Within s t3 := by
    refine Within.trans w1 (Within.trans ?_ r.within)
    rfl
  have hcore3 : t3.core (coreOf s.cur) = { t1.core (coreOf s.cur) with
      evc := (t3.core (coreOf s.cur)).evc, since := (t3.core (coreOf s.cur)).since } := r.core
  refine ⟨hw, ?_, hw.bytes, ?_, ?_, ?_, ?_, ?_, ?_, ?_⟩
  · have a : t3.net = t1.net ∧ t3.next = t1.next := by rw [r.whole]; exact ⟨rfl, rfl⟩
    have c : t1.net = s.net ∧ t1.next = s.next := by
      rw [← ht1, State.modCtx_net, State.modCtx_next, h.whole]; exact ⟨rfl, rfl⟩
    exact ⟨a.1.trans c.1, a.2.trans c.2⟩
  · rw [r.ctx, State.modCtx_ctx_same, o1]
    conv_lhs => rw [hy]
    rfl
  · intro j
    rw [r.ctx, State.modCtx_ctx_same]
    by_cases hj : j = 0
    · rw [if_pos hj, hj, reg_zero]
    · have : ∀ x : Context, ∀ y, ((x.goesOn y).reg j) = x.reg j := fun _ _ => rfl
      rw [if_neg hj, this, o1, hr j hj]
  · refine ⟨?_, ?_, ?_⟩
    · intro i
      have h1 : ∀ k : Core, ∀ a b, ({ k with evc := a, since := b } : Core).queue i.toNat = k.queue i.toNat := fun _ _ _ => rfl
      rw [hcore3, h1, c1, h.queues]
      simp
    · intro i
      have h1 : ∀ k : Core, ∀ a b, ({ k with evc := a, since := b } : Core).port i.toNat = k.port i.toNat := fun _ _ _ => rfl
      rw [hcore3, h1, c1, h.ports]
    · intro i
      have h1 : ∀ k : Core, ∀ a b, ({ k with evc := a, since := b } : Core).mail i.toNat = k.mail i.toNat := fun _ _ _ => rfl
      rw [hcore3, h1, c1, h.mail]
  · unfold CoreKept
    rw [hcore3, c1, h.core]
  · intro j hj
    rw [r.cores j hj]
    exact (c1 j).trans (h.cores j hj)
  · intro j hj
    rw [r.ctx, State.modCtx_ctx_ne _ _ _ _ (Ne.symm hj), ← ht1, State.modCtx_ctx_ne _ _ _ _ (Ne.symm hj), h.others j hj]
  · intro j; rw [r.die]; exact d1 j

/-- The same with no sources read. -/
theorem retired_plain {s : State} (f : Context → Context) (pc : Word) (put : BitVec 6 → Option Reg)
    (hr : ∀ j, j ≠ 0 → (f (s.ctx s.cur)).reg j = (put j).getD ((s.ctx s.cur).reg j))
    (hm : (f (s.ctx s.cur)).pmask = (s.ctx s.cur).pmask) (hb : (f (s.ctx s.cur)).mbxmask = (s.ctx s.cur).mbxmask) :
    Retired s (retireAt (s.modCtx s.cur f) s.cur pc) [] ((f (s.ctx s.cur)).goesOn pc) put := by
  refine retired_of (Reading.start s) f pc _ put ?_ hr
  have e1 : (s.ctx s.cur).pmask ||| portMarks [] = (s.ctx s.cur).pmask := by simp [portMarks]
  have e2 : (s.ctx s.cur).mbxmask ||| mailMarks [] = (s.ctx s.cur).mbxmask := by simp [mailMarks]
  rw [e1, e2, ← hm, ← hb]

end Sys2Proof.Machine
end

