-- ==== Sys2Proof/Tests/Slice0.lean ====
section
/-! SUPPORT. Tests: terms the well-formedness checks refuse, words the spec writes out and what they decode to,
and single steps with results worked from the spec. -/

namespace Sys2Proof.Tests

set_option Elab.async false

open Sys2Proof Sys2Proof.Machine

/-- No guard and no hints. -/
def h0 : Hdr := { guard := { neg := false, p := 0 }, hints := 0 }

/-- Whether every term of a list is refused. -/
def refuses (l : List Instr) : Bool := l.all fun i => !i.wellFormed

/-! Well-formedness: an ill-formed term for each check. -/

/-- R40, R168, R177, R193, R202: a remote mailbox where operand C or the form leaves no room for it. -/
theorem test_wf_remote_mailbox : refuses [
    .add { h := h0, ty := .i8, d := .xm 1 2, a := .g 1, b := .g 2, c := .g 3, imm := 0 },
    .mulh { h := h0, ty := .i8, d := .xm 1 2, a := .g 1, b := .g 2, imm := 1 },
    .sel { h := h0, ty := .i8, d := .xm 1 2, a := .g 1, b := .g 2, c := 1, imm := 0 },
    .movi { h := h0, d := .xm 1 2, imm := 0 }, .movhi { h := h0, d := .xm 1 2, a := .g 1, imm := 0 },
    .cget { h := h0, field := .addr, d := .xm 1 2, a := 1 },
    .ffma { h := h0, ty := .f32, d := .xm 1 2, a := .g 1, b := .g 2, c := .g 3 },
    .ld { h := h0, ty := .i8, d := .xm 1 2, a := 1, off := 0 }, .ldtg { h := h0, d := .xm 1 2, a := 1, off := 0 },
    .ldacq { h := h0, scope := .ctx, ty := .i8, d := .xm 1 2, a := 1, off := 0 },
    .jrd { h := h0, sel := .addr, d := .xm 1 2, a := .g 1 }, .jrdClr { h := h0, d := .xm 1 2, a := .g 1 },
    .mwait { h := h0, all := false, d := .xm 1 2, a := .g 1 }, .csrr { h := h0, d := .xm 1 2, num := 0 },
    .wfe { h := h0, d := .xm 1 2, a := .g 1 }, .tspawn { h := h0, d := .xm 1 2, a := 1 },
    .tcontReady { h := h0, d := .xm 1 2, a := 1 }, .mrestore { h := h0, d := .xm 1 2, a := 1 },
    .fget { h := h0, d := .xm 1 2, k := 0 }, .tcontEnd { h := h0, d := .xm 1 2, a := 1, b := .g 1 },
    .phnew { h := h0, d := .xm 1 2, ctr := false, die := none }, .phjoin { h := h0, d := .xm 1 2, a := .g 1, role := .both },
    .phsig { h := h0, d := .xm 1 2, a := .g 1, b := .g 2 }, .phwait { h := h0, d := .xm 1 2, a := .g 1, b := .g 2 },
    .wprd { h := h0, d := .xm 1 2, ch := 0 }, .tlrd { h := h0, iss := false, d := .xm 1 2, tl := 0 },
    .tlwait { h := h0, scope := .ctx, d := .xm 1 2, b := .g 1, tl := 0, n := 0 },
    .vredadd { h := h0, ty := .f32, d := .xm 1 2, a := 1 }, .vredmax { h := h0, ty := .f32, d := .xm 1 2, a := 1 },
    .vmovgGet { h := h0, ty := .i32, d := .xm 1 2, a := 1, b := .g 0, imm := 0 },
    .mclaim { h := h0, d := .xm 1 2, a := 0, accm := 0, slotm := 0 },
    .bcent { h := h0, nolate := false, d := .xm 1 2, b := .g 1, cid := 0 }, .bclisten { h := h0, d := .xm 1 2, cid := 0 }] = true := by
  decide +kernel

/-- R18, R43, R59: an instruction of kernel level names no mesh port. -/
theorem test_wf_mesh_port : refuses [
    .bankcfg { h := h0, mode := .cache, a := .n 0, b := .g 1 }, .tlbinvPage { h := h0, size := .k4, a := .n 0 },
    .tlbinvAll { h := h0, a := .n 0 }, .migr { h := h0, d := .g 1, a := .n 0, b := .g 1 },
    .tcregAdd { h := h0, d := .n 0, a := 1 }, .tcregDel { h := h0, d := .n 0, id := 1 }, .tcregStat { h := h0, d := .n 0, id := 1 },
    .bcbindBind { h := h0, d := .n 0, lane := 1, cid := 0, rot := false }, .bcbindUnbind { h := h0, d := .n 0, lane := 1 },
    .bcbindStat { h := h0, d := .n 0, lane := 1 }, .bcbindAssign { h := h0, d := .n 0, lane := 1, part := 1 },
    .foffer { h := h0, d := .n 0, a := .g 1 }, .fofferReclaim { h := h0, d := .g 1, a := .n 0 },
    .faccept { h := h0, d := .n 0, a := .g 1 }, .fwithdraw { h := h0, d := .n 0, a := .g 1 },
    .frecall { h := h0, d := .n 0, a := .g 1 }, .fret { h := h0, d := .n 0, a := .g 1 },
    .fqueryState { h := h0, d := .n 0, a := .g 1 }, .fqueryDl { h := h0, d := .n 0, a := .g 1 },
    .fofferGrant { h := h0, d := .g 1, a := .g 1, b := .n 0 }, .flend { h := h0, d := .g 1, a := .g 1, b := .n 0 },
    .fqueryStrk { h := h0, d := .n 0 }] = true := by
  decide +kernel

/-- R132, R151, R197, R214, R219, R263: lists of registers, control-register numbers, formats. -/
theorem test_wf_scalar_fields : refuses [
    .fcvt { h := h0, dst := .f32, src := .f32, d := .g 1, a := .g 1 },
    .fcvt { h := h0, dst := .i32, src := .n64, d := .g 1, a := .g 1 },
    .amsg { h := h0, a := 1, b := .g 1, arg := 0, narg := 5 }, .amsg { h := h0, a := 1, b := .g 1, arg := 61, narg := 4 },
    .sysc { h := h0, a := .g 1, b := 1, arg := 0, narg := 7 }, .sysc { h := h0, a := .g 1, b := 1, arg := 59, narg := 6 },
    .trec { h := h0, d := .g 1, a := 1, b := .g 1, arg := 0, narg := 7 },
    .csrr { h := h0, d := .g 1, num := 0x7 }, .csrw { h := h0, a := .g 1, num := 0x14 }] = true := by
  decide +kernel

/-- R296, R304, R325, R331, R349: subfields of the engine commands. -/
theorem test_wf_engine_fields : refuses [
    .amo { h := h0, ty := .f32, d := .g 1, a := 1, b := .g 1, ofs := 0, cv := .g 0, ord := 0, scope := .ctx, op := .add },
    .amo { h := h0, ty := .i32, d := .g 1, a := 1, b := .g 1, ofs := 0, cv := .g 1, ord := 0, scope := .ctx, op := .add },
    .amor { h := h0, ty := .i32, a := 1, b := .g 1, ofs := 0, ord := 0, scope := .ctx, op := .cas },
    .amor { h := h0, ty := .i32, a := 1, b := .g 1, ofs := 0, ord := 0, scope := .ctx, op := .fadd },
    .ctrread { h := h0, d := .g 1, a := .g 1, idx := 5 },
    .tcpf { h := h0, b := .g 1, id := 1, mask := 1, stride := 0 }, .tchalo { h := h0, edge := false, a := 1, b := .g 1, id := 1, w := 0 },
    .sgath { h := h0, n64 := false, d := 1, a := 1, b := 1, count := 0, roww := 1 },
    .sgath { h := h0, n64 := false, d := 1, a := 1, b := 1, count := 1, roww := 0 },
    .sred { h := h0, ty := .i32, d := 1, a := 1, count := 0, op := .add },
    .sred { h := h0, ty := .f32, d := 1, a := 1, count := 1, op := .and },
    .sconv { h := h0, d := 1, a := 1, b := 0, sf := 0, df := 0, rm := 0, count := 0 },
    .sconv { h := h0, d := 1, a := 1, b := 0, sf := 0, df := 0, rm := 5, count := 1 },
    .copy { h := h0, dims := .d3, d := 1, a := 1, b := 62, ch := 0 },
    .copyr { h := h0, dims := .d2, d := 1, a := 1, b := 63, ch := 0, die := 0, flag := 0 },
    .copyr { h := h0, dims := .d1, d := 1, a := 1, b := 1, ch := 0, die := 0, flag := 0x3F }] = true := by
  decide +kernel

/-- R355, R357, R363, R365, R367: types, S and destinations of the vector instructions. -/
theorem test_wf_vector_fields : refuses [
    .vadd { h := h0, sat := false, ty := .e4m3, d := 1, a := 1, b := 1 }, .vsub { h := h0, sat := true, ty := .f32, d := 1, a := 1, b := 1 },
    .vfma { h := h0, sat := true, ty := .f16, d := 1, a := 1, b := 1, c := 1 }, .vmin { h := h0, sat := true, ty := .i8, d := 1, a := 1, b := 1 },
    .vabs { h := h0, sat := false, ty := .n8, d := 1, a := 1 }, .vrcp { h := h0, sat := false, ty := .i32, d := 1, a := 1 },
    .vclass { h := h0, sat := true, ty := .f32, d := 1, a := 1 }, .vcvt { h := h0, src := .f32, dst := .f32, d := 1, a := 1, b := .g 0 },
    .vcmp { h := h0, cond := .un, ty := .i32, d := .vec 1, a := 1, b := 1 },
    .vcmp { h := h0, cond := .lt, ty := .i16, d := .pred 1, a := 1, b := 1 },
    .vshl { h := h0, sat := false, ty := .f32, d := 1, a := 1, b := 1 }, .vscan { h := h0, sat := true, ty := .f32, d := 1, a := 1 },
    .vperm { h := h0, sat := true, ty := .i8, d := 1, a := 1, b := 1 }] = true := by
  decide +kernel

/-- R384, R385, R388, R392, R398: subfields of the matrix instructions. -/
theorem test_wf_matrix_fields :
    let mma : MmaOps :=
      { h := h0, ty := .bf16, b := .g 0, sa := 0, sb := 1, accd := 0, accc := 0, z := false, ip := false, f := false, m := false, diag := 0 }
    let tern : MternOps := { h := h0, n8 := false, sa := 0, sb := 1, accd := 0, accc := 0, z := false, ip := false, m := false, diag := 0 }
    let mld : MldOps := { h := h0, sw := false, mode := .rows, a := 1, b := .g 0, slot := 0, span2 := false, zrows := 0 }
    refuses [.mma { mma with z := true, ip := true }, .mma { mma with ip := true, accc := 1 }, .mma { mma with diag := 1 },
      .mma { mma with b := .g 1 }, .mma { mma with ty := .i8, f := true }, .mma { mma with ty := .mx6, sa := 31 },
      .mtern { tern with z := true, accc := 1 }, .mtern { tern with sb := 31 },
      .mld { mld with mode := .scale, zrows := 1 }, .mld { mld with span2 := true, slot := 31 },
      .accst { h := h0, si := false, ty := .f32, a := 1, b := .g 1, acc := 0, rm := 6 },
      .accmov { h := h0, si := false, t := false, ty := .f32, acc := 0, rm := 0, slot := 0, ofs := false },
      .accmov { h := h0, si := false, t := false, ty := .bf16, acc := 0, rm := 0, slot := 0, ofs := true }] = true := by
  decide +kernel

/-! Decoding: words the spec writes out, and the instruction each stands for. -/

/-- A word, most significant first, on a core. -/
def reads (k : CoreKind) (w2 w1 w0 : BitVec 32) (i : Instr) : Bool := decide (decode k (wordOf w2 w1 w0) = .ok i)
def bad (k : CoreKind) (w2 w1 w0 : BitVec 32) (e : Illegal) : Bool := decide (decode k (wordOf w2 w1 w0) = .error e)

/-- The rows with a word end with FQUERY.strk, before the first event (spec/opcode_table.json). -/
theorem test_words (o : OneDst) (k : Nat) : (Instr.fqueryStrk o).isWord = true ∧ (Instr.matrixInstructionComplete k).isWord = false :=
  ⟨rfl, rfl⟩

/-- Chapter Core Scalar Instructions, offsets 0 to 156, and fadd to a remote mailbox of Encodings worked from the
fields. -/
theorem test_decode_scalar :
    reads .compute 0x05000100 0 0x0A (.movi { h := h0, d := .g 1, imm := 10 }) &&
    reads .host 0x00030202 0x01000000 0 (.add { h := h0, ty := .i64, d := .g 2, a := .g 2, b := .g 1, c := .g 0, imm := 0 }) &&
    reads .service 0x05400303 0 0x8 (.movhi { h := h0, d := .g 3, a := .g 3, imm := 8 }) &&
    reads .compute 0x04C30502 0x308 0 (.sel { h := h0, ty := .i64, d := .g 5, a := .g 2, b := .g 0, c := 1, imm := 0 }) &&
    reads .compute 0x04A36102 0 0x32 (.cmp { h := h0, cond := .gt, ty := .i64, p := 1, a := .g 2, b := .g 0, imm := 50 }) &&
    reads .compute 0x01030908 0 4 (.div { h := h0, ty := .i64, d := .g 9, a := .g 8, b := .g 0, imm := 4 }) &&
    reads .compute 0x01C3C009 0xA0 0 (.or { h := h0, ty := .i64, d := .xm 0 20, a := .g 9, b := .g 0, imm := 0 }) &&
    reads .host 0x01C31680 0xA0 0 (.or { h := h0, ty := .i64, d := .g 22, a := .m 0, b := .g 0, imm := 0 }) == false &&
    reads .host 0x01C31680 0 0 (.or { h := h0, ty := .i64, d := .g 22, a := .m 0, b := .g 0, imm := 0 }) &&
    reads .compute 0x11B00302 0 0 (.fcvt { h := h0, dst := .f32, src := .i64, d := .g 3, a := .g 2 }) &&
    reads .compute 0x1008C504 0x06000048 0 (.fadd { h := h0, ty := .f32, d := .xm 5 9, a := .g 4, b := .g 6 }) &&
    reads .compute 0x09000A01 0x09000000 0 (.cadd { h := h0, d := 10, a := 1, b := .g 9, imm := 0 }) &&
    reads .compute 0x0D400101 7 0xFFFFFFFD (.loop { h := h0, d := 1, a := 1, disp := -3 }) &&
    reads .compute 0x0C000000 0 6 (.br { h := h0, imm := 6 }) &&
    reads .compute 0x0DC0000C 0 0 (.endTask { h := h0, a := .g 12 }) = true := by
  decide +kernel

/-- The words of Encodings worked from the fields that are not instructions. -/
theorem test_decode_refused :
    bad .compute 0xF1400000 0 0 .unassigned && bad .service 0xC0C00000 0 0 .wrongKind &&
    bad .compute 0x00037C01 0 0 .badClass && bad .compute 0x10080102 0x03000800 0 .nonzeroReserved = true := by
  decide +kernel

/-- Chapter Core Memory and System Instructions, and the two programs with kernels in them. -/
theorem test_decode_memory_system :
    reads .compute 0x18020201 0 8 (.ld { h := h0, ty := .i32, d := .g 2, a := 1, off := 8 }) &&
    reads .compute 0x18470001 0x030007FF 0xFFFFFFF0 (.st { h := h0, ty := .n64, a := 1, b := .g 3, off := -16 }) &&
    reads .compute 0x1A260001 0x02000000 0 (.strel { h := h0, scope := .part, ty := .n32, a := 1, b := .g 2, off := 0 }) &&
    reads .compute 0x19E73325 0 0 (.ldacq { h := h0, scope := .part, ty := .n64, d := .g 51, a := 37, off := 0 }) &&
    reads .compute 0x1A5A0000 0 0 (.fence { h := h0, scope := .die, kind := .full }) &&
    reads .compute 0x1C470004 0x05000000 0 (.pst { h := h0, ty := .n64, a := 4, b := .g 5, off := 0 }) &&
    reads .compute 0x1C000001 0x02000043 0 (.amsg { h := h0, a := 1, b := .g 2, arg := 8, narg := 3 }) &&
    reads .compute 0x20400700 0 6 (.csrr { h := h0, d := .g 7, num := 6 }) &&
    reads .service 0x22080003 0 0 (.tlbinvPage { h := h0, size := .m2, a := .g 3 }) &&
    reads .host 0x21000009 0 0 (.eret { h := h0, kern := false, a := 9 }) &&
    reads .host 0x21C00000 0 0 (.halt { h := h0 }) = true := by
  decide +kernel

/-- Chapter Scheduler, and the chapter Synchronisation Engine. -/
theorem test_decode_tasks_sync :
    reads .compute 0x40000204 0 0 (.tspawn { h := h0, d := .g 2, a := 4 }) &&
    reads .compute 0x40400003 0x05000000 1 (.tsig { h := h0, a := 3, b := .g 5, dec := 1 }) &&
    reads .compute 0x41000300 0 1 (.fget { h := h0, d := .g 3, k := 1 }) &&
    reads .compute 0x41400000 0x04000000 2 (.fput { h := h0, b := .g 4, k := 2 }) &&
    reads .compute 0x41810901 0x07000000 0 (.tcontEnd { h := h0, d := .g 9, a := 1, b := .g 7 }) &&
    reads .compute 0x41C00901 0x02000052 0 (.trec { h := h0, d := .g 9, a := 1, b := .g 2, arg := 10, narg := 2 }) &&
    reads .compute 0x50030201 0x03000000 0x40000D80
      (.amo { h := h0, ty := .i64, d := .g 2, a := 1, b := .g 3, ofs := 8, cv := .g 0, ord := 3, scope := .die, op := .add }) &&
    reads .compute 0x50060401 0x05000000 0x00300007
      (.amo { h := h0, ty := .n32, d := .g 4, a := 1, b := .g 5, ofs := 0, cv := .g 6, ord := 0, scope := .ctx, op := .cas }) &&
    reads .compute 0x50480001 0x07000000 0xA08
      (.amor { h := h0, ty := .f32, a := 1, b := .g 7, ofs := 0, ord := 2, scope := .part, op := .fadd }) &&
    reads .compute 0x50800900 0 0x62 (.phnew { h := h0, d := .g 9, ctr := true, die := some 2 }) &&
    reads .compute 0x50C00809 0 3 (.phjoin { h := h0, d := .g 8, a := .g 9, role := .both }) = true := by
  decide +kernel

/-- Chapters Tile Cache and Stack Engines, and Copy Engine. -/
theorem test_decode_engines :
    reads .host 0x60000102 0 0 (.tcregAdd { h := h0, d := .g 1, a := 2 }) &&
    reads .compute 0x60410004 0x05000000 7 (.tclookWr { h := h0, a := 4, b := .g 5, id := 7 }) &&
    reads .compute 0x60800000 0x05000000 0x01050007 (.tcpf { h := h0, b := .g 5, id := 7, mask := 5, stride := 1 }) &&
    reads .compute 0x60C10006 0x05000000 0x00020007 (.tchalo { h := h0, edge := true, a := 6, b := .g 5, id := 7, w := 2 }) &&
    reads .compute 0x61020000 0 7 (.tcinvAll { h := h0, id := 7 }) &&
    reads .compute 0x68060203 0x04000004 0x00200000
      (.sgath { h := h0, n64 := false, d := 2, a := 3, b := 4, count := 16, roww := 8 }) &&
    reads .compute 0x68480203 0 0x04000000 (.sred { h := h0, ty := .f32, d := 2, a := 3, count := 64, op := .add }) &&
    reads .compute 0x68800203 0x04000108 0x80000800
      (.sconv { h := h0, d := 2, a := 3, b := 4, sf := 8, df := 0x11, rm := 0, count := 128 }) &&
    reads .compute 0x70010203 0x04000000 1 (.copy { h := h0, dims := .d2, d := 2, a := 3, b := 4, ch := 1 }) &&
    reads .compute 0x70400203 0x04000000 0x506
      (.copyr { h := h0, dims := .d1, d := 2, a := 3, b := 4, ch := 2, die := 1, flag := 0x0A }) &&
    reads .compute 0x70C40000 0 0x300 (.tlwait { h := h0, scope := .part, d := .g 0, b := .g 0, tl := 0, n := 3 }) &&
    reads .compute 0x71010700 0 3 (.tlrd { h := h0, iss := true, d := .g 7, tl := 3 }) = true := by
  decide +kernel

/-- Chapter Vector Engine, and the guarded, hinted vfma of Encodings worked from the fields. -/
theorem test_decode_vector :
    reads .compute 0x80C84341 0x42110220 0
      (.vfma { h := { guard := { neg := false, p := 2 }, hints := 0x10 }, sat := false, ty := .f32, d := 3, a := 1, b := 2, c := 4 }) &&
    reads .compute 0x80204541 0x42000000 0 (.vadd { h := h0, sat := true, ty := .i8, d := 5, a := 1, b := 2 }) &&
    reads .compute 0x83014643 0x04000000 0 (.vcvt { h := h0, src := .f32, dst := .bf16, d := 6, a := 3, b := .g 4 }) &&
    reads .compute 0x83586341 0x42000000 0 (.vcmp { h := h0, cond := .lt, ty := .f32, d := .pred 3, a := 1, b := 2 }) &&
    reads .compute 0x83804741 0x42A00318 0
      (.vsel { h := { guard := { neg := true, p := 4 }, hints := 0 }, d := 7, a := 1, b := 2, c := .pred 3 }) &&
    reads .compute 0x85080944 0x00280000 0 (.vredadd { h := { guard := { neg := false, p := 5 }, hints := 0 }, ty := .f32, d := .g 9, a := 4 }) &&
    reads .compute 0x88004102 0 0x100 (.vld { h := h0, d := 1, a := 2, off := 256 }) &&
    reads .compute 0x89020002 0x48000248 0x10 (.vscat { h := h0, sc := 2, a := 2, b := 8, c := 9, off := 16 }) &&
    reads .compute 0x89420542 0 7 (.vmovgGet { h := h0, ty := .i32, d := .g 5, a := 2, b := .g 0, imm := 7 }) = true := by
  decide +kernel

/-- Chapter Matrix Engine, and the two programs that use it. -/
theorem test_decode_matrix :
    reads .compute 0xC0000800 8 3 (.mclaim { h := h0, d := .g 8, a := 0, accm := 1, slotm := 3 }) &&
    reads .compute 0xC0860002 0x07000000 0x22
      (.mld { h := h0, sw := true, mode := .t16, a := 2, b := .g 7, slot := 2, span2 := true, zrows := 0 }) &&
    reads .compute 0xC0C90000 0x04000000 0x000E0020
      (.mma { h := h0, ty := .bf16, b := .g 4, sa := 0, sb := 1, accd := 0, accc := 0, z := false, ip := true, f := true, m := true, diag := 0 }) &&
    reads .compute 0xC1C90002 0x03000000 0 (.accst { h := h0, si := false, ty := .bf16, a := 2, b := .g 3, acc := 0, rm := 0 }) &&
    reads .compute 0xC21A0000 0 0xC0
      (.accmov { h := h0, si := false, t := true, ty := .f16, acc := 0, rm := 0, slot := 3, ofs := false }) &&
    reads .compute 0xC2400003 0 0 (.msave { h := h0, a := 3 }) = true := by
  decide +kernel

/-- Chapters Beacon Plane and Custody Record. -/
theorem test_decode_planes :
    reads .compute 0xE0010500 0x06000000 0x7A (.bcent { h := h0, nolate := true, d := .g 5, b := .g 6, cid := 0x7A }) &&
    reads .compute 0xE0400700 0 0x7A (.bclisten { h := h0, d := .g 7, cid := 0x7A }) &&
    reads .service 0xE0800800 0 0x000107A3 (.bcbindBind { h := h0, d := .g 8, lane := 3, cid := 0x7A, rot := true }) &&
    reads .host 0xE0830800 0 0x02000003 (.bcbindAssign { h := h0, d := .g 8, lane := 3, part := 2 }) &&
    reads .host 0xE8C00904 0x05000000 0 (.flend { h := h0, d := .g 9, a := .g 4, b := .g 5 }) &&
    reads .host 0xE9400904 0 0 (.fret { h := h0, d := .g 9, a := .g 4 }) &&
    reads .service 0xE8010904 0x05000000 0 (.fofferGrant { h := h0, d := .g 9, a := .g 4, b := .g 5 }) &&
    reads .host 0xE8000F0E 0 0 (.foffer { h := h0, d := .g 15, a := .g 14 }) &&
    reads .host 0xE880100E 0x00080000 0 (.fwithdraw { h := { guard := { neg := false, p := 1 }, hints := 0 }, d := .g 16, a := .g 14 }) &&
    reads .host 0xE9820A00 0 0 (.fqueryStrk { h := h0, d := .g 10 }) = true := by
  decide +kernel

/-! Single steps: a word that stands where the next instruction is fetched, general registers, and what the context
holds after the step. The results are the spec's own numbers. -/

def lone (g : Sparse Reg) (p : Sparse Word) (w2 w1 w0 : Nat) : State :=
  let s := (State.reset.withFetchWord 96 (w2 + w1 * 2 ^ 32 + w0 * 2 ^ 64)).modCtx 32768 fun x => { x with g := g, p := p }
  { s with agenda := [.issue 32768] }
def after (g : Sparse Reg) (w2 w1 w0 : Nat) (p : Sparse Word := []) : Context :=
  match step (lone g p w2 w1 w0) with
  | .next t => t.ctx 32768
  | _ => {}
def word (n : Int) : Reg := Reg.ofWord (BitVec.ofInt 64 n)

/-- Chapter Core Scalar Instructions, A worked program, offset 0 and the last pass of the loop: 54 and 1 make 55. -/
theorem test_step_add :
    let m := after [] 0x05000100 0 0x0A
    let x := after [(1, word 1), (2, word 54)] 0x00030202 0x01000000 0
    m.reg 1 = word 10 ∧ m.pc = 0x100C ∧ x.reg 2 = word 55 ∧ x.reg 1 = word 1 ∧ x.pc = 0x100C := by
  decide +kernel

/-- The same, LOOP: pass 9 branches to the ADD before it, pass 10 ends the loop. -/
theorem test_step_loop :
    let x := after [(1, word 2)] 0x0D400101 7 0xFFFFFFFD
    let y := after [(1, word 1)] 0x0D400101 7 0xFFFFFFFD
    x.reg 1 = word 1 ∧ x.pc = 0x0FF4 ∧ y.reg 1 = word 0 ∧ y.pc = 0x100C := by
  decide +kernel

/-- The same, FCVT of 55 and FMUL of 55.0 by itself: exact, no flag. -/
theorem test_step_float :
    let x := after [(2, word 55)] 0x11B00302 0 0
    let y := after [(3, word 0x425C0000)] 0x10880403 0x03000000 0
    x.reg 3 = word 0x425C0000 ∧ x.flags = 0 ∧ y.reg 4 = word 0x453D1000 ∧ y.flags = 0 := by
  decide +kernel

/-- The same, CMP of 55 and 50, and SEL of A by p1. -/
theorem test_step_compare :
    let x := after [(2, word 55)] 0x04A36102 0 0x32
    let y := after [(2, word 55)] 0x04C30502 0x308 0 [(1, BitVec.allOnes 64)]
    x.pred 1 = BitVec.allOnes 64 ∧ y.reg 5 = word 55 := by
  decide +kernel

/-- The same, DIV and REM of 55 and of -55 by 4. -/
theorem test_step_divide :
    (after [(2, word 55)] 0x01030602 0 4).reg 6 = word 13 ∧ (after [(2, word 55)] 0x01430702 0 4).reg 7 = word 3 ∧
    (after [(8, word (-55))] 0x01030908 0 4).reg 9 = word (-13) ∧ (after [(8, word (-55))] 0x01430A08 0 4).reg 10 = word (-3) := by
  decide +kernel

/-- R169's example: MULH of 2^63 and 4; .i64 is type 3 and .n64 type 7. -/
theorem test_step_mulh :
    (after [(1, word (2 ^ 63))] 0x00C70201 0 4).reg 2 = word 2 ∧ (after [(1, word (2 ^ 63))] 0x00C30201 0 4).reg 2 = word (-2) := by
  decide +kernel

/-- R171's example: SHR of 0x80 by 0; .i8 is type 0 and .n8 type 4. -/
theorem test_step_shift :
    (after [(1, word 0x80)] 0x02C00201 0 0).reg 2 = word (-128) ∧ (after [(1, word 0x80)] 0x02C40201 0 0).reg 2 = word 0x80 := by
  decide +kernel

/-! The capability worked in chapter Core State: base 0x40_0000_1000, top 0x40_0000_4000, ld and st, key 5. -/

def workedCap (cursor : Nat) : Reg := { bits := BitVec.ofNat 128 (0x0005000305000000 * 2 ^ 64 + cursor), tag := true }

theorem test_capability_fields :
    let c := (workedCap 0x4000002A00).cap
    c.base = 0x4000001000 ∧ c.top = 0x4000004000 ∧ c.perm = 3 ∧ c.key = 5 ∧ c.bad = false := by
  decide +kernel

/-- CADD: the sum outside the representable cursors is untagged, the last of them is not. -/
theorem test_step_capability :
    (after [(4, workedCap 0x4000002A00)] 0x09000504 0 0x3000).reg 5 = word 0x4000005A00 ∧
    (after [(4, workedCap 0x4000002A00)] 0x09000504 0 0x25FF).reg 5 = workedCap 0x4000004FFF := by
  decide +kernel

/-- R185's cases of CSETB: lengths 0x200 and 0x2001. -/
theorem test_step_bounds :
    (after [(4, workedCap 0x4000002A00), (6, word 0x200)] 0x08000504 0x06000000 0).reg 5 =
      { bits := BitVec.ofNat 128 (0x0005000301400C00 * 2 ^ 64 + 0x4000002A00), tag := true } ∧
    (after [(4, workedCap 0x4000001000), (6, word 0x2001)] 0x08000504 0x06000000 0).reg 5 =
      { bits := BitVec.ofNat 128 (0x0005000305001801 * 2 ^ 64 + 0x4000001000), tag := true } := by
  decide +kernel

/-! Formats: the blocks worked in chapter Number Formats, and R141's sums. -/

/-- MXFP4 of 12, -5, 1 and 0.2 (to 24 bits): scale 0x80, elements 6, -2, 0.5 and 0. -/
theorem test_mxfp4 :
    let r := encodeMx fE2m1 2 .rne ([.fin false 12 0, .fin true 5 0, .fin false 1 0, .fin false 13421773 (-26)] ++ List.replicate 28 (.fin false 0 0)) (List.replicate 32 false)
    r.1 = 0x80 ∧ r.2.1.take 5 = [7, 0xC, 1, 0, 0] ∧ r.2.2 = flagNX ||| flagUF := by
  decide +kernel

/-- GQ8 of 127, -63.5, 0.5, 1.5 and 2.5: scale 1.0. -/
theorem test_gq8 :
    let r := encodeGq fF32 127 .rne ([.fin false 127 0, .fin true 127 (-1), .fin false 1 (-1), .fin false 3 (-1), .fin false 5 (-1)] ++ List.replicate 59 (.fin false 0 0))
      (List.replicate 64 false)
    r.1 = 0x3F800000 ∧ r.2.1.take 6 = [127, -64, 0, 2, 2, 0] ∧ r.2.2 = flagNX := by
  decide +kernel

/-- R141's table: C and its products. -/
theorem test_dot_sums :
    dotSum [.fin false 1 0, .fin false 1 (-24), .fin false 1 (-24)] false = (0x3F800001, 0) ∧
    dotSum [.fin false 1 (-70), .fin false 1 0] false = (0x3F800000, flagNX) ∧
    dotSum [.fin false 1 0, .fin true 1 (-70), .fin false 1 (-24)] false = (0x3F800000, flagNX) ∧
    dotSum [.fin true 3 100, .fin false 3 100, .fin false 1 (-30)] false = (0x52800000, flagNX) := by
  decide +kernel

end Sys2Proof.Tests
end

