-- ==== Sys2Proof/Tests/Witness.lean ====
section
/-! SUPPORT. Small states for the witnesses, and checkers that decide the premises the statements share. -/

namespace Sys2Proof.Tests

set_option Elab.async false

open Sys2Proof Sys2Proof.Machine

/-- A context of a service core of CD0, of a host core of HD0, and of a compute core of CD0. -/
def svc : Nat := 2048
def hostCtx : Nat := 32768
def cmp : Nat := 0

/-- A decidable fact, which the kernel evaluates. -/
theorem sure {p : Prop} [Decidable p] (h : decide p = true := by decide +kernel) : p := of_decide_eq_true h

/-- A running context at a pc. -/
def runs : Context := { run := .running, pc := 0x1000 }

/-- The state after reset with one context acting. -/
def stand (c : Nat) (x : Context) : State := { State.reset.setCtx c x with up := true, cur := c }

/-- No guard and no hints. -/
def plain : Hdr := { guard := { neg := false, p := 0 }, hints := 0 }

def clearB (s : State) (h : Hdr) : Bool :=
  isContext s.cur && (s.ctx s.cur).outst == 0 && (fetchStop s s.cur).isNone && !(s.ctx s.cur).pendP h.guard.p &&
    (s.core (coreOf s.cur)).bridle.isNone

theorem clear_of {s : State} {h : Hdr} (b : clearB s h = true) : Clear s h := by
  simp only [clearB, Bool.and_eq_true, beq_iff_eq, Bool.not_eq_true', Option.isNone_iff_eq_none] at b
  obtain ⟨⟨⟨⟨b1, b2⟩, b3⟩, b4⟩, b5⟩ := b
  exact ⟨b1, b2, b3, b4, fun x hx => by rw [b5] at hx; cases hx⟩

theorem on_of {s : State} {h : Hdr} (b : (guardOf (s.ctx s.cur) h.guard).getLsbD 0 = true) : On s h := b

def loneB (s : State) : Bool := (s.core (coreOf s.cur)).bridle.isNone && (replayOf s s.cur).isNone

theorem lone_of {s : State} (b : loneB s = true) : Lone s := by
  simp only [loneB, Bool.and_eq_true, Option.isNone_iff_eq_none] at b
  exact ⟨b.1, b.2⟩

def readyB (s : State) (srcs : List Src) (d : Option Dst) : Bool :=
  !(s.ctx s.cur).pendSrc srcs && !(s.ctx s.cur).pendDst d &&
    (!blocking srcs d || (loneB s && operandsReady s s.cur srcs d && !givesWay s s.cur srcs d)) &&
    (!outward d || !s.unchecked s.cur) && !(s.die (coreDie (coreOf s.cur))).msgt.getLsbD 63

theorem ready_of {s : State} {srcs : List Src} {d : Option Dst} (b : readyB s srcs d = true) : Ready s srcs d := by
  simp only [readyB, Bool.and_eq_true, Bool.or_eq_true, Bool.not_eq_true'] at b
  obtain ⟨⟨⟨⟨b1, b2⟩, b3⟩, b4⟩, b5⟩ := b
  refine ⟨b1, b2, fun hb => ?_, fun ho => ?_, .inr b5⟩
  · rcases b3 with b3 | ⟨⟨l, r⟩, g⟩
    · rw [b3] at hb; cases hb
    · exact ⟨lone_of l, r, g⟩
  · rcases b4 with b4 | b4
    · rw [b4] at ho; cases ho
    · exact b4

/-- An instruction that may wait has its words, or takes them now. -/
def hasB (s : State) (srcs : List Src) (d : Option Dst) : Bool :=
  loneB s && ((s.ctx s.cur).held.isSome || readyB s srcs d) &&
    (!(s.ctx s.cur).held.isSome || operandsReady s s.cur [] d) && !(s.die (coreDie (coreOf s.cur))).msgt.getLsbD 63

theorem has_of {s : State} {srcs : List Src} {d : Option Dst} (b : hasB s srcs d = true) : Has s srcs d := by
  simp only [hasB, Bool.and_eq_true, Bool.or_eq_true, Bool.not_eq_true'] at b
  obtain ⟨⟨⟨b1, b2⟩, b3⟩, b4⟩ := b
  refine ⟨lone_of b1, b2.imp_right ready_of, fun h => ?_, .inr b4⟩
  rcases b3 with b3 | b3
  · rw [h] at b3; cases b3
  · exact b3

theorem known_of {s : State} {l : List (BitVec 6)} (b : (l.all fun i => !(s.ctx s.cur).pendG i) = true) : Known s l :=
  fun i hi => by simpa using List.all_eq_true.mp b i hi

theorem sound_of {g : Reg} (b : (g.tag && !g.cap.bad && g.cap.styp == 0) = true) : Sound g := by
  simp only [Bool.and_eq_true, Bool.not_eq_true', beq_iff_eq] at b
  exact ⟨b.1.1, b.1.2, b.2⟩

end Sys2Proof.Tests
end

