-- ==== Sys2Proof/Tests/WitnessScalar.lean ====
section
/-! SUPPORT. Witnesses: for each statement about steps, words and the scalar instructions, a state and operands that
meet each of its clauses' premises together. -/

namespace Sys2Proof.Tests

set_option Elab.async false

open Sys2Proof Sys2Proof.Machine

/-- A host context about to run `movi g1, 41`, the first word the spec works out. -/
def placed : State := State.reset.withFetchWord 96 0x000000290000000005000100
/-- The same with the context's turn on the agenda. -/
def placedTurn : State := { placed with agenda := [.issue hostCtx] }
/-- The same with the unassigned word 0xF140_0000 and with a pc that is no multiple of 4. -/
def placedBad : State :=
  { placedTurn with mem := Memory.writeAll [] ((bytesOf (tableWord 96 0xF1400000)).mapIdx fun i b => (0x1000 + i, b)) }
def placedOdd : State := placedTurn.setCtx hostCtx { placedTurn.ctx hostCtx with pc := 0x1002 }

theorem witness_StepKeepsMemory : Memory.wf placedTurn.mem = true ∧ ∃ t, step placedTurn = .next t :=
  ⟨sure, _, rfl⟩

theorem witness_StepRunsDecoded_issue :
    placedTurn.agenda = [.issue hostCtx] ∧ isContext hostCtx = true ∧ issues (placedTurn.ctx hostCtx).run = true ∧
      (placedTurn.ctx hostCtx).pend = [] ∧ (placedTurn.ctx hostCtx).request = none ∧ (placedTurn.ctx hostCtx).vq.length < 2 ∧
      (placedTurn.ctx hostCtx).spec = none ∧
      (placedTurn.ctx hostCtx).pc.toNat % 4 = 0 ∧ (placedTurn.ctx hostCtx).pc.toNat % 4096 ≤ 4084 ∧
      ∃ b, fetchPart { placedTurn with agenda := [], writes := [], cur := hostCtx } hostCtx (placedTurn.ctx hostCtx).pc 12 = .ok b ∧
        decodeBytes (kindOf hostCtx) b = .ok (.movi { h := plain, d := .g 1, imm := 41 }) := by
  refine ⟨rfl, sure, sure, sure, sure, sure, sure, sure,
    sure, _, rfl, sure⟩
theorem witness_StepRunsDecoded_refused :
    placedBad.agenda = [.issue hostCtx] ∧ (placedBad.ctx hostCtx).pc.toNat % 4 = 0 ∧
      (placedBad.ctx hostCtx).pc.toNat % 4096 ≤ 4084 ∧
      (∃ b, fetchPart { placedBad with agenda := [], writes := [], cur := hostCtx } hostCtx (placedBad.ctx hostCtx).pc 12 = .ok b ∧
        decodeBytes (kindOf hostCtx) b = .error .unassigned) ∧
      settled { placedBad with agenda := [], writes := [], cur := hostCtx } hostCtx = true ∧
      (placedOdd.ctx hostCtx).pc.toNat % 4 ≠ 0 ∧
      settled { placedOdd with agenda := [], writes := [], cur := hostCtx } hostCtx = true := by
  refine ⟨rfl, sure, sure, ⟨bytesOf (tableWord 96 0xF1400000), sure, sure⟩,
    sure, sure, sure⟩

theorem witness_StepRunsDecoded_fetch : (placed.ctx hostCtx).ident.custodian = true ∧ isHbm (0x1000 : Word).toNat = true ∧
    ∀ l ∈ lineAddrs (0x1000 : Word).toNat 12, readHeld placed hostCtx l = false ∧ poisoned placed l = false ∧
      (placed.die (dieOf hostCtx)).lost.getLsbD (homeDie placed l) = false ∧ sealBad placed l = false := by
  decide +kernel

theorem witness_StepRunsDecoded_idle : placed.agenda = [] ∧ placed.up = true ∧
    ∀ i ∈ candidates { placed with writes := [] }, moves { placed with writes := [] } i = false := by
  refine ⟨rfl, rfl, ?_⟩
  have h : (candidates { placed with writes := [] }).all (fun i => !moves { placed with writes := [] } i) = true := by
    decide +kernel
  exact fun i hi => by simpa using List.all_eq_true.mp h i hi

/-- An instruction with a word that is well formed: mma at the largest fields. -/
theorem witness_EncodeDecode :
    let i : Instr := .mma { h := { guard := { neg := true, p := 15 }, hints := 0x7F }, ty := .mx4, b := .m 31, sa := 31, sb := 31
                            accd := 7, accc := 7, z := false, ip := false, f := true, m := true, diag := 63 }
    i.isWord = true ∧ i.wellFormed = true := by
  decide +kernel

theorem witness_HardWiredRegisters : (63 : BitVec 6) ≠ 0 ∧ (15 : BitVec 4) ≠ 0 := by decide

/-! Scalar instructions. Operands in general registers, and in a queue, a port and a mailbox with the result to a
queue, on a compute core; and a result for a mailbox of the context's own core. -/

/-- A compute context at custodian level whose core holds two words in q7, one in n3, one in m31. -/
def wired : State :=
  (stand cmp { runs with ident := { custodian := true }, g := [(5, Reg.ofWord 7), (9, Reg.ofWord 0)] }).setCore 0
    { queues := [(7, [3, 4])], ports := [(3, [5])], mbox := [(31, some { w := 6 })] }

def addQ : Alu3 := { h := plain, ty := .i64, d := .q 0, a := .q 7, b := .n 3, c := .m 31, imm := -1 }
def addG : Alu3 := { h := plain, ty := .n8, d := .g 63, a := .g 5, b := .q 7, c := .q 7, imm := 1 }
def addX : Alu2 := { h := plain, ty := .i64, d := .xm 4 9, a := .g 5, b := .g 0, imm := 0 }

theorem witness_ArithmeticResults :
    (∃ f, arithForm (.add addQ) = some f ∧ Clear wired f.h ∧ On wired f.h ∧ (∀ p ∈ f.preds, (wired.ctx wired.cur).pendP p = false) ∧
      Ready wired f.srcs (some f.d) ∧ ∀ m k, f.d ≠ .xm m k) ∧
    (∃ f, arithForm (.sub addG) = some f ∧ Clear wired f.h ∧ On wired f.h ∧ Ready wired f.srcs (some f.d) ∧ ∀ m k, f.d ≠ .xm m k) ∧
    (∃ f target, arithForm (.or addX) = some f ∧ Clear wired f.h ∧ On wired f.h ∧ Ready wired f.srcs (some f.d) ∧
      f.d = .xm 4 9 ∧ MailReady wired 9 target) ∧
    (∃ f, divideForm (.div { addX with d := .g 1 }) = some f ∧ Clear wired f.h ∧ On wired f.h ∧ Ready wired f.srcs (some f.d)) := by
  refine ⟨⟨_, rfl, clear_of (by decide +kernel), on_of (by decide +kernel), nofun, ready_of (by decide +kernel), nofun⟩,
    ⟨_, rfl, clear_of (by decide +kernel), on_of (by decide +kernel), ready_of (by decide +kernel), nofun⟩,
    ⟨_, 0, rfl, clear_of (by decide +kernel), on_of (by decide +kernel), ready_of (by decide +kernel), rfl,
      ⟨sure, sure, sure⟩⟩,
    ⟨_, rfl, clear_of (by decide +kernel), on_of (by decide +kernel), ready_of (by decide +kernel)⟩⟩

theorem witness_ShiftAndSelectionResults :
    (∃ f, shiftForm (.rot { addX with d := .g 1 }) = some f ∧ Clear wired f.h ∧ On wired f.h ∧ Ready wired f.srcs (some f.d)) ∧
    (∃ f, selectForm (.sel { h := plain, ty := .i8, d := .n 1, a := .g 5, b := .g 0, c := 15, imm := 0 }) = some f ∧
      Clear wired f.h ∧ On wired f.h ∧ (∀ p ∈ f.preds, (wired.ctx wired.cur).pendP p = false) ∧ Ready wired f.srcs (some f.d)) := by
  refine ⟨⟨_, rfl, clear_of (by decide +kernel), on_of (by decide +kernel), ready_of (by decide +kernel)⟩,
    ⟨_, rfl, clear_of (by decide +kernel), on_of (by decide +kernel), sure, ready_of (by decide +kernel)⟩⟩

theorem witness_FloatingPointResults :
    ∃ f, fpForm (.fdiv { h := plain, ty := .f32, d := .g 0, a := .g 5, b := .m 31 }) = some f ∧ Clear wired f.h ∧ On wired f.h ∧
      (∀ p ∈ f.preds, (wired.ctx wired.cur).pendP p = false) ∧ Ready wired f.srcs (some f.d) := by
  refine ⟨_, rfl, clear_of (by decide +kernel), on_of (by decide +kernel), nofun, ready_of (by decide +kernel)⟩

theorem witness_PredicateResults :
    ∃ f, predForm (.cmp { h := plain, cond := .lt, ty := .i8, p := 15, a := .q 7, b := .g 5, imm := 0 }) = some f ∧ Clear wired f.h ∧
      On wired f.h ∧ (wired.ctx wired.cur).pendP f.p = false ∧ Ready wired f.srcs none := by
  refine ⟨_, rfl, clear_of (by decide +kernel), on_of (by decide +kernel), sure, ready_of (by decide +kernel)⟩

/-! Capabilities: g1 bounds 0 to 8191 with every permission, cursor 0x1000; g2 an authority at 15; g3 g1 sealed
with type 15; g4 malformed; g5 without sys. -/

def capR (perm styp key base top e addr : Nat) : Reg :=
  { tag := true, bits := BitVec.ofNat 128 (addr + 2 ^ 64 * (top + 2 ^ 13 * base + 2 ^ 26 * e) + 2 ^ 96 * perm + 2 ^ 108 * styp + 2 ^ 112 * key) }

def caps : Context :=
  { runs with
    ident := { custodian := true }
    g := [(1, capR 0xFFF 0 0 0 0x1FFF 0 0x1000), (2, capR 0xFFF 0 0 0 0x1FFF 0 15), (3, capR 0xFFF 15 0 0 0x1FFF 0 0x1000),
      (4, capR 0xFFF 0 0 0 0x1FFF 63 0x1000), (5, capR 0xBFF 0 0 0 0x1FFF 0 0x1000)] }
def capState : State := stand hostCtx caps
def capImm (a : BitVec 6) : CapImm := { h := plain, d := 63, a := a, b := .g 0, imm := 0 }
def capAuth (a : BitVec 6) : CapAuth := { h := plain, d := 63, a := a, b := 2 }

theorem witness_CapabilityResults :
    Clear capState plain ∧ On capState plain ∧ Known capState [1] ∧ Ready capState [.g 0] (some (.g 63)) ∧
    Sound ((capState.ctx capState.cur).reg 1) ∧ ((capState.ctx capState.cur).reg 1).cap.perm &&& permSys = permSys ∧
    ((capState.ctx capState.cur).reg 0).tag = false ∧
    Known capState [1, 2, 63] ∧ Authority ((capState.ctx capState.cur).reg 2) permSeal ∧
    1 ≤ ((capState.ctx capState.cur).reg 2).cap.addr ∧ ((capState.ctx capState.cur).reg 2).cap.addr ≤ 15 ∧
    Known capState [3, 2, 63] ∧ ((capState.ctx capState.cur).reg 3).tag = true ∧ ((capState.ctx capState.cur).reg 3).cap.bad = false ∧
    Authority ((capState.ctx capState.cur).reg 2) permUnseal ∧ ((capState.ctx capState.cur).reg 3).cap.styp ≠ 0 ∧
    ((capState.ctx capState.cur).reg 3).cap.styp.toNat = ((capState.ctx capState.cur).reg 2).cap.addr := by
  refine ⟨clear_of (by decide +kernel), on_of (by decide +kernel), known_of (by decide +kernel), ready_of (by decide +kernel),
    sound_of (by decide +kernel), sure, sure, known_of (by decide +kernel),
    ⟨sound_of (by decide +kernel), sure, sure, sure⟩, sure, sure,
    known_of (by decide +kernel), sure, sure,
    ⟨sound_of (by decide +kernel), sure, sure, sure⟩, sure, sure⟩

/-- CSETB of g1 to 4095 bytes from 0x1000, up to its top; and a tagged result of CSETP. -/
theorem witness_BoundsOnlyNarrow :
    (let o : CsetbOps := { h := plain, exact := true, d := 63, a := 1, b := .g 0, imm := 0xFFF }
     Clear capState o.h ∧ On capState o.h ∧ Known capState [o.a] ∧ Ready capState [o.b] (some (.g o.d)) ∧
      Sound ((capState.ctx capState.cur).reg o.a) ∧
      Narrows o.exact ((capState.ctx capState.cur).reg o.a).cap (secondWord capState o.b o.imm).toNat 0) ∧
    (let g := capR 0xFFF 0 0 0 0x1FFF 0 0x1000
     Sound g ∧ (g.withPerm (g.cap.perm &&& (1 : Word).setWidth 12)).tag = true ∧ (moved g 0).tag = true ∧
      ∃ r, setBounds false 1 g 0x1FFF = .ok r ∨ setBounds false 1 g 0xFFF = .ok r ∧ r.tag = true) := by
  refine ⟨⟨clear_of (by decide +kernel), on_of (by decide +kernel), known_of (by decide +kernel), ready_of (by decide +kernel),
    sound_of (by decide +kernel), ⟨sure, sure, sure, nofun, sure, sure⟩⟩,
    sound_of (by decide +kernel), sure, sure, ?_⟩
  exact ⟨(capR 0xFFF 0 0 0 0x1FFF 0 0x1000).withBnd 0x2001FFF, .inr ⟨sure, sure⟩⟩

theorem witness_CapabilityChecksInOrder :
    Clear capState plain ∧ On capState plain ∧ Known capState [0] ∧ Known capState [3] ∧ Known capState [4] ∧ Known capState [5] ∧
    Ready capState [.g 0] (some (.g 63)) ∧ settled capState capState.cur = true ∧
    ((capState.ctx capState.cur).reg 0).tag = false ∧
    (((capState.ctx capState.cur).reg 4).tag = true ∧ ((capState.ctx capState.cur).reg 4).cap.bad = true) ∧
    (((capState.ctx capState.cur).reg 3).tag = true ∧ ((capState.ctx capState.cur).reg 3).cap.bad = false ∧
      ((capState.ctx capState.cur).reg 3).cap.styp ≠ 0) ∧
    Sound ((capState.ctx capState.cur).reg 5) ∧ ((capState.ctx capState.cur).reg 5).cap.perm.getLsbD 10 = false := by
  refine ⟨clear_of (by decide +kernel), on_of (by decide +kernel), known_of (by decide +kernel), known_of (by decide +kernel),
    known_of (by decide +kernel), known_of (by decide +kernel), ready_of (by decide +kernel), sure, sure,
    sure, sure, sound_of (by decide +kernel), sure⟩

theorem witness_ControlTransfers :
    Clear capState plain ∧ On capState plain ∧ Ready capState [.g 1, .g 0] none ∧ Known capState [63] ∧ Known capState [1] ∧
    Known capState [1, 63] := by
  refine ⟨clear_of (by decide +kernel), on_of (by decide +kernel), ready_of (by decide +kernel), known_of (by decide +kernel),
    known_of (by decide +kernel), known_of (by decide +kernel)⟩

/-- Every outcome of an access: untagged g0, malformed g4, sealed g3; g1 sound, its permissions lacking nothing, an
address past its top, a misaligned one, a non-canonical one (the register g6, whose bounds reach it) and one that no
translation decides; and the same of an engine's operand, with a register still awaited. -/
def xlState : State :=
  stand svc { caps with
    ident := {}
    g := caps.g ++ [(6, capR 0xFFF 0 0 0 0x1FFF 51 0x8000000000000000)]
    vq := [{ gen := [(7, 0)] }] }

theorem witness_AccessChecksInOrder :
    let x := xlState.ctx xlState.cur
    let q := askLd .i64
    (x.reg 0).tag = false ∧ ((x.reg 4).tag = true ∧ (x.reg 4).cap.bad = true) ∧
    ((x.reg 3).tag = true ∧ (x.reg 3).cap.bad = false ∧ (x.reg 3).cap.styp ≠ 0) ∧
    (Sound (x.reg 5) ∧ (x.reg 5).cap.perm &&& permSys ≠ permSys) ∧
    (Sound (x.reg 1) ∧ (x.reg 1).cap.perm &&& q.perm = q.perm ∧
      ¬ ((x.reg 1).cap.base ≤ (x.low 1 + 4088).toNat ∧ (x.low 1 + 4088).toNat + q.n ≤ (x.reg 1).cap.top)) ∧
    ((x.reg 1).cap.base ≤ (x.low 1 + 4).toNat ∧ (x.low 1 + 4).toNat + q.n ≤ (x.reg 1).cap.top ∧ (x.low 1 + 4).toNat % q.align ≠ 0) ∧
    x.ident.custodian = false ∧
    (Sound (x.reg 6) ∧ (x.reg 6).cap.base ≤ (x.low 6).toNat ∧ (x.low 6).toNat + q.n ≤ (x.reg 6).cap.top ∧
      (x.low 6).toNat % q.align = 0 ∧ canonical (x.low 6) = false) ∧
    ((x.reg 1).cap.base ≤ (x.low 1 + 4080).toNat ∧ (x.low 1 + 4080).toNat + q.n ≤ (x.reg 1).cap.top ∧
      (x.low 1 + 4080).toNat % q.align = 0 ∧ canonical (x.low 1 + 4080) = true ∧
      tlbHit xlState xlState.cur (x.low 1 + 4080) q.kind = none) ∧
    x.pendG 7 = true ∧ x.pendG 1 = false := by
  refine ⟨sure, sure, sure, ⟨sound_of (by decide +kernel), sure⟩,
    ⟨sound_of (by decide +kernel), sure, sure⟩, sure, sure,
    ⟨sound_of (by decide +kernel), sure⟩, sure, sure, sure⟩

end Sys2Proof.Tests
end

