-- ==== Sys2Proof/Tests/WitnessCore.lean ====
section
/-! SUPPORT. Witnesses for the statements about memory, control, traps and the system instructions. -/

namespace Sys2Proof.Tests

set_option Elab.async false

open Sys2Proof Sys2Proof.Machine

/-! Loads and stores of a custodian context through g1; the line at 0x1400 is poisoned. -/

def memState : State := { capState with poison := [0x28] }

theorem witness_LoadsJoinTheOrderBuffer :
    Clear memState plain ∧ On memState plain ∧ Lone memState ∧ Known memState [1, 63] ∧
    (∃ a, Grants memState 1 0 (askLd .n64) a) ∧ (∃ a, Grants memState 1 0x0FFE (askLd .i8) a) ∧
    (∃ a, Grants memState 1 0 askLdc a) ∧ (∃ a, Grants memState 1 0x0FC0 askLdtg a) := by
  refine ⟨clear_of (by decide +kernel), on_of (by decide +kernel), lone_of (by decide +kernel), known_of (by decide +kernel),
    ⟨{ ea := 0x1000, pa := 0x1000, n := 8 }, ?_⟩, ⟨{ ea := 0x1FFE, pa := 0x1FFE, n := 1 }, ?_⟩,
    ⟨{ ea := 0x1000, pa := 0x1000, n := 16 }, ?_⟩, ⟨{ ea := 0x1FC0, pa := 0x1FC0, n := 32 }, ?_⟩⟩ <;>
  · unfold Grants; decide +kernel

/-- A load to a queue, waiting for its word and given it. -/
def givenState : State :=
  memState.modCtx memState.cur fun x => { x with run := .blocked (.load false (.q 7)) 0, sent := true, reply := some (.ok 5) }

theorem witness_LoadsJoinTheOrderBuffer_direct :
    Direct (.q 7) ∧ Known memState [1] ∧ Ready memState [] (some (.q 7)) ∧
    (∃ a, Grants memState 1 0 (askLd .n64) a) ∧ (∃ a, Grants memState 1 0 askLdtg a) ∧
    (∀ v e n, (memState.ctx memState.cur).run ≠ .blocked (.load v e) n) ∧
    Clear givenState plain ∧ On givenState plain ∧ Lone givenState ∧ Given givenState (.q 7) false 5 ∧
    Ready givenState [] (some (.q 7)) := by
  refine ⟨.inl ⟨7, rfl⟩, known_of (by decide +kernel), ready_of (by decide +kernel), ⟨{ ea := 0x1000, pa := 0x1000, n := 8 }, ?_⟩,
    ⟨{ ea := 0x1000, pa := 0x1000, n := 32 }, ?_⟩, nofun, clear_of (by decide +kernel), on_of (by decide +kernel),
    lone_of (by decide +kernel), ⟨⟨0, sure⟩, sure⟩, ready_of (by decide +kernel)⟩ <;>
  · unfold Grants; decide +kernel

theorem witness_StoresJoinTheOrderBuffer :
    Clear memState plain ∧ On memState plain ∧ Lone memState ∧ Known memState [1] ∧ Known memState [1, 3] ∧
    Ready memState [.g 5] none ∧ (∃ a, Grants memState 1 0 (askStore .n32) a) ∧
    (∃ a, access (lobPush memState memState.cur (.fence .rel .part)) memState.cur 1 ((0 : BitVec 43).signExtend 64) (askStore .n32) = .ok a) ∧
    (∃ a, Grants memState 1 0 (askStc ((memState.ctx memState.cur).reg 3).tag) a ∧ StaysInside ((memState.ctx memState.cur).reg 3) a) ∧
    (∃ a, Grants memState 1 0 askSttg a) ∧ (∃ a, Grants memState 1 0 (askPost .n64) a) ∧ FreeSlot memState 0 := by
  refine ⟨clear_of (by decide +kernel), on_of (by decide +kernel), lone_of (by decide +kernel), known_of (by decide +kernel),
    known_of (by decide +kernel), ready_of (by decide +kernel), ⟨{ ea := 0x1000, pa := 0x1000, n := 4 }, ?_⟩,
    ⟨{ ea := 0x1000, pa := 0x1000, n := 4 }, sure⟩,
    ⟨{ ea := 0x1000, pa := 0x1000, n := 16 }, ?_, fun _ _ => by decide +kernel⟩,
    ⟨{ ea := 0x1000, pa := 0x1000, n := 32 }, ?_⟩, ⟨{ ea := 0x1000, pa := 0x1000, n := 8 }, ?_⟩,
    by decide, sure, fun i h => absurd h (by omega)⟩ <;>
  · unfold Grants; decide +kernel

/-- Two journal entries stand, the last slot free: PST's journal search, at the last of them. -/
theorem witness_StoresJoinTheOrderBuffer_lastSlot :
    let s := memState.setCore 4096 { journal := (List.range 31).map fun i => (i, { state := 1 }) }
    FreeSlot s 31 := by
  refine ⟨by decide, sure, ?_⟩
  intro i h
  have : ∀ i : Fin 31, (Sparse.get {} ((memState.setCore 4096 { journal := (List.range 31).map fun i => (i, { state := 1 }) }).core
    (coreOf memState.cur)).journal i.val : JEntry).state ≠ 0 := by decide +kernel
  exact this ⟨i, h⟩

/-- A context of a compute core at task level with g10 = 31, g11 = 32 and mailbox 31 present, and masks for it. -/
def waitState : State :=
  (stand cmp { runs with g := [(10, Reg.ofWord 31), (11, Reg.ofWord 32), (12, Reg.ofWord 0x80000000), (13, Reg.ofWord 0x80000001)] }).setCore 0
    { mbox := [(31, some { w := 6 })] }

theorem witness_FencesJournalAndMailboxWaits :
    Clear waitState plain ∧ On waitState plain ∧ Lone waitState ∧ Ready waitState [.g 10] (some (.g 1)) ∧
    Ready waitState [.g 11] (some (.g 1)) ∧ Has waitState [.g 12] (some (.g 1)) ∧ Has waitState [.m 31] (some (.g 1)) ∧
    (Dst.g 1).local = true ∧
    (srcWord waitState [] (.g 10)).toNat < 32 ∧ 32 ≤ (srcWord waitState [] (.g 11)).toNat ∧ settled waitState waitState.cur = true ∧
    (srcWord waitState [] (.g 0)).toNat % 2 ^ 32 = 0 ∧
    presentIn waitState &&& (srcWord waitState [] (.g 12)).toNat % 2 ^ 32 ≠ 0 ∧
    presentIn waitState &&& (srcWord waitState [] (.g 12)).toNat % 2 ^ 32 = (srcWord waitState [] (.g 12)).toNat % 2 ^ 32 ∧
    ¬ ((srcWord waitState [] (.g 13)).toNat % 2 ^ 32 = 0 ∨
      presentIn waitState &&& (srcWord waitState [] (.g 13)).toNat % 2 ^ 32 = (srcWord waitState [] (.g 13)).toNat % 2 ^ 32) := by
  refine ⟨clear_of (by decide +kernel), on_of (by decide +kernel), lone_of (by decide +kernel), ready_of (by decide +kernel),
    ready_of (by decide +kernel), has_of (by decide +kernel), has_of (by decide +kernel), by decide, sure,
    sure, sure, sure, sure, sure, sure⟩

/-- AMSG through g1 to die 0 (g0), with the four argument registers g60 to g63. -/
theorem witness_ActiveMessageLeaves :
    let o : AmsgOps := { h := plain, a := 1, b := .g 0, arg := 60, narg := 4 }
    let x := memState.ctx memState.cur
    Clear memState o.h ∧ On memState o.h ∧ Lone memState ∧ Known memState [o.a] ∧ Ready memState [o.b] none ∧
    Sound (x.reg o.a) ∧ (x.reg o.a).cap.perm &&& 0x204 = 0x204 ∧ (x.reg o.a).cap.base ≤ (x.low o.a).toNat ∧
    (x.low o.a).toNat + 12 ≤ (x.reg o.a).cap.top ∧ (x.low o.a).toNat % 4 = 0 ∧
    amsgDie memState x.ident (srcWord memState [] o.b) = some 0 ∧
    Known memState ((List.range o.narg.toNat).map fun j => BitVec.ofNat 6 (o.arg.toNat + j)) ∧
    released memState memState.cur .part = true ∧ (∀ m, o.b ≠ .m m) ∧ (∀ n, o.b ≠ .n n) ∧ (∀ q, o.b ≠ .q q) := by
  refine ⟨clear_of (by decide +kernel), on_of (by decide +kernel), lone_of (by decide +kernel), known_of (by decide +kernel),
    ready_of (by decide +kernel), sound_of (by decide +kernel), sure, sure, sure,
    sure, sure, known_of (by decide +kernel), sure, nofun, nofun, nofun⟩

def off : Hdr := { guard := { neg := true, p := 0 }, hints := 0 }

def kernState : State := stand hostCtx { caps with level := .kernel }

/-- A scalar, a kernel and a vector instruction whose guard is ?!p0. -/
theorem witness_FalseGuardRetires :
    (∃ f, (Instr.add { addG with h := off }).fields = some f ∧ Clear memState f.hdr ∧ f.kernel = false ∧ f.vector = false ∧
      (guardOf (memState.ctx memState.cur) f.hdr.guard).getLsbD 0 = false) ∧
    (∃ f, (Instr.halt { h := off }).fields = some f ∧ Clear kernState f.hdr ∧ f.kernel = true ∧
      (kernState.ctx kernState.cur).level ≠ .task ∧ (guardOf (kernState.ctx kernState.cur) f.hdr.guard).getLsbD 0 = false) ∧
    (∃ f, (Instr.vand { h := off, d := 1, a := 2, b := 3 }).fields = some f ∧ Clear memState f.hdr ∧ f.vector = true ∧
      guardOf (memState.ctx memState.cur) f.hdr.guard = 0) := by
  refine ⟨⟨_, rfl, clear_of (by decide +kernel), sure, sure, sure⟩,
    ⟨_, rfl, clear_of (by decide +kernel), sure, sure, sure⟩,
    ⟨_, rfl, clear_of (by decide +kernel), sure, sure⟩⟩

/-- A context with something older outstanding: a load not yet performed. -/
def busyState : State :=
  stand hostCtx { caps with lob := [{ id := 0, op := .load [{ ea := 0x1000, pa := 0x1000, n := 8 }] (.scalar 9 .n64) }], nextId := 1 }

theorem witness_InstructionsThatTrap :
    Clear memState plain ∧ On memState plain ∧ Settled memState ∧
    Clear busyState plain ∧ On busyState plain ∧ (busyState.core (coreOf busyState.cur)).bridle = none ∧ ¬ Settled busyState ∧
    ∃ f, (Instr.halt { h := off }).fields = some f ∧ f.kernel = true ∧ (memState.ctx memState.cur).level = .task ∧
      (memState.ctx memState.cur).outst = 0 := by
  refine ⟨clear_of (by decide +kernel), on_of (by decide +kernel), by unfold Settled; decide +kernel, clear_of (by decide +kernel),
    on_of (by decide +kernel), sure, by unfold Settled; decide +kernel, _, rfl, sure, sure,
    sure⟩

/-- A host die with both entries set, and its context at each level; a claimed task with a breakpoint. -/
def entered (l : Level) : State :=
  (stand hostCtx { runs with level := l, task := some { gti := 5 } }).modDie 8 fun d => { d with centry := 0x40, kentry := [(0, 0x80)] }

theorem witness_TrapsInPlace :
    kindOf hostCtx ≠ .compute ∧ ((entered .task).ctx hostCtx).level = .task ∧
    ¬ ((0x0B : BitVec 8) = 0x0F ∧ (claimOf (entered .task) ((entered .task).ctx hostCtx)).isSome = true) ∧
    Sparse.get 0 ((entered .task).die (dieOf hostCtx)).kentry ((entered .task).ctx hostCtx).ident.vf.toNat = 0x80 ∧ (0x80 : Word) ≠ 0 ∧
    ((entered .kernel).ctx hostCtx).level = .kernel ∧ ((entered .kernel).die (dieOf hostCtx)).centry ≠ 0 := by
  decide +kernel

theorem witness_TrapsThatStop :
    (kindOf cmp = .compute ∧ (waitState.ctx cmp).level = .task ∧
      ¬ ((0x0F : BitVec 8) = 0x0F ∧ (claimOf waitState (waitState.ctx cmp)).isSome = true)) ∧
    (let s := (entered .task).modPart 255 fun p => { p with claims := [(0, { gti := 5, b := 0x8000000000000000 })] }
     (s.ctx hostCtx).level = .task ∧ (claimOf s (s.ctx hostCtx)).isSome = true) ∧
    kindOf hostCtx ≠ .compute ∧ ((entered .custodian).ctx hostCtx).level = .custodian := by
  decide +kernel

/-- A core of HD0 that belongs to partition 1, with the partition READY or not. -/
def owned (l : Level) (ready : Bool) : State :=
  let s := (stand hostCtx { caps with level := l, ident := { custodian := l == .custodian, part := 1 } }).modPart 1 fun p =>
    { p with en := true, ready := ready }
  { s with sec := { s.sec with hcmap := [(4096, 1)] } }

theorem witness_EretLowersTheLevel :
    (Clear (owned .custodian true) plain ∧ On (owned .custodian true) plain ∧
      ((owned .custodian true).ctx hostCtx).level ≠ .task ∧ (lowered true).code < ((owned .custodian true).ctx hostCtx).level.code ∧
      partOfCore (owned .custodian true) (coreOf hostCtx) ≠ 0xFF ∧
      ((owned .custodian true).part (partOfCore (owned .custodian true) (coreOf hostCtx)).toNat).ready = true ∧
      Known (owned .custodian true) [63] ∧ Fenced (owned .custodian true) .core) ∧
    (Clear (owned .kernel true) plain ∧ On (owned .kernel true) plain ∧ Settled (owned .kernel true) ∧
      ((owned .kernel true).ctx hostCtx).level.code ≤ (lowered true).code) ∧
    (Clear (owned .custodian false) plain ∧ On (owned .custodian false) plain ∧ Settled (owned .custodian false) ∧
      ((owned .custodian false).ctx hostCtx).level = .custodian ∧ partOfCore (owned .custodian false) (coreOf hostCtx) ≠ 0xFF ∧
      ((owned .custodian false).part (partOfCore (owned .custodian false) (coreOf hostCtx)).toNat).ready = false) := by
  refine ⟨⟨clear_of (by decide +kernel), on_of (by decide +kernel), sure, sure, sure,
      sure, known_of (by decide +kernel), by unfold Fenced; decide +kernel⟩,
    ⟨clear_of (by decide +kernel), on_of (by decide +kernel), by unfold Settled; decide +kernel, sure⟩,
    ⟨clear_of (by decide +kernel), on_of (by decide +kernel), by unfold Settled; decide +kernel, sure,
      sure, sure⟩⟩

/-- A task on a host core with a free area and g1 over its record, its status in g10 and a malformed one in g11. -/
def tasked : State :=
  (stand hostCtx { caps with
    ident := { part := 1 }, task := some { gti := 5 }
    g := caps.g ++ [(10, Reg.ofWord 0xFFFF), (11, Reg.ofWord 0x10000)] }).modDie 8 fun d => { d with pools := [(0, { en := true, n := 1 })] }
def engaged : State := { tasked with tls := [(11 * 8 + 6, { issued := 1, count := 1 })] }

theorem enginesDone_of {s : State}
    (b : ((List.range 7).all fun tl => (s.tline (tlOwner s s.cur) tl).done == (s.tline (tlOwner s s.cur) tl).count) = true) :
    EnginesDone s := fun tl h => by simpa using List.all_eq_true.mp b tl (List.mem_range.mpr h)

theorem witness_TasksGiveUpOrEnd :
    Clear tasked plain ∧ On tasked plain ∧ Lone tasked ∧ released tasked tasked.cur .part = true ∧ Yields tasked ∧ ¬ Yields memState ∧
    Ready tasked [.g 10] none ∧ EnginesDone tasked ∧ Clear engaged plain ∧ On engaged plain ∧ Lone engaged ∧
    released engaged engaged.cur .part = true ∧ ¬ EnginesDone engaged := by
  refine ⟨clear_of (by decide +kernel), on_of (by decide +kernel), lone_of (by decide +kernel), sure,
    by unfold Yields; decide +kernel, by unfold Yields; decide +kernel, ready_of (by decide +kernel), enginesDone_of (by decide +kernel),
    clear_of (by decide +kernel), on_of (by decide +kernel), lone_of (by decide +kernel), sure,
    fun h => absurd (h 6 (by decide)) (by decide +kernel)⟩

theorem witness_TasksGiveUpOrEnd_sysc :
    let x := tasked.ctx tasked.cur
    Known tasked [1] ∧ Known tasked (argList 58 6) ∧ Sound (x.reg 1) ∧ (x.reg 1).cap.perm &&& 0x003 = 0x003 ∧
    (x.reg 1).cap.base ≤ (x.low 1).toNat ∧ (x.low 1).toNat + 128 ≤ (x.reg 1).cap.top ∧ (x.low 1).toNat % 128 = 0 ∧
    (srcWord tasked [] (.g 10)).toNat < 2 ^ 16 ∧ (Sparse.get [] (tasked.die (dieOf tasked.cur)).service (vfKey x.ident)).length < serviceMax ∧
    Ready tasked [.g 11] none ∧ 2 ^ 16 ≤ (srcWord tasked [] (.g 11)).toNat ∧ Settled tasked ∧ tasked.heldTaken = tasked := by
  refine ⟨known_of (by decide +kernel), known_of (by decide +kernel), sound_of (by decide +kernel), sure, sure,
    sure, sure, sure, sure, ready_of (by decide +kernel), sure,
    by unfold Settled; decide +kernel, sure⟩

/-- The same task with a word in queue 1, before END has taken it and after. -/
def queuedTask : State := tasked.modCore (coreOf tasked.cur) fun k => { k with queues := [(1, [7])] }
def heldTask : State := tasked.modCtx tasked.cur fun x => { x with held := some [(.q 1, { w := 7 })] }
/-- Its virtual function's service queue is full. -/
def fullTask : State := tasked.modDie (dieOf tasked.cur) fun d => { d with
  service := [(vfKey (tasked.ctx tasked.cur).ident, List.replicate serviceMax (.sysc 0 {} 0 0 []))] }

theorem ending_of {s : State} {a : Src}
    (b : (loneB s && (((List.range 7).all fun tl => (s.tline (tlOwner s s.cur) tl).done == (s.tline (tlOwner s s.cur) tl).count) &&
      (released s s.cur .part && (!(s.die (coreDie (coreOf s.cur))).msgt.getLsbD 63 && settled s s.cur)))) = true)
    (w : (s.ctx s.cur).held.isSome = true ∨ ∃ i, a = .g i ∧ (s.ctx s.cur).pendG i = false) : Ending s a := by
  simp only [Bool.and_eq_true, Bool.not_eq_true'] at b
  exact ⟨⟨lone_of b.1, enginesDone_of b.2.1, w, b.2.2.1, .inr b.2.2.2.1⟩, b.2.2.2.2⟩

theorem witness_TasksGiveUpOrEnd_words :
    (Clear queuedTask plain ∧ On queuedTask plain ∧ EnginesDone queuedTask ∧ (queuedTask.ctx queuedTask.cur).held = none ∧
      blocking [.q 1] none = true ∧ Ready queuedTask [.q 1] none) ∧
    Ending tasked (.g 10) ∧ Ending tasked (.g 11) ∧ Ending heldTask (.q 1) ∧ Clear heldTask plain ∧ Ending fullTask (.g 10) ∧
    serviceMax ≤ (Sparse.get [] (fullTask.die (dieOf fullTask.cur)).service (vfKey (fullTask.ctx fullTask.cur).ident)).length ∧
    (arg (tasked.words [.g 10]) 0).toNat < 2 ^ 16 ∧ 2 ^ 16 ≤ (arg (tasked.words [.g 11]) 0).toNat := by
  refine ⟨⟨clear_of (by decide +kernel), on_of (by decide +kernel), enginesDone_of (by decide +kernel), sure,
      by decide, ready_of (by decide +kernel)⟩,
    ending_of (by decide +kernel) (.inr ⟨10, rfl, sure⟩), ending_of (by decide +kernel) (.inr ⟨11, rfl, sure⟩),
    ending_of (by decide +kernel) (.inl (by decide +kernel)), clear_of (by decide +kernel),
    ending_of (by decide +kernel) (.inr ⟨10, rfl, sure⟩), sure, sure, sure⟩

/-- FLAGS at task level; KBANK TRAPCAUSE below and at kernel level; TAGSHADOW's level for a write. -/
theorem witness_ControlRegisters :
    Clear tasked plain ∧ On tasked plain ∧ Lone tasked ∧ Ready tasked [] (some (.g 63)) ∧ Ready tasked [.g 10] none ∧ (Dst.g 63).local = true ∧
    csrReadLevel 0 = some 0 ∧ 0 ≤ (tasked.ctx tasked.cur).level.code ∧ CsrKnown tasked 0 ∧
    csrReadLevel 0x10F = some 1 ∧ (tasked.ctx tasked.cur).level.code < 1 ∧ Settled tasked ∧
    csrWriteLevel 2 ≤ (tasked.ctx tasked.cur).level.code ∧ CsrKnown tasked 2 ∧ (tasked.ctx tasked.cur).level.code < csrWriteLevel 0x20 := by
  refine ⟨clear_of (by decide +kernel), on_of (by decide +kernel), lone_of (by decide +kernel), ready_of (by decide +kernel),
    ready_of (by decide +kernel), by decide, by decide, sure, fun _ => by decide +kernel, by decide, sure,
    by unfold Settled; decide +kernel, sure, nofun, sure⟩

/-- FLAGS waits for a vector instruction of the context. -/
theorem witness_ControlRegisters_waits : Clear xlState plain ∧ On xlState plain ∧ ¬ CsrKnown xlState 0 := by
  refine ⟨clear_of (by decide +kernel), on_of (by decide +kernel), fun h => ?_⟩
  exact absurd (h rfl).1 (by decide +kernel)

/-- A latch with bits set and one without, a deadline that has come and one to come, and no deadline. -/
def latched (n : BitVec 5) (run : RunState) (l : Level) : State :=
  { stand hostCtx { caps with latch := n, run := run, level := l } with time := 1000 }

theorem witness_WaitsAndHalts :
    let past := latched 0 (.blocked (.wfe (some 1000)) 0) .task
    let next := latched 0 (.blocked (.wfe (some 1001)) 0) .task
    let never := latched 0 .running .task
    (Clear (latched 1 .running .task) plain ∧ On (latched 1 .running .task) plain ∧ Lone (latched 1 .running .task) ∧
      Ready (latched 1 .running .task) [.g 10] (some (.g 1)) ∧ ((latched 1 .running .task).ctx hostCtx).latch ≠ 0) ∧
    (Clear past plain ∧ Ready past [.g 0] (some (.g 1)) ∧ (past.ctx past.cur).latch = 0 ∧ deadlinePast past (wfeDeadline past 0)) ∧
    (Clear next plain ∧ Ready next [.g 0] (some (.g 1)) ∧ ¬ deadlinePast next (wfeDeadline next 0)) ∧
    (Clear never plain ∧ Ready never [.g 0] (some (.g 1)) ∧ ¬ deadlinePast never (wfeDeadline never 0)) ∧
    (Clear (latched 0x10 .running .kernel) plain ∧ On (latched 0x10 .running .kernel) plain ∧
      ((latched 0x10 .running .kernel).ctx hostCtx).level ≠ .task ∧ Fenced (latched 0x10 .running .kernel) .core ∧
      ((latched 0x10 .running .kernel).ctx hostCtx).latch.getLsbD 4 = true) ∧
    atCheckpoint never never.cur = true := by
  refine ⟨⟨clear_of (by decide +kernel), on_of (by decide +kernel), lone_of (by decide +kernel), ready_of (by decide +kernel),
      sure⟩,
    ⟨clear_of (by decide +kernel), ready_of (by decide +kernel), sure, 1000, sure, sure⟩,
    ⟨clear_of (by decide +kernel), ready_of (by decide +kernel), ?_⟩, ⟨clear_of (by decide +kernel), ready_of (by decide +kernel), ?_⟩,
    ⟨clear_of (by decide +kernel), on_of (by decide +kernel), sure, by unfold Fenced; decide +kernel, sure⟩,
    sure⟩
  · rintro ⟨t, h, l⟩
    have h' : (some 1001 : Option Nat) = some t := h
    cases h'
    exact absurd l (by decide +kernel)
  · rintro ⟨t, h, -⟩
    have h' : (none : Option Nat) = some t := h
    cases h'

/-- WFE waits with the word it took from queue 1. -/
def heldWait : State := (latched 0 (.blocked (.wfe (some 1001)) 0) .task).modCtx hostCtx fun x => { x with held := some [(.q 1, { w := 7 })] }

theorem witness_WaitsAndHalts_held :
    Clear heldWait plain ∧ Has heldWait [.q 1] (some (.g 1)) ∧ (heldWait.ctx heldWait.cur).held.isSome = true ∧
    (heldWait.ctx heldWait.cur).latch = 0 ∧ ¬ deadlinePast heldWait (wfeDeadline heldWait (arg (heldWait.words [.q 1]) 0)) := by
  refine ⟨clear_of (by decide +kernel), has_of (by decide +kernel), sure, sure, ?_⟩
  rintro ⟨t, h, l⟩
  have h' : (some 1001 : Option Nat) = some t := h
  cases h'
  exact absurd l (by decide +kernel)

/-- BANKCFG of cluster 15: g10 the mask of banks 0 to 3, g11 a mask of more than 32 bits, g12 cluster 15, g13 16;
with a FIFO of an actor in bank 0, and with banks 0 to 3 in scratch mode and an atomic on its way to bank 0. -/
def banks : State :=
  stand svc { runs with level := .kernel, ident := { part := 1 }, g := [(10, Reg.ofWord 0xF), (11, Reg.ofWord 0x100000000), (12, Reg.ofWord 15), (13, Reg.ofWord 16), (14, Reg.ofWord 1)] }
def banksFifo : State :=
  { banks with actors := [(0, some { task := { member := some (0, 0) }, cluster := 15, live := true, ins := [some { bank := 0, size := 4, rate := 1 }] })] }
def banksBusy : State :=
  { setModes banks 15 (fun b => if b < 4 then .scratch else .cache) with
    net := [(0, .atomic { c := 0, ident := {}, ty := .i64, op := .add, ea := 0, pa := 2 ^ 48 + 15 * 2 ^ 21, b := 0, cv := 0, dst := none, engine := 0 })]
    next := 1 }

theorem witness_BankModes :
    Clear banks plain ∧ On banks plain ∧ (banks.ctx banks.cur).level ≠ .task ∧ Ready banks [.g 10, .g 12] none ∧ Settled banks ∧
    kindOf banks.cur ≠ .host ∧ 2 ^ 32 ≤ (srcWord banks [] (.g 11)).toNat ∧ 15 < (srcWord banks [.g 10] (.g 13)).toNat ∧
    (srcWord banks [] (.g 10)).toNat < 2 ^ 32 ∧ (srcWord banks [.g 10] (.g 12)).toNat ≤ 15 ∧
    (let new := newModes banks (bankCluster banks 15) (0x1 % 2 ^ 32) .scratch
     scratchCount new ∉ [0, 4, 8, 16, 32]) ∧
    (let new := newModes banks (bankCluster banks 15) (0xF % 2 ^ 32) .scratch
     scratchCount new ∈ [0, 4, 8, 16, 32] ∧ (∃ b, b < 32 ∧ bankMode banks (bankCluster banks 15) b ≠ new b) ∧
      banksIdle banks (bankCluster banks 15) (bankChanges banks 15 0xF .scratch) (bankFirst banks 15 0xF .scratch) = true) ∧
    (let new := newModes banks (bankCluster banks 15) (0xF % 2 ^ 32) .cache
     ∀ b, b < 32 → bankMode banks (bankCluster banks 15) b = new b) ∧
    fifoHeld banksFifo 15 0 = true ∧ Clear banksBusy plain ∧ Ready banksBusy [.g 10, .g 12] none ∧
    (scratchCount (newModes banksBusy 15 0xF .cache) ∈ [0, 4, 8, 16, 32] ∧ bankMode banksBusy 15 0 ≠ newModes banksBusy 15 0xF .cache 0 ∧
      banksIdle banksBusy 15 (bankChanges banksBusy 15 0xF .cache) (bankFirst banksBusy 15 0xF .cache) = false) := by
  refine ⟨clear_of (by decide +kernel), on_of (by decide +kernel), sure, ready_of (by decide +kernel),
    by unfold Settled; decide +kernel, sure, sure, sure, sure, sure,
    sure, ⟨sure, ⟨3, by decide, sure⟩, sure⟩, ?_, sure,
    clear_of (by decide +kernel), ready_of (by decide +kernel), sure⟩
  intro new b h
  have : ∀ b : Fin 32, bankMode banks (bankCluster banks 15) b.val = newModes banks (bankCluster banks 15) (0xF % 2 ^ 32) .cache b.val := by
    decide +kernel
  exact this ⟨b, h⟩

theorem witness_ModesAreSet : ∀ b, 32 ≤ b → bankMode banks 15 b = .cache := fun _ _ => rfl

/-- A kernel on HD0, alone and in a partition of that die; its answer come; and MIGR of its own task, of none, of one
that runs on the same die, toward a core of another kind and one with no free context. -/
def kern : State := owned .kernel true
def kernAnswered : State := kern.modCtx hostCtx fun x => { x with sent := true, reply := some (.ok 0) }

theorem witness_InvalidationsAndMigration :
    Clear kern plain ∧ On kern plain ∧ (kern.ctx kern.cur).level ≠ .task ∧ Has kern [.g 10] none ∧ (kern.ctx kern.cur).sent = false ∧
    Fenced kern .part ∧ partDies kern (partNo (kern.ctx kern.cur).ident) ≠ [] ∧
    partDies banks (partNo (banks.ctx banks.cur).ident) = [] ∧ Fenced banks .part ∧ Clear banks plain ∧
    Clear kernAnswered plain ∧ (kernAnswered.ctx hostCtx).sent = true ∧ (kernAnswered.ctx hostCtx).reply.isSome = true ∧
    Has kernAnswered [.g 10] none ∧ blocking [.g 10] none = false ∧ Has banks [.g 10] none ∧
    (capState.ctx capState.cur).ident.part = 0xFF := by
  refine ⟨clear_of (by decide +kernel), on_of (by decide +kernel), sure, has_of (by decide +kernel), sure,
    by unfold Fenced; decide +kernel, sure, sure, by unfold Fenced; decide +kernel, clear_of (by decide +kernel),
    clear_of (by decide +kernel), sure, sure, has_of (by decide +kernel), by decide, has_of (by decide +kernel),
    sure⟩

/-- MIGR at custodian level of HD0: logical die numbers are physical. Task 7 runs on the next host core. -/
def migrs : State :=
  let s := (stand hostCtx { caps with
    level := .custodian, ident := { custodian := true, part := 1 }, task := some { gti := 5 }
    g := [(10, Reg.ofWord 5), (11, Reg.ofWord 7), (12, Reg.ofWord 9), (13, Reg.ofWord (8 * 65536 + 2)), (14, Reg.ofWord 3),
      (15, Reg.ofWord (8 * 65536 + 1)), (16, Reg.ofWord (31 * 65536))] })
  (s.setCtx (hostCtx + 8) { run := .running, ident := { part := 1 }, task := some { gti := 7 } }).setCtx (hostCtx + 9) { run := .running }

theorem witness_InvalidationsAndMigration_migr :
    Clear migrs plain ∧ On migrs plain ∧ (migrs.ctx migrs.cur).level ≠ .task ∧ Has migrs [.g 10, .g 13] (some (.g 1)) ∧
    (migrs.ctx migrs.cur).sent = false ∧ Settled migrs ∧
    coreOfWord migrs (migrs.ctx migrs.cur).ident (srcWord migrs [.g 10] (.g 16)).toNat = none ∧
    coreOfWord migrs (migrs.ctx migrs.cur).ident (srcWord migrs [.g 10] (.g 13)).toNat = some 4098 ∧
    (gtiOf (migrs.ctx migrs.cur) = srcWord migrs [] (.g 10) ∧ (migrs.ctx migrs.cur).task.isSome = true) ∧
    residentOf migrs (dieOf migrs.cur) (migrs.ctx migrs.cur).ident.part (srcWord migrs [] (.g 12)) = none ∧
    residentOf migrs (dieOf migrs.cur) (migrs.ctx migrs.cur).ident.part (srcWord migrs [] (.g 11)) = some (hostCtx + 8) ∧
    coreOfWord migrs (migrs.ctx migrs.cur).ident (srcWord migrs [.g 11] (.g 14)).toNat = some 3 ∧
    kindOfCore 3 ≠ kindOf (hostCtx + 8) ∧
    coreOfWord migrs (migrs.ctx migrs.cur).ident (srcWord migrs [.g 11] (.g 15)).toNat = some 4097 ∧
    kindOfCore 4097 = kindOf (hostCtx + 8) ∧ freeOn migrs 4097 = none := by
  refine ⟨clear_of (by decide +kernel), on_of (by decide +kernel), sure, has_of (by decide +kernel), sure,
    by unfold Settled; decide +kernel, sure⟩

/-- Task 7 may move to a host core with a free context; the answer has come, the words still held. -/
def migrAnswered : State := migrs.modCtx hostCtx fun x => { x with sent := true, reply := some (.ok 0), held := some [(.q 1, { w := 7 })] }

theorem witness_InvalidationsAndMigration_moves :
    (coreOfWord migrs (migrs.ctx migrs.cur).ident (srcWord migrs [.g 11] (.g 13)).toNat = some 4098 ∧
      residentOf migrs (dieOf migrs.cur) (migrs.ctx migrs.cur).ident.part (srcWord migrs [] (.g 11)) = some (hostCtx + 8) ∧
      ¬ gtiOf (migrs.ctx migrs.cur) = srcWord migrs [] (.g 11) ∧ kindOfCore 4098 = kindOf (hostCtx + 8) ∧
      (freeOn migrs 4098).isSome = true ∧ (migrs.ctx (hostCtx + 8)).run = .running) ∧
    Clear migrAnswered plain ∧ On migrAnswered plain ∧ Has migrAnswered [.q 1, .g 13] (some (.g 1)) ∧
    (migrAnswered.ctx migrAnswered.cur).sent = true ∧ (migrAnswered.ctx migrAnswered.cur).reply = some (.ok 0) ∧
    (migrAnswered.ctx migrAnswered.cur).held.isSome = true := by
  refine ⟨sure, clear_of (by decide +kernel), on_of (by decide +kernel), has_of (by decide +kernel), sure,
    sure, sure⟩

end Sys2Proof.Tests
end

