-- ==== Sys2Proof/Tests/WitnessTasks.lean ====
section
/-! SUPPORT. Witnesses for the statements about tasks, the synchronisation engine and the queued engine commands. -/

namespace Sys2Proof.Tests

set_option Elab.async false

open Sys2Proof Sys2Proof.Machine

/-- Partition 1: CD0 its logical die 0, HD0 its logical die 1; core 0 of HD0 is its own. -/
def tenant (c : Nat) (x : Context) : State :=
  let s := (stand c x).modPart 1 fun p => { p with en := true, ready := true, ldt := [(0, 0x80000000), (1, 0xA0000008)] }
  { s with sec := { s.sec with pmap := [(0, 1)], hcmap := [(4096, 1)] } }

/-- Words laid out from an address. -/
def cells (a : Nat) (ws : List Nat) : List Host.Cell :=
  Memory.writeAll [] ((ws.map fun w => toBytes 8 w).flatten.mapIdx fun i b => (a + i, b))

/-- A task record: entry, control word, dependence word, continuation. -/
def recWords (entry ctl dep cont : Nat) : List Nat := [entry, ctl, dep, cont] ++ List.replicate 12 0
def recOf (entry ctl dep cont : Nat) : Rec :=
  { bytes := ((recWords entry ctl dep cont).map fun w => toBytes 8 w).flatten, tags := List.replicate 8 false }

/-- A custodian context of partition 1 on a compute core, wide capabilities in g1, the default record at 0x1000. -/
def spawner (ctl : Nat) : State :=
  { tenant cmp { runs with
      ident := { custodian := true, part := 1 }, task := some { gti := 9 }
      g := [(1, capR 0xFFF 0 0 0 0x1FFF 1 0x1000), (2, capR 0xFFF 0 0 0 0x1FFF 0 0x1000), (3, Reg.ofWord 5)] } with
    mem := cells 0x1000 (recWords 0x400 ctl 0 0) }

theorem witness_TasksAreCreated :
    (recOf 0 (3 * 2 ^ 55) 0 0).malformed = true ∧
    ((recOf 4 0x1F0000 0 0).malformed = false ∧ (recOf 4 0x1F0000 0 0).hany = false ∧
      coreOfWord (spawner 0) ((spawner 0).ctx cmp).ident ((recOf 4 0x1F0000 0 0).ctl.toNat % 2 ^ 21) = none) ∧
    ((recOf 4 0x100 0 0).malformed = false ∧ (recOf 4 0x100 0 0).hany = false ∧
      coreOfWord (spawner 0) ((spawner 0).ctx cmp).ident ((recOf 4 0x100 0 0).ctl.toNat % 2 ^ 21) = some 256 ∧
      kindOfCore 256 ≠ (recOf 4 0x100 0 0).kind) ∧
    (let r := recOf 4 (2 ^ 63 + 6 * 2 ^ 60 + 3 * 2 ^ 57) 0 0
     let s := spawner 0
     r.malformed = false ∧ r.hany = true ∧ r.isActor = false ∧ r.word 2 = 0 ∧ poolDie s 1 r.kind none (coreDie 0) = some 0 ∧
      poolDie s 1 r.kind none (gtiDie s (BitVec.ofNat 64 (1 * 2 ^ 56 + logDie s 1 0 % 32 * 2 ^ 51 + 1))) = some 0) := by
  decide +kernel

/-- TSPAWN of a readable record, of one in a poisoned line, and of one with a home that names no core. -/
theorem witness_SpawnSignalAndLaunch_spawn :
    let made (s : State) : Bool :=
      match readRec (s.asked [] (some (.g 63))) (s.ctx s.cur).ident 0x1000 true with
      | none => false
      | some r => (createTask (s.asked [] (some (.g 63))) (s.ctx s.cur).ident (coreOf s.cur) ((s.ctx s.cur).task.bind (·.member)) none r).toOption.isSome
    let dark : State := { spawner (2 ^ 63) with poison := [0x20] }
    Clear (spawner (2 ^ 63)) plain ∧ On (spawner (2 ^ 63)) plain ∧ EngineGrants (spawner (2 ^ 63)) 1 permLd 128 128 0 0x1000 ∧
    Sends (spawner (2 ^ 63)) [] (.g 63) ∧ made (spawner (2 ^ 63)) = true ∧
    readRec (dark.asked [] (some (.g 63))) (dark.ctx dark.cur).ident 0x1000 true = none ∧ Clear dark plain ∧
    EngineGrants dark 1 permLd 128 128 0 0x1000 ∧ Sends dark [] (.g 63) ∧
    made (spawner 0x1F0000) = false ∧ EngineGrants (spawner 0x1F0000) 1 permLd 128 128 0 0x1000 := by
  refine ⟨clear_of (by decide +kernel), on_of (by decide +kernel), by unfold EngineGrants; decide +kernel,
    ⟨has_of (by decide +kernel), by decide, sure⟩, sure, sure,
    clear_of (by decide +kernel), by unfold EngineGrants; decide +kernel,
    ⟨has_of (by decide +kernel), by decide, sure⟩, sure,
    by unfold EngineGrants; decide +kernel⟩

/-- TSIG to a counter of memory on the own die, and to a scratchpad of another die with and without remote; LAUNCH
with no live job, with a lawful die table and one whose second entry names a die of no partition, and with one. -/
def sigFar : State :=
  ({ tenant cmp { runs with
    ident := { custodian := true, part := 1 }
    g := [(1, capR 0xDFF 0 0 0 0x1FFF 40 (2 ^ 48 + 2 ^ 25)), (2, capR 0xFFF 0 0 0 0x1FFF 40 (2 ^ 48 + 2 ^ 25)), (3, Reg.ofWord 5)] } with clus := [(64, { modes := (List.range 32).map fun b => (b, BankMode.scratch) })] })
def badTable : State := (spawner 0).modPart 1 fun p => { p with ldt := [(0, 0x80000000), (1, 0x80000003)] }
def jobbed : State := { spawner 0 with jobs := [(0, some { part := 1, vf := 0, owner := 0, num := 0, ident := {}, word := none })] }

theorem witness_SpawnSignalAndLaunch_signal :
    Clear (spawner 0) plain ∧ On (spawner 0) plain ∧ Lone (spawner 0) ∧ EngineGrants (spawner 0) 1 permSt 4 4 1 0x1000 ∧ Ready (spawner 0) [.g 3] none ∧
    region 0x1000 ≠ .scratch 64 0 ∧
    Clear sigFar plain ∧ On sigFar plain ∧ Lone sigFar ∧ Settled sigFar ∧ EngineGrants sigFar 1 permSt 4 4 1 (2 ^ 48 + 2 ^ 25) ∧
    EngineGrants sigFar 2 permSt 4 4 1 (2 ^ 48 + 2 ^ 25) ∧ region (2 ^ 48 + 2 ^ 25) = .scratch 64 0 ∧ 64 / 64 ≠ dieOf sigFar.cur ∧
    ((sigFar.ctx sigFar.cur).reg 1).cap.perm.getLsbD 9 = false ∧ ((sigFar.ctx sigFar.cur).reg 2).cap.perm.getLsbD 9 = true ∧
    Ready sigFar [.g 3] none := by
  refine ⟨clear_of (by decide +kernel), on_of (by decide +kernel), lone_of (by decide +kernel), by unfold EngineGrants; decide +kernel,
    ready_of (by decide +kernel), sure, clear_of (by decide +kernel), on_of (by decide +kernel), lone_of (by decide +kernel),
    by unfold Settled; decide +kernel, by unfold EngineGrants; decide +kernel, by unfold EngineGrants; decide +kernel, sure,
    sure, sure, sure, ready_of (by decide +kernel)⟩

theorem witness_SpawnSignalAndLaunch_launch :
    engineCap (spawner 0) cmp 1 (permLd ||| permLdc) 192 64 = .ok (((spawner 0).ctx cmp).reg 1) ∧
    (∃ xl, xlatRange (spawner 0) cmp (((spawner 0).ctx cmp).low 1) 192 0 = .ok xl) ∧
    liveJobs (spawner 0) ((spawner 0).ctx cmp).ident.part = [] ∧ ldtOffender (spawner 0) 1 = none ∧
    ldtOffender badTable 1 = some 1 ∧ Settled badTable ∧ Clear badTable plain ∧
    engineCap badTable cmp 1 (permLd ||| permLdc) 192 64 = .ok ((badTable.ctx cmp).reg 1) ∧
    liveJobs jobbed (jobbed.ctx cmp).ident.part ≠ [] ∧ Clear jobbed plain := by
  refine ⟨sure, ⟨_, rfl⟩, sure, sure, sure, by unfold Settled; decide +kernel,
    clear_of (by decide +kernel), sure, sure, clear_of (by decide +kernel)⟩

/-- A member's task, with every command completed and with one left. -/
def membered : State :=
  tenant cmp { runs with ident := { part := 1 }, task := some { gti := 9, member := some (0, 0) }, g := [(3, Reg.ofWord 5)] }
def memberBusy : State := { membered with tls := [(19 * 8, { issued := 1, count := 1 })] }
/-- With a word in queue 1, and with that word taken. -/
def memberQueue : State := membered.modCore 0 fun k => { k with queues := [(1, [7])] }
def memberHeld : State := membered.modCtx cmp fun x => { x with held := some [(.q 1, { w := 7 })] }
/-- A job whose member 0 has two live tasks and whose member 1, its child, has one. -/
def reported : State := { membered with jobs := [(0, some { part := 1, vf := 0, owner := 0, num := 0, ident := {}, word := none
                                                            members := [(0, { live := 2, children := [1] }), (1, { live := 1, parent := some 0 })] })] }

theorem witness_DoneReports :
    (Clear memState plain ∧ On memState plain ∧ ∀ k, (memState.ctx memState.cur).task = some k → k.member = none ∨ k.doneSent = true) ∧
    Clear membered plain ∧ On membered plain ∧ Lone membered ∧ (∃ k, (membered.ctx cmp).task = some k ∧ k.member = some (0, 0) ∧ k.doneSent = false) ∧
    Reporting membered (.g 3) ∧ Reporting memberHeld (.q 1) ∧ Clear memberHeld plain ∧
    (Clear memberQueue plain ∧ EnginesDone memberQueue ∧ (memberQueue.ctx memberQueue.cur).held = none ∧ blocking [.q 1] none = true ∧
      Ready memberQueue [.q 1] none) ∧
    Clear memberBusy plain ∧ Lone memberBusy ∧ ¬ EnginesDone memberBusy ∧
    (∃ q, reported.job 0 = some q ∧ (Sparse.get {} q.members 1 : Member).live = 1 ∧ (Sparse.get {} q.members 1 : Member).sent = false ∧
      (Sparse.get {} q.members 1 : Member).parent = some 0 ∧ 1 < (Sparse.get {} q.members 0 : Member).live) := by
  refine ⟨⟨clear_of (by decide +kernel), on_of (by decide +kernel), ?_⟩, clear_of (by decide +kernel), on_of (by decide +kernel),
    lone_of (by decide +kernel), ⟨_, rfl, rfl, rfl⟩, (ending_of (by decide +kernel) (.inr ⟨3, rfl, sure⟩)).toReporting,
    (ending_of (by decide +kernel) (.inl (by decide +kernel))).toReporting, clear_of (by decide +kernel),
    ⟨clear_of (by decide +kernel), enginesDone_of (by decide +kernel), sure, by decide, ready_of (by decide +kernel)⟩,
    clear_of (by decide +kernel), lone_of (by decide +kernel), fun h => absurd (h 0 (by decide)) (by decide +kernel),
    _, rfl, sure, sure, sure, sure⟩
  have h : (memState.ctx memState.cur).task = none := by decide +kernel
  intro k hk
  rw [h] at hk
  cases hk

/-- A firing of an actor with one input of rate 2, one output of rate 1 and an element left. -/
def firing (n : Nat) : State :=
  { tenant cmp { runs with ident := { part := 1 }, task := some { gti := 9, actor := some 0 }, g := [(3, Reg.ofWord 5)] } with
    actors := [(0, some { task := {}, cluster := 0, live := true, firing := true, ins := [some { bank := 0, size := 4, rate := 2 }]
                          outs := [some { bank := 1, size := 4, rate := 1 }], read := [n], wrote := List.replicate (n / 2) [7] })]
    clus := [(0, { modes := [(0, .fifo), (1, .fifo)], fifo := [(0, [3, 4])] })] }

theorem witness_FiringsReadAndWrite :
    (∃ a f, Clear (firing 1) plain ∧ On (firing 1) plain ∧ Fires (firing 1) false 0 0 a f ∧ Sends (firing 1) [] (.g 1)) ∧
    (∃ a f, Lone (firing 1) ∧ Fires (firing 1) true 0 0 a f ∧ Ready (firing 1) [.g 3] none ∧ released (firing 1) cmp .part = true) ∧
    (Clear membered plain ∧ On membered plain ∧ Settled membered ∧ (membered.ctx membered.cur).task.bind (·.actor) = none) ∧
    (∃ a, Clear (firing 2) plain ∧ On (firing 2) plain ∧ Settled (firing 2) ∧ ((firing 2).ctx cmp).task.bind (·.actor) = some 0 ∧
      (firing 2).actor 0 = some a ∧ a.ins.getD 3 none = none ∧ a.outs.getD 3 none = none ∧
      (∃ f, a.ins.getD 0 none = some f ∧ f.rate ≤ a.read.getD 0 0) ∧ ∃ f, a.outs.getD 0 none = some f ∧ f.rate ≤ (a.wrote.getD 0 []).length) := by
  refine ⟨⟨_, _, clear_of (by decide +kernel), on_of (by decide +kernel), ⟨sure, rfl, rfl, sure⟩,
      ⟨has_of (by decide +kernel), by decide, sure⟩⟩,
    ⟨_, _, lone_of (by decide +kernel), ⟨sure, rfl, rfl, sure⟩, ready_of (by decide +kernel), sure⟩,
    ⟨clear_of (by decide +kernel), on_of (by decide +kernel), by unfold Settled; decide +kernel, sure⟩,
    ⟨_, clear_of (by decide +kernel), on_of (by decide +kernel), by unfold Settled; decide +kernel, sure, rfl,
      sure, sure, ⟨_, rfl, sure⟩, _, rfl, sure⟩⟩

/-- A stopped task in the area at 0x1000, none, and a continuation of the record at 0x1000, of the current generation
and of an old one. -/
def stoppedTask : Stopped := { gti := 7, ident := { part := 1 }, area := 0x1000, task := { gti := 7, ident := { part := 1 } }, reason := 1 }
def answering (l : List Stopped) (cs : List PendCont) : State :=
  { (spawner 0).modDie 0 fun d => { d with stopped := l, conts := cs } with mem := cells 0x1000 [0x400, 7] }
def contOf (g : BitVec 16) : PendCont := { gti := 5, record := 0x1000, member := none, ident := { part := 1, gen := g } }

theorem witness_StoppedTasksAreAnswered :
    let s := answering [stoppedTask] []
    let n := answering [] []
    Clear s plain ∧ On s plain ∧ engineCap s s.cur 1 (permLd ||| permSt) 10240 256 = .ok ((s.ctx s.cur).reg 1) ∧
    engineAt s s.cur ((s.ctx s.cur).low 1) 128 0 = .ok 0x1000 ∧ Sends s [] (.g 63) ∧ Sends s [.g 3] (.g 63) ∧
    stoppedAt (s.used [] (some (.g 63))) s.cur 0x1000 = some stoppedTask ∧ stoppedTask.notice = none ∧
    stoppedAt (s.used [.g 3] (some (.g 63))) s.cur 0x1000 = some stoppedTask ∧
    allDone (s.used [.g 3] (some (.g 63))) (stoppedTask.gti.toNat * 2 + 1) = true ∧ stoppedTask.task.member = none ∧
    stoppedAt (n.used [] (some (.g 63))) n.cur 0x1000 = none ∧ stoppedAt (n.used [.g 3] (some (.g 63))) n.cur 0x1000 = none ∧
    Clear n plain ∧ engineCap n n.cur 1 (permLd ||| permSt) 10240 256 = .ok ((n.ctx n.cur).reg 1) := by
  refine ⟨clear_of (by decide +kernel), on_of (by decide +kernel), sure, sure,
    ⟨has_of (by decide +kernel), by decide, sure⟩,
    ⟨has_of (by decide +kernel), by decide, sure⟩, sure, sure,
    sure, sure, sure, sure, sure, clear_of (by decide +kernel), sure⟩

theorem witness_StoppedTasksAreAnswered_trec :
    let s : State := { (spawner 0).modDie 0 fun d => { d with conts := [contOf 0] } with mem := cells 0x1000 (recWords 0x400 (2 ^ 63) 0 0) }
    let old : State := { (spawner 0).modDie 0 fun d => { d with conts := [contOf 1] } with mem := cells 0x1000 (recWords 0x400 (2 ^ 63) 0 0) }
    let named (e : PendCont) : Bool := e.gti == srcWord s [] (.g 3) && e.record == (s.ctx s.cur).low 1 &&
      e.ident.part == (s.ctx s.cur).ident.part && ((s.ctx s.cur).ident.custodian || e.ident.vf == (s.ctx s.cur).ident.vf)
    let v := s.asked [.g 3] (some (.g 63))
    Clear s plain ∧ On s plain ∧ EngineGrants s 1 permLd 128 128 0 0x1000 ∧ Known s (argList 58 6) ∧ Sends s [.g 3] (.g 63) ∧
    (s.die (dieOf s.cur)).conts.find? named = some (contOf 0) ∧ ((spawner 0).die 0).conts.find? named = none ∧
    current v (contOf 0).ident = true ∧ current (old.asked [.g 3] (some (.g 63))) (contOf 1).ident = false ∧
    (match readRec v (s.ctx s.cur).ident 0x1000 true with
      | none => false
      | some r => (createTask (v.modDie 0 fun d => { d with conts := [] }) (s.ctx s.cur).ident 0 none none
          (withArgs r ((argList 58 6).map (s.ctx s.cur).reg))).toOption.isSome) = true := by
  refine ⟨clear_of (by decide +kernel), on_of (by decide +kernel), by unfold EngineGrants; decide +kernel, known_of (by decide +kernel),
    ⟨has_of (by decide +kernel), by decide, sure⟩, sure, sure,
    sure, sure, sure⟩

end Sys2Proof.Tests
end

