-- ==== Sys2Proof/Tests/WitnessEngines.lean ====
section
/-! SUPPORT. Witnesses for the statements about atomics, phasers, the tile cache, the stack engines and copies. -/

namespace Sys2Proof.Tests

set_option Elab.async false

open Sys2Proof Sys2Proof.Machine

theorem sends_of {s : State} {srcs : List Src} {d : Dst}
    (b : (hasB s srcs (some d) && (d.local && released s s.cur .part)) = true) : Sends s srcs d := by
  simp only [Bool.and_eq_true] at b
  exact ⟨has_of b.1, b.2.1, b.2.2⟩

/-! Atomics at 0x1000. -/

def amoCas : AmoOps :=
  { h := plain, ty := .n64, d := .g 63, a := 1, b := .g 3, ofs := 0, cv := .g 1, ord := 3, scope := .part, op := .cas }
def replied (r : Reply) : State := (spawner 0).modCtx cmp fun x => { x with sent := true, reply := some r }
/-- The reply has come to an AMO that took its word from queue 1. -/
def repliedHeld : State := (replied (.ok 7)).modCtx cmp fun x => { x with held := some [(.q 1, { w := 5 })], oflags := 1 }

theorem witness_AtomicsLeaveAndReturn :
    let s := spawner 0
    let a : Acc := { ea := 0x1000, pa := 0x1000, n := 8 }
    Clear s plain ∧ On s plain ∧ Lone s ∧ (s.ctx s.cur).sent = false ∧ Known s [1] ∧
    AtomGrants s 1 ((0 : BitVec 16).signExtend 64) 8 (permLd ||| permSt) a ∧
    dataBreak s s.cur ((s.ctx s.cur).low 1 + (0 : BitVec 16).signExtend 64) 8 false = none ∧
    Has s [.g 3, .g 1] (some (.g 63)) ∧ Has s [.g 3] (some (.g 63)) ∧ amoCas.d.local = true ∧
    AtomGrants s 1 ((0 : BitVec 16).signExtend 64) 8 permSt a ∧ Ready s [.g 3] none ∧
    Clear (replied (.ok 7)) plain ∧ On (replied (.ok 7)) plain ∧ ((replied (.ok 7)).ctx cmp).sent = true ∧
    ((replied (.ok 7)).ctx cmp).reply = some (.ok 7) ∧ Has (replied (.ok 7)) [.g 3] (some (.g 63)) ∧ blocking [.g 3] none = false ∧
    Clear repliedHeld plain ∧ Has repliedHeld [.q 1] (some (.g 63)) ∧ (repliedHeld.ctx cmp).held.isSome = true ∧
    Clear (replied (.trap { cause := 0x33 })) plain ∧ ((replied (.trap { cause := 0x33 })).ctx cmp).reply = some (.trap { cause := 0x33 }) ∧
    Settled (replied (.trap { cause := 0x33 })) := by
  refine ⟨clear_of (by decide +kernel), on_of (by decide +kernel), lone_of (by decide +kernel), sure, known_of (by decide +kernel),
    by unfold AtomGrants; decide +kernel, sure, has_of (by decide +kernel), has_of (by decide +kernel), by decide,
    by unfold AtomGrants; decide +kernel, ready_of (by decide +kernel), clear_of (by decide +kernel), on_of (by decide +kernel),
    sure, sure, has_of (by decide +kernel), by decide, clear_of (by decide +kernel), has_of (by decide +kernel),
    sure, clear_of (by decide +kernel), sure,
    by unfold Settled; decide +kernel⟩

def atomOf (op : AmoOp) (ty : AmoTy) (b : Word) : AtomReq :=
  { c := 0, ident := { custodian := true, part := 1 }, ty := ty, op := op, ea := 0x1000, pa := 0x1000, b := b, cv := 3, dst := none, engine := 0 }

theorem witness_AtomicsAtTheirHome :
    amoRefusal (spawner 0) (atomOf .add .i64 1) = none ∧
    ofBytes (homeBytes (spawner 0) 0x1000 8) = (atomOf .cas .n64 0x400).b.toNat % 2 ^ 64 ∧
    ofBytes (homeBytes (spawner 0) 0x1000 8) ≠ (atomOf .cas .n64 0).b.toNat % 2 ^ 64 ∧
    (amoRefusal { spawner 0 with poison := [0x20] } (atomOf .add .i64 1)).isSome = true ∧
    (((spawner 0).modDie 0 fun d => { d with lost := 1 }).die (dieOf (atomOf .add .i64 1).c)).lost.getLsbD (atomOf .add .i64 1).engine = true ∧
    (∀ j, j < 8 → loc (spawner 0) (0x1000 + j) ≠ some 0x1008) ∧ ∀ t ∈ ((spawner 0).base (0x1000 / 2 ^ 37)).tiles, t.dirty = false := by
  refine ⟨sure, sure, sure, sure, sure, ?_, nofun⟩
  have h : ∀ j : Fin 8, loc (spawner 0) (0x1000 + j.val) ≠ some 0x1008 := by decide +kernel
  exact fun j hj => h ⟨j, hj⟩

/-! A phaser in slot 0 of CD0 with three members: a signaller whose phase has come, a signaller too early, a
waiter. -/

def phased (c out : Nat) (ctr : Bool) : Phaser :=
  { part := 1, vf := 0, c := c, out := out, started := true, ctr := ctr
    members := [(1, some { role := .both, s := c }), (2, some { role := .sig, s := c + 1 }), (3, some { role := .wait, s := 0 })] }
def phaserState (p : Phaser) : State :=
  (tenant cmp { runs with
    ident := { part := 1 }
    g := [(1, Reg.ofWord (phWord 1 0 0 0 1 0)), (2, Reg.ofWord (phWord 1 0 0 0 2 0)), (3, Reg.ofWord (phWord 1 0 0 0 3 0)),
      (4, Reg.ofWord (phWord 1 0 0 0 0 0)), (5, Reg.ofWord 1), (6, Reg.ofWord 2)] }).modDie 0 fun d => { d with phasers := [(0, some p)] }
def emptyPhaser : Phaser := { part := 1, vf := 0 }

/-- The context waits in the phaser: a PHSIG of member 2, or a PHWAIT of member 3 for phase 2. -/
def signalHeld : PhHold := { token := phWord 1 0 0 0 2 0, sig := true, arg := 1, evc := [0, 0, 0, 0] }
def waitHeld : PhHold := { token := phWord 1 0 0 0 3 0, sig := false, arg := 2 }
def heldState (h : PhHold) : State :=
  (phaserState (phased 2 1 false)).modCtx cmp fun x => { x with run := .blocked (.phaser 0 0 3 h) 0 }
def answeredState (r : Reply) : State := (phaserState (phased 2 1 false)).modCtx cmp fun x => { x with sent := true, reply := some r }

theorem witness_HeldInstructions :
    ((heldState waitHeld).ctx cmp).run = .blocked (.phaser 0 0 3 waitHeld) 0 ∧ phMember waitHeld.token = 3 ∧
    (if waitHeld.sig then false else true) = true ∧ waitHeld.arg.toNat ≤ 2 ∧ (if waitHeld.sig then true else false) = false ∧
    heldOn (heldState signalHeld) 0 0 = [(cmp, signalHeld)] ∧
    Sparse.get none (phased 2 0 false).members (phMember signalHeld.token) = some { role := .sig, s := 3 } ∧
    Clear (heldState signalHeld) plain ∧ On (heldState signalHeld) plain ∧ ((heldState signalHeld).ctx cmp).sent = false ∧
    heldOf ((heldState signalHeld).ctx cmp) = some (.phaser 0 0 3 signalHeld, signalHeld) ∧
    phaserOf (heldState signalHeld) cmp signalHeld.token (some true) = .ok (0, phased 2 1 false) ∧
    (let a := answeredState (.ok 7)
     Clear a plain ∧ On a plain ∧ (a.ctx a.cur).sent = true ∧ (a.ctx a.cur).reply = some (.ok 7) ∧ Has a [.g 2, .g 5] (some (.g 63)) ∧ blocking [.g 2, .g 5] none = false) ∧
    (let a := answeredState (.trap (phCause (phWord 1 0 0 0 2 0) 4))
     Clear a plain ∧ On a plain ∧ (a.ctx a.cur).sent = true ∧ (a.ctx a.cur).reply = some (.trap (phCause (phWord 1 0 0 0 2 0) 4)) ∧ Settled a) := by
  refine ⟨sure, sure, sure, sure, sure, sure, sure,
    clear_of (by decide +kernel), on_of (by decide +kernel), sure, sure, sure,
    ⟨clear_of (by decide +kernel), on_of (by decide +kernel), sure, sure, has_of (by decide +kernel),
      by decide⟩,
    clear_of (by decide +kernel), on_of (by decide +kernel), sure, sure, by unfold Settled; decide +kernel⟩

theorem witness_PhasersAreMadeAndJoined :
    let s := phaserState (phased 2 1 true)
    let n := phaserState emptyPhaser
    Clear s plain ∧ On s plain ∧ Sends s [] (.g 63) ∧ logDie s (partNo (s.ctx s.cur).ident) (dieOf s.cur) = 0 ∧
    physDie s (partNo (s.ctx s.cur).ident) 0 = some (0, false) ∧
    ¬ unitsMax s (partNo (s.ctx s.cur).ident) 0 < unitsUsed (s.die 0) + 7 ∧
    (List.range 1048576).find? (fun j => (((tenant cmp runs).die 0).phaser j).isNone) = some 0 ∧
    Sends s [.g 4] (.g 63) ∧ phaserOf s s.cur (srcWord s [] (.g 4)) (some false) = .ok (0, phased 2 1 true) ∧
    ((List.range 4096).drop 1).find? (fun n => (Sparse.get none (phased 2 1 true).members n).isNone) = some 4 ∧
    unitsUsed (s.die 0) + 1 ≤ unitsMax s (partNo (s.ctx s.cur).ident) 0 ∧
    Lone s ∧ Ready s [.g 1] none ∧ released s s.cur .part = true ∧
    phaserOf s s.cur (srcWord s [] (.g 1)) none = .ok (0, phased 2 1 true) ∧
    Sparse.get none (phased 2 1 true).members (phMember (srcWord s [] (.g 1))) = some { role := .both, s := 2 } ∧
    phaserOf s s.cur (srcWord s [] (.g 1)) (some true) = .ok (0, phased 2 1 true) ∧
    Clear n plain ∧ Lone n ∧ Ready n [.g 4] none ∧ phaserOf n n.cur (srcWord n [] (.g 4)) none = .ok (0, emptyPhaser) ∧
    Sparse.get none emptyPhaser.members (phMember (srcWord n [] (.g 4))) = none ∧ emptyPhaser.members.any (·.2.isSome) = false := by
  refine ⟨clear_of (by decide +kernel), on_of (by decide +kernel), sends_of (by decide +kernel), sure, sure,
    sure, ?_, sends_of (by decide +kernel), sure, sure, sure, lone_of (by decide +kernel),
    ready_of (by decide +kernel), sure, sure, sure, sure, clear_of (by decide +kernel),
    lone_of (by decide +kernel), ready_of (by decide +kernel), sure, sure, sure⟩
  rw [List.find?_range_eq_some]
  exact ⟨sure, by simp, nofun⟩

/-! Effects of the spec's text: a leaving member's held PHSIG ends with reason 4 (R305); a completion answers a held
PHWAIT with the flags and lag 0, and releases a held PHSIG (R303, R306). -/

theorem test_held_signal_of_a_removed_member :
    ((dropHeld (heldState signalHeld) 0 0 2 true true 4).ctx cmp).reply =
      some (.trap { cause := 0x32, val := phWord 1 0 0 0 2 0, aux := 4 }) := by decide +kernel

theorem test_held_wait_is_answered :
    ((settlePhaser (heldState waitHeld) 0 0 { phased 2 0 false with mf := 5 }).ctx cmp).reply = some (.ok 5) := by decide +kernel

theorem test_held_signal_is_released :
    let s := settlePhaser (heldState signalHeld) 0 0 (phased 2 0 false)
    (s.ctx cmp).reply = some (.ok 3) ∧ ((s.die 0).phaser 0).map (fun p => (p.c, p.out, p.started)) = some (3, 1, true) := by
  decide +kernel

theorem witness_PhasesAdvance :
    let s := phaserState (phased 2 1 false)
    (s.ctx s.cur).sent = false ∧ heldOf (s.ctx s.cur) = none ∧ Clear s plain ∧ On s plain ∧ Sends s [.g 1, .g 5] (.g 63) ∧ Sends s [.g 2, .g 5] (.g 63) ∧ Sends s [.g 3, .g 6] (.g 63) ∧ Settled s ∧
    phaserOf s s.cur (srcWord s [] (.g 1)) (some true) = .ok (0, phased 2 1 false) ∧
    phaserOf s s.cur (srcWord s [] (.g 2)) (some true) = .ok (0, phased 2 1 false) ∧
    phaserOf s s.cur (srcWord s [] (.g 3)) (some true) = .ok (0, phased 2 1 false) ∧
    Sparse.get none (phased 2 1 false).members (phMember (srcWord s [] (.g 1))) = some { role := .both, s := 2 } ∧
    Sparse.get none (phased 2 1 false).members (phMember (srcWord s [] (.g 2))) = some { role := .sig, s := 3 } ∧
    Sparse.get none (phased 2 1 false).members (phMember (srcWord s [] (.g 3))) = some { role := .wait, s := 0 } ∧
    (2 ≤ (phased 2 1 false).c ∧ (phased 2 1 false).c < 3 ∧ roleSignals .wait = false ∧ roleWaits .sig = false) ∧
    (srcWord s [.g 3] (.g 5)).toNat < (phased 2 1 false).c ∧ (phased 2 1 false).c ≤ (srcWord s [.g 3] (.g 6)).toNat ∧
    Lone s ∧ Ready s [.g 4] (some (.g 63)) ∧
    mayGo s s.cur { id := (s.ctx s.cur).nextId, op := .load [] .now, ident := (s.ctx s.cur).ident } = true ∧
    phaserOf s s.cur (srcWord s [] (.g 4)) none = .ok (0, phased 2 1 false) ∧ (phased 2 1 false).ctr = false ∧ (phased 2 1 true).ctr = true ∧
    ((phased 2 0 true).started = true ∧ (phased 2 0 true).out = 0) ∧ ¬ ((phased 2 1 true).started = true ∧ (phased 2 1 true).out = 0) := by
  refine ⟨sure, sure, clear_of (by decide +kernel), on_of (by decide +kernel), sends_of (by decide +kernel), sends_of (by decide +kernel),
    sends_of (by decide +kernel), by unfold Settled; decide +kernel, sure, sure, sure, sure,
    sure, sure, sure, sure, sure, lone_of (by decide +kernel),
    ready_of (by decide +kernel), sure, sure, sure, sure, sure, sure⟩

/-! Regions: number 5 the context's own, 6 another virtual function's, 7 detached, 8 of a block format, 9 with tiles
narrower than a halo. -/

def regionN (id : BitVec 16) : Region :=
  { id := id, part := 1, vf := 0, world := true, ndim := 1, layout := 0, sfmt := 8, cfmt := 8, rmode := .rne, base := 0x10000, dims := [64]
    tile := [64], scale := 0 }
def regionState (l : Level) : State :=
  ({ (tenant cmp { runs with
      level := l, ident := { custodian := true, part := 1 }
      g := [(1, capR 0xFFF 0 0 0 0x1FFF 1 0x1000), (2, capR 0xFFF 0 0 0 0x1FFF 40 (2 ^ 48)), (3, Reg.ofWord 1)] }) with
    mem := cells 0x1000 [0x080800010005, 0x10000, 64, 0, 64, 0, 0, 0]
    clus := [(0, { modes := (List.range 32).map fun b => (b, BankMode.scratch) })] }).modPart 1 fun p => { p with
    regions := [regionN 5, { regionN 6 with vf := 1 }, { regionN 7 with detached := true }, { regionN 8 with cfmt := 13 }, { regionN 9 with tile := [2] }] }

theorem names_of {s : State} {id : BitVec 16} {r : Region}
    (b : decide (id ≠ 0 ∧ regionOf s (partNo (s.ctx s.cur).ident) id = some r ∧ r.vf = (s.ctx s.cur).ident.vf ∧ r.detached = false) = true) :
    Names s id r := by
  obtain ⟨b1, b2, b3, b4⟩ := of_decide_eq_true b
  exact ⟨b1, b2, b3, b4⟩

theorem witness_RegionsAreRegistered :
    let s := (regionState .kernel).modPart 1 fun p => { p with regions := [] }
    let dark : State := { s with poison := [0x20] }
    let gone : State := { (s.modDie 0 fun d => { d with lost := 1 }) with ctxs := s.ctxs.map fun e => (e.1, { e.2 with g := e.2.g.map fun r => if r.1 = 1 then (1, capR 0xFFF 0 0 0 0x1FFF 40 (2 ^ 48)) else r }) }
    let out : State := s.modCtx cmp fun x => { x with ident := { part := 1 } }
    Clear s plain ∧ On s plain ∧ (s.ctx s.cur).level ≠ .task ∧ EngineGrants s 1 permLd 64 64 0 0x1000 ∧ TcregTurn s (.g 63) ∧
    homeRights s (s.ctx s.cur).ident 0x1000 = true ∧ poisoned s 0x1000 = false ∧
    poisoned dark 0x1000 = true ∧ homeRights dark (dark.ctx dark.cur).ident 0x1000 = true ∧ TcregTurn dark (.g 63) ∧
    homeRights out (out.ctx out.cur).ident 0x1000 = false ∧
    (Clear gone plain ∧ EngineGrants gone 1 permLd 64 64 0 (2 ^ 48) ∧ TcregTurn gone (.g 63) ∧
      (gone.die (dieOf gone.cur)).lost.getLsbD (homeDie gone (2 ^ 48)) = true ∧ (s.die (dieOf s.cur)).lost.getLsbD (homeDie s 0x1000) = false) ∧
    ownRegion s s.cur 5 = none ∧ ownRegion (regionState .kernel) cmp 5 = some (regionN 5) ∧ TcregTurn (regionState .kernel) (.g 63) ∧
    readRegion (s.ctx s.cur).ident [] = none ∧
    readRegion (s.ctx s.cur).ident (homeBytes s 0x1000 64) = some (regionN 5) ∧
    (addRegion s (s.ctx s.cur).ident (homeBytes s 0x1000 64)).1 = 0 := by
  refine ⟨clear_of (by decide +kernel), on_of (by decide +kernel), sure, by unfold EngineGrants; decide +kernel,
    ⟨sends_of (by decide +kernel), ready_of (by decide +kernel), sure, by unfold Settled; decide +kernel⟩, sure, sure,
    sure, sure, ⟨sends_of (by decide +kernel), ready_of (by decide +kernel), sure, by unfold Settled; decide +kernel⟩,
    sure, ⟨clear_of (by decide +kernel), by unfold EngineGrants; decide +kernel,
      ⟨sends_of (by decide +kernel), ready_of (by decide +kernel), sure, by unfold Settled; decide +kernel⟩, sure, sure⟩,
    sure, sure,
    ⟨sends_of (by decide +kernel), ready_of (by decide +kernel), sure, by unfold Settled; decide +kernel⟩, sure, sure, sure⟩

theorem witness_TileCommandsQueue :
    let s := regionState .task
    Clear s plain ∧ On s plain ∧ Lone s ∧ Ready s [.g 0] none ∧ Ready s [.g 3] none ∧ Settled s ∧ Names s 5 (regionN 5) ∧ InTiles (regionN 5) (srcWord s [] (.g 0)) ∧
    engineCap (s.taken [.g 0] none) s.cur 1 permEsrc (regionN 5).cs 16 = .ok ((s.ctx s.cur).reg 1) ∧
    (∃ xl, xlatPlaced (s.taken [.g 0] none) s.cur ((s.ctx s.cur).low 1) (regionN 5).cs 3 = .ok xl) ∧
    haloForm 15 (regionN 5) = none ∧
    engineCap (s.taken [.g 0] none) s.cur 2 permEdst (haloBytes (regionN 5) 15) (codeBits (regionN 5).cfmt / 8) = .ok ((s.ctx s.cur).reg 2) ∧
    (∃ xl, xlatPlaced (s.taken [.g 0] none) s.cur ((s.ctx s.cur).low 2) (haloBytes (regionN 5) 15) 4 = .ok xl ∧ ∀ p ∈ xl, isScratch (p.2 * 4096) = true) ∧
    (∃ xl, xlatPlaced (s.taken [.g 0] none) s.cur ((s.ctx s.cur).low 1) (haloBytes (regionN 5) 15) 4 = .ok xl ∧ ∃ p ∈ xl, isScratch (p.2 * 4096) = false) := by
  refine ⟨clear_of (by decide +kernel), on_of (by decide +kernel), lone_of (by decide +kernel), ready_of (by decide +kernel),
    ready_of (by decide +kernel), by unfold Settled; decide +kernel, names_of (by decide +kernel), by unfold InTiles; decide +kernel,
    sure, ⟨_, rfl⟩, sure, sure, ⟨_, rfl, sure⟩, ⟨_, rfl, sure⟩⟩

/-- R321's checks, each failing alone. -/
theorem witness_TileCommandsQueue_checks :
    let s := regionState .task
    let i := partNo (s.ctx s.cur).ident
    Settled s ∧ (0xFFFF : BitVec 16) ≠ 0 ∧ regionOf s i 0xFFFF = none ∧
    (∃ r, regionOf s i 6 = some r ∧ r.vf ≠ (s.ctx s.cur).ident.vf) ∧
    (∃ r, regionOf s i 7 = some r ∧ r.vf = (s.ctx s.cur).ident.vf ∧ r.detached = true) ∧
    (∃ r, Names s 8 r ∧ haloForm 15 r = some 6) ∧ (∃ r, Names s 9 r ∧ haloForm 15 r = some 8) ∧
    ¬ InTiles (regionN 5) (srcWord s [] (.g 3)) := by
  refine ⟨by unfold Settled; decide +kernel, by decide, sure, ⟨_, rfl, sure⟩, ⟨_, rfl, sure, sure⟩,
    ⟨_, ⟨by decide, rfl, sure, sure⟩, sure⟩, ⟨_, ⟨by decide, rfl, sure, sure⟩, sure⟩,
    by unfold InTiles; decide +kernel⟩

theorem witness_StackCommandsQueue :
    let s := regionState .task
    Clear s plain ∧ On s plain ∧ Lone s ∧ StackGrants s 1 permEdst (some (16 * (4 * 8))) 4 ∧ StackGrants s 1 permEsrc none 4 ∧
    StackGrants s 1 permEsrc (some (16 * 8)) 8 ∧ (∃ xd, xlatPlaced s s.cur ((s.ctx s.cur).low 1) (16 * (4 * 8)) 4 = .ok xd) ∧
    (∃ xb, xlatPlaced s s.cur ((s.ctx s.cur).low 1) (16 * 8) 3 = .ok xb) ∧
    StackGrants s 1 permEdst (some (packedSize 17 128)) (max 1 (codeBits 17 / 8)) ∧
    StackGrants s 1 permEsrc (some (packedSize 8 128)) (max 1 (codeBits 8 / 8)) ∧
    StackGrants s 1 permEdst (some (scaleSize 17 128)) 4 ∧ codeBlock 8 = none ∧ codeBlock 17 = some (64, 4) ∧ convBad 8 17 128 1 = false ∧
    convBad 8 16 128 0 = true ∧ codeBlock 16 = none ∧ Settled s := by
  refine ⟨clear_of (by decide +kernel), on_of (by decide +kernel), lone_of (by decide +kernel), by unfold StackGrants; decide +kernel,
    by unfold StackGrants; decide +kernel, by unfold StackGrants; decide +kernel, ⟨_, rfl⟩, ⟨_, rfl⟩, by unfold StackGrants; decide +kernel,
    by unfold StackGrants; decide +kernel, by unfold StackGrants; decide +kernel, by decide, by decide, sure, sure,
    by decide, by unfold Settled; decide +kernel⟩

/-- A copy of 64 bytes from 0x1000 to 0x1400, its flag at 0x1800; a shape of no bytes; a full channel. -/
def copyState : State :=
  { tenant cmp { runs with
      ident := { custodian := true, part := 1 }
      g := [(1, capR 0xFFF 0 0 0 0x1FFF 0 0x1000), (2, capR 0xFFF 0 0 0 0x1FFF 0 0x1400), (3, Reg.ofWord 64), (4, Reg.ofWord 0),
        (5, capR 0xFFF 0 0 0 0x1FFF 0 0x1800), (6, Reg.ofWord 7), (7, Reg.ofWord 3)] } with
    tls := [(8 * 0 + 6, { issued := 2, done := 1 })] }
def copyFull : State := copyState.modCore 0 fun k => { k with channels := [(3, List.range 16)] }

theorem copyGrants_of {s : State} {dims : Dims} {d a b : BitVec 6} {perm : BitVec 12} {h : CopyShape} {xd xa : Xlat} (k : Known s [d, a])
    (q : decide (shapeOf s s.cur dims b = .ok (.ok h) ∧ hullCheck s s.cur d perm (h.dstHull ((s.ctx s.cur).low d)) = .ok () ∧
      hullCheck s s.cur a permEsrc (h.srcHull ((s.ctx s.cur).low a)) = .ok () ∧
      xlatPlaced s s.cur ((s.ctx s.cur).low d) (h.dstHull ((s.ctx s.cur).low d)).2 4 = .ok xd ∧
      xlatPlaced s s.cur (h.srcHull ((s.ctx s.cur).low a)).1 (h.srcHull ((s.ctx s.cur).low a)).2 3 = .ok xa) = true) :
    CopyGrants s dims d a b perm h xd xa := by
  obtain ⟨b1, b2, b3, b4, b5⟩ := of_decide_eq_true q
  exact ⟨k, b1, b2, b3, b4, b5⟩

theorem witness_CopiesAndTimelines :
    let s := copyState
    Clear s plain ∧ On s plain ∧ Lone s ∧ CopyGrants s .d1 2 1 3 permEdst { l := 64 } [(1, 1)] [(1, 1)] ∧ (channelOf s (coreOf s.cur) 3).length < 16 ∧
    Clear copyFull plain ∧ CopyGrants copyFull .d1 2 1 3 permEdst { l := 64 } [(1, 1)] [(1, 1)] ∧ 16 ≤ (channelOf copyFull (coreOf copyFull.cur) 3).length ∧
    (∃ w, Known s [2, 1] ∧ shapeOf s s.cur .d1 4 = .ok (.error w)) ∧ Settled s ∧
    copyrDie s (s.ctx s.cur).ident 9 = some 9 ∧ copyrDie s (s.ctx s.cur).ident 10 = none ∧
    CopyGrants s .d1 2 1 3 (permEdst ||| permRemote) { l := 64 } [(1, 1)] [(1, 1)] ∧ Known s [0, 0 + 1] ∧ Known s [5, 5 + 1] ∧
    hullCheck s s.cur 5 (permSt ||| permRemote) ((s.ctx s.cur).low 5, 8) = .ok () ∧ ((s.ctx s.cur).low 5).toNat % 8 = 0 ∧
    engineAt s s.cur ((s.ctx s.cur).low 5) 8 4 = .ok 0x1800 ∧ Ready s [] (some (.g 63)) ∧
    (∀ e ∈ (s.ctx s.cur).lob, ∀ h d a k l xl rem tl, e.op ≠ .cmd (.copy h d a k l xl 3 rem) tl) ∧
    mayGo s s.cur { id := (s.ctx s.cur).nextId, op := .load [] .now, ident := (s.ctx s.cur).ident } = true ∧ Sends s [.g 0] (.g 63) := by
  refine ⟨clear_of (by decide +kernel), on_of (by decide +kernel), lone_of (by decide +kernel), copyGrants_of (known_of (by decide +kernel)) (by decide +kernel),
    sure, clear_of (by decide +kernel), copyGrants_of (known_of (by decide +kernel)) (by decide +kernel), sure,
    ⟨0, known_of (by decide +kernel), sure⟩, by unfold Settled; decide +kernel, sure, sure,
    copyGrants_of (known_of (by decide +kernel)) (by decide +kernel), known_of (by decide +kernel), known_of (by decide +kernel), sure,
    sure, sure, ready_of (by decide +kernel), ?_, sure, sends_of (by decide +kernel)⟩
  have h : (copyState.ctx copyState.cur).lob = [] := by decide +kernel
  intro e he
  rw [h] at he
  cases he

/-- TLWAIT on tl6 of a context with two commands issued and one completed: the first, the second, and a third. -/
theorem witness_CopiesAndTimelines_tlwait :
    let s := copyState
    let tl := s.tline (tlOwner s s.cur) 6
    (waitNumber s 6 1 ≤ tl.issued ∧ waitNumber s 6 1 ≤ tl.done) ∧ (waitNumber s 6 0 ≤ tl.issued ∧ tl.done < waitNumber s 6 0) ∧
    tl.issued < waitNumber s 6 3 := by
  decide +kernel

end Sys2Proof.Tests
end

