-- ==== Sys2Proof/Tests/WitnessUnits.lean ====
section
/-! SUPPORT. Witnesses for the statements about the vector and matrix engines, the Beacon plane and custody. -/

namespace Sys2Proof.Tests

set_option Elab.async false

open Sys2Proof Sys2Proof.Machine

theorem ok_of {α ε : Type} {r : Except ε α} (b : (match r with | .ok _ => true | .error _ => false) = true) : ∃ a, r = .ok a := by
  cases r with
  | ok a => exact ⟨a, rfl⟩
  | error e => cases b

theorem trap_of {α : Type} {r : Res α} (b : (match r with | .error (.trap _) => true | _ => false) = true) : ∃ t, r = .error (.trap t) := by
  cases r with
  | ok a => cases b
  | error h => cases h <;> first | exact ⟨_, rfl⟩ | cases b

def gives {α ε σ : Type} (r : Except ε α × σ) (p : α → σ → Bool) : Bool := match r with | (.ok h, u) => p h u | _ => false

theorem read_of {α ε σ : Type} {r : Except ε α × σ} {p : α → σ → Bool} (b : gives r p = true) : ∃ h u, r = (.ok h, u) ∧ p h u = true := by
  obtain ⟨r, u⟩ := r
  cases r with
  | ok a => exact ⟨a, u, rfl, b⟩
  | error e => cases b

/-! Vectors. The guard names p1, lanes 0 and 63; p2 is a mask; g10 is an index. -/

def lanes2 : Hdr := { guard := { neg := false, p := 1 }, hints := 0 }
def vecState : State :=
  tenant cmp { runs with
    ident := { custodian := true, part := 1 }, p := [(1, 0x8000000000000001), (2, 3)]
    g := [(1, capR 0xFFF 0 0 0 0x1FFF 0 0x1000), (2, capR 0xFFF 0 0 0 0x1FFF 0 0x1FF8), (10, Reg.ofWord 63), (11, Reg.ofWord 64), (12, Reg.ofWord 1)] }

theorem vecReady_of {s : State} {l : List (BitVec 5)}
    (b : (l.all (fun v => !(s.ctx s.cur).pendV v) && decide ((s.ctx s.cur).vq.length < 2)) = true) : VecReady s l := by
  simp only [Bool.and_eq_true, decide_eq_true_eq] at b
  exact ⟨fun v hv => by simpa using List.all_eq_true.mp b.1 v hv, b.2⟩

theorem witness_VectorElements :
    (∃ f, vecForm (.vadd { h := lanes2, sat := true, ty := .i8, d := 31, a := 31, b := 0 }) = some f ∧ Clear vecState f.h ∧
      vecState.guardLanes f.h ≠ 0 ∧ VecReady vecState (f.d :: f.srcs)) ∧
    (let i : Instr := .vrcp { h := lanes2, sat := false, ty := .f32, d := 31, a := 31 }
     Floats i ∧ ∃ f, functionForm i = some f ∧ Clear vecState f.h ∧ vecState.guardLanes f.h ≠ 0 ∧ VecReady vecState (f.d :: f.srcs)) := by
  refine ⟨⟨_, rfl, clear_of (by decide +kernel), sure, vecReady_of (by decide +kernel)⟩, rfl,
    ⟨_, rfl, clear_of (by decide +kernel), sure, vecReady_of (by decide +kernel)⟩⟩

theorem witness_VectorComparesAndMoves :
    let x := vecState.ctx vecState.cur
    let g := vecState.guardLanes lanes2
    let up : VcvtOps := { h := lanes2, src := .bf16, dst := .f32, d := 1, a := 2, b := .g 12 }
    Clear vecState lanes2 ∧ g ≠ 0 ∧ VecReady vecState [31, 30, 29] ∧ x.pendV 31 = false ∧ x.pendP 2 = false ∧ (VTy.f32).width = 32 ∧
    Ready vecState [.g 12] none ∧ Ready vecState [.g 11] none ∧ (srcWord vecState [] (.g 12)).toNat < parts up ∧
    parts up ≤ (srcWord vecState [] (.g 11)).toNat ∧ Settled vecState ∧ Ready vecState [.g 10] none ∧ Ready vecState [] (some (.g 63)) ∧
    Ready vecState [.g 10] (some (.g 63)) ∧ Ready vecState [.g 1, .g 10] none ∧
    (srcWord vecState [] (.g 10) + (0 : BitVec 35).signExtend 64).toNat < 2048 / (VTy.f32).width ∧
    laneOn g 32 (srcWord vecState [] (.g 10)).toNat = true ∧ (srcWord vecState [] (.g 12)).toNat < 2048 / (VTy.f32).width ∧
    laneOn g 32 (srcWord vecState [] (.g 12)).toNat = false ∧ 2048 / (VTy.f32).width ≤ (srcWord vecState [] (.g 11)).toNat := by
  refine ⟨clear_of (by decide +kernel), sure, vecReady_of (by decide +kernel), sure, sure, by decide,
    ready_of (by decide +kernel), ready_of (by decide +kernel), sure, sure, by unfold Settled; decide +kernel,
    ready_of (by decide +kernel), ready_of (by decide +kernel), ready_of (by decide +kernel), ready_of (by decide +kernel), sure⟩

theorem witness_VectorMemory :
    let s := vecState
    let g := s.guardLanes lanes2
    Clear s lanes2 ∧ Lone s ∧ g ≠ 0 ∧ VecReady s [31, 30] ∧ (s.ctx s.cur).vq = [] ∧ Ready s [.g 12] none ∧ Settled s ∧
    (∃ as, LanesGrant s 1 g false (unitSteps 0) as) ∧ (∃ as, LanesGrant s 1 g true (unitSteps 0xEFC) as) ∧
    (∃ as, LanesGrant (s.taken [.g 0] none) 1 g false (strided 0 (srcWord s [] (.g 0))) as) ∧
    (∃ as, LanesGrant s 1 g false (indexOff ((s.ctx s.cur).vreg 30) 3 0) as) ∧
    (∃ as, LanesGrant s 1 g true (indexOff ((s.ctx s.cur).vreg 30) 3 0) as) ∧
    (∃ t, vlanes s s.cur 2 g false (unitSteps 0) = .error (.trap t)) ∧ ∃ t, vlanes s s.cur 0 g true (unitSteps 0) = .error (.trap t) := by
  refine ⟨clear_of (by decide +kernel), lone_of (by decide +kernel), sure, vecReady_of (by decide +kernel), sure,
    ready_of (by decide +kernel), by unfold Settled; decide +kernel, ok_of (by decide +kernel), ok_of (by decide +kernel),
    ok_of (by decide +kernel), ok_of (by decide +kernel), ok_of (by decide +kernel), trap_of (by decide +kernel), trap_of (by decide +kernel)⟩

/-! The matrix engine of a compute core: the context holds slots 0, 1 and 2 and every accumulator, slot 2 faulted; the
next context holds slot 31. -/

def engine0 : Matrix :=
  { slots := [(0, { owner := some 0 }), (1, { owner := some 0 }), (2, { owner := some 0, state := .faulted 3 0x1000 }), (31, { owner := some 1 })]
    accs := (List.range 8).map fun i => (i, { owner := some 0 }) }
def matState (m : Matrix) : State :=
  (tenant cmp { runs with
    ident := { custodian := true, part := 1 }
    g := [(1, capR 0xFFF 0 0 0 0x1FFF 5 0x10000), (3, Reg.ofWord 64), (4, Reg.ofWord 8)] }).modCore 0 fun k => { k with matrix := m }

def conflictsB (s : State) (slotm : BitVec 32) (accm : BitVec 8) (w : Word) : Bool :=
  (List.range 64).all fun i =>
    let other (o : Option Nat) : Bool := match o with | some c => c != s.cur | none => false
    w.getLsbD i == ((slotm.getLsbD i && other (s.matrix.slot i).owner) || (decide (35 ≤ i) && accm.getLsbD (i - 35) && other (s.matrix.acc (i - 35)).owner))

theorem conflicts_of {s : State} {slotm : BitVec 32} {accm : BitVec 8} {w : Word} (b : conflictsB s slotm accm w = true) :
    Conflicts s slotm accm w := by
  have other (o : Option Nat) : heldByOther s o ↔ (match o with | some c => c != s.cur | none => false) = true := by
    cases o <;> simp [heldByOther]
  intro i
  by_cases h : i < 64
  · have := List.all_eq_true.mp b i (List.mem_range.mpr h)
    simp only [beq_iff_eq] at this
    rw [this, other, other]
    simp [and_assoc]
  · have h1 : w.getLsbD i = false := BitVec.getLsbD_of_ge _ _ (by omega)
    have h2 : slotm.getLsbD i = false := BitVec.getLsbD_of_ge _ _ (by omega)
    have h3 : accm.getLsbD (i - 35) = false := BitVec.getLsbD_of_ge _ _ (by omega)
    simp [h1, h2, h3]

theorem claims_of {s : State} {slots accs : List Nat}
    (b : (slots.all (fun i => (s.matrix.slot i).owner == some s.cur) && accs.all fun i => (s.matrix.acc i).owner == some s.cur) = true) :
    Claims s slots accs := by
  simp only [Bool.and_eq_true, List.all_eq_true, beq_iff_eq] at b
  exact ⟨b.1, b.2⟩

theorem filled_of {s : State} {slots accs : List Nat}
    (b : (slots.all (fun i => (s.matrix.slot i).state != .loading) && accs.all fun i => !accLoading s s.cur i) = true) : Filled s slots accs := by
  simp only [Bool.and_eq_true, List.all_eq_true, bne_iff_ne, Bool.not_eq_true'] at b
  exact ⟨b.1, b.2⟩

theorem sound_slots {s : State} {l : List Nat} (b : (l.all fun i => (s.matrix.slot i).state == .ready) = true) :
    ∀ i ∈ l, ∀ r pa, (s.matrix.slot i).state ≠ .faulted r pa := by
  intro i hi r pa h
  have := List.all_eq_true.mp b i hi
  rw [h] at this
  cases this

def mldOne : MldOps := { h := plain, sw := false, mode := .rows, a := 1, b := .g 3, slot := 1, span2 := false, zrows := 0 }
def mmaOne : MmaOps :=
  { h := plain, ty := .bf16, b := .g 0, sa := 0, sb := 1, accd := 7, accc := 7, z := false, ip := false, f := false, m := false, diag := 0 }

theorem witness_MatrixItemsAndLoads :
    let s := matState engine0
    let free := matState {}
    Clear s plain ∧ On s plain ∧ Lone s ∧ Ready s [] (some (.g 63)) ∧ holdsClaims s s.cur = true ∧ Conflicts s 0x80000000 0x80 0x80000000 ∧
    Conflicts s 8 0 0 ∧ Clear free plain ∧ Lone free ∧ Ready free [] (some (.g 63)) ∧ holdsClaims free free.cur = false ∧
    (∃ xl, ImageGrants free 1 xl ∧ contiguous xl = true) ∧ Conflicts free 0xFFFFFFFF 0xFF 0 ∧
    (∀ e ∈ s.matrix.queue, e.1 ≠ s.cur) ∧ Filled s [0, 1] [0, 7] ∧ Ready s [.g 3] none ∧ Known s [1] ∧ Claims s (mldSlots mldOne) [] ∧
    (srcWord s [] (.g 3)).toNat % 16 = 0 ∧ ((s.ctx s.cur).low 1).toNat % 16 = 0 ∧
    (∃ as, pieceAccess (s.taken [.g 3] none) s.cur 1 (piecesOf (mldRows mldOne) (mldWidth mldOne) (mldSource mldOne ((s.ctx s.cur).low 1) (srcWord s [] (.g 3)))) = .ok as) ∧
    (srcWord s [] (.g 4)).toNat % 16 ≠ 0 ∧ Ready s [.g 4] none ∧ Settled s ∧ Claims s [] [7] ∧
    (∃ as, pieceAccess (s.taken [.g 3] none) s.cur 1 (piecesOf 32 128 (rowSource ((s.ctx s.cur).low 1) (srcWord s [] (.g 3)))) = .ok as) ∧ s.engineRoom ∧ free.engineRoom ∧
    FirstUnclaimed s [31] [] 31 ∧ FirstUnclaimed free [] [7] 39 := by
  refine ⟨clear_of (by decide +kernel), on_of (by decide +kernel), lone_of (by decide +kernel), ready_of (by decide +kernel), sure,
    conflicts_of (by decide +kernel), conflicts_of (by decide +kernel), clear_of (by decide +kernel), lone_of (by decide +kernel),
    ready_of (by decide +kernel), sure, ⟨(List.range 26).map fun i => (16 + i, 16 + i), ⟨known_of (by decide +kernel), sure,
      sure, sure⟩, sure⟩, conflicts_of (by decide +kernel), nofun, filled_of (by decide +kernel),
    ready_of (by decide +kernel), known_of (by decide +kernel), claims_of (by decide +kernel), sure, sure,
    ok_of (by decide +kernel), sure, ready_of (by decide +kernel), by unfold Settled; decide +kernel, claims_of (by decide +kernel),
    ok_of (by decide +kernel), sure, sure, .inl ⟨by decide, by decide, sure, fun i hi hl => ?_⟩, .inr ⟨7, rfl, by decide, nofun, sure, fun i hi hl => ?_⟩⟩
  · simp only [List.mem_singleton] at hi; omega
  · simp only [List.mem_singleton] at hi; omega

/-- An address not contiguous behind its pages, one misaligned for a swizzled load, and an engine at its queue's last
place. -/
theorem witness_MatrixItemsAndLoads_edges :
    contiguous [(16, 16), (17, 18)] = false ∧ (0x10010 : Word).toNat % 1024 ≠ 0 ∧
    (64 : Word).toNat + mldWidth { mldOne with mode := .rows, sw := true } ≤ 128 ∧ ¬ (65 : Word).toNat + mldWidth { mldOne with sw := true } ≤ 128 := by
  decide +kernel

theorem convertFlags_none {s : State} {acc : BitVec 3} {si : Bool} {ty : AccTy} {rm : BitVec 3}
    (b : ((List.range 32).all fun i => (List.range 32).all fun j => (convertedAt s acc si ty rm i j).2 == 0) = true) :
    ConvertFlags s acc si ty rm 0 := by
  intro b'
  constructor
  · intro h; simp at h
  · rintro ⟨i, j, hi, hj, h⟩
    have := List.all_eq_true.mp (List.all_eq_true.mp b i (List.mem_range.mpr hi)) j (List.mem_range.mpr hj)
    rw [beq_iff_eq] at this
    rw [this] at h
    simp at h

/-- Image headers at 0x10000: one that is malformed, one that names slot 31, and one that names slot 5. -/
def headed (w : Nat) : State := { matState engine0 with mem := cells 0x10000 [w] }

theorem witness_MatrixProductsAndImages :
    let s := matState engine0
    Clear s plain ∧ On s plain ∧ Lone s ∧ Ready s [.g 0] none ∧ MayMultiply s (mmaSlots mmaOne) (mmaAccs mmaOne) ∧
    MayMultiply s (mternSlots { h := plain, n8 := true, sa := 0, sb := 0, accd := 7, accc := 0, z := false, ip := false, m := true, diag := 63 }) [7, 0] ∧
    Settled s ∧ (s.matrix.slot 2).state = .faulted 3 0x1000 ∧ Claims s (mmaSlots { mmaOne with sb := 2 }) (mmaAccs mmaOne) ∧
    Filled s (mmaSlots { mmaOne with sb := 2 }) (mmaAccs mmaOne) ∧ 2 ∈ mmaSlots { mmaOne with sb := 2 } ∧
    Claims s [1] [7] ∧ Filled s [1] [7] ∧ accTyBytes .e4m3 = 1 ∧ accTyBytes .bf16 ≤ 2 ∧ ConvertFlags s 7 false .bf16 0 0 ∧
    (∃ xl, StoreGrants s { h := plain, si := false, ty := .bf16, a := 1, b := .g 3, acc := 7, rm := 0 } (srcWord s [] (.g 3)) xl) ∧
    s.engineRoom ∧ (∃ xl, WholeImage s 1 permEdst 4 xl) ∧
    Filled s ((List.range 32).filter fun i => (s.matrix.slot i).owner == some s.cur) ((List.range 8).filter fun i => (s.matrix.acc i).owner == some s.cur) := by
  refine ⟨clear_of (by decide +kernel), on_of (by decide +kernel), lone_of (by decide +kernel), ready_of (by decide +kernel),
    ⟨claims_of (by decide +kernel), filled_of (by decide +kernel), sound_slots (by decide +kernel), sure⟩,
    ⟨claims_of (by decide +kernel), filled_of (by decide +kernel), sound_slots (by decide +kernel), sure⟩,
    by unfold Settled; decide +kernel, sure, claims_of (by decide +kernel), filled_of (by decide +kernel), sure,
    claims_of (by decide +kernel), filled_of (by decide +kernel), by decide, by decide, convertFlags_none (by decide +kernel),
    ?_, sure, ⟨(List.range 26).map fun i => (16 + i, 16 + i), known_of (by decide +kernel), sure, sure, sure⟩,
    filled_of (by decide +kernel)⟩
  obtain ⟨xl, h⟩ := ok_of (r := (piecesOf 32 64 (rowSource (((matState engine0).ctx 0).low 1) (srcWord (matState engine0) [] (.g 3)))).foldlM
    (fun (l : Xlat) p => do let x ← xlatPlaced (matState engine0) 0 (BitVec.ofNat 64 p.1) p.2 4; pure (l ++ x)) []) (by decide +kernel)
  exact ⟨xl, known_of (by decide +kernel), sure, sure, sure, h⟩

/-- Sixteen accesses of an image header at 0x10000; an MRESTORE that its load has answered. -/
def headAccs : List Acc := (List.range 16).map fun j => { ea := BitVec.ofNat 64 (0x10000 + 16 * j), pa := 0x10000 + 16 * j, n := 16 }
def restored : State :=
  (matState engine0).modCtx cmp fun x => { x with run := .blocked (.load false (.g 63)) 0, sent := true, reply := some (.ok 0) }

theorem witness_MatrixProductsAndImages_restore :
    (let s := matState engine0
     Clear s plain ∧ On s plain ∧ Lone s ∧ s.engineRoom ∧ (∃ xl, WholeImage s 1 permLd 0 xl) ∧
      ∀ v e n, (s.ctx s.cur).run ≠ .blocked (.load v e) n) ∧
    (Clear restored plain ∧ On restored plain ∧ Lone restored ∧ Given restored (.g 63) false 0 ∧ Ready restored [] (some (.g 63))) ∧
    (∃ b u, readPieces (headed (2 ^ 40)) 0 0 ((headed (2 ^ 40)).ctx 0).ident headAccs = (.ok b, u) ∧ readHeader (b.take 0x100) = none) ∧
    (∃ b u, readPieces (headed (2 ^ 31)) 0 0 ((headed (2 ^ 31)).ctx 0).ident headAccs = (.ok b, u) ∧
      readHeader (b.take 0x100) = some (2 ^ 31, 0, 0, 0) ∧ Conflicts { u with cur := 0 } (2 ^ 31) 0 0x80000000) ∧
    ∃ b u, readPieces (headed (2 ^ 5)) 0 0 ((headed (2 ^ 5)).ctx 0).ident headAccs = (.ok b, u) ∧
      readHeader (b.take 0x100) = some (2 ^ 5, 0, 0, 0) ∧ Conflicts { u with cur := 0 } (2 ^ 5) 0 0 := by
  refine ⟨⟨clear_of (by decide +kernel), on_of (by decide +kernel), lone_of (by decide +kernel), sure,
      ⟨(List.range 26).map fun i => (16 + i, 16 + i), known_of (by decide +kernel), sure, sure, sure⟩,
      nofun⟩,
    ⟨clear_of (by decide +kernel), on_of (by decide +kernel), lone_of (by decide +kernel), ⟨⟨0, sure⟩, sure⟩,
      ready_of (by decide +kernel)⟩, ?_, ?_, ?_⟩
  · obtain ⟨b, u, e, h⟩ := read_of (r := readPieces (headed (2 ^ 40)) 0 0 ((headed (2 ^ 40)).ctx 0).ident headAccs)
      (p := fun b _ => decide (readHeader (b.take 0x100) = none)) (by decide +kernel)
    exact ⟨b, u, e, of_decide_eq_true h⟩
  · obtain ⟨b, u, e, h⟩ := read_of (r := readPieces (headed (2 ^ 31)) 0 0 ((headed (2 ^ 31)).ctx 0).ident headAccs)
      (p := fun b u => decide (readHeader (b.take 0x100) = some (2 ^ 31, 0, 0, 0)) && conflictsB { u with cur := 0 } (2 ^ 31) 0 0x80000000)
      (by decide +kernel)
    rw [Bool.and_eq_true] at h
    exact ⟨b, u, e, of_decide_eq_true h.1, conflicts_of h.2⟩
  · obtain ⟨b, u, e, h⟩ := read_of (r := readPieces (headed (2 ^ 5)) 0 0 ((headed (2 ^ 5)).ctx 0).ident headAccs)
      (p := fun b u => decide (readHeader (b.take 0x100) = some (2 ^ 5, 0, 0, 0)) && conflictsB { u with cur := 0 } (2 ^ 5) 0 0)
      (by decide +kernel)
    rw [Bool.and_eq_true] at h
    exact ⟨b, u, e, of_decide_eq_true h.1, conflicts_of h.2⟩

end Sys2Proof.Tests
end

