-- ==== Sys2Proof/Tests/WitnessPlanes.lean ====
section
/-! SUPPORT. Witnesses for the statements about the Beacon plane and custody. -/

namespace Sys2Proof.Tests

set_option Elab.async false

open Sys2Proof Sys2Proof.Machine

/-! Lanes 0, 1, 2, 4 and 15 are assigned to the partition: 1 is bound by another virtual function, 2 to identifier 5 by
the context's own, 4 is to be moved to partition 2; lane 3 is not assigned. -/

def beaconState (l : Level) (sent : Bool) (reply : Option Reply) : State :=
  { tenant hostCtx { runs with
      level := l, sent := sent, reply := reply, ident := { custodian := l == .custodian, part := 1, world := false }
      g := [(10, Reg.ofWord 7)] } with
    lanes := [(0, { part := 1 }), (1, { part := 1, bound := true, vf := 1 }), (2, { part := 1, bound := true, cid := 5 }), (4, { part := 1, staged := [.assign 2] }), (15, { part := 1 })] }

theorem witness_BeaconInstructions :
    let s := beaconState .task false none
    let u := beaconState .task true none
    let v := beaconState .task true (some (.ok 3))
    Clear s plain ∧ On s plain ∧ Sends s [.g 10] (.g 63) ∧ Ready s [.g 10] (some (.g 63)) ∧ Sends s [] (.g 63) ∧
    Ready s [] (some (.g 63)) ∧ (s.ctx s.cur).sent = false ∧
    Clear u plain ∧ On u plain ∧ Lone u ∧ (u.ctx u.cur).sent = true ∧ (u.ctx u.cur).reply = none ∧
    Clear v plain ∧ On v plain ∧ Lone v ∧ (v.ctx v.cur).sent = true ∧ (v.ctx v.cur).reply = some (.ok 3) := by
  refine ⟨clear_of (by decide +kernel), on_of (by decide +kernel), sends_of (by decide +kernel), ready_of (by decide +kernel), sends_of (by decide +kernel),
    ready_of (by decide +kernel), sure, clear_of (by decide +kernel), on_of (by decide +kernel), lone_of (by decide +kernel), sure, sure,
    clear_of (by decide +kernel), on_of (by decide +kernel), lone_of (by decide +kernel), sure, sure⟩

theorem witness_BeaconInstructions_bind :
    let s := beaconState .kernel false none
    let k := beaconState .custodian false none
    let l (n : Nat) : Lane := (s.lane n).after (s.lane n).staged.length
    Clear s plain ∧ On s plain ∧ Privileged s ∧ Sends s [] (.g 63) ∧ NotAssigned s (l 3) ∧ (¬ NotAssigned s (l 1) ∧ BoundByOther s (l 1)) ∧
    (NotAssigned s (l 4) ∧ ¬ NotAssigned s (s.lane 4)) ∧ (¬ NotAssigned s (l 15) ∧ ¬ BoundByOther s (l 15) ∧ BoundOnOther s 15 (l 15).part 5) ∧
    (¬ NotAssigned s (l 0) ∧ ¬ BoundByOther s (l 0) ∧ ¬ BoundOnOther s 0 (l 0).part 4) ∧
    (s.ctx s.cur).level = .kernel ∧ Settled s ∧ Clear k plain ∧ On k plain ∧ (k.ctx k.cur).level = .custodian ∧ Sends k [] (.g 63) ∧
    (16 ≤ (16 : BitVec 8).toNat ∧ (16 : BitVec 8) ≠ 0xFF) ∧ (15 : BitVec 8).toNat < 16 := by
  refine ⟨clear_of (by decide +kernel), on_of (by decide +kernel), by unfold Privileged; decide +kernel, sends_of (by decide +kernel),
    by unfold NotAssigned; decide +kernel, ⟨by unfold NotAssigned; decide +kernel, by unfold BoundByOther; decide +kernel⟩,
    ⟨by unfold NotAssigned; decide +kernel, by unfold NotAssigned; decide +kernel⟩,
    ⟨by unfold NotAssigned; decide +kernel, by unfold BoundByOther; decide +kernel, 2, 0, by decide, by decide, sure, sure⟩,
    ⟨by unfold NotAssigned; decide +kernel, by unfold BoundByOther; decide +kernel, ?_⟩, sure, by unfold Settled; decide +kernel,
    clear_of (by decide +kernel), on_of (by decide +kernel), sure, sends_of (by decide +kernel), by decide, by decide⟩
  rintro ⟨j, k, hj, -, hk, hb, -, hc⟩
  have clear : ∀ j : Fin 16, ∀ k : Fin 2, k.val ≤ ((beaconState .kernel false none).lane j.val).staged.length →
      ((((beaconState .kernel false none).lane j.val).after k.val).bound = true →
        ¬ (((beaconState .kernel false none).lane j.val).after k.val).cid = 4) ∧
      ((beaconState .kernel false none).lane j.val).staged.length < 2 := by decide +kernel
  have hl : ((beaconState .kernel false none).lane j).staged.length < 2 := (clear ⟨j, hj⟩ 0 (Nat.zero_le _)).2
  exact (clear ⟨j, hj⟩ ⟨k, by omega⟩ hk).1 hb hc

/-! Custody of frame 4096, named by g10; g11 names no frame's first byte, g12 the record's own frame. -/

def custody (l : Level) (world : Bool) (st : Nat) (part : BitVec 8) (owner : Bool) : State :=
  let s := tenant hostCtx { runs with
    level := l, ident := { custodian := l == .custodian, part := 1, world := world }
    g := [(10, Reg.ofWord 0x10000000), (11, Reg.ofWord 0x10000001), (12, Reg.ofWord 0x10000), (13, Reg.ofWord 0xFFFF), (14, Reg.ofWord 0x101), (15, Reg.ofWord 2)] }
  putEntry { s with bases := [(0, { custEn := true, custBase := 0x10000 })] } 4096 st part 0 owner 0 0

def one (d : Nat) : DstSrc := { h := plain, d := .g 63, a := .g (BitVec.ofNat 6 d) }
def two2 (a b : Nat) : DstSrc2 := { h := plain, d := .g 63, a := .g (BitVec.ofNat 6 a), b := .g (BitVec.ofNat 6 b) }

theorem accepts (o : DstSrc) (e : Word) (w sus : Bool) (t v : Word) (h : entState e = 2 ∧ (entOwner e == w) = false) :
    ∃ r, custodyRow (.faccept o) e w sus t v = .ok r ∧ r.losers ≠ [] := ⟨_, if_pos h, List.cons_ne_nil _ _⟩

theorem noHold {s : State} {f : Nat} (b : s.holds = []) : Unheld s f := fun h hh => by rw [b] at hh; cases hh

theorem turn_of {s : State} {f : CustodyForm} (c : f.custodian = false)
    (b : (clearB s f.h && (guardOf (s.ctx s.cur) f.h.guard).getLsbD 0 && (s.ctx s.cur).level != .task && (hasB s f.srcs (some f.d) && (f.d.local &&
      released s s.cur .part)) && !(s.ctx s.cur).sent) = true) : CustodyTurn s f := by
  simp only [Bool.and_eq_true, bne_iff_ne, Bool.not_eq_true'] at b
  obtain ⟨⟨⟨⟨b1, b2⟩, b3⟩, b4⟩, b5⟩ := b
  exact ⟨clear_of b1, b2, by rw [c]; exact b3, sends_of (by simp only [Bool.and_eq_true]; exact b4), b5⟩

theorem custodianTurn_of {s : State} {f : CustodyForm} (c : f.custodian = true)
    (b : (clearB s f.h && (guardOf (s.ctx s.cur) f.h.guard).getLsbD 0 && (s.ctx s.cur).level == .custodian && (hasB s f.srcs (some f.d) && (f.d.local &&
      released s s.cur .part)) && !(s.ctx s.cur).sent) = true) : CustodyTurn s f := by
  simp only [Bool.and_eq_true, beq_iff_eq, Bool.not_eq_true'] at b
  obtain ⟨⟨⟨⟨b1, b2⟩, b3⟩, b4⟩, b5⟩ := b
  exact ⟨clear_of b1, b2, by rw [c]; exact b3, sends_of (by simp only [Bool.and_eq_true]; exact b4), b5⟩

theorem witness_CustodyTransactions :
    let s := custody .kernel false 1 1 false
    (∃ f, custodyForm (.fofferGrant (two2 10 14)) = some f ∧ Clear s f.h ∧ On s f.h ∧ f.custodian = true ∧ (s.ctx s.cur).level = .kernel ∧ Settled s) ∧
    (∃ f, custodyForm (.foffer (one 11)) = some f ∧ CustodyTurn s f ∧ (custodyWords s f).1.toNat % 65536 ≠ 0 ∧ Settled s) ∧
    (∃ f, custodyForm (.flend (two2 10 12)) = some f ∧ CustodyTurn s f ∧ (custodyWords s f).1.toNat % 65536 = 0 ∧ 2 ^ 16 ≤ (custodyWords s f).2.toNat) ∧
    (∃ f, custodyForm (.flend (two2 10 13)) = some f ∧ CustodyTurn s f ∧ (custodyWords s f).1.toNat = 4096 * 65536 ∧ (custodyWords s f).2.toNat < 2 ^ 16 ∧
      revokeOf s 4096 = none ∧ frameNamed s 4096 = true ∧ OwnFrame s 4096 ∧ Unheld s 4096 ∧
      (custodyRow (.flend (two2 10 13)) (entry0 s 4096) false (suspended s (strikesOf s 1 0 true)) s.time (custodyWords s f).2).isOk = true ∧
      (custodyRow (.frecall (one 10)) (entry0 s 4096) false (suspended s (strikesOf s 1 0 true)) s.time 0).isOk = false) ∧
    (∃ f, custodyForm (.foffer (one 12)) = some f ∧ CustodyTurn s f ∧ (custodyWords s f).1.toNat = 1 * 65536 ∧ revokeOf s 1 = none ∧ frameNamed s 1 = false) := by
  refine ⟨⟨_, rfl, clear_of (by decide +kernel), on_of (by decide +kernel), rfl, sure, by unfold Settled; decide +kernel⟩,
    ⟨_, rfl, turn_of rfl (by decide +kernel), sure, by unfold Settled; decide +kernel⟩,
    ⟨_, rfl, turn_of rfl (by decide +kernel), sure, sure⟩,
    ⟨_, rfl, turn_of rfl (by decide +kernel), sure, sure, sure, sure,
      ⟨sure, sure, sure, sure⟩, noHold (by decide +kernel), sure, sure⟩,
    ⟨_, rfl, turn_of rfl (by decide +kernel), sure, sure, sure⟩⟩

/-- The frame another partition's; held; its withdrawal under way; an acceptance, in which a world loses its rights;
queries. -/
theorem witness_CustodyTransactions_refused :
    let s := custody .kernel false 1 2 false
    let held : State := { custody .kernel false 1 1 false with holds := [{ tag := 0, frame := 4096, line := 0, since := 0 }] }
    let busy := (custody .kernel false 1 1 false).modBase 0 fun b => { b with revokes := [{ frame := 4096, losers := [] }] }
    let offered := custody .kernel true 2 1 false
    (∃ f, custodyForm (.foffer (one 10)) = some f ∧ CustodyTurn s f ∧ (custodyWords s f).1.toNat = 4096 * 65536 ∧ f.own = true ∧
      frameNamed s 4096 = true ∧ ¬ OwnFrame s 4096 ∧ ¬ (isQuery (.foffer (one 10)) = true ∧ (s.ctx s.cur).ident.custodian = true)) ∧
    (∃ f, custodyForm (.fqueryState (one 10)) = some f ∧ CustodyTurn held f ∧ OwnFrame held 4096 ∧ ¬ Unheld held 4096) ∧
    (∃ f, custodyForm (.fqueryDl (one 10)) = some f ∧ CustodyTurn busy f ∧ ¬ revokeOf busy 4096 = none) ∧
    (∃ f, custodyForm (.faccept (one 10)) = some f ∧ CustodyTurn offered f ∧ OwnFrame offered 4096 ∧ Unheld offered 4096 ∧
      ∃ r, custodyRow (.faccept (one 10)) (entry0 offered 4096) true (suspended offered (strikesOf offered 1 0 false)) offered.time 0 = .ok r ∧ r.losers ≠ []) := by
  refine ⟨⟨_, rfl, turn_of rfl (by decide +kernel), sure, rfl, sure, fun h => absurd h.part (by decide +kernel), nofun⟩,
    ⟨_, rfl, turn_of rfl (by decide +kernel), ⟨sure, sure, sure, sure⟩,
      fun h => h _ (List.mem_singleton.mpr rfl) rfl rfl⟩,
    ⟨_, rfl, turn_of rfl (by decide +kernel), sure⟩,
    ⟨_, rfl, turn_of rfl (by decide +kernel), ⟨sure, sure, sure, sure⟩, noHold (by decide +kernel), ?_⟩⟩
  have h : entState (entry0 (custody .kernel true 2 1 false) 4096) = 2 ∧ (entOwner (entry0 (custody .kernel true 2 1 false) 4096) == true) = false := by
    decide +kernel
  exact accepts _ _ _ _ _ _ h

/-- The custodian's grant of an unassigned frame, to a holder (g14) and to none (g15), and of an assigned one; its
reclaim of both; a reply that has come and one that has not; the entry written. -/
theorem witness_CustodyTransactions_custodian :
    let s := custody .custodian true 0 0 false
    let a := custody .custodian true 3 1 true
    let r := s.modCtx hostCtx fun x => { x with sent := true, reply := some (.ok 0) }
    let w := s.modCtx hostCtx fun x => { x with sent := true }
    (∃ f, custodyForm (.fofferGrant (two2 10 14)) = some f ∧ CustodyTurn s f ∧ CustodyTurn a f ∧ Unheld s 4096 ∧ frameNamed s 4096 = true ∧
      entState (entry0 s 4096) = 0 ∧ entState (entry0 a 4096) ≠ 0 ∧
      ¬ (2 ^ 12 ≤ (custodyWords s f).2.toNat ∨ (custodyWords s f).2.extractLsb' 1 3 ≠ 0)) ∧
    (∃ f, custodyForm (.fofferGrant (two2 10 15)) = some f ∧ CustodyTurn s f ∧ (custodyWords s f).2.extractLsb' 1 3 ≠ 0) ∧
    (∃ f, custodyForm (.fofferReclaim (one 10)) = some f ∧ CustodyTurn s f ∧ CustodyTurn a f) ∧
    (∃ f, custodyForm (.fofferGrant (two2 10 14)) = some f ∧ Clear r f.h ∧ Lone r ∧ (r.ctx r.cur).sent = true ∧ (r.ctx r.cur).reply = some (.ok 0) ∧
      Clear w f.h ∧ Lone w ∧ (w.ctx w.cur).sent = true ∧ (w.ctx w.cur).reply = none) ∧
    Clear s plain ∧ On s plain ∧ Privileged s ∧ Sends s [] (.g 63) ∧ RecordSound s 4096 := by
  refine ⟨⟨_, rfl, custodianTurn_of rfl (by decide +kernel), custodianTurn_of rfl (by decide +kernel), noHold (by decide +kernel), sure, sure,
      sure, sure⟩,
    ⟨_, rfl, custodianTurn_of rfl (by decide +kernel), sure⟩,
    ⟨_, rfl, custodianTurn_of rfl (by decide +kernel), custodianTurn_of rfl (by decide +kernel)⟩,
    ⟨_, rfl, clear_of (by decide +kernel), lone_of (by decide +kernel), sure, sure, clear_of (by decide +kernel),
      lone_of (by decide +kernel), sure, sure⟩,
    clear_of (by decide +kernel), on_of (by decide +kernel), by unfold Privileged; decide +kernel, sends_of (by decide +kernel),
    ⟨sure, ?_, sure, sure, sure⟩⟩
  have h : ∀ j : Fin 16, isHbm (entryAddr (custody .custodian true 0 0 false) 4096 + j.val) = true := by decide +kernel
  exact fun j hj => h ⟨j, hj⟩

end Sys2Proof.Tests
end

