-- ==== Sys2Proof/Tests/WitnessSteps.lean ====
section
/-! SUPPORT. Witnesses for the statements about loads, stores, requests and engine commands as they are performed. -/

namespace Sys2Proof.Tests

set_option Elab.async false

open Sys2Proof Sys2Proof.Machine

def owner : Ident := { custodian := true, part := 1 }
def outsider : Ident := { part := 1 }

/-- A context with one entry in its order buffer, over memory that holds 5 at 0x1000 and 7 at 0x1008. -/
def lobState (i : Ident) (op : LobOp) : State :=
  { tenant cmp { runs with ident := i, lob := [{ id := 5, op := op, ident := i }] } with mem := cells 0x1000 [5, 7] }
def cell (pa n : Nat) (lane : Nat := 0) : Acc := { ea := BitVec.ofNat 64 pa, pa := pa, n := n, lane := lane }

theorem entry_of {s : State} {c id : Nat} {e : LobEntry} (b : decide (lobAt s c id = some e ∧ mayGo s c e = true) = true) : EntryTurn s c id e := by
  obtain ⟨b1, b2⟩ := of_decide_eq_true b
  exact ⟨b1, b2⟩

def turnB (s : State) (as : List Acc) (d : LoadDst) (i : Ident) : Bool :=
  (touched s 0 5 d as).all (fun a => !accessWaits s 0 a) && (s.ctx 0).vecTurn 5 && (failedSeal s 0 5 i (touched s 0 5 d as)).isNone

theorem load_of {i : Ident} {as : List Acc} {d : LoadDst}
    (b : decide (lobAt (lobState i (.load as d)) 0 5 = some { id := 5, op := .load as d, ident := i } ∧
      mayGo (lobState i (.load as d)) 0 { id := 5, op := .load as d, ident := i } = true) = true)
    (h : turnB (lobState i (.load as d)) as d i = true) :
    LoadTurn (lobState i (.load as d)) 0 5 { id := 5, op := .load as d, ident := i } as d := by
  simp only [turnB, Bool.and_eq_true, List.all_eq_true, Bool.not_eq_true', Option.isNone_iff_eq_none] at h
  exact ⟨⟨entry_of b, rfl, fun _ _ => h.1.2, h.1.1⟩, h.2⟩

def refuses' {α σ : Type} (r : Except Trap α × σ) (p : Trap → Bool) : Bool := match r with | (.error t, _) => p t | _ => false

theorem refused_of {α σ : Type} {r : Except Trap α × σ} {p : Trap → Bool} (b : refuses' r p = true) : ∃ t u, r = (.error t, u) ∧ p t = true := by
  obtain ⟨r, u⟩ := r
  cases r with
  | ok a => cases b
  | error e => exact ⟨e, u, rfl, b⟩

def lobEntry (i : Ident) (op : LobOp) : LobEntry := { id := 5, op := op, ident := i }
def loading (i : Ident) (as : List Acc) (d : LoadDst) : State :=
  (lobState i (.load as d)).caching 0 5 (lobEntry i (.load as d)) as

theorem lob_reads {i : Ident} {d : LoadDst} {a : Acc}
    (h : gives (readAt ((lobState i (.load [a] d)).reading 0 5 (lobEntry i (.load [a] d)) a) 0 5 i a) (fun _ _ => true) = true) :
    ∃ b u, readAt ((lobState i (.load [a] d)).reading 0 5 (lobEntry i (.load [a] d)) a) 0 5 i a = (.ok b, u) := by
  obtain ⟨b, u, e, -⟩ := read_of h
  exact ⟨b, u, e⟩

theorem witness_LoadsPerform_registers :
    let ld (i : Ident) := lobState i (.load [cell 0x1000 8] (.scalar 10 .i64))
    let ldc := lobState owner (.load [cell 0x1000 16] (.cap 10 true))
    let ldtg (i : Ident) := lobState i (.load [cell 0x1000 32] (.lock 10))
    let own := lobState owner (.load [cell 0x1000 8] (.reply false))
    (∃ e, LoadTurn (ld owner) 0 5 e [cell 0x1000 8] (.scalar 10 .i64) ∧
      ∃ b u, readAt ((ld owner).reading 0 5 e (cell 0x1000 8)) 0 5 e.ident (cell 0x1000 8) = (.ok b, u)) ∧
    (∃ e, LoadTurn (ld outsider) 0 5 e [cell 0x1000 8] (.scalar 10 .i64) ∧
      ∃ t u, readAt ((ld outsider).reading 0 5 e (cell 0x1000 8)) 0 5 e.ident (cell 0x1000 8) = (.error t, u)) ∧
    (∃ e, LoadTurn ldc 0 5 e [cell 0x1000 16] (.cap 10 true) ∧
      ∃ b u, readAt (ldc.reading 0 5 e (cell 0x1000 16)) 0 5 e.ident (cell 0x1000 16) = (.ok b, u)) ∧
    (∃ e, LoadTurn (ldtg owner) 0 5 e [cell 0x1000 32] (.lock 10) ∧
      homeRights ((ldtg owner).caching 0 5 e [cell 0x1000 32]) e.ident 0x1000 = true) ∧
    (∃ e, LoadTurn (ldtg outsider) 0 5 e [cell 0x1000 32] (.lock 10) ∧
      homeRights ((ldtg outsider).caching 0 5 e [cell 0x1000 32]) e.ident 0x1000 = false) ∧
    (∃ e, LoadTurn (lobState owner (.load [cell 0x1000 32] (.reply true))) 0 5 e [cell 0x1000 32] (.reply true) ∧
      e.op = .load [cell 0x1000 32] (.reply true)) ∧
    (∃ e, LoadTurn own 0 5 e [cell 0x1000 8] (.reply false) ∧
      ∃ b u, readAt (own.reading 0 5 e (cell 0x1000 8)) 0 5 e.ident (cell 0x1000 8) = (.ok b, u)) := by
  refine ⟨⟨_, load_of (by decide +kernel) (by decide +kernel), lob_reads (by decide +kernel)⟩,
    ⟨_, load_of (by decide +kernel) (by decide +kernel), ?_⟩,
    ⟨_, load_of (by decide +kernel) (by decide +kernel), lob_reads (by decide +kernel)⟩,
    ⟨_, load_of (by decide +kernel) (by decide +kernel), sure⟩,
    ⟨_, load_of (by decide +kernel) (by decide +kernel), sure⟩,
    ⟨_, load_of (by decide +kernel) (by decide +kernel), rfl⟩,
    ⟨_, load_of (by decide +kernel) (by decide +kernel), lob_reads (by decide +kernel)⟩⟩
  obtain ⟨t, u, h, -⟩ := refused_of (r := readAt ((lobState outsider (.load [cell 0x1000 8] (.scalar 10 .i64))).reading 0 5
      (lobEntry outsider (.load [cell 0x1000 8] (.scalar 10 .i64))) (cell 0x1000 8)) 0 5 outsider (cell 0x1000 8))
    (p := fun _ => true) (by decide +kernel)
  exact ⟨t, u, h⟩

def accs : List Acc := (List.range 256).map fun i => cell (0x1000 + 16 * i) 16
def slotMap : List (Nat × Nat) := (List.range 64).map fun i => (i, i)
def vecAccs : List Acc := [cell 0x1000 4 0, cell 0x1004 4 63, cell 0x1000 4 5]

theorem witness_LoadsPerform_engines :
    (∃ e, LoadTurn (lobState owner (.load vecAccs (.vec 31))) 0 5 e vecAccs (.vec 31) ∧ (vecAccs.map (·.lane)).Nodup ∧
      ∃ l u, readLanes ((lobState owner (.load vecAccs (.vec 31))).caching 0 5 e vecAccs) 0 5 e.ident vecAccs = (.ok l, u)) ∧
    (∃ e, LoadTurn (lobState outsider (.load vecAccs (.vec 31))) 0 5 e vecAccs (.vec 31) ∧
      ∃ t u, readLanes ((lobState outsider (.load vecAccs (.vec 31))).caching 0 5 e vecAccs) 0 5 e.ident vecAccs = (.error t, u)) ∧
    (∃ e, LoadTurn (lobState owner (.load accs (.acc 7))) 0 5 e accs (.acc 7) ∧
      ∃ b u, readPieces ((lobState owner (.load accs (.acc 7))).caching 0 5 e accs) 0 5 e.ident accs = (.ok b, u)) ∧
    (slotMap.Pairwise (fun x y => x.2 ≠ y.2) ∧ ∀ x ∈ slotMap, x.2 < 2048) ∧
    (let s (i : Ident) := lobState i (.load [cell 0x1000 64] (.slots 1 false false slotMap))
     (∃ e, LoadTurn (s owner) 0 5 e [cell 0x1000 64] (.slots 1 false false slotMap) ∧ cmdStopped (s owner) e.ident = false ∧
        ∃ b u, readPieces ((s owner).caching 0 5 e [cell 0x1000 64]) 0 5 e.ident [cell 0x1000 64] = (.ok b, u)) ∧
     ∃ e, LoadTurn (s outsider) 0 5 e [cell 0x1000 64] (.slots 1 false false slotMap) ∧ cmdStopped (s outsider) e.ident = false ∧
        ∃ t u, readPieces ((s outsider).caching 0 5 e [cell 0x1000 64]) 0 5 e.ident [cell 0x1000 64] = (.error t, u)) ∧
    (let s := lobState owner (.load (headAccs.map fun a => { a with pa := a.pa - 0xF000 }) .image)
     ∃ e, LoadTurn s 0 5 e (headAccs.map fun a => { a with pa := a.pa - 0xF000 }) .image) := by
  refine ⟨⟨_, load_of (by decide +kernel) (by decide +kernel), by decide, ?_⟩, ⟨_, load_of (by decide +kernel) (by decide +kernel), ?_⟩,
    ⟨_, load_of (by decide +kernel) (by decide +kernel), ?_⟩, sure,
    ⟨⟨_, load_of (by decide +kernel) (by decide +kernel), sure, ?_⟩,
      _, load_of (by decide +kernel) (by decide +kernel), sure, ?_⟩, _, load_of (by decide +kernel) (by decide +kernel)⟩
  · obtain ⟨l, u, h, -⟩ := read_of (r := readLanes (loading owner vecAccs (.vec 31)) 0 5 owner vecAccs) (p := fun _ _ => true) (by decide +kernel)
    exact ⟨l, u, h⟩
  · obtain ⟨t, u, h, -⟩ := refused_of (r := readLanes (loading outsider vecAccs (.vec 31)) 0 5 outsider vecAccs) (p := fun _ => true)
      (by decide +kernel)
    exact ⟨t, u, h⟩
  · obtain ⟨b, u, h, -⟩ := read_of (r := readPieces (loading owner accs (.acc 7)) 0 5 owner accs) (p := fun _ _ => true) (by decide +kernel)
    exact ⟨b, u, h⟩
  · obtain ⟨b, u, h, -⟩ := read_of (r := readPieces (loading owner [cell 0x1000 64] (.slots 1 false false slotMap)) 0 5 owner
      [cell 0x1000 64]) (p := fun _ _ => true) (by decide +kernel)
    exact ⟨b, u, h⟩
  · obtain ⟨t, u, h, -⟩ := refused_of (r := readPieces (loading outsider [cell 0x1000 64] (.slots 1 false false slotMap)) 0 5 outsider
      [cell 0x1000 64]) (p := fun _ => true) (by decide +kernel)
    exact ⟨t, u, h⟩

/-- The line at 0x10000000, in a frame of partition 1, was last written under a key that partition has no longer. -/
def sealedCell : Acc := cell 0x10000000 8
def sealedState : State :=
  { (custody .custodian false 1 1 false).setCtx 0 { runs with ident := owner, lob := [lobEntry owner (.load [sealedCell] (.scalar 10 .i64))] } with
    seals := [(0x10000000 / 128, 7)] }

theorem witness_LoadsPerform_homes :
    let s := lobState owner (.load [cell 0x1000 8] (.scalar 10 .i64))
    let dark : State := { s with poison := [0x20] }
    let mark : LobEntry := { id := 5, op := .unverified 0x1000, ident := owner }
    let u := lobState owner (.unverified 0x1000)
    ReadableHbm s 0 5 owner (cell 0x1000 8) ∧ region 0x1000 = .hbm 0 0x1000 ∧ forwarded s 0 5 (cell 0x1000 8) = false ∧
    homeRights s outsider 0x1000 = false ∧
    homeRights dark owner 0x1000 = true ∧ poisoned dark 0x1000 = true ∧ forwarded dark 0 5 (cell 0x1000 8) = false ∧
    ((u.ctx 0).lob.find? fun e => e.id == 5 && (match e.op with | .unverified _ => true | _ => false)) = some mark ∧
    (∃ e, LoadReady sealedState 0 5 e [sealedCell] (.scalar 10 .i64) ∧
      failedSeal sealedState 0 5 e.ident (touched sealedState 0 5 (.scalar 10 .i64) [sealedCell]) = some 0x10000000) := by
  refine ⟨⟨⟨0, 0x1000, by decide⟩, .inr ⟨sure, sure, sure⟩⟩, by decide, sure,
    sure, sure, sure, sure, sure,
    lobEntry owner (.load [sealedCell] (.scalar 10 .i64)), ⟨entry_of (by decide +kernel), rfl, nofun, ?_⟩, sure⟩
  have h : (touched sealedState 0 5 (.scalar 10 .i64) [sealedCell]).all (fun a => !accessWaits sealedState 0 a) = true := by
    decide +kernel
  exact fun a ha => by simpa using List.all_eq_true.mp h a ha

theorem storeHome_of {s : State} {c : Nat} {i : Ident} {a : Acc} {bs : List Byte}
    (b : (decide (cmdStopped s i = false ∧ (s.die (dieOf c)).lost.getLsbD (homeDie s a.pa) = false ∧ bs ≠ [] ∧ a.pa % 128 + bs.length ≤ 128 ∧
        homeRights s i a.pa = true ∧ poisoned s a.pa = false ∧ (s.base (a.pa / 2 ^ 37)).tiles = [] ∧ mirrorOf s a.pa = none) &&
      (List.range bs.length).all fun j => decide (region (a.pa + j) = .hbm ((a.pa + j) / 2 ^ 37) ((a.pa + j) % 2 ^ 37))) = true) : StoreHome s c i a bs := by
  simp only [Bool.and_eq_true, decide_eq_true_eq, List.all_eq_true, List.mem_range] at b
  obtain ⟨⟨b1, b2, b3, b4, b5, b6, b7, b8⟩, b9⟩ := b
  exact ⟨b1, b2, fun j hj => ⟨_, _, b9 j hj⟩, b3, b4, b5, b6, (fun t ht => by rw [b7] at ht; cases ht), b8⟩

def bytes8 : List Byte := toBytes 8 9

/-- A store-queue entry to 0x1000 behind one to another line. -/
def queueState (i : Ident) : State :=
  let e (id : Nat) (pa : Nat) : CsqEntry := { id := id, c := 0, ident := i, data := [(cell pa 8, bytes8)] }
  (lobState i (.fence .full .part)).modClu 0 fun k => { k with csq := [e 3 0x1080, e 4 0x1000] }

theorem first_of {s : State} {cl id : Nat} {e : CsqEntry} {older : List CsqEntry} (r : List CsqEntry)
    (b : decide ((s.clu cl).csq = older ++ e :: r ∧ (e.id = id ∧ ∀ y ∈ older, y.id ≠ id) ∧
      (∀ y ∈ older, meets (y.data.map fun d => (d.1.pa, d.2.length)) (e.data.map fun d => (d.1.pa, d.2.length)) = false ∧ y.lock = none) ∧
      storeHeld s e.data = false) = true) : DrainFirst s cl id e older := by
  obtain ⟨b1, b2, b3, b4⟩ := of_decide_eq_true b
  exact ⟨⟨r, b1⟩, b2, fun y hy => ⟨(b3 y hy).1, (fun l k h _ => by rw [(b3 y hy).2] at h; cases h)⟩, b4⟩

theorem drain_of {s : State} {cl id : Nat} {e : CsqEntry} {older : List CsqEntry} (h : DrainFirst s cl id e older)
    (o : (e.data.all fun d => (linesOf d.1.pa d.2.length).all (granted s (cl / 64))) = true) : DrainTurn s cl id e older := by
  simp only [List.all_eq_true] at o
  exact ⟨h, fun d hd _ l hl => o d hd l hl⟩

/-- Die 1 holds a copy of the line at 0x1000. -/
def sharedState : State := { queueState owner with homes := [(0x20, { st := .s, vec := 2 })] }

theorem witness_StoresReachTheirHomes_queue :
    let st := lobState owner (.store [(cell 0x1000 8, bytes8)] none none 0)
    let e : LobEntry := { id := 5, op := .store [(cell 0x1000 8, bytes8)] none none 0, ident := owner }
    let q (i : Ident) (id pa : Nat) : CsqEntry := { id := id, c := 0, ident := i, data := [(cell pa 8, bytes8)] }
    EntryTurn st 0 5 e ∧ e.op.queued 0 = true ∧
    DrainTurn (queueState owner) 0 4 (q owner 4 0x1000) [q owner 3 0x1080] ∧
    StoreHome (queueState owner) 0 owner (cell 0x1000 8) bytes8 ∧ (queueState owner).ctags.Nodup ∧
    DrainTurn (queueState outsider) 0 4 (q outsider 4 0x1000) [q outsider 3 0x1080] ∧ cmdStopped (queueState outsider) outsider = false ∧
    ((queueState outsider).die 0).lost.getLsbD (homeDie (queueState outsider) 0x1000) = false ∧ region 0x1000 = .hbm 0 0x1000 ∧
    homeRights (queueState outsider) outsider 0x1000 = false ∧
    (DrainFirst sharedState 0 4 (q owner 4 0x1000) [q owner 3 0x1080] ∧ cacheable sharedState 0x1000 = true ∧ linesOf 0x1000 8 = [0x20] ∧
      granted sharedState 0 0x20 = false ∧ sharedState.invals = []) := by
  refine ⟨entry_of (by decide +kernel), by decide, drain_of (first_of [] (by decide +kernel)) (by decide +kernel), storeHome_of (by decide +kernel), .nil,
    drain_of (first_of [] (by decide +kernel)) (by decide +kernel), sure, sure, by decide, sure,
    first_of [] (by decide +kernel), sure, sure, sure, rfl⟩

/-- A remote scratchpad's store, a device's, a posted one, requests, commands, a fence, and an entry an older fence
holds back. -/
def farPa : Nat := 2 ^ 48 + 2 ^ 21
def farState (op : LobOp) : State :=
  { lobState owner op with clus := [(1, { modes := (List.range 32).map fun b => (b, BankMode.scratch) })] }
def sigOf : SigReq := { c := 0, ident := owner, ea := 0x1000, pa := farPa, amount := 1, die := 0 }
def copyOp : EngOp := .copy { l := 64 } 0x1400 0x1000 0 0 [(1, 1)] 3 none

theorem witness_StoresReachTheirHomes_send :
    let far := farState (.store [(cell farPa 8, bytes8)] none none 0)
    let dev := lobState owner (.store [(cell (2 ^ 50) 8, bytes8)] none none 0)
    let two : State := (lobState owner (.fence .full .part)).modCtx 0 fun x => { x with
      lob := [{ id := 4, op := .cmd copyOp 6 }, { id := 5, op := .fence .full .part }] }
    (∃ e, EntryTurn far 0 5 e ∧ e.op = .store [(cell farPa 8, bytes8)] none none 0 ∧ e.op.queued 0 = false ∧ frameHeld far farPa = false ∧ bankHeld far 0 farPa far.next = false ∧
      cmdStopped far e.ident = false ∧ (far.die 0).lost.getLsbD (homeDie far farPa) = false ∧ region farPa = .scratch 1 0 ∧ 1 ≠ clusterOf 0 ∧
      (far.clu 1).orphan = none ∧ (scratchLoc far 1 7).isSome = true ∧ (∀ j, j < 8 → region (farPa + j) = .scratch 1 (0 + j)) ∧ far.poison = [] ∧
      ∀ j, j < 8 → tileWrite far (farPa + j) = far) ∧
    (∃ e, EntryTurn dev 0 5 e ∧ e.op = .store [(cell (2 ^ 50) 8, bytes8)] none none 0 ∧ e.op.queued 0 = false ∧ frameHeld dev (2 ^ 50) = false ∧
      bankHeld dev 0 (2 ^ 50) dev.next = false ∧ (dev.die 0).lost.getLsbD (homeDie dev (2 ^ 50)) = false ∧ cmdStopped dev e.ident = false ∧ region (2 ^ 50) = .mmio) ∧
    EntryTurn (lobState owner (.post 0)) 0 5 { id := 5, op := .post 0, ident := owner } ∧
    RequestTurn (lobState owner (.atomic (atomOf .add .i64 1))) 0 5 { id := 5, op := .atomic (atomOf .add .i64 1), ident := owner } ∧
    RequestTurn (lobState owner (.signal sigOf)) 0 5 { id := 5, op := .signal sigOf, ident := owner } ∧
    EntryTurn (lobState owner (.cmd (.tcinv 0 5) 6)) 0 5 { id := 5, op := .cmd (.tcinv 0 5) 6, ident := owner } ∧
    EntryTurn (lobState owner (.cmd copyOp 6)) 0 5 { id := 5, op := .cmd copyOp 6, ident := owner } ∧
    (Sparse.get [] ((lobState owner (.cmd copyOp 6)).core 0).channels 3).length < 16 ∧
    EntryTurn (lobState owner (.fence .full .part)) 0 5 { id := 5, op := .fence .full .part, ident := owner } ∧
    (lobAt two 0 5 = some { id := 5, op := .fence .full .part } ∧ mayGo two 0 { id := 5, op := .fence .full .part } = false) := by
  have span : ∀ j : Fin 8, region (farPa + j.val) = .scratch 1 (0 + j.val) := by decide +kernel
  refine ⟨⟨_, entry_of (e := { id := 5, op := .store [(cell farPa 8, bytes8)] none none 0, ident := owner }) (by decide +kernel), rfl, sure,
      sure, sure, sure, sure, sure, by decide, sure, sure,
      fun j hj => span ⟨j, hj⟩, rfl, fun j _ => rfl⟩,
    ⟨_, entry_of (e := { id := 5, op := .store [(cell (2 ^ 50) 8, bytes8)] none none 0, ident := owner }) (by decide +kernel), rfl, sure,
      sure, sure, sure, sure, sure⟩,
    entry_of (by decide +kernel), ⟨entry_of (by decide +kernel), sure⟩, ⟨entry_of (by decide +kernel), sure⟩,
    entry_of (by decide +kernel), entry_of (by decide +kernel), sure, entry_of (by decide +kernel), sure, sure⟩

/-- Journal entry 3 of core 0, its message under number 9: a posted store to 0x1000. -/
def posted (i : Ident) : JEntry := { state := 1, c := 0, ident := i, acc := cell 0x1000 8, value := 9, lid := 2 }
def postState (i : Ident) : State :=
  { (lobState i (.fence .full .part)).modCore 0 (fun k => { k with journal := [(3, posted i)] }) with net := [(9, .post 0 3)] }

theorem accepts_of {s : State} {k core j : Nat} {e : JEntry}
    (b : decide ((Sparse.get {} (s.core core).journal j : JEntry) = e ∧ e.state = 1 ∧ (∀ y ∈ (s.core core).journal, ¬ y.2.lid < e.lid) ∧
      frameHeld s e.acc.pa = false ∧ bankHeld s e.c e.acc.pa k = false ∧ (linesOf e.acc.pa e.acc.n).all (granted s 32) = true) = true) :
    Accepts s k core j e := by
  obtain ⟨b1, b2, b3, b4, b5, b6⟩ := of_decide_eq_true b
  exact ⟨b1, b2, fun y hy _ _ h => absurd h (b3 y hy), b4, b5, fun _ l hl => List.all_eq_true.mp b6 l hl⟩

theorem witness_StoresReachTheirHomes_posted :
    InNet (postState owner) 9 (.post 0 3) ∧ Accepts (postState owner) 9 0 3 (posted owner) ∧ postRefusal (postState owner) 0 (posted owner) = none ∧
    StoreHome (postState owner) 0 owner (posted owner).acc (toBytes 8 9) ∧
    InNet (postState outsider) 9 (.post 0 3) ∧ Accepts (postState outsider) 9 0 3 (posted outsider) ∧
    postRefusal (postState outsider) 0 (posted outsider) = some 2 := by
  refine ⟨by unfold InNet; decide +kernel, accepts_of (by decide +kernel), sure, storeHome_of (by decide +kernel),
    by unfold InNet; decide +kernel, accepts_of (by decide +kernel), sure⟩

end Sys2Proof.Tests
end

