-- ==== Sys2Proof/Tests/WitnessRequests.lean ====
section
/-! SUPPORT. Witnesses for the statements about requests in the network and about engine commands. -/

namespace Sys2Proof.Tests

set_option Elab.async false

open Sys2Proof Sys2Proof.Machine

/-- One message in the network, numbered 9, for a context with a task. -/
def netState (x : Context) (m : NetMsg) : State := { tenant cmp { x with ident := owner, task := some { gti := 9 } } with
  mem := cells 0x1000 [5, 7], net := [(9, m)], next := 10 }

def amor (sent : Nat) : AtomReq := { atomOf .add .i64 1 with seq := 4, sent := sent, owner := 19 }
def amo (sent : Nat) : AtomReq := { amor sent with dst := some (.g 63) }
def fails : Trap := { cause := 0x24, val := 0x1000, aux := 5 }
def waitsReply : Context := { run := .blocked .amoReply 0, pc := 0x1000, sent := true }

theorem witness_RequestsAreAnswered_atomics :
    let s := netState runs (.atomic (amor 0))
    let kept (q : BitVec 16) : State := s.modDie 0 fun d => { d with replies := [(0, [(q, Reply.ok 3, 0)])] }
    let back (x : Context) (r : AtomReq) (p : Reply) : State :=
      netState { x with atoms := [.inl r] } (.atomReply 0 4 p 0)
    let v := back waitsReply (amo 0) (.ok 3)
    let w := back runs (amor 0) (.trap fails)
    let behind : State := { s with net := s.net ++ [(8, .atomic { amor 0 with seq := 3 })] }
    InNet s 9 (.atomic (amor 0)) ∧ replyCache s 0 0 4 = .fresh ∧ olderOnTheWay s 0 0 4 = false ∧ frameHeld s 0x1000 = false ∧
    bankHeld s 0 0x1000 9 = false ∧ granted s 0 (0x1000 / 128) = true ∧
    (InNet behind 9 (.atomic (amor 0)) ∧ replyCache behind 0 0 4 = .fresh ∧ olderOnTheWay behind 0 0 4 = true) ∧
    (InNet (kept 4) 9 (.atomic (amor 0)) ∧ replyCache (kept 4) 0 0 4 = .cached (.ok 3) 0) ∧
    (InNet (kept 6) 9 (.atomic (amor 0)) ∧ replyCache (kept 6) 0 0 4 = .stale) ∧
    (InNet v 9 (.atomReply 0 4 (.ok 3) 0) ∧ (v.ctx 0).atoms = [.inl (amo 0)] ∧ (amo 0).dst.isSome = true ∧ (v.ctx 0).run = .blocked .amoReply 0) ∧
    (InNet w 9 (.atomReply 0 4 (.trap fails) 0) ∧ (w.ctx 0).atoms = [.inl (amor 0)] ∧ (amor 0).dst = none ∧ (amor 0).owner = tlOwner w 0 ∧
      (w.ctxs.filter fun x => tlOwner w x.1 == (amor 0).owner) = [(0, w.ctx 0)] ∧ (w.ctx 0).run ≠ .free) := by
  unfold InNet
  decide +kernel

/-- A request 1 ns short of 20 us, one at it, and one at it to a lost die. -/
theorem witness_RequestsAreAnswered_resend :
    let at' (t : Nat) (x : Context) (r : AtomReq) : State := { netState { x with atoms := [.inl r] } (.wordAck 0 9) with time := BitVec.ofNat 64 t }
    let lost := (at' 20000 waitsReply (amo 0)).modDie 0 fun d => { d with lost := 1 }
    ((at' 19999 runs (amor 0)).ctx 0).atoms = [.inl (amor 0)] ∧ (at' 19999 runs (amor 0)).time.toNat < (amor 0).sent + 20000 ∧
    ((at' 20000 runs (amor 0)).ctx 0).atoms = [.inl (amor 0)] ∧ (amor 0).sent + 20000 ≤ (at' 20000 runs (amor 0)).time.toNat ∧
    ((at' 20000 runs (amor 0)).die 0).lost.getLsbD 0 = false ∧
    (lost.ctx 0).atoms = [.inl (amo 0)] ∧ (amo 0).sent + 20000 ≤ lost.time.toNat ∧ (lost.die 0).lost.getLsbD 0 = true ∧
    (lost.ctx 0).run = .blocked .amoReply 0 ∧ (amo 0).dst.isSome = true := by
  decide +kernel

def sent (reg : WordReg) (k : Core) : State := (netState runs (.word 0 reg { w := 5 } 0 9 owner false true)).modCore 0 fun _ => k

theorem word_of {s : State} {k core : Nat} {r : WordReg} {w : MsgWord} {c : Nat} {gti : Word} {i : Ident} {fwd owed : Bool}
    (b : decide (msgAt s k = some (.word core r w c gti i fwd owed) ∧ current s i = true ∧ undeliverable s core c i = false ∧ wordWaits s k core r c gti fwd = false) = true) :
    WordTurn s k core r w c gti i fwd owed := by
  obtain ⟨b1, b2, b3, b4⟩ := of_decide_eq_true b
  exact ⟨b1, b2, b3, b4⟩

theorem witness_RequestsAreAnswered_words :
    let full : Core := { mbox := [(31, some { w := 7 })] }
    let away : Core := { fwd := [{ gti := 9, target := 1, mask := 2 ^ 31 }] }
    let ring : Core := { claims := [(9, 2 ^ 31, 0)] }
    let turn (k : Core) (r : WordReg) := WordTurn (sent r k) 9 0 r { w := 5 } 0 9 owner false true
    (turn {} (.mbx 31) ∧ route (sent (.mbx 31) {}) 0 (.mbx 31) = .accept ∧ ((sent (.mbx 31) {}).core 0).mail 31 = none) ∧
    (turn full (.mbx 31) ∧ route (sent (.mbx 31) full) 0 (.mbx 31) = .accept ∧ ((sent (.mbx 31) full).core 0).mail 31 ≠ none) ∧
    (turn {} (.port 3) ∧ route (sent (.port 3) {}) 0 (.port 3) = .accept ∧ (((sent (.port 3) {}).core 0).port 3).length < 4) ∧
    (turn away (.mbx 31) ∧ route (sent (.mbx 31) away) 0 (.mbx 31) = .redirect 1) ∧
    (turn ring (.mbx 31) ∧ route (sent (.mbx 31) ring) 0 (.mbx 31) = .ring 9 ∧ ((sent (.mbx 31) ring).core 0).spill.length < 256) := by
  refine ⟨⟨word_of (by decide +kernel), sure⟩, ⟨word_of (by decide +kernel), sure⟩,
    ⟨word_of (by decide +kernel), sure⟩, ⟨word_of (by decide +kernel), sure⟩, ⟨word_of (by decide +kernel), sure⟩⟩

def act : ActMsg := { die := 0, c := 0, gti := 9, entry := 0x1000, words := [1], sender := 0, ident := owner }
def shared : Job :=
  { part := 1, vf := 0, owner := 0, num := 0, ident := owner, word := none
    members := [(0, { children := [1], live := 1 }), (1, { core := 1, parent := some 0, sent := true })] }

theorem witness_RequestsAreAnswered_others :
    let sig : SigReq := { sigOf with seq := 4 }
    let s : State := { netState runs (.sig sig) with clus := [(1, { modes := (List.range 32).map fun b => (b, BankMode.scratch) })] }
    let ack := netState { runs with outst := 1 } (.wordAck 0 9)
    let took := netState { runs with outst := 2 } (.amsgAck 0 9)
    let am := netState runs (.amsg act)
    let done : State := { netState runs (.done 0 1 1) with jobs := [(0, some shared)] }
    (InNet s 9 (.sig sig) ∧ replyCache s 0 0 4 = .fresh ∧ olderOnTheWay s 0 0 4 = false ∧ bankHeld s 0 sig.pa 9 = false ∧ region sig.pa = .scratch 1 0 ∧ (scratchLoc s 1 0).isSome = true ∧ (s.clu 1).orphan = none ∧
      cmdStopped s owner = false) ∧
    (0 ≠ hardwareSender ∧ gtiOf (ack.ctx 0) = 9 ∧ InNet ack 9 (.wordAck 0 9) ∧ (ack.ctx 0).outst = 1) ∧
    (gtiOf (took.ctx 0) = 9 ∧ InNet took 9 (.amsgAck 0 9) ∧ (took.ctx 0).outst = 2) ∧
    (InNet am 9 (.amsg act) ∧ current am owner = true ∧ (am.die 0).lost.getLsbD 0 = false ∧ (am.die 0).handlers.length < 256) ∧
    (InNet done 9 (.done 0 1 1) ∧ done.job 0 = some shared ∧ (Sparse.get {} shared.members 1 : Member).parent = some 0) ∧
    InNet (netState runs (.lapse 0 9)) 9 (.lapse 0 9) := by
  unfold InNet
  decide +kernel

theorem witness_RequestsAreAnswered_full :
    let am := (netState runs (.amsg act)).modDie 0 fun d => { d with handlers := List.replicate 256 act }
    InNet am 9 (.amsg act) ∧ current am owner = true ∧ 256 ≤ (am.die 0).handlers.length := by
  unfold InNet
  decide +kernel

end Sys2Proof.Tests
end

