-- ==== Sys2Proof/Tests/WitnessCommands.lean ====
section
/-! SUPPORT. Witnesses for the statement about engine commands and the vector and matrix engines. -/

namespace Sys2Proof.Tests

set_option Elab.async false

open Sys2Proof Sys2Proof.Machine

/-- One command, number 20, of a context with a task, over memory with words at 0x1000. -/
def cmdOf (i : Ident) (tl : Nat) (op : EngOp) : EngCmd := { id := 20, c := 0, core := 0, owner := 19, tl := tl, num := 1, ident := i, op := op }
def cmdState (e : EngCmd) : State :=
  { tenant cmp { runs with ident := e.ident, task := some { gti := 9 } } with
    mem := cells 0x1000 [5, 7], cmds := [e], tls := [(19 * 8 + e.tl, { issued := 1 })] }

theorem effect_of {s : State} {id k : Nat} {e : EngCmd}
    (b : decide (cmdAt s id = some e ∧ k < effectCount e ∧ k ∉ e.done ∧ effectFree s e k = true ∧ stackRuns s e = true ∧ effectHeld s e k = false) = true) :
    EffectTurn s id k e := by
  obtain ⟨b1, b2, b3, b4, b5, b6⟩ := of_decide_eq_true b
  exact ⟨b1, b2, b3, b4, b5, b6⟩

theorem engineHome_of {s : State} {die : Nat} {i : Ident} {pa : Nat} {bs : List Byte}
    (b : (decide (accessBad s die i pa bs.length true = none ∧ bs ≠ [] ∧ pa % 128 + bs.length ≤ 128 ∧ poisoned s pa = false ∧
        (s.base (pa / 2 ^ 37)).tiles = []) &&
      (List.range bs.length).all fun j => decide (region (pa + j) = .hbm ((pa + j) / 2 ^ 37) ((pa + j) % 2 ^ 37))) = true) : EngineHome s die i pa bs := by
  simp only [Bool.and_eq_true, decide_eq_true_eq, List.all_eq_true, List.mem_range] at b
  obtain ⟨⟨b1, b2, b3, b4, b5⟩, b9⟩ := b
  exact ⟨b1, fun j hj => ⟨_, _, b9 j hj⟩, b2, b3, b4, fun t ht => by rw [b5] at ht; cases ht⟩

def lanes : List (Acc × BitVec 32) := [(cell 0x1000 4 0, 5), (cell 0x1008 4 63, 6)]
def vst (i : Ident) : EngCmd := cmdOf i 4 (.vst lanes)
def words : EngCmd := cmdOf owner 5 (.words [(0, 0x1000, 5)] 0)

theorem witness_EnginesPerformAndComplete_stores :
    (EffectTurn (cmdState (vst owner)) 20 1 (vst owner) ∧ (vst owner).op = .vst lanes ∧ lanes[1]? = some (cell 0x1008 4 63, 6) ∧
      cmdStopped (cmdState (vst owner)) owner = false ∧ EngineHome (cmdState (vst owner)) 0 owner 0x1008 (toBytes 4 6)) ∧
    (EffectTurn (cmdState (vst outsider)) 20 1 (vst outsider) ∧ cmdStopped (cmdState (vst outsider)) outsider = false ∧
      accessBad (cmdState (vst outsider)) 0 outsider 0x1008 4 true = some .custody) ∧
    (EffectTurn (cmdState words) 20 0 words ∧ cmdStopped (cmdState words) owner = false ∧ homeLock (cmdState words) 0x1000 = 0 ∧
      EngineHome (cmdState words) 0 owner 0x1000 (toBytes 16 5)) := by
  refine ⟨⟨effect_of (by decide +kernel), rfl, rfl, sure, engineHome_of (by decide +kernel)⟩,
    ⟨effect_of (by decide +kernel), sure, sure⟩,
    ⟨effect_of (by decide +kernel), sure, sure, engineHome_of (by decide +kernel)⟩⟩

/-! A copy of 64 bytes to 0x1400 at the head of channel 3; a COPYR in its die's queue. -/

def copy (i : Ident) : EngCmd := cmdOf i 0 copyOp
def copying (i : Ident) : State := (cmdState (copy i)).modCore 0 fun k => { k with channels := [(3, [20])] }
def remoteOp : EngOp := .copy { l := 64 } 0x1400 0x1000 0 0 [(1, 1)] 3 (some { die := 8 })
def remote (stage deliv : Nat) : EngCmd := { cmdOf owner 0 remoteOp with stage := stage, deliv := deliv }
def remoting (stage deliv : Nat) (q : List Nat) : State :=
  ((cmdState (remote stage deliv)).modCore 0 fun k => { k with channels := [(3, [20])] }).modDie 8 fun d => { d with copyq := q }

def delivers (r : Except Bad State) : Bool := match r with | .ok _ => true | .error _ => false

theorem witness_EnginesPerformAndComplete_copies :
    let s := copying owner
    (EffectTurn s 20 0 (copy owner) ∧ copyRuns s (copy owner) 3 none = true ∧ (copy owner).deliv = 0 ∧ (copy owner).fail = none ∧
      (0 : Nat) < CopyShape.total { l := 64 } ∧ ∃ u, deliverByte s (copy owner) { l := 64 } 0x1400 0x1000 0 0 [(1, 1)] 0 false = .ok u) ∧
    (EffectTurn (copying outsider) 20 0 (copy outsider) ∧ copyRuns (copying outsider) (copy outsider) 3 none = true ∧
      delivers (deliverByte (copying outsider) (copy outsider) { l := 64 } 0x1400 0x1000 0 0 [(1, 1)] 0 false) = false) ∧
    (let src := xlAt [(1, 1)] (CopyShape.src { l := 64 } 0x1000 0)
     let dst := xlAt [(1, 1)] (CopyShape.dst { l := 64 } 0x1400 0)
     homeLock s src = 0 ∧ homeLock s dst = 0 ∧ region src = .hbm 0 0x1000 ∧ poisoned s src = false ∧ accessBad s 0 owner src 1 false = none ∧
       EngineHome s 0 owner dst [homeByte s src] ∧ (s.base (src / 2 ^ 37)).tiles = [] ∧ cmdStopped s owner = false) ∧
    (EffectTurn (remoting 2 0 [20]) 20 0 (remote 2 0) ∧ copyRuns (remoting 2 0 [20]) (remote 2 0) 3 (some { die := 8 }) = true ∧
      ((remoting 2 0 [20]).die 0).lost.getLsbD 8 = false) ∧
    (cmdAt (remoting 0 0 []) 20 = some (remote 0 0) ∧ (Sparse.get [] ((remoting 0 0 []).core 0).channels 3).head? = some 20 ∧
      ((remoting 0 0 []).die 0).lost.getLsbD 8 = false ∧ ((remoting 0 0 []).die 8).copyq.length < 512) ∧
    (cmdAt (remoting 0 0 (List.replicate 512 7)) 20 = some (remote 0 0) ∧ 512 ≤ ((remoting 0 0 (List.replicate 512 7)).die 8).copyq.length) ∧
    (cmdAt (remoting 2 64 [20]) 20 = some (remote 2 64) ∧ cmdTurn (remoting 2 64 [20]) (remote 2 64) = true) := by
  refine ⟨⟨effect_of (by decide +kernel), sure, rfl, rfl, by decide, ?_⟩, ⟨effect_of (by decide +kernel), sure, sure⟩,
    ⟨sure, sure, sure, sure, sure, engineHome_of (by decide +kernel), rfl, sure⟩,
    ⟨effect_of (by decide +kernel), sure, sure⟩, sure, sure, sure⟩
  cases h : deliverByte (copying owner) (copy owner) { l := 64 } 0x1400 0x1000 0 0 [(1, 1)] 0 false with
  | ok u => exact ⟨u, rfl⟩
  | error e =>
    have : delivers (deliverByte (copying owner) (copy owner) { l := 64 } 0x1400 0x1000 0 0 [(1, 1)] 0 false) = true := by decide +kernel
    rw [h] at this
    cases this

/-! Stack engines and tiles over region 5 of the partition, whose first tile is cached. -/

def page (e : EngCmd) : State := (cmdState e).modPart 1 fun p => { p with regions := [regionN 5, { regionN 7 with detached := true }] }
def cached (e : EngCmd) : State := (page e).modBase 0 fun b => { b with tiles := [{ part := 1, id := 5, k := 0, bytes := List.replicate 64 3, pa := 0x10000, n := 64 }] }
/-- The same with the region's home die lost to the core's. -/
def severed (e : EngCmd) : State := (cached e).modDie 0 fun d => { d with lost := d.lost ||| 0x10000 }
def sredE : EngCmd := cmdOf owner 5 (.sred .i64 .add 2 0x1000 0x1008 [(1, 1)])
def sgathE : EngCmd := cmdOf owner 5 (.sgath false 2 8 0x1400 0x1000 0x1000 0x1000 0x2000 [(1, 1)] false)
def sconvE : EngCmd := cmdOf owner 5 (.sconv 8 8 .rne 2 0x1400 0x1000 0 [(1, 1)])
def lookE (wr : Bool) : EngCmd := cmdOf owner 6 (.tclook wr 5 [0] 0x1000 [(1, 1)])
def invE (v : Nat) (id : BitVec 16) : EngCmd := cmdOf owner 6 (.tcinv v id)

def okWith {α ε : Type} (r : Except ε α) (p : α → Bool) : Bool := match r with | .ok a => p a | .error _ => false

theorem got_of {α ε : Type} {r : Except ε α} {p : α → Bool} (b : okWith r p = true) : ∃ a, r = .ok a ∧ p a = true := by
  cases r with
  | ok a => exact ⟨a, rfl, b⟩
  | error e => cases b

theorem witness_EnginesPerformAndComplete_reductions :
    EffectTurn (cmdState sredE) 20 0 sredE ∧ cmdStopped (cmdState sredE) owner = false ∧
    (∃ vb u db v x, engineGetAt (cmdState sredE) 0 owner [(1, 1)] 0x1008 8 = .ok (vb, u) ∧ engineGetAt u 0 owner [(1, 1)] 0x1000 8 = .ok (db, v) ∧
      enginePutAt v 0 owner [(1, 1)] 0x1000 (toBytes 8 (reduce .i64 .add (ofBytes db) (ofBytes vb)).1) = .ok x) ∧
    EffectTurn (cmdState sgathE) 20 0 sgathE ∧ cmdStopped (cmdState sgathE) owner = false ∧
    EffectTurn (cmdState sconvE) 20 0 sconvE ∧ cmdStopped (cmdState sconvE) owner = false := by
  refine ⟨effect_of (by decide +kernel), sure, ?_, effect_of (by decide +kernel), sure, effect_of (by decide +kernel), sure⟩
  obtain ⟨⟨vb, u⟩, h1, b1⟩ := got_of (r := engineGetAt (cmdState sredE) 0 owner [(1, 1)] 0x1008 8)
    (p := fun a => okWith (engineGetAt a.2 0 owner [(1, 1)] 0x1000 8) fun d =>
      (enginePutAt d.2 0 owner [(1, 1)] 0x1000 (toBytes 8 (reduce .i64 .add (ofBytes d.1) (ofBytes a.1)).1)).toOption.isSome) (by decide +kernel)
  obtain ⟨⟨db, v⟩, h2, b2⟩ := got_of (r := engineGetAt u 0 owner [(1, 1)] 0x1000 8) (p := fun d => (enginePutAt d.2 0 owner [(1, 1)] 0x1000
    (toBytes 8 (reduce .i64 .add (ofBytes d.1) (ofBytes vb)).1)).toOption.isSome) b1
  cases h3 : enginePutAt v 0 owner [(1, 1)] 0x1000 (toBytes 8 (reduce .i64 .add (ofBytes db) (ofBytes vb)).1) with
  | ok x => exact ⟨vb, u, db, v, x, h1, h2, h3⟩
  | error e => simp only [h3] at b2; cases b2

theorem witness_EnginesPerformAndComplete_tiles :
    let r := regionN 5
    (∀ wr, EffectTurn (cached (lookE wr)) 20 0 (lookE wr) ∧ cmdStopped (cached (lookE wr)) owner = false ∧ (lookE wr).done = [] ∧
      TileTurn (cached (lookE wr)) 0 owner 5 [0] 0x1000 [(1, 1)] r.cs r) ∧
    (∃ ti, findTile (cached (lookE false)) r (tileIndex r.counts [0]) = some ti ∧
      ∃ u, enginePutAt (cached (lookE false)) 0 owner [(1, 1)] 0x1000 (r.view ti.bytes) = .ok u) ∧
    (∃ b u ti, engineGetAt (cached (lookE true)) 0 owner [(1, 1)] 0x1000 r.cs = .ok (b, u) ∧ findTile u r (tileIndex r.counts [0]) = some ti) ∧
    (∀ v ∈ [0, 1, 2], EffectTurn (cached (invE v 5)) 20 0 (invE v 5) ∧ cmdStopped (cached (invE v 5)) owner = false ∧
      regionOf (cached (invE v 5)) 1 5 = some r ∧ r.detached = false ∧
      ((cached (invE v 5)).die 0).lost.getLsbD (homeDie (cached (invE v 5)) r.base) = false) ∧
    (∀ id ∈ [(6 : BitVec 16), 7], EffectTurn (page (invE 1 id)) 20 0 (invE 1 id) ∧ (invE 1 id).tl = 6 ∧ (invE 1 id).op.region = some id ∧
      cmdStopped (page (invE 1 id)) owner = false ∧ (∀ q, regionOf (page (invE 1 id)) 1 id = some q → q.detached = true)) ∧
    (EffectTurn (severed (invE 1 5)) 20 0 (invE 1 5) ∧ cmdStopped (severed (invE 1 5)) owner = false ∧
      regionOf (severed (invE 1 5)) 1 5 = some r ∧ r.detached = false ∧
      ((severed (invE 1 5)).die 0).lost.getLsbD (homeDie (severed (invE 1 5)) r.base) = true) := by
  have gone : ∀ id ∈ [(6 : BitVec 16), 7], EffectTurn (page (invE 1 id)) 20 0 (invE 1 id) ∧ (invE 1 id).op.region = some id ∧
      cmdStopped (page (invE 1 id)) owner = false ∧ (regionOf (page (invE 1 id)) 1 id).all (·.detached) = true := by
    intro id h
    simp only [List.mem_cons, List.not_mem_nil, or_false] at h
    rcases h with rfl | rfl <;> exact ⟨effect_of (by decide +kernel), rfl, sure, sure⟩
  have all : ∀ v ∈ [0, 1, 2], EffectTurn (cached (invE v 5)) 20 0 (invE v 5) ∧ cmdStopped (cached (invE v 5)) owner = false ∧
      regionOf (cached (invE v 5)) 1 5 = some (regionN 5) ∧ (regionN 5).detached = false ∧
      ((cached (invE v 5)).die 0).lost.getLsbD (homeDie (cached (invE v 5)) (regionN 5).base) = false := by
    intro v h
    simp only [List.mem_cons, List.not_mem_nil, or_false] at h
    rcases h with rfl | rfl | rfl <;> exact ⟨effect_of (by decide +kernel), sure, sure, rfl, sure⟩
  refine ⟨fun wr => by cases wr <;> exact ⟨effect_of (by decide +kernel), sure, rfl,
      ⟨sure, rfl, sure, rfl, sure⟩⟩,
    ⟨_, rfl, ?_⟩, ?_, all, fun id h => ⟨(gone id h).1, rfl, (gone id h).2.1, (gone id h).2.2.1, fun q hq => ?_⟩,
    ⟨effect_of (by decide +kernel), sure, sure, rfl, sure⟩⟩
  · obtain ⟨u, h, -⟩ := got_of (r := enginePutAt (cached (lookE false)) 0 owner [(1, 1)] 0x1000 ((regionN 5).view (List.replicate 64 3)))
      (p := fun _ => true) (by decide +kernel)
    exact ⟨u, h⟩
  · obtain ⟨⟨b, u⟩, h, q⟩ := got_of (r := engineGetAt (cached (lookE true)) 0 owner [(1, 1)] 0x1000 (regionN 5).cs)
      (p := fun a => (findTile a.2 (regionN 5) (tileIndex (regionN 5).counts [0])).isSome) (by decide +kernel)
    obtain ⟨ti, ht⟩ := Option.isSome_iff_exists.mp q
    exact ⟨b, u, ti, h, ht⟩
  · have := (gone id h).2.2.2
    rw [hq] at this
    exact this

/-! A launch whose descriptor is malformed, one that cannot be placed yet, a command with nothing left to do, and one
that failed; the matrix and vector engines. -/

def launchE : EngCmd := cmdOf owner 7 (.launch 0x1000 [(1, 1)] false)
def launched : State :=
  let c (a : Nat) : Nat := (capR 0xFFF 0 0 0 0x1FFF 0 a).bits.toNat
  { (cmdState launchE).modDie 0 fun d => { d with cmap := [(16, [0])] } with
    mem := cells 0x1000 ([c 0x1800 % 2 ^ 64, c 0x1800 / 2 ^ 64, 0x100000101, 0, 0, 0, 0, 0, c 0x1100 % 2 ^ 64, c 0x1100 / 2 ^ 64] ++ List.replicate 22 0 ++
      recWords 4 (2 ^ 63) 0 0)
    ctags := [0x100, 0x104] }
def orphaned : State := launched.modClu 0 fun k => { k with orphan := some 0 }

def finished (fail : Option (Nat × Nat × Nat)) : EngCmd := { cmdOf owner 5 (.words [(0, 0x1000, 5)] 0) with done := [0], fail := fail }

theorem witness_EnginesPerformAndComplete_ends :
    EffectTurn (cmdState launchE) 20 0 launchE ∧ (performLaunch (cmdState launchE) launchE 0x1000 [(1, 1)] false).isSome = true ∧
    EffectTurn orphaned 20 0 launchE ∧ (performLaunch orphaned launchE 0x1000 [(1, 1)] false).isNone = true ∧
    (∀ f ∈ [none, some (0, 3, 0)], cmdAt (cmdState (finished f)) 20 = some (finished f) ∧ cmdTurn (cmdState (finished f)) (finished f) = true ∧
      owns (cmdState (finished f)) 19 5 = true ∧ ((cmdState (finished f)).ctx 0).run ≠ .free ∧ tlOwner (cmdState (finished f)) 0 = 19 ∧
      (cmdState (finished f)).ctxs = [(0, (cmdState (finished f)).ctx 0)]) ∧
    (let t : Timeline := { issued := 6, done := 2, above := [4, 6] }
     TimelineOk t ∧ t.done < 3 ∧ 3 ∉ t.above) := by
  refine ⟨effect_of (by decide +kernel), sure, effect_of (by decide +kernel), sure,
    sure, ⟨by decide, by decide⟩, by decide, by decide⟩

theorem witness_EnginesPerformAndComplete_queues :
    let c := 0
    let q : VecPending := { vec := [(31, 5)], pred := [(2, 3)], gen := [(10, 4)], flags := 1 }
    let s := tenant cmp { runs with vq := [q] }
    let m := matState { engine0 with queue := [{ c := 0, flags := 4 }] }
    (s.ctx 0).vq = [q] ∧ q.vec = [(31, 5)] ∧ q.pred = [(2, 3)] ∧ q.gen = [(10, 4)] ∧ (m.core 0).matrix.queue = [{ c := 0, flags := 4 }] ∧
      (s.ctx c).vloadsDone q.lid = true := by
  decide +kernel

end Sys2Proof.Tests
end

