-- ==== Sys2Proof/Tests/WitnessEvents.lean ====
section
/-! SUPPORT. Witnesses for the statement about contexts that leave and tasks that resume. -/

namespace Sys2Proof.Tests

set_option Elab.async false

open Sys2Proof Sys2Proof.Machine

theorem get_mem {α : Type} (d : α) (l : Sparse α) (k : Nat) : Sparse.get d l k = d ∨ ∃ e ∈ l, e.2 = Sparse.get d l k := by
  induction l with
  | nil => exact .inl rfl
  | cons e r ih =>
    unfold Sparse.get
    split
    · exact .inr ⟨e, List.mem_cons_self, rfl⟩
    · exact ih.imp id fun ⟨x, hx, h⟩ => ⟨x, List.mem_cons_of_mem _ hx, h⟩

/-- A range of a stack's first 80 GiB, with no tile and no redirection anywhere and no poison. -/
theorem plainHbm_of {s : State} {pa n : Nat}
    (b : decide (pa + n ≤ 2 ^ 40 ∧ pa % 2 ^ 37 + n ≤ stackBytes ∧ s.poison = [] ∧ ∀ e ∈ s.bases, e.2.tiles = [] ∧ e.2.redirect = []) = true) :
    PlainHbm s pa n := by
  obtain ⟨b1, b2, b3, b4⟩ := of_decide_eq_true b
  have base (k : Nat) : (s.base k).tiles = [] ∧ (s.base k).redirect = [] := by
    rcases get_mem ({} : BaseDie) s.bases k with h | ⟨e, he, h⟩
    · rw [State.base, h]; exact ⟨rfl, rfl⟩
    · rw [State.base, ← h]; exact b4 e he
  have there (j : Nat) (h : j < n) : region (pa + j) = .hbm ((pa + j) / 2 ^ 37) ((pa + j) % 2 ^ 37) := by
    unfold stackBytes at b2
    have h1 : pa + j < 2 ^ 40 := by omega
    have h2 : (pa + j) % 2 ^ 37 < stackBytes := by unfold stackBytes; omega
    simp only [region, h1, h2, if_true]
  refine ⟨fun j h => by rw [isHbm, there j h], fun j h => ?_, fun j _ => by rw [b3]; rfl, fun k t ht => by rw [(base k).1] at ht; cases ht⟩
  have same : ∀ n f, redirectFrame s n f = f := by
    intro n f
    cases n with
    | zero => rfl
    | succ n => rw [redirectFrame, (base _).2]; rfl
  rw [loc, there j h, redirect, same]
  exact congrArg some (by omega)

/-! A task of virtual function 0 with area 0 of its pool, at 0x20000, free. -/

def pool : Pool := { en := true, base := 0x200, n := 4, va := 0x200 }
def job1 : Task := { gti := 9, ident := owner, kind := .compute, entry := 0x1000 }
def leaverOf (x : Context) : State :=
  (tenant cmp { x with ident := owner, task := some job1 }).modDie 0 fun d => { d with pools := [(0, pool)] }
def busy : Context :=
  { pc := 0x1004, g := [(1, { bits := 0x5, tag := true }), (63, Reg.ofWord 7)], p := [(15, 3)], v := [(31, 9)], flags := 3, latch := 5
    ktrap := { cause := 0x0E, val := 0x33, pc := 0x1000, aux := 2 } }

theorem leave_of {s : State} {c : Nat} {t : Task} {idx : Nat} (p : PlainHbm s (areaPa s c idx) 0x2800)
    (b : decide (isContext c = true ∧ drained s c = true ∧ (s.core (coreOf c)).bridle = none ∧ (s.ctx c).task = some t ∧
      freeArea s (dieOf c) (s.ctx c).ident.vf.toNat = some idx ∧ holdsClaims s c = false ∧ areaAllowed s c (areaPa s c idx) 0 = true ∧
      (s.core (coreOf c)).spill.length + (heldWords s c).length ≤ 256 ∧ s.ctags.Nodup) = true) : LeaveTurn s c t idx := by
  obtain ⟨b1, b2, b3, b4, b5, b6, b7, b8, b9⟩ := of_decide_eq_true b
  exact ⟨b1, b2, b3, b4, b5, b6, b7, p, fun _ => b8, b9⟩

theorem witness_TasksLeaveAndResume_leave :
    (∀ r ∈ [1, 2, 5], let s := leaverOf { busy with run := .leaving r }
      (s.ctx 0).run = .leaving r ∧ LeaveTurn s 0 job1 0 ∧ (s.ctx 0).pend = [] ∧ (requests s 0 1 0).length < 4096) ∧
    (let s := leaverOf { busy with run := .leaving 2, lob := [{ id := 5, op := .fence .full .part }] }
     (s.ctx 0).run = .leaving 2 ∧ drained s 0 = false ∧ (s.core 0).bridle = none ∧ (s.ctx 0).pend = []) := by
  refine ⟨fun r h => ?_, sure⟩
  simp only [List.mem_cons, List.not_mem_nil, or_false] at h
  rcases h with rfl | rfl | rfl <;>
    exact ⟨sure, leave_of (plainHbm_of (by decide +kernel)) (by decide +kernel), sure, sure⟩

/-- The service queue full; a wait of 4096 cycles at 2 GHz; waits that stay; no area free. -/
theorem witness_TasksLeaveAndResume_park :
    let full := (leaverOf { busy with run := .leaving 1 }).modDie 0 fun d => { d with service := [(16, List.replicate 4096 (.notice 0 0 0 0))] }
    let long : State := { leaverOf { busy with run := .blocked .mwait 0 } with time := 2048 }
    LeaveTurn full 0 job1 0 ∧ (full.ctx 0).run = .leaving 1 ∧ 4096 ≤ (requests full 0 1 0).length ∧
    LongBlocked long 0 .mwait ∧ Wait.mwait.parks = true ∧ LeaveTurn long 0 job1 0 ∧
    ((leaverOf { busy with run := .blocked .amoReply 0 }).ctx 0).run = .blocked .amoReply 0 ∧ Wait.amoReply.staysPut = true ∧
    freeArea (tenant cmp runs) 0 0 = none ∧
    (∀ l ∈ [0, 4096], let s := (leaverOf { busy with run := .saved 0x20000 0 }).modDie 0 fun d => { d with service := [(16, List.replicate l (.notice 0 0 0 0))] }
     (s.ctx 0).run = .saved 0x20000 0 ∧ (s.ctx 0).task = some job1 ∧ (requests s 0 1 0).length = l) := by
  refine ⟨leave_of (plainHbm_of (by decide +kernel)) (by decide +kernel), sure, sure,
    ⟨⟨0, sure⟩, sure, sure⟩, rfl, leave_of (plainHbm_of (by decide +kernel)) (by decide +kernel),
    sure, rfl, sure, sure⟩

/-! A free context of core 0, which virtual function 0 of the partition may use, and two ready tasks. -/

def userId : Ident := { part := 1, world := false }
def ready (l : List Task) : State :=
  let s := (tenant cmp { run := .free }).modDie 0 fun d => { d with cmap := [(16, [0])], ready := l, pools := [(0, { pool with used := [1] })] }
  putEntry { s with ctl := [(0, { state := 1 })], mem := cells 0x22800 [0x1004], bases := [(0, { custEn := true, custBase := 0x10000 })] } 2 1 1 0 false 0 0
def fresh1 : Task := { gti := 9, ident := userId, kind := .compute, entry := 0x1000, prio := 2 }
def saved1 : Task := { fresh1 with save := some (0x22800, 0, 1), waitCore := 0 }

theorem witness_TasksLeaveAndResume_dispatch :
    choose (ready [{ fresh1 with gti := 8, prio := 1 }, fresh1]) 0 = some fresh1 ∧ armedFor (ready [fresh1]) fresh1 = none ∧
    choose (ready [saved1]) 0 = some saved1 ∧ (homeWord (ready [saved1]) (0x22800 + 0x68)).toNat % 4 = 0 ∧
    choose (ready [{ fresh1 with kind := .host }]) 0 = none ∧
    (let s := { ready [{ fresh1 with member := some (4, 1) }] with jobs := [(4, some shared)] }
     choose s 0 = some { fresh1 with member := some (4, 1) } ∧ armedFor s { fresh1 with member := some (4, 1) } = none ∧ (s.job 4).isSome = true) := by
  decide +kernel

/-! Traps and requests that reach a context, and a WFE whose deadline comes at 1000 ns. -/

def timed (t : Nat) (x : Context) : State := { leaverOf x with time := BitVec.ofNat 64 t }
def parkedTask : Task := { job1 with save := some (0x20000, 0, 0), wait := some (.wfe (some 1000)) }
def parkedState : State := (timed 1000 { run := .free }).modDie 0 fun d => { d with parked := [parkedTask] }

theorem witness_EventsReachContexts_traps :
    let s := leaverOf { busy with run := .running, pend := [fails] }
    let w (d : Nat) := timed 1000 { busy with run := .blocked (.wfe (some d)) 0, latch := 0 }
    let h := stand hostCtx { caps with run := .running, pend := [fails, { fails with cause := 0x61 }] }
    ((s.ctx 0).pend = [fails] ∧ awaitsReply s 0 = false ∧ settled s 0 = true ∧ (s.ctx 0).run = .running ∧ kindOf 0 = .compute) ∧
    ((h.ctx hostCtx).pend = [fails, { fails with cause := 0x61 }] ∧ awaitsReply h hostCtx = false ∧ settled h hostCtx = true ∧
      (h.ctx hostCtx).run = .running ∧ kindOf hostCtx ≠ .compute) ∧ (s.ctx 0).task.isSome = true ∧
    ((leaverOf { busy with run := .running }).ctx 0).pend = [] ∧ ((leaverOf { busy with run := .leaving 2 }).ctx 0).run = .leaving 2 ∧
    (((w 1000).ctx 0).run = .blocked (.wfe (some 1000)) 0 ∧ 1000 ≤ (w 1000).time.toNat ∧ ((w 1000).ctx 0).latch = 0) ∧
    (((w 1001).ctx 0).run = .blocked (.wfe (some 1001)) 0 ∧ (w 1001).time.toNat < 1001) ∧
    (parkedTask ∈ (parkedState.die 0).parked ∧ parkedTask.wait = some (.wfe (some 1000)) ∧ parkedTask.waitCore = coreOf 0 ∧
      1000 ≤ parkedState.time.toNat ∧ parkedTask.save = some (0x20000, 0, 0)) ∧ PlainHbm parkedState (0x20000 + 0x60) 8 := by
  exact ⟨sure, sure, sure, sure, sure, sure, sure,
    sure, plainHbm_of (by decide +kernel)⟩

/-! Tables in frame 16, which the world holds: address 0x1000 has a leaf, address 0x2000 none. -/

def walking (va : Word) (k : Nat) : State :=
  let s := (tenant cmp { run := .blocked .walk 0, ident := userId, walk := some { va := va, kind := k } }).modPart 1 fun p => { p with
    vfs := [(0, { root0 := 0x100001 })] }
  putEntry { s with
    bases := [(0, { custEn := true, custBase := 0x10000 })]
    mem := Memory.writeAll (cells 0x100000 [0x101001]) ([(0x101000, 0x102001), (0x102000, 0x103001), (0x103000, 0x104001), (0x104008, 0x10502F)].flatMap
      fun e => (toBytes 8 e.2).mapIdx fun i b => (e.1 + i, b)) } 16 1 1 0 false 0 0

def walks (va : Word) (k : Nat) : Bool :=
  match walk ((walking va k).walked 0 { va := va, kind := k }) userId true va k with | .ok _ => true | .error _ => false

theorem walked_of {va : Word} {k : Nat} (b : walks va k = true) :
    ∃ f, walk ((walking va k).walked 0 { va := va, kind := k }) userId true va k = .ok f := by
  unfold walks at b
  cases h : walk ((walking va k).walked 0 { va := va, kind := k }) userId true va k with
  | ok f => exact ⟨f, rfl⟩
  | error t => rw [h] at b; cases b

theorem witness_EventsReachContexts_walks :
    (WalkTurn (walking 0x1000 1) 0 { va := 0x1000, kind := 1 } ∧
      ∃ f, walk ((walking 0x1000 1).walked 0 { va := 0x1000, kind := 1 }) userId true 0x1000 1 = .ok f) ∧
    (WalkTurn (walking 0x2000 1) 0 { va := 0x2000, kind := 1 } ∧ walks 0x2000 1 = false ∧
      (((walking 0x2000 1).walked 0 { va := 0x2000, kind := 1 }).ctx 0).pend = [] ∧
      settled ((walking 0x2000 1).walked 0 { va := 0x2000, kind := 1 }) 0 = true) := by
  refine ⟨⟨⟨sure, ⟨0, sure⟩, sure, sure⟩, walked_of (by decide +kernel)⟩,
    ⟨sure, ⟨0, sure⟩, sure, sure⟩, sure, sure, sure⟩

/-! An invalidation two dies have yet to answer, and one with a single die left; a load that used its page; banks; an
actor; a message for a handler. -/

def removes (w : List Nat) : Inval := { id := 3, c := 0, waiting := w, since := 0, page := some (1, 12), ident := userId }
def invalidating (w : List Nat) (lob : List LobEntry) : State :=
  { tenant cmp { run := .blocked .invalidate 0, ident := userId, sent := true, lob := lob } with invals := [removes w] }
/-- The write of a shared line of HBM: die 1 holds a copy. -/
def sharedLine : Inval := { id := 3, c := 0, waiting := [1], since := 0, line := some 32, ident := userId }
def usedPage : LobEntry := { id := 1, op := .load [{ ea := 0x1000, pa := 0x5000, n := 8 }] (.scalar 1 .i64), ident := userId }
def bankWait (b : State) (m : BankMode) : State := b.modCtx svc fun x => { x with run := .blocked (.banks 15 0xF m 1) 0 }
def bankTurn (b : State) (m : BankMode) : Bool := banksIdle (bankWait b m) 15 (bankChanges (bankWait b m) 15 0xF m) 1
def actor1 (n : Nat) (out : Nat := 1) : State :=
  { tenant cmp runs with
    actors := [(0, some { task := { ident := userId, kind := .compute }, cluster := 0, live := true, ins := [some { bank := 0, size := 4, rate := 2 }]
                          outs := [some { bank := out, size := 4, rate := 1 }] })]
    clus := [(0, { modes := [(0, .fifo), (1, .fifo)], fifo := [(0, List.replicate n 3)] })] }
def handling (i : Ident) : State :=
  { (tenant 3 { run := .free }).modDie 0 fun d => { d with handlers := [{ act with ident := i }] } with ctl := [(0, { state := 1 })] }

theorem witness_EventsReachContexts_rest :
    (let s := invalidating [0, 1] []
     (s.invals.find? fun y => y.id == 3 && y.waiting.contains 0) = some (removes [0, 1]) ∧ (removes [0, 1]).awaits s 0 = false) ∧
    (let s := invalidating [0] [usedPage]
     (s.invals.find? fun y => y.id == 3 && y.waiting.contains 0) = some (removes [0]) ∧ (removes [0]).awaits s 0 = true) ∧
    (let s := invalidating [0] []
     (removes [0]).awaits s 0 = false ∧ (removes [0]).waiting = [0] ∧ (s.ctx 0).run = .blocked .invalidate 0 ∧ (s.ctx 0).sent = true) ∧
    (let s := { invalidating [] [] with invals := [sharedLine], l2 := [(1, [{ line := 32, part := 1, st := .s }])] }
     (s.invals.find? fun y => y.id == 3 && y.waiting.contains 1) = some sharedLine ∧ sharedLine.awaits s 1 = false) ∧
    (∀ b ∈ [banks, banksBusy], ∀ m ∈ [.scratch, .cache], ((bankWait b m).ctx svc).run = .blocked (.banks 15 0xF m 1) 0) ∧ bankTurn banks .scratch = true ∧
    bankTurn banksBusy .cache = false ∧ bankMode (bankWait banks .scratch) 15 3 ≠ .scratch ∧
    (∃ a, (actor1 2).actor 0 = some a ∧ canFire (actor1 2) a = true ∧ poolDie (actor1 2) 1 a.task.kind a.task.home 0 = some 0) ∧
    (∃ a, (actor1 1).actor 0 = some a ∧ canFire (actor1 1) a = false) ∧
    (∃ a, (actor1 1 0).actor 0 = some a ∧ canFire (actor1 1 0) a = false ∧ (actor1 1 0).actors = [(0, some a)] ∧ starved (actor1 1 0) a = false) ∧
    (∀ i ∈ [userId, { userId with gen := 1 }], handlerContext 3 = true ∧ ((handling i).die 0).handlers = [{ act with ident := i }] ∧
      openContext (handling i) 3 1 = true ∧ current (handling i) i = (i.gen == 0)) := by
  refine ⟨sure, sure, sure, sure, sure, sure, sure, sure,
    ⟨_, rfl, sure, sure⟩, ⟨_, rfl, sure⟩, ⟨_, rfl, sure, rfl, sure⟩, sure⟩

end Sys2Proof.Tests
end

