-- ==== Sys2Proof/Tests/WitnessTender.lean ====
section
/-! SUPPORT. Witnesses for the statement about the Tender, Bridle pairs, the monitor pair, errors and lost dies. -/

namespace Sys2Proof.Tests

set_option Elab.async false

open Sys2Proof Sys2Proof.Machine

/-! A free service context of CD0; virtual functions 0 and 1 enabled with requests and credit, 1 next in turn. -/

def trapReq : Service := .trap { job1 with ident := userId } 0x20000 0x20000 fails 0x1000
def syscReq : Service := .sysc 7 (Reg.ofWord 0x1000) 9 3 [Reg.ofWord 1, Reg.ofWord 2]
def serving (l : List Service) (credit : Int) : State :=
  let s := (tenant svc { run := .free }).modDie 0 fun d => { d with
    service := [(16, [.notice 1 2 3 4]), (17, l)], credit := [(16, 5), (17, credit)], turn := [(1, 1)], kentry := [(0, 0x2000), (1, 0x3000)] }
  { s.modPart 1 fun p => { p with vfs := [(0, { tnd := 1 }), (1, { tnd := 0x101 })] } with ctl := [(0, { state := 1 })] }

theorem witness_TenderPairsAndErrors_serve :
    (∀ l ∈ [[trapReq], [syscReq, trapReq], [.notice 1 2 3 4]], openContext (serving l 6) svc (partOfCore (serving l 6) (coreOf svc)) = true ∧
      svc ∈ serviceContexts (serving l 6) (dieOf svc) (partOfCore (serving l 6) (coreOf svc)) ∧
      nextServed (serving l 6) (dieOf svc) (partOfCore (serving l 6) (coreOf svc)).toNat = some 1 ∧
      requests (serving l 6) (dieOf svc) (partOfCore (serving l 6) (coreOf svc)).toNat 1 = l ∧
      (Sparse.get 0 ((serving l 6).die (dieOf svc)).kentry 1 : Word) ≠ 0 ∧ ((serving l 6).die 0).service.map (·.1) = [16, 17]) ∧
    nextServed (tenant svc { run := .free }) (dieOf svc) (partOfCore (tenant svc { run := .free }) (coreOf svc)).toNat = none := by
  decide +kernel

/-! A pair on core 0 whose interval is under way, with its copy; its third failure; one that is due. -/

def copy0 : RegCopy := { c := 0, g := [(1, Reg.ofWord 3)], v := [], p := [], pc := 0x1000, flags := 0, round := .rne, task := some job1, next := 4 }
def pair (b : Bridle) : State :=
  (leaverOf { busy with run := .running, lob := [{ id := 5, op := .fence .full .part }] }).modCore 0 fun k => { k with bridle := some b, since := 9, rolls := 2 }
def calm (b : Bridle) : State := (leaverOf { busy with run := .running }).modCore 0 fun k => { k with bridle := some b }

theorem pair_of {s : State} {k : Nat} {b : Bridle}
    (q : decide ((s.core k).bridle = some b ∧ canRoll s k b = true ∧ (∀ r ∈ b.ckpt, coreOf r.c = k) ∧ (b.ckpt.map (·.c)).Nodup) = true) : PairTurn s k b := by
  obtain ⟨q1, q2, q3, q4⟩ := of_decide_eq_true q
  exact ⟨q1, q2, q3, q4⟩

theorem witness_TenderPairsAndErrors_pairs :
    (∀ n ∈ [1, 2], PairTurn (pair { ckpt := [copy0], fails := n }) 0 { ckpt := [copy0], fails := n }) ∧
    (let s := pair { ckpt := [copy0], fails := 2 }
     kindOf 0 = .compute ∧ copy0.c ∈ contextsOf 0 ∧ (s.ctx 0).run = .running ∧ (s.ctx 0).task.isSome = true ∧
       (s.ctx 0).task.map (·.gti) = copy0.task.map (·.gti)) ∧
    canRoll (pair { ckpt := [copy0], due := true }) 0 { ckpt := [copy0], due := true } = false ∧
    (let s := calm { due := true }
     (s.core 0).matrix.queue = [] ∧ ∀ d ∈ contextsOf 0, (s.ctx d).vq = [] ∧ ∀ e ∈ (s.ctx d).lob, e.op.isLoad = false) ∧
    (((pair { ckpt := [copy0] }).core 0).since < 1024 ∧ gateFill (pair { ckpt := [copy0] }) 0 < 64) := by
  refine ⟨fun n h => ?_, sure, sure, sure, sure⟩
  simp only [List.mem_cons, List.not_mem_nil, or_false] at h
  rcases h with rfl | rfl <;> exact pair_of (by decide +kernel)

/-! A trap for the monitor pair of CD0, its context free, and running. -/

def monitored (r : RunState) : State := (stand 2096 { run := r }).modDie 0 fun d => { d with monitor := [fails], centry := 0x4000 }

theorem witness_TenderPairsAndErrors_monitor :
    (∀ r ∈ [RunState.free, .halted, .running], ((monitored r).die 0).monitor = [fails] ∧ ((monitored r).die 0).centry ≠ 0 ∧
      ((monitored r).ctx (ctxKey (0 * 512 + 262) 0)).run = r) := by
  decide +kernel

/-! Frame 16 of the partition, mirrored by CD0 into frame 32 or not; holds of it and of a line of the kernel region. -/

def framed (mirror : Bool) (l : List Hold) : State :=
  putEntry { (tenant cmp runs).modDie 0 (fun d => { d with kmirr0 := if mirror then 0x100001 else 0, kmirr1 := 0x200000 }) with
    bases := [(0, { custEn := true, custBase := 0x10000 })], holds := l } 16 1 1 0 false 0 0
def held1 (kernel : Bool) : Hold := { tag := 7, frame := 16, line := 0x100080 / 128, since := 0, kernel := kernel, part := 1, world := false }
def holder : Writer := { custodian := false, part := 1, vf := 0, world := false }
def mirrorOpen : State := framed true [held1 true]
def at1 (n : Nat) : State := { framed false [held1 false] with time := BitVec.ofNat 64 n }

theorem witness_TenderPairsAndErrors_errors :
    (∀ m, isHbm 0x100080 = true ∧ redirect (framed m []) 0x100080 = 0x100080 ∧ poisoned (framed m []) 0x100080 = false ∧ (framed m []).holds = [] ∧ isContext 0 = true ∧ dieOf 0 < 8) ∧
    mirrorOn (framed true []) 0 0x100080 = some 0x200080 ∧ mirrorOn (framed false []) 0 0x100080 = none ∧
    poisoned (framed true []) 0x200080 = false ∧ poisoned { framed true [] with poison := [0x200080 / 128] } 0x200080 = true ∧
    entState (entry0 (framed false []) 16) ≠ 0 ∧ firstHostDie (framed false []) 1 = some 8 ∧ mirrorHold (framed false []) 0x100080 = none ∧
    (mirrorHold (mirrorOpen) 0x200080 = some (held1 true) ∧ mirrorOpen.holds = [held1 true] ∧ isHbm 0x200080 = true ∧ redirect mirrorOpen 0x200080 = 0x200080 ∧
      poisoned mirrorOpen 0x200080 = false ∧ mirrorOn mirrorOpen 0 0x200080 = none ∧ (held1 true).line ≠ 0x200080 / 128) ∧
    (held1 false ∈ (at1 999999).holds ∧ (at1 999999).time.toNat < (held1 false).since + 1000000) ∧
    (held1 false ∈ (at1 1000000).holds ∧ (held1 false).since + 1000000 ≤ (at1 1000000).time.toNat) ∧
    (holdOwner (writerIdent (at1 0) holder) (held1 false) = true ∧ (0x1007 : Word).extractLsb' 12 4 = 1 ∧ (0x1007 : Word).extractLsb' 0 12 = 7) ∧
    (let w : Word := 0x100007
     w.extractLsb' 12 4 = 0 ∧ (w.extractLsb' 16 36).toNat = 16 ∧ isHbm (16 * 65536) = true ∧ entState (entry0 (at1 0) 16) = 1 ∧
       entPart (entry0 (at1 0) 16) = 1 ∧ entOwner (entry0 (at1 0) 16) = false) ∧
    entState (entry0 (at1 0) 17) = 0 ∧ (held1 true ∈ (framed false [held1 true]).holds ∧ (held1 true).kernel = true) := by
  decide +kernel

/-- Dies that do not answer, and one behind a link that has been down for 1 ms. -/
theorem witness_TenderPairsAndErrors_lost :
    let s (n : Nat) : State := { invalidating [0, 1] [] with time := BitVec.ofNat 64 n }
    (∃ v ∈ (s 100000).invals, 1 ∈ v.waiting ∧ v.since + 100000 ≤ (s 100000).time.toNat) ∧
    (∀ v ∈ (s 99999).invals, 1 ∈ v.waiting → (s 99999).time.toNat < v.since + 100000) ∧
    (∃ (t : State) (die : Nat) (l : Nat × Link), l ∈ t.links ∧ (Config.linkEnds (l.1 / 2)).1 = die ∧ l.2.down = some 0 ∧ 0 + 1000000 ≤ t.time.toNat) ∧
    ∀ l ∈ (s 0).links, l.2.down = none := by
  refine ⟨⟨removes [0, 1], sure, by decide, sure⟩, sure, ?_, sure⟩
  exact ⟨{ State.reset with links := [(0, { down := some 0 })], time := 1000000 }, _, (0, { down := some 0 }), List.mem_singleton.mpr rfl, rfl, rfl, by decide⟩

end Sys2Proof.Tests
end

