-- ==== Sys2Proof/Tests/WitnessLinks.lean ====
section
/-! SUPPORT. Witnesses for the statement about links, lanes, the custody record's events and orphaned scratchpads. -/

namespace Sys2Proof.Tests

set_option Elab.async false

open Sys2Proof Sys2Proof.Machine

/-! A link that expects number 5 of class 0, its budget almost spent, and spent by one flit or by all. -/

def linked (l : Link) : State := { State.reset with links := [(4, l)] }

theorem witness_LinksAndPlanesMove_links :
    let s := linked { expect := [(0, 5)], buffer := [(0, 5, 7)] }
    let full := linked { buffer := [(0, 5, 8)] }
    let many := linked { recent := List.replicate 64 0 }
    let down := linked { down := some 0 }
    (linkOf s 4).down = none ∧ (Sparse.get 0 (linkOf s 4).expect 0 : BitVec 16) = 5 ∧ 32768 ≤ ((4 : BitVec 16) - 5).toNat ∧
    ((6 : BitVec 16) ≠ 5 ∧ ((6 : BitVec 16) - 5).toNat < 32768) ∧ (linkOf down 4).down = some 0 ∧
    ((linkOf full 4).down = none ∧ ∃ j ∈ bothWays 4, ∃ f ∈ (linkOf full j).buffer, 8 ≤ f.2.2) ∧
    ((linkOf many 4).down = none ∧ 64 ≤ ((bothWays 4).flatMap fun j => (linkOf many j).recent.filter fun t => decide (many.time.toNat ≤ t + 10000)).length) ∧
    ¬ ((∃ j ∈ bothWays 4, ∃ f ∈ (linkOf s j).buffer, 8 ≤ f.2.2) ∨
      64 ≤ ((bothWays 4).flatMap fun j => (linkOf s j).recent.filter fun t => decide (s.time.toNat ≤ t + 10000)).length) := by
  decide +kernel

/-! Lane 2, bound to contest 5 of virtual function 0; an entry in flight; two entrants of CD0, one late, and a listener. -/

def entrant (c : Nat) (key : BitVec 32) (stage : Nat) : Entrant := { c := c, cid := 5, part := 1, vf := 0, key := key, stage := stage }
def beaconWait (c : Nat) (s : State) : State := s.setCtx c { run := .blocked .beacon 0, sent := true }
def laned (l : Lane) (m : List (Nat × NetMsg)) : State :=
  beaconWait 1 { beaconWait 0 (tenant cmp runs) with lanes := [(2, { l with part := 1, bound := true, cid := 5 })], net := m }
def result1 : FrameRes := { key := 9, die := 0, tag := 0, winner := 0 }

theorem witness_LinksAndPlanesMove_lanes :
    let e := entrant 0 9 0
    let found (cid : BitVec 12) : State := laned {} [(9, .entry { e with cid := cid })]
    (∀ cid ∈ [(5 : BitVec 12), 6], ((found cid).net.find? fun m => match m.2 with | .entry e => e.c == 0 | _ => false) = some (9, .entry { e with cid := cid })) ∧
    laneOf (found 5) 1 0 5 = some 2 ∧ laneOf (found 6) 1 0 6 = none ∧ ((found 5).lane 2).due = false ∧
    (let s := laned { due := true } [(9, .entry e)]
     laneOf s 1 0 5 = some 2 ∧ (s.lane 2).due = true) ∧
    (∀ g ∈ [Staged.bind 6 0 true, .unbind, .assign 2], ((laned { staged := [g], entrants := [e] } []).lane 2).staged = [g] ∧
      ((laned { staged := [g], entrants := [e] } []).lane 2).present = false ∧ ((laned { staged := [g], entrants := [e] } []).lane 2).bindBit = false) ∧
    (let s := laned { entrants := [e, entrant 1 9 0] } []
     (s.lane 2).staged = [] ∧ ∃ e ∈ (s.lane 2).entrants.filter (fun e => connected s (s.lane 2) (dieOf e.c)), e.stage = 0) ∧
    (let s := laned { entrants := [entrant 0 9 2] } []
     (s.lane 2).staged = [] ∧ ∀ e ∈ (s.lane 2).entrants.filter (fun e => connected s (s.lane 2) (dieOf e.c)), e.stage ≠ 0) ∧
    (let s := laned { present := true, result := some result1, entrants := [entrant 0 9 1, { entrant 1 7 2 with late := true }] } []
     (s.lane 2).bindBit = false ∧ (s.lane 2).present = true ∧ (s.lane 2).result.bind (frameResult s (s.lane 2)) = some result1 ∧ ((s.lane 2).entrants.map (·.c)).Nodup) ∧
    (let l : Lane := { present := true, result := some result1, part := 1, entrants := [entrant 1 7 1] }
     let s := laned l []
     let left := l.entrants.filter fun e => e.stage == 1 && connected s l (dieOf e.c)
     left = [entrant 1 7 1] ∧ ∀ e ∈ left, e.c ≠ result1.winner) ∧
    (let s := laned { present := true, result := some result1, entrants := [] } []
     (s.lane 2).bindBit = false ∧ (s.lane 2).present = true ∧ (s.lane 2).result.bind (frameResult s (s.lane 2)) = none) ∧
    ((laned { bindBit := true } []).lane 2).bindBit = true := by
  decide +kernel

theorem witness_LinksAndPlanesMove_waits :
    AwaitsResult (laned {} []) (entrant 0 9 1) ∧ AwaitsResult (laned {} []) { entrant 1 7 2 with late := true } := by
  exact ⟨⟨rfl, sure, sure, 0, sure⟩, ⟨rfl, sure, sure, 0, sure⟩⟩

/-! Frame 4096, lent by world 0 and recalled, its deadline at 1000 ns and two strikes in the second before; a withdrawal
from world 1 under way, whose issuer waits, or with none. -/

def recalled (st t : Nat) (deadline : Word) (times : List Nat) : State :=
  let s := (tenant cmp { run := .blocked .custody 0, sent := true }).modPart 1 fun p => { p with vfs := [(0, { strikes1 := { times := times, till := some 2000 } })] }
  putEntry { s with bases := [(0, { custEn := true, custBase := 0x10000 })], time := BitVec.ofNat 64 t } 4096 st 1 0 false 100 deadline
def revoke1 (who : Option Nat) : Revoke := { frame := 4096, losers := [(1, 0, true)], issuer := who, word := entry0 (recalled 1 0 0 []) 4096 }
def revoked (who : Option Nat) (lob : List LobEntry) : State :=
  ((recalled 1 0 0 []).modBase 0 fun b => { b with
    revokes := [revoke1 who] }).modCtx 0 fun x => { x with lob := lob }
def loserLoad : LobEntry := { id := 1, op := .load [{ ea := 0x1000, pa := 0x10000000, n := 8 }] (.scalar 1 .i64), ident := { part := 1 } }

theorem witness_LinksAndPlanesMove_deadline :
    (∀ l ∈ [[], [500, 900]], ((strikesOf (recalled 4 1000 1000 l) 1 0 true).times.take 2).filter (fun t => decide (1000 ≤ t + 1000000000)) = l) ∧
    DeadlinePast (recalled 4 1000 1000 [500, 900]) 4096 ∧ PlainHbm (recalled 4 1000 1000 [500, 900]) (entryAddr (recalled 4 1000 1000 [500, 900]) 4096) 16 ∧
    (recalled 4 999 1000 []).time.toNat < (entry1 (recalled 4 999 1000 []) 4096).toNat ∧ entState (entry0 (recalled 3 1000 1000 []) 4096) ≠ 4 ∧
    (strikesOf (recalled 4 2000 0 []) 1 0 true).till = some 2000 ∧ 2000 ≤ (recalled 4 2000 0 []).time.toNat ∧
    (strikesOf (recalled 4 1999 0 []) 1 0 true).till = some 2000 ∧ (recalled 4 1999 0 []).time.toNat < 2000 := by
  refine ⟨sure, ⟨sure, sure, sure, sure⟩, plainHbm_of (by decide +kernel),
    sure, sure, sure, sure, sure, sure⟩

theorem witness_LinksAndPlanesMove_revokes :
    (∃ r, revokeOf (revoked (some 0) []) 4096 = some r ∧ r.awaits (revoked (some 0) []) = false ∧ r.issuer = some 0 ∧
      ((revoked (some 0) []).ctx 0).run = .blocked .custody 0 ∧ ((revoked (some 0) []).ctx 0).sent = true ∧
      ((revoked (some 0) []).ctx 0).set = r.set ∧ (((revoked (some 0) []).modCtx 0 fun x => { x with set := 1 }).ctx 0).set ≠ r.set) ∧
    (∃ r, revokeOf (revoked (some 0) [loserLoad]) 4096 = some r ∧ r.awaits (revoked (some 0) [loserLoad]) = true) ∧
    (∃ r, revokeOf (revoked none []) 4096 = some r ∧ r.issuer = none ∧ r.losers = [(1, 0, true)] ∧ (physDie (revoked none []) (entPart r.word).toNat 0).map (·.1) = some 0 ∧
      firstHostDie (revoked none []) (entPart r.word).toNat = some 8) ∧
    (isHbm 0x10000F80 = true ∧ 0x10000F80 / 65536 = 4096 ∧ 0x10000F80 % 65536 / 128 = 31 ∧
      rights (entry0 (revoked none []) 4096) { part := 1, world := true } = false) := by
  refine ⟨⟨revoke1 (some 0), sure⟩, ⟨revoke1 (some 0), sure⟩,
    ⟨revoke1 none, sure, sure, sure, sure, sure⟩, sure⟩

theorem witness_LinksAndPlanesMove_orphans :
    let s (t : Nat) (l : List (Nat × Option Nat)) : State := { (tenant cmp runs).modClu 1 (fun k => { k with orphan := some 0, attached := l }) with time := BitVec.ofNat 64 t }
    ((s 0 []).clu 1).orphan = some 0 ∧ ((s 0 []).clu 1).attached = [] ∧
    0 + 1000000 ≤ (s 1000000 [(0, none)]).time.toNat ∧ (((s 999999 [(0, none)]).clu 1).attached ≠ [] ∧ (s 999999 [(0, none)]).time.toNat < 0 + 1000000) := by
  decide +kernel

end Sys2Proof.Tests
end

