-- ==== Sys2Proof/Tests/WitnessPartitions.lean ====
section
/-! SUPPORT. Witnesses for the statement about partitions, requests of registers and the safe tier. -/

namespace Sys2Proof.Tests

set_option Elab.async false

open Sys2Proof Sys2Proof.Machine

/-! A task of virtual function 0 on CD0, the lead die of partition 1, claimed by a debugger or not. -/

def tenantWriter (v : BitVec 4) : Writer := { custodian := false, part := 1, vf := v, world := true }
def keeper : Writer := { custodian := true, part := 0xFF, vf := 0, world := true }
def resident (claimed : Bool) : State :=
  (tenant cmp { runs with ident := { part := 1 }, task := some { gti := 9, ident := { part := 1 } } }).modPart 1 fun p => { p with
    claims := if claimed then [(0, { gti := 9, b := 2 ^ 63, vf := 0 })] else [] }

theorem witness_PartitionsAndRegisters_requests :
    (∀ b, residentOf (resident b) 0 (tenantWriter 0).part 9 = some 0 ∧ residentOf (resident b) 0 1 8 = none ∧ ((resident b).ctx 0).run = .running ∧
      ((resident b).ctx 0).ident.vf = 0 ∧ isLead (resident b) 0 = true ∧ (claimOf (resident b) ((resident b).ctx 0)).isSome = b ∧
      (partDies (resident b) (partOfCore (resident b) 0).toNat).findSome? (fun e => residentOf (resident b) e (BitVec.ofNat 8 (partOfCore (resident b) 0).toNat) 9) = some 0) := by
  decide +kernel

/-! Partition 2 off; partition 1 on with a context, and with none; a joint partition waiting for its shares. -/

def joint (m d : Bool) : State := (resident false).modPart 3 fun p => { p with
  en := true, joint := true, shm := m, shd := d, kem := some 0, shareD := if d then some (BitVec.ofNat 256 5) else none }
def ksub (own pa : Nat) : Word := BitVec.ofNat 64 (own * 2 ^ 62 + 3 * 2 ^ 52 + pa)
def quiet : State := (resident false).modCtx 0 fun x => { x with run := .free }

theorem witness_PartitionsAndRegisters_partitions :
    ((resident false).part 2).en = false ∧ pctlRefused (resident false) 2 0x8000000000000000 = false ∧
    pctlRefused (resident false) 2 0xC000000000000005 = false ∧ pctlRefused (resident false) 2 0x8000000000000005 = true ∧
    (((resident false).part 1).en = true ∧ (contextsFor (resident false) fun i => i.part == BitVec.ofNat 8 1) ≠ []) ∧
    ((quiet.part 1).en = true ∧ (quiet.part 1).ldtlock = false ∧ (contextsFor quiet fun i => i.part == BitVec.ofNat 8 1) = []) ∧
    (let s := quiet.modPart 1 fun p => { p with prot := true }
     (s.part 1).en = true ∧ (s.part 1).prot = true ∧ (s.part 1).ldtlock = false) ∧
    (ksubOwner (ksub 1 0x1000) = 1 ∧ ksubOwner (ksub 2 0x1000) = 2 ∧ ksubPart (ksub 1 0x1000) = 3) ∧ ¬ TakesShares (resident false) (ksub 1 0x1000) ∧
    (TakesShares (joint true false) (ksub 1 0x1000) ∧ ((joint true false).part 3).shm = true) ∧
    (TakesShares (joint false false) (ksub 1 0x1001) ∧ ((joint false false).part 3).shm = false ∧ ksubAddr (ksub 1 0x1001) % 16 ≠ 0) ∧
    (TakesShares (joint false true) (ksub 1 0x1000) ∧ ((joint false true).part 3).shareD = some 5 ∧ ksubAddr (ksub 1 0x1000) % 16 = 0 ∧
      readable (joint false true) (ksubAddr (ksub 1 0x1000)) 1568 = true) := by
  unfold TakesShares
  decide +kernel

/-! The measurement of partition 1 and frame 4096, or a frame not its own; a certificate slot; a capture. -/

def measured (p : Nat) : Word := BitVec.ofNat 64 (p * 2 ^ 56 + 4096 * 2 ^ 16)
def attested (done : Bool) : State :=
  let s := recalled 1 0 0 []
  { s with sec := { s.sec with attBusy := done, attPart := 1, attSlot := 3, attAddr := 0x20000 } }

theorem witness_PartitionsAndRegisters_measures :
    (let s := recalled 1 0 0 []
     (s.part 1).mcl = false ∧ entState (entry0 s 4096) = 1 ∧ (entPart (entry0 s 4096)).toNat = 1 ∧
       ((measured 1).extractLsb' 56 8).toNat = 1 ∧ ((measured 1).extractLsb' 16 36).toNat = 4096 ∧ ((measured 2).extractLsb' 56 8).toNat = 2) ∧
    (attested true).sec.attBusy = true ∧ (attested false).sec.attBusy = false ∧ (attested true).sec.attSlot < 8 := by
  decide +kernel

theorem witness_PartitionsAndRegisters_reports :
    PlainHbm (attested true) (attested true).sec.attAddr 30080 ∧ PlainHbm (recalled 1 0 0 []) (((0x200 : Word).extractLsb' 0 32).toNat * 256) 29856 :=
  ⟨plainHbm_of (by decide +kernel), plainHbm_of (by decide +kernel)⟩

/-! Records to install, dies to reset, saves and restores, and registers of CD0's window. -/

def savedOne : SavedFrame := { frame := 4096, bytes := [(0x10000008, 7)], locks := [], ctags := [], word0 := entryWord 1 1 0 false 3 0, word1 := 0 }
def ckpt (restore : Bool) (x : Context) : State :=
  let s := (recalled 1 0 0 []).setCtx 0 x
  { s with ckptSt := 1, ckptRestore := restore, saved := if restore then [savedOne] else [] }

theorem witness_PartitionsAndRegisters_safe :
    (let w : Word := 0x8000000001000000
     w.getLsbD 63 = true ∧ (w.extractLsb' 16 21).toNat * 65536 + 320 * 65536 ≤ stackBytes ∧ ((resident false).base 0).custEn = false ∧
       ((recalled 1 0 0 []).base 0).custEn = true ∧ stackBytes < ((0x8000001FFFFF0000 : Word).extractLsb' 16 21).toNat * 65536 + 320 * 65536) ∧
    (∀ n ∈ [(2 : BitVec 3), 3, 4], ({ resident false with ctl := [(3, { state := n })] }.dieCtl 3).state = n) ∧
    ({ resident false with ctl := [(3, { state := 1 })] }.dieCtl 3).state = 1 ∧ (resident false).ckptSt ≠ 1 := by
  decide +kernel

theorem witness_PartitionsAndRegisters_saves :
    (∀ b, (ckpt b {}).ckptSt = 1 ∧ allOut (ckpt b {}) = true ∧ (ckpt b {}).cmds = [] ∧ (∀ k ∈ (ckpt b {}).clus, k.2.csq = []) ∧ (ckpt b {}).ckptResume = false ∧
      (ckpt b {}).ckptRestore = b) ∧
    (let s := ckpt true {}
     s.saved = [savedOne] ∧ (s.base (4096 / 2 ^ 21)).custEn = true ∧ PlainHbm s (entryAddr s 4096) 16 ∧ (∀ e ∈ savedOne.bytes, e.1 / 65536 = 4096) ∧
       (savedOne.bytes.map (·.1)).Nodup ∧ ∀ j, j < 16 → (entryAddr s 4096 + j) / 65536 ≠ 4096) ∧
    AsksToStop (resident false) 0 := by
  refine ⟨sure, ⟨sure, sure, plainHbm_of (by decide +kernel), by decide, by decide, ?_⟩,
    ⟨sure, ?_, sure, sure, sure⟩⟩
  · have h : entryAddr (ckpt true {}) 4096 = 0x20000 := by decide +kernel
    intro j hj
    rw [h]
    omega
  · intro r h
    have h' : ((resident false).ctx 0).run = .running := by decide +kernel
    rw [h'] at h
    cases h

theorem witness_PartitionsAndRegisters_registers :
    let s := resident false
    reachable s (writerIdent s (tenantWriter 3)) (windowPa 0 (8 * 3)) = true ∧ ((tenantWriter 3).vf.toNat = 3 ∧ (tenantWriter 3).world = decide (0 < 8)) ∧
    (tenantWriter 3).vf.toNat ≠ 4 ∧ reachable s (writerIdent s keeper) (windowPa 0 0x80) = true ∧ keeper.custodian = true ∧
    reachable s (writerIdent s (tenantWriter 3)) (windowPa 0 0x80) = true ∧ windowListed 0 0x90 (isLead s 0) = false := by
  decide +kernel

end Sys2Proof.Tests
end

