-- ==== Sys2Proof/Tests/WitnessOutside.lean ====
section
/-! SUPPORT. Witnesses for the statement about host ports, windows, sessions, collectives, traces and power. -/

namespace Sys2Proof.Tests

set_option Elab.async false

open Sys2Proof Sys2Proof.Machine

/-! HD0's window 3, enabled or not, with a limit of 800; session 7 in each state. -/

def windowed (on : Bool) (till : Option Nat) : State :=
  { (tenant hostCtx runs) with
    io := [(8, { wins := [(3, { a := if on then 2 ^ 63 else 0, b := 800 * 2 ^ 48, limit := 800, till := till })] })], time := 1000 }
def session (x : Session) (t : Nat) : State := { tenant hostCtx runs with io := [(8, { sess := [(7, x)] })], time := BitVec.ofNat 64 t }

theorem witness_OutsideAndPower_windows :
    IsHost 8 ∧ (3 : BitVec 3).toNat < 4 ∧ (winOf (windowed true none) 8 3).a.getLsbD 63 = true ∧ (winOf (windowed false none) 8 3).a.getLsbD 63 = false ∧
    (winOf (windowed true none) 8 3).till = none ∧ (winOf (windowed true (some 1000)) 8 3).till = some 1000 ∧ 1000 ≤ (windowed true (some 1000)).time.toNat ∧
    ((winOf (windowed true (some 1001)) 8 3).till = some 1001 ∧ (windowed true (some 1001)).time.toNat < 1001) := by
  exact ⟨.inl rfl, by decide, sure, sure, sure, sure, sure, sure⟩

theorem witness_OutsideAndPower_sessions :
    (((session {} 0).hio 8).wac = [] ∧ (sessOf (session {} 0) 8 7).en = false ∧ (sessOf (session { en := true, state := 2 } 0) 8 7).en = true) ∧
    ((sessOf (session { en := true, state := 1 } 1000000000) 8 7).state = 1 ∧ 0 + 1000000000 ≤ (session { en := true, state := 1 } 1000000000).time.toNat ∧
      (session { en := true, state := 1 } 999999999).time.toNat < 0 + 1000000000) ∧
    (let x := sessOf (session { en := true, state := 2, rekey := true, since := 5 } 1000000005) 8 7
     x.state = 2 ∧ x.rekey = true ∧ x.since + 1000000000 ≤ (session x 1000000005).time.toNat ∧ (session x 1000000004).time.toNat < x.since + 1000000000) ∧
    (let x := sessOf (session { en := true, state := 2, high := 2000, seen := [1990, 2000] } 0) 8 7
     x.state = 2 ∧ x.high < 977 + 1024 ∧ 977 ∉ x.seen ∧ 976 + 1024 ≤ x.high ∧ 1990 ∈ x.seen) ∧
    (2 ^ 40 ≤ (sessOf (session { en := true, state := 2, sent := 2 ^ 40 } 0) 8 7).sent ∧ (sessOf (session { en := true, state := 2, sent := 2 ^ 40 - 1 } 0) 8 7).sent < 2 ^ 40) := by
  decide +kernel

/-! A descriptor at 0x1000 of two members with one FP32 element at 0x2000 and a record at 0x3000; a malformed one. -/

def descriptor (wire bound : Nat) : List Host.Cell :=
  cells 0x1000 [wire + 2 * 2 ^ 8 + bound * 2 ^ 32, 5, 0x2000, 1, 0x3000, 0, 0, 0, 7 * 2 ^ 16]
def submit (wire n : Nat) : State :=
  { session { en := true, state := 2 } 0 with
    mem := descriptor wire 1, io := [(8, { sess := [(7, { en := true, state := 2 })], wac := (List.range n).map fun k => (k, some coll) })] }
where coll : Collective :=
  { wire := 8, nmem := 2, self := 0, bound := 1, round := 5, buf := 0x2000, count := 1, result := 0x3000, sessions := [0, 7], start := 0
    sum := [0x3F800000], mask := [0], ident := owner }
def collected (x : Collective) (t : Nat) : State := { submit 8 0 with
  io := [(8, { sess := [(7, { en := true, state := 2 })], wac := [(0, some x)] })], time := BitVec.ofNat 64 t }

theorem witness_OutsideAndPower_submit :
    (∀ n ∈ [0, 16], homeRights (submit 8 n) owner 0x1000 = true ∧ wacField (submit 8 n) 0x1000 0x20 8 = 0x3000 ∧ homeRights (submit 8 n) owner 0x3000 = true) ∧
    (((0x1000 : Word).extractLsb' 6 46).toNat * 64 = 0x1000) ∧ 16 ≤ (((submit 8 16).hio 8).wac.filter fun e => e.2.isSome).length ∧
    ((((submit 8 0).hio 8).wac.filter fun e => e.2.isSome).length < 16 ∧ 1 < wacField (submit 8 0) 0x1000 1 1 ∧ 1 ≠ wacField (submit 8 0) 0x1000 2 1 ∧
      (sessOf (submit 8 0) 8 (wacField (submit 8 0) 0x1000 (0x40 + 2 * 1) 2)).state = 2) := by
  decide +kernel

theorem witness_OutsideAndPower_forms :
    WacWellFormed (submit 8 0) 0x1000 ∧ WacWellFormed (submit 8 16) 0x1000 ∧ ¬ WacWellFormed (submit 7 0) 0x1000 ∧ PlainHbm (submit 8 0) 0x3000 32 :=
  ⟨⟨sure, sure, sure, sure, sure⟩,
    ⟨sure, sure, sure, sure, sure⟩,
    fun h => absurd h.wire (by decide +kernel), plainHbm_of (by decide +kernel)⟩

theorem witness_OutsideAndPower_rounds :
    let three : Collective := { submit.coll with nmem := 3, sessions := [0, 7, 7] }
    (Counts (collected submit.coll 0) 8 0 1 5 submit.coll ∧ (∀ j, j < submit.coll.nmem → j ∈ submit.coll.mask ∨ j = 1) ∧ WacPlain (collected submit.coll 0) submit.coll 1) ∧
    (Counts (collected three 0) 8 0 1 5 three ∧ (2 < three.nmem ∧ 2 ≠ three.self ∧ 2 ∉ three.mask ∧ 2 ∉ three.dropped ∧
      (sessOf (collected three 0) 8 (three.sessions.getD 2 0xFFFF)).state = 2)) ∧
    (wacAt (collected submit.coll 1000000) 8 0 = some submit.coll ∧ submit.coll.start + submit.coll.bound * 1000000 ≤ (collected submit.coll 1000000).time.toNat ∧
      WacPlain (collected submit.coll 1000000) submit.coll 1) ∧
    (collected submit.coll 999999).time.toNat < submit.coll.start + submit.coll.bound * 1000000 := by
  refine ⟨⟨⟨sure, sure, rfl, by decide, sure⟩, by decide,
      ⟨plainHbm_of (by decide +kernel), plainHbm_of (by decide +kernel), .inl (by decide)⟩⟩,
    ⟨⟨sure, sure, rfl, by decide, sure⟩, sure⟩,
    ⟨sure, sure, ⟨plainHbm_of (by decide +kernel), plainHbm_of (by decide +kernel), .inl (by decide)⟩⟩, sure⟩

/-! A record of partition 1 for its buffer of 64 records at 0x40000, with room and full. -/

def rec1 : TraceRec := { time := 1000, kind := 4, code := 2, core := 3, gti := 9, value := 5 }
def traced (next : Nat) : State := (tenant cmp runs).modPart 1 fun p => { p with
  trace := [rec1], trcbase := 6 * 2 ^ 58 + 0x40000, trcctl := 0x8000000000000020, trcnext := next, trcwho := owner }

theorem witness_OutsideAndPower_traces :
    (∀ n ∈ [63, 64], ((traced n).part 1).trace = [rec1] ∧ traceSize ((traced n).part 1) = 6 ∧ homeRights (traced n) ((traced n).part 1).trcwho (tracePa ((traced n).part 1)) = true ∧
      frameHeld (traced n) (tracePa ((traced n).part 1)) = false) ∧
    (((traced 64).part 1).trcctl.getLsbD 62 = false ∧ 2 ^ traceSize ((traced 64).part 1) ≤ ((traced 64).part 1).trcnext) ∧
    ¬ 2 ^ traceSize ((traced 63).part 1) ≤ ((traced 63).part 1).trcnext ∧ ((traced 0).part 2).trace = [] ∧
    (dieInPart (traced 0) 0 1 = true ∧ ((traced 0).part 1).trcctl.getLsbD 63 = true ∧ ((traced 0).part 1).trcctl.getLsbD 5 = true ∧ dieInPart (traced 0) 0 2 = false) := by
  decide +kernel

theorem witness_OutsideAndPower_power :
    PlainHbm (traced 63) (tracePa ((traced 63).part 1)) 32 ∧ ({ traced 0 with supply := false } : State).supply = false ∧ (traced 0).supply = true ∧
    ∀ k, ((traced 0).base k).tiles = [] :=
  ⟨plainHbm_of (by decide +kernel), rfl, sure, fun _ => rfl⟩

end Sys2Proof.Tests
end

section
/-! SUPPORT. Decoding undoes encoding (R36 to R62): what each field of a packed word reads back as, then one lemma for
each decoder, named after the decoder and what it gives back, then the opcode map. -/

namespace Sys2Proof

/-! The library's two rules for a slice of an append, as `simp` rules: the decoder reads X by slices. -/

@[simp] theorem slice_above {v w : Nat} {x : BitVec v} {y : BitVec w} {lo n : Nat} (h : w ≤ lo) :
    (x ++ y).extractLsb' lo n = x.extractLsb' (lo - w) n := BitVec.extractLsb'_append_eq_of_le h
@[simp] theorem slice_below {v w : Nat} {x : BitVec v} {y : BitVec w} {lo n : Nat} (h : lo + n ≤ w) :
    (x ++ y).extractLsb' lo n = y.extractLsb' lo n := BitVec.extractLsb'_append_eq_of_add_le h

/-! The same for one bit. -/

theorem bit_above {v w i : Nat} {x : BitVec v} {y : BitVec w} (h : w ≤ i) : (x ++ y).getLsbD i = x.getLsbD (i - w) := by
  rw [BitVec.getLsbD_append, if_neg (by omega)]
theorem bit_below {v w i : Nat} {x : BitVec v} {y : BitVec w} (h : i < w) : (x ++ y).getLsbD i = y.getLsbD i := by
  rw [BitVec.getLsbD_append, if_pos h]
@[simp] theorem b1_getLsbD (x : Bool) : (b1 x).getLsbD 0 = x := by cases x <;> rfl

/-! The word and its fields. -/

/-- The fields of a packed word are those it was packed from (R36). -/
theorem Fields.unpack_pack (f : Fields) : Fields.unpack f.pack = f := by
  simp [Fields.unpack, Fields.pack, -Nat.reduceAdd]

/-- A word's twelve bytes in memory are the word again (R4, R5). -/
theorem decodeBytes_bytesOf (k : CoreKind) (w : IWord) : decodeBytes k (bytesOf w) = decode k w := by
  show decode k _ = decode k w
  congr 1
  apply BitVec.eq_of_getLsbD_eq
  intro i hi
  simp only [wordOf, le32, BitVec.getLsbD_append, BitVec.getLsbD_extractLsb']
  grind

section MkF
variable (n : BitVec 10) (v : BitVec 6) (d a b : BitVec 8) (h : Hdr) (x : BitVec 43)

@[simp] theorem mkF_opc : (mkF n v d a b h x).opc = n := rfl
@[simp] theorem mkF_var : (mkF n v d a b h x).var = v := rfl
@[simp] theorem mkF_d : (mkF n v d a b h x).d = d := rfl
@[simp] theorem mkF_a : (mkF n v d a b h x).a = a := rfl
@[simp] theorem mkF_b : (mkF n v d a b h x).b = b := rfl
@[simp] theorem mkF_x : (mkF n v d a b h x).x = x := rfl

/-- The header comes back from the guard and hint fields (R50, R54). -/
@[simp] theorem mkF_hdr : (mkF n v d a b h x).hdr = h := by
  obtain ⟨⟨neg, p⟩, hints⟩ := h
  have hn : (BitVec.ofBool neg ++ p).getLsbD 4 = neg := by simp only [BitVec.getLsbD_append]; simp
  have hp : (BitVec.ofBool neg ++ p).extractLsb' 0 4 = p := BitVec.extractLsb'_append_eq_right
  have hh : (hints ++ 0#1).extractLsb' 1 7 = hints := BitVec.extractLsb'_append_eq_left
  simp only [Fields.hdr, mkF, Hdr.g, Hdr.h, hn, hp, hh]

/-- The reserved hint bit is zero (R54). -/
@[simp] theorem mkF_h0 : (mkF n v d a b h x).h0 = true := by
  simp only [Fields.h0, mkF, Hdr.h, BitVec.getLsbD_append]; simp

@[simp] theorem mkF_xs (lo k : Nat) : (mkF n v d a b h x).xs lo k = x.extractLsb' lo k := rfl

/-- Operand C and the immediate lie side by side in X (R36). -/
@[simp] theorem mkF_c (c : BitVec 8) (i : BitVec 35) : (mkF n v d a b h (c ++ i)).c = c :=
  BitVec.extractLsb'_append_eq_left
@[simp] theorem mkF_imm (c : BitVec 8) (i : BitVec 35) : (mkF n v d a b h (c ++ i)).imm = i :=
  BitVec.extractLsb'_append_eq_right

/-- Operand C of an instruction with argument registers is their first (R214). -/
@[simp] theorem mkF_c_args (c : BitVec 8) (k : BitVec 3) : (mkF n v d a b h (c ++ k ++ 0#32)).c = c := by
  simp [Fields.c, mkF, -Nat.reduceAdd]
@[simp] theorem mkF_c_zero : (mkF n v d a b h 0#43).c = 0#8 := by simp [Fields.c, mkF]
@[simp] theorem mkF_imm_zero : (mkF n v d a b h 0#43).imm = 0#35 := by simp [Fields.imm, mkF]

end MkF

/-! A test that holds lets decoding go on. -/

@[simp] theorem Dec.ok_bind {α β : Type} (a : α) (f : α → Dec β) : ((Except.ok a : Dec α) >>= f) = f a := rfl
@[simp] theorem Dec.pure_eq {α : Type} (a : α) : (pure a : Dec α) = .ok a := rfl
@[simp] theorem Dec.var_some {α : Type} (a : α) : Dec.var (some a) = .ok a := rfl
@[simp] theorem zeroField_of {b : Bool} (h : b = true) : zeroField b = .ok () := by rw [h]; rfl
@[simp] theorem class'_of {b : Bool} (h : b = true) : class' b = .ok () := by rw [h]; rfl
@[simp] theorem varOk_of {b : Bool} (h : b = true) : varOk b = .ok () := by rw [h]; rfl

/-! Register fields (R43). -/

theorem gcode_range : ∀ i : BitVec 6, (0#2 ++ i).toNat < 0x40 := by decide
theorem qcode_range : ∀ i : BitVec 3, 0x70 ≤ (0b01110#5 ++ i).toNat ∧ (0b01110#5 ++ i).toNat < 0x78 := by decide
theorem ncode_range : ∀ i : BitVec 2, 0x78 ≤ (0b011110#6 ++ i).toNat ∧ (0b011110#6 ++ i).toNat < 0x7C := by decide
theorem mcode_range : ∀ i : BitVec 5, 0x80 ≤ (0b100#3 ++ i).toNat ∧ (0b100#3 ++ i).toNat < 0xA0 := by decide
theorem xmcode_range : ∀ i : BitVec 5, 0xC0 ≤ (0b110#3 ++ i).toNat ∧ (0b110#3 ++ i).toNat < 0xE0 := by decide

/-- Whether a core of a kind has the operand: mesh ports are on compute cores only (R18, R43). -/
def Src.fits (k : CoreKind) (s : Src) : Bool := k == .compute || s.offMesh
/-- Whether it has the destination, in an entry without remote mailboxes (R40). -/
def Dst.fits (k : CoreKind) (d : Dst) : Bool := d.local && (k == .compute || d.offMesh)

@[simp] theorem Src.fits_compute (s : Src) : s.fits .compute = true := by simp [Src.fits]
@[simp] theorem Dst.fits_compute (d : Dst) : d.fits .compute = d.local := by simp [Dst.fits]
@[simp] theorem Src.fits_of_offMesh {k : CoreKind} {s : Src} (h : s.offMesh = true) : s.fits k = true := by
  simp [Src.fits, h]
@[simp] theorem Dst.fits_of_offMesh {k : CoreKind} {d : Dst} (h : d.offMesh = true) : d.fits k = true := by
  cases d <;> simp_all [Dst.fits, Dst.offMesh, Dst.local]

/-- A source's field gives the source back (R41, R43). -/
@[simp] theorem src_code {k : CoreKind} {s : Src} (h : s.fits k = true) : src k s.code = .ok s := by
  cases s with
  | g i => rw [src, Src.code, if_pos (gcode_range i), BitVec.extractLsb'_append_eq_right]
  | q i =>
    obtain ⟨lo, hi⟩ := qcode_range i
    rw [src, Src.code, if_neg (by omega), if_neg (by omega), if_pos hi, BitVec.extractLsb'_append_eq_right]
  | n i =>
    obtain ⟨lo, hi⟩ := ncode_range i
    have hk : k = .compute := by simpa [Src.fits, Src.offMesh] using h
    rw [src, Src.code, if_neg (by omega), if_neg (by omega), if_neg (by omega), if_pos hi, if_pos hk,
      BitVec.extractLsb'_append_eq_right]
  | m i =>
    obtain ⟨lo, hi⟩ := mcode_range i
    rw [src, Src.code, if_neg (by omega), if_neg (by omega), if_neg (by omega), if_neg (by omega), if_neg (by omega),
      if_pos hi, BitVec.extractLsb'_append_eq_right]

section Destinations
variable {n : BitVec 10} {v : BitVec 6} {a b : BitVec 8} {h : Hdr}

/-- A destination's field gives the destination back (R41, R43). -/
theorem dst_of_code {k : CoreKind} {remote : Bool} {d : Dst} {f : Fields} (hf : f.d = d.code) (hd : d.fits k = true) :
    dst k remote f = .ok d := by
  rw [dst, hf]
  cases d with
  | g i => rw [Dst.code, if_pos (gcode_range i), BitVec.extractLsb'_append_eq_right]
  | q i =>
    obtain ⟨lo, hi⟩ := qcode_range i
    rw [Dst.code, if_neg (by omega), if_neg (by omega), if_pos hi, BitVec.extractLsb'_append_eq_right]
  | n i =>
    obtain ⟨lo, hi⟩ := ncode_range i
    have hk : k = .compute := by simpa [Dst.fits, Dst.offMesh, Dst.local] using hd
    rw [Dst.code, if_neg (by omega), if_neg (by omega), if_neg (by omega), if_pos hi, if_pos hk,
      BitVec.extractLsb'_append_eq_right]
  | xm m i => simp [Dst.fits, Dst.local] at hd

@[simp] theorem dst_code {k : CoreKind} {remote : Bool} {d : Dst} {x : BitVec 43} (hd : d.fits k = true) :
    dst k remote (mkF n v d.code a b h x) = .ok d := dst_of_code rfl hd

/-- A remote mailbox's two fields give it back: the mailbox in D, its core's register in operand C (R40). -/
theorem dst_xm {k : CoreKind} {m : BitVec 5} {r : BitVec 6} {f : Fields} (hf : f.d = 0b110#3 ++ m) (hc : f.c = 0#2 ++ r) :
    dst k true f = .ok (.xm m r) := by
  obtain ⟨lo, hi⟩ := xmcode_range m
  rw [dst, hf, hc, if_neg (by omega), if_neg (by omega), if_neg (by omega), if_neg (by omega), if_neg (by omega), if_pos hi,
    if_pos rfl, BitVec.extractLsb'_append_eq_right, BitVec.extractLsb'_append_eq_right]

/-- So an entry that takes a remote mailbox gives any destination back. -/
@[simp] theorem dst_remote (d : Dst) (i : BitVec 35) :
    dst .compute true (mkF n v d.code a b h (d.xcode ++ i)) = .ok d := by
  cases d with
  | xm m r => exact dst_xm rfl (mkF_c ..)
  | _ => exact dst_of_code rfl rfl

@[simp] theorem askC_xcode (d : Dst) (e : BitVec 8) (i : BitVec 35) : d.askC (mkF n v e a b h (d.xcode ++ i)) = .ok () := by
  cases d with
  | xm m r => simp [Dst.askC, Dst.xcode, Dec.ask, gcode_range r]
  | _ => rfl

/-- What R40 leaves zero in X is zero: the immediate beside a remote mailbox, operand C beside any other destination. -/
@[simp] theorem xZero_imm {d : Dst} {e : BitVec 8} {i : BitVec 35} (hi : d.immOk i = true) :
    d.xZero (mkF n v e a b h (d.xcode ++ i)) true = true := by
  cases d <;> simp_all [Dst.xZero, Dst.xcode, Dst.immOk, Dst.local]
@[simp] theorem xZero_plain (d : Dst) (e : BitVec 8) : d.xZero (mkF n v e a b h (d.xcode ++ 0#35)) false = true := by
  cases d <;> simp [Dst.xZero, Dst.xcode]

end Destinations

@[simp] theorem gen_gcode (i : BitVec 6) : gen (gcode i) = .ok i := by
  rw [gen, gcode, if_pos (gcode_range i), BitVec.extractLsb'_append_eq_right]
@[simp] theorem vreg_vcode (i : BitVec 5) : vreg (vcode i) = .ok i := by
  rw [vreg, vcode, BitVec.extractLsb'_append_eq_left, if_pos rfl, BitVec.extractLsb'_append_eq_right]
@[simp] theorem preg_pcode (i : BitVec 4) : preg (pcode i) = .ok i := by
  rw [preg, pcode, BitVec.extractLsb'_append_eq_left, if_pos rfl, BitVec.extractLsb'_append_eq_right]
@[simp] theorem vecPred_code (v : VecPred) : vecPred v.code = .ok v := by
  cases v with
  | vec i => rw [vecPred, VecPred.code, BitVec.extractLsb'_append_eq_left, if_pos rfl, BitVec.extractLsb'_append_eq_right]
  | pred i =>
    have h3 : ∀ i : BitVec 4, ¬ (0b0110#4 ++ i).extractLsb' 5 3 = 0b010#3 := by decide
    rw [vecPred, VecPred.code, if_neg (h3 i), BitVec.extractLsb'_append_eq_left, if_pos rfl,
      BitVec.extractLsb'_append_eq_right]

/-! Type and variant codes (R56 and the tables of each engine chapter): reading a code gives the value back. -/

@[simp] theorem IntTy.ofCode_code (t : IntTy) : IntTy.ofCode t.code = some t := by cases t <;> rfl
@[simp] theorem FpTy.ofCode_code (t : FpTy) : FpTy.ofCode t.code = some t := by cases t <;> rfl
@[simp] theorem CvtTy.ofCode_code (t : CvtTy) : CvtTy.ofCode t.code = t := by cases t <;> rfl
@[simp] theorem VcvtTy.ofCode_code (t : VcvtTy) : VcvtTy.ofCode t.code = t := by cases t <;> rfl
@[simp] theorem VTy.ofCode_code (t : VTy) : VTy.ofCode t.code = some t := by cases t <;> rfl
@[simp] theorem Cond.ofCode_code (t : Cond) : Cond.ofCode t.code = some t := by cases t <;> rfl
@[simp] theorem FCond.ofCode_code (t : FCond) : FCond.ofCode t.code = t := by cases t <;> rfl
@[simp] theorem Scope.ofCode_code (t : Scope) : Scope.ofCode t.code = some t := by cases t <;> rfl
@[simp] theorem FenceKind.ofCode_code (t : FenceKind) : FenceKind.ofCode t.code = some t := by cases t <;> rfl
@[simp] theorem AmoTy.ofCode_code (t : AmoTy) : AmoTy.ofCode t.code = some t := by cases t <;> rfl
@[simp] theorem AmoOp.ofCode_code (t : AmoOp) : AmoOp.ofCode t.code = some t := by cases t <;> rfl
@[simp] theorem Role.ofCode_code (t : Role) : Role.ofCode t.code = some t := by cases t <;> rfl
@[simp] theorem BankMode.ofCode_code (t : BankMode) : BankMode.ofCode t.code = some t := by cases t <;> rfl
@[simp] theorem PageSize.ofCode_code (t : PageSize) : PageSize.ofCode t.code = t := by cases t <;> rfl
@[simp] theorem CapField.ofCode_code (t : CapField) : CapField.ofCode t.code = some t := by cases t <;> rfl
@[simp] theorem PrefLvl.ofCode_code (t : PrefLvl) : PrefLvl.ofCode t.code = some t := by cases t <;> rfl
@[simp] theorem SredTy.ofCode_code (t : SredTy) : SredTy.ofCode t.code = some t := by cases t <;> rfl
@[simp] theorem SredOp.ofCode_code (t : SredOp) : SredOp.ofCode t.code = some t := by cases t <;> rfl
@[simp] theorem Dims.ofCode_code (t : Dims) : Dims.ofCode t.code = some t := by cases t <;> rfl
@[simp] theorem MmaTy.ofCode_code (t : MmaTy) : MmaTy.ofCode t.code = some t := by cases t <;> rfl
@[simp] theorem MldMode.ofCode_code (t : MldMode) : MldMode.ofCode t.code = t := by cases t <;> rfl
@[simp] theorem AccTy.ofCode_code (t : AccTy) : AccTy.ofCode t.code = some t := by cases t <;> rfl

/-! An entry with a narrower type field keeps every code its types have (R174, R198, R363, R398). -/

@[simp] theorem IntTy.code_low3 (t : IntTy) : 0#3 ++ t.code.extractLsb' 0 3 = t.code := by cases t <;> rfl
@[simp] theorem FpTy.code_low4 (t : FpTy) : 0#2 ++ t.code.extractLsb' 0 4 = t.code := by cases t <;> rfl
@[simp] theorem VTy.code_low4 (t : VTy) : 0#1 ++ t.code.extractLsb' 0 4 = t.code := by cases t <;> rfl
@[simp] theorem AccTy.code_low4 (t : AccTy) : 0#1 ++ t.code.extractLsb' 0 4 = t.code := by cases t <;> rfl

/-! Each decoder undoes its encoder. -/

/-- A VAR of one flag: 0 when it is clear, 1 when it is set. -/
@[simp] theorem flagVar_clear (x : Bool) : (0#5 ++ b1 x == 0#6) = !x := by cases x <;> rfl
@[simp] theorem flagVar_set (x : Bool) : (0#5 ++ b1 x == 1#6) = x := by cases x <;> rfl

/-- The VARs of SGATH and MTERN: a type code whose one free bit is the flag (R331, R385). -/
@[simp] theorem sgathVar_clear (x : Bool) : (3#5 ++ b1 x == 6#6) = !x := by cases x <;> rfl
@[simp] theorem sgathVar_set (x : Bool) : (3#5 ++ b1 x == 7#6) = x := by cases x <;> rfl
@[simp] theorem mternVar_clear (x : Bool) : (0#3 ++ b1 x ++ 0#2 == 0#6) = !x := by cases x <;> rfl
@[simp] theorem mternVar_set (x : Bool) : (0#3 ++ b1 x ++ 0#2 == 4#6) = x := by cases x <;> rfl

/-- A vector instruction's VAR: the type and the saturation bit (R355). -/
@[simp] theorem vvar_ty (sat : Bool) (t : VTy) : (vvar sat t).extractLsb' 0 5 = t.code := BitVec.extractLsb'_append_eq_right
@[simp] theorem vvar_sat (sat : Bool) (t : VTy) : (vvar sat t)[5] = sat := by
  show (vvar sat t).getLsbD 5 = sat
  rw [vvar, bit_above (by decide), b1_getLsbD]

/-- Codes that the decoder compares with a number (R296, R213). -/
@[simp] theorem AmoOp.code_beq_fadd (t : AmoOp) : (t.code == 8#4) = (t == .fadd) := by cases t <;> rfl
@[simp] theorem AmoOp.code_eq_cas (t : AmoOp) : t.code = 7#4 ↔ t = .cas := by cases t <;> decide

/-- A source left out is g0, whose field is zero (R37). -/
theorem Src.eq_zero {s : Src} (h : s.isZero = true) : s = .g 0 := by simpa [Src.isZero] using h
@[simp] theorem Src.code_zero : (Src.g 0#6).code = 0#8 := rfl

section Decoders
variable {n : BitVec 10}

theorem decAlu3_enc {mk} {o : Alu3} (hd : o.d.local = true) : decAlu3 .compute (encAlu3 n o) mk = .ok (mk o) := by
  simp [decAlu3, encAlu3, hd]

theorem decAlu2_enc {mk} {o : Alu2} (hd : o.d.immOk o.imm = true) : decAlu2 .compute (encAlu2 n o) mk = .ok (mk o) := by
  simp [decAlu2, encAlu2, hd]

theorem decAlu1_enc {mk} {o : Alu1} : decAlu1 .compute (encAlu1 n o) mk = .ok (mk o) := by
  simp [decAlu1, encAlu1]

theorem decCapImm_enc {mk} {o : CapImm} : decCapImm .compute (encCapImm n o) mk = .ok (mk o) := by
  simp [decCapImm, encCapImm]

theorem decCapAuth_enc {mk} {o : CapAuth} : decCapAuth (encCapAuth n o) mk = .ok (mk o) := by
  simp [decCapAuth, encCapAuth]

theorem decImm_enc {mk} {o : ImmOps} : decImm (encImm n o) mk = .ok (mk o) := by
  simp [decImm, encImm]

theorem decOneG_enc {mk} {o : OneG} : decOneG (encOneG n o) mk = .ok (mk o) := by
  simp [decOneG, encOneG]

theorem decNone_enc {mk} {o : NoOps} : decNone (encNone n o) mk = .ok (mk o.h) := by
  simp [decNone, encNone]

theorem decOneSrc_enc {mk} {o : OneSrc} : decOneSrc .compute (encOneSrc n 0 o) mk = .ok (mk o) := by
  simp [decOneSrc, encOneSrc]

theorem decFp2_enc {mk} {o : Fp2} : decFp2 .compute (encFp2 n o) mk = .ok (mk o) := by
  simp [decFp2, encFp2]

theorem decSt_enc {mk} {o : StOps} : decSt .compute (encSt n o) mk = .ok (mk o) := by
  simp [decSt, encSt]

theorem decDstSrc_enc {mk} {o : DstSrc} (h : o.d.local = true) : decDstSrc .compute (encDstSrc n 0 o) mk = .ok (mk o) := by
  simp [decDstSrc, encDstSrc, h]

/-- An instruction of kernel level, whose operands are on every kind of core, decodes on any. -/
theorem decDstSrc_offMesh {k mk} {o : DstSrc} (h : (o.d.offMesh && o.a.offMesh) = true) :
    decDstSrc k (encDstSrc n 0 o) mk = .ok (mk o) := by
  rw [Bool.and_eq_true] at h
  simp [decDstSrc, encDstSrc, h]

theorem decDstSrc2_enc {mk} {o : DstSrc2} (h : o.d.local = true) :
    decDstSrc2 .compute (encDstSrc2 n 0 o) mk = .ok (mk o) := by
  simp [decDstSrc2, encDstSrc2, h]

theorem decDstSrc2_offMesh {k mk} {o : DstSrc2} (h : (o.d.offMesh && o.a.offMesh && o.b.offMesh) = true) :
    decDstSrc2 k (encDstSrc2 n 0 o) mk = .ok (mk o) := by
  simp only [Bool.and_eq_true] at h
  simp [decDstSrc2, encDstSrc2, h]

theorem decDstCap_enc {mk} {o : DstCap} (hd : o.d.local = true) : decDstCap .compute (encDstCap n o) mk = .ok (mk o) := by
  simp [decDstCap, encDstCap, hd]

theorem decV2_enc {ok mk} {o : V2} (h : ok o.ty o.sat = true) : decV2 (encV2 n o) ok mk = .ok (mk o) := by
  simp [decV2, encV2, h]

theorem decV1_enc {ok mk} {o : V1} (h : ok o.ty o.sat = true) : decV1 (encV1 n o) ok mk = .ok (mk o) := by
  simp [decV1, encV1, h]

theorem decVLogic_enc {mk} {o : VLogic} : decVLogic (encVLogic n o) mk = .ok (mk o) := by
  simp [decVLogic, encVLogic]

theorem decVred_enc {mk} {o : VredOps} (h : (o.ty.arith && o.d.local) = true) : decVred .compute (encVred n o) mk = .ok (mk o) := by
  simp_all [decVred, encVred]

end Decoders

/-! The decoders of one entry, with the fields `Instr.fields` gives. -/

theorem decCmp_cmp {o f} (hf : (Instr.cmp o).fields = some f) :
    decCmp .compute f = .ok (.cmp o) := by
  obtain rfl := Option.some.inj hf
  simp [decCmp, -Nat.reduceAdd]

theorem decSel_sel {o f} (hf : (Instr.sel o).fields = some f) (h : o.d.local = true) :
    decSel .compute f = .ok (.sel o) := by
  obtain rfl := Option.some.inj hf
  simp [decSel, h]

theorem decMovi_movi {o f} (hf : (Instr.movi o).fields = some f) (h : o.d.local = true) :
    decMovi .compute f = .ok (.movi o) := by
  obtain rfl := Option.some.inj hf
  simp [decMovi, h]

theorem decMovhi_movhi {o f} (hf : (Instr.movhi o).fields = some f) (h : o.d.local = true) :
    decMovhi .compute f = .ok (.movhi o) := by
  obtain rfl := Option.some.inj hf
  simp [decMovhi, -Nat.reduceAdd, h]

theorem decCsetb_csetb {o f} (hf : (Instr.csetb o).fields = some f) :
    decCsetb .compute f = .ok (.csetb o) := by
  obtain rfl := Option.some.inj hf
  simp [decCsetb]

theorem decCget_cget {o f} (hf : (Instr.cget o).fields = some f) (h : o.d.local = true) :
    decCget .compute f = .ok (.cget o) := by
  obtain rfl := Option.some.inj hf
  simp [decCget, h]

theorem decCtest_ctest {o f} (hf : (Instr.ctest o).fields = some f) :
    decCtest f = .ok (.ctest o) := by
  obtain rfl := Option.some.inj hf
  obtain ⟨h, p, a, _ | b⟩ := o
  · simp [decCtest]
  · simp [decCtest]

theorem decBrc_brc {o f} (hf : (Instr.brc o).fields = some f) :
    decBrc .compute f = .ok (.brc o) := by
  obtain rfl := Option.some.inj hf
  simp [decBrc, -Nat.reduceAdd]

theorem decCall_call {o f} (hf : (Instr.call o).fields = some f) :
    decCall f = .ok (.call o) := by
  obtain rfl := Option.some.inj hf
  simp [decCall]

theorem decJmpi_jmpi {o f} (hf : (Instr.jmpi o).fields = some f) :
    decJmpi f = .ok (.jmpi o) := by
  obtain rfl := Option.some.inj hf
  simp [decJmpi]

theorem decLoop_loop {o f} (hf : (Instr.loop o).fields = some f) :
    decLoop f = .ok (.loop o) := by
  obtain rfl := Option.some.inj hf
  simp [decLoop]

theorem decFp3_ffma {o f} (hf : (Instr.ffma o).fields = some f) (h : o.d.local = true) :
    decFp3 .compute f = .ok (.ffma o) := by
  obtain rfl := Option.some.inj hf
  simp [decFp3, h]

theorem decFp1_fsqrt {o f} (hf : (Instr.fsqrt o).fields = some f) :
    decFp1 .compute f = .ok (.fsqrt o) := by
  obtain rfl := Option.some.inj hf
  simp [decFp1]

theorem decFcvt_fcvt {o f} (hf : (Instr.fcvt o).fields = some f)
    (h : (o.dst != o.src && !(decide (5 ≤ o.dst.code.toNat) && decide (5 ≤ o.src.code.toNat))) = true) :
    decFcvt .compute f = .ok (.fcvt o) := by
  obtain rfl := Option.some.inj hf
  simp only [Bool.and_eq_true, bne_iff_ne, ne_eq] at h
  simp [decFcvt, -Nat.reduceAdd, h]

theorem decFcmp_fcmp {o f} (hf : (Instr.fcmp o).fields = some f) :
    decFcmp .compute f = .ok (.fcmp o) := by
  obtain rfl := Option.some.inj hf
  simp [decFcmp, -Nat.reduceAdd]

theorem decLd_ld {o f} (hf : (Instr.ld o).fields = some f) (h : o.d.local = true) :
    decLd .compute f = .ok (.ld o) := by
  obtain rfl := Option.some.inj hf
  simp [decLd, h]

theorem decLdc_ldc {o f} (hf : (Instr.ldc o).fields = some f) :
    decLdc f = .ok (.ldc o) := by
  obtain rfl := Option.some.inj hf
  simp [decLdc]

theorem decStc_stc {o f} (hf : (Instr.stc o).fields = some f) :
    decStc f = .ok (.stc o) := by
  obtain rfl := Option.some.inj hf
  simp [decStc]

theorem decLdtg_ldtg {o f} (hf : (Instr.ldtg o).fields = some f) (h : o.d.local = true) :
    decLdtg .compute f = .ok (.ldtg o) := by
  obtain rfl := Option.some.inj hf
  simp [decLdtg, h]

theorem decSttg_sttg {o f} (hf : (Instr.sttg o).fields = some f) :
    decSttg .compute f = .ok (.sttg o) := by
  obtain rfl := Option.some.inj hf
  simp [decSttg]

theorem decPref_pref {o f} (hf : (Instr.pref o).fields = some f) :
    decPref f = .ok (.pref o) := by
  obtain rfl := Option.some.inj hf
  simp [decPref]

theorem decLdacq_ldacq {o f} (hf : (Instr.ldacq o).fields = some f) (h : o.d.local = true) :
    decLdacq .compute f = .ok (.ldacq o) := by
  obtain rfl := Option.some.inj hf
  simp [decLdacq, -Nat.reduceAdd, h]

theorem decStrel_strel {o f} (hf : (Instr.strel o).fields = some f) :
    decStrel .compute f = .ok (.strel o) := by
  obtain rfl := Option.some.inj hf
  simp [decStrel, -Nat.reduceAdd]

theorem decFence_fence {o f} (hf : (Instr.fence o).fields = some f) :
    decFence f = .ok (.fence o) := by
  obtain rfl := Option.some.inj hf
  simp [decFence, -Nat.reduceAdd]

theorem decAmsg_amsg {o f} (hf : (Instr.amsg o).fields = some f) (h : argsOk o.arg o.narg 4 = true) :
    decAmsg .compute f = .ok (.amsg o) := by
  obtain rfl := Option.some.inj hf
  simp only [argsOk, Bool.and_eq_true, decide_eq_true_eq] at h
  simp [decAmsg, -Nat.reduceAdd, h]

theorem decJrd_jrd {o f} (hf : (Instr.jrd o).fields = some f) (h : o.d.local = true) :
    decJrd .compute f = .ok (.jrd o) := by
  obtain rfl := Option.some.inj hf
  obtain ⟨g, sel, d, a⟩ := o
  cases sel <;> simp [decJrd, JrdSel.code, h]

theorem decJrd_jrdClr {o f} (hf : (Instr.jrdClr o).fields = some f) (h : o.d.local = true) :
    decJrd .compute f = .ok (.jrdClr o) := by
  obtain rfl := Option.some.inj hf
  simp [decJrd, encDstSrc, h]

theorem decMwait_mwait {o f} (hf : (Instr.mwait o).fields = some f) (h : o.d.local = true) :
    decMwait .compute f = .ok (.mwait o) := by
  obtain rfl := Option.some.inj hf
  simp [decMwait, h]

theorem decBankcfg_bankcfg {o f} (hf : (Instr.bankcfg o).fields = some f) (h : (o.a.offMesh && o.b.offMesh) = true) :
    decBankcfg .service f = .ok (.bankcfg o) := by
  obtain rfl := Option.some.inj hf
  simp only [Bool.and_eq_true] at h
  simp [decBankcfg, h]

theorem decCsrr_csrr {o f} (hf : (Instr.csrr o).fields = some f) (h : (o.d.local && csrListed o.num) = true) :
    decCsrr .compute f = .ok (.csrr o) := by
  obtain rfl := Option.some.inj hf
  simp only [Bool.and_eq_true] at h
  simp [decCsrr, -Nat.reduceAdd, h]

theorem decCsrw_csrw {o f} (hf : (Instr.csrw o).fields = some f) (h : csrListed o.num = true) :
    decCsrw .compute f = .ok (.csrw o) := by
  obtain rfl := Option.some.inj hf
  simp [decCsrw, -Nat.reduceAdd, h]

theorem decSysc_sysc {o f} (hf : (Instr.sysc o).fields = some f) (h : argsOk o.arg o.narg 6 = true) :
    decSysc .compute f = .ok (.sysc o) := by
  obtain rfl := Option.some.inj hf
  simp only [argsOk, Bool.and_eq_true, decide_eq_true_eq] at h
  simp [decSysc, -Nat.reduceAdd, h]

theorem decEret_eret {o f} (hf : (Instr.eret o).fields = some f) :
    decEret f = .ok (.eret o) := by
  obtain rfl := Option.some.inj hf
  simp [decEret]

theorem decTlbinv_tlbinvPage {o f} (hf : (Instr.tlbinvPage o).fields = some f) (h : o.a.offMesh = true) :
    decTlbinv .service f = .ok (.tlbinvPage o) := by
  obtain rfl := Option.some.inj hf
  simp [decTlbinv, -Nat.reduceAdd, h]

theorem decTlbinv_tlbinvAll {o f} (hf : (Instr.tlbinvAll o).fields = some f) (h : o.a.offMesh = true) :
    decTlbinv .service f = .ok (.tlbinvAll o) := by
  obtain rfl := Option.some.inj hf
  simp [decTlbinv, encOneSrc, h]

theorem decTsig_tsig {o f} (hf : (Instr.tsig o).fields = some f) :
    decTsig .compute f = .ok (.tsig o) := by
  obtain rfl := Option.some.inj hf
  simp [decTsig, -Nat.reduceAdd]

theorem decFget_fget {o f} (hf : (Instr.fget o).fields = some f) (h : o.d.local = true) :
    decFget .compute f = .ok (.fget o) := by
  obtain rfl := Option.some.inj hf
  simp [decFget, -Nat.reduceAdd, h]

theorem decFput_fput {o f} (hf : (Instr.fput o).fields = some f) :
    decFput .compute f = .ok (.fput o) := by
  obtain rfl := Option.some.inj hf
  simp [decFput, -Nat.reduceAdd]

theorem decTcont_tcontReady {o f} (hf : (Instr.tcontReady o).fields = some f) (h : o.d.local = true) :
    decTcont .compute f = .ok (.tcontReady o) := by
  obtain rfl := Option.some.inj hf
  simp [decTcont, encDstCap, h]

theorem decTcont_tcontEnd {o f} (hf : (Instr.tcontEnd o).fields = some f) (h : o.d.local = true) :
    decTcont .compute f = .ok (.tcontEnd o) := by
  obtain rfl := Option.some.inj hf
  simp [decTcont, h]

theorem decTrec_trec {o f} (hf : (Instr.trec o).fields = some f) (h : (o.d.local && argsOk o.arg o.narg 6) = true) :
    decTrec .compute f = .ok (.trec o) := by
  obtain rfl := Option.some.inj hf
  simp only [argsOk, Bool.and_eq_true, decide_eq_true_eq] at h
  simp [decTrec, -Nat.reduceAdd, h]

theorem decAmo_amo {o f} (hf : (Instr.amo o).fields = some f)
    (h : (o.d.local && ((o.ty == .f32) == (o.op == .fadd)) && (o.op == .cas || o.cv.isZero)) = true) :
    decAmo .compute f = .ok (.amo o) := by
  obtain rfl := Option.some.inj hf
  simp only [Bool.and_eq_true] at h
  obtain ⟨⟨hd, hty⟩, hcv⟩ := h
  obtain ⟨g, ty, d, a, b, ofs, cv, ord, scope, op⟩ := o
  by_cases hc : op = .cas
  · subst hc
    simp_all [decAmo, -Nat.reduceAdd]
  · obtain rfl : cv = .g 0 := Src.eq_zero (by simpa [hc] using hcv)
    simp_all [decAmo, -Nat.reduceAdd]

theorem decAmor_amor {o f} (hf : (Instr.amor o).fields = some f)
    (h : (((o.ty == .f32) == (o.op == .fadd)) && o.op != .cas) = true) :
    decAmor .compute f = .ok (.amor o) := by
  obtain rfl := Option.some.inj hf
  simp only [Bool.and_eq_true, bne_iff_ne, ne_eq] at h
  simp [decAmor, -Nat.reduceAdd, h]

theorem decPhnew_phnew {o f} (hf : (Instr.phnew o).fields = some f) (h : o.d.local = true) :
    decPhnew .compute f = .ok (.phnew o) := by
  obtain rfl := Option.some.inj hf
  obtain ⟨g, d, ctr, _ | die⟩ := o
  · simp [decPhnew, h, -Nat.reduceAdd, -BitVec.getLsbD_eq_getElem, bit_above, bit_below]
  · simp [decPhnew, h, -Nat.reduceAdd, -BitVec.getLsbD_eq_getElem, bit_above, bit_below]

theorem decPhjoin_phjoin {o f} (hf : (Instr.phjoin o).fields = some f) (h : o.d.local = true) :
    decPhjoin .compute f = .ok (.phjoin o) := by
  obtain rfl := Option.some.inj hf
  simp [decPhjoin, -Nat.reduceAdd, h]

theorem decPhrole_phrole {o f} (hf : (Instr.phrole o).fields = some f) :
    decPhrole .compute f = .ok (.phrole o) := by
  obtain rfl := Option.some.inj hf
  simp [decPhrole, -Nat.reduceAdd]

theorem decCtrread_ctrread {o f} (hf : (Instr.ctrread o).fields = some f)
    (h : (o.d.local && decide (o.idx.toNat ≤ 4)) = true) :
    decCtrread .compute f = .ok (.ctrread o) := by
  obtain rfl := Option.some.inj hf
  simp only [Bool.and_eq_true, decide_eq_true_eq] at h
  simp [decCtrread, -Nat.reduceAdd, h]

theorem decTcreg_tcregAdd {o f} (hf : (Instr.tcregAdd o).fields = some f) (h : o.d.offMesh = true) :
    decTcreg .service f = .ok (.tcregAdd o) := by
  obtain rfl := Option.some.inj hf
  simp [decTcreg, encDstCap, h]

theorem decTcreg_tcregDel {o f} (hf : (Instr.tcregDel o).fields = some f) (h : o.d.offMesh = true) :
    decTcreg .service f = .ok (.tcregDel o) := by
  obtain rfl := Option.some.inj hf
  simp [decTcreg, encDstId, -Nat.reduceAdd, h]

theorem decTcreg_tcregStat {o f} (hf : (Instr.tcregStat o).fields = some f) (h : o.d.offMesh = true) :
    decTcreg .service f = .ok (.tcregStat o) := by
  obtain rfl := Option.some.inj hf
  simp [decTcreg, encDstId, -Nat.reduceAdd, h]

theorem decTclook_tclookRd {o f} (hf : (Instr.tclookRd o).fields = some f) :
    decTclook .compute f = .ok (.tclookRd o) := by
  obtain rfl := Option.some.inj hf
  simp [decTclook, encTclook, -Nat.reduceAdd]

theorem decTclook_tclookWr {o f} (hf : (Instr.tclookWr o).fields = some f) :
    decTclook .compute f = .ok (.tclookWr o) := by
  obtain rfl := Option.some.inj hf
  simp [decTclook, encTclook, -Nat.reduceAdd]

theorem decTcpf_tcpf {o f} (hf : (Instr.tcpf o).fields = some f) (h : (o.stride != 0) = true) :
    decTcpf .compute f = .ok (.tcpf o) := by
  obtain rfl := Option.some.inj hf
  simp only [bne_iff_ne, ne_eq, BitVec.ofNat_eq_ofNat] at h
  simp [decTcpf, -Nat.reduceAdd, h]

theorem decTchalo_tchalo {o f} (hf : (Instr.tchalo o).fields = some f) (h : (o.w != 0) = true) :
    decTchalo .compute f = .ok (.tchalo o) := by
  obtain rfl := Option.some.inj hf
  simp only [bne_iff_ne, ne_eq, BitVec.ofNat_eq_ofNat] at h
  simp [decTchalo, -Nat.reduceAdd, h]

theorem decTcinv_tcinv {o f} (hf : (Instr.tcinv o).fields = some f) :
    decTcinv f = .ok (.tcinv o) := by
  obtain rfl := Option.some.inj hf
  simp [decTcinv, encTcinv, -Nat.reduceAdd]

theorem decTcinv_tcinvDrop {o f} (hf : (Instr.tcinvDrop o).fields = some f) :
    decTcinv f = .ok (.tcinvDrop o) := by
  obtain rfl := Option.some.inj hf
  simp [decTcinv, encTcinv, -Nat.reduceAdd]

theorem decTcinv_tcinvAll {o f} (hf : (Instr.tcinvAll o).fields = some f) :
    decTcinv f = .ok (.tcinvAll o) := by
  obtain rfl := Option.some.inj hf
  simp [decTcinv, encTcinv, -Nat.reduceAdd]

theorem decSgath_sgath {o f} (hf : (Instr.sgath o).fields = some f) (h : (o.count != 0 && o.roww != 0) = true) :
    decSgath f = .ok (.sgath o) := by
  obtain rfl := Option.some.inj hf
  simp only [Bool.and_eq_true, bne_iff_ne, ne_eq, BitVec.ofNat_eq_ofNat] at h
  simp [decSgath, -Nat.reduceAdd, h]

theorem decSred_sred {o f} (hf : (Instr.sred o).fields = some f)
    (h : (o.count != 0 && (decide (o.op.code.toNat ≤ 2) || decide (o.ty.code.toNat ≤ 7))) = true) :
    decSred f = .ok (.sred o) := by
  obtain rfl := Option.some.inj hf
  simp only [Bool.and_eq_true, bne_iff_ne, ne_eq, BitVec.ofNat_eq_ofNat] at h
  simp [decSred, -Nat.reduceAdd, h]

theorem decSconv_sconv {o f} (hf : (Instr.sconv o).fields = some f) (h : (o.count != 0 && rmOk o.rm) = true) :
    decSconv f = .ok (.sconv o) := by
  obtain rfl := Option.some.inj hf
  simp only [Bool.and_eq_true, bne_iff_ne, ne_eq, BitVec.ofNat_eq_ofNat] at h
  simp [decSconv, -Nat.reduceAdd, h]

theorem decCopy_copy {o f} (hf : (Instr.copy o).fields = some f) (h : decide (o.b.toNat + o.dims.extra ≤ 63) = true) :
    decCopy f = .ok (.copy o) := by
  obtain rfl := Option.some.inj hf
  simp only [decide_eq_true_eq] at h
  simp [decCopy, -Nat.reduceAdd, h]

theorem decCopyr_copyr {o f} (hf : (Instr.copyr o).fields = some f)
    (h : (decide (o.b.toNat + o.dims.extra ≤ 63) && decide (o.flag.toNat ≤ 0x3E)) = true) :
    decCopyr f = .ok (.copyr o) := by
  obtain rfl := Option.some.inj hf
  simp only [Bool.and_eq_true, decide_eq_true_eq] at h
  simp [decCopyr, -Nat.reduceAdd, h]

theorem decWprd_wprd {o f} (hf : (Instr.wprd o).fields = some f) (h : o.d.local = true) :
    decWprd .compute f = .ok (.wprd o) := by
  obtain rfl := Option.some.inj hf
  simp [decWprd, -Nat.reduceAdd, h]

theorem decTlwait_tlwait {o f} (hf : (Instr.tlwait o).fields = some f) (h : o.d.local = true) :
    decTlwait .compute f = .ok (.tlwait o) := by
  obtain rfl := Option.some.inj hf
  simp [decTlwait, -Nat.reduceAdd, h]

theorem decTlrd_tlrd {o f} (hf : (Instr.tlrd o).fields = some f) (h : o.d.local = true) :
    decTlrd .compute f = .ok (.tlrd o) := by
  obtain rfl := Option.some.inj hf
  simp [decTlrd, -Nat.reduceAdd, h]

theorem decV3_vfma {o f} (hf : (Instr.vfma o).fields = some f) (h : (o.ty.arith && satOk o.sat o.ty) = true) :
    decV3 f = .ok (.vfma o) := by
  obtain rfl := Option.some.inj hf
  simp only [Bool.and_eq_true] at h
  simp [decV3, h]

theorem decVcvt_vcvt {o f} (hf : (Instr.vcvt o).fields = some f) (h : (o.src != o.dst) = true) :
    decVcvt .compute f = .ok (.vcvt o) := by
  obtain rfl := Option.some.inj hf
  simp only [bne_iff_ne, ne_eq] at h
  simp [decVcvt, -Nat.reduceAdd, h]

theorem decVcmp_vcmp {o f} (hf : (Instr.vcmp o).fields = some f)
    (h : (o.ty.arith && !(o.cond == .un && o.ty.isInt) && (match o.d with | .vec _ => true | .pred _ => o.ty.width == 32)) = true) :
    decVcmp f = .ok (.vcmp o) := by
  obtain rfl := Option.some.inj hf
  obtain ⟨g, cond, ty, d, a, b⟩ := o
  cases d with
  | vec i => simp_all [decVcmp, -Nat.reduceAdd]
  | pred i => simp_all [decVcmp, -Nat.reduceAdd]

theorem decVsel_vsel {o f} (hf : (Instr.vsel o).fields = some f) :
    decVsel f = .ok (.vsel o) := by
  obtain rfl := Option.some.inj hf
  simp [decVsel]

theorem decVbcast_vbcast {o f} (hf : (Instr.vbcast o).fields = some f) :
    decVbcast .compute f = .ok (.vbcast o) := by
  obtain rfl := Option.some.inj hf
  simp [decVbcast]

theorem decVld_vld {o f} (hf : (Instr.vld o).fields = some f) :
    decVld f = .ok (.vld o) := by
  obtain rfl := Option.some.inj hf
  simp [decVld]

theorem decVst_vst {o f} (hf : (Instr.vst o).fields = some f) :
    decVst f = .ok (.vst o) := by
  obtain rfl := Option.some.inj hf
  simp [decVst]

theorem decVlds_vlds {o f} (hf : (Instr.vlds o).fields = some f) :
    decVlds .compute f = .ok (.vlds o) := by
  obtain rfl := Option.some.inj hf
  simp [decVlds]

theorem decVgath_vgath {o f} (hf : (Instr.vgath o).fields = some f) :
    decVgath f = .ok (.vgath o) := by
  obtain rfl := Option.some.inj hf
  simp [decVgath, -Nat.reduceAdd]

theorem decVscat_vscat {o f} (hf : (Instr.vscat o).fields = some f) :
    decVscat f = .ok (.vscat o) := by
  obtain rfl := Option.some.inj hf
  simp [decVscat, -Nat.reduceAdd]

theorem decVmovg_vmovgGet {o f} (hf : (Instr.vmovgGet o).fields = some f) (h : o.d.local = true) :
    decVmovg .compute f = .ok (.vmovgGet o) := by
  obtain rfl := Option.some.inj hf
  simp [decVmovg, h]

theorem decVmovg_vmovgPut {o f} (hf : (Instr.vmovgPut o).fields = some f) :
    decVmovg .compute f = .ok (.vmovgPut o) := by
  obtain rfl := Option.some.inj hf
  simp [decVmovg]

theorem decMclaim_mclaim {o f} (hf : (Instr.mclaim o).fields = some f) (h : o.d.local = true) :
    decMclaim .compute f = .ok (.mclaim o) := by
  obtain rfl := Option.some.inj hf
  simp [decMclaim, -Nat.reduceAdd, h]

theorem decMrel_mrel {o f} (hf : (Instr.mrel o).fields = some f) :
    decMrel f = .ok (.mrel o) := by
  obtain rfl := Option.some.inj hf
  simp [decMrel, -Nat.reduceAdd]

theorem decMld_mld {o f} (hf : (Instr.mld o).fields = some f)
    (h : (!(o.mode == .scale && (o.sw || o.span2 || o.zrows != 0 || !o.b.isZero)) && !(o.span2 && o.slot == 31)) = true) :
    decMld .compute f = .ok (.mld o) := by
  obtain rfl := Option.some.inj hf
  obtain ⟨g, sw, mode, a, b, slot, span2, zrows⟩ := o
  by_cases hm : mode = .scale
  · subst hm
    simp only [beq_self_eq_true, Bool.true_and, Bool.and_eq_true, Bool.not_eq_true', Bool.or_eq_false_iff,
      Bool.not_eq_false'] at h
    obtain ⟨⟨⟨⟨rfl, rfl⟩, hz⟩, hb⟩, hs⟩ := h
    obtain rfl := Src.eq_zero hb
    simp_all [decMld, -Nat.reduceAdd, -BitVec.getLsbD_eq_getElem, bit_above, bit_below]
  · simp_all [decMld, -Nat.reduceAdd, -BitVec.getLsbD_eq_getElem, bit_above, bit_below]

theorem decMma_mma {o f} (hf : (Instr.mma o).fields = some f)
    (h : (mmaBitsOk o.z o.ip o.f o.m o.accc o.diag && (o.f || o.b.isZero) && !(o.f && o.ty == .i8) && !(o.ty.span2 && (o.sa == 31 || o.sb == 31))) = true) :
    decMma .compute f = .ok (.mma o) := by
  obtain rfl := Option.some.inj hf
  obtain ⟨g, ty, b, sa, sb, accd, accc, z, ip, f, m, diag⟩ := o
  cases f with
  | true => simp_all [decMma, -Nat.reduceAdd, -BitVec.getLsbD_eq_getElem, bit_above, bit_below]
  | false =>
    obtain rfl : b = .g 0 := Src.eq_zero (by simp_all)
    simp_all [decMma, -Nat.reduceAdd, -BitVec.getLsbD_eq_getElem, bit_above, bit_below]

theorem decMtern_mtern {o f} (hf : (Instr.mtern o).fields = some f)
    (h : (mmaBitsOk o.z o.ip false o.m o.accc o.diag && o.sb != 31) = true) :
    decMtern f = .ok (.mtern o) := by
  obtain rfl := Option.some.inj hf
  simp_all [decMtern, -Nat.reduceAdd, -BitVec.getLsbD_eq_getElem, bit_above, bit_below]

theorem decAccz_accz {o f} (hf : (Instr.accz o).fields = some f) :
    decAccz f = .ok (.accz o) := by
  obtain rfl := Option.some.inj hf
  simp [decAccz, -Nat.reduceAdd]

theorem decAccld_accld {o f} (hf : (Instr.accld o).fields = some f) :
    decAccld .compute f = .ok (.accld o) := by
  obtain rfl := Option.some.inj hf
  simp [decAccld, -Nat.reduceAdd]

theorem decAccst_accst {o f} (hf : (Instr.accst o).fields = some f) (h : rmOk o.rm = true) :
    decAccst .compute f = .ok (.accst o) := by
  obtain rfl := Option.some.inj hf
  simp [decAccst, h, -Nat.reduceAdd, -BitVec.getLsbD_eq_getElem, bit_above]

theorem decAccmov_accmov {o f} (hf : (Instr.accmov o).fields = some f)
    (h : (o.ty.movable && rmOk o.rm && !(o.ofs && o.ty.is16)) = true) :
    decAccmov f = .ok (.accmov o) := by
  obtain rfl := Option.some.inj hf
  simp only [Bool.and_eq_true] at h
  simp_all [decAccmov, -Nat.reduceAdd, -BitVec.getLsbD_eq_getElem, bit_above, bit_below]

theorem decBcent_bcent {o f} (hf : (Instr.bcent o).fields = some f) (h : o.d.local = true) :
    decBcent .compute f = .ok (.bcent o) := by
  obtain rfl := Option.some.inj hf
  simp [decBcent, -Nat.reduceAdd, h]

theorem decBclisten_bclisten {o f} (hf : (Instr.bclisten o).fields = some f) (h : o.d.local = true) :
    decBclisten .compute f = .ok (.bclisten o) := by
  obtain rfl := Option.some.inj hf
  simp [decBclisten, -Nat.reduceAdd, h]

theorem decBcbind_bcbindBind {o f} (hf : (Instr.bcbindBind o).fields = some f) (h : o.d.offMesh = true) :
    decBcbind .service f = .ok (.bcbindBind o) := by
  obtain rfl := Option.some.inj hf
  simp [decBcbind, h, -Nat.reduceAdd, -BitVec.getLsbD_eq_getElem, bit_above, bit_below]

theorem decBcbind_bcbindUnbind {o f} (hf : (Instr.bcbindUnbind o).fields = some f) (h : o.d.offMesh = true) :
    decBcbind .service f = .ok (.bcbindUnbind o) := by
  obtain rfl := Option.some.inj hf
  simp [decBcbind, encLane, -Nat.reduceAdd, h]

theorem decBcbind_bcbindStat {o f} (hf : (Instr.bcbindStat o).fields = some f) (h : o.d.offMesh = true) :
    decBcbind .service f = .ok (.bcbindStat o) := by
  obtain rfl := Option.some.inj hf
  simp [decBcbind, encLane, -Nat.reduceAdd, h]

theorem decBcbind_bcbindAssign {o f} (hf : (Instr.bcbindAssign o).fields = some f) (h : o.d.offMesh = true) :
    decBcbind .service f = .ok (.bcbindAssign o) := by
  obtain rfl := Option.some.inj hf
  simp [decBcbind, -Nat.reduceAdd, h]

theorem decFoffer_foffer {o f} (hf : (Instr.foffer o).fields = some f) (h : (o.d.offMesh && o.a.offMesh) = true) :
    decFoffer .service f = .ok (.foffer o) := by
  obtain rfl := Option.some.inj hf
  simp only [Bool.and_eq_true] at h
  simp [decFoffer, encDstSrc, h]

theorem decFoffer_fofferGrant {o f} (hf : (Instr.fofferGrant o).fields = some f)
    (h : (o.d.offMesh && o.a.offMesh && o.b.offMesh) = true) :
    decFoffer .service f = .ok (.fofferGrant o) := by
  obtain rfl := Option.some.inj hf
  simp only [Bool.and_eq_true] at h
  simp [decFoffer, encDstSrc2, h]

theorem decFoffer_fofferReclaim {o f} (hf : (Instr.fofferReclaim o).fields = some f)
    (h : (o.d.offMesh && o.a.offMesh) = true) :
    decFoffer .service f = .ok (.fofferReclaim o) := by
  obtain rfl := Option.some.inj hf
  simp only [Bool.and_eq_true] at h
  simp [decFoffer, encDstSrc, h]

theorem decFquery_fqueryState {o f} (hf : (Instr.fqueryState o).fields = some f)
    (h : (o.d.offMesh && o.a.offMesh) = true) :
    decFquery .service f = .ok (.fqueryState o) := by
  obtain rfl := Option.some.inj hf
  simp only [Bool.and_eq_true] at h
  simp [decFquery, encDstSrc, h]

theorem decFquery_fqueryDl {o f} (hf : (Instr.fqueryDl o).fields = some f) (h : (o.d.offMesh && o.a.offMesh) = true) :
    decFquery .service f = .ok (.fqueryDl o) := by
  obtain rfl := Option.some.inj hf
  simp only [Bool.and_eq_true] at h
  simp [decFquery, encDstSrc, h]

theorem decFquery_fqueryStrk {o f} (hf : (Instr.fqueryStrk o).fields = some f) (h : o.d.offMesh = true) :
    decFquery .service f = .ok (.fqueryStrk o) := by
  obtain rfl := Option.some.inj hf
  simp [decFquery, h]

/-! The whole decoder. -/

/-- The decoder of an instruction's opcode gives it back from its fields, if it has any. -/
def Instr.Returns (i : Instr) : Prop := ∀ f, i.fields = some f → decodeOpc i.kindFor f = .ok i

theorem Instr.Returns.of_fields {i : Instr} {f : Fields} (hf : i.fields = some f) (h : decodeOpc i.kindFor f = .ok i) :
    i.Returns := by
  intro g hg
  rw [hf] at hg
  exact Option.some.inj hg ▸ h

open Instr.Returns in
/-- Row by row of the opcode table, the opcode names the decoder that undoes the row's encoder (R62). -/
theorem Instr.returns_of_wellFormed (i : Instr) (h : i.wellFormed = true) : i.Returns := by
  cases i with
  | add o => exact of_fields rfl (decAlu3_enc h)
  | sub o => exact of_fields rfl (decAlu3_enc h)
  | mul o => exact of_fields rfl (decAlu3_enc h)
  | mulh o => exact of_fields rfl (decAlu2_enc h)
  | div o => exact of_fields rfl (decAlu2_enc h)
  | rem o => exact of_fields rfl (decAlu2_enc h)
  | and o => exact of_fields rfl (decAlu2_enc h)
  | or o => exact of_fields rfl (decAlu2_enc h)
  | xor o => exact of_fields rfl (decAlu2_enc h)
  | andn o => exact of_fields rfl (decAlu2_enc h)
  | shl o => exact of_fields rfl (decAlu2_enc h)
  | shr o => exact of_fields rfl (decAlu2_enc h)
  | sar o => exact of_fields rfl (decAlu2_enc h)
  | rot o => exact of_fields rfl (decAlu2_enc h)
  | clz o => exact of_fields rfl decAlu1_enc
  | popc o => exact of_fields rfl decAlu1_enc
  | min o => exact of_fields rfl (decAlu2_enc h)
  | max o => exact of_fields rfl (decAlu2_enc h)
  | cmp o => exact of_fields rfl (decCmp_cmp rfl)
  | sel o => exact of_fields rfl (decSel_sel rfl h)
  | movi o => exact of_fields rfl (decMovi_movi rfl h)
  | movhi o => exact of_fields rfl (decMovhi_movhi rfl h)
  | csetb o => exact of_fields rfl (decCsetb_csetb rfl)
  | csetp o => exact of_fields rfl decCapImm_enc
  | cseal o => exact of_fields rfl decCapAuth_enc
  | cunseal o => exact of_fields rfl decCapAuth_enc
  | cadd o => exact of_fields rfl decCapImm_enc
  | cget o => exact of_fields rfl (decCget_cget rfl h)
  | ctest o =>
    obtain ⟨g, p, a, _ | b⟩ := o
    · exact of_fields rfl (decCtest_ctest rfl)
    · exact of_fields rfl (decCtest_ctest rfl)
  | ckey o => exact of_fields rfl decCapImm_enc
  | br o => exact of_fields rfl decImm_enc
  | brc o => exact of_fields rfl (decBrc_brc rfl)
  | call o => exact of_fields rfl (decCall_call rfl)
  | ret o => exact of_fields rfl decOneG_enc
  | jmpi o => exact of_fields rfl (decJmpi_jmpi rfl)
  | loop o => exact of_fields rfl (decLoop_loop rfl)
  | yield o => exact of_fields rfl (decNone_enc (mk := fun g => .yield ⟨g⟩))
  | endTask o => exact of_fields rfl decOneSrc_enc
  | trapi o => exact of_fields rfl decImm_enc
  | fadd o => exact of_fields rfl decFp2_enc
  | fsub o => exact of_fields rfl decFp2_enc
  | fmul o => exact of_fields rfl decFp2_enc
  | ffma o => exact of_fields rfl (decFp3_ffma rfl h)
  | fdiv o => exact of_fields rfl decFp2_enc
  | fsqrt o => exact of_fields rfl (decFp1_fsqrt rfl)
  | fcvt o => exact of_fields rfl (decFcvt_fcvt rfl h)
  | fcmp o => exact of_fields rfl (decFcmp_fcmp rfl)
  | ld o => exact of_fields rfl (decLd_ld rfl h)
  | st o => exact of_fields rfl decSt_enc
  | ldc o => exact of_fields rfl (decLdc_ldc rfl)
  | stc o => exact of_fields rfl (decStc_stc rfl)
  | ldtg o => exact of_fields rfl (decLdtg_ldtg rfl h)
  | sttg o => exact of_fields rfl (decSttg_sttg rfl)
  | pref o => exact of_fields rfl (decPref_pref rfl)
  | ldacq o => exact of_fields rfl (decLdacq_ldacq rfl h)
  | strel o => exact of_fields rfl (decStrel_strel rfl)
  | fence o => exact of_fields rfl (decFence_fence rfl)
  | amsg o => exact of_fields rfl (decAmsg_amsg rfl h)
  | pst o => exact of_fields rfl decSt_enc
  | jrd o => exact of_fields rfl (decJrd_jrd rfl h)
  | jrdClr o => exact of_fields rfl (decJrd_jrdClr rfl h)
  | mwait o => exact of_fields rfl (decMwait_mwait rfl h)
  | bankcfg o => exact of_fields rfl (decBankcfg_bankcfg rfl h)
  | csrr o => exact of_fields rfl (decCsrr_csrr rfl h)
  | csrw o => exact of_fields rfl (decCsrw_csrw rfl h)
  | sysc o => exact of_fields rfl (decSysc_sysc rfl h)
  | eret o => exact of_fields rfl (decEret_eret rfl)
  | brk o => exact of_fields rfl decImm_enc
  | wfe o => exact of_fields rfl (decDstSrc_enc h)
  | halt o => exact of_fields rfl (decNone_enc (mk := fun g => .halt ⟨g⟩))
  | tlbinvPage o => exact of_fields rfl (decTlbinv_tlbinvPage rfl h)
  | tlbinvAll o => exact of_fields rfl (decTlbinv_tlbinvAll rfl h)
  | migr o => exact of_fields rfl (decDstSrc2_offMesh h)
  | ckpt o => exact of_fields rfl (decNone_enc (mk := fun g => .ckpt ⟨g⟩))
  | tspawn o => exact of_fields rfl (decDstCap_enc h)
  | tsig o => exact of_fields rfl (decTsig_tsig rfl)
  | launch o => exact of_fields rfl decOneG_enc
  | done o => exact of_fields rfl decOneSrc_enc
  | fget o => exact of_fields rfl (decFget_fget rfl h)
  | fput o => exact of_fields rfl (decFput_fput rfl)
  | tcontReady o => exact of_fields rfl (decTcont_tcontReady rfl h)
  | tcontEnd o => exact of_fields rfl (decTcont_tcontEnd rfl h)
  | trec o => exact of_fields rfl (decTrec_trec rfl h)
  | amo o => exact of_fields rfl (decAmo_amo rfl h)
  | amor o => exact of_fields rfl (decAmor_amor rfl h)
  | phnew o => exact of_fields rfl (decPhnew_phnew rfl h)
  | phjoin o => exact of_fields rfl (decPhjoin_phjoin rfl h)
  | phleave o => exact of_fields rfl decOneSrc_enc
  | phrole o => exact of_fields rfl (decPhrole_phrole rfl)
  | phsig o => exact of_fields rfl (decDstSrc2_enc h)
  | phwait o => exact of_fields rfl (decDstSrc2_enc h)
  | ctrread o => exact of_fields rfl (decCtrread_ctrread rfl h)
  | tcregAdd o => exact of_fields rfl (decTcreg_tcregAdd rfl h)
  | tcregDel o => exact of_fields rfl (decTcreg_tcregDel rfl h)
  | tcregStat o => exact of_fields rfl (decTcreg_tcregStat rfl h)
  | tclookRd o => exact of_fields rfl (decTclook_tclookRd rfl)
  | tclookWr o => exact of_fields rfl (decTclook_tclookWr rfl)
  | tcpf o => exact of_fields rfl (decTcpf_tcpf rfl h)
  | tchalo o => exact of_fields rfl (decTchalo_tchalo rfl h)
  | tcinv o => exact of_fields rfl (decTcinv_tcinv rfl)
  | tcinvDrop o => exact of_fields rfl (decTcinv_tcinvDrop rfl)
  | tcinvAll o => exact of_fields rfl (decTcinv_tcinvAll rfl)
  | sgath o => exact of_fields rfl (decSgath_sgath rfl h)
  | sred o => exact of_fields rfl (decSred_sred rfl h)
  | sconv o => exact of_fields rfl (decSconv_sconv rfl h)
  | copy o => exact of_fields rfl (decCopy_copy rfl h)
  | copyr o => exact of_fields rfl (decCopyr_copyr rfl h)
  | wprd o => exact of_fields rfl (decWprd_wprd rfl h)
  | tlwait o => exact of_fields rfl (decTlwait_tlwait rfl h)
  | tlrd o => exact of_fields rfl (decTlrd_tlrd rfl h)
  | vadd o => exact of_fields rfl (decV2_enc (ok := fun t s => t.arith && satOk s t) h)
  | vsub o => exact of_fields rfl (decV2_enc (ok := fun t s => t.arith && satOk s t) h)
  | vmul o => exact of_fields rfl (decV2_enc (ok := fun t s => t.arith && satOk s t) h)
  | vfma o => exact of_fields rfl (decV3_vfma rfl h)
  | vmin o => exact of_fields rfl (decV2_enc (ok := fun t s => t.arith && !s) h)
  | vmax o => exact of_fields rfl (decV2_enc (ok := fun t s => t.arith && !s) h)
  | vabs o => exact of_fields rfl (decV1_enc (ok := fun t s => t.signedOrFloat && satOk s t) h)
  | vneg o => exact of_fields rfl (decV1_enc (ok := fun t s => t.signedOrFloat && satOk s t) h)
  | vrcp o => exact of_fields rfl (decV1_enc (ok := fun t s => t.float && !s) h)
  | vrsq o => exact of_fields rfl (decV1_enc (ok := fun t s => t.float && !s) h)
  | vexp2 o => exact of_fields rfl (decV1_enc (ok := fun t s => t.float && !s) h)
  | vlog2 o => exact of_fields rfl (decV1_enc (ok := fun t s => t.float && !s) h)
  | vcvt o => exact of_fields rfl (decVcvt_vcvt rfl h)
  | vcmp o => exact of_fields rfl (decVcmp_vcmp rfl h)
  | vsel o => exact of_fields rfl (decVsel_vsel rfl)
  | vand o => exact of_fields rfl decVLogic_enc
  | vor o => exact of_fields rfl decVLogic_enc
  | vxor o => exact of_fields rfl decVLogic_enc
  | vshl o => exact of_fields rfl (decV2_enc (ok := fun t s => t.isInt && !s) h)
  | vshr o => exact of_fields rfl (decV2_enc (ok := fun t s => t.isInt && !s) h)
  | vredadd o => exact of_fields rfl (decVred_enc h)
  | vredmax o => exact of_fields rfl (decVred_enc h)
  | vscan o => exact of_fields rfl (decV1_enc (ok := fun t s => t.arith && satOk s t) h)
  | vperm o => exact of_fields rfl (decV2_enc (ok := fun _ s => !s) h)
  | vbcast o => exact of_fields rfl (decVbcast_vbcast rfl)
  | vclass o => exact of_fields rfl (decV1_enc (ok := fun t s => t.float && !s) h)
  | vld o => exact of_fields rfl (decVld_vld rfl)
  | vst o => exact of_fields rfl (decVst_vst rfl)
  | vlds o => exact of_fields rfl (decVlds_vlds rfl)
  | vgath o => exact of_fields rfl (decVgath_vgath rfl)
  | vscat o => exact of_fields rfl (decVscat_vscat rfl)
  | vmovgGet o => exact of_fields rfl (decVmovg_vmovgGet rfl h)
  | vmovgPut o => exact of_fields rfl (decVmovg_vmovgPut rfl)
  | mclaim o => exact of_fields rfl (decMclaim_mclaim rfl h)
  | mrel o => exact of_fields rfl (decMrel_mrel rfl)
  | mld o => exact of_fields rfl (decMld_mld rfl h)
  | mma o => exact of_fields rfl (decMma_mma rfl h)
  | mtern o => exact of_fields rfl (decMtern_mtern rfl h)
  | accz o => exact of_fields rfl (decAccz_accz rfl)
  | accld o => exact of_fields rfl (decAccld_accld rfl)
  | accst o => exact of_fields rfl (decAccst_accst rfl h)
  | accmov o => exact of_fields rfl (decAccmov_accmov rfl h)
  | msave o => exact of_fields rfl decOneG_enc
  | mrestore o => exact of_fields rfl (decDstCap_enc h)
  | bcent o => exact of_fields rfl (decBcent_bcent rfl h)
  | bclisten o => exact of_fields rfl (decBclisten_bclisten rfl h)
  | bcbindBind o => exact of_fields rfl (decBcbind_bcbindBind rfl h)
  | bcbindUnbind o => exact of_fields rfl (decBcbind_bcbindUnbind rfl h)
  | bcbindStat o => exact of_fields rfl (decBcbind_bcbindStat rfl h)
  | bcbindAssign o => exact of_fields rfl (decBcbind_bcbindAssign rfl h)
  | foffer o => exact of_fields rfl (decFoffer_foffer rfl h)
  | fofferGrant o => exact of_fields rfl (decFoffer_fofferGrant rfl h)
  | fofferReclaim o => exact of_fields rfl (decFoffer_fofferReclaim rfl h)
  | faccept o => exact of_fields rfl (decDstSrc_offMesh h)
  | fwithdraw o => exact of_fields rfl (decDstSrc_offMesh h)
  | flend o => exact of_fields rfl (decDstSrc2_offMesh h)
  | frecall o => exact of_fields rfl (decDstSrc_offMesh h)
  | fret o => exact of_fields rfl (decDstSrc_offMesh h)
  | fqueryState o => exact of_fields rfl (decFquery_fqueryState rfl h)
  | fqueryDl o => exact of_fields rfl (decFquery_fqueryDl rfl h)
  | fqueryStrk o => exact of_fields rfl (decFquery_fqueryStrk rfl h)
  | _ => exact fun f hf => nomatch hf

/-- The rows with a word are those with fields. -/
theorem Instr.fields_isSome (i : Instr) : i.fields.isSome = i.isWord := by cases i <;> rfl

/-- An opcode that compute cores lack is one that service cores have (R19, R59). -/
theorem kindOk_service {n : BitVec 10} (h : kindOk .compute n = false) : kindOk .service n = true := by
  simp only [kindOk] at h ⊢
  split at h
  · simp at h
  · next hm => rw [if_neg hm]; simp

/-- The core kind an instruction is decoded for has its opcode (R57 step 4). -/
theorem kindOk_kindFor {i : Instr} {f : Fields} (hf : i.fields = some f) : kindOk i.kindFor f.opc = true := by
  simp only [Instr.kindFor, hf]
  cases hk : kindOk .compute f.opc with
  | true => simpa using hk
  | false => simpa using kindOk_service hk

theorem decodeFields_ok {k : CoreKind} {f : Fields} {i : Instr} (hk : kindOk k f.opc = true) (h : decodeOpc k f = .ok i) :
    decodeFields k f = .ok i := by
  simp only [decodeFields, hk, h, if_true]

/-- Decoding undoes encoding, for every instruction with a word whose operands its encoding table admits. -/
theorem decode_encode {i : Instr} (hi : i.isWord = true) (hw : i.wellFormed = true) : decode i.kindFor (encode i) = .ok i := by
  obtain ⟨f, hf⟩ := Option.isSome_iff_exists.1 (i.fields_isSome.trans hi)
  have he : encode i = f.pack := by simp only [encode, hf]
  rw [decode, he, Fields.unpack_pack]
  exact decodeFields_ok (kindOk_kindFor hf) (i.returns_of_wellFormed hw f hf)

end Sys2Proof
end

section
/-! CLAIM. Decoding and encoding. -/

namespace Sys2Proof

/-- Settles O5: each field of the word is read back by the slice the decoder takes of it, so each row's decoder undoes
its encoder, and the opcode names that decoder. -/
theorem encodeDecode : Obligations.EncodeDecode := by
  intro i hi hw
  exact ⟨decode_encode hi hw, (decodeBytes_bytesOf _ _).trans (decode_encode hi hw)⟩

end Sys2Proof
end

section
/-! SUPPORT. Engine commands that join the order buffer (R113), and the checks and translations of a stack command. -/

namespace Sys2Proof.Machine

/-- Off a pair nothing stands before an effect that joins the gated buffer (R161). -/
theorem gateRoom_lone {s : State} (h : Lone s) : gateRoom s s.cur = .ok s := by
  simp only [gateRoom, h.pair, Option.isSome_none, Bool.false_and, Bool.false_eq_true, if_false]

/-- The next instruction's context with one entry joined. -/
theorem joined_one (s : State) (op : LobOp) :
    s.joined [op] = ((lobPush s s.cur op).ctx s.cur).goesOn ((s.ctx s.cur).pc + 12) := by
  simp only [State.joined, State.buffered, List.flatMap_singleton, lobPush, lobAppend, State.modCtx_ctx_same]

/-- An entry pushed with its marks stands at the tail of the context's buffer; nothing else changes (R100). -/
theorem retire_lobPush (s : State) (op : LobOp) :
    Retired s (retire (lobPush s s.cur op) s.cur) [] (s.joined [op]) putNone := by
  have hpc : ((lobPush s s.cur op).ctx s.cur).pc = (s.ctx s.cur).pc := by
    rw [lobPush, lobAppend, State.modCtx_ctx_same]
  rw [joined_one, retire, hpc]
  unfold lobPush lobAppend
  rw [State.modCtx_ctx_same]
  exact retired_plain _ _ putNone (fun _ _ => rfl) rfl rfl

theorem pushCmd_retired {s : State} (h : Lone s) (op : EngOp) (tl : Nat) :
    ∃ t, pushCmd s s.cur op tl = .ok t ∧ Retired s t [] (s.joined [.cmd op tl]) putNone := by
  refine ⟨_, ?_, retire_lobPush s (.cmd op tl)⟩
  simp only [pushCmd, gateRoom_lone h, Res.ok_bind, Res.pure_eq]

/-- A precise trap is taken once nothing older is outstanding (R227). -/
theorem settle_trap {s : State} (h : Settled s) (t : Trap) : settle s s.cur (.trap t) = takeTrap s s.cur t := if_pos h

/-- A trap that an instruction's body takes is that of a context with nothing older outstanding (R227). -/
theorem run_trap {i : Instr} {h : Hdr} {body : Nat → State → Res State} {s : State} {t : Trap} (hc : Clear s h) (ho : On s h)
    (hs : Settled s) (hb : body s.cur s = .error (.trap t)) : run i h body s = .next (takeTrap s s.cur t) := by
  rw [run_on hc ho, hb]
  exact congrArg Host.Outcome.next (settle_trap hs t)

/-! Checks whose order no rule gives (R14), alignments and translations. -/

/-- When every check passes there is nothing to choose among. -/
theorem lowest_ok {l : List (Res Unit)} (h : ∀ r ∈ l, r = .ok ()) : lowest l = .ok () := by
  unfold lowest
  rw [List.filterMap_eq_nil_iff.2 fun r hr => by rw [h r hr]]
  rfl

theorem alignCheck_ok {s : State} {c : Nat} {r : BitVec 6} {n : Nat} (h : ((s.ctx c).low r).toNat % n = 0) :
    alignCheck s c r n = .ok () := by
  simp only [alignCheck, h, ne_eq, not_true_eq_false, decide_false, trapIf_false]

/-- Ranges that are all translated give their pages in order. -/
theorem xlatAll_ok {s : State} {c : Nat} (l : List ((Word × Nat × Nat) × Xlat))
    (h : ∀ e ∈ l, xlatPlaced s c e.1.1 e.1.2.1 e.1.2.2 = .ok e.2) :
    xlatAll s c (l.map (·.1)) = .ok (l.flatMap (·.2)) := by
  have hf : ∀ (l : List ((Word × Nat × Nat) × Xlat)) (xl : Xlat), (∀ e ∈ l, xlatPlaced s c e.1.1 e.1.2.1 e.1.2.2 = .ok e.2) →
      (l.map (·.1)).foldlM (fun (xl : Xlat) e => do pure (xl ++ (← xlatPlaced s c e.1 e.2.1 e.2.2)) : Xlat → _ → Res Xlat) xl
        = .ok (xl ++ l.flatMap (·.2)) := by
    intro l
    induction l with
    | nil => intro xl _; simp
    | cons e l ih =>
      intro xl h
      rw [List.map_cons, List.foldlM_cons, h e List.mem_cons_self, Res.ok_bind, Res.pure_eq, Res.ok_bind,
        ih _ fun e he => h e (List.mem_cons_of_mem _ he), List.flatMap_cons, List.append_assoc]
  have hl : lowest ((l.map (·.1)).map fun e => (xlatPlaced s c e.1 e.2.1 e.2.2).map fun _ => ()) = .ok () := by
    refine lowest_ok fun r hr => ?_
    obtain ⟨e, he, rfl⟩ := List.mem_map.1 hr
    obtain ⟨e', he', rfl⟩ := List.mem_map.1 he
    rw [h e' he']
    rfl
  rw [xlatAll, hl, Res.ok_bind, hf l [] h, List.nil_append]

/-- Two ranges, and three. -/
theorem xlatAll_two {s : State} {c : Nat} {a b : Word} {n m k l : Nat} {xa xb : Xlat} (ha : xlatPlaced s c a n k = .ok xa)
    (hb : xlatPlaced s c b m l = .ok xb) : xlatAll s c [(a, n, k), (b, m, l)] = .ok (xa ++ xb) := by
  simpa using xlatAll_ok [((a, n, k), xa), ((b, m, l), xb)] (List.forall_mem_cons.2 ⟨ha, List.forall_mem_singleton.2 hb⟩)

theorem xlatAll_three {s : State} {c : Nat} {a b d : Word} {n m p k l q : Nat} {xa xb xd : Xlat}
    (ha : xlatPlaced s c a n k = .ok xa) (hb : xlatPlaced s c b m l = .ok xb) (hd : xlatPlaced s c d p q = .ok xd) :
    xlatAll s c [(a, n, k), (b, m, l), (d, p, q)] = .ok (xa ++ xb ++ xd) := by
  simpa using xlatAll_ok [((a, n, k), xa), ((b, m, l), xb), ((d, p, q), xd)]
    (List.forall_mem_cons.2 ⟨ha, List.forall_mem_cons.2 ⟨hb, List.forall_mem_singleton.2 hd⟩⟩)

/-- Two checks that pass, and three. -/
theorem lowest_two {a b : Res Unit} (ha : a = .ok ()) (hb : b = .ok ()) : lowest [a, b] = .ok () :=
  lowest_ok (List.forall_mem_cons.2 ⟨ha, List.forall_mem_singleton.2 hb⟩)

theorem lowest_three {a b d : Res Unit} (ha : a = .ok ()) (hb : b = .ok ()) (hd : d = .ok ()) : lowest [a, b, d] = .ok () :=
  lowest_ok (List.forall_mem_cons.2 ⟨ha, List.forall_mem_cons.2 ⟨hb, List.forall_mem_singleton.2 hd⟩⟩)

/-! The three commands. An instruction whose body comes down to pushing a command queues it. -/

theorem queued_of_push {i : Instr} {h : Hdr} {body : Nat → State → Res State} {s : State} {op : EngOp} {tl : Nat}
    (hi : exec i s = run i h body s) (hc : Clear s h) (ho : On s h) (hl : Lone s)
    (hb : body s.cur s = pushCmd s s.cur op tl) : Queued i s [] op tl := by
  obtain ⟨t, ht, hr⟩ := pushCmd_retired hl op tl
  exact ⟨t, hi.trans (run_next hc ho (hb.trans ht)), hr⟩

theorem sgath_queued {o : SgathOps} {s : State} {xd xb : Xlat} (hc : Clear s o.h) (ho : On s o.h) (hl : Lone s)
    (hd : StackGrants s o.d permEdst (some (o.count.toNat * (4 * o.roww.toNat))) 4) (ha : StackGrants s o.a permEsrc none 4)
    (hb : StackGrants s o.b permEsrc (some (o.count.toNat * (if o.n64 then 8 else 4))) (if o.n64 then 8 else 4))
    (hxd : xlatPlaced s s.cur ((s.ctx s.cur).low o.d) (o.count.toNat * (4 * o.roww.toNat)) 4 = .ok xd)
    (hxb : xlatPlaced s s.cur ((s.ctx s.cur).low o.b) (o.count.toNat * (if o.n64 then 8 else 4)) 3 = .ok xb) :
    Queued (.sgath o) s [] (.sgath o.n64 o.count.toNat o.roww.toNat ((s.ctx s.cur).low o.d) ((s.ctx s.cur).low o.a)
      ((s.ctx s.cur).low o.b) ((s.ctx s.cur).reg o.a).cap.base ((s.ctx s.cur).reg o.a).cap.top (xd ++ xb)
      ((s.ctx s.cur).level != .task)) 6 := by
  refine queued_of_push (body := sgathBody o) rfl hc ho hl ?_
  simp only [sgathBody]
  rw [lowest_three hd.1 ha.1 hb.1, Res.ok_bind, lowest_three (alignCheck_ok hd.2) (alignCheck_ok ha.2) (alignCheck_ok hb.2),
    Res.ok_bind, xlatAll_two hxd hxb, Res.ok_bind]

theorem sred_queued {o : SredOps} {s : State} {xd xa : Xlat} (hc : Clear s o.h) (ho : On s o.h) (hl : Lone s)
    (hd : StackGrants s o.d permEdst (some (o.count.toNat * sredBytes o.ty)) (sredBytes o.ty))
    (ha : StackGrants s o.a permEsrc (some (o.count.toNat * sredBytes o.ty)) (sredBytes o.ty))
    (hxd : xlatPlaced s s.cur ((s.ctx s.cur).low o.d) (o.count.toNat * sredBytes o.ty) 4 = .ok xd)
    (hxa : xlatPlaced s s.cur ((s.ctx s.cur).low o.a) (o.count.toNat * sredBytes o.ty) 3 = .ok xa) :
    Queued (.sred o) s [] (.sred o.ty o.op o.count.toNat ((s.ctx s.cur).low o.d) ((s.ctx s.cur).low o.a) (xd ++ xa)) 6 := by
  refine queued_of_push (body := sredBody o) rfl hc ho hl ?_
  simp only [sredBody]
  rw [lowest_two hd.1 ha.1, Res.ok_bind, lowest_two (alignCheck_ok hd.2) (alignCheck_ok ha.2), Res.ok_bind,
    xlatAll_two hxd hxa, Res.ok_bind]

/-! SCONV. The format whose blocks' scales lie at B, when one of the two has blocks (R334). -/

def sconvSide (o : SconvOps) : Nat := if (codeBlock o.sf.toNat).isSome then o.sf.toNat else o.df.toNat
def sconvScalePerm (o : SconvOps) : BitVec 12 := if (codeBlock o.sf.toNat).isSome then permEsrc else permEdst
def sconvScaleKind (o : SconvOps) : Nat := if (codeBlock o.sf.toNat).isSome then 3 else 4

/-- With formats R334 pairs, B names a register exactly when the side has scales. -/
theorem side_isSome_of_paired {o : SconvOps} (h : convBad o.sf.toNat o.df.toNat o.count.toNat o.b = false) :
    (codeBlock (sconvSide o)).isSome = true ↔ o.b ≠ 0 := by
  have hs : (codeBlock (sconvSide o)).isSome = ((codeBlock o.sf.toNat).isSome || (codeBlock o.df.toNat).isSome) := by
    unfold sconvSide
    cases hc : (codeBlock o.sf.toNat).isSome <;> simp [hc]
  have hb := (Bool.or_eq_false_iff.1 h).2
  rw [hs]
  revert hb
  cases (codeBlock o.sf.toNat).isSome || (codeBlock o.df.toNat).isSome <;> simp

section
variable {o : SconvOps} {s : State} {xd xa xb : Xlat}

/-- SCONV's capability operands pass, the scales' included where both exist. -/
theorem sconv_caps (hd : stackCap s s.cur o.d permEdst (some (packedSize o.df.toNat o.count.toNat)) = .ok ())
    (ha : stackCap s s.cur o.a permEsrc (some (packedSize o.sf.toNat o.count.toNat)) = .ok ())
    (hb : (codeBlock (sconvSide o)).isSome = true → o.b ≠ 0 →
      stackCap s s.cur o.b (sconvScalePerm o) (some (scaleSize (sconvSide o) o.count.toNat)) = .ok ()) :
    lowest ([stackCap s s.cur o.d permEdst (some (packedSize o.df.toNat o.count.toNat)),
        stackCap s s.cur o.a permEsrc (some (packedSize o.sf.toNat o.count.toNat))]
      ++ (if (codeBlock (sconvSide o)).isSome && o.b != 0 then
        [stackCap s s.cur o.b (sconvScalePerm o) (some (scaleSize (sconvSide o) o.count.toNat))] else [])) = .ok () := by
  split
  next h =>
    rw [Bool.and_eq_true, bne_iff_ne] at h
    exact lowest_three hd ha (hb h.1 h.2)
  next => exact lowest_two hd ha

/-- Unpaired formats are found before any alignment. -/
theorem sconv_unpaired (hd : stackCap s s.cur o.d permEdst (some (packedSize o.df.toNat o.count.toNat)) = .ok ())
    (ha : stackCap s s.cur o.a permEsrc (some (packedSize o.sf.toNat o.count.toNat)) = .ok ())
    (hb : (codeBlock (sconvSide o)).isSome = true → o.b ≠ 0 →
      stackCap s s.cur o.b (sconvScalePerm o) (some (scaleSize (sconvSide o) o.count.toNat)) = .ok ())
    (hbad : convBad o.sf.toNat o.df.toNat o.count.toNat o.b = true) :
    sconvBody o s.cur s = .error (.trap { cause := 0x0D, val := BitVec.ofNat 64 (o.sf.toNat * 64 + o.df.toNat) }) := by
  have hcaps := sconv_caps hd ha hb
  unfold sconvSide sconvScalePerm at hcaps
  simp only [sconvBody]
  rw [hcaps, Res.ok_bind, hbad, trapIf_true]
  rfl

theorem sconv_paired_push (hd : StackGrants s o.d permEdst (some (packedSize o.df.toNat o.count.toNat)) (max 1 (codeBits o.df.toNat / 8)))
    (ha : StackGrants s o.a permEsrc (some (packedSize o.sf.toNat o.count.toNat)) (max 1 (codeBits o.sf.toNat / 8)))
    (hb : ∀ m w, codeBlock (sconvSide o) = some (m, w) → o.b ≠ 0 →
      StackGrants s o.b (sconvScalePerm o) (some (scaleSize (sconvSide o) o.count.toNat)) w ∧
      xlatPlaced s s.cur ((s.ctx s.cur).low o.b) (scaleSize (sconvSide o) o.count.toNat) (sconvScaleKind o) = .ok xb)
    (hn : codeBlock (sconvSide o) = none → xb = [])
    (hxd : xlatPlaced s s.cur ((s.ctx s.cur).low o.d) (packedSize o.df.toNat o.count.toNat) 4 = .ok xd)
    (hxa : xlatPlaced s s.cur ((s.ctx s.cur).low o.a) (packedSize o.sf.toNat o.count.toNat) 3 = .ok xa)
    (hok : convBad o.sf.toNat o.df.toNat o.count.toNat o.b = false) :
    sconvBody o s.cur s = pushCmd s s.cur (.sconv o.sf.toNat o.df.toNat (roundField (s.ctx s.cur).round o.rm) o.count.toNat
      ((s.ctx s.cur).low o.d) ((s.ctx s.cur).low o.a) ((s.ctx s.cur).low o.b) (xd ++ xa ++ xb)) 6 := by
  have hcaps := sconv_caps hd.1 ha.1 fun h hb0 => by
    obtain ⟨⟨m, w⟩, hmw⟩ := Option.isSome_iff_exists.1 h
    exact (hb m w hmw hb0).1.1
  have hpair := side_isSome_of_paired hok
  unfold sconvSide sconvScalePerm at hcaps
  simp only [sconvBody]
  rw [hcaps, Res.ok_bind, hok, trapIf_false, Res.ok_bind]
  cases hside : codeBlock (sconvSide o) with
  | none =>
    rw [hn hside]
    unfold sconvSide at hside
    simp only [hside, Option.isSome_none, Bool.false_eq_true, if_false, List.append_nil]
    rw [lowest_two (alignCheck_ok hd.2) (alignCheck_ok ha.2), Res.ok_bind, xlatAll_two hxd hxa, Res.ok_bind]
  | some e =>
    obtain ⟨hgb, hxb⟩ := hb e.1 e.2 hside (hpair.1 (by rw [hside]; rfl))
    unfold sconvSide at hside hxb
    unfold sconvScaleKind at hxb
    simp only [hside, Option.isSome_some, if_true, List.cons_append, List.nil_append]
    rw [lowest_three (alignCheck_ok hd.2) (alignCheck_ok ha.2) (alignCheck_ok hgb.2), Res.ok_bind,
      xlatAll_three hxd hxa hxb, Res.ok_bind]

end

/-- Settles O42: each body comes down to its checks, which pass, its translations, and one push; SCONV's pairing of
formats decides whether B is an operand. -/
theorem stackCommandsQueue : Obligations.StackCommandsQueue := by
  unfold Obligations.StackCommandsQueue
  refine ⟨?_, ?_, ?_⟩
  · intro o s xd xb hc ho hl n row w hd ha hb hxd hxb
    exact sgath_queued hc ho hl hd ha hb hxd hxb
  · intro o s xd xa hc ho hl w n hd ha hxd hxa
    exact sred_queued hc ho hl hd ha hxd hxa
  · intro o s xd xa xb hc ho hl sf df n side hd ha hb hn hxd hxa
    refine ⟨fun hok => queued_of_push (body := sconvBody o) rfl hc ho hl (sconv_paired_push hd ha hb hn hxd hxa hok), fun hbad hs => ?_⟩
    refine (show exec (.sconv o) s = run (.sconv o) o.h (sconvBody o) s from rfl).trans (run_trap hc ho hs (sconv_unpaired hd.1 ha.1 (fun h hb0 => ?_) hbad))
    obtain ⟨⟨m, w⟩, hmw⟩ := Option.isSome_iff_exists.1 h
    exact (hb m w hmw hb0).1.1

end Sys2Proof.Machine
end

section
/-! SUPPORT. CSRR and CSRW (R151, R152, R217): the level check in front of the guard, the value, the store. -/

namespace Sys2Proof.Machine

/-! Retiring after nothing else. -/

/-- The second of two writes of one key stands. -/
theorem Sparse.set_set {α : Type} (m : Sparse α) (k : Nat) (a b : α) : Sparse.set (Sparse.set m k a) k b = Sparse.set m k b := by
  induction m with
  | nil => simp [Sparse.set]
  | cons e r ih =>
    obtain ⟨j, x⟩ := e
    by_cases h1 : j = k
    · simp [Sparse.set, h1]
    · by_cases h2 : k < j
      · simp [Sparse.set, h1, h2]
      · simp [Sparse.set, h1, h2, ih]

theorem State.modCtx_modCtx (s : State) (c : Nat) (f g : Context → Context) :
    (s.modCtx c f).modCtx c g = s.modCtx c (g ∘ f) := by
  rw [State.modCtx, State.modCtx_ctx_same]
  simp only [State.modCtx, State.setCtx, Sparse.set_set, Function.comp_apply]

theorem retire_modCtx_id (s : State) : retire (s.modCtx s.cur id) s.cur = retire s s.cur := by
  rw [retire, State.modCtx_ctx_same, retireAt, State.modCtx_modCtx]
  rfl

/-- An instruction that has done its work retires: the context is the next instruction's, and nothing else changes. -/
theorem retired_after (s : State) : Retired s (retire s s.cur) [] s.after putNone :=
  retire_modCtx_id s ▸ (by
    rw [retire, State.modCtx_ctx_same]
    exact retired_plain id _ putNone (fun _ _ => rfl) rfl rfl)

/-! The level an operand asks for (R59). -/

theorem runLevel_met {i : Instr} {h : Hdr} {body : Nat → State → Res State} {s : State} {low : Bool} (hl : low = false) :
    runLevel i h low body s = run i h body s := by rw [runLevel, hl]; rfl

/-- Below the level the trap is taken whatever the guard. -/
theorem runLevel_below {i : Instr} {h : Hdr} {body : Nat → State → Res State} {s : State} {low : Bool} (hl : low = true)
    (ho : (s.ctx s.cur).outst = 0) (hs : Settled s) : runLevel i h low body s = .next (takeTrap s s.cur (privTrap i)) := by
  rw [runLevel, hl, ho]
  exact congrArg Host.Outcome.next (settle_trap hs _)

/-- An instruction whose body stalls changes nothing. -/
theorem run_stall {i : Instr} {h : Hdr} {body : Nat → State → Res State} {s : State} (hc : Clear s h) (ho : On s h)
    (hb : body s.cur s = .error .stall) : run i h body s = .next s := by
  rw [run_on hc ho, hb]
  rfl

/-! CSRR. -/

theorem flagsReady_iff (s : State) (n : Nat) : flagsReady s s.cur n = true ↔ CsrKnown s n := by
  unfold flagsReady CsrKnown
  by_cases hn : n = 0 <;> simp [hn]

/-- Off a replay, what an instruction reads from outside is the value itself (R474). -/
theorem outside_plain {s : State} {c : Nat} (h : replayOf s c = none) (k : Nat) (w : Word) : outside s c k w = .ok (w, s) := by
  have hr : replayed s c k = .ok none := by simp only [replayed, h]
  simp only [outside, hr, Res.ok_bind, Res.pure_eq, capture_none h]

theorem raiseFlags_zero (s : State) (c : Nat) : raiseFlags s c 0 = s := if_pos rfl

theorem Dst.local_ne_xm {d : Dst} (h : d.local = true) (m : BitVec 5) (k : BitVec 6) : d ≠ .xm m k := by
  rintro rfl
  exact Bool.noConfusion h

theorem csrrPut_local {d : Dst} (h : d.local = true) (s : State) (w : Word) (c : Nat) :
    csrrBody.put s d w c = .ok (deliver s c d w) := by
  cases d with
  | xm m k => exact Bool.noConfusion h
  | _ => rfl

section
variable {o : CsrrOps} {s : State} {l : Nat}

/-- The time base is read as a value from outside (R474). -/
theorem csrr_time (hc : Clear s o.h) (hl : Lone s) (hr : Ready s [] (some o.d)) (hd : o.d.local = true)
    (hn : o.num.toNat = 6) : ∃ t, csrrBody o s.cur s = .ok t ∧ ScalarDone s t [] o.d s.time 0 := by
  obtain ⟨u, ⟨got, hg⟩, hs⟩ := sources_ready hr
  refine ⟨_, ?_, scalar_done hg hc.real o.d s.time 0 (Dst.local_ne_xm hd) fun _ _ => hl.pair⟩
  have hrep : replayOf u s.cur = none := hg.replay.trans hl.replay
  have htime : u.time = s.time := by rw [hg.whole]
  have hl6 : csrReadLevel 6 = some 0 := rfl
  have hf6 : flagsReady s s.cur 6 = true := rfl
  simp only [csrrBody, hn, hl6, hf6, ask_true, Res.ok_bind, if_true, hs, outside_plain hrep, csrrPut_local hd, deliver,
    raiseFlags_zero, htime]

/-- Any other register is a scalar result (R44). -/
theorem csrr_other (hc : Clear s o.h) (hr : Ready s [] (some o.d)) (hd : o.d.local = true)
    (hl : csrReadLevel o.num.toNat = some l) (hk : CsrKnown s o.num.toNat) (hn : o.num.toNat ≠ 6) :
    ∃ t, csrrBody o s.cur s = .ok t ∧ ScalarDone s t [] o.d (csrValue s s.cur o.num.toNat) 0 := by
  obtain ⟨t, ht, hdone⟩ := scalarOp_done (f := fun _ _ => (csrValue s s.cur o.num.toNat, 0)) hr hc.real
    (Dst.local_ne_xm hd) fun _ _ _ => rfl
  refine ⟨t, ?_, hdone⟩
  simp only [csrrBody, hl, (flagsReady_iff s _).2 hk, ask_true, Res.ok_bind, if_neg hn, ht]

theorem csrr_reads (hc : Clear s o.h) (ho : On s o.h) (hlone : Lone s) (hr : Ready s [] (some o.d)) (hd : o.d.local = true)
    (hl : csrReadLevel o.num.toNat = some l) (hlev : l ≤ (s.ctx s.cur).level.code) (hk : CsrKnown s o.num.toNat) :
    ∃ t, exec (.csrr o) s = .next t ∧ ScalarDone s t [] o.d (csrValue s s.cur o.num.toNat) 0 := by
  have hlow : ((csrReadLevel o.num.toNat).any fun l => decide ((s.ctx s.cur).level.code < l)) = false := by
    rw [hl]
    exact decide_eq_false (Nat.not_lt.2 hlev)
  have hbody : ∃ t, csrrBody o s.cur s = .ok t ∧ ScalarDone s t [] o.d (csrValue s s.cur o.num.toNat) 0 := by
    by_cases hn : o.num.toNat = 6
    · rw [hn]
      exact csrr_time hc hlone hr hd hn
    · exact csrr_other hc hr hd hl hk hn
  obtain ⟨t, ht, hdone⟩ := hbody
  exact ⟨t, (runLevel_met hlow).trans (run_next hc ho ht), hdone⟩

theorem csrr_traps_below (hout : (s.ctx s.cur).outst = 0) (hl : csrReadLevel o.num.toNat = some l)
    (hlev : (s.ctx s.cur).level.code < l) (hs : Settled s) :
    Traps (.csrr o) s 0x02 ((w2Of (encode (.csrr o))).setWidth 64) := by
  refine runLevel_below ?_ hout hs
  rw [hl]
  exact decide_eq_true hlev

/-- FLAGS may be read and written at every level, and waits for what may still raise it (R135, R151). -/
theorem csrr_flags_waits (hc : Clear s o.h) (ho : On s o.h) (hn : o.num = 0) (hk : ¬ CsrKnown s 0) :
    exec (.csrr o) s = .next s := by
  have hn0 : o.num.toNat = 0 := by rw [hn]; rfl
  refine (runLevel_met (by rw [hn0]; rfl)).trans (run_stall hc ho ?_)
  have hf : flagsReady s s.cur 0 = false := Bool.eq_false_iff.2 fun h => hk ((flagsReady_iff s 0).1 h)
  have hl0 : csrReadLevel 0 = some 0 := rfl
  simp only [csrrBody, hn0, hl0, hf, ask_false, Res.error_bind]

end

/-! CSRW. -/

theorem csrStore_cur (s : State) (c n : Nat) (w : Word) : (csrStore s c n w).cur = s.cur := by
  simp only [csrStore, apply_ite State.cur, State.modCtx_cur, State.modCore_cur, State.modDie_cur, ite_self]

/-- What `taken` holds when the operands are there. -/
theorem sources_taken {s : State} {srcs : List Src} {d : Option Dst} (h : Ready s srcs d) :
    sources s s.cur srcs d = .ok (srcWords s [] srcs, s.taken srcs d) ∧ (s.taken srcs d).cur = s.cur := by
  obtain ⟨u, ⟨got, hg⟩, hs⟩ := sources_ready h
  have ht : s.taken srcs d = u := by simp only [State.taken, hs]
  exact ⟨ht ▸ hs, by rw [ht, hg.whole]⟩

section
variable {o : CsrwOps} {s : State} {l : Nat}

theorem csrw_writes (hc : Clear s o.h) (ho : On s o.h) (hr : Ready s [o.a] none) (hl : csrReadLevel o.num.toNat = some l)
    (hlev : csrWriteLevel o.num.toNat ≤ (s.ctx s.cur).level.code) (hk : CsrKnown s o.num.toNat) :
    ∃ t, exec (.csrw o) s = .next t ∧
      Retired (csrStore (s.taken [o.a] none) s.cur o.num.toNat (srcWord s [] o.a)) t []
        (csrStore (s.taken [o.a] none) s.cur o.num.toNat (srcWord s [] o.a)).after putNone := by
  have hlow : ((csrReadLevel o.num.toNat).isSome && decide ((s.ctx s.cur).level.code < csrWriteLevel o.num.toNat)) = false := by
    rw [decide_eq_false (Nat.not_lt.2 hlev), Bool.and_false]
  obtain ⟨hs, hcur⟩ := sources_taken hr
  have hret := retired_after (csrStore (s.taken [o.a] none) s.cur o.num.toNat (srcWord s [] o.a))
  rw [csrStore_cur, hcur] at hret
  refine ⟨_, (runLevel_met hlow).trans (run_next hc ho ?_), hret⟩
  simp only [csrwBody, hl, (flagsReady_iff s _).2 hk, ask_true, Res.ok_bind, hs, Res.pure_eq]
  rfl

theorem csrw_traps_below (hout : (s.ctx s.cur).outst = 0) (hl : csrReadLevel o.num.toNat = some l)
    (hlev : (s.ctx s.cur).level.code < csrWriteLevel o.num.toNat) (hs : Settled s) :
    Traps (.csrw o) s 0x02 ((w2Of (encode (.csrw o))).setWidth 64) := by
  refine runLevel_below ?_ hout hs
  rw [hl, decide_eq_true hlev]
  rfl

theorem csrw_flags_waits (hc : Clear s o.h) (ho : On s o.h) (hn : o.num = 0) (hk : ¬ CsrKnown s 0) :
    exec (.csrw o) s = .next s := by
  have hn0 : o.num.toNat = 0 := by rw [hn]; rfl
  refine (runLevel_met (by rw [hn0]; rfl)).trans (run_stall hc ho ?_)
  have hf : flagsReady s s.cur 0 = false := Bool.eq_false_iff.2 fun h => hk ((flagsReady_iff s 0).1 h)
  have hl0 : csrReadLevel 0 = some 0 := rfl
  simp only [csrwBody, hn0, hl0, hf, ask_false, Res.error_bind]

end

/-! The registers one by one. -/

section
variable (s : State) (c : Nat) {j : Nat} (w : Word)

theorem csrValue_trap (hj : j < 4) : csrValue s c (0x10 + j) =
    (if (s.ctx c).level = .custodian then (s.ctx c).ctrap else (s.ctx c).ktrap).read j := by
  simp (disch := omega) only [csrValue, if_neg, if_pos, Nat.add_sub_cancel_left]

theorem csrValue_ktrap (hj : j < 4) : csrValue s c (0x18 + j) = (s.ctx c).ktrap.read j := by
  simp (disch := omega) only [csrValue, if_neg, if_pos, Nat.add_sub_cancel_left]

theorem csrValue_evc (hj : j < 4) : csrValue s c (0x40 + j) = BitVec.ofNat 64 (Sparse.get 0 (s.core (coreOf c)).evc j) := by
  simp (disch := omega) only [csrValue, if_neg, if_pos, Nat.add_sub_cancel_left]

theorem csrStore_trap (hj : j < 4) : csrStore s c (0x10 + j) w = s.modCtx c (fun x => if x.level = .custodian then
    { x with ctrap := x.ctrap.write j w } else { x with ktrap := x.ktrap.write j w }) := by
  simp (disch := omega) only [csrStore, if_neg, if_pos, Nat.add_sub_cancel_left]

theorem csrStore_evc (hj : j < 4) : csrStore s c (0x40 + j) w =
    s.modCore (coreOf c) (fun k => { k with evc := Sparse.set k.evc j (w.toNat % 2 ^ 48) }) := by
  simp (disch := omega) only [csrStore, if_neg, if_pos, Nat.add_sub_cancel_left]

theorem csrStore_clflags {n : Nat} (hn : n < 16) (hd : dieOf c < 8) : csrStore s c (0x100 + n) w =
    s.modDie (dieOf c) fun d => { d with
      clflags := Sparse.set d.clflags n (Sparse.get 0 d.clflags n &&& ~~~ w.setWidth 6) } := by
  simp (disch := omega) only [csrStore, if_neg, Nat.add_sub_cancel_left]

theorem RoundMode.ofCode_code (m : RoundMode) : RoundMode.ofCode m.code = some m := by cases m <;> rfl

theorem RoundMode.ofCode_none {n : Nat} (h : 5 ≤ n) : RoundMode.ofCode n = none := by
  obtain ⟨k, rfl⟩ := Nat.exists_eq_add_of_le' h
  rfl

theorem csrStore_round (m : RoundMode) (h : w.toNat % 8 = m.code) :
    csrStore s c 1 w = s.modCtx c fun x => { x with round := m } := by
  show (s.modCtx c fun x => { x with round := (RoundMode.ofCode (w.toNat % 8)).getD x.round }) = _
  rw [h, RoundMode.ofCode_code]
  rfl

theorem csrStore_round_none (h : 5 ≤ w.toNat % 8) : csrStore s c 1 w = s.modCtx c id := by
  show (s.modCtx c fun x => { x with round := (RoundMode.ofCode (w.toNat % 8)).getD x.round }) = _
  rw [RoundMode.ofCode_none h]
  rfl

end

/-- Settles O26: the level decides between the trap and the instruction's body, whose store and value are the equations
above. -/
theorem controlRegisters : Obligations.ControlRegisters := by
  unfold Obligations.ControlRegisters
  refine ⟨?_, ?_, ?_, ?_, ?_, ?_, ?_, ?_⟩
  · intro o s l hc ho hlone hr hd hl hlev hk
    exact csrr_reads hc ho hlone hr hd hl hlev hk
  · intro o s l hout hl hlev hs
    exact csrr_traps_below hout hl hlev hs
  · intro o s hc ho hn hk
    exact csrr_flags_waits hc ho hn hk
  · intro o s l hc ho hr hl hlev hk
    exact csrw_writes hc ho hr hl hlev hk
  · intro o s l hout hl hlev hs
    exact csrw_traps_below hout hl hlev hs
  · intro o s hc ho hn hk
    exact csrw_flags_waits hc ho hn hk
  · intro s c j hj
    exact ⟨rfl, rfl, rfl, rfl, rfl, csrValue_trap s c hj, csrValue_ktrap s c hj, csrValue_evc s c hj⟩
  · intro s c j w hj
    exact ⟨rfl, csrStore_round s c w, csrStore_round_none s c w, rfl, csrStore_trap s c w hj, rfl, csrStore_evc s c w hj,
      fun n hn hd => csrStore_clflags s c w hn hd⟩

end Sys2Proof.Machine
end

section
/-! SUPPORT. The state after module reset, and one step of the machine: the turn, the fetch, the decoding. -/

namespace Sys2Proof.Machine

/-- Settles O1: every table of the reset state is empty, so each entry is its default, the reset value. -/
theorem resetValues : Obligations.ResetValues := by
  unfold Obligations.ResetValues
  refine ⟨rfl, fun c i => ?_, fun _ => rfl, fun _ _ => rfl, fun _ _ => rfl, fun _ _ => rfl, fun _ => ⟨rfl, rfl, rfl⟩,
    fun k => ?_, fun _ => rfl, fun _ => rfl, fun _ => rfl, fun _ => ⟨rfl, rfl, rfl⟩⟩
  · show (if i = 0 then ({} : Reg) else {}) = {}
    exact ite_self _
  · rw [partOfCore]
    exact if_neg (show ¬ false = true from Bool.false_ne_true)

/-! The turn of a context (R57, R100). -/

/-- What a context has whose next instruction is fetched: it issues, and nothing pending, requested, queued full or guessed
stands before it. -/
structure Fetches (x : Context) : Prop where
  runs : issues x.run = true
  pend : x.pend = []
  request : x.request = none
  vq : x.vq.length < 2
  spec : x.spec = none

section
variable {s : State} {c : Nat}

theorem fetchInstr_ok {i : Instr} (h : Fetches (s.ctx c)) (hf : fetchDecode s c = .ok i) : fetchInstr s c = .go i := by
  simp only [fetchInstr, h.runs, h.pend, h.request, Nat.not_le.2 h.vq, h.spec, hf, Bool.not_true, Bool.false_eq_true, if_false,
    List.isEmpty_nil, Bool.false_and, Option.isSome_none]

theorem fetchInstr_trap {t : Trap} (h : Fetches (s.ctx c)) (hs : settled s c = true)
    (hf : fetchDecode s c = .error (.trap t)) : fetchInstr s c = .done (takeTrap s c t) := by
  simp only [fetchInstr, h.runs, h.pend, h.request, Nat.not_le.2 h.vq, h.spec, hf, Bool.not_true, Bool.false_eq_true, if_false,
    List.isEmpty_nil, Bool.false_and, Option.isSome_none, settle, hs, if_true]

theorem fetchDecode_misaligned (h : (s.ctx c).pc.toNat % 4 ≠ 0) :
    fetchDecode s c = .error (.trap { cause := 0x03, val := (s.ctx c).pc }) := by
  simp only [fetchDecode, h, ne_eq, not_false_eq_true, decide_true, trapIf_true, Res.error_bind]

/-- Twelve bytes of one page are fetched in one piece, and decoded. -/
theorem fetchDecode_ok {b : List Byte} {i : Instr} (h4 : (s.ctx c).pc.toNat % 4 = 0)
    (hp : (s.ctx c).pc.toNat % 4096 ≤ 4084) (hb : fetchPart s c (s.ctx c).pc 12 = .ok b)
    (hd : decodeBytes (kindOf c) b = .ok i) : fetchDecode s c = .ok i := by
  have hfirst : min 12 (4096 - (s.ctx c).pc.toNat % 4096) = 12 := by omega
  simp only [fetchDecode, h4, ne_eq, not_true_eq_false, decide_false, trapIf_false, Res.ok_bind, hfirst, hb, if_true,
    Res.pure_eq, List.append_nil, hd]

theorem fetchDecode_illegal {b : List Byte} {e : Illegal} (h4 : (s.ctx c).pc.toNat % 4 = 0)
    (hp : (s.ctx c).pc.toNat % 4096 ≤ 4084) (hb : fetchPart s c (s.ctx c).pc 12 = .ok b)
    (hd : decodeBytes (kindOf c) b = .error e) :
    fetchDecode s c = .error (.trap (illegalTrap e (BitVec.ofNat 32 (ofBytes (b.take 4))))) := by
  have hfirst : min 12 (4096 - (s.ctx c).pc.toNat % 4096) = 12 := by omega
  simp only [fetchDecode, h4, ne_eq, not_true_eq_false, decide_false, trapIf_false, Res.ok_bind, hfirst, hb, if_true,
    Res.pure_eq, List.append_nil, hd]

end

theorem ofBytes_lt (l : List Byte) : ofBytes l < 256 ^ l.length := by
  induction l with
  | nil => exact Nat.one_pos
  | cons b r ih =>
    have hb := b.isLt
    rw [ofBytes, List.length_cons, Nat.pow_succ]
    omega

/-- W2, as an illegal instruction's TRAPVAL holds it (R58). -/
theorem illegalTrap_bytes (e : Illegal) (b : List Byte) :
    illegalTrap e (BitVec.ofNat 32 (ofBytes (b.take 4))) =
      { cause := 0x01, val := BitVec.ofNat 64 (e.reason.toNat * 2 ^ 32 + ofBytes (b.take 4)) } := by
  have hlen : (b.take 4).length ≤ 4 := List.length_take_le ..
  have hlt : ofBytes (b.take 4) < 2 ^ 32 :=
    Nat.lt_of_lt_of_le (ofBytes_lt _) (Nat.pow_le_pow_right (by decide) hlen)
  rw [illegalTrap, BitVec.toNat_ofNat, Nat.mod_eq_of_lt hlt]

section
variable {s : State} {c : Nat}

theorem issue_go {i : Instr} (hc : isContext c = true) (h : fetchInstr { s with cur := c } c = .go i) :
    issue s c = exec i { s with cur := c } := by
  simp only [issue, hc, if_true, h]

theorem issue_done {t : State} (hc : isContext c = true) (h : fetchInstr { s with cur := c } c = .done t) :
    issue s c = .next t := by
  simp only [issue, hc, if_true, h]

/-- The state in which a context named by the agenda takes its turn. -/
def State.turnOf (s : State) (c : Nat) (r : List Turn) : State := { s with agenda := r, writes := [], cur := c }

theorem step_issue {r : List Turn} (h : s.agenda = .issue c :: r) :
    step s = commitOutcome s (issue { s with agenda := r, writes := [] } c) := by
  simp only [step, h]
  rfl

theorem step_go {r : List Turn} {i : Instr} (h : s.agenda = .issue c :: r) (hc : isContext c = true)
    (hf : fetchInstr (s.turnOf c r) c = .go i) : step s = commitOutcome s (exec i (s.turnOf c r)) :=
  (step_issue h).trans (congrArg (commitOutcome s) (issue_go hc hf))

theorem step_done {r : List Turn} {t : State} (h : s.agenda = .issue c :: r) (hc : isContext c = true)
    (hf : fetchInstr (s.turnOf c r) c = .done t) : step s = .next (s.commit t) := by
  rw [step_issue h, issue_done (s := { s with agenda := r, writes := [] }) hc hf]
  rfl

theorem step_unnamed (h : s.agenda = []) :
    step s = commitOutcome s (act (nextTurn { s with writes := [] }) { s with writes := [] }) := by
  unfold step
  dsimp only
  split
  next hr => exact absurd (h.symm.trans hr) (List.cons_ne_nil _ _).symm
  next => rfl

/-- With nothing else able to move, the turn is the acting context's. -/
theorem nextTurn_idle (hu : s.up = true) (hm : ∀ i ∈ candidates s, moves s i = false) : nextTurn s = .issue s.cur := by
  have hnone : (candidates s).find? (moves s) = none :=
    List.find?_eq_none.2 fun i hi => by rw [hm i hi]; exact Bool.false_ne_true
  simp only [nextTurn, hu, Bool.not_true, Bool.false_eq_true, if_false, hnone]

/-! Fetching at custodian level: the address is the physical one (R279, R432). -/

theorem translate_custodian {va : Word} {kind : Nat} (hi : (s.ctx c).ident.custodian = true) (hh : isHbm va.toNat = true) :
    translate s c va kind = .ok (va.toNat, false) := by
  have hr : reachable s (s.ctx c).ident va.toNat = true := by
    unfold isHbm at hh
    unfold reachable
    split at hh
    next hreg => rw [hreg]
    next => exact Bool.noConfusion hh
  simp only [translate, hi, if_true, hr, Bool.not_true, trapIf_false, Res.ok_bind, Res.pure_eq]

theorem placeCheck_hbm {ea : Word} {pa n kind : Nat} {plain : Bool} (hh : isHbm pa = true) :
    placeCheck s ea pa n kind plain = .ok () := by
  unfold isHbm at hh
  unfold placeCheck
  split at hh
  next hreg => rw [hreg]
  next => exact Bool.noConfusion hh

theorem fetchBytes_hbm {pa n : Nat} (hh : isHbm pa = true) : fetchBytes s pa n = homeBytes s pa n := by
  unfold isHbm at hh
  unfold fetchBytes
  split at hh
  next hreg => rw [hreg]
  next => exact Bool.noConfusion hh

theorem fetchPart_custodian {pc : Word} {n : Nat} (hi : (s.ctx c).ident.custodian = true) (hh : isHbm pc.toNat = true)
    (hl : ∀ l ∈ lineAddrs pc.toNat n, readHeld s c l = false ∧ poisoned s l = false ∧
      (s.die (dieOf c)).lost.getLsbD (homeDie s l) = false ∧ sealBad s l = false) :
    fetchPart s c pc n = .ok (homeBytes s pc.toNat n) := by
  have hheld : (lineAddrs pc.toNat n).any (readHeld s c) = false := List.any_eq_false.2 fun l h => by
    rw [(hl l h).1]; exact Bool.false_ne_true
  have hlost : (lineAddrs pc.toNat n).find? (fun l => (s.die (dieOf c)).lost.getLsbD (homeDie s l) || poisoned s l) = none :=
    List.find?_eq_none.2 fun l h => by
      obtain ⟨-, hp, hd, -⟩ := hl l h
      rw [hp, hd]
      exact Bool.false_ne_true
  have hrights : (lineAddrs pc.toNat n).find? (fun l => !homeRights s (s.ctx c).ident l) = none :=
    List.find?_eq_none.2 fun l _ => by
      rw [homeRights, if_pos hi]
      exact Bool.false_ne_true
  have hbad : badLine s (lineAddrs pc.toNat n) = none :=
    List.find?_eq_none.2 fun l h => by rw [(hl l h).2.2.2]; exact Bool.false_ne_true
  simp only [fetchPart, translate_custodian hi hh, Res.ok_bind, placeCheck_hbm hh, hheld, Bool.not_false, ask_true, hlost,
    hrights, hbad, Option.isNone_none, Res.pure_eq, fetchBytes_hbm hh]

end

/-- Settles O3: what `fetchDecode` comes to decides the turn. -/
theorem stepRunsDecoded : Obligations.StepRunsDecoded := by
  unfold Obligations.StepRunsDecoded
  refine ⟨?_, ?_, ?_⟩
  · intro s c r ha hc hrun hpend hreq hvq hspec u
    have hgo : ∀ i, fetchInstr u c = .go i → step s = commitOutcome s (exec i u) := fun i => step_go ha hc
    have hdone : ∀ t, fetchInstr u c = .done t → step s = .next (s.commit t) := fun t => step_done ha hc
    have hctx : u.ctx c = s.ctx c := rfl
    clear_value u
    have hf : Fetches (u.ctx c) := hctx ▸ ⟨hrun, hpend, hreq, hvq, hspec⟩
    rw [← hctx]
    refine ⟨fun b i h4 hp hb hd => ?_, fun b e h4 hp hb hd hs => ?_, fun h4 hs => ?_⟩
    · exact hgo i (fetchInstr_ok hf (fetchDecode_ok h4 hp hb hd))
    · rw [← illegalTrap_bytes]
      exact hdone _ (fetchInstr_trap hf hs (fetchDecode_illegal h4 hp hb hd))
    · exact hdone _ (fetchInstr_trap hf hs (fetchDecode_misaligned h4))
  · intro s c pc hi hh hl
    exact fetchPart_custodian hi hh hl
  · intro s ha hu hm
    rw [step_unnamed ha, nextTurn_idle (s := { s with writes := [] }) hu hm]
    rfl

end Sys2Proof.Machine
end

section
/-! SUPPORT. Instructions that may wait: the words they hold, put back and use (R45 to R48), and the state in which they
complete or leave for an engine (R112, R161). -/

namespace Sys2Proof.Machine

/-! A core's words: what stands in its queues, ports and mailboxes. -/

/-- Two states hold the same words in the queues, ports and mailboxes of a core. -/
def SameWords (k : Nat) (s t : State) : Prop :=
  ∀ i, (t.core k).queue i = (s.core k).queue i ∧ (t.core k).port i = (s.core k).port i ∧ (t.core k).mail i = (s.core k).mail i

theorem SameWords.refl (k : Nat) (s : State) : SameWords k s s := fun _ => ⟨rfl, rfl, rfl⟩

theorem SameWords.trans {k : Nat} {s t u : State} (h : SameWords k s t) (g : SameWords k t u) : SameWords k s u := fun i => by
  obtain ⟨hq, hp, hm⟩ := h i
  obtain ⟨gq, gp, gm⟩ := g i
  exact ⟨gq.trans hq, gp.trans hp, gm.trans hm⟩

theorem Core.queue_set (k : Core) (i j : Nat) (l : List Word) :
    ({ k with queues := Sparse.set k.queues i l } : Core).queue j = if i = j then l else k.queue j := Sparse.get_set ..

theorem Core.port_set (k : Core) (i j : Nat) (l : List Word) :
    ({ k with ports := Sparse.set k.ports i l } : Core).port j = if i = j then l else k.port j := Sparse.get_set ..

theorem Core.mail_set (k : Core) (i j : Nat) (m : Option MsgWord) :
    ({ k with mbox := Sparse.set k.mbox i m } : Core).mail j = if i = j then m else k.mail j := Sparse.get_set ..

/-- What a word put back leaves depends on the words that stand there alone. -/
theorem putOne_sameWords {s t : State} {c : Nat} (h : SameWords (coreOf c) s t) (e : Src × MsgWord) :
    SameWords (coreOf c) (putOne c s e) (putOne c t e) := by
  intro j
  obtain ⟨hq, hp, hm⟩ := h j
  obtain ⟨v, w⟩ := e
  cases v with
  | g i => exact ⟨hq, hp, hm⟩
  | q i =>
    simp only [putOne, State.setCore_core_same]
    refine ⟨?_, hp, hm⟩
    rw [Core.queue_set, Core.queue_set, hq]
    exact congrArg (fun l => if i.toNat = j then w.w :: l else _) (h i.toNat).1
  | n i =>
    simp only [putOne, State.setCore_core_same]
    refine ⟨hq, ?_, hm⟩
    rw [Core.port_set, Core.port_set, hp]
    exact congrArg (fun l => if i.toNat = j then w.w :: l else _) (h i.toNat).2.1
  | m i =>
    have hcore : ∀ s : State, (putOne c s (.m i, w)).core (coreOf c) =
        { s.core (coreOf c) with mbox := Sparse.set (s.core (coreOf c)).mbox i.toNat (some w) } := by
      intro s
      simp only [putOne]
      split
      · exact State.setCore_core_same ..
      · exact State.setCore_core_same ..
    rw [hcore, hcore]
    refine ⟨hq, hp, ?_⟩
    rw [Core.mail_set, Core.mail_set, hm]

theorem putAll_sameWords {c : Nat} (l : List (Src × MsgWord)) : ∀ {s t : State}, SameWords (coreOf c) s t →
    SameWords (coreOf c) (l.foldl (putOne c) s) (l.foldl (putOne c) t) := by
  induction l with
  | nil => exact id
  | cons e l ih => exact fun h => ih (putOne_sameWords h e)

/-- A word just taken, put back, stands where it stood (R47). -/
theorem putOne_pullOne (c : Nat) (p : State) (l : List (Src × MsgWord)) (v : Src) :
    pullOne c (p, l) v = (p, l) ∨
      ∃ p' e, pullOne c (p, l) v = (p', l ++ [e]) ∧ SameWords (coreOf c) p (putOne c p' e) := by
  cases v with
  | g i => exact .inl rfl
  | q i =>
    simp only [pullOne]
    split
    next => exact .inl rfl
    next w r hq =>
      refine .inr ⟨_, _, rfl, fun j => ?_⟩
      simp only [putOne, State.setCore_core_same, Sparse.get_set_same]
      refine ⟨?_, rfl, rfl⟩
      rw [Sparse.set_set, Core.queue_set]
      split
      next h => rw [← h, hq]
      next => rfl
  | n i =>
    simp only [pullOne]
    split
    next => exact .inl rfl
    next w r hq =>
      refine .inr ⟨_, _, rfl, fun j => ?_⟩
      simp only [putOne, State.setCore_core_same, Sparse.get_set_same]
      refine ⟨rfl, ?_, rfl⟩
      rw [Sparse.set_set, Core.port_set]
      split
      next h => rw [← h, hq]
      next => rfl
  | m i =>
    simp only [pullOne]
    split
    next => exact .inl rfl
    split
    next => exact .inl rfl
    next w hw =>
      refine .inr ⟨_, _, rfl, fun j => ?_⟩
      simp only [putOne, State.setCore_core_same, Sparse.get_set_same]
      refine ⟨rfl, rfl, ?_⟩
      rw [Sparse.set_set, Core.mail_set]
      split
      next h => rw [← h, hw]
      next => rfl

/-- Words taken and put back, the last taken first, stand where they stood (R47). -/
theorem putBack_pullAll (c : Nat) (srcs : List Src) : ∀ (p : State) (l : List (Src × MsgWord)),
    SameWords (coreOf c) (l.reverse.foldl (putOne c) p)
      ((srcs.foldl (pullOne c) (p, l)).2.reverse.foldl (putOne c) (srcs.foldl (pullOne c) (p, l)).1) := by
  induction srcs with
  | nil => exact fun p l => .refl _ _
  | cons v r ih =>
    intro p l
    rw [List.foldl_cons]
    rcases putOne_pullOne c p l v with h | ⟨p', e, h, hw⟩
    · rw [h]
      exact ih p l
    · rw [h]
      refine .trans ?_ (ih p' (l ++ [e]))
      rw [List.reverse_append]
      exact putAll_sameWords l.reverse hw

/-! Words taken and not yet used. -/

/-- The mailboxes among some sources, each with its word, as a list of those that have been read gives them. -/
def MailSeen (s : State) (seen : List Src) (got : List (BitVec 5 × Word)) : Prop :=
  ∀ i : BitVec 5, (got.find? fun e => e.1 == i) =
    if Src.m i ∈ seen then some (i, (((s.core (coreOf s.cur)).mail i.toNat).map (·.w)).getD 0) else none

theorem MailSeen.start (s : State) : MailSeen s [] [] := fun _ => by rw [if_neg List.not_mem_nil]; rfl

/-- The state after the words of the sources `seen` were taken out of their registers, in the list `l`. -/
structure Pulled (s p : State) (seen : List Src) (l : List (Src × MsgWord)) : Prop where
  whole : p = { s with cores := p.cores }
  queues : ∀ i : BitVec 3, (p.core (coreOf s.cur)).queue i.toNat =
    ((s.core (coreOf s.cur)).queue i.toNat).drop (times seen (.q i))
  ports : ∀ i : BitVec 2, (p.core (coreOf s.cur)).port i.toNat =
    ((s.core (coreOf s.cur)).port i.toNat).drop (times seen (.n i))
  mail : ∀ i : BitVec 5, (p.core (coreOf s.cur)).mail i.toNat =
    if Src.m i ∈ seen then none else (s.core (coreOf s.cur)).mail i.toNat
  core : p.core (coreOf s.cur) = { s.core (coreOf s.cur) with
    queues := (p.core (coreOf s.cur)).queues, ports := (p.core (coreOf s.cur)).ports, mbox := (p.core (coreOf s.cur)).mbox }
  cores : ∀ j, j ≠ coreOf s.cur → p.core j = s.core j
  taken : ∀ i : BitVec 5, (l.any fun e => e.1 == Src.m i) = decide (Src.m i ∈ seen)
  portsUsed : portMarks (l.map (·.1)) = portMarks seen
  mailUsed : mailMarks (l.map (·.1)) = mailMarks seen

theorem Pulled.start (s : State) : Pulled s s [] [] where
  whole := rfl
  queues _ := rfl
  ports _ := rfl
  mail _ := rfl
  core := rfl
  cores _ _ := rfl
  taken _ := rfl
  portsUsed := rfl
  mailUsed := rfl

/-- A mailbox named before adds no mark (R48, R239). -/
theorem mailMarks_of_mem {i : BitVec 5} {l : List Src} (h : Src.m i ∈ l) : mailMarks l ||| 1 <<< i.toNat = mailMarks l := by
  induction l using List.reverseRecOn with
  | nil => nomatch h
  | append_singleton l a ih =>
    rw [mailMarks_append]
    rcases List.mem_append.1 h with hl | ha
    · cases a with
      | m j => rw [BitVec.or_assoc, BitVec.or_comm (1 <<< _), ← BitVec.or_assoc, ih hl]
      | _ => exact ih hl
    · rw [← List.mem_singleton.1 ha, BitVec.or_assoc, BitVec.or_self]

section
variable {s p : State} {seen : List Src} {l : List (Src × MsgWord)} {got : List (BitVec 5 × Word)}

theorem MailSeen.plain (h : MailSeen s seen got) {v : Src} (hv : ∀ i, v ≠ .m i) : MailSeen s (seen ++ [v]) got := fun i => by
  rw [h i]
  exact if_congr (by simp [(hv i).symm]) rfl rfl

/-- A general register is no word of the core's. -/
theorem Pulled.reg (h : Pulled s p seen l) (i : BitVec 6) : Pulled s p (seen ++ [.g i]) l where
  whole := h.whole
  queues j := by rw [times_append]; exact h.queues j
  ports j := by rw [times_append]; exact h.ports j
  mail j := by rw [h.mail j]; simp
  core := h.core
  cores := h.cores
  taken j := by rw [h.taken j]; simp
  portsUsed := by rw [portMarks_append]; exact h.portsUsed
  mailUsed := by rw [mailMarks_append]; exact h.mailUsed

/-- A mailbox named again gives its word again (R48). -/
theorem Pulled.again (h : Pulled s p seen l) {i : BitVec 5} (hi : Src.m i ∈ seen) : Pulled s p (seen ++ [.m i]) l where
  whole := h.whole
  queues j := by rw [times_append]; exact h.queues j
  ports j := by rw [times_append]; exact h.ports j
  mail j := by
    rw [h.mail j]
    refine if_congr ⟨List.mem_append_left _, fun hj => ?_⟩ rfl rfl
    rcases List.mem_append.1 hj with hj | hj
    · exact hj
    · rw [List.mem_singleton.1 hj]; exact hi
  core := h.core
  cores := h.cores
  taken j := by
    rw [h.taken j]
    refine decide_eq_decide.2 ⟨List.mem_append_left _, fun hj => ?_⟩
    rcases List.mem_append.1 hj with hj | hj
    · exact hj
    · rw [List.mem_singleton.1 hj]; exact hi
  portsUsed := by rw [portMarks_append]; exact h.portsUsed
  mailUsed := by rw [mailMarks_append]; exact h.mailUsed.trans (mailMarks_of_mem hi).symm

theorem Pulled.queue (h : Pulled s p seen l) (i : BitVec 3) (w : MsgWord) : Pulled s
    (p.setCore (coreOf s.cur) { p.core (coreOf s.cur) with
      queues := Sparse.set (p.core (coreOf s.cur)).queues i.toNat (((s.core (coreOf s.cur)).queue i.toNat).drop (times seen (.q i) + 1)) })
    (seen ++ [.q i]) (l ++ [(.q i, w)]) where
  whole := by conv_lhs => rw [h.whole]
              rfl
  queues j := by
    rw [State.setCore_core_same, Core.queue_set, times_append, h.queues j]
    by_cases hj : i = j
    · subst hj; simp
    · rw [if_neg fun e => hj (BitVec.toNat_inj.1 e), if_neg fun e => hj (Src.q.inj e)]
      rfl
  ports j := by rw [State.setCore_core_same, times_append]; exact h.ports j
  mail j := by rw [State.setCore_core_same]; exact (h.mail j).trans (by simp)
  core := by rw [State.setCore_core_same]; conv_lhs => rw [h.core]
  cores j hj := by rw [State.setCore_core_ne _ _ _ _ (Ne.symm hj)]; exact h.cores j hj
  taken j := by rw [List.any_append, h.taken j]; simp
  portsUsed := by rw [List.map_append, List.map_singleton, portMarks_append, portMarks_append]; exact h.portsUsed
  mailUsed := by rw [List.map_append, List.map_singleton, mailMarks_append, mailMarks_append]; exact h.mailUsed

theorem Pulled.port (h : Pulled s p seen l) (i : BitVec 2) (w : MsgWord) : Pulled s
    (p.setCore (coreOf s.cur) { p.core (coreOf s.cur) with
      ports := Sparse.set (p.core (coreOf s.cur)).ports i.toNat (((s.core (coreOf s.cur)).port i.toNat).drop (times seen (.n i) + 1)) })
    (seen ++ [.n i]) (l ++ [(.n i, w)]) where
  whole := by conv_lhs => rw [h.whole]
              rfl
  queues j := by rw [State.setCore_core_same, times_append]; exact h.queues j
  ports j := by
    rw [State.setCore_core_same, Core.port_set, times_append, h.ports j]
    by_cases hj : i = j
    · subst hj; simp
    · rw [if_neg fun e => hj (BitVec.toNat_inj.1 e), if_neg fun e => hj (Src.n.inj e)]
      rfl
  mail j := by rw [State.setCore_core_same]; exact (h.mail j).trans (by simp)
  core := by rw [State.setCore_core_same]; conv_lhs => rw [h.core]
  cores j hj := by rw [State.setCore_core_ne _ _ _ _ (Ne.symm hj)]; exact h.cores j hj
  taken j := by rw [List.any_append, h.taken j]; simp
  portsUsed := by
    rw [List.map_append, List.map_singleton, portMarks_append, portMarks_append]
    exact congrArg (· ||| _) h.portsUsed
  mailUsed := by rw [List.map_append, List.map_singleton, mailMarks_append, mailMarks_append]; exact h.mailUsed

theorem Pulled.mbox (h : Pulled s p seen l) (i : BitVec 5) (w : MsgWord) : Pulled s
    (p.setCore (coreOf s.cur) { p.core (coreOf s.cur) with mbox := Sparse.set (p.core (coreOf s.cur)).mbox i.toNat none })
    (seen ++ [.m i]) (l ++ [(.m i, w)]) where
  whole := by conv_lhs => rw [h.whole]
              rfl
  queues j := by rw [State.setCore_core_same, times_append]; exact h.queues j
  ports j := by rw [State.setCore_core_same, times_append]; exact h.ports j
  mail j := by
    rw [State.setCore_core_same, Core.mail_set, h.mail j]
    by_cases hj : i = j
    · subst hj; simp
    · rw [if_neg fun e => hj (BitVec.toNat_inj.1 e)]
      exact if_congr (by simp [Ne.symm hj]) rfl rfl
  core := by rw [State.setCore_core_same]; conv_lhs => rw [h.core]
  cores j hj := by rw [State.setCore_core_ne _ _ _ _ (Ne.symm hj)]; exact h.cores j hj
  taken j := by
    rw [List.any_append, h.taken j]
    by_cases hj : i = j
    · subst hj; simp
    · have hne : Src.m i ≠ Src.m j := fun e => hj (Src.m.inj e)
      simp [hne.symm, beq_eq_false_iff_ne.2 hne]
  portsUsed := by rw [List.map_append, List.map_singleton, portMarks_append, portMarks_append]; exact h.portsUsed
  mailUsed := by
    rw [List.map_append, List.map_singleton, mailMarks_append, mailMarks_append]
    exact congrArg (· ||| _) h.mailUsed

/-- One word is taken, and, among the words of the list, it is the source's. -/
theorem pullOne_spec (h : Pulled s p seen l) (hg : MailSeen s seen got) (v : Src) (ht : Takable s seen v) :
    ∃ p' new got', pullOne s.cur (p, l) v = (p', l ++ new) ∧ Pulled s p' (seen ++ [v]) (l ++ new) ∧
      MailSeen s (seen ++ [v]) got' ∧ ∀ r ws, mergeWords (s.ctx s.cur) (v :: r) (new.map (·.2.w) ++ ws) got =
        srcWord s seen v :: mergeWords (s.ctx s.cur) r ws got' := by
  cases v with
  | g i =>
    refine ⟨p, [], got, ?_, ?_, hg.plain nofun, fun _ _ => rfl⟩ <;> rw [List.append_nil]
    · rfl
    · exact h.reg i
  | q i =>
    have hq := h.queues i
    rw [drop_eq_cons _ _ ht 0] at hq
    refine ⟨_, [(.q i, { w := srcWord s seen (.q i) })], got, ?_, h.queue i _, hg.plain nofun, fun _ _ => rfl⟩
    simp only [pullOne, hq]
    rfl
  | n i =>
    have hq := h.ports i
    rw [drop_eq_cons _ _ ht 0] at hq
    refine ⟨_, [(.n i, { w := srcWord s seen (.n i) })], got, ?_, h.port i _, hg.plain nofun, fun _ _ => rfl⟩
    simp only [pullOne, hq]
    rfl
  | m i =>
    have htaken := h.taken i
    have hmail := h.mail i
    have hseen := hg i
    by_cases hi : Src.m i ∈ seen
    · rw [decide_eq_true hi] at htaken
      rw [if_pos hi] at hseen
      refine ⟨p, [], got, ?_, ?_, fun j => ?_, fun r ws => ?_⟩
      · simp only [pullOne, htaken, if_true, List.append_nil]
      · rw [List.append_nil]
        exact h.again hi
      · rw [hg j]
        refine if_congr ⟨List.mem_append_left _, fun hj => ?_⟩ rfl rfl
        rcases List.mem_append.1 hj with hj | hj
        · exact hj
        · rw [List.mem_singleton.1 hj]; exact hi
      · simp only [List.map_nil, List.nil_append, mergeWords, hseen, srcWord]
    · rw [decide_eq_false hi] at htaken
      rw [if_neg hi] at hmail hseen
      obtain ⟨w, hw⟩ := Option.isSome_iff_exists.1 ht
      rw [hw] at hmail
      refine ⟨_, [(.m i, w)], (i, w.w) :: got, ?_, h.mbox i w, fun j => ?_, fun r ws => ?_⟩
      · simp only [pullOne, htaken, Bool.false_eq_true, if_false, hmail]
      · by_cases hj : i = j
        · subst hj; simp [hw]
        · simp [hj, Ne.symm hj, hg j]
      · simp only [List.map_cons, List.map_nil, List.cons_append, List.nil_append, mergeWords, hseen, srcWord, hw,
          Option.map_some, Option.getD_some]

/-- The words of some sources are taken, and the list gives each source its word. -/
theorem pullAll_spec (srcs : List Src) : ∀ {p : State} {seen : List Src} {l : List (Src × MsgWord)} {got : List (BitVec 5 × Word)},
    Pulled s p seen l → MailSeen s seen got → (∀ a v b, srcs = a ++ v :: b → Takable s (seen ++ a) v) →
    ∃ p' new, srcs.foldl (pullOne s.cur) (p, l) = (p', l ++ new) ∧ Pulled s p' (seen ++ srcs) (l ++ new) ∧
      mergeWords (s.ctx s.cur) srcs (new.map (·.2.w)) got = srcWords s seen srcs := by
  induction srcs with
  | nil => exact fun h _ _ => ⟨_, [], by rw [List.append_nil]; rfl, by simpa using h, rfl⟩
  | cons v r ih =>
    intro p seen l got h hg ht
    obtain ⟨p₁, new₁, got₁, he₁, h₁, hg₁, hw₁⟩ := pullOne_spec h hg v (by simpa using ht [] v r rfl)
    obtain ⟨p₂, new₂, he₂, h₂, hw₂⟩ := ih h₁ hg₁ fun a w b e => by simpa using ht (v :: a) w b (by rw [e]; rfl)
    refine ⟨p₂, new₁ ++ new₂, ?_, by simpa using h₂, ?_⟩
    · rw [List.foldl_cons, he₁, he₂, List.append_assoc]
    · rw [List.map_append, hw₁, hw₂]
      rfl

end

/-! Words held: an instruction that waits on with them. -/

theorem blocking_weaken {srcs : List Src} (d : Option Dst) (h : blocking srcs none = true) : blocking srcs d = true := by
  rw [blocking]
  exact Bool.or_eq_true_iff.2 (.inl ((Bool.or_false _).symm.trans h))

/-- Sources none of which blocks are general registers. -/
theorem plain_reg {srcs : List Src} (h : blocking srcs none = false) {v : Src} (hv : v ∈ srcs) : ∃ i, v = .g i := by
  have hreg := List.any_eq_false.1 (Bool.or_eq_false_iff.1 h).1 v hv
  cases v with
  | g i => exact ⟨i, rfl⟩
  | _ => exact absurd rfl hreg

theorem plain_times {srcs : List Src} (h : blocking srcs none = false) {v : Src} (hv : ∀ i, v ≠ .g i) : times srcs v = 0 := by
  rw [times, List.length_eq_zero_iff, List.filter_eq_nil_iff]
  intro a ha he
  obtain ⟨i, rfl⟩ := plain_reg h ha
  exact hv i (eq_of_beq he).symm

theorem Ready.plain {s : State} {srcs : List Src} {d : Option Dst} (h : Ready s srcs d) (hb : blocking srcs none = false) :
    Ready s srcs none :=
  ⟨h.known, rfl, fun hn => Bool.noConfusion (hb.symm.trans hn), nofun, h.untimed⟩

theorem Consumed.none_read (s : State) (w : Word) : Consumed s s [] none w where
  queues _ := (List.append_nil _).symm
  ports _ := rfl
  mail _ := rfl

theorem Consumed.plain {s t : State} {srcs : List Src} {w : Word} (hb : blocking srcs none = false)
    (h : SameWords (coreOf s.cur) s t) : Consumed s t srcs none w where
  queues i := by rw [plain_times hb (fun _ => Src.noConfusion), if_neg nofun, List.append_nil]; exact (h i.toNat).1
  ports i := by rw [plain_times hb (fun _ => Src.noConfusion)]; exact (h i.toNat).2.1
  mail i := by
    rw [if_neg fun hi => (plain_reg hb hi).elim fun _ => Src.noConfusion]
    exact (h i.toNat).2.2

section
variable {s : State} {srcs : List Src} {d : Option Dst} {l : List (Src × MsgWord)}

theorem State.words_held (h : (s.ctx s.cur).held = some l) :
    s.words srcs = mergeWords (s.ctx s.cur) srcs (l.map (·.2.w)) [] := by rw [State.words, h]

theorem State.words_fresh (h : (s.ctx s.cur).held = none) : s.words srcs = srcWords s [] srcs := by rw [State.words, h]

theorem holdWords_held (h : (s.ctx s.cur).held = some l) : holdWords s s.cur srcs d = .ok (s.words srcs, s) := by
  rw [State.words_held h, holdWords, h]

theorem replaying_lone (h : Lone s) : replaying s s.cur = false := by simp only [replaying, h.replay]

theorem bridleLogged_lone (h : Lone s) (n : Nat) : bridleLogged s s.cur n = none := by simp only [bridleLogged, h.pair]

theorem holdWords_plain (hn : (s.ctx s.cur).held = none) (hr : Ready s srcs d) (hb : blocking srcs none = false) :
    holdWords s s.cur srcs d = .ok (s.words srcs, s) := by
  obtain ⟨u, -, hu⟩ := sources_ready hr
  simp only [holdWords, hn, hu, Res.ok_bind, hb, Bool.not_false, Bool.true_or, if_true, Res.pure_eq, State.words_fresh hn]

/-- An instruction that waits keeps the words of its queues, ports and mailboxes (R45). -/
theorem holdWords_pulls (hn : (s.ctx s.cur).held = none) (hl : Lone s) (hr : Ready s srcs d) (hb : blocking srcs none = true) :
    ∃ p l, srcs.foldl (pullOne s.cur) (s, []) = (p, l) ∧ Pulled s p srcs l ∧
      mergeWords (s.ctx s.cur) srcs (l.map (·.2.w)) [] = s.words srcs ∧
      holdWords s s.cur srcs d = .ok (s.words srcs, p.modCtx s.cur fun x => { x with held := some l }) := by
  obtain ⟨u, -, hu⟩ := sources_ready hr
  obtain ⟨-, hop, -⟩ := hr.there (blocking_weaken d hb)
  obtain ⟨p, l, hp, hpull, hw⟩ := pullAll_spec srcs (.start s) (MailSeen.start s) (takable_of_ready hop)
  rw [List.nil_append] at hp hpull
  refine ⟨p, l, hp, hpull, by rw [hw, State.words_fresh hn], ?_⟩
  simp only [holdWords, hn, hu, Res.ok_bind, hb, Bool.not_true, replaying_lone hl, bridleLogged_lone hl, Option.isSome_none,
    Bool.or_self, Bool.false_eq_true, if_false, hp, Res.pure_eq, State.words_fresh hn]

theorem kept_held (h : (s.ctx s.cur).held = some l) : Kept s s srcs where
  whole := rfl
  own := rfl
  held := by rw [h]; rfl
  words := rfl
  consumed := by rw [State.taking, h]; exact .none_read s 0
  core := rfl
  cores _ _ := rfl
  others _ _ := rfl
  back _ := ⟨rfl, rfl, rfl⟩

theorem kept_plain (hn : (s.ctx s.cur).held = none) (hb : blocking srcs none = false) : Kept s s srcs where
  whole := rfl
  own := rfl
  held := by rw [hn, hb]; rfl
  words := rfl
  consumed := by rw [State.taking, hn]; exact .plain hb (.refl _ s)
  core := rfl
  cores _ _ := rfl
  others _ _ := rfl
  back _ := ⟨rfl, rfl, rfl⟩

/-- The words of a list stand where the list's own context put them. -/
theorem mergeWords_held (x : Context) (m : Option (List (Src × MsgWord))) (srcs : List Src) :
    ∀ ws got, mergeWords { x with held := m } srcs ws got = mergeWords x srcs ws got := by
  induction srcs with
  | nil => exact fun _ _ => rfl
  | cons v r ih =>
    intro ws got
    cases v <;> cases ws <;> simp only [mergeWords, ih] <;> rfl

theorem kept_pulled {p : State} (hn : (s.ctx s.cur).held = none) (hb : blocking srcs none = true)
    (he : srcs.foldl (pullOne s.cur) (s, []) = (p, l)) (hp : Pulled s p srcs l)
    (hw : mergeWords (s.ctx s.cur) srcs (l.map (·.2.w)) [] = s.words srcs) :
    Kept s (p.modCtx s.cur fun x => { x with held := some l }) srcs := by
  have hback := putBack_pullAll s.cur srcs s []
  rw [he] at hback
  obtain ⟨K, rfl⟩ : ∃ K, p = { s with cores := K } := ⟨_, hp.whole⟩
  generalize hk : State.modCtx { s with cores := K } s.cur (fun x => { x with held := some l }) = k
  have hown : k.ctx s.cur = { s.ctx s.cur with held := some l } := by rw [← hk, State.modCtx_ctx_same]; rfl
  have hcur : k.cur = s.cur := by rw [← hk]; rfl
  have hcore : ∀ j, k.core j = ({ s with cores := K } : State).core j := fun j => by rw [← hk]; rfl
  have hgive : giveBack k s.cur = l.reverse.foldl (putOne s.cur) (k.modCtx s.cur fun x => { x with held := none }) := by
    rw [giveBack, hown]
  exact {
    whole := by rw [← hk]; rfl
    own := by rw [hown]
    held := by rw [hown, hb, Bool.or_true]; rfl
    words := by rw [State.words, hcur, hown]; exact (mergeWords_held ..).trans hw
    consumed := by
      rw [State.taking, hn]
      refine ⟨fun i => ?_, fun i => ?_, fun i => ?_⟩
      · rw [hcore]; simpa using hp.queues i
      · rw [hcore]; exact hp.ports i
      · rw [hcore]; exact hp.mail i
    core := by rw [hcore]; exact hp.core
    cores := fun j hj => by rw [hcore]; exact hp.cores j hj
    others := fun e he => by rw [← hk, State.modCtx_ctx_ne _ _ _ _ (Ne.symm he)]; rfl
    back := by
      rw [show giveBack s s.cur = s by rw [giveBack, hn], hgive]
      exact hback.trans (putAll_sameWords l.reverse fun j => by rw [State.modCtx_at_core, hcore]; exact ⟨rfl, rfl, rfl⟩) }

end

/-! Words used: the instruction retires with them. -/

/-- The use of the words of some sources has been marked at a context, and nothing else done (R239, R407). -/
structure Recorded (s t : State) (c : Nat) (used : List Src) : Prop where
  whole : t = { s with ctxs := t.ctxs }
  own : t.ctx c = { s.ctx c with
    pmask := (s.ctx c).pmask ||| portMarks used, mbxmask := (s.ctx c).mbxmask ||| mailMarks used }
  others : ∀ e, e ≠ c → t.ctx e = s.ctx e

theorem Recorded.start (s : State) (c : Nat) : Recorded s s c [] := by
  refine ⟨rfl, ?_, fun _ _ => rfl⟩
  show s.ctx c = { s.ctx c with pmask := (s.ctx c).pmask ||| 0#4, mbxmask := (s.ctx c).mbxmask ||| 0#32 }
  rw [BitVec.or_zero, BitVec.or_zero]

theorem Recorded.replay {s t : State} {c : Nat} {used : List Src} (h : Recorded s t c used) : replayOf t c = replayOf s c :=
  replayOf_congr (by rw [h.whole]) (by rw [h.own]) (by rw [h.own]) (by rw [h.own])

theorem Recorded.die {s t : State} {c : Nat} {used : List Src} (h : Recorded s t c used) (j : Nat) : t.die j = s.die j := by
  rw [h.whole]
  rfl

/-- Off a replay, and with message timing off, the use of a word marks its port or its mailbox and does nothing else. -/
theorem recordUse_spec {s t : State} {c : Nat} {used : List Src} (h : Recorded s t c used) (hr : replayOf s c = none)
    (e : Src × MsgWord) (hm : (∀ i, e.1 ≠ .m i) ∨ (s.die (coreDie (coreOf c))).msgt.getLsbD 63 = false) :
    Recorded s (recordUse c t e) c (used ++ [e.1]) := by
  have hreplay : ∀ f : Context → Context, (f (t.ctx c)).task = (t.ctx c).task → (f (t.ctx c)).level = (t.ctx c).level →
      (f (t.ctx c)).ident = (t.ctx c).ident → replayOf (t.modCtx c f) c = none := fun f h1 h2 h3 =>
    replayOf_keep (h.replay.trans hr) rfl (by rw [State.modCtx_ctx_same, h1]) (by rw [State.modCtx_ctx_same, h2])
      (by rw [State.modCtx_ctx_same, h3])
  have hmod : ∀ f : Context → Context, t.modCtx c f = { s with ctxs := (t.modCtx c f).ctxs } := fun f => by
    obtain ⟨C, rfl⟩ : ∃ C, t = { s with ctxs := C } := ⟨_, h.whole⟩
    rfl
  obtain ⟨v, w⟩ := e
  cases v with
  | g i => exact ⟨h.whole, by rw [portMarks_append, mailMarks_append]; exact h.own, h.others⟩
  | q i =>
    simp only [recordUse]
    rw [capture_none (h.replay.trans hr)]
    exact ⟨h.whole, by rw [portMarks_append, mailMarks_append]; exact h.own, h.others⟩
  | n i =>
    simp only [recordUse]
    rw [capture_none (hreplay _ rfl rfl rfl)]
    refine ⟨hmod _, ?_, fun k hk => ?_⟩
    · rw [State.modCtx_ctx_same, h.own, portMarks_append, mailMarks_append, ← BitVec.or_assoc]
    · rw [State.modCtx_ctx_ne _ _ _ _ (Ne.symm hk)]
      exact h.others k hk
  | m i =>
    have hoff := hm.resolve_left fun f => f i rfl
    simp only [recordUse]
    rw [messageTimes_off (by rw [State.modCtx_at_die, h.die]; exact hoff), capture_none (hreplay _ rfl rfl rfl)]
    refine ⟨hmod _, ?_, fun k hk => ?_⟩
    · rw [State.modCtx_ctx_same, h.own, portMarks_append, mailMarks_append, ← BitVec.or_assoc]
    · rw [State.modCtx_ctx_ne _ _ _ _ (Ne.symm hk)]
      exact h.others k hk

theorem recordAll_spec {s : State} {c : Nat} (hr : replayOf s c = none) (l : List (Src × MsgWord))
    (hm : (∀ i, Src.m i ∉ l.map (·.1)) ∨ (s.die (coreDie (coreOf c))).msgt.getLsbD 63 = false) :
    ∀ {t : State} {used : List Src}, Recorded s t c used → Recorded s (l.foldl (recordUse c) t) c (used ++ l.map (·.1)) := by
  induction l with
  | nil => exact fun h => by simpa using h
  | cons e l ih =>
    intro t used h
    have he := recordUse_spec h hr e (hm.imp (fun f i hi => f i (by simp [hi])) id)
    have hl := ih (hm.imp (fun f i hi => f i (List.mem_cons_of_mem _ hi)) id) he
    simpa using hl

/-- A change that leaves a core as it is changes no core. -/
theorem modCore_id {s : State} {k : Nat} {f : Core → Core} (h : f (s.core k) = s.core k) (j : Nat) :
    (s.modCore k f).core j = s.core j := by
  by_cases hj : j = k
  · rw [hj, State.modCore_core_same, h]
  · rw [State.modCore_core_ne _ _ _ _ (Ne.symm hj)]

/-- Off a pair, what is done to a core's pair does nothing. -/
theorem bridle_map_none {k : Core} (h : k.bridle = none) (f : Bridle → Bridle) : { k with bridle := k.bridle.map f } = k := by
  rw [h, Option.map_none, ← h]

section
variable {s : State} {srcs : List Src} {d : Option Dst} {l : List (Src × MsgWord)}

/-- The words that a waiting instruction has held are used (R45, R239). -/
structure HeldUsed (s u : State) (used : List Src) : Prop where
  whole : u = { s with ctxs := u.ctxs, cores := u.cores }
  own : u.ctx s.cur = { s.ctx s.cur with
    held := none, pmask := (s.ctx s.cur).pmask ||| portMarks used, mbxmask := (s.ctx s.cur).mbxmask ||| mailMarks used }
  others : ∀ e, e ≠ s.cur → u.ctx e = s.ctx e
  cores : ∀ j, u.core j = s.core j

theorem useWords_held (hl : Lone s) (h : (s.ctx s.cur).held = some l)
    (hm : (∀ i, Src.m i ∉ l.map (·.1)) ∨ (s.die (coreDie (coreOf s.cur))).msgt.getLsbD 63 = false) :
    ∃ u, useWords s s.cur srcs = .ok u ∧ HeldUsed s u (l.map (·.1)) := by
  generalize hb : (s.modCtx s.cur fun x => { x with held := none }) = b
  have hown : b.ctx s.cur = { s.ctx s.cur with held := none } := by rw [← hb, State.modCtx_ctx_same]
  have hrep : replayOf b s.cur = none :=
    replayOf_keep hl.replay (by rw [← hb]; rfl) (by rw [hown]) (by rw [hown]) (by rw [hown])
  have hrec := recordAll_spec hrep l (hm.imp_right fun hoff => by rw [← hb]; exact hoff) (.start b s.cur)
  refine ⟨_, by rw [useWords, h], ?_⟩
  rw [hb]
  rw [List.nil_append] at hrec
  generalize l.foldl (recordUse s.cur) b = t at hrec
  have hcores : ∀ j, t.core j = s.core j := fun j => by rw [hrec.whole, ← hb]; rfl
  have hpair : (t.core (coreOf s.cur)).bridle = none := by rw [hcores]; exact hl.pair
  refine ⟨?_, ?_, fun e he => ?_, fun j => ?_⟩
  · rw [State.modCore, hrec.whole, ← hb]; rfl
  · rw [State.modCore_at_ctx, hrec.own, hown]
  · rw [State.modCore_at_ctx, hrec.others e he, ← hb, State.modCtx_ctx_ne _ _ _ _ (Ne.symm he)]
  · rw [modCore_id (bridle_map_none hpair _), hcores]

theorem Lone.of_held {s t : State} (h : Lone s) (hc : t.cur = s.cur) (hp : t.parts = s.parts)
    (hk : (t.core (coreOf s.cur)).bridle = (s.core (coreOf s.cur)).bridle)
    (ho : t.ctx s.cur = { s.ctx s.cur with held := (t.ctx s.cur).held }) : Lone t where
  pair := by rw [hc, hk]; exact h.pair
  replay := by rw [hc]; exact replayOf_keep h.replay hp (by rw [ho]) (by rw [ho]) (by rw [ho])

theorem Kept.lone {s u : State} (hk : Kept s u srcs) (h : Lone s) : Lone u :=
  h.of_held (by rw [hk.whole]) (by rw [hk.whole]) (by rw [hk.core]) hk.own

theorem used_held (h : (s.ctx s.cur).held = some l) {u : State} (hu : HeldUsed s u (l.map (·.1))) : Used s u srcs where
  whole := hu.whole
  own := by rw [State.sourced, h]; exact hu.own
  consumed := by
    rw [State.taking, h]
    exact ⟨fun i => by rw [hu.cores]; exact (Consumed.none_read s 0).queues i, fun i => by rw [hu.cores]; rfl,
      fun i => by rw [hu.cores]; rfl⟩
  core := by rw [hu.cores]
  cores j _ := hu.cores j
  others := hu.others

theorem used_plain (hn : (s.ctx s.cur).held = none) {u : State} {got : List (BitVec 5 × Word)} (h : Reading s u got srcs) :
    Used s u srcs where
  whole := h.whole
  own := by
    have hown := h.own
    rw [State.sourced, hn, hown]
    simp only [← hn]
  consumed := by
    rw [State.taking, hn]
    exact ⟨fun i => by simpa using h.queues i, h.ports, h.mail⟩
  core := h.core
  cores := h.cores
  others := h.others

theorem used_pulled {k u : State} (hn : (s.ctx s.cur).held = none) (hk : Kept s k srcs)
    (hports : portMarks (l.map (·.1)) = portMarks srcs) (hmail : mailMarks (l.map (·.1)) = mailMarks srcs)
    (hu : HeldUsed k u (l.map (·.1))) : Used s u srcs := by
  have hcur : k.cur = s.cur := by rw [hk.whole]
  obtain ⟨hwhole, hown, hothers, hcores⟩ := hu
  rw [hcur] at hown hothers
  refine ⟨?_, ?_, ?_, ?_, fun j hj => ?_, fun e he => ?_⟩
  · rw [hwhole, hk.whole]
  · rw [hown, hports, hmail, State.sourced, hn, hk.own]
  · exact ⟨fun i => by rw [hcores]; exact hk.consumed.queues i, fun i => by rw [hcores]; exact hk.consumed.ports i,
      fun i => by rw [hcores]; exact hk.consumed.mail i⟩
  · rw [hcores]; exact hk.core
  · rw [hcores]; exact hk.cores j hj
  · rw [hothers e he]; exact hk.others e he

/-- An instruction that may wait and has its words, or takes them now: the words it has, the state it waits on in, and the
state in which it has used them. -/
theorem Has.words_used (h : Has s srcs d) : ∃ k, holdWords s s.cur srcs d = .ok (s.words srcs, k) ∧ Kept s k srcs ∧
    useWords k s.cur srcs = .ok (s.used srcs d) ∧ Used s (s.used srcs d) srcs ∧
    ((s.ctx s.cur).held.isSome = true ∨ blocking srcs none = false → k = s) := by
  have hused : ∀ {k u : State} {ws : List Word}, holdWords s s.cur srcs d = .ok (ws, k) → useWords k s.cur srcs = .ok u →
      s.used srcs d = u := by
    intro k u ws hk hu
    simp only [State.used, hk, Res.ok_bind, hu]
  cases hh : (s.ctx s.cur).held with
  | some l =>
    obtain ⟨u, hu, hrec⟩ := useWords_held (srcs := srcs) h.lone hh (h.untimed.imp_left fun f => f l hh)
    have hk := holdWords_held (srcs := srcs) (d := d) hh
    rw [hused hk hu]
    exact ⟨s, hk, kept_held hh, hu, used_held hh hrec, fun _ => rfl⟩
  | none =>
    have hr := h.there.resolve_left (by rw [hh]; nofun)
    cases hb : blocking srcs none with
    | false =>
      obtain ⟨u, ⟨got, hread⟩, hu⟩ := sources_ready (hr.plain hb)
      have hk := holdWords_plain hh hr hb
      have huse : useWords s s.cur srcs = .ok u := by simp only [useWords, hh, hu, Res.ok_bind, Res.pure_eq]
      rw [hused hk huse]
      exact ⟨s, hk, kept_plain hh hb, huse, used_plain hh hread, fun _ => rfl⟩
    | true =>
      obtain ⟨p, l, he, hp, hw, hk⟩ := holdWords_pulls hh h.lone hr hb
      have hkept := kept_pulled hh hb he hp hw
      have hheld : ((p.modCtx s.cur fun x => { x with held := some l }).ctx s.cur).held = some l := by
        rw [State.modCtx_ctx_same]
      generalize (p.modCtx s.cur fun x => { x with held := some l }) = k at hk hkept hheld
      have hcur : k.cur = s.cur := by rw [hkept.whole]
      have hdie : ∀ j, k.die j = s.die j := fun j => by rw [hkept.whole]; rfl
      have hm : (∀ i, Src.m i ∉ l.map (·.1)) ∨ (k.die (coreDie (coreOf k.cur))).msgt.getLsbD 63 = false := by
        rw [hcur, hdie]
        refine hr.untimed.imp_left fun f i hi => f i ?_
        obtain ⟨e, he, hei⟩ := List.mem_map.1 hi
        exact of_decide_eq_true ((hp.taken i).symm.trans (List.any_eq_true.2 ⟨e, he, beq_of_eq hei⟩))
      rw [← hcur] at hheld
      obtain ⟨u, hu, hrec⟩ := useWords_held (srcs := srcs) (hkept.lone h.lone) hheld hm
      rw [hcur] at hu
      rw [hused hk hu]
      exact ⟨k, hk, hkept, hu, used_pulled hh hkept hp.portsUsed hp.mailUsed hrec, by simp⟩

end

/-! Completing: the destination's room, the word delivered, the next checkpoint interval (R44, R45, R161). -/

section
variable {s u : State} {srcs : List Src} {d : Option Dst}

theorem Used.cur (h : Used s u srcs) : u.cur = s.cur := by rw [h.whole]

theorem Used.pair (h : Used s u srcs) (hl : Lone s) : (u.core (coreOf s.cur)).bridle = none := by
  rw [h.core]
  exact hl.pair

/-- Using words leaves no core more words in a port. -/
theorem Used.port_length (h : Used s u srcs) (k : Nat) {n : Nat} (hn : n < 4) :
    ((u.core k).port n).length ≤ ((s.core k).port n).length := by
  by_cases hk : k = coreOf s.cur
  · have hp := h.consumed.ports (BitVec.ofNat 2 n)
    rw [BitVec.toNat_ofNat, Nat.mod_eq_of_lt hn] at hp
    rw [hk, hp, List.length_drop]
    exact Nat.sub_le ..
  · rw [h.cores k hk]

theorem neighbour_port_lt (k n : Nat) : (neighbour k n).2 < 4 := by
  unfold neighbour
  dsimp only
  split <;> simp

/-- The room a port's word needs at the neighbour. -/
theorem Used.port_room (h : Used s u srcs) {i : BitVec 2} {l : List Src}
    (hr : operandsReady s s.cur l (some (.n i)) = true) : operandsReady u s.cur [] (some (.n i)) = true := by
  have hm : meshCore u s.cur = meshCore s s.cur := by simp only [meshCore, h.own]
  have hf : ∀ k r, inFlight u k r = inFlight s k r := fun k r => by rw [inFlight, h.whole, inFlight]
  have hg : ∀ k r, gatedFor (u.core (coreOf s.cur)) k r = gatedFor (s.core (coreOf s.cur)) k r := fun k r => by
    have hb : (u.core (coreOf s.cur)).bridle = (s.core (coreOf s.cur)).bridle := by rw [h.core]
    simp only [gatedFor, hb]
  have hs := of_decide_eq_true (Bool.and_eq_true_iff.1 hr).2
  have hlen := h.port_length (neighbour (meshCore s s.cur) i.toNat).1 (neighbour_port_lt (meshCore s s.cur) i.toNat)
  simp only [operandsReady, List.all_nil, Bool.true_and, decide_eq_true_eq, hm, hf, hg]
  exact Nat.lt_of_le_of_lt (by omega) hs

/-- A destination that has room when an instruction takes or has its words has it when they are used (R45). -/
theorem Used.room (h : Used s u srcs) (hs : Has s srcs d) : operandsReady u s.cur [] d = true := by
  cases hd : d with
  | none => rfl
  | some e =>
    have hfound : outward d = true → operandsReady s s.cur (s.taking srcs) d = true := fun ho => by
      rw [State.taking]
      split
      next hh => exact hs.room hh
      next hh => exact ((hs.there.resolve_left hh).there (Bool.or_eq_true_iff.2 (.inr ho))).2.1
    cases e with
    | g i => rfl
    | xm m k => rfl
    | n i => exact h.port_room (hd ▸ hfound (by rw [hd]; rfl))
    | q i =>
      have hq := of_decide_eq_true (Bool.and_eq_true_iff.1 (hd ▸ hfound (by rw [hd]; rfl))).2
      have hc := congrArg List.length (h.consumed.queues i)
      simp only [reduceCtorEq, if_false, List.append_nil, List.length_drop] at hc
      simp only [operandsReady, List.all_nil, Bool.true_and, decide_eq_true_eq, hc]
      exact Nat.lt_of_le_of_lt (Nat.sub_le ..) hq

/-- Two states have the same acting context and the same cores: one answers an instruction's word as the other does. -/
structure SameCores (s t : State) : Prop where
  cur : t.cur = s.cur
  cores : t.cores = s.cores

theorem SameCores.refl (s : State) : SameCores s s := ⟨rfl, rfl⟩

theorem SameCores.trans {s t u : State} (h : SameCores s t) (g : SameCores t u) : SameCores s u :=
  ⟨g.cur.trans h.cur, g.cores.trans h.cores⟩

theorem SameCores.core {s t : State} (h : SameCores s t) (k : Nat) : t.core k = s.core k := by rw [State.core, h.cores, State.core]

/-! A state in which an instruction writes its result has the acting context for its own, off a pair. -/

/-- A word delivered to a destination that is no remote mailbox, and nothing else done (R44, R165). -/
theorem deliver_done {d : Dst} (hr : isContext u.cur = true) (hp : (u.core (coreOf u.cur)).bridle = none)
    (hd : d.local = true) (w : Word) : ScalarDone u (deliver u u.cur d w) [] d w 0 := by
  have h := scalar_done (Reading.start u) hr d w 0 (Dst.local_ne_xm hd) fun _ _ => hp
  rwa [raiseFlags_zero] at h

/-- An event counted before an instruction completes is one of the counts it leaves open (R152). -/
theorem ScalarDone.of_counted {s u t : State} {d : Dst} {w : Word} {fl : FpFlags} (hc : Counted s u (coreOf s.cur))
    (h : ScalarDone u t [] d w fl) : ScalarDone s t [] d w fl := by
  have hcore := hc.core
  have hcores := hc.cores
  have hw := hc.within.trans h.whole
  obtain ⟨K, rfl⟩ : ∃ K, u = { s with cores := K } := ⟨_, hc.whole⟩
  exact {
    whole := hw
    bytes := hw.bytes
    own := h.own
    regs := h.regs
    consumed := {
      queues := fun i => by rw [h.consumed.queues i, hcore]; rfl
      ports := fun i => by rw [h.consumed.ports i, hcore]; rfl
      mail := fun i => by rw [h.consumed.mail i, hcore]; rfl }
    core := by
      have hk := h.core
      rw [CoreKept, hcore] at hk
      exact hk
    cores := fun j hj => (h.cores j hj).trans (hcores j hj)
    others := h.others
    dies := h.dies
    pools := h.pools
    flags := h.flags
    net := h.net }

/-- Off a pair no checkpoint interval starts after a reply (R161). -/
theorem ScalarDone.replied {s t : State} {d : Dst} {w : Word} {fl : FpFlags} (h : ScalarDone s t [] d w fl)
    (hp : (s.core (coreOf s.cur)).bridle = none) : ScalarDone s (replied t s.cur) [] d w fl := by
  have ht : (t.core (coreOf s.cur)).bridle = none := by rw [h.core]; exact hp
  have hcore : ∀ j, (Machine.replied t s.cur).core j = t.core j := modCore_id (bridle_map_none ht _)
  have hw : Within s (Machine.replied t s.cur) := h.whole.trans rfl
  exact {
    whole := hw
    bytes := hw.bytes
    own := h.own
    regs := h.regs
    consumed := {
      queues := fun i => by rw [hcore]; exact h.consumed.queues i
      ports := fun i => by rw [hcore]; exact h.consumed.ports i
      mail := fun i => by rw [hcore]; exact h.consumed.mail i }
    core := by rw [CoreKept, hcore]; exact h.core
    cores := fun j hj => by rw [hcore]; exact h.cores j hj
    others := h.others
    dies := h.dies
    pools := h.pools
    flags := h.flags
    net := h.net }

/-- An engine's word is written where its destination has room, and the next checkpoint interval starts (R161, R262). -/
theorem answer_done {d : Dst} (hr : isContext u.cur = true) (hp : (u.core (coreOf u.cur)).bridle = none)
    (hd : d.local = true) (w : Word) (ho : operandsReady u u.cur [] (some d) = true) :
    ∃ t, answer u u.cur d w = .ok t ∧ ScalarDone u t [] d w 0 := by
  refine ⟨_, ?_, (deliver_done hr hp hd w).replied hp⟩
  cases d with
  | xm m k => exact Bool.noConfusion hd
  | _ => simp only [answer, ho, ask_true, Res.ok_bind, Res.pure_eq, raiseFlags_zero]

/-! Leaving for an engine (R112, R113). -/

theorem leaveNow_lone {s : State} {sc : Scope} (h : Lone s) (hr : released s s.cur sc = true) : leaveNow s s.cur sc = .ok s := by
  simp only [leaveNow, h.pair, Option.isSome_none, Bool.false_eq_true, if_false, Res.ok_bind, hr, ask_true, Res.pure_eq]

theorem destReady_local {d : Dst} (h : d.local = true) (s : State) (c : Nat) : destReady s c d = .ok () := by
  cases d with
  | xm m k => exact Bool.noConfusion h
  | _ => rfl

/-- A command that nothing keeps, and that its engine answers (R45, R112). -/
theorem blockingCmd_answered {s u : State} {srcs : List Src} {d : Dst} {f : List Word → State → Res (Word × State)} {w : Word}
    (h : Sends s srcs d) (hf : f (s.words srcs) (s.used srcs (some d)) = .ok (w, u)) :
    blockingCmd s s.cur srcs d f = answer u s.cur d w := by
  obtain ⟨k, hk, -, hu, -, -⟩ := h.has.words_used
  simp only [blockingCmd, destReady_local h.plain, Res.ok_bind, leaveNow_lone h.has.lone h.older, hk, hu, hf]

end

end Sys2Proof.Machine
end

section
/-! SUPPORT. COPY, COPYR, WPRD, TLWAIT and TLRD (R342 to R348). -/

namespace Sys2Proof.Machine

/-! COPY and COPYR (R342 to R344). -/

theorem regOf_known {s : State} {c : Nat} {i : BitVec 6} (h : (s.ctx c).pendG i = false) : regOf s c i = .ok ((s.ctx c).reg i) := by
  rw [regOf, h]
  rfl

section
variable {s : State} {h : CopyShape} {xd xa : Xlat}

theorem channelRoom_ok {c : Nat} {ch : BitVec 2} (hn : (channelOf s (coreOf c) ch).length < 16) : channelRoom s c ch = .ok () := by
  rw [channelRoom, decide_eq_true hn, ask_true]

theorem channelRoom_full {c : Nat} {ch : BitVec 2} (hn : 16 ≤ (channelOf s (coreOf c) ch).length) :
    channelRoom s c ch = .error (.block .channel) := by
  rw [channelRoom, decide_eq_false (Nat.not_lt.2 hn), ask_false]

/-- A copy whose operands are granted comes down to its channel's room and the push of its command. -/
theorem copyBody_granted {o : CopyOps} (hg : CopyGrants s o.dims o.d o.a o.b permEdst h xd xa) :
    copyBody o s.cur s = (do
      channelRoom s s.cur o.ch
      pushCmd s s.cur (copyOp s o.d o.a h (xd ++ xa) o.ch none) o.ch.toNat) := by
  have hd := regOf_known (hg.there o.d (by simp))
  have ha := regOf_known (hg.there o.a (by simp))
  have hx := xlatAll_two hg.xdst hg.xsrc
  have hdst := hg.dst
  have hsrc := hg.src
  unfold Context.low at hdst hsrc hx
  simp only [copyBody, hd, ha, Res.ok_bind, hg.shape, hdst, hsrc, hx]
  rfl

theorem copy_queued {o : CopyOps} (hc : Clear s o.h) (ho : On s o.h) (hl : Lone s)
    (hg : CopyGrants s o.dims o.d o.a o.b permEdst h xd xa) (hn : (channelOf s (coreOf s.cur) o.ch).length < 16) :
    Queued (.copy o) s [] (copyOp s o.d o.a h (xd ++ xa) o.ch none) o.ch.toNat := by
  refine queued_of_push (body := copyBody o) rfl hc ho hl ?_
  rw [copyBody_granted hg, channelRoom_ok hn, Res.ok_bind]

/-- An instruction whose body blocks leaves its context blocked (R45). -/
theorem run_block {i : Instr} {h : Hdr} {body : Nat → State → Res State} {s : State} {w : Wait} (hc : Clear s h) (ho : On s h)
    (hb : body s.cur s = .error (.block w)) : run i h body s = .next (blockOn s s.cur w) := by
  rw [run_on hc ho, hb]
  rfl

theorem copy_full {o : CopyOps} (hc : Clear s o.h) (ho : On s o.h)
    (hg : CopyGrants s o.dims o.d o.a o.b permEdst h xd xa) (hn : 16 ≤ (channelOf s (coreOf s.cur) o.ch).length) :
    exec (.copy o) s = .next (blockOn s s.cur .channel) := by
  refine run_block (i := .copy o) (body := copyBody o) hc ho ?_
  rw [copyBody_granted hg, channelRoom_full hn, Res.error_bind]

theorem copy_misshapen {o : CopyOps} {w : Word} (hc : Clear s o.h) (ho : On s o.h) (hk : Known s [o.d, o.a])
    (hb : shapeOf s s.cur o.dims o.b = .ok (.error w)) (hs : Settled s) : Traps (.copy o) s 0x0D w := by
  refine run_trap (i := .copy o) (body := copyBody o) hc ho hs ?_
  simp only [copyBody, regOf_known (hk o.d (by simp)), regOf_known (hk o.a (by simp)), Res.ok_bind, hb]

/-- The register that holds a COPYR's flag capability; the next holds the flag's value (R344). -/
def flagReg (o : CopyrOps) : BitVec 6 := o.flag.setWidth 6

/-- What a COPYR's command says of the far die and of the flag there. -/
def copyrRemote (s : State) (o : CopyrOps) (die : Nat) (flag : Option Nat) : CopyRemote :=
  { die := die, flag := flag, flagKey := ((s.ctx s.cur).reg (flagReg o)).cap.key, v := (s.ctx s.cur).low (flagReg o + 1) }

/-- A COPYR has no flag, or one that passes its checks, with the place of the flag and its page (R342, R344). -/
inductive FlagGrants (s : State) (o : CopyrOps) : Option Nat → Xlat → Prop
  | none (zero : o.flag = 0) : FlagGrants s o none []
  | some {p : Nat} {xf : Xlat} (named : o.flag ≠ 0)
    (cap : hullCheck s s.cur (flagReg o) (permSt ||| permRemote) ((s.ctx s.cur).low (flagReg o), 8) = .ok ())
    (aligned : ((s.ctx s.cur).low (flagReg o)).toNat % 8 = 0)
    (page : xlatPlaced s s.cur ((s.ctx s.cur).low (flagReg o)) 8 4 = .ok xf)
    (place : engineAt s s.cur ((s.ctx s.cur).low (flagReg o)) 8 4 = .ok p) : FlagGrants s o (some p) xf

variable {o : CopyrOps} {die : Nat}

theorem copyr_queued {flag : Option Nat} {xf : Xlat} (hc : Clear s o.h) (ho : On s o.h) (hl : Lone s)
    (hdie : copyrDie s (s.ctx s.cur).ident o.die.toNat = some die)
    (hg : CopyGrants s o.dims o.d o.a o.b (permEdst ||| permRemote) h xd xa) (hk : Known s [flagReg o, flagReg o + 1])
    (hn : (channelOf s (coreOf s.cur) o.ch).length < 16) (hf : FlagGrants s o flag xf) :
    Queued (.copyr o) s [] (copyOp s o.d o.a h (xd ++ xa ++ xf) o.ch (some (copyrRemote s o die flag))) o.ch.toNat := by
  refine queued_of_push (body := copyrBody o) rfl hc ho hl ?_
  have hd := regOf_known (hg.there o.d (by simp))
  have ha := regOf_known (hg.there o.a (by simp))
  have hfr := regOf_known (hk (flagReg o) (by simp))
  have hvr := regOf_known (hk (flagReg o + 1) (by simp))
  have hdst := hg.dst
  have hsrc := hg.src
  unfold Context.low at hdst hsrc
  unfold flagReg at hfr hvr
  simp only [copyrBody, hdie, hd, ha, Res.ok_bind, hg.shape, hdst, hsrc, hfr, hvr]
  cases hf with
  | none hzero =>
    have hno : (o.flag != 0) = false := by rw [hzero]; rfl
    have hx := xlatAll_two hg.xdst hg.xsrc
    unfold Context.low at hx
    simp only [hno, Bool.false_eq_true, if_false, Res.pure_eq, Res.ok_bind, List.append_nil, hx, channelRoom_ok hn]
    rfl
  | some hnamed hcap hal hpage hplace =>
    have hyes : (o.flag != 0) = true := bne_iff_ne.2 hnamed
    have hx := xlatAll_three hg.xdst hg.xsrc hpage
    unfold Context.low flagReg at hx hcap hal hplace
    simp only [hyes, if_true, hcap, hal, ne_eq, not_true_eq_false, decide_false, trapIf_false, Res.ok_bind, List.cons_append,
      List.nil_append, hx, hplace, Res.pure_eq, channelRoom_ok hn]
    rfl

theorem copyr_noDie (hc : Clear s o.h) (ho : On s o.h) (hdie : copyrDie s (s.ctx s.cur).ident o.die.toNat = none)
    (hs : Settled s) : Traps (.copyr o) s 0x60 (BitVec.ofNat 64 (o.die.toNat * 65536)) := by
  refine run_trap (i := .copyr o) (body := copyrBody o) hc ho hs ?_
  simp only [copyrBody, hdie]

end

/-! WPRD and TLRD (R345, R348). -/

section
variable {s u : State} {got : List (BitVec 5 × Word)} {srcs : List Src}

theorem Reading.tlOwner (h : Reading s u got srcs) : tlOwner u s.cur = tlOwner s s.cur := by
  simp only [Machine.tlOwner, h.own]

theorem Reading.tline (h : Reading s u got srcs) (owner tl : Nat) : u.tline owner tl = s.tline owner tl := by
  rw [h.whole]
  rfl

/-- The words a pointer reports are those of the channel and its commands, which no operand changes. -/
theorem Reading.writePointer (h : Reading s u got srcs) (ch : BitVec 2) :
    writePointer u (coreOf s.cur) ch = writePointer s (coreOf s.cur) ch := by
  have hch : (u.core (coreOf s.cur)).channels = (s.core (coreOf s.cur)).channels := by rw [h.core]
  have hcmds : u.cmds = s.cmds := by rw [h.whole]
  simp only [Machine.writePointer, channelOf, hch, hcmds]

theorem Reading.issuedOn (h : Reading s u got srcs) (tl : Nat) : issuedOn u s.cur tl = issuedOn s s.cur tl := by
  have hlob : (u.ctx s.cur).lob = (s.ctx s.cur).lob := by rw [h.own]
  simp only [Machine.issuedOn, h.tlOwner, h.tline, hlob]

/-- A destination alone is taken, and a word delivered to it. -/
theorem delivered {d : Dst} (h : Reading s u got []) (hr : Ready s [] (some d)) (hc : isContext s.cur = true)
    (hd : d.local = true) (w : Word) : ScalarDone s (deliver u s.cur d w) [] d w 0 := by
  have hdone := scalar_done h hc d w 0 (Dst.local_ne_xm hd) fun i hi => by
    exact (hr.there (by rw [hi]; rfl)).1.pair
  rwa [raiseFlags_zero] at hdone

end

theorem ask_bind {α : Type} {b : Bool} {h : Halt} {f : Unit → Res α} (hb : b = true) : (ask b h >>= f) = f () := by
  rw [hb, ask_true, Res.ok_bind]

theorem wprd_reads {o : WprdOps} {s : State} (hc : Clear s o.h) (ho : On s o.h) (hr : Ready s [] (some o.d)) (hd : o.d.local = true)
    (hlob : ∀ e ∈ (s.ctx s.cur).lob, ∀ h d a k l xl rem tl, e.op ≠ .cmd (.copy h d a k l xl o.ch.toNat rem) tl)
    (hgo : mayGo s s.cur { id := (s.ctx s.cur).nextId, op := .load [] .now, ident := (s.ctx s.cur).ident } = true) :
    ∃ t, exec (.wprd o) s = .next t ∧ ScalarDone s t [] o.d (writePointer s (coreOf s.cur) o.ch) 0 := by
  obtain ⟨u, ⟨got, hg⟩, hs⟩ := sources_ready hr
  refine ⟨_, run_next (i := .wprd o) (body := wprdBody o) hc ho ?_, delivered hg hr hc.real hd _⟩
  refine (ask_bind (List.all_eq_true.2 fun e he => ?_)).trans ((ask_bind hgo).trans ?_)
  · split
    next h d a k l xl ch rem tl hop => exact bne_iff_ne.2 fun hch => hlob e he h d a k l xl rem tl (hch ▸ hop)
    next => rfl
  · simp only [hs, Res.ok_bind, hg.writePointer, Res.pure_eq]

theorem tlrd_reads {o : TlrdOps} {s : State} (hc : Clear s o.h) (ho : On s o.h) (hl : Lone s) (hr : Ready s [] (some o.d))
    (hd : o.d.local = true) : ∃ t, exec (.tlrd o) s = .next t ∧ ScalarDone s t [] o.d (BitVec.ofNat 64 (if o.iss then
      issuedOn s s.cur o.tl.toNat else (s.tline (tlOwner s s.cur) o.tl.toNat).done)) 0 := by
  obtain ⟨u, ⟨got, hg⟩, hs⟩ := sources_ready hr
  refine ⟨_, run_next (i := .tlrd o) hc ho ?_, delivered hg hr hc.real hd _⟩
  simp only [hs, Res.ok_bind, hg.issuedOn, hg.tlOwner, hg.tline, outside_plain (hg.replay.trans hl.replay), Res.pure_eq]

/-! TLWAIT (R347). -/

section
variable {o : TlwaitOps} {s : State}

/-- A TLWAIT that may wait has its words, and looks at its timeline (R115, R347). -/
theorem tlwaitBody_held {k : State} (hsend : Sends s [o.b] o.d) (hk : holdWords s s.cur [o.b] (some o.d) = .ok (s.words [o.b], k)) :
    tlwaitBody o s.cur s = (do
      let w := arg (s.words [o.b]) 0 + o.n.setWidth 64
      let n := waitNumber s o.tl.toNat w
      trapIf (decide ((s.tline (tlOwner s s.cur) o.tl.toNat).issued < n)) 0x0D w
      if (s.tline (tlOwner s s.cur) o.tl.toNat).done < n then pure (blockOn k s.cur (.timeline o.tl.toNat n))
      else
        let v ← useWords k s.cur [o.b]
        ask (operandsReady v s.cur [] (some o.d)) .stall
        let u := if o.tl = 6 then takeHeld v s.cur n else v
        pure (replied (deliver (countEvent u (coreOf s.cur) 5 1) s.cur o.d
          (BitVec.ofNat 64 (s.tline (tlOwner s s.cur) o.tl.toNat).done)) s.cur)) := by
  simp only [tlwaitBody, leaveNow_lone hsend.has.lone hsend.older, Res.ok_bind, hk]
  rfl

theorem takeHeld_sameCores (s : State) (c n : Nat) : SameCores s (takeHeld s c n) := by
  unfold takeHeld
  dsimp only
  split
  · exact .refl s
  · rw [(raiseFlags_spec _ _ _).whole]
    exact ⟨rfl, rfl⟩

/-- An instruction that counts as sent to an engine delivers its word (R152, R161). -/
theorem counted_done {u : State} {d : Dst} (hr : isContext u.cur = true) (hp : (u.core (coreOf u.cur)).bridle = none)
    (hd : d.local = true) (w : Word) :
    ScalarDone u (replied (deliver (countEvent u (coreOf u.cur) 5 1) u.cur d w) u.cur) [] d w 0 := by
  have hc := countEvent_counted u (coreOf u.cur) 5 1
  generalize countEvent u (coreOf u.cur) 5 1 = v at hc
  have hcur : v.cur = u.cur := by rw [hc.whole]
  have hdone : ScalarDone v (deliver v v.cur d w) [] d w 0 :=
    deliver_done (by rw [hcur]; exact hr) (by rw [hcur, hc.core]; exact hp) hd w
  rw [hcur] at hdone
  exact (hdone.of_counted hc).replied hp

/-- The state in which a TLWAIT of number `n` that has completed writes its word. -/
def waited (o : TlwaitOps) (s : State) (n : Nat) : State :=
  if o.tl = 6 then takeHeld (s.used [o.b] (some o.d)) s.cur n else s.used [o.b] (some o.d)

theorem waited_sameCores (o : TlwaitOps) (s : State) (n : Nat) : SameCores (s.used [o.b] (some o.d)) (waited o s n) := by
  unfold waited
  split
  · exact takeHeld_sameCores ..
  · exact .refl _

variable {w : Word}

theorem tlwait_completed (hc : Clear s o.h) (ho : On s o.h) (hsend : Sends s [o.b] o.d)
    (hw : arg (s.words [o.b]) 0 + o.n.setWidth 64 = w)
    (hi : waitNumber s o.tl.toNat w ≤ (s.tline (tlOwner s s.cur) o.tl.toNat).issued)
    (hn : waitNumber s o.tl.toNat w ≤ (s.tline (tlOwner s s.cur) o.tl.toNat).done) :
    ∃ t, exec (.tlwait o) s = .next t ∧ ScalarDone (waited o s (waitNumber s o.tl.toNat w)) t [] o.d
      (BitVec.ofNat 64 (s.tline (tlOwner s s.cur) o.tl.toNat).done) 0 := by
  obtain ⟨k, hk, -, huse, hused, -⟩ := hsend.has.words_used
  have hsame := waited_sameCores o s (waitNumber s o.tl.toNat w)
  have hcur := hsame.cur.trans hused.cur
  have hdone := counted_done (by rw [hcur]; exact hc.real) (by rw [hcur, hsame.core]; exact hused.pair hsend.has.lone) hsend.plain
    (BitVec.ofNat 64 (s.tline (tlOwner s s.cur) o.tl.toNat).done)
  rw [hcur] at hdone
  refine ⟨_, run_next (i := .tlwait o) (body := tlwaitBody o) hc ho ?_, hdone⟩
  rw [tlwaitBody_held hsend hk]
  simp only [hw, decide_eq_false (Nat.not_lt.2 hi), trapIf_false, Res.ok_bind, if_neg (Nat.not_lt.2 hn), huse,
    hused.room hsend.has, ask_true, Res.pure_eq]
  rfl

theorem tlwait_waits (hc : Clear s o.h) (ho : On s o.h) (hsend : Sends s [o.b] o.d)
    (hw : arg (s.words [o.b]) 0 + o.n.setWidth 64 = w)
    (hi : waitNumber s o.tl.toNat w ≤ (s.tline (tlOwner s s.cur) o.tl.toNat).issued)
    (hn : (s.tline (tlOwner s s.cur) o.tl.toNat).done < waitNumber s o.tl.toNat w) :
    ∃ r, Kept s r [o.b] ∧
      exec (.tlwait o) s = .next (blockOn r s.cur (.timeline o.tl.toNat (waitNumber s o.tl.toNat w))) := by
  obtain ⟨k, hk, hkept, -⟩ := hsend.has.words_used
  refine ⟨k, hkept, run_next (i := .tlwait o) (body := tlwaitBody o) hc ho ?_⟩
  rw [tlwaitBody_held hsend hk]
  simp only [hw, decide_eq_false (Nat.not_lt.2 hi), trapIf_false, Res.ok_bind, if_pos hn, Res.pure_eq]

theorem tlwait_unissued (hc : Clear s o.h) (ho : On s o.h) (hsend : Sends s [o.b] o.d)
    (hw : arg (s.words [o.b]) 0 + o.n.setWidth 64 = w)
    (hn : (s.tline (tlOwner s s.cur) o.tl.toNat).issued < waitNumber s o.tl.toNat w) (hs : Settled s) :
    Traps (.tlwait o) s 0x0D w := by
  obtain ⟨k, hk, -⟩ := hsend.has.words_used
  refine run_trap (i := .tlwait o) (body := tlwaitBody o) hc ho hs ?_
  rw [tlwaitBody_held hsend hk]
  simp only [hw, decide_eq_true hn, trapIf_true, Res.error_bind]

end

/-- Settles O43: each instruction's body comes down to its checks and the push or the word they lead to. -/
theorem copiesAndTimelines : Obligations.CopiesAndTimelines := by
  unfold Obligations.CopiesAndTimelines
  refine ⟨?_, ?_, ?_, ?_, ?_, ?_, ?_⟩
  · intro o s h xd xa hc ho hl hg
    exact ⟨copy_queued hc ho hl hg, copy_full hc ho hg⟩
  · intro o s w hc ho hk hb hs
    exact copy_misshapen hc ho hk hb hs
  · intro o s die h xd xa hc ho hl hdie hg f hk hn
    have hq : ∀ {flag xf}, FlagGrants s o flag xf → _ := fun hf => copyr_queued hc ho hl hdie hg hk hn hf
    refine ⟨fun hzero => ?_, fun p xf hnamed hcap hal hpage hplace => hq (.some hnamed hcap hal hpage hplace)⟩
    have hnone := hq (.none hzero)
    rwa [List.append_nil] at hnone
  · intro o s hc ho hdie hs
    exact copyr_noDie hc ho hdie hs
  · intro o s hc ho hr hd hlob hgo
    exact wprd_reads hc ho hr hd hlob hgo
  · intro o s hc ho hsend w tl n v u
    exact ⟨tlwait_completed hc ho hsend rfl, tlwait_waits hc ho hsend rfl, tlwait_unissued hc ho hsend rfl⟩
  · intro o s hc ho hl hr hd
    exact tlrd_reads hc ho hl hr hd

end Sys2Proof.Machine
end

section
/-! SUPPORT. TSPAWN, TSIG and LAUNCH (R21, R264), and the creating of a task, which touches no core (R246 to R251). -/

namespace Sys2Proof.Machine

/-! Creating a task touches no core (R246 to R251). -/

/-- Steps that leave the cores alone, in order. -/
theorem SameCores.foldl {α : Type} {f : State → α → State} (h : ∀ s a, SameCores s (f s a)) :
    ∀ (l : List α) {s t : State}, SameCores s t → SameCores s (l.foldl f t)
  | [], _, _, g => g
  | a :: l, _, t, g => SameCores.foldl h l (g.trans (h t a))

theorem CachesOnly.sameCores {s t : State} (h : CachesOnly s t) : SameCores s t := by
  rw [CachesOnly] at h
  exact ⟨by rw [h], by rw [h]⟩

theorem regionFlags_sameCores (s : State) (part : BitVec 8) (id : BitVec 16) (f : BitVec 6) :
    SameCores s (regionFlags s part id f) := by
  unfold regionFlags
  split <;> exact ⟨rfl, rfl⟩

theorem tileFlags_sameCores (s : State) (t : Tile) : SameCores s (tileFlags s t) := by
  unfold tileFlags
  split
  · exact regionFlags_sameCores ..
  · exact .refl s

theorem tileRead_sameCores (s : State) (pa n : Nat) : SameCores s (tileRead s pa n) := by
  unfold tileRead
  dsimp only
  split
  · exact .refl s
  · exact .foldl tileFlags_sameCores _ ⟨rfl, rfl⟩

theorem tileWrite_sameCores (s : State) (pa : Nat) : SameCores s (tileWrite s pa) := by
  unfold tileWrite
  dsimp only
  split
  · exact .refl s
  · exact .foldl tileFlags_sameCores _ ⟨rfl, rfl⟩

theorem homePoke_sameCores (s : State) (pa : Nat) (b : Byte) : SameCores s (homePoke s pa b) := by
  have h := (tileWrite_sameCores s pa).trans (purge_only (tileWrite s pa) (pa / 128)).sameCores
  unfold homePoke
  split
  · dsimp only
    split
    · exact h
    · exact h.trans ⟨rfl, rfl⟩
  · exact .refl s

theorem homeStore_sameCores (s : State) (pa : Nat) (bs : List Byte) : SameCores s (homeStore s pa bs) :=
  .foldl (f := sealLine) (fun _ _ => ⟨rfl, rfl⟩) _
    (.foldl (f := fun s (c : Nat × Byte) => homePoke s c.1 c.2) (fun s c => homePoke_sameCores s c.1 c.2) _ (.refl s))

theorem walkReads_sameCores (s : State) (i : Ident) (va : Word) : SameCores s (walkReads s i va) :=
  .foldl (fun s a => tileRead_sameCores s a 8) _ (.refl s)

theorem markLeaf_sameCores (s : State) (f : Found) (kind : Nat) : SameCores s (markLeaf s f kind) :=
  .foldl (fun s a => homeStore_sameCores s a _) _ (.refl s)

theorem agentXlat_sameCores {s t : State} {cl : Nat} {i : Ident} {va : Word} {task : Bool} {kind pa : Nat}
    (h : agentXlat s cl i va task kind = .ok (pa, t)) : SameCores s t := by
  unfold agentXlat at h
  split at h
  · split at h
    · cases h; exact .refl s
    · cases h
  · split at h
    · cases h
    · split at h
      · dsimp only at h
        split at h
        · cases h; exact .refl s
        · cases h
      · dsimp only at h
        split at h
        · cases h
          exact (walkReads_sameCores ..).trans (markLeaf_sameCores ..)
        · cases h

theorem schedXlat_sameCores {s t : State} {cl : Nat} {i : Ident} {va : Word} {task : Bool} {kind pa : Nat}
    (h : schedXlat s cl i va task kind = some (pa, t)) : SameCores s t := by
  unfold schedXlat at h
  cases hx : agentXlat s cl i va task kind with
  | error e => rw [hx] at h; cases h
  | ok r => rw [hx] at h; cases h; exact agentXlat_sameCores hx

theorem counterAt_sameCores {s t : State} {cl k pa : Nat} {i : Ident} {dep : Word}
    (h : counterAt s cl i k dep = some (pa, t)) : SameCores s t := by
  unfold counterAt at h
  split at h
  · cases h
  · split at h
    · cases h
    next pa' t' hx =>
      have hs := schedXlat_sameCores hx
      split at h
      · dsimp only at h
        obtain ⟨-, h⟩ := Option.ite_none_right_eq_some.1 h
        cases h
        exact hs
      · cases h

theorem modDie_sameCores (s : State) (j : Nat) (f : Die → Die) : SameCores s (s.modDie j f) := ⟨rfl, rfl⟩

theorem newGti_sameCores (s : State) (part die : Nat) : SameCores s (newGti s part die).2 := ⟨rfl, rfl⟩

theorem enterPool_sameCores (s : State) (die : Nat) (t : Task) : SameCores s (enterPool s die t) := ⟨rfl, rfl⟩

theorem makeReady_sameCores (s : State) (t : Task) : SameCores s (makeReady s t) := by
  unfold makeReady
  split
  · split
    · split
      · exact enterPool_sameCores ..
      · exact ⟨rfl, rfl⟩
    · exact .refl s
  · exact enterPool_sameCores ..

theorem modMember_sameCores (s : State) (job rank : Nat) (f : Member → Member) : SameCores s (modMember s job rank f) := by
  unfold modMember
  split <;> exact ⟨rfl, rfl⟩

theorem foldError_sameCores (s : State) (m : Option (Nat × Nat)) (e : Nat) : SameCores s (foldError s m e) := by
  unfold foldError
  split
  · exact .refl s
  · exact modMember_sameCores ..

/-- What an action answers, if it goes through, has the cores of a state. -/
def Spares (s : State) (x : Except Word (Word × State)) : Prop := ∀ w u, x = .ok (w, u) → SameCores s u

theorem Spares.error (s : State) (e : Word) : Spares s (.error e) := nofun

theorem Spares.ok {s u : State} (h : SameCores s u) (w : Word) : Spares s (.ok (w, u)) := fun _ _ e => by
  cases e
  exact h

/-- The state of a pair that an action answers. -/
theorem SameCores.snd {α : Type} {s u : State} {p : α × State} {a : α} (h : SameCores s p.2) (e : p = (a, u)) : SameCores s u := by
  rw [e] at h
  exact h

/-- Creating a task (R246 to R251): its home, its pool and its counter are found in turn, each or a refusal; then its GTI is
taken, its actor or its member's count made, and it goes to its pool or waits on its counter. -/
theorem createTask_spares (s : State) (i : Ident) (k : Nat) (m : Option (Nat × Nat)) (homed : Option Nat) (r : Rec) :
    Spares s (createTask s i k m homed r) := by
  unfold createTask
  extract_lets kind dep fifos good afterHome afterForm
  have hhome : ∀ home, Spares s (afterHome home) := by
    intro home
    unfold afterHome
    extract_lets afterPool
    have hpool : ∀ pool, Spares s (afterPool pool) := by
      intro pool
      unfold afterPool
      extract_lets afterCounter
      have hcounter : ∀ ctr v, SameCores s v → Spares s (afterCounter (ctr, v)) := by
        intro ctr v hv
        unfold afterCounter
        split
        next ctr v heq =>
        cases heq
        split
        next gti v' hgti =>
        extract_lets who t
        have hv' := hv.trans (.snd (newGti_sameCores v (partNo i) (coreDie k)) hgti)
        split
        next t' u ht =>
        have hu : SameCores s u := by
          refine hv'.trans (.snd ?_ ht)
          split
          · split
            next a v hnew =>
            have hv : SameCores v' v := .snd (p := v'.new) ⟨rfl, rfl⟩ hnew
            dsimp only
            split
            · exact hv.trans ⟨rfl, rfl⟩
            · exact hv.trans ((foldError_sameCores ..).trans ⟨rfl, rfl⟩)
          · dsimp only
            split
            · exact modMember_sameCores ..
            · exact .refl _
        split
        · split
          · exact .ok (hu.trans (makeReady_sameCores ..)) _
          · extract_lets d
            exact .ok (hu.trans (modDie_sameCores ..)) _
        · exact .ok (hu.trans (makeReady_sameCores ..)) _
      clear_value afterCounter
      split
      · exact hcounter _ _ (.refl s)
      · split
        · exact .error _ _
        next pa v hctr =>
          have hv := counterAt_sameCores hctr
          extract_lets tbl
          split
          · exact .error _ _
          · split
            · exact .error _ _
            · exact hcounter _ _ hv
    clear_value afterPool
    split
    · exact hpool _
    · exact .error _ _
  clear_value afterHome
  have hform : Spares s (afterForm ()) := by
    unfold afterForm
    split
    · split
      · exact hhome _
      · exact .error _ _
    · split
      · exact hhome _
      · split
        · split
          · exact hhome _
          · exact .error _ _
        · exact .error _ _
  split
  · exact .error _ _
  · exact hform

theorem createTask_sameCores {s u : State} {i : Ident} {k : Nat} {m : Option (Nat × Nat)} {homed : Option Nat} {r : Rec} {w : Word}
    (h : createTask s i k m homed r = .ok (w, u)) : SameCores s u := createTask_spares s i k m homed r w u h

/-! TSPAWN (R264). -/

theorem Used.task {s u : State} {srcs : List Src} (h : Used s u srcs) : (u.ctx s.cur).task = (s.ctx s.cur).task := by rw [h.own]

theorem Used.ident {s u : State} {srcs : List Src} (h : Used s u srcs) : (u.ctx s.cur).ident = (s.ctx s.cur).ident := by rw [h.own]

/-- In the state in which a command is counted, the same context acts as before, off a pair. -/
structure AskedKept (s v : State) : Prop where
  cur : v.cur = s.cur
  pair : (v.core (coreOf s.cur)).bridle = none

theorem asked_kept {s : State} {srcs : List Src} {d : Option Dst} (h : Has s srcs d) : AskedKept s (s.asked srcs d) := by
  obtain ⟨-, -, -, -, hu, -⟩ := h.words_used
  have hc := countEvent_counted (s.used srcs d) (coreOf (s.used srcs d).cur) 5 1
  have hcur : (s.asked srcs d).cur = s.cur := Eq.trans (by rw [State.asked, State.counted, countSent, hc.whole]) hu.cur
  refine ⟨hcur, ?_⟩
  rw [hu.cur] at hc
  rw [State.asked, State.counted, countSent, hu.cur, hc.core]
  exact hu.pair h.lone

/-- An engine whose answer leaves the cores alone answers the word in the state it made. -/
theorem AskedKept.answers {s v u : State} {d : Dst} (h : AskedKept s v) (hc : isContext s.cur = true) (hs : SameCores v u)
    (hd : d.local = true) (w : Word) (hr : operandsReady u s.cur [] (some d) = true) :
    ∃ t, answer u s.cur d w = .ok t ∧ ScalarDone u t [] d w 0 := by
  have hcur := hs.cur.trans h.cur
  rw [← hcur] at hc hr ⊢
  exact answer_done hc (by rw [hcur, hs.core]; exact h.pair) hd w hr

/-- What a TSPAWN answers, in the state in which it is counted (R264). -/
def spawnAnswer (v : State) (x : Context) (c pa : Nat) (keep : Bool) : Word × State :=
  match readRec v x.ident pa keep with
  | none => (refusal 1, v)
  | some r =>
    match createTask v x.ident (coreOf c) (x.task.bind (·.member)) none r with
    | .ok a => a
    | .error w => (w, v)

theorem spawnAnswer_sameCores (v : State) (x : Context) (c pa : Nat) (keep : Bool) :
    SameCores v (spawnAnswer v x c pa keep).2 := by
  unfold spawnAnswer
  split
  · exact .refl v
  · split
    next a h => exact createTask_sameCores h
    next => exact .refl v

theorem spawnAnswer_unread {v : State} {x : Context} {c pa : Nat} {keep : Bool} (h : readRec v x.ident pa keep = none) :
    spawnAnswer v x c pa keep = (refusal 1, v) := by
  simp only [spawnAnswer, h]

theorem spawnAnswer_made {v u : State} {x : Context} {c pa : Nat} {keep : Bool} {r : Rec} {w : Word}
    (h : readRec v x.ident pa keep = some r)
    (hm : createTask v x.ident (coreOf c) (x.task.bind (·.member)) none r = .ok (w, u)) :
    spawnAnswer v x c pa keep = (w, u) := by
  simp only [spawnAnswer, h, hm]

theorem spawnAnswer_refused {v : State} {x : Context} {c pa : Nat} {keep : Bool} {r : Rec} {w : Word}
    (h : readRec v x.ident pa keep = some r)
    (hm : createTask v x.ident (coreOf c) (x.task.bind (·.member)) none r = .error w) :
    spawnAnswer v x c pa keep = (w, v) := by
  simp only [spawnAnswer, h, hm]

section
variable {s : State} {o : DstCap} {pa : Nat}

theorem tspawnBody_granted (hg : EngineGrants s o.a permLd 128 128 0 pa) (hs : Sends s [] o.d) :
    tspawnBody o s.cur s =
      let a := spawnAnswer (s.asked [] (some o.d)) (s.ctx s.cur) s.cur pa (((s.ctx s.cur).reg o.a).cap.perm.getLsbD 3)
      answer a.2 s.cur o.d a.1 := by
  obtain ⟨-, -, -, -, hu, -⟩ := hs.has.words_used
  obtain ⟨hcap, hat⟩ := hg
  unfold Context.low at hat
  simp only [tspawnBody, hcap, hat, Res.ok_bind]
  refine blockingCmd_answered hs ?_
  have hasked : countSent (s.used [] (some o.d)) s.cur = s.asked [] (some o.d) := by rw [State.asked, State.counted, hu.cur]
  cases hrec : readRec (s.asked [] (some o.d)) (s.ctx s.cur).ident pa (((s.ctx s.cur).reg o.a).cap.perm.getLsbD 3) with
  | none => simp only [hu.ident, hasked, hrec, spawnAnswer_unread hrec]
  | some r =>
    cases hmade : createTask (s.asked [] (some o.d)) (s.ctx s.cur).ident (coreOf s.cur) ((s.ctx s.cur).task.bind (·.member))
      none r with
    | ok a => simp only [hu.task, hu.ident, hasked, hrec, hmade, spawnAnswer_made hrec hmade]
    | error w => simp only [hu.task, hu.ident, hasked, hrec, hmade, spawnAnswer_refused hrec hmade]

theorem tspawn_answered (hc : Clear s o.h) (ho : On s o.h) (hg : EngineGrants s o.a permLd 128 128 0 pa) (hs : Sends s [] o.d)
    {u : State} {w : Word}
    (ha : spawnAnswer (s.asked [] (some o.d)) (s.ctx s.cur) s.cur pa (((s.ctx s.cur).reg o.a).cap.perm.getLsbD 3) = (w, u)) :
    Answered (.tspawn o) s u o.d w := by
  intro hr
  have hsame := spawnAnswer_sameCores (s.asked [] (some o.d)) (s.ctx s.cur) s.cur pa (((s.ctx s.cur).reg o.a).cap.perm.getLsbD 3)
  have hbody := tspawnBody_granted hg hs
  rw [ha] at hsame hbody
  obtain ⟨t, ht, hdone⟩ := (asked_kept hs.has).answers hc.real hsame hs.plain w hr
  exact ⟨t, run_next (i := .tspawn o) (body := tspawnBody o) hc ho (hbody.trans ht), hdone⟩

end

/-! TSIG (R264). -/

section
variable {s : State} {o : TsigOps} {pa : Nat}

/-- An entry pushed with its marks after sources were read (R100). -/
theorem Reading.retire_lobPush {u : State} {got : List (BitVec 5 × Word)} {srcs : List Src} (h : Reading s u got srcs)
    (op : LobOp) : Retired s (retire (lobPush u s.cur op) s.cur) srcs (s.joined [op]) putNone := by
  have hpc : ((lobPush u s.cur op).ctx s.cur).pc = (s.ctx s.cur).pc := by
    rw [lobPush, lobAppend, State.modCtx_ctx_same, h.own]
  rw [joined_one, retire, hpc]
  unfold lobPush lobAppend
  rw [State.modCtx_ctx_same]
  refine retired_of h _ _ _ putNone ?_ fun _ _ => ?_
  · rw [h.own]
  · rw [h.own]; rfl

/-- The die a task signal is for: the scratchpad's, or, for a counter in none, the sender's (R264). -/
def signalDie (c pa : Nat) : Nat := match region pa with | .scratch q _ => q / 64 | _ => dieOf c

/-- The signal a TSIG of word `w` sends. -/
def signalOf (o : TsigOps) (s : State) (pa : Nat) (w : Word) : SigReq :=
  { c := s.cur, ident := (s.ctx s.cur).ident, ea := (s.ctx s.cur).low o.a, pa := pa, amount := w.setWidth 32 + o.dec
    die := signalDie s.cur pa, owner := tlOwner s s.cur }

/-- What a TSIG whose counter's capability is granted still has to check and do. -/
theorem tsigBody_granted (hg : EngineGrants s o.a permSt 4 4 1 pa) (hl : Lone s) :
    tsigBody o s.cur s = (do
      trapIf (signalDie s.cur pa != dieOf s.cur && !((s.ctx s.cur).reg o.a).cap.perm.getLsbD 9) 0x06 ((s.ctx s.cur).low o.a)
        (capAux permRemote o.a)
      let (ws, u) ← sources s s.cur [o.b] none
      pure (retire (lobPush u s.cur (.signal { signalOf o s pa (arg ws 0) with
        ident := (u.ctx s.cur).ident, owner := tlOwner u s.cur })) s.cur)) := by
  obtain ⟨hcap, hat⟩ := hg
  unfold Context.low at hat
  simp only [tsigBody, hcap, hat, Res.ok_bind, gateRoom_lone hl]
  rfl

theorem tsig_joins (hc : Clear s o.h) (ho : On s o.h) (hl : Lone s) (hg : EngineGrants s o.a permSt 4 4 1 pa)
    (hr : Ready s [o.b] none) (hnear : signalDie s.cur pa = dieOf s.cur ∨ ((s.ctx s.cur).reg o.a).cap.perm.getLsbD 9 = true) :
    ∃ t, exec (.tsig o) s = .next t ∧
      Retired s t [o.b] (s.joined [.signal (signalOf o s pa (srcWord s [] o.b))]) putNone := by
  obtain ⟨u, ⟨got, hread⟩, hsrc⟩ := sources_ready hr
  refine ⟨_, run_next (i := .tsig o) (body := tsigBody o) hc ho ?_, hread.retire_lobPush _⟩
  have hok : (signalDie s.cur pa != dieOf s.cur && !((s.ctx s.cur).reg o.a).cap.perm.getLsbD 9) = false := by
    rcases hnear with h | h
    · rw [bne_eq_false_iff_eq.2 h, Bool.false_and]
    · rw [h, Bool.not_true, Bool.and_false]
  have hident : (u.ctx s.cur).ident = (s.ctx s.cur).ident := by rw [hread.own]
  rw [tsigBody_granted hg hl, hok, trapIf_false, Res.ok_bind, hsrc, Res.ok_bind]
  simp only [hident, hread.tlOwner, Res.pure_eq]
  rfl

theorem tsig_far (hc : Clear s o.h) (ho : On s o.h) (hl : Lone s) (hg : EngineGrants s o.a permSt 4 4 1 pa)
    (hfar : signalDie s.cur pa ≠ dieOf s.cur) (hperm : ((s.ctx s.cur).reg o.a).cap.perm.getLsbD 9 = false) (hs : Settled s) :
    Traps (.tsig o) s 0x06 ((s.ctx s.cur).low o.a) (capAux permRemote o.a) := by
  refine run_trap (i := .tsig o) (body := tsigBody o) hc ho hs ?_
  rw [tsigBody_granted hg hl, bne_iff_ne.2 hfar, hperm, Bool.not_false, Bool.and_true, trapIf_true, Res.error_bind]

end

/-! LAUNCH (R21, R264). -/

/-- A partition's logical die table is locked, its MCL set, as its first job is launched (R21). -/
def Partition.locked (q : Partition) : Partition := { q with ldtlock := true, mcl := true }

/-- A change to a partition after an instruction retired is one before it. -/
theorem Retired.modPart {s t : State} {srcs : List Src} {x : Context} {put : BitVec 6 → Option Reg} (h : Retired s t srcs x put)
    (p : Nat) (f : Partition → Partition) : Retired (s.modPart p f) (t.modPart p f) srcs x put := by
  have hpart : t.part p = s.part p := by rw [State.part, h.whole, State.part]
  have hw : Within (s.modPart p f) (t.modPart p f) := by
    rw [Within, State.modPart, State.modPart, hpart]
    conv_lhs => rw [h.whole]
  exact {
    whole := hw
    net := h.net
    bytes := hw.bytes
    own := h.own
    regs := h.regs
    consumed := ⟨h.consumed.queues, h.consumed.ports, h.consumed.mail⟩
    core := h.core
    cores := h.cores
    others := h.others
    dies := h.dies }

section
variable {s : State} {o : OneG} {xl : Xlat}

/-- What a LAUNCH whose descriptor is granted still has to check and do. -/
theorem launchBody_granted (hcap : engineCap s s.cur o.a (permLd ||| permLdc) 192 64 = .ok ((s.ctx s.cur).reg o.a))
    (hx : xlatRange s s.cur ((s.ctx s.cur).low o.a) 192 0 = .ok xl) :
    launchBody o s.cur s = (do
      let first := (liveJobs s (s.ctx s.cur).ident.part).isEmpty
      let bad := if first then ldtOffender s (partNo (s.ctx s.cur).ident) else none
      trapIf bad.isSome 0x50 (BitVec.ofNat 64 (bad.getD 0))
      let t ← pushCmd s s.cur (.launch ((s.ctx s.cur).low o.a) xl ((s.ctx s.cur).level != .task)) 7
      pure (if first then t.modPart (partNo (s.ctx s.cur).ident) Partition.locked else t)) := by
  unfold Context.low at hx ⊢
  simp only [launchBody, hcap, hx, Res.ok_bind]
  rfl

/-- The partition whose first job a LAUNCH launches has its table locked; any other LAUNCH locks nothing (R21). -/
def launching (s : State) : State :=
  if liveJobs s (s.ctx s.cur).ident.part = [] then s.modPart (partNo (s.ctx s.cur).ident) Partition.locked else s

theorem launch_misformed {l : Nat} (hc : Clear s o.h) (ho : On s o.h)
    (hcap : engineCap s s.cur o.a (permLd ||| permLdc) 192 64 = .ok ((s.ctx s.cur).reg o.a))
    (hx : xlatRange s s.cur ((s.ctx s.cur).low o.a) 192 0 = .ok xl) (hfirst : liveJobs s (s.ctx s.cur).ident.part = [])
    (hbad : ldtOffender s (partNo (s.ctx s.cur).ident) = some l) (hs : Settled s) :
    Traps (.launch o) s 0x50 (BitVec.ofNat 64 l) := by
  refine run_trap (i := .launch o) (body := launchBody o) hc ho hs ?_
  simp only [launchBody_granted hcap hx, hfirst, List.isEmpty_nil, if_true, hbad, Option.isSome_some, Option.getD_some,
    trapIf_true, Res.error_bind]

theorem launch_joins (hc : Clear s o.h) (ho : On s o.h) (hl : Lone s)
    (hcap : engineCap s s.cur o.a (permLd ||| permLdc) 192 64 = .ok ((s.ctx s.cur).reg o.a))
    (hx : xlatRange s s.cur ((s.ctx s.cur).low o.a) 192 0 = .ok xl)
    (hok : liveJobs s (s.ctx s.cur).ident.part ≠ [] ∨ ldtOffender s (partNo (s.ctx s.cur).ident) = none) :
    ∃ t, exec (.launch o) s = .next t ∧ Retired (launching s) t []
      (s.joined [.cmd (.launch ((s.ctx s.cur).low o.a) xl ((s.ctx s.cur).level != .task)) 7]) putNone := by
  obtain ⟨t, ht, hr⟩ := pushCmd_retired hl (.launch ((s.ctx s.cur).low o.a) xl ((s.ctx s.cur).level != .task)) 7
  have hbody := launchBody_granted hcap hx
  rw [ht] at hbody
  by_cases hfirst : liveJobs s (s.ctx s.cur).ident.part = []
  · have hgood := hok.resolve_left (absurd hfirst)
    refine ⟨t.modPart (partNo (s.ctx s.cur).ident) Partition.locked,
      run_next (i := .launch o) (body := launchBody o) hc ho ?_, ?_⟩
    · simp only [hbody, hfirst, List.isEmpty_nil, if_true, hgood, Option.isSome_none, trapIf_false, Res.ok_bind, Res.pure_eq]
    · rw [launching, if_pos hfirst]
      exact hr.modPart ..
  · refine ⟨t, run_next (i := .launch o) (body := launchBody o) hc ho ?_, ?_⟩
    · simp only [hbody, List.isEmpty_eq_false_iff.2 hfirst, Bool.false_eq_true, if_false, Option.isSome_none, trapIf_false,
        Res.ok_bind, Res.pure_eq]
    · rw [launching, if_neg hfirst]
      exact hr

end

/-- Settles O32: TSPAWN by what its engine answers, TSIG and LAUNCH by the entry they push. -/
theorem spawnSignalAndLaunch : Obligations.SpawnSignalAndLaunch := by
  unfold Obligations.SpawnSignalAndLaunch
  refine ⟨?_, ?_, ?_⟩
  · intro o s pa hc ho hg hs v keep make
    have ha : ∀ {u w}, spawnAnswer v (s.ctx s.cur) s.cur pa keep = (w, u) → Answered (.tspawn o) s u o.d w :=
      tspawn_answered hc ho hg hs
    exact ⟨fun hnone => ha (spawnAnswer_unread hnone), fun r w u hsome hmade => ha (spawnAnswer_made hsome hmade),
      fun r w hsome hmade => ha (spawnAnswer_refused hsome hmade)⟩
  · intro o s pa hc ho hl hg hr die
    exact ⟨tsig_joins hc ho hl hg hr, tsig_far hc ho hl hg⟩
  · intro o s xl hc ho hl hcap hx first u
    exact ⟨fun hfirst _ hbad hs => launch_misformed hc ho hcap hx hfirst hbad hs, launch_joins hc ho hl hcap hx⟩

end Sys2Proof.Machine
end

section
/-! SUPPORT. MIGR in a state whose table of contexts lists one twice. -/

namespace Sys2Proof.Machine

/-- A MIGR without guard or hints whose task, destination core and result all stand in g0. -/
def migrOfZero : DstSrc2 := { h := { guard := { neg := false, p := 0 }, hints := 0 }, d := .g 0, a := .g 0, b := .g 0 }

/-- A custodian context that runs no task. -/
def migrator : Context := { run := .running, level := .custodian, ident := { custodian := true } }

/-- The table of contexts lists context 0 twice: the first entry is what `State.ctx` reads, and behind it stands one that
runs task 0, which `residentOf` finds. -/
def shadowed : State :=
  { State.reset with ctxs := [(0, migrator), (0, { migrator with task := some { gti := 0 } })], cur := 0 }

theorem shadowed_clear : Clear shadowed migrOfZero.h where
  real := rfl
  done := rfl
  stop := rfl
  known := rfl
  paid _ h := nomatch h

theorem shadowed_has : Has shadowed [.g 0, .g 0] (some (.g 0)) where
  lone := ⟨rfl, rfl⟩
  there := .inr ⟨rfl, rfl, nofun, nofun, .inr rfl⟩
  room := nofun
  untimed := .inr rfl

/-- Word 0 names core 0 to a custodian, and the acting context is no task's own. -/
theorem shadowed_names : coreOfWord shadowed migrator.ident 0 = some 0 := by decide

/-- The task that context 0 does not run is found on context 0. -/
theorem shadowed_resident : residentOf shadowed 0 migrator.ident.part 0 = some 0 := by decide

theorem shadowed_free : (freeOn shadowed 0).isSome = true := by decide

/-- Refutes O30: where the table of contexts lists the acting context twice, MIGR finds a task behind its own entry, and the
statement asks of that one context both that it blocks and that it runs on. -/
theorem not_invalidationsAndMigration : ¬ Obligations.InvalidationsAndMigration := by
  unfold Obligations.InvalidationsAndMigration
  rintro ⟨-, hmigr⟩
  obtain ⟨-, -, hsent⟩ := hmigr migrOfZero shadowed shadowed_clear rfl nofun shadowed_has rfl
  obtain ⟨-, -, -, -, hmove⟩ := hsent 0 rfl shadowed_names
  obtain ⟨v, t, n, -, -, -, hasker, hmoved, -⟩ :=
    hmove 0 (fun h => nomatch h.2) shadowed_resident rfl shadowed_free nofun
  have hrun : RunState.blocked (.migrate 0) n = .running := congrArg Context.run (hasker.symm.trans hmoved)
  nomatch hrun

end Sys2Proof.Machine
end

section
/-! SUPPORT. Hard-wired registers, words built from the tables, and the instructions that trap (R36, R41, R59, R192, R221). -/

namespace Sys2Proof.Machine

/-! The hard-wired registers (R41). -/

theorem pred_zero (x : Context) : x.pred 0 = BitVec.allOnes 64 := by
  rw [Context.pred, if_pos rfl]

theorem setReg_zero (x : Context) (r : Reg) : x.setReg 0 r = x := by
  rw [Context.setReg, if_pos rfl]

theorem setPred_zero (x : Context) (w : Word) : x.setPred 0 w = x := by
  rw [Context.setPred, if_pos rfl]

/-- Settles O6: reads of register 0 are its fixed value, writes of it the identity, and any other register reads back. -/
theorem hardWiredRegisters : Obligations.HardWiredRegisters := by
  unfold Obligations.HardWiredRegisters
  intro x
  refine ⟨reg_zero x, pred_zero x, setReg_zero x, setPred_zero x, fun i j r hi => ?_, fun i j w hi => ?_⟩
  · rw [setReg_reg]
    exact if_congr (and_iff_left_of_imp fun hij => hij ▸ hi) rfl rfl
  · rw [setPred_pred]
    exact if_congr (and_iff_left_of_imp fun hij => hij ▸ hi) rfl rfl

/-- Settles O4: the decoder run on each of the thirteen words. -/
theorem specWordsDecode : Obligations.SpecWordsDecode := by
  unfold Obligations.SpecWordsDecode
  decide

/-! Traps an instruction asks for (R192, R221). -/

section
variable {i : Instr} {h : Hdr} {t : Trap} {body : Nat → State → Res State} {s : State}

/-- An instruction whose body is a trap waits while something older has not completed (R227). -/
theorem run_trap_waits (hc : Clear s h) (ho : On s h) (hs : ¬ Settled s) (hb : body s.cur s = .error (.trap t)) :
    run i h body s = .next s := by
  rw [run_on hc ho, hb]
  exact congrArg Host.Outcome.next (if_neg hs)

/-- The body of an instruction that asks for a trap with its immediate (R192, R221). -/
def askedTrap (cause : BitVec 8) (o : ImmOps) : Nat → State → Res State :=
  fun _ _ => .error (.trap { cause := cause, val := o.imm.signExtend 64 })

theorem exec_trapi (o : ImmOps) (s : State) : exec (.trapi o) s = run (.trapi o) o.h (askedTrap 0x0B o) s := rfl

theorem exec_brk (o : ImmOps) (s : State) : exec (.brk o) s = run (.brk o) o.h (askedTrap 0x0F o) s := rfl

/-- A kernel instruction at task level takes the privilege trap whatever its guard and body (R57, R59). -/
theorem runKernel_task (hl : (s.ctx s.cur).level = .task) (ho : (s.ctx s.cur).outst = 0) (hs : Settled s) :
    runKernel i h body s = .next (takeTrap s s.cur (privTrap i)) := by
  have hlevel : (true && (s.ctx s.cur).level == .task) = true := by rw [hl]; rfl
  rw [runKernel, runIn]
  simp only [ho, ne_eq, not_true_eq_false, if_false, hlevel, if_true, settle_trap hs]

/-- The level of a custodian's variant is not met at task level. -/
theorem custodian_unmet (hl : (s.ctx s.cur).level = .task) : ((s.ctx s.cur).level != .custodian) = true := by rw [hl]; rfl

end

/-- Every instruction under a kernel opcode of the map runs in a frame that checks its level first (R59). -/
theorem kernel_traps_at_task {i : Instr} {f : Fields} {s : State} (hf : i.fields = some f) (hk : f.kernel = true)
    (hl : (s.ctx s.cur).level = .task) (ho : (s.ctx s.cur).outst = 0) (hs : Settled s) :
    Traps i s 0x02 ((w2Of (encode i)).setWidth 64) := by
  have hkern : ∀ {h : Hdr} {body : Nat → State → Res State}, runKernel i h body s = .next (takeTrap s s.cur (privTrap i)) :=
    runKernel_task hl ho hs
  have hcust : ∀ {h : Hdr} {body : Nat → State → Res State},
      runLevel i h ((s.ctx s.cur).level != .custodian) body s = .next (takeTrap s s.cur (privTrap i)) :=
    runLevel_below (custodian_unmet hl) ho hs
  cases i
  case bankcfg | eret | halt | tlbinvPage | tlbinvAll | migr | tcregAdd | tcregDel | tcregStat => exact hkern
  case bcbindBind | bcbindUnbind | bcbindStat => exact hkern
  case foffer | faccept | fwithdraw | flend | frecall | fret | fqueryState | fqueryDl | fqueryStrk => exact hkern
  case bcbindAssign | fofferGrant | fofferReclaim => exact hcust
  case ctest o =>
    cases Option.some.inj hf
    revert hk
    cases o.sub <;> exact nofun
  all_goals cases hf <;> exact Bool.noConfusion hk

/-- Settles O21: the body of TRAPI and of BRK is the trap, and the level of a kernel opcode is checked in front of its
guard. -/
theorem instructionsThatTrap : Obligations.InstructionsThatTrap := by
  unfold Obligations.InstructionsThatTrap
  refine ⟨⟨?_, ?_, ?_⟩, ?_⟩
  · intro o s hc ho hs
    exact (exec_trapi o s).trans (run_trap hc ho hs rfl)
  · intro o s hc ho hs
    exact (exec_brk o s).trans (run_trap hc ho hs rfl)
  · intro o s hc ho _ hs
    exact ⟨(exec_trapi o s).trans (run_trap_waits hc ho hs rfl), (exec_brk o s).trans (run_trap_waits hc ho hs rfl)⟩
  · intro i f s hf hk hl ho hs
    exact kernel_traps_at_task hf hk hl ho hs

end Sys2Proof.Machine
end

section
/-! SUPPORT. The element-wise vector instructions: a register of elements read back, the lanes an issued instruction will
write, and each instruction's elements (R351 to R362, R369, R370). -/

namespace Sys2Proof.Machine

/-! A register of elements (R351). -/

theorem foldr_elem_lt (w : Nat) (l : List Nat) : l.foldr (fun x a => x % 2 ^ w + 2 ^ w * a) 0 < 2 ^ (w * l.length) := by
  induction l with
  | nil => exact Nat.two_pow_pos _
  | cons x r ih =>
    have hx : x % 2 ^ w < 2 ^ w := Nat.mod_lt _ (Nat.two_pow_pos w)
    rw [List.foldr_cons, List.length_cons, Nat.mul_add_one, Nat.add_comm, Nat.pow_add]
    calc 2 ^ w * r.foldr (fun x a => x % 2 ^ w + 2 ^ w * a) 0 + x % 2 ^ w
        < 2 ^ w * r.foldr (fun x a => x % 2 ^ w + 2 ^ w * a) 0 + 2 ^ w := Nat.add_lt_add_left hx _
      _ = 2 ^ w * (r.foldr (fun x a => x % 2 ^ w + 2 ^ w * a) 0 + 1) := (Nat.mul_add_one ..).symm
      _ ≤ 2 ^ w * 2 ^ (w * r.length) := Nat.mul_le_mul_left _ ih
      _ = 2 ^ (w * r.length) * 2 ^ w := Nat.mul_comm ..

theorem foldr_elem_digit (w : Nat) (l : List Nat) : ∀ k, k < l.length →
    l.foldr (fun x a => x % 2 ^ w + 2 ^ w * a) 0 / 2 ^ (w * k) % 2 ^ w = l.getD k 0 % 2 ^ w := by
  induction l with
  | nil => exact fun k hk => absurd hk (Nat.not_lt_zero k)
  | cons x r ih =>
    intro k hk
    rw [List.foldr_cons]
    cases k with
    | zero => simp
    | succ k =>
      have hdrop : (x % 2 ^ w + 2 ^ w * r.foldr (fun x a => x % 2 ^ w + 2 ^ w * a) 0) / 2 ^ w =
          r.foldr (fun x a => x % 2 ^ w + 2 ^ w * a) 0 := by
        rw [Nat.add_mul_div_left _ _ (Nat.two_pow_pos w), Nat.div_eq_of_lt (Nat.mod_lt _ (Nat.two_pow_pos w)), Nat.zero_add]
      rw [Nat.mul_add_one, Nat.add_comm (w * k), Nat.pow_add, ← Nat.div_div_eq_div_mul, hdrop, ih k (Nat.lt_of_succ_lt_succ hk),
        List.getD_cons_succ]

/-- Element `k` of a register made of elements. -/
theorem velem_vecOf {w : Nat} {l : List Nat} {k : Nat} (hl : w * l.length ≤ 2048) (hk : k < l.length) :
    velem (vecOf w l) w k = l.getD k 0 % 2 ^ w := by
  have hlt := Nat.lt_of_lt_of_le (foldr_elem_lt w l) (Nat.pow_le_pow_right (by decide) hl)
  rw [velem, vecOf, BitVec.toNat_ofNat, Nat.mod_eq_of_lt hlt, foldr_elem_digit w l k hk]

theorem velem_lt (v : BitVec 2048) (w k : Nat) : velem v w k < 2 ^ w := Nat.mod_lt _ (Nat.two_pow_pos w)

/-! The flags of several elements (R135). -/

theorem foldl_or_bit {α : Type} (f : α → FpFlags) (l : List α) (b : Nat) : ∀ a : FpFlags,
    (l.foldl (fun (a : FpFlags) e => a ||| f e) a).getLsbD b = (a.getLsbD b || l.any fun e => (f e).getLsbD b) := by
  induction l with
  | nil => simp
  | cons e l ih => intro a; rw [List.foldl_cons, ih, BitVec.getLsbD_or, List.any_cons, Bool.or_assoc]

/-- An element's result where its lane is enabled, what it held where it is not (R52, R352). -/
theorem vmap_lanes (g : Word) (w : Nat) (old : BitVec 2048) (f : Nat → Nat × FpFlags) :
    Lanes w g old (vmap g w old f).1 (vmap g w old f).2 f := by
  refine ⟨fun k hk => ?_, fun b => ?_⟩
  · have hlen : w * (2048 / w) ≤ 2048 := Nat.mul_div_le 2048 w
    rw [vmap, velem_vecOf (by simpa using hlen) (by simpa using hk)]
    simp only [List.map_map, List.getD_eq_getElem?_getD, List.getElem?_map, List.getElem?_range hk, Option.map_some,
      Function.comp_apply, Option.getD_some]
    split
    · rfl
    · exact Nat.mod_eq_of_lt (velem_lt ..)
  · rw [vmap, foldl_or_bit, enabled, List.any_map, List.any_filter]
    rw [show BitVec.getLsbD (0 : FpFlags) b = false from BitVec.getLsbD_zero, Bool.false_or]
    refine List.any_congr rfl fun k => ?_
    simp only [Function.comp_apply]
    split
    next h => rw [h, Bool.true_and]
    next h => rw [Bool.eq_false_iff.2 h, Bool.false_and]; exact BitVec.getLsbD_zero

/-- Lanes are a matter of the enabled elements. -/
theorem Lanes.congr {w : Nat} {g : Word} {old new : BitVec 2048} {fl : FpFlags} {f f' : Nat → Nat × FpFlags}
    (h : Lanes w g old new fl f) (hf : ∀ k ∈ enabled g w, f k = f' k) : Lanes w g old new fl f' := by
  obtain ⟨hel, hfl⟩ := h
  refine ⟨fun k hk => ?_, fun b => ?_⟩
  · rw [hel k hk]
    split
    next hon => rw [hf k (List.mem_filter.2 ⟨List.mem_range.2 hk, hon⟩)]
    next => rfl
  · rw [hfl b]
    refine Bool.eq_iff_iff.2 ?_
    simp only [List.any_eq_true]
    exact exists_congr fun k => and_congr_right fun hk => by rw [hf k hk]

/-! Issue (R353). -/

section
variable {s : State} {i : Instr} {h : Hdr}

/-- A vector instruction with a lane enabled comes to its body (R52). -/
theorem runVector_on {body : Nat → Word → State → Res State} (hc : Clear s h) (hg : s.guardLanes h ≠ 0) :
    runVector i h body s = .next (finish s s.cur (body s.cur (s.guardLanes h) s)) := by
  unfold State.guardLanes at hg ⊢
  rw [runVector, runIn_clear hc, if_neg hg]

/-- What joins the queue is the entry with the order buffer's number at its issue; nothing else changes. -/
theorem queueVec_retired (p : VecPending) (hv : (s.ctx s.cur).vq.length < 2) :
    ∃ t, queueVec s s.cur p = .ok t ∧
      Retired s t [] { s.after with vq := (s.ctx s.cur).vq ++ [{ p with lid := (s.ctx s.cur).nextId }] } putNone := by
  have hr := retired_plain (s := s) (fun x => { x with vq := x.vq ++ [{ p with lid := x.nextId }] }) ((s.ctx s.cur).pc + 12) putNone
    (fun _ _ => rfl) rfl rfl
  refine ⟨_, ?_, hr⟩
  rw [queueVec, decide_eq_true hv, ask_true, Res.ok_bind, Res.pure_eq, retire, State.modCtx_ctx_same]

theorem vregs_ok {l : List (BitVec 5)} (hl : ∀ v ∈ l, (s.ctx s.cur).pendV v = false) : vregs s s.cur l = .ok () := by
  have hnone : (l.any fun v => (s.ctx s.cur).pendV v) = false := List.any_eq_false.2 fun v hv => by
    rw [hl v hv]; exact Bool.false_ne_true
  rw [vregs, hnone, Bool.not_false, ask_true]

/-- An instruction that is a map over its elements in the vector frame completes, if its elements are the table's. -/
theorem VecForm.completes {f : VecForm} (F : Context → Word → Nat → Nat × FpFlags)
    (he : ∀ s, exec i s = runVector i f.h (vecOp f.srcs f.d fun x g old => vmap g f.w old (F x g)) s)
    (hF : ∀ x g k, k ∈ enabled g f.w → F x g k = f.val x g k) : f.Completes i := by
  intro s hc hg hr
  obtain ⟨hregs, hroom⟩ := hr
  obtain ⟨t, ht, hret⟩ := queueVec_retired (s := s)
    { vec := [(f.d, (vmap (s.guardLanes f.h) f.w ((s.ctx s.cur).vreg f.d) (F (s.ctx s.cur) (s.guardLanes f.h))).1)]
      flags := (vmap (s.guardLanes f.h) f.w ((s.ctx s.cur).vreg f.d) (F (s.ctx s.cur) (s.guardLanes f.h))).2 } hroom
  refine ⟨_, _, ⟨t, ?_, hret⟩, (vmap_lanes ..).congr (hF (s.ctx s.cur) (s.guardLanes f.h))⟩
  rw [he, runVector_on hc hg, vecOp, vregs_ok hregs, Res.ok_bind]
  exact congrArg (fun r => Host.Outcome.next (finish s s.cur r)) ht

end

/-! Integer elements (R128, R163, R355). -/

/-- Ext is the value of the element's pattern (R163). -/
theorem vext_signed {t : VTy} (hs : t.isSigned = true) {x : Nat} (hx : x < 2 ^ t.width) : vext t x = (BitVec.ofNat t.width x).toInt := by
  rw [vext, hs, Bool.true_and, BitVec.toInt_eq_toNat_cond, BitVec.toNat_ofNat, Nat.mod_eq_of_lt hx]
  have hpow : 2 ^ t.width = 2 * 2 ^ (t.width - 1) := by cases t <;> rfl
  by_cases h : 2 ^ (t.width - 1) ≤ x
  · rw [if_pos (decide_eq_true h), if_neg (by omega)]
    push_cast
    rfl
  · rw [if_neg (by simpa using h), if_pos (by omega)]

theorem vext_unsigned {t : VTy} (hs : t.isSigned = false) (x : Nat) : vext t x = x := by
  rw [vext, hs, Bool.false_and, if_neg Bool.false_ne_true]

/-- The bounds of an integer type in order, and Ext within them. -/
theorem vext_mem {t : VTy} {x : Nat} (hx : x < 2 ^ t.width) : (vrange t).1 ≤ vext t x ∧ vext t x ≤ (vrange t).2 := by
  cases hs : t.isSigned with
  | true =>
    have hpow : (2 : Int) ^ t.width = 2 * 2 ^ (t.width - 1) := by cases t <;> rfl
    have hle := BitVec.le_toInt (BitVec.ofNat t.width x)
    have hlt := BitVec.toInt_lt (x := BitVec.ofNat t.width x)
    rw [vrange, hs, if_pos rfl, vext_signed hs hx]
    exact ⟨hle, by omega⟩
  | false =>
    have hcast : (x : Int) < 2 ^ t.width := by exact_mod_cast hx
    rw [vrange, hs, if_neg Bool.false_ne_true, vext_unsigned hs]
    exact ⟨Int.natCast_nonneg x, by omega⟩

/-- The model's integer result is the rule's: wrapped, or clamped with overflow. -/
theorem vint_eq (t : VTy) (sat : Bool) (r : Int) : vint t sat r = atWidth t sat r := by
  have hle : (vrange t).1 ≤ (vrange t).2 := by cases t <;> decide
  have hlo : (vrange t).1 = if t.isSigned then -(2 ^ (t.width - 1)) else 0 := by rw [vrange]; split <;> rfl
  have hhi : (vrange t).2 = if t.isSigned then 2 ^ (t.width - 1) - 1 else 2 ^ t.width - 1 := by rw [vrange]; split <;> rfl
  simp only [vint, atWidth, ← hlo, ← hhi]
  generalize (vrange t).1 = lo at *
  generalize (vrange t).2 = hi at *
  push_cast
  cases sat with
  | false => simp [flagIf]
  | true =>
    have hq : max lo (min hi r) = if r < lo then lo else if hi < r then hi else r := by
      split
      · omega
      · split <;> omega
    simp only [if_true, Bool.not_true, Bool.false_eq_true, if_false, hq, true_and, flagIf]
    refine Prod.ext rfl (if_congr ?_ rfl rfl)
    rw [bne_iff_ne]
    split
    · omega
    · split <;> omega

/-- A result within the type's bounds is not clamped. -/
theorem atWidth_mem {t : VTy} {r : Int} (h : (vrange t).1 ≤ r ∧ r ≤ (vrange t).2) (sat : Bool) :
    atWidth t sat r = atWidth t false r := by
  obtain ⟨hlo, hhi⟩ := h
  have hclamp : max (vrange t).1 (min (vrange t).2 r) = r := by omega
  cases sat with
  | false => rfl
  | true => simp only [← vint_eq, vint, hclamp, if_true, Bool.false_eq_true, if_false]

/-! Shifts of elements (R171, R361). -/

theorem shl_elem {w a : Nat} (n : Nat) (ha : a < 2 ^ w) :
    (if n < w then a * 2 ^ n % 2 ^ w else 0) = (BitVec.ofNat w a <<< n).toNat := by
  rw [BitVec.toNat_shiftLeft, BitVec.toNat_ofNat, Nat.mod_eq_of_lt ha, Nat.shiftLeft_eq]
  split
  next => rfl
  next h => exact (Nat.mod_eq_zero_of_dvd ((pow_dvd_pow 2 (Nat.le_of_not_lt h)).mul_left a)).symm

theorem shr_elem {w a : Nat} (n : Nat) (ha : a < 2 ^ w) :
    (if n < w then a / 2 ^ n else 0) = (BitVec.ofNat w a >>> n).toNat := by
  rw [BitVec.toNat_ushiftRight, BitVec.toNat_ofNat, Nat.mod_eq_of_lt ha, Nat.shiftRight_eq_div_pow]
  split
  next => rfl
  next h => exact (Nat.div_eq_of_lt (Nat.lt_of_lt_of_le ha (Nat.pow_le_pow_right (by decide) (Nat.le_of_not_lt h)))).symm

/-- A signed pattern shifted by its width less one, or more, is all sign. -/
theorem ediv_pow_sign {x : Int} {m n : Nat} (hx : -(2 ^ m) ≤ x ∧ x < 2 ^ m) (hn : m ≤ n) : x / 2 ^ n = if x < 0 then -1 else 0 := by
  obtain ⟨hlo, hhi⟩ := hx
  have hpow : (2 : Int) ^ m ≤ 2 ^ n := by exact_mod_cast Nat.pow_le_pow_right (by decide) hn
  have hpos : (0 : Int) < 2 ^ n := by positivity
  split
  · exact (Int.ediv_eq_iff_of_pos hpos).2 ⟨by omega, by omega⟩
  · exact Int.ediv_eq_zero_of_lt (by omega) (by omega)

theorem sar_elem {w : Nat} (b : BitVec w) (n : Nat) :
    (b.toInt / 2 ^ min n (w - 1) % 2 ^ w).toNat = (b.sshiftRight n).toNat := by
  have hb : -(2 ^ (w - 1)) ≤ b.toInt ∧ b.toInt < 2 ^ (w - 1) := ⟨BitVec.le_toInt b, BitVec.toInt_lt⟩
  have hmin : b.toInt / 2 ^ min n (w - 1) = b.toInt / 2 ^ n := by
    rcases Nat.le_total n (w - 1) with h | h
    · rw [Nat.min_eq_left h]
    · rw [Nat.min_eq_right h, ediv_pow_sign hb (Nat.le_refl _), ediv_pow_sign hb h]
  rw [hmin, ← BitVec.ofInt_toInt (x := b.sshiftRight n), BitVec.toNat_ofInt, BitVec.toInt_sshiftRight,
    Int.shiftRight_eq_div_pow]
  push_cast
  rfl

/-! Running sums and running FP32 values (R369). -/

/-- Those of a rising list up to one of its members. -/
theorem filter_le_eq_take : ∀ (l : List Nat), l.Pairwise (· < ·) → ∀ n k, l[n]? = some k →
    (l.filter fun j => decide (j ≤ k)) = l.take (n + 1)
  | [], _, n, k, h => nomatch h
  | a :: l, hl, 0, k, h => by
    obtain ⟨hhead, -⟩ := List.pairwise_cons.1 hl
    cases h
    have hrest : (l.filter fun j => decide (j ≤ a)) = [] :=
      List.filter_eq_nil_iff.2 fun j hj => by simpa using hhead j hj
    rw [List.filter_cons_of_pos (by simp), hrest, List.take_succ_cons, List.take_zero]
  | a :: l, hl, n + 1, k, h => by
    obtain ⟨hhead, htail⟩ := List.pairwise_cons.1 hl
    rw [List.getElem?_cons_succ] at h
    have hle : a ≤ k := Nat.le_of_lt (hhead k (List.mem_of_getElem? h))
    rw [List.filter_cons_of_pos (by simpa using hle), filter_le_eq_take l htail n k h, List.take_succ_cons]

theorem enabled_rising (g : Word) (w : Nat) : (enabled g w).Pairwise (· < ·) := List.pairwise_lt_range.filter _

/-- What stands beside a member of a list without repetitions. -/
theorem find_zip {β : Type} : ∀ (l : List Nat) (r : List β) (n k : Nat) (b : β), l.Nodup → l[n]? = some k → r[n]? = some b →
    ((l.zip r).find? fun e => e.1 == k) = some (k, b)
  | [], _, _, _, _, _, h, _ => nomatch h
  | _ :: _, [], _, _, _, _, _, h => nomatch h
  | a :: l, x :: r, 0, k, b, _, h, h' => by
    cases h; cases h'
    rw [List.zip_cons_cons, List.find?_cons_of_pos (by simp)]
  | a :: l, x :: r, n + 1, k, b, hn, h, h' => by
    obtain ⟨hhead, htail⟩ := List.nodup_cons.1 hn
    rw [List.getElem?_cons_succ] at h h'
    have hne : a ≠ k := fun e => hhead (e ▸ List.mem_of_getElem? h)
    rw [List.zip_cons_cons, List.find?_cons_of_neg (by simpa using hne), find_zip l r n k b htail h h']

/-- A running sum is the sum of a prefix. -/
theorem runI_getElem : ∀ (l : List Int) (a : Int) (n : Nat), n < l.length →
    (runI l a)[n]? = some ((l.take (n + 1)).foldl (· + ·) a)
  | [], _, _, h => absurd h (Nat.not_lt_zero _)
  | x :: l, a, 0, _ => by simp [runI]
  | x :: l, a, n + 1, h => by
    rw [runI, List.getElem?_cons_succ, runI_getElem l (a + x) n (Nat.lt_of_succ_lt_succ h), List.take_succ_cons, List.foldl_cons]

theorem runF_length (m : Fmt) (step : Nat → Nat → Nat × FpFlags) : ∀ (l : List Nat) (acc : Option Nat),
    (runF m step l acc).length = l.length
  | [], _ => rfl
  | _ :: l, _ => congrArg (· + 1) (runF_length m step l _)

/-- A running FP32 value is the last of a prefix's. -/
theorem runF_getElem (m : Fmt) (step : Nat → Nat → Nat × FpFlags) : ∀ (l : List Nat) (acc : Option Nat) (n : Nat), n < l.length →
    (runF m step l acc)[n]? = (runF m step (l.take (n + 1)) acc).getLast?
  | [], _, _, h => absurd h (Nat.not_lt_zero _)
  | x :: l, acc, 0, _ => by simp [runF]
  | x :: l, acc, n + 1, h => by
    have hn := Nat.lt_of_succ_lt_succ h
    simp only [List.take_succ_cons, runF, List.getElem?_cons_succ, runF_getElem m step l _ n hn, List.getLast?_cons]
    cases hl : (runF m step (l.take (n + 1)) _).getLast? with
    | some r => rfl
    | none =>
      have hlen := congrArg List.length (List.getLast?_eq_none_iff.1 hl)
      rw [runF_length, List.length_take, List.length_nil] at hlen
      omega

/-- VSCAN's running results, one for each enabled element. -/
def scanRun (o : V1) (x : Context) (g : Word) : List (Nat × FpFlags) :=
  let es := (enabled g o.ty.width).map (velem (x.vreg o.a) o.ty.width)
  match vtyFmt o.ty with
  | some m => (runF m (addF32 x.round) es none).map fun r =>
      if o.ty = .f32 then r
      else let v := m.convert (arithMode x.round) false (fF32.decode r.1); (v.1, r.2 ||| v.2)
  | none => (runI (es.map (vext o.ty)) 0).map (vint o.ty o.sat)

theorem scanRun_getElem (o : V1) (x : Context) (g : Word) {n k : Nat} (hk : (enabled g o.ty.width)[n]? = some k) :
    (scanRun o x g)[n]? = some (scanned o x g k) := by
  obtain ⟨hn, -⟩ := List.getElem?_eq_some_iff.1 hk
  have hup : upTo g o.ty.width k = (enabled g o.ty.width).take (n + 1) := filter_le_eq_take _ (enabled_rising ..) n k hk
  unfold scanRun scanned
  simp only [hup, List.map_take]
  cases vtyFmt o.ty with
  | none =>
    simp only [List.getElem?_map]
    rw [runI_getElem _ _ n (by simpa using hn), Option.map_some, vint_eq]
    rfl
  | some m =>
    have hlast := runF_getElem m (addF32 x.round) ((enabled g o.ty.width).map (velem (x.vreg o.a) o.ty.width)) none n (by simpa using hn)
    have hsome : ((runF m (addF32 x.round) ((enabled g o.ty.width).map (velem (x.vreg o.a) o.ty.width)) none)[n]?).isSome := by
      rw [isSome_getElem?, runF_length, List.length_map]
      exact hn
    obtain ⟨r, hr⟩ := Option.isSome_iff_exists.1 hsome
    simp only [List.getElem?_map, hr, Option.map_some]
    rw [hr] at hlast
    unfold Context.elem lastRun
    rw [← hlast]
    rfl

/-! Each instruction. -/

theorem vscan_completes (o : V1) : VecForm.Completes (.vscan o)
    { h := o.h, srcs := [o.a], d := o.d, w := o.ty.width, val := scanned o } := by
  refine VecForm.completes (fun x g k => match ((enabled g o.ty.width).zip (scanRun o x g)).find? fun e => e.1 == k with
    | some e => e.2 | none => (0, 0)) (fun _ => rfl) fun x g k hk => ?_
  obtain ⟨n, hn⟩ := List.mem_iff_getElem?.1 hk
  dsimp only
  rw [find_zip _ _ n k _ ((enabled_rising ..).imp Nat.ne_of_lt) hn (scanRun_getElem o x g hn)]

section
variable {i : Instr}

/-- A two-source instruction: the float operation, or the exact integer at the type's width. -/
theorem two_completes {o : V2} {I : Int → Int → Int} {f : Fmt → RoundMode → Nat → Nat → Nat × FpFlags}
    (he : ∀ s, exec i s = runVector i o.h (vbin o I f) s) : (two o I f).Completes i := by
  refine VecForm.completes _ he fun x g k _ => ?_
  simp only [two]
  cases vtyFmt o.ty with
  | some m => rfl
  | none => exact vint_eq ..

/-- The lesser or the greater of two elements is one of them, and is not clamped (R358). -/
theorem choice_completes {o : V2} {I : Int → Int → Int} {f : Fmt → RoundMode → Nat → Nat → Nat × FpFlags}
    (he : ∀ s, exec i s = runVector i o.h (vbin o I f) s) (hI : ∀ a b, I a b = a ∨ I a b = b) :
    (two { o with sat := false } I f).Completes i := by
  refine VecForm.completes _ he fun x g k _ => ?_
  simp only [two]
  cases vtyFmt o.ty with
  | some m => rfl
  | none =>
    refine (vint_eq ..).trans (atWidth_mem ?_ o.sat)
    have hmem : ∀ v, (vrange o.ty).1 ≤ vext o.ty (velem (x.vreg v) o.ty.width k) ∧
        vext o.ty (velem (x.vreg v) o.ty.width k) ≤ (vrange o.ty).2 := fun v => vext_mem (velem_lt ..)
    rcases hI (vext o.ty (velem (x.vreg o.a) o.ty.width k)) (vext o.ty (velem (x.vreg o.b) o.ty.width k)) with h | h
    · rw [h]; exact hmem o.a
    · rw [h]; exact hmem o.b

/-- A bitwise instruction over whole lanes (R361). -/
theorem lanewise_completes {o : VLogic} {F : Nat → Nat → Nat} {f : BitVec 32 → BitVec 32 → BitVec 32}
    (he : ∀ s, exec i s = runVector i o.h (vlogic o F) s)
    (hf : ∀ a b, a < 2 ^ 32 → b < 2 ^ 32 → F a b = (f (BitVec.ofNat 32 a) (BitVec.ofNat 32 b)).toNat) :
    (lanewise o f).Completes i :=
  VecForm.completes _ he fun _ _ _ _ => Prod.ext (hf _ _ (velem_lt ..) (velem_lt ..)) rfl

/-- A function of a floating-point value (R360). -/
theorem function_completes {o : V1} {f : Fmt → RoundMode → FVal → Nat × FpFlags}
    (he : ∀ s, exec i s = runVector i o.h (vfloat o f) s) (ht : o.ty.isInt = false) :
    (oneFloat o fun m r a => f m r (m.decode a)).Completes i := by
  refine VecForm.completes (fun x _ k => match vtyFmt o.ty with
    | some m => f m x.round (m.decode (x.elem o.a o.ty.width k)) | none => (x.elem o.a o.ty.width k, 0)) he fun x g k _ => ?_
  have hfmt : (vtyFmt o.ty).isSome = true := by
    revert ht
    cases o.ty <;> decide
  obtain ⟨m, hm⟩ := Option.isSome_iff_exists.1 hfmt
  simp only [oneFloat, hm]

end

theorem vfma_completes {o : V3} {f : VecForm} (h : vecForm (.vfma o) = some f) : f.Completes (.vfma o) := by
  cases h
  refine VecForm.completes _ (fun _ => rfl) fun x g k _ => ?_
  dsimp only
  cases vtyFmt o.ty with
  | some m => rfl
  | none => exact vint_eq ..

theorem vabs_completes {o : V1} {f : VecForm} (h : vecForm (.vabs o) = some f) : f.Completes (.vabs o) := by
  cases h
  refine VecForm.completes _ (fun _ => rfl) fun x g k _ => ?_
  dsimp only
  cases vtyFmt o.ty with
  | some m => rfl
  | none =>
    have habs : ∀ a : Int, (a.natAbs : Int) = if a < 0 then -a else a := fun a => by omega
    rw [habs]
    exact vint_eq ..

theorem vneg_completes {o : V1} {f : VecForm} (h : vecForm (.vneg o) = some f) : f.Completes (.vneg o) := by
  cases h
  refine VecForm.completes _ (fun _ => rfl) fun x g k _ => ?_
  dsimp only
  cases vtyFmt o.ty with
  | some m => rfl
  | none => exact vint_eq ..

theorem vclass_completes {o : V1} {f : VecForm} (h : vecForm (.vclass o) = some f) : f.Completes (.vclass o) := by
  cases h
  exact VecForm.completes _ (fun _ => rfl) fun _ _ _ _ => rfl

theorem vshl_completes {o : V2} {f : VecForm} (h : vecForm (.vshl o) = some f) : f.Completes (.vshl o) := by
  cases h
  exact VecForm.completes _ (fun _ => rfl) fun _ _ _ _ => Prod.ext (shl_elem _ (velem_lt ..)) rfl

theorem vshr_completes {o : V2} {f : VecForm} (h : vecForm (.vshr o) = some f) : f.Completes (.vshr o) := by
  cases h
  refine VecForm.completes _ (fun _ => rfl) fun x g k _ => Prod.ext ?_ rfl
  dsimp only
  split
  next hs =>
    rw [vext_signed hs (velem_lt ..)]
    exact sar_elem ..
  next => exact shr_elem _ (velem_lt ..)

/-- Settles O44: every instruction is a map over its elements in the vector frame, and each element is the table's. -/
theorem vectorElements : Obligations.VectorElements := by
  unfold Obligations.VectorElements
  rintro i f (h | h) hfloats
  · cases i
    case vadd | vsub | vmul => cases h; exact two_completes fun _ => rfl
    case vmin => cases h; exact choice_completes (fun _ => rfl) min_choice
    case vmax => cases h; exact choice_completes (fun _ => rfl) max_choice
    case vfma => exact vfma_completes h
    case vabs => exact vabs_completes h
    case vneg => exact vneg_completes h
    case vclass => exact vclass_completes h
    case vand | vor | vxor =>
      cases h
      exact lanewise_completes (fun _ => rfl) fun a b ha hb => by
        simp only [BitVec.toNat_and, BitVec.toNat_or, BitVec.toNat_xor, BitVec.toNat_ofNat, Nat.mod_eq_of_lt ha,
          Nat.mod_eq_of_lt hb]
    case vshl => exact vshl_completes h
    case vshr => exact vshr_completes h
    case vperm => cases h; exact VecForm.completes _ (fun _ => rfl) fun _ _ _ _ => rfl
    case vscan o => cases h; exact vscan_completes o
    all_goals exact nomatch h
  · cases i
    case vrcp | vrsq | vexp2 | vlog2 => cases h; exact function_completes (fun _ => rfl) hfloats
    all_goals exact nomatch h

end Sys2Proof.Machine
end

section
/-! SUPPORT. BCENT, BCLISTEN and BCBIND (R420 to R425): what is sent to the Beacon unit, the reply that comes back, and
the lane controller's answers. -/

namespace Sys2Proof.Machine

/-! A reply that has come (R425, R437). -/

/-- The state in which an instruction whose reply has come writes it: nothing is sent, no reply is kept. -/
def State.takingReply (s : State) : State := s.modCtx s.cur fun x => { x with sent := false, reply := none }

theorem takingReply_own (s : State) : s.takingReply.ctx s.cur = { s.ctx s.cur with sent := false, reply := none } :=
  State.modCtx_ctx_same ..

theorem takingReply_others (s : State) (e : Nat) (he : e ≠ s.cur) : s.takingReply.ctx e = s.ctx e :=
  State.modCtx_ctx_ne _ _ _ _ (Ne.symm he)

/-- The destination's room does not depend on the reply. -/
theorem takingReply_room {s : State} {d : Option Dst} (h : operandsReady s s.cur [] d = true) :
    operandsReady s.takingReply s.cur [] d = true := by
  have hm : meshCore s.takingReply s.cur = meshCore s s.cur := by simp only [meshCore, takingReply_own]
  rw [← h]
  cases d with
  | none => rfl
  | some d =>
    cases d with
    | n i => simp only [operandsReady, hm]; rfl
    | _ => rfl

/-- A word carries nothing of its sender's reply. -/
theorem WordSent.of_takingReply {s t : State} {k : Nat} {r : WordReg} {w : Word} {owed : Bool}
    (h : WordSent s.takingReply t k r w owed) : WordSent s t k r w owed := by
  obtain ⟨m, hw, hfrom, ht, hnet, hnext⟩ := h
  have hcur : s.takingReply.cur = s.cur := rfl
  rw [hcur, takingReply_own] at hfrom hnet
  exact ⟨m, hw, hfrom, ht, hnet, hnext⟩

/-- What becomes of the context's reply before its word is written, retiring makes of it anyway. -/
theorem ScalarDone.of_takingReply {s t : State} {d : Dst} {w : Word} (h : ScalarDone s.takingReply t [] d w 0) :
    ScalarDone s t [] d w 0 := by
  have hown := takingReply_own s
  have hothers := takingReply_others s
  have hcur : s.takingReply.cur = s.cur := rfl
  have hw : Within s t := Within.trans (t := s.takingReply) rfl h.whole
  exact {
    whole := hw
    bytes := hw.bytes
    own := by
      have ho := h.own
      rw [hcur, hown] at ho
      exact ho
    regs := fun j => by
      have hr := h.regs j
      rw [hcur, hown] at hr
      exact hr
    consumed := ⟨h.consumed.queues, h.consumed.ports, h.consumed.mail⟩
    core := h.core
    cores := h.cores
    others := fun e hc he => by
      have ho := h.others e hc he
      rw [hothers e he] at ho
      exact ho
    dies := h.dies
    pools := h.pools
    flags := h.flags
    net := by
      have hn := h.net
      cases d with
      | n i =>
        have hm : meshCore s.takingReply s.cur = meshCore s s.cur := by simp only [meshCore, hown]
        rw [Departed, hcur, hm] at hn
        exact WordSent.of_takingReply hn
      | _ => exact hn }

/-- In the state in which a reply is written, the context may answer as before. -/
theorem takingReply_answers {s : State} {d : Dst} (hc : isContext s.cur = true) (hl : Lone s) (hd : d.local = true) (w : Word)
    (hr : operandsReady s s.cur [] (some d) = true) :
    ∃ t, answer s.takingReply s.cur d w = .ok t ∧ ScalarDone s t [] d w 0 := by
  obtain ⟨t, ht, hdone⟩ := answer_done (u := s.takingReply) hc hl.pair hd w (takingReply_room hr)
  exact ⟨t, ht, hdone.of_takingReply⟩

/-- A reply that has come is written, off a replay (R425). -/
theorem beaconReply_came {s : State} {w : Word} {d : Dst} (hl : Lone s) (h : (s.ctx s.cur).reply = some (.ok w)) (k : Wait) :
    beaconReply s s.cur d k = answer s.takingReply s.cur d w := by
  have hown := takingReply_own s
  have hrep : replayOf s.takingReply s.cur = none :=
    replayOf_keep hl.replay rfl (by rw [hown]) (by rw [hown]) (by rw [hown])
  rw [State.takingReply] at hrep ⊢
  simp only [beaconReply, h, outside_plain hrep, Res.ok_bind]

theorem beaconReply_none {s : State} {d : Dst} (h : (s.ctx s.cur).reply = none) (k : Wait) :
    beaconReply s s.cur d k = .error (.block k) := by
  simp only [beaconReply, h]

section
variable {s : State} {i : Instr} {h : Hdr} {body : Nat → State → Res State} {d : Dst} {k : Wait}

/-- An instruction that has sent its request to the Beacon unit writes the result word once it has come (R421, R422). -/
theorem run_beaconReply_came (hc : Clear s h) (ho : On s h) (hl : Lone s) (hd : d.local = true)
    (hb : body s.cur s = beaconReply s s.cur d k) (he : exec i s = run i h body s) {w : Word}
    (hw : (s.ctx s.cur).reply = some (.ok w)) : Answered i s s d w := by
  intro hr
  obtain ⟨t, ht, hdone⟩ := takingReply_answers hc.real hl hd w hr
  exact ⟨t, he.trans (run_next hc ho (hb.trans ((beaconReply_came hl hw k).trans ht))), hdone⟩

/-- While the result word has not come, the context waits. -/
theorem run_beaconReply_none (hc : Clear s h) (ho : On s h) (hb : body s.cur s = beaconReply s s.cur d k)
    (hw : (s.ctx s.cur).reply = none) : run i h body s = .next (blockOn s s.cur k) :=
  run_block hc ho (hb.trans (beaconReply_none hw k))

end

/-! What is sent (R421, R422). -/

section
variable {s : State} {srcs : List Src} {d : Dst}

/-- Reading operands leaves what an entrant carries of its context, and that it runs under no replay. -/
structure TakenKept (s u : State) : Prop where
  cur : u.cur = s.cur
  ident : (u.ctx s.cur).ident = (s.ctx s.cur).ident
  set : (u.ctx s.cur).set = (s.ctx s.cur).set
  replay : replayOf u s.cur = replayOf s s.cur

theorem taken_kept (h : Ready s srcs (some d)) : TakenKept s (s.taken srcs (some d)) := by
  obtain ⟨u, ⟨got, hg⟩, hs⟩ := sources_ready h
  have ht : s.taken srcs (some d) = u := by simp only [State.taken, hs]
  rw [ht]
  exact ⟨by rw [hg.whole], by rw [hg.own], by rw [hg.own], hg.replay⟩

/-- Off a replay an entry or a listen goes to the die's Beacon unit, and its context waits for the result. -/
theorem beaconSend_sent {u : State} {e : Entrant} (h : replayOf u u.cur = none) :
    beaconSend u u.cur d e = .ok (blockOn (u.counted.withEntry e).hasSent u.cur (if e.listen then .listen else .beacon)) := by
  have hrep : replaying u u.cur = false := by simp only [replaying, h]
  have hcur : (u.counted.withEntry e).cur = u.cur := by
    rw [State.withEntry, State.counted, countSent, (countEvent_counted u (coreOf u.cur) 5 1).whole]
  simp only [beaconSend, hrep, Bool.false_eq_true, if_false]
  rw [State.hasSent, hcur]
  rfl

theorem bcent_sends {o : BcentOps} (hc : Clear s o.h) (ho : On s o.h) (hs : Sends s [o.b] o.d) (hr : Ready s [o.b] (some o.d))
    (hn : (s.ctx s.cur).sent = false) :
    exec (.bcent o) s = .next (blockOn ((s.taken [o.b] (some o.d)).counted.withEntry
      { c := s.cur, cid := o.cid, part := (s.ctx s.cur).ident.part, vf := (s.ctx s.cur).ident.vf
        key := (srcWord s [] o.b).setWidth 32, nolate := o.nolate
        cust := (s.ctx s.cur).ident.custodian, set := (s.ctx s.cur).set }).hasSent s.cur .beacon) := by
  obtain ⟨hcur, hident, hset, hrep⟩ := taken_kept hr
  have hsend := fun e => beaconSend_sent (d := o.d) (e := e) (hcur ▸ hrep.trans hs.has.lone.replay)
  rw [hcur] at hsend
  refine run_next hc ho ?_
  simp only [bcentBody, hn, Bool.false_eq_true, if_false, leaveNow_lone hs.has.lone hs.older, Res.ok_bind, (sources_taken hr).1,
    hident, hset, hsend]
  rfl

theorem bclisten_sends {o : BclistenOps} (hc : Clear s o.h) (ho : On s o.h) (hs : Sends s [] o.d) (hr : Ready s [] (some o.d))
    (hn : (s.ctx s.cur).sent = false) :
    exec (.bclisten o) s = .next (blockOn ((s.taken [] (some o.d)).counted.withEntry
      { c := s.cur, cid := o.cid, part := (s.ctx s.cur).ident.part, vf := (s.ctx s.cur).ident.vf, listen := true
        cust := (s.ctx s.cur).ident.custodian, set := (s.ctx s.cur).set }).hasSent s.cur .listen) := by
  obtain ⟨hcur, hident, hset, hrep⟩ := taken_kept hr
  have hsend := fun e => beaconSend_sent (d := o.d) (e := e) (hcur ▸ hrep.trans hs.has.lone.replay)
  rw [hcur] at hsend
  refine run_next hc ho ?_
  simp only [bclistenBody, hn, Bool.false_eq_true, if_false, leaveNow_lone hs.has.lone hs.older, Res.ok_bind, (sources_taken hr).1,
    hident, hset, hsend]
  rfl

end

/-! The lane controller (R423, R424). -/

/-- An instruction of kernel level, at kernel or custodian level, runs as any other (R59). -/
theorem runKernel_met {i : Instr} {h : Hdr} {body : Nat → State → Res State} {s : State} (hp : Privileged s) :
    runKernel i h body s = run i h body s := by
  have hlevel : ((s.ctx s.cur).level == Level.task) = false := beq_false_of_ne hp
  simp only [runKernel, run, runIn, hlevel, Bool.and_false]

/-- Asking leaves every lane and the asker's identity as they were. -/
theorem asked_lanes {s : State} {srcs : List Src} {d : Option Dst} (h : Has s srcs d) (n : Nat) :
    (s.asked srcs d).lane n = s.lane n := by
  obtain ⟨-, -, -, -, hu, -⟩ := h.words_used
  rw [State.asked, State.counted, countSent, State.lane, (countEvent_counted _ _ 5 1).whole]
  show Sparse.get {} (s.used srcs d).lanes n = _
  rw [hu.whole]
  rfl

theorem cidElse_iff {s v : State} {n : Nat} {part : BitVec 8} {cid : BitVec 12} (h : ∀ j, v.lane j = s.lane j) :
    cidElse v n part cid = true ↔ BoundOnOther s n part cid := by
  simp only [cidElse, BoundOnOther, List.any_eq_true, List.mem_range, Bool.and_eq_true, bne_iff_ne, beq_iff_eq, h, Lane.after,
    Nat.lt_succ_iff]
  constructor
  · rintro ⟨j, hj, hne, k, hk, ⟨hb, hp⟩, hc⟩
    exact ⟨j, k, hj, hne, hk, hb, hp, hc⟩
  · rintro ⟨j, k, hj, hne, hk, hb, hp, hc⟩
    exact ⟨j, hj, hne, k, hk, ⟨hb, hp⟩, hc⟩

theorem boundElse_iff {s : State} {l : Lane} : boundElse (s.ctx s.cur).ident l = true ↔ BoundByOther s l := by
  simp only [boundElse, BoundByOther, Bool.and_eq_true, bne_iff_ne]

theorem notAssigned_iff {s : State} {l : Lane} :
    (l.part != (s.ctx s.cur).ident.part || l.part == 0xFF) = true ↔ NotAssigned s l := by
  simp only [NotAssigned, Bool.or_eq_true, bne_iff_ne, beq_iff_eq]

theorem ahead_eq_after (l : Lane) : l.ahead = l.after l.staged.length := by
  rw [Lane.ahead, Lane.after, List.take_length]

/-- The refusal a lane's controller gives, if any, finding the lane as `l`: `own` asks that the lane be of the asker's
partition, `f` gives a further refusal. -/
def laneVerdict (v : State) (i : Ident) (own : Bool) (f : State → Ident → Lane → Option Nat) (l : Lane) : Option Nat :=
  if own && (l.part != i.part || l.part == 0xFF) then some 1 else f v i l

/-- What a lane's controller answers: its refusal, or 0 with the change staged, or the lane word. -/
def laneAnswer (v : State) (n : Nat) : Option Nat → Option Staged → Word × State
  | some r, _ => (refusal r, v)
  | none, some g => (0, v.stage n g)
  | none, none => (laneWord (v.lane n), v)

theorem laneAnswer_sameCores (v : State) (n : Nat) (r : Option Nat) (g : Option Staged) : SameCores v (laneAnswer v n r g).2 := by
  cases r <;> cases g <;> exact ⟨rfl, rfl⟩

section
variable {s v : State} {n : Nat} {d : Dst} {own : Bool} {f : State → Ident → Lane → Option Nat} {change : Ident → Option Staged}
variable {l : Lane} {i : Instr} {h : Hdr}

/-- A request for a change is judged by the lane as its staged changes will leave it, any other as it is (log 72). -/
def laneView (l : Lane) (g : Option Staged) : Lane := if g.isSome then l.after l.staged.length else l

/-- A lane command comes down to the controller's answer, in the state in which it is asked. -/
theorem laneCmd_asks (hs : Sends s [] d) :
    laneCmd n d own f change s.cur s =
      let v := s.asked [] (some d)
      let g := change (s.ctx s.cur).ident
      let a := laneAnswer v n (laneVerdict v (s.ctx s.cur).ident own f (laneView (s.lane n) g)) g
      answer a.2 s.cur d a.1 := by
  obtain ⟨-, -, -, -, hu, -⟩ := hs.has.words_used
  have hlane : (s.used [] (some d)).lane n = s.lane n := by rw [State.lane, hu.whole]; rfl
  have hasked : countEvent (s.used [] (some d)) (coreOf s.cur) 5 1 = s.asked [] (some d) := by
    rw [State.asked, State.counted, countSent, hu.cur]
  unfold laneCmd
  refine blockingCmd_answered hs ?_
  simp only [hu.ident, hlane, hasked, ahead_eq_after]
  have hview : (if (change (s.ctx s.cur).ident).isSome then (s.lane n).after (s.lane n).staged.length else s.lane n) =
    laneView (s.lane n) (change (s.ctx s.cur).ident) := rfl
  rw [hview, laneVerdict]
  split
  · rfl
  · cases f (s.asked [] (some d)) (s.ctx s.cur).ident _ with
    | some r => rfl
    | none =>
      cases change (s.ctx s.cur).ident with
      | some g => rfl
      | none => rw [← asked_lanes hs.has]; rfl

/-- The instruction's destination takes what the controller answers. -/
theorem lane_answered {r : Option Nat} {u : State} {w : Word} (hc : Clear s h) (ho : On s h) (hs : Sends s [] d)
    (he : exec i s = run i h (laneCmd n d own f change) s)
    (hv : laneVerdict (s.asked [] (some d)) (s.ctx s.cur).ident own f
      (laneView (s.lane n) (change (s.ctx s.cur).ident)) = r)
    (ha : laneAnswer (s.asked [] (some d)) n r (change (s.ctx s.cur).ident) = (w, u)) : Answered i s u d w := by
  intro hr
  have hsame := laneAnswer_sameCores (s.asked [] (some d)) n r (change (s.ctx s.cur).ident)
  have hbody := laneCmd_asks (n := n) (own := own) (f := f) (change := change) hs
  simp only [hv, ha] at hbody
  rw [ha] at hsame
  obtain ⟨t, ht, hdone⟩ := (asked_kept hs.has).answers hc.real hsame hs.plain w hr
  exact ⟨t, he.trans (run_next hc ho (hbody.trans ht)), hdone⟩

theorem laneVerdict_any (v : State) (i : Ident) (f : State → Ident → Lane → Option Nat) (l : Lane) :
    laneVerdict v i false f l = f v i l := rfl

theorem laneVerdict_unassigned (hn : NotAssigned s l) : laneVerdict v (s.ctx s.cur).ident true f l = some 1 := by
  rw [laneVerdict, notAssigned_iff.2 hn]; rfl

theorem laneVerdict_assigned (hn : ¬ NotAssigned s l) :
    laneVerdict v (s.ctx s.cur).ident true f l = f v (s.ctx s.cur).ident l := by
  rw [laneVerdict, Bool.eq_false_iff.2 fun h => hn (notAssigned_iff.1 h)]; rfl

theorem boundElse_false (hb : ¬ BoundByOther s l) : boundElse (s.ctx s.cur).ident l = false :=
  Bool.eq_false_iff.2 fun h => hb (boundElse_iff.1 h)

end

/-! BCBIND (R423, R424). -/

section
variable {s : State}

theorem bcbindBind_answers (o : BindOps) (hc : Clear s o.h) (ho : On s o.h) (hp : Privileged s) (hs : Sends s [] o.d) :
    let u := s.asked [] (some o.d)
    let n := o.lane.toNat
    let l := (s.lane n).after (s.lane n).staged.length
    (NotAssigned s l → Answered (.bcbindBind o) s u o.d (refusal 1)) ∧
    (¬ NotAssigned s l → BoundByOther s l → Answered (.bcbindBind o) s u o.d (refusal 2)) ∧
    (¬ NotAssigned s l → ¬ BoundByOther s l → BoundOnOther s n l.part o.cid → Answered (.bcbindBind o) s u o.d (refusal 3)) ∧
    (¬ NotAssigned s l → ¬ BoundByOther s l → ¬ BoundOnOther s n l.part o.cid →
      Answered (.bcbindBind o) s (u.stage n (.bind o.cid (s.ctx s.cur).ident.vf o.rot)) o.d 0) := by
  have he := (rfl : exec (.bcbindBind o) s = execBcbindBind o s).trans (runKernel_met hp)
  have hcid := fun part => cidElse_iff (n := o.lane.toNat) (part := part) (cid := o.cid) (asked_lanes hs.has)
  refine ⟨fun hn => ?_, fun hn hb => ?_, fun hn hb hx => ?_, fun hn hb hx => ?_⟩
  · exact lane_answered (r := some 1) hc ho hs he (laneVerdict_unassigned hn) rfl
  · refine lane_answered (r := some 2) hc ho hs he ((laneVerdict_assigned hn).trans ?_) rfl
    exact if_pos (boundElse_iff.2 hb)
  · refine lane_answered (r := some 3) hc ho hs he ((laneVerdict_assigned hn).trans ?_) rfl
    exact (if_neg (Bool.eq_false_iff.1 (boundElse_false hb))).trans (if_pos ((hcid _).2 hx))
  · refine lane_answered (r := none) hc ho hs he ((laneVerdict_assigned hn).trans ?_) rfl
    exact (if_neg (Bool.eq_false_iff.1 (boundElse_false hb))).trans (if_neg fun h => hx ((hcid _).1 h))

theorem bcbindUnbind_answers (o : LaneOps) (hc : Clear s o.h) (ho : On s o.h) (hp : Privileged s) (hs : Sends s [] o.d) :
    let u := s.asked [] (some o.d)
    let n := o.lane.toNat
    let l := (s.lane n).after (s.lane n).staged.length
    (NotAssigned s l → Answered (.bcbindUnbind o) s u o.d (refusal 1)) ∧
    (¬ NotAssigned s l → BoundByOther s l → Answered (.bcbindUnbind o) s u o.d (refusal 2)) ∧
    (¬ NotAssigned s l → ¬ BoundByOther s l → Answered (.bcbindUnbind o) s (u.stage n .unbind) o.d 0) := by
  have he := (rfl : exec (.bcbindUnbind o) s = execBcbindUnbind o s).trans (runKernel_met hp)
  refine ⟨fun hn => ?_, fun hn hb => ?_, fun hn hb => ?_⟩
  · exact lane_answered (r := some 1) hc ho hs he (laneVerdict_unassigned hn) rfl
  · refine lane_answered (r := some 2) hc ho hs he ((laneVerdict_assigned hn).trans ?_) rfl
    exact if_pos (boundElse_iff.2 hb)
  · refine lane_answered (r := none) hc ho hs he ((laneVerdict_assigned hn).trans ?_) rfl
    exact if_neg (Bool.eq_false_iff.1 (boundElse_false hb))

/-- `.stat` shows the lane as applied. -/
theorem bcbindStat_answers (o : LaneOps) (hc : Clear s o.h) (ho : On s o.h) (hp : Privileged s) (hs : Sends s [] o.d) :
    let u := s.asked [] (some o.d)
    let n := o.lane.toNat
    (NotAssigned s (s.lane n) → Answered (.bcbindStat o) s u o.d (refusal 1)) ∧
    (¬ NotAssigned s (s.lane n) → Answered (.bcbindStat o) s u o.d (laneWord (s.lane n))) := by
  have he := (rfl : exec (.bcbindStat o) s = execBcbindStat o s).trans (runKernel_met hp)
  refine ⟨fun hn => ?_, fun hn => ?_⟩
  · exact lane_answered (r := some 1) hc ho hs he (laneVerdict_unassigned hn) rfl
  · rw [← asked_lanes hs.has]
    exact lane_answered (r := none) hc ho hs he (laneVerdict_assigned hn) rfl

/-- `.assign` at custodian level asks nothing of the lane, only that the number name a partition or none. -/
theorem bcbindAssign_answers (o : AssignOps) (hc : Clear s o.h) (ho : On s o.h) (hl : (s.ctx s.cur).level = .custodian)
    (hs : Sends s [] o.d) :
    let u := s.asked [] (some o.d)
    (16 ≤ o.part.toNat ∧ o.part ≠ 0xFF → Answered (.bcbindAssign o) s u o.d (refusal 5)) ∧
    (o.part.toNat < 16 ∨ o.part = 0xFF → Answered (.bcbindAssign o) s (u.stage o.lane.toNat (.assign o.part)) o.d 0) := by
  have hmet : ((s.ctx s.cur).level != .custodian) = false := by rw [hl]; rfl
  have he : exec (.bcbindAssign o) s = run (.bcbindAssign o) o.h
      (laneCmd o.lane.toNat o.d false (fun _ _ _ => if 16 ≤ o.part.toNat ∧ o.part ≠ 0xFF then some 5 else none)
        fun _ => some (.assign o.part)) s :=
    (rfl : exec (.bcbindAssign o) s = execBcbindAssign o s).trans (runLevel_met hmet)
  refine ⟨fun hp => ?_, fun hp => ?_⟩
  · exact lane_answered (r := some 5) hc ho hs he ((laneVerdict_any ..).trans (if_pos hp)) rfl
  · refine lane_answered (r := none) hc ho hs he ((laneVerdict_any ..).trans (if_neg ?_)) rfl
    rintro ⟨hge, hne⟩
    exact hp.elim (Nat.not_lt.2 hge) hne

theorem bcbindAssign_traps (o : AssignOps) (ho : (s.ctx s.cur).outst = 0) (hl : (s.ctx s.cur).level = .kernel)
    (hs : Settled s) : Traps (.bcbindAssign o) s 0x02 ((w2Of (encode (.bcbindAssign o))).setWidth 64) :=
  runLevel_below (by rw [hl]; rfl) ho hs

end

/-- Settles O49: an instruction to the Beacon unit sends its entrant, and its result word is written when it has come; a
BCBIND answers what the lane's controller answers. -/
theorem beaconInstructions : Obligations.BeaconInstructions := by
  unfold Obligations.BeaconInstructions
  refine ⟨?_, ?_, ?_, ?_, ?_, ?_, ?_, ?_⟩
  · intro o s hc ho hs hr hn
    exact bcent_sends hc ho hs hr hn
  · intro o s hc ho hs hr hn
    exact bclisten_sends hc ho hs hr hn
  · intro o s hc ho hl hd hn
    have hb : bcentBody o s.cur s = beaconReply s s.cur o.d .beacon := if_pos hn
    exact ⟨fun w hw => run_beaconReply_came hc ho hl hd hb rfl hw, run_beaconReply_none hc ho hb⟩
  · intro o s hc ho hl hd hn
    have hb : bclistenBody o s.cur s = beaconReply s s.cur o.d .listen := if_pos hn
    exact ⟨fun w hw => run_beaconReply_came hc ho hl hd hb rfl hw, run_beaconReply_none hc ho hb⟩
  · intro o s hc ho hp hs
    exact bcbindBind_answers o hc ho hp hs
  · intro o s hc ho hp hs
    obtain ⟨hn1, hn2, hn3⟩ := bcbindUnbind_answers o hc ho hp hs
    obtain ⟨hs1, hs2⟩ := bcbindStat_answers o hc ho hp hs
    exact ⟨hn1, hn2, hn3, hs1, hs2⟩
  · intro o s ho hl hs
    exact bcbindAssign_traps o ho hl hs
  · intro o s hc ho hl hs
    exact bcbindAssign_answers o hc ho hl hs

end Sys2Proof.Machine
end

section
/-! SUPPORT. The custody record of a stack whose frame is redirected in a circle (R289, R434): a transaction ends the
redirection of the frame it names, and its entry, read again, is no longer where it was written. -/

namespace Sys2Proof.Machine

/-- Stack 0 has its record in frame 0, which stands for itself by way of frame 1000 and back. -/
def circledRecord : State :=
  { State.reset with bases := [(0, { custEn := true, redirect := [(0, 1000), (1000, 0)] })] }

/-- Frame 1000 may be named and its entry's line is sound: the two redirections lead back to the record. -/
theorem circledRecord_sound : RecordSound circledRecord 1000 where
  named := by decide
  there := by decide
  aligned := by decide
  sound := by decide
  straight := by decide

/-- The entry written in state 1 reads as state 0: frame 1000 is redirected no more, so the record now stands at it. -/
theorem putEntry_circledRecord : entState (entry0 (putEntry circledRecord 1000 1 0 0 false 0 0) 1000) = 0 := by
  decide +kernel

/-- Refutes O50: its last clause takes the record's frame to stand for itself before the entry is written, but not
after. A frame that stands for itself through the named frame does so no more once the transaction drops the named
frame's redirection, and the entry reads as zeros. -/
theorem not_custodyTransactions : ¬ Obligations.CustodyTransactions := by
  unfold Obligations.CustodyTransactions
  rintro ⟨-, -, -, -, -, -, hentry⟩
  obtain ⟨hst, -⟩ := hentry circledRecord 1000 1 0 0 false 0 0 circledRecord_sound (by decide) (by decide)
  exact absurd (putEntry_circledRecord.symm.trans hst) (by decide)

end Sys2Proof.Machine
end

section
/-! SUPPORT. What a store at a home leaves alone: the traffic in flight, the number of the next object made, and the
dies (R104, R156, R275, R319). -/

namespace Sys2Proof.Machine

/-! A store at a home neither reads nor changes the traffic and the dies. -/

/-- A state with other traffic, another next number and other dies. -/
def State.beside (s : State) (net : List (Nat × NetMsg)) (next : Nat) (dies : Sparse Die) : State :=
  { s with net := net, next := next, dies := dies }

section
variable (s : State) (net : List (Nat × NetMsg)) (next : Nat) (dies : Sparse Die)

/-- Steps that each go on beside other traffic, in order. -/
theorem foldl_beside {α : Type} {f : State → α → State}
    (h : ∀ s a, f (s.beside net next dies) a = (f s a).beside net next dies) (l : List α) :
    l.foldl f (s.beside net next dies) = (l.foldl f s).beside net next dies :=
  List.foldl_hom (fun s : State => s.beside net next dies) h

theorem base_beside (k : Nat) : (s.beside net next dies).base k = s.base k := rfl

theorem redirectFrame_beside (n : Nat) : ∀ f, redirectFrame (s.beside net next dies) n f = redirectFrame s n f := by
  induction n with
  | zero => exact fun _ => rfl
  | succ n ih =>
    intro f
    simp only [redirectFrame, ih]
    rfl

theorem redirect_beside (pa : Nat) : redirect (s.beside net next dies) pa = redirect s pa := by
  unfold redirect
  simp only [redirectFrame_beside]
  rfl

theorem loc_beside (pa : Nat) : loc (s.beside net next dies) pa = loc s pa := by
  unfold loc
  rw [redirect_beside]
  rfl

theorem tileFlags_beside (t : Tile) : tileFlags (s.beside net next dies) t = (tileFlags s t).beside net next dies := by
  unfold tileFlags regionFlags
  split
  · split <;> rfl
  · rfl

theorem tileWrite_beside (pa : Nat) : tileWrite (s.beside net next dies) pa = (tileWrite s pa).beside net next dies := by
  have hany : (s.beside net next dies).base = s.base := rfl
  unfold tileWrite
  simp only [hany]
  split
  · rfl
  · exact foldl_beside (s.modBase (pa / 2 ^ 37) fun b => { b with tiles := b.tiles.filter fun t => !t.covers pa }) net next dies
      (fun s t => tileFlags_beside s net next dies t) _

theorem homePoke_beside (pa : Nat) (b : Byte) :
    homePoke (s.beside net next dies) pa b = (homePoke s pa b).beside net next dies := by
  unfold homePoke
  rw [loc_beside, tileWrite_beside]
  cases loc s pa with
  | none => rfl
  | some a =>
    dsimp only
    have hpoison : (purge ((tileWrite s pa).beside net next dies) (pa / 128)).poison =
      (purge (tileWrite s pa) (pa / 128)).poison := rfl
    rw [hpoison]
    split <;> rfl

theorem homeByte_beside (pa : Nat) : homeByte (s.beside net next dies) pa = homeByte s pa := by
  unfold homeByte
  rw [loc_beside]
  rfl

theorem homeWord_beside (pa : Nat) : homeWord (s.beside net next dies) pa = homeWord s pa := by
  simp only [homeWord, homeBytes, homeByte_beside]

theorem entryAddr_beside (frame : Nat) : entryAddr (s.beside net next dies) frame = entryAddr s frame := by
  unfold entryAddr
  dsimp only
  rw [base_beside]

/-- The entry of a frame is found at the same home. -/
theorem entry0_beside (frame : Nat) : entry0 (s.beside net next dies) frame = entry0 s frame := by
  unfold entry0
  rw [base_beside, entryAddr_beside, homeWord_beside]

theorem sealLine_beside (line : Nat) : sealLine (s.beside net next dies) line = (sealLine s line).beside net next dies := by
  have hpart : ∀ k, (s.beside net next dies).part k = s.part k := fun _ => rfl
  simp only [sealLine, entry0_beside, hpart]
  generalize (if isHbm (line * 128) && decide (1 ≤ entState (entry0 s (line / 512)) ∧ entState (entry0 s (line / 512)) ≤ 4) &&
    (s.part (entPart (entry0 s (line / 512))).toNat).prot then (s.part (entPart (entry0 s (line / 512))).toNat).key else none) = key
  rfl

theorem homeStore_beside (pa : Nat) (bs : List Byte) :
    homeStore (s.beside net next dies) pa bs = (homeStore s pa bs).beside net next dies := by
  unfold homeStore
  dsimp only
  rw [foldl_beside s net next dies fun s (c : Nat × Byte) => homePoke_beside s net next dies c.1 c.2]
  exact foldl_beside _ net next dies (fun s line => sealLine_beside s net next dies line) _

end

/-- A store at a home leaves the traffic, the next number and the dies as they are. -/
theorem homeStore_leaves (s : State) (pa : Nat) (bs : List Byte) :
    homeStore s pa bs = (homeStore s pa bs).beside s.net s.next s.dies :=
  homeStore_beside s s.net s.next s.dies pa bs

end Sys2Proof.Machine
end

section
/-! SUPPORT. Messages that arrive and are answered: atomics and signals at their engines, replies and resends (R291, R295,
R298 to R300). -/

namespace Sys2Proof.Machine

/-! The traffic after a message has gone and its answer is sent. -/

section
variable (s : State) (k : Nat)

/-- A state with a message sent. -/
def State.send (s : State) (m : NetMsg) : State := { s with net := s.net ++ [(s.next, m)], next := s.next + 1 }

theorem takeMsg_net : (takeMsg s k).net = netAfter s k [] := (List.append_nil _).symm

theorem takeMsg_eq : takeMsg s k = { s with net := netAfter s k [] } := by
  rw [← takeMsg_net]; rfl

theorem sendReply_eq (c : Nat) (seq : BitVec 16) (p : Reply) (f : FpFlags) :
    sendReply s c seq p f = s.send (.atomReply c seq p f) := rfl

end

/-! An atomic at its engine (R291, R295, R298). -/

section
variable {s : State} {k : Nat} {r : AtomReq}

/-- Applying an atomic stores at its home at most. -/
theorem applyAtomic_leaves (s : State) (r : AtomReq) :
    (applyAtomic s r).2.2 = (applyAtomic s r).2.2.beside s.net s.next s.dies := by
  unfold applyAtomic
  split
  · rfl
  · dsimp only
    split
    · exact homeStore_leaves s _ _
    · rfl

/-- The state in which a performed atomic's reply is kept and sent: its line is its engine's die's alone (R275). -/
def atomicDone (s : State) (r : AtomReq) (lines : List Nat) : State :=
  match (applyAtomic s r).1 with
  | .ok _ => lines.foldl (fun s l => takeExclusive s r.engine r.ident.part l) (applyAtomic s r).2.2
  | .trap _ => (applyAtomic s r).2.2

theorem atomicDone_only (s : State) (r : AtomReq) (lines : List Nat) : CachesOnly (applyAtomic s r).2.2 (atomicDone s r lines) := by
  unfold atomicDone
  split
  · exact .foldl (fun s l => takeExclusive_only s r.engine r.ident.part l) lines _
  · exact .refl _

/-- A fresh atomic that nothing keeps from its home performs there, and its reply is kept and sent. -/
theorem performAtomic_performs (hin : InNet s k (.atomic r)) (hfresh : replyCache s r.engine r.c r.seq = .fresh)
    (hold : olderOnTheWay s r.engine r.c r.seq = false) (hframe : frameHeld s r.pa = false) (hbank : bankHeld s r.c r.pa k = false)
    (hgrant : cacheable s r.pa = true → granted s r.engine (r.pa / 128) = true) :
    exec (.performAtomic k) s =
      let a := applyAtomic (takeMsg s k) r
      let v := atomicDone (takeMsg s k) r (if cacheable s r.pa then [r.pa / 128] else [])
      .next (sendReply (cacheReply (markPerformed v r.c r.seq) r.engine r.c r.seq a.1 a.2.1) r.c r.seq a.1 a.2.1) := by
  have hlines : (if cacheable s r.pa then [r.pa / 128] else []).all (granted s r.engine) = true := by
    split
    next hc => simp only [List.all_cons, List.all_nil, hgrant hc, Bool.and_self]
    next => rfl
  refine (rfl : exec (.performAtomic k) s = execPerformAtomic k s).trans (congrArg Host.Outcome.next ?_)
  unfold InNet at hin
  simp only [hin, hfresh, hold, hframe, hbank, hlines, Bool.or_self, Bool.not_true, Bool.false_eq_true, if_false]
  rfl

theorem performAtomic_waits (hin : InNet s k (.atomic r)) (hfresh : replyCache s r.engine r.c r.seq = .fresh)
    (hold : olderOnTheWay s r.engine r.c r.seq = true) : exec (.performAtomic k) s = .next s := by
  refine (rfl : exec (.performAtomic k) s = execPerformAtomic k s).trans (congrArg Host.Outcome.next ?_)
  unfold InNet at hin
  simp only [hin, hfresh, hold, Bool.true_or, if_true]

theorem performAtomic_cached (hin : InNet s k (.atomic r)) {p : Reply} {f : FpFlags}
    (hc : replyCache s r.engine r.c r.seq = .cached p f) :
    exec (.performAtomic k) s = .next ((takeMsg s k).send (.atomReply r.c r.seq p f)) := by
  refine (rfl : exec (.performAtomic k) s = execPerformAtomic k s).trans (congrArg Host.Outcome.next ?_)
  unfold InNet at hin
  simp only [hin, hc, sendReply_eq]

theorem performAtomic_stale (hin : InNet s k (.atomic r)) (hc : replyCache s r.engine r.c r.seq = .stale) :
    exec (.performAtomic k) s = .next (takeMsg s k) := by
  refine (rfl : exec (.performAtomic k) s = execPerformAtomic k s).trans (congrArg Host.Outcome.next ?_)
  unfold InNet at hin
  simp only [hin, hc]

/-- What performing leaves: the reply on its way and kept, and the bytes the atomic makes. -/
theorem performed_spec {p : Reply} {f : FpFlags} {u v : State} (hv : CachesOnly u v) (hu : u = u.beside (takeMsg s k).net s.next s.dies)
    (die c : Nat) (seq : BitVec 16) :
    let t := sendReply (cacheReply (markPerformed v c seq) die c seq p f) c seq p f
    t.net = netAfter s k [.atomReply c seq p f] ∧ (∀ x, byteAt t x = byteAt u x) ∧
      Sparse.get [] (t.die die).replies c = ((seq, p, f) :: Sparse.get [] (s.die die).replies c).take 4 := by
  have hdies : v.dies = s.dies := by rw [hv, hu]; rfl
  have hdie : (markPerformed v c seq).die die = s.die die := by
    show Sparse.get {} v.dies die = _
    rw [hdies]; rfl
  intro t
  refine ⟨?_, fun x => ?_, ?_⟩
  · show v.net ++ [(v.next, _)] = _
    rw [hv, hu]
    rfl
  · show byteAt v x = byteAt u x
    obtain ⟨hmem, hwrites, -⟩ := hv.mem
    simp only [byteAt, hmem, hwrites]
  · show Sparse.get [] ((cacheReply (markPerformed v c seq) die c seq p f).die die).replies c = _
    rw [cacheReply, State.modDie_at_die, if_pos rfl, hdie, Sparse.get_set_same]

end

end Sys2Proof.Machine
end

section
/-! SUPPORT. Replies that end a request, resends, and task signals at their engine (R250, R295, R298). -/

namespace Sys2Proof.Machine

/-! A reply ends its context's request (R298, R300). -/

section
variable {s : State} {c : Nat} {r : AtomReq} {p : Reply} {f : FpFlags}

/-- A context with its requests ended. -/
def State.endedRequests (s : State) (c : Nat) : State := s.setCtx c { s.ctx c with atoms := [] }

theorem endedRequests_ctx (s : State) (c : Nat) : (s.endedRequests c).ctx c = { s.ctx c with atoms := [] } :=
  State.setCtx_ctx_same ..

/-- An AMO that waits has its reply. -/
theorem endAtom_waiting (ha : (s.ctx c).atoms = [.inl r]) (hd : r.dst.isSome = true) (hw : ∃ n, (s.ctx c).run = .blocked .amoReply n) :
    endAtom s c r.seq p f = (s.endedRequests c).modCtx c fun x => { x with reply := some p, oflags := f } := by
  obtain ⟨n, hn⟩ := hw
  simp only [endAtom, ha, List.find?_cons, beq_self_eq_true, hd, if_true, State.modCtx, List.filter_cons, Bool.not_true,
    Bool.false_eq_true, if_false, List.filter_nil, State.setCtx_ctx_same, hn, State.endedRequests]

/-- The trap of a refused AMOR goes to the owner it was issued for. -/
theorem endAtom_refused {tr : Trap} (ha : (s.ctx c).atoms = [.inl r]) (hd : r.dst = none) :
    endAtom s c r.seq (.trap tr) f = pendOwner (s.endedRequests c) r.owner tr := by
  simp only [endAtom, ha, List.find?_cons, beq_self_eq_true, hd, State.modCtx, List.filter_cons, Bool.not_true,
    Bool.false_eq_true, if_false, List.filter_nil, Option.isSome_none, State.endedRequests]

theorem endAtom_waiting_ctx (ha : (s.ctx c).atoms = [.inl r]) (hd : r.dst.isSome = true)
    (hw : ∃ n, (s.ctx c).run = .blocked .amoReply n) :
    (endAtom s c r.seq p f).ctx c = { s.ctx c with atoms := [], reply := some p, oflags := f } := by
  rw [endAtom_waiting ha hd hw, State.modCtx_ctx_same, endedRequests_ctx]

end

/-! A trap reaches the context that is its owner (R227, R236). -/

theorem Sparse.mem_set {α : Type} (m : Sparse α) (k : Nat) (v : α) : (k, v) ∈ Sparse.set m k v := by
  induction m with
  | nil => exact List.mem_cons_self
  | cons e m ih =>
    obtain ⟨a, x⟩ := e
    unfold Sparse.set
    split
    · exact List.mem_cons_self
    · split
      · exact List.mem_cons_self
      · exact List.mem_cons_of_mem _ ih

theorem mem_insertTrap (l : List Trap) (t : Trap) : t ∈ insertTrap l t := by simp [insertTrap]

section
variable {s : State} {c : Nat} {tr : Trap}

/-- A trap made pending is pending, and changes no request of its context. -/
theorem pendTrap_ctx (s : State) (c : Nat) (tr : Trap) :
    tr ∈ ((pendTrap s c tr).ctx c).pend ∧ ((pendTrap s c tr).ctx c).atoms = (s.ctx c).atoms := by
  rw [pendTrap, interrupt, State.modCtx_ctx_same, State.modCtx_ctx_same]
  split <;> exact ⟨mem_insertTrap _ _, rfl⟩

/-- Ending a context's requests changes the owner of no timeline. -/
theorem endedRequests_tlOwner (s : State) (c e : Nat) : tlOwner (s.endedRequests c) e = tlOwner s e := by
  have hctx : ((s.endedRequests c).ctx e).task = (s.ctx e).task ∧ ((s.endedRequests c).ctx e).set = (s.ctx e).set := by
    by_cases h : e = c
    · subst h
      rw [endedRequests_ctx]
      exact ⟨rfl, rfl⟩
    · rw [State.endedRequests, State.setCtx_ctx_ne _ _ _ _ (Ne.symm h)]
      exact ⟨rfl, rfl⟩
  simp only [tlOwner, hctx]

/-- A timeline's trap goes to the one context that owns it. -/
theorem pendOwner_ended {owner : Nat} (ho : owner = tlOwner s c)
    (hone : (s.ctxs.filter fun x => tlOwner s x.1 == owner) = [(c, s.ctx c)]) (hrun : (s.ctx c).run ≠ .free) :
    pendOwner (s.endedRequests c) owner tr = pendTrap (s.endedRequests c) c tr := by
  have hctxs : (s.endedRequests c).ctxs = Sparse.set s.ctxs c { s.ctx c with atoms := [] } := rfl
  have hfound : ∃ x, ((s.endedRequests c).ctxs.find? fun x => x.2.run != .free && tlOwner (s.endedRequests c) x.1 == owner) = some (c, x) := by
    simp only [endedRequests_tlOwner]
    cases hf : ((s.endedRequests c).ctxs.find? fun x => x.2.run != .free && tlOwner s x.1 == owner) with
    | none =>
      have hno := List.find?_eq_none.1 hf _ (hctxs ▸ Sparse.mem_set s.ctxs c { s.ctx c with atoms := [] })
      exact absurd (Bool.and_eq_true_iff.2 ⟨bne_iff_ne.2 hrun, beq_iff_eq.2 ho.symm⟩) hno
    | some e =>
      obtain ⟨e, x⟩ := e
      have hpred := List.find?_some hf
      simp only [Bool.and_eq_true] at hpred
      have hin := List.mem_of_find?_eq_some hf
      rw [hctxs] at hin
      rcases Sparse.set_mem _ _ _ _ hin with h | h
      · have he : e = c := congrArg Prod.fst h
        exact ⟨x, by rw [he]⟩
      · have hmem : (e, x) ∈ [(c, s.ctx c)] := hone ▸ List.mem_filter.2 ⟨h, hpred.2⟩
        have he : e = c := congrArg Prod.fst (List.mem_singleton.1 hmem)
        exact ⟨x, by rw [he]⟩
  obtain ⟨x, hx⟩ := hfound
  simp only [pendOwner, hx]

end

/-! The reply of a request arrives, and a request is sent again (R295). -/

section
variable {s : State} {k c : Nat} {r : AtomReq} {p : Reply} {f : FpFlags}

theorem atomicReply_ends {seq : BitVec 16} (hin : InNet s k (.atomReply c seq p f)) :
    exec (.atomicReply k) s = .next (endAtom (takeMsg s k) c seq p f) := by
  refine (rfl : exec (.atomicReply k) s = execAtomicReply k s).trans (congrArg Host.Outcome.next ?_)
  unfold InNet at hin
  simp only [hin]

theorem atomicResend_one (ha : (s.ctx c).atoms = [.inl r]) : exec (.atomicResend c) s = .next (resendOne c s (.inl r)) := by
  show execAtomicResend c s = _
  unfold execAtomicResend
  rw [ha]
  rfl

theorem resendOne_early (ht : s.time.toNat < r.sent + 20000) : resendOne c s (.inl r) = s := if_pos ht

/-- A context's request with its new time. -/
def State.retimed (s : State) (c : Nat) (r : AtomReq) : State := s.modCtx c fun x => { x with
  atoms := x.atoms.map fun y => if y = .inl r then .inl { r with sent := s.time.toNat } else y }

theorem retimed_atoms (ha : (s.ctx c).atoms = [.inl r]) :
    ((s.retimed c r).ctx c).atoms = [.inl { r with sent := s.time.toNat }] := by
  rw [State.retimed, State.modCtx_ctx_same, ha, List.map_singleton, if_pos rfl]

theorem resendOne_sends (ht : r.sent + 20000 ≤ s.time.toNat) (hl : (s.die (dieOf c)).lost.getLsbD r.engine = false) :
    resendOne c s (.inl r) = (s.retimed c r).send (.atomic { r with sent := s.time.toNat }) := by
  simp only [resendOne, if_neg (Nat.not_lt.2 ht), hl, Bool.false_eq_true, if_false]
  rfl

theorem resendOne_lost (ht : r.sent + 20000 ≤ s.time.toNat) (hl : (s.die (dieOf c)).lost.getLsbD r.engine = true) :
    resendOne c s (.inl r) = endAtom s c r.seq (.trap { cause := 0x33, val := r.ea, aux := 1 }) 0 := by
  simp only [resendOne, if_neg (Nat.not_lt.2 ht), hl, if_true]

end

/-! A task signal at its counter's die (R249, R250, R291). -/

section
variable (s : State) (net : List (Nat × NetMsg)) (next : Nat)

/-- A state with other traffic and another next number. -/
def State.traffic (s : State) (net : List (Nat × NetMsg)) (next : Nat) : State := { s with net := net, next := next }

theorem modDie_traffic (die : Nat) (f : Die → Die) : (s.traffic net next).modDie die f = (s.modDie die f).traffic net next := rfl

theorem makeReady_traffic (t : Task) : makeReady (s.traffic net next) t = (makeReady s t).traffic net next := by
  have hactor : ∀ a, (s.traffic net next).actor a = s.actor a := fun _ => rfl
  unfold makeReady
  simp only [hactor]
  split
  · split
    · split <;> rfl
    · rfl
  · rfl

theorem homeStore_traffic (pa : Nat) (bs : List Byte) :
    homeStore (s.traffic net next) pa bs = (homeStore s pa bs).traffic net next := by
  have h := homeStore_beside s net next s.dies pa bs
  rw [homeStore_leaves s pa bs] at h ⊢
  exact h

/-- A signal's subtraction neither reads nor changes the traffic. -/
theorem signalCounter_traffic (pa amount : Nat) :
    signalCounter (s.traffic net next) pa amount = (signalCounter s pa amount).traffic net next := by
  have hvalue : counterValue (s.traffic net next) pa = counterValue s pa := by
    have hbyte := fun a => homeByte_beside s net next s.dies a
    unfold counterValue homeBytes
    exact congrArg ofBytes (List.map_congr_left fun i _ => hbyte (pa + i))
  unfold signalCounter
  simp only [hvalue]
  split
  · rfl
  · have hunder : ∀ die, (if counterValue s pa < amount then
        (s.traffic net next).modDie die fun d => { d with under := min (d.under + 1) 0xFFFF } else s.traffic net next) =
      (if counterValue s pa < amount then s.modDie die fun d => { d with under := min (d.under + 1) 0xFFFF } else s).traffic
        net next := fun die => by split <;> rfl
    rw [hunder, homeStore_traffic]
    generalize homeStore _ pa _ = u
    have hdie : ∀ die, (u.traffic net next).die die = u.die die := fun _ => rfl
    split
    · simp only [hdie]
      split
      · rw [modDie_traffic, makeReady_traffic]
      · rfl
    · rfl

end

section
variable {s : State} {k q off : Nat} {r : SigReq}

/-- A fresh signal that nothing keeps from its counter subtracts from it where it is backed, and is answered. -/
theorem tsigPerform_subtracts (hin : InNet s k (.sig r)) (hfresh : replyCache s r.die r.c r.seq = .fresh)
    (hold : olderOnTheWay s r.die r.c r.seq = false) (hbank : bankHeld s r.c r.pa k = false) (hregion : region r.pa = .scratch q off)
    (hbacked : (scratchLoc s q off).isSome = true) (horphan : (s.clu q).orphan = none) (hruns : cmdStopped s r.ident = false) :
    exec (.tsigPerform k) s = .next (sendReply (cacheReply (signalCounter (takeMsg s k) r.pa r.amount.toNat) r.die r.c r.seq (.ok 0) 0)
      r.c r.seq (.ok 0) 0) := by
  have hloc : scratchLoc (takeMsg s k) q off = scratchLoc s q off := rfl
  have hclu : (takeMsg s k).clu q = s.clu q := rfl
  have hstop : cmdStopped (takeMsg s k) r.ident = cmdStopped s r.ident := rfl
  refine (rfl : exec (.tsigPerform k) s = execTsigPerform k s).trans (congrArg Host.Outcome.next ?_)
  unfold InNet at hin
  simp only [hin, hfresh, hold, hbank, hregion, hloc, hbacked, hclu, horphan, hstop, hruns, Bool.or_self, Bool.false_eq_true, if_false,
    Option.isNone_none, Bool.and_self, Bool.not_false, if_true]

/-- What a performed signal leaves: its reply on its way, and the counter's new bytes. -/
theorem signalled_spec (s : State) (k pa amount die c : Nat) (seq : BitVec 16) :
    let t := sendReply (cacheReply (signalCounter (takeMsg s k) pa amount) die c seq (.ok 0) 0) c seq (.ok 0) 0
    t.net = netAfter s k [.atomReply c seq (.ok 0) 0] ∧ ∀ x, byteAt t x = byteAt (signalCounter s pa amount) x := by
  have htaken : takeMsg s k = s.traffic (takeMsg s k).net s.next := rfl
  intro t
  have ht : t = sendReply (cacheReply ((signalCounter s pa amount).traffic (takeMsg s k).net s.next) die c seq (.ok 0) 0) c seq (.ok 0) 0 := by
    rw [← signalCounter_traffic, ← htaken]
  rw [ht]
  exact ⟨rfl, fun _ => rfl⟩

end

end Sys2Proof.Machine
end

section
/-! SUPPORT. Words, acknowledgements, active messages, done messages and lapses that arrive (R49, R215, R256, R483). -/

namespace Sys2Proof.Machine

/-! Words (R46, R49, R483). -/

section
variable {s t : State} {k core c : Nat} {r : WordReg} {w : MsgWord} {gti : Word} {i : Ident} {fwd owed : Bool}

/-- The acknowledgement that is owed goes out, and nothing else is done. -/
theorem ackWord_traffic (t : State) (owed : Bool) (c : Nat) (gti : Word) :
    ackWord t owed c gti = t.traffic (ackWord t owed c gti).net (ackWord t owed c gti).next := by
  cases owed <;> rfl

theorem ackWord_net (hnet : t.net = (takeMsg s k).net) (hnext : t.next = s.next) :
    (ackWord t owed c gti).net = netAfter s k (if owed then [.wordAck c gti] else []) := by
  cases owed with
  | false => exact hnet.trans (takeMsg_net s k)
  | true =>
    show t.net ++ [(t.next, _)] = _
    rw [hnet, hnext]
    rfl

theorem ackWord_ctx (t : State) (owed : Bool) (c : Nat) (gti : Word) (d : Nat) : (ackWord t owed c gti).ctx d = t.ctx d := by
  rw [ackWord_traffic]; rfl

theorem ackWord_core (t : State) (owed : Bool) (c : Nat) (gti : Word) (j : Nat) : (ackWord t owed c gti).core j = t.core j := by
  rw [ackWord_traffic]; rfl

/-- A word whose turn it is, for a register of the core that gives it place, is taken if there is room. -/
theorem wordArrival_accepts (h : WordTurn s k core r w c gti i fwd owed) (hr : route s core r = .accept) :
    exec (.wordArrival k) s = .next ((acceptWord (takeMsg s k) core r w).elim s fun t => ackWord t owed c gti) := by
  obtain ⟨hin, hfresh, hreach, hfirst⟩ := h
  refine (rfl : exec (.wordArrival k) s = execWordArrival k s).trans (congrArg Host.Outcome.next ?_)
  unfold InNet at hin
  simp only [hin, hfresh, hreach, hfirst, hr, Bool.not_true, Bool.false_eq_true, if_false]
  cases acceptWord (takeMsg s k) core r w <;> rfl

theorem wordArrival_redirects {target : Nat} (h : WordTurn s k core r w c gti i fwd owed) (hr : route s core r = .redirect target) :
    exec (.wordArrival k) s = .next ((takeMsg s k).send (.word target r w c gti i true owed)) := by
  obtain ⟨hin, hfresh, hreach, hfirst⟩ := h
  refine (rfl : exec (.wordArrival k) s = execWordArrival k s).trans (congrArg Host.Outcome.next ?_)
  unfold InNet at hin
  simp only [hin, hfresh, hreach, hfirst, hr, Bool.not_true, Bool.false_eq_true, if_false]
  rfl

/-- The spill ring of a core with a word more. -/
def State.spilled (s : State) (core : Nat) (g : Word) (r : WordReg) (w : MsgWord) : State :=
  s.setCore core { s.core core with spill := (s.core core).spill ++ [{ gti := g, reg := r, w := w }] }

theorem wordArrival_spills {g : Word} (h : WordTurn s k core r w c gti i fwd owed) (hr : route s core r = .ring g)
    (hroom : (s.core core).spill.length < 256) :
    exec (.wordArrival k) s = .next (ackWord (wakeParked ((takeMsg s k).spilled core g r w) core (latchBit r)) owed c gti) := by
  obtain ⟨hin, hfresh, hreach, hfirst⟩ := h
  refine (rfl : exec (.wordArrival k) s = execWordArrival k s).trans (congrArg Host.Outcome.next ?_)
  unfold InNet at hin
  simp only [hin, hfresh, hreach, hfirst, hr, Bool.not_true, Bool.false_eq_true, if_false, if_neg (Nat.not_le.2 hroom)]
  rfl

/-- A woken core's contexts have the latch bits. -/
theorem wakeCore_latch {d : Nat} {bit : BitVec 5} (hd : d ∈ contextsOf core) :
    ((wakeCore t core bit).ctx d).latch = (t.ctx d).latch ||| bit := by
  obtain ⟨-, -, hctx⟩ := wakeCore_spec t core bit
  rw [hctx, if_pos hd]

theorem wakeCore_core (t : State) (core : Nat) (bit : BitVec 5) (j : Nat) : (wakeCore t core bit).core j = t.core j := by
  rw [(wakeCore_spec t core bit).1]; rfl

/-- An empty mailbox takes the word, with its time of arrival. -/
def State.mailed (s : State) (core m : Nat) (w : MsgWord) : State :=
  s.setCore core { s.core core with mbox := Sparse.set (s.core core).mbox m (some { w with t1 := s.time.toNat }) }

theorem acceptWord_mailbox {m : Nat} (h : (s.core core).mail m = none) :
    acceptWord s core (.mbx m) w = some (wakeCore (s.mailed core m w) core 0x01) := by
  simp only [acceptWord, h, Option.isSome_none, Bool.false_eq_true, if_false]
  rfl

theorem acceptWord_mailbox_full {m : Nat} (h : (s.core core).mail m ≠ none) : acceptWord s core (.mbx m) w = none := by
  simp only [acceptWord, Option.isSome_iff_ne_none.2 h, if_true]

/-- A port with room takes the word at its end. -/
def State.ported (s : State) (core n : Nat) (w : Word) : State :=
  s.setCore core { s.core core with ports := Sparse.set (s.core core).ports n ((s.core core).port n ++ [w]) }

theorem acceptWord_port {n : Nat} (h : ((s.core core).port n).length < 4) :
    acceptWord s core (.port n) w = some (wakeCore (s.ported core n w.w) core 0x02) := by
  simp only [acceptWord, if_neg (Nat.not_le.2 h)]
  rfl

theorem mailed_mail (s : State) (core m j : Nat) (w : MsgWord) : ((s.mailed core m w).core core).mail j =
    if m = j then some { w with t1 := s.time.toNat } else (s.core core).mail j := by
  rw [State.mailed, State.setCore_core_same]
  exact Sparse.get_set ..

theorem ported_port (s : State) (core n j : Nat) (w : Word) : ((s.ported core n w).core core).port j =
    if n = j then (s.core core).port n ++ [w] else (s.core core).port j := by
  rw [State.ported, State.setCore_core_same]
  exact Sparse.get_set ..

/-- What a core leaves that has taken a word, woken its contexts and acknowledged. -/
theorem accepted_spec (u : State) (core : Nat) (bit : BitVec 5) (owed : Bool) (c : Nat) (gti : Word)
    (hu : u = { takeMsg s k with cores := u.cores }) :
    let t := ackWord (wakeCore u core bit) owed c gti
    (∀ j, t.core j = u.core j) ∧ t.net = netAfter s k (if owed then [.wordAck c gti] else []) ∧ SameBytes s t ∧
      ∀ d ∈ contextsOf core, (t.ctx d).latch = (s.ctx d).latch ||| bit := by
  have hwoken := (wakeCore_spec u core bit).1
  refine ⟨fun j => ?_, ackWord_net ?_ ?_, fun a => ?_, fun d hd => ?_⟩
  · rw [ackWord_core, wakeCore_core]
  · rw [hwoken, hu]
  · rw [hwoken, hu]; rfl
  · rw [ackWord_traffic, hwoken, hu]; rfl
  · rw [ackWord_ctx, wakeCore_latch hd, hu]; rfl

end

/-! Acknowledgements (R49, R215). -/

section
variable {s : State} {k c : Nat} {gti : Word}

/-- The context that waits for an answer of a kind has it. -/
theorem recordAnswer_own {kind : Nat} (hk : (s.ctx c).outst = kind) (hg : gtiOf (s.ctx c) = gti) :
    recordAnswer s c gti kind = s.setCtx c { s.ctx c with acked := true } := by
  have howed : owedContext s c gti kind = some c := if_pos ⟨hk, hg⟩
  simp only [recordAnswer, howed]
  rfl

theorem mailboxAcknowledgement_marks (hin : InNet s k (.wordAck c gti)) (hc : c ≠ hardwareSender) (hg : gtiOf (s.ctx c) = gti)
    (hk : (s.ctx c).outst = 1) :
    exec (.mailboxAcknowledgement k) s = .next ((takeMsg s k).setCtx c { s.ctx c with acked := true }) := by
  refine (rfl : exec (.mailboxAcknowledgement k) s = execMailboxAcknowledgement k s).trans (congrArg Host.Outcome.next ?_)
  unfold InNet at hin
  simp only [hin, if_neg hc]
  exact recordAnswer_own (s := takeMsg s k) hk hg

theorem amsgAcceptance_marks (hin : InNet s k (.amsgAck c gti)) (hg : gtiOf (s.ctx c) = gti) (hk : (s.ctx c).outst = 2) :
    exec (.amsgAcceptance k) s = .next ((takeMsg s k).setCtx c { s.ctx c with acked := true }) := by
  refine (rfl : exec (.amsgAcceptance k) s = execAmsgAcceptance k s).trans (congrArg Host.Outcome.next ?_)
  unfold InNet at hin
  simp only [hin]
  exact recordAnswer_own (s := takeMsg s k) hk hg

end

/-! Active messages, done messages and lapses (R215, R256, R483). -/

section
variable {s : State} {k : Nat} {m : ActMsg}

/-- A die's handler queue with a message more, which has its time of arrival. -/
def State.handed (s : State) (m : ActMsg) : State :=
  s.modDie m.die fun d => { d with handlers := d.handlers ++ [{ m with t1 := s.time.toNat }] }

theorem activeMessageArrival_queues (hin : InNet s k (.amsg m)) (hcur : current s m.ident = true)
    (hlink : (s.die (dieOf m.c)).lost.getLsbD m.die = false) (hroom : (s.die m.die).handlers.length < 256) :
    exec (.activeMessageArrival k) s = .next (((takeMsg s k).handed m).send (.amsgAck m.c m.gti)) := by
  refine (rfl : exec (.activeMessageArrival k) s = execActiveMessageArrival k s).trans (congrArg Host.Outcome.next ?_)
  unfold InNet at hin
  simp only [hin, hcur, hlink, Bool.not_true, Bool.false_eq_true, if_false, if_neg (Nat.not_le.2 hroom)]
  rfl

theorem activeMessageArrival_waits (hin : InNet s k (.amsg m)) (hcur : current s m.ident = true)
    (hlink : (s.die (dieOf m.c)).lost.getLsbD m.die = false) (hfull : 256 ≤ (s.die m.die).handlers.length) :
    exec (.activeMessageArrival k) s = .next s := by
  refine (rfl : exec (.activeMessageArrival k) s = execActiveMessageArrival k s).trans (congrArg Host.Outcome.next ?_)
  unfold InNet at hin
  simp only [hin, hcur, hlink, Bool.not_true, Bool.false_eq_true, if_false, if_pos hfull]

theorem handed_die (s : State) (m : ActMsg) (d : Nat) : (s.handed m).die d =
    if d = m.die then { s.die d with handlers := (s.die d).handlers ++ [{ m with t1 := s.time.toNat }] } else s.die d := by
  rw [State.handed, State.modDie_at_die]
  by_cases hd : d = m.die
  · rw [if_pos hd, if_pos hd.symm, hd]
  · rw [if_neg hd, if_neg (Ne.symm hd)]

theorem doneMessageArrival_folds {job rank p : Nat} {word : Word} {j : Job} (hin : InNet s k (.done job rank word))
    (hj : s.job job = some j) (hp : (Sparse.get {} j.members rank : Member).parent = some p) :
    exec (.doneMessageArrival k) s =
      .next (settleMember (modMember (takeMsg s k) job p fun m => { m with word := combine m.word word, heard := m.heard ++ [rank] }) job p) := by
  have hjob : (takeMsg s k).job job = some j := hj
  refine (rfl : exec (.doneMessageArrival k) s = execDoneMessageArrival k s).trans (congrArg Host.Outcome.next ?_)
  unfold InNet at hin
  simp only [hin, hjob, hp]

theorem forwardingLapse_goesOn {core : Nat} {gti : Word} (hin : InNet s k (.lapse core gti)) :
    exec (.forwardingLapse k) s =
      .next (sendLapse ((takeMsg s k).modCore core fun x => { x with fwd := x.fwd.filter fun f => f.gti != gti }) core gti) := by
  refine (rfl : exec (.forwardingLapse k) s = execForwardingLapse k s).trans (congrArg Host.Outcome.next ?_)
  unfold InNet at hin
  simp only [hin]

end

/-! The obligation's parts. -/

section
variable {s : State} {k : Nat}

theorem performAtomic_answered {r : AtomReq} (hin : InNet s k (.atomic r)) (hfresh : replyCache s r.engine r.c r.seq = .fresh)
    (hold : olderOnTheWay s r.engine r.c r.seq = false) (hframe : frameHeld s r.pa = false) (hbank : bankHeld s r.c r.pa k = false)
    (hgrant : cacheable s r.pa = true → granted s r.engine (r.pa / 128) = true) : ∃ t, exec (.performAtomic k) s = .next t ∧
      (let a := applyAtomic (takeMsg s k) r
      t.net = netAfter s k [.atomReply r.c r.seq a.1 a.2.1] ∧ (∀ x, byteAt t x = byteAt a.2.2 x) ∧
      Sparse.get [] (t.die r.engine).replies r.c = ((r.seq, a.1, a.2.1) :: Sparse.get [] (s.die r.engine).replies r.c).take 4) :=
  ⟨_, performAtomic_performs hin hfresh hold hframe hbank hgrant,
    performed_spec (atomicDone_only ..) (applyAtomic_leaves (takeMsg s k) r) r.engine r.c r.seq⟩

/-- A waiting AMO whose reply arrives has it. -/
theorem atomicReply_waiting {c : Nat} {p : Reply} {f : FpFlags} {r : AtomReq} (hin : InNet s k (.atomReply c r.seq p f))
    (ha : (s.ctx c).atoms = [.inl r]) (hd : r.dst.isSome = true) (hw : ∃ n, (s.ctx c).run = .blocked .amoReply n) :
    ∃ t, exec (.atomicReply k) s = .next t ∧ SameBytes s t ∧
      t.ctx c = { s.ctx c with atoms := [], reply := some p, oflags := f } ∧ t.net = netAfter s k [] := by
  refine ⟨_, atomicReply_ends hin, ?_, endAtom_waiting_ctx (s := takeMsg s k) ha hd hw, ?_⟩
  · rw [endAtom_waiting (s := takeMsg s k) ha hd hw]
    exact fun _ => rfl
  · rw [endAtom_waiting (s := takeMsg s k) ha hd hw]
    exact takeMsg_net s k

/-- A refused AMOR's trap is pending at its owner. -/
theorem atomicReply_refused {c : Nat} {f : FpFlags} {r : AtomReq} {tr : Trap} (hin : InNet s k (.atomReply c r.seq (.trap tr) f))
    (ha : (s.ctx c).atoms = [.inl r]) (hd : r.dst = none) (ho : r.owner = tlOwner s c)
    (hone : (s.ctxs.filter fun x => tlOwner s x.1 == r.owner) = [(c, s.ctx c)]) (hrun : (s.ctx c).run ≠ .free) :
    ∃ t, exec (.atomicReply k) s = .next t ∧ (t.ctx c).atoms = [] ∧ tr ∈ (t.ctx c).pend ∧ SameBytes s t := by
  have hend := endAtom_refused (s := takeMsg s k) (f := f) (tr := tr) ha hd
  rw [pendOwner_ended (s := takeMsg s k) ho hone hrun] at hend
  obtain ⟨hpend, hatoms⟩ := pendTrap_ctx ((takeMsg s k).endedRequests c) c tr
  refine ⟨_, atomicReply_ends hin, ?_⟩
  rw [hend]
  exact ⟨hatoms.trans (congrArg Context.atoms (endedRequests_ctx (takeMsg s k) c)), hpend, fun _ => rfl⟩

theorem atomicResend_sends {c : Nat} {r : AtomReq} (ha : (s.ctx c).atoms = [.inl r]) (ht : r.sent + 20000 ≤ s.time.toNat)
    (hl : (s.die (dieOf c)).lost.getLsbD r.engine = false) :
    ∃ t, exec (.atomicResend c) s = .next t ∧ t.net = s.net ++ [(s.next, .atomic { r with sent := s.time.toNat })] ∧
      (t.ctx c).atoms = [.inl { r with sent := s.time.toNat }] :=
  ⟨_, (atomicResend_one ha).trans (congrArg _ (resendOne_sends ht hl)), rfl, retimed_atoms ha⟩

theorem atomicResend_lost {c : Nat} {r : AtomReq} (ha : (s.ctx c).atoms = [.inl r]) (ht : r.sent + 20000 ≤ s.time.toNat)
    (hl : (s.die (dieOf c)).lost.getLsbD r.engine = true) (hw : ∃ n, (s.ctx c).run = .blocked .amoReply n) (hd : r.dst.isSome = true) :
    ∃ t, exec (.atomicResend c) s = .next t ∧
      t.ctx c = { s.ctx c with atoms := [], reply := some (.trap { cause := 0x33, val := r.ea, aux := 1 }), oflags := 0 } :=
  ⟨_, (atomicResend_one ha).trans (congrArg _ (resendOne_lost ht hl)), endAtom_waiting_ctx ha hd hw⟩

variable {core c : Nat} {w : MsgWord} {gti : Word} {i : Ident} {fwd owed : Bool}

theorem wordArrival_mailbox {m : Nat} (h : WordTurn s k core (.mbx m) w c gti i fwd owed) (hr : route s core (.mbx m) = .accept)
    (he : (s.core core).mail m = none) :
    ∃ t, exec (.wordArrival k) s = .next t ∧ (t.core core).mail m = some { w with t1 := s.time.toNat } ∧
      (∀ j, j ≠ m → (t.core core).mail j = (s.core core).mail j) ∧ (∀ j, (t.core core).port j = (s.core core).port j) ∧
      t.net = netAfter s k (if owed then [.wordAck c gti] else []) ∧ SameBytes s t ∧
      ∀ d ∈ contextsOf core, (t.ctx d).latch = (s.ctx d).latch ||| 0x01 := by
  have hexec := wordArrival_accepts h hr
  rw [acceptWord_mailbox (s := takeMsg s k) he, Option.elim_some] at hexec
  obtain ⟨hcore, hnet, hbytes, hlatch⟩ := accepted_spec (s := s) (k := k) ((takeMsg s k).mailed core m w) core 0x01 owed c gti rfl
  refine ⟨_, hexec, ?_, fun j hj => ?_, fun j => ?_, hnet, hbytes, hlatch⟩
  · rw [hcore, mailed_mail, if_pos rfl]; rfl
  · rw [hcore, mailed_mail, if_neg (Ne.symm hj)]; rfl
  · rw [hcore, State.mailed, State.setCore_core_same]; rfl

theorem wordArrival_full {m : Nat} (h : WordTurn s k core (.mbx m) w c gti i fwd owed) (hr : route s core (.mbx m) = .accept)
    (he : (s.core core).mail m ≠ none) : exec (.wordArrival k) s = .next s := by
  have hexec := wordArrival_accepts h hr
  rwa [acceptWord_mailbox_full (s := takeMsg s k) he] at hexec

theorem wordArrival_port {n : Nat} (h : WordTurn s k core (.port n) w c gti i fwd owed) (hr : route s core (.port n) = .accept)
    (he : ((s.core core).port n).length < 4) :
    ∃ t, exec (.wordArrival k) s = .next t ∧ (t.core core).port n = (s.core core).port n ++ [w.w] ∧
      (∀ j, j ≠ n → (t.core core).port j = (s.core core).port j) ∧ ∀ d ∈ contextsOf core, (t.ctx d).latch = (s.ctx d).latch ||| 0x02 := by
  have hexec := wordArrival_accepts h hr
  rw [acceptWord_port (s := takeMsg s k) he, Option.elim_some] at hexec
  obtain ⟨hcore, -, -, hlatch⟩ := accepted_spec (s := s) (k := k) ((takeMsg s k).ported core n w.w) core 0x02 owed c gti rfl
  refine ⟨_, hexec, ?_, fun j hj => ?_, hlatch⟩
  · rw [hcore, ported_port, if_pos rfl]; rfl
  · rw [hcore, ported_port, if_neg (Ne.symm hj)]; rfl

theorem wordArrival_ring {r : WordReg} {g : Word} (h : WordTurn s k core r w c gti i fwd owed) (hr : route s core r = .ring g)
    (hroom : (s.core core).spill.length < 256) : ∃ t, exec (.wordArrival k) s = .next t ∧
      t.core core = { s.core core with spill := (s.core core).spill ++ [{ gti := g, reg := r, w := w }] } ∧
      t.net = netAfter s k (if owed then [.wordAck c gti] else []) := by
  have hparked : wakeParked ((takeMsg s k).spilled core g r w) core (latchBit r) = _ := (readyParked_dies ..).1
  refine ⟨_, wordArrival_spills h hr hroom, ?_, ackWord_net ?_ ?_⟩
  · rw [ackWord_core, hparked]
    exact State.setCore_core_same ..
  · rw [hparked]; rfl
  · rw [hparked]; rfl

theorem activeMessageArrival_answered {m : ActMsg} (hin : InNet s k (.amsg m)) (hcur : current s m.ident = true)
    (hlink : (s.die (dieOf m.c)).lost.getLsbD m.die = false) (hroom : (s.die m.die).handlers.length < 256) :
    ∃ t, exec (.activeMessageArrival k) s = .next t ∧ SameBytes s t ∧
      t = { s with dies := t.dies, net := netAfter s k [.amsgAck m.c m.gti], next := s.next + 1 } ∧
      ∀ d, t.die d = if d = m.die then { s.die d with handlers := (s.die d).handlers ++ [{ m with t1 := s.time.toNat }] } else s.die d :=
  ⟨_, activeMessageArrival_queues hin hcur hlink hroom, fun _ => rfl, rfl, handed_die (takeMsg s k) m⟩

end

/-- Settles O53: what arrives is taken in once, by its case, and the answer it owes is sent with it. -/
theorem requestsAreAnswered : Obligations.RequestsAreAnswered := by
  unfold Obligations.RequestsAreAnswered
  refine ⟨?_, ?_, ?_, ?_, ?_, ?_, ?_, ?_, ?_, ?_, ?_⟩
  · intro s k r hin
    refine ⟨performAtomic_waits hin, performAtomic_answered hin, fun p f hc => performAtomic_cached hin hc, fun hc => ?_⟩
    rw [performAtomic_stale hin hc, takeMsg_eq]
  · rintro s k c seq p f r hin ha rfl
    exact ⟨atomicReply_waiting hin ha, fun hd tr hp ho hone hrun => atomicReply_refused (hp ▸ hin) ha hd ho hone hrun⟩
  · intro s c r ha
    exact ⟨fun ht => (atomicResend_one ha).trans (congrArg _ (resendOne_early ht)), atomicResend_sends ha, atomicResend_lost ha⟩
  · intro s k r q off hin hfresh hold hbank hregion hbacked horphan hruns
    exact ⟨_, tsigPerform_subtracts hin hfresh hold hbank hregion hbacked horphan hruns, signalled_spec s k ..⟩
  · intro s k core m w c gti i fwd owed h hr
    exact ⟨wordArrival_mailbox h hr, wordArrival_full h hr⟩
  · intro s k core n w c gti i fwd owed h hr he
    exact wordArrival_port h hr he
  · intro s k core r w c gti i fwd owed h
    exact ⟨fun target hr => wordArrival_redirects h hr, fun g hr hroom => wordArrival_ring h hr hroom⟩
  · intro s k c gti hc hg
    exact ⟨fun hin hk => mailboxAcknowledgement_marks hin hc hg hk, fun hin hk => amsgAcceptance_marks hin hg hk⟩
  · intro s k m hin hcur hlink
    exact ⟨activeMessageArrival_answered hin hcur hlink, activeMessageArrival_waits hin hcur hlink⟩
  · intro s k job rank word j p hin hj hp
    exact doneMessageArrival_folds hin hj hp
  · intro s k core gti hin
    exact forwardingLapse_goesOn hin

end Sys2Proof.Machine
end

section
/-! SUPPORT. What joins the order buffer at Issue (R100): entries pushed one after another and together, and the accesses
of loads and stores (R200 to R210). -/

namespace Sys2Proof.Machine

/-! Entries that join the buffer. -/

/-- Entries that join one after the other, the first of them no stores, join together (R100). -/
theorem lobAppend_lobAppend (s : State) (c : Nat) {a : List LobOp} (ha : ∀ o ∈ a, o.isStore = false) (b : List LobOp)
    (w : Option (BitVec 6)) : lobAppend (lobAppend s c a) c b w = lobAppend s c (a ++ b) w := by
  have hwait : ∀ (id : Nat) (i : Ident), a.mapIdx (fun n op =>
      ({ id := id + n, op := op, ident := i, wait := if op.isStore then none else none } : LobEntry)) =
      a.mapIdx fun n op => { id := id + n, op := op, ident := i, wait := if op.isStore then w else none } := by
    intro id i
    refine List.ext_getElem (by simp) fun n h _ => ?_
    rw [List.length_mapIdx] at h
    simp [ha _ (List.getElem_mem h)]
  unfold lobAppend
  rw [State.modCtx_modCtx]
  refine congrArg (State.modCtx s c) (funext fun x => ?_)
  simp only [Function.comp_apply, hwait, List.mapIdx_append, List.append_assoc, List.length_append, Nat.add_assoc,
    Nat.add_comm a.length]

/-- A context's next instruction, with entries joined, is that of the state they were appended to. -/
theorem buffered_eq (s : State) (ops : List LobOp) (w : Option (BitVec 6)) :
    s.buffered ops w = (lobAppend s s.cur (ops.flatMap (LobOp.withMarks (clusterOf s.cur))) w).ctx s.cur := by
  rw [lobAppend, State.modCtx_ctx_same]
  rfl

/-- An instruction whose sources were read retires with entries at the tail of its context's buffer (R100). -/
theorem retire_lobAppend {s u : State} {got : List (BitVec 5 × Word)} {srcs : List Src} (h : Reading s u got srcs)
    (ops : List LobOp) (w : Option (BitVec 6)) :
    Retired s (retire (lobAppend u s.cur (ops.flatMap (LobOp.withMarks (clusterOf s.cur))) w) s.cur) srcs (s.joined ops w)
      putNone := by
  have hpc : ((lobAppend u s.cur (ops.flatMap (LobOp.withMarks (clusterOf s.cur))) w).ctx s.cur).pc = (s.ctx s.cur).pc := by
    rw [lobAppend, State.modCtx_ctx_same, h.own]
  rw [retire, hpc]
  refine retired_of h _ _ (s.buffered ops w) putNone ?_ fun j _ => ?_
  · rw [h.own]
    rfl
  · rw [h.own]
    rfl

/-- The marks of a lock check are no stores, nor what they are behind. -/
theorem checkMarks_isStore {cl : Nat} {as : List Acc} {o : LobOp} (h : o ∈ checkMarks cl as) : o.isStore = false := by
  obtain ⟨n, -, rfl⟩ := List.mem_map.1 h
  rfl

theorem withMarks_isStore {cl : Nat} {op o : LobOp} (hs : op.isStore = false) (h : o ∈ op.withMarks cl) : o.isStore = false := by
  rcases List.mem_append.1 h with hm | hm
  · split at hm
    · exact checkMarks_isStore hm
    · exact checkMarks_isStore hm
    · exact checkMarks_isStore hm
    · exact nomatch hm
  · rwa [List.mem_singleton.1 hm]

/-- A fence pushed behind an entry joins with it (R109). -/
theorem lobPush_fence (s : State) (c : Nat) {op : LobOp} (ho : op.isStore = false) (k : FenceKind) (sc : Scope) :
    lobPush (lobPush s c op) c (.fence k sc) = lobAppend s c ([op, .fence k sc].flatMap (LobOp.withMarks (clusterOf c))) :=
  lobAppend_lobAppend s c (fun _ => withMarks_isStore ho) _ _

/-! Loads into a general register (R203 to R206). -/

theorem pairLeaves_lone {s : State} (h : Lone s) (pa : Nat) : pairLeaves s s.cur pa = .ok s := by
  simp only [pairLeaves, h.pair, Option.isSome_none, Bool.false_and, Bool.false_eq_true, if_false]

theorem pairFence_lone {s : State} (h : Lone s) (sc : Scope) : pairFence s s.cur sc = .ok s := by
  simp only [pairFence, h.pair, Option.isSome_none, Bool.false_and, Bool.false_eq_true, if_false]

/-- A general register that no load writes is a destination with nothing to take (R45). -/
theorem sources_register {s : State} {i : BitVec 6} (h : (s.ctx s.cur).pendG i = false) :
    sources s s.cur [] (some (.g i)) = .ok ([], s) := by
  simp only [sources, Context.pendSrc, Context.pendDst, h]
  rfl

/-- Off a replay a load into a general register leaves its bytes to its entry (R165). -/
theorem takesBytes_register {s : State} (h : Lone s) (i : BitVec 6) (vol : Bool) : takesBytes s s.cur (.g i) vol = false := by
  simp only [takesBytes, h.replay, Option.isSome_none, Bool.and_false, Bool.or_self]

section
variable {s : State} {a : Acc} {i : BitVec 6}

theorem loadBody_register {ty : IntTy} {r : BitVec 6} {off : BitVec 43} (hl : Lone s) (hk : Known s [r, i])
    (hg : Grants s r off (askLd ty) a) (fin : State → State) :
    loadBody ty (.g i) r off fin s.cur s = .ok (fin (lobPush s s.cur (.load [a] (.scalar i ty)))) := by
  unfold Grants askLd at hg
  simp only [loadBody, takesBytes_register hl, Bool.false_eq_true, if_false, regOf_known (hk r (by simp)), Res.ok_bind, offM, hg,
    pairLeaves_lone hl, sources_register (hk i (by simp)), Res.pure_eq]

theorem ld_joins {o : LdOps} (hc : Clear s o.h) (ho : On s o.h) (hl : Lone s) (hd : o.d = .g i) (hk : Known s [o.a, i])
    (hg : Grants s o.a o.off (askLd o.ty) a) :
    ∃ t, exec (.ld o) s = .next t ∧ Retired s t [] (s.joined [.load [a] (.scalar i o.ty)]) putNone := by
  refine ⟨_, run_next (i := .ld o) hc ho ?_, retire_lobPush s _⟩
  rw [hd, loadBody_register hl hk hg]

theorem ldacq_joins {o : LdacqOps} (hc : Clear s o.h) (ho : On s o.h) (hl : Lone s) (hd : o.d = .g i) (hk : Known s [o.a, i])
    (hg : Grants s o.a o.off (askLd o.ty) a) : ∃ t, exec (.ldacq o) s = .next t ∧
      Retired s t [] (s.joined [.load [a] (.scalar i o.ty), .fence .acq o.scope]) putNone := by
  refine ⟨_, run_next (i := .ldacq o) hc ho ?_, retire_lobAppend (.start s) _ none⟩
  rw [pairFence_lone hl, Res.ok_bind, hd, loadBody_register hl hk hg, lobPush_fence s s.cur rfl]

theorem ldc_joins {o : CapMem} (hc : Clear s o.h) (ho : On s o.h) (hl : Lone s) (hk : Known s [o.a, o.r])
    (hg : Grants s o.a o.off askLdc a) : ∃ t, exec (.ldc o) s = .next t ∧
      Retired s t [] (s.joined [.load [a] (.cap o.r (((s.ctx s.cur).reg o.a).cap.perm.getLsbD 3))]) putNone := by
  refine ⟨_, run_next (i := .ldc o) hc ho ?_, retire_lobPush s _⟩
  unfold Grants askLdc at hg
  simp only [regOf_known (hk o.a (by simp)), Res.ok_bind, offM, hg, pairLeaves_lone hl, hk o.r (by simp), Bool.not_false, ask_true,
    Res.pure_eq]

theorem ldtg_joins {o : LdtgOps} (hc : Clear s o.h) (ho : On s o.h) (hl : Lone s) (hd : o.d = .g i) (hk : Known s [o.a, i])
    (hg : Grants s o.a o.off askLdtg a) :
    ∃ t, exec (.ldtg o) s = .next t ∧ Retired s t [] (s.joined [.load [a] (.lock i)]) putNone := by
  refine ⟨_, run_next (i := .ldtg o) (body := ldtgBody o) hc ho ?_, retire_lobPush s _⟩
  unfold Grants askLdtg at hg
  simp only [ldtgBody, hd, takesBytes_register hl, Bool.false_eq_true, if_false, regOf_known (hk o.a (by simp)), Res.ok_bind, offM,
    hg, pairLeaves_lone hl, sources_register (hk i (by simp)), Res.pure_eq]

end


/-! Loads whose own instruction writes a queue or a port (R165). -/

/-- An instruction without sources whose destination has room has nothing to take (R45). -/
theorem sources_nothing {s : State} {d : Dst} (h : Ready s [] (some d)) :
    ∃ u, sources s s.cur [] (some d) = .ok ([], u) ∧ u = { s with cores := u.cores } ∧ ∀ j, u.core j = s.core j := by
  have hverified : (!(outward (some d) && s.unchecked s.cur)) = true := by
    cases ho : outward (some d) with
    | false => rfl
    | true => rw [h.verified ho]; rfl
  cases hb : blocking [] (some d) with
  | false =>
    refine ⟨s, ?_, rfl, fun _ => rfl⟩
    simp only [sources, h.known, h.room, hb, Bool.not_false, ask_true, Res.ok_bind, if_true, takeAll, Res.pure_eq]
  | true =>
    obtain ⟨hl, hop, hway⟩ := h.there hb
    refine ⟨_, ?_, ?_, modCore_id (f := fun k => { k with
      bridle := k.bridle.map fun b => { b with log := b.log ++ [], taken := b.taken + 0 } }) (bridle_map_none hl.pair _)⟩
    · simp only [sources, h.known, h.room, hb, Bool.not_false, ask_true, Res.ok_bind, hverified, Bool.not_true, Bool.false_eq_true,
        if_false, replaying_lone hl, bridleLogged_lone hl, ite_self, hop, hway, Bool.and_true, hl.pair, Res.pure_eq, takeAll,
        consumed, List.length_nil]
    · rfl

/-- A queue or a port is a destination whose own instruction takes a load's bytes, and that waits for its room. -/
theorem takesBytes_direct {s : State} {c : Nat} {d : Dst} (h : Direct d) (vol : Bool) : takesBytes s c d vol = true := by
  rcases h with ⟨i, rfl⟩ | ⟨i, rfl⟩ <;> rfl

theorem outward_direct {d : Dst} (h : Direct d) : outward (some d) = true := by
  rcases h with ⟨i, rfl⟩ | ⟨i, rfl⟩ <;> rfl

theorem gotLoad_first {s : State} {c : Nat} {d : Dst} (h : ∀ v e n, (s.ctx c).run ≠ .blocked (.load v e) n) :
    gotLoad s c d = none := by
  unfold gotLoad
  split
  next v e n hr => exact absurd hr (h v e n)
  next => rfl

/-- A load that has entered the order buffer for its own instruction: its context waits in it (R165). -/
structure Asked (s t : State) (a : Acc) (lock : Bool) (d : Dst) : Prop where
  whole : Within s t
  net : t.net = s.net
  cores : ∀ k, t.core k = s.core k
  others : ∀ e, e ≠ s.cur → t.ctx e = s.ctx e
  own : (t.ctx s.cur).waiting = (s.buffered [.load [a] (.reply lock)]).waiting
  sent : (t.ctx s.cur).sent = true
  reply : (t.ctx s.cur).reply = none
  waits : ∃ n, (t.ctx s.cur).run = .blocked (.load a.volatile d) n

theorem askLoad_asks {s u : State} (hu : u = { s with cores := u.cores }) (hcores : ∀ j, u.core j = s.core j) (a : Acc) (lock : Bool)
    (d : Dst) : Asked s (askLoad u s.cur a lock d) a lock d := by
  unfold askLoad
  generalize hw : State.modCtx (lobPush u s.cur (.load [a] (.reply lock))) s.cur (fun x => { x with sent := true, reply := none }) = w
  have hctx : ∀ e, u.ctx e = s.ctx e := fun e => by rw [hu]; rfl
  have hwhole : w = { u with ctxs := w.ctxs } := by rw [← hw]; rfl
  have hown : w.ctx s.cur = { s.buffered [.load [a] (.reply lock)] with sent := true, reply := none } := by
    rw [← hw, State.modCtx_ctx_same, buffered_eq, List.flatMap_singleton, lobPush, lobAppend, lobAppend, State.modCtx_ctx_same,
      State.modCtx_ctx_same, hctx]
  have hothers : ∀ e, e ≠ s.cur → w.ctx e = s.ctx e := fun e he => by
    rw [← hw, State.modCtx_ctx_ne _ _ _ _ (Ne.symm he), lobPush, lobAppend, State.modCtx_ctx_ne _ _ _ _ (Ne.symm he), hctx]
  obtain ⟨hblock, ⟨n, hrun⟩, hrest, -⟩ := blockOn_spec w s.cur (.load a.volatile d)
  generalize blockOn w s.cur (.load a.volatile d) = t at hblock hrun hrest
  exact {
    whole := by rw [hblock, hwhole, hu]; rfl
    net := by rw [hblock, hwhole, hu]
    cores := fun k => by rw [← hcores k, hblock, hwhole]; rfl
    others := fun e he => (hrest e he).trans (hothers e he)
    own := by rw [hrun, hown]; rfl
    sent := by rw [hrun, hown]
    reply := by rw [hrun, hown]
    waits := ⟨n, by rw [hrun]⟩ }

section
variable {s : State} {a : Acc} {d : Dst} {r : BitVec 6} {off : BitVec 43}

theorem loadBody_asks {ty : IntTy} (hl : Lone s) (hd : Direct d) (hk : Known s [r]) (hr : Ready s [] (some d))
    (hg : Grants s r off (askLd ty) a) (hrun : ∀ v e n, (s.ctx s.cur).run ≠ .blocked (.load v e) n) (fin : State → State) :
    ∃ t, loadBody ty d r off fin s.cur s = .ok t ∧ Asked s t a false d := by
  obtain ⟨u, hs, hu, hcores⟩ := sources_nothing hr
  refine ⟨_, ?_, askLoad_asks hu hcores a false d⟩
  have hrep : replayOf u s.cur = none := by rw [hu]; exact hl.replay
  have hnot : (if a.volatile then replayed u s.cur 6 else .ok none : Res _) = .ok none := by
    split
    · simp only [replayed, hrep]
    · rfl
  unfold Grants askLd at hg
  simp only [loadBody, takesBytes_direct hd, if_true, gotLoad_first hrun, regOf_known (hk r (by simp)), Res.ok_bind, offM, hg,
    pairLeaves_lone hl, hs, Res.pure_eq, hnot]

theorem ldtgBody_asks {o : LdtgOps} (hl : Lone s) (hd : Direct o.d) (hk : Known s [o.a]) (hr : Ready s [] (some o.d))
    (hg : Grants s o.a o.off askLdtg a) (hrun : ∀ v e n, (s.ctx s.cur).run ≠ .blocked (.load v e) n) :
    ∃ t, ldtgBody o s.cur s = .ok t ∧ Asked s t a true o.d := by
  obtain ⟨u, hs, hu, hcores⟩ := sources_nothing hr
  refine ⟨_, ?_, askLoad_asks hu hcores a true o.d⟩
  unfold Grants askLdtg at hg
  simp only [ldtgBody, takesBytes_direct hd, if_true, gotLoad_first hrun, regOf_known (hk o.a (by simp)), Res.ok_bind, offM, hg,
    pairLeaves_lone hl, hs]
  rcases hd with ⟨i, hd⟩ | ⟨i, hd⟩ <;> rw [hd] <;> rfl

end


/-! The later turn of such an instruction, which has its word (R165). -/

/-- A load that has given its word, to a destination with room, is done waiting (R45, R46). -/
theorem gotLoad_given {s : State} {d : Dst} {v : Bool} {w : Word} (hg : Given s d v w) (hd : Direct d) (hr : Ready s [] (some d)) :
    gotLoad s s.cur d = some (.ok (v, w, s.takingReply)) := by
  obtain ⟨n, hrun⟩ := hg.waits
  have hb : blocking [] (some d) = true := by rw [blocking, outward_direct hd, Bool.or_true]
  obtain ⟨-, hop, hway⟩ := hr.there hb
  simp only [gotLoad, hrun, hg.word, outward_direct hd, hr.verified (outward_direct hd), hop, hway, Bool.and_false, Bool.not_false,
    Bool.and_true, ask_true, Res.ok_bind, Res.pure_eq]
  rfl

/-! Entries pushed before an instruction that has delivered its word retires (R109). -/

theorem countEvent_modCtx (s : State) (c : Nat) (f : Context → Context) (k code n : Nat) :
    countEvent (s.modCtx c f) k code n = (countEvent s k code n).modCtx c f := by
  by_cases h : (s.core k).evsel = 0
  · exact (if_pos h).trans (congrArg (State.modCtx · c f) (if_pos h).symm)
  · refine (if_neg h).trans (.trans ?_ (congrArg (State.modCtx · c f) (if_neg h).symm))
    rfl

/-- Retiring and a change that it does not touch do not meet. -/
theorem retireAt_modCtx (s : State) (c : Nat) (pc : Word) (f : Context → Context)
    (hf : ∀ x : Context, (f x).goesOn pc = f (x.goesOn pc)) : retireAt (s.modCtx c f) c pc = (retireAt s c pc).modCtx c f := by
  have hcomm : (s.modCtx c f).modCtx c (Context.goesOn · pc) = (s.modCtx c (Context.goesOn · pc)).modCtx c f := by
    rw [State.modCtx_modCtx, State.modCtx_modCtx]
    exact congrArg (State.modCtx s c) (funext hf)
  unfold Context.goesOn at hcomm
  unfold retireAt
  rw [hcomm]
  simp only [countEvent_modCtx, State.modCtx_at_core]
  split <;> rfl

theorem retire_lobAppend_comm (s : State) (c : Nat) (ops : List LobOp) : retire (lobAppend s c ops) c = lobAppend (retire s c) c ops := by
  have hpc : ((lobAppend s c ops).ctx c).pc = (s.ctx c).pc := by rw [lobAppend, State.modCtx_ctx_same]
  rw [retire, hpc, retire, lobAppend, retireAt_modCtx _ _ _ _ fun _ => rfl]
  rfl

/-- A word delivered is delivered whatever entries join the buffer of its context meanwhile. -/
theorem ScalarDone.lobAppend {s t : State} {srcs : List Src} {d : Dst} {w : Word} {fl : FpFlags} (h : ScalarDone s t srcs d w fl)
    (ops : List LobOp) : ScalarDone (lobAppend s s.cur ops) (Machine.lobAppend t s.cur ops) srcs d w fl := by
  have hsown : (Machine.lobAppend s s.cur ops).ctx s.cur = _ := State.modCtx_ctx_same ..
  have htown : (Machine.lobAppend t s.cur ops).ctx s.cur = _ := State.modCtx_ctx_same ..
  have hsrest : ∀ e, e ≠ s.cur → (Machine.lobAppend s s.cur ops).ctx e = s.ctx e := fun e he => State.modCtx_ctx_ne _ _ _ _ (Ne.symm he)
  have htrest : ∀ e, e ≠ s.cur → (Machine.lobAppend t s.cur ops).ctx e = t.ctx e := fun e he => State.modCtx_ctx_ne _ _ _ _ (Ne.symm he)
  have hcur : (Machine.lobAppend s s.cur ops).cur = s.cur := rfl
  have hw : Within (Machine.lobAppend s s.cur ops) (Machine.lobAppend t s.cur ops) :=
    (show Within (Machine.lobAppend s s.cur ops) s from rfl).trans (h.whole.trans rfl)
  exact {
    whole := hw
    bytes := hw.bytes
    own := by
      rw [hcur, hsown, htown]
      conv_lhs => rw [h.own]
      rfl
    regs := fun j => by
      rw [hcur, hsown, htown]
      exact h.regs j
    consumed := ⟨h.consumed.queues, h.consumed.ports, h.consumed.mail⟩
    core := h.core
    cores := h.cores
    others := fun e hc he => by
      rw [hsrest e he, htrest e he]
      exact h.others e hc he
    dies := h.dies
    pools := h.pools
    flags := h.flags
    net := by
      have hn := h.net
      cases d with
      | n i =>
        have hm : meshCore (Machine.lobAppend s s.cur ops) s.cur = meshCore s s.cur := by simp only [meshCore, hsown]
        obtain ⟨m, hword, hfrom, ht, hnet, hnext⟩ := hn
        rw [Departed, hcur, hm]
        refine ⟨m, hword, ?_, ht, ?_, hnext⟩
        · rw [hcur, hsown]; exact hfrom
        · rw [hcur, hsown]; exact hnet
      | _ => exact hn }


section
variable {s : State} {d : Dst} {v : Bool} {w : Word}

/-- A word of such a load is delivered as its type extends it (R203). -/
theorem loadBody_delivers {ty : IntTy} {r : BitVec 6} {off : BitVec 43} (hl : Lone s) (hd : Direct d) (hg : Given s d v w)
    (hr : Ready s [] (some d)) (fin : State → State) : loadBody ty d r off fin s.cur s =
      .ok (fin (putWord s.takingReply s.cur d (loadWord ty (toBytes ty.bytes w.toNat)))) := by
  have hrep : replayOf s.takingReply s.cur = none :=
    replayOf_keep hl.replay rfl (by rw [takingReply_own]) (by rw [takingReply_own]) (by rw [takingReply_own])
  simp only [loadBody, takesBytes_direct hd, if_true, gotLoad_given hg hd hr, Res.ok_bind, capture_none hrep, ite_self, Res.pure_eq]

theorem direct_local {d : Dst} (h : Direct d) : d.local = true := by
  rcases h with ⟨i, rfl⟩ | ⟨i, rfl⟩ <;> rfl

/-- The word a reply has brought is delivered. -/
theorem takingReply_delivers (hc : isContext s.cur = true) (hl : Lone s) (hd : Direct d) (w : Word) :
    ScalarDone s (deliver s.takingReply s.cur d w) [] d w 0 :=
  (deliver_done (u := s.takingReply) hc hl.pair (direct_local hd) w).of_takingReply

theorem ld_delivers {o : LdOps} (hc : Clear s o.h) (ho : On s o.h) (hl : Lone s) (hd : Direct o.d) (hg : Given s o.d v w)
    (hr : Ready s [] (some o.d)) :
    ∃ t, exec (.ld o) s = .next t ∧ ScalarDone s t [] o.d (loadWord o.ty (toBytes o.ty.bytes w.toNat)) 0 :=
  ⟨_, run_next (i := .ld o) hc ho (loadBody_delivers hl hd hg hr _), takingReply_delivers hc.real hl hd _⟩

theorem ldacq_delivers {o : LdacqOps} (hc : Clear s o.h) (ho : On s o.h) (hl : Lone s) (hd : Direct o.d) (hg : Given s o.d v w)
    (hr : Ready s [] (some o.d)) : ∃ t, exec (.ldacq o) s = .next t ∧
      ScalarDone (s.setCtx s.cur (s.buffered [.fence .acq o.scope])) t [] o.d (loadWord o.ty (toBytes o.ty.bytes w.toNat)) 0 := by
  refine ⟨_, run_next (i := .ldacq o) hc ho ?_, (takingReply_delivers hc.real hl hd _).lobAppend [.fence .acq o.scope]⟩
  rw [pairFence_lone hl, Res.ok_bind, loadBody_delivers hl hd hg hr, lobPush, retire_lobAppend_comm]
  rfl

theorem ldtg_delivers {o : LdtgOps} (hc : Clear s o.h) (ho : On s o.h) (hl : Lone s) (hd : Direct o.d) (hg : Given s o.d v w)
    (hr : Ready s [] (some o.d)) : ∃ t, exec (.ldtg o) s = .next t ∧ ScalarDone s t [] o.d w 0 := by
  refine ⟨_, run_next (i := .ldtg o) (body := ldtgBody o) hc ho ?_, takingReply_delivers hc.real hl hd _⟩
  simp only [ldtgBody, takesBytes_direct hd, if_true, gotLoad_given hg hd hr, Res.ok_bind, Res.pure_eq]

end

/-- Settles O16: a load into a register is one entry pushed; one to a queue or a port asks through its entry, and delivers
what that has given. -/
theorem loadsJoinTheOrderBuffer : Obligations.LoadsJoinTheOrderBuffer := by
  unfold Obligations.LoadsJoinTheOrderBuffer
  refine ⟨fun o s a i => ld_joins, fun o s a i => ldacq_joins, fun o s a => ldc_joins, fun o s a i => ldtg_joins, ?_,
    fun o s v w => ld_delivers, fun o s v w => ldacq_delivers, fun o s w v => ldtg_delivers⟩
  intro i h d ra off q lock s a hi hc ho hl hd hk hr hg hrun
  have hasks : ∃ t, exec i s = .next t ∧ Asked s t a lock d := by
    rcases hi with ⟨o, rfl, rfl, rfl, rfl, rfl, rfl, rfl⟩ | ⟨o, rfl, rfl, rfl, rfl, rfl, rfl, rfl⟩ | ⟨o, rfl, rfl, rfl, rfl, rfl, rfl, rfl⟩
    · obtain ⟨t, ht, hasked⟩ := loadBody_asks hl hd hk hr hg hrun fun u => retire u s.cur
      exact ⟨t, run_next (i := .ld o) hc ho ht, hasked⟩
    · obtain ⟨t, ht, hasked⟩ := loadBody_asks hl hd hk hr hg hrun fun u => retire (lobPush u s.cur (.fence .acq o.scope)) s.cur
      exact ⟨t, run_next (i := .ldacq o) hc ho (by rw [pairFence_lone hl, Res.ok_bind, ht]), hasked⟩
    · obtain ⟨t, ht, hasked⟩ := ldtgBody_asks hl hd hk hr hg hrun
      exact ⟨t, run_next (i := .ldtg o) (body := ldtgBody o) hc ho ht, hasked⟩
  obtain ⟨t, ht, hasked⟩ := hasks
  exact ⟨t, ht, hasked.whole, hasked.whole.bytes, hasked.net, hasked.cores, hasked.others, hasked.own, hasked.sent, hasked.reply,
    hasked.waits⟩

end Sys2Proof.Machine
end

section
/-! SUPPORT. Stores at Issue (R203 to R206, R210): the entry that joins the order buffer, with or without its bytes, and the
journal's entry of a posted store. -/

namespace Sys2Proof.Machine

/-! What is read. -/

/-- A general register read is no word taken. -/
theorem Reading.reg (s : State) (i : BitVec 6) : Reading s s [] [.g i] where
  whole := rfl
  own := (Reading.start s).own
  others _ _ := rfl
  queues _ := rfl
  ports _ := rfl
  mail _ := by rw [if_neg (by simp)]
  core := rfl
  cores _ _ := rfl
  got _ := by rw [if_neg (by simp)]; rfl

/-- What a computation that succeeds ends with is what its last part answers. -/
theorem ok_of_bind {α β : Type} {x : Res α} {f : α → Res β} {b : β} (h : (x >>= f) = .ok b) : ∃ v, f v = .ok b := by
  cases x with
  | error e => cases h
  | ok v => exact ⟨v, h⟩

/-- An access whose entry's own check of its place passes as well (R200, R201). -/
theorem access_extra {s : State} {c : Nat} {r : BitVec 6} {off : Word} {q : Ask} {a : Acc} {extra : Nat → Res Unit}
    (h : access s c r off q = .ok a) (hx : extra a.pa = .ok ()) : access s c r off q extra = .ok a := by
  unfold access at h ⊢
  dsimp only at h ⊢
  generalize capCheck _ _ _ _ _ = k at h ⊢
  cases k with
  | error e => cases h
  | ok k =>
    rw [Res.ok_bind] at h ⊢
    generalize trapIf _ _ _ _ = g at h ⊢
    cases g with
    | error e => cases h
    | ok _ =>
      rw [Res.ok_bind] at h ⊢
      generalize translate _ _ _ _ = t at h ⊢
      cases t with
      | error e => cases h
      | ok t =>
        rw [Res.ok_bind] at h ⊢
        have hpa : a.pa = t.1 := by
          split at h
          on_goal 2 => obtain ⟨_, h⟩ := ok_of_bind h
          all_goals
            rw [Res.ok_bind] at h
            split at h
            on_goal 1 => obtain ⟨_, h⟩ := ok_of_bind h
            all_goals
              split at h
              on_goal 1 => obtain ⟨_, h⟩ := ok_of_bind h
              all_goals rw [← Except.ok.inj h]
        rw [hpa] at hx
        simp only [hx]
        exact h
/-! A context changed in what its operands do not depend on (R45, R46). -/

theorem operandsReady_modCtx {s : State} (c d : Nat) (f : Context → Context) (srcs : List Src) (dst : Option Dst)
    (ht : (f (s.ctx c)).task = (s.ctx c).task) : operandsReady (s.modCtx c f) d srcs dst = operandsReady s d srcs dst := by
  have hmesh : meshCore (s.modCtx c f) d = meshCore s d := by
    by_cases hd : d = c
    · simp only [hd, meshCore, State.modCtx_ctx_same, ht]
    · simp only [meshCore, State.modCtx_ctx_ne _ _ _ _ (Ne.symm hd)]
  simp only [operandsReady, hmesh]
  rfl

theorem givesWay_modCtx {s : State} (c : Nat) (f : Context → Context) (srcs : List Src) (dst : Option Dst)
    (hr : (f (s.ctx c)).run = (s.ctx c).run) : givesWay (s.modCtx c f) c srcs dst = givesWay s c srcs dst := by
  unfold givesWay
  rw [State.modCtx_ctx_same, hr]
  refine congrArg _ (funext fun d => ?_)
  by_cases hd : d = c
  · simp only [hd, bne_self_eq_false, Bool.false_and]
  · have hctx : (s.modCtx c f).ctx d = s.ctx d := State.modCtx_ctx_ne _ _ _ _ (Ne.symm hd)
    have hready : ∀ sr de, operandsReady (s.modCtx c f) d sr de = operandsReady s d sr de := fun sr de => by
      simp only [operandsReady, meshCore, hctx]
      rfl
    simp only [hctx, hready]
    rfl

/-! Entries that join behind a fence (R109, R204). -/

/-- What retires from a state in which a context's own buffer has grown retires from the state before it. -/
theorem Retired.of_lobAppend {s t : State} {ops : List LobOp} {srcs : List Src} {x : Context} {put : BitVec 6 → Option Reg}
    (h : Retired (lobAppend s s.cur ops) t srcs x put) : Retired s t srcs x put := by
  have hown : (lobAppend s s.cur ops).ctx s.cur = _ := State.modCtx_ctx_same ..
  have hreg : ∀ j, ((lobAppend s s.cur ops).ctx s.cur).reg j = (s.ctx s.cur).reg j := fun j => by rw [hown]; rfl
  have hw : Within s t := (show Within s (lobAppend s s.cur ops) from rfl).trans h.whole
  exact {
    whole := hw
    net := h.net
    bytes := hw.bytes
    own := by
      have h1 := h.own
      rwa [show (lobAppend s s.cur ops).cur = s.cur from rfl, hown] at h1
    regs := fun j => by
      rw [← hreg j]
      exact h.regs j
    consumed := ⟨h.consumed.queues, h.consumed.ports, h.consumed.mail⟩
    core := h.core
    cores := h.cores
    others := fun e he => (h.others e he).trans (State.modCtx_ctx_ne _ _ _ _ (Ne.symm he))
    dies := h.dies }

theorem lobAppend_joined (s : State) {a : List LobOp} (ha : ∀ o ∈ a, o.isStore = false) (b : List LobOp) (w : Option (BitVec 6)) :
    (lobAppend s s.cur (a.flatMap (LobOp.withMarks (clusterOf s.cur)))).joined b w = s.joined (a ++ b) w := by
  have hmarks : ∀ o ∈ a.flatMap (LobOp.withMarks (clusterOf s.cur)), o.isStore = false := fun o ho => by
    obtain ⟨p, hp, ho⟩ := List.mem_flatMap.1 ho
    exact withMarks_isStore (ha p hp) ho
  have hpc : ((lobAppend s s.cur (a.flatMap (LobOp.withMarks (clusterOf s.cur)))).ctx s.cur).pc = (s.ctx s.cur).pc := by
    rw [lobAppend, State.modCtx_ctx_same]
  unfold State.joined
  rw [buffered_eq, buffered_eq, List.flatMap_append, ← lobAppend_lobAppend s s.cur hmarks]
  exact congrArg _ (congrArg (· + 12) hpc)

section
variable {s : State} {k : FenceKind} {sc : Scope}

theorem lobPush_fence_ctx (s : State) (k : FenceKind) (sc : Scope) :
    (lobPush s s.cur (.fence k sc)).ctx s.cur = { s.ctx s.cur with
      lob := (s.ctx s.cur).lob ++ [{ id := (s.ctx s.cur).nextId, op := .fence k sc, ident := (s.ctx s.cur).ident }]
      nextId := (s.ctx s.cur).nextId + 1 } := by
  rw [lobPush, lobAppend, State.modCtx_ctx_same]
  rfl

theorem lobPush_fence_pendG (i : BitVec 6) :
    ((lobPush s s.cur (.fence k sc)).ctx s.cur).pendG i = (s.ctx s.cur).pendG i := by
  rw [lobPush_fence_ctx]
  simp only [Context.pendG, List.any_append, List.any_cons, List.any_nil, Bool.or_false]

theorem Lone.lobPush_fence (h : Lone s) : Lone (lobPush s s.cur (.fence k sc)) where
  pair := h.pair
  replay := replayOf_keep (c := s.cur) h.replay rfl (by rw [lobPush_fence_ctx]) (by rw [lobPush_fence_ctx])
    (by rw [lobPush_fence_ctx])

theorem Ready.lobPush_fence {b : Src} (h : Ready s [b] none) : Ready (lobPush s s.cur (.fence k sc)) [b] none where
  known := by
    rw [← h.known]
    simp only [Context.pendSrc]
    exact congrArg (List.any [b]) (funext fun v => by cases v with | g i => exact lobPush_fence_pendG i | _ => rfl)
  room := rfl
  there hb := by
    obtain ⟨hl, hop, hway⟩ := h.there hb
    exact ⟨hl.lobPush_fence, hop, (givesWay_modCtx s.cur _ [b] none rfl).trans hway⟩
  verified h := nomatch h
  untimed := h.untimed

end

/-! ST and STREL (R203, R204). -/

section
variable {s : State} {a : Acc} {b : Src} {r : BitVec 6} {off : BitVec 43} {ty : IntTy}

/-- The entry of a store of a source's low bytes. -/
def storeEntry (s : State) (ty : IntTy) (b : Src) (a : Acc) : LobOp :=
  .store [(a, toBytes ty.bytes (srcWord s [] b).toNat)] none none (gtiOf (s.ctx s.cur))

theorem storeBody_joins (hl : Lone s) (hk : Known s [r]) (hb : StoreReady s b) (hg : Grants s r off (askStore ty) a) :
    ∃ u, (∃ got, Reading s u got [b]) ∧ storeBody ty r b off s.cur s =
      .ok (lobAppend u s.cur ([storeEntry s ty b a].flatMap (LobOp.withMarks (clusterOf s.cur))) (awaitedReg s b)) := by
  unfold Grants askStore at hg
  rw [List.flatMap_singleton]
  unfold storeBody
  simp only [regOf_known (hk r (by simp)), Res.ok_bind, offM, hg, gateRoom_lone hl]
  cases b with
  | g i => exact ⟨s, ⟨[], .reg s i⟩, rfl⟩
  | _ =>
    obtain ⟨i, hi⟩ | hr := hb
    · cases hi
    · obtain ⟨u, ⟨got, hu⟩, hs⟩ := sources_ready hr
      refine ⟨u, ⟨got, hu⟩, ?_⟩
      have hgti : gtiOf (u.ctx s.cur) = gtiOf (s.ctx s.cur) := by rw [hu.own]; rfl
      simp only [hs, Res.ok_bind, Res.pure_eq, hgti]
      rfl

theorem lobPush_fence_storeEntry (k : FenceKind) (sc : Scope) :
    storeEntry (lobPush s s.cur (.fence k sc)) ty b a = storeEntry s ty b a := by
  have hword : srcWord (lobPush s s.cur (.fence k sc)) [] b = srcWord s [] b := by
    cases b with
    | g i =>
      show ((lobPush s s.cur (.fence k sc)).ctx s.cur).low i = _
      rw [lobPush_fence_ctx]
      rfl
    | _ => rfl
  have hgti : gtiOf ((lobPush s s.cur (.fence k sc)).ctx s.cur) = gtiOf (s.ctx s.cur) := by rw [lobPush_fence_ctx]; rfl
  rw [storeEntry, hword]
  exact congrArg _ hgti

theorem lobPush_fence_awaitedReg (k : FenceKind) (sc : Scope) :
    awaitedReg (lobPush s s.cur (.fence k sc)) b = awaitedReg s b := by
  cases b with
  | g i =>
    show (if ((lobPush s s.cur (.fence k sc)).ctx s.cur).pendG i then some i else none) = _
    rw [lobPush_fence_pendG]
    rfl
  | _ => rfl

theorem st_joins {o : StOps} (hc : Clear s o.h) (ho : On s o.h) (hl : Lone s) (hk : Known s [o.a]) (hb : StoreReady s o.b)
    (hg : Grants s o.a o.off (askStore o.ty) a) : ∃ t, exec (.st o) s = .next t ∧
      Retired s t [o.b] (s.joined [storeEntry s o.ty o.b a] (awaitedReg s o.b)) putNone := by
  obtain ⟨u, ⟨got, hu⟩, hbody⟩ := storeBody_joins hl hk hb hg
  exact ⟨_, run_next (i := .st o) hc ho (by rw [hbody, Res.ok_bind, Res.pure_eq]), retire_lobAppend hu _ _⟩

theorem strel_joins {o : StrelOps} (hc : Clear s o.h) (ho : On s o.h) (hl : Lone s) (hk : Known s [o.a]) (hb : StoreReady s o.b)
    (hg : Grants (lobPush s s.cur (.fence .rel o.scope)) o.a o.off (askStore o.ty) a) : ∃ t, exec (.strel o) s = .next t ∧
      Retired s t [o.b] (s.joined [.fence .rel o.scope, storeEntry s o.ty o.b a] (awaitedReg s o.b)) putNone := by
  have hk' : Known (lobPush s s.cur (.fence .rel o.scope)) [o.a] := fun i hi => (lobPush_fence_pendG i).trans (hk i hi)
  have hb' : StoreReady (lobPush s s.cur (.fence .rel o.scope)) o.b := hb.imp_right Ready.lobPush_fence
  obtain ⟨u, ⟨got, hu⟩, hbody⟩ := storeBody_joins hl.lobPush_fence hk' hb' hg
  rw [lobPush_fence_storeEntry, lobPush_fence_awaitedReg, show (lobPush s s.cur (.fence .rel o.scope)).cur = s.cur from rfl] at hbody
  refine ⟨_, run_next (i := .strel o) hc ho (by rw [pairFence_lone hl, Res.ok_bind, hbody, Res.ok_bind, Res.pure_eq]), ?_⟩
  have hret := retire_lobAppend hu [storeEntry s o.ty o.b a] (awaitedReg s o.b)
  rw [show lobPush s s.cur (.fence .rel o.scope) =
      lobAppend s s.cur ([.fence .rel o.scope].flatMap (LobOp.withMarks (clusterOf s.cur))) from rfl,
    lobAppend_joined s fun p hp => by rw [List.mem_singleton.1 hp]; rfl] at hret
  exact hret.of_lobAppend

end

/-! STC, STTG and PST (R205, R206, R210). -/

section
variable {s : State} {a : Acc}

theorem stc_joins {o : CapMem} (hc : Clear s o.h) (ho : On s o.h) (hl : Lone s) (hk : Known s [o.a, o.r])
    (hg : Grants s o.a o.off (askStc ((s.ctx s.cur).reg o.r).tag) a) (hin : StaysInside ((s.ctx s.cur).reg o.r) a) :
    ∃ t, exec (.stc o) s = .next t ∧ Retired s t [] (s.joined
      [.store [(a, toBytes 16 ((s.ctx s.cur).reg o.r).bits.toNat)] (some ((s.ctx s.cur).reg o.r).tag) none
        (gtiOf (s.ctx s.cur))]) putNone := by
  have hleaves : (((s.ctx s.cur).reg o.r).tag && !isScratch a.pa && !((s.ctx s.cur).reg o.r).cap.perm.getLsbD 11) = false := by
    cases ht : ((s.ctx s.cur).reg o.r).tag with
    | false => rfl
    | true =>
      cases hs : isScratch a.pa with
      | true => rfl
      | false => rw [hin ht hs]; rfl
  refine ⟨_, run_next (i := .stc o) (body := fun c u => do pure (retire (← stcBody o c u) c)) hc ho ?_, retire_lobPush s _⟩
  have hacc := access_extra hg (extra := fun pa => trapIf
    (((s.ctx s.cur).reg o.r).tag && !isScratch pa && !((s.ctx s.cur).reg o.r).cap.perm.getLsbD 11) 0x06
      ((s.ctx s.cur).low o.a + offM o.off) (capAux permGlobal o.r)) (by simp only [hleaves, trapIf]; rfl)
  unfold askStc at hacc
  simp only [stcBody, regOf_known (hk o.a (by simp)), regOf_known (hk o.r (by simp)), Res.ok_bind, offM] at hacc ⊢
  simp only [hacc, Res.ok_bind, gateRoom_lone hl, Res.pure_eq]

theorem sttg_joins {o : SttgOps} (hc : Clear s o.h) (ho : On s o.h) (hl : Lone s) (hk : Known s [o.a]) (hr : Ready s [o.b] none)
    (hg : Grants s o.a o.off askSttg a) : ∃ t, exec (.sttg o) s = .next t ∧ Retired s t [o.b] (s.joined
      [.store [(a, if o.z then List.replicate 32 0 else [])] none
        (if hasLock a.pa && !a.uncached then some ((srcWord s [] o.b).setWidth 4) else none) (gtiOf (s.ctx s.cur))]) putNone := by
  obtain ⟨u, ⟨got, hu⟩, hs⟩ := sources_ready hr
  refine ⟨_, run_next (i := .sttg o) (body := fun c u => do pure (retire (← sttgBody o c u) c)) hc ho ?_, hu.retire_lobPush _⟩
  have hgti : gtiOf (u.ctx s.cur) = gtiOf (s.ctx s.cur) := by rw [hu.own]; rfl
  unfold Grants askSttg at hg
  simp only [sttgBody, regOf_known (hk o.a (by simp)), Res.ok_bind, offM, hg, gateRoom_lone hl, hs, Res.pure_eq, hgti]
  rfl

/-- The lowest free entry is the one a search finds. -/
theorem FreeSlot.find {j : Nat} (h : FreeSlot s j) : (List.range 32).find? (fun i =>
    (Sparse.get {} (s.core (coreOf s.cur)).journal i : JEntry).state == 0) = some j := by
  obtain ⟨hj, hfree, hlow⟩ := h
  refine List.find?_range_eq_some.2 ⟨by simp only [hfree, beq_self_eq_true], List.mem_range.2 hj, fun i hi => ?_⟩
  simp only [hlow i hi, Bool.not_eq_true', beq_eq_false_iff_ne, ne_eq, not_false_eq_true]

/-- A core changed in what is no source is read as before. -/
theorem Reading.withCore {u : State} {got : List (BitVec 5 × Word)} {srcs : List Src} (h : Reading s u got srcs) (f : Core → Core)
    (hf : ∀ (k : Core) q p m, f { k with queues := q, ports := p, mbox := m } = { f k with queues := q, ports := p, mbox := m }) :
    Reading (s.modCore (coreOf s.cur) f) (u.modCore (coreOf s.cur) f) got srcs := by
  have hkeeps : ∀ k, f k = { f k with queues := k.queues, ports := k.ports, mbox := k.mbox } := fun k =>
    hf k k.queues k.ports k.mbox
  have hqueue : ∀ k i, (f k).queue i = k.queue i := fun k i => by rw [hkeeps k]; rfl
  have hport : ∀ k i, (f k).port i = k.port i := fun k i => by rw [hkeeps k]; rfl
  have hmail : ∀ k i, (f k).mail i = k.mail i := fun k i => by rw [hkeeps k]; rfl
  have hs : (s.modCore (coreOf s.cur) f).core (coreOf s.cur) = _ := State.modCore_core_same ..
  have hu : (u.modCore (coreOf s.cur) f).core (coreOf s.cur) = _ := State.modCore_core_same ..
  have hcur : (s.modCore (coreOf s.cur) f).cur = s.cur := rfl
  exact {
    whole := by
      conv_lhs => rw [h.whole]
      rfl
    own := h.own
    others := h.others
    queues := fun i => by rw [hcur, hs, hu, hqueue, hqueue]; exact h.queues i
    ports := fun i => by rw [hcur, hs, hu, hport, hport]; exact h.ports i
    mail := fun i => by rw [hcur, hs, hu, hmail, hmail]; exact h.mail i
    core := by
      rw [hcur, hs, hu]
      conv_lhs => rw [h.core, hf]
      rw [hkeeps (u.core (coreOf s.cur))]
    cores := fun j hj => by
      rw [hcur] at hj
      rw [State.modCore_core_ne _ _ _ _ (Ne.symm hj), State.modCore_core_ne _ _ _ _ (Ne.symm hj)]
      exact h.cores j hj
    got := fun i => by rw [hcur, hs, hmail]; exact h.got i }

/-- Marks have no marks of their own. -/
theorem checkMarks_withMarks (cl : Nat) (as : List Acc) : (checkMarks cl as).flatMap (LobOp.withMarks cl) = checkMarks cl as := by
  rw [checkMarks, List.flatMap_map, ← List.flatMap_pure_eq_map]
  rfl

/-- The entry PST takes in the journal for a store of a source's low bytes. -/
def postEntry (s : State) (ty : IntTy) (b : Src) (a : Acc) : JEntry :=
  { state := 1, c := s.cur, ident := (s.ctx s.cur).ident, acc := a
    lid := (s.ctx s.cur).nextId + (checkMarks (clusterOf s.cur) [a]).length
    value := BitVec.ofNat 64 (ofBytes (toBytes ty.bytes (srcWord s [] b).toNat)) }

theorem pst_joins {o : StOps} {j : Nat} (hc : Clear s o.h) (ho : On s o.h) (hl : Lone s) (hk : Known s [o.a])
    (hr : Ready s [o.b] none) (hg : Grants s o.a o.off (askPost o.ty) a) (hj : FreeSlot s j) : ∃ t, exec (.pst o) s = .next t ∧
      Retired (s.withJournal fun m => Sparse.set m j (postEntry s o.ty o.b a)) t [o.b]
        (s.joined (checkMarks (clusterOf s.cur) [a] ++ [.post j])) putNone := by
  obtain ⟨u, ⟨got, hu⟩, hs⟩ := sources_ready hr
  refine ⟨_, run_next (i := .pst o) (body := fun c u => do pure (retire (← pstBody o c u) c)) hc ho ?_,
    retire_lobAppend (hu.withCore (fun k => { k with journal := Sparse.set k.journal j (postEntry s o.ty o.b a) }) fun _ _ _ _ => rfl) _ none⟩
  have hid : (u.ctx s.cur).ident = (s.ctx s.cur).ident := by rw [hu.own]
  have hlid : ((lobAppend u s.cur (checkMarks (clusterOf s.cur) [a])).ctx s.cur).nextId =
      (s.ctx s.cur).nextId + (checkMarks (clusterOf s.cur) [a]).length := by
    rw [lobAppend, State.modCtx_ctx_same, hu.own]
  unfold Grants askPost at hg
  simp only [pstBody, regOf_known (hk o.a (by simp)), Res.ok_bind, offM, hg, hj.find, gateRoom_lone hl, hs, Res.pure_eq, hid, hlid]
  rw [State.modCore_cur, List.flatMap_append,
    checkMarks_withMarks, ← lobAppend_lobAppend _ _ fun p hp => checkMarks_isStore hp, List.flatMap_singleton]
  rfl

end

/-- Settles O17: the source read, each store is one entry pushed, STREL's behind its fence and PST's for the journal's
entry. -/
theorem storesJoinTheOrderBuffer : Obligations.StoresJoinTheOrderBuffer := by
  unfold Obligations.StoresJoinTheOrderBuffer
  exact ⟨fun o s a => st_joins, fun o s a => strel_joins, fun o s a => stc_joins, fun o s a => sttg_joins,
    fun o s a j => pst_joins⟩

end Sys2Proof.Machine
end

section
/-! SUPPORT. The instructions that wait or stop (R109, R222, R223, R225): the event latch, the deadline, and a checkpoint
off a pair. -/

namespace Sys2Proof.Machine

/-- A part that succeeds hands its result on. -/
theorem bind_of_ok {α β : Type} {x : Res α} {v : α} (h : x = .ok v) (f : α → Res β) : (x >>= f) = f v := by rw [h, Res.ok_bind]

/-- Words used start no replay (R473). -/
theorem Used.replay {s u : State} {srcs : List Src} (h : Used s u srcs) (hl : Lone s) : replayOf u s.cur = none :=
  replayOf_keep hl.replay (by rw [h.whole]) (by rw [h.own]) (by rw [h.own]) (by rw [h.own])

/-! WFE (R222). -/

theorem wfeDeadline_waiting {s : State} {d : Option Nat} {n : Nat} (h : (s.ctx s.cur).run = .blocked (.wfe d) n) (w : Word) :
    wfeDeadline s w = d := by
  simp only [wfeDeadline, h]

theorem wfeDeadline_first {s : State} (h : ∀ d n, (s.ctx s.cur).run ≠ .blocked (.wfe d) n) (w : Word) :
    wfeDeadline s w = if w = 0 then none else some (s.time.toNat + w.toNat) := by
  unfold wfeDeadline
  split
  next d n hr => exact absurd hr (h d n)
  next => rfl

/-- The latch as WFE reads it with a deadline: 8 stands for one that has passed (R222). -/
def latchSeen (s : State) (dl : Option Nat) : BitVec 5 :=
  if (s.ctx s.cur).latch == 0 && (match dl with | some d => decide (d ≤ s.time.toNat) | none => false) then 8
  else (s.ctx s.cur).latch

section
variable {s : State} {dl : Option Nat}

theorem latchSeen_set (h : (s.ctx s.cur).latch ≠ 0) : latchSeen s dl = (s.ctx s.cur).latch := by
  simp only [latchSeen, beq_false_of_ne h, Bool.false_and, Bool.false_eq_true, if_false]

theorem latchSeen_late (h : (s.ctx s.cur).latch = 0) (hd : deadlinePast s dl) : latchSeen s dl = 8 := by
  obtain ⟨d, rfl, hd⟩ := hd
  simp only [latchSeen, h, beq_self_eq_true, decide_eq_true hd, Bool.and_self, if_true]

theorem latchSeen_waits (h : (s.ctx s.cur).latch = 0) (hd : ¬ deadlinePast s dl) : latchSeen s dl = 0 := by
  cases dl with
  | none => simp only [latchSeen, h, Bool.and_false, Bool.false_eq_true, if_false]
  | some d =>
    have hlate : ¬ d ≤ s.time.toNat := fun hle => hd ⟨d, rfl, hle⟩
    simp only [latchSeen, h, decide_eq_false hlate, Bool.and_false, Bool.false_eq_true, if_false]

end

section
variable {s : State} {o : DstSrc}

/-- WFE with its word in hand: it waits, or reads its latch (R222). -/
theorem wfeBody_with {k v : State} (hk : holdWords s s.cur [o.a] (some o.d) = .ok (s.words [o.a], k))
    (hs : (s.ctx s.cur).held.isSome = true ∨ blocking [o.a] none = false → k = s) (huse : useWords k s.cur [o.a] = .ok v)
    (hu : Used s v [o.a]) (hh : Has s [o.a] (some o.d)) (hd : o.d.local = true)
    (hrun : ∀ d n, (s.ctx s.cur).run = .blocked (.wfe d) n → (s.ctx s.cur).held.isSome = true ∨ blocking [o.a] none = false) :
    let dl := wfeDeadline s (arg (s.words [o.a]) 0)
    wfeBody o s.cur s = .ok (if latchSeen s dl = 0 then blockOn k s.cur (.wfe dl)
      else deliver (v.modCtx s.cur fun x => { x with latch := 0 }) s.cur o.d ((latchSeen s dl).setWidth 64)) := by
  intro dl
  have hrep : replayOf v s.cur = none := hu.replay hh.lone
  have hroom : operandsReady (v.modCtx s.cur fun x => { x with latch := 0 }) s.cur [] (some o.d) = true := by
    have h := hu.room hh
    simp only [operandsReady, meshCore, State.modCtx_ctx_same] at h ⊢
    exact h
  unfold wfeBody
  refine (bind_of_ok (v := (dl, k)) ?_ _).trans ?_
  · split
    next d n hr => rw [hs (hrun d n hr), ← wfeDeadline_waiting hr (arg (s.words [o.a]) 0)]
    next hr => rw [hk, show dl = _ from wfeDeadline_first (fun d n => hr d n) _]; rfl
  · simp only [replaying_lone hh.lone, Bool.not_false, Bool.and_true, Res.pure_eq, huse, Res.ok_bind, outside_plain hrep]
    by_cases hz : latchSeen s dl = 0
    · rw [if_pos hz]
      exact if_pos (beq_of_eq hz)
    · rw [if_neg hz]
      refine (if_neg (mt eq_of_beq hz)).trans ?_
      cases hd' : o.d with
      | xm m k => rw [hd'] at hd; cases hd
      | _ =>
        rw [hd'] at hroom
        simp only [hroom, ask_true, Res.ok_bind]
        rfl

/-- WFE that is not to wait writes what it has seen (R222). -/
theorem wfe_ends (hc : Clear s o.h) (ho : On s o.h) (hh : Has s [o.a] (some o.d)) (hd : o.d.local = true)
    (hrun : ∀ d n, (s.ctx s.cur).run = .blocked (.wfe d) n → (s.ctx s.cur).held.isSome = true ∨ blocking [o.a] none = false)
    (hl : latchSeen s (wfeDeadline s (arg (s.words [o.a]) 0)) ≠ 0) : ∃ t, exec (.wfe o) s = .next t ∧
      ScalarDone ((s.used [o.a] (some o.d)).modCtx s.cur fun x => { x with latch := 0 }) t [] o.d
        ((latchSeen s (wfeDeadline s (arg (s.words [o.a]) 0))).setWidth 64) 0 := by
  obtain ⟨k, hk, -, huse, hu, hs⟩ := hh.words_used
  have hcur : ((s.used [o.a] (some o.d)).modCtx s.cur fun x => { x with latch := 0 }).cur = s.cur := hu.cur
  have hdone := deliver_done (u := (s.used [o.a] (some o.d)).modCtx s.cur fun x => { x with latch := 0 })
    (by rw [hcur]; exact hc.real) (by rw [hcur]; exact hu.pair hh.lone) hd
    ((latchSeen s (wfeDeadline s (arg (s.words [o.a]) 0))).setWidth 64)
  rw [hcur] at hdone
  exact ⟨_, run_next (i := .wfe o) hc ho ((wfeBody_with hk hs huse hu hh hd hrun).trans (by rw [if_neg hl])), hdone⟩

/-- WFE that finds no event blocks with its word kept (R222). -/
theorem wfe_blocks (hc : Clear s o.h) (ho : On s o.h) (hh : Has s [o.a] (some o.d)) (hd : o.d.local = true)
    (hrun : ∀ d n, (s.ctx s.cur).run = .blocked (.wfe d) n → (s.ctx s.cur).held.isSome = true ∨ blocking [o.a] none = false)
    (hl : latchSeen s (wfeDeadline s (arg (s.words [o.a]) 0)) = 0) : ∃ u, Kept s u [o.a] ∧
      exec (.wfe o) s = .next (blockOn u s.cur (.wfe (wfeDeadline s (arg (s.words [o.a]) 0)))) := by
  obtain ⟨k, hk, hkept, huse, hu, hs⟩ := hh.words_used
  exact ⟨k, hkept, run_next (i := .wfe o) hc ho ((wfeBody_with hk hs huse hu hh hd hrun).trans (by rw [if_pos hl]))⟩

end

/-! HALT and CKPT (R109, R223, R225). -/

/-- What has retired, changed in what is no register and no mark of a port or mailbox. -/
theorem Retired.modCtx {s t : State} {srcs : List Src} {x : Context} {put : BitVec 6 → Option Reg} (h : Retired s t srcs x put)
    (f : Context → Context) (hf : ∀ (y : Context) g p m,
      f { y with g := g, pmask := p, mbxmask := m } = { f y with g := g, pmask := p, mbxmask := m }) :
    Retired s (t.modCtx s.cur f) srcs (f x) put := by
  have hown : (t.modCtx s.cur f).ctx s.cur = _ := State.modCtx_ctx_same ..
  have hkeeps : ∀ y, f y = { f y with g := y.g, pmask := y.pmask, mbxmask := y.mbxmask } := fun y => hf y y.g y.pmask y.mbxmask
  have hreg : ∀ y j, (f y).reg j = y.reg j := fun y j => by rw [hkeeps y]; rfl
  have hw : Within s (t.modCtx s.cur f) := h.whole.trans rfl
  exact {
    whole := hw
    net := h.net
    bytes := hw.bytes
    own := by
      rw [hown]
      conv_lhs => rw [h.own, hf]
      rw [hkeeps (t.ctx s.cur)]
    regs := fun j => by rw [hown, hreg]; exact h.regs j
    consumed := ⟨h.consumed.queues, h.consumed.ports, h.consumed.mail⟩
    core := h.core
    cores := h.cores
    others := fun e he => (State.modCtx_ctx_ne _ _ _ _ (Ne.symm he)).trans (h.others e he)
    dies := h.dies }

theorem mustCheckpoint_at {s : State} {c : Nat} (h : atCheckpoint s c = true) : mustCheckpoint s c = .ok s := if_pos h

theorem pairFence_at {s : State} {c : Nat} (h : atCheckpoint s c = true) (sc : Scope) : pairFence s c sc = .ok s := by
  rw [pairFence, mustCheckpoint_at h, ite_self]

/-- What HALT makes of a context that goes on: bit 4 of its latch, or a stop (R223). -/
def halting (x : Context) : Context :=
  if x.latch.getLsbD 4 then { x with latch := x.latch &&& 0x0F } else { x with run := .halted }

theorem halt_stops {s : State} {o : NoOps} (hc : Clear s o.h) (ho : On s o.h) (hp : Privileged s)
    (hat : atCheckpoint s s.cur = true) (hf : Fenced s .core) :
    ∃ t, exec (.halt o) s = .next t ∧ Retired s t [] (halting s.after) putNone := by
  refine ⟨_, (runKernel_met (i := .halt o) hp).trans (run_next hc ho ?_), (retired_after s).modCtx halting fun y g p m => ?_⟩
  · unfold Fenced at hf
    simp only [haltBody, pairFence_at hat, Res.ok_bind, hf, Bool.not_false, ask_true, Res.pure_eq]
    rfl
  · unfold halting
    split <;> rfl

theorem ckpt_goes_on {s : State} {o : NoOps} (hc : Clear s o.h) (ho : On s o.h) (hat : atCheckpoint s s.cur = true) :
    ∃ t, exec (.ckpt o) s = .next t ∧ Retired s t [] s.after putNone :=
  ⟨_, run_next (i := .ckpt o) hc ho (by rw [mustCheckpoint_at hat, Res.ok_bind, Res.pure_eq]), retired_after s⟩

/-- Settles O27: WFE by what it sees of its latch; HALT and CKPT retire, HALT with its stop behind. -/
theorem waitsAndHalts : Obligations.WaitsAndHalts := by
  unfold Obligations.WaitsAndHalts
  refine ⟨fun o s hc ho hh hd hrun => ⟨fun hl => ?_, fun hl hp => ?_, fun hl hp => ?_⟩,
    fun o s hc ho hp hat hf => halt_stops hc ho hp hat hf, fun o s => ckpt_goes_on⟩
  · have h := wfe_ends hc ho hh hd hrun
    rw [latchSeen_set hl] at h
    exact h hl
  · have h := wfe_ends hc ho hh hd hrun
    rw [latchSeen_late hl hp] at h
    exact h (by decide)
  · exact wfe_blocks hc ho hh hd hrun (latchSeen_waits hl hp)

end Sys2Proof.Machine
end

section
/-! SUPPORT. Atomics at Issue (R298, R299): the request that joins the order buffer, and the reply an AMO takes. -/

namespace Sys2Proof.Machine

/-! The request (R161, R299). -/

/-- Off a pair no gate opens. -/
theorem openGate_core {s : State} {c : Nat} (h : (s.core (coreOf c)).bridle = none) (k : Nat) :
    (openGate s c).core k = s.core k := modCore_id (bridle_map_none h _) k

/-- The request and its marks join together, through a gate that is then open (R299). -/
theorem sendAtomic_eq {s u : State} (hn : (u.ctx s.cur).nextId = (s.ctx s.cur).nextId) (a : Acc) (ord : BitVec 2) (sc : Scope)
    (r : AtomReq) : sendAtomic u s.cur a ord sc r =
      openGate (lobAppend u s.cur ((atomicOps s a ord sc r).flatMap (LobOp.withMarks (clusterOf s.cur)))) s.cur := by
  have hlid : ((lobAppend u s.cur (checkMarks (clusterOf s.cur) [a])).ctx s.cur).nextId =
      (s.ctx s.cur).nextId + (checkMarks (clusterOf s.cur) [a]).length := by
    rw [lobAppend, State.modCtx_ctx_same, hn]
  simp only [sendAtomic, hlid, lobPush]
  rw [atomicOps, List.flatMap_append, checkMarks_withMarks, List.flatMap_singleton,
    lobAppend_lobAppend _ _ fun p hp => checkMarks_isStore hp]

/-- The request of an atomic whose words were read. -/
def amoRequest (s : State) (a : Acc) (ty : AmoTy) (op : AmoOp) (ea : Word) (b cv : Word) (dst : Option Dst) : AtomReq :=
  { c := s.cur, ident := (s.ctx s.cur).ident, ty := ty, op := op, ea := ea, pa := a.pa, b := b, cv := cv, dst := dst
    engine := atomEngine s s.cur a.pa (s.ctx s.cur).ident, owner := tlOwner s s.cur }

section
variable {s u : State} {a : Acc}

theorem amo_sends {o : AmoOps} (hc : Clear s o.h) (ho : On s o.h) (hl : Lone s) (hsent : (s.ctx s.cur).sent = false)
    (hk : Known s [o.a]) (hg : AtomGrants s o.a (o.ofs.signExtend 64) (amoBytes o.ty) (permLd ||| permSt) a)
    (hb : dataBreak s s.cur ((s.ctx s.cur).low o.a + o.ofs.signExtend 64) (amoBytes o.ty) false = none)
    (hh : Has s (amoSrcs o) (some o.d)) (hd : o.d.local = true) : ∃ u, Kept s u (amoSrcs o) ∧
      exec (.amo o) s = .next (blockOn ((openGate (lobAppend u s.cur
        ((atomicOps s a o.ord o.scope (amoRequest s a o.ty o.op ((s.ctx s.cur).low o.a + o.ofs.signExtend 64)
          (arg (s.words (amoSrcs o)) 0) (arg (s.words (amoSrcs o)) 1) (some o.d))).flatMap
            (LobOp.withMarks (clusterOf s.cur)))) s.cur).modCtx s.cur fun x => { x with sent := true }) s.cur .amoReply) := by
  obtain ⟨u, hu, hkept, -⟩ := hh.words_used
  refine ⟨u, hkept, run_next (i := .amo o) hc ho ?_⟩
  have hid : (u.ctx s.cur).ident = (s.ctx s.cur).ident := by rw [hkept.own]
  have hset : (u.ctx s.cur).task = (s.ctx s.cur).task ∧ (u.ctx s.cur).set = (s.ctx s.cur).set := by rw [hkept.own]; exact ⟨rfl, rfl⟩
  have howner : tlOwner u s.cur = tlOwner s s.cur := by simp only [tlOwner, hset]
  have hengine : ∀ pa i, atomEngine u s.cur pa i = atomEngine s s.cur pa i := fun pa i => by rw [hkept.whole]; rfl
  have hrep : replaying u s.cur = false := by
    have h := replaying_lone (hkept.lone hl)
    rwa [show u.cur = s.cur by rw [hkept.whole]] at h
  unfold AtomGrants askAtomic at hg
  simp only [amoBody, hsent, Bool.false_eq_true, if_false, regOf_known (hk o.a (by simp)), Res.ok_bind, hg, hb, Res.pure_eq,
    destReady_local hd, hl.pair, Option.isSome_none, hu, hrep, hid, howner, hengine,
    sendAtomic_eq (s := s) (u := u) (by rw [hkept.own])]
  rfl

/-- What a request sent leaves of its state (R299). -/
theorem sent_leaves {o : AmoOps} {ops : List LobOp} (hl : Lone s) (hkept : Kept s u (amoSrcs o)) {t : State}
    (ht : blockOn ((openGate (lobAppend u s.cur (ops.flatMap (LobOp.withMarks (clusterOf s.cur)))) s.cur).modCtx s.cur
      fun x => { x with sent := true }) s.cur .amoReply = t) : Within s t ∧ SameBytes s t ∧ t.net = s.net ∧
      (∀ e, e ≠ s.cur → t.ctx e = s.ctx e) ∧ (∀ k, t.core k = u.core k) ∧ (∃ n, (t.ctx s.cur).run = .blocked .amoReply n) ∧
      t.ctx s.cur = { s.buffered ops with
        held := (u.ctx s.cur).held, sent := true, served := none, mheld := false, run := (t.ctx s.cur).run } := by
  have hpair : (u.core (coreOf s.cur)).bridle = none := by rw [hkept.core]; exact hl.pair
  have hcores := openGate_core (s := lobAppend u s.cur (ops.flatMap (LobOp.withMarks (clusterOf s.cur)))) (c := s.cur) hpair
  generalize hg : openGate (lobAppend u s.cur (ops.flatMap (LobOp.withMarks (clusterOf s.cur)))) s.cur = g at ht hcores
  have hown : g.ctx s.cur = { s.buffered ops with held := (u.ctx s.cur).held } := by
    rw [← hg, openGate, State.modCore_at_ctx, lobAppend, State.modCtx_ctx_same, hkept.own]
    rfl
  have hothers : ∀ e, e ≠ s.cur → g.ctx e = s.ctx e := fun e he => by
    rw [← hg, openGate, State.modCore_at_ctx, lobAppend, State.modCtx_ctx_ne _ _ _ _ (Ne.symm he), hkept.others e he]
  have hwhole : g = { s with ctxs := g.ctxs, cores := g.cores } := by
    rw [← hg]
    conv_lhs => rw [hkept.whole]
    rfl
  obtain ⟨hblock, ⟨n, hrun⟩, hrest, -⟩ := blockOn_spec (g.modCtx s.cur fun x => { x with sent := true }) s.cur .amoReply
  rw [ht] at hblock hrun hrest
  rw [State.modCtx_ctx_same, hown] at hrun
  have hw : Within s t := by rw [hblock, hwhole]; rfl
  refine ⟨hw, hw.bytes, by rw [hblock, hwhole]; rfl, fun e he => ?_, fun k => ?_, ⟨n, by rw [hrun]⟩, by rw [hrun]⟩
  · rw [hrest e he, State.modCtx_ctx_ne _ _ _ _ (Ne.symm he), hothers e he]
  · rw [hblock]
    exact hcores k

end

/-! The reply (R298, R300). -/

/-- A core's word of a context stays with the tables it comes from. -/
theorem coreWord_congr {s t : State} (hp : t.parts = s.parts) (hm : ∀ e, (t.die e).cmap = (s.die e).cmap) (i : Ident) (k : Nat) :
    coreWord t i k = coreWord s i k := by
  have hpart : ∀ p, t.part p = s.part p := fun p => by simp only [State.part, hp]
  simp only [coreWord, logDie, physDie, logCore, coreMap, hpart, hm]

/-- A word delivered from a state whose flags were raised is delivered with those flags. -/
theorem ScalarDone.of_flagged {s u t : State} {d : Dst} {w : Word} {fl : FpFlags} (hf : Flagged s u s.cur fl)
    (h : ScalarDone u t [] d w 0) : ScalarDone s t [] d w fl := by
  have hcur : u.cur = s.cur := by rw [hf.whole]
  have hcore : ∀ k, u.core k = s.core k := fun k => by rw [hf.whole]; rfl
  have hw : Within s t := Within.trans (Within.of_ctxs_dies hf.whole) h.whole
  have hown := hf.own
  have hdies := hf.dies
  have hz : ∀ f : FpFlags, f ||| (0 : FpFlags) = f := fun _ => BitVec.or_zero
  have hsame : ∀ e, (u.die e).parked = (s.die e).parked ∧ (u.die e).ready = (s.die e).ready := fun e => by
    rw [hdies e]; exact ⟨rfl, rfl⟩
  exact {
    whole := hw
    bytes := hw.bytes
    own := by
      have ho := h.own
      rw [hcur, hown] at ho
      rw [hz] at ho
      exact ho
    regs := fun j => by
      have hr := h.regs j
      rw [hcur, hown] at hr
      exact hr
    consumed := by
      have hu := h.consumed
      exact ⟨fun i => by rw [← hcore, ← hcur]; exact hu.queues i, fun i => by rw [← hcore, ← hcur]; exact hu.ports i,
        fun i => by rw [← hcore, ← hcur]; exact hu.mail i⟩
    core := by
      have hk := h.core
      rw [CoreKept, hcur, hcore] at hk
      exact hk
    cores := fun j hj => (h.cores j (by rw [hcur]; exact hj)).trans (hcore j)
    others := fun e hc he => by
      have ho := h.others e hc (by rw [hcur]; exact he)
      rw [hf.others e he, hcur] at ho
      exact ho
    dies := fun e => by
      have hd := h.dies e
      rw [hdies e] at hd
      exact hd
    pools := fun hq e => ⟨(h.pools hq e).1.trans (hsame e).1, (h.pools hq e).2.trans (hsame e).2⟩
    flags := fun e n => by
      have hbits := h.flags e n
      rw [hz, ite_self] at hbits
      rw [hbits]
      exact hf.bits e n
    net := by
      have hn := h.net
      have hnet : u.net = s.net ∧ u.next = s.next ∧ u.time = s.time ∧ u.parts = s.parts := by rw [hf.whole]; exact ⟨rfl, rfl, rfl, rfl⟩
      cases d with
      | n i =>
        have hm : meshCore u s.cur = meshCore s s.cur := by simp only [meshCore, hown]
        obtain ⟨m, hword, hfrom, ht, hsent, hnext⟩ := hn
        have hword' : ∀ l k, coreWord u l k = coreWord s l k := coreWord_congr hnet.2.2.2 fun e => by rw [hdies e]
        rw [hcur, hown, hword'] at hfrom
        rw [hcur, hown, hnet.1, hnet.2.1, hm] at hsent
        exact ⟨m, hword, hfrom, ht.trans (by rw [hnet.2.2.1]), hsent, hnext.trans (by rw [hnet.2.1])⟩
      | _ => exact ⟨hn.1.trans hnet.1, hn.2.trans hnet.2.1⟩ }

theorem raiseFlags_cur (s : State) (c : Nat) (fl : FpFlags) : (raiseFlags s c fl).cur = s.cur := by
  rw [(raiseFlags_spec s c fl).whole]

/-- A word answered with its flags (R135). -/
theorem answer_flags {u : State} {d : Dst} (hr : isContext u.cur = true) (hp : (u.core (coreOf u.cur)).bridle = none)
    (hd : d.local = true) (w : Word) (ho : operandsReady u u.cur [] (some d) = true) (fl : FpFlags) :
    ∃ t, answer u u.cur d w fl = .ok t ∧ ScalarDone u t [] d w fl := by
  have hf := raiseFlags_spec u u.cur fl
  have hcur := raiseFlags_cur u u.cur fl
  have hdone := deliver_done (u := raiseFlags u u.cur fl) (by rw [hcur]; exact hr) (by rw [hcur, hf.whole]; exact hp) hd w
  rw [hcur] at hdone
  refine ⟨_, ?_, (hdone.of_flagged hf).replied hp⟩
  cases d with
  | xm m k => exact Bool.noConfusion hd
  | _ => simp only [answer, ho, ask_true, Res.ok_bind, Res.pure_eq]

section
variable {s : State}

/-- What an AMO's instruction keeps to itself is nothing its sources depend on. -/
theorem Has.taking {srcs : List Src} {d : Option Dst} (h : Has s srcs d) :
    Has (s.modCtx s.cur fun x => { x with sent := false, reply := none, oflags := 0 }) srcs d := by
  have hown : (s.modCtx s.cur fun x => { x with sent := false, reply := none, oflags := 0 }).ctx s.cur = _ :=
    State.modCtx_ctx_same ..
  have hlone : Lone s → Lone (s.modCtx s.cur fun x => { x with sent := false, reply := none, oflags := 0 }) := fun hl =>
    ⟨hl.pair, replayOf_keep hl.replay rfl (by rw [State.modCtx_cur, hown]) (by rw [State.modCtx_cur, hown])
      (by rw [State.modCtx_cur, hown])⟩
  have hready : Ready s srcs d → Ready (s.modCtx s.cur fun x => { x with sent := false, reply := none, oflags := 0 }) srcs d :=
    fun hr => {
      known := by rw [State.modCtx_cur, hown]; exact hr.known
      room := by rw [State.modCtx_cur, hown]; exact hr.room
      there := fun hb => by
        obtain ⟨hl, hop, hway⟩ := hr.there hb
        exact ⟨hlone hl, (operandsReady_modCtx s.cur s.cur _ srcs d rfl).trans hop, (givesWay_modCtx s.cur _ srcs d rfl).trans hway⟩
      verified := fun ho => by
        have h := hr.verified ho
        unfold State.unchecked unproven at h ⊢
        rw [State.modCtx_cur, hown]
        exact h
      untimed := hr.untimed }
  exact {
    lone := hlone h.lone
    there := h.there.imp (fun hh => by rw [State.modCtx_cur, hown]; exact hh) hready
    room := fun hh => by
      rw [State.modCtx_cur, hown] at hh
      exact (operandsReady_modCtx s.cur s.cur _ [] d rfl).trans (h.room hh)
    untimed := h.untimed.imp_left fun hm l hl => hm l (by rw [State.modCtx_cur, hown] at hl; exact hl) }

theorem amo_takes {o : AmoOps} {w : Word} (hc : Clear s o.h) (ho : On s o.h) (hsent : (s.ctx s.cur).sent = true)
    (hd : o.d.local = true) (hr : (s.ctx s.cur).reply = some (.ok w)) (hh : Has s (amoSrcs o) (some o.d))
    (hw : (s.ctx s.cur).held.isSome = true ∨ blocking (amoSrcs o) none = false) :
    let u := s.modCtx s.cur fun x => { x with sent := false, reply := none, oflags := 0 }
    Used u (u.used (amoSrcs o) (some o.d)) (amoSrcs o) ∧ ∃ t, exec (.amo o) s = .next t ∧
      ScalarDone (u.used (amoSrcs o) (some o.d)) t [] o.d w (s.ctx s.cur).oflags := by
  intro u
  have hcur : u.cur = s.cur := rfl
  have hown : u.ctx s.cur = { s.ctx s.cur with sent := false, reply := none, oflags := 0 } := State.modCtx_ctx_same ..
  obtain ⟨k, hk, -, huse, hu, hsame⟩ := hh.taking.words_used
  have hk : k = u := hsame (by rw [hcur, hown]; exact hw)
  rw [hk] at huse
  generalize u.used (amoSrcs o) (some o.d) = v at hu huse
  have hvcur : v.cur = s.cur := hu.cur
  have hroom : operandsReady v s.cur [] (some o.d) = true := hu.room hh.taking
  have hrep : replayOf v s.cur = none := hu.replay hh.taking.lone
  obtain ⟨t, ht, hdone⟩ := answer_flags (u := v) (d := o.d) (by rw [hvcur]; exact hc.real)
    (by rw [hvcur]; exact hu.pair hh.taking.lone) hd w (by rw [hvcur]; exact hroom) (s.ctx s.cur).oflags
  rw [hvcur] at ht
  refine ⟨hu, t, run_next (i := .amo o) hc ho ?_, hdone⟩
  simp only [amoBody, hsent, if_true, amoReply, hr]
  refine (bind_of_ok huse _).trans ?_
  rw [outside_plain hrep, Res.ok_bind]
  exact ht

theorem amo_traps {o : AmoOps} {t : Trap} (hc : Clear s o.h) (ho : On s o.h) (hsent : (s.ctx s.cur).sent = true)
    (hr : (s.ctx s.cur).reply = some (.trap t)) (hs : Settled s) : exec (.amo o) s = .next (takeTrap s s.cur t) :=
  run_trap (i := .amo o) hc ho hs (by simp only [amoBody, hsent, if_true, amoReply, hr])

end

/-! AMOR (R298). -/

/-- Cores that hold the same were read the same. -/
theorem Reading.of_cores {s u v : State} {got : List (BitVec 5 × Word)} {srcs : List Src} (h : Reading s u got srcs)
    (hv : v = { u with cores := v.cores }) (hcores : ∀ k, v.core k = u.core k) : Reading s v got srcs where
  whole := by
    conv_lhs => rw [hv, h.whole]
    rw [hv]
  own := by rw [hv]; exact h.own
  others e he := by rw [hv]; exact h.others e he
  queues i := by rw [hcores]; exact h.queues i
  ports i := by rw [hcores]; exact h.ports i
  mail i := by rw [hcores]; exact h.mail i
  core := by rw [hcores]; exact h.core
  cores j hj := (hcores j).trans (h.cores j hj)
  got := h.got

/-- Off a pair a gate that opens behind entries opens before them as well. -/
theorem openGate_lobAppend {u : State} {c : Nat} (h : (u.core (coreOf c)).bridle = none) (ops : List LobOp) :
    ∃ v, openGate (lobAppend u c ops) c = lobAppend v c ops ∧ v = { u with cores := v.cores } ∧ ∀ k, v.core k = u.core k :=
  ⟨u.modCore (coreOf c) fun k => { k with bridle := k.bridle.map fun b => { b with ckpt := b.ckpt.map fun r =>
      if r.c = c then { r with next := ((lobAppend u c ops).ctx c).nextId } else r } },
    rfl, rfl, modCore_id (bridle_map_none h _)⟩

/-- Off a pair a reply is no checkpoint (R161). -/
theorem Retired.replied {s t : State} {srcs : List Src} {x : Context} {put : BitVec 6 → Option Reg} (h : Retired s t srcs x put)
    (hp : (s.core (coreOf s.cur)).bridle = none) : Retired s (replied t s.cur) srcs x put := by
  have ht : (t.core (coreOf s.cur)).bridle = none := by rw [h.core]; exact hp
  have hcores : ∀ k, (Machine.replied t s.cur).core k = t.core k := modCore_id (bridle_map_none ht _)
  have hw : Within s (Machine.replied t s.cur) := h.whole.trans rfl
  exact {
    whole := hw
    net := h.net
    bytes := hw.bytes
    own := h.own
    regs := h.regs
    consumed := {
      queues := fun i => by rw [hcores]; exact h.consumed.queues i
      ports := fun i => by rw [hcores]; exact h.consumed.ports i
      mail := fun i => by rw [hcores]; exact h.consumed.mail i }
    core := by rw [CoreKept, hcores]; exact h.core
    cores := fun j hj => (hcores j).trans (h.cores j hj)
    others := h.others
    dies := h.dies }

theorem amor_joins {s : State} {a : Acc} {o : AmorOps} (hc : Clear s o.h) (ho : On s o.h) (hl : Lone s) (hk : Known s [o.a])
    (hg : AtomGrants s o.a (o.ofs.signExtend 64) (amoBytes o.ty) permSt a) (hr : Ready s [o.b] none) :
    ∃ t, exec (.amor o) s = .next t ∧ Retired s t [o.b] (s.joined (atomicOps s a o.ord o.scope
      (amoRequest s a o.ty o.op ((s.ctx s.cur).low o.a + o.ofs.signExtend 64) (srcWord s [] o.b) 0 none))) putNone := by
  obtain ⟨u, ⟨got, hu⟩, hs⟩ := sources_ready hr
  have hid : (u.ctx s.cur).ident = (s.ctx s.cur).ident := by rw [hu.own]
  have hset : (u.ctx s.cur).task = (s.ctx s.cur).task ∧ (u.ctx s.cur).set = (s.ctx s.cur).set := by rw [hu.own]; exact ⟨rfl, rfl⟩
  have howner : tlOwner u s.cur = tlOwner s s.cur := by simp only [tlOwner, hset]
  have hengine : ∀ pa i, atomEngine u s.cur pa i = atomEngine s s.cur pa i := fun pa i => by rw [hu.whole]; rfl
  have hpair : (u.core (coreOf s.cur)).bridle = none := by rw [hu.core]; exact hl.pair
  obtain ⟨v, hopen, hv, hcores⟩ := openGate_lobAppend hpair ((atomicOps s a o.ord o.scope
    (amoRequest s a o.ty o.op ((s.ctx s.cur).low o.a + o.ofs.signExtend 64) (srcWord s [] o.b) 0 none)).flatMap
      (LobOp.withMarks (clusterOf s.cur)))
  refine ⟨_, run_next (i := .amor o) hc ho ?_, (retire_lobAppend (hu.of_cores hv hcores) _ none).replied hl.pair⟩
  unfold AtomGrants askAtomic at hg
  simp only [amorBody, regOf_known (hk o.a (by simp)), Res.ok_bind, hg, Res.pure_eq, hl.pair, Option.isSome_none,
    Bool.false_eq_true, if_false, hs, hid, howner, hengine, sendAtomic_eq (s := s) (u := u) (by rw [hu.own])]
  rw [← hopen]
  rfl

/-- Settles O36: the request and its marks join the buffer; the reply is taken as any word that has come, with its flags. -/
theorem atomicsLeaveAndReturn : Obligations.AtomicsLeaveAndReturn := by
  unfold Obligations.AtomicsLeaveAndReturn
  refine ⟨?_, ?_, fun o s tr => amo_traps, fun o s a => amor_joins⟩
  · intro o s a hc ho hl hsent hk hg hb srcs hh hd
    obtain ⟨u, hkept, hexec⟩ := amo_sends hc ho hl hsent hk hg hb hh hd
    exact ⟨u, _, hkept, hexec, sent_leaves hl hkept rfl⟩
  · intro o s w hc ho hsent hd hr srcs hh hw
    exact amo_takes hc ho hsent hd hr hh hw

end Sys2Proof.Machine
end

section
/-! SUPPORT. The ends of a task (R190, R191, R219): what frees a context, and the order in which its commands, its word,
its release and its flags come. -/

namespace Sys2Proof.Machine

/-! A context that is freed (R191). -/

theorem foldl_ctxs {α : Type} {f : State → α → State} (h : ∀ s a, (f s a).ctxs = s.ctxs) (l : List α) (s : State) :
    (l.foldl f s).ctxs = s.ctxs := by
  induction l generalizing s with
  | nil => rfl
  | cons a l ih => rw [List.foldl_cons, ih, h]

theorem freeScratch_ctxs (s : State) (cl : Nat) : (freeScratch s cl).ctxs = s.ctxs := rfl

theorem detach_ctxs (s : State) (c : Nat) : (detach s c).ctxs = s.ctxs := by
  refine foldl_ctxs (fun s e => ?_) _ s
  dsimp only
  split
  · split
    · rfl
    · rfl
  · rfl

theorem settleBorders_ctxs (die n : Nat) (s : State) : (settleBorders die n s).ctxs = s.ctxs := by
  induction n generalizing s with
  | zero => rfl
  | succ n ih =>
    unfold settleBorders
    split
    · rfl
    · exact ih _

theorem releaseClaims_ctxs (s : State) (c : Nat) : (releaseClaims s c).ctxs = s.ctxs := by
  unfold releaseClaims
  dsimp only
  split <;> rfl

/-- A freed context runs nothing (R191). -/
theorem freeContext_ctx (s : State) (c : Nat) : ((freeContext s c).ctx c).run = .free ∧ ((freeContext s c).ctx c).task = none := by
  unfold freeContext settleBorder
  generalize dropWork s c = w
  dsimp only
  rw [State.ctx, settleBorders_ctxs, detach_ctxs, releaseClaims_ctxs, ← State.ctx, State.setCtx_ctx_same]
  exact ⟨rfl, rfl⟩

/-! YIELD (R190). -/

theorem yields_iff (s : State) : yields s s.cur = true ↔ Yields s := by
  simp only [yields, Yields, Bool.and_eq_true, beq_iff_eq, and_assoc]

section
variable {s : State}

/-- Retiring moves nothing YIELD depends on. -/
theorem yields_retire (s : State) : yields (retire s s.cur) s.cur = yields s s.cur := by
  have h := retired_after s
  have hown := h.own
  generalize retire s s.cur = t at h hown
  have hlevel : (t.ctx s.cur).level = (s.ctx s.cur).level := by rw [hown]; rfl
  have hident : (t.ctx s.cur).ident = (s.ctx s.cur).ident := by rw [hown]; rfl
  have htask : (t.ctx s.cur).task.isSome = (s.ctx s.cur).task.isSome := by rw [hown]; exact Option.isSome_map
  simp only [yields, hlevel, hident, htask, freeArea, h.dies]

theorem yield_leaves {o : NoOps} (hc : Clear s o.h) (ho : On s o.h) (hl : Lone s) (hr : released s s.cur .part = true) (hy : Yields s) :
    ∃ t, exec (.yield o) s = .next t ∧ Retired s t [] { s.after with run := .leaving 5 } putNone := by
  refine ⟨_, run_next (i := .yield o) hc ho ?_, (retired_after s).modCtx (fun x => { x with run := .leaving 5 }) fun _ _ _ _ => rfl⟩
  rw [leaveNow_lone hl hr, Res.ok_bind]
  simp only [yields_retire, (yields_iff s).2 hy, if_true, Res.pure_eq]

theorem yield_goes_on {o : NoOps} (hc : Clear s o.h) (ho : On s o.h) (hl : Lone s) (hr : released s s.cur .part = true)
    (hy : ¬ Yields s) : ∃ t, exec (.yield o) s = .next t ∧ Retired s t [] s.after putNone := by
  refine ⟨_, run_next (i := .yield o) hc ho ?_, retired_after s⟩
  rw [leaveNow_lone hl hr, Res.ok_bind]
  simp only [yields_retire, mt (yields_iff s).1 hy, Bool.false_eq_true, if_false, Res.pure_eq]

/-! What comes before the end (R135, R191). -/

theorem allDone_iff (s : State) : allDone s (tlOwner s s.cur) = true ↔ EnginesDone s := by
  simp only [allDone, EnginesDone, List.all_eq_true, List.mem_range, beq_iff_eq]

/-- A context whose word has been taken, or stands in a register, has it (R45). -/
theorem has_word {a : Src} (hl : Lone s) (hw : (s.ctx s.cur).held.isSome = true ∨ ∃ i, a = .g i ∧ (s.ctx s.cur).pendG i = false)
    (hu : (∀ l, (s.ctx s.cur).held = some l → ∀ m, Src.m m ∉ l.map (·.1)) ∨
      (s.die (coreDie (coreOf s.cur))).msgt.getLsbD 63 = false) : Has s [a] none where
  lone := hl
  there := hw.imp_right fun ⟨i, ha, hi⟩ => {
    known := by simp only [ha, Context.pendSrc, List.any_cons, hi, List.any_nil, Bool.or_self]
    room := rfl
    there := fun hb => by rw [ha] at hb; exact nomatch hb
    verified := fun ho => nomatch ho
    untimed := .inl fun m hm => by rw [ha] at hm; exact nomatch List.mem_singleton.1 hm }
  room _ := rfl
  untimed := hu

theorem Reporting.has {a : Src} (h : Reporting s a) : Has s [a] none := has_word h.lone h.word h.untimed

theorem Reporting.whole {a : Src} (h : Reporting s a) : (s.ctx s.cur).held.isSome = true ∨ blocking [a] none = false :=
  h.word.imp_right fun ⟨i, ha, _⟩ => by rw [ha]; rfl

/-- The flags of the commands that are over join the context's; nothing else changes (R135). -/
theorem heldTaken_flagged (s : State) : ∃ u fl, u = { s with tls := u.tls } ∧ Flagged u s.heldTaken s.cur fl := by
  unfold State.heldTaken takeHeld
  dsimp only
  split
  · exact ⟨s, 0, rfl, by have h := raiseFlags_spec s s.cur 0; rwa [raiseFlags_zero] at h⟩
  · exact ⟨_, _, rfl, raiseFlags_spec _ _ _⟩

/-- What taking those flags leaves of a state. -/
structure Flags (s t : State) : Prop where
  whole : t = { s with ctxs := t.ctxs, dies := t.dies, tls := t.tls }
  own : t.ctx s.cur = { s.ctx s.cur with flags := (t.ctx s.cur).flags }
  dies : ∀ e, t.die e = { s.die e with clflags := (t.die e).clflags }

theorem heldTaken_flags (s : State) : Flags s s.heldTaken := by
  obtain ⟨u, fl, hu, hf⟩ := heldTaken_flagged s
  have hctx : ∀ e, u.ctx e = s.ctx e := fun e => by rw [hu]; rfl
  have hdie : ∀ e, u.die e = s.die e := fun e => by rw [hu]; rfl
  exact {
    whole := by
      conv_lhs => rw [hf.whole, hu]
      rw [hf.whole]
    own := by rw [hf.own, hctx]
    dies := fun e => by
      have h := hf.dies e
      rw [hdie] at h
      exact h }

/-- A context in which only flags came has the word it had. -/
theorem Flags.has {t : State} {a : Src} (h : Flags s t) (he : Ending s a) : Has t [a] none := by
  have hcur : t.cur = s.cur := by rw [h.whole]
  have hown := h.own
  have hpend : ∀ i, (t.ctx s.cur).pendG i = (s.ctx s.cur).pendG i := fun i => by rw [hown]; rfl
  refine has_word ⟨?_, ?_⟩ ?_ ?_
  · rw [hcur, h.whole]; exact he.lone.pair
  · rw [hcur]; exact replayOf_keep he.lone.replay (by rw [h.whole]) (by rw [hown]) (by rw [hown]) (by rw [hown])
  · rw [hcur]
    exact he.word.imp (fun hh => by rw [hown]; exact hh) fun ⟨i, ha, hi⟩ => ⟨i, ha, (hpend i).trans hi⟩
  · rw [hcur]
    exact he.untimed.imp (fun hm l hl => hm l (by rw [hown] at hl; exact hl)) fun hm => by rw [h.dies]; exact hm

theorem ending_waits {a : Src} (h : ¬ EnginesDone s) (fin : Word → State → Res State) :
    endingWith [a] s.cur s fin = .error (.block .engine) := by
  have hdone : allDone s (tlOwner s s.cur) = false := by
    rw [Bool.eq_false_iff]
    exact mt (allDone_iff s).1 h
  simp only [endingWith, afterCommands, hdone]
  rfl

/-- The word a queue, port or mailbox gives is taken in a turn of its own (R45, R191). -/
theorem ending_pulls {a : Src} (hl : Lone s) (hdone : EnginesDone s) (hh : (s.ctx s.cur).held = none)
    (hb : blocking [a] none = true) (hr : Ready s [a] none) (fin : Word → State → Res State) :
    ∃ u, Kept s u [a] ∧ endingWith [a] s.cur s fin = .ok u := by
  have hhas : Has s [a] none := ⟨hl, .inr hr, fun _ => rfl, .inl fun l hl => by rw [hh] at hl; cases hl⟩
  obtain ⟨u, hu, hkept, -⟩ := hhas.words_used
  have htaken : (u.ctx s.cur).held.isSome = true := by rw [hkept.held, hb, Bool.or_true]
  refine ⟨u, hkept, ?_⟩
  simp only [endingWith, afterCommands, (allDone_iff s).2 hdone, ask_true, Res.ok_bind, hu, hh, Option.isNone_none, htaken,
    Bool.and_self, if_true, Res.pure_eq]

theorem ending_goes_on {a : Src} (h : Ending s a) (fin : Word → State → Res State) :
    endingWith [a] s.cur s fin = fin (arg (s.words [a]) 0) s.heldTaken := by
  obtain ⟨u, hu, -, -, -, hsame⟩ := h.has.words_used
  rw [hsame h.whole] at hu
  have hnot : ((s.ctx s.cur).held.isNone && (s.ctx s.cur).held.isSome) = false := by
    cases (s.ctx s.cur).held <;> rfl
  have hsettled : settled s s.cur = true := h.settled
  simp only [endingWith, afterCommands, (allDone_iff s).2 h.done, ask_true, Res.ok_bind, hu, hnot, Bool.false_eq_true, if_false,
    leaveNow_lone h.lone h.older, hsettled]
  rfl

/-- The word is used from the state that has the flags (R191). -/
theorem ending_uses {a : Src} (h : Ending s a) :
    useWords s.heldTaken s.cur [a] = .ok (s.heldTaken.used [a] none) ∧ Used s.heldTaken (s.heldTaken.used [a] none) [a] := by
  have hf := heldTaken_flags s
  have hcur : s.heldTaken.cur = s.cur := by rw [hf.whole]
  have hown := hf.own
  obtain ⟨u, -, -, huse, hused, hsame⟩ := (hf.has h).words_used
  rw [hcur, hsame ?_] at huse
  · exact ⟨huse, hused⟩
  · rw [hcur, hown]
    exact h.whole

end

/-! END (R191). -/

section
variable {s : State}

/-- The task of a context goes on with it. -/
theorem retire_task (u : State) : ((retire u u.cur).ctx u.cur).task = (u.ctx u.cur).task.map fun k => { k with ord := k.ord + 1, exempt := none } := by
  rw [(retired_after u).own]
  rfl

theorem ending_task {a : Src} (h : Ending s a) : ((s.heldTaken.used [a] none).ctx s.cur).task = (s.ctx s.cur).task := by
  have hf := heldTaken_flags s
  have hcur : s.heldTaken.cur = s.cur := by rw [hf.whole]
  have hown := hf.own
  have hused := (ending_uses h).2.task
  rw [hcur] at hused
  rw [hused, hown]

theorem ending_cur {a : Src} (h : Ending s a) : (s.heldTaken.used [a] none).cur = s.cur :=
  (ending_uses h).2.cur.trans (by rw [(heldTaken_flags s).whole])

theorem end_ends {o : OneSrc} (hc : Clear s o.h) (ho : On s o.h) (h : Ending s o.a) : ∃ v t,
    Retired (s.heldTaken.used [o.a] none) v [] (s.heldTaken.used [o.a] none).after putNone ∧ exec (.endTask o) s = .next t ∧
    (t.ctx s.cur).run = .free ∧ (t.ctx s.cur).task = none ∧
    t = freeContext (match (s.ctx s.cur).task with
      | some k => retireTask v (coreOf s.cur) { k with ord := k.ord + 1, exempt := none } (arg (s.words [o.a]) 0) true 0
      | none => v) s.cur := by
  have hcur := ending_cur h
  have htask := retire_task (s.heldTaken.used [o.a] none)
  have hret := retired_after (s.heldTaken.used [o.a] none)
  rw [hcur, ending_task h] at htask
  rw [hcur] at hret
  refine ⟨_, _, hret, run_next (i := .endTask o) hc ho ?_, (freeContext_ctx _ _).1, (freeContext_ctx _ _).2, rfl⟩
  rw [endBody, ending_goes_on h, (ending_uses h).1, Res.ok_bind]
  dsimp only
  rw [htask]
  cases (s.ctx s.cur).task <;> rfl

end

/-! SYSC (R201, R219). -/

/-- A capability that is sound, has what is asked, and covers the bytes passes (R178). -/
theorem capCheck_passes {g : Reg} {r : BitVec 6} {perm : BitVec 12} {ea : Word} {n : Nat} (hs : Sound g)
    (hp : g.cap.perm &&& perm = perm) (hb : g.cap.base ≤ ea.toNat) (ht : ea.toNat + n ≤ g.cap.top) :
    capCheck g r perm ea n = .ok g.cap := by
  obtain ⟨htag, hbad, hstyp⟩ := hs
  simp only [capCheck, htag, hbad, hstyp, hp, hb, ht, bne_self_eq_false, decide_true, Bool.and_self, Bool.not_true, trapIf_false,
    Res.ok_bind, Res.pure_eq]

/-- The argument registers a call names, which have come. -/
theorem argRegs_known {s : State} {o : SyscOps} (h : Known s (argList o.arg o.narg)) :
    syscBody.argRegs o s s.cur = .ok ((argList o.arg o.narg).map (s.ctx s.cur).reg) := by
  have hany : ((argList o.arg o.narg).any fun i => (s.ctx s.cur).pendG i) = false := by
    simp only [List.any_eq_false, Bool.not_eq_true]
    exact h
  unfold argList at hany ⊢
  simp only [syscBody.argRegs, hany, Bool.false_eq_true, if_false]

section
variable {s : State} {o : SyscOps}

/-- The call's own checks, which its operands pass, before its end (R201, R219). -/
structure SyscPasses (s : State) (o : SyscOps) : Prop where
  known : Known s [o.b]
  args : Known s (argList o.arg o.narg)
  sound : Sound ((s.ctx s.cur).reg o.b)
  perm : ((s.ctx s.cur).reg o.b).cap.perm &&& 0x003 = 0x003
  base : ((s.ctx s.cur).reg o.b).cap.base ≤ ((s.ctx s.cur).low o.b).toNat
  top : ((s.ctx s.cur).low o.b).toNat + 128 ≤ ((s.ctx s.cur).reg o.b).cap.top
  align : ((s.ctx s.cur).low o.b).toNat % 128 = 0

/-- The queue of the calls of a context's virtual function on its die. -/
def serviceOf (s : State) : List Service := Sparse.get [] (s.die (dieOf s.cur)).service (vfKey (s.ctx s.cur).ident)

/-- The state of a call with its word used: its request queued and its continuation on the die (R219, R259). -/
def called (s : State) (o : SyscOps) : State :=
  (s.heldTaken.used [o.a] none).modDie (dieOf s.cur) fun d => { d with
    service := Sparse.set d.service (vfKey (s.ctx s.cur).ident) (serviceOf s ++
      [.sysc (arg (s.words [o.a]) 0) ((s.ctx s.cur).reg o.b) (gtiOf (s.ctx s.cur))
        ((coreWord s (s.ctx s.cur).ident (coreOf s.cur)).setWidth 64) ((argList o.arg o.narg).map (s.ctx s.cur).reg)])
    conts := d.conts ++ [{ gti := gtiOf (s.ctx s.cur), record := (s.ctx s.cur).low o.b
                           member := (s.ctx s.cur).task.bind (·.member), ident := (s.ctx s.cur).ident }] }

/-- What a call does with its word once its commands and its release are over (R219). -/
def syscEnd (s : State) (o : SyscOps) (n : Word) (t : State) : Res State := do
  trapIf (decide (2 ^ 16 ≤ n.toNat)) 0x0D n
  let x := t.ctx s.cur
  let q := Sparse.get [] (t.die (dieOf s.cur)).service (vfKey x.ident)
  ask (decide (q.length < serviceMax)) (.block .service)
  let u ← useWords t s.cur [o.a]
  let u := u.modDie (dieOf s.cur) fun d => { d with
    service := Sparse.set d.service (vfKey x.ident)
      (q ++ [.sysc n ((s.ctx s.cur).reg o.b) (gtiOf x) ((coreWord u x.ident (coreOf s.cur)).setWidth 64)
        ((argList o.arg o.narg).map (s.ctx s.cur).reg)])
    conts := d.conts ++ [{ gti := gtiOf x, record := (s.ctx s.cur).low o.b, member := x.task.bind (·.member), ident := x.ident }] }
  let v := retire u s.cur
  pure (freeContext (match (v.ctx s.cur).task with
    | some t =>
      let r := retireTask v (coreOf s.cur) { t with member := none, actor := none } n false 2
      match t.actor with | some a => endFiring r a 0 | none => r
    | none => v) s.cur)

theorem syscBody_passes (h : SyscPasses s o) : syscBody o s.cur s = endingWith [o.a] s.cur s (syscEnd s o) := by
  have hcap : capCheck ((s.ctx s.cur).reg o.b) o.b (permLd ||| permSt) ((s.ctx s.cur).low o.b) 128 = _ :=
    capCheck_passes h.sound h.perm h.base h.top
  have hlow : BitVec.setWidth 64 ((s.ctx s.cur).reg o.b).bits = (s.ctx s.cur).low o.b := rfl
  simp only [syscBody, regOf_known (h.known o.b (by simp)), Res.ok_bind, hlow, hcap, h.align, ne_eq, not_true_eq_false,
    decide_false, trapIf_false, argRegs_known h.args]
  rfl

theorem sysc_waits (hc : Clear s o.h) (ho : On s o.h) (h : SyscPasses s o) (hn : ¬ EnginesDone s) :
    exec (.sysc o) s = .next (blockOn s s.cur .engine) :=
  run_block (i := .sysc o) hc ho (by rw [syscBody_passes h, ending_waits hn])

theorem sysc_pulls (hc : Clear s o.h) (ho : On s o.h) (hl : Lone s) (h : SyscPasses s o) (hd : EnginesDone s)
    (hh : (s.ctx s.cur).held = none) (hb : blocking [o.a] none = true) (hr : Ready s [o.a] none) :
    ∃ u, Kept s u [o.a] ∧ exec (.sysc o) s = .next u := by
  obtain ⟨u, hkept, hu⟩ := ending_pulls hl hd hh hb hr (syscEnd s o)
  exact ⟨u, hkept, run_next (i := .sysc o) hc ho (by rw [syscBody_passes h, hu])⟩

theorem sysc_traps (hc : Clear s o.h) (ho : On s o.h) (h : SyscPasses s o) (he : Ending s o.a)
    (hn : 2 ^ 16 ≤ (arg (s.words [o.a]) 0).toNat) : Traps (.sysc o) s 0x0D (arg (s.words [o.a]) 0) := by
  refine run_trap (i := .sysc o) hc ho he.settled ?_
  rw [syscBody_passes h, ending_goes_on he, syscEnd]
  simp only [hn, decide_true, trapIf_true, Res.error_bind]

theorem heldTaken_ident (s : State) : (s.heldTaken.ctx s.cur).ident = (s.ctx s.cur).ident := by
  have hown := (heldTaken_flags s).own
  rw [hown]

theorem heldTaken_task (s : State) : (s.heldTaken.ctx s.cur).task = (s.ctx s.cur).task := by
  have hown := (heldTaken_flags s).own
  rw [hown]

theorem heldTaken_gti (s : State) : gtiOf (s.heldTaken.ctx s.cur) = gtiOf (s.ctx s.cur) := by
  rw [gtiOf, heldTaken_task, gtiOf]

theorem ending_coreWord {a : Src} (h : Ending s a) (i : Ident) (k : Nat) :
    coreWord (s.heldTaken.used [a] none) i k = coreWord s i k := by
  have hf := heldTaken_flags s
  have hused := (ending_uses h).2.whole
  refine coreWord_congr (by rw [hused, hf.whole]) (fun e => ?_) i k
  have hdie : (s.heldTaken.used [a] none).die e = s.heldTaken.die e := by rw [hused]; rfl
  rw [hdie, hf.dies]

/-- What taking flags leaves of the queue of the calls. -/
theorem serviceOf_heldTaken (s : State) :
    Sparse.get [] (s.heldTaken.die (dieOf s.cur)).service (vfKey (s.ctx s.cur).ident) = serviceOf s := by
  rw [(heldTaken_flags s).dies]
  rfl

theorem sysc_full (hc : Clear s o.h) (ho : On s o.h) (h : SyscPasses s o) (he : Ending s o.a)
    (hn : (arg (s.words [o.a]) 0).toNat < 2 ^ 16) (hq : serviceMax ≤ (serviceOf s).length) :
    exec (.sysc o) s = .next (blockOn s s.cur .service) := by
  refine run_block (i := .sysc o) hc ho ?_
  rw [syscBody_passes h, ending_goes_on he, syscEnd]
  simp only [Nat.not_le.2 hn, decide_false, trapIf_false, Res.ok_bind, heldTaken_ident, serviceOf_heldTaken, Nat.not_lt.2 hq]
  rfl

theorem sysc_ends (hc : Clear s o.h) (ho : On s o.h) (h : SyscPasses s o) (he : Ending s o.a)
    (hn : (arg (s.words [o.a]) 0).toNat < 2 ^ 16) (hq : (serviceOf s).length < serviceMax) : ∃ v t,
    Retired (called s o) v [] (s.heldTaken.used [o.a] none).after putNone ∧ exec (.sysc o) s = .next t ∧
    (t.ctx s.cur).run = .free ∧ (t.ctx s.cur).task = none ∧ ((s.ctx s.cur).task = none → t = freeContext v s.cur) ∧
    ∀ k, (s.ctx s.cur).task = some k →
      let r := retireTask v (coreOf s.cur) { k with ord := k.ord + 1, exempt := none, member := none, actor := none }
        (arg (s.words [o.a]) 0) false 2
      t = freeContext (match k.actor with | some a => endFiring r a 0 | none => r) s.cur := by
  have hcur : (called s o).cur = s.cur := ending_cur he
  have htask := retire_task (called s o)
  have hret := retired_after (called s o)
  have hwas : ((called s o).ctx s.cur).task = (s.ctx s.cur).task := ending_task he
  rw [hcur, hwas] at htask
  rw [hcur] at hret
  have hbody : syscBody o s.cur s = .ok (freeContext (match ((retire (called s o) s.cur).ctx s.cur).task with
      | some t =>
        let r := retireTask (retire (called s o) s.cur) (coreOf s.cur) { t with member := none, actor := none }
          (arg (s.words [o.a]) 0) false 2
        match t.actor with | some a => endFiring r a 0 | none => r
      | none => retire (called s o) s.cur) s.cur) := by
    rw [syscBody_passes h, ending_goes_on he, syscEnd]
    simp only [Nat.not_le.2 hn, decide_false, trapIf_false, Res.ok_bind, heldTaken_ident, serviceOf_heldTaken, hq, decide_true, ask_true,
      (ending_uses he).1, heldTaken_ident, heldTaken_gti, heldTaken_task, ending_coreWord he, Res.pure_eq]
    rfl
  refine ⟨_, _, hret, run_next (i := .sysc o) hc ho hbody, (freeContext_ctx _ _).1, (freeContext_ctx _ _).2, fun hnone => ?_,
    fun k hk => ?_⟩
  · rw [htask, hnone]
    rfl
  · rw [htask, hk]
    rfl

end

/-- Settles O25: YIELD by what it depends on; END and SYSC by the order of their ends, SYSC with its request queued. -/
theorem tasksGiveUpOrEnd : Obligations.TasksGiveUpOrEnd := by
  unfold Obligations.TasksGiveUpOrEnd
  refine ⟨⟨fun o s hc ho hl hr => ⟨yield_leaves hc ho hl hr, yield_goes_on hc ho hl hr⟩, ?_⟩, ?_⟩
  · intro o s hc ho hl
    refine ⟨fun hn => run_block (i := .endTask o) hc ho (ending_waits hn _), fun hd hh hb hr => ?_, fun he => ?_⟩
    · obtain ⟨u, hkept, hu⟩ := ending_pulls hl hd hh hb hr _
      exact ⟨u, hkept, run_next (i := .endTask o) hc ho hu⟩
    · exact ⟨(ending_uses he).2, end_ends hc ho he⟩
  · intro o s hc ho hl hk hargs hsound hperm hbase htop halign q u w
    have h : SyscPasses s o := ⟨hk, hargs, hsound, hperm, hbase, htop, halign⟩
    exact ⟨sysc_waits hc ho h, sysc_pulls hc ho hl h, sysc_traps hc ho h, sysc_full hc ho h, sysc_ends hc ho h⟩

end Sys2Proof.Machine
end

section
/-! SUPPORT. The commands on tiles at Issue (R321, R322, R325 to R330): the checks of the region they name, and the
command that joins the order buffer. -/

namespace Sys2Proof.Machine

/-! The region a command names (R321, R322). -/

section
variable {s : State} {id : BitVec 16} {b : Word} {form : Region → Option Nat} {r : Region}

/-- The refusal of a region's check (R322). -/
theorem regionTrap_eq (id : BitVec 16) (b : Word) (n : Nat) :
    regionTrap id b n = .trap { cause := 0x34, val := b, aux := regionAux id n } := rfl

theorem regionCheck_unnamed (h : id = 0) : regionCheck s s.cur id b form = .error (regionTrap id b 5) := by
  rw [h]; rfl

theorem regionCheck_unknown (h : id ≠ 0) (hn : regionOf s (partNo (s.ctx s.cur).ident) id = none) :
    regionCheck s s.cur id b form = .error (regionTrap id b 1) := by
  simp only [regionCheck, bne_iff_ne.2 h, ask_true, Res.ok_bind, hn]

theorem regionCheck_foreign (h : id ≠ 0) (hr : regionOf s (partNo (s.ctx s.cur).ident) id = some r)
    (hv : r.vf ≠ (s.ctx s.cur).ident.vf) : regionCheck s s.cur id b form = .error (regionTrap id b 2) := by
  simp only [regionCheck, bne_iff_ne.2 h, ask_true, Res.ok_bind, hr, beq_false_of_ne hv]
  rfl

theorem regionCheck_detached (h : id ≠ 0) (hr : regionOf s (partNo (s.ctx s.cur).ident) id = some r)
    (hv : r.vf = (s.ctx s.cur).ident.vf) (hd : r.detached = true) :
    regionCheck s s.cur id b form = .error (regionTrap id b 4) := by
  simp only [regionCheck, bne_iff_ne.2 h, ask_true, Res.ok_bind, hr, beq_of_eq hv, hd]
  rfl

theorem regionCheck_named (h : Names s id r) : regionCheck s s.cur id b form =
    match form r with | some n => .error (regionTrap id b n) | none => .ok r := by
  obtain ⟨hid, hr, hv, hd⟩ := h
  simp only [regionCheck, bne_iff_ne.2 hid, ask_true, Res.ok_bind, hr, beq_of_eq hv, hd, Bool.not_false]
  rfl

theorem coordCheck_inside (h : InTiles r b) : coordCheck r id b = .ok () := by
  have hall : ((r.counts ++ List.replicate (4 - r.ndim) 1).zip (coordOf b)).all (fun e => decide (e.2 < e.1)) = true :=
    List.all_eq_true.2 fun e he => decide_eq_true (h e he)
  rw [coordCheck, hall, ask_true]

theorem coordCheck_outside (h : ¬ InTiles r b) : coordCheck r id b = .error (regionTrap id b 3) := by
  have hall : ((r.counts ++ List.replicate (4 - r.ndim) 1).zip (coordOf b)).all (fun e => decide (e.2 < e.1)) = false := by
    rw [Bool.eq_false_iff]
    exact fun hall => h fun e he => of_decide_eq_true (List.all_eq_true.1 hall e he)
  rw [coordCheck, hall]
  rfl

/-- An instruction that checks its region first takes that check's refusals (R321). -/
theorem regionChecks_of {i : Instr} {h : Hdr} {body : Nat → State → Res State} {rest : Region → Res State} {coords : Bool}
    (hi : exec i s = run i h body s) (hc : Clear s h) (ho : On s h)
    (hb : body s.cur s = regionCheck s s.cur id b form >>= rest)
    (hrest : coords = true → ∀ r, ¬ InTiles r b → rest r = .error (regionTrap id b 3)) : RegionChecks i s id b form coords := by
  intro hs
  have htraps : ∀ n, regionCheck s s.cur id b form = .error (regionTrap id b n) → Traps i s 0x34 b (regionAux id n) := fun n hn =>
    hi.trans (run_trap hc ho hs (by rw [hb, hn, Res.error_bind, regionTrap_eq]))
  refine ⟨fun h => htraps 5 (regionCheck_unnamed h), fun h hn => htraps 1 (regionCheck_unknown h hn), fun r h hr =>
    ⟨fun hv => htraps 2 (regionCheck_foreign h hr hv), fun hv hd => htraps 4 (regionCheck_detached h hr hv hd),
      fun n hn hf => htraps n ?_, fun hcoords hn hf hin => ?_⟩⟩
  · rw [regionCheck_named hn, hf]
  · refine hi.trans (run_trap hc ho hs ?_)
    rw [hb, regionCheck_named hn, hf, ← regionTrap_eq]
    exact hrest hcoords r hin

/-- Reading sources moves no region. -/
theorem regionCheck_read {u : State} {got : List (BitVec 5 × Word)} {srcs : List Src} (h : Reading s u got srcs) :
    regionCheck u s.cur id b form = regionCheck s s.cur id b form := by
  have hident : (u.ctx s.cur).ident = (s.ctx s.cur).ident := by rw [h.own]
  have hregion : ∀ p, regionOf u p id = regionOf s p id := fun p => by rw [h.whole]; rfl
  simp only [regionCheck, hident, hregion]

end

/-! The commands (R327 to R330). -/

/-- A command pushed after its sources were read (R113). -/
theorem pushCmd_read {s u : State} {got : List (BitVec 5 × Word)} {srcs : List Src} (hl : Lone s) (h : Reading s u got srcs)
    (op : EngOp) (tl : Nat) : ∃ t, pushCmd u s.cur op tl = .ok t ∧ Retired s t srcs (s.joined [.cmd op tl]) putNone := by
  have hgate : gateRoom u s.cur = .ok u := by
    simp only [gateRoom, show (u.core (coreOf s.cur)).bridle = none by rw [h.core]; exact hl.pair, Option.isSome_none,
      Bool.false_and, Bool.false_eq_true, if_false]
  exact ⟨_, by simp only [pushCmd, hgate, Res.ok_bind, Res.pure_eq], h.retire_lobPush _⟩

/-- What the sources of a command's coordinates leave. -/
theorem taken_read {s : State} {srcs : List Src} (h : Ready s srcs none) :
    (∃ got, Reading s (s.taken srcs none) got srcs) ∧ sources s s.cur srcs none = .ok (srcWords s [] srcs, s.taken srcs none) := by
  obtain ⟨u, hread, hs⟩ := sources_ready h
  have ht : s.taken srcs none = u := by simp only [State.taken, hs]
  rw [ht]
  exact ⟨hread, hs⟩

/-- A command that checks its region and then its coordinates takes the refusals of both (R321). -/
theorem coords_checks {i : Instr} {h : Hdr} {body : Nat → State → Res State} {s : State} {id : BitVec 16} {b : Word}
    {form : Region → Option Nat} {rest : Region → Res State} (hi : exec i s = run i h body s) (hc : Clear s h) (ho : On s h)
    (hb : body s.cur s = regionCheck s s.cur id b form >>= fun r => coordCheck r id b >>= fun _ => rest r) :
    RegionChecks i s id b form true :=
  regionChecks_of hi hc ho hb fun _ r hin => by rw [coordCheck_outside hin, Res.error_bind]

/-- An instruction whose checks pass and which pushes its command has queued it (R113). -/
theorem queued_read {i : Instr} {h : Hdr} {body : Nat → State → Res State} {s u : State} {got : List (BitVec 5 × Word)}
    {srcs : List Src} {op : EngOp} {tl : Nat} (hi : exec i s = run i h body s) (hc : Clear s h) (ho : On s h) (hl : Lone s)
    (hu : Reading s u got srcs) (hb : body s.cur s = pushCmd u s.cur op tl) : Queued i s srcs op tl := by
  obtain ⟨t, ht, hr⟩ := pushCmd_read hl hu op tl
  exact ⟨t, hi.trans (run_next hc ho (hb.trans ht)), hr⟩

section
variable {s : State}

theorem tclook_exec (wr : Bool) (o : TclookOps) (s : State) : exec (if wr then .tclookWr o else .tclookRd o) s =
    run (if wr then .tclookWr o else .tclookRd o) o.h (tclookBody wr o) s := by
  cases wr <;> rfl

theorem tclook_queues {wr : Bool} {o : TclookOps} {r : Region} {xl : Xlat} (hc : Clear s o.h) (ho : On s o.h) (hl : Lone s)
    (hr : Ready s [o.b] none) (hn : Names s o.id r) (hin : InTiles r (srcWord s [] o.b))
    (hcap : engineCap (s.taken [o.b] none) s.cur o.a (if wr then permEsrc else permEdst) r.cs 16 = .ok ((s.ctx s.cur).reg o.a))
    (hxl : xlatPlaced (s.taken [o.b] none) s.cur ((s.ctx s.cur).low o.a) r.cs (if wr then 3 else 4) = .ok xl) :
    Queued (if wr then .tclookWr o else .tclookRd o) s [o.b]
      (.tclook wr o.id ((coordOf (srcWord s [] o.b)).take r.ndim) ((s.ctx s.cur).low o.a) xl) 6 := by
  obtain ⟨⟨got, hu⟩, hs⟩ := taken_read hr
  refine queued_read (tclook_exec wr o s) hc ho hl hu ?_
  unfold Context.low at hxl
  simp only [tclookBody, hs, Res.ok_bind, regionCheck_read hu, regionCheck_named hn]
  rw [show arg (srcWords s [] [o.b]) 0 = srcWord s [] o.b from rfl, coordCheck_inside hin, Res.ok_bind, hcap, Res.ok_bind, hxl,
    Res.ok_bind]
  rfl

theorem tclook_checks {wr : Bool} {o : TclookOps} (hc : Clear s o.h) (ho : On s o.h) (hr : Ready s [o.b] none) :
    RegionChecks (if wr then .tclookWr o else .tclookRd o) s o.id (srcWord s [] o.b) (fun _ => none) true := by
  obtain ⟨⟨got, hu⟩, hs⟩ := taken_read hr
  exact coords_checks (tclook_exec wr o s) hc ho (by rw [tclookBody, hs, Res.ok_bind, ← regionCheck_read hu]; rfl)

theorem tcpf_queues {o : TcpfOps} {r : Region} (hc : Clear s o.h) (ho : On s o.h) (hl : Lone s) (hr : Ready s [o.b] none)
    (hn : Names s o.id r) (hin : InTiles r (srcWord s [] o.b)) :
    Queued (.tcpf o) s [o.b] (.tcpf o.id (((coordOf (srcWord s [] o.b)).take r.ndim) ::
      neighbours r ((coordOf (srcWord s [] o.b)).take r.ndim) o.mask o.stride.toNat)) 6 := by
  obtain ⟨⟨got, hu⟩, hs⟩ := taken_read hr
  refine queued_read (i := .tcpf o) rfl hc ho hl hu ?_
  simp only [hs, Res.ok_bind, regionCheck_read hu, regionCheck_named hn]
  rw [show arg (srcWords s [] [o.b]) 0 = srcWord s [] o.b from rfl, coordCheck_inside hin, Res.ok_bind]

theorem tcpf_checks {o : TcpfOps} (hc : Clear s o.h) (ho : On s o.h) (hr : Ready s [o.b] none) :
    RegionChecks (.tcpf o) s o.id (srcWord s [] o.b) (fun _ => none) true := by
  obtain ⟨⟨got, hu⟩, hs⟩ := taken_read hr
  exact coords_checks (i := .tcpf o) rfl hc ho (by rw [hs, Res.ok_bind, ← regionCheck_read hu]; rfl)

section
variable {o : TchaloOps} {r : Region} {xl : Xlat}

/-- A halo's command with its region, coordinates, capability and pages granted: what is left is where its pages lie
(R329). -/
theorem tchalo_runs (hr : Ready s [o.b] none) (hn : Names s o.id r) (hf : haloForm o.w.toNat r = none)
    (hin : InTiles r (srcWord s [] o.b))
    (hcap : engineCap (s.taken [o.b] none) s.cur o.a permEdst (haloBytes r o.w.toNat) (codeBits r.cfmt / 8) =
      .ok ((s.ctx s.cur).reg o.a))
    (hxl : xlatPlaced (s.taken [o.b] none) s.cur ((s.ctx s.cur).low o.a) (haloBytes r o.w.toNat) 4 = .ok xl) :
    ∃ body, exec (.tchalo o) s = run (.tchalo o) o.h body s ∧ body s.cur s =
      (ask (xl.all fun p => isScratch (p.2 * 4096)) (regionTrap o.id (srcWord s [] o.b) 7) >>= fun _ =>
        pushCmd (s.taken [o.b] none) s.cur
          (.tchalo o.edge o.id ((coordOf (srcWord s [] o.b)).take r.ndim) o.w.toNat ((s.ctx s.cur).low o.a) xl) 6) := by
  obtain ⟨⟨got, hu⟩, hs⟩ := taken_read hr
  refine ⟨_, rfl, ?_⟩
  unfold haloForm at hf
  unfold haloBytes at hcap hxl
  unfold Context.low at hxl
  simp only [hs, Res.ok_bind, regionCheck_read hu, regionCheck_named hn, hf]
  rw [show arg (srcWords s [] [o.b]) 0 = srcWord s [] o.b from rfl, coordCheck_inside hin, Res.ok_bind, hcap, Res.ok_bind, hxl,
    Res.ok_bind]
  rfl

theorem tchalo_checks (hc : Clear s o.h) (ho : On s o.h) (hr : Ready s [o.b] none) :
    RegionChecks (.tchalo o) s o.id (srcWord s [] o.b) (haloForm o.w.toNat) true := by
  obtain ⟨⟨got, hu⟩, hs⟩ := taken_read hr
  exact coords_checks (i := .tchalo o) rfl hc ho (by rw [hs, Res.ok_bind, ← regionCheck_read hu]; rfl)

end

theorem tcinv_queues {i : Instr} {n : Nat} {o : TcinvOps} {r : Region} (hi : exec i s = run i o.h (tcinvBody n o) s)
    (hc : Clear s o.h) (ho : On s o.h) (hl : Lone s) (hn : Names s o.id r) : Queued i s [] (.tcinv n o.id) 6 :=
  queued_of_push hi hc ho hl (by rw [tcinvBody, regionCheck_named hn, Res.ok_bind])

theorem tcinv_checks {i : Instr} {n : Nat} {o : TcinvOps} (hi : exec i s = run i o.h (tcinvBody n o) s) (hc : Clear s o.h)
    (ho : On s o.h) : RegionChecks i s o.id 0 (fun _ => none) false :=
  regionChecks_of hi hc ho rfl nofun

end

/-- Settles O41: each command's checks of its region and coordinates, and the command that is queued when they pass. -/
theorem tileCommandsQueue : Obligations.TileCommandsQueue := by
  unfold Obligations.TileCommandsQueue
  refine ⟨?_, ?_, ?_, ?_⟩
  · intro wr o s hc ho hl hr
    exact ⟨fun r xl => tclook_queues hc ho hl hr, tclook_checks hc ho hr⟩
  · intro o s hc ho hl hr
    exact ⟨fun r => tcpf_queues hc ho hl hr, tcpf_checks hc ho hr⟩
  · intro o s hc ho hl hr
    refine ⟨fun r xl hn hf hin hcap hxl => ?_, tchalo_checks hc ho hr⟩
    obtain ⟨body, hexec, hbody⟩ := tchalo_runs hr hn hf hin hcap hxl
    refine ⟨fun hall => ?_, fun ⟨p, hp, hout⟩ hs => ?_⟩
    · obtain ⟨⟨got, hu⟩, -⟩ := taken_read hr
      exact queued_read hexec hc ho hl hu (hbody.trans (by rw [List.all_eq_true.2 hall, ask_true, Res.ok_bind]))
    · have hnot : (xl.all fun p => isScratch (p.2 * 4096)) = false := by
        rw [Bool.eq_false_iff]
        exact fun hall => Bool.false_ne_true (hout.symm.trans (List.all_eq_true.1 hall p hp))
      exact hexec.trans (run_trap hc ho hs (hbody.trans (by rw [hnot]; rfl)))
  · intro o s hc ho hl
    exact ⟨fun r hn => ⟨tcinv_queues (i := .tcinv o) rfl hc ho hl hn, tcinv_queues (i := .tcinvDrop o) rfl hc ho hl hn,
        tcinv_queues (i := .tcinvAll o) rfl hc ho hl hn⟩,
      tcinv_checks (i := .tcinv o) rfl hc ho, tcinv_checks (i := .tcinvDrop o) rfl hc ho,
      tcinv_checks (i := .tcinvAll o) rfl hc ho⟩

end Sys2Proof.Machine
end

section
/-! SUPPORT. The matrix engine's claims and loads at Issue (R379 to R395): the items after a claim, a release and a
load, and the order of the checks. -/

namespace Sys2Proof.Machine

/-! Items of the engine. -/

theorem Matrix.slot_setSlot (m : Matrix) (i : Nat) (x : Slot) (j : Nat) :
    (m.setSlot i x).slot j = if i = j then x else m.slot j := Sparse.get_set ..

theorem Matrix.acc_setAcc (m : Matrix) (i : Nat) (x : Accum) (j : Nat) :
    (m.setAcc i x).acc j = if i = j then x else m.acc j := Sparse.get_set ..

/-- Items of a list, each named once, that satisfy a test are given a value. -/
theorem items_foldl {M α : Type} {get : M → Nat → α} {set : M → Nat → α → M}
    (hget : ∀ m i x j, get (set m i x) j = if i = j then x else get m j) (p : Nat → α → Bool) (f : α → α) {l : List Nat}
    (hl : l.Nodup) (m : M) (j : Nat) : get (l.foldl (fun m i => if p i (get m i) then set m i (f (get m i)) else m) m) j =
      if j ∈ l ∧ p j (get m j) = true then f (get m j) else get m j := by
  induction l generalizing m with
  | nil => simp only [List.foldl_nil, List.not_mem_nil, false_and, if_false]
  | cons i l ih =>
    obtain ⟨hi, hl⟩ := List.nodup_cons.1 hl
    rw [List.foldl_cons, ih hl]
    have hstep : get (if p i (get m i) then set m i (f (get m i)) else m) j =
        if j = i ∧ p j (get m j) = true then f (get m j) else get m j := by
      by_cases hp : p i (get m i) = true
      · rw [if_pos hp, hget]
        by_cases hj : i = j
        · rw [if_pos hj, ← hj, if_pos ⟨rfl, hp⟩]
        · rw [if_neg hj, if_neg fun hn => hj hn.1.symm]
      · rw [if_neg hp, if_neg]
        rintro ⟨rfl, h⟩
        exact hp h
    rw [hstep]
    by_cases hj : j = i
    · rw [hj]
      simp only [hi, false_and, if_false, true_and, List.mem_cons, true_or]
    · simp only [hj, false_and, if_false, List.mem_cons, false_or]

/-- Items of a list, each named once, are given a value. -/
theorem items_given {M α : Type} {get : M → Nat → α} {set : M → Nat → α → M}
    (hget : ∀ m i x j, get (set m i x) j = if i = j then x else get m j) (f : α → α) {l : List Nat} (hl : l.Nodup) (m : M)
    (j : Nat) : get (l.foldl (fun m i => set m i (f (get m i))) m) j = if j ∈ l then f (get m j) else get m j := by
  have h := items_foldl hget (fun _ _ => true) f hl m j
  simpa only [if_true, and_true] using h

theorem foldl_keeps {M β α : Type} {g : M → β} {f : M → α → M} (h : ∀ m i, g (f m i) = g m) (l : List α) (m : M) :
    g (l.foldl f m) = g m := by
  induction l generalizing m with
  | nil => rfl
  | cons i l ih => rw [List.foldl_cons, ih, h]

/-- Items dropped by their numbers. -/
theorem Sparse.get_filter {α : Type} (d : α) (p : Nat → Bool) (m : Sparse α) (j : Nat) :
    Sparse.get d (m.filter fun e => !p e.1) j = if p j then d else Sparse.get d m j := by
  induction m with
  | nil => simp only [List.filter_nil, Sparse.get, ite_self]
  | cons e r ih =>
    obtain ⟨a, x⟩ := e
    by_cases ha : p a = true
    · rw [List.filter_cons_of_neg (by simpa using ha), ih]
      by_cases hj : a = j
      · rw [← hj, if_pos ha, if_pos ha]
      · simp only [Sparse.get, hj, if_false]
    · rw [List.filter_cons_of_pos (by simpa using ha)]
      by_cases hj : a = j
      · subst hj
        simp only [Sparse.get, if_true, ha]
        rfl
      · simp only [Sparse.get, hj, if_false, ih]

/-! The checks (R381, R382). -/

section
variable {s : State} {slots accs : List Nat}

theorem claimed_all (h : Claims s slots accs) : claimed s s.cur slots accs = .ok () := by
  have hslots : ((List.range 32).find? fun i => slots.contains i && ((matrixOf s s.cur).slot i).owner != some s.cur) = none := by
    simp only [List.find?_eq_none, Bool.and_eq_true, List.contains_iff_mem, bne_iff_ne, not_and, not_not]
    exact fun i _ hi => h.slots i hi
  have haccs : ((List.range 8).find? fun i => accs.contains i && ((matrixOf s s.cur).acc i).owner != some s.cur) = none := by
    simp only [List.find?_eq_none, Bool.and_eq_true, List.contains_iff_mem, bne_iff_ne, not_and, not_not]
    exact fun i _ hi => h.accs i hi
  simp only [claimed, hslots, haccs]

/-- The first number of a range that satisfies a test. -/
theorem find_range {p : Nat → Bool} {n k : Nat} (hk : k < n) (hp : p k = true) (hlow : ∀ i, i < k → p i = false) :
    (List.range n).find? p = some k :=
  List.find?_range_eq_some.2 ⟨hp, List.mem_range.2 hk, fun i hi => by rw [hlow i hi]; rfl⟩

theorem claimed_first {n : Nat} (ha : ∀ i ∈ accs, i < 8) (h : FirstUnclaimed s slots accs n) :
    claimed s s.cur slots accs = .error (.trap { cause := 0x38, val := BitVec.ofNat 64 n }) := by
  have hno : ∀ {l : List Nat} {i : Nat} {o : Option Nat}, (i ∈ l → o = some s.cur) →
      (l.contains i && o != some s.cur) = false := fun {l i o} hi => by
    by_cases hm : i ∈ l
    · rw [hi hm, bne_self_eq_false, Bool.and_false]
    · rw [Bool.eq_false_iff.2 (mt List.contains_iff_mem.1 hm), Bool.false_and]
  have hyes : ∀ {l : List Nat} {i : Nat} {o : Option Nat}, i ∈ l → o ≠ some s.cur →
      (l.contains i && o != some s.cur) = true := fun {l i o} hm ho => by
    rw [List.contains_iff_mem.2 hm, bne_iff_ne.2 ho]
    rfl
  rcases h with ⟨hn, hm, hout, hlow⟩ | ⟨k, rfl, hm, hall, hout, hlow⟩
  · have hfind : ((List.range 32).find? fun i => slots.contains i && ((matrixOf s s.cur).slot i).owner != some s.cur) = some n :=
      find_range hn (hyes hm hout) fun i hi => hno fun him => hlow i him hi
    simp only [claimed, hfind]
  · have hslots : ((List.range 32).find? fun i => slots.contains i && ((matrixOf s s.cur).slot i).owner != some s.cur) = none :=
      List.find?_eq_none.2 fun i _ => Bool.eq_false_iff.1 (hno fun him => hall i him)
    have hfind : ((List.range 8).find? fun i => accs.contains i && ((matrixOf s s.cur).acc i).owner != some s.cur) = some k :=
      find_range (ha k hm) (hyes hm hout) fun i hi => hno fun him => hlow i him hi
    simp only [claimed, hslots, hfind]

theorem idle_filled (h : Filled s slots accs) : idle s s.cur slots accs = .ok () := by
  have hslots : (slots.any fun i => ((matrixOf s s.cur).slot i).state == .loading) = false :=
    List.any_eq_false.2 fun i hi hl => h.slots i hi (eq_of_beq hl)
  have haccs : accs.any (accLoading s s.cur) = false :=
    List.any_eq_false.2 fun i hi hl => Bool.false_ne_true ((h.accs i hi).symm.trans hl)
  simp only [idle, hslots, haccs, Bool.not_false, Bool.and_self, ask_true]

/-- What reads sources leaves the engine alone. -/
theorem Reading.matrixOf {u : State} {got : List (BitVec 5 × Word)} {srcs : List Src} (h : Reading s u got srcs) :
    matrixOf u s.cur = matrixOf s s.cur := by
  rw [Machine.matrixOf, h.core]
  rfl

theorem Reading.claimed {u : State} {got : List (BitVec 5 × Word)} {srcs : List Src} (h : Reading s u got srcs) :
    claimed u s.cur slots accs = claimed s s.cur slots accs := by
  simp only [Machine.claimed, h.matrixOf]

theorem Reading.idle {u : State} {got : List (BitVec 5 × Word)} {srcs : List Src} (h : Reading s u got srcs) :
    idle u s.cur slots accs = idle s s.cur slots accs := by
  have hacc : ∀ a, accLoading u s.cur a = accLoading s s.cur a := fun a => by rw [accLoading, h.own]; rfl
  simp only [Machine.idle, h.matrixOf, funext hacc]

/-- An instruction that checks its claims first takes cause 0x38 (R381). -/
theorem unclaimed_traps {i : Instr} {h : Hdr} {body : Nat → State → Res State} {n : Nat} (hi : exec i s = run i h body s)
    (hc : Clear s h) (ho : On s h) (hs : Settled s) (hacc : ∀ i ∈ accs, i < 8) (hn : FirstUnclaimed s slots accs n)
    (hb : ∀ e, claimed s s.cur slots accs = .error e → body s.cur s = .error e) : Traps i s 0x38 (BitVec.ofNat 64 n) :=
  hi.trans (run_trap hc ho hs (hb _ (claimed_first hacc hn)))

theorem unclaimed_all {h : Hdr} {n : Nat} (hc : Clear s h) (ho : On s h) (hs : Settled s) :
    (∀ o : MldOps, o.h = h → FirstUnclaimed s (mldSlots o) [] n → Traps (.mld o) s 0x38 (BitVec.ofNat 64 n)) ∧
    (∀ o : MmaOps, o.h = h → Ready s [o.b] none → FirstUnclaimed s (mmaSlots o) (mmaAccs o) n →
      Traps (.mma o) s 0x38 (BitVec.ofNat 64 n)) ∧
    (∀ o : MternOps, o.h = h → FirstUnclaimed s (mternSlots o) (mternAccs o) n → Traps (.mtern o) s 0x38 (BitVec.ofNat 64 n)) ∧
    (∀ o : AcczOps, o.h = h → FirstUnclaimed s [] ((List.range 8).filter fun i => o.accm.getLsbD i) n →
      Traps (.accz o) s 0x38 (BitVec.ofNat 64 n)) ∧
    (∀ o : AccldOps, o.h = h → FirstUnclaimed s [] [o.acc.toNat] n → Traps (.accld o) s 0x38 (BitVec.ofNat 64 n)) ∧
    (∀ o : AccstOps, o.h = h → FirstUnclaimed s [] [o.acc.toNat] n → Traps (.accst o) s 0x38 (BitVec.ofNat 64 n)) ∧
    (∀ o : AccmovOps, o.h = h → FirstUnclaimed s [o.slot.toNat] [o.acc.toNat] n → Traps (.accmov o) s 0x38 (BitVec.ofNat 64 n)) := by
  have hone : ∀ {a : BitVec 3}, ∀ i ∈ [a.toNat], i < 8 := fun {a} i hi => by rw [List.mem_singleton.1 hi]; exact a.isLt
  have htwo : ∀ {a b : BitVec 3}, ∀ i ∈ [a.toNat, b.toNat], i < 8 := fun {a b} i hi => by
    rcases List.mem_pair.1 hi with rfl | rfl
    · exact a.isLt
    · exact b.isLt
  refine ⟨?_, ?_, ?_, ?_, ?_, ?_, ?_⟩
  · rintro o rfl hn
    exact unclaimed_traps (i := .mld o) (accs := []) rfl hc ho hs nofun hn fun e he => (congrArg (· >>= _) he).trans rfl
  · rintro o rfl hr hn
    obtain ⟨⟨got, hu⟩, hread⟩ := taken_read hr
    refine unclaimed_traps (i := .mma o) rfl hc ho hs htwo hn fun e he => ?_
    rw [← hu.claimed] at he
    unfold mmaSlots at he
    simp only [mmaBody, hread, Res.ok_bind, product, he]
    rfl
  · rintro o rfl hn
    refine unclaimed_traps (i := .mtern o) rfl hc ho hs htwo hn fun e he => ?_
    exact (congrArg (· >>= _) he).trans rfl
  · rintro o rfl hn
    refine unclaimed_traps (i := .accz o) rfl hc ho hs (fun i hi => List.mem_range.1 (List.mem_filter.1 hi).1) hn fun e he => ?_
    exact (congrArg (· >>= _) he).trans rfl
  · rintro o rfl hn
    exact unclaimed_traps (i := .accld o) rfl hc ho hs hone hn fun e he => (congrArg (· >>= _) he).trans rfl
  · rintro o rfl hn
    exact unclaimed_traps (i := .accst o) rfl hc ho hs hone hn fun e he => (congrArg (· >>= _) he).trans rfl
  · rintro o rfl hn
    exact unclaimed_traps (i := .accmov o) rfl hc ho hs hone hn fun e he => (congrArg (· >>= _) he).trans rfl

end

/-! What the engine's queue and items leave (R383). -/

section
variable {s u : State} {got : List (BitVec 5 × Word)} {srcs : List Src}

theorem matrixWrites_lone (hp : (u.core (coreOf s.cur)).bridle = none) : matrixWrites u s.cur = .ok u := by
  simp only [matrixWrites, hp]

theorem enterQueue_room (h : Reading s u got srcs) (hr : s.engineRoom) (f : FpFlags) (product : Bool) :
    enterQueue u s.cur f product = .ok (modMatrix u s.cur fun m => { m with queue := m.queue ++ [{ c := s.cur, flags := f, product := product }] }) := by
  have hroom : decide ((matrixOf u s.cur).queue.length < 8) = true := by
    rw [h.matrixOf]
    exact decide_eq_true hr
  simp only [enterQueue, hroom, ask_true, Res.ok_bind, Res.pure_eq]

theorem State.modCore_modCore (s : State) (k : Nat) (f g : Core → Core) :
    (s.modCore k f).modCore k g = s.modCore k (g ∘ f) := by
  rw [State.modCore, State.modCore_core_same]
  simp only [State.modCore, State.setCore, Sparse.set_set, Function.comp_apply]

theorem modMatrix_modMatrix (u : State) (c : Nat) (f g : Matrix → Matrix) :
    modMatrix (modMatrix u c f) c g = modMatrix u c (g ∘ f) := State.modCore_modCore ..

/-- Sources read, the engine changed: read from the state with that engine (R383). -/
theorem Reading.withMatrix (h : Reading s u got srcs) (f : Matrix → Matrix) :
    Reading (s.withMatrix (f s.matrix)) (modMatrix u s.cur f) got srcs := by
  have hr := h.withCore (fun k => { k with matrix := f s.matrix }) fun _ _ _ _ => rfl
  have hm : modMatrix u s.cur f = u.modCore (coreOf s.cur) fun k => { k with matrix := f s.matrix } := by
    have hmat : (u.core (coreOf s.cur)).matrix = s.matrix := h.matrixOf
    simp only [modMatrix, State.modCore, hmat]
  rw [hm]
  exact hr

/-- An instruction of the engine whose checks pass has retired, with what it left of the engine and its operations. -/
theorem engine_read {i : Instr} {h : Hdr} {body : Nat → State → Res State} {f : Matrix → Matrix} {op : LobOp}
    (hi : exec i s = run i h body s) (hc : Clear s h) (ho : On s h) (hu : Reading s u got srcs)
    (hb : body s.cur s = .ok (retire (lobPush (modMatrix u s.cur f) s.cur op) s.cur)) : Engine i s srcs (f s.matrix) [op] :=
  ⟨_, hi.trans (run_next hc ho hb), (hu.withMatrix f).retire_lobPush op⟩

end

/-! ACCZ, ACCLD and MLD (R388, R389, R394, R395). -/

section
variable {s : State}

/-- The engine with the acting context's instruction in its queue (R383). -/
def Matrix.entered (s : State) (m : Matrix) : Matrix := { m with queue := m.queue ++ [{ c := s.cur }] }

theorem enterQueue_entered {u : State} {got : List (BitVec 5 × Word)} {srcs : List Src} (h : Reading s u got srcs)
    (hr : s.engineRoom) : enterQueue u s.cur = .ok (modMatrix u s.cur (Matrix.entered s)) := enterQueue_room h hr 0 false

/-- No operation joins. -/
theorem joined_nil (s : State) : s.joined [] = s.after := by
  simp only [State.joined, State.buffered, State.after, List.flatMap_nil, List.mapIdx_nil, List.append_nil, List.length_nil,
    Nat.add_zero]

/-- The accumulators ACCZ names, zeroed (R394). -/
def Matrix.zeroed (accs : List Nat) (m : Matrix) : Matrix :=
  accs.foldl (fun m i => m.setAcc i { m.acc i with bytes := 0 }) m

theorem Matrix.zeroed_slot (accs : List Nat) (m : Matrix) (i : Nat) : (m.zeroed accs).slot i = m.slot i := by
  refine foldl_keeps (g := fun m : Matrix => m.slot i) (fun m i => ?_) accs m
  rfl

theorem Matrix.zeroed_queue (accs : List Nat) (m : Matrix) : (m.zeroed accs).queue = m.queue := by
  refine foldl_keeps (g := Matrix.queue) (fun m i => ?_) accs m
  rfl

theorem Matrix.zeroed_acc {accs : List Nat} (h : accs.Nodup) (m : Matrix) (i : Nat) :
    (m.zeroed accs).acc i = if i ∈ accs then { m.acc i with bytes := 0 } else m.acc i :=
  items_given Matrix.acc_setAcc (fun a => { a with bytes := 0 }) h m i

theorem mem_mask {n : Nat} {mask : BitVec n} {i : Nat} : i ∈ (List.range n).filter (fun i => mask.getLsbD i) ↔ mask.getLsbD i = true := by
  rw [List.mem_filter, List.mem_range]
  exact ⟨And.right, fun h => ⟨BitVec.lt_of_getLsbD h, h⟩⟩

theorem mask_nodup {n : Nat} (p : Nat → Bool) : ((List.range n).filter p).Nodup := List.nodup_range.filter _

theorem accz_zeroes {o : AcczOps} (hc : Clear s o.h) (ho : On s o.h) (hl : Lone s)
    (hclaim : Claims s [] ((List.range 8).filter fun i => o.accm.getLsbD i))
    (hfill : Filled s [] ((List.range 8).filter fun i => o.accm.getLsbD i)) (hroom : s.engineRoom) :
    ∃ m, (∀ i, m.slot i = s.matrix.slot i) ∧ m.queue = s.enqueued ∧
      (∀ i, m.acc i = if o.accm.getLsbD i then { s.matrix.acc i with bytes := 0 } else s.matrix.acc i) ∧
      Engine (.accz o) s [] m [] := by
  have hbody : acczBody o s.cur s = .ok (retire (s.withMatrix ((s.matrix.entered s).zeroed
      ((List.range 8).filter fun i => o.accm.getLsbD i))) s.cur) := by
    simp only [acczBody, claimed_all hclaim, idle_filled hfill, matrixWrites_lone hl.pair, enterQueue_entered (.start s) hroom,
      Res.ok_bind, modMatrix_modMatrix, Res.pure_eq]
    rfl
  refine ⟨(s.matrix.entered s).zeroed ((List.range 8).filter fun i => o.accm.getLsbD i), fun i => Matrix.zeroed_slot _ _ i,
    Matrix.zeroed_queue _ _, fun i => ?_, _, run_next (i := .accz o) hc ho hbody, ?_⟩
  · rw [Matrix.zeroed_acc (mask_nodup _), ← if_congr mem_mask rfl rfl]
    rfl
  · rw [joined_nil]
    exact retired_after (s.withMatrix _)

/-! The slots and accumulators a load fills. -/

/-- The slots MLD names, being loaded (R389). -/
def Matrix.filling (slots : List Nat) (m : Matrix) : Matrix :=
  slots.foldl (fun m i => m.setSlot i { m.slot i with state := .loading }) m

theorem Matrix.filling_acc (slots : List Nat) (m : Matrix) (i : Nat) : (m.filling slots).acc i = m.acc i := by
  refine foldl_keeps (g := fun m : Matrix => m.acc i) (fun m i => ?_) slots m
  rfl

theorem Matrix.filling_queue (slots : List Nat) (m : Matrix) : (m.filling slots).queue = m.queue := by
  refine foldl_keeps (g := Matrix.queue) (fun m i => ?_) slots m
  rfl

theorem Matrix.filling_slot {slots : List Nat} (h : slots.Nodup) (m : Matrix) (i : Nat) :
    (m.filling slots).slot i = if i ∈ slots then { m.slot i with state := .loading } else m.slot i :=
  items_given Matrix.slot_setSlot (fun x => { x with state := .loading }) h m i

theorem mldSlots_nodup (o : MldOps) : (mldSlots o).Nodup := by
  unfold mldSlots
  split
  · simp
  · exact List.nodup_singleton _

/-- Off a pair no load leaves one (R161). -/
theorem pairLeaves_all {u : State} {got : List (BitVec 5 × Word)} {srcs : List Src} (h : Reading s u got srcs) (hl : Lone s)
    (as : List Acc) : as.foldlM (fun v a => pairLeaves v s.cur a.pa) u = .ok u := by
  have hp : (u.core (coreOf s.cur)).bridle = none := by rw [h.core]; exact hl.pair
  have hone : ∀ pa, pairLeaves u s.cur pa = .ok u := fun pa => by
    simp only [pairLeaves, hp, Option.isSome_none, Bool.false_and, Bool.false_eq_true, if_false]
  induction as with
  | nil => rfl
  | cons a as ih => rw [List.foldlM_cons, hone, Res.ok_bind, ih]

/-- A register that has come is there after sources were read. -/
theorem Reading.regOf {u : State} {got : List (BitVec 5 × Word)} {srcs : List Src} (h : Reading s u got srcs) {r : BitVec 6}
    (hk : (s.ctx s.cur).pendG r = false) : regOf u s.cur r = .ok ((s.ctx s.cur).reg r) := by
  rw [Machine.regOf, h.own]
  exact if_neg (by rw [show ∀ (x : Context) p m, ({ x with pmask := p, mbxmask := m } : Context).pendG r = x.pendG r from
    fun _ _ _ => rfl, hk]; exact Bool.false_ne_true)

theorem accld_joins {o : AccldOps} {as : List Acc} (hc : Clear s o.h) (ho : On s o.h) (hl : Lone s) (hr : Ready s [o.b] none)
    (hk : Known s [o.a]) (hclaim : Claims s [] [o.acc.toNat]) (hfill : Filled s [] [o.acc.toNat]) (hroom : s.engineRoom)
    (hv : (srcWord s [] o.b).toNat % 16 = 0) (hea : ((s.ctx s.cur).low o.a).toNat % 16 = 0)
    (has : pieceAccess (s.taken [o.b] none) s.cur o.a
      (piecesOf 32 128 (rowSource ((s.ctx s.cur).low o.a) (srcWord s [] o.b))) = .ok as) :
    Engine (.accld o) s [o.b] { s.matrix with queue := s.enqueued } [.load as (.acc o.acc)] := by
  obtain ⟨⟨got, hu⟩, hread⟩ := taken_read hr
  have hp : ((s.taken [o.b] none).core (coreOf s.cur)).bridle = none := by rw [hu.core]; exact hl.pair
  unfold rowSource Context.low at has
  unfold Context.low at hea
  refine engine_read (i := .accld o) (f := Matrix.entered s) rfl hc ho hu ?_
  rw [accldBody, claimed_all hclaim, Res.ok_bind, hread, Res.ok_bind]
  simp only [show arg (srcWords s [] [o.b]) 0 = srcWord s [] o.b from rfl, hu.regOf (hk o.a (by simp)), Res.ok_bind, hv, hea, ne_eq,
    not_true_eq_false, decide_false, trapIf_false, has, hu.idle, idle_filled hfill, pairLeaves_all hu hl, matrixWrites_lone hp,
    enterQueue_entered hu hroom, Res.pure_eq]

/-- MLD once its claims and its sources are there: its checks, and what it leaves (R388, R389). -/
theorem mldBody_read {o : MldOps} (hclaim : Claims s (mldSlots o) []) (hr : Ready s [o.b] none) (hk : Known s [o.a]) :
    mldBody o s.cur s = (do
      let u := s.taken [o.b] none
      let v := srcWord s [] o.b
      let ea := (s.ctx s.cur).low o.a
      trapIf (decide (v.toNat % 16 ≠ 0) || (o.sw && decide (128 < v.toNat + mldWidth o))) 0x0D v
      trapIf (decide (ea.toNat % (if o.sw then 1024 else 16) ≠ 0)) 0x0E ea
      let as ← pieceAccess u s.cur o.a (piecesOf (mldRows o) (mldWidth o) (mldSource o ea v))
      idle u s.cur (mldSlots o) []
      let u ← as.foldlM (fun u a => pairLeaves u s.cur a.pa) u
      let u ← matrixWrites u s.cur
      let u ← enterQueue u s.cur
      let u := modMatrix u s.cur (Matrix.filling (mldSlots o))
      pure (retire (lobPush u s.cur (.load as (.slots o.slot.toNat o.span2 (o.mode == .scale)
        (mldMap o.mode (32 - o.zrows.toNat) (mldRowBytes o) (mldWidth o))))) s.cur)) := by
  obtain ⟨⟨got, hu⟩, hread⟩ := taken_read hr
  have hclaimed : claimed s s.cur (if o.span2 then [o.slot.toNat, o.slot.toNat + 1] else [o.slot.toNat]) [] = .ok () :=
    claimed_all hclaim
  rw [mldBody]
  dsimp only
  rw [hclaimed, Res.ok_bind, hread, Res.ok_bind, hu.regOf (hk o.a (by simp)), Res.ok_bind]
  cases hm : o.mode with
  | rows => simp only [mldWidth, mldRows, mldRowBytes, mldSlots, hm]; rfl
  | scale => simp only [mldWidth, mldRows, mldRowBytes, mldSlots, hm]; rfl
  | t8 =>
    simp only [mldWidth, mldRows, mldRowBytes, mldSlots, hm, reduceCtorEq, if_false, Nat.mul_one, Nat.div_one]
    rfl
  | t16 =>
    simp only [mldWidth, mldRows, mldRowBytes, mldSlots, hm, if_true, Nat.mul_comm _ 2]
    rfl

theorem mld_joins {o : MldOps} {as : List Acc} (hc : Clear s o.h) (ho : On s o.h) (hl : Lone s) (hr : Ready s [o.b] none)
    (hk : Known s [o.a]) (hclaim : Claims s (mldSlots o) []) (hfill : Filled s (mldSlots o) []) (hroom : s.engineRoom)
    (hv : (srcWord s [] o.b).toNat % 16 = 0) (hsw : o.sw = true → (srcWord s [] o.b).toNat + mldWidth o ≤ 128)
    (hea : ((s.ctx s.cur).low o.a).toNat % (if o.sw then 1024 else 16) = 0)
    (has : pieceAccess (s.taken [o.b] none) s.cur o.a
      (piecesOf (mldRows o) (mldWidth o) (mldSource o ((s.ctx s.cur).low o.a) (srcWord s [] o.b))) = .ok as) :
    ∃ m, (∀ i, m.slot i = if i ∈ mldSlots o then { s.matrix.slot i with state := .loading } else s.matrix.slot i) ∧
      (∀ i, m.acc i = s.matrix.acc i) ∧ m.queue = s.enqueued ∧
      Engine (.mld o) s [o.b] m [.load as (.slots o.slot.toNat o.span2 (o.mode == .scale)
        (mldMap o.mode (32 - o.zrows.toNat) (mldRowBytes o) (mldWidth o)))] := by
  obtain ⟨⟨got, hu⟩, -⟩ := taken_read hr
  have hp : ((s.taken [o.b] none).core (coreOf s.cur)).bridle = none := by rw [hu.core]; exact hl.pair
  have hfits : (decide ((srcWord s [] o.b).toNat % 16 ≠ 0) || (o.sw && decide (128 < (srcWord s [] o.b).toNat + mldWidth o))) =
      false := by
    rw [decide_eq_false (not_not.2 hv), Bool.false_or]
    cases hs : o.sw with
    | false => rfl
    | true => exact decide_eq_false (Nat.not_lt.2 (hsw hs))
  refine ⟨(s.matrix.entered s).filling (mldSlots o), fun i => Matrix.filling_slot (mldSlots_nodup o) _ i,
    fun i => Matrix.filling_acc _ _ i, Matrix.filling_queue _ _,
    engine_read (i := .mld o) (f := Matrix.filling (mldSlots o) ∘ Matrix.entered s) rfl hc ho hu ?_⟩
  rw [mldBody_read hclaim hr hk]
  simp only [hfits, hea, ne_eq, not_true_eq_false, decide_false, trapIf_false, Res.ok_bind, has, hu.idle, idle_filled hfill,
    pairLeaves_all hu hl, matrixWrites_lone hp, enterQueue_entered hu hroom, modMatrix_modMatrix, Res.pure_eq]

theorem mld_traps {o : MldOps} (hc : Clear s o.h) (ho : On s o.h) (hr : Ready s [o.b] none) (hk : Known s [o.a])
    (hclaim : Claims s (mldSlots o) []) (hs : Settled s) :
    let v := srcWord s [] o.b
    let bad := v.toNat % 16 ≠ 0 ∨ (o.sw = true ∧ 128 < v.toNat + mldWidth o)
    (bad → Traps (.mld o) s 0x0D v) ∧
    (¬ bad → ((s.ctx s.cur).low o.a).toNat % (if o.sw then 1024 else 16) ≠ 0 → Traps (.mld o) s 0x0E ((s.ctx s.cur).low o.a)) := by
  intro v bad
  have hbad : (decide (v.toNat % 16 ≠ 0) || (o.sw && decide (128 < v.toNat + mldWidth o))) = true ↔ bad := by
    simp only [Bool.or_eq_true, decide_eq_true_eq, Bool.and_eq_true, bad]
  refine ⟨fun h => run_trap (i := .mld o) hc ho hs ?_, fun h hea => run_trap (i := .mld o) hc ho hs ?_⟩
  · have hyes : (decide ((srcWord s [] o.b).toNat % 16 ≠ 0) || (o.sw && decide (128 < (srcWord s [] o.b).toNat + mldWidth o))) =
        true := hbad.2 h
    rw [mldBody_read hclaim hr hk]
    dsimp only
    rw [hyes, trapIf_true]
    rfl
  · have hno : (decide ((srcWord s [] o.b).toNat % 16 ≠ 0) || (o.sw && decide (128 < (srcWord s [] o.b).toNat + mldWidth o))) =
        false := Bool.eq_false_iff.2 (mt hbad.1 h)
    rw [mldBody_read hclaim hr hk]
    dsimp only
    rw [hno, trapIf_false, Res.ok_bind, decide_eq_true hea, trapIf_true]
    rfl

/-! MREL (R387). -/

/-- The engine without the items of some lists. -/
def Matrix.without (slots accs : List Nat) (m : Matrix) : Matrix :=
  { m with slots := m.slots.filter (fun e => !slots.contains e.1), accs := m.accs.filter fun e => !accs.contains e.1 }

/-- A context changed in what is no register retires so. -/
theorem retired_changed {s : State} (f : Context → Context) (hpc : (f (s.ctx s.cur)).pc = (s.ctx s.cur).pc)
    (hr : ∀ j, j ≠ 0 → (f (s.ctx s.cur)).reg j = (s.ctx s.cur).reg j) (hm : (f (s.ctx s.cur)).pmask = (s.ctx s.cur).pmask)
    (hb : (f (s.ctx s.cur)).mbxmask = (s.ctx s.cur).mbxmask) :
    Retired s (retire (s.modCtx s.cur f) s.cur) [] ((f (s.ctx s.cur)).goesOn ((s.ctx s.cur).pc + 12)) putNone := by
  rw [retire, State.modCtx_ctx_same, hpc]
  exact retired_plain f _ putNone hr hm hb

theorem mrel_releases {o : MrelOps} (hc : Clear s o.h) (ho : On s o.h) (hl : Lone s) (hq : ∀ e ∈ s.matrix.queue, e.c ≠ s.cur)
    (hroom : s.engineRoom)
    (hfill : Filled s ((List.range 32).filter fun i => o.slotm.getLsbD i && (s.matrix.slot i).owner == some s.cur)
      ((List.range 8).filter fun i => o.accm.getLsbD i && (s.matrix.acc i).owner == some s.cur)) :
    ∃ m t, Released s o.slotm o.accm m ∧ exec (.mrel o) s = .next t ∧ Retired (s.withMatrix m) t [] { s.after with
      mimage := if holdsClaims (s.withMatrix m) s.cur then (s.ctx s.cur).mimage else 0 } putNone := by
  generalize hslots : ((List.range 32).filter fun i => o.slotm.getLsbD i && (s.matrix.slot i).owner == some s.cur) = slots at hfill
  generalize haccs : ((List.range 8).filter fun i => o.accm.getLsbD i && (s.matrix.acc i).owner == some s.cur) = accs at hfill
  have hqueue : (s.matrix.queue.all fun e => e.c != s.cur) = true := List.all_eq_true.2 fun e he => bne_iff_ne.2 (hq e he)
  have hmatrix : matrixOf s s.cur = s.matrix := rfl
  have hbody : mrelBody o s.cur s = .ok (retire (if holdsClaims (s.withMatrix ((s.matrix.entered s).without slots accs)) s.cur
      then s.withMatrix ((s.matrix.entered s).without slots accs)
      else (s.withMatrix ((s.matrix.entered s).without slots accs)).modCtx s.cur fun x => { x with mimage := 0 }) s.cur) := by
    simp only [mrelBody, hmatrix, hslots, haccs, idle_filled hfill, hqueue, ask_true, matrixWrites_lone hl.pair,
      enterQueue_entered (.start s) hroom, Res.ok_bind, modMatrix_modMatrix, Res.pure_eq]
    rfl
  have hslot : ∀ i, i ∈ slots ↔ o.slotm.getLsbD i = true ∧ s.ownsSlot i := fun i => by
    rw [← hslots, List.mem_filter, List.mem_range, Bool.and_eq_true, beq_iff_eq]
    exact ⟨And.right, fun h => ⟨BitVec.lt_of_getLsbD h.1, h⟩⟩
  have hacc : ∀ i, i ∈ accs ↔ o.accm.getLsbD i = true ∧ s.ownsAcc i := fun i => by
    rw [← haccs, List.mem_filter, List.mem_range, Bool.and_eq_true, beq_iff_eq]
    exact ⟨And.right, fun h => ⟨BitVec.lt_of_getLsbD h.1, h⟩⟩
  refine ⟨(s.matrix.entered s).without slots accs, _, ⟨fun i => ?_, fun i => ?_, rfl⟩, run_next (i := .mrel o) hc ho hbody, ?_⟩
  · refine (Sparse.get_filter ({} : Slot) slots.contains _ i).trans ?_
    simp only [List.contains_iff_mem, hslot]
    rfl
  · refine (Sparse.get_filter ({} : Accum) accs.contains _ i).trans ?_
    simp only [List.contains_iff_mem, hacc]
    rfl
  · split
    · exact retired_after (s.withMatrix _)
    · exact retired_changed (s := s.withMatrix _) (fun x => { x with mimage := 0 }) rfl (fun _ _ => rfl) rfl rfl

end

/-! MCLAIM (R386). -/

/-- A word delivered from a state whose cores hold what another's do is delivered from that one. -/
theorem ScalarDone.of_cores {s u t : State} {d : Dst} {w : Word} {fl : FpFlags} (hu : u = { s with cores := u.cores })
    (hcores : ∀ k, u.core k = s.core k) (h : ScalarDone u t [] d w fl) : ScalarDone s t [] d w fl := by
  have hw : Within s t := Within.trans (Within.of_cores hu) h.whole
  obtain ⟨K, rfl⟩ : ∃ K, u = { s with cores := K } := ⟨_, hu⟩
  exact {
    whole := hw
    bytes := hw.bytes
    own := h.own
    regs := h.regs
    consumed := {
      queues := fun i => by rw [← hcores]; exact h.consumed.queues i
      ports := fun i => by rw [← hcores]; exact h.consumed.ports i
      mail := fun i => by rw [← hcores]; exact h.consumed.mail i }
    core := by
      have hk := h.core
      rw [CoreKept, hcores] at hk
      exact hk
    cores := fun j hj => (h.cores j hj).trans (hcores j)
    others := h.others
    dies := h.dies
    pools := h.pools
    flags := h.flags
    net := h.net }

section
variable {s : State}

/-- The items of masks that a context does not hold, claimed (R386). -/
def Matrix.claiming (c : Nat) (slotm : BitVec 32) (accm : BitVec 8) (m : Matrix) : Matrix :=
  (List.range 8).foldl (fun (m : Matrix) i => if accm.getLsbD i && (m.acc i).owner != some c then m.setAcc i { owner := some c } else m)
    ((List.range 32).foldl (fun (m : Matrix) i =>
      if slotm.getLsbD i && (m.slot i).owner != some c then m.setSlot i { owner := some c } else m) m)

theorem claimAll_eq (u : State) (c : Nat) (slotm : BitVec 32) (accm : BitVec 8) :
    claimAll u c slotm accm = modMatrix u c (Matrix.claiming c slotm accm) := rfl

theorem claiming_claimed (s : State) (slotm : BitVec 32) (accm : BitVec 8) :
    Claimed s slotm accm ((s.matrix.entered s).claiming s.cur slotm accm) := by
  have hslots := items_foldl (M := Matrix) Matrix.slot_setSlot (fun i x => slotm.getLsbD i && x.owner != some s.cur)
    (fun _ => { owner := some s.cur }) (List.nodup_range (n := 32))
  have haccs := items_foldl (M := Matrix) Matrix.acc_setAcc (fun i x => accm.getLsbD i && x.owner != some s.cur)
    (fun _ => { owner := some s.cur }) (List.nodup_range (n := 8))
  have hiff : ∀ {n : Nat} (mask : BitVec n) (i : Nat) (o : Option Nat),
      (i ∈ List.range n ∧ (mask.getLsbD i && o != some s.cur) = true) ↔ (mask.getLsbD i = true ∧ ¬ o = some s.cur) :=
    fun mask i o => by
      rw [List.mem_range, Bool.and_eq_true, bne_iff_ne]
      exact ⟨And.right, fun h => ⟨BitVec.lt_of_getLsbD h.1, h⟩⟩
  refine ⟨fun i => ?_, fun i => ?_, ?_⟩
  · refine (foldl_keeps (g := fun m : Matrix => m.slot i) (fun m i => ?_) _ _).trans ((hslots (s.matrix.entered s) i).trans ?_)
    · split <;> rfl
    · simp only [hiff]
      rfl
  · refine (haccs _ i).trans ?_
    have hkeep := foldl_keeps (g := fun m : Matrix => m.acc i) (f := fun (m : Matrix) i =>
      if slotm.getLsbD i && (m.slot i).owner != some s.cur then m.setSlot i { owner := some s.cur } else m)
      (fun m i => by split <;> rfl) (List.range 32) (s.matrix.entered s)
    simp only [hiff, hkeep]
    rfl
  · refine (foldl_keeps (g := Matrix.queue) (fun m i => ?_) _ _).trans (foldl_keeps (g := Matrix.queue) (fun m i => ?_) _ _)
    · split <;> rfl
    · split <;> rfl

/-- A mask summed from the numbers of a range that satisfy a test has those bits. -/
theorem maskOf_testBit (p : Nat → Bool) (n i : Nat) :
    ((List.range n).filter p).foldl (fun a i => a + 2 ^ i) 0 < 2 ^ n ∧
    (((List.range n).filter p).foldl (fun a i => a + 2 ^ i) 0).testBit i = (decide (i < n) && p i) := by
  induction n with
  | zero => simp
  | succ n ih =>
    obtain ⟨hlt, hbit⟩ := ih
    rw [List.range_succ, List.filter_append, List.foldl_append]
    generalize ((List.range n).filter p).foldl (fun a i => a + 2 ^ i) 0 = m at hlt hbit
    by_cases hp : p n = true
    · rw [List.filter_cons_of_pos hp, List.filter_nil, List.foldl_cons, List.foldl_nil]
      have hor : m + 2 ^ n = 2 ^ n * 1 ||| m := by rw [← Nat.two_pow_add_eq_or_of_lt hlt]; omega
      refine ⟨by omega, ?_⟩
      rw [hor, Nat.testBit_or, Nat.mul_one, Nat.testBit_two_pow, hbit]
      by_cases hi : n = i
      · simp [← hi, hp]
      · have : (i < n + 1) ↔ i < n := by omega
        simp [hi, this]
    · rw [List.filter_cons_of_neg hp, List.filter_nil, List.foldl_nil]
      refine ⟨by omega, ?_⟩
      rw [hbit]
      by_cases hi : i = n
      · simp [hi, hp]
      · have : (i < n + 1) ↔ i < n := by omega
        simp [this]

/-- The word of the conflicts has the slots' bits at 0 and the accumulators' at 35 (R386). -/
theorem conflictWord_getLsbD {a b : Nat} (ha : a < 2 ^ 32) (hb : b < 2 ^ 8) (i : Nat) :
    (conflictWord (a, b)).getLsbD i = (a.testBit i || (decide (35 ≤ i) && b.testBit (i - 35))) := by
  have hsum : conflictWord (a, b) = BitVec.ofNat 64 (2 ^ 35 * b ||| a) := by
    rw [← Nat.two_pow_add_eq_or_of_lt (by omega)]
    simp only [conflictWord, packWord, fieldAt, List.foldl_cons, List.foldl_nil]
    congr 1
    omega
  have hhigh : 64 ≤ i → (a.testBit i || (decide (35 ≤ i) && b.testBit (i - 35))) = false := fun hi => by
    rw [Nat.testBit_lt_two_pow (Nat.lt_of_lt_of_le ha (Nat.pow_le_pow_right (by omega) (by omega))),
      Nat.testBit_lt_two_pow (Nat.lt_of_lt_of_le hb (Nat.pow_le_pow_right (by omega) (by omega)))]
    simp
  rw [hsum, BitVec.getLsbD_ofNat, Nat.testBit_or, Nat.testBit_two_pow_mul, Bool.or_comm]
  by_cases hi : i < 64
  · simp [hi]
  · rw [hhigh (by omega)]
    simp [hi]

theorem conflicts_word {slotm : BitVec 32} {accm : BitVec 8} {w : Word} (h : Conflicts s slotm accm w) :
    conflictWord (conflicts s s.cur slotm accm) = w := by
  have hother : ∀ o : Option Nat, (match o with | some d => d != s.cur | none => false) = true ↔ heldByOther s o := fun o => by
    cases o with
    | none => exact ⟨nofun, fun ⟨_, h, _⟩ => nomatch h⟩
    | some d => exact bne_iff_ne.trans ⟨fun h => ⟨d, rfl, h⟩, fun ⟨_, h, hn⟩ => Option.some.inj h ▸ hn⟩
  refine BitVec.eq_of_getLsbD_eq fun i _ => Bool.eq_iff_iff.2 ?_
  unfold conflicts
  rw [h i, conflictWord_getLsbD (maskOf_testBit _ 32 i).1 (maskOf_testBit _ 8 i).1, (maskOf_testBit _ 32 i).2,
    (maskOf_testBit _ 8 (i - 35)).2]
  simp only [Bool.or_eq_true, Bool.and_eq_true, decide_eq_true_eq]
  exact or_congr ⟨fun ⟨_, hm, ho⟩ => ⟨hm, (hother _).1 ho⟩, fun ⟨hm, ho⟩ => ⟨BitVec.lt_of_getLsbD hm, hm, (hother _).2 ho⟩⟩
    ⟨fun ⟨hi, _, hm, ho⟩ => ⟨hi, hm, (hother _).1 ho⟩, fun ⟨hi, hm, ho⟩ => ⟨hi, BitVec.lt_of_getLsbD hm, hm, (hother _).2 ho⟩⟩

theorem conflicts_bounded (s : State) (slotm : BitVec 32) (accm : BitVec 8) :
    (conflicts s s.cur slotm accm).1 < 2 ^ 32 ∧ (conflicts s s.cur slotm accm).2 < 2 ^ 8 :=
  ⟨(maskOf_testBit _ 32 0).1, (maskOf_testBit _ 8 0).1⟩

theorem conflictWord_eq_zero {k : Nat × Nat} (ha : k.1 < 2 ^ 32) (hb : k.2 < 2 ^ 8) : conflictWord k = 0 ↔ k.1 = 0 ∧ k.2 = 0 := by
  have hnat : (conflictWord k).toNat = k.2 * 2 ^ 35 + k.1 := by
    simp only [conflictWord, packWord, fieldAt, List.foldl_cons, List.foldl_nil, BitVec.toNat_ofNat]
    omega
  rw [← BitVec.toNat_inj, hnat, show (0 : Word).toNat = 0 from rfl]
  omega

/-- An engine changed in states whose cores hold the same. -/
theorem modMatrix_same {u : State} (hu : u = { s with cores := u.cores }) (hcores : ∀ k, u.core k = s.core k) (f : Matrix → Matrix) :
    modMatrix u s.cur f = { s.withMatrix (f s.matrix) with cores := (modMatrix u s.cur f).cores } ∧
      ∀ k, (modMatrix u s.cur f).core k = (s.withMatrix (f s.matrix)).core k := by
  refine ⟨?_, fun k => ?_⟩
  · conv_lhs => rw [hu]
    rw [hu]
    rfl
  · by_cases hk : k = coreOf s.cur
    · rw [hk, modMatrix, State.withMatrix, State.modCore_core_same, State.modCore_core_same, hcores]
      rfl
    · rw [modMatrix, State.withMatrix, State.modCore_core_ne _ _ _ _ (Ne.symm hk), State.modCore_core_ne _ _ _ _ (Ne.symm hk), hcores]

/-- A word delivered from a state whose cores hold what another's do (R45). -/
theorem deliver_same {b v : State} {d : Dst} (hc : isContext b.cur = true) (hp : (b.core (coreOf b.cur)).bridle = none)
    (hd : d.local = true) (hv : v = { b with cores := v.cores }) (hcores : ∀ k, v.core k = b.core k) (w : Word) :
    ScalarDone b (deliver v b.cur d w) [] d w 0 := by
  have hcur : v.cur = b.cur := by rw [hv]
  have hdone := deliver_done (u := v) (by rw [hcur]; exact hc) (by rw [hcur, hcores]; exact hp) hd w
  rw [hcur] at hdone
  exact ScalarDone.of_cores hv hcores hdone

theorem withMatrix_pair (hl : Lone s) (m : Matrix) : ((s.withMatrix m).core (coreOf s.cur)).bridle = none := by
  rw [State.withMatrix, State.modCore_core_same]
  exact hl.pair

section
variable {o : MclaimOps}

theorem mclaim_plain (h : o.a = 0 ∨ holdsClaims s s.cur = true ∨ (o.slotm = 0 ∧ o.accm = 0)) :
    (o.a != 0 && !holdsClaims s s.cur && (o.slotm != 0 || o.accm != 0)) = false := by
  rcases h with h | h | ⟨h, h'⟩
  · rw [h]; rfl
  · rw [h, Bool.not_true, Bool.and_false, Bool.false_and]
  · rw [h, h', bne_self_eq_false, bne_self_eq_false, Bool.or_self, Bool.and_false]

/-- MCLAIM once its image, if it names one, is known (R386). -/
def mclaimEnd (s : State) (o : MclaimOps) (image : Option Nat) : Res State := do
  let (_, u) ← sources s s.cur [] (some o.d)
  let u ← matrixWrites u s.cur
  let u ← enterQueue u s.cur
  let k := conflicts u s.cur o.slotm o.accm
  if k.1 ≠ 0 ∨ k.2 ≠ 0 then pure (deliver u s.cur o.d (conflictWord k))
  else
    let u := claimAll u s.cur o.slotm o.accm
    let u := match image with | some pa => u.modCtx s.cur fun x => { x with mimage := pa } | none => u
    pure (deliver u s.cur o.d 0)

theorem mclaimBody_plain (h : o.a = 0 ∨ holdsClaims s s.cur = true ∨ (o.slotm = 0 ∧ o.accm = 0)) :
    mclaimBody o s.cur s = mclaimEnd s o none := by
  simp only [mclaimBody, mclaim_plain h, Bool.false_eq_true, if_false, Res.pure_eq, Res.ok_bind]
  rfl

theorem mclaimEnd_eq {u : State} {image : Option Nat} {w : Word} (hl : Lone s) (hs : sources s s.cur [] (some o.d) = .ok ([], u))
    (hu : u = { s with cores := u.cores }) (hcores : ∀ k, u.core k = s.core k) (hroom : s.engineRoom)
    (hw : Conflicts s o.slotm o.accm w) : mclaimEnd s o image = .ok (if w ≠ 0 then deliver (modMatrix u s.cur (Matrix.entered s)) s.cur o.d w
      else deliver (match image with
        | some pa => (modMatrix u s.cur (Matrix.claiming s.cur o.slotm o.accm ∘ Matrix.entered s)).modCtx s.cur fun x => { x with mimage := pa }
        | none => modMatrix u s.cur (Matrix.claiming s.cur o.slotm o.accm ∘ Matrix.entered s)) s.cur o.d 0) := by
  have hread := (Reading.start s).of_cores hu hcores
  have hp : (u.core (coreOf s.cur)).bridle = none := by rw [hcores]; exact hl.pair
  have hconf : conflicts (modMatrix u s.cur (Matrix.entered s)) s.cur o.slotm o.accm = conflicts s s.cur o.slotm o.accm := by
    have hm : matrixOf (modMatrix u s.cur (Matrix.entered s)) s.cur = (matrixOf s s.cur).entered s := by
      rw [matrixOf, modMatrix, State.modCore_core_same, hcores]
      rfl
    simp only [conflicts, hm]
    rfl
  have hzero : (w ≠ 0) ↔ ((conflicts s s.cur o.slotm o.accm).1 ≠ 0 ∨ (conflicts s s.cur o.slotm o.accm).2 ≠ 0) := by
    rw [← conflicts_word hw, Ne, conflictWord_eq_zero (conflicts_bounded s _ _).1 (conflicts_bounded s _ _).2, not_and_or]
  simp only [mclaimEnd, hs, Res.ok_bind, matrixWrites_lone hp, enterQueue_entered hread hroom, hconf, conflicts_word hw,
    claimAll_eq, modMatrix_modMatrix, Res.pure_eq, ← hzero]
  by_cases hw0 : w ≠ 0
  · rw [if_pos hw0, if_pos hw0]
  · rw [if_neg hw0, if_neg hw0]

theorem mclaim_answers {w : Word} (hc : Clear s o.h) (ho : On s o.h) (hl : Lone s) (hr : Ready s [] (some o.d))
    (hd : o.d.local = true) (hroom : s.engineRoom)
    (himage : o.a = 0 ∨ holdsClaims s s.cur = true ∨ (o.slotm = 0 ∧ o.accm = 0)) (hw : Conflicts s o.slotm o.accm w) :
    (w ≠ 0 → ∃ t, exec (.mclaim o) s = .next t ∧
      ScalarDone (s.withMatrix { s.matrix with queue := s.enqueued }) t [] o.d w 0) ∧
    (w = 0 → ∃ m t, Claimed s o.slotm o.accm m ∧ exec (.mclaim o) s = .next t ∧ ScalarDone (s.withMatrix m) t [] o.d 0 0) := by
  obtain ⟨u, hs, hu, hcores⟩ := sources_nothing hr
  have hbody := (mclaimBody_plain himage).trans (mclaimEnd_eq (image := none) hl hs hu hcores hroom hw)
  refine ⟨fun hw0 => ?_, fun hw0 => ?_⟩
  · rw [if_pos hw0] at hbody
    obtain ⟨hv, hvcores⟩ := modMatrix_same hu hcores (Matrix.entered s)
    exact ⟨_, run_next (i := .mclaim o) hc ho hbody, deliver_same (b := s.withMatrix (s.matrix.entered s)) hc.real
      (withMatrix_pair hl _) hd hv hvcores w⟩
  · rw [if_neg (not_not.2 hw0)] at hbody
    obtain ⟨hv, hvcores⟩ := modMatrix_same hu hcores (Matrix.claiming s.cur o.slotm o.accm ∘ Matrix.entered s)
    exact ⟨_, _, claiming_claimed s _ _, run_next (i := .mclaim o) hc ho hbody,
      deliver_same (b := s.withMatrix _) hc.real (withMatrix_pair hl _) hd hv hvcores 0⟩

/-- MCLAIM that records its image has that granted before its claims are looked at (R386). -/
theorem mclaimBody_image {xl : Xlat} (ha : o.a ≠ 0) (hn : holdsClaims s s.cur = false) (hm : ¬ (o.slotm = 0 ∧ o.accm = 0))
    (hg : ImageGrants s o.a xl) : mclaimBody o s.cur s = (trapIf (!contiguous xl) 0x0D ((s.ctx s.cur).low o.a) >>= fun _ =>
      mclaimEnd s o (some (xlAt xl ((s.ctx s.cur).low o.a).toNat))) := by
  have hyes : (o.a != 0 && !holdsClaims s s.cur && (o.slotm != 0 || o.accm != 0)) = true := by
    rw [bne_iff_ne.2 ha, hn, Bool.not_false, Bool.and_self, Bool.true_and, Bool.or_eq_true, bne_iff_ne, bne_iff_ne]
    exact not_and_or.1 hm
  obtain ⟨hk, hcap, hal, hxl⟩ := hg
  unfold Context.low at hcap hal hxl
  simp only [mclaimBody, hyes, if_true, regOf_known (hk o.a (by simp)), Res.ok_bind, hcap, hal, hxl, ne_eq, not_true_eq_false,
    decide_false, trapIf_false]
  cases hcont : contiguous xl with
  | true => rfl
  | false => rfl

theorem mclaim_records {xl : Xlat} (hc : Clear s o.h) (ho : On s o.h) (hl : Lone s) (hr : Ready s [] (some o.d))
    (hd : o.d.local = true) (hroom : s.engineRoom) (ha : o.a ≠ 0) (hn : holdsClaims s s.cur = false)
    (hm : ¬ (o.slotm = 0 ∧ o.accm = 0)) (hg : ImageGrants s o.a xl) :
    (contiguous xl = true → Conflicts s o.slotm o.accm 0 → ∃ m t, Claimed s o.slotm o.accm m ∧
      exec (.mclaim o) s = .next t ∧ ScalarDone ((s.withMatrix m).setCtx s.cur { s.ctx s.cur with
        mimage := xlAt xl ((s.ctx s.cur).low o.a).toNat }) t [] o.d 0 0) ∧
    (contiguous xl = false → Settled s → Traps (.mclaim o) s 0x0D ((s.ctx s.cur).low o.a)) := by
  obtain ⟨u, hs, hu, hcores⟩ := sources_nothing hr
  have hbody := mclaimBody_image ha hn hm hg
  refine ⟨fun hcont hw => ?_, fun hcont hset => ?_⟩
  · rw [hcont, Bool.not_true, trapIf_false, Res.ok_bind, mclaimEnd_eq hl hs hu hcores hroom hw, if_neg (not_not.2 rfl)] at hbody
    obtain ⟨hv, hvcores⟩ := modMatrix_same hu hcores (Matrix.claiming s.cur o.slotm o.accm ∘ Matrix.entered s)
    refine ⟨_, _, claiming_claimed s _ _, run_next (i := .mclaim o) hc ho hbody, ?_⟩
    dsimp only
    generalize modMatrix u s.cur (Matrix.claiming s.cur o.slotm o.accm ∘ Matrix.entered s) = v at hv hvcores
    refine deliver_same (b := (s.withMatrix ((s.matrix.entered s).claiming s.cur o.slotm o.accm)).setCtx s.cur _)
      (v := v.modCtx s.cur fun x => { x with mimage := xlAt xl ((s.ctx s.cur).low o.a).toNat })
      hc.real (withMatrix_pair hl _) hd ?_ hvcores 0
    rw [hv]
    rfl
  · exact run_trap (i := .mclaim o) hc ho hset (by rw [hbody, hcont, Bool.not_false, trapIf_true, Res.error_bind])

end

end

/-- Settles O47: the items and the queue of the engine after each instruction, its checks in their order before. -/
theorem matrixItemsAndLoads : Obligations.MatrixItemsAndLoads := by
  unfold Obligations.MatrixItemsAndLoads
  refine ⟨?_, ?_, ?_, ?_, ?_, ?_, ?_, ?_⟩
  · intro o s w hc ho hl hr hd hroom himage hw
    exact mclaim_answers hc ho hl hr hd hroom himage hw
  · intro o s xl hc ho hl hr hd hroom ha hn hm hg
    exact mclaim_records hc ho hl hr hd hroom ha hn hm hg
  · intro o s hc ho hl hq hroom hfill
    exact mrel_releases hc ho hl hq hroom hfill
  · intro o s as hc ho hl hr hk hclaim hfill hroom v ea hv hsw hea has
    exact mld_joins hc ho hl hr hk hclaim hfill hroom hv hsw hea has
  · intro o s hc ho hr hk hclaim hs
    exact mld_traps hc ho hr hk hclaim hs
  · intro o s as hc ho hl hr hk hclaim hfill hroom v ea hv hea has
    exact accld_joins hc ho hl hr hk hclaim hfill hroom hv hea has
  · intro o s hc ho hl accs hclaim hfill hroom
    exact accz_zeroes hc ho hl hclaim hfill hroom
  · intro s h n hc ho hs
    exact unclaimed_all hc ho hs

end Sys2Proof.Machine
end

section
/-! SUPPORT. A drain of the queue of cluster 640, which would be on die 10. `clusterContexts` gives that cluster two
contexts, `isContext` says that no die from 10 on has any; the machine has dies 0 to 9 (R98, R108). -/

namespace Sys2Proof.Machine

/-- A custodian's store of one byte at address 0 of HBM. -/
def strandedStore : CsqEntry :=
  { id := 0, c := 0, lid := 0, ident := { custodian := true }, data := [({ ea := 0, pa := 0, n := 1 }, [0])] }

/-- The store is in cluster 640's queue, and a load of a context of that cluster has read it. -/
def strandedRead : State :=
  { State.reset with
    clus := [(640, { csq := [strandedStore] })]
    ctxs := [(40960, { lob := [{ id := 0, op := .readSibling 640 0 }] })] }

/-- It is the store's turn: nothing is older, and no cache and no hold stands against it. -/
theorem strandedStore_turn : DrainTurn strandedRead 640 0 strandedStore [] where
  first :=
    { found := ⟨[], rfl⟩
      number := ⟨rfl, by simp⟩
      apart := by simp
      free := by decide }
  owned := by
    intro d hd hcached
    obtain rfl := List.mem_singleton.mp hd
    decide

/-- Nothing keeps the byte from its home. -/
theorem strandedStore_home : StoreHome strandedRead 0 { custodian := true } { ea := 0, pa := 0, n := 1 } [0] where
  runs := by decide
  live := by decide
  hbm := by
    intro j hj
    obtain rfl : j = 0 := Nat.lt_one_iff.mp hj
    exact ⟨0, 0, by decide⟩
  some := by decide
  frame := by decide
  rights := by decide
  sound := by decide
  tiles := by
    intro t ht
    exact absurd ht List.not_mem_nil
  mirror := by decide

/-- The load that read the store is complete once the store has drained: its mark is gone. -/
theorem drain_strandedRead {t : State} (h : exec (.drain 640 0) strandedRead = .next t) : (t.ctx 40960).lob = [] := by
  cases h
  decide

/-- Refutes O52: it says that a drain takes the marks of the loads that read the entry from the contexts of `isContext`
only, and it speaks of every cluster number. In cluster 640, on a die the machine does not have, the drain takes the
mark from a context that `isContext` denies. -/
theorem not_storesReachTheirHomes : ¬ Obligations.StoresReachTheirHomes := by
  unfold Obligations.StoresReachTheirHomes
  rintro ⟨-, hdrain, -⟩
  obtain ⟨t, hnext, -, -, -, -, hlob⟩ := (hdrain strandedRead 640 0 strandedStore [] { ea := 0, pa := 0, n := 1 } [0]
    strandedStore_turn rfl rfl).1 strandedStore_home
  have hkept : (strandedRead.ctx 40960).lob = [] := by
    have hdenied : ¬ (clusterOf 40960 = 640 ∧ isContext 40960 = true) := by decide
    have hsame := hlob 40960
    rw [if_neg hdenied] at hsame
    exact hsame.symm.trans (drain_strandedRead hnext)
  exact absurd hkept (by decide)

end Sys2Proof.Machine
end

section
/-! SUPPORT. What an integrity failure leaves: its partition frozen (R454). Nothing that it does to the contexts it kills
touches a partition. -/

namespace Sys2Proof.Machine

/-! Nothing that ends a context's work touches a partition (R191). -/

section
variable (s : State) (c : Nat)

theorem squash_parts : (squash s c).parts = s.parts := by
  unfold squash
  split <;> rfl

theorem putOne_parts (e : Src × MsgWord) : (putOne c s e).parts = s.parts := by
  unfold putOne
  dsimp only
  split
  case h_4 => split <;> rfl
  all_goals rfl

theorem giveBack_parts : (giveBack s c).parts = s.parts := by
  unfold giveBack
  split
  · rfl
  · exact foldl_keeps (g := State.parts) (fun s e => putOne_parts s c e) _ _

theorem charge_parts : (charge s c).parts = s.parts := by
  unfold charge
  split <;> rfl

theorem abandonListen_parts : (abandonListen s c).parts = s.parts := by
  unfold abandonListen
  split <;> rfl

theorem dropPosts_parts : (dropPosts s c).parts = s.parts := by
  unfold dropPosts
  dsimp only
  split <;> rfl

theorem dropMatrix_parts : (dropMatrix s c).parts = s.parts := by
  unfold dropMatrix
  split <;> rfl

theorem dropWork_parts : (dropWork s c).parts = s.parts := by
  have hwork : (dropMatrix (dropPosts (abandonListen (charge (giveBack (squash s c) c) c) c) c) c).parts = s.parts := by
    rw [dropMatrix_parts, dropPosts_parts, abandonListen_parts, charge_parts, giveBack_parts, squash_parts]
  unfold dropWork
  generalize dropMatrix (dropPosts (abandonListen (charge (giveBack (squash s c) c) c) c) c) c = w at hwork ⊢
  dsimp only
  rw [State.modCtx_parts]
  split
  · exact hwork
  · exact hwork

theorem detach_parts : (detach s c).parts = s.parts := by
  refine foldl_keeps (g := State.parts) (fun s e => ?_) _ s
  dsimp only
  split
  · split <;> rfl
  · rfl

theorem releaseClaims_parts : (releaseClaims s c).parts = s.parts := by
  unfold releaseClaims
  dsimp only
  split <;> rfl

theorem settleBorders_parts (die n : Nat) (s : State) : (settleBorders die n s).parts = s.parts := by
  induction n generalizing s with
  | zero => rfl
  | succ n ih =>
    unfold settleBorders
    split
    · rfl
    · exact ih _

theorem freeContext_parts : (freeContext s c).parts = s.parts := by
  unfold freeContext settleBorder
  rw [settleBorders_parts, detach_parts, releaseClaims_parts, State.setCtx_parts, dropWork_parts]

theorem releaseArea_parts (k : Task) : (releaseArea s k).parts = s.parts := by
  unfold releaseArea
  split <;> rfl

theorem answerMigr_parts (gti w : Word) : (answerMigr s gti w).parts = s.parts := by
  refine foldl_keeps (g := State.parts) (fun s e => ?_) _ s
  split
  · split <;> rfl
  · rfl

theorem sendLapse_parts (core : Nat) (gti : Word) : (sendLapse s core gti).parts = s.parts := by
  unfold sendLapse
  split <;> rfl

theorem killContext_parts : (killContext s c).parts = s.parts := by
  unfold killContext
  rw [freeContext_parts]
  split
  · exact (answerMigr_parts ..).trans (releaseArea_parts ..)
  · rfl

theorem abandonWork_parts : (abandonWork s c).parts = s.parts := by
  unfold abandonWork
  rw [detach_parts, releaseClaims_parts, dropWork_parts]
  split
  · exact (answerMigr_parts ..).trans (sendLapse_parts ..)
  · rfl

theorem countEvent_parts (k code n : Nat) : (countEvent s k code n).parts = s.parts := by
  unfold countEvent
  dsimp only
  split <;> rfl

theorem enterCustodian_parts (t : Trap) : (enterCustodian s c t).parts = s.parts := by
  unfold enterCustodian
  dsimp only
  split
  · exact countEvent_parts ..
  · exact countEvent_parts ..

end

/-! The failures (R454). -/

/-- An integrity failure freezes the partition it is found in. -/
theorem integrityFailure_frozen (s : State) (c : Nat) (i : Ident) (pa : Nat) :
    ((integrityFailure s c i pa).part (partNo i)).frozen = true := by
  have hparts : (integrityFailure s c i pa).parts = (s.modPart (partNo i) fun p => { p with frozen := true }).parts := by
    have hkill : ∀ (f : Ident → Bool) (u : State), ((contextsFor u f).foldl killContext u).parts = u.parts :=
      fun f u => foldl_keeps (g := State.parts) killContext_parts _ u
    unfold integrityFailure
    dsimp only
    split
    · exact hkill ..
    · exact (enterCustodian_parts ..).trans ((abandonWork_parts ..).trans (hkill ..))
  rw [State.part, hparts]
  exact congrArg Partition.frozen (State.modPart_part_same ..)

/-- A line whose tag fails freezes the partition its frame is of. -/
theorem sealFailure_frozen (s : State) (c line : Nat) :
    ((sealFailure s c line).part (entPart (entry0 s (line / 65536))).toNat).frozen = true :=
  integrityFailure_frozen s c { part := entPart (entry0 s (line / 65536)) } line

end Sys2Proof.Machine
end

section
/-! SUPPORT. The turn of a load, and what it leaves of its entry (R100, R103, R108, R453). -/

namespace Sys2Proof.Machine

/-! The turn (R101). -/

section
variable {s : State} {c id : Nat} {e : LobEntry} {as : List Acc} {d : LoadDst}

theorem LoadReady.number (h : LoadReady s c id e as d) : e.id = id := beq_iff_eq.mp (List.find?_some (p := fun e : LobEntry => e.id == id) h.turn.found)

/-- A load that is ready gets past every check of its turn. -/
theorem LoadReady.goes (h : LoadReady s c id e as d) :
    (mayGo s c e && loadTurn s c id d && (touched s c id d as).all fun a => !accessWaits s c a) = true := by
  have hall : ((touched s c id d as).all fun a => !accessWaits s c a) = true :=
    List.all_eq_true.mpr fun a ha => congrArg (!·) (h.free a ha)
  have hvec : loadTurn s c id d = true := by
    cases d with
    | vec v => exact h.order v rfl
    | _ => rfl
  rw [h.turn.free, hvec, hall]
  rfl

/-- In its turn a load performs, its lines in the caches. -/
theorem LoadTurn.performs (h : LoadTurn s c id e as d) :
    exec (.performLoad c id) s =
      .next (performEntry (s.caching c id e (touched s c id d as)) c e (touched s c id d as) d) := by
  refine (rfl : _ = execPerformLoad c id s).trans (congrArg Host.Outcome.next ?_)
  simp only [h.ready.turn.found, h.ready.load, h.ready.goes, h.sealed, if_true]
  rfl

/-- A load that receives a line whose tag fails leaves, and the line's partition is frozen. -/
theorem LoadReady.seal_fails (h : LoadReady s c id e as d) {l : Nat}
    (hl : failedSeal s c id e.ident (touched s c id d as) = some l) :
    exec (.performLoad c id) s = .next ((lobDrop (sealFailure s c l) c id).modCtx c Context.feed) := by
  refine (rfl : _ = execPerformLoad c id s).trans (congrArg Host.Outcome.next ?_)
  simp only [h.turn.found, h.load, h.goes, hl, if_true]

end

/-! What a performed load leaves of its entry (R108, R453). -/

section
variable (x : Context)

theorem feed_lob : x.feed = { x with lob := x.feed.lob } := by
  unfold Context.feed
  dsimp only
  split <;> rfl

theorem feed_g : x.feed.g = x.g := by rw [feed_lob]
theorem feed_v : x.feed.v = x.v := by rw [feed_lob]

end

/-- The marks of what a performed load read and has yet to be drained or verified. -/
def owedMarks (s : State) (c : Nat) (e : LobEntry) (acc : List Acc) (lock : Bool) : List LobOp :=
  let sib := (acc.flatMap fun a => if a.uncached then []
    else if lock then lockSiblings s c e.id a.pa a.n else siblings s c e.id a.pa a.n).eraseDups
  let lines := (acc.filter fun a => isHbm a.pa).flatMap fun a =>
    (List.range ((a.pa % 128 + a.n + 127) / 128)).map fun j => (a.pa / 128 + j) * 128
  sib.map (LobOp.readSibling (clusterOf c)) ++ (if guarded s e.ident then lines.eraseDups.map .unverified else [])

/-- A context whose entry has given way to its marks. -/
def Context.marked (x : Context) (id : Nat) (owed : List LobOp) : Context :=
  { x with lob := x.lob.flatMap fun y => if y.id = id then owed.map fun o => { y with op := o } else [y] }

section
variable {u : State} {c : Nat} {e : LobEntry} {acc : List Acc} {lock : Bool}

theorem performed_eq (u : State) (c : Nat) (e : LobEntry) (acc : List Acc) (lock : Bool) :
    performed u c e acc lock = u.modCtx c fun x => x.marked e.id (owedMarks u c e acc lock) := rfl

theorem owedMarks_mark {o : LobOp} (h : o ∈ owedMarks u c e acc lock) :
    (∃ k n, o = .readSibling k n) ∨ ∃ pa, o = .unverified pa := by
  rcases List.mem_append.mp h with hs | hv
  · obtain ⟨n, -, rfl⟩ := List.mem_map.mp hs
    exact .inl ⟨_, n, rfl⟩
  · split at hv
    · obtain ⟨pa, -, rfl⟩ := List.mem_map.mp hv
      exact .inr ⟨pa, rfl⟩
    · exact absurd hv List.not_mem_nil

/-- The entry of a load that then writes registers has given way to its marks. -/
theorem performed_loaded {f feed : Context → Context}
    (hf : ∀ x, f x = feed { x with g := (f x).g, v := (f x).v }) :
    Loaded u ((performed u c e acc lock).modCtx c f) c e.id feed := by
  rw [performed_eq, State.modCtx_modCtx]
  refine ⟨rfl, fun k hk => State.modCtx_ctx_ne _ _ _ _ hk.symm, owedMarks u c e acc lock, fun o => owedMarks_mark, ?_⟩
  rw [State.modCtx_ctx_same]
  exact hf _

/-- One that gives its word to its own instruction writes none. -/
theorem performed_keeps : Loaded u (performed u c e acc lock) c e.id (fun x => x) ∧
    ((performed u c e acc lock).ctx c).g = (u.ctx c).g ∧ ((performed u c e acc lock).ctx c).v = (u.ctx c).v := by
  have hown : (performed u c e acc lock).ctx c = (u.ctx c).marked e.id (owedMarks u c e acc lock) := State.modCtx_ctx_same ..
  rw [hown]
  refine ⟨⟨rfl, fun k hk => State.modCtx_ctx_ne _ _ _ _ hk.symm, owedMarks u c e acc lock, fun o => owedMarks_mark, ?_⟩, rfl, rfl⟩
  rw [hown]
  rfl

theorem performed_modCtx_id : (performed u c e acc lock).modCtx c id = performed u c e acc lock := by
  rw [performed_eq, State.modCtx_modCtx]
  rfl

theorem Loaded.bytes {t : State} {id : Nat} {feed : Context → Context} (h : Loaded u t c id feed) : SameBytes u t := by
  intro a
  rw [h.whole]
  rfl

/-- A general register written by a load: its entry is gone, and the stores that waited for it are fed. -/
theorem performed_setReg (d : BitVec 6) (r : Reg) :
    let t := (performed u c e acc lock).modCtx c fun x => (x.setReg d r).feed
    Loaded u t c e.id Context.feed ∧ WroteReg u t c d r ∧ SameBytes u t := by
  intro t
  have hloaded : Loaded u t c e.id Context.feed := by
    refine performed_loaded fun x => ?_
    rw [feed_g, feed_v, setReg_eq]
  refine ⟨hloaded, ⟨fun j => ?_, ?_⟩, hloaded.bytes⟩
  · have hreg : (t.ctx c).reg j = ((((performed u c e acc lock).ctx c).setReg d r).feed).reg j :=
      congrArg (fun x : Context => x.reg j) (State.modCtx_ctx_same ..)
    have hg : ∀ x : Context, x.feed.reg j = x.reg j := fun x => by rw [feed_lob]; rfl
    rw [hreg, hg, setReg_reg, performed_eq, State.modCtx_ctx_same]
    simp only [eq_comm (a := d)]
    rfl
  · have hv : (t.ctx c).v = ((((performed u c e acc lock).ctx c).setReg d r).feed).v :=
      congrArg Context.v (State.modCtx_ctx_same ..)
    rw [hv, feed_v, setReg_eq]
    exact performed_keeps.2.2

theorem setVreg_vreg (x : Context) (i j : BitVec 5) (w : BitVec 2048) :
    (x.setVreg i w).vreg j = if j = i then w else x.vreg j := by
  refine (Sparse.get_set 0 x.v i.toNat j.toNat w).trans ?_
  simp only [BitVec.toNat_inj, eq_comm (a := i)]
  rfl

/-- A vector register written by a load. -/
theorem performed_setVreg (d : BitVec 5) (f : BitVec 2048 → BitVec 2048) :
    let t := (performed u c e acc lock).modCtx c fun x => x.setVreg d (f (x.vreg d))
    Loaded u t c e.id (fun x => x) ∧ WroteVreg u t c d (f ((u.ctx c).vreg d)) ∧ SameBytes u t := by
  intro t
  have hloaded : Loaded u t c e.id (fun x => x) := performed_loaded fun x => rfl
  have hown : t.ctx c = (((performed u c e acc lock).ctx c).setVreg d (f (((performed u c e acc lock).ctx c).vreg d))) :=
    State.modCtx_ctx_same ..
  have hvreg : ∀ j, ((performed u c e acc lock).ctx c).vreg j = (u.ctx c).vreg j := fun j =>
    congrArg (fun v => Sparse.get 0 v j.toNat) performed_keeps.2.2
  refine ⟨hloaded, ⟨fun j => ?_, ?_⟩, hloaded.bytes⟩
  · rw [hown, setVreg_vreg, hvreg, hvreg]
  · rw [hown]
    exact performed_keeps.2.1

end

/-! The lines a load brings into the caches (R274, R275). -/

theorem caching_parts (s : State) (c id : Nat) (e : LobEntry) (as : List Acc) : (s.caching c id e as).parts = s.parts := by
  refine foldl_keeps (g := State.parts) (fun s a => ?_) as s
  dsimp only
  split
  · rfl
  · rw [countEvent_parts, cacheRead_only]

/-! A tag check (R453, R454). -/

/-- An entry of a number that marks a line not yet verified. -/
def LobEntry.marks (id : Nat) (e : LobEntry) : Bool :=
  e.id == id && (match e.op with | .unverified _ => true | _ => false)

/-- A tag check that finds its mark takes it away, with any other of its number and line, or is an integrity failure. -/
theorem tagCheck_found {s : State} {c id : Nat} {e : LobEntry} {pa : Nat} (ok : Bool)
    (hfind : (s.ctx c).lob.find? (LobEntry.marks id) = some e) (hop : e.op = .unverified pa) :
    exec (.tagCheckComplete c id ok) s = .next (
      if ok then s.modCtx c fun x => { x with lob := x.lob.filter fun y => !(y.marks id && y.op == .unverified pa) }
      else integrityFailure s c e.ident pa) := by
  obtain ⟨n, op, i, w⟩ := e
  obtain rfl : op = .unverified pa := hop
  refine (rfl : _ = execTagCheckComplete c id ok s).trans (congrArg Host.Outcome.next ?_)
  dsimp only
  split
  next heq =>
    cases heq.symm.trans hfind
    rfl
  next hnone => exact absurd hfind (hnone _ _ _ _)

theorem marks_unverified (id pa : Nat) (y : LobEntry) :
    (y.marks id && y.op == .unverified pa) = true ↔ y.id = id ∧ y.op = .unverified pa := by
  simp only [LobEntry.marks, Bool.and_eq_true, beq_iff_eq]
  constructor
  · rintro ⟨⟨hid, -⟩, hop⟩
    exact ⟨hid, hop⟩
  · rintro ⟨hid, hop⟩
    rw [hop]
    exact ⟨⟨hid, rfl⟩, rfl⟩

section
variable {s : State} {c id : Nat} {e : LobEntry} {pa : Nat}
variable (hfind : (s.ctx c).lob.find? (LobEntry.marks id) = some e) (hop : e.op = .unverified pa)
include hfind hop

/-- A line whose tag matches is owed no more. -/
theorem tagCheck_matches : ∃ t, exec (.tagCheckComplete c id true) s = .next t ∧
    t = s.setCtx c { s.ctx c with lob := (t.ctx c).lob } ∧
    ∀ y, y ∈ (t.ctx c).lob ↔ y ∈ (s.ctx c).lob ∧ ¬ (y.id = id ∧ y.op = .unverified pa) := by
  refine ⟨_, tagCheck_found true hfind hop, ?_, fun y => ?_⟩
  · rw [if_pos rfl, State.modCtx_ctx_same]
    rfl
  · rw [if_pos rfl, State.modCtx_ctx_same, List.mem_filter, Bool.not_eq_true', ← Bool.not_eq_true, marks_unverified]

theorem tagCheck_fails : ∃ t, exec (.tagCheckComplete c id false) s = .next t ∧ (t.part (partNo e.ident)).frozen = true :=
  ⟨_, tagCheck_found false hfind hop, integrityFailure_frozen ..⟩

end

end Sys2Proof.Machine
end

section
/-! SUPPORT. The loads of one access (R103, R165, R203 to R206): where their bytes come from, and what each leaves. -/

namespace Sys2Proof.Machine

/-! A performed load of one access. -/

section
variable {s u : State} {c : Nat} {e : LobEntry} {a : Acc} {b : List Byte}

theorem performEntry_scalar (hr : readAt (attach s c a.pa) c e.id e.ident a = (.ok b, u)) (d : BitVec 6) (ty : IntTy) :
    performEntry s c e [a] (.scalar d ty) =
      (performed u c e [a]).modCtx c fun x => (x.setReg d (Reg.ofWord (loadWord ty b))).feed := by
  simp only [performEntry, hr]

theorem performEntry_cap (hr : readAt (attach s c a.pa) c e.id e.ident a = (.ok b, u)) (d : BitVec 6) (keep : Bool) :
    performEntry s c e [a] (.cap d keep) = (performed u c e [a]).modCtx c fun x =>
      (x.setReg d (Reg.ofCap (BitVec.ofNat 128 (ofBytes b)) (keep && accTag s c e.id a))).feed := by
  simp only [performEntry, hr]

theorem performEntry_reply (hr : readAt (attach s c a.pa) c e.id e.ident a = (.ok b, u)) :
    performEntry s c e [a] (.reply false) = giveReply (performed u c e [a]) c (BitVec.ofNat 64 (ofBytes b)) := by
  simp only [performEntry, hr, performed_modCtx_id]

/-- A refused read of one access (R286, R432). -/
theorem performEntry_refused {t : Trap} (hr : readAt (attach s c a.pa) c e.id e.ident a = (.error t, u)) {dst : LoadDst}
    (hdst : (∃ d ty, dst = .scalar d ty) ∨ (∃ d keep, dst = .cap d keep) ∨ dst = .reply false) :
    performEntry s c e [a] dst = refusedLoad u c e.id t := by
  rcases hdst with ⟨d, ty, rfl⟩ | ⟨d, keep, rfl⟩ | rfl
  · simp only [performEntry, hr]
    rfl
  · simp only [performEntry, hr]
    rfl
  · simp only [performEntry, hr]
    rfl

/-- A capability without its tag is its low word (R204). -/
theorem Reg.ofCap_eq (n : Nat) (tag : Bool) : Reg.ofCap (BitVec.ofNat 128 n) tag =
    { bits := if tag then BitVec.ofNat 128 n else BitVec.ofNat 128 (n % 2 ^ 64), tag := tag } := by
  cases tag with
  | true => rfl
  | false =>
    refine congrArg (fun w => ({ bits := w, tag := false } : Reg)) (BitVec.eq_of_toNat_eq ?_)
    simp only [BitVec.toNat_setWidth, BitVec.toNat_ofNat, Bool.false_eq_true, if_false]
    omega

/-! A lock's load (R206). -/

theorem performEntry_lock (hr : homeRights s e.ident a.pa = true) (d : BitVec 6) :
    performEntry s c e [a] (.lock d) = (performed s c e [a] true).modCtx c fun x =>
      (x.setReg d (Reg.ofWord ((accLock s c e.id a).setWidth 64))).feed := by
  simp only [performEntry, hr, if_true]

theorem performEntry_lockReply (hr : homeRights s e.ident a.pa = true) :
    performEntry s c e [a] (.reply true) = giveReply (performed s c e [a] true) c ((accLock s c e.id a).setWidth 64) := by
  simp only [performEntry, hr, if_true]

theorem performEntry_lockRefused (hr : homeRights s e.ident a.pa = false) {dst : LoadDst}
    (hdst : (∃ d, dst = .lock d) ∨ dst = .reply true) :
    performEntry s c e [a] dst = refusedLoad s c e.id { cause := 0x41, val := a.ea, aux := lineOf a } := by
  rcases hdst with ⟨d, rfl⟩ | rfl
  · simp only [performEntry, hr, Bool.false_eq_true, if_false]
    rfl
  · simp only [performEntry, hr, Bool.false_eq_true, if_false]
    rfl

end

/-! A read at a home in HBM (R103, R285, R286, R432). -/

section
variable {s : State} {c id : Nat} {i : Ident} {a : Acc} {k o : Nat}

/-- A read in HBM that is not forwarded comes to its home. -/
theorem readAt_hbm (hreg : region a.pa = .hbm k o) (hf : forwarded s c id a = false) : readAt s c id i a =
    if !homeRights s i a.pa then (.error { cause := 0x41, val := a.ea, aux := lineOf a }, s)
    else if (s.die (dieOf c)).lost.getLsbD (homeDie s a.pa) || poisoned s a.pa then
      (.error { cause := 0x25, val := a.ea, aux := lineOf a }, s)
    else (.ok (accBytes s c id a), tileRead s a.pa a.n) := by
  simp only [readAt, hreg, hf, Bool.false_eq_true, if_false]
  rfl

theorem readAt_refused (hreg : region a.pa = .hbm k o) (hf : forwarded s c id a = false) (hr : homeRights s i a.pa = false) :
    readAt s c id i a = (.error { cause := 0x41, val := a.ea, aux := lineOf a }, s) := by
  rw [readAt_hbm hreg hf, hr]
  rfl

theorem readAt_poisoned (hreg : region a.pa = .hbm k o) (hf : forwarded s c id a = false) (hr : homeRights s i a.pa = true)
    (hp : poisoned s a.pa = true) : readAt s c id i a = (.error { cause := 0x25, val := a.ea, aux := lineOf a }, s) := by
  rw [readAt_hbm hreg hf, hr, hp, Bool.or_true]
  rfl

/-- A read that goes through gives the bytes as the context sees them. -/
theorem ReadableHbm.reads (h : ReadableHbm s c id i a) : (readAt s c id i a).1 = .ok (accBytes s c id a) := by
  obtain ⟨⟨k, o, hreg⟩, hway⟩ := h
  cases hf : forwarded s c id a with
  | true => simp only [readAt, hreg, hf, if_true]
  | false =>
    obtain ⟨hr, hl, hp⟩ := hway.resolve_left fun h => Bool.false_ne_true (hf.symm.trans h)
    rw [readAt_hbm hreg hf, hr, hl, hp]
    rfl

end

/-! The bytes a context sees (R103). -/

/-- The last of a list's values, taken up one after another. -/
theorem foldl_or_eq {α β : Type} (f : α → Option β) (l : List α) (r : Option β) :
    l.foldl (fun r e => (f e).or r) r = (l.filterMap f).getLast?.or r := by
  induction l generalizing r with
  | nil => rfl
  | cons x l ih =>
    rw [List.foldl_cons, ih]
    cases hx : f x with
    | none => rw [List.filterMap_cons_none hx, Option.none_or]
    | some b =>
      rw [List.filterMap_cons_some hx, List.getLast?_cons, Option.some_or]
      cases (l.filterMap f).getLast? <;> rfl

/-- The byte that an entry older than a load stores at an address. -/
def LobEntry.storedByte (id pa : Nat) (e : LobEntry) : Option Byte :=
  if e.id < id then (match e.op with | .store d _ _ _ => storeByte d pa | _ => none) else none

theorem fromLob_eq (s : State) (c id pa : Nat) : fromLob (s.ctx c) id pa = ownStore s c id pa := by
  have hstep : fromLob (s.ctx c) id pa = (s.ctx c).lob.foldl (fun r e => (e.storedByte id pa).or r) none := by
    refine List.foldl_ext _ _ _ fun r e _ => ?_
    unfold LobEntry.storedByte
    cases e.op
    case store d t k w =>
      dsimp only
      split
      · cases storeByte d pa <;> rfl
      · rfl
    all_goals rw [ite_self]; rfl
  have hown : ownStore s c id pa = ((s.ctx c).lob.filterMap (LobEntry.storedByte id pa)).getLast? := by
    unfold ownStore
    rw [List.filterMap_filter]
    refine congrArg (fun l => List.getLast? l) (List.filterMap_congr fun e _ => ?_)
    by_cases h : e.id < id
    · exact (if_pos (decide_eq_true h)).trans (if_pos h).symm
    · exact (if_neg (mt of_decide_eq_true h)).trans (if_neg h).symm
  rw [hstep, foldl_or_eq, hown, Option.or_none]

theorem fromCsq_eq (s : State) (c pa : Nat) : (fromCsq (s.clu (clusterOf c)) pa).map (·.1) = queuedStore s c pa := by
  have hstep : fromCsq (s.clu (clusterOf c)) pa =
      (s.clu (clusterOf c)).csq.foldl (fun r e => ((storeByte e.data pa).map fun b => (b, e.id)).or r) none :=
    List.foldl_ext _ _ _ fun r e _ => by cases storeByte e.data pa <;> rfl
  rw [hstep, foldl_or_eq, Option.or_none, ← List.getLast?_map, List.map_filterMap]
  refine congrArg (fun l => List.getLast? l) (List.filterMap_congr fun e _ => ?_)
  rw [Option.map_map]
  exact Option.map_id'

theorem loadByte_eq (s : State) (c id pa : Nat) : loadByte s c id pa = loadSource s c id pa := by
  unfold loadByte loadSource
  rw [fromLob_eq, ← fromCsq_eq]
  split
  · cases ownStore s c id pa with
    | some b => rfl
    | none => cases fromCsq (s.clu (clusterOf c)) pa <;> rfl
  · rfl

theorem accBytes_eq (s : State) (c id : Nat) (a : Acc) : accBytes s c id a = (List.range a.n).map fun j =>
    if a.uncached then homeByte s (a.pa + j) else loadSource s c id (a.pa + j) := by
  unfold accBytes
  split
  · rfl
  · exact List.map_congr_left fun j _ => loadByte_eq ..

end Sys2Proof.Machine
end

section
/-! SUPPORT. The loads of a vector register (R374) and of the matrix engine (R389, R390, R395). -/

namespace Sys2Proof.Machine

/-! The lanes of a vector load: two of one address are read once (R374). -/

/-- Lanes read at one address have one value; that of an address read before is the one it had. -/
theorem readLanes_ok {c id : Nat} {i : Ident} {as : List Acc} {s u : State} {got : List (Nat × List Byte)}
    {l : List (Nat × Nat)} (h : readLanes s c id i as got = (.ok l, u)) :
    ∃ value : Nat → Nat, l = as.map (fun a => (a.lane, value a.pa)) ∧
      ∀ pa p, got.find? (fun p => p.1 == pa) = some p → value pa = ofBytes p.2 := by
  induction as generalizing s got l with
  | nil =>
    obtain ⟨rfl, -⟩ : l = [] ∧ u = s := by
      unfold readLanes at h
      cases h
      exact ⟨rfl, rfl⟩
    exact ⟨fun pa => ((got.find? fun p => p.1 == pa).elim 0 fun p => ofBytes p.2), rfl, fun pa p hp => congrArg (Option.elim · 0 fun p => ofBytes p.2) hp⟩
  | cons a r ih =>
    unfold readLanes at h
    dsimp only at h
    split at h
    · cases h
    next b v hone =>
      split at h
      next m w hrest =>
        cases h
        obtain ⟨value, rfl, hgot⟩ := ih hrest
        have hval : value a.pa = ofBytes b := hgot a.pa (a.pa, b) (List.find?_cons_of_pos (beq_self_eq_true a.pa))
        refine ⟨value, by rw [List.map_cons, hval], fun pa p hp => ?_⟩
        by_cases hpa : a.pa = pa
        · subst hpa
          rw [hp] at hone
          cases hone
          exact hval
        · exact hgot pa p ((List.find?_cons_of_neg (by simpa using hpa)).trans hp)
      · cases h

/-! The elements of a register lanes are put in. -/

section
variable {old : BitVec 2048} {l : List (Nat × Nat)} {k : Nat}

theorem velem_putLanes (hk : k < 64) : velem (putLanes old l) 32 k =
    ((l.find? fun e => e.1 == k).elim (velem old 32 k) (·.2)) % 2 ^ 32 := by
  rw [putLanes, velem_vecOf (by simp) (by simpa using hk)]
  rw [List.getD_eq_getElem?_getD, List.getElem?_map, List.getElem?_range hk, Option.map_some, Option.getD_some]
  cases l.find? fun e => e.1 == k <;> rfl

theorem velem_putLanes_other (hk : k < 64) (h : k ∉ l.map (·.1)) : velem (putLanes old l) 32 k = velem old 32 k := by
  have hnone : (l.find? fun e => e.1 == k) = none :=
    List.find?_eq_none.mpr fun e he heq => h (List.mem_map.mpr ⟨e, he, beq_iff_eq.mp heq⟩)
  rw [velem_putLanes hk, hnone]
  exact Nat.mod_eq_of_lt (velem_lt ..)

theorem find?_of_nodup {l : List (Nat × Nat)} {k x : Nat} (h : (l.map (·.1)).Nodup) (hx : (k, x) ∈ l) :
    (l.find? fun e => e.1 == k) = some (k, x) := by
  cases hf : l.find? fun e => e.1 == k with
  | none => exact absurd (beq_self_eq_true k) (List.find?_eq_none.mp hf _ hx)
  | some y =>
    have hy : y.1 = k := beq_iff_eq.mp (List.find?_some (p := fun e : Nat × Nat => e.1 == k) hf)
    exact congrArg some (List.inj_on_of_nodup_map h (List.mem_of_find?_eq_some hf) hx hy)

theorem velem_putLanes_lane {x : Nat} (hk : k < 64) (h : (l.map (·.1)).Nodup) (hx : (k, x) ∈ l) :
    velem (putLanes old l) 32 k = x % 2 ^ 32 := by
  rw [velem_putLanes hk, find?_of_nodup h hx]
  rfl

end

section
variable {s u : State} {c : Nat} {e : LobEntry} {as : List Acc}

theorem performEntry_vec {l : List (Nat × Nat)} (hr : readLanes s c e.id e.ident as = (.ok l, u)) (d : BitVec 5) :
    performEntry s c e as (.vec d) = (performed u c e as).modCtx c fun x => x.setVreg d (putLanes (x.vreg d) l) := by
  simp only [performEntry, hr]

theorem performEntry_vecRefused {t : Trap} (hr : readLanes s c e.id e.ident as = (.error t, u)) (d : BitVec 5) :
    performEntry s c e as (.vec d) = refusedLoad u c e.id t := by
  simp only [performEntry, hr]
  rfl

end

end Sys2Proof.Machine
end

section
/-! SUPPORT. The loads of the matrix engine (R389, R390, R395). -/

namespace Sys2Proof.Machine

/-! Bytes put at places of a slot (R388). -/

/-- A byte added where a number has a zero byte is that byte, and no other byte changes. -/
theorem byte_add {n p : Nat} (hp : n / 2 ^ (8 * p) % 256 = 0) (x : Byte) (k : Nat) :
    (x.toNat * 2 ^ (8 * p) + n) / 2 ^ (8 * k) % 256 = if p = k then x.toNat else n / 2 ^ (8 * k) % 256 := by
  have hx := x.isLt
  rcases Nat.lt_trichotomy k p with hlt | rfl | hgt
  · obtain ⟨j, rfl⟩ := Nat.exists_eq_add_of_lt hlt
    have hsplit : x.toNat * 2 ^ (8 * (k + j + 1)) = 2 ^ (8 * k) * (x.toNat * 2 ^ (8 * j) * 256) := by
      rw [show 8 * (k + j + 1) = 8 * k + 8 * j + 8 by omega, Nat.pow_add, Nat.pow_add]
      ring
    rw [hsplit, Nat.mul_add_div (Nat.two_pow_pos _), Nat.mul_add_mod_self_right, if_neg (by omega)]
  · rw [Nat.mul_comm, Nat.mul_add_div (Nat.two_pow_pos _), Nat.add_mod, hp, Nat.add_zero, Nat.mod_mod, if_pos rfl]
    exact Nat.mod_eq_of_lt hx
  · obtain ⟨j, rfl⟩ := Nat.exists_eq_add_of_lt hgt
    have hsplit : 2 ^ (8 * (p + j + 1)) = 2 ^ (8 * p) * (256 * 2 ^ (8 * j)) := by
      rw [show 8 * (p + j + 1) = 8 * p + (8 + 8 * j) by omega, Nat.pow_add, Nat.pow_add]
    have hcarry : (x.toNat + n / 2 ^ (8 * p)) / 256 = n / 2 ^ (8 * p) / 256 := by omega
    rw [hsplit, ← Nat.div_div_eq_div_mul, ← Nat.div_div_eq_div_mul, Nat.mul_comm x.toNat, Nat.mul_add_div (Nat.two_pow_pos _),
      hcarry, if_neg (by omega), ← Nat.div_div_eq_div_mul, ← Nat.div_div_eq_div_mul]

/-- The byte that a map of places puts at a place. -/
def placed (map : List (Nat × Nat)) (b : List Byte) (k : Nat) : Nat :=
  match map.find? fun x => x.2 == k with | some x => (b.getD x.1 0).toNat | none => 0

/-- The number made of a map's bytes at their places. -/
def placedSum (map : List (Nat × Nat)) (b : List Byte) : Nat :=
  map.foldr (fun x a => (b.getD x.1 0).toNat * 2 ^ (8 * x.2) + a) 0

theorem mapBytes_eq (n : Nat) (map : List (Nat × Nat)) (b : List Byte) : mapBytes n map b = placedSum map b % 2 ^ (8 * n) := by
  have hsum : ∀ a, map.foldl (fun a x => a + (b.getD x.1 0).toNat * 2 ^ (8 * x.2)) a = a + placedSum map b := by
    induction map with
    | nil => exact fun a => rfl
    | cons x r ih =>
      intro a
      rw [List.foldl_cons, ih, Nat.add_assoc]
      rfl
  rw [mapBytes, hsum, Nat.zero_add]

/-- With no place named twice, each byte of the number is the one its place is given. -/
theorem placedSum_byte {map : List (Nat × Nat)} (h : map.Pairwise fun x y => x.2 ≠ y.2) (b : List Byte) (k : Nat) :
    placedSum map b / 2 ^ (8 * k) % 256 = placed map b k := by
  induction map generalizing k with
  | nil => simp [placedSum, placed]
  | cons x r ih =>
    obtain ⟨hx, hr⟩ := List.pairwise_cons.mp h
    have hfree : placed r b x.2 = 0 := by
      have hnone : (r.find? fun y => y.2 == x.2) = none :=
        List.find?_eq_none.mpr fun y hy heq => hx y hy (beq_iff_eq.mp heq).symm
      simp only [placed, hnone]
    refine (byte_add ((ih hr x.2).trans hfree) _ k).trans ?_
    by_cases hk : x.2 = k
    · simp only [placed, List.find?_cons, beq_iff_eq.mpr hk, if_pos hk]
    · simp only [placed, List.find?_cons, beq_eq_false_iff_ne.mpr hk, if_neg hk]
      exact ih hr k

/-- The low bytes of a number are those of the number. -/
theorem byte_mod {k m : Nat} (hk : k < m) (n : Nat) : n % 2 ^ (8 * m) / 2 ^ (8 * k) % 256 = n / 2 ^ (8 * k) % 256 := by
  have hpow : 2 ^ (8 * m) = 2 ^ (8 * k) * 2 ^ (8 * (m - k)) := by
    rw [← Nat.pow_add, ← Nat.mul_add, Nat.add_sub_cancel' hk.le]
  have hdvd : 256 ∣ 2 ^ (8 * (m - k)) := Nat.pow_dvd_pow 2 (by omega : 8 ≤ 8 * (m - k))
  rw [hpow, Nat.mod_mul_right_div_self, Nat.mod_mod_of_dvd _ hdvd]

/-- The bytes of a slot that a map fills (R388, R389). -/
theorem mapBytes_byte {map : List (Nat × Nat)} (h : map.Pairwise fun x y => x.2 ≠ y.2) (b : List Byte) {k n : Nat} (hk : k < n) :
    (BitVec.ofNat (8 * n) (mapBytes n map b)).toNat / 2 ^ (8 * k) % 256 = placed map b k := by
  rw [BitVec.toNat_ofNat, mapBytes_eq]
  exact (byte_mod hk _).trans ((byte_mod hk _).trans (placedSum_byte h b k))

theorem slotBytes_byte {map : List (Nat × Nat)} (h : map.Pairwise fun x y => x.2 ≠ y.2) (b : List Byte) {k : Nat} (hk : k < 2048) :
    (BitVec.ofNat 16384 (mapBytes 2048 map b)).toNat / 2 ^ (8 * k) % 256 = placed map b k := mapBytes_byte (n := 2048) h b hk

/-! The engine after a load. -/

section
variable {s u : State} {c : Nat} {e : LobEntry} {as : List Acc} {b : List Byte}

theorem performEntry_acc (hr : readPieces s c e.id e.ident as = (.ok b, u)) (d : BitVec 3) :
    performEntry s c e as (.acc d) = modMatrix (performed u c e as) c fun _ =>
      (matrixOf u c).setAcc d.toNat { (matrixOf u c).acc d.toNat with bytes := BitVec.ofNat 32768 (ofBytes b) } := by
  simp only [performEntry, hr, performed_modCtx_id]
  rfl

theorem performEntry_slots (hr : readPieces s c e.id e.ident as = (.ok b, u)) (hrun : cmdStopped s e.ident = false)
    (slot : Nat) (map : List (Nat × Nat)) :
    performEntry s c e as (.slots slot false false map) = modMatrix (performed u c e as) c fun _ =>
      (matrixOf u c).setSlot slot
        { (matrixOf u c).slot slot with bytes := BitVec.ofNat 16384 (mapBytes 2048 map b), state := .ready } := by
  simp only [performEntry, hrun, hr, performed_modCtx_id, Bool.false_eq_true, if_false]
  rfl

/-- The line a faulted slot names: that of the access the trap came from (R389). -/
def faultLine (as : List Acc) (t : Trap) : Nat := ((as.find? fun a => a.ea == t.val).map fun a => a.pa / 128 * 128).getD 0

theorem performEntry_slotsRefused {t : Trap} (hr : readPieces s c e.id e.ident as = (.error t, u))
    (hrun : cmdStopped s e.ident = false) (slot : Nat) (map : List (Nat × Nat)) : ∃ lost,
    performEntry s c e as (.slots slot false false map) =
      faultSlots (lobDrop u c e.id) c slot false false (mldReason t lost) (faultLine as t) := by
  simp only [performEntry, hrun, hr, Bool.false_eq_true, if_false]
  exact ⟨_, rfl⟩

theorem performEntry_image {w : Word} (hr : takeImage s c e.id e.ident as = (.ok w, u)) :
    performEntry s c e as .image = giveReply (performed u c e as) c w := by
  simp only [performEntry, hr, performed_modCtx_id]

theorem performEntry_imageRefused {t : Trap} (hr : takeImage s c e.id e.ident as = (.error t, u)) :
    performEntry s c e as .image = refusedLoad u c e.id t := by
  simp only [performEntry, hr]
  rfl

/-- A slot that faults: empty, with its reason and its line. -/
theorem faultSlots_slot (v : State) (slot : Nat) (r : BitVec 4) (line : Nat) :
    let x := (matrixOf (faultSlots v c slot false false r line) c).slot slot
    x.state = .faulted r line ∧ x.bytes = 0 := by
  have hslot : (matrixOf (faultSlots v c slot false false r line) c).slot slot =
      { (matrixOf v c).slot slot with bytes := 0, state := .faulted r line } := by
    unfold faultSlots
    simp only [Bool.false_eq_true, if_false]
    unfold modMatrix
    rw [matrixOf, State.modCore_core_same, Matrix.slot_setSlot, if_pos rfl]
    rfl
  rw [hslot]
  exact ⟨rfl, rfl⟩

end

end Sys2Proof.Machine
end

section
/-! SUPPORT. Loads performed, clause by clause (R103, R108, R203 to R206, R374, R389, R395, R454). -/

namespace Sys2Proof.Machine

section
variable {s u : State} {c : Nat} {e : LobEntry} {as : List Acc} {a : Acc} {b : List Byte} {t : Trap}

/-- A load whose turn it is ends as its entry performs. -/
theorem LoadTurn.next {dst : LoadDst} {v : State} (h : LoadTurn s c e.id e as dst) {l : List Acc} (hl : touched s c e.id dst as = l)
    (hv : performEntry (s.caching c e.id e l) c e l dst = v) : exec (.performLoad c e.id) s = .next v := by
  rw [h.performs, hl, hv]

/-- A lock's load (R206). -/
theorem lockLoad_performs {d : BitVec 6} (h : LoadTurn s c e.id e [a] (.lock d))
    (hr : homeRights (s.caching c e.id e [a]) e.ident a.pa = true) :
    ∃ v, exec (.performLoad c e.id) s = .next v ∧ Loaded (s.caching c e.id e [a]) v c e.id Context.feed ∧
      WroteReg (s.caching c e.id e [a]) v c d (Reg.ofWord ((accLock (s.caching c e.id e [a]) c e.id a).setWidth 64)) ∧
      SameBytes (s.caching c e.id e [a]) v :=
  ⟨_, h.next rfl (performEntry_lock hr d), performed_setReg d _⟩

/-- A load that gives a word to its own instruction. -/
theorem replyLoad_performs {dst : LoadDst} {l : List Acc} {lock : Bool} {w : Word} (h : LoadTurn s c e.id e as dst)
    (hl : touched s c e.id dst as = l)
    (hv : performEntry (s.caching c e.id e l) c e l dst = giveReply (performed u c e l lock) c w) :
    ∃ v, exec (.performLoad c e.id) s = .next (giveReply v c w) ∧ Loaded u v c e.id (fun x => x) ∧
      (v.ctx c).g = (u.ctx c).g ∧ (v.ctx c).v = (u.ctx c).v ∧ SameBytes u v := by
  obtain ⟨hloaded, hg, hvreg⟩ := performed_keeps (u := u) (c := c) (e := e) (acc := l) (lock := lock)
  exact ⟨_, h.next hl hv, hloaded, hg, hvreg, hloaded.bytes⟩

/-- A vector load: its lanes are written, lanes of one address alike (R374). -/
theorem vecLoad_performs {d : BitVec 5} (h : LoadTurn s c e.id e as (.vec d)) {l : List (Nat × Nat)}
    (hr : readLanes (s.caching c e.id e as) c e.id e.ident as = (.ok l, u)) :
    ∃ v w, exec (.performLoad c e.id) s = .next v ∧
      Loaded u v c e.id (fun x => x) ∧ WroteVreg u v c d w ∧ SameBytes u v ∧ l.map (·.1) = as.map (·.lane) ∧
      (∀ k, k < 64 → k ∉ as.map (·.lane) → velem w 32 k = velem ((u.ctx c).vreg d) 32 k) ∧
      ((as.map (·.lane)).Nodup → ∀ k x, (k, x) ∈ l → k < 64 → velem w 32 k = x % 2 ^ 32) ∧
      ∀ i j a b, as[i]? = some a → as[j]? = some b → a.pa = b.pa → (l.getD i (0, 0)).2 = (l.getD j (0, 0)).2 := by
  obtain ⟨value, rfl, -⟩ := readLanes_ok hr
  have hlanes : (as.map fun a => (a.lane, value a.pa)).map (·.1) = as.map (·.lane) := by
    rw [List.map_map]
    rfl
  have hlane : ∀ i a, as[i]? = some a → ((as.map fun a => (a.lane, value a.pa)).getD i (0, 0)).2 = value a.pa := by
    intro i a ha
    rw [List.getD_eq_getElem?_getD, List.getElem?_map, ha]
    rfl
  obtain ⟨hloaded, hvreg, hbytes⟩ := performed_setVreg (u := u) (c := c) (e := e) (acc := as) (lock := false) d
    fun w => putLanes w (as.map fun a => (a.lane, value a.pa))
  refine ⟨_, _, h.next rfl (performEntry_vec hr d), hloaded, hvreg, hbytes, hlanes, fun k hk hno => ?_, fun hnd k x hx hk => ?_,
    fun i j a b ha hb hpa => ?_⟩
  · exact velem_putLanes_other hk (by rwa [hlanes])
  · exact velem_putLanes_lane hk (by rwa [hlanes]) hx
  · rw [hlane i a ha, hlane j b hb, hpa]

/-- An accumulator's load (R395). -/
theorem accLoad_performs {d : BitVec 3} (h : LoadTurn s c e.id e as (.acc d))
    (hr : readPieces (s.caching c e.id e as) c e.id e.ident as = (.ok b, u)) :
    ∃ t v m, exec (.performLoad c e.id) s = .next t ∧
      Loaded u v c e.id (fun x => x) ∧ SameBytes u v ∧ (u.ctx c).g = (v.ctx c).g ∧ (u.ctx c).v = (v.ctx c).v ∧
      t = modMatrix v c (fun _ => m) ∧ (m.acc d.toNat).bytes = BitVec.ofNat 32768 (ofBytes b) ∧
      (∀ i, i ≠ d.toNat → m.acc i = (matrixOf u c).acc i) ∧ m.slots = (matrixOf u c).slots ∧ m.queue = (matrixOf u c).queue := by
  obtain ⟨hloaded, hg, hvreg⟩ := performed_keeps (u := u) (c := c) (e := e) (acc := as) (lock := false)
  refine ⟨_, _, _, h.next rfl (performEntry_acc hr d), hloaded, hloaded.bytes, hg.symm, hvreg.symm, rfl, ?_, fun i hi => ?_, rfl, rfl⟩
  · rw [Matrix.acc_setAcc, if_pos rfl]
  · rw [Matrix.acc_setAcc, if_neg hi.symm]

theorem caching_cmdStopped (i : Ident) : cmdStopped (s.caching c e.id e as) i = cmdStopped s i := by
  unfold cmdStopped current genOf State.vf State.part
  rw [caching_parts]

section
variable {slot : Nat} {map : List (Nat × Nat)}

/-- A slot's load: the slot is ready with the bytes its map places (R388, R389). -/
theorem slotLoad_performs (h : LoadTurn s c e.id e as (.slots slot false false map)) (hrun : cmdStopped s e.ident = false)
    (hmap : map.Pairwise fun x y => x.2 ≠ y.2)
    (hr : readPieces (s.caching c e.id e as) c e.id e.ident as = (.ok b, u)) :
    ∃ t v m, exec (.performLoad c e.id) s = .next t ∧
      Loaded u v c e.id (fun x => x) ∧ SameBytes u v ∧ t = modMatrix v c (fun _ => m) ∧ (m.slot slot).state = .ready ∧
      (m.slot slot).owner = ((matrixOf u c).slot slot).owner ∧
      (∀ k, k < 2048 → (m.slot slot).bytes.toNat / 2 ^ (8 * k) % 256 = placed map b k) ∧
      (∀ i, i ≠ slot → m.slot i = (matrixOf u c).slot i) ∧ m.accs = (matrixOf u c).accs := by
  obtain ⟨hloaded, -, -⟩ := performed_keeps (u := u) (c := c) (e := e) (acc := as) (lock := false)
  refine ⟨_, _, _, h.next rfl (performEntry_slots hr ((caching_cmdStopped _).trans hrun) slot map), hloaded, hloaded.bytes, rfl,
    ?_, ?_, fun k hk => ?_, fun i hi => ?_, rfl⟩
  · rw [Matrix.slot_setSlot, if_pos rfl]
  · rw [Matrix.slot_setSlot, if_pos rfl]
  · rw [Matrix.slot_setSlot, if_pos rfl, slotBytes_byte hmap b hk]
  · rw [Matrix.slot_setSlot, if_neg hi.symm]

/-- A refused one: the slot is faulted, with its reason and line, and no trap is pending (R389). -/
theorem slotLoad_faults (h : LoadTurn s c e.id e as (.slots slot false false map)) (hrun : cmdStopped s e.ident = false)
    (hr : readPieces (s.caching c e.id e as) c e.id e.ident as = (.error t, u)) : ∃ v r line, exec (.performLoad c e.id) s = .next v ∧
      ((matrixOf v c).slot slot).state = .faulted r line ∧ ((matrixOf v c).slot slot).bytes = 0 ∧
      (t.cause = 0x41 → r = 3) ∧ (t.cause = 0x24 → r = 5) ∧ (v.ctx c).pend = (u.ctx c).pend ∧
      ∀ a, as.find? (fun x => x.ea == t.val) = some a → line = a.pa / 128 * 128 := by
  obtain ⟨lost, hv⟩ := performEntry_slotsRefused hr ((caching_cmdStopped _).trans hrun) slot map
  obtain ⟨hstate, hbytes⟩ := faultSlots_slot (c := c) (lobDrop u c e.id) slot (mldReason t lost) (faultLine as t)
  refine ⟨_, _, _, h.next rfl hv, hstate, hbytes, fun h41 => if_pos h41, fun h24 => ?_, ?_, fun a ha => ?_⟩
  · rw [mldReason, if_neg (by rw [h24]; decide), if_pos h24]
  · have hpend : ((lobDrop u c e.id).ctx c).pend = (u.ctx c).pend := by rw [lobDrop, State.modCtx_ctx_same]
    exact hpend
  · rw [faultLine, ha]
    rfl

end

end

/-- Settles O51: each destination's load writes it from what its reads gave and leaves the marks its entry owes; where a
byte comes from is a fold over the own stores, the queue and the home, and a failed tag freezes its partition before it
kills a context. -/
theorem loadsPerform : Obligations.LoadsPerform := by
  unfold Obligations.LoadsPerform
  refine ⟨?scalar, ?cap, ?lock, ?reply, ?vec, ?acc, ?slots, ?image, ?source, ?refused, ?sealed, ?check⟩
  case scalar =>
    intro s c id e a d ty h
    obtain rfl := h.ready.number
    exact ⟨fun b u hr => ⟨_, h.next rfl (performEntry_scalar hr d ty), performed_setReg d _⟩,
      fun tr u hr => h.next rfl (performEntry_refused hr (.inl ⟨d, ty, rfl⟩))⟩
  case cap =>
    intro s c id e a d keep h
    obtain rfl := h.ready.number
    refine ⟨fun b u hr => ?_, fun tr u hr => h.next rfl (performEntry_refused hr (.inr (.inl ⟨d, keep, rfl⟩)))⟩
    obtain ⟨hloaded, hreg, hbytes⟩ := performed_setReg (u := u) (c := c) (e := e) (acc := [a]) (lock := false) d
      (Reg.ofCap (BitVec.ofNat 128 (ofBytes b)) (keep && accTag (s.caching c e.id e [a]) c e.id a))
    exact ⟨_, h.next rfl (performEntry_cap hr d keep), hloaded, hbytes, Reg.ofCap_eq .. ▸ hreg⟩
  case lock =>
    intro s c id e a h
    have hid : e.id = id := h.elim (fun ⟨_, h⟩ => h.ready.number) fun h => h.ready.number
    have hop : (∃ d, LoadTurn s c id e [a] (.lock d) ∧ e.op = .load [a] (.lock d)) ∨
        (LoadTurn s c id e [a] (.reply true) ∧ e.op = .load [a] (.reply true)) :=
      h.imp (fun ⟨d, h⟩ => ⟨d, h, h.ready.load⟩) fun h => ⟨h, h.ready.load⟩
    obtain rfl := hid
    rcases hop with ⟨d, h, hop⟩ | ⟨h, hop⟩
    · refine ⟨fun hr => ⟨fun d' hd => ?_, fun hd => ?_⟩, fun hr => h.next rfl (performEntry_lockRefused hr (.inl ⟨d, rfl⟩))⟩
      · cases hop.symm.trans hd
        exact lockLoad_performs h hr
      · cases hop.symm.trans hd
    · refine ⟨fun hr => ⟨fun d' hd => ?_, fun _ => ?_⟩, fun hr => h.next rfl (performEntry_lockRefused hr (.inr rfl))⟩
      · cases hop.symm.trans hd
      · exact replyLoad_performs h rfl (performEntry_lockReply hr)
  case reply =>
    intro s c id e a h
    obtain rfl := h.ready.number
    exact ⟨fun b u hr => replyLoad_performs h rfl (performEntry_reply hr),
      fun tr u hr => h.next rfl (performEntry_refused hr (.inr (.inr rfl)))⟩
  case vec =>
    intro s c id e as d h
    obtain rfl := h.ready.number
    exact ⟨fun l u hr => vecLoad_performs h hr, fun tr u hr => h.next rfl (performEntry_vecRefused hr d)⟩
  case acc =>
    intro s c id e as d h
    obtain rfl := h.ready.number
    exact fun b u hr => accLoad_performs h hr
  case slots =>
    intro s c id e as slot map h hrun _ hmap
    obtain rfl := h.ready.number
    exact ⟨fun b u hr => slotLoad_performs h hrun hmap hr, fun tr u hr => slotLoad_faults h hrun hr⟩
  case image =>
    intro s c id e as h
    obtain rfl := h.ready.number
    refine ⟨fun w u hr => ?_, fun tr u hr => h.next rfl (performEntry_imageRefused hr)⟩
    obtain ⟨v, hv, hloaded, -, -, hbytes⟩ := replyLoad_performs h rfl (performEntry_image hr)
    exact ⟨v, hv, hloaded, hbytes⟩
  case source =>
    intro s c id i a h
    rw [h.reads, accBytes_eq]
  case refused =>
    intro s c id i a k o hreg hf
    exact ⟨readAt_refused hreg hf, readAt_poisoned hreg hf⟩
  case sealed =>
    intro s c id e as d l h hl
    exact ⟨_, h.seal_fails hl, sealFailure_frozen s c l⟩
  case check =>
    intro s c id e pa hfind hop
    exact ⟨tagCheck_matches hfind hop, tagCheck_fails hfind hop⟩

end Sys2Proof.Machine
end

section
/-! SUPPORT. A product whose operand would reach past the engine's last slot (R379, R391): of the slots it names it looks at
the 32 the engine has. -/

namespace Sys2Proof.Machine

/-- A product whose items are claimed and filled retires unless a slot of the engine that it names is faulted (R391, R393). -/
theorem product_retires {s : State} {slots : List Nat} {accd acc : Nat} (hl : Lone s) (hclaim : Claims s slots [accd, acc])
    (hfill : Filled s slots [accd, acc]) (hroom : s.engineRoom)
    (hsound : ∀ i ∈ slots, i < 32 → ∀ r pa, (s.matrix.slot i).state ≠ .faulted r pa) (f : Matrix → Nat → Nat → Nat × FpFlags) :
    ∃ m, product s s s.cur slots accd acc f = .ok (retire (s.withMatrix m) s.cur) := by
  have hidle : (idle s s.cur slots [accd, acc]).isOk = true := by rw [idle_filled hfill]; rfl
  simp only [product, claimed_all hclaim, hidle, if_true, Res.ok_bind]
  split
  case h_1 i hfind =>
    have hnamed := List.find?_some hfind
    obtain ⟨hmem, hfaulted⟩ := Bool.and_eq_true_iff.1 hnamed
    have hlt := List.mem_range.1 (List.mem_of_find?_eq_some hfind)
    split at hfaulted
    case h_1 r pa hst => exact absurd hst (hsound i (List.contains_iff_mem.1 hmem) hlt r pa)
    case h_2 => nomatch hfaulted
  case h_2 =>
    rw [matrixWrites_lone hl.pair, Res.ok_bind, enterQueue_room (.start s) hroom, Res.ok_bind, modMatrix_modMatrix]
    exact ⟨_, rfl⟩

/-- An MTERN whose B operand begins at slot 31, the last, and would go on in a slot 32. -/
def ternPastLast : MternOps :=
  { h := { guard := { neg := false, p := 0 }, hints := 0 }, n8 := true, sa := 0, sb := 31, accd := 0, accc := 0
    z := true, ip := false, m := false, diag := 0 }

/-- Context 0 holds slots 0 and 31, accumulator 0, and an entry 32 of the table of slots, which reads as faulted. -/
def faultPastLast : State :=
  { State.reset with
    cur := 0
    ctxs := [(0, { run := .running })]
    cores := [(0, { matrix :=
      { slots := [(0, { owner := some 0 }), (31, { owner := some 0 }), (32, { owner := some 0, state := .faulted 1 0 })]
        accs := [(0, { owner := some 0 })] } })] }

theorem faultPastLast_clear : Clear faultPastLast ternPastLast.h where
  real := rfl
  done := rfl
  stop := rfl
  known := rfl
  paid _ h := nomatch h

theorem faultPastLast_claims : Claims faultPastLast (mternSlots ternPastLast) (mternAccs ternPastLast) where
  slots := by decide
  accs := by decide

theorem faultPastLast_filled : Filled faultPastLast (mternSlots ternPastLast) (mternAccs ternPastLast) where
  slots := by decide
  accs := by decide

/-- Of the three slots only 32 is faulted. -/
theorem faultPastLast_sound : ∀ i ∈ mternSlots ternPastLast, i < 32 → ∀ r pa, (faultPastLast.matrix.slot i).state ≠ .faulted r pa := by
  intro i hi hlt r pa
  have hready : ∀ i ∈ mternSlots ternPastLast, i < 32 → (faultPastLast.matrix.slot i).state = .ready := by decide
  rw [hready i hi hlt]
  nofun

/-- The MTERN retires and its context runs on. -/
theorem ternPastLast_runs : ∃ t, exec (.mtern ternPastLast) faultPastLast = .next t ∧ (t.ctx 0).run = .running := by
  obtain ⟨m, hm⟩ := product_retires (s := faultPastLast) ⟨rfl, rfl⟩ faultPastLast_claims faultPastLast_filled (by decide)
    faultPastLast_sound fun m i j => mternElem m ternPastLast i j
  exact ⟨_, run_next (i := .mtern ternPastLast) (body := mternBody ternPastLast) faultPastLast_clear rfl hm,
    congrArg Context.run (retired_after (faultPastLast.withMatrix m)).own⟩

/-- Refutes O48: its clause for cause 0x39 takes any operands, and lets n be the second slot of a span that begins at slot
31. No decoded instruction has such a span and the engine has no slot 32, so the product does not look there: it retires
where the statement has it trap. -/
theorem not_matrixProductsAndImages : ¬ Obligations.MatrixProductsAndImages := by
  unfold Obligations.MatrixProductsAndImages
  rintro ⟨-, -, hfault, -⟩
  obtain ⟨-, htern⟩ := hfault faultPastLast ternPastLast.h 32 1 0 faultPastLast_clear rfl (by unfold Settled; decide) rfl
  have htrap := htern ternPastLast rfl faultPastLast_claims faultPastLast_filled (by decide) faultPastLast_sound
  obtain ⟨t, ht, hrun⟩ := ternPastLast_runs
  rw [Traps, ht] at htrap
  injection htrap with htaken
  rw [htaken] at hrun
  exact absurd hrun (by decide)

end Sys2Proof.Machine
end

section
/-! SUPPORT. What a capability's bounds decode to (R154): the fields they are read from, the cursors that leave them as they
are, and the narrowing of CSETB (R179). -/

namespace Sys2Proof.Machine

/-! Fields. -/

/-- A field inside a field. -/
theorem extract_extract {w : Nat} (x : BitVec w) {i n j m : Nat} (h : j + m ≤ n) :
    (x.extractLsb' i n).extractLsb' j m = x.extractLsb' (i + j) m := by
  ext k hk
  simp only [BitVec.getElem_extractLsb', BitVec.getLsbD_extractLsb', Nat.add_assoc]
  rw [decide_eq_true (by omega), Bool.true_and]

/-- The bounds and all else a capability says but its cursor stand in its upper word (R153). -/
theorem capAt_upper {x y : BitVec 128} (h : x.extractLsb' 64 64 = y.extractLsb' 64 64) (a : Nat) : capAt x a = capAt y a := by
  have field : ∀ j m, j + m ≤ 64 → x.extractLsb' (64 + j) m = y.extractLsb' (64 + j) m := fun j m hj => by
    rw [← extract_extract x hj, h, extract_extract y hj]
  simp only [capAt, field 26 6 (by decide), field 13 13 (by decide), field 0 13 (by decide), field 32 12 (by decide),
    field 44 4 (by decide), field 48 4 (by decide), field 52 12 (by decide)]

/-- Where R154 puts the base of bounds with exponent `e` and field `b` at a cursor. -/
def baseAt (e b a : Nat) : Nat :=
  ((((a / 2 ^ (e + 13) : Nat) - (if a / 2 ^ e % 2 ^ 13 < b then 1 else 0) : Int) * 2 ^ (e + 13) + b * 2 ^ e) % 2 ^ 64).toNat

theorem capAt_base (x : BitVec 128) (a : Nat) : (capAt x a).base = baseAt (capAt x a).e (x.extractLsb' 77 13).toNat a := rfl

/-- The base is the one address in its window: `b` at exponent `e` below a multiple of the window's size, and at most a
window before the cursor. -/
theorem baseAt_window {e b h c : Nat} (hb : b < 2 ^ 13) (hlo : (h * 2 ^ 13 + b) * 2 ^ e ≤ c)
    (hhi : c < (h * 2 ^ 13 + b) * 2 ^ e + 2 ^ (e + 13)) (hc : c < 2 ^ 64) : baseAt e b c = (h * 2 ^ 13 + b) * 2 ^ e := by
  have hpos : 0 < 2 ^ e := Nat.two_pow_pos e
  have hlow : h * 2 ^ 13 + b ≤ c / 2 ^ e := (Nat.le_div_iff_mul_le hpos).2 hlo
  have hhigh : c / 2 ^ e < h * 2 ^ 13 + b + 2 ^ 13 := by
    rw [Nat.div_lt_iff_lt_mul hpos, Nat.add_mul, ← Nat.pow_add, Nat.add_comm 13]
    exact hhi
  have hwin : ((c / 2 ^ (e + 13) : Nat) - (if c / 2 ^ e % 2 ^ 13 < b then 1 else 0) : Int) = h := by
    rw [Nat.pow_add, ← Nat.div_div_eq_div_mul]
    split <;> omega
  have hval : ((h : Int) * 2 ^ (e + 13) + b * 2 ^ e) = ((h * 2 ^ 13 + b) * 2 ^ e : Nat) := by
    push_cast
    ring
  rw [baseAt, hwin, hval, Int.emod_eq_of_lt (Int.natCast_nonneg _) (by exact_mod_cast Nat.lt_of_le_of_lt hlo hc), Int.toNat_natCast]

/-- Any base is of the form the window's address has. -/
theorem baseAt_form {e b : Nat} (he : e ≤ 51) (hb : b < 2 ^ 13) (a : Nat) : ∃ h, baseAt e b a = (h * 2 ^ 13 + b) * 2 ^ e := by
  generalize hd : ((a / 2 ^ (e + 13) : Nat) - (if a / 2 ^ e % 2 ^ 13 < b then 1 else 0) : Int) = d
  have hsize : (2 : Int) ^ 64 = 2 ^ (51 - e) * 2 ^ 13 * 2 ^ e := by
    rw [← pow_add, ← pow_add]
    congr 1
    omega
  obtain ⟨q, hq⟩ : ∃ q : Int, (d * 2 ^ (e + 13) + b * 2 ^ e) % 2 ^ 64 = (q * 2 ^ 13 + b) * 2 ^ e := by
    refine ⟨d - 2 ^ (51 - e) * ((d * 2 ^ (e + 13) + b * 2 ^ e) / 2 ^ 64), ?_⟩
    rw [Int.emod_def, hsize, pow_add]
    ring
  have hpos : (0 : Int) < 2 ^ e := by positivity
  have hnonneg : 0 ≤ q * 2 ^ 13 + (b : Int) := by
    refine nonneg_of_mul_nonneg_left ?_ hpos
    rw [← hq]
    exact Int.emod_nonneg _ (by decide)
  obtain ⟨h, rfl⟩ : ∃ h : Nat, q = h := Int.eq_ofNat_of_zero_le (by omega)
  refine ⟨h, ?_⟩
  rw [baseAt, hd, hq]
  exact_mod_cast Int.toNat_natCast ((h * 2 ^ 13 + b) * 2 ^ e)

/-! Cursors, permissions and bounds. -/

/-- A capability is well formed by its exponent, its unused bits and its top (R154). -/
theorem capAt_good_iff {x : BitVec 128} {a : Nat} :
    (capAt x a).bad = false ↔ (capAt x a).e ≤ 51 ∧ x.extractLsb' 116 12 = 0 ∧ (capAt x a).top ≤ 2 ^ 64 := by
  simp only [capAt, Bool.or_eq_false_iff, decide_eq_false_iff_not, bne_eq_false_iff_eq, Nat.not_lt, and_assoc]

/-- A cursor inside the window of sound bounds decodes to the same bounds (R154, R181). -/
theorem capAt_representable {x : BitVec 128} {a c : Nat} (h : (capAt x a).bad = false) (hlo : (capAt x a).base ≤ c)
    (hhi : c < (capAt x a).base + 2 ^ ((capAt x a).e + 13)) (hc : c < 2 ^ 64) :
    capAt x c = { capAt x a with addr := c } := by
  have hb : (x.extractLsb' 77 13).toNat < 2 ^ 13 := (x.extractLsb' 77 13).isLt
  obtain ⟨k, hk⟩ := baseAt_form (capAt_good_iff.1 h).1 hb a
  have hbase : (capAt x c).base = (capAt x a).base := by
    rw [capAt_base x a, hk] at hlo hhi
    rw [capAt_base x a, hk]
    exact baseAt_window hb hlo hhi hc
  calc capAt x c = { capAt x a with addr := c, base := (capAt x c).base, top := (capAt x c).base + (capAt x a).len
                                    bad := decide (51 < (capAt x a).e) || x.extractLsb' 116 12 != 0 ||
                                      decide (2 ^ 64 < (capAt x c).base + (capAt x a).len) } := rfl
    _ = _ := by rw [hbase]; rfl

theorem Reg.addr_lt (g : Reg) : g.cap.addr < 2 ^ 64 := (g.bits.setWidth 64).isLt

theorem setWidth_eq_extract (x : BitVec 128) : x.setWidth 64 = x.extractLsb' 0 64 := by
  ext i hi
  simp

/-- A field above one that is written over is the old one. -/
theorem extract_above {q r : Nat} (x : BitVec 128) (p : Nat) (v : BitVec q) (y : BitVec r) {i n : Nat} (h : i + n ≤ p) :
    (x.extractLsb' (q + r) p ++ v ++ y).extractLsb' (q + r + i) n = x.extractLsb' (q + r + i) n := by
  rw [BitVec.extractLsb'_append_eq_of_le (by omega), BitVec.extractLsb'_append_eq_of_le (by omega),
    show q + r + i - r - q = i by omega, extract_extract x h]

/-- Other permissions leave a capability's other fields (R180). -/
theorem withPerm_cap (g : Reg) (p : BitVec 12) : (g.withPerm p).cap = { g.cap with perm := p } := by
  have low : ∀ i n, i + n ≤ 96 → (g.withPerm p).bits.extractLsb' i n = g.bits.extractLsb' i n := fun i n h => by
    rw [Reg.withPerm, BitVec.extractLsb'_append_eq_of_add_le h, extract_extract _ (by omega), Nat.zero_add]
  have high : ∀ i n, i + n ≤ 20 → (g.withPerm p).bits.extractLsb' (108 + i) n = g.bits.extractLsb' (108 + i) n :=
    fun _ _ => extract_above g.bits 20 p (g.bits.extractLsb' 0 96)
  have mid : (g.withPerm p).bits.extractLsb' 96 12 = p := by
    rw [Reg.withPerm, BitVec.extractLsb'_append_eq_of_le (by decide), BitVec.extractLsb'_append_eq_right]
  simp only [Reg.cap, capAt, setWidth_eq_extract, low 0 64 (by decide), low 90 6 (by decide), low 77 13 (by decide),
    low 64 13 (by decide), mid, high 0 4 (by decide), high 4 4 (by decide), high 8 12 (by decide)]

/-- The BND field of an exponent, a base and a top (R154). -/
def bndOf (e b t : Nat) : BitVec 32 := BitVec.ofNat 32 (e * 2 ^ 26 + b * 2 ^ 13 + t)

theorem withBnd_low (g : Reg) (v : BitVec 32) : (g.withBnd v).bits.extractLsb' 0 64 = g.bits.extractLsb' 0 64 := by
  rw [Reg.withBnd, BitVec.extractLsb'_append_eq_right]

theorem withBnd_high (g : Reg) (v : BitVec 32) (i n : Nat) (h : i + n ≤ 32) :
    (g.withBnd v).bits.extractLsb' (96 + i) n = g.bits.extractLsb' (96 + i) n :=
  extract_above g.bits 32 v (g.bits.extractLsb' 0 64) h

/-- Other bounds leave a capability's other fields (R179). -/
theorem withBnd_cap (g : Reg) {e b t : Nat} (he : e < 2 ^ 6) (hb : b < 2 ^ 13) (ht : t < 2 ^ 13) :
    (g.withBnd (bndOf e b t)).cap = { g.cap with
      base := baseAt e b g.cap.addr, len := (t + 2 ^ 13 - b) % 2 ^ 13 * 2 ^ e
      top := baseAt e b g.cap.addr + (t + 2 ^ 13 - b) % 2 ^ 13 * 2 ^ e, e := e
      bad := decide (51 < e) || g.bits.extractLsb' 116 12 != 0 ||
        decide (2 ^ 64 < baseAt e b g.cap.addr + (t + 2 ^ 13 - b) % 2 ^ 13 * 2 ^ e) } := by
  have hlt : e * 2 ^ 26 + b * 2 ^ 13 + t < 2 ^ 32 := by omega
  have mid : ∀ i n, i + n ≤ 32 →
      ((g.withBnd (bndOf e b t)).bits.extractLsb' (i + 64) n).toNat = (e * 2 ^ 26 + b * 2 ^ 13 + t) / 2 ^ i % 2 ^ n :=
    fun i n h => by
      rw [Reg.withBnd, BitVec.extractLsb'_append_eq_of_le (by omega), BitVec.extractLsb'_append_eq_of_add_le (by omega),
        Nat.add_sub_cancel, BitVec.extractLsb'_toNat, bndOf, BitVec.toNat_ofNat, Nat.mod_eq_of_lt hlt, Nat.shiftRight_eq_div_pow]
  have exponent : ((g.withBnd (bndOf e b t)).bits.extractLsb' 90 6).toNat = e := (mid 26 6 (by decide)).trans (by omega)
  have base : ((g.withBnd (bndOf e b t)).bits.extractLsb' 77 13).toNat = b := (mid 13 13 (by decide)).trans (by omega)
  have top : ((g.withBnd (bndOf e b t)).bits.extractLsb' 64 13).toNat = t := (mid 0 13 (by decide)).trans (by omega)
  simp only [Reg.cap, capAt, setWidth_eq_extract, withBnd_low, exponent, base, top, withBnd_high g _ 0 12 (by decide),
    withBnd_high g _ 12 4 (by decide), withBnd_high g _ 16 4 (by decide), withBnd_high g _ 20 12 (by decide)]
  rfl

/-! CSETB (R179). -/

/-- A capability narrowed to the region from its cursor on, rounded at an exponent. -/
def narrowed (g : Reg) (l e : Nat) : Reg :=
  g.withBnd (bndOf e (lowEnd g.cap e / 2 ^ e % 2 ^ 13)
    ((lowEnd g.cap e / 2 ^ e % 2 ^ 13 + (highEnd g.cap l e - lowEnd g.cap e) / 2 ^ e) % 2 ^ 13))

/-- The exponent CSETB takes is the least that fits. -/
theorem fits_iff {k : Cap} {l e : Nat} :
    (List.range 52).find? (fun e => decide (highEnd k l e - lowEnd k e ≤ (2 ^ 13 - 1) * 2 ^ e)) = some e ↔
    e ≤ 51 ∧ highEnd k l e - lowEnd k e ≤ (2 ^ 13 - 1) * 2 ^ e ∧ ∀ d, d < e → (2 ^ 13 - 1) * 2 ^ d < highEnd k l d - lowEnd k d := by
  simp only [List.find?_range_eq_some, decide_eq_true_eq, List.mem_range, Bool.not_eq_true', decide_eq_false_iff_not, Nat.not_le]
  constructor
  · rintro ⟨hf, he, hl⟩
    exact ⟨by omega, hf, hl⟩
  · rintro ⟨he, hf, hl⟩
    exact ⟨hf, by omega, hl⟩

theorem trapIf_ok_iff {b : Bool} {c : BitVec 8} {v w : Word} {u : Unit} : trapIf b c v w = .ok u ↔ b = false := by
  cases b <;> simp

theorem capAuthCheck_sound {g : Reg} (h : Sound g) (r : BitVec 6) : capAuthCheck g r 0 false = .ok g.cap := by
  obtain ⟨htag, hbad, hseal⟩ := h
  have hperm : g.cap.perm &&& 0 = 0 := BitVec.and_zero
  simp only [capAuthCheck, htag, hbad, hseal, hperm, bne_self_eq_false, Bool.not_true, Bool.and_false, trapIf_false, Res.ok_bind,
    Res.pure_eq]

theorem Res.bind_ok_iff {α β : Type} {x : Res α} {f : α → Res β} {b : β} : (x >>= f) = .ok b ↔ ∃ a, x = .ok a ∧ f a = .ok b := by
  cases x <;> simp

theorem roundBounds_eq (k : Cap) (l e : Nat) : roundBounds k.addr l e = (lowEnd k e, highEnd k l e) := rfl

/-- CSETB of a sound capability gives the narrowed one exactly where R179's conditions hold, at the least exponent. -/
theorem setBounds_ok_iff {x : Bool} {a : BitVec 6} {g r : Reg} {y : Word} (h : Sound g) :
    setBounds x a g y = .ok r ↔ ∃ e, Narrows x g.cap y.toNat e ∧ r = narrowed g y.toNat e := by
  rw [setBounds, capAuthCheck_sound h, Res.ok_bind]
  simp only [Res.bind_ok_iff, trapIf_ok_iff, roundBounds_eq, Bool.or_eq_false_iff, decide_eq_false_iff_not, Nat.not_lt]
  constructor
  · rintro ⟨-, hin, hrest⟩
    split at hrest
    case h_1 => nomatch hrest
    case h_2 e hfind =>
      obtain ⟨he, hfits, hleast⟩ := fits_iff.1 hfind
      simp only [Res.bind_ok_iff, trapIf_ok_iff, Res.pure_eq, Except.ok.injEq, Bool.or_eq_false_iff] at hrest
      obtain ⟨-, hexact, -, ⟨hlow, hhigh⟩, rfl⟩ := hrest
      refine ⟨e, ⟨hin, he, hfits, hleast, fun hx => ?_,
        Nat.not_lt.1 (of_decide_eq_false hlow), Nat.not_lt.1 (of_decide_eq_false hhigh)⟩, rfl⟩
      simpa [hx] using hexact
  · rintro ⟨e, hn, rfl⟩
    have hfind := fits_iff.2 ⟨hn.limit, hn.fits, hn.least⟩
    refine ⟨(), hn.inside, ?_⟩
    split
    case h_1 hnone => exact nomatch hnone.symm.trans hfind
    case h_2 d hd =>
      obtain rfl : d = e := Option.some.inj (hd.symm.trans hfind)
      simp only [Res.bind_ok_iff, trapIf_ok_iff, Res.pure_eq, Bool.or_eq_false_iff]
      refine ⟨(), ?_, (), ⟨decide_eq_false (Nat.not_lt.2 hn.within.1), decide_eq_false (Nat.not_lt.2 hn.within.2)⟩, rfl⟩
      cases x
      · rfl
      · simpa using hn.precise rfl

theorem lowEnd_div (k : Cap) (e : Nat) : lowEnd k e / 2 ^ e = k.addr / 2 ^ e := Nat.mul_div_cancel _ (Nat.two_pow_pos e)

/-- The rounded region is of whole units of its exponent. -/
theorem highEnd_eq (k : Cap) (l e : Nat) : highEnd k l e = lowEnd k e + (highEnd k l e - lowEnd k e) / 2 ^ e * 2 ^ e := by
  have hpos := Nat.two_pow_pos e
  have hle : lowEnd k e ≤ highEnd k l e := Nat.mul_le_mul_right _ (Nat.div_le_div_right (by omega))
  have hdvd : 2 ^ e ∣ highEnd k l e - lowEnd k e := Nat.dvd_sub (Nat.dvd_mul_left ..) (Nat.dvd_mul_left ..)
  rw [Nat.div_mul_cancel hdvd, Nat.add_sub_cancel' hle]

/-- A base field and a length give the top field that R154 reads the length back from. -/
theorem topField_length {b n : Nat} (hb : b < 2 ^ 13) (hn : n < 2 ^ 13) : ((b + n) % 2 ^ 13 + 2 ^ 13 - b) % 2 ^ 13 = n := by omega

/-- Where R179's conditions hold, the narrowed register decodes to the rounded region and is otherwise as before. -/
theorem narrowed_cap {x : Bool} {g : Reg} {l e : Nat} (h : Sound g) (hn : Narrows x g.cap l e) :
    (narrowed g l e).cap = { g.cap with base := lowEnd g.cap e, len := highEnd g.cap l e - lowEnd g.cap e
                                        top := highEnd g.cap l e, e := e, bad := false } := by
  obtain ⟨htag, hbad, hseal⟩ := h
  have hpos := Nat.two_pow_pos e
  have hunit : (highEnd g.cap l e - lowEnd g.cap e) / 2 ^ e < 2 ^ 13 := 
    Nat.lt_of_le_of_lt (Nat.div_le_of_le_mul (Nat.mul_comm .. ▸ hn.fits)) (by decide)
  have hlow : g.cap.addr / 2 ^ e % 2 ^ 13 < 2 ^ 13 := Nat.mod_lt _ (by decide)
  have hsplit : (g.cap.addr / 2 ^ e / 2 ^ 13 * 2 ^ 13 + g.cap.addr / 2 ^ e % 2 ^ 13) * 2 ^ e = lowEnd g.cap e := by
    rw [Nat.div_add_mod']
    rfl
  have hbase : baseAt e (g.cap.addr / 2 ^ e % 2 ^ 13) g.cap.addr = lowEnd g.cap e := by
    rw [← hsplit]
    refine baseAt_window hlow ?_ ?_ g.addr_lt
    · rw [hsplit]; exact Nat.div_mul_le_self ..
    · rw [hsplit, lowEnd]
      have := Nat.div_add_mod' g.cap.addr (2 ^ e)
      have := Nat.mod_lt g.cap.addr hpos
      have : 2 ^ e ≤ 2 ^ (e + 13) := Nat.pow_le_pow_right (by decide) (by omega)
      omega
  have htop := highEnd_eq g.cap l e
  have hgood : (decide (51 < e) || g.bits.extractLsb' 116 12 != 0 || decide (2 ^ 64 < highEnd g.cap l e)) = false := by
    obtain ⟨-, hunused, htop⟩ := capAt_good_iff.1 hbad
    simp only [Bool.or_eq_false_iff, decide_eq_false_iff_not, Nat.not_lt, bne_eq_false_iff_eq]
    exact ⟨⟨hn.limit, hunused⟩, Nat.le_trans hn.within.2 htop⟩
  rw [narrowed, lowEnd_div, withBnd_cap g (Nat.lt_of_le_of_lt hn.limit (by decide)) hlow (Nat.mod_lt _ (by decide)), hbase,
    topField_length hlow hunit,    ← htop, hgood]
  rw [Nat.eq_sub_of_add_eq' htop.symm]

theorem narrowed_of_narrows {x : Bool} {g : Reg} {l e : Nat} (h : Sound g) (hn : Narrows x g.cap l e) :
    Narrowed g (narrowed g l e) l e where
  tag := h.1
  good := by rw [narrowed_cap h hn]
  cursor := by rw [setWidth_eq_extract, setWidth_eq_extract, narrowed, withBnd_low]
  upper := withBnd_high g _ 0 32 (by decide)
  exponent := by rw [narrowed_cap h hn]
  bounds := by rw [narrowed_cap h hn]; exact ⟨rfl, rfl⟩

/-! What each derivation leaves of a sound capability's authority. -/

/-- A capability whose bounds lie in another's and whose permissions are among the other's. -/
def Cap.NoWider (k j : Cap) : Prop := k.bad = false ∧ j.base ≤ k.base ∧ k.top ≤ j.top ∧ k.perm &&& ~~~ j.perm = 0

theorem setBounds_narrows {x : Bool} {a : BitVec 6} {g r : Reg} {y : Word} (h : Sound g) (hr : setBounds x a g y = .ok r) :
    r.cap.NoWider g.cap := by
  obtain ⟨e, hn, rfl⟩ := (setBounds_ok_iff h).1 hr
  rw [narrowed_cap h hn]
  exact ⟨rfl, hn.within.1, hn.within.2, BitVec.and_not_self _⟩

theorem withPerm_narrows {g : Reg} (h : Sound g) (p : BitVec 12) : (g.withPerm (g.cap.perm &&& p)).cap.NoWider g.cap := by
  rw [withPerm_cap]
  refine ⟨h.2.1, Nat.le_refl _, Nat.le_refl _, ?_⟩
  rw [BitVec.and_comm g.cap.perm, BitVec.and_assoc, BitVec.and_not_self]
  exact BitVec.and_zero

theorem moved_narrows {g : Reg} {c : Word} (h : Sound g) (ht : (moved g c).tag = true) : (moved g c).cap.NoWider g.cap := by
  by_cases hrep : g.tag ∧ g.cap.base ≤ c.toNat ∧ c.toNat < g.cap.base + 2 ^ (g.cap.e + 13)
  · have hcap : (moved g c).cap = { g.cap with addr := c.toNat } := by
      have hupper : (g.bits.extractLsb' 64 64 ++ c).extractLsb' 64 64 = g.bits.extractLsb' 64 64 := by
        rw [BitVec.extractLsb'_append_eq_of_le (Nat.le_refl _), extract_extract _ (by decide)]
      rw [moved, if_pos hrep, Reg.cap, setWidth_eq_extract, BitVec.extractLsb'_append_eq_right, capAt_upper hupper]
      exact capAt_representable h.2.1 hrep.2.1 hrep.2.2 c.isLt
    rw [hcap]
    exact ⟨h.2.1, Nat.le_refl _, Nat.le_refl _, BitVec.and_not_self _⟩
  · rw [moved, if_neg hrep] at ht
    nomatch ht

/-- A capability instruction whose operands are there retires with the register its result says (R177). -/
theorem capOp_retires {s : State} {i : Instr} {h : Hdr} {d a : BitVec 6} {b : Src} {imm : BitVec 35}
    {f : Reg → Word → Res Reg} {r : Reg} (hc : Clear s h) (ho : On s h) (hk : Known s [a]) (hr : Ready s [b] (some (.g d)))
    (hf : f ((s.ctx s.cur).reg a) (secondWord s b imm) = .ok r) :
    ∃ t, run i h (capOp d a b imm f) s = .next t ∧ Retired s t [b] s.after (putReg d r) := by
  obtain ⟨u, ⟨got, hu⟩, hs⟩ := sources_ready hr
  have hbody : capOp d a b imm f s.cur s = .ok (retire (u.modCtx s.cur fun x => x.setReg d r) s.cur) := by
    rw [capOp, regOf_known (hk a (by simp)), Res.ok_bind, hs, Res.ok_bind]
    exact bind_of_ok hf _
  refine ⟨_, run_next hc ho hbody, ?_⟩
  have hpc : ((u.modCtx s.cur fun x => x.setReg d r).ctx s.cur).pc = (s.ctx s.cur).pc := by
    rw [State.modCtx_ctx_same, setReg_eq, hu.own]
  rw [retire, hpc]
  refine retired_of hu _ _ (s.ctx s.cur) _ ?_ fun j hj => ?_
  · conv_lhs => rw [setReg_eq, hu.own]
    rw [hu.own]
  · rw [setReg_reg, hu.own, putReg]
    by_cases hd : j = d
    · rw [if_pos ⟨hd.symm, hj⟩, if_pos hd]
      rfl
    · rw [if_neg fun k => hd k.1.symm, if_neg hd]
      rfl

/-- Settles O12: the rounded region is the one window at its exponent that holds the cursor, so it is what the new fields
decode to; a moved cursor stays in that window, and a mask of the permissions is among them. -/
theorem boundsOnlyNarrow : Obligations.BoundsOnlyNarrow := by
  unfold Obligations.BoundsOnlyNarrow
  constructor
  · intro o s e hc ho hk hr hs hn
    obtain ⟨t, ht, hret⟩ := capOp_retires (i := .csetb o) hc ho hk hr ((setBounds_ok_iff hs).2 ⟨e, hn, rfl⟩)
    exact ⟨t, _, ht, hret, narrowed_of_narrows hs hn⟩
  · rintro g r x a y hs (hr | rfl | rfl) ht
    · exact setBounds_narrows hs hr
    · exact withPerm_narrows hs _
    · exact moved_narrows hs ht

end Sys2Proof.Machine
end

section
/-! SUPPORT. The order of the checks of an access and of an engine operand (R155, R200): each check's failure ends them, and
only what passes all goes on to its translation. -/

namespace Sys2Proof.Machine

/-! Checks 1 to 5 of R155, each where those before it pass. -/

section
variable {g : Reg} {r : BitVec 6} {perm : BitVec 12} {ea : Word} {n : Nat}

theorem capCheck_untagged (ht : g.tag = false) :
    capCheck g r perm ea n = .error (.trap { cause := 0x04, val := ea, aux := capAux perm r }) := by
  simp only [capCheck, ht, Bool.not_false, trapIf_true, Res.error_bind]

theorem capCheck_malformed (ht : g.tag = true) (hb : g.cap.bad = true) :
    capCheck g r perm ea n = .error (.trap { cause := 0x08, val := ea, aux := capAux perm r }) := by
  simp only [capCheck, ht, hb, Bool.not_true, trapIf_false, trapIf_true, Res.ok_bind, Res.error_bind]

theorem capCheck_sealed (ht : g.tag = true) (hb : g.cap.bad = false) (hs : g.cap.styp ≠ 0) :
    capCheck g r perm ea n = .error (.trap { cause := 0x07, val := ea, aux := capAux perm r }) := by
  simp only [capCheck, ht, hb, bne_iff_ne.2 hs, Bool.not_true, trapIf_false, trapIf_true, Res.ok_bind, Res.error_bind]

theorem capCheck_lacking (h : Sound g) (hp : g.cap.perm &&& perm ≠ perm) :
    capCheck g r perm ea n = .error (.trap { cause := 0x06, val := ea, aux := capAux perm r }) := by
  obtain ⟨ht, hb, hs⟩ := h
  simp only [capCheck, ht, hb, hs, bne_iff_ne.2 hp, bne_self_eq_false, Bool.not_true, trapIf_false, trapIf_true, Res.ok_bind,
    Res.error_bind]

theorem capCheck_outside (h : Sound g) (hp : g.cap.perm &&& perm = perm) (ho : ¬ (g.cap.base ≤ ea.toNat ∧ ea.toNat + n ≤ g.cap.top)) :
    capCheck g r perm ea n = .error (.trap { cause := 0x05, val := ea, aux := capAux perm r }) := by
  obtain ⟨ht, hb, hs⟩ := h
  simp only [capCheck, ht, hb, hs, hp, bne_self_eq_false, Bool.not_true, trapIf_false, trapIf_true, Res.ok_bind, Res.error_bind,
    ← Bool.decide_and, decide_eq_false ho, Bool.not_false]

end

/-! An access (R200). -/

section
variable {s : State} {r : BitVec 6} {off : Word} {q : Ask}

theorem access_capFails {e : Halt} (h : capCheck ((s.ctx s.cur).reg r) r q.perm ((s.ctx s.cur).low r + off) q.n = .error e) :
    access s s.cur r off q = .error e := by
  unfold Context.low at h
  rw [access, h, Res.error_bind]

/-- The capability of an access grants it: checks 1 to 5 of R155 pass. -/
structure Granted (g : Reg) (perm : BitVec 12) (ea : Word) (n : Nat) : Prop where
  sound : Sound g
  perm : g.cap.perm &&& perm = perm
  inside : g.cap.base ≤ ea.toNat ∧ ea.toNat + n ≤ g.cap.top

theorem Granted.check {g : Reg} {perm : BitVec 12} {ea : Word} {n : Nat} (h : Granted g perm ea n) (r : BitVec 6) :
    capCheck g r perm ea n = .ok g.cap := capCheck_passes h.sound h.perm h.inside.1 h.inside.2

theorem access_misaligned (hg : Granted ((s.ctx s.cur).reg r) q.perm ((s.ctx s.cur).low r + off) q.n)
    (ha : ((s.ctx s.cur).low r + off).toNat % q.align ≠ 0) :
    access s s.cur r off q = .error (.trap { cause := 0x0E, val := (s.ctx s.cur).low r + off, aux := 0 }) := by
  have hc := hg.check r
  unfold Context.low at hc ha
  rw [access, hc, Res.ok_bind, decide_eq_true ha, trapIf_true, Res.error_bind]
  rfl

/-- An aligned access whose capability grants it fails where its translation does. -/
theorem access_untranslated {e : Halt} (hg : Granted ((s.ctx s.cur).reg r) q.perm ((s.ctx s.cur).low r + off) q.n)
    (ha : ((s.ctx s.cur).low r + off).toNat % q.align = 0)
    (ht : translate s s.cur ((s.ctx s.cur).low r + off) q.kind = .error e) : access s s.cur r off q = .error e := by
  have hc := hg.check r
  unfold Context.low at hc ha ht
  rw [access, hc, Res.ok_bind, decide_eq_false (not_not_intro ha), trapIf_false, Res.ok_bind, ht, Res.error_bind]

end

/-! Translation (R277, R278, R281). -/

section
variable {s : State} {c kind : Nat} {va : Word}

theorem translate_uncanonical (hi : (s.ctx c).ident.custodian = false) (hc : canonical va = false) :
    translate s c va kind = .error (.trap { cause := 0x23, val := va, aux := xlatAux 0xF kind }) := by
  simp only [translate, hi, hc, Bool.false_eq_true, if_false, Bool.not_false, trapIf_true, Res.error_bind]

theorem translate_walks (hi : (s.ctx c).ident.custodian = false) (hc : canonical va = true) (hm : tlbHit s c va kind = none) :
    translate s c va kind = .error (.walk { va := va, kind := kind }) := by
  simp only [translate, hi, hc, hm, Bool.false_eq_true, if_false, Bool.not_true, trapIf_false, Res.ok_bind]

end

/-! A capability operand of an engine command (R262). -/

section
variable {s : State} {r : BitVec 6} {perm : BitVec 12} {n m : Nat}

theorem engineCap_awaited (h : (s.ctx s.cur).pendG r = true) : engineCap s s.cur r perm n m = .error .stall := by
  rw [engineCap, regOf, h]
  rfl

/-- What an operand whose register has come is checked for. -/
theorem engineCap_known (hk : (s.ctx s.cur).pendG r = false) :
    engineCap s s.cur r perm n m = (do
      let _ ← capCheck ((s.ctx s.cur).reg r) r perm ((s.ctx s.cur).low r) n
      trapIf (decide (((s.ctx s.cur).low r).toNat % m ≠ 0)) 0x0E ((s.ctx s.cur).low r)
      pure ((s.ctx s.cur).reg r)) := by
  rw [engineCap, regOf_known hk]
  rfl

theorem engineCap_fails {e : Halt} (hk : (s.ctx s.cur).pendG r = false)
    (h : capCheck ((s.ctx s.cur).reg r) r perm ((s.ctx s.cur).low r) n = .error e) : engineCap s s.cur r perm n m = .error e := by
  rw [engineCap_known hk, h, Res.error_bind]

theorem engineCap_misaligned (hk : (s.ctx s.cur).pendG r = false)
    (hg : Granted ((s.ctx s.cur).reg r) perm ((s.ctx s.cur).low r) n) (ha : ((s.ctx s.cur).low r).toNat % m ≠ 0) :
    engineCap s s.cur r perm n m = .error (.trap { cause := 0x0E, val := (s.ctx s.cur).low r, aux := 0 }) := by
  rw [engineCap_known hk, hg.check r, Res.ok_bind, decide_eq_true ha, trapIf_true, Res.error_bind]

theorem engineCap_granted (hk : (s.ctx s.cur).pendG r = false)
    (hg : Granted ((s.ctx s.cur).reg r) perm ((s.ctx s.cur).low r) n) (ha : ((s.ctx s.cur).low r).toNat % m = 0) :
    engineCap s s.cur r perm n m = .ok ((s.ctx s.cur).reg r) := by
  rw [engineCap_known hk, hg.check r, Res.ok_bind, decide_eq_false (not_not_intro ha), trapIf_false, Res.ok_bind, Res.pure_eq]

end

/-- Settles O15: a failing check of the capability ends the access, and what it grants goes on to its alignment and then its
translation. -/
theorem accessChecksInOrder : Obligations.AccessChecksInOrder := by
  unfold Obligations.AccessChecksInOrder
  constructor
  · intro s r off q g ea fails aux inside
    refine ⟨fun ht => access_capFails (capCheck_untagged ht), fun ht hb => access_capFails (capCheck_malformed ht hb),
      fun ht hb hs => access_capFails (capCheck_sealed ht hb hs), fun hs hp => access_capFails (capCheck_lacking hs hp),
      fun hs hp hi => access_capFails (capCheck_outside hs hp hi), fun hs hp hi ha => access_misaligned ⟨hs, hp, hi⟩ ha,
      fun hs hp hi ha hw => ⟨fun hc => ?_, fun hc hm => ?_⟩⟩
    · exact access_untranslated ⟨hs, hp, hi⟩ ha (translate_uncanonical hw hc)
    · exact access_untranslated ⟨hs, hp, hi⟩ ha (translate_walks hw hc hm)
  · intro s r perm n m g ea fails aux inside
    refine ⟨engineCap_awaited, fun hk => ⟨fun ht => engineCap_fails hk (capCheck_untagged ht),
      fun ht hb => engineCap_fails hk (capCheck_malformed ht hb), fun ht hb hs => engineCap_fails hk (capCheck_sealed ht hb hs),
      fun hs hp => engineCap_fails hk (capCheck_lacking hs hp), fun hs hp hi => engineCap_fails hk (capCheck_outside hs hp hi),
      fun hs hp hi => engineCap_misaligned hk ⟨hs, hp, hi⟩, fun hs hp hi => engineCap_granted hk ⟨hs, hp, hi⟩⟩⟩

end Sys2Proof.Machine
end

section
/-! SUPPORT. The third failure of a pair one of whose contexts has issued loads past a branch that is not yet resolved (R102,
R241, R242). -/

namespace Sys2Proof.Machine

/-- A branch at 0x200C that waits for g1. -/
def awaitedBranch : Spec :=
  { brc := { h := { guard := { neg := false, p := 0 }, hints := 0 }, cond := .eq, ty := .n64, a := .g 1, b := .g 0, disp := 0 }
    pc := 0x200C, id := 0, taken := false }

/-- The copy of context 0 at 0x2018, past the branch: a context that comes onto a pair runs on, and a checkpoint copies the
address its issue has reached. -/
def copyPastBranch : RegCopy :=
  { c := 0, g := [], v := [], p := [], pc := 0x2018, flags := 0, round := .rne, task := some {}, next := 0 }

/-- The pair of core 0 at its third failure. -/
def failedTwice : Bridle := { ckpt := [copyPastBranch], fails := 2 }

/-- Context 0 of the pair runs past the branch. -/
def pastBranch : State :=
  { State.reset with
    ctxs := [(0, { run := .running, pc := 0x2018, task := some {}, spec := some awaitedBranch })]
    cores := [(0, { bridle := some failedTwice })] }

theorem pastBranch_turn : PairTurn pastBranch (coreOf 0) failedTwice where
  pair := rfl
  can := by decide
  own := by decide
  apart := by decide

/-- Its context is put back to the copy, and is then at the branch again: the trap gives the branch's address. -/
theorem mismatch_pastBranch {u : State} (h : exec (.bridleMismatch 0) pastBranch = .next u) : (u.ctx 0).ktrap.pc = 0x200C := by
  cases h
  decide

/-- Refutes O57: at a pair's third failure it has the trap of each context report the address of its copy. A context that
has issued past an unresolved branch keeps that branch when it is put back, and taking the trap gives the branch up: the
saved pc is the branch's. -/
theorem not_tenderPairsAndErrors : ¬ Obligations.TenderPairsAndErrors := by
  unfold Obligations.TenderPairsAndErrors
  rintro ⟨-, -, -, -, -, -, -, hthird, -⟩
  obtain ⟨u, hnext, -, -, -, hpc⟩ := hthird pastBranch 0 failedTwice copyPastBranch pastBranch_turn (by decide) (by decide)
    (by decide) (by decide) rfl rfl rfl
  exact absurd ((mismatch_pastBranch hnext).symm.trans hpc) (by decide)

end Sys2Proof.Machine
end

section
/-! SUPPORT. A task that leaves in a state whose table of contexts lists another context twice (R232, R238). -/

namespace Sys2Proof.Machine

/-! What a store changes where no tile buffer stands over any stack: bytes, tags, seals and caches. -/

/-- Two states that differ at most in what stores to home storage without tiles change. -/
def StoredOnly (s t : State) : Prop :=
  t = { s with writes := t.writes, ctags := t.ctags, l1 := t.l1, l2 := t.l2, homes := t.homes, seals := t.seals, pages := t.pages }

theorem StoredOnly.trans {s t u : State} (h : StoredOnly s t) (k : StoredOnly t u) : StoredOnly s u := by
  unfold StoredOnly at *
  rw [k, h]

theorem StoredOnly.bases {s t : State} (h : StoredOnly s t) : t.bases = s.bases := by rw [h]

theorem StoredOnly.foldl {α : Type} {f : State → α → State} (hf : ∀ s a, s.bases = [] → StoredOnly s (f s a)) (l : List α)
    {s : State} (hs : s.bases = []) : StoredOnly s (l.foldl f s) := by
  induction l generalizing s with
  | nil => rfl
  | cons a l ih => exact (hf s a hs).trans (ih ((hf s a hs).bases.trans hs))

theorem base_tiles_of_nil {s : State} (hs : s.bases = []) (k : Nat) : (s.base k).tiles = [] := by
  rw [State.base, hs]
  rfl

theorem tileWrite_of_nil {s : State} (hs : s.bases = []) (pa : Nat) : tileWrite s pa = s := by
  unfold tileWrite
  dsimp only
  rw [base_tiles_of_nil hs]
  rfl

theorem homePoke_only {s : State} (hs : s.bases = []) (pa : Nat) (b : Byte) : StoredOnly s (homePoke s pa b) := by
  unfold homePoke
  split
  · rw [tileWrite_of_nil hs]
    dsimp only
    split <;> rfl
  · rfl

theorem homeStore_only {s : State} (hs : s.bases = []) (pa : Nat) (bs : List Byte) : StoredOnly s (homeStore s pa bs) := by
  have hpokes : StoredOnly s ((bs.mapIdx fun i b => (pa + i, b)).foldl (fun s c => homePoke s c.1 c.2) s) :=
    .foldl (fun _ c h => homePoke_only h c.1 c.2) _ hs
  exact hpokes.trans (.foldl (f := sealLine) (fun _ _ _ => rfl) _ (hpokes.bases.trans hs))

theorem setHomeTag_only (s : State) (pa : Nat) (t : Bool) : StoredOnly s (setHomeTag s pa t) := by
  unfold setHomeTag
  split
  · split <;> rfl
  · rfl

theorem writeArea_only {s : State} (hs : s.bases = []) (c reason area : Nat) : StoredOnly s (writeArea s c reason area 0) := by
  unfold writeArea
  dsimp only
  have hbytes := homeStore_only hs area (areaBytes s c reason 0)
  rw [if_pos rfl, List.foldl_nil]
  refine hbytes.trans (.foldl (fun t j _ => ?_) _ (hbytes.bases.trans hs))
  split
  · exact setHomeTag_only ..
  · rfl

/-! The state. -/

/-- A custodian's context that is pre-empted and drained; its task is task 0. -/
def leaver : Context := { run := .leaving 2, task := some {}, ident := { custodian := true } }

/-- The table of contexts lists context 1 twice: `State.ctx` reads the first entry, which waits for nothing, and behind it
stands one that waits for task 0 to leave, which `answerMigr` answers. -/
def listedTwice : State :=
  { State.reset with
    ctxs := [(0, leaver), (1, {}), (1, { run := .blocked (.migrate 0) 0 })]
    dies := [(0, { pools := [(0, { en := true, n := 1 })] })] }

theorem listedTwice_plain : PlainHbm listedTwice 0 0x2800 := by
  have there (j : Nat) (hj : j < 0x2800) : region (0 + j) = .hbm ((0 + j) / 2 ^ 37) ((0 + j) % 2 ^ 37) := by
    have hlow : 0 + j < 2 ^ 40 := by omega
    have hstack : (0 + j) % 2 ^ 37 < stackBytes := by unfold stackBytes; omega
    simp only [region, hlow, hstack, if_true]
  refine ⟨fun j hj => ?_, fun j hj => ?_, fun j _ => rfl, fun k t ht => ?_⟩
  · rw [isHbm, there j hj]
  · rw [loc, there j hj, redirect]
    change some ((0 + j) / 65536 * 65536 + (0 + j) % 65536) = _
    exact congrArg some (by omega)
  · rw [base_tiles_of_nil rfl] at ht
    nomatch ht

theorem listedTwice_turn : LeaveTurn listedTwice 0 {} 0 where
  real := rfl
  drained := rfl
  lone := rfl
  task := rfl
  area := by decide
  items := by decide
  allowed := by decide
  plain := listedTwice_plain
  ring _ := by decide
  tags := by decide

/-- Steps 4 to 6 of the switch-out give context 1 the answer to a MIGR it does not wait in. -/
theorem switchNow_answers : ∃ u, switchNow listedTwice 0 2 none = some u ∧ (u.ctx 1).reply = some (.ok 1) := by
  have htask : (listedTwice.ctx 0).task = some {} := rfl
  have hfree : freeArea listedTwice (dieOf 0) (listedTwice.ctx 0).ident.vf.toNat = some 0 := rfl
  have harea : (Sparse.get {} (listedTwice.die (dieOf 0)).pools (listedTwice.ctx 0).ident.vf.toNat : Pool).base * 256
      + areaSize * 0 = 0 := rfl
  have hclaims : holdsClaims listedTwice 0 = false := by decide
  have hwrite : StoredOnly listedTwice (writeArea listedTwice 0 2 0 0) := writeArea_only rfl 0 2 0
  unfold switchNow
  simp only [htask, hfree, harea, hclaims, Bool.false_eq_true, if_false]
  refine ⟨_, rfl, ?_⟩
  rw [hwrite]
  rfl

/-- The context is drained and on no pair, so SWITCH_OUT is those steps. -/
theorem switchOut_answers {u : State} (h : exec (.switchOut 0) listedTwice = .next u) : (u.ctx 1).reply = some (.ok 1) := by
  obtain ⟨v, hv, hreply⟩ := switchNow_answers
  have hout : exec (.switchOut 0) listedTwice = .next ((switchNow listedTwice 0 2 none).getD listedTwice) := rfl
  rw [← Host.Outcome.next.inj (hout.symm.trans h), hv]
  exact hreply

/-- Refutes O55: where the table of contexts lists a context twice, a task that leaves answers the MIGR of the entry behind,
and the answer comes to the context, which waits for no migration and should be unchanged. -/
theorem not_tasksLeaveAndResume : ¬ Obligations.TasksLeaveAndResume := by
  unfold Obligations.TasksLeaveAndResume
  rintro ⟨hleave, -⟩
  obtain ⟨u, hnext, hleft, -⟩ := hleave listedTwice 0 2 {} 0 rfl listedTwice_turn (.inl rfl) rfl
  have hsame : u.ctx 1 = listedTwice.ctx 1 := hleft.others 1 (by decide) fun _ _ => nofun
  have hnone : (u.ctx 1).reply = none := congrArg Context.reply hsame
  exact nomatch (switchOut_answers hnext).symm.trans hnone

end Sys2Proof.Machine
end

section
/-! SUPPORT. Integer results as bit vectors of the type's width (R163 to R174): an instruction's exact result, cut to the
width, is a bit-vector operation on its operands' low bits. -/

namespace Sys2Proof.Machine

/-! Values and patterns (R163, R165). -/

/-- The exact integer a pattern stands for. -/
def valueOf (signed : Bool) {w : Nat} (x : BitVec w) : Int := if signed then x.toInt else x.toNat

theorem ext_eq (t : IntTy) (x : Word) : ext t x = valueOf t.signed (lowBits t x) := rfl

theorem yOf_eq (t : IntTy) (b : Word) (imm : BitVec 35) : yOf t b imm = valueOf t.signed (second t b imm) := rfl

theorem valueOf_signed {w : Nat} (x : BitVec w) : valueOf true x = x.toInt := rfl

theorem valueOf_unsigned {w : Nat} (x : BitVec w) : valueOf false x = x.toNat := rfl

@[simp] theorem ofInt_valueOf (signed : Bool) {w : Nat} (x : BitVec w) : BitVec.ofInt w (valueOf signed x) = x := by
  cases signed with
  | true => exact BitVec.ofInt_toInt
  | false => rw [valueOf_unsigned, BitVec.ofInt_natCast, BitVec.ofNat_toNat, BitVec.setWidth_eq]

theorem valueOf_inj (signed : Bool) {w : Nat} (a y : BitVec w) : valueOf signed a = valueOf signed y ↔ a = y :=
  ⟨fun h => by rw [← ofInt_valueOf signed a, h, ofInt_valueOf], congrArg _⟩

theorem valueOf_eq_zero (signed : Bool) {w : Nat} (y : BitVec w) : valueOf signed y = 0 ↔ y = 0 := by
  have hzero : valueOf signed (0 : BitVec w) = 0 := by cases signed <;> simp [valueOf]
  rw [← hzero, valueOf_inj]

theorem width_le (t : IntTy) : t.width ≤ 64 := by cases t <;> decide

theorem width_pos (t : IntTy) : 0 < t.width := by cases t <;> decide

/-- The low bits of a wrapped integer are the integer wrapped at the smaller width. -/
theorem setWidth_ofInt {w n : Nat} (h : w ≤ n) (r : Int) : (BitVec.ofInt n r).setWidth w = BitVec.ofInt w r := by
  have hdvd : (2 ^ w : Int) ∣ 2 ^ n := pow_dvd_pow 2 h
  refine BitVec.eq_of_toNat_eq ?_
  rw [BitVec.toNat_setWidth, BitVec.toNat_ofInt, BitVec.toNat_ofInt]
  push_cast
  rw [← Int.emod_emod_of_dvd r hdvd]
  have hpos : (0 : Int) ≤ r % 2 ^ n := Int.emod_nonneg _ (by positivity)
  rw [Int.toNat_emod hpos (by positivity)]
  rfl

/-- The word R165 writes is the result's pattern extended under the type. -/
theorem result_eq (t : IntTy) (r : Int) : result t r = widen t (BitVec.ofInt t.width r) := by
  have hlow : lowBits t (BitVec.ofInt 64 r) = BitVec.ofInt t.width r := setWidth_ofInt (width_le t) r
  rw [result, ext_eq, hlow, widen]
  cases t.signed with
  | true => rfl
  | false => rw [valueOf_unsigned, BitVec.ofInt_natCast, BitVec.ofNat_toNat]; rfl

/-! Sums and products (R169). -/

theorem ofInt_sub {w : Nat} (x y : Int) : BitVec.ofInt w (x - y) = BitVec.ofInt w x - BitVec.ofInt w y := by
  rw [Int.sub_eq_add_neg, BitVec.ofInt_add, BitVec.ofInt_neg, BitVec.sub_eq_add_neg]

/-- The upper half of a wrapped integer is its quotient by the lower half's size. -/
theorem extract_upper_ofInt (w : Nat) (r : Int) : (BitVec.ofInt (2 * w) r).extractLsb' w w = BitVec.ofInt w (r / 2 ^ w) := by
  refine BitVec.eq_of_toNat_eq ?_
  have hpos : (0 : Int) < 2 ^ w := by positivity
  have hsize : (2 : Int) ^ (2 * w) = 2 ^ w * 2 ^ w := by rw [two_mul, pow_add]
  have hmod : r % (2 ^ w * 2 ^ w) / 2 ^ w % 2 ^ w = r / 2 ^ w % 2 ^ w := by
    rw [Int.emod_def r, Int.mul_assoc, Int.sub_mul_ediv_left _ _ hpos.ne', Int.sub_mul_emod_self_left]
  have hlo : 0 ≤ r % (2 ^ w * 2 ^ w) := Int.emod_nonneg _ (by positivity)
  rw [BitVec.extractLsb'_toNat, BitVec.toNat_ofInt, BitVec.toNat_ofInt, Nat.shiftRight_eq_div_pow]
  push_cast
  rw [hsize, ← hmod]
  have hcast : ((r % (2 ^ w * 2 ^ w)).toNat : Int) = r % (2 ^ w * 2 ^ w) := Int.toNat_of_nonneg hlo
  generalize (r % (2 ^ w * 2 ^ w)).toNat = n at hcast
  rw [← hcast]
  norm_cast

theorem ofInt_mulh (signed : Bool) {w : Nat} (a y : BitVec w) :
    BitVec.ofInt w (valueOf signed a * valueOf signed y / (2 ^ w : Nat)) = upperHalf signed a y := by
  push_cast
  rw [← extract_upper_ofInt, BitVec.ofInt_mul, upperHalf]
  cases signed with
  | true => rfl
  | false => simp only [valueOf_unsigned, BitVec.ofInt_natCast, BitVec.ofNat_toNat, Bool.false_eq_true, if_false]

/-- A bitwise operation on words acts on the low bits alone (R169). -/
theorem ofInt_bitOp {w : Nat} (hw : w ≤ 64) {f : Word → Word → Word} {g : BitVec w → BitVec w → BitVec w}
    (h : ∀ x y : Word, (f x y).setWidth w = g (x.setWidth w) (y.setWidth w)) (signed : Bool) (a y : BitVec w) :
    BitVec.ofInt w (bitOp f (valueOf signed a) (valueOf signed y)) = g a y := by
  rw [bitOp, BitVec.ofInt_natCast, BitVec.ofNat_toNat, h, setWidth_ofInt hw, setWidth_ofInt hw, ofInt_valueOf, ofInt_valueOf]

/-! Quotients (R170). -/

theorem ofInt_divide (t : IntTy) (a y : BitVec t.width) :
    BitVec.ofInt t.width (divide t (valueOf t.signed a) (valueOf t.signed y)) =
      if y = 0 then BitVec.allOnes t.width else if t.signed then a.sdiv y else a / y := by
  simp only [divide, valueOf_eq_zero]
  split
  next =>
    split
    · rw [← BitVec.neg_one_eq_allOnes, BitVec.ofInt_neg]; rfl
    · have hmax : (2 : Int) ^ t.width - 1 = (BitVec.allOnes t.width).toNat := by
        rw [BitVec.toNat_allOnes, Nat.cast_pred (Nat.two_pow_pos _)]
        push_cast
        rfl
      rw [hmax]
      exact ofInt_valueOf false _
  next hy =>
    cases t.signed with
    | true => rw [← BitVec.toInt_inj, if_pos rfl, BitVec.toInt_sdiv, BitVec.toInt_ofInt]; rfl
    | false =>
      rw [valueOf_unsigned, valueOf_unsigned, ← Int.ofNat_tdiv, ← BitVec.toNat_udiv]
      exact ofInt_valueOf false (a / y)

theorem ofInt_remainder (signed : Bool) {w : Nat} (a y : BitVec w) :
    BitVec.ofInt w (remainder (valueOf signed a) (valueOf signed y)) =
      if y = 0 then a else if signed then a.srem y else a % y := by
  simp only [remainder, valueOf_eq_zero]
  split
  next => exact ofInt_valueOf signed a
  next =>
    cases signed with
    | true => rw [valueOf_signed, valueOf_signed, ← BitVec.toInt_srem, BitVec.ofInt_toInt]; rfl
    | false =>
      rw [valueOf_unsigned, valueOf_unsigned, ← Int.ofNat_tmod, ← BitVec.toNat_umod]
      exact ofInt_valueOf false (a % y)

/-! Shifts (R171). -/

theorem pattern_valueOf (t : IntTy) (signed : Bool) (a : BitVec t.width) : pattern t (valueOf signed a) = a.toNat := by
  rw [pattern, ← BitVec.toNat_ofInt, ofInt_valueOf]

/-- The word a value extends to is the value modulo 2^64, which is the count of a shift. -/
theorem shiftCount_valueOf (t : IntTy) (y : BitVec t.width) : shiftCount (valueOf t.signed y) = countOf t y := by
  rw [countOf, widen, shiftCount, ← BitVec.toNat_ofInt]
  cases t.signed with
  | true => rfl
  | false => rw [valueOf_unsigned, BitVec.ofInt_natCast, BitVec.ofNat_toNat]; rfl

theorem ofInt_shiftLeft (t : IntTy) (a y : BitVec t.width) :
    BitVec.ofInt t.width (shiftLeft t (valueOf t.signed a) (valueOf t.signed y)) =
      if countOf t y < t.width then a <<< countOf t y else 0 := by
  simp only [shiftLeft, shiftCount_valueOf, pattern_valueOf]
  split
  next => 
    rw [BitVec.ofInt_natCast]
    refine BitVec.eq_of_toNat_eq ?_
    rw [BitVec.toNat_ofNat, BitVec.toNat_shiftLeft, Nat.shiftLeft_eq]
  next => rfl

theorem ofInt_shiftRight (t : IntTy) (a y : BitVec t.width) :
    BitVec.ofInt t.width (shiftRight t (valueOf t.signed a) (valueOf t.signed y)) =
      if countOf t y < t.width then a >>> countOf t y else 0 := by
  simp only [shiftRight, shiftCount_valueOf, pattern_valueOf]
  split
  next =>
    rw [BitVec.ofInt_natCast, ← Nat.shiftRight_eq_div_pow, ← BitVec.toNat_ushiftRight, BitVec.ofNat_toNat, BitVec.setWidth_eq]
  next => rfl

theorem ofInt_shiftArith (t : IntTy) (a y : BitVec t.width) :
    BitVec.ofInt t.width (shiftArith t (valueOf t.signed a) (valueOf t.signed y)) =
      a.sshiftRight (min (countOf t y) (t.width - 1)) := by
  have hhalf : 2 ^ t.width = 2 * 2 ^ (t.width - 1) := by cases t <;> rfl
  have hsign : (if 2 ^ (t.width - 1) ≤ a.toNat then (a.toNat : Int) - (2 ^ t.width : Nat) else a.toNat) = a.toInt := by
    rw [BitVec.toInt_eq_toNat_cond]
    split
    next h => rw [if_neg (by omega)]
    next h => rw [if_pos (by omega)]
  simp only [shiftArith, shiftCount_valueOf, pattern_valueOf, hsign]
  rw [← Int.shiftRight_eq_div_pow, ← BitVec.toInt_sshiftRight, BitVec.ofInt_toInt]

theorem ofInt_rotate (t : IntTy) (a y : BitVec t.width) :
    BitVec.ofInt t.width (rotate t (valueOf t.signed a) (valueOf t.signed y)) = a.rotateLeft (countOf t y % t.width) := by
  simp only [rotate, shiftCount_valueOf, pattern_valueOf]
  have hn : countOf t y % t.width < t.width := Nat.mod_lt _ (width_pos t)
  generalize countOf t y % t.width = n at hn
  have hsplit : 2 ^ t.width = 2 ^ n * 2 ^ (t.width - n) := by rw [← pow_add, Nat.add_sub_cancel' hn.le]
  have hlow : a.toNat / 2 ^ (t.width - n) < 2 ^ n := Nat.div_lt_of_lt_mul (by rw [Nat.mul_comm, ← hsplit]; exact a.isLt)
  refine BitVec.eq_of_toNat_eq ?_
  rw [BitVec.ofInt_natCast, BitVec.toNat_ofNat, BitVec.toNat_rotateLeft, Nat.mod_eq_of_lt hn, Nat.shiftLeft_eq,
    Nat.shiftRight_eq_div_pow]
  have hupper : a.toNat * 2 ^ n % 2 ^ t.width = 2 ^ n * (a.toNat % 2 ^ (t.width - n)) := by
    rw [Nat.mul_comm, hsplit, Nat.mul_mod_mul_left]
  rw [hupper, ← Nat.two_pow_add_eq_or_of_lt hlow, Nat.mod_eq_of_lt]
  have hmod : a.toNat % 2 ^ (t.width - n) + 1 ≤ 2 ^ (t.width - n) := Nat.mod_lt _ (Nat.two_pow_pos _)
  calc 2 ^ n * (a.toNat % 2 ^ (t.width - n)) + a.toNat / 2 ^ (t.width - n)
      < 2 ^ n * (a.toNat % 2 ^ (t.width - n)) + 2 ^ n := Nat.add_lt_add_left hlow _
    _ = 2 ^ n * (a.toNat % 2 ^ (t.width - n) + 1) := (Nat.mul_add_one ..).symm
    _ ≤ 2 ^ n * 2 ^ (t.width - n) := Nat.mul_le_mul_left _ hmod
    _ = 2 ^ t.width := hsplit.symm

/-! Orders and counts (R172 to R174). -/

theorem valueOf_le (signed : Bool) {w : Nat} (a y : BitVec w) : valueOf signed a ≤ valueOf signed y ↔ leAt signed a y = true := by
  cases signed with
  | true => exact BitVec.sle_iff_toInt_le.symm
  | false => simp only [valueOf_unsigned, Nat.cast_le, leAt, Bool.false_eq_true, if_false, BitVec.ule_eq_decide, decide_eq_true_eq]

theorem valueOf_lt (signed : Bool) {w : Nat} (a y : BitVec w) : valueOf signed a < valueOf signed y ↔ ltAt signed a y = true := by
  cases signed with
  | true => exact BitVec.slt_iff_toInt_lt.symm
  | false => simp only [valueOf_unsigned, Nat.cast_lt, ltAt, Bool.false_eq_true, if_false, BitVec.ult_eq_decide, decide_eq_true_eq]

/-- R174's conditions on exact integers are those on patterns. -/
theorem holds_valueOf (c : Cond) (signed : Bool) {w : Nat} (a y : BitVec w) :
    holds c (valueOf signed a) (valueOf signed y) = condHolds c signed a y := by
  refine Bool.eq_iff_iff.2 ?_
  cases c <;> simp [holds, condHolds, valueOf_le, valueOf_lt, valueOf_inj]

theorem length_takeWhile_range {P : Nat → Bool} {n k : Nat} (hk : k < n) (hat : P k = false) (hbelow : ∀ i, i < k → P i = true) :
    ((List.range n).takeWhile P).length = k := by
  have hlen : k < (List.range n).length := by rwa [List.length_range]
  have hfirst : (List.range n).findIdx (fun i => !P i) = k := by
    refine (List.findIdx_eq hlen).2 ⟨?_, fun i hi => ?_⟩
    · rw [List.getElem_range, hat]; rfl
    · rw [List.getElem_range, hbelow i hi]; rfl
  rw [List.takeWhile_eq_take_findIdx_not, hfirst, List.length_take, Nat.min_eq_left hlen.le]

/-- The zeros above a pattern's highest one (R173). -/
theorem leadingZeros_eq {w : Nat} (a : BitVec w) : leadingZeros w a.toNat = zerosAbove a := by
  rw [leadingZeros, zerosAbove]
  split
  next h =>
    have hzero : a = 0 := BitVec.eq_of_toNat_eq (h.trans BitVec.toNat_zero.symm)
    rw [hzero, List.takeWhile_eq_self_iff.2 fun i _ => by simp, List.length_range]
  next h =>
    have hlog : a.toNat.log2 < w := (Nat.log2_lt h).2 a.isLt
    have hbit : ∀ i, i < w → a.getMsbD i = a.toNat.testBit (w - 1 - i) := fun i hi => by
      rw [BitVec.getMsbD, decide_eq_true hi, Bool.true_and]; rfl
    refine (length_takeWhile_range (by omega) ?_ fun i hi => ?_).symm
    · rw [hbit _ (by omega), show w - 1 - (w - 1 - a.toNat.log2) = a.toNat.log2 by omega, Nat.testBit_log2 h]
      rfl
    · rw [hbit _ (by omega), Nat.testBit_lt_two_pow ((Nat.log2_lt h).1 (by omega))]
      rfl

theorem oneBits_eq {w : Nat} (a : BitVec w) : oneBits w a.toNat = onesIn a := rfl

end Sys2Proof.Machine
end

section
/-! SUPPORT. The integer instructions complete (R169 to R176). -/

namespace Sys2Proof.Machine

/-! Each shape of instruction (R163 to R165). -/

section
variable {i : Instr}

/-- An instruction on A, Y and C whose exact result, cut to the width, is the table's (R169). -/
theorem alu3_completes {o : Alu3} {f : Int → Int → Int → Int} {g : (a y c : BitVec o.ty.width) → BitVec o.ty.width}
    (he : ∀ s, exec i s = run i o.h (intOp3 o f) s)
    (hg : ∀ a y c, BitVec.ofInt o.ty.width (f (valueOf o.ty.signed a) (valueOf o.ty.signed y) (valueOf o.ty.signed c)) = g a y c) :
    (alu3 o g).Completes i := by
  refine Scalar.completes _ he (fun x ws => Prod.ext ?_ rfl) fun _ _ _ _ => rfl
  simp only [alu3, result_eq, ext_eq, yOf_eq, hg]

/-- An instruction on A and Y (R169 to R172). -/
theorem alu2_completes {o : Alu2} {f : Int → Int → Int} {g : (a y : BitVec o.ty.width) → BitVec o.ty.width}
    (he : ∀ s, exec i s = run i o.h (intOp2 o f) s)
    (hg : ∀ a y, BitVec.ofInt o.ty.width (f (valueOf o.ty.signed a) (valueOf o.ty.signed y)) = g a y) :
    (alu2 o g).Completes i := by
  refine Scalar.completes _ he (fun x ws => Prod.ext ?_ rfl) fun _ _ _ _ => rfl
  simp only [alu2, result_eq, ext_eq, yOf_eq, hg]

/-- A bitwise instruction (R169). -/
theorem bitOp_completes {o : Alu2} {f : Word → Word → Word} {g : (a y : BitVec o.ty.width) → BitVec o.ty.width}
    (he : ∀ s, exec i s = run i o.h (intOp2 o (bitOp f)) s)
    (hf : ∀ x y : Word, (f x y).setWidth o.ty.width = g (x.setWidth o.ty.width) (y.setWidth o.ty.width)) :
    (alu2 o g).Completes i :=
  alu2_completes he (ofInt_bitOp (width_le o.ty) hf o.ty.signed)

/-- An instruction that is `scalarOp` once the predicates it reads beside its guard have come completes. -/
theorem Scalar.completes_known {f : Scalar} {body : Nat → State → Res State} (g : Context → List Word → Word × FpFlags)
    (he : ∀ s, exec i s = run i f.h body s)
    (hb : ∀ s, (∀ p ∈ f.preds, (s.ctx s.cur).pendP p = false) → body s.cur s = scalarOp f.srcs f.d g s.cur s)
    (hg : ∀ x ws, g x ws = f.val x ws) (hf : ∀ (x : Context) pm mm ws, g { x with pmask := pm, mbxmask := mm } ws = g x ws) :
    f.Completes i := by
  intro s hc ho hp hr
  rw [he, ← hg]
  refine ⟨fun hx => ?_, fun m k target hd hm => ?_⟩
  · obtain ⟨t, ht, hdone⟩ := scalarOp_done hr hc.real hx fun pm mm ws => hf (s.ctx s.cur) pm mm ws
    exact ⟨t, run_next hc ho ((hb s hp).trans ht), hdone⟩
  · rw [hd] at hr
    obtain ⟨t, ht, hsent⟩ := scalarOp_sent hr hm fun pm mm ws => hf (s.ctx s.cur) pm mm ws
    exact ⟨t, run_next hc ho ((hb s hp).trans (hd ▸ ht)), hsent⟩

end

/-- SEL reads both sources whichever its predicate selects (R175). -/
theorem sel_completes {o : SelOps} {f : Scalar} (h : selectForm (.sel o) = some f) : f.Completes (.sel o) := by
  cases h
  refine Scalar.completes_known (fun x ws => (result o.ty (if (x.pred o.c).getLsbD 0 then ext o.ty (arg ws 0)
    else yOf o.ty (arg ws 1) o.imm), 0)) (fun _ => rfl) (fun s hp => ?_) (fun x ws => Prod.ext ?_ rfl) fun _ _ _ _ => rfl
  · rw [selBody, hp o.c (by simp), Bool.not_false, ask_true, Res.ok_bind]
  · simp only [result_eq, ext_eq, yOf_eq, apply_ite (BitVec.ofInt o.ty.width), ofInt_valueOf]

/-- The constant above the low 43 bits of a word (R176). -/
theorem append_low43 (c : BitVec 21) (x : BitVec 43) : c ++ x = c.setWidth 64 <<< 43 ||| x.setWidth 64 := by
  refine BitVec.eq_of_toNat_eq ?_
  have hc := c.isLt
  have hx := x.isLt
  rw [BitVec.toNat_append, BitVec.toNat_or, BitVec.toNat_shiftLeft, BitVec.toNat_setWidth, BitVec.toNat_setWidth,
    Nat.mod_eq_of_lt (by omega), Nat.mod_eq_of_lt (by omega), Nat.mod_eq_of_lt (by omega)]

/-- Settles O7: each exact result, cut to the type's width, is a bit-vector operation on the operands' low bits. -/
theorem arithmeticResults : Obligations.ArithmeticResults := by
  unfold Obligations.ArithmeticResults
  refine ⟨fun i f h => ?_, fun i f h => ?_⟩
  · cases i
    case add => cases h; exact alu3_completes (fun _ => rfl) fun a y c => by simp [BitVec.ofInt_add]
    case sub => cases h; exact alu3_completes (fun _ => rfl) fun a y c => by simp [ofInt_sub]
    case mul => cases h; exact alu3_completes (fun _ => rfl) fun a y c => by simp [BitVec.ofInt_add, BitVec.ofInt_mul]
    case and => cases h; exact bitOp_completes (fun _ => rfl) fun _ _ => BitVec.setWidth_and
    case or => cases h; exact bitOp_completes (fun _ => rfl) fun _ _ => BitVec.setWidth_or
    case xor => cases h; exact bitOp_completes (fun _ => rfl) fun _ _ => BitVec.setWidth_xor
    case andn o =>
      cases h
      exact bitOp_completes (fun _ => rfl) fun _ _ => by rw [BitVec.setWidth_and, BitVec.setWidth_not (width_le o.ty)]
    all_goals exact nomatch h
  · cases i
    case mulh o => cases h; exact alu2_completes (fun _ => rfl) (ofInt_mulh o.ty.signed)
    case div o => cases h; exact alu2_completes (fun _ => rfl) (ofInt_divide o.ty)
    case rem o => cases h; exact alu2_completes (fun _ => rfl) (ofInt_remainder o.ty.signed)
    all_goals exact nomatch h

/-- Settles O8: the shifts by R171's table at the count Y mod 2^64, the choices by the order of the patterns, the counts on the
pattern of A. -/
theorem shiftAndSelectionResults : Obligations.ShiftAndSelectionResults := by
  unfold Obligations.ShiftAndSelectionResults
  refine ⟨fun i f h => ?_, fun i f h => ?_⟩
  · cases i
    case shl o => cases h; exact alu2_completes (fun _ => rfl) (ofInt_shiftLeft o.ty)
    case shr o => cases h; exact alu2_completes (fun _ => rfl) (ofInt_shiftRight o.ty)
    case sar o => cases h; exact alu2_completes (fun _ => rfl) (ofInt_shiftArith o.ty)
    case rot o => cases h; exact alu2_completes (fun _ => rfl) (ofInt_rotate o.ty)
    all_goals exact nomatch h
  · cases i
    case min o | max o =>
      cases h
      exact alu2_completes (fun _ => rfl) fun a y => by simp only [valueOf_le, apply_ite (BitVec.ofInt o.ty.width), ofInt_valueOf]
    case clz o =>
      cases h
      exact Scalar.completes _ (fun _ => rfl) (fun _ _ => Prod.ext (congrArg (BitVec.ofNat 64) (leadingZeros_eq _)) rfl)
        fun _ _ _ _ => rfl
    case popc o => cases h; exact Scalar.completes _ (fun _ => rfl) (fun _ _ => rfl) fun _ _ _ _ => rfl
    case sel o => exact sel_completes h
    case movi o => cases h; exact Scalar.completes _ (fun _ => rfl) (fun _ _ => rfl) fun _ _ _ _ => rfl
    case movhi o =>
      cases h
      exact Scalar.completes _ (fun _ => rfl) (fun _ _ => Prod.ext (append_low43 ..) rfl) fun _ _ _ _ => rfl
    all_goals exact nomatch h

end Sys2Proof.Machine
end

section
/-! SUPPORT. Floating-point, comparison and capability instructions (R174, R177 to R185, R195 to R198). -/

namespace Sys2Proof.Machine

/-- Settles O9: each instruction is `scalarOp` with the table's result, which depends on the context through ROUND alone. -/
theorem floatingPointResults : Obligations.FloatingPointResults := by
  unfold Obligations.FloatingPointResults
  intro i f h
  cases i
  case fadd | fsub | fmul | fdiv | ffma | fsqrt | fcvt =>
    cases h
    exact Scalar.completes _ (fun _ => rfl) (fun _ _ => rfl) fun _ _ _ _ => rfl
  all_goals exact nomatch h

/-- Settles O10: R174's conditions on exact integers are those on patterns; FCMP and CTEST decide what the table says. -/
theorem predicateResults : Obligations.PredicateResults := by
  unfold Obligations.PredicateResults
  intro i f h
  cases i
  case cmp o =>
    cases h
    refine Decides.completes _ (fun _ => rfl) (fun _ _ => Prod.ext ?_ rfl) fun _ _ _ _ => rfl
    simp only [ext_eq, yOf_eq, holds_valueOf]
  case fcmp | ctest => cases h; exact Decides.completes _ (fun _ => rfl) (fun _ _ => rfl) fun _ _ _ _ => rfl
  all_goals exact nomatch h

/-! Retiring with a register written, or with none, after sources were read. -/

section
variable {s u : State} {got : List (BitVec 5 × Word)} {srcs : List Src}

theorem Reading.retired_setReg (h : Reading s u got srcs) (d : BitVec 6) (r : Reg) (pc : Word) :
    Retired s (retireAt (u.modCtx s.cur fun x => x.setReg d r) s.cur pc) srcs ((s.ctx s.cur).goesOn pc) (putReg d r) := by
  refine retired_of h _ _ (s.ctx s.cur) _ ?_ fun j hj => ?_
  · conv_lhs => rw [setReg_eq, h.own]
    rw [h.own]
  · rw [setReg_reg, h.own, putReg]
    by_cases hd : j = d
    · rw [if_pos ⟨hd.symm, hj⟩, if_pos hd]
      rfl
    · rw [if_neg fun k => hd k.1.symm, if_neg hd]
      rfl

theorem retireAt_modCtx_id (u : State) (c : Nat) (pc : Word) : retireAt (u.modCtx c id) c pc = retireAt u c pc := by
  rw [retireAt, State.modCtx_modCtx]
  rfl

theorem Reading.retired_at (h : Reading s u got srcs) (pc : Word) :
    Retired s (retireAt u s.cur pc) srcs ((s.ctx s.cur).goesOn pc) putNone := by
  rw [← retireAt_modCtx_id]
  refine retired_of h id pc (s.ctx s.cur) putNone ?_ fun j _ => ?_
  · rw [id, h.own]
  · rw [id, h.own]
    rfl

end

/-! R178's checks on a capability operand, each where those before it pass. -/

section
variable {g : Reg} {r : BitVec 6} {perm : BitVec 12} {mayBeSealed : Bool}

/-- TRAPVAL, TRAPAUX of a check of an operand: its cursor, the permission needed and the register (R178). -/
def capTrap (g : Reg) (r : BitVec 6) (perm : BitVec 12) (cause : BitVec 8) : Halt :=
  .trap { cause := cause, val := g.bits.setWidth 64, aux := capAux perm r }

theorem capAuthCheck_untagged (ht : g.tag = false) : capAuthCheck g r perm mayBeSealed = .error (capTrap g r perm 0x04) := by
  simp only [capAuthCheck, ht, Bool.not_false, trapIf_true, Res.error_bind, capTrap]

theorem capAuthCheck_malformed (ht : g.tag = true) (hb : g.cap.bad = true) :
    capAuthCheck g r perm mayBeSealed = .error (capTrap g r perm 0x08) := by
  simp only [capAuthCheck, ht, hb, Bool.not_true, trapIf_false, trapIf_true, Res.ok_bind, Res.error_bind, capTrap]

theorem capAuthCheck_sealed (ht : g.tag = true) (hb : g.cap.bad = false) (hs : g.cap.styp ≠ 0) :
    capAuthCheck g r perm false = .error (capTrap g r perm 0x07) := by
  simp only [capAuthCheck, ht, hb, bne_iff_ne.2 hs, Bool.not_true, Bool.not_false, Bool.true_and, trapIf_false, trapIf_true,
    Res.ok_bind, Res.error_bind, capTrap]

theorem capAuthCheck_lacking (h : Sound g) (hp : g.cap.perm &&& perm ≠ perm) :
    capAuthCheck g r perm mayBeSealed = .error (capTrap g r perm 0x06) := by
  obtain ⟨ht, hb, hs⟩ := h
  simp only [capAuthCheck, ht, hb, hs, bne_iff_ne.2 hp, bne_self_eq_false, Bool.not_true, Bool.and_false, trapIf_false, trapIf_true,
    Res.ok_bind, Res.error_bind, capTrap]

/-- An operand that passes: tagged, well formed, with the permission, and sealed only where a sealed one may be (R178). -/
theorem capAuthCheck_passes (ht : g.tag = true) (hb : g.cap.bad = false) (hs : mayBeSealed = true ∨ g.cap.styp = 0)
    (hp : g.cap.perm &&& perm = perm) : capAuthCheck g r perm mayBeSealed = .ok g.cap := by
  have hseal : (!mayBeSealed && g.cap.styp != 0) = false := by
    rcases hs with h | h
    · rw [h]; rfl
    · rw [h, bne_self_eq_false, Bool.and_false]
  simp only [capAuthCheck, ht, hb, hseal, hp, bne_self_eq_false, Bool.not_true, trapIf_false, Res.ok_bind, Res.pure_eq]

end

/-! Instructions on one capability (R180 to R182). -/

section
variable {s : State} {o : CapImm}

/-- A capability instruction whose check fails takes the trap, and nothing else is done (R177, R178). -/
theorem capOp_traps {i : Instr} {h : Hdr} {d a : BitVec 6} {b : Src} {imm : BitVec 35} {f : Reg → Word → Res Reg} {t : Trap}
    (hc : Clear s h) (ho : On s h) (hk : Known s [a]) (hr : Ready s [b] (some (.g d))) (hs : Settled s)
    (hf : f ((s.ctx s.cur).reg a) (secondWord s b imm) = .error (.trap t)) :
    run i h (capOp d a b imm f) s = .next (takeTrap s s.cur t) := by
  obtain ⟨u, -, hsrc⟩ := sources_ready hr
  refine run_trap hc ho hs ?_
  rw [capOp, regOf_known (hk a (by simp)), Res.ok_bind, hsrc, Res.ok_bind]
  exact congrArg (· >>= _) hf

theorem csetp_traps (hc : Clear s o.h) (ho : On s o.h) (hk : Known s [o.a]) (hr : Ready s [o.b] (some (.g o.d))) (hs : Settled s)
    {cause : BitVec 8} (h : capAuthCheck ((s.ctx s.cur).reg o.a) o.a 0 false = .error (capTrap ((s.ctx s.cur).reg o.a) o.a 0 cause)) :
    Traps (.csetp o) s cause ((s.ctx s.cur).low o.a) (capAux 0 o.a) :=
  capOp_traps (i := .csetp o) hc ho hk hr hs (congrArg (· >>= _) h)

theorem ckey_traps (hc : Clear s o.h) (ho : On s o.h) (hk : Known s [o.a]) (hr : Ready s [o.b] (some (.g o.d))) (hs : Settled s)
    {cause : BitVec 8}
    (h : capAuthCheck ((s.ctx s.cur).reg o.a) o.a permSys false = .error (capTrap ((s.ctx s.cur).reg o.a) o.a permSys cause)) :
    Traps (.ckey o) s cause ((s.ctx s.cur).low o.a) (capAux permSys o.a) :=
  capOp_traps (i := .ckey o) hc ho hk hr hs (congrArg (· >>= _) h)

theorem csetp_retires (hc : Clear s o.h) (ho : On s o.h) (hk : Known s [o.a]) (hr : Ready s [o.b] (some (.g o.d)))
    (hs : Sound ((s.ctx s.cur).reg o.a)) : ∃ t, exec (.csetp o) s = .next t ∧ Retired s t [o.b] s.after (putReg o.d
      (((s.ctx s.cur).reg o.a).withPerm (((s.ctx s.cur).reg o.a).cap.perm &&& (secondWord s o.b o.imm).setWidth 12))) := by
  refine capOp_retires (i := .csetp o) hc ho hk hr ?_
  rw [capAuthCheck_sound hs, Res.ok_bind, Res.pure_eq]

theorem ckey_retires (hc : Clear s o.h) (ho : On s o.h) (hk : Known s [o.a]) (hr : Ready s [o.b] (some (.g o.d)))
    (hs : Sound ((s.ctx s.cur).reg o.a)) (hp : ((s.ctx s.cur).reg o.a).cap.perm &&& permSys = permSys) :
    ∃ t, exec (.ckey o) s = .next t ∧ Retired s t [o.b] s.after (putReg o.d
      (((s.ctx s.cur).reg o.a).withKey ((secondWord s o.b o.imm).setWidth 4))) := by
  refine capOp_retires (i := .ckey o) hc ho hk hr ?_
  rw [capAuthCheck_passes hs.1 hs.2.1 (.inr hs.2.2) hp, Res.ok_bind, Res.pure_eq]

/-- CADD adds without a check where A is untagged, and else keeps the tag while the cursor is representable (R181). -/
theorem cadd_retires (hc : Clear s o.h) (ho : On s o.h) (hk : Known s [o.a]) (hr : Ready s [o.b] (some (.g o.d)))
    (hs : Sound ((s.ctx s.cur).reg o.a) ∨ ((s.ctx s.cur).reg o.a).tag = false) :
    ∃ t, exec (.cadd o) s = .next t ∧ Retired s t [o.b] s.after (putReg o.d
      (moved ((s.ctx s.cur).reg o.a) ((s.ctx s.cur).low o.a + secondWord s o.b o.imm))) := by
  refine capOp_retires (i := .cadd o) hc ho hk hr ?_
  rcases hs with h | h
  · simp only [h.1, if_true, capAuthCheck_sound h, Res.ok_bind, Res.pure_eq, moved, true_and, representable, Bool.and_eq_true,
      decide_eq_true_eq, Reg.withAddr, Context.low]
  · simp only [h, Bool.false_eq_true, if_false, Res.pure_eq, moved, false_and, Context.low]

end

/-! Instructions under an authority (R183). -/

section
variable {s : State} {o : CapAuth} {i : Instr} {r : Reg}

/-- An instruction on two capabilities whose checks pass retires with the register its result says. -/
theorem capOp2_retires {f : Reg → Reg → Res Reg} (hc : Clear s o.h) (ho : On s o.h) (hk : Known s [o.a, o.b, o.d])
    (hf : f ((s.ctx s.cur).reg o.a) ((s.ctx s.cur).reg o.b) = .ok r) :
    ∃ t, run i o.h (capOp2 o f) s = .next t ∧ Retired s t [] s.after (putReg o.d r) := by
  have hbody : capOp2 o f s.cur s = .ok (retire (s.modCtx s.cur fun x => x.setReg o.d r) s.cur) := by
    rw [capOp2, regOf_known (hk o.a (by simp)), regOf_known (hk o.b (by simp)), hk o.d (by simp)]
    simp only [Res.ok_bind, Bool.not_false, ask_true, hf, Res.pure_eq]
  refine ⟨_, run_next hc ho hbody, ?_⟩
  have hpc : ((s.modCtx s.cur fun x => x.setReg o.d r).ctx s.cur).pc = (s.ctx s.cur).pc := by
    rw [State.modCtx_ctx_same, setReg_eq]
  rw [retire, hpc]
  exact (Reading.start s).retired_setReg o.d r _

theorem Authority.inside {g : Reg} {perm : BitVec 12} (h : Authority g perm) : g.cap.base ≤ g.cap.addr ∧ g.cap.addr < g.cap.top :=
  h.2.2

/-- An authority passes R178's checks. -/
theorem Authority.check {g : Reg} {perm : BitVec 12} (h : Authority g perm) (b : BitVec 6) :
    capAuthCheck g b perm false = .ok g.cap := by
  obtain ⟨⟨ht, hb, hs⟩, hp, -⟩ := h
  exact capAuthCheck_passes ht hb (.inr hs) hp

theorem cseal_retires (hc : Clear s o.h) (ho : On s o.h) (hk : Known s [o.a, o.b, o.d]) (hs : Sound ((s.ctx s.cur).reg o.a))
    (ha : Authority ((s.ctx s.cur).reg o.b) permSeal) (hlo : 1 ≤ ((s.ctx s.cur).reg o.b).cap.addr)
    (hhi : ((s.ctx s.cur).reg o.b).cap.addr ≤ 15) : ∃ t, exec (.cseal o) s = .next t ∧ Retired s t [] s.after (putReg o.d
      (((s.ctx s.cur).reg o.a).withSeal (BitVec.ofNat 4 ((s.ctx s.cur).reg o.b).cap.addr))) := by
  refine capOp2_retires (i := .cseal o) hc ho hk ?_
  simp only [capAuthCheck_sound hs, ha.check, ha.inside, hlo, hhi, and_self, decide_true, Bool.not_true, trapIf_false, Res.ok_bind,
    Res.pure_eq]

theorem cunseal_retires (hc : Clear s o.h) (ho : On s o.h) (hk : Known s [o.a, o.b, o.d])
    (ht : ((s.ctx s.cur).reg o.a).tag = true) (hb : ((s.ctx s.cur).reg o.a).cap.bad = false)
    (ha : Authority ((s.ctx s.cur).reg o.b) permUnseal) (hn : ((s.ctx s.cur).reg o.a).cap.styp ≠ 0)
    (he : ((s.ctx s.cur).reg o.a).cap.styp.toNat = ((s.ctx s.cur).reg o.b).cap.addr) :
    ∃ t, exec (.cunseal o) s = .next t ∧ Retired s t [] s.after (putReg o.d (((s.ctx s.cur).reg o.a).withSeal 0)) := by
  have hnone : ((s.ctx s.cur).reg o.a).cap.perm &&& 0 = 0 := BitVec.and_zero
  refine capOp2_retires (i := .cunseal o) hc ho hk ?_
  simp only [capAuthCheck_passes ht hb (.inl rfl) hnone, ha.check, ha.inside, he, beq_eq_false_iff_ne.2 hn,
    bne_self_eq_false, Bool.or_self, and_self, decide_true, Bool.not_true, trapIf_false, Res.ok_bind, Res.pure_eq]

end

/-- Settles O11: each instruction's checks pass under its hypotheses, and its register is written as it retires. -/
theorem capabilityResults : Obligations.CapabilityResults := by
  unfold Obligations.CapabilityResults
  refine ⟨fun o s hc ho hk hr => ⟨csetp_retires hc ho hk hr, ckey_retires hc ho hk hr, cadd_retires hc ho hk hr⟩,
    fun o s hc ho hk => ⟨cseal_retires hc ho hk, cunseal_retires hc ho hk⟩, fun o => ?_⟩
  exact Scalar.completes _ (fun _ => rfl) (fun _ _ => rfl) fun _ _ _ _ => rfl

/-- Settles O13: the first of R178's checks that fails ends the instruction with its trap. -/
theorem capabilityChecksInOrder : Obligations.CapabilityChecksInOrder := by
  unfold Obligations.CapabilityChecksInOrder
  intro o s hc ho hk hr hs g trap
  have csetp {cause} := csetp_traps (cause := cause) hc ho hk hr hs
  have ckey {cause} := ckey_traps (cause := cause) hc ho hk hr hs
  refine ⟨fun ht => ⟨csetp (capAuthCheck_untagged ht), ckey (capAuthCheck_untagged ht)⟩,
    fun ht hb => ⟨csetp (capAuthCheck_malformed ht hb), ckey (capAuthCheck_malformed ht hb)⟩,
    fun ht hb hn => ⟨csetp (capAuthCheck_sealed ht hb hn), ckey (capAuthCheck_sealed ht hb hn)⟩,
    fun hg hp => ckey (capAuthCheck_lacking hg ?_)⟩
  intro hperm
  have hbit : (g.cap.perm &&& permSys).getLsbD 10 = true := by rw [hperm]; rfl
  rw [BitVec.getLsbD_and, hp] at hbit
  exact nomatch hbit

end Sys2Proof.Machine
end

section
/-! SUPPORT. Control transfers (R186 to R189). -/

namespace Sys2Proof.Machine

/-- A displacement counts units of four bytes (R39). -/
theorem branchTo_eq (pc : Word) {n : Nat} (disp : BitVec n) : branchTo pc disp = pc + 4 * disp.signExtend 64 := by
  rw [branchTo, BitVec.shiftLeft_eq_mul_twoPow, BitVec.mul_comm]
  rfl

section
variable {s : State}

theorem br_retires {o : ImmOps} (hc : Clear s o.h) (ho : On s o.h) : ∃ t, exec (.br o) s = .next t ∧
    Retired s t [] ((s.ctx s.cur).goesOn ((s.ctx s.cur).pc + 4 * o.imm.signExtend 64)) putNone :=
  ⟨_, run_next (i := .br o) hc ho rfl, branchTo_eq (s.ctx s.cur).pc o.imm ▸ (Reading.start s).retired_at _⟩

/-- A branch whose sources are there goes one way or the other once it has read them (R187). -/
theorem brc_retires {o : BrcOps} (hc : Clear s o.h) (ho : On s o.h) (hr : Ready s [o.a, o.b] none) :
    ∃ t, exec (.brc o) s = .next t ∧ Retired s t [o.a, o.b] ((s.ctx s.cur).goesOn (if condHolds o.cond o.ty.signed
        (lowBits o.ty (srcWord s [] o.a)) (lowBits o.ty (srcWord s [o.a] o.b))
      then (s.ctx s.cur).pc + 4 * o.disp.signExtend 64 else (s.ctx s.cur).pc + 12)) putNone := by
  obtain ⟨u, ⟨got, hread⟩, hsrc⟩ := sources_ready hr
  have hknown : guesses s s.cur o = false := by rw [guesses, hr.known, Bool.false_and, Bool.false_and]
  have hpc : (u.ctx s.cur).pc = (s.ctx s.cur).pc := by rw [hread.own]
  refine ⟨_, run_next (i := .brc o) (body := brcBody o) hc ho ?_, hread.retired_at _⟩
  rw [brcBody, hknown, if_neg Bool.false_ne_true, hsrc, Res.ok_bind]
  simp only [ext_eq, holds_valueOf, retire, hpc, branchTo_eq, srcWords, List.nil_append, Res.pure_eq]
  rw [apply_ite (retireAt u s.cur), apply_ite Except.ok]
  rfl

/-- What links and jumps writes the return address and goes to its target (R187, R188). -/
theorem linkAndJump_retires {d : BitVec 6} (hd : (s.ctx s.cur).pendG d = false) (target : Word) :
    ∃ t, linkAndJump d target s.cur s = .ok t ∧
      Retired s t [] ((s.ctx s.cur).goesOn target) (putReg d (Reg.ofWord ((s.ctx s.cur).pc + 12))) := by
  refine ⟨_, ?_, (Reading.start s).retired_setReg d _ target⟩
  rw [linkAndJump, hd, Bool.not_false, ask_true, Res.ok_bind]
  rfl

theorem call_retires {o : CallOps} (hc : Clear s o.h) (ho : On s o.h) (hk : Known s [o.d]) : ∃ t, exec (.call o) s = .next t ∧
    Retired s t [] ((s.ctx s.cur).goesOn ((s.ctx s.cur).pc + 4 * o.disp.signExtend 64))
      (putReg o.d (Reg.ofWord ((s.ctx s.cur).pc + 12))) := by
  obtain ⟨t, ht, hret⟩ := linkAndJump_retires (hk o.d (by simp)) (branchTo (s.ctx s.cur).pc o.disp)
  exact ⟨t, run_next (i := .call o) hc ho ht, branchTo_eq (s.ctx s.cur).pc o.disp ▸ hret⟩

theorem ret_retires {o : OneG} (hc : Clear s o.h) (ho : On s o.h) (hk : Known s [o.a]) : ∃ t, exec (.ret o) s = .next t ∧
    Retired s t [] ((s.ctx s.cur).goesOn ((s.ctx s.cur).low o.a)) putNone := by
  refine ⟨_, run_next (i := .ret o) hc ho ?_, (Reading.start s).retired_at _⟩
  rw [regOf_known (hk o.a (by simp)), Res.ok_bind]
  rfl

theorem jmpi_retires {o : JmpiOps} (hc : Clear s o.h) (ho : On s o.h) (hk : Known s [o.a, o.d]) :
    ∃ t, exec (.jmpi o) s = .next t ∧ Retired s t [] ((s.ctx s.cur).goesOn ((s.ctx s.cur).low o.a))
      (putReg o.d (Reg.ofWord ((s.ctx s.cur).pc + 12))) := by
  obtain ⟨t, ht, hret⟩ := linkAndJump_retires (hk o.d (by simp)) ((s.ctx s.cur).low o.a)
  refine ⟨t, run_next (i := .jmpi o) hc ho ?_, hret⟩
  rw [regOf_known (hk o.a (by simp)), Res.ok_bind]
  exact ht

/-- The count that a LOOP leaves is zero where it was 0 or 1 (R189). -/
theorem loop_count_zero (n : Word) : (if n = 0 then (0 : Word) else n - 1) = 0 ↔ ¬ 1 < n.toNat := by
  split
  next h => simp [h]
  next h => bv_omega

/-- LOOP counts down, and branches while the count it leaves is not zero (R189). -/
theorem loop_retires {o : LoopOps} (hc : Clear s o.h) (ho : On s o.h) (hk : Known s [o.a, o.d]) :
    ∃ t, exec (.loop o) s = .next t ∧ Retired s t [] ((s.ctx s.cur).goesOn (if 1 < ((s.ctx s.cur).low o.a).toNat
        then (s.ctx s.cur).pc + 4 * o.disp.signExtend 64 else (s.ctx s.cur).pc + 12))
      (putReg o.d (Reg.ofWord (if (s.ctx s.cur).low o.a = 0 then 0 else (s.ctx s.cur).low o.a - 1))) := by
  refine ⟨_, run_next (i := .loop o) (body := loopBody o) hc ho ?_, (Reading.start s).retired_setReg o.d _ _⟩
  rw [loopBody, regOf_known (hk o.a (by simp)), Res.ok_bind, hk o.d (by simp), Bool.not_false, ask_true, Res.ok_bind]
  simp only [loop_count_zero, branchTo_eq, Res.pure_eq, ite_not]
  rfl

end

/-- Settles O14: each transfer reads what it needs, writes its link or count and retires at its target. -/
theorem controlTransfers : Obligations.ControlTransfers := by
  unfold Obligations.ControlTransfers
  exact ⟨fun _ _ => br_retires, fun _ _ => brc_retires, fun _ _ => call_retires, fun _ _ => ret_retires, fun _ _ => jmpi_retires,
    fun _ _ => loop_retires⟩

end Sys2Proof.Machine
end

section
/-! SUPPORT. DONE (R191, R256, R264): the order in which a report's commands, word and release come, and the fold into the
member. -/

namespace Sys2Proof.Machine

/-! The order of R191. -/

section
variable {s : State} {a : Src} {fin : Word → State → Res State}

theorem afterCommands_waits (h : ¬ EnginesDone s) : afterCommands [a] s.cur s fin = .error (.block .engine) := by
  have hdone : allDone s (tlOwner s s.cur) = false := by
    rw [Bool.eq_false_iff]
    exact mt (allDone_iff s).1 h
  rw [afterCommands, hdone, ask_false, Res.error_bind]

/-- The word of a queue, port or mailbox is taken in a turn of its own (R45). -/
theorem afterCommands_pulls (hl : Lone s) (hdone : EnginesDone s) (hh : (s.ctx s.cur).held = none) (hb : blocking [a] none = true)
    (hr : Ready s [a] none) : ∃ u, Kept s u [a] ∧ afterCommands [a] s.cur s fin = .ok u := by
  have hhas : Has s [a] none := ⟨hl, .inr hr, fun _ => rfl, .inl fun l hl => by rw [hh] at hl; cases hl⟩
  obtain ⟨u, hu, hkept, -⟩ := hhas.words_used
  have htaken : (u.ctx s.cur).held.isSome = true := by rw [hkept.held, hb, Bool.or_true]
  refine ⟨u, hkept, ?_⟩
  simp only [afterCommands, (allDone_iff s).2 hdone, ask_true, Res.ok_bind, hu, hh, Option.isNone_none, htaken, Bool.and_self, if_true,
    Res.pure_eq]

theorem afterCommands_goes_on (h : Reporting s a) : afterCommands [a] s.cur s fin = fin (arg (s.words [a]) 0) s := by
  obtain ⟨u, hu, -, -, -, hsame⟩ := h.has.words_used
  rw [hsame h.whole] at hu
  have hnot : ((s.ctx s.cur).held.isNone && (s.ctx s.cur).held.isSome) = false := by
    cases (s.ctx s.cur).held <;> rfl
  simp only [afterCommands, (allDone_iff s).2 h.done, ask_true, Res.ok_bind, hu, hnot, Bool.false_eq_true, if_false,
    leaveNow_lone h.lone h.older]

/-- A report's word is used (R45, R191). -/
theorem Reporting.uses (h : Reporting s a) : useWords s s.cur [a] = .ok (s.used [a] none) ∧ Used s (s.used [a] none) [a] := by
  obtain ⟨u, -, -, huse, hused, hsame⟩ := h.has.words_used
  rw [hsame h.whole] at huse
  exact ⟨huse, hused⟩

end

/-! What DONE does (R264). -/

section
variable {s : State} {o : OneSrc}

theorem done_goes_on (hc : Clear s o.h) (ho : On s o.h)
    (h : ∀ k, (s.ctx s.cur).task = some k → k.member = none ∨ k.doneSent = true) :
    ∃ t, exec (.done o) s = .next t ∧ Retired s t [] s.after putNone := by
  refine ⟨_, run_next (i := .done o) hc ho ?_, retired_after s⟩
  rw [doneBody]
  cases htask : (s.ctx s.cur).task with
  | none => rfl
  | some k =>
    have hnot : (k.member.isSome && !k.doneSent) = false := by
      rcases h k htask with hm | hd
      · rw [hm]; rfl
      · rw [hd, Bool.not_true, Bool.and_false]
    simp only [hnot, Bool.false_eq_true, if_false, Res.pure_eq]

/-- What a report does with its word, its commands and its release over (R256, R264). -/
def report (o : OneSrc) (s : State) (k : Task) (w : Word) (t : State) : Res State := do
  let u ← useWords t s.cur [o.a]
  let v := traceEvent (countSent u s.cur) (partNo k.ident) 3 1 (coreWord u k.ident (coreOf s.cur)).toNat k.gti w
  let v := v.modCtx s.cur fun x => { x with task := x.task.map fun t => { t with member := none, doneSent := true } }
  pure (retire (foldMember (replied v s.cur) k.member w) s.cur)

/-- A member's task that has not reported does so in the order of R191. -/
theorem doneBody_member {k : Task} {m : Nat × Nat} (htask : (s.ctx s.cur).task = some k) (hm : k.member = some m)
    (hd : k.doneSent = false) : doneBody o s.cur s = afterCommands [o.a] s.cur s (report o s k) := by
  have hyes : (k.member.isSome && !k.doneSent) = true := by rw [hm, hd]; rfl
  rw [doneBody, htask]
  simp only [hyes, if_true]
  rfl

theorem report_folds {k : Task} {m : Nat × Nat} {w : Word} (hm : k.member = some m) (h : Reporting s o.a) :
    report o s k w s = .ok (retire (foldMember (replied ((traceEvent (s.asked [o.a] none) (partNo k.ident) 3 1
      (coreWord s k.ident (coreOf s.cur)).toNat k.gti w).modCtx s.cur fun x =>
        { x with task := x.task.map fun t => { t with member := none, doneSent := true } }) s.cur) (some m) w) s.cur) := by
  have hwhole := h.uses.2.whole
  have hword : coreWord (s.used [o.a] none) k.ident (coreOf s.cur) = coreWord s k.ident (coreOf s.cur) :=
    coreWord_congr (by rw [hwhole]) (fun e => by rw [hwhole]; rfl) _ _
  have hcur : (s.used [o.a] none).cur = s.cur := h.uses.2.cur
  rw [report, h.uses.1, Res.ok_bind, hword, hm, Res.pure_eq, State.asked, State.counted, hcur]

end

/-! The member (R256). -/

section
variable {s : State} {j r : Nat} {q : Job}

/-- The member of a job after a report of a task of it. -/
def Member.folded (m : Member) (w : Word) : Member := { m with word := combine m.word w, live := m.live - 1 }

theorem modMember_eq (hq : s.job j = some q) (f : Member → Member) :
    modMember s j r f = s.setJob j (some { q with members := Sparse.set q.members r (f (Sparse.get {} q.members r)) }) := by
  rw [modMember, hq]

/-- A member with a task left waits for it. -/
theorem settleMember_live (hq : s.job j = some q) (hl : (Sparse.get {} q.members r : Member).live ≠ 0) : settleMember s j r = s := by
  simp only [settleMember, hq, hl, ne_eq, not_false_eq_true, true_or, or_true, if_true]

/-- A member over, with its actors retired and its children heard, that has a parent sends it its word. -/
theorem settleMember_sends {p : Nat} (hq : s.job j = some q) (hl : (Sparse.get {} q.members r : Member).live = 0)
    (hs : (Sparse.get {} q.members r : Member).sent = false) (hp : (Sparse.get {} q.members r : Member).parent = some p)
    (hc : ∀ c ∈ (Sparse.get {} q.members r : Member).children, c ∈ (Sparse.get {} q.members r : Member).heard)
    (ha : ∀ e ∈ s.actors, ∀ a, e.2 = some a → a.retired = true ∨ a.task.member.map (·.1) ≠ some j) :
    (settleMember s j r).net = s.net ++ [(s.next, .done j r (Sparse.get {} q.members r : Member).word)] := by
  unfold settleMember
  rw [hq]
  dsimp only
  rw [if_neg ?ready, hp, modMember_eq hq]
  case ready =>
    rintro (h | h | h | h)
    · exact nomatch hs.symm.trans h
    · exact h hl
    · rw [Bool.not_eq_true', List.all_eq_false] at h
      obtain ⟨⟨n, _ | a⟩, he, hbusy⟩ := h
      · exact hbusy rfl
      · rcases ha _ he a rfl with hr | hj
        · simp [hr] at hbusy
        · simp [hj] at hbusy
    · rw [Bool.not_eq_true', List.all_eq_false] at h
      obtain ⟨c, hm, hnot⟩ := h
      exact hnot (List.contains_iff_mem.2 (hc c hm))
  rfl

/-- A report folds into its member; a member that is then over sends its word (R256). -/
theorem foldMember_folds (hq : s.job j = some q) (w : Word) :
    let m : Member := Sparse.get {} q.members r
    let u := s.setJob j (some { q with members := Sparse.set q.members r (m.folded w) })
    foldMember s (some (j, r)) w = settleMember u j r ∧
    (∀ p, m.live = 1 → m.sent = false → m.parent = some p → (∀ c ∈ m.children, c ∈ m.heard) →
      (∀ e ∈ s.actors, ∀ a, e.2 = some a → a.retired = true ∨ a.task.member.map (·.1) ≠ some j) →
      (settleMember u j r).net = s.net ++ [(s.next, .done j r (m.folded w).word)]) ∧
    (1 < m.live → settleMember u j r = u) := by
  intro m u
  have hjob : u.job j = some { q with members := Sparse.set q.members r (m.folded w) } := State.setJob_job_same ..
  have hget : (Sparse.get {} (Sparse.set q.members r (m.folded w)) r : Member) = m.folded w := Sparse.get_set_same ..
  refine ⟨congrArg (settleMember · j r) (modMember_eq hq _), fun p hl hs hp hc ha => ?_, fun hl => settleMember_live hjob ?_⟩
  · have hsend := settleMember_sends (r := r) (p := p) hjob
    dsimp only at hsend
    rw [hget] at hsend
    exact hsend (Nat.sub_eq_zero_of_le hl.le) hs hp hc ha
  · dsimp only
    rw [hget]
    exact Nat.sub_ne_zero_of_lt hl

end

/-! The combination of two status words (R256): its value, and each of its fields. -/

theorem combine_toNat (a b : Word) : (combine a b).toNat =
    min (a.toNat / 2 ^ 32 + b.toNat / 2 ^ 32) (2 ^ 32 - 1) * 2 ^ 32
      + max (a.toNat / 2 ^ 16 % 2 ^ 16) (b.toNat / 2 ^ 16 % 2 ^ 16) * 2 ^ 16 + (a ||| b).toNat % 2 ^ 16 := by
  rw [combine, BitVec.toNat_ofNat, Nat.mod_eq_of_lt]
  omega

theorem combine_fields (a b : Word) :
    (combine a b).toNat / 2 ^ 32 = min (a.toNat / 2 ^ 32 + b.toNat / 2 ^ 32) (2 ^ 32 - 1) ∧
    (combine a b).toNat / 2 ^ 16 % 2 ^ 16 = max (a.toNat / 2 ^ 16 % 2 ^ 16) (b.toNat / 2 ^ 16 % 2 ^ 16) ∧
    (combine a b).setWidth 16 = a.setWidth 16 ||| b.setWidth 16 := by
  have hval := combine_toNat a b
  refine ⟨by omega, by omega, ?_⟩
  rw [← BitVec.setWidth_or]
  refine BitVec.eq_of_toNat_eq ?_
  rw [BitVec.toNat_setWidth, BitVec.toNat_setWidth]
  omega

/-- Settles O33: a report in the order of R191, folded into its member, whose word is combined field by field. -/
theorem doneReports : Obligations.DoneReports := by
  unfold Obligations.DoneReports
  refine ⟨fun o s hc ho h => done_goes_on hc ho h, ?_, fun s j r w q hq => foldMember_folds hq w, combine_fields⟩
  intro o s k m hc ho hl htask hm hd
  have hbody := doneBody_member (o := o) htask hm hd
  refine ⟨fun hn => run_block (i := .done o) hc ho (hbody.trans (afterCommands_waits hn)), fun he hh hb hr => ?_, fun h => ?_⟩
  · obtain ⟨u, hkept, hu⟩ := afterCommands_pulls (fin := report o s k) hl he hh hb hr
    exact ⟨u, hkept, run_next (i := .done o) hc ho (hbody.trans hu)⟩
  · exact ⟨h.uses.2, run_next (i := .done o) hc ho (hbody.trans ((afterCommands_goes_on h).trans (report_folds hm h)))⟩

end Sys2Proof.Machine
end

section
/-! SUPPORT. Bank modes (R218): bytes zeroed where they stand, and what a cluster's banks and its scratch space hold once its
modes are set. -/

namespace Sys2Proof.Machine

/-! Bytes zeroed. -/

theorem Memory.read_not_mem {m : List Host.Cell} {a : Nat} (h : ∀ c ∈ m, c.1 ≠ a) : Memory.read m a = 0 := by
  induction m with
  | nil => rfl
  | cons c r ih =>
    obtain ⟨hc, hr⟩ := List.forall_mem_cons.1 h
    exact (if_neg hc).trans (ih hr)

theorem find?_zeros (l : List Nat) (x : Nat) :
    (l.map fun k => (k, (0 : Byte))).find? (fun c => c.1 == x) = if x ∈ l then some (x, 0) else none := by
  induction l with
  | nil => rfl
  | cons k l ih =>
    rw [List.map_cons, List.find?_cons, ih]
    by_cases hk : k = x
    · simp [hk]
    · simp [beq_false_of_ne hk, Ne.symm hk]

/-- Zeroing a range changes no byte outside it, and every byte inside reads zero, listed before or not (R218). -/
theorem byteAt_zeroRange (s : State) (a n x : Nat) :
    byteAt (zeroRange s a n) x = if a ≤ x ∧ x < a + n then 0 else byteAt s x := by
  have hlive : x ∈ ((s.writes ++ s.mem).filter fun c => decide (a ≤ c.1) && decide (c.1 < a + n)).map (·.1) ↔
      (a ≤ x ∧ x < a + n) ∧ ∃ c ∈ s.writes ++ s.mem, c.1 = x := by
    simp only [List.mem_map, List.mem_filter, Bool.and_eq_true, decide_eq_true_eq]
    exact ⟨fun ⟨c, ⟨hc, hr⟩, hx⟩ => ⟨hx ▸ hr, c, hc, hx⟩, fun ⟨hr, c, hc, hx⟩ => ⟨c, ⟨hc, hx ▸ hr⟩, hx⟩⟩
  unfold byteAt zeroRange
  dsimp only
  rw [List.find?_append, find?_zeros]
  by_cases hr : a ≤ x ∧ x < a + n
  · rw [if_pos hr]
    by_cases hc : ∃ c ∈ s.writes ++ s.mem, c.1 = x
    · rw [if_pos (hlive.2 ⟨hr, hc⟩)]
      rfl
    · rw [if_neg fun h => hc (hlive.1 h).2]
      have hnone : ∀ c ∈ s.writes ++ s.mem, c.1 ≠ x := fun c hm hx => hc ⟨c, hm, hx⟩
      have hw : s.writes.find? (fun c => c.1 == x) = none :=
        List.find?_eq_none.2 fun c hm => by simp [hnone c (List.mem_append_left _ hm)]
      rw [hw]
      exact Memory.read_not_mem fun c hm => hnone c (List.mem_append_right _ hm)
  · rw [if_neg hr, if_neg fun h => hr (hlive.1 h).1]
    rfl

/-- Banks of a cluster zeroed in turn. -/
theorem byteAt_zeroBanks (p : Nat → Prop) [DecidablePred p] (base x : Nat) : ∀ (l : List Nat) (s : State),
    byteAt (l.foldl (fun s b => if p b then zeroRange s (base + b * 65536) 65536 else s) s) x =
      if ∃ b ∈ l, p b ∧ base + b * 65536 ≤ x ∧ x < base + b * 65536 + 65536 then 0 else byteAt s x
  | [], s => by simp
  | b :: l, s => by
    rw [List.foldl_cons, byteAt_zeroBanks p base x l]
    by_cases hb : p b ∧ base + b * 65536 ≤ x ∧ x < base + b * 65536 + 65536
    · rw [if_pos hb.1, byteAt_zeroRange, if_pos hb.2, ite_self, if_pos ⟨b, List.mem_cons_self, hb⟩]
    · have hx : byteAt (if p b then zeroRange s (base + b * 65536) 65536 else s) x = byteAt s x := by
        split
        · next hp => rw [byteAt_zeroRange, if_neg fun h => hb ⟨hp, h⟩]
        · rfl
      rw [hx]
      refine if_congr ?_ rfl rfl
      rw [List.exists_mem_cons_iff, or_iff_right hb]

/-! A cluster's modes set. -/

/-- The model's address of a cluster's first scratch bank (R272). -/
def scratchBase (cl : Nat) : Nat := 2 ^ 52 + cl / 64 * 2 ^ 25 + cl % 64 * 2 ^ 21

/-- A cluster's scratch space with what R218 zeroes of it zeroed, its modes as they were. -/
def modesZeroed (s : State) (cl : Nat) (f : Nat → BankMode) : State :=
  if scratchCount (bankMode s cl) = scratchCount f then
    (List.range 32).foldl (fun s' b => if f b = .scratch ∧ bankMode s cl b ≠ .scratch then
      zeroRange s' (scratchBase cl + b * 65536) 65536 else s') s
  else zeroScratch s cl

/-- A cluster's banks take modes in place of old ones, with what their L1 and their FIFOs keep (R218). -/
def takeModes (s : State) (cl : Nat) (old f : Nat → BankMode) : State :=
  if (List.range 32).all fun b => old b == f b then s
  else
    let ways := ((List.range 32).filter fun b => f b == .cache && old b == .cache).length
    let t := { s with l1 := s.l1.map fun (e : Nat × List L1Line) => if e.1 / 512 = cl then (e.1, e.2.take ways) else e }
    t.modClu cl fun k => { k with
      modes := (List.range 32).filterMap fun b => if f b = .cache then none else some (b, f b)
      fifo := k.fifo.filter fun e => f e.1 == .fifo && old e.1 == .fifo }

theorem setModes_eq (s : State) (cl : Nat) (f : Nat → BankMode) :
    setModes s cl f = takeModes (modesZeroed s cl f) cl (bankMode s cl) f := rfl

/-- Two states that differ in bytes, tags and seals at most. -/
def BytesOnly (s t : State) : Prop := t = { s with writes := t.writes, ctags := t.ctags, seals := t.seals }

theorem BytesOnly.trans {s t u : State} (h : BytesOnly s t) (g : BytesOnly t u) : BytesOnly s u := by
  unfold BytesOnly at *
  rw [g, h]

theorem zeroRange_only (s : State) (a n : Nat) : BytesOnly s (zeroRange s a n) := rfl

theorem zeroBanks_only (p : Nat → Prop) [DecidablePred p] (base : Nat) : ∀ (l : List Nat) (s : State),
    BytesOnly s (l.foldl (fun s b => if p b then zeroRange s (base + b * 65536) 65536 else s) s)
  | [], _ => rfl
  | b :: l, s => by
    rw [List.foldl_cons]
    refine BytesOnly.trans ?_ (zeroBanks_only p base l _)
    split
    · exact zeroRange_only ..
    · rfl

section
variable (s : State) (cl : Nat) (f : Nat → BankMode)

theorem modesZeroed_only : BytesOnly s (modesZeroed s cl f) := by
  unfold modesZeroed
  split
  · exact zeroBanks_only (fun b => f b = .scratch ∧ bankMode s cl b ≠ .scratch) (scratchBase cl) _ s
  · exact zeroRange_only ..

/-- A byte outside the cluster's scratch space reads as before. -/
theorem byteAt_modesZeroed_outside {x : Nat} (h : x < scratchBase cl ∨ scratchBase cl + 2 ^ 21 ≤ x) :
    byteAt (modesZeroed s cl f) x = byteAt s x := by
  unfold modesZeroed
  split
  · refine (byteAt_zeroBanks (fun b => f b = .scratch ∧ bankMode s cl b ≠ .scratch) (scratchBase cl) x _ s).trans (if_neg ?_)
    rintro ⟨b, hb, -, hx⟩
    have := List.mem_range.1 hb
    omega
  · exact (byteAt_zeroRange ..).trans (if_neg (show ¬ (scratchBase cl ≤ x ∧ x < scratchBase cl + 2 ^ 21) by omega))

/-- Where the number of scratch banks changes, the whole scratch space reads zero (R218). -/
theorem byteAt_modesZeroed_all (hn : scratchCount (bankMode s cl) ≠ scratchCount f) {o : Nat} (ho : o < 2 ^ 21) :
    byteAt (modesZeroed s cl f) (scratchBase cl + o) = 0 := by
  rw [modesZeroed, if_neg hn]
  exact (byteAt_zeroRange ..).trans (if_pos (show scratchBase cl ≤ scratchBase cl + o ∧
    scratchBase cl + o < scratchBase cl + 2 ^ 21 by omega))

/-- A bank that enters scratch mode reads zero (R218). -/
theorem byteAt_modesZeroed_entered {b j : Nat} (hb : b < 32) (hj : j < 65536) (hf : f b = .scratch)
    (ho : bankMode s cl b ≠ .scratch) : byteAt (modesZeroed s cl f) (scratchBase cl + b * 65536 + j) = 0 := by
  by_cases hn : scratchCount (bankMode s cl) = scratchCount f
  · rw [modesZeroed, if_pos hn]
    exact (byteAt_zeroBanks (fun b => f b = .scratch ∧ bankMode s cl b ≠ .scratch) (scratchBase cl) _ _ s).trans
      (if_pos ⟨b, List.mem_range.2 hb, ⟨hf, ho⟩, by omega⟩)
  · rw [Nat.add_assoc]
    exact byteAt_modesZeroed_all s cl f hn (by omega)

theorem takeModes_whole (old : Nat → BankMode) :
    takeModes s cl old f = { s with l1 := (takeModes s cl old f).l1, clus := (takeModes s cl old f).clus } := by
  unfold takeModes
  split <;> rfl

theorem takeModes_clu_ne (old : Nat → BankMode) {k : Nat} (h : k ≠ cl) : (takeModes s cl old f).clu k = s.clu k := by
  unfold takeModes
  split
  · rfl
  · exact State.modClu_clu_ne _ _ _ _ (Ne.symm h)

/-- The list of the modes that are not cache, read back. -/
theorem get_modes (l : List Nat) (b : Nat) :
    Sparse.get .cache (l.filterMap fun b => if f b = .cache then none else some (b, f b)) b = if b ∈ l then f b else .cache := by
  induction l with
  | nil => rfl
  | cons a l ih =>
    by_cases hb : b = a
    · subst hb
      by_cases ha : f b = .cache
      · simp only [List.filterMap_cons, ha, if_true, ih, ite_self]
      · simp only [List.filterMap_cons, ha, if_false, Sparse.get, if_true, List.mem_cons_self]
    · rw [if_congr (List.mem_cons.trans (or_iff_right hb)) rfl rfl, ← ih]
      by_cases ha : f a = .cache
      · simp only [List.filterMap_cons, ha, if_true]
      · simp only [List.filterMap_cons, ha, if_false, Sparse.get, if_neg (Ne.symm hb)]

theorem bankMode_takeModes {b : Nat} (hb : b < 32) : bankMode (takeModes s cl (bankMode s cl) f) cl b = f b := by
  have hmem := List.mem_range.2 hb
  unfold takeModes
  split
  next hsame => exact eq_of_beq (List.all_eq_true.1 hsame b hmem)
  next =>
    rw [bankMode, State.modClu_clu_same]
    exact (get_modes f _ b).trans (if_pos hmem)

theorem bankMode_modesZeroed (k : Nat) : bankMode (modesZeroed s cl f) k = bankMode s k := by
  rw [modesZeroed_only s cl f]
  rfl

/-- Each bank of the cluster has the mode it is given. -/
theorem bankMode_setModes {b : Nat} (hb : b < 32) : bankMode (setModes s cl f) cl b = f b := by
  rw [setModes_eq, ← bankMode_modesZeroed s cl f]
  exact bankMode_takeModes _ cl f hb

theorem bankMode_setModes_ne {k : Nat} (h : k ≠ cl) (b : Nat) : bankMode (setModes s cl f) k b = bankMode s k b := by
  rw [← bankMode_modesZeroed s cl f, setModes_eq, bankMode, takeModes_clu_ne _ cl f _ h, bankMode]

theorem byteAt_setModes (x : Nat) : byteAt (setModes s cl f) x = byteAt (modesZeroed s cl f) x := by
  rw [setModes_eq, takeModes_whole]
  rfl

/-- Of all the rest of the state only bytes, tags, seals, one L1 and one cluster's entry change. -/
theorem setModes_whole : setModes s cl f = { s with
    writes := (setModes s cl f).writes, ctags := (setModes s cl f).ctags, seals := (setModes s cl f).seals
    l1 := (setModes s cl f).l1, clus := (setModes s cl f).clus } := by
  have hzero := modesZeroed_only s cl f
  have htake := takeModes_whole (modesZeroed s cl f) cl f (bankMode s cl)
  rw [setModes_eq]
  generalize takeModes (modesZeroed s cl f) cl (bankMode s cl) f = t at htake
  generalize modesZeroed s cl f = z at hzero htake
  obtain ⟨W, C, S, rfl⟩ : ∃ W C S, z = { s with writes := W, ctags := C, seals := S } := ⟨_, _, _, hzero⟩
  obtain ⟨L, K, rfl⟩ : ∃ L K, t = { s with writes := W, ctags := C, seals := S, l1 := L, clus := K } := ⟨_, _, htake⟩
  rfl

end

/-- Settles O29: what is zeroed, then the modes of the one cluster. -/
theorem modesAreSet : Obligations.ModesAreSet := by
  unfold Obligations.ModesAreSet
  intro s cl f _
  refine ⟨fun b => bankMode_setModes s cl f, fun k b hk => bankMode_setModes_ne s cl f hk b,
    fun a ha => (byteAt_setModes ..).trans (byteAt_modesZeroed_outside s cl f ha),
    fun b o hb ho hf hold => (byteAt_setModes ..).trans (byteAt_modesZeroed_entered s cl f hb ho hf hold),
    fun hn o ho => (byteAt_setModes ..).trans (byteAt_modesZeroed_all s cl f hn ho), ?_⟩
  rw [setModes_whole]
  exact ⟨rfl, rfl, rfl, rfl⟩

end Sys2Proof.Machine
end

section
/-! SUPPORT. BANKCFG (R218): its checks in order, and what becomes of banks that are named, clean or with accesses pending. -/

namespace Sys2Proof.Machine

/-- The number of scratch banks a mode map gives is one R218 allows. -/
def BankFits (f : Nat → BankMode) : Prop := scratchCount f ∈ [0, 4, 8, 16, 32]

/-- A bank of a mask is a live actor's FIFO and would not stay one (R218). -/
def BankHeld (s : State) (cl m : Nat) (mode : BankMode) : Prop :=
  mode ≠ .fifo ∧ ∃ b, b < 32 ∧ m.testBit b = true ∧ fifoHeld s cl b = true

/-- BANKCFG's mask and cluster are ones a compute die has (R218). -/
structure BankNamed (s : State) (o : BankcfgOps) : Prop where
  mask : (srcWord s [] o.a).toNat < 2 ^ 32
  cluster : (srcWord s [o.a] o.b).toNat ≤ 15
  kind : kindOf s.cur ≠ .host

section
variable {s : State} {o : BankcfgOps}

/-- Whether some bank of a mask is held, as BANKCFG asks. -/
theorem bankHeld_iff (s : State) (cl m : Nat) (mode : BankMode) :
    (mode != .fifo && (List.range 32).any fun b => m.testBit b && fifoHeld s cl b) = true ↔ BankHeld s cl m mode := by
  simp only [BankHeld, Bool.and_eq_true, bne_iff_ne, List.any_eq_true, List.mem_range]

theorem bankFits_iff (f : Nat → BankMode) : (!([0, 4, 8, 16, 32].contains (scratchCount f))) = false ↔ BankFits f := by
  simp only [BankFits, Bool.not_eq_false', List.contains_iff_mem]

/-- BANKCFG's words, once its sources are there. -/
theorem bankcfg_sources (hr : Ready s [o.a, o.b] none) : sources s s.cur [o.a, o.b] none =
    .ok ([srcWord s [] o.a, srcWord s [o.a] o.b], s.taken [o.a, o.b] none) := (sources_taken hr).1

theorem bankcfgBody_mask (hr : Ready s [o.a, o.b] none) (ha : 2 ^ 32 ≤ (srcWord s [] o.a).toNat) :
    bankcfgBody o s.cur s = .error (.trap { cause := 0x0D, val := srcWord s [] o.a }) := by
  simp only [bankcfgBody, bankcfg_sources hr, Res.ok_bind, arg, List.getD_cons_zero, decide_eq_true ha, trapIf_true, Res.error_bind]

theorem bankcfgBody_cluster (hr : Ready s [o.a, o.b] none) (ha : (srcWord s [] o.a).toNat < 2 ^ 32)
    (hk : 15 < (srcWord s [o.a] o.b).toNat ∨ kindOf s.cur = .host) :
    bankcfgBody o s.cur s = .error (.trap { cause := 0x0D, val := srcWord s [o.a] o.b }) := by
  have hbad : (decide (15 < (srcWord s [o.a] o.b).toNat) || kindOf s.cur == .host) = true := by simpa using hk
  simp only [bankcfgBody, bankcfg_sources hr, Res.ok_bind, arg, List.getD_cons_zero, List.getD_cons_succ,
    decide_eq_false (Nat.not_le.2 ha), trapIf_false, hbad, trapIf_true, Res.error_bind]

/-- What BANKCFG's mask and cluster name passes the first two checks. -/
theorem BankNamed.passes (h : BankNamed s o) : decide (2 ^ 32 ≤ (srcWord s [] o.a).toNat) = false ∧
    (decide (15 < (srcWord s [o.a] o.b).toNat) || kindOf s.cur == .host) = false :=
  ⟨decide_eq_false (Nat.not_le.2 h.mask), by simp [h.cluster, h.kind]⟩

end

section
variable {s : State} {o : BankcfgOps} {m cl : Nat}
variable (hm : m = (srcWord s [] o.a).toNat % 2 ^ 32) (hcl : cl = bankCluster s (srcWord s [o.a] o.b).toNat)
include hm hcl

/-- The checks of the banks themselves, and what follows them (R218). -/
theorem bankcfgBody_named (hr : Ready s [o.a, o.b] none) (h : BankNamed s o) : bankcfgBody o s.cur s = (do
    trapIf (!([0, 4, 8, 16, 32].contains (scratchCount (newModes s cl m o.mode)))) 0x0D (BitVec.ofNat 64 m)
    trapIf (o.mode != .fifo && (List.range 32).any fun b => m.testBit b && fifoHeld s cl b) 0x0D (BitVec.ofNat 64 m)
    if (List.range 32).all fun b => bankMode s cl b == newModes s cl m o.mode b then
      pure (retire (s.taken [o.a, o.b] none) s.cur)
    else do
      ask (banksIdle s cl (bankChanges s cl m o.mode) (bankFirst s cl m o.mode))
        (.block (.banks cl m o.mode (bankFirst s cl m o.mode)))
      pure (retire (setModes (s.taken [o.a, o.b] none) cl (newModes s cl m o.mode)) s.cur)) := by
  obtain ⟨hmask, hcluster⟩ := h.passes
  subst hm hcl
  simp only [bankcfgBody, bankcfg_sources hr, Res.ok_bind, arg, List.getD_cons_zero, List.getD_cons_succ, hmask, hcluster,
    trapIf_false]
  rfl

theorem bankcfgBody_unfit (hr : Ready s [o.a, o.b] none) (h : BankNamed s o)
    (hf : ¬ BankFits (newModes s cl m o.mode) ∨ BankHeld s cl m o.mode) :
    bankcfgBody o s.cur s = .error (.trap { cause := 0x0D, val := BitVec.ofNat 64 m }) := by
  rw [bankcfgBody_named hm hcl hr h]
  by_cases hfits : BankFits (newModes s cl m o.mode)
  · simp only [(bankFits_iff _).2 hfits, trapIf_false, Res.ok_bind,
      (bankHeld_iff ..).2 (hf.resolve_left (not_not_intro hfits)), trapIf_true, Res.error_bind]
  · simp only [Bool.not_eq_false _ ▸ mt (bankFits_iff _).1 hfits, trapIf_true, Res.error_bind]

/-- Banks that pass their checks: modes that are so already, modes taken, or a wait (R218). -/
theorem bankcfgBody_fits (hr : Ready s [o.a, o.b] none) (h : BankNamed s o) (hf : BankFits (newModes s cl m o.mode))
    (hh : ¬ BankHeld s cl m o.mode) : bankcfgBody o s.cur s =
      if (List.range 32).all fun b => bankMode s cl b == newModes s cl m o.mode b then
        .ok (retire (s.taken [o.a, o.b] none) s.cur)
      else if banksIdle s cl (bankChanges s cl m o.mode) (bankFirst s cl m o.mode) then
        .ok (retire (setModes (s.taken [o.a, o.b] none) cl (newModes s cl m o.mode)) s.cur)
      else .error (.block (.banks cl m o.mode (bankFirst s cl m o.mode))) := by
  rw [bankcfgBody_named hm hcl hr h]
  simp only [(bankFits_iff _).2 hf, Bool.eq_false_iff.2 (mt (bankHeld_iff ..).1 hh), trapIf_false, Res.ok_bind, Res.pure_eq]
  cases banksIdle s cl (bankChanges s cl m o.mode) (bankFirst s cl m o.mode) with
  | true => rfl
  | false => rfl

end

section
variable {s : State} {o : BankcfgOps}

/-- A trap of BANKCFG, at kernel level or above. -/
theorem bankcfg_traps {v : Word} (hc : Clear s o.h) (ho : On s o.h) (hp : Privileged s) (hs : Settled s)
    (hb : bankcfgBody o s.cur s = .error (.trap { cause := 0x0D, val := v })) : Traps (.bankcfg o) s 0x0D v :=
  (runKernel_met (i := .bankcfg o) hp).trans (run_trap hc ho hs hb)

theorem bankcfg_goes_on {t : State} (hc : Clear s o.h) (ho : On s o.h) (hp : Privileged s)
    (hb : bankcfgBody o s.cur s = .ok t) : exec (.bankcfg o) s = .next t :=
  (runKernel_met (i := .bankcfg o) hp).trans (run_next hc ho hb)

/-- Sources taken with nothing else done: the next instruction's context. -/
theorem retired_taken {srcs : List Src} (hr : Ready s srcs none) :
    Retired s (retire (s.taken srcs none) s.cur) srcs s.after putNone := by
  obtain ⟨u, ⟨got, hg⟩, hs⟩ := sources_ready hr
  have ht : s.taken srcs none = u := by simp only [State.taken, hs]
  have hret := hg.retired_at ((s.ctx s.cur).pc + 12)
  rw [ht, retire, show (u.ctx s.cur).pc = (s.ctx s.cur).pc by rw [hg.own]]
  exact hret

/-- Modes set change no context: an instruction that sets them goes on as it would have. -/
theorem retired_setModes (u : State) (cl : Nat) (f : Nat → BankMode) :
    Retired (setModes u cl f) (retire (setModes u cl f) u.cur) [] u.after putNone := by
  have hret := retired_after (setModes u cl f)
  have hcur : (setModes u cl f).cur = u.cur := by rw [setModes_whole]
  have hctx : (setModes u cl f).ctx = u.ctx := by rw [setModes_whole]; rfl
  rw [State.after, hctx, hcur] at hret
  exact hret

end

/-- Settles O28: the checks in order, then the modes that are so, that are taken, or that are waited for. -/
theorem bankModes : Obligations.BankModes := by
  unfold Obligations.BankModes
  intro o s hc ho hp hr
  refine ⟨fun ha hs => bankcfg_traps hc ho hp hs (bankcfgBody_mask hr ha),
    fun ha hk hs => bankcfg_traps hc ho hp hs (bankcfgBody_cluster hr ha hk),
    fun ha hk hkind hbad hs => bankcfg_traps hc ho hp hs (bankcfgBody_unfit rfl rfl hr ⟨ha, hk, hkind⟩ hbad),
    fun ha hk hkind hf hh => ?_⟩
  have hbody := bankcfgBody_fits rfl rfl hr ⟨ha, hk, hkind⟩ hf hh
  refine ⟨fun hsame => ?_, fun hdiff hidle => ?_, fun hdiff hbusy => ?_⟩
  · rw [if_pos (by simpa using hsame)] at hbody
    exact ⟨_, bankcfg_goes_on hc ho hp hbody, retired_taken hr⟩
  all_goals rw [if_neg (by simpa using hdiff)] at hbody
  · rw [if_pos hidle] at hbody
    have hret := retired_setModes (s.taken [o.a, o.b] none)
    rw [(sources_taken hr).2] at hret
    exact ⟨_, bankcfg_goes_on hc ho hp hbody, hret ..⟩
  · rw [if_neg (by simpa using hbusy)] at hbody
    exact (runKernel_met (i := .bankcfg o) hp).trans (run_block hc ho hbody)

end Sys2Proof.Machine
end

section
/-! SUPPORT. ERET (R220, R447): its two checks, and what the return to a lower level leaves. -/

namespace Sys2Proof.Machine

theorem lowered_code (kern : Bool) : (lowered kern).code = bit kern := by cases kern <;> rfl

/-- A trap put into the list of those pending joins it and drops none (R229). -/
theorem mem_insertTrap_iff (l : List Trap) (t u : Trap) : u ∈ insertTrap l t ↔ u ∈ l ∨ u = t := by
  unfold insertTrap
  dsimp only
  generalize (fun u : Trap => decide (u.cause.toNat < t.cause.toNat ∨ u.cause = t.cause ∧ u.val.toNat ≤ t.val.toNat)) = p
  conv_rhs => rw [← List.takeWhile_append_dropWhile (p := p) (l := l)]
  simp only [List.mem_append, List.mem_singleton, or_right_comm]

theorem mem_insertTraps_iff (u : Trap) : ∀ (l : List (Level × Trap)) (p : List Trap),
    u ∈ l.foldl (fun p e => insertTrap p e.2) p ↔ u ∈ p ∨ ∃ e ∈ l, e.2 = u
  | [], p => by simp
  | e :: l, p => by
    rw [List.foldl_cons, mem_insertTraps_iff u l, mem_insertTrap_iff, List.exists_mem_cons_iff, or_assoc, eq_comm]

/-- The traps pending after a return to a level: those that were, and those put off at it or above (R229). -/
def pendingAt (x : Context) (l : Level) : List Trap :=
  (x.later.filter fun e => l.code ≤ e.1.code).foldl (fun p e => insertTrap p e.2) x.pend

theorem mem_pendingAt (x : Context) (l : Level) (u : Trap) :
    u ∈ pendingAt x l ↔ u ∈ x.pend ∨ ∃ v, (v, u) ∈ x.later ∧ l.code ≤ v.code := by
  rw [pendingAt, mem_insertTraps_iff]
  refine or_congr_right ⟨fun ⟨e, he, hu⟩ => ?_, fun ⟨v, hv, hl⟩ => ⟨(v, u), ?_, rfl⟩⟩
  · obtain ⟨hm, hl⟩ := List.mem_filter.1 he
    exact ⟨e.1, hu ▸ hm, of_decide_eq_true hl⟩
  · exact List.mem_filter.2 ⟨hv, decide_eq_true hl⟩

/-- The identity a context returns with: one that leaves the custodian has its core's partition (R220, R444). -/
def returned (s : State) (c : Nat) (i : Ident) : Ident :=
  if i.custodian then
    { custodian := false, part := partOfCore s (coreOf c), vf := i.vf
      gen := (s.vf (partOfCore s (coreOf c)).toNat i.vf.toNat).gen, world := kindOf c != .host }
  else i

/-- What a return leaves: the context lowered, credit charged, and nothing else (R220, R229, R267). -/
structure ReturnedTo (s t : State) (c : Nat) (kern : Bool) (pc : Word) : Prop where
  whole : t = { s with ctxs := t.ctxs, dies := t.dies }
  own : t.ctx c = { s.ctx c with
    served := none, pc := pc, level := lowered kern, run := .running, pend := pendingAt (s.ctx c) (lowered kern)
    later := (s.ctx c).later.filter fun e => e.1.code < (lowered kern).code, ident := returned s c (s.ctx c).ident }
  others : ∀ e, e ≠ c → t.ctx e = s.ctx e

theorem returnTo_spec (s : State) (c : Nat) (kern : Bool) (pc : Word) : ReturnedTo s (returnTo s c kern pc) c kern pc := by
  obtain ⟨hwhole, hown, hothers, -⟩ := charge_spec s c
  unfold returnTo
  refine ⟨?_, ?_, fun e he => ?_⟩
  · conv_lhs => rw [hwhole]
    rfl
  · rw [State.modCtx_ctx_same, hown]
    rfl
  · rw [State.modCtx_ctx_ne _ _ _ _ (Ne.symm he), hothers e he]

section
variable {s : State} {o : EretOps}

theorem eretBody_not_lower (hl : (s.ctx s.cur).level.code ≤ (lowered o.kern).code) : eretBody o s.cur s =
    .error (.trap { cause := 0x0D, val := BitVec.ofNat 64 (lowered o.kern).code }) := by
  rw [lowered_code] at hl ⊢
  simp only [eretBody, decide_eq_true hl, trapIf_true, Res.error_bind]

/-- A level above the one VAR names passes the first check. -/
theorem eret_lower (hl : (lowered o.kern).code < (s.ctx s.cur).level.code) :
    decide ((s.ctx s.cur).level.code ≤ bit o.kern) = false := by
  rw [lowered_code] at hl
  exact decide_eq_false (Nat.not_le.2 hl)

theorem eretBody_not_ready (hl : (s.ctx s.cur).level = .custodian) (hp : partOfCore s (coreOf s.cur) ≠ 0xFF)
    (hr : (s.part (partOfCore s (coreOf s.cur)).toNat).ready = false) : eretBody o s.cur s =
    .error (.trap { cause := 0x54, val := (partOfCore s (coreOf s.cur)).setWidth 64 }) := by
  have hlow : decide ((s.ctx s.cur).level.code ≤ bit o.kern) = false := eret_lower (by rw [hl]; cases o.kern <;> decide)
  have hbad : ((s.ctx s.cur).level == .custodian && partOfCore s (coreOf s.cur) != 0xFF &&
      !(s.part (partOfCore s (coreOf s.cur)).toNat).ready) = true := by
    rw [hl, hr, bne_iff_ne.2 hp]
    rfl
  simp only [eretBody, hlow, trapIf_false, Res.ok_bind, hbad, trapIf_true, Res.error_bind]

theorem eretBody_returns (hl : (lowered o.kern).code < (s.ctx s.cur).level.code)
    (hr : (s.ctx s.cur).level = .custodian → partOfCore s (coreOf s.cur) ≠ 0xFF →
      (s.part (partOfCore s (coreOf s.cur)).toNat).ready = true)
    (hk : Known s [o.a]) (hat : atCheckpoint s s.cur = true) (hf : Fenced s .core) :
    eretBody o s.cur s = .ok (returnTo (retire s s.cur) s.cur o.kern ((s.ctx s.cur).low o.a)) := by
  have hgood : ((s.ctx s.cur).level == .custodian && partOfCore s (coreOf s.cur) != 0xFF &&
      !(s.part (partOfCore s (coreOf s.cur)).toNat).ready) = false := by
    rw [Bool.and_eq_false_iff, Bool.and_eq_false_iff, or_assoc, beq_eq_false_iff_ne, bne_eq_false_iff_eq, Bool.not_eq_false']
    by_cases h1 : (s.ctx s.cur).level = .custodian
    · by_cases h2 : partOfCore s (coreOf s.cur) = 0xFF
      · exact .inr (.inl h2)
      · exact .inr (.inr (hr h1 h2))
    · exact .inl h1
  unfold Fenced at hf
  simp only [eretBody, eret_lower hl, hgood, trapIf_false, Res.ok_bind, regOf_known (hk o.a (by simp)), pairFence_at hat, hf,
    Bool.not_false, ask_true, Res.pure_eq]
  rfl

/-- ERET's context: the next instruction is A's, one level or two lower (R220). -/
theorem eret_lowers (hc : Clear s o.h) (ho : On s o.h) (hp : Privileged s)
    (hb : eretBody o s.cur s = .ok (returnTo (retire s s.cur) s.cur o.kern ((s.ctx s.cur).low o.a))) :
    ∃ t, exec (.eret o) s = .next t ∧ Within s t ∧ 
      t.ctx s.cur = { (s.ctx s.cur).goesOn ((s.ctx s.cur).low o.a) with
        level := lowered o.kern, ident := returned s s.cur (s.ctx s.cur).ident, served := none
        pend := pendingAt (s.ctx s.cur) (lowered o.kern)
        later := (s.ctx s.cur).later.filter fun e => decide (e.1.code < (lowered o.kern).code) } ∧
      (∀ e, e ≠ s.cur → t.ctx e = s.ctx e) ∧ (∀ k, CoreKept s t k) := by
  obtain ⟨u, hu, hret⟩ := retireAt_spec s s.cur ((s.ctx s.cur).pc + 12)
  have h := returnTo_spec u s.cur o.kern ((s.ctx s.cur).low o.a)
  rw [retire, hret] at hb
  generalize returnTo u s.cur o.kern ((s.ctx s.cur).low o.a) = t at hb h
  have hown : u.ctx s.cur = (s.ctx s.cur).goesOn ((s.ctx s.cur).pc + 12) := by rw [hu.ctx, State.modCtx_ctx_same]
  have hpart : returned u s.cur (s.ctx s.cur).ident = returned s s.cur (s.ctx s.cur).ident := by
    rw [hu.whole]
    rfl
  have hcores : ∀ k, t.core k = u.core k := fun k => by rw [h.whole]; rfl
  refine ⟨t, (runKernel_met (i := .eret o) hp).trans (run_next hc ho hb), ?_, ?_, fun e he => ?_, fun k => ?_⟩
  · exact Within.trans (show Within s (s.modCtx s.cur _) from rfl) (hu.within.trans (Within.of_ctxs_dies h.whole))
  · rw [h.own, hown, show ((s.ctx s.cur).goesOn ((s.ctx s.cur).pc + 12)).ident = (s.ctx s.cur).ident from rfl, hpart]
    rfl
  · rw [h.others e he, hu.ctx, State.modCtx_ctx_ne _ _ _ _ (Ne.symm he)]
  · unfold CoreKept
    rw [hcores]
    by_cases hk : k = coreOf s.cur
    · rw [hk, hu.core]
      rfl
    · rw [hu.cores k hk]
      rfl

end

/-- Settles O24: the checks in their order, then the return. -/
theorem eretLowersTheLevel : Obligations.EretLowersTheLevel := by
  unfold Obligations.EretLowersTheLevel
  intro o s hc ho hp
  refine ⟨fun hl hr hk hat hf => ?_, fun hs hl => ?_, fun hs hl hpart hr => ?_⟩
  · obtain ⟨t, hexec, hwithin, hown, hothers, hcores⟩ := eret_lowers hc ho hp (eretBody_returns hl hr hk hat hf)
    refine ⟨t, hexec, hwithin, hwithin.bytes, by rw [hown], fun tr => by rw [hown]; exact mem_pendingAt .., ?_, hothers, hcores⟩
    rw [hown]
    unfold returned
    split
    next h => exact ⟨rfl, rfl, rfl, rfl⟩
    next h => rfl
  · exact (runKernel_met (i := .eret o) hp).trans (run_trap hc ho hs (eretBody_not_lower hl))
  · exact (runKernel_met (i := .eret o) hp).trans (run_trap hc ho hs (eretBody_not_ready hl hpart hr))

end Sys2Proof.Machine
end

section
/-! SUPPORT. AMSG (R215): the active message that leaves, and the wait for its acceptance (R233). -/

namespace Sys2Proof.Machine

section
variable {s : State} {o : AmsgOps} {die : Nat}

/-- The message AMSG sends to a die (R215). -/
def amsgOf (s : State) (o : AmsgOps) (die : Nat) : ActMsg :=
  { die := die, c := s.cur, gti := gtiOf (s.ctx s.cur), entry := (s.ctx s.cur).low o.a, ident := (s.ctx s.cur).ident
    words := (argList o.arg o.narg).map (s.ctx s.cur).low
    sender := (coreWord s (s.ctx s.cur).ident (coreOf s.cur)).setWidth 64, t0 := s.time.toNat % 2 ^ 48 }

/-- A message in flight, and its sender marked as one that waits for it (R215, R233). -/
def amsgSent (s : State) (m : ActMsg) : State :=
  ({ s with next := s.next + 1, net := s.net ++ [(s.next, NetMsg.amsg m)] } : State).modCtx s.cur fun x =>
    { x with outst := 2, acked := false }

/-- AMSG's entry capability is sound, executable and remote, with its bytes in bounds and an address that is a multiple of
4 (R201, R215). -/
structure EntryGranted (s : State) (r : BitVec 6) : Prop where
  sound : Sound ((s.ctx s.cur).reg r)
  perm : ((s.ctx s.cur).reg r).cap.perm &&& 0x204 = 0x204
  base : ((s.ctx s.cur).reg r).cap.base ≤ ((s.ctx s.cur).low r).toNat
  top : ((s.ctx s.cur).low r).toNat + 12 ≤ ((s.ctx s.cur).reg r).cap.top
  aligned : ((s.ctx s.cur).low r).toNat % 4 = 0

/-- A word of a general register is read with nothing taken. -/
theorem sources_reg {i : BitVec 6} (h : Ready s [.g i] none) : sources s s.cur [.g i] none = .ok ([(s.ctx s.cur).low i], s) := by
  simp only [sources, h.known, h.room, Bool.not_false, ask_true, Res.ok_bind]
  rfl

theorem argRegs_ready (h : Known s (argList o.arg o.narg)) :
    argRegs s s.cur o.arg.toNat o.narg.toNat = .ok ((argList o.arg o.narg).map (s.ctx s.cur).reg) := by
  have hany : ((argList o.arg o.narg).any fun i => (s.ctx s.cur).pendG i) = false := by
    simp only [List.any_eq_false, Bool.not_eq_true]
    exact h
  exact if_neg (Bool.eq_false_iff.1 hany)

theorem amsgBody_sends {i : BitVec 6} (hb : o.b = .g i) (hl : Lone s) (hk : Known s [o.a]) (hr : Ready s [o.b] none)
    (hg : EntryGranted s o.a) (hd : amsgDie s (s.ctx s.cur).ident (srcWord s [] o.b) = some die)
    (hargs : Known s (argList o.arg o.narg)) (hrel : released s s.cur .part = true) :
    amsgBody o s.cur s = .ok (blockOn (amsgSent s (amsgOf s o die)) s.cur .amsgAccept) := by
  have hcap := capCheck_passes (r := o.a) (perm := permEx ||| permRemote) hg.sound hg.perm hg.base hg.top
  have halign : decide (((s.ctx s.cur).low o.a).toNat % 4 ≠ 0) = false := decide_eq_false (not_not_intro hg.aligned)
  rw [hb] at hr hd
  unfold Context.low at hcap halign
  simp only [amsgBody, regOf_known (hk o.a (by simp)), Res.ok_bind, hcap, halign, trapIf_false, hb, sources_reg hr, arg,
    List.getD_cons_zero, show amsgDie s (s.ctx s.cur).ident ((s.ctx s.cur).low i) = some die from hd, argRegs_ready hargs,
    leaveNow_lone hl hrel, Res.pure_eq, List.map_map]
  rfl

end

/-- A message sent and waited for: what its sender and the traffic are, and that nothing else of the state is touched. -/
theorem amsgSent_blocks (s : State) (m : ActMsg) : ∃ n, Within s (blockOn (amsgSent s m) s.cur .amsgAccept) ∧
    (blockOn (amsgSent s m) s.cur .amsgAccept).net = s.net ++ [(s.next, NetMsg.amsg m)] ∧
    (blockOn (amsgSent s m) s.cur .amsgAccept).ctx s.cur =
      { s.ctx s.cur with run := .blocked .amsgAccept n, outst := 2, acked := false, served := none, mheld := false } ∧
    ∀ e, e ≠ s.cur → (blockOn (amsgSent s m) s.cur .amsgAccept).ctx e = s.ctx e := by
  obtain ⟨hwhole, ⟨n, hown⟩, hothers, -⟩ := blockOn_spec (amsgSent s m) s.cur .amsgAccept
  have hctx : (amsgSent s m).ctx s.cur = { s.ctx s.cur with outst := 2, acked := false } := State.modCtx_ctx_same ..
  refine ⟨n, (show Within s (amsgSent s m) from rfl).trans (Within.of_ctxs_dies hwhole), ?_, ?_, fun e he => ?_⟩
  · rw [hwhole]
    rfl
  · rw [hown, hctx]
  · exact (hothers e he).trans (State.modCtx_ctx_ne _ _ _ _ (Ne.symm he))

/-- A source that is no queue, port or mailbox is a general register. -/
theorem Src.eq_reg {b : Src} (h : (∀ m, b ≠ .m m) ∧ (∀ n, b ≠ .n n) ∧ ∀ q, b ≠ .q q) : ∃ i, b = .g i := by
  obtain ⟨hm, hn, hq⟩ := h
  cases b with
  | g i => exact ⟨i, rfl⟩
  | q i => exact absurd rfl (hq i)
  | n i => exact absurd rfl (hn i)
  | m i => exact absurd rfl (hm i)

/-- Settles O19: the checks passed, one message in flight, and its sender blocked. -/
theorem activeMessageLeaves : Obligations.ActiveMessageLeaves := by
  unfold Obligations.ActiveMessageLeaves
  intro o s die hc ho hl hk hr ea hsound hperm hbase htop halign hd hargs hrel hplain
  obtain ⟨i, hb⟩ := Src.eq_reg hplain
  have hbody := amsgBody_sends hb hl hk hr ⟨hsound, hperm, hbase, htop, halign⟩ hd hargs hrel
  obtain ⟨n, hwithin, hnet, hown, hothers⟩ := amsgSent_blocks s (amsgOf s o die)
  refine ⟨_, n, run_next (i := .amsg o) hc ho hbody, hwithin, hwithin.bytes, ?_, hown, hothers⟩
  rw [hnet, amsgOf, argList, List.map_map]
  rfl

end Sys2Proof.Machine
end

section
/-! SUPPORT. FENCE and PREF (R109, R207), JRD of a journal's entry (R213), and MWAIT's wait (R209). -/

namespace Sys2Proof.Machine

/-! FENCE and PREF. -/

theorem fence_joins {o : FenceOps} {s : State} (hc : Clear s o.h) (ho : On s o.h) (hl : Lone s) :
    ∃ t, exec (.fence o) s = .next t ∧ Retired s t [] (s.joined [.fence o.kind o.scope]) putNone :=
  ⟨_, run_next (i := .fence o) hc ho (by rw [pairFence_lone hl, Res.ok_bind, Res.pure_eq]), retire_lobPush s _⟩

theorem pref_goes_on {o : PrefOps} {s : State} (hc : Clear s o.h) (ho : On s o.h) :
    ∃ t, exec (.pref o) s = .next t ∧ Retired s t [] s.after putNone :=
  ⟨_, run_next (i := .pref o) hc ho rfl, retired_after s⟩

/-! JRD. -/

theorem jrdStatus_eq (e : JEntry) : jrdStatus e = statusWord e := by
  unfold jrdStatus statusWord packWord
  simp only [List.foldl_cons, List.foldl_nil, fieldAt]
  split
  · rfl
  · congr 1
    omega

section
variable {s u : State} {got : List (BitVec 5 × Word)} {srcs : List Src}

/-- The entry a context sees is the one it saw before its sources were read (R213). -/
theorem Reading.jrdEntry (h : Reading s u got srcs) {w : Word} (hw : w.toNat < 32) :
    jrdEntry u s.cur w = .ok (w.toNat, seenEntry s w.toNat) := by
  have hj : (u.core (coreOf s.cur)).journal = (s.core (coreOf s.cur)).journal := by rw [h.core]
  have hl : (u.ctx s.cur).level = (s.ctx s.cur).level := by rw [h.own]
  simp only [Machine.jrdEntry, decide_eq_false (Nat.not_le.2 hw), trapIf_false, Res.ok_bind, Res.pure_eq, hj, hl, seenEntry,
    Bool.and_eq_true, beq_iff_eq, bne_iff_ne]

theorem jrdEntry_beyond {w : Word} (hw : 32 ≤ w.toNat) : Machine.jrdEntry u s.cur w = .error (.trap { cause := 0x0D, val := w }) := by
  rw [Machine.jrdEntry, decide_eq_true hw]
  rfl

/-- A word delivered after sources were read: the instruction has retired with it. -/
theorem Reading.delivers (h : Reading s u got srcs) {d : Dst} (hr : Ready s srcs (some d)) (hc : isContext s.cur = true)
    (hd : d.local = true) (w : Word) : ScalarDone s (deliver u s.cur d w) srcs d w 0 := by
  have hdone := scalar_done h hc d w 0 (Dst.local_ne_xm hd) fun i hi => (hr.there (by simp [blocking, outward, hi])).1.pair
  rwa [raiseFlags_zero] at hdone

/-- A core changed in nothing that can be seen is read as before. -/
theorem Reading.same_cores (h : Reading s u got srcs) {k : Nat} {f : Core → Core} (hf : ∀ j, (s.modCore k f).core j = s.core j) :
    Reading (s.modCore k f) u got srcs where
  whole := h.whole
  own := h.own
  others := h.others
  queues i := by rw [hf]; exact h.queues i
  ports i := by rw [hf]; exact h.ports i
  mail i := by rw [hf]; exact h.mail i
  core := by rw [hf]; exact h.core
  cores j hj := by rw [hf]; exact h.cores j hj
  got i := by rw [hf]; exact h.got i

end

section
variable {s : State}

theorem jrd_reads {o : JrdOps} (hc : Clear s o.h) (ho : On s o.h) (hr : Ready s [o.a] (some o.d)) (hd : o.d.local = true)
    (hw : (srcWord s [] o.a).toNat < 32) : ∃ t, exec (.jrd o) s = .next t ∧
      ScalarDone s t [o.a] o.d (entryField o.sel (seenEntry s (srcWord s [] o.a).toNat)) 0 := by
  obtain ⟨u, ⟨got, hg⟩, hs⟩ := sources_ready hr
  refine ⟨_, run_next (i := .jrd o) hc ho ?_, hg.delivers hr hc.real hd _⟩
  have hj : Machine.jrdEntry u s.cur (arg (srcWords s [] [o.a]) 0) = _ := hg.jrdEntry hw
  simp only [hs, Res.ok_bind, hj, Res.pure_eq]
  cases hsel : o.sel with
  | addr => rfl
  | data => rfl
  | stat => simp only [jrdStatus_eq]; rfl

theorem jrd_beyond {o : JrdOps} (hc : Clear s o.h) (ho : On s o.h) (hr : Ready s [o.a] (some o.d))
    (hw : 32 ≤ (srcWord s [] o.a).toNat) (hset : settled s s.cur = true) :
    exec (.jrd o) s = .next (takeTrap s s.cur { cause := 0x0D, val := srcWord s [] o.a }) := by
  obtain ⟨u, -, hs⟩ := sources_ready hr
  refine run_trap (i := .jrd o) hc ho hset ?_
  have hj : Machine.jrdEntry u s.cur (arg (srcWords s [] [o.a]) 0) = _ := jrdEntry_beyond hw
  simp only [hs, Res.ok_bind, hj]
  rfl

/-- The journal without the entry JRD.clr read, when that was refused (R213). -/
def cleared (s : State) (j : Nat) (m : Sparse JEntry) : Sparse JEntry :=
  if (seenEntry s j).state = 2 then Sparse.drop m j else m

/-- A reading frees the entry JRD.clr read, when that was refused. -/
theorem Reading.clears {u : State} {got : List (BitVec 5 × Word)} {srcs : List Src} (h : Reading s u got srcs) (j : Nat) :
    Reading (s.withJournal (cleared s j)) (if (seenEntry s j).state = 2 then u.modCore (coreOf s.cur) fun k =>
      { k with journal := Sparse.drop k.journal j } else u) got srcs := by
  split
  next hfree =>
    have hcl : cleared s j = fun m => Sparse.drop m j := funext fun m => if_pos hfree
    rw [hcl]
    exact h.withCore _ fun _ _ _ _ => rfl
  next hkeep =>
    have hcl : cleared s j = fun m => m := funext fun m => if_neg hkeep
    rw [hcl]
    exact h.same_cores (modCore_id rfl)

theorem jrdClr_reads {o : DstSrc} (hc : Clear s o.h) (ho : On s o.h) (hr : Ready s [o.a] (some o.d)) (hd : o.d.local = true)
    (hw : (srcWord s [] o.a).toNat < 32) : ∃ t, exec (.jrdClr o) s = .next t ∧
      ScalarDone (s.withJournal (cleared s (srcWord s [] o.a).toNat)) t [o.a] o.d
        (statusWord (seenEntry s (srcWord s [] o.a).toNat)) 0 := by
  obtain ⟨u, ⟨got, hg⟩, hs⟩ := sources_ready hr
  have hj : Machine.jrdEntry u s.cur (arg (srcWords s [] [o.a]) 0) = _ := hg.jrdEntry hw
  have hdone := scalar_done (hg.clears (srcWord s [] o.a).toNat) hc.real o.d
    (statusWord (seenEntry s (srcWord s [] o.a).toNat)) 0 (Dst.local_ne_xm hd) fun i hi => by
      rw [show (s.withJournal (cleared s (srcWord s [] o.a).toNat)).cur = s.cur from rfl, State.withJournal,
        State.modCore_core_same]
      exact (hr.there (by simp [blocking, outward, hi])).1.pair
  rw [raiseFlags_zero] at hdone
  refine ⟨_, run_next (i := .jrdClr o) hc ho ?_, hdone⟩
  simp only [hs, Res.ok_bind, hj, jrdStatus_eq, Res.pure_eq]
  rfl

end

/-! MWAIT. -/

theorem mwaitEnds_iff (all : Bool) (mask present : Nat) : mwaitEnds all mask present = true ↔
    mask = 0 ∨ (all = false ∧ present &&& mask ≠ 0) ∨ (all = true ∧ present &&& mask = mask) := by
  cases all <;> simp [mwaitEnds]

section
variable {s k : State} {o : MwaitOps}

/-- The mask MWAIT waits for: the low 32 bits of its word (R209). -/
def mwaitMask (s : State) (o : MwaitOps) : Nat := (arg (s.words [o.a]) 0).toNat % 2 ^ 32

/-- MWAIT whose wait has ended marks the mailboxes of its mask and writes the presence bits (R209). -/
theorem mwait_ends (hc : Clear s o.h) (ho : On s o.h) (hh : Has s [o.a] (some o.d)) (hd : o.d.local = true)
    (hk : holdWords s s.cur [o.a] (some o.d) = .ok (s.words [o.a], k)) (hkept : Kept s k [o.a])
    (huse : useWords k s.cur [o.a] = .ok (s.used [o.a] (some o.d))) (hu : Used s (s.used [o.a] (some o.d)) [o.a])
    (he : mwaitEnds o.all (mwaitMask s o) (presentIn k) = true) : ∃ t, exec (.mwait o) s = .next t ∧
      ScalarDone ((s.used [o.a] (some o.d)).modCtx s.cur fun x =>
        { x with mbxmask := x.mbxmask ||| BitVec.ofNat 32 (mwaitMask s o) }) t [] o.d (BitVec.ofNat 64 (presentIn k)) 0 := by
  have hkcur : k.cur = s.cur := by rw [hkept.whole]
  generalize hv : (s.used [o.a] (some o.d)).modCtx s.cur (fun x =>
    { x with mbxmask := x.mbxmask ||| BitVec.ofNat 32 (mwaitMask s o) }) = v
  have hvcur : v.cur = s.cur := by rw [← hv]; exact hu.cur
  have hrep : replayOf v s.cur = none :=
    replayOf_keep (hu.replay hh.lone) (by rw [← hv]; rfl) (by rw [← hv, State.modCtx_ctx_same])
      (by rw [← hv, State.modCtx_ctx_same]) (by rw [← hv, State.modCtx_ctx_same])
  have hpres : presence (k.core (coreOf s.cur)) = presentIn k := by rw [← hkcur]; rfl
  have hdone := deliver_done (u := v) (by rw [hvcur]; exact hc.real) (by rw [hvcur, ← hv]; exact hu.pair hh.lone) hd
    (BitVec.ofNat 64 (presentIn k))
  rw [hvcur] at hdone
  refine ⟨_, run_next (i := .mwait o) hc ho ?_, hdone⟩
  unfold mwaitMask at he hv
  simp only [hk, Res.ok_bind, hpres, he, Bool.true_or, Bool.not_true, Bool.false_eq_true, if_false, huse, hu.room hh, ask_true,
    hv, outside_plain hrep, Res.pure_eq]

/-- MWAIT whose wait has not ended blocks with its word kept (R209). -/
theorem mwait_blocks (hc : Clear s o.h) (ho : On s o.h) (hl : Lone s)
    (hk : holdWords s s.cur [o.a] (some o.d) = .ok (s.words [o.a], k)) (hkept : Kept s k [o.a])
    (he : mwaitEnds o.all (mwaitMask s o) (presentIn k) = false) : exec (.mwait o) s = .next (blockOn k s.cur .mwait) := by
  have hkcur : k.cur = s.cur := by rw [hkept.whole]
  have hpres : presence (k.core (coreOf s.cur)) = presentIn k := by rw [← hkcur]; rfl
  have hlone : replaying k s.cur = false := hkcur ▸ replaying_lone (hkept.lone hl)
  refine run_next (i := .mwait o) hc ho ?_
  unfold mwaitMask at he
  simp only [hk, Res.ok_bind, hpres, he, hlone, Bool.or_self, Bool.not_false, if_true, Res.pure_eq]

end

theorem mwait_waits {s : State} {o : MwaitOps} (hc : Clear s o.h) (ho : On s o.h) (hh : Has s [o.a] (some o.d))
    (hd : o.d.local = true) : ∃ u, Kept s u [o.a] ∧
      (mwaitEnds o.all (mwaitMask s o) (presentIn u) = true → ∃ v t, Used s v [o.a] ∧ exec (.mwait o) s = .next t ∧
        ScalarDone (v.modCtx s.cur fun x => { x with mbxmask := x.mbxmask ||| BitVec.ofNat 32 (mwaitMask s o) }) t [] o.d
          (BitVec.ofNat 64 (presentIn u)) 0) ∧
      (mwaitEnds o.all (mwaitMask s o) (presentIn u) = false → exec (.mwait o) s = .next (blockOn u s.cur .mwait)) := by
  obtain ⟨k, hk, hkept, huse, hu, -⟩ := hh.words_used
  refine ⟨k, hkept, fun he => ?_, mwait_blocks hc ho hh.lone hk hkept⟩
  obtain ⟨t, ht, hdone⟩ := mwait_ends hc ho hh hd hk hkept huse hu he
  exact ⟨_, t, hu, ht, hdone⟩

/-- Settles O18: a fence joins the order buffer, JRD reads through `seenEntry`, and MWAIT keeps its word or has used it. -/
theorem fencesJournalAndMailboxWaits : Obligations.FencesJournalAndMailboxWaits := by
  unfold Obligations.FencesJournalAndMailboxWaits
  refine ⟨⟨fun o s => fence_joins, fun o s => pref_goes_on⟩, fun o s hc ho hr hd => ⟨jrd_reads hc ho hr hd, jrd_beyond hc ho hr⟩,
    fun o s => jrdClr_reads, fun o s hc ho hh hd => ?_, fun s srcs d hh => ?_⟩
  · obtain ⟨u, hkept, hends, hblocks⟩ := mwait_waits hc ho hh hd
    refine ⟨u, hkept, fun he => hends ((mwaitEnds_iff ..).2 he), fun he => hblocks ?_⟩
    exact Bool.eq_false_iff.2 fun h => he ((mwaitEnds_iff ..).1 h)
  · obtain ⟨-, -, -, -, hu, -⟩ := hh.words_used
    exact hu

end Sys2Proof.Machine
end

section
/-! SUPPORT. What reaches a context that waits (R222, R227, R229, R238): its lowest pending trap, a scheduler's
pre-emption, and its deadline. -/

namespace Sys2Proof.Machine

/-! Asynchronous traps (R227, R229). -/

section
variable {s : State} {c : Nat} {t : Trap} {l : List Trap}

/-- A context whose instruction is no BCLISTEN has none to abandon (R425). -/
theorem abandonListen_other (h : ∀ n, (s.ctx c).run ≠ .blocked .listen n) : abandonListen s c = s := by
  unfold abandonListen
  split
  next n hr => exact absurd hr (h n)
  next => rfl

theorem putOff_run (x : Context) : (putOff c x l).run = x.run := by
  unfold putOff
  split <;> rfl

/-- The first pending trap is taken once everything older is complete; the others are put off (R227, R229). -/
theorem takeAsync_lowest (hp : (s.ctx c).pend = t :: l) (hs : settled s c = true) (hr : ∀ n, (s.ctx c).run ≠ .blocked .listen n) :
    takeAsync s c = takeTrap (s.modCtx c fun x => putOff c x l) c t := by
  have hother : abandonListen (s.modCtx c fun x => putOff c x l) c = s.modCtx c fun x => putOff c x l :=
    abandonListen_other fun n => by rw [State.modCtx_ctx_same, putOff_run]; exact hr n
  simp only [takeAsync, hp, hs, if_true, hother]

/-- A context that runs, or waits in what is no BCLISTEN, issues and listens to nothing. -/
theorem issues_unlistening (h : (s.ctx c).run = .running ∨ ∃ w n, (s.ctx c).run = .blocked w n ∧ w ≠ .listen) :
    issues (s.ctx c).run = true ∧ ∀ n, (s.ctx c).run ≠ .blocked .listen n := by
  obtain h | ⟨w, n, h, hw⟩ := h
  · rw [h]
    exact ⟨rfl, nofun⟩
  · rw [h]
    exact ⟨rfl, fun m hm => hw (by cases hm; rfl)⟩

theorem asyncTrap_taken (hp : (s.ctx c).pend = t :: l) (ha : awaitsReply s c = false) (hs : settled s c = true)
    (hr : (s.ctx c).run = .running ∨ ∃ w n, (s.ctx c).run = .blocked w n ∧ w ≠ .listen) :
    exec (.asyncTrapTaken c) s = .next (takeTrap (s.setCtx c (putOff c (s.ctx c) l)) c t) := by
  obtain ⟨hi, hn⟩ := issues_unlistening hr
  have hexec : exec (.asyncTrapTaken c) s = execAsyncTrapTaken c s := rfl
  rw [hexec]
  simp only [execAsyncTrapTaken, hi, ha, Bool.not_false, Bool.and_self, if_true, takeAsync_lowest hp hs hn]
  rfl

theorem asyncTrap_none (h : (s.ctx c).pend = [] ∨ awaitsReply s c = true) : exec (.asyncTrapTaken c) s = .next s := by
  have hexec : exec (.asyncTrapTaken c) s = execAsyncTrapTaken c s := rfl
  rw [hexec]
  obtain h | h := h
  · simp only [execAsyncTrapTaken, takeAsync, h, ite_self]
  · simp only [execAsyncTrapTaken, h, Bool.not_true, Bool.and_false, Bool.false_eq_true, if_false]

end

/-! A scheduler's pre-emption (R238). -/

section
variable {s : State} {c : Nat}

/-- An interrupt of a context that has not halted sets bit 4 of its latch (R222). -/
theorem interrupt_unhalted (h : (s.ctx c).run ≠ .halted) : interrupt s c = s.modCtx c fun x => { x with latch := x.latch ||| 0x10 } :=
  congrArg (s.setCtx c) (if_neg h)

/-- The stop asked of a context that runs or waits: the request, and bit 4 of its latch (R222, R238). -/
theorem requestStop_resident (h : (s.ctx c).run = .running ∨ ∃ w n, (s.ctx c).run = .blocked w n) (reason : Nat) :
    requestStop s c reason = (s.modCtx c fun x => { x with request := some (x.request.getD reason) }).modCtx c fun x =>
      { x with latch := x.latch ||| 0x10 } := by
  obtain ⟨hl, hh⟩ : (∀ r, (s.ctx c).run ≠ .leaving r) ∧ (s.ctx c).run ≠ .halted := by
    obtain h | ⟨w, n, h⟩ := h <;> rw [h] <;> exact ⟨nofun, nofun⟩
  have hst : requestStop s c reason = interrupt (s.modCtx c fun x => { x with request := some (x.request.getD reason) }) c := by
    unfold requestStop
    split
    next r hr => exact absurd hr (hl r)
    next => rfl
  rw [hst, interrupt_unhalted (by rw [State.modCtx_ctx_same]; exact hh)]

theorem preempted (ht : (s.ctx c).task.isSome = true) (h : (s.ctx c).run = .running ∨ ∃ w n, (s.ctx c).run = .blocked w n) :
    ∃ u, exec (.schedulerPreemption c) s = .next u ∧ u = { s with ctxs := u.ctxs } ∧ (∀ e, e ≠ c → u.ctx e = s.ctx e) ∧
      u.ctx c = { s.ctx c with request := some ((s.ctx c).request.getD 2), latch := (s.ctx c).latch ||| 0x10 } := by
  have hrun : ((s.ctx c).run != .free) = true ∧ ((s.ctx c).run != .stopped) = true := by
    obtain h | ⟨w, n, h⟩ := h <;> rw [h] <;> exact ⟨rfl, rfl⟩
  have hexec : exec (.schedulerPreemption c) s = execSchedulerPreemption c s := rfl
  have hstop : exec (.schedulerPreemption c) s = .next (requestStop s c 2) := by
    rw [hexec]
    simp only [execSchedulerPreemption, ht, hrun.1, hrun.2, Bool.and_self, if_true]
  rw [requestStop_resident h] at hstop
  refine ⟨_, hstop, rfl, fun e he => ?_, ?_⟩
  · rw [State.modCtx_ctx_ne _ _ _ _ (Ne.symm he), State.modCtx_ctx_ne _ _ _ _ (Ne.symm he)]
  · rw [State.modCtx_ctx_same, State.modCtx_ctx_same]

theorem preemption_leaving {r : Nat} (h : (s.ctx c).run = .leaving r) : exec (.schedulerPreemption c) s = .next s := by
  have hst : requestStop s c 2 = s := by simp only [requestStop, h]
  have hexec : exec (.schedulerPreemption c) s = execSchedulerPreemption c s := rfl
  rw [hexec]
  simp only [execSchedulerPreemption, hst, ite_self]

end

/-! The deadline of a WFE (R222, R253). -/

section
variable {s : State} {c : Nat}

/-- Whether a wait is a WFE's whose deadline has passed. -/
def overdue (s : State) (w : Wait) : Bool := match w with | .wfe (some d) => decide (d ≤ s.time.toNat) | _ => false

/-- The context's own WFE, once its deadline has passed with an empty latch (R222). -/
def timedOut (s : State) (c : Nat) : State :=
  match (s.ctx c).run with
  | .blocked w _ => if overdue s w && (s.ctx c).latch == 0 then s.modCtx c fun x => { x with latch := 0x08 } else s
  | _ => s

/-- A task parked in a WFE of a core whose deadline has passed. -/
def overdueTask (s : State) (c : Nat) (t : Task) : Bool :=
  t.waitCore == coreOf c && (match t.wait with | some w => overdue s w | none => false)

theorem execWfeTimeout_eq : exec (.wfeTimeout c) s = .next (readyParked (timedOut s c) (dieOf c) true (overdueTask s c) 0x08) := rfl

theorem timedOut_dies : (timedOut s c).dies = s.dies := by
  unfold timedOut
  split
  · split <;> rfl
  · rfl

theorem timedOut_ctx_ne {e : Nat} (h : e ≠ c) : (timedOut s c).ctx e = s.ctx e := by
  unfold timedOut
  split
  · split
    · exact State.modCtx_ctx_ne _ _ _ _ (Ne.symm h)
    · rfl
  · rfl

theorem timedOut_wfe {d n : Nat} (h : (s.ctx c).run = .blocked (.wfe (some d)) n) : timedOut s c =
    if d ≤ s.time.toNat ∧ (s.ctx c).latch = 0 then s.modCtx c fun x => { x with latch := 0x08 } else s := by
  simp only [timedOut, h, overdue, Bool.and_eq_true, decide_eq_true_eq, beq_iff_eq]

theorem readyParked_ctx (s : State) (die : Nat) (pin : Bool) (f : Task → Bool) (b : BitVec 5) (e : Nat) :
    (readyParked s die pin f b).ctx e = s.ctx e := by
  rw [(readyParked_dies s die pin f b).1]
  rfl

theorem wfe_timeout {d n : Nat} (h : (s.ctx c).run = .blocked (.wfe (some d)) n) : ∃ u, exec (.wfeTimeout c) s = .next u ∧
    (∀ e, e ≠ c → u.ctx e = s.ctx e) ∧
    (d ≤ s.time.toNat → (s.ctx c).latch = 0 → u.ctx c = { s.ctx c with latch := 0x08 }) ∧
    (s.time.toNat < d ∨ (s.ctx c).latch ≠ 0 → u.ctx c = s.ctx c) := by
  refine ⟨_, execWfeTimeout_eq, fun e he => ?_, fun hd hl => ?_, fun hno => ?_⟩
  · rw [readyParked_ctx, timedOut_ctx_ne he]
  · rw [readyParked_ctx, timedOut_wfe h, if_pos ⟨hd, hl⟩, State.modCtx_ctx_same]
  · rw [readyParked_ctx, timedOut_wfe h, if_neg fun ⟨hd, hl⟩ => hno.elim (Nat.not_lt.2 hd) fun hn => hn hl]

/-- A parked task that is readied is in the ready pool and parked no more (R253). -/
theorem readyParked_moves {die : Nat} {f : Task → Bool} {t : Task} (hm : t ∈ (s.die die).parked) (hf : f t = true)
    (b : BitVec 5) : t ∉ ((readyParked s die true f b).die die).parked ∧
      { t with wait := none, woken := t.woken ||| b, pinned := some t.waitCore, passes := 0, promoted := false } ∈
        ((readyParked s die true f b).die die).ready := by
  have hany : (s.die die).parked.any f = true := List.any_eq_true.2 ⟨t, hm, hf⟩
  simp only [readyParked, hany, Bool.not_true, Bool.false_eq_true, if_false, State.modDie_at_die, if_true]
  constructor
  · intro h
    simpa [hf] using (List.mem_filter.1 h).2
  · exact List.mem_append_right _ (List.mem_map.2 ⟨t, List.mem_filter.2 ⟨hm, hf⟩, rfl⟩)

theorem parked_timeout {d : Nat} {t : Task} (hm : t ∈ (s.die (dieOf c)).parked) (hw : t.wait = some (.wfe (some d)))
    (hk : t.waitCore = coreOf c) (hd : d ≤ s.time.toNat) : ∃ u, exec (.wfeTimeout c) s = .next u ∧
      t ∉ (u.die (dieOf c)).parked ∧
      { t with wait := none, woken := t.woken ||| 0x08, pinned := some (coreOf c), passes := 0, promoted := false } ∈
        (u.die (dieOf c)).ready := by
  have hin : t ∈ ((timedOut s c).die (dieOf c)).parked := by rw [State.die, timedOut_dies]; exact hm
  have hmoves := readyParked_moves (f := overdueTask s c) hin (by simp [overdueTask, hw, hk, overdue, hd]) 0x08
  exact ⟨_, execWfeTimeout_eq, hmoves.1, by rw [← hk]; exact hmoves.2⟩

end

end Sys2Proof.Machine
end

section
/-! SUPPORT. Walks of the page tables, acknowledgements of invalidations, and the modes of banks that were waited for
(R218, R223, R275, R279, R281, R282). -/

namespace Sys2Proof.Machine

/-! Page walks (R279, R281). -/

/-- Two states have the same contexts and the same clusters. -/
structure SameSeats (s t : State) : Prop where
  ctxs : t.ctxs = s.ctxs
  clus : t.clus = s.clus

theorem SameSeats.refl (s : State) : SameSeats s s := ⟨rfl, rfl⟩

theorem SameSeats.trans {s t u : State} (h : SameSeats s t) (g : SameSeats t u) : SameSeats s u :=
  ⟨g.ctxs.trans h.ctxs, g.clus.trans h.clus⟩

theorem SameSeats.ctx {s t : State} (h : SameSeats s t) (c : Nat) : t.ctx c = s.ctx c := by rw [State.ctx, h.ctxs, State.ctx]

theorem SameSeats.clu {s t : State} (h : SameSeats s t) (q : Nat) : t.clu q = s.clu q := by rw [State.clu, h.clus, State.clu]

/-- Steps that leave contexts and clusters alone, in order. -/
theorem SameSeats.foldl {α : Type} {f : State → α → State} (h : ∀ s a, SameSeats s (f s a)) :
    ∀ (l : List α) {s t : State}, SameSeats s t → SameSeats s (l.foldl f t)
  | [], _, _, g => g
  | a :: l, _, t, g => SameSeats.foldl h l (g.trans (h t a))

theorem tileFlags_sameSeats (s : State) (t : Tile) : SameSeats s (tileFlags s t) := by
  unfold tileFlags
  split
  · unfold regionFlags
    split <;> exact ⟨rfl, rfl⟩
  · exact .refl s

theorem tileRead_sameSeats (s : State) (pa n : Nat) : SameSeats s (tileRead s pa n) := by
  unfold tileRead
  dsimp only
  split
  · exact .refl s
  · exact .foldl tileFlags_sameSeats _ ⟨rfl, rfl⟩

theorem tileWrite_sameSeats (s : State) (pa : Nat) : SameSeats s (tileWrite s pa) := by
  unfold tileWrite
  dsimp only
  split
  · exact .refl s
  · exact .foldl tileFlags_sameSeats _ ⟨rfl, rfl⟩

theorem homePoke_sameSeats (s : State) (pa : Nat) (b : Byte) : SameSeats s (homePoke s pa b) := by
  have h : SameSeats s (purge (tileWrite s pa) (pa / 128)) := (tileWrite_sameSeats s pa).trans ⟨rfl, rfl⟩
  unfold homePoke
  split
  · dsimp only
    split
    · exact h
    · exact h.trans ⟨rfl, rfl⟩
  · exact .refl s

theorem homeStore_sameSeats (s : State) (pa : Nat) (bs : List Byte) : SameSeats s (homeStore s pa bs) :=
  .foldl (f := sealLine) (fun _ _ => ⟨rfl, rfl⟩) _
    (.foldl (f := fun s (c : Nat × Byte) => homePoke s c.1 c.2) (fun s c => homePoke_sameSeats s c.1 c.2) _ (.refl s))

theorem walked_sameSeats (s : State) (c : Nat) (r : WalkReq) : SameSeats s (s.walked c r) :=
  .foldl (fun s a => tileRead_sameSeats s a 8) _ (.refl s)

theorem markLeaf_sameSeats (s : State) (f : Found) (kind : Nat) : SameSeats s (markLeaf s f kind) :=
  .foldl (fun s a => homeStore_sameSeats s a _) _ (.refl s)

section
variable {s : State} {c : Nat} {r : WalkReq}

/-- A walk found (R281): its leaf is marked, its translation joins the TLB, and the context runs. -/
def walkDone (v : State) (c : Nat) (i : Ident) (r : WalkReq) (f : Found) : State :=
  ((markLeaf v f r.kind).modClu (clusterOf c) fun k => { k with
    tlb := (k.tlb.filter fun e => !e.holds i r.va) ++ [f.entry] }).modCtx c fun x => { x with walk := none, run := .running }

/-- A walk whose turn has come goes over the tables its reads have left. -/
theorem pageWalk_turn (h : WalkTurn s c r) : exec (.pageWalk c) s =
    match walk (s.walked c r) (s.ctx c).ident ((s.ctx c).level == .task) r.va r.kind with
    | .ok f => .next (walkDone (s.walked c r) c (s.ctx c).ident r f)
    | .error t =>
      if !(s.ctx c).pend.isEmpty then .next ((s.walked c r).modCtx c fun x => { x with walk := none, run := .running })
      else if settled (s.walked c r) c then .next (takeTrap ((s.walked c r).modCtx c fun x => { x with walk := none }) c t)
      else .next (s.walked c r) := by
  obtain ⟨n, hn⟩ := h.waits
  have hfree : ((walkOf s (s.ctx c).ident r.va).any fun a => frameHeld s a) = false :=
    List.any_eq_false.2 fun a ha => by simp [h.free a ha]
  have hexec : exec (.pageWalk c) s = execPageWalk c s := rfl
  rw [hexec]
  simp only [execPageWalk, h.here, hn, hfree, h.sealed, Bool.false_eq_true, if_false]
  rfl

theorem pageWalk_found (h : WalkTurn s c r) {f : Found}
    (hf : walk (s.walked c r) (s.ctx c).ident ((s.ctx c).level == .task) r.va r.kind = .ok f) :
    ∃ u, exec (.pageWalk c) s = .next u ∧
      u.ctx c = { (s.walked c r).ctx c with walk := none, run := .running } ∧ (∀ e, e ≠ c → u.ctx e = (s.walked c r).ctx e) ∧
      (u.clu (clusterOf c)).tlb =
        (((s.walked c r).clu (clusterOf c)).tlb.filter fun e => !e.holds (s.ctx c).ident r.va) ++ [f.entry] ∧
      (∀ k, k ≠ clusterOf c → u.clu k = (s.walked c r).clu k) ∧
      (∀ x, byteAt u x = byteAt (markLeaf (s.walked c r) f r.kind) x) := by
  have hseats := markLeaf_sameSeats (s.walked c r) f r.kind
  refine ⟨walkDone (s.walked c r) c (s.ctx c).ident r f, by rw [pageWalk_turn h, hf], ?_, fun e he => ?_, ?_, fun k hk => ?_,
    fun x => rfl⟩
  · rw [walkDone, State.modCtx_ctx_same, ← hseats.ctx]
    rfl
  · rw [walkDone, State.modCtx_ctx_ne _ _ _ _ (Ne.symm he), ← hseats.ctx]
    rfl
  · rw [walkDone, State.modCtx_at_clu, State.modClu_clu_same, hseats.clu]
  · rw [walkDone, State.modCtx_at_clu, State.modClu_clu_ne _ _ _ _ (Ne.symm hk), hseats.clu]

theorem pageWalk_fails (h : WalkTurn s c r) {t : Trap}
    (hf : walk (s.walked c r) (s.ctx c).ident ((s.ctx c).level == .task) r.va r.kind = .error t)
    (hp : ((s.walked c r).ctx c).pend = []) (hs : settled (s.walked c r) c = true) : exec (.pageWalk c) s =
      .next (takeTrap ((s.walked c r).setCtx c { (s.walked c r).ctx c with walk := none }) c t) := by
  have hp : (s.ctx c).pend = [] := by rw [← (walked_sameSeats s c r).ctx]; exact hp
  simp only [pageWalk_turn h, hf, hp, List.isEmpty_nil, Bool.not_true, Bool.false_eq_true, if_false, hs, if_true]
  rfl

end

/-! Acknowledgements (R223, R275, R282). -/

theorem dieBit_own {die : Nat} (hd : die < 10) : (dieBit die).getLsbD die = true := by
  rw [dieBit, BitVec.natCast_eq_ofNat, BitVec.getLsbD_ofNat, Nat.testBit_shiftLeft]
  simp [hd]

/-- A die that leaves a line's directory entry has no bit there (R275). -/
theorem HomeLine.leave_vec (h : HomeLine) {die : Nat} (hd : die < 10) : (h.leave die).vec.getLsbD die = false := by
  have hmask : (h.vec &&& ~~~ dieBit die).getLsbD die = false := by
    rw [BitVec.getLsbD_and, BitVec.getLsbD_not, dieBit_own hd, Bool.not_true, Bool.and_false, Bool.and_false]
  unfold HomeLine.leave
  dsimp only
  split
  · exact BitVec.getLsbD_zero
  · split
    · exact hmask
    · exact hmask

/-- The directory shows a line as it was entered. -/
theorem setHomeLine_vec (s : State) (l : Nat) (h : HomeLine) : ((setHomeLine s l h).homeLine l).vec = h.vec := by
  unfold setHomeLine State.homeLine
  dsimp only
  split
  next hz => rw [Sparse.get_drop, if_pos rfl, hz]
  next => rw [Sparse.get_set_same]

/-- A die whose copy of a line is dropped is in its directory entry no more, and its L2 holds the line no longer (R275). -/
theorem dropCopy_gone (s : State) (l : Nat) {die : Nat} (hd : die < 10) : ((dropCopy s die l).homeLine l).vec.getLsbD die = false ∧
    ∀ x ∈ (Sparse.get [] (dropCopy s die l).l2 die : List L2Line), x.line ≠ l := by
  constructor
  · have hv : ((dropCopy s die l).homeLine l).vec = ((s.homeLine l).leave die).vec := setHomeLine_vec s l _
    rw [hv]
    exact HomeLine.leave_vec _ hd
  · intro x hx
    simp only [dropCopy, Sparse.get_set_same] at hx
    simpa using (List.mem_filter.1 hx).2

section
variable {s : State} {die k : Nat} {v : Inval}

/-- What a die removes are copies of lines and translations. -/
theorem removeAt_whole : removeAt s die v = { s with
    l1 := (removeAt s die v).l1, l2 := (removeAt s die v).l2, homes := (removeAt s die v).homes, clus := (removeAt s die v).clus } := by
  unfold removeAt
  split <;> rfl

/-- A cluster without the translations an invalidation names, if it is of the die (R282). -/
def withoutNamed (die : Nat) (v : Inval) (q : Nat) (x : Cluster) : Cluster :=
  if q / 64 = die then { x with tlb := x.tlb.filter fun e => !v.removes e } else x

/-- A die drops the translations an invalidation names (R282). -/
theorem removeAt_clu (hl : v.line = none) (q : Nat) : (removeAt s die v).clu q = withoutNamed die v q (s.clu q) := by
  have hmap : (removeAt s die v).clus = s.clus.map fun (e : Nat × Cluster) => (e.1, withoutNamed die v e.1 e.2) := by
    simp only [removeAt, hl]
    refine List.map_congr_left fun e _ => ?_
    unfold withoutNamed
    split <;> rfl
  have hblank : withoutNamed die v q {} = {} := by
    unfold withoutNamed
    split <;> rfl
  rw [State.clu, hmap]
  exact Sparse.get_map {} (withoutNamed die v) q hblank s.clus

/-- An acknowledgement changes the invalidations, and at most the issuer's context. -/
theorem acked_whole : acked s die v = { s with ctxs := (acked s die v).ctxs, invals := (acked s die v).invals } := by
  unfold acked
  dsimp only
  split
  · split
    · split <;> rfl
    · rfl
  · rfl

theorem acked_invals : (acked s die v).invals =
    if (v.waiting.filter (· != die)).isEmpty then s.invals.filter fun y => y.id != v.id
    else s.invals.map fun y => if y.id = v.id then { y with waiting := v.waiting.filter (· != die) } else y := by
  unfold acked
  dsimp only
  split
  · split
    · split <;> rfl
    · rfl
  · rfl

/-- An invalidation acknowledged waits for the die no more. -/
theorem acked_waits {y : Inval} (hy : y ∈ (acked s die v).invals) (hid : y.id = v.id) : die ∉ y.waiting := by
  rw [acked_invals] at hy
  split at hy
  · exact absurd hid (by simpa using (List.mem_filter.1 hy).2)
  · obtain ⟨z, -, rfl⟩ := List.mem_map.1 hy
    split
    next => simp
    next hz => exact absurd (by rwa [if_neg hz] at hid) hz

/-- The other invalidations stand as they stood. -/
theorem acked_others {y : Inval} (hid : y.id ≠ v.id) : y ∈ (acked s die v).invals ↔ y ∈ s.invals := by
  rw [acked_invals]
  split
  · simp [hid]
  · rw [List.mem_map]
    constructor
    · rintro ⟨z, hz, rfl⟩
      split at hid
      next h => exact absurd h hid
      next h => rwa [if_neg h]
    · exact fun hy => ⟨y, hy, if_neg hid⟩

/-- The last die's acknowledgement answers the issuer that waits (R223, R282). -/
theorem acked_last (hw : v.waiting = [die]) (hr : ∃ n, (s.ctx v.c).run = .blocked .invalidate n) (hs : (s.ctx v.c).sent = true) :
    (acked s die v).ctx v.c = { s.ctx v.c with reply := some (.ok 0) } ∧ ∀ y ∈ (acked s die v).invals, y.id ≠ v.id := by
  obtain ⟨n, hr⟩ := hr
  have hempty : (v.waiting.filter (· != die)).isEmpty = true := by simp [hw]
  constructor
  · have hack : acked s die v = { s with invals := s.invals.filter fun y => y.id != v.id }.modCtx v.c fun x =>
        { x with reply := some (.ok 0) } := by
      have hctx : ({ s with invals := s.invals.filter fun y => y.id != v.id } : State).ctx v.c = s.ctx v.c := rfl
      simp only [acked, hempty, if_true, hctx, hr, hs]
    rw [hack, State.modCtx_ctx_same]
    rfl
  · intro y hy
    rw [acked_invals, if_pos hempty] at hy
    simpa using (List.mem_filter.1 hy).2

theorem invalidationAck_of (hf : (s.invals.find? fun y => y.id == k && y.waiting.contains die) = some v) :
    exec (.invalidationAck die k) s = .next (if v.awaits s die then s else acked (removeAt s die v) die v) := by
  have hexec : exec (.invalidationAck die k) s = execInvalidationAck die k s := rfl
  rw [hexec]
  simp only [execInvalidationAck, hf]

theorem invalidation_acked (hf : (s.invals.find? fun y => y.id == k && y.waiting.contains die) = some v)
    (ha : v.awaits s die = false) : ∃ u, exec (.invalidationAck die k) s = .next u ∧ SameBytes s u ∧
      (∀ l, v.line = some l → die < 10 → (u.homeLine l).vec.getLsbD die = false ∧
        ∀ x ∈ (Sparse.get [] u.l2 die : List L2Line), x.line ≠ l) ∧
      (v.line = none → ∀ q, u.clu q =
        if q / 64 = die then { s.clu q with tlb := (s.clu q).tlb.filter fun e => !v.removes e } else s.clu q) ∧
      (∀ y ∈ u.invals, y.id = k → die ∉ y.waiting) ∧ (∀ y, y.id ≠ k → (y ∈ u.invals ↔ y ∈ s.invals)) ∧
      (v.waiting = [die] → (∃ n, (s.ctx v.c).run = .blocked .invalidate n) → (s.ctx v.c).sent = true →
        u.ctx v.c = { s.ctx v.c with reply := some (.ok 0) } ∧ ∀ y ∈ u.invals, y.id ≠ k) := by
  obtain ⟨rfl, -⟩ : v.id = k ∧ _ := by simpa using List.find?_some hf
  have hinvals : (removeAt s die v).invals = s.invals := by rw [removeAt_whole]
  have hctx : ∀ c, (removeAt s die v).ctx c = s.ctx c := fun c => by rw [removeAt_whole]; rfl
  refine ⟨acked (removeAt s die v) die v, by rw [invalidationAck_of hf, ha]; rfl, fun a => ?_, fun l hl hd => ?_, fun hl q => ?_,
    fun y => acked_waits, fun y hy => ?_, fun hw hr hs => ?_⟩
  · rw [acked_whole, removeAt_whole]
    rfl
  · have hrem : removeAt s die v = dropCopy s die l := by simp only [removeAt, hl]
    rw [acked_whole, hrem]
    exact dropCopy_gone s l hd
  · rw [acked_whole]
    exact removeAt_clu hl q
  · rw [acked_others hy, hinvals]
  · have hlast := acked_last (s := removeAt s die v) hw (by rw [hctx]; exact hr) (by rw [hctx]; exact hs)
    rwa [hctx] at hlast

end

/-! Banks that were waited for (R218). -/

section
variable {s : State} {c cl m first n : Nat} {mode : BankMode}

/-- The modes a BANKCFG asks for. -/
def askedModes (s : State) (cl m : Nat) (mode : BankMode) (b : Nat) : BankMode := if m.testBit b then mode else bankMode s cl b

theorem bankModeSet_of (hr : (s.ctx c).run = .blocked (.banks cl m mode first) n) : exec (.bankModeSet c) s =
    .next (if banksIdle s cl (bankChanges s cl m mode) first then setModes s cl (askedModes s cl m mode) else s) := by
  have hexec : exec (.bankModeSet c) s = execBankModeSet c s := rfl
  rw [hexec]
  simp only [execBankModeSet, hr]
  rfl

theorem banks_set (hr : (s.ctx c).run = .blocked (.banks cl m mode first) n)
    (hi : banksIdle s cl (bankChanges s cl m mode) first = true) : ∃ u, exec (.bankModeSet c) s = .next u ∧
      (∀ b, b < 32 → bankMode u cl b = if m.testBit b then mode else bankMode s cl b) ∧
      (∀ b j, b < 32 → j < 65536 → m.testBit b = true → mode = .scratch → bankMode s cl b ≠ .scratch →
        byteAt u (2 ^ 52 + cl / 64 * 2 ^ 25 + cl % 64 * 2 ^ 21 + b * 65536 + j) = 0) ∧ u.ctxs = s.ctxs ∧
      ∀ x, x < 2 ^ 52 → byteAt u x = byteAt s x := by
  refine ⟨setModes s cl (askedModes s cl m mode), by rw [bankModeSet_of hr, if_pos hi], fun b hb => bankMode_setModes s cl _ hb,
    fun b j hb hj hm hmode hold => ?_, by rw [setModes_whole], fun x hx => ?_⟩
  · rw [byteAt_setModes]
    exact byteAt_modesZeroed_entered s cl _ hb hj ((if_pos hm).trans hmode) hold
  · rw [byteAt_setModes]
    exact byteAt_modesZeroed_outside s cl _ (.inl (by unfold scratchBase; omega))

end

end Sys2Proof.Machine
end

section
/-! SUPPORT. Actors that fire or retire, and handlers that start (R215, R257, R258, R261). -/

namespace Sys2Proof.Machine

/-! Actors (R257, R258). -/

theorem Sparse.mem_of_get {α : Type} {m : Sparse (Option α)} {k : Nat} {x : α} (h : Sparse.get none m k = some x) :
    (k, some x) ∈ m := by
  induction m with
  | nil => cases h
  | cons e r ih =>
    obtain ⟨j, y⟩ := e
    rw [Sparse.get] at h
    split at h
    next hj => rw [hj, h]; exact List.mem_cons_self
    next => exact List.mem_cons_of_mem _ (ih h)

theorem all_given {l : List (Option FifoDesc)} {g : Option FifoDesc → Bool} {p : FifoDesc → Prop} (hn : g none = true)
    (hs : ∀ f, g (some f) = true ↔ p f) : l.all g = true ↔ ∀ f, some f ∈ l → p f := by
  rw [List.all_eq_true]
  constructor
  · exact fun h f hf => (hs f).1 (h _ hf)
  · intro h f hf
    cases f with
    | none => exact hn
    | some f => exact (hs f).2 (h f hf)

theorem canFire_iff (s : State) (x : Actor) : canFire s x = true ↔ x.live = true ∧ x.retired = false ∧ x.firing = false ∧
    (∀ f, some f ∈ x.ins → f.rate ≤ (Sparse.get [] (s.clu x.cluster).fifo f.bank).length) ∧
    (∀ f, some f ∈ x.outs → (Sparse.get [] (s.clu x.cluster).fifo f.bank).length + f.rate ≤
      if f.size = 0 then 0 else 65536 / f.size) := by
  simp only [canFire, fifoLen, fifoRoom, Bool.and_eq_true, and_assoc, Bool.not_eq_true']
  exact and_congr_right fun _ => and_congr_right fun _ => and_congr_right fun _ =>
    and_congr (all_given rfl fun f => decide_eq_true_iff) (all_given rfl fun f => decide_eq_true_iff)

section
variable {s : State} {a : Nat} {x : Actor}

/-- Where every producer of no actor has retired, none retires (R258). -/
theorem retireActors_none (h : ∀ e ∈ s.actors, ∀ y, e.2 = some y → starved s y = false) : retireActors s = s := by
  have hpass : retirePass s = s := by
    refine List.foldl_fixed' (fun e => ?_) _
    split
    next y hy =>
      have hstarved : starved s y = false := h _ (Sparse.mem_of_get hy) y rfl
      rw [hstarved, Bool.and_false]
      rfl
    next => rfl
  exact List.foldl_fixed' (fun _ => hpass) _

theorem modMember_whole (j m : Nat) (f : Member → Member) : modMember s j m f = { s with jobs := (modMember s j m f).jobs } := by
  unfold modMember
  split <;> rfl

/-- The actor marked firing, and its task counted in the member it has (R256, R257). -/
def fireMarked (s : State) (a : Nat) (x : Actor) : State :=
  let s := s.setActor a (some { x with firing := true, read := [], wrote := [] })
  match x.task.member with
  | some (j, m) => modMember s j m fun y => { y with live := y.live + 1 }
  | none => s

theorem fireMarked_whole : fireMarked s a x = { s with
    actors := Sparse.set s.actors a (some { x with firing := true, read := [], wrote := [] }), jobs := (fireMarked s a x).jobs } := by
  unfold fireMarked
  dsimp only
  split
  · conv_lhs => rw [modMember_whole]
    rfl
  · rfl

/-- An actor fires (R257): a new number, the mark, and a task from its template in the pool. -/
def fired (s : State) (a : Nat) (x : Actor) : State :=
  let g := newGti s (partNo x.task.ident) (x.cluster / 64)
  let u := fireMarked g.2 a x
  enterPool u ((poolDie u (partNo x.task.ident) x.task.kind x.task.home (x.cluster / 64)).getD (x.cluster / 64))
    { x.task with gti := g.1, actor := some a }

theorem actorFiring_of (hx : s.actor a = some x) : exec (.actorFiring a) s =
    .next (if canFire s x = false then retireActors s else fired s a x) := by
  have hexec : exec (.actorFiring a) s = execActorFiring a s := rfl
  rw [hexec]
  simp only [execActorFiring, hx, Bool.not_eq_true']
  rfl

theorem newGti_serial (part die : Nat) (d : Nat) : ((newGti s part die).2).die d =
    { s.die d with serial := (((newGti s part die).2).die d).serial } := by
  rw [newGti, State.modDie_at_die]
  split
  next h => rw [h]
  next => rfl

theorem actor_fires {d : Nat} (hx : s.actor a = some x) (hf : canFire s x = true)
    (hd : poolDie s (partNo x.task.ident) x.task.kind x.task.home (x.cluster / 64) = some d) :
    ∃ u g, exec (.actorFiring a) s = .next u ∧ u.actor a = some { x with firing := true, read := [], wrote := [] } ∧
      (u.die d).ready = (s.die d).ready ++ [{ x.task with gti := g, actor := some a, passes := 0, promoted := false }] ∧
      g = nat64 (partNo x.task.ident % 256 * 2 ^ 56 + logDie s (partNo x.task.ident) (x.cluster / 64) % 32 * 2 ^ 51
        + (Sparse.get 0 (s.die (x.cluster / 64)).serial (partNo x.task.ident) + 1) % 2 ^ 51) ∧
      u.ctxs = s.ctxs ∧ u.clus = s.clus ∧ SameBytes s u := by
  have hpool : fired s a x = enterPool (fireMarked (newGti s (partNo x.task.ident) (x.cluster / 64)).2 a x) d
      { x.task with gti := (newGti s (partNo x.task.ident) (x.cluster / 64)).1, actor := some a } := by
    have hsame : poolDie (fireMarked (newGti s (partNo x.task.ident) (x.cluster / 64)).2 a x) (partNo x.task.ident)
        x.task.kind x.task.home (x.cluster / 64) = some d := by
      rw [← hd, fireMarked_whole]
      rfl
    simp only [fired, hsame, Option.getD_some]
  refine ⟨fired s a x, (newGti s (partNo x.task.ident) (x.cluster / 64)).1, by rw [actorFiring_of hx, if_neg (by rw [hf]; nofun)], ?_, ?_,
    rfl, ?_, ?_, ?_⟩
  · rw [hpool, fireMarked_whole]
    exact Sparse.get_set_same ..
  · have hready : ((fireMarked (newGti s (partNo x.task.ident) (x.cluster / 64)).2 a x).die d).ready = (s.die d).ready := by
      have hnew := congrArg Die.ready (newGti_serial (s := s) (partNo x.task.ident) (x.cluster / 64) d)
      rw [fireMarked_whole]
      exact hnew
    rw [hpool, enterPool, State.modDie_at_die, if_pos rfl, ← hready]
  · rw [hpool, fireMarked_whole]
    rfl
  · rw [hpool, fireMarked_whole]
    rfl
  · intro y
    rw [hpool, fireMarked_whole]
    rfl

theorem actor_rests (hx : s.actor a = some x) (hf : canFire s x = false) : exec (.actorFiring a) s = .next (retireActors s) := by
  rw [actorFiring_of hx, if_pos hf]

end

/-! A context given work (R149, R247). -/

/-- General registers set in order from one past `n` on. -/
def setRegs (x : Context) : Nat → List Reg → Context
  | _, [] => x
  | n, r :: l => setRegs (x.setReg (BitVec.ofNat 6 (n + 1)) r) (n + 1) l

theorem setRegs_fold : ∀ (l : List Reg) (n : Nat) (x : Context), (l.mapIdx fun j r => (n + j, r)).foldl
    (fun (y : Context) e => y.setReg (BitVec.ofNat 6 (e.1 + 1)) e.2) x = setRegs x n l
  | [], _, _ => rfl
  | r :: l, n, x => by
    rw [List.mapIdx_cons, List.foldl_cons, setRegs, ← setRegs_fold l]
    simp only [Nat.add_zero, Nat.add_assoc, Nat.add_comm 1]

theorem setRegs_whole : ∀ (l : List Reg) (n : Nat) (x : Context), setRegs x n l = { x with g := (setRegs x n l).g }
  | [], _, _ => rfl
  | r :: l, n, x => by
    rw [setRegs, setRegs_whole l, setReg_eq]

theorem setRegs_reg : ∀ (l : List Reg) (n : Nat) (x : Context) (j : BitVec 6), j ≠ 0 → n + l.length < 64 →
    (setRegs x n l).reg j = if n < j.toNat then (l[j.toNat - 1 - n]?).getD (x.reg j) else x.reg j
  | [], n, x, j, _, _ => by simp [setRegs]
  | r :: l, n, x, j, hj, hn => by
    rw [List.length_cons] at hn
    rw [setRegs, setRegs_reg l (n + 1) _ j hj (by omega), setReg_reg]
    have hnum : BitVec.ofNat 6 (n + 1) = j ↔ j.toNat = n + 1 := by
      rw [← BitVec.toNat_inj, BitVec.toNat_ofNat, Nat.mod_eq_of_lt (by omega), eq_comm]
    simp only [hnum, hj, ne_eq, not_false_eq_true, and_true]
    obtain hlt | heq | hgt := Nat.lt_trichotomy j.toNat (n + 1)
    · rw [if_neg (by omega), if_neg (by omega), if_neg (by omega)]
    · rw [if_neg (by omega), if_pos heq, if_pos (by omega), show j.toNat - 1 - n = 0 by omega]
      rfl
    · rw [if_pos (by omega), if_neg (by omega), if_pos (by omega), show j.toNat - 1 - n = j.toNat - 1 - (n + 1) + 1 by omega]
      rfl

section
variable {s : State} {c : Nat}

theorem newTimelines_whole (owner : Nat) : newTimelines s owner = { s with tls := (newTimelines s owner).tls } := by
  suffices h : ∀ (l : List Nat) (s : State), l.foldl (fun s j => s.modTline owner j fun _ => {}) s =
      { s with tls := (l.foldl (fun s j => s.modTline owner j fun _ => {}) s).tls } from h _ s
  intro l
  induction l with
  | nil => exact fun _ => rfl
  | cons j l ih =>
    intro s
    rw [List.foldl_cons, ih]
    rfl

theorem traceEvent_whole (part kind code core : Nat) (gti value : Word) : traceEvent s part kind code core gti value =
    { s with parts := (traceEvent s part kind code core gti value).parts } := by
  unfold traceEvent
  dsimp only
  split <;> rfl

theorem traceEvent_ctx (part kind code core : Nat) (gti value : Word) (e : Nat) :
    (traceEvent s part kind code core gti value).ctx e = s.ctx e := by
  rw [traceEvent_whole]
  rfl

/-- The context of a task that starts: its numbers go on, everything else is new (R149, R247). -/
def freshContext (s : State) (c : Nat) (t : Task) (pc : Word) : Context :=
  let x := s.ctx c
  { nextId := x.nextId, seq := x.seq, atoms := x.atoms, set := x.set, run := .running, pc := pc, ident := t.ident, latch := 0x07
    paired := (s.core (coreOf c)).bridle.isSome, task := some t }

theorem startTask_eq (t : Task) (pc : Word) (regs : List Reg) : startTask s c t pc regs =
    pairStarts (newTimelines (s.setCtx c (setRegs (freshContext s c t pc) 0 regs)) (t.gti.toNat * 2 + 1)) (coreOf c) := by
  rw [← setRegs_fold]
  simp only [Nat.zero_add]
  rfl

/-- Starting a task changes the context, timelines and the pair. -/
theorem startTask_whole (t : Task) (pc : Word) (regs : List Reg) : ∃ T K, startTask s c t pc regs =
    { s.setCtx c (setRegs (freshContext s c t pc) 0 regs) with tls := T, cores := K } := by
  rw [startTask_eq, newTimelines_whole]
  exact ⟨_, _, rfl⟩

/-- A context given a task has its entry, its registers and R149's values. -/
theorem startTask_started (t : Task) (pc : Word) {regs : List Reg} (hn : regs.length < 64) :
    Started (startTask s c t pc regs) c pc .task t.ident regs := by
  have hctx : (startTask s c t pc regs).ctx c = setRegs (freshContext s c t pc) 0 regs := by
    obtain ⟨T, K, h⟩ := startTask_whole (s := s) (c := c) t pc regs
    rw [h]
    exact State.setCtx_ctx_same ..
  have hold := setRegs_whole regs 0 (freshContext s c t pc)
  constructor
  case general =>
    intro j hj
    have hpos : 0 < j.toNat := Nat.pos_of_ne_zero fun h => hj (BitVec.eq_of_toNat_eq h)
    rw [hctx, setRegs_reg regs 0 _ j hj (by omega), if_pos hpos, Nat.sub_zero]
    have hblank : (freshContext s c t pc).reg j = {} := by
      rw [Context.reg, if_neg hj]
      rfl
    rw [hblank]
  all_goals
    rw [hctx, hold]
  case plain => exact ⟨rfl, rfl, rfl, rfl, rfl, rfl⟩
  all_goals rfl

end

/-! Handlers (R215, R261). -/

section
variable {s : State} {c : Nat} {m : ActMsg} {l : List ActMsg}

/-- The die of a context without a message that leaves its handler queue. -/
def takeHandler (s : State) (c : Nat) (m : ActMsg) : State :=
  s.modDie (dieOf c) fun x => { x with handlers := x.handlers.erase m }

theorem takeHandler_head (h : (s.die (dieOf c)).handlers = m :: l) : ((takeHandler s c m).die (dieOf c)).handlers = l := by
  rw [takeHandler, State.modDie_at_die, if_pos rfl]
  simp only [h, List.erase_cons_head]

/-- The world a handler runs for (R215). -/
def handlerIdent (s : State) (m : ActMsg) : Ident :=
  { custodian := false, part := m.ident.part, vf := m.ident.vf, gen := genOf s m.ident, world := true }

/-- The task of a handler (R215, R261). -/
def handlerTask (s : State) (c : Nat) (m : ActMsg) (gti : Word) : Task :=
  { gti := gti, ident := handlerIdent s m, handler := true, entry := m.entry, meshHome := some (coreOf c)
    msg := some (m.sender.setWidth 21, m.t0, m.t1), msgStart := s.time.toNat }

/-- What a handler finds in g1 to g5: the message's words, and its sender. -/
def handlerRegs (m : ActMsg) : List Reg := ((m.words ++ [0, 0, 0, 0]).take 4 ++ [m.sender]).map Reg.ofWord

theorem handlerRegs_length (m : ActMsg) : (handlerRegs m).length < 64 := by
  simp only [handlerRegs, List.length_map, List.length_append, List.length_take, List.length_singleton]
  omega

/-- A handler starts at a message's entry. -/
def startHandler (s : State) (c : Nat) (m : ActMsg) : State :=
  let g := newGti s (partNo m.ident) (dieOf c)
  startTask g.2 c (handlerTask g.2 c m g.1) m.entry (handlerRegs m)

theorem startHandler_whole : ∃ C T K, startHandler s c m =
    { (newGti s (partNo m.ident) (dieOf c)).2 with ctxs := C, tls := T, cores := K } ∧ ∀ e, e ≠ c → (startHandler s c m).ctx e = s.ctx e := by
  obtain ⟨T, K, h⟩ := startTask_whole (s := (newGti s (partNo m.ident) (dieOf c)).2) (c := c)
    (handlerTask (newGti s (partNo m.ident) (dieOf c)).2 c m (newGti s (partNo m.ident) (dieOf c)).1) m.entry (handlerRegs m)
  refine ⟨_, T, K, h, fun e he => ?_⟩
  rw [startHandler, h]
  exact State.setCtx_ctx_ne _ _ _ _ (Ne.symm he)

/-- A free handler context takes the oldest message it may, and starts it if its sender is current (R215, R449). -/
theorem handlerDispatch_head (hc : handlerContext c = true) (hm : (s.die (dieOf c)).handlers = m :: l)
    (ho : openContext s c m.ident.part = true) : ∃ part core gti, exec (.handlerDispatch c) s =
      .next (if current s m.ident then traceEvent (startHandler (takeHandler s c m) c m) part 1 0 core gti m.entry
        else takeHandler s c m) := by
  have hfind : ((s.die (dieOf c)).handlers.find? fun m => openContext s c m.ident.part) = some m := by
    rw [hm]
    exact List.find?_cons_of_pos (p := fun m : ActMsg => openContext s c m.ident.part) ho
  have hcurrent : current (takeHandler s c m) m.ident = current s m.ident := rfl
  have hexec : exec (.handlerDispatch c) s = execHandlerDispatch c s := rfl
  rw [hexec, ← hcurrent]
  simp only [execHandlerDispatch, hc, hfind, Bool.not_true, Bool.false_eq_true, if_false]
  cases hcur : current (takeHandler s c m) m.ident with
  | true =>
    unfold takeHandler at hcur
    simp only [hcur, Bool.not_true, Bool.false_eq_true, if_false, if_true]
    exact ⟨_, _, _, rfl⟩
  | false =>
    unfold takeHandler at hcur
    simp only [hcur, Bool.not_false, if_true, Bool.false_eq_true, if_false]
    exact ⟨0, 0, 0, rfl⟩

theorem handler_starts (hc : handlerContext c = true) (hm : (s.die (dieOf c)).handlers = m :: l)
    (ho : openContext s c m.ident.part = true) (hcur : current s m.ident = true) :
    ∃ u, exec (.handlerDispatch c) s = .next u ∧ (u.die (dieOf c)).handlers = l ∧
      Started u c m.entry .task (handlerIdent s m) (handlerRegs m) ∧ (∀ e, e ≠ c → u.ctx e = s.ctx e) ∧ SameBytes s u := by
  obtain ⟨part, core, gti, hexec⟩ := handlerDispatch_head hc hm ho
  rw [hcur, if_pos rfl] at hexec
  have hstart : Started (startHandler (takeHandler s c m) c m) c m.entry .task (handlerIdent s m) (handlerRegs m) :=
    startTask_started _ _ (handlerRegs_length m)
  obtain ⟨C, T, K, hw, hothers⟩ := startHandler_whole (s := takeHandler s c m) (c := c) (m := m)
  have htrace := traceEvent_whole (s := startHandler (takeHandler s c m) c m) part 1 0 core gti m.entry
  have hctx : ∀ e, (traceEvent (startHandler (takeHandler s c m) c m) part 1 0 core gti m.entry).ctx e =
      (startHandler (takeHandler s c m) c m).ctx e := fun e => traceEvent_ctx ..
  refine ⟨_, hexec, ?_, ?_, fun e he => ?_, fun x => ?_⟩
  · have hnew := congrArg Die.handlers (newGti_serial (s := takeHandler s c m) (partNo m.ident) (dieOf c) (dieOf c))
    rw [htrace, hw]
    exact hnew.trans (takeHandler_head hm)
  · constructor
    case general => rw [hctx]; exact hstart.general
    all_goals rw [hctx]
    exacts [hstart.run, hstart.pc, hstart.level, hstart.ident, hstart.latch, hstart.vectors, hstart.preds, hstart.plain]
  · rw [hctx, hothers e he]
    rfl
  · rw [htrace, hw]
    rfl

theorem handler_stale (hc : handlerContext c = true) (hm : (s.die (dieOf c)).handlers = m :: l)
    (ho : openContext s c m.ident.part = true) (hcur : current s m.ident = false) :
    ∃ u, exec (.handlerDispatch c) s = .next u ∧ (u.die (dieOf c)).handlers = l ∧ u.ctxs = s.ctxs := by
  obtain ⟨part, core, gti, hexec⟩ := handlerDispatch_head hc hm ho
  rw [hcur, if_neg (by nofun)] at hexec
  exact ⟨_, hexec, takeHandler_head hm, rfl⟩

theorem handler_none (h : handlerContext c = false ∨ ∀ m ∈ (s.die (dieOf c)).handlers, openContext s c m.ident.part = false) :
    exec (.handlerDispatch c) s = .next s := by
  have hexec : exec (.handlerDispatch c) s = execHandlerDispatch c s := rfl
  rw [hexec]
  obtain h | h := h
  · simp only [execHandlerDispatch, h, Bool.not_false, if_true]
  · have hfind : ((s.die (dieOf c)).handlers.find? fun m => openContext s c m.ident.part) = none :=
      List.find?_eq_none.2 fun m hm => by rw [h m hm]; nofun
    simp only [execHandlerDispatch, hfind, ite_self]

end

/-- Settles O56: what each event that reaches a context does, and that nothing happens where its condition fails. -/
theorem eventsReachContexts : Obligations.EventsReachContexts := by
  unfold Obligations.EventsReachContexts
  refine ⟨fun s c t l hp ha hs hr => ⟨fun hk => ?_, fun hk => ?_⟩, fun s c => asyncTrap_none, fun s c => preempted,
    fun s c r => preemption_leaving, fun s c d n => wfe_timeout, fun s c d t => parked_timeout,
    fun s c r h => ⟨fun f => pageWalk_found h, fun t => pageWalk_fails h⟩,
    fun s die k v hf => ⟨fun ha => ?_, invalidation_acked hf⟩,
    fun s c cl m mode first n hr => ⟨banks_set hr, fun hi => ?_⟩,
    fun s a x hx => ⟨actor_rests hx, fun hf hn => ?_, fun d hf => actor_fires hx hf⟩, canFire_iff,
    fun s c m l hc hm ho => ⟨handler_starts hc hm ho, handler_stale hc hm ho⟩, fun s c => handler_none⟩
  · rw [asyncTrap_taken hp ha hs hr, putOff, if_pos hk]
  · rw [asyncTrap_taken hp ha hs hr, putOff, if_neg hk]
  · rw [invalidationAck_of hf, ha, if_pos rfl]
  · rw [bankModeSet_of hr, hi, if_neg (by nofun)]
  · rw [actor_rests hx hf, retireActors_none hn]

end Sys2Proof.Machine
end

section
/-! SUPPORT. Taking a trap (R230 to R232, R468, R478): what is given up first, what is counted and recorded, and where each level
and each kind of core goes on. -/

namespace Sys2Proof.Machine

/-! What is given up first (R47, R102). -/

section
variable (s : State) (c : Nat)

theorem putOne_ctxs (e : Src × MsgWord) : (putOne c s e).ctxs = s.ctxs := by
  unfold putOne
  dsimp only
  split
  case h_4 => split <;> rfl
  all_goals rfl

theorem giveBack_ctx_same : (giveBack s c).ctx c = { s.ctx c with held := none } := by
  unfold giveBack
  split
  next h => rw [← h]
  next l h =>
    have hctxs := foldl_keeps (g := State.ctxs) (fun s e => putOne_ctxs s c e) l.reverse (s.modCtx c fun x => { x with held := none })
    rw [State.ctx, hctxs]
    exact State.modCtx_ctx_same ..

theorem squash_ctx_spec : ((squash s c).ctx c).spec = none := by
  unfold squash
  split
  next h => exact h
  next p h => rw [State.modCtx_ctx_same]

/-- A context that has given up an unresolved branch stands at it again (R102). -/
theorem squash_ctx_pc {p : Spec} (h : (s.ctx c).spec = some p) : ((squash s c).ctx c).pc = p.pc := by
  unfold squash
  rw [h]
  dsimp only
  rw [State.modCtx_ctx_same]

variable {s c}

theorem squash_of_none (h : (s.ctx c).spec = none) : squash s c = s := by rw [squash, h]

theorem giveBack_of_none (h : (s.ctx c).held = none) : giveBack s c = s := by rw [giveBack, h]

/-- Nothing to give up. -/
theorem giveBack_squash (hh : (s.ctx c).held = none) (hs : (s.ctx c).spec = none) : giveBack (squash s c) c = s := by
  rw [squash_of_none hs, giveBack_of_none hh]

theorem givenUp_held : ((giveBack (squash s c) c).ctx c).held = none := by rw [giveBack_ctx_same]

theorem givenUp_spec : ((giveBack (squash s c) c).ctx c).spec = none := by
  rw [giveBack_ctx_same]
  exact squash_ctx_spec s c

end

/-! What is counted and recorded (R152, R470). -/

/-- The counters of the core and, at a breakpoint, a record of the partition's trace. -/
def trapNoted (s : State) (c : Nat) (t : Trap) : State :=
  let u := countEvent s (coreOf c) 7 1
  if t.cause = 0x0F then
    traceEvent u (partNo (s.ctx c).ident) 4 0x0F (coreWord u (s.ctx c).ident (coreOf c)).toNat (gtiOf (s.ctx c)) t.val
  else u

/-- Two states that differ at most in event counters and traces. -/
structure Noted (s u : State) : Prop where
  whole : u = { s with cores := u.cores, parts := u.parts }
  core : ∀ k, u.core k = { s.core k with evc := (u.core k).evc }
  part : ∀ p, u.part p = { s.part p with trace := (u.part p).trace }

theorem countEvent_noted (s : State) (k code n : Nat) : Noted s (countEvent s k code n) := by
  obtain ⟨v, h | h⟩ := countEvent_eq s k code n <;> rw [h]
  · refine ⟨rfl, fun j => ?_, fun _ => rfl⟩
    rw [State.setCore_at_core]
    split
    next hj => rw [hj]
    next => rfl
  · exact ⟨rfl, fun _ => rfl, fun _ => rfl⟩

theorem Noted.traced {s u : State} (h : Noted s u) (part kind code core : Nat) (gti value : Word) :
    Noted s (traceEvent u part kind code core gti value) := by
  unfold traceEvent
  dsimp only
  split
  · refine ⟨by rw [h.whole]; rfl, h.core, fun p => ?_⟩
    rw [State.modPart_at_part]
    split
    next hp => rw [h.part part, hp]
    next => exact h.part p
  · exact h

theorem trapNoted_noted (s : State) (c : Nat) (t : Trap) : Noted s (trapNoted s c t) := by
  unfold trapNoted
  dsimp only
  split
  · exact (countEvent_noted ..).traced ..
  · exact countEvent_noted ..

section
variable {s u : State} {c : Nat} {t : Trap}

theorem Noted.ctx (h : Noted s u) (e : Nat) : u.ctx e = s.ctx e := by rw [h.whole]; rfl
theorem Noted.die (h : Noted s u) (d : Nat) : u.die d = s.die d := by rw [h.whole]; rfl
theorem Noted.dieCtl (h : Noted s u) (d : Nat) : u.dieCtl d = s.dieCtl d := by rw [h.whole]; rfl

theorem Noted.claimOf (h : Noted s u) (x : Context) : claimOf u x = claimOf s x := by
  unfold Machine.claimOf
  rw [h.part]

/-- A context changed after the notes. -/
theorem Noted.trapFrame (h : Noted s u) (x : Context) : TrapFrame s (u.setCtx c x) c := by
  refine ⟨by rw [h.whole]; rfl, fun e he => ?_, h.core, h.part⟩
  rw [State.setCtx_ctx_ne _ _ _ _ (Ne.symm he), h.ctx]

theorem Noted.stops (h : Noted s u) : TrapFrame s (stopAtCustodian u c) c := by
  refine ⟨by rw [h.whole]; rfl, fun e he => ?_, h.core, h.part⟩
  exact (State.setCtx_ctx_ne u c _ e (Ne.symm he)).trans (h.ctx e)

/-! Where the context goes on (R230 to R232, R468). -/

/-- A context whose instruction is over: nothing it has asked for is its own any more. -/
def Context.cut (x : Context) : Context := { x with walk := none, sent := false, reply := none, oflags := 0, mheld := false }

theorem takeTrap_given : takeTrap s c t = takeTrap (giveBack (squash s c) c) c t := by
  unfold takeTrap
  rw [giveBack_squash givenUp_held givenUp_spec]

/-- A trap at task level that is no debug stop of a claimed task (R231, R468). -/
def PlainTrap (s : State) (c : Nat) (t : Trap) : Prop :=
  (s.ctx c).level = .task → ¬ (t.cause = 0x0F ∧ (claimOf s (s.ctx c)).isSome = true)

/-- A debug stop of a claimed task, as `takeTrap` asks for it once the trap is noted. -/
abbrev StopsClaimed (s : State) (c : Nat) (t : Trap) : Prop :=
  (s.ctx c).cut.level = .task ∧ t.cause = 0x0F ∧ (claimOf (trapNoted s c t) (s.ctx c).cut).isSome = true

theorem PlainTrap.passes (h : PlainTrap s c t) : ¬ StopsClaimed s c t := fun ⟨hl, hc, hm⟩ =>
  h hl ⟨hc, by rwa [(trapNoted_noted s c t).claimOf] at hm⟩

variable (hh : (s.ctx c).held = none) (hs : (s.ctx c).spec = none)
include hh hs

theorem takeTrap_claimed (hl : (s.ctx c).level = .task) (hc : t.cause = 0x0F) (hm : (claimOf s (s.ctx c)).isSome = true) :
    takeTrap s c t = (trapNoted s c t).setCtx c
      { (s.ctx c).cut with ktrap := (s.ctx c).trapRegs t, request := none, run := .leaving 3 } := by
  have hstop : StopsClaimed s c t := ⟨hl, hc, by rwa [(trapNoted_noted s c t).claimOf]⟩
  unfold takeTrap
  rw [giveBack_squash hh hs]
  exact if_pos hstop

theorem takeTrap_compute (hk : kindOf c = .compute) (hp : PlainTrap s c t) :
    takeTrap s c t = (trapNoted s c t).setCtx c { (s.ctx c).cut with ktrap := (s.ctx c).trapRegs t, run := .leaving 1 } := by
  unfold takeTrap
  rw [giveBack_squash hh hs]
  exact (if_neg hp.passes).trans (if_pos hk)

theorem takeTrap_task (hk : kindOf c ≠ .compute) (hl : (s.ctx c).level = .task) (hp : PlainTrap s c t) {e : Word}
    (he : Sparse.get 0 (s.die (dieOf c)).kentry (s.ctx c).ident.vf.toNat = e) (h0 : e ≠ 0) :
    takeTrap s c t = (trapNoted s c t).setCtx c { (s.ctx c).entered .kernel e with ktrap := (s.ctx c).trapRegs t } := by
  have hentry : Sparse.get 0 ((trapNoted s c t).die (dieOf c)).kentry (s.ctx c).cut.ident.vf.toNat = e := by
    rw [(trapNoted_noted s c t).die]
    exact he
  subst hentry
  unfold takeTrap
  rw [giveBack_squash hh hs]
  refine (if_neg hp.passes).trans ((if_neg hk).trans ?_)
  dsimp only
  rw [hl]
  exact if_neg h0

theorem takeTrap_kernel (hk : kindOf c ≠ .compute) (hl : (s.ctx c).level = .kernel) (h0 : (s.die (dieOf c)).centry ≠ 0) :
    takeTrap s c t = (trapNoted s c t).setCtx c { (s.ctx c).entered .custodian (s.die (dieOf c)).centry with
      ctrap := (s.ctx c).trapRegs t, ident := { (s.ctx c).ident with custodian := true } } := by
  have hp : PlainTrap s c t := fun h => nomatch hl.symm.trans h
  rw [← (trapNoted_noted s c t).die] at h0 ⊢
  unfold takeTrap
  rw [giveBack_squash hh hs]
  refine (if_neg hp.passes).trans ((if_neg hk).trans ?_)
  dsimp only
  rw [hl]
  exact if_neg h0

theorem takeTrap_custodian (hk : kindOf c ≠ .compute) (hl : (s.ctx c).level = .custodian) :
    takeTrap s c t = stopAtCustodian (trapNoted s c t) c := by
  have hp : PlainTrap s c t := fun h => nomatch hl.symm.trans h
  unfold takeTrap
  rw [giveBack_squash hh hs]
  refine (if_neg hp.passes).trans ((if_neg hk).trans ?_)
  dsimp only
  rw [hl]
  rfl

end

/-- A context stopped at custodian level has no trap register written, and its die says where it stopped (R230, R478). -/
theorem Noted.stopped {s u : State} {c : Nat} (h : Noted s u) :
    ((stopAtCustodian u c).ctx c) = { s.ctx c with run := .stopped } ∧
    (stopAtCustodian u c).dieCtl (dieOf c) = { s.dieCtl (dieOf c) with state := 2, stoppc := (s.ctx c).pc.setWidth 56 } := by
  refine ⟨?_, ?_⟩
  · exact (State.setCtx_ctx_same u c _).trans (by rw [h.ctx])
  · unfold stopAtCustodian
    rw [State.modCtl_dieCtl_same, State.setCtx_at_dieCtl, h.dieCtl, h.ctx]

/-- Settles O22: what is given up is given up once, and then the branch of the level is the statement's. -/
theorem trapsInPlace : Obligations.TrapsInPlace := by
  unfold Obligations.TrapsInPlace
  refine ⟨fun s c t => ⟨takeTrap_given, givenUp_held, givenUp_spec, fun p hp => ?_⟩,
    fun s c t hk hh hs => ⟨fun hl hp e he h0 => ?_, fun hl h0 => ?_⟩⟩
  · rw [giveBack_ctx_same]
    exact squash_ctx_pc s c hp
  · rw [takeTrap_task hh hs hk hl (fun _ => hp) he h0]
    exact ⟨State.setCtx_ctx_same .., (trapNoted_noted s c t).trapFrame _⟩
  · rw [takeTrap_kernel hh hs hk hl h0]
    exact ⟨State.setCtx_ctx_same .., (trapNoted_noted s c t).trapFrame _⟩

/-- Settles O23: a trap on a compute core and one of a claimed task start a switch-out; at custodian level the context stops. -/
theorem trapsThatStop : Obligations.TrapsThatStop := by
  unfold Obligations.TrapsThatStop
  refine fun s c t hh hs => ⟨fun hk hl hp => ?_, fun hl hc hm => ?_, fun hk hl => ?_⟩
  · rw [takeTrap_compute hh hs hk fun _ => hp]
    exact ⟨State.setCtx_ctx_same .., (trapNoted_noted s c t).trapFrame _⟩
  · rw [takeTrap_claimed hh hs hl hc hm]
    exact ⟨State.setCtx_ctx_same .., (trapNoted_noted s c t).trapFrame _⟩
  · have hn := trapNoted_noted s c t
    obtain ⟨hctx, hdie⟩ := hn.stopped (c := c)
    rw [takeTrap_custodian hh hs hk hl, hctx]
    exact ⟨rfl, rfl, rfl, hdie, hn.stops⟩

end Sys2Proof.Machine
end

section
/-! SUPPORT. The end of a task beyond its context, and TCONT and TREC (R224, R237, R255 to R264): what they do makes no pair, so that
the instruction that asked for them writes its word as any other. -/

namespace Sys2Proof.Machine

/-! No pair comes to be (R160, R162). -/

/-- The same context acts, and a core that ran no pair runs none. -/
structure PairsKept (s t : State) : Prop where
  cur : t.cur = s.cur
  lone : ∀ k, (s.core k).bridle = none → (t.core k).bridle = none

theorem PairsKept.refl (s : State) : PairsKept s s := ⟨rfl, fun _ h => h⟩

theorem PairsKept.trans {s t u : State} (h : PairsKept s t) (g : PairsKept t u) : PairsKept s u :=
  ⟨g.cur.trans h.cur, fun k hk => g.lone k (h.lone k hk)⟩

theorem SameCores.pairs {s t : State} (h : SameCores s t) : PairsKept s t := ⟨h.cur, fun k hk => by rwa [h.core]⟩

/-- Steps that make no pair, in order. -/
theorem PairsKept.foldl {α : Type} {f : State → α → State} (h : ∀ s a, PairsKept s (f s a)) :
    ∀ (l : List α) {s t : State}, PairsKept s t → PairsKept s (l.foldl f t)
  | [], _, _, g => g
  | a :: l, _, t, g => PairsKept.foldl h l (g.trans (h t a))

/-- A core whose pair, if it has one, is not made by the change. -/
theorem modCore_pairs (s : State) (k : Nat) {f : Core → Core} (h : (s.core k).bridle = none → (f (s.core k)).bridle = none) :
    PairsKept s (s.modCore k f) := by
  refine ⟨rfl, fun j hj => ?_⟩
  rw [State.modCore_at_core]
  split
  next hk => exact h (hk ▸ hj)
  next => exact hj

theorem releaseGated_pairs (s : State) (k : Nat) : PairsKept s (releaseGated s k) := by
  unfold releaseGated
  split
  · exact .refl s
  next b hb =>
    refine .foldl (fun s g => ?_) _ ?_
    · exact SameCores.pairs ⟨rfl, rfl⟩
    · split
      · exact .refl s
      · exact modCore_pairs s k fun hn => nomatch hb.symm.trans hn

/-! Timelines (R27, R253). -/

theorem readyParked_sameCores (s : State) (die : Nat) (pin : Bool) (f : Task → Bool) (b : BitVec 5) :
    SameCores s (readyParked s die pin f b) := by
  rw [(readyParked_dies s die pin f b).1]
  exact ⟨rfl, rfl⟩

theorem readyHeld_sameCores (s : State) (die : Nat) : SameCores s (readyHeld s die) :=
  (readyParked_sameCores ..).trans (readyParked_sameCores ..)

theorem completeNum_sameCores (s : State) (owner tl n : Nat) : SameCores s (completeNum s owner tl n) := by
  unfold completeNum
  dsimp only
  split
  · exact .refl s
  · split
    · exact ⟨rfl, rfl⟩
    · refine .foldl (fun s e => (readyParked_sameCores ..).trans (readyHeld_sameCores ..)) _ (.foldl (fun s c => ?_) _ ?_)
      · exact ⟨rfl, rfl⟩
      · exact ⟨rfl, rfl⟩

/-! The end of a job and of a member (R255, R256). -/

theorem closeJob_pairs (s : State) (job : Nat) (j : Job) : PairsKept s (closeJob s job j) := by
  unfold closeJob
  extract_lets others clusters kept pairs actors closed
  have hclusters : PairsKept s clusters := by
    refine .foldl (fun s cl => ?_) _ (.refl s)
    exact SameCores.pairs ⟨rfl, rfl⟩
  have hpairs : PairsKept s pairs := by
    unfold pairs
    split
    · refine .foldl (fun s m => ?_) _ hclusters
      split
      · exact .refl s
      · exact (releaseGated_pairs ..).trans (modCore_pairs _ _ fun _ => rfl)
    · exact hclusters
  have hclosed : PairsKept s closed := hpairs.trans (SameCores.pairs ⟨rfl, rfl⟩)
  split
  · exact hclosed.trans (SameCores.pairs ⟨rfl, rfl⟩)
  · exact hclosed

theorem finishJob_pairs (s : State) (job : Nat) (w : Word) : PairsKept s (finishJob s job w) := by
  unfold finishJob
  split
  · exact .refl s
  · refine PairsKept.trans ?_ (closeJob_pairs ..)
    refine SameCores.pairs (SameCores.trans ?_ (completeNum_sameCores ..))
    split
    · split
      · exact homeStore_sameCores ..
      · exact .refl s
    · exact .refl s

theorem settleMember_pairs (s : State) (job rank : Nat) : PairsKept s (settleMember s job rank) := by
  unfold settleMember
  split
  · exact .refl s
  · dsimp only
    split
    · exact .refl s
    · have hsent := (modMember_sameCores s job rank fun x => { x with sent := true }).pairs
      split
      · exact hsent.trans (finishJob_pairs ..)
      · exact hsent.trans (SameCores.pairs ⟨rfl, rfl⟩)

theorem foldMember_pairs (s : State) (m : Option (Nat × Nat)) (w : Word) : PairsKept s (foldMember s m w) := by
  unfold foldMember
  split
  · exact .refl s
  · exact (modMember_sameCores ..).pairs.trans (settleMember_pairs ..)

/-! The end of a firing (R257, R258). -/

theorem settleActor_pairs (s : State) (a : Actor) : PairsKept s (settleActor s a) := by
  unfold settleActor
  split
  · split
    · exact settleMember_pairs ..
    · exact .refl s
  · exact .refl s

theorem retirePass_pairs (s : State) : PairsKept s (retirePass s) := by
  refine .foldl (fun s e => ?_) _ (.refl s)
  split
  · split
    · refine PairsKept.trans ?_ (settleActor_pairs _ _)
      exact SameCores.pairs ⟨rfl, rfl⟩
    · exact .refl s
  · exact .refl s

theorem retireActors_pairs (s : State) : PairsKept s (retireActors s) := .foldl (fun s _ => retirePass_pairs s) _ (.refl s)

theorem endFiring_pairs (s : State) (n : Nat) (w : Word) : PairsKept s (endFiring s n w) := by
  unfold endFiring
  split
  · exact .refl s
  next a _ =>
    extract_lets u b v
    have hv : PairsKept s v := SameCores.pairs ⟨rfl, rfl⟩
    refine PairsKept.trans ?_ (retireActors_pairs _)
    split
    · exact hv.trans (settleActor_pairs ..)
    · exact hv

/-! The end of a task (R191, R224, R472, R483). -/

theorem messageTimes_sameCores (s : State) (k a b c d : Nat) : SameCores s (messageTimes s k a b c d) := by
  unfold messageTimes
  dsimp only
  split
  · exact .refl s
  · exact (homeStore_sameCores ..).trans ((homeStore_sameCores ..).trans ((homeStore_sameCores ..).trans
      ((homeStore_sameCores ..).trans ((homeStore_sameCores ..).trans (homeStore_sameCores ..)))))

theorem sendLapse_sameCores (s : State) (core : Nat) (gti : Word) : SameCores s (sendLapse s core gti) := by
  unfold sendLapse
  split <;> exact ⟨rfl, rfl⟩

theorem answerMigr_sameCores (s : State) (gti w : Word) : SameCores s (answerMigr s gti w) := by
  refine .foldl (fun s e => ?_) _ (.refl s)
  split
  · split <;> exact ⟨rfl, rfl⟩
  · exact .refl s

theorem traceEvent_sameCores (s : State) (part kind code core : Nat) (gti value : Word) :
    SameCores s (traceEvent s part kind code core gti value) := by
  rw [traceEvent_whole]
  exact ⟨rfl, rfl⟩

/-- The end of a task without its continuation link makes no pair. -/
theorem retireTask_pairs (s : State) (core : Nat) (t : Task) (w : Word) (code : Nat) :
    PairsKept s (retireTask s core t w false code) := by
  unfold retireTask
  extract_lets traced followed fired folded counted replayed timed
  have hfollowed : PairsKept s followed := (traceEvent_sameCores ..).pairs
  have hfired : PairsKept s fired := by
    unfold fired
    split
    · exact hfollowed.trans (endFiring_pairs ..)
    · exact hfollowed
  have hfolded : PairsKept s folded := by
    unfold folded
    split
    · exact hfired
    · exact hfired.trans (foldMember_pairs ..)
  have hreplayed : PairsKept s replayed := by
    refine hfolded.trans (SameCores.pairs (SameCores.trans (t := counted) ⟨rfl, rfl⟩ ?_))
    unfold replayed
    split <;> exact ⟨rfl, rfl⟩
  have htimed : PairsKept s timed := by
    refine hreplayed.trans (SameCores.pairs ?_)
    unfold timed
    split
    · exact messageTimes_sameCores ..
    · exact .refl _
  exact htimed.trans (SameCores.pairs ((sendLapse_sameCores ..).trans ((answerMigr_sameCores ..).trans ⟨rfl, rfl⟩)))

theorem orphanAfterEnd_sameCores (s : State) (m : Option (Nat × Nat)) : SameCores s (orphanAfterEnd s m) := by
  unfold orphanAfterEnd
  split
  · exact .refl s
  · split
    · exact .refl s
    · dsimp only
      split
      · refine .foldl (fun s cl => ?_) _ (.refl s)
        dsimp only
        split <;> exact ⟨rfl, rfl⟩
      · exact .refl s

theorem dropStopped_sameCores (s : State) (die : Nat) (gti : Word) : SameCores s (dropStopped s die gti) := ⟨rfl, rfl⟩

theorem releaseArea_sameCores (s : State) (t : Task) : SameCores s (releaseArea s t) := by
  unfold releaseArea
  split <;> exact ⟨rfl, rfl⟩

/-! The word of the instruction that asked (R262). -/

/-- A command counts as sent (R152), and no pair comes to be. -/
theorem counted_pairs (s : State) : PairsKept s s.counted := by
  have hc := countEvent_counted s (coreOf s.cur) 5 1
  refine ⟨by rw [State.counted, countSent, hc.whole], fun k hk => ?_⟩
  by_cases h : k = coreOf s.cur
  · subst h
    rw [State.counted, countSent, hc.core]
    exact hk
  · rw [State.counted, countSent, hc.cores k h]
    exact hk

section
variable {s : State} {srcs : List Src} {d : Dst}

/-- An engine that makes no pair answers its word in the state it made. -/
theorem Sends.answers {u : State} (h : Sends s srcs d) (hc : isContext s.cur = true) (hp : PairsKept (s.used srcs (some d)) u)
    (w : Word) (hr : operandsReady u s.cur [] (some d) = true) :
    ∃ t, answer u s.cur d w = .ok t ∧ ScalarDone u t [] d w 0 := by
  obtain ⟨-, -, -, -, hu, -⟩ := h.has.words_used
  have hcur : u.cur = s.cur := hp.cur.trans hu.cur
  rw [← hcur] at hc hr ⊢
  exact answer_done hc (hp.lone _ (by rw [hcur]; exact hu.pair h.has.lone)) h.plain w hr

theorem Used.counts {u : State} (h : Used s u srcs) : countSent u s.cur = u.counted := by rw [State.counted, h.cur]

/-- An instruction whose body comes down to such an answer. -/
theorem Sends.answered {h : Hdr} {i : Instr} {body : Nat → State → Res State} {u : State} {w : Word} (hs : Sends s srcs d)
    (hc : Clear s h) (ho : On s h) (hp : PairsKept (s.used srcs (some d)) u) (hi : exec i s = run i h body s)
    (hb : body s.cur s = answer u s.cur d w) : Answered i s u d w := by
  intro hr
  obtain ⟨t, ht, hdone⟩ := hs.answers hc.real hp w hr
  exact ⟨t, hi.trans (run_next hc ho (hb.trans ht)), hdone⟩

end

/-! TCONT (R264). -/

/-- The area's capability grants a TCONT, and its first bytes lie at `pa` (R235, R262). -/
structure AreaGrants (s : State) (a : BitVec 6) (pa : Nat) : Prop where
  cap : engineCap s s.cur a (permLd ||| permSt) 10240 256 = .ok ((s.ctx s.cur).reg a)
  place : engineAt s s.cur ((s.ctx s.cur).low a) 128 0 = .ok pa

/-- What comes after the checks of the area goes on with its place. -/
theorem AreaGrants.grants {s : State} {a : BitVec 6} {pa : Nat} (h : AreaGrants s a pa) {α : Type} (f : Nat → Res α) :
    (do
      let g ← engineCap s s.cur a (permLd ||| permSt) 10240 256
      let pa ← engineAt s s.cur (g.bits.setWidth 64) 128 0
      f pa) = f pa := by
  have hplace := h.place
  unfold Context.low at hplace
  rw [h.cap, Res.ok_bind, hplace, Res.ok_bind]

section
variable {s : State} {o : DstCap} {pa : Nat} (hc : Clear s o.h) (ho : On s o.h) (hg : AreaGrants s o.a pa) (hs : Sends s [] o.d)
include hc ho hg hs

theorem tcontReady_unknown (hn : stoppedAt (s.used [] (some o.d)) s.cur pa = none) :
    Answered (.tcontReady o) s (s.used [] (some o.d)) o.d (refusal 6) := by
  refine hs.answered (body := tcontReadyBody o) hc ho (.refl _) rfl ((hg.grants _).trans (blockingCmd_answered hs ?_))
  simp only [hn]

theorem tcontReady_readies {e : Stopped} (he : stoppedAt (s.used [] (some o.d)) s.cur pa = some e) (hn : e.notice = none) :
    Answered (.tcontReady o) s (enterPool (dropStopped (s.used [] (some o.d)).counted (dieOf s.cur) e.gti) (dieOf s.cur)
      { e.task with pinned := none }) o.d e.gti := by
  obtain ⟨-, -, -, -, hu, -⟩ := hs.has.words_used
  refine hs.answered (body := tcontReadyBody o) hc ho
    ((counted_pairs _).trans ((dropStopped_sameCores ..).trans (enterPool_sameCores ..)).pairs) rfl
    ((hg.grants _).trans (blockingCmd_answered hs ?_))
  simp only [he, hn, hu.counts, Option.isNone_none, ask_true, Res.ok_bind, Res.pure_eq]

end

/-- The state in which a stopped task of `u` has ended with a status: its area free, its firing or member told (R264). -/
def endStopped (u : State) (die : Nat) (e : Stopped) (w : Word) : State :=
  retireTask (releaseArea (dropStopped u.counted die e.gti) e.task) e.task.waitCore e.task w false 3

theorem endStopped_pairs (u : State) (die : Nat) (e : Stopped) (w : Word) : PairsKept u (endStopped u die e w) := by
  have hdrop : PairsKept u (dropStopped u.counted die e.gti) := (counted_pairs u).trans (dropStopped_sameCores ..).pairs
  exact hdrop.trans ((releaseArea_sameCores ..).pairs.trans (retireTask_pairs ..))

section
variable {s : State} {o : TcontEndOps} {pa : Nat} (hc : Clear s o.h) (ho : On s o.h) (hg : AreaGrants s o.a pa)
  (hs : Sends s [o.b] o.d)
include hc ho hg hs

theorem tcontEnd_unknown (hn : stoppedAt (s.used [o.b] (some o.d)) s.cur pa = none) :
    Answered (.tcontEnd o) s (s.used [o.b] (some o.d)) o.d (refusal 6) := by
  refine hs.answered (body := tcontEndBody o) hc ho (.refl _) rfl ((hg.grants _).trans (blockingCmd_answered hs ?_))
  simp only [hn]

/-- The task ends; where its job lives on, the scratchpads it was the last to use may be orphans (R264, R450). -/
theorem tcontEnd_ends {e : Stopped} (he : stoppedAt (s.used [o.b] (some o.d)) s.cur pa = some e) (hn : e.notice = none)
    (hdone : allDone (s.used [o.b] (some o.d)) (e.gti.toNat * 2 + 1) = true) :
    ∃ job : Option Job, (e.task.member = none → job = none) ∧
      let r := endStopped (s.used [o.b] (some o.d)) (dieOf s.cur) e (arg (s.words [o.b]) 0)
      Answered (.tcontEnd o) s (if job.isSome then orphanAfterEnd r e.task.member else r) o.d e.gti := by
  obtain ⟨-, -, -, -, hu, -⟩ := hs.has.words_used
  refine ⟨e.task.member.bind fun m =>
      (releaseArea (dropStopped (s.used [o.b] (some o.d)).counted (dieOf s.cur) e.gti) e.task).job m.1, fun hm => by rw [hm]; rfl, ?_⟩
  refine hs.answered (body := tcontEndBody o) hc ho
    ((endStopped_pairs (s.used [o.b] (some o.d)) (dieOf s.cur) e (arg (s.words [o.b]) 0)).trans ?_) rfl
    ((hg.grants _).trans (blockingCmd_answered hs ?_))
  · split
    · exact (orphanAfterEnd_sameCores ..).pairs
    · exact .refl _
  · simp only [he, hn, hdone, hu.counts, Option.isNone_none, ask_true, Res.ok_bind, Res.pure_eq]
    rfl

end

/-! TREC (R259, R264). -/

/-- The pending continuation a TREC names. -/
def namesCont (s : State) (o : TrecOps) : PendCont → Bool := fun e =>
  e.gti == arg (s.words [o.b]) 0 && e.record == (s.ctx s.cur).low o.a && e.ident.part == (s.ctx s.cur).ident.part &&
    ((s.ctx s.cur).ident.custodian || e.ident.vf == (s.ctx s.cur).ident.vf)

section
variable {s : State} {o : TrecOps} {pa : Nat}

/-- A continuation taken from its die's table. -/
def dropCont (u : State) (die : Nat) (e : PendCont) : State :=
  u.modDie die fun d => { d with conts := d.conts.filter (· != e) }

/-- What the engine answers a TREC, in the state in which it is counted. -/
def trecAnswer (s v : State) (o : TrecOps) (pa : Nat) : Word × State :=
  match (s.die (dieOf s.cur)).conts.find? (namesCont s o) with
  | none => (refusal 6, v)
  | some e =>
    if !current v e.ident then (refusal 7, dropCont v (dieOf s.cur) e)
    else
      match readRec v (s.ctx s.cur).ident pa (((s.ctx s.cur).reg o.a).cap.perm.getLsbD 3) with
      | none => (refusal 1, v)
      | some r =>
        match createTask (dropCont v (dieOf s.cur) e) (s.ctx s.cur).ident (coreOf s.cur) e.member none
          (withArgs r ((argList o.arg o.narg).map (s.ctx s.cur).reg)) with
        | .error w => (w, v)
        | .ok a => (a.1, foldMember a.2 e.member 0)

section
variable {v : State}

theorem trecAnswer_unknown (h : (s.die (dieOf s.cur)).conts.find? (namesCont s o) = none) : trecAnswer s v o pa = (refusal 6, v) := by
  rw [trecAnswer, h]

variable {e : PendCont} (h : (s.die (dieOf s.cur)).conts.find? (namesCont s o) = some e)
include h

theorem trecAnswer_stale (hcur : current v e.ident = false) : trecAnswer s v o pa = (refusal 7, dropCont v (dieOf s.cur) e) := by
  simp only [trecAnswer, h, hcur, Bool.not_false, if_true]

theorem trecAnswer_creates {r : Rec} {w : Word} {u : State} (hcur : current v e.ident = true)
    (hr : readRec v (s.ctx s.cur).ident pa (((s.ctx s.cur).reg o.a).cap.perm.getLsbD 3) = some r)
    (hm : createTask (dropCont v (dieOf s.cur) e) (s.ctx s.cur).ident (coreOf s.cur) e.member none
      (withArgs r ((argList o.arg o.narg).map (s.ctx s.cur).reg)) = .ok (w, u)) :
    trecAnswer s v o pa = (w, foldMember u e.member 0) := by
  simp only [trecAnswer, h, hcur, hr, hm, Bool.not_true, Bool.false_eq_true, if_false]

end

theorem trecAnswer_pairs (v : State) : PairsKept v (trecAnswer s v o pa).2 := by
  have hdrop : ∀ e, PairsKept v (dropCont v (dieOf s.cur) e) := fun e => SameCores.pairs ⟨rfl, rfl⟩
  unfold trecAnswer
  split
  · exact .refl v
  next e _ =>
    split
    · exact hdrop e
    · split
      · exact .refl v
      · split
        · exact .refl v
        next a hmade => exact (hdrop e).trans ((createTask_sameCores hmade).pairs.trans (foldMember_pairs ..))

variable (hg : EngineGrants s o.a permLd 128 128 0 pa) (hk : Known s (argList o.arg o.narg)) (hs : Sends s [o.b] o.d)
include hg hk hs

theorem trecBody_granted :
    trecBody o s.cur s =
      let a := trecAnswer s (s.asked [o.b] (some o.d)) o pa
      answer a.2 s.cur o.d a.1 := by
  obtain ⟨-, -, -, -, hu, -⟩ := hs.has.words_used
  obtain ⟨hcap, hat⟩ := hg
  have hknown : (!((argList o.arg o.narg).any fun i => (s.ctx s.cur).pendG i)) = true := by
    rw [Bool.not_eq_true', List.any_eq_false]
    exact fun i hi => by rw [hk i hi]; nofun
  have hasked : countSent (s.used [o.b] (some o.d)) s.cur = s.asked [o.b] (some o.d) := hu.counts
  have hc := countEvent_counted (s.used [o.b] (some o.d)) (coreOf s.cur) 5 1
  have hdie : (s.asked [o.b] (some o.d)).die (dieOf s.cur) = s.die (dieOf s.cur) := by
    rw [← hasked]
    exact (hc.die _).trans (by rw [hu.whole]; rfl)
  have hident : ((s.asked [o.b] (some o.d)).ctx s.cur).ident = (s.ctx s.cur).ident := by
    rw [← hasked]
    exact (congrArg Context.ident (hc.ctx _)).trans hu.ident
  unfold Context.low at hat
  unfold argList at hknown
  simp only [trecBody, hcap, hat, hknown, ask_true, Res.ok_bind]
  refine blockingCmd_answered hs ?_
  simp only [hasked, hdie, hident]
  generalize hfind : (s.die (dieOf s.cur)).conts.find? (namesCont s o) = found
  have hnamed := hfind
  unfold namesCont Context.low at hnamed
  simp only [trecAnswer, hfind, hnamed]
  cases found with
  | none => rfl
  | some e =>
    cases hcur : current (s.asked [o.b] (some o.d)) e.ident with
    | false => simp only [hcur, Bool.not_false, if_true, dropCont]
    | true =>
      cases hrec : readRec (s.asked [o.b] (some o.d)) (s.ctx s.cur).ident pa (((s.ctx s.cur).reg o.a).cap.perm.getLsbD 3) with
      | none => simp only [hcur, Bool.not_true, Bool.false_eq_true, if_false]
      | some r =>
        simp only [hcur, Bool.not_true, Bool.false_eq_true, if_false]
        unfold dropCont argList
        generalize createTask _ _ _ _ _ _ = made
        cases made <;> rfl

theorem trec_answered (hc : Clear s o.h) (ho : On s o.h) {u : State} {w : Word}
    (h : trecAnswer s (s.asked [o.b] (some o.d)) o pa = (w, u)) : Answered (.trec o) s u o.d w := by
  have hbody := trecBody_granted hg hk hs
  have hpairs := trecAnswer_pairs (s := s) (o := o) (pa := pa) (s.asked [o.b] (some o.d))
  rw [h] at hbody hpairs
  exact hs.answered hc ho ((counted_pairs _).trans hpairs) rfl hbody

end

/-- Settles O35: each body comes down to what its engine answers, which makes no pair. -/
theorem stoppedTasksAreAnswered : Obligations.StoppedTasksAreAnswered := by
  unfold Obligations.StoppedTasksAreAnswered
  refine ⟨fun o s pa hc ho hcap hat hs => ⟨fun hn => ?_, fun e he hn => ?_⟩,
    fun o s pa hc ho hcap hat hs => ⟨fun hn => ?_, fun e he hn hd => ?_⟩, fun o s pa hc ho hg hk hs => ?_⟩
  · exact tcontReady_unknown hc ho ⟨hcap, hat⟩ hs hn
  · exact tcontReady_readies hc ho ⟨hcap, hat⟩ hs he hn
  · exact tcontEnd_unknown hc ho ⟨hcap, hat⟩ hs hn
  · obtain ⟨job, hjob, h⟩ := tcontEnd_ends hc ho ⟨hcap, hat⟩ hs he hn hd
    refine ⟨fun hm => ?_, _, ?_, h⟩
    · rw [hjob hm] at h
      exact h
    · split
      · exact .inr rfl
      · exact .inl rfl
  · exact ⟨fun hn => trec_answered hg hk hs hc ho (trecAnswer_unknown hn), fun e he =>
      ⟨fun hcur => trec_answered hg hk hs hc ho (trecAnswer_stale he hcur),
        fun r w u hcur hr hm => trec_answered hg hk hs hc ho (trecAnswer_creates he hcur hr hm)⟩⟩

end Sys2Proof.Machine
end

section
/-! SUPPORT. A joint partition that is made while a dirty tile of another partition's region lies over the place of its public key
(R148, R319, R446): the store of the key writes the tile back, and the region's status takes its flags. -/

namespace Sys2Proof.Machine

/-! Flags a region's status has taken stay there, whatever is stored (R148). -/

/-- Some region of a partition has raised a flag. -/
def RegionRaised (s : State) (p : Nat) : Prop := ∃ r ∈ (s.part p).regions, r.status ≠ 0

theorem RegionRaised.of_parts {s t : State} {p : Nat} (h : RegionRaised s p) (ht : t.parts = s.parts) : RegionRaised t p := by
  unfold RegionRaised State.part at h ⊢
  rwa [ht]

/-- Flags OR'ed into regions' status clear none of them. -/
theorem regionFlags_raised {s : State} {p : Nat} (h : RegionRaised s p) (q : BitVec 8) (id : BitVec 16) (f : BitVec 6) :
    RegionRaised (regionFlags s q id f) p := by
  obtain ⟨r, hr, hraised⟩ := h
  unfold regionFlags
  split
  · exact ⟨r, hr, hraised⟩
  · unfold RegionRaised
    rw [State.modPart_at_part]
    split
    next hq =>
      subst hq
      refine ⟨_, List.mem_map_of_mem hr, ?_⟩
      split
      · exact fun h0 => hraised (BitVec.or_eq_zero_iff.1 h0).1
      · exact hraised
    next => exact ⟨r, hr, hraised⟩

theorem tileFlags_raised {s : State} {p : Nat} (h : RegionRaised s p) (t : Tile) : RegionRaised (tileFlags s t) p := by
  unfold tileFlags
  split
  · exact regionFlags_raised h ..
  · exact h

theorem foldl_raised {α : Type} {f : State → α → State} {p : Nat} (hf : ∀ s a, RegionRaised s p → RegionRaised (f s a) p) :
    ∀ (l : List α) {s : State}, RegionRaised s p → RegionRaised (l.foldl f s) p
  | [], _, h => h
  | a :: l, _, h => foldl_raised hf l (hf _ a h)

theorem tileWrite_raised {s : State} {p : Nat} (h : RegionRaised s p) (pa : Nat) : RegionRaised (tileWrite s pa) p := by
  unfold tileWrite
  dsimp only
  split
  · exact h
  · exact foldl_raised (fun _ t h => tileFlags_raised h t) _ (h.of_parts rfl)

/-- A byte stored at a home raises what the tiles over it do. -/
theorem homePoke_parts {s : State} {pa a : Nat} (ha : loc s pa = some a) (b : Byte) :
    (homePoke s pa b).parts = (tileWrite s pa).parts := by
  unfold homePoke
  rw [ha]
  dsimp only
  split <;> rfl

theorem homePoke_raised {s : State} {p : Nat} (h : RegionRaised s p) (pa : Nat) (b : Byte) : RegionRaised (homePoke s pa b) p := by
  cases ha : loc s pa with
  | none =>
    unfold homePoke
    rw [ha]
    exact h
  | some a => exact (tileWrite_raised h pa).of_parts (homePoke_parts ha b)

/-- What the first byte of a store raises is raised after it. -/
theorem homeStore_raises {s : State} {p pa : Nat} {b : Byte} (h : RegionRaised (homePoke s pa b) p) (bs : List Byte) :
    RegionRaised (homeStore s pa (b :: bs)) p := by
  unfold homeStore
  dsimp only
  rw [List.mapIdx_cons, List.foldl_cons]
  refine foldl_raised (fun s line h => ?_) _ (foldl_raised (fun s c h => homePoke_raised h c.1 c.2) _ h)
  exact h.of_parts rfl

theorem fixBytes_cons (n : Nat) : ∀ l : List Byte, ∃ b bs, fixBytes (n + 1) l = b :: bs
  | [] => ⟨_, _, rfl⟩
  | b :: _ => ⟨b, _, rfl⟩

/-! The state. -/

/-- Region 5 of partition 1, one tile of 32 elements at the bottom of stack 0. -/
def flaggedRegion : Region :=
  { id := 5, part := 1, vf := 0, world := true, ndim := 1, layout := 0, sfmt := 8, cfmt := 8, rmode := .rne, base := 0
    dims := [32], tile := [32], scale := 0 }

/-- Its first tile is cached, dirty, and has raised a flag; partition 0 is off, and its KPUB names the bottom of stack 0 too. -/
def tileOverKey : State :=
  { State.reset with
    bases := [(0, { tiles :=
      [{ part := 1, id := 5, k := 0, bytes := List.replicate 128 0, pa := 0, n := 128, dirty := true, flags := 1 }] })]
    parts := [(1, { en := true, regions := [flaggedRegion] })] }

/-- A write of PCTL that makes a protected joint partition with key slot 1. -/
def jointOn : Word := 0xE000000000000001

def custodianWriter : Writer := { custodian := true, part := 0xFF, vf := 0, world := true }

theorem tileOverKey_quiet : ¬ RegionRaised tileOverKey 1 := by
  unfold RegionRaised
  decide

theorem pctlEnable_joint : exec (.pctlEnable 0 custodianWriter jointOn) tileOverKey = .next (pctlOn tileOverKey 0 jointOn) := by
  have hexec : exec (.pctlEnable 0 custodianWriter jointOn) tileOverKey = execPctlEnable 0 custodianWriter jointOn tileOverKey := rfl
  have hoff : (tileOverKey.part 0).en = false := rfl
  have hon : jointOn.getLsbD 63 = true := by decide
  have hgood : pctlRefused tileOverKey 0 jointOn = false := by decide
  rw [hexec, execPctlEnable, if_pos ⟨rfl, by decide, hon⟩, writePctl, hoff, hon]
  dsimp only
  rw [hgood, if_neg (by nofun)]

/-- The first byte of the public key takes the tile away, and the flag reaches the region of partition 1. -/
theorem pctlOn_raises : RegionRaised (pctlOn tileOverKey 0 jointOn) 1 := by
  have hjoint : jointOn.getLsbD 61 = true := by decide
  obtain ⟨b, bs, hkey⟩ := fixBytes_cons 1567 (Config.kemPublic (tileOverKey.sec.draws + 1))
  unfold pctlOn
  dsimp only
  rw [if_pos hjoint, hkey]
  refine homeStore_raises (.of_parts ?_ (homePoke_parts (a := 0) (by decide) b)) bs
  unfold RegionRaised
  decide

/-- Refutes O59: PCTL_ENABLE is to change no other partition, but the public key of a joint partition is stored as any bytes are,
and where a dirty tile of another partition's region lies there, that region's status takes the tile's flags. -/
theorem not_partitionsAndRegisters : ¬ Obligations.PartitionsAndRegisters := by
  unfold Obligations.PartitionsAndRegisters
  rintro ⟨-, -, -, -, hpctl, -⟩
  obtain ⟨-, hmade⟩ := hpctl tileOverKey 0 custodianWriter jointOn (by decide) rfl (by decide) rfl
  obtain ⟨u, hexec, -, -, -, -, -, -, -, -, -, -, hothers, -⟩ := hmade (by decide)
  have hu : u = pctlOn tileOverKey 0 jointOn := by
    rw [pctlEnable_joint] at hexec
    injection hexec with h
    exact h.symm
  have hraised : RegionRaised u 1 := by rw [hu]; exact pctlOn_raises
  have hkept : u.part 1 = tileOverKey.part 1 := hothers 1 (by decide)
  unfold RegionRaised at hraised
  rw [hkept] at hraised
  exact tileOverKey_quiet hraised

end Sys2Proof.Machine
end
